-- ==== Sys2Proof/Word.lean ====
section
/-! DEFINITION. The words of the TXM-860 and the one container its state is made of. -/

namespace Sys2Proof

abbrev Byte := BitVec 8
abbrev Half := BitVec 16
abbrev Word := BitVec 32
abbrev DWord := BitVec 64
/-- A conveyor position in counts, arithmetic modulo 2^48 (R24). -/
abbrev Pos := BitVec 48
/-- A position in the Calendar's form: [63:16] count [47:0], [15:0] fraction (R258). -/
abbrev Fine := BitVec 64

/-- A sparse table by key: keys strictly rising, and no entry equal to what an unlisted key holds.
The value of an unlisted key is given where the table is read and written (`Tab.get`, `Tab.set`). -/
abbrev Tab (α : Type) := List (Nat × α)

/-- Bytes of a memory by address; an unlisted address reads 0x00 (the assumption log, 2). -/
abbrev Mem := Tab Byte

end Sys2Proof
end

