-- ==== Sys2Proof/Syntax.lean ====
section
/-! DEFINITION. The commands of the TXM-860: one constructor of Instr for each row of spec/opcode_table.json.
The table gives its rows no operands: they are what the rule the row cites says the command carries
(the assumption log, 3). -/

namespace Sys2Proof

/-! ## Operands of engine operations (R227, R228) -/

/-- Where a region lies (R227). -/
inductive Space where
  | unused | tile | pool | bonded | host | remote | track | recipe
  deriving DecidableEq, Repr

/-- A region descriptor (R227): space, address and length in bytes. -/
structure Region where
  space : Space
  addr : Nat
  len : Nat
  deriving DecidableEq, Repr

/-- Number formats and their codes (R138). -/
inductive Fmt where
  | int8 | uint8 | int4 | int16 | code2 | code3 | code4 | bf16 | fp16 | fp32 | int32
  deriving DecidableEq, Repr, Inhabited

/-- The classes of operations (R111). -/
inductive OpClass where
  | move | matrix | window | vector | digest | gate | fence | wait | culvert
  deriving DecidableEq, Repr

/-- The common part of an operation record (R227): the engine it issues on and the context it belongs to, its layer
number, flags, formats, regions and declared cycles. -/
structure OpHdr where
  eng : Fin 6
  ctx : Fin 64
  layer : Fin 4096 := 0
  dig : Bool := false
  prov : Bool := false
  vary : Bool := false
  sig : Bool := false
  afmt : Fmt := .int8
  wfmt : Fmt := .int8
  ofmt : Fmt := .int8
  reads : List Region := []
  writes : List Region := []
  cycles : Nat := 0
  deriving DecidableEq, Repr

/-- How a MATMUL forms its activation codes (R149 to R151, R160). -/
inductive Quant where
  | static (scale : Word) (zp : Int)
  | rowSym
  | rowU8
  | bf16
  deriving DecidableEq, Repr, Inhabited

/-- Operands of MATMUL: read 0 the activations (M x K), read 1 the weights (N x K), read 2 the scales
(per output channel, then per group), read 3 the biases. The weights' region goes on with the codebook (`cbLen` entries for each
block of 128 output channels) and the escape side list (`sides` entries) (R155, R158); outlier channels as values. -/
structure MatParams where
  m : Nat
  k : Nat
  n : Nat
  quant : Quant
  group : Nat
  wzp : Int := 0
  cbLen : Nat := 0
  escape : Bool := false
  sides : Nat := 0
  outliers : List Nat := []
  outScale : Option (Word × Int) := none
  deriving DecidableEq, Repr, Inhabited

/-- How QSTATIC is used (R148, R160): as the static input of a matrix operation or as its output quantiser, with the values
of a row and the row positions of the outliers it leaves to the outlier path. -/
structure StaticUse where
  input : Bool
  k : Nat
  excl : List Nat
  deriving DecidableEq, Repr, Inhabited

/-- Block lock reached at a port (R48): `skew` in ps between the lanes of a 100GBASE-R port, and whether the partner signals
remote fault. -/
structure LockReport where
  port : Fin 16
  skew : Nat
  remote : Bool
  deriving DecidableEq, Repr, Inhabited

/-- Block lock lost at a port: whether the receive amplitude still exceeds 80 mV (R50). -/
structure LockLoss where
  port : Fin 16
  amplitude : Bool
  deriving DecidableEq, Repr, Inhabited

/-- The pixel clock of a parallel input lost (R83): the valid clocks of the line in progress, 0 where none is, and its data. -/
structure ClockLoss where
  input : Fin 2
  clocks : Nat
  data : List Byte
  deriving DecidableEq, Repr, Inhabited

/-- One axis of a layer (R170): filter, stride, dilation, padding before and after. -/
structure AxisParams where
  k : Nat
  s : Nat := 1
  d : Nat := 1
  p0 : Nat := 0
  p1 : Nat := 0
  deriving DecidableEq, Repr, Inhabited

/-- The tensor blocks behind a window operation's input (R106, R176, R177, R180): the regions of their headers, oldest first,
the last of the task's line block; their layout and OZP; and the vertical axes of the layers between the blocks and this
operation's input, first layer first (none: the input holds the blocks' own rows, block by block). -/
structure TensorParams where
  heads : List Region
  layout : Fin 3 := 0
  ozp : Int := 0
  above : List AxisParams := []
  deriving DecidableEq, Repr, Inhabited

/-- Parameters of a window operation (R169, R229): input rows, columns and channels, filter, stride, dilation, padding,
groups; its stripe in output columns (0: one stripe); STREAM, ROI, and the tensor blocks it names (R176, R177, R180); and the
weight tensor as a MATMUL takes it, over the reduction index of R174. -/
structure WinParams where
  h : Nat
  w : Nat
  c : Nat
  kh : Nat
  kw : Nat
  sh : Nat := 1
  sw : Nat := 1
  dh : Nat := 1
  dw : Nat := 1
  pt : Nat := 0
  pb : Nat := 0
  pl : Nat := 0
  pr : Nat := 0
  g : Nat := 1
  pad : Fin 4 := 0
  countPad : Bool := false
  stream : Bool := false
  roi : Bool := false
  tensor : Option TensorParams := none
  conn8 : Bool := false
  lbUnits : Nat := 1
  const : Nat := 0
  lmax : Nat := 1
  stripe : Nat := 0
  mat : MatParams
  deriving DecidableEq, Repr, Inhabited

/-- Operands of ATTN_ABSORB (R188, R189): read 0 the query codes, one head after another, a read region naming the track's
pages; S segments, H heads and their width, the query scale, the layer of the stack, the row of the query and the format
expected of the stored latent. -/
structure AttnParams where
  segs : Nat
  heads : Nat := 1
  headWidth : Nat := 64
  sq : Word
  stackLayer : Nat
  row : Nat
  expect : Fmt
  deriving DecidableEq, Repr, Inhabited

/-- Operands of KV_EXPAND (R188, R190): a read region naming the track's pages, read 1 the weights (outs x r_l), read 2 their
scales, one FP32 an output. -/
structure ExpandParams where
  segs : Nat
  heads : Nat := 1
  headWidth : Nat := 64
  stackLayer : Nat
  row : Nat
  outs : Nat
  wzp : Int := 0
  expect : Fmt
  deriving DecidableEq, Repr, Inhabited

/-- A part track as an OPEN names it (R185). -/
structure TrackParams where
  sluice : Fin 18
  c0 : Nat
  nc : Nat
  th : Nat
  tw : Nat
  b0 : Nat
  resv : Nat
  first : Nat := 0
  part : Nat := 0
  deriving DecidableEq, Repr, Inhabited

/-- A predicate of COUNT (R111). -/
inductive CmpOp where
  | eq | ne | lt | le | gt | ge
  deriving DecidableEq, Repr

/-- The counts that a CHECK compares (R162). -/
structure CheckMask where
  inn : Bool
  acc : Bool
  out : Bool
  deriving DecidableEq, Repr

/-- The signal of a Culvert operation (R233): the word, the value, and the control core to notify. -/
structure SignalArg where
  word : Region
  v : DWord
  notify : Option (Fin 8) := none
  deriving DecidableEq, Repr

/-- Widths of a CULVERT ADD (R232). -/
inductive AddWidth where
  | int32 | int64 | fp32 | bf16
  deriving DecidableEq, Repr

/-! ## Frames and packets -/

/-- A GVSP packet (R66, R67, R74). -/
inductive GvspKind where
  | leader (accepted : Bool) (width height : Nat) (pixelFormat : Word)
  | payload (data : List Byte)
  | trailer
  | chunk (data : List Byte)
  | unaccepted
  deriving DecidableEq, Repr

structure Gvsp where
  ext : Bool
  block : Nat
  packet : Nat
  ok : Bool
  resent : Bool
  kind : GvspKind
  deriving DecidableEq, Repr

/-- A PTP message as the port stamps it (R68, R69). -/
inductive PtpKind where
  | sync | delayReq | pdelayReq | pdelayResp | general
  deriving DecidableEq, Repr

structure Ipv4 where
  src : Word
  udpDst : Option Nat
  fragment : Bool
  sumOk : Bool
  deriving DecidableEq, Repr

inductive FramePayload where
  | none
  | gvsp (g : Gvsp)
  | ptp (p : PtpKind)
  /-- A pause frame of 802.3x, or of PFC for some priorities; in quanta of 512 bit times. -/
  | pause (pfc : Option Byte) (quanta : Nat)
  deriving DecidableEq, Repr

/-- A received Ethernet frame (R60, R61); `fill` is what stands in the receive buffer as it arrives, in bytes. -/
structure Frame where
  len : Nat
  fill : Nat := 0
  fcsOk : Bool
  errBlock : Bool := false
  tags : Nat := 0
  etherType : Half
  ip : Option Ipv4 := none
  payload : FramePayload := .none
  deriving DecidableEq, Repr

/-- A RoCEv2 request as it reaches the responder (R63, R64, R367). -/
inductive RoceReq where
  | write (addr : Nat) (data : List Byte)
  | writeImm (addr : Nat) (data : List Byte) (imm : Word)
  | read (addr len : Nat)
  | fetchAdd (addr : Nat) (len : Nat) (v : DWord)
  | cmpSwap (addr : Nat) (len : Nat) (cmp swap : DWord)
  | send
  deriving DecidableEq, Repr

/-- An answer as it reaches the requester (R63, R64). -/
inductive RoceResp where
  | ack (count : Nat)
  | nak (seqErr : Bool)
  | readData (data : List Byte)
  | atomicOld (v : DWord)
  deriving DecidableEq, Repr

/-! ## Verdict submissions (R250, R251) -/

structure Defect where
  kind : Half
  score : Half
  x0 : Half
  x1 : Half
  y0 : Half
  y1 : Half
  deriving DecidableEq, Repr

/-- A submission entry (R251): kind 1 ADMIT, 2 DECIDE, 3 both. -/
structure SubEntry where
  kind : Nat
  cls : Nat
  status : Half
  part : Nat
  firstOff : Nat
  lastOff : Nat
  firstBlock : Nat
  x0 : Nat
  x1 : Nat
  confidence : Half
  lastBlock : Nat
  defectsFound : Nat
  defects : List Defect
  deriving DecidableEq, Repr

/-- A submission (R250) as it stands at the verdict intake, with the layer records it carries and names. -/
structure Submission where
  ctx : Nat
  block : Nat
  close : Bool
  deep : Bool
  proving : Bool
  entries : List SubEntry
  records : List (List Byte)
  names : List Nat
  deriving DecidableEq, Repr

/-- Where a PUT goes: a region, or the verdict intake (R228, R250). -/
inductive PutTarget where
  | region
  | intake (s : Submission)
  deriving DecidableEq, Repr

/-! ## Calendar entries (R262) -/

inductive CalKind where
  | on | off | swap | changeover | prove | mark
  deriving DecidableEq, Repr

/-- A Calendar entry as software writes it: `kind` as the four bits of R262. -/
structure CalWord where
  pos : Fine
  kind : Fin 16
  axis : Fin 4
  dir : Bool
  tag : Half
  operand : Word
  deriving DecidableEq, Repr

/-! ## Host descriptors (R347, R348) -/

/-- A scheduling block (R322). -/
structure SchedBlock where
  prio : Nat
  cls : Nat
  sliceUs : Nat
  deriving DecidableEq, Repr

/-- A stream block (R347). -/
structure StreamBlock where
  format : Nat
  chroma : Nat
  width : Nat
  height : Nat
  rate : Nat
  qdepth : Nat
  qp : Nat
  lagMs : Nat
  base : Nat
  deriving DecidableEq, Repr

/-- A work or admin descriptor names its function, its tag and whether it interrupts (R347, R348). -/
structure DescHdr where
  fn : Fin 7
  ring : Nat
  tag : DWord
  irq : Bool := false
  deriving DecidableEq, Repr

/-- Session parameters of a REPLAY (R305). -/
structure ReplayParams where
  source : Nat
  stage : Nat := 0
  stream : Nat := 0
  contexts : BitVec 18
  b1 : Nat
  b2 : Nat
  recipe : Nat
  images : List Nat
  warm : Nat
  pipe : Fin 4
  result : Nat
  resultLen : Nat
  deriving DecidableEq, Repr

/-- A slice segment that failed to decode (R313). -/
structure SliceError where
  poc : Nat
  segment : Nat
  firstCtu : Nat
  lastCtu : Nat
  deriving DecidableEq, Repr

/-! ## Equinox and proxies (R362, R370) -/

inductive EqType where
  | tick | release | ping
  deriving DecidableEq, Repr

structure EqDown where
  typ : EqType
  hop : Nat
  barrier : Word
  mask : Half
  late : Half
  dTail : Nat
  level : Nat
  mixed : Bool
  preset : Bool
  crcOk : Bool
  deriving DecidableEq, Repr

structure EqUp where
  hop : Nat
  arrived : Half
  mask : Half
  crcOk : Bool
  deriving DecidableEq, Repr

/-- A proxy message (R370) but for its kind. -/
structure ProxyMsg where
  proxy : Fin 16
  seq : Word
  slot : DWord
  on : Fine
  off : Fine
  deadline : Fine
  block : Nat
  record : List Byte
  deriving DecidableEq, Repr

/-- What a peer's member descriptor shows (R361). -/
structure PeerDesc where
  lineId : Word
  index : Nat
  hops : Nat
  level : Nat
  rev : Nat
  deriving DecidableEq, Repr

/-! ## Resets and power -/

/-- The scopes of R402. -/
inductive Scope where
  | engine (e : Fin 6)
  | compute
  | processor
  | cold
  deriving DecidableEq, Repr

/-- How far a boot chain came (R426, R456). -/
inductive BootCheck where
  | ok
  | puf
  | counters
  | descriptor
  | otherModule
  | image
  | svn
  deriving DecidableEq, Repr

inductive Warden where
  | n | s
  deriving DecidableEq, Repr

/-- A status frame of a valve board (R290), as received. -/
structure ValveStatus where
  seq : Byte
  cmdErr : Bool
  supply : Bool
  overtemp : Bool
  safe : Bool
  faults : BitVec 128
  crcOk : Bool
  phase : Fin 8
  deriving DecidableEq, Repr

/-- The commands. -/
inductive Instr where
  -- setup registers
  | setupWrite (fn : Fin 7) (off : Nat) (v : Word)
  | barBadAccess (fn : Fin 7)
  | counterReadClear (fn : Fin 7) (off : Nat)
  | seal (v : Word)
  -- axes
  | axisEnable (n : Fin 4) (v : Word)
  | incrementalEdge (n : Fin 4) (a b : Bool)
  | zQualified (n : Fin 4)
  | presetGo (n : Fin 4) (v : Word)
  | absoluteFrame (n : Fin 4) (raw check : Nat) (nE nW : Bool)
  | bissAckTimeout (n : Fin 4)
  | absoluteFrameStart (n : Fin 4)
  | wireFaultDetect (n : Fin 4) (pairs : BitVec 4)
  | wireFaultClear (n : Fin 4)
  | axisFailsafeRelease (n : Fin 4)
  | speedCountEval (n : Fin 4)
  | standstill (n : Fin 4)
  | emuEnable (n : Fin 2) (v : Word)
  | emuEdge (n : Fin 2)
  -- module time
  | timeSnap (v : Word)
  | timeStepGo (v : Word)
  | timeStepApply
  | timeRateWrite (hi : Word)
  | timeServoWrite (v : Word)
  | sync (offset : Int) (interval : Nat)
  | holdover
  -- lanes and ports
  | portEnable (n : Fin 16) (v : Word)
  | adapt (n : Fin 16) (ctle : Fin 16) (taps : BitVec 30)
  | blockLock (n : LockReport)
  | blockLockLoss (n : LockLoss)
  | hiBerEnter (n : Fin 16)
  | hiBerClear (n : Fin 16)
  | fecCodeword (n : Fin 16) (errors : Nat) (correctable : Bool)
  | txPllUnlock (q : Fin 4) (fast : Bool)
  | txPllRelock (q : Fin 4) (fast : Bool)
  | txLpiEnter (n : Fin 16)
  | lpiRefresh (n : Fin 16)
  | txLpiWake (n : Fin 16)
  | rxLpi (n : Fin 16)
  | eyeGo (n : Fin 16) (v : Word)
  | eyeStop (n : Fin 16) (v : Word)
  | eyePointEnd (n : Fin 16) (errors : BitVec 48)
  /-- Port 16 is the management port M. -/
  | frameReceived (n : Fin 17) (f : Frame)
  | roceRequest (qp : Fin 1024) (ce : Bool) (key : Word) (r : RoceReq)
  | cnpReceived (qp : Fin 1024)
  | roceResponse (qp : Fin 1024) (r : RoceResp)
  | roceAckTimeout (qp : Fin 1024)
  | dcqcnRateIncrease (qp : Fin 1024) (byTimer : Bool)
  -- Sluices
  | sluiceEnable (k : Fin 18) (v : Word)
  | holdExpiry (k : Fin 18)
  | parallelLine (p : Fin 2) (clocks : Nat) (data : List Byte)
  | pixelClockLost (p : ClockLoss)
  | pixelClockResume (p : Fin 2) (kHz : Word)
  | lineBlockHandoff (k : Fin 18)
  -- pipes
  | pipeBlockStart (p : Fin 4)
  | pipeBlockDone (p : Fin 4)
  | arm (p s : Fin 4) (v : Word)
  | shadowLoaded (p s : Fin 4)
  | cancel (p s : Fin 4) (v : Word)
  -- engines: sequencer
  | engCfgWrite (e : Fin 6) (v : Word)
  | ordShareWrite (i : Fin 2) (v : Word)
  | taskPlace (p : Fin 6)
  | opComplete (id : Nat)
  | opRetire (id : Nat)
  | sequencerFault (e : Fin 6)
  | gateResolve (e : Fin 6)
  | deliveryExcursion (e : Fin 6) (stall : Nat)
  | taskOverBound (e : Fin 6)
  | taskHung (e : Fin 6)
  | waitBlockPoll (e : Fin 6)
  -- engines: operations
  | copy (o : OpHdr)
  | waitBlock (o : OpHdr) (expect : Nat)
  | open_ (o : OpHdr) (t : TrackParams)
  | append (o : OpHdr)
  | appendCopyDone (handle : Word) (page : Nat)
  | kvWrite (o : OpHdr) (row : Nat) (stackLayer segs : Nat)
  | close (o : OpHdr)
  | openBuild (o : OpHdr) (t : TrackParams)
  | closePublish (o : OpHdr)
  | matmul (o : OpHdr) (p : MatParams)
  | attnAbsorb (o : OpHdr) (p : AttnParams)
  | kvExpand (o : OpHdr) (p : ExpandParams)
  | conv (o : OpHdr) (p : WinParams)
  | dwconv (o : OpHdr) (p : WinParams)
  | maxpool (o : OpHdr) (p : WinParams)
  | minpool (o : OpHdr) (p : WinParams)
  | avgpool (o : OpHdr) (p : WinParams)
  | label (o : OpHdr) (p : WinParams)
  | vecAdd (o : OpHdr)
  | vecSub (o : OpHdr)
  | vecMul (o : OpHdr)
  | vecFma (o : OpHdr)
  | vecDiv (o : OpHdr)
  | vecSqrt (o : OpHdr)
  | vecExp2 (o : OpHdr)
  | vecLog2 (o : OpHdr)
  | vecRcp (o : OpHdr)
  | vecRsqrt (o : OpHdr)
  | vecMax (o : OpHdr)
  | vecMin (o : OpHdr)
  | cvt (o : OpHdr)
  | trunc (o : OpHdr)
  | satadd (o : OpHdr)
  | satsub (o : OpHdr)
  | sum (o : OpHdr)
  | rmax (o : OpHdr)
  | qstatic (o : OpHdr) (scale : Word) (zp : Int) (input : StaticUse)
  | qrow (o : OpHdr) (excl : List Nat)
  | qrowU8 (o : OpHdr) (excl : List Nat)
  | check (o : OpHdr) (limit : Fin 65536) (mask : CheckMask)
  | count (o : OpHdr) (op : CmpOp) (v : Word)
  | rand (o : OpHdr) (n : Nat)
  | squeeze (o : OpHdr)
  | digestAbsorb (o : OpHdr)
  | gate (o : OpHdr) (target : Fin 65)
  | fence (o : OpHdr) (scope : Fin 4)
  | wait (o : OpHdr) (word : Region) (threshold : DWord) (timeoutUs : Nat)
  | waitTimeout (ctx : Fin 64)
  | put (o : OpHdr) (t : PutTarget) (sg : Option SignalArg)
  | get (o : OpHdr) (sg : Option SignalArg)
  | culvertAdd (o : OpHdr) (w : AddWidth) (v : DWord) (sg : Option SignalArg)
  | cas (o : OpHdr) (cmp swap : DWord) (sg : Option SignalArg)
  | signal (o : OpHdr) (sg : SignalArg)
  -- verdicts and the Calendar
  | batchForm (group : BitVec 18) (block : Nat)
  | deadline (k : Fin 18) (slot : Nat)
  | calWrite (d : DescHdr) (e : CalWord)
  | calOnFire (axis : Fin 4) (idx : Nat)
  | calOffFire (axis : Fin 4) (idx : Nat)
  | calSwapFire (axis : Fin 4) (idx : Nat)
  | calChangeoverFire (axis : Fin 4) (idx : Nat)
  | calProveFire (axis : Fin 4) (idx : Nat)
  | calMarkFire (axis : Fin 4) (idx : Nat)
  | proveDeadline (rule : Fin 16)
  | valveFrame
  | valveStatusFrame (b : Fin 2) (f : ValveStatus)
  | valveStatusMiss (b : Fin 2)
  | heartbeatLoss
  | engage (v : Word)
  | release (v : Word)
  | vuEnable (v : Word)
  -- field section
  | diFilteredEdge (i : Fin 16) (level : Bool)
  | diCfgWrite (i : Fin 16) (v : Word)
  | diEvtPop (v : Word)
  | fieldSupplySample (mV : Half)
  | doThermalShutdown (n : Fin 16)
  | doThermalRestart (n : Fin 16)
  | doClear (v : Word)
  | doMismatch (n : Fin 16)
  -- codec, rewind, replay
  | rewindDisable (v : Word)
  | rewindEnable (v : Word)
  | archiveJobStart
  | archiveJobEnd
  | archRposWrite (hi : Word)
  | streamOpen (d : DescHdr) (ring : Nat) (encode : Bool) (b : StreamBlock)
  | streamClose (d : DescHdr) (stream : Nat)
  | streamResume (d : DescHdr) (stream : Nat)
  | au (d : DescHdr) (irap : Bool) (addr len : Nat)
  | picture (d : DescHdr) (offset : Nat)
  | pictureDone (encode : Bool) (stream : Nat) (errors : List SliceError)
  | decoderBudgetWindow
  | streamLagSuspend (stream : Nat)
  | decoderLoadHigh (permille : Nat)
  | replay (d : DescHdr) (r : ReplayParams)
  | replayBlockFeed (session : Fin 4)
  -- polders and scheduling
  | polderCreate (p : Fin 6) (v : Word)
  | resize (p : Fin 6) (v : Word)
  | destroy (p : Fin 6) (v : Word)
  | ctxCreate (d : DescHdr) (ring : Nat) (b : SchedBlock)
  | ctxDestroy (d : DescHdr) (ctx : Nat)
  | schedulePoll (c : Fin 64)
  | switchIn (e : Fin 6) (c : Fin 64)
  | sliceEnd (c : Fin 64)
  | blockSwap (p : Fin 6)
  | spareCfgWrite (v : Word)
  | lend (v : Word)
  | reclaim (v : Word)
  | noSpareNotice
  -- recipes and the tree of shared pages
  | recipeLoad (d : DescHdr) (addr len : Nat)
  | recipeUnload (d : DescHdr) (recipe : Nat)
  | changeover (d : DescHdr) (k : Fin 18) (when_ : Fin 4) (vf : Fin 7) (recipe : Nat) (at_ : Nat)
  | residencyStep (recipe : Nat)
  | run (d : DescHdr) (recipe code firstTask taskCount : Nat) (cycleList : Option Nat) (params : List Byte)
  | build (d : DescHdr) (recipe code firstTask taskCount : Nat) (cycleList : Option Nat) (params : List Byte)
  | epochTick
  | kvEnable (v : Word)
  | kvQuotaWrite (p : Fin 6) (v : Word)
  | pfxEnable (v : Word)
  | bar4Write (fn : Fin 7) (addr : Nat) (data : List Byte)
  -- host interface
  | ringEnable (fn : Fin 7) (i : Fin 64) (v : Word)
  | ringDisable (fn : Fin 7) (i : Fin 64) (v : Word)
  | submissionDoorbell (fn : Fin 7) (i : Fin 64) (v : Word)
  | releaseDoorbell (fn : Fin 7) (i : Fin 64) (v : Word)
  | descriptorFetch (fn : Fin 7) (i : Fin 64)
  | descriptorFetchFail (fn : Fin 7) (i : Fin 64)
  | hostReadFail (id : Nat)
  | eventWindowEnd (code : Half) (kind inst : Byte)
  | interruptTimer (fn : Fin 7) (i : Fin 64)
  | linkTrained (width rate : Nat)
  | vfFlr (fn : Fin 7)
  | pf0Flr
  | hotReset
  | perst
  -- lines of modules
  | lineJoin (v : Word) (peers : List (Nat × PeerDesc))
  | eqHeadFrame
  | eqDownstreamFrame (f : EqDown)
  | eqUpstreamFrame (f : EqUp)
  | eqLinkLoss (up : Bool)
  | eqCal (v : Word) (upPs dnPs : Nat)
  | eqRemeasure (upPs dnPs : Nat)
  | eqArrive (v : Word)
  | barrierTimeout
  | barrierReleaseAction
  | proxyAdmit (m : ProxyMsg)
  | proxySeal (m : ProxyMsg)
  | proxyClose (m : ProxyMsg)
  | proxyRingFull (k : Fin 18)
  | peerAreaPart (j : Fin 16)
  -- power, clocks, Almanac
  | almanacTick (energy : List Nat)
  | almSettingWrite (env : Bool) (v : Word)
  | clockStopDetect (domain : Fin 25)
  | crossingReopen (crossing : Nat)
  | sleep (v : Word)
  | wake (v : Word)
  | thermalSample (logic : List Int) (dram : List Int)
  | thermalShutdown
  | thermalRestart
  -- faults and resets
  | engineReset (e : Fin 6)
  | engineResetDone (e : Fin 6)
  | computeReset
  | processorReset
  | processorResetEnd
  | coldBoot (c : BootCheck)
  | coldBootComplete
  | resetEscalate (s : Scope)
  | fabricRequestTimeout (kind : Byte)
  | handshakeTimeout (s : Scope) (kind : Byte)
  | codecStall
  | coreWatchdog (c : Fin 8)
  | kick (c : Fin 8) (v : Word)
  | rstEngine (v : Word)
  | rstCompute (v : Word)
  | rstProcessor (v : Word)
  | leaseRequest (w : Warden)
  | leaderDemote (w : Warden)
  | wardenSilent (w : Warden)
  | freezeDetect
  | hexkeugFlush (code : Half)
  | hexSelWrite (v : Word)
  | replaceClear (v : Word)
  -- security
  | firmwareUpdate (readBackOk : Bool)
  | ownerRecord
  | attestation
  | debugChallenge
  | debugToken
  | debugLock
  | debugLifetimeExpiry
  | lineSoftware
  | readCertificate
  | secColdBoot
  -- power pins
  | powerOn
  | powerLoss
  | nrstReq (ns : Nat)
  | rxLpiWake (n : Fin 16)
  | msixVectorUnmask (fn : Fin 7) (vector : Nat)
  | functionPowerState (fn : Fin 7) (d3 : Bool)
  | computeResetDone
  | nrstReqRelease
  deriving DecidableEq, Repr

end Sys2Proof
end

