-- ==== Sys2Proof/Decode.lean ====
section
/-! DEFINITION. The commands that words spell by the bits of the opcode table. -/

namespace Sys2Proof

/-- The command a word spells: the table gives no row any bits, so no word spells one (the assumption log, 1). -/
def decodeTableWord (_nbits _w : Nat) : Option Instr := none

end Sys2Proof
end

