-- ==== Sys2Proof/Config.lean ====
section
/-! DEFINITION. What an implementation fixes and what the spec leaves open: constants without a body, so that no
claim can rest on a value of theirs. -/

namespace Sys2Proof.Config

/-- Ed448ph verification with an empty context (R424): public key, message, signature. -/
opaque ed448Verify : List Byte → List Byte → List Byte → Bool
/-- Ed448ph signing with the module's identity key (R424, R434): seed, message. -/
opaque ed448Sign : List Byte → List Byte → List Byte
/-- The Ed448 public key of a seed (R423). -/
opaque ed448Public : List Byte → List Byte
/-- X448 with the module's own key (R432): private key, public key. -/
opaque x448 : List Byte → List Byte → List Byte
/-- The X448 public key of a private key (R423). -/
opaque x448Public : List Byte → List Byte
/-- AES-256-GCM decryption (R432): key, nonce, additional data, ciphertext, tag; none where the tag fails. -/
opaque aesGcmOpen : List Byte → List Byte → List Byte → List Byte → List Byte → Option (List Byte)
/-- The root key the PUF reconstructs; none where reconstruction fails (R423). -/
opaque pufRoot : Option (List Byte)
/-- The four Reltum public keys of the boot ROM (R426). -/
opaque romKey : Fin 4 → List Byte
/-- The identity certificate of the module flash (R422). -/
opaque identityCertificate : List Byte
/-- The signed module descriptor, 8,192 bytes (R455). -/
opaque descriptor : List Byte
/-- Fresh nonces of the SEC domain (R436), by a running number. -/
opaque freshNonce : Nat → List Byte
/-- The HEVC or JPEG bitstream of a picture (R302): QP, lossless, columns, lines, chroma format, samples. -/
opaque encodePicture : Nat → Bool → Nat → Nat → Nat → List Byte → List Byte
/-- The picture the decoder gives for an access unit (R309): stream format, access unit. -/
opaque decodePicture : Nat → List Byte → List Byte
/-- The six check bits of an SSI frame under ABS_CHECK 3: the spec gives no polynomial for SSI (R28): S, position. -/
opaque ssiCrc6 : Nat → Nat → Nat
/-- A value the spec leaves undefined, by a running number. -/
opaque freeNat : Nat → Nat
/-- A choice the spec leaves open, by a running number. -/
opaque freeBool : Nat → Bool
/-- The byte a parameter image holds in the shadow bank when the host wrote it before LOADED (R101): true where the
later write reached the bank, by a running number and the byte's offset. -/
opaque lateImageByte : Nat → Nat → Bool
/-- What an FP32 operation gives where the real operation has no value (R147): operation, operands. -/
opaque fpOpen : Nat → Word → Word → Word → Word

/-- Where a context's 256-byte running digest state lies in its polder's pool store allocation (R238). -/
opaque digestState : Nat → Nat
/-- Token record size, stored format code, layers and segments of a recipe's prefix and layer stack, which its programs
declare in parameters the spec lays out nowhere (R188, R192, R204): the container. -/
opaque recipeShape : List Byte → Nat × Nat × Nat × Nat

/-- The offset at which a container is placed in a polder's allocation (R319, R432): polder, recipe index, length. -/
opaque recipePlace : Nat → Nat → Nat → Nat
/-- The operands that an operation's record declares in its class parameters, where the spec lays them out nowhere (R229):
of a MATRIX, a WINDOW operation beyond the fields of R229, the attention forms, an OPEN; and of a quantiser its zero point,
outlier channels and row length. -/
opaque matParams : List Byte → MatParams
opaque winParams : List Byte → WinParams
opaque attnParams : List Byte → AttnParams
opaque expandParams : List Byte → ExpandParams
opaque trackParams : List Byte → TrackParams
opaque quantDecl : List Byte → Int × List Nat × Nat
/-- The size of the candidate set that a job's parameters name, and the most candidates a recipe declares for a part (R20, R21):
parameters, digest. -/
opaque candidates : List Byte → Nat
opaque candidateMax : List Byte → Nat
/-- The page of the tile store from which a recipe's resident regions lie (R114): its digest. -/
opaque residentPage : List Byte → Nat

/-- The Sluice context that a source index of a recipe stands for (R242, R268): recipe, index. -/
opaque recipeSource : Nat → Nat → Nat
/-- The batch size and fill period that a batch group's program declares (R253), less 1: group. -/
opaque batchShape : Nat → Nat × Nat
/-- A PTP stamp in ns as it is corrected by a PMA delay and by the port's asymmetry, whose signs and rounding the spec does
not give (R68): egress, PMA delay in 1/16 ns, asymmetry, module time in ns. -/
opaque ptpCorrect : Bool → Nat → Int → Nat → Int
/-- The priority on which a port's own frames go out, which the spec does not give (R61): port. -/
opaque txPriority : Nat → Fin 8
/-- Mismatches an eye scan has counted so far, of the bits compared (R58): lane, when the point began, bits. -/
opaque eyeErrors : Nat → Nat → Nat → Nat

/-- The bitstream of an encode stream's picture (R294, R347): format, chroma format, QP, width, height, samples. -/
opaque encodeStream : Nat → Nat → Nat → Nat → Nat → List Byte → List Byte
/-- Where a picture lies behind its stream's frame-buffer base, and its error map or bitstream (R309): index, bytes. -/
opaque framePlace : Nat → Nat → Nat × Nat
/-- The CTU that holds a byte of a decoded picture, and how many CTUs it has, as its bitstream's CTU size gives them
(R309, R313): bitstream, width, height, byte. -/
opaque frameCtu : List Byte → Nat → Nat → Nat → Nat
opaque frameCtus : List Byte → Nat → Nat → Nat
/-- The lines and columns of a CTU (R314): bitstream, width, height, CTU. -/
opaque ctuArea : List Byte → Nat → Nat → Nat → Nat × Nat × Nat × Nat
/-- The line block record and pipe set digest that a decoded picture's lines go with (R306, R309): context, block, session
sets. -/
opaque streamRecord : Nat → Nat → Nat → List Byte
/-- The batch group of a deep-stage recipe, 0 where it is none (R253, R305): recipe. -/
opaque deepGroup : Nat → BitVec 18
/-- The status of a part that a replayed program never decides (R307): a running number. -/
opaque replayStatus : Nat → Nat

/-- The delay in ps from the head to the neighbour before a member, and from the head to the tail, as the chain measures
them (R364): index. -/
opaque chainBefore : Nat → Nat
opaque chainTail : Nat → Nat
/-- The payload bytes that a certificate, a firmware version or a debug log have beyond what the spec lays out: place. -/
opaque firmwareVersion : BitVec 32

end Sys2Proof.Config
end

