-- ==== Sys2Proof/Machine/State.lean ====
section
/-! DEFINITION. The state of the module: plain data, everything the spec gives it, and the state after reset. -/

namespace Sys2Proof.Machine

/-- Why a command could stop the model with a fault. No command of this model raises one: every command of the table
has an effect in the spec. -/
inductive Fault where
  /-- Raised by nobody; safe, since a stop proves nothing about the hardware. -/
  | stuck
  deriving DecidableEq, Repr

/-- Why a command could be refused. -/
inductive Refusal where
  /-- Raised by `exec` alone, for a command without a meaning yet; safe, since nothing is claimed of it. -/
  | notModelled (mnemonic : String)
  deriving DecidableEq, Repr

/-! ## Records, rings and reports -/

/-- An entry of the Hexkeug record (R418). -/
structure HexEntry where
  code : Half := 0
  source : Half := 0
  seconds : Word := 0
  nanos : Word := 0
  detail : Word := 0
  deriving DecidableEq, Repr

/-- The 1 ms window of one code and source (R476): when it opened, the occurrences counted in it that are not posted,
and the payload of the first of them. -/
structure EventWindow where
  openedAt : Nat
  counted : Nat := 0
  payload : List Byte := []
  deriving DecidableEq, Repr

/-- An entry of a configuration report (R451). -/
structure RepEntry where
  seq : Word := 0
  code : Half := 0
  outcome : Byte := 0
  fn : Byte := 0
  off : Word := 0
  low : Byte := 0
  width : Byte := 0
  written : Word := 0
  applied : Word := 0
  subject : DWord := 0
  deriving DecidableEq, Repr

/-- A completion record but for its seal word and the fields filled in at writing (R351). -/
structure CompRec where
  status : Half := 0
  flags : Half := 0
  retired : Nat := 0
  result : DWord := 0
  failTask : Word := 0xFFFFFFFF#32
  failOp : Half := 0
  detail : List Byte := []
  deriving DecidableEq, Repr

/-- A descriptor read and not yet reported (R346, R351): its tag, its IRQ flag, and its record once it is complete. -/
structure PendDesc where
  tag : DWord
  irq : Bool := false
  done : Option CompRec := none
  deriving DecidableEq, Repr

/-- A ring of a function (R343): its registers and what the module keeps of it. -/
structure Ring where
  en : Bool := false
  base : DWord := 0
  log2 : Nat := 6
  vector : Nat := 0
  time : Nat := 0
  cnt : Nat := 1
  seq : Word := 0
  db : Word := 0
  rel : Word := 0
  err : Bool := false
  armed : Bool := false
  /-- When TIME began to run (R354): the later of arming and of u leaving 0; none while u is 0. -/
  timerFrom : Option Nat := none
  /-- Records written whose descriptor had IRQ set, not yet signalled. -/
  irqDue : Bool := false
  /-- Descriptors read and not yet reported, oldest first. -/
  pend : List PendDesc := []
  /-- Events lost since the last one written (R352). -/
  lostRun : Nat := 0
  /-- The onset of 0x3031 has been posted and has not cleared (R353). -/
  fullPosted : Bool := false
  /-- What is bound to a work submission ring: 0 nothing, 1 a context, 2 a stream (R347). -/
  bound : Nat := 0
  deriving DecidableEq, Repr

/-- What every post and record touches: host memory, rings, event windows, the Hexkeug record, the configuration
reports, LAST_CODE fields, the delivery queues and MSI-X. -/
structure Log where
  host : Mem := []
  rings : Tab Ring := []
  windows : List (Nat × EventWindow) := []
  /-- Posts made once per onset that have not cleared. -/
  onsets : List Nat := []
  hex : Tab HexEntry := []
  hexHead : Word := 0
  reports : Tab RepEntry := []
  repHeads : Tab Word := []
  lastCodes : Tab Half := []
  ringLost : Tab Word := []
  /-- Sealed records that wait for their verdict ring: lane k, and 18 for the proving ring (R353). -/
  queues : Tab (List (List Byte)) := []
  /-- Messages sent, by function and vector. -/
  msixSent : Tab Nat := []
  msixUnmasked : List Nat := []
  msixPending : List Nat := []
  /-- Functions in D3hot (R358). -/
  d3 : List Nat := []
  deriving DecidableEq, Repr

/-! ## Axes, emulation outputs, module time -/

/-- An axis (R22): what it has counted and what its status shows. Stamps are module time in 2^-48 ns. -/
structure Axis where
  pos : Pos := 0
  a : Bool := false
  b : Bool := false
  /-- The last count was negative (DIR). -/
  neg : Bool := false
  /-- |last delta| of an absolute axis, in counts (R44). -/
  delta : Nat := 1
  /-- The newest counts, newest first: stamp and position after the count. -/
  hist : List (Int × Pos) := []
  /-- Counts since the last reversal (R36). -/
  run : Nat := 0
  /-- Direction of the last legal transition since enable (R26); 0 where there has been none. -/
  legal : Int := 0
  /-- When the last count came, on the physical clock (R36). -/
  lastAt : Nat := 0
  /-- The period and count estimates in 1/64 ct/s (R34). -/
  period : Int := 0
  counted : Int := 0
  /-- The count method is in force (R35). -/
  method : Bool := false
  /-- Positions at the evaluations of the count method, newest first (R34). -/
  window : List Pos := []
  still : Bool := false
  lastP : Option Nat := none
  fails : Nat := 0
  absFault : Bool := false
  wire : BitVec 4 := 0
  /-- When the last fault cleared while its outputs stay in fail-safe (R267). -/
  clearedAt : Option Nat := none
  zpos : Pos := 0
  /-- A qualified Z has been latched into ZPOS (R33). -/
  zdone : Bool := false
  /-- Direction of the last Z latch; none before the first (R27). -/
  zdir : Option Bool := none
  /-- Stamp of the absolute frame under way: its first clock edge plus LATCH_DELAY (R45). -/
  frameStart : Option Int := none
  /-- When its first clock edge came, on the physical clock (R29). -/
  frameAt : Nat := 0
  /-- Line delay of the last BiSS C frame in ns (R29). -/
  lineDelay : Nat := 0
  warn : Bool := false
  deriving DecidableEq, Repr

/-- An emulation output (R37, R38). -/
structure Emu where
  acc : Int := 0
  target : Int := 0
  emitted : Int := 0
  ovf : Bool := false
  /-- Levels driven, as the place in the forward sequence 00, 10, 11, 01. -/
  phase : Nat := 0
  lastEdge : Nat := 0
  /-- Output counts since the last Z under ZMODE 2, and whether Z is driven. -/
  z : Bool := false
  deriving DecidableEq, Repr

/-- Module time and the PTP servo (R39 to R43). -/
structure TimeU where
  /-- Module time in 2^-48 ns. -/
  t : Nat := 0
  /-- Module time runs: false from a cold boot until it completes (R40). -/
  running : Bool := false
  rate : Int := 0
  /-- RATE as the host last wrote it: what the configuration image holds (R406). -/
  hostRate : Int := 0
  epoch : Byte := 0
  /-- TIME_STATE.STATE: 0 free-run, 1 acquiring, 2 locked, 3 holdover. -/
  servo : Nat := 0
  stepped : Bool := false
  offset : Int := 0
  cosc : Int := 0
  sumO : Int := 0
  inRow : Nat := 0
  /-- No Sync has come since acquiring began (R41). -/
  firstSync : Bool := true
  lastSync : Nat := 0
  interval : Nat := 0
  stepPending : Option Int := none
  posted4101 : Option Nat := none
  /-- The delay mechanism last used: false delay-request-response, true peer-delay (R69). -/
  peerDelay : Bool := false
  snapTime : Nat := 0
  snapPos : List Fine := []
  deriving DecidableEq, Repr

/-! ## Lanes, ports, queue pairs -/

/-- A serial lane (R50 to R59). -/
structure Lane where
  ctle : Nat := 0
  dfe : BitVec 30 := 0
  adapted : Bool := false
  txLpi : Bool := false
  rxLpi : Bool := false
  cdr : Bool := false
  signal : Bool := false
  eyeRun : Bool := false
  eyeDone : Bool := false
  eyeShed : Bool := false
  /-- When the point under way began, when its receiver entered low-power idle, and the ns it has spent there (R57, R58). -/
  eyeFrom : Nat := 0
  quietFrom : Nat := 0
  eyeQuiet : Nat := 0
  eyeBits : BitVec 48 := 0
  eyeErr : BitVec 48 := 0
  deriving DecidableEq, Repr

/-- An Ethernet port (R47 to R61). -/
structure Port where
  locked : Bool := false
  hiBer : Bool := false
  remoteFault : Bool := false
  idleSince : Nat := 0
  lpiRefreshAt : Nat := 0
  /-- When transmit low-power idle began, and when a wake under way ends (R56). -/
  lpiFrom : Nat := 0
  wakeAt : Option Nat := none
  /-- Frames queued and held, and until when received pause holds them (R55, R56, R61). -/
  txHeld : Nat := 0
  pauseUntil : Nat := 0
  /-- RoCEv2 packets queued, each marked ECT(0) (R65). -/
  ect0 : Nat := 0
  /-- Bytes in the receive buffer, and the PFC priorities paused (R61). -/
  fill : Nat := 0
  paused : Byte := 0
  /-- Frames handed to line software, newest last: the length, and the stamp of PTP messages. -/
  toSoftware : List (Nat × Option Int) := []
  /-- Stamp of the last PTP event message, in ns (R68). -/
  ptpStamp : Int := 0
  /-- Stamp of the last PTP event message sent, in ns, and whether the frame carried it (R68). -/
  ptpTx : Option (Int × Bool) := none
  deriving DecidableEq, Repr

/-- State of a queue pair (R63). -/
inductive QpState where
  | idle | ready | error
  deriving DecidableEq, Repr

/-- An operation a requester has sent and that is not complete: the engine operation it belongs to (R63, R368). -/
structure Outstanding where
  op : Nat
  /-- A READ or an atomic (R63). -/
  read : Bool := false
  retries : Nat := 0
  sentAt : Nat := 0
  deriving DecidableEq, Repr

/-- A queue pair (R63 to R65). Owner: 0 PF0, 1 to 6 VFs, 16 + k Sluice context k, 64 + m the line unit for peer m. -/
structure Qp where
  state : QpState := .idle
  port : Nat := 0
  owner : Nat := 0
  key : Word := 0
  base : Nat := 0
  len : Nat := 0
  rights : BitVec 3 := 0
  outstanding : List Outstanding := []
  cnpAt : Option Nat := none
  /-- Transmit rate in kb/s, DCQCN's α in 1/65,536 and its target rate. -/
  rate : Nat := 0
  target : Nat := 0
  alpha : Nat := 65536
  increases : Nat := 0
  /-- When the rate-increase timer last ran out or was started, and the bytes sent since the byte counter last did (R65). -/
  incAt : Nat := 0
  incBytes : Nat := 0
  timeoutExp : Nat := 14
  retryLimit : Nat := 7
  /-- The member it reaches, where it is a queue pair of the line (R367). -/
  peer : Option Nat := none
  /-- Path MTU in bytes. -/
  mtu : Nat := 4096
  /-- When it entered error. -/
  errAt : Nat := 0
  deriving DecidableEq, Repr

/-! ## Sluices and pipes -/

/-- A line's own stamp (R75): module time, epoch, the four positions with fractions, AXIS_SUSPECT. -/
structure LineStamp where
  t : Nat
  epoch : Nat
  pos : List Fine
  suspect : BitVec 4 := 0
  deriving DecidableEq, Repr

/-- A line of an open block. -/
structure Line where
  got : List (Nat × Nat) := []
  data : Mem := []
  /-- Its absent data is declared missing. -/
  missing : Bool := false
  stamp : Option LineStamp := none
  /-- When the first datum of a later line came (R80). -/
  laterAt : Option Nat := none
  breakBefore : Bool := false
  status : Half := 0
  deriving DecidableEq, Repr

structure OpenBlock where
  b : Nat
  lines : List Line
  deriving DecidableEq, Repr

/-- A line as handed on (R76, R84, R85): its data with every missing column filled. -/
structure LineOut where
  n : Nat
  data : Mem := []
  stamp : LineStamp
  missing : Bool := false
  concealed : Bool := false
  fault : Bool := false
  interp : Bool := false
  breakBefore : Bool := false
  refused : Bool := false
  firstCol : Nat := 0xFFFF
  lastCol : Nat := 0xFFFF
  status : Half := 0
  deriving DecidableEq, Repr

/-- A line block as handed on with its record (R76). -/
structure LineBlock where
  ctx : Nat
  b : Nat
  refused : Bool := false
  brk : Bool := false
  track : Bool := false
  width : Nat
  status : Half := 0
  mask : BitVec 256 := BitVec.allOnes 256
  lines : List LineOut
  deriving DecidableEq, Repr

/-- What is kept of a line block: its record (R76), and from its tensor block header the set used, the flags of each
line after R96 (concealed, fault, refused), and the recipe active for it (R219). -/
structure BlockRec where
  block : LineBlock
  piped : Bool := false
  gen : Half := 0
  digest : List Byte := []
  marks : List (Bool × Bool × Bool) := []
  /-- The recipe active for it, with its digest and its policy, which outlast its unloading (R219). -/
  recipe : Option Nat := none
  recipeDigest : List Byte := []
  policy : Option (List Nat × Nat × Nat) := none
  deriving DecidableEq, Repr

/-- A Sluice context (R71 to R89). -/
structure Sluice where
  run : Bool := false
  blocks : List OpenBlock := []
  /-- The oldest block not handed on, and the line number after the newest seen. -/
  next : Nat := 0
  expect : Nat := 0
  firstId : Option Nat := none
  lastId : Nat := 0
  /-- The line number of the first line of the block `firstId` (R83: numbering continues across a break). -/
  lineBase : Nat := 0
  /-- Lines of an RDMA window with a write discarded because its slot was held (R81). -/
  overrun : List Nat := []
  refusedId : Option Nat := none
  dropPosted : Option Nat := none
  brkNext : Bool := false
  clkLost : Bool := false
  brk : Bool := false
  /-- The last valid line, and the length of the run of missing lines that ends the lines handed on (R84, R85). -/
  lastValid : Option Mem := none
  missRun : Nat := 0
  /-- A valid line stands before the run with no break between. -/
  validBefore : Bool := false
  /-- The two newest lines with their own stamp on this side of the last break, newest first (R75). -/
  stamps : List (Nat × LineStamp) := []
  ringBase : Nat := 0
  ringBytes : Nat := 0
  /-- Blocks in the memory-mode ring (R87). -/
  held : List Nat := []
  warn : Bool := false
  /-- Occupied groups of the newest blocks, newest first (R89). -/
  occupied : List (BitVec 256) := []
  /-- Chunk data and rejected blocks handed to line software with their block. -/
  chunks : List (Nat × List Byte) := []
  /-- GVSP packets reported missing, by block ID and packet ID (R67). -/
  lost : List (Nat × Nat) := []
  /-- The queue pair's error has broken the stream already. -/
  qpBroken : Bool := false
  /-- The receive window of an RDMA source, by offset, and the stamps of the slots whose first byte has come (R81). -/
  window : Mem := []
  slotStamps : List (Nat × LineStamp) := []
  deriving DecidableEq, Repr

/-- A parallel port's measured clock (R82). -/
structure Par where
  kHz : Word := 0
  deriving DecidableEq, Repr

/-- A slot of a line image pipe (R97 to R105). A parameter set is its image of 204,864 bytes. -/
structure Slot where
  ctx : Option Nat := none
  active : Mem := []
  shadow : Mem := []
  pending : Bool := false
  loaded : Bool := false
  img : Nat := 0
  whenSwap : Nat := 0
  at_ : Nat := 0
  /-- Under WHEN 2: the axis, position and direction of the entry that fired (R102). -/
  fired : Option (Nat × Fine × Bool) := none
  /-- The pipe started the target before LOADED was set: the target block (R102). -/
  missed : Option Nat := none
  gen : Half := 0
  applied : Nat := 0
  /-- Blocks handed on and not finished, oldest first; blocks behind that alignment still reads; and the index after
  the newest block started. -/
  queue : List LineBlock := []
  behind : List LineBlock := []
  started : Nat := 0
  /-- Tensor blocks in the output ring that the engines have not released, oldest first. -/
  out : List Nat := []
  outBase : Nat := 0
  outBlocks : Nat := 16
  /-- Bayer blocks whose last line waits for the following line, with their sets and whether the ring was full (R104). -/
  waiting : List (LineBlock × Mem × Bool) := []
  /-- The block at which a swap took effect later than its target (R102). -/
  lateSwap : Option Nat := none
  deriving DecidableEq, Repr

/-- A line image pipe: the slot, block and parameter set it works on, and until when (R105). -/
structure Pipe where
  busy : Option (Nat × LineBlock × Mem × Nat) := none
  inlineBound : Bool := false
  /-- The output ring was full when the in-line block was started, and the lines of it that are written (R104). -/
  dropped : Bool := false
  wrote : Nat := 0
  deriving DecidableEq, Repr

/-! ## Verdicts, the Calendar, outputs -/

/-- An entry held by the Calendar (R262). -/
structure CalEntry where
  pos : Fine
  kind : CalKind
  axis : Nat
  dir : Bool
  tag : Half
  operand : Word
  /-- It had been reached when it was written (R264). -/
  late : Bool := false
  /-- The lane whose ejection wrote it, which its events name (R276, R352). -/
  lane : Option Nat := none
  deriving DecidableEq, Repr

/-- A DO output (0 to 15) or valve channel (16 + global channel): its hold count, when it last left 0, and the spans in
which it was active and that a frame or tick may still need (R264, R287). -/
structure Chan where
  hold : Nat := 0
  onAt : Nat := 0
  spans : List (Nat × Nat) := []
  deriving DecidableEq, Repr

/-- Causes of fail-safe (R272). -/
structure FailSafe where
  heartbeat : Bool := true
  command : Bool := false
  /-- Axes whose bindings are in fail-safe (R267). -/
  axes : List Nat := []
  /-- Lanes whose binding met a full Calendar (R263). -/
  full : List Nat := []
  /-- Outputs in HOLD that were at 1 when fail-safe engaged (R271). -/
  held : List Nat := []
  /-- The heartbeat runs, and since when. -/
  beating : Bool := false
  beatSince : Nat := 0
  deriving DecidableEq, Repr

/-- What a submission's part takes from the task that hands it off: the marks of R231 and R133, the changeover mark of
R219, and the recipe, digests and layer records of its decision (R240). -/
structure Marks where
  varied : Bool := false
  excursion : Bool := false
  recipe : Option Nat := none
  deep : Bool := false
  records : List (List Byte) := []
  deriving DecidableEq, Repr

/-- A verdict slot (R248 to R261): the part, its positions, and what it was sealed with. A proxied part (R370) has its
proxy and the record received. -/
structure Part where
  lane : Nat
  slot : Nat
  part : Nat := 0
  firstBlock : Nat := 0
  firstOff : Nat := 0
  lastBlock : Nat := 0
  lastOff : Nat := 0
  x0 : Nat := 0
  x1 : Nat := 0
  on : Fine := 0
  off : Fine := 0
  deadline : Fine := 0
  /-- Admission was refused with this code; 0 where it was not. -/
  refusal : Half := 0
  /-- Flags set before the seal: TRUNCATED, CAPPED, BROKEN at bits 5 to 7 (R199). -/
  early : Nat := 0
  /-- The track opened for the part, by handle; 0 where none. -/
  track : Word := 0
  /-- Its track's first block, blocks a row, tokens a row, and prefix tokens; and its tokens once the track is closed. -/
  shape : Option (Nat × Nat × Nat × Nat) := none
  tokens : Option Nat := none
  /-- The last line was known when OFF was computed (R261). -/
  offKnown : Bool := false
  /-- Admission submitted it (R251). -/
  admission : Option SubEntry := none
  sealed : Bool := false
  late : Bool := false
  /-- The DECIDE that sealed it. -/
  decide : Option SubEntry := none
  cls : Nat := 0
  action : Nat := 0
  status : Half := 0
  proxy : Option Nat := none
  deriving DecidableEq, Repr

/-- A verdict lane (R248, R249): the next slot, the next slot to deliver, the first block not closed, the highest block
submitted, submissions of blocks whose turn has not come, and admissions of closed blocks (R252). -/
structure VLane where
  nextSlot : Nat := 0
  nextOut : Nat := 0
  closed : Nat := 0
  started : Bool := false
  highest : Nat := 0
  waiting : List (Submission × Marks) := []
  /-- Records sealed that wait for older slots, by slot. -/
  ready : List (Nat × List Byte) := []
  full : Bool := false
  deriving DecidableEq, Repr

/-- An injection under way (R269, R270): its block, first column, first line, the position past which it has missed, and
whether a reject has been sealed. -/
structure ProveRun where
  block : Nat
  col : Nat
  line : Nat
  end_ : Fine
  proved : Bool := false
  deriving DecidableEq, Repr

/-- A proving rule (R268 to R270): the recipe and source index it comes from, where it runs, and its header. -/
structure Proving where
  on : Bool := false
  recipe : Nat := 0
  index : Nat := 0
  axis : Nat := 0
  dir : Bool := false
  source : Nat := 0
  pw : Nat := 1
  ph : Nat := 1
  before : Nat := 0
  after : Nat := 0
  period : Nat := 1
  dl : Nat := 0
  colLo : Nat := 0
  colHi : Nat := 0
  perMin : Nat := 0
  pattern : List Byte := []
  /-- Entries fired whose injection block has not come. -/
  fired : List (Nat × Fine × Bool) := []
  runs : List ProveRun := []
  /-- The shadow ring: tensor blocks by their index. -/
  shadow : List (Nat × List Byte) := []
  /-- Injections started in the minute that began at a time. -/
  minute : Nat := 0
  inMinute : Nat := 0
  deriving DecidableEq, Repr

/-- A member of a batch (R253, R254): a token row's last line block, context, slot, row and column, and whether it is
masked. -/
structure BatchMember where
  last : Nat
  ctx : Nat
  slot : Nat
  row : Nat
  col : Nat
  masked : Bool
  deriving DecidableEq, Repr

/-- A batch (R253): its group, the block it was formed at, and its members; one without a token is padding. -/
structure Batch where
  group : BitVec 18
  block : Nat
  members : List (Option BatchMember)
  deriving DecidableEq, Repr

/-- The verdict unit but for its parts and lanes. -/
structure VerdictU where
  running : Bool := false
  /-- The second that counts records against R16, and the records in it. -/
  rateFrom : Nat := 0
  rateCount : Nat := 0
  /-- Batches formed, oldest first. -/
  batches : List Batch := []
  deriving DecidableEq, Repr

/-! ## Field section -/

/-- A field input (R279, R280). -/
structure Di where
  raw : Bool := false
  out : Bool := false
  deriving DecidableEq, Repr

/-- A field output (R284, R285). -/
structure DoPin where
  tripped : Bool := false
  latched : Bool := false
  /-- The level its pin was last found at against its command (R285). -/
  readback : Option Bool := none
  tripTimes : List Nat := []
  deriving DecidableEq, Repr

/-- The field section (R278, R281). -/
structure FieldU where
  supply : Nat := 0
  ok : Bool := false
  uv : Bool := false
  lowSince : Option Nat := none
  goodSince : Option Nat := none
  /-- The input event FIFO: entries of 64 bytes, oldest first. -/
  fifo : List (List Byte) := []
  /-- Start of the last valve frame, and the frame sequence number (R287). -/
  frameAt : Nat := 0
  frameSeq : Byte := 0
  frames : Nat := 0
  deriving DecidableEq, Repr

/-- A valve bank port (R286 to R291). -/
structure Bank where
  link : Bool := false
  fails : Nat := 0
  echo : Byte := 0
  flags : BitVec 4 := 0
  phase : Nat := 0
  faults : BitVec 128 := 0
  /-- Channels of the last frame sent, the last sent before fail-safe, and the last frame's 20 bytes. -/
  last : BitVec 128 := 0
  lastFree : BitVec 128 := 0
  frame : List Byte := []
  /-- Sequence number of the frame whose status frame is awaited. -/
  awaiting : Option Byte := none
  deriving DecidableEq, Repr
/-! ## Engines: operations, tasks, jobs, contexts (R108 to R136, R238, R317 to R335) -/

/-- The counts of a layer (R161). -/
structure Counts where
  inn : Nat := 0
  acc : Nat := 0
  out : Nat := 0
  nonf : Nat := 0
  deriving DecidableEq, Repr

/-- A layer in the running digest state: counts of the first and the wide pass (R239). -/
structure LayerRun where
  first : Counts := {}
  wide : Counts := {}
  widened : Bool := false
  deriving DecidableEq, Repr

/-- A context's running digest: what its sponge has absorbed since the last SQUEEZE, how many digests that is, and the
per-layer counts (R238). -/
structure RunDigest where
  absorbed : List Byte := []
  taken : Nat := 0
  varied : Bool := false
  layers : Tab LayerRun := []
  deriving DecidableEq, Repr

/-- An operation between issue and retire (R116). -/
structure OpEntry where
  id : Nat
  eng : Nat
  ctx : Nat
  gen : Nat := 0
  cls : OpClass
  opc : Nat := 0
  /-- Its place in program order: job, task, operation of the task. -/
  job : Nat := 0
  task : Nat := 0
  idx : Nat := 0
  layer : Nat := 0
  dig : Bool := false
  prov : Bool := false
  vary : Bool := false
  reads : List Region := []
  writes : List Region := []
  /-- Issued past an unresolved gate and not yet committed. -/
  spec : Bool := false
  complete : Bool := false
  /-- What its writes put in place. -/
  out : List (Region × List Byte) := []
  counts : Counts := {}
  /-- Counters of its engine that its commit adds to, by offset in the engine's block. -/
  tally : List (Nat × Nat) := []
  /-- It belongs to its layer's wide pass. -/
  wide : Bool := false
  /-- A fault held to retire, with the payload of its event (R118). -/
  fault : Half := 0
  detail : List Byte := []
  /-- A code reported in its completion without failing it (R200). -/
  note : Half := 0
  /-- Its operation digest, once complete (R237). -/
  digest : Option (List Byte) := none
  /-- The value of E at its issue, while it reads KV pages (R217). -/
  reader : Option Nat := none
  /-- The CHECK's limit and mask of masked sum: its layer's decision is to widen (R162). -/
  check : Option Bool := none
  /-- A GATE's exit target as an operation index in its task. -/
  gateTo : Option Nat := none
  /-- It waits for the answer of another member (R367). -/
  remote : Bool := false
  /-- The signal that it raises once its data is in place (R233, R234). -/
  sig : Option SignalArg := none
  /-- A WAIT: its word, threshold, and when it times out; a WAIT_BLOCK: the index expected, and whether it has come. -/
  word : Option (Region × DWord) := none
  until_ : Option Nat := none
  block : Option Nat := none
  met : Bool := true
  /-- Cycles declared, and when it issued. -/
  cycles : Nat := 0
  at_ : Nat := 0
  deriving DecidableEq, Repr

/-- A task on an engine (R112, R113). -/
structure TaskRun where
  ctx : Nat
  job : Nat
  idx : Nat
  ops : Nat
  /-- The index of its next operation, and when its first non-WAIT operation issued. -/
  next : Nat := 0
  startAt : Option Nat := none
  waited : Nat := 0
  /-- An ADD or CAS of it has been applied at its target (R236). -/
  atomic : Bool := false
  varied : Bool := false
  excursion : Bool := false
  overBound : Bool := false
  hungPosted : Bool := false
  /-- Provisional operations retired and not yet applied: layer, counts, digest (R162). -/
  held : List (Nat × Counts × List Byte) := []
  /-- Layers whose CHECK has decided to widen. -/
  wide : List Nat := []
  /-- It failed with this code, at this operation. -/
  fail : Half := 0
  failOp : Nat := 0
  /-- It has been re-run once (R397), and it runs again after a reset (R399). -/
  rerun : Bool := false
  redo : Bool := false
  /-- A reset of another engine has it issue again after it retires (R404). -/
  discard : Bool := false
  /-- Handles of tracks its operations have read, each with its operation (R398). -/
  handles : List (Nat × Word) := []
  /-- CHECKs issued: the operation, the layer, and once its GATE has issued the GATE's exit target (R161, R162). -/
  checked : List (Nat × Nat × Option Nat) := []
  /-- Since when it waits on an operation of another task (R132). -/
  blockedFrom : Option Nat := none
  /-- The context's running digest before the first of its operations retired (R238). -/
  snap : Option RunDigest := none
  deriving DecidableEq, Repr

/-- A region that an operation has written, as memory: an engine's tile store (its number), pool store 8, bonded memory 9, host
memory 16 and the polder; and whether the operation's output was empty (R171). -/
structure EmptyMark where
  op : Nat
  kind : Nat
  addr : Nat
  len : Nat
  empty : Bool
  deriving DecidableEq, Repr

/-- A 64-bit word of a tile store (its engine's number) or of the pool store (8) that an ECC error has struck: corrected when
read, or uncorrectable (R118). No command of the table strikes one (the assumption log, 113). -/
structure EccWord where
  kind : Nat
  word : Nat
  bad : Bool
  deriving DecidableEq, Repr

/-- An engine (R108 to R135). -/
structure Engine where
  polder : Option Nat := none
  gen : Nat := 0
  retired : Bool := false
  /-- In reset, and since when. -/
  inReset : Option Nat := none
  clkMHz : Nat := 1200
  task : Option TaskRun := none
  /-- Contexts whose resident regions its tile store holds, and the one that switches in, until when. -/
  resident : List Nat := []
  loading : Option (Nat × Nat) := none
  leaving : Bool := false
  tile : Mem := []
  /-- Since when run-ahead is stopped (R119). -/
  stallFrom : Option Nat := none
  /-- Stamps of its counted resets (R410). -/
  resets : List Nat := []
  /-- Found hung under configuration freeze: it starts no further task (R413). -/
  fenced : Bool := false
  /-- Operations of an earlier generation whose completion has not come (R409). -/
  late : List Nat := []
  deriving DecidableEq, Repr

/-- A job of a context (R348). -/
structure Job where
  id : Nat
  fn : Nat
  ring : Nat
  tag : DWord
  irq : Bool := false
  recipe : Nat
  code : Nat
  first : Nat
  count : Nat
  /-- How often its tasks run, one time for each bucket of its candidate set (R20, R21). -/
  passes : Nat := 1
  build : Bool := false
  cycleList : Option Nat := none
  params : List Byte := []
  /-- Tasks placed so far, tasks whose last operation has retired, operations retired, and tasks to run again. -/
  placed : Nat := 0
  done : Nat := 0
  opsRetired : Nat := 0
  again : List TaskRun := []
  /-- EXCURSION, VARIED, WIDENED, and a task in variable-clock mode, as the record's flags tell (R351); a code reported
  without failing. -/
  excursion : Bool := false
  varied : Bool := false
  widened : Bool := false
  unfixed : Bool := false
  note : Half := 0
  cycles : List Nat := []
  fail : Half := 0
  failTask : Nat := 0
  failOp : Nat := 0
  /-- A reset of its function has discarded it: it writes no record (R358). -/
  silent : Bool := false
  deriving DecidableEq, Repr

/-- A context (R322 to R331). -/
structure Ctx where
  polder : Nat
  ring : Nat
  prio : Nat := 0
  deferrable : Bool := false
  sliceUs : Nat := 0
  bLive : Nat := 0
  nInflight : Nat := 0
  resident : Bool := false
  outSince : Nat := 0
  /-- How long the present slice has run, and since when it runs. -/
  ran : Nat := 0
  runFrom : Option Nat := none
  debt : Nat := 0
  debtPosted : Bool := false
  /-- Its slice has ended: since when, and the context that comes in. -/
  ending : Option (Nat × Nat) := none
  blockedSince : Option Nat := none
  readySince : Nat := 0
  /-- The leading WAIT of its next task is satisfied, as the scheduler last saw it. -/
  waitMet : Bool := true
  /-- The signal word and threshold of that WAIT, while it is not satisfied. -/
  waitOn : Option (Region × DWord) := none
  /-- It is to be destroyed, by this descriptor or by a reset of its function. -/
  doomed : Option (Option DescHdr) := none
  deferred : Bool := false
  jobs : List Job := []
  dig : RunDigest := {}
  deriving DecidableEq, Repr

/-- A polder (R317 to R321). -/
structure Polder where
  made : Bool := false
  base : Nat := 0
  size : Nat := 0
  ps0 : Nat := 0
  psn : Nat := 0
  resMax : Nat := 1
  ctxMax : Nat := 1
  blockUs : Nat := 1
  emptyPosted : Bool := false
  deriving DecidableEq, Repr

/-- The spare (R333 to R335). -/
structure SpareU where
  lent : Option Nat := none
  reclaiming : Bool := false
  takeover : Option Nat := none
  postedAt : Option Nat := none
  deriving DecidableEq, Repr

/-! ## The KV pool and the prefix tree (R185 to R220) -/

/-- A part track in its track slot (R196, R197). -/
structure Track where
  handle : Word := 0
  serial : Nat := 0
  ctx : Nat := 0
  state : Nat := 0
  truncated : Bool := false
  capped : Bool := false
  broken : Bool := false
  clamped : Bool := false
  b0 : Nat := 0
  c0 : Nat := 0
  nc : Nat := 1
  th : Nat := 1
  tw : Nat := 1
  prefixTokens : Nat := 0
  tokens : Nat := 0
  entries : Nat := 0
  resv : Nat := 0
  polder : Nat := 0
  pages : Tab Word := []
  recipe : Nat := 0
  build : Bool := false
  /-- It has stopped growing: rows of it that may be formed, from row 0 (R199). -/
  rows : Option Nat := none
  part : Option (Nat × Nat) := none
  deriving DecidableEq, Repr

/-- A prefix node (R207). -/
structure Node where
  hash : List Byte := []
  slot : Nat := 0
  pins : Nat := 0
  parent : Option Nat := none
  page : Nat := 0
  tokens : Nat := 0
  state : Nat := 0
  refs : Nat := 0
  retiredAt : Nat := 0
  /-- The recipe it was inserted for, while it is building. -/
  builder : Option Nat := none
  deriving DecidableEq, Repr

/-- A copy of a shared partial page under way (R214, R215): the track, its page, the node read, the slot it fills, when it
lands, the epoch it reads at, and the operation that waits for it. -/
structure KvCopy where
  handle : Word
  page : Nat
  node : Nat
  slot : Nat
  at_ : Nat
  epoch : Nat
  op : Nat
  deriving DecidableEq, Repr

/-- An entry of the deferred ring (R217): retire epoch, slot, voided, and its place in the ring. -/
structure Deferred where
  epoch : Nat
  slot : Nat
  voided : Bool := false
  place : Nat := 0
  deriving DecidableEq, Repr

/-- The KV pool and the tree but for tracks and nodes: slots handed out never, slots freed, the deferred ring and the place of
its next entry, and the global epoch (R198, R217). -/
structure KvU where
  running : Bool := false
  slots : Nat := 0
  fresh : Nat := 0
  freed : List Nat := []
  used : Tab Nat := []
  deferred : List Deferred := []
  ringNext : Nat := 0
  treeRunning : Bool := false
  epoch : Nat := 0
  epochFrom : Nat := 0
  copies : List KvCopy := []
  deriving DecidableEq, Repr

/-! ## Recipes (R222 to R246) -/

structure Section where
  typ : Nat
  enc : Bool := false
  ord : Nat := 0
  off : Nat
  len : Nat
  digest : List Byte := []
  deriving DecidableEq, Repr

/-- What an operation record declares to the sequencer (R111, R227): class, opcode, regions. -/
structure OpDecl where
  cls : OpClass
  opc : Nat := 0
  reads : List Region := []
  writes : List Region := []
  deriving DecidableEq, Repr

/-- A program of a CODE section (R226): the operation count and bound of each task, and what its operations declare. -/
structure Prog where
  sec : Nat
  kind : Nat
  bucket : Nat := 0
  tasks : List (Nat × Nat) := []
  decl : List (List OpDecl) := []
  resident : Nat := 0
  bLive : Nat := 0
  nInflight : Nat := 0
  deriving DecidableEq, Repr

/-- A recipe that is loaded (R222 to R225, R209, R219). -/
structure Recipe where
  fn : Nat := 0
  base : Nat := 0
  len : Nat := 0
  digest : List Byte := []
  enc : List Byte := []
  /-- It came encrypted (R432, R436). -/
  encrypted : Bool := false
  rev : Nat := 7
  seed : DWord := 0
  sections : List Section := []
  progs : List Prog := []
  policy : Option (List Nat × Nat × Nat) := none
  prefixTokens : Nat := 0
  /-- Stored format code, layers L and segments S of its layer stack (R192). -/
  kvFmt : Nat := 0
  kvLayers : Nat := 0
  kvSegs : Nat := 0
  hashes : List (List Byte) := []
  tokensOf : List Nat := []
  nodes : List Nat := []
  /-- Residency: pages still to take, and whether it is resident, failed, draining. -/
  todo : Nat := 0
  inserted : List Nat := []
  revived : List Nat := []
  residentAt : Bool := false
  failed : Bool := false
  draining : Bool := false
  buildJob : Bool := false
  /-- The descriptor that waits for its residency: ring, tag, IRQ. -/
  waiting : Option (Nat × DWord × Bool) := none
  /-- Proving rules of its CALENDAR section, as stored (R268). -/
  rules : List (List Byte) := []
  deriving DecidableEq, Repr

/-- A changeover asked for on a context (R219): the recipe, WHEN, AT, and the Calendar entry that fired. -/
structure Changeover where
  recipe : Nat
  when_ : Nat
  at_ : Nat := 0
  fired : Option (Nat × Fine × Bool) := none
  missed : Option Nat := none
  deriving DecidableEq, Repr

/-! ## Rewind buffer and archive (R296 to R304) -/

/-- The rewind buffer's positions; a context's newest entry plus 1, 0 where it has none (R296, R297). -/
structure RewindU where
  wpos : Nat := 0
  ipos : Nat := 0
  last : Tab Nat := []
  deriving DecidableEq, Repr

/-- An archive job (R301): lane, record, first and last block, columns; and once started, the blocks it has encoded,
whether it is partial, and the bitstream. -/
structure ArchJob where
  lane : Nat
  record : List Byte
  b1 : Nat
  b2 : Nat
  col : Nat
  cols : Nat
  started : Bool := false
  partial_ : Bool := false
  entries : List (List Byte) := []
  bits : List Byte := []
  deriving DecidableEq, Repr

/-- The archive (R301 to R304): positions, the ends of its entries not yet taken, and the queue, oldest first. -/
structure ArchiveU where
  wpos : Nat := 0
  rpos : Nat := 0
  ends : List Nat := []
  jobs : List ArchJob := []
  deriving DecidableEq, Repr

/-! ## Lines of modules (R360 to R375) -/

/-- A proxy on the owner (R370, R373): the next message sequence, the OFF of the last CLOSE, the area parts sealed since
the absence began, and whether the lane is handled as absent. -/
structure ProxyIn where
  seq : Nat := 0
  read : Nat := 0
  lastOff : Fine := 0
  nextSlot : Nat := 0
  absent : Bool := false
  areas : Nat := 0
  deriving DecidableEq, Repr

/-- A forwarded lane on the inspecting member (R370): the next message sequence, messages not yet written, and since when
the owner's ring is full. -/
structure FwdOut where
  seq : Nat := 0
  queue : List (List Byte) := []
  fullSince : Option Nat := none
  stopped : Bool := false
  deriving DecidableEq, Repr

/-- The line unit (R360 to R374). -/
structure LineU where
  running : Bool := false
  joined : Bool := false
  incarnation : Nat := 0
  /-- Peers joined, the participating mask as the head last confirmed it, and the members reachable on the chain. -/
  peers : List (Nat × PeerDesc) := []
  mask : Half := 0
  reachable : Half := 0
  calDone : Bool := false
  isolated : Bool := false
  tail : Bool := false
  mixed : Bool := false
  level : Nat := 0
  arrival : Nat := 0
  released : Nat := 0
  /-- The head's view: ARRIVED for the target and since when, bits missing from the last upstream frame, the members
  absent since the last release, and the last BT passing. -/
  arrived : Half := 0
  arrivedFrom : Option Nat := none
  missing : Half := 0
  absent : Half := 0
  /-- Members that count only from the target after this one (R365). -/
  notBefore : List (Nat × Nat) := []
  upPs : Nat := 0
  dnPs : Nat := 0
  calUp : Nat := 0
  calDn : Nat := 0
  newUp : Option Nat := none
  newDn : Option Nat := none
  d : Nat := 0
  dTail : Nat := 0
  failedUp : Nat := 0
  failedDn : Nat := 0
  lostUp : Bool := false
  lostDn : Bool := false
  /-- A release received or sent whose action instant has not come: number, LATE, ABSENT, PRESET, instant (R366). -/
  action : Option (Nat × Half × Half × Bool × Nat) := none
  lastTime : Nat := 0
  /-- Messages written to other members: the member and the bytes. -/
  sent : List (Nat × List Byte) := []
  /-- Frames sent: downstream (release number or 0, LATE), and Culvert interrupts. -/
  release : Option (Nat × Half) := none
  deriving DecidableEq, Repr


/-! ## Leadership (R411 to R414) -/

/-- The lease of the leadership arbiter and the wardens' requests. Once a cold boot has completed Warden-N holds it: both
wardens have asked, and it wins (the assumption log, 20). -/
structure Lead where
  holder : Option Warden := some .n
  /-- The arbiter's last grant to the holder, and when the request was sent whose grant the holder last received. -/
  grantAt : Nat := 0
  sentAt : Nat := 0
  /-- Whether the holder leads: it has not demoted (R412). -/
  leads : Bool := true
  lastN : Option Nat := none
  lastS : Option Nat := none
  /-- 0x5069 has been posted for the present freeze. -/
  frozen : Bool := false
  /-- Detections deferred since freeze began: the scope each requires; none for a control core or a warden. -/
  deferred : List (Option Scope) := []
  deriving DecidableEq, Repr
/-! ## Power, clocks and the Almanac (R377 to R393) -/

/-- The power unit. -/
structure PowerU where
  /-- `PWR_MODE`: 0 run, 2 sleep (R385, R386). -/
  mode : Nat := 0
  /-- The processor is off after a thermal shutdown (R393). -/
  off : Bool := false
  /-- The power conversion is off: no 48 V (R465, R466). -/
  dark : Bool := false
  /-- Clock domains whose clock has stopped without cause, by # − 1 (R381). -/
  stopped : BitVec 25 := 0
  /-- Crossings that are closed (R382): the number of the clock domain in reset. -/
  closed : List Nat := []
  /-- The ledger (R387): balance and the capacity it stands for in nJ, the last tick, the energy of each domain in nJ. -/
  bal : Int := 0
  cap : Nat := 0
  tickAt : Nat := 0
  energy : Tab Nat := []
  /-- Admission lost by balance to deferrable and to sheddable work, and FLOOR (R389, R390). -/
  deferOut : Bool := false
  shedOut : Bool := false
  floor : Bool := false
  /-- Temperatures in 1/16 °C, when last read, and the rows of R391 in force. -/
  tj : Int := 0
  tmem : Int := 0
  readAt : Nat := 0
  kTherm : Nat := 0
  refresh : Bool := false
  warm : Bool := false
  capped : Bool := false
  /-- Since when the shutdown row holds, and since when both temperatures are below 85 °C. -/
  hotFrom : Option Nat := none
  coolFrom : Option Nat := none
  deriving DecidableEq, Repr


/-! ## Codec streams and replay sessions (R294, R295, R305 to R315) -/

/-- A picture submitted to a stream and not complete: its descriptor, whether it is IRAP, and where it lies. -/
structure Picture where
  tag : DWord
  irq : Bool := false
  irap : Bool := false
  addr : Nat
  len : Nat := 0
  started : Bool := false
  deriving DecidableEq, Repr

/-- An open stream (R295, R309 to R311, R347). -/
structure Stream where
  fn : Nat
  ring : Nat
  encode : Bool
  format : Nat
  chroma : Nat
  width : Nat
  height : Nat
  rate : Nat
  qdepth : Nat
  qp : Nat
  lagMs : Nat
  base : Nat
  suspended : Bool := false
  /-- The next access unit must be IRAP; one that is not completes with this code. -/
  needIrap : Option Half := none
  waiting : List Picture := []
  /-- The decode index of its next picture. -/
  index : Nat := 0
  /-- Its cycles in the present 1 ms window. -/
  budget : Nat := 0
  /-- When its first picture came since it was opened or resumed, and the pixels decoded since. -/
  lagFrom : Option Nat := none
  pixels : Nat := 0
  /-- The bitstream since the last IRAP, the last output picture, and the concealed lines of the pictures by index. -/
  units : List Byte := []
  lastPicture : List Byte := []
  bad : List (Nat × List (Nat × Nat × Nat)) := []
  deriving DecidableEq, Repr

/-- A replay session (R305 to R307): its descriptor, context and polder, the slot it holds, its sets by digest, how many
blocks it has fed, what it keeps of them, the decisions its programs have submitted, and the tensor blocks in its output
ring that no WAIT_BLOCK has read. -/
structure Session where
  hdr : DescHdr
  ctx : Nat
  params : ReplayParams
  recipe : Nat
  slot : Nat
  sets : List (List Byte × Mem)
  fed : Nat := 0
  recs : List BlockRec := []
  lanes : List (Nat × SubEntry × Marks) := []
  admits : List (Nat × SubEntry) := []
  out : List Nat := []
  deriving DecidableEq, Repr

/-- The codec: streams by number (encode stream n is 0x40 + n), sessions, the decoder's load and the start of its budget
window. -/
structure CodecU where
  streams : Tab (Option Stream) := []
  sessions : Tab (Option Session) := []
  load : Nat := 0
  windowAt : Nat := 0
  deriving DecidableEq, Repr

/-! ## Security (R422 to R440) -/

/-- The SEC domain. -/
structure SecU where
  /-- Region 1 while line software is loaded (R433, R453). -/
  lsw : Option (Nat × Nat) := none
  /-- 0 RECOVERY, 1 UNOWNED, 2 OWNED (R429). -/
  state : Nat := 1
  /-- The owner record in force; none in UNOWNED. -/
  owner : List Byte := []
  /-- Counters 0, 1 and 2 (R425). -/
  svn : Word := 0
  gen : Word := 0
  token : Word := 0
  /-- The header of the firmware image in force, and of the one the flash holds; none where it holds no valid one. -/
  header : List Byte := []
  flash : List Byte := []
  /-- The flash holds a valid image: no programming of it has failed (R427, R428). -/
  imageOk : Bool := true
  /-- Debug level and when it ends, on the Dike domain's uptime counter (R436). -/
  debug : Nat := 0
  debugUntil : Nat := 0
  /-- The challenge out: its nonce, when it was given, and the attested state it stands for. -/
  nonce : Option (List Byte × Nat × List Byte) := none
  /-- Nonces given: the model's own running number. -/
  nonces : Nat := 0
  /-- The digest of the line software (R433). -/
  lswDigest : List Byte := []
  /-- Bytes of the line-software image as it stands in its region. -/
  lswLen : Nat := 0
  /-- `SEC_REQ_STAT`: the code of the last request, and DONE. -/
  code : Half := 0
  done : Bool := false
  deriving DecidableEq, Repr

/-! ## Vigil and resets (R400 to R410) -/

/-- A flush that waits for a flash slot (R419): the code of its event, `HEX_HEAD` and `HEX_BOOT` then, and the record. -/
structure Flush where
  code : Half
  head : Word
  boot : Word
  record : Tab HexEntry
  deriving DecidableEq, Repr

/-- A flash slot that has been written: its header and its record (R419). -/
structure FlashSlot where
  header : List Byte
  record : Tab HexEntry
  deriving DecidableEq, Repr

/-- Vigil, the reset sequencer, and the flash slots of the Hexkeug record. -/
structure VigU where
  /-- Resets ordered and not begun, and whether each counts toward escalation (R408, R410). -/
  orders : List (Scope × Bool) := []
  /-- The compute domain is out of service (R416). -/
  outOfService : Bool := false
  /-- `HEX_BOOT` (R420): power-ons, and processor resets and cold boots since. -/
  powerOns : Half := 0
  boots : Half := 0
  /-- Stamps of the counted resets of the compute domain and the processor (R410). -/
  cmpResets : List Nat := []
  procResets : List Nat := []
  /-- Resets since power-on: engine e at e, compute 6, processor 7, cold boots 8. -/
  totals : Tab Nat := []
  failedBoots : Nat := 0
  /-- Resets in progress: since when. -/
  cmpFrom : Option Nat := none
  procFrom : Option Nat := none
  coldFrom : Option Nat := none
  /-- The processor reset in progress was ordered by `RST_CMD` (R416). -/
  byCommand : Bool := false
  /-- Three cold boots in a row have failed (R410, R415). -/
  halted : Bool := false
  /-- The spare is retired or holds a retired engine's place; an engine is retired with none in its place (R415). -/
  noSpare : Bool := false
  short : Bool := false
  /-- The configuration image: what a processor reset writes back, and the seal (R406). -/
  image : Tab Word := []
  imageSealed : Bool := false
  /-- `SEQ` of each function's submission rings before the processor reset in progress, the payload of 0x5063 (R406). -/
  seqs : List Byte := []
  /-- Flushes that wait, oldest first; the flash slots written, by slot from 0, and the serial of the next. -/
  flushes : List Flush := []
  slots : Tab (Option FlashSlot) := []
  serial : Nat := 0
  /-- When each control core was last kicked or its timeout last set. -/
  kicks : Tab Nat := []
  /-- Since when nRST_REQ is held low (R468). -/
  pinFrom : Option Nat := none
  /-- FAB_STAT: replies dropped, and requests timed out (R409). -/
  late : Nat := 0
  timeouts : Nat := 0
  deriving DecidableEq, Repr


/-! ## The state -/

/-- The state of the module: every piece of state the spec names, and the queue of commands waiting. -/
structure State where
  /-- Commands waiting, first in, first out. -/
  pending : List Instr := []
  /-- How many free values have been drawn: the model's own field (the assumption log, 6). -/
  free : Nat := 0
  /-- Physical time in ns: the clock of every timeout, window and watchdog. -/
  now : Nat := 0
  time : TimeU := {}
  /-- RW, RWL and W1C fields of the setup registers by offset; an unlisted register holds its reset value. -/
  regs : Tab Word := []
  /-- RC counters by offset (a VF's at 2^26 times its function). -/
  counters : Tab Word := []
  /-- _LO values held until their _HI is written (R447), and _HI values latched by reading _LO. -/
  held : Tab (Option Word) := []
  latched : Tab (Option Word) := []
  /-- The value the last host read returned. -/
  busRead : Word := 0
  sealed : Bool := false
  log : Log := {}
  /-- The module is a TXM-860-N (R1 to R3); the descriptor tells. -/
  variantN : Bool := false
  /-- Bonded memory. -/
  bonded : Mem := []
  axes : Tab Axis := []
  emus : Tab Emu := []
  lanes : Tab Lane := []
  /-- Ports P0 to P15, and 16 the management port M (R62). -/
  ports : Tab Port := []
  /-- Transmit PLLs that have lost lock: quad, and true for the one at 25.78125 GHz (R55). -/
  pllOut : List (Nat × Bool) := []
  qps : Tab Qp := []
  sluices : Tab Sluice := []
  pars : Tab Par := []
  slots : Tab Slot := []
  pipes : Tab Pipe := []
  /-- Calendar entries by axis. -/
  cal : Tab (List CalEntry) := []
  chans : Tab Chan := []
  fs : FailSafe := {}
  parts : List Part := []
  vlanes : Tab VLane := []
  provings : Tab Proving := []
  vu : VerdictU := {}
  dis : Tab Di := []
  dos : Tab DoPin := []
  field : FieldU := {}
  banks : Tab Bank := []
  engines : Tab Engine := []
  lead : Lead := {}
  /-- Line block records handed on, newest first (R76). -/
  records : List BlockRec := []
  rewind : RewindU := {}
  archive : ArchiveU := {}
  line : LineU := {}
  proxies : Tab ProxyIn := []
  fwds : Tab FwdOut := []
  /-- Culvert interrupts the control cores have received and not yet taken: core numbers (R233). -/
  notified : List Nat := []
  /-- The pool store (R109). -/
  pool : Mem := []
  /-- Words of tile stores and the pool store struck by ECC errors (R118). -/
  ecc : List EccWord := []
  /-- Regions that operations have written over or as empty outputs, newest first (R171). -/
  empties : List EmptyMark := []
  /-- Operations between issue and retire, oldest first, and the number of the next. -/
  ops : List OpEntry := []
  nextOp : Nat := 0
  nextJob : Nat := 0
  ctxs : Tab (Option Ctx) := []
  polders : Tab Polder := []
  spare : SpareU := {}
  tracks : Tab Track := []
  nodes : Tab Node := []
  kv : KvU := {}
  recipes : Tab (Option Recipe) := []
  /-- The active recipe of each Sluice context and the changeover asked for (R219). -/
  active : Tab (Option Nat) := []
  changes : Tab (Option Changeover) := []
  sec : SecU := {}
  vig : VigU := {}
  power : PowerU := {}
  codec : CodecU := {}
  deriving DecidableEq, Repr

/-- The module right after a cold boot has completed its start: every register at its reset value, memory with nothing
listed, outputs in fail-safe with the heartbeat cause (R465), module time running from 0 (R40). -/
def State.reset : State := { time := { running := true } }

end Sys2Proof.Machine
end

