-- ==== Sys2Proof/Machine/Ops.lean ====
section
/-! DEFINITION. The named operations over tables, memories, words and bytes that the meanings share. -/

namespace Sys2Proof.Machine

/-! ## Tables -/

/-- What a table holds at a key; an unlisted key holds `d`. -/
def tget {α : Type} (d : α) : Tab α → Nat → α
  | [], _ => d
  | (a, v) :: r, k => if a = k then v else tget d r k

/-- A table without a key. -/
def tdel {α : Type} : Tab α → Nat → Tab α
  | [], _ => []
  | (a, w) :: r, k => if a = k then tdel r k else (a, w) :: tdel r k

/-- A table with `v` at a key, keys kept rising. -/
def tins {α : Type} : Tab α → Nat → α → Tab α
  | [], k, v => [(k, v)]
  | (a, w) :: r, k, v =>
    if k < a then (k, v) :: (a, w) :: r else if k = a then (k, v) :: r else (a, w) :: tins r k v

/-- A table with `v` at a key, in canonical form: rising keys, no entry equal to `d`. -/
def tset {α : Type} [DecidableEq α] (d : α) (t : Tab α) (k : Nat) (v : α) : Tab α :=
  if v = d then tdel t k else tins t k v

/-- Every key of a table lies above `n`, they rise, and no entry equals `d`. -/
def tabFrom {α : Type} [DecidableEq α] (d : α) : Option Nat → Tab α → Bool
  | _, [] => true
  | lo, (a, v) :: r =>
    (match lo with | none => true | some n => decide (n < a)) && decide (v ≠ d) && tabFrom d (some a) r

/-- The canonical form of a table. -/
def tabWf {α : Type} [DecidableEq α] (d : α) (t : Tab α) : Bool := tabFrom d none t

/-! ## Memories -/

/-- The byte at an address; an unlisted address reads 0x00 (the assumption log, 2: DESIGN CHOICE). -/
def byteAt (m : Mem) (a : Nat) : Byte := tget 0 m a

/-- One byte written. -/
def putByte (m : Mem) (a : Nat) (b : Byte) : Mem := tset 0 m a b

/-- The canonical form of a memory. -/
def Memory.wf (m : Mem) : Bool := tabWf (0 : Byte) m

/-- `n` bytes from an address, in ascending address. -/
def readBytes (m : Mem) (a : Nat) : Nat → List Byte
  | 0 => []
  | n + 1 => byteAt m a :: readBytes m (a + 1) n

/-- Bytes written from an address, in ascending address. -/
def writeBytes (m : Mem) (a : Nat) : List Byte → Mem
  | [] => m
  | b :: r => writeBytes (putByte m a b) (a + 1) r

/-- A span whose bytes read again as memory that nothing has written. -/
def clearSpan (m : Mem) (a n : Nat) : Mem := m.filter (fun c => !(decide (a ≤ c.1) && decide (c.1 < a + n)))

/-! ## Words and bytes -/

/-- Bits hi down to lo of a word. -/
def bits (w : Word) (hi lo : Nat) : Nat := w.toNat / 2 ^ lo % 2 ^ (hi + 1 - lo)

/-- Bit n of a word. -/
def bit (w : Word) (n : Nat) : Bool := w.toNat / 2 ^ n % 2 = 1

/-- A word with bits hi down to lo replaced. -/
def putBits (w : Word) (hi lo x : Nat) : Word :=
  BitVec.ofNat 32 (w.toNat - bits w hi lo * 2 ^ lo + x % 2 ^ (hi + 1 - lo) * 2 ^ lo)

/-- The n low bytes of a number, little-endian. -/
def leBytes : Nat → Nat → List Byte
  | 0, _ => []
  | n + 1, x => BitVec.ofNat 8 (x % 256) :: leBytes n (x / 256)

/-- The number that bytes spell, little-endian. -/
def leNat : List Byte → Nat
  | [] => 0
  | b :: r => b.toNat + 256 * leNat r

/-- Bytes cut or filled with zeros to a length. -/
def padTo (n : Nat) (bs : List Byte) : List Byte :=
  bs.take n ++ List.replicate (n - bs.length) 0

/-- The signed value of an n-bit field. -/
def signed (n x : Nat) : Int := if x % 2 ^ n < 2 ^ (n - 1) then (x % 2 ^ n : Nat) else ((x % 2 ^ n : Nat) : Int) - 2 ^ n

/-- The n-bit field of a signed value. -/
def unsigned (n : Nat) (x : Int) : Nat := (x % (2 ^ n : Nat)).toNat

/-- A word that grows and stops at its greatest value. -/
def satAdd (w : Word) (n : Nat) : Word := BitVec.ofNat 32 (min (w.toNat + n) 0xFFFFFFFF)

/-- One step of the CRC of R288. -/
def crc16Bit (c : Nat) (x : Bool) : Nat :=
  let fb := (c / 32768 % 2 = 1) != x
  let c := c * 2 % 65536
  if fb then Nat.xor c 0x1021 else c

/-- The CRC of R288 over whole bytes, most significant bit first. -/
def crc16Bytes (c : Nat) : List Byte → Nat
  | [] => c
  | b :: r => crc16Bytes ((List.range 8).foldl (fun c i => crc16Bit c (b.toNat / 2 ^ (7 - i) % 2 = 1)) c) r

/-- The CRC of R288 from its initial value. -/
def crc16 (bs : List Byte) : Nat := crc16Bytes 0xFFFF bs

/-- The difference of two positions: modulo 2^48, read as a signed 48-bit value (R24). -/
def posDiff (a b : Pos) : Int := (a - b).toInt

/-- A position that has moved by a signed number of counts. -/
def posAdd (a : Pos) (d : Int) : Pos := a + BitVec.ofInt 48 d

/-- Round half to even of n / d, d > 0 (R34). -/
def divRne (n : Int) (d : Nat) : Int :=
  let q := n / d
  let r := 2 * (n % d)
  if r < d then q else if r > d then q + 1 else if q % 2 = 0 then q else q + 1

/-- A number kept between two bounds. -/
def clampNat (lo hi x : Nat) : Nat := if x < lo then lo else if x > hi then hi else x

/-- A signed number kept between two bounds. -/
def clampInt (lo hi x : Int) : Int := if x < lo then lo else if x > hi then hi else x

/-- The entry at an index of a list replaced by what `f` makes of it. -/
def modifyAt {α : Type} (f : α → α) : List α → Nat → List α
  | [], _ => []
  | x :: r, 0 => f x :: r
  | x :: r, n + 1 => x :: modifyAt f r n

/-- A list with an element removed wherever it stands. -/
def without [DecidableEq α] (l : List α) (x : α) : List α := l.filter (fun y => y ≠ x)

/-- A list with an element in it once. -/
def including [DecidableEq α] (l : List α) (x : α) : List α := if l.contains x then l else l ++ [x]

end Sys2Proof.Machine
end

