-- ==== Sys2Proof/Machine/RegMap.lean ====
section
/-! DEFINITION. The setup registers of PF0's BAR0 (R442): offsets, reset values, fields with their access codes (R8)
and checks (R445), and the applying of one write field by field. -/

namespace Sys2Proof.Machine

/-- Access codes of fields (R8). -/
inductive Acc where
  | rw | ro | wo | w1c | rc | rwl
  deriving DecidableEq, Repr

/-- What a write checks of a field (R445): nothing; a range it is clamped to; a range of multiples of a step it is
clamped to, rounding down (R72); a range outside which it is refused with the chapter's code; values
refused with 0x1011; a range that the unit's commit checks; the one value outside a signed range, and its nearer bound. -/
inductive Chk where
  | any
  | clamp (lo hi : Nat)
  | clampStep (lo hi step : Nat)
  | refuse (lo hi : Nat)
  | reserved (bad : List Nat)
  | commit
  | instead (bad good : Nat)
  deriving DecidableEq, Repr

/-- A field: its bits, its access code and its check. -/
structure FieldSpec where
  hi : Nat
  lo : Nat
  acc : Acc := .rw
  chk : Chk := .any
  deriving DecidableEq, Repr

/-- How a register belongs to a split value (R447). -/
inductive Half64 where
  | single | low | high
  deriving DecidableEq, Repr

/-- A register: its offset in its group, reset value, its chapter's configuration code, and its fields. -/
structure RegSpec where
  delta : Nat
  reset : Word := 0
  code : Half := 0
  half : Half64 := .single
  fields : List FieldSpec := []
  deriving DecidableEq, Repr

/-- Registers repeated `n` times at a stride. -/
structure RegGroup where
  base : Nat
  stride : Nat := 0x1000
  n : Nat := 1
  regs : List RegSpec
  deriving DecidableEq, Repr

/-- A field that any value enters. -/
def fld (acc : Acc) (hi lo : Nat) : FieldSpec := { hi, lo, acc }
/-- A field clamped at the write. -/
def fldC (acc : Acc) (hi lo a b : Nat) : FieldSpec := { hi, lo, acc, chk := .clamp a b }
/-- A field with reserved values. -/
def fldE (acc : Acc) (hi lo : Nat) (bad : List Nat) : FieldSpec := { hi, lo, acc, chk := .reserved bad }
/-- A field checked at commit. -/
def fldK (acc : Acc) (hi lo : Nat) : FieldSpec := { hi, lo, acc, chk := .commit }
/-- A field refused outside a range. -/
def fldR (acc : Acc) (hi lo a b : Nat) : FieldSpec := { hi, lo, acc, chk := .refuse a b }
/-- A register of one field. -/
def reg1 (delta : Nat) (code : Half) (f : FieldSpec) (reset : Word := 0) : RegSpec :=
  { delta, reset, code, fields := [f] }
/-- The two halves of a split value whose halves keep bits [31:lo] and [hi:0] (R447). -/
def pairReg (delta : Nat) (code : Half) (acc : Acc) (loBit hiBit : Nat) : List RegSpec :=
  [{ delta, code, half := .low, fields := [fld acc 31 loBit] },
   { delta := delta + 4, code, half := .high, fields := [fld acc hiBit 0] }]

/-- Axes and emulation outputs (R22 to R38). -/
def regsAxis : List RegSpec :=
  [{ delta := 0, reset := 0x00C01A00#32, code := 0x1101#16, fields :=
      [fldE .rwl 3 0 [5, 6, 7, 8, 9, 10, 11, 12, 13, 14, 15], fldE .rwl 9 8 [3], fld .rwl 10 10, fld .rwl 15 11,
       fldE .rwl 17 16 [2, 3], fld .rwl 18 18, fldC .rwl 24 19 8 48, fld .rwl 25 25, fld .rwl 27 26, fld .rwl 31 31] },
   { delta := 4, reset := 0x00064018#32, code := 0x1101#16,
     fields := [fldC .rwl 11 0 24 2499, fldC .rwl 23 12 5 4095, fld .rwl 31 24] },
   { delta := 8, reset := 0x000F00FA#32, code := 0x1101#16, fields := [fldC .rwl 15 0 25 65535, fld .rwl 19 16] },
   reg1 0x0C 0x1101#16 (fldC .rw 31 0 10 10000) 0x3E8#32,
   reg1 0x10 0x1101#16 (fld .rw 31 0) 0xF4240#32, reg1 0x14 0x1101#16 (fld .rw 31 0) 0xC3500#32,
   reg1 0x18 0x1101#16 (fldC .rw 31 0 1 10000) 0x64#32,
   { delta := 0x28, code := 0x1101#16, fields := [fld .w1c 6 6, fld .w1c 7 7, fld .w1c 8 8, fld .w1c 9 9] },
   reg1 0x3C 0x1101#16 (fld .rw 31 0)] ++ pairReg 0x40 0x1101#16 .rw 0 15 ++
  [{ delta := 0x48, code := 0x1101#16, fields := [fld .wo 0 0, fld .rw 1 1] },
   reg1 0x4C 0x1101#16 (fld .rw 31 0) 0x10000#32,
   { delta := 0x50, reset := 0x300#32, code := 0x1101#16, fields := [fld .rwl 7 0, fldC .rwl 15 8 1 255] }]

def regsEmu : List RegSpec :=
  [{ delta := 0, reset := 0xD00#32, code := 0x1101#16,
     fields := [fld .rw 1 0, fldE .rw 3 2 [3], fld .rw 4 4, fldC .rw 23 8 13 2500, fld .rw 31 31] },
   { delta := 4, reset := 0x00010001#32, code := 0x1101#16, fields := [fld .rw 15 0, fld .rw 31 16] },
   reg1 8 0x1101#16 (fldC .rw 23 0 1 0xFFFFFF) 0x1000#32,
   { delta := 0x0C, code := 0x1101#16, fields := [fld .w1c 15 15] }]

/-- Module time (R39 to R43, R477). -/
def regsTime : List RegSpec :=
  [reg1 0 0x1101#16 (fld .wo 0 0)] ++ pairReg 0x34 0x1104#16 .rw 0 7 ++ pairReg 0x3C 0x1101#16 .rw 0 31 ++
  [reg1 0x44 0x1101#16 (fld .wo 0 0),
   { delta := 0x48, reset := 0x19020040#32, code := 0x1101#16,
     fields := [fldE .rw 1 0 [2, 3], fld .rw 5 2, fldC .rw 13 6 1 255, fldC .rw 21 14 2 255, fldC .rw 30 22 1 500] }]

/-- Quads, lanes and ports (R47 to R61). -/
def regsLane : List RegSpec :=
  [{ delta := 0, code := 0x1201#16, fields :=
      [fld .rwl 0 0, fld .rwl 1 1, fldE .rw 5 4 [3], fldE .rw 9 8 [3], fld .rw 15 12] },
   { delta := 4, reset := 0x837#32, code := 0x1201#16, fields := [fld .rw 5 0, fld .rw 12 8, fld .rw 19 16] },
   { delta := 0x10, reset := 0x08000000#32, code := 0x1201#16,
     fields := [fld .rw 6 0, { hi := 23, lo := 16, chk := .instead 0x80 0x81 }, fldC .rw 27 24 6 12, fld .wo 28 28, fld .wo 31 31] }]

def regsPort : List RegSpec :=
  [{ delta := 0, reset := 0x2580#32, code := 0x1201#16, fields :=
      [fldC .rwl 13 0 64 9600, fld .rw 14 14, fld .rwl 23 16, fld .rw 24 24, fld .rw 25 25, fld .rw 27 26,
       fld .rwl 28 28, fldE .rwl 30 29 [3], fld .rw 31 31] },
   reg1 4 0x1201#16 (fldC .rw 15 0 1 1000) 0x64#32,
   reg1 0x0C 0x1201#16 (fld .rw 15 0)]

/-- Sluices and parallel ports (R71, R72, R82). -/
def regsSluice : List RegSpec :=
  [{ delta := 0, reset := 0x00008100#32, code := 0x1401#16, fields :=
      [fldC .rwl 8 0 1 256, fld .rwl 12 12, fldC .rwl 16 13 0 8, fldE .rwl 18 17 [3], fld .rwl 20 19, fld .rwl 24 21,
       fld .rwl 26 25, fld .rwl 27 27, fld .rwl 28 28, fldE .rwl 30 29 [3], fld .rw 31 31] },
   reg1 4 0x1401#16 (fld .rwl 31 0),
   { delta := 8, reset := 0x20000000#32, code := 0x1401#16, fields := [fld .rwl 15 0, { hi := 31, lo := 16, acc := .rwl, chk := .clampStep 512 8960 4 }] },
   { delta := 0x0C, reset := 0x08000000#32, code := 0x1401#16, fields := [fld .rwl 9 0, fldK .rwl 31 24] },
   reg1 0x10 0x1401#16 (fldC .rwl 31 0 1 1000000),
   { delta := 0x14, reset := 0x001000C8#32, code := 0x1401#16, fields := [fldC .rwl 15 0 10 2000, fldC .rwl 23 16 4 64] },
   reg1 0x18 0x1401#16 (fldC .rwl 15 0 1 65535) 0x40#32,
   { delta := 0x1C, reset := 0x22401010#32, code := 0x1401#16,
     fields := [fld .rwl 7 0, fldC .rwl 15 8 1 255, fldC .rwl 23 16 1 64, fld .rwl 27 24, fld .rwl 31 28] }]

def regsPar : List RegSpec :=
  [{ delta := 0, reset := 0x00FA0000#32, code := 0x1401#16, fields :=
      [fldE .rwl 2 0 [5, 6, 7], fld .rwl 6 4, fld .rwl 7 7, fld .rwl 8 8, fldC .rwl 31 16 25 65535] }]

/-- Slots of the line image pipes (R98 to R105). -/
def regsSlot : List RegSpec :=
  pairReg 0x04 0x1504#16 .rw 0 31 ++
  [{ delta := 0x0C, code := 0x1503#16, fields := [fldE .rw 27 26 [3], fld .wo 30 30, fld .wo 31 31] }] ++
  pairReg 0x10 0x1503#16 .rw 0 15 ++ pairReg 0x24 0x1504#16 .rw 0 31 ++
  [reg1 0x2C 0x1504#16 (fldC .rw 7 0 4 255) 0x10#32]

/-- KV pool and prefix tree (R196, R206). -/
def regsKv : List RegSpec :=
  pairReg 0 0x1901#16 .rwl 0 31 ++
  [{ delta := 8, reset := 0x00100008#32, code := 0x1901#16, fields := [fldK .rwl 4 0, fldK .rwl 24 16, fld .rwl 31 31] },
   reg1 0x0C 0x1901#16 (fld .rw 23 0) 0x400#32,
   reg1 0x40 0x1901#16 (fld .rw 23 0), reg1 0x44 0x1901#16 (fld .rw 23 0), reg1 0x48 0x1901#16 (fld .rw 23 0),
   reg1 0x4C 0x1901#16 (fld .rw 23 0), reg1 0x50 0x1901#16 (fld .rw 23 0), reg1 0x54 0x1901#16 (fld .rw 23 0),
   { delta := 0x100, reset := 0x000C000A#32, code := 0x1A01#16,
     fields := [fldC .rwl 9 0 4 1000, fldK .rwl 20 16, fld .rwl 31 31] }] ++
  pairReg 0x104 0x1A01#16 .rwl 0 31

/-- Verdict unit, bindings, fail-safe (R260, R275). -/
def regsBind : List RegSpec :=
  [{ delta := 0, code := 0x1C01#16, fields :=
      [fld .rwl 15 0, fld .rwl 27 27, fld .rwl 29 28, fld .rwl 30 30, fld .rwl 31 31] },
   reg1 4 0x1C01#16 (fldC .rwl 31 0 0 0x7FFFFFFF), reg1 8 0x1C01#16 (fld .rwl 31 0), reg1 0x0C 0x1C01#16 (fld .rwl 31 0),
   { delta := 0x10, code := 0x1C01#16, fields := [fldK .rwl 8 0, fldC .rwl 17 10 1 255, fld .rwl 31 18] },
   reg1 0x14 0x1C01#16 (fldK .rwl 8 0)]

/-- Sixteen 2-bit fields whose value 3 is reserved, at the even bits of a register. -/
def pairsOf (acc : Acc) : Nat → List FieldSpec
  | 0 => []
  | n + 1 => pairsOf acc n ++ [fldE acc (2 * n + 1) (2 * n) [3]]

def regsFs : List RegSpec :=
  [{ delta := 0, code := 0x1C04#16, fields := [fld .wo 30 30, fld .wo 31 31] },
   { delta := 8, code := 0x1C04#16, fields := pairsOf .rwl 16 },
   reg1 0x0C 0x1C04#16 (fldC .rwl 9 0 5 1000) 0x14#32] ++
  [0x20, 0x24, 0x28, 0x2C, 0x30, 0x34, 0x38, 0x3C, 0x40, 0x44, 0x48, 0x4C, 0x50, 0x54, 0x58, 0x5C].map
    (fun d => { delta := d, code := 0x1C04#16, fields := pairsOf .rwl 16 })

/-- Field section (R278 to R293). -/
def regsField : List RegSpec :=
  [reg1 0x10 0x1D01#16 (fld .wo 0 0)] ++
  [0x200].map (fun d => { delta := d, code := 0x1D01#16, fields := pairsOf .rwl 4 }) ++
  [reg1 0x210 0x1D01#16 (fld .wo 15 0), reg1 0x214 0x1D01#16 (fld .w1c 15 0)]

def regsDi : List RegSpec :=
  [{ delta := 0, reset := 0x38000064#32, code := 0x1D01#16,
     fields := [fldC .rw 15 0 1 65535, fld .rw 27 26, fldE .rw 29 28 [0], fld .rw 30 30, fld .rw 31 31] }]

def regsVb : List RegSpec :=
  [{ delta := 0, reset := 0x40000800#32, code := 0x1D01#16,
     fields := [fldC .rwl 15 8 1 255, fld .rwl 30 30, fld .rwl 31 31] }]

/-- Rewind buffer and archive (R296 to R304). -/
def regsRew : List RegSpec :=
  [{ delta := 0, reset := 0x0023FFFF#32, code := 0x1E01#16,
     fields := [fld .rwl 17 0, fldC .rwl 22 18 1 16, fld .rwl 31 31] }] ++
  pairReg 4 0x1E01#16 .rwl 26 31 ++ pairReg 0x0C 0x1E01#16 .rwl 12 31 ++
  [reg1 0x14 0x1E01#16 (fldC .rwl 4 0 12 18) 0x10#32]

def regsArch : List RegSpec :=
  [{ delta := 0, reset := 0x16F12000#32, code := 0x1E01#16,
     fields := [fldC .rwl 15 12 0 15, fldC .rwl 19 16 0 4, fld .rwl 23 20, fldC .rwl 29 24 0 51, fld .rwl 30 30, fld .rwl 31 31] }] ++
  pairReg 4 0x1E01#16 .rwl 20 31 ++
  [reg1 0x0C 0x1E01#16 (fldC .rwl 31 0 16 4096) 0x100#32, reg1 0x10 0x1E01#16 (fldC .rwl 31 0 10 2000) 0x1F4#32] ++
  pairReg 0x1C 0x1E01#16 .rw 0 31

/-- Polders and the spare (R317 to R335). -/
def regsPol : List RegSpec :=
  [reg1 0 0x1F01#16 (fld .rw 5 0)] ++ pairReg 4 0x1F01#16 .rw 21 31 ++
  [{ delta := 0x0C, reset := 0x40#32, code := 0x1F01#16, fields := [fldK .rw 15 0] },
   { delta := 0x10, reset := 0x1#32, code := 0x1F01#16, fields := [fldK .rw 5 0, fldK .rw 21 16] },
   { delta := 0x14, reset := 0x00010414#32, code := 0x1F01#16, fields := [fldK .rw 7 0, fldK .rw 12 8, fldK .rw 19 16] },
   { delta := 0x18, code := 0x1F01#16, fields := [fld .wo 29 29, fld .wo 30 30, fld .wo 31 31] }]

def regsSpare : List RegSpec :=
  [{ delta := 0, code := 0x1F01#16,
     fields := [fldE .rw 2 0 [6, 7], fldE .rw 22 20 [6, 7], fld .rw 23 23, fld .rw 31 31] }]

/-- Lines of modules (R360 to R370). -/
def regsLine : List RegSpec :=
  [{ delta := 0, code := 0x1041#16, fields := [fld .rwl 18 16, fld .rwl 23 20, fld .rwl 27 24, fld .rwl 31 31] },
   reg1 4 0x1041#16 (fldR .rwl 31 0 1 0xFFFFFFFF)] ++ pairReg 8 0x1041#16 .rwl 21 31 ++
  [reg1 0x10 0x1041#16 (fldR .rwl 12 0 64 4096) 0x40#32,
   { delta := 0x100, reset := 0x00640000#32, code := 0x1041#16, fields := [fld .rwl 15 12, fldR .rwl 31 16 1 10000] }] ++
  pairReg 0x104 0x1041#16 .rwl 4 31 ++
  [reg1 0x10C 0x1041#16 (fld .wo 31 0), reg1 0x120 0x1041#16 (fld .wo 0 0)]

def regsPeer : List RegSpec := [reg1 0 0x1041#16 (fld .rwl 31 0), reg1 4 0x1041#16 (fld .rwl 3 0)]

def regsProxy : List RegSpec :=
  [{ delta := 0, code := 0x1041#16, fields :=
      [fldR .rwl 4 0 0 17, fld .rwl 8 8, fldR .rwl 20 16 0 17, fld .rwl 27 24, fld .rwl 31 31] },
   reg1 4 0x1041#16 (fldR .rwl 23 0 1 0xFFFFFF) 0x2000#32]

/-- Power, clocks, Almanac (R381 to R389). -/
def regsPwr : List RegSpec :=
  [reg1 4 0x1051#16 (fld .w1c 24 0), { delta := 0x18, code := 0x1051#16, fields := [fld .wo 30 30, fld .wo 31 31] },
   { delta := 0x100, reset := 0x64#32, code := 0x1051#16, fields := [fldC .rw 13 0 1 10000, fld .rw 31 31] },
   reg1 0x104 0x1051#16 (fldC .rw 9 0 8 920) 0x398#32,
   { delta := 0x108, reset := 0x0032190A#32, code := 0x1051#16,
     fields := [fldC .rw 7 0 0 100, fldC .rw 15 8 0 100, fldC .rw 23 16 0 100] }]

/-- Vigil, resets, Hexkeug control (R400 to R420). -/
def regsVig : List RegSpec :=
  [{ delta := 0x04, reset := 0x00258003#32, code := 0x1061#16, fields := [fldC .rwl 3 0 2 10, fldC .rwl 31 12 60 86400] },
   { delta := 0x08, reset := 0x00E10006#32, code := 0x1061#16, fields := [fldC .rwl 4 0 2 20, fldC .rwl 31 12 600 86400] },
   { delta := 0x0C, reset := 0x00E10004#32, code := 0x1061#16, fields := [fldC .rwl 3 0 2 10, fldC .rwl 31 12 600 86400] },
   { delta := 0x40, code := 0x1061#16, fields := [fld .wo 2 0, fld .wo 29 29, fld .wo 30 30, fld .wo 31 31] },
   reg1 0x90 0x1061#16 (fld .w1c 5 0),
   reg1 0x1008 0x1061#16 (fldC .rw 3 0 0 8)]

def regsCore : List RegSpec :=
  [{ delta := 0, code := 0x1061#16, fields := [fldC .rw 13 0 0 10000, fld .wo 31 31] }]

/-- Security requests (R439, R440). -/
def regsSec : List RegSpec :=
  pairReg 4 0x1071#16 .rw 12 31 ++
  [reg1 0x0C 0x1071#16 (fldC .rw 31 0 0 25166336),
   { delta := 0x10, code := 0x1071#16, fields := [fld .wo 3 0, fld .wo 31 31] }]

/-- The seal and the line-software region (R449, R453). -/
def regsSys : List RegSpec :=
  [reg1 0x08 0x1083#16 (fld .wo 31 31)] ++ pairReg 0x20 0x1083#16 .rwl 26 31 ++
  [{ delta := 0x28, reset := 0x30#32, code := 0x1083#16, fields := [fldK .rwl 7 0] }]

/-- Every register of PF0's BAR0 that a host write can change (R442). -/
def regGroups : List RegGroup :=
  [{ base := 0x200000, regs := regsSys },
   { base := 0x210000, stride := 0x100, n := 4, regs := regsAxis },
   { base := 0x210800, stride := 0x40, n := 2, regs := regsEmu },
   { base := 0x220000, regs := regsTime },
   { base := 0x230000, stride := 0x40, n := 4, regs := [reg1 0 0x1201#16 (fldE .rwl 1 0 [3])] },
   { base := 0x231000, stride := 0x100, n := 16, regs := regsLane },
   { base := 0x232000, stride := 0x200, n := 16, regs := regsPort },
   { base := 0x240000, stride := 0x100, n := 18, regs := regsSluice },
   { base := 0x242000, stride := 0x40, n := 2, regs := regsPar },
   { base := 0x250100, stride := 0x80, n := 4, regs := regsSlot },
   { base := 0x250500, stride := 0x80, n := 4, regs := regsSlot },
   { base := 0x250900, stride := 0x80, n := 4, regs := regsSlot },
   { base := 0x250D00, stride := 0x80, n := 4, regs := regsSlot },
   { base := 0x260000, stride := 0x1000, n := 6, regs :=
      [{ delta := 0, code := 0x1601#16, fields := [fld .rw 4 4, fld .rw 8 8] }] },
   { base := 0x268000, stride := 4, n := 2, regs := [reg1 0 0x1605#16 (fld .rw 31 0)] },
   { base := 0x270000, regs := regsKv },
   { base := 0x280000, stride := 0x40, n := 1, regs := [reg1 0 0x1C01#16 (fld .rw 31 31)] },
   { base := 0x281000, stride := 0x40, n := 18, regs := regsBind },
   { base := 0x284000, regs := regsFs },
   { base := 0x290100, stride := 4, n := 16, regs := regsDi },
   { base := 0x290400, stride := 0x100, n := 2, regs := regsVb },
   { base := 0x290000, stride := 0x1000, n := 1, regs := regsField },
   { base := 0x2A0100, stride := 0x100, n := 1, regs := regsArch },
   { base := 0x2A0000, stride := 0x100, n := 1, regs := regsRew },
   { base := 0x2B0000, stride := 0x100, n := 6, regs := regsPol },
   { base := 0x2B0800, regs := regsSpare },
   { base := 0x2E0040, stride := 8, n := 16, regs := regsPeer },
   { base := 0x2E0200, stride := 8, n := 16, regs := regsProxy },
   { base := 0x2E0280, stride := 4, n := 18, regs :=
      [{ delta := 0, code := 0x1041#16, fields := [fld .rwl 3 0, fld .rwl 31 31] }] },
   { base := 0x2E0000, regs := regsLine },
   { base := 0x2F0000, regs := regsPwr },
   { base := 0x300010, stride := 4, n := 8, regs := regsCore },
   { base := 0x300000, stride := 0x2000, n := 1, regs := regsVig },
   { base := 0x320000, regs := regsSec }]

/-- The register of a group at a distance from its base, and the index of the copy. -/
def regInGroup (g : RegGroup) (off : Nat) : Option RegSpec :=
  if off < g.base ∨ g.base + g.n * g.stride ≤ off then none
  else g.regs.find? (fun r => r.delta == (off - g.base) % g.stride)

/-- The writable register at an offset of PF0's BAR0. -/
def regSpecIn : List RegGroup → Nat → Option RegSpec
  | [], _ => none
  | g :: r, off => match regInGroup g off with | some s => some s | none => regSpecIn r off

def regSpec (off : Nat) : Option RegSpec := regSpecIn regGroups off

/-- The reset value of a register; `SLUICEk_CFG` of the parallel contexts resets with SRC 2 (R71). -/
def resetWord (off : Nat) : Word :=
  if off = 0x241000 ∨ off = 0x241100 then 0x40008100#32
  else match regSpec off with | some r => r.reset | none => 0

/-- Offsets that are mapped though no write changes them: base, stride, copies, first and last distance. -/
def readOnlyRanges : List (Nat × Nat × Nat × Nat × Nat) :=
  [(0x200000, 0x10000, 1, 0x00, 0x30), (0x202000, 0x2000, 1, 0, 0x1FFF), (0x208000, 0x8000, 1, 0, 0x7FFF),
   (0x210000, 0x100, 4, 0x1C, 0x38), (0x210800, 0x40, 2, 0x0C, 0x10), (0x220000, 0x10000, 1, 0x04, 0x50),
   (0x231000, 0x100, 16, 0x08, 0x20), (0x232000, 0x200, 16, 0x08, 0x40), (0x240000, 0x100, 18, 0x20, 0x44),
   (0x242000, 0x40, 2, 0x04, 0x04), (0x250000, 0x400, 4, 0, 0),
   (0x250100, 0x80, 4, 0, 0x5C), (0x250500, 0x80, 4, 0, 0x5C), (0x250900, 0x80, 4, 0, 0x5C), (0x250D00, 0x80, 4, 0, 0x5C),
   (0x260000, 0x1000, 6, 0x04, 0x68), (0x268008, 0x10, 1, 0, 4), (0x269000, 0x10, 48, 0, 4),
   (0x270000, 0x100, 1, 0x10, 0x38), (0x270060, 0x20, 1, 0, 0x14), (0x27010C, 0x100, 1, 0, 0x28),
   (0x280004, 0x100, 1, 0, 0x4C), (0x284004, 0x10, 1, 0, 0), (0x290000, 0x100, 1, 0, 0x7C), (0x290200, 0x100, 1, 4, 0x18),
   (0x290400, 0x100, 2, 4, 0x38), (0x2A0018, 0x100, 1, 0, 0xB4), (0x2A0114, 0x100, 1, 0, 0x1C), (0x2A0200, 0x100, 1, 0, 0x10),
   (0x2B0000, 0x100, 6, 0x1C, 0x34), (0x2B0804, 0x10, 1, 0, 0), (0x2C0000, 0x2000, 1, 0, 0x1FFF), (0x2D0000, 0x3000, 1, 0, 0x2FFF),
   (0x2E0014, 0x100, 1, 0, 0x0C), (0x2E0100, 0x100, 1, 0x10, 0x38), (0x2F0000, 0x20, 1, 0, 0x1C), (0x2F010C, 0x100, 1, 0, 8),
   (0x2F0200, 0x100, 1, 0, 0xC4), (0x2F0300, 0x10, 1, 0, 8), (0x300044, 0x40, 1, 0, 0x2C), (0x300080, 0x10, 1, 0, 4),
   (0x300100, 0x100, 1, 0, 0x10), (0x301000, 0x100, 1, 0, 0x7C), (0x310000, 0x10000, 1, 0, 0xFFFF), (0x320000, 0x100, 1, 0, 0x24)]

def inRange (off : Nat) (r : Nat × Nat × Nat × Nat × Nat) : Bool :=
  let (base, stride, n, a, b) := r
  decide (base ≤ off) && decide (off < base + n * stride) && decide (a ≤ (off - base) % stride) &&
    decide ((off - base) % stride ≤ b)

/-- Whether an offset of PF0's BAR0 is mapped (R443). -/
def mapped (off : Nat) : Bool := (regSpec off).isSome || readOnlyRanges.any (inRange off)

/-- What a field check reports (R451): code, outcome, the field, the value written and the value applied. -/
structure FieldRep where
  code : Half
  outcome : Byte
  hi : Nat
  lo : Nat
  written : Nat
  applied : Nat
  deriving DecidableEq, Repr

/-- One field of one write (R445): the register's word after it, and its report if any. -/
def applyField (isSealed : Bool) (code : Half) (f : FieldSpec) (v old : Word) : Word × Option FieldRep :=
  let x := bits v f.hi f.lo
  let cur := bits old f.hi f.lo
  match f.acc with
  | .ro | .rc | .wo => (old, none)
  | .w1c => (putBits old f.hi f.lo (Nat.xor cur (Nat.land cur x)), none)
  | .rw | .rwl =>
    if f.acc = .rwl ∧ isSealed then (old, none) else
    match f.chk with
    | .any | .commit => (putBits old f.hi f.lo x, none)
    | .clamp a b =>
      if clampNat a b x = x then (putBits old f.hi f.lo x, none)
      else (putBits old f.hi f.lo (clampNat a b x), some ⟨code, 1, f.hi, f.lo, x, clampNat a b x⟩)
    | .clampStep a b n =>
      let y := clampNat a b x / n * n
      (putBits old f.hi f.lo y, if y = x then none else some ⟨code, 1, f.hi, f.lo, x, y⟩)
    | .instead a b =>
      if x = a then (putBits old f.hi f.lo b, some ⟨code, 1, f.hi, f.lo, a, b⟩) else (putBits old f.hi f.lo x, none)
    | .refuse a b =>
      if clampNat a b x = x then (putBits old f.hi f.lo x, none) else (old, some ⟨code, 2, f.hi, f.lo, x, cur⟩)
    | .reserved bad =>
      if bad.contains x then (old, some ⟨0x1011#16, 2, f.hi, f.lo, x, cur⟩) else (putBits old f.hi f.lo x, none)

/-- Every field of one write, in ascending order of the fields' low bits (R445). -/
def applyFields (isSealed : Bool) (code : Half) : List FieldSpec → Word → Word → Word × List FieldRep
  | [], _, old => (old, [])
  | f :: r, v, old =>
    let (w, rep) := applyField isSealed code f v old
    let (w', reps) := applyFields isSealed code r v w
    (w', rep.toList ++ reps)

/-- The first RWL field that a write would change, by its specification (R450). -/
def sealedField (code : Half) (v old : Word) : List FieldSpec → Option FieldSpec
  | [] => none
  | f :: r =>
    if f.acc = .rwl ∧ bits (applyField false code f v old).1 f.hi f.lo ≠ bits old f.hi f.lo then some f
    else sealedField code v old r

end Sys2Proof.Machine
end

