-- ==== Sys2Proof/Machine/Log.lean ====
section
/-! DEFINITION. What posting a code does: event rings, windows, the Hexkeug record, configuration reports, LAST_CODE,
ring records with their seal words, and interrupts. Everything here changes `Log` alone. -/

namespace Sys2Proof.Machine

/-- Module time as records carry it. -/
structure Stamp where
  now : Nat
  sec : Nat
  ns : Nat
  frac : Nat
  epoch : Nat
  state : Nat
  deriving DecidableEq, Repr

/-- The number of a function's ring in the ring tables. -/
def ringKey (fn i : Nat) : Nat := fn * 64 + i

def Log.ring (l : Log) (fn i : Nat) : Ring := tget {} l.rings (ringKey fn i)
def Log.setRing (l : Log) (fn i : Nat) (r : Ring) : Log := { l with rings := tset {} l.rings (ringKey fn i) r }

/-- Bytes of an entry by ring ID (R343). -/
def entryBytes (i : Nat) : Nat := if i < 40 then 64 else 256

def Ring.entries (r : Ring) : Nat := 2 ^ r.log2

/-- Records written and not released (R354). -/
def Ring.u (r : Ring) : Nat := (r.seq - r.rel).toNat

/-- The 16-bit LAP of a ring sequence (R349). -/
def lapOf (r : Ring) : Nat := r.seq.toNat / r.entries % 65535 + 1

/-- The seal word over a record's body (R349). -/
def sealWord (lap : Nat) (body : List Byte) : Nat := lap * 65536 + crc16 body

/-- The message of a vector: sent, or pending while masked (R354); a function in D3hot sends none (R358). -/
def Log.sendVector (l : Log) (fn v : Nat) : Log :=
  let k := fn * 512 + v
  if l.d3.contains fn then { l with msixPending := including l.msixPending k }
  else if l.msixUnmasked.contains k then { l with msixSent := tset 0 l.msixSent k (tget 0 l.msixSent k + 1) }
  else { l with msixPending := including l.msixPending k }

/-- Whether a ring's interrupt is due (R354). -/
def Ring.due (r : Ring) (now : Nat) : Bool :=
  r.armed && decide (0 < r.u) &&
    ((decide (r.cnt ≠ 0) && decide (r.cnt ≤ r.u)) || r.irqDue ||
     (match r.timerFrom with | none => false | some t => decide (r.time * 1000 ≤ now - t)))

/-- Sends a module-written ring's vector where one is due, and disarms it (R354). -/
def Log.interrupt (l : Log) (now fn i : Nat) : Log :=
  let r := l.ring fn i
  if r.due now then (l.setRing fn i { r with armed := false, irqDue := false, timerFrom := none }).sendVector fn r.vector
  else l

/-- One record written at the ring's sequence: body, then seal word (R349); then the interrupt check. -/
def Log.writeRecord (l : Log) (now fn i : Nat) (irq : Bool) (body : List Byte) : Log :=
  let r := l.ring fn i
  let body := padTo (entryBytes i - 4) body
  let a := r.base.toNat + r.seq.toNat % r.entries * entryBytes i
  let r' := { r with seq := r.seq + 1, irqDue := r.irqDue || irq,
                     timerFrom := match r.timerFrom with | none => some now | some t => some t }
  (({ l with host := writeBytes l.host a (leBytes 4 (sealWord (lapOf r) body) ++ body) }).setRing fn i r').interrupt now fn i

/-- Whether a module-written ring can take a record: enabled, its function not in D3hot, an entry released. -/
def Log.room (l : Log) (fn i : Nat) : Bool :=
  let r := l.ring fn i
  r.en && !l.d3.contains fn && decide (r.u < r.entries)

/-- The body of an event entry (R352). -/
def eventBody (st : Stamp) (code : Half) (kind inst count : Nat) (payload : List Byte) : List Byte :=
  leBytes 2 code.toNat ++ leBytes 2 (kind * 256 + inst) ++ leBytes 4 count ++ leBytes 4 st.epoch ++
  leBytes 6 st.sec ++ leBytes 2 0 ++ leBytes 4 st.ns ++ leBytes 4 0 ++ padTo 32 payload

/-- The entry 0x3032 that counts the events lost, once an entry is released (R352). -/
def Log.eventResume (l : Log) (st : Stamp) (fn : Nat) : Log :=
  let r := l.ring fn 34
  if r.lostRun ≠ 0 ∧ l.room fn 34 then
    (l.setRing fn 34 { r with lostRun := 0 }).writeRecord st.now fn 34 false
      (eventBody st 0x3032#16 0x0B fn r.lostRun [])
  else l

def Log.lose (l : Log) (fn i : Nat) : Log :=
  { l with ringLost := tset 0 l.ringLost (ringKey fn i) (satAdd (tget 0 l.ringLost (ringKey fn i)) 1) }

/-- One event entry on one function's ring, or one lost (R352). A ring that is not enabled takes none and counts none
(the assumption log, 12). -/
def Log.eventTo (l : Log) (st : Stamp) (fn : Nat) (code : Half) (kind inst count : Nat) (payload : List Byte) : Log :=
  let r := l.ring fn 34
  if !r.en then l
  else if l.room fn 34 ∧ r.lostRun = 0 then l.writeRecord st.now fn 34 false (eventBody st code kind inst count payload)
  else (l.setRing fn 34 { r with lostRun := r.lostRun + 1 }).lose fn 34

/-- The class of a code (R9). -/
def codeClass (code : Half) : Nat := code.toNat / 4096

/-- The chapter of a code: its middle digits. -/
def codeChapter (code : Half) : Nat := code.toNat / 16 % 256

/-- The codes that enter the Hexkeug record: R43 for notices, the last rule of each chapter for its codes, and R400
for Vigil's detections. -/
def entersHexkeug (code : Half) : Bool :=
  let c := codeClass code
  let n := code.toNat
  if c = 0 then n = 0x0102 else
  match codeChapter code with
  | 0x10 | 0x20 | 0xD0 | 0x05 => c = 5
  | 0x40 => n = 0x5401
  | 0x60 => c = 5 || c = 6 || n = 0x4602
  | 0x70 => n = 0x2701
  | 0x90 => (0x2901 ≤ n && n ≤ 0x2904) || n = 0x6901
  | 0xA0 => n = 0x2A01 || n = 0x2A02
  | 0xB0 => n = 0x2B01 || n = 0x5B01
  | 0xC0 => n = 0x2C02 || c = 5
  | 0xE0 => n = 0x5E01
  | 0xF0 => n = 0x3F02 || n = 0x4F02
  | 0x03 => n = 0x2032 || n = 0x6031
  | 0x04 => c = 5 || c = 7
  | 0x06 => c = 2 || c = 5
  | 0x07 => c = 5 || c = 6
  | 0x08 => c = 6
  | _ => false

/-- One entry of the Hexkeug record (R418). -/
def Log.hexEnter (l : Log) (st : Stamp) (code : Half) (kind inst : Nat) (payload : List Byte) : Log :=
  { l with
    hex := tset {} l.hex (l.hexHead.toNat % 4096)
      { code, source := BitVec.ofNat 16 (kind * 256 + inst), seconds := BitVec.ofNat 32 st.sec,
        nanos := BitVec.ofNat 32 (st.ns + st.state * 2 ^ 30), detail := BitVec.ofNat 32 (leNat (payload.take 4)) }
    hexHead := l.hexHead + 1 }

/-- Posts an event: PF0's event ring, the VF's where one is concerned, and the Hexkeug record for its codes
(R352, R418). -/
def Log.post (l : Log) (st : Stamp) (vf : Option Nat) (code : Half) (kind inst count : Nat) (payload : List Byte) : Log :=
  let l := if entersHexkeug code then l.hexEnter st code kind inst payload else l
  let l := l.eventTo st 0 code kind inst count payload
  match vf with
  | none => l
  | some f => l.eventTo st f code kind inst count payload

/-- The number of a code and source among windows. -/
def windowKey (code : Half) (kind inst : Nat) : Nat := code.toNat * 65536 + kind * 256 + inst

def findWindow (k : Nat) : List (Nat × EventWindow) → Option EventWindow
  | [] => none
  | (a, w) :: r => if a = k then some w else findWindow k r

/-- A list of windows with the one of a key replaced, or removed. -/
def putWindow (k : Nat) (w : Option EventWindow) (l : List (Nat × EventWindow)) : List (Nat × EventWindow) :=
  l.filter (fun p => p.1 ≠ k) ++ (match w with | none => [] | some w => [(k, w)])

/-- A post at most once per millisecond (R476): `n` occurrences. -/
def Log.postWindowed (l : Log) (st : Stamp) (vf : Option Nat) (code : Half) (kind inst n : Nat) (payload : List Byte) : Log :=
  let k := windowKey code kind inst
  match findWindow k l.windows with
  | none => ({ l with windows := putWindow k (some { openedAt := st.now }) l.windows }).post st vf code kind inst n payload
  | some w => { l with windows := putWindow k (some { w with
      counted := w.counted + n, payload := if w.counted = 0 then payload else w.payload }) l.windows }

/-- The end of a window (R476): the occurrences it counted are posted and a new one opens, or it closes. -/
def Log.windowEnd (l : Log) (st : Stamp) (vf : Option Nat) (code : Half) (kind inst : Nat) : Log :=
  let k := windowKey code kind inst
  match findWindow k l.windows with
  | none => l
  | some w =>
    if st.now - w.openedAt < 1000000 then l
    else if w.counted = 0 then { l with windows := putWindow k none l.windows }
    else ({ l with windows := putWindow k (some { openedAt := st.now }) l.windows }).post st vf code kind inst w.counted w.payload

/-- The status registers whose LAST_CODE shows a code of a source: the last rule of each chapter. -/
def lastCodeKeys (code : Half) (kind inst : Nat) : List Nat :=
  match kind with
  | 0x01 => if inst < 0x10 then [0x210028 + 0x100 * inst] else if inst < 0x20 then [0x21080C + 0x40 * (inst - 0x10)] else []
  | 0x03 => [0x240020 + 0x100 * inst]
  | 0x04 => [0x250000 + 0x400 * (if inst < 0x10 then inst / 4 else inst - 0x10)]
  | 0x05 => if inst < 6 then [0x260004 + 0x1000 * inst] else []
  | 0x06 => (if codeChapter code = 0xA0 then [0x27010C] else [0x270010]) ++
      (if inst < 6 then [0x260004 + 0x1000 * inst] else [])
  | 0x07 => [0x280004]
  | 0x08 => if 0x20 ≤ inst ∧ inst < 0x22 then [0x290404 + 0x100 * (inst - 0x20)] else [0x290000]
  | 0x09 => if inst = 0x71 ∨ inst = 0x70 then [0x2A0028] else [0x2A0200]
  | 0x0A => if inst < 6 then [0x2B001C + 0x100 * inst] else [0x2B0804]
  | 0x0B => [if inst = 0 then 0x2C1000 else inst * 0x4000000 + 0x1000]
  | 0x0C => if code = 0x506D#16 ∨ code = 0x5069#16 then [0x300080] else if code = 0x2062#16 then [0x30100C] else [0x300044]
  | 0x0D => [0x320000]
  | 0x0F => [0x2E0014]
  | 0x10 => if code = 0x4052#16 ∨ code = 0x4053#16 ∨ code = 0x5052#16 then [0x2F0308] else [0x2F0114]
  | _ => []

def setCodes (code : Half) : List Nat → Tab Half → Tab Half
  | [], t => t
  | k :: r, t => setCodes code r (tset 0 t k code)

/-- LAST_CODE of the source's status registers. -/
def Log.last (l : Log) (code : Half) (kind inst : Nat) : Log :=
  { l with lastCodes := setCodes code (lastCodeKeys code kind inst) l.lastCodes }

/-- Entries of a function's report ring (R452). -/
def reportSlots (fn : Nat) : Nat := if fn = 0 then 1024 else 128

/-- One entry on one function's report (R451, R452). -/
def Log.reportTo (l : Log) (ring : Nat) (e : RepEntry) : Log :=
  let h := tget 0 l.repHeads ring
  { l with
    reports := tset {} l.reports (ring * 4096 + h.toNat % reportSlots ring) { e with seq := h }
    repHeads := tset 0 l.repHeads ring (h + 1) }

/-- A configuration outcome (R451, R452): PF0's report, the VF's own, and 0x1081 on the event rings. -/
def Log.report (l : Log) (st : Stamp) (e : RepEntry) : Log :=
  let f := e.fn.toNat
  let l := l.reportTo 0 e
  let l := if f = 0 then l else l.reportTo f e
  l.postWindowed st (if f = 0 then none else some f) 0x1081#16 0x0E f 1 []

/-! ## Completion records -/

/-- The body of a completion record (R351). -/
def compBody (st : Stamp) (subSeq : Word) (tag : DWord) (c : CompRec) : List Byte :=
  leBytes 2 c.status.toNat ++ leBytes 2 c.flags.toNat ++ leBytes 8 tag.toNat ++ leBytes 4 subSeq.toNat ++
  leBytes 4 c.retired ++ leBytes 8 c.result.toNat ++ leBytes 4 c.failTask.toNat ++ leBytes 2 c.failOp.toNat ++
  leBytes 2 0 ++ leBytes 6 st.sec ++ leBytes 2 st.epoch ++ leBytes 4 st.ns ++ padTo 12 c.detail

/-- The records of complete descriptors written in submission order while the completion ring takes them (R351). -/
def Log.drain (st : Stamp) (fn i : Nat) : Nat → Log → Log
  | 0, l => l
  | n + 1, l =>
    let r := l.ring fn i
    match r.pend with
    | [] => l
    | p :: rest =>
      match p.done with
      | none => l
      | some c =>
        if l.room fn (i + 1) then
          Log.drain st fn i n ((l.setRing fn i { r with pend := rest }).writeRecord st.now fn (i + 1) p.irq
            (compBody st r.seq p.tag c))
        else l

def Log.drainAll (l : Log) (st : Stamp) (fn i : Nat) : Log := Log.drain st fn i (l.ring fn i).pend.length l

/-- The first descriptor of a tag that is not complete becomes complete. -/
def markDone (tag : DWord) (c : CompRec) : List PendDesc → Option (List PendDesc)
  | [] => none
  | p :: r =>
    if p.tag = tag ∧ p.done = none then some ({ p with done := some c } :: r)
    else (markDone tag c r).map (p :: ·)

/-- A descriptor's outcome (R351): its record waits its turn on the submission ring. A descriptor that the host has
not queued through the ring takes its place at the tail (the assumption log, 5). -/
def Log.complete (l : Log) (st : Stamp) (fn i : Nat) (tag : DWord) (irq : Bool) (c : CompRec) : Log :=
  let r := l.ring fn i
  let pend := match markDone tag c r.pend with
    | some p => p
    | none => r.pend ++ [{ tag, irq, done := some c }]
  (l.setRing fn i { r with pend }).drainAll st fn i

end Sys2Proof.Machine
end

