-- ==== Sys2Proof/Machine/Basis.lean ====
section
/-! DEFINITION. Reading and writing the state by its units: registers, counters, codes, module time, and positions. -/

namespace Sys2Proof.Machine

namespace State

/-! ## Registers and counters -/

/-- The word of a setup register of PF0. -/
def reg (s : State) (off : Nat) : Word :=
  tget (resetWord off) s.regs off
/-- A setup register's word replaced. -/
def setReg (s : State) (off : Nat) (w : Word) : State := { s with regs := tset (resetWord off) s.regs off w }
/-- A field of a setup register. -/
def fld (s : State) (off hi lo : Nat) : Nat := bits (s.reg off) hi lo
/-- A one-bit field of a setup register. -/
def flag (s : State) (off n : Nat) : Bool := bit (s.reg off) n
/-- A field of a setup register replaced. -/
def setFld (s : State) (off hi lo x : Nat) : State := s.setReg off (putBits (s.reg off) hi lo x)
/-- A split value: both halves (R447). -/
def reg64 (s : State) (off : Nat) : Nat := (s.reg off).toNat + (s.reg (off + 4)).toNat * 2 ^ 32
/-- Adds to an RC counter, which saturates. -/
def bump (s : State) (off n : Nat) : State :=
  { s with counters := tset 0 s.counters off (satAdd (tget 0 s.counters off) n) }
/-- An RC counter. -/
def counter (s : State) (off : Nat) : Word := tget 0 s.counters off

/-! ## Module time (R39) -/

/-- One ns in the unit of module time. -/
def nsUnit : Nat := 2 ^ 48

def ofTime (t : Nat) (s : State) : Stamp :=
  { now := s.now, sec := t / nsUnit / 1000000000 % 2 ^ 48, ns := t / nsUnit % 1000000000,
    frac := t / 2 ^ 32 % 65536, epoch := s.time.epoch.toNat, state := s.time.servo }

/-- Module time as records carry it. -/
def stamp (s : State) : Stamp := ofTime s.time.t s

/-! ## Posting -/

/-- The VF whose event ring an event also reaches (R352): that of an engine's polder, or of the polder itself. -/
def vfOf (s : State) (kind inst : Nat) : Option Nat :=
  match kind with
  | 0x05 => if inst < 6 then (tget {} s.engines inst).polder.map (· + 1) else none
  | 0x06 => if inst < 6 then (tget {} s.engines inst).polder.map (· + 1) else none
  | 0x0A => if inst < 6 then some (inst + 1) else none
  | _ => none

/-- Reports a code of a source: LAST_CODE, and the event ring at most once per millisecond (R476). -/
def raise (s : State) (code : Half) (kind inst : Nat) (n : Nat := 1) (payload : List Byte := []) : State :=
  { s with log := (s.log.last code kind inst).postWindowed s.stamp (s.vfOf kind inst) code kind inst n payload }

/-- Reports a code of a source with an event of its own: notices, and codes posted once per onset. -/
def raiseNow (s : State) (code : Half) (kind inst : Nat) (payload : List Byte := []) : State :=
  { s with log := (if codeClass code = 0 then s.log else s.log.last code kind inst).post s.stamp (s.vfOf kind inst) code kind inst 1 payload }

/-- Configuration codes that are posted on the event ring too: those of the chapters whose every code is (R46, R394,
R421). -/
def postsConfig (code : Half) : Bool :=
  decide (codeClass code = 1) && (codeChapter code = 0x10 || codeChapter code = 0x05 || codeChapter code = 0x06)

/-- Shows a code in LAST_CODE, and posts it where its chapter posts its configuration codes. -/
def last (s : State) (code : Half) (kind inst : Nat) : State :=
  if postsConfig code then s.raise code kind inst else { s with log := s.log.last code kind inst }

/-- A field's outcome in the configuration report (R451). -/
def report (s : State) (code : Half) (outcome : Byte) (off hi lo written applied : Nat) (subject : Nat := 0)
    (fn : Nat := 0) : State :=
  { s with log := s.log.report s.stamp (
      { code, outcome, fn := BitVec.ofNat 8 fn, off := BitVec.ofNat 32 off, low := BitVec.ofNat 8 lo,
        width := BitVec.ofNat 8 (hi + 1 - lo), written := BitVec.ofNat 32 written,
        applied := BitVec.ofNat 32 applied, subject := BitVec.ofNat 64 subject } : RepEntry) }

/-- A configuration outcome whose subject is not a register (R451). -/
def reportSubject (s : State) (code : Half) (outcome : Byte) (subject : Nat) (fn : Nat := 0) : State :=
  { s with log := s.log.report s.stamp (
      { code, outcome, fn := BitVec.ofNat 8 fn, off := 0xFFFFFFFF#32, low := 0, width := 0, written := 0, applied := 0,
        subject := BitVec.ofNat 64 subject } : RepEntry) }

/-- A refusal of a command bit or enable bit: the report entry, and the unit's LAST_CODE. -/
def refuse (s : State) (code : Half) (kind inst off b : Nat) (subject : Nat := 0) (fn : Nat := 0) : State :=
  ((s.report code 2 off b b 1 0 subject fn).last code kind inst)

/-- The outcomes of a write's field checks, in order (R445). -/
def reportFields (s : State) (off : Nat) (kind inst : Nat) : List FieldRep → State
  | [] => s
  | f :: r => reportFields ((s.report f.code f.outcome off f.hi f.lo f.written f.applied).last f.code kind inst) off kind inst r

/-- The seal's own count and report of a write that would have changed an RWL field (R450): `SYS_SEAL_WR`,
`SYS_SEAL_LAST`, and 0x1082 at most once per millisecond. -/
def countSealed (s : State) (off : Nat) (f : FieldSpec) (v old : Word) : State :=
  let s := { s with counters := tset 0 s.counters 0x20000C (satAdd (tget 0 s.counters 0x20000C) 1) }
  let s := { s with regs := tset 0 s.regs 0x200010 (BitVec.ofNat 32 off) }
  let k := windowKey 0x1082#16 0x0E 0
  match findWindow k s.log.windows with
  | some w =>
    if s.now - w.openedAt < 1000000 then s
    else { s with log := { s.log with windows := putWindow k (some { openedAt := s.now }) s.log.windows } }.report
      0x1082#16 3 off f.hi f.lo (bits v f.hi f.lo) (bits old f.hi f.lo)
  | none => { s with log := { s.log with windows := putWindow k (some { openedAt := s.now }) s.log.windows } }.report
      0x1082#16 3 off f.hi f.lo (bits v f.hi f.lo) (bits old f.hi f.lo)

/-- One write applied to a register's fields (R445, R450): every field check, the seal's rules, and the reports. -/
def writeFields (s : State) (off kind inst : Nat) (v : Word) : State :=
  match regSpec off with
  | none => s
  | some r =>
    let old := s.reg off
    let (w, reps) := applyFields s.sealed r.code r.fields v old
    let s := (s.setReg off w).reportFields off kind inst reps
    if s.sealed then (match sealedField r.code v old r.fields with | none => s | some f => s.countSealed off f v old)
    else s

/-- What a write would leave in a register, without writing it. -/
def wouldBe (s : State) (off : Nat) (v : Word) : Word :=
  match regSpec off with
  | none => s.reg off
  | some r => (applyFields s.sealed r.code r.fields v (s.reg off)).1

/-- A value the spec leaves open: the next free number (the assumption log, 6). -/
def drawNat (s : State) : Nat × State := (Config.freeNat s.free, { s with free := s.free + 1 })
def drawBool (s : State) : Bool × State := (Config.freeBool s.free, { s with free := s.free + 1 })

/-- Configuration freeze (R411 to R413): no warden holds the lease. A holder that cannot renew demotes before its lease of
1 ms ends (the assumption log, 20). -/
def freeze (s : State) : Bool :=
  match s.lead.holder with | none => true | some _ => !s.lead.leads && decide (1000000 ≤ s.now - s.lead.grantAt)

/-- Deferrable work is admitted (R389, R391). -/
def deferAdmits (s : State) : Bool := !s.power.deferOut && !s.power.capped

/-- Sheddable work is admitted (R389, R391). -/
def shedAdmits (s : State) : Bool := !s.power.shedOut && !s.power.capped

/-! ## Whether a register answers (R2, R386, R403, R427, R467) -/

/-- The processor runs: powered, booted, and in no reset of its own. -/
def running (s : State) : Bool :=
  !s.power.off && !s.power.dark && !s.vig.halted && s.vig.procFrom.isNone && s.vig.coldFrom.isNone && s.vig.pinFrom.isNone

/-- The module takes work: it runs, is not in the recovery state and does not sleep. -/
def serves (s : State) : Bool := s.running && decide (s.sec.state ≠ 0) && decide (s.power.mode = 0)

/-- Registers that answer in the recovery state: the SEC block and `HIF_STAT` of PF0 (R427). -/
def answersRecovery (fn off : Nat) : Bool := decide (fn = 0) && (decide (off / 0x10000 = 0x32) || decide (off = 0x2C1000))

/-- Registers that answer in module sleep: the PWR, HIF, TIME, ENC, FS and THERM blocks (R386). -/
def answersAsleep (fn off : Nat) : Bool :=
  if fn = 0 then
    decide (0x2F0010 ≤ off ∧ off < 0x2F0020) || decide (off / 0x1000 = 0x2C1) || decide (off / 0x10000 = 0x22) ||
    decide (0x210000 ≤ off ∧ off < 0x210800) || decide (off / 0x1000 = 0x284) || decide (off / 0x100 = 0x2F03)
  else decide (off / 0x1000 = 1)

/-- Registers of units that TXM-860-N lacks (R1, R2): the field section. -/
def absentUnit (s : State) (fn off : Nat) : Bool := s.variantN && decide (fn = 0) && decide (off / 0x10000 = 0x29)

/-- `HIF_BAD_ACCESS` of a function. -/
def badAccessOff (fn : Nat) : Nat := if fn = 0 then 0x2C1004 else fn * 0x4000000 + 0x1004

/-- A host write to a register of a function, where the register answers (R2, R386, R427). -/
def gate (s : State) (fn off : Nat) (v : Word) (f : State → State) : State :=
  if !s.running then s
  else if s.sec.state = 0 ∧ ¬ answersRecovery fn off then s
  else if s.power.mode ≠ 0 ∧ ¬ answersAsleep fn off then
    ((s.bump (badAccessOff fn) 1).report 0x1052#16 3 off 31 0 v.toNat 0 0 fn).last 0x1052#16 0x10 0xFF
  else if s.absentUnit fn off then s
  else f s

/-- The module descriptor as the flash holds it (R455, R456): its magic, version, variant and stepping are what a check at
cold boot has found, and its variant is the one the module acts as. -/
def descriptor (s : State) : List Byte :=
  padTo 8192 (leBytes 4 0x4D574C52 ++ leBytes 2 1 ++ [if s.variantN then 1 else 0, 0xB0] ++ Config.descriptor.drop 8)

/-! ## Units -/

def axis (s : State) (n : Nat) : Axis := tget {} s.axes n
def setAxis (s : State) (n : Nat) (a : Axis) : State := { s with axes := tset {} s.axes n a }
def emu (s : State) (n : Nat) : Emu := tget {} s.emus n
def setEmu (s : State) (n : Nat) (e : Emu) : State := { s with emus := tset {} s.emus n e }
def lane (s : State) (n : Nat) : Lane := tget {} s.lanes n
def setLane (s : State) (n : Nat) (l : Lane) : State := { s with lanes := tset {} s.lanes n l }
def port (s : State) (n : Nat) : Port := tget {} s.ports n
def setPort (s : State) (n : Nat) (p : Port) : State := { s with ports := tset {} s.ports n p }
def qp (s : State) (n : Nat) : Qp := tget {} s.qps n
def setQp (s : State) (n : Nat) (q : Qp) : State := { s with qps := tset {} s.qps n q }
def sluice (s : State) (k : Nat) : Sluice := tget {} s.sluices k
def setSluice (s : State) (k : Nat) (c : Sluice) : State := { s with sluices := tset {} s.sluices k c }
def slot (s : State) (i : Nat) : Slot := tget {} s.slots i
def setSlot (s : State) (i : Nat) (x : Slot) : State := { s with slots := tset {} s.slots i x }
def pipe (s : State) (p : Nat) : Pipe := tget {} s.pipes p
def setPipe (s : State) (p : Nat) (x : Pipe) : State := { s with pipes := tset {} s.pipes p x }
def calOf (s : State) (n : Nat) : List CalEntry := tget [] s.cal n
def setCal (s : State) (n : Nat) (l : List CalEntry) : State := { s with cal := tset [] s.cal n l }
def chan (s : State) (c : Nat) : Chan := tget {} s.chans c
def setChan (s : State) (c : Nat) (x : Chan) : State := { s with chans := tset {} s.chans c x }
def vlane (s : State) (k : Nat) : VLane := tget {} s.vlanes k
def setVlane (s : State) (k : Nat) (x : VLane) : State := { s with vlanes := tset {} s.vlanes k x }
def bank (s : State) (b : Nat) : Bank := tget {} s.banks b
def setBank (s : State) (b : Nat) (x : Bank) : State := { s with banks := tset {} s.banks b x }
def di (s : State) (i : Nat) : Di := tget {} s.dis i
def setDi (s : State) (i : Nat) (x : Di) : State := { s with dis := tset {} s.dis i x }
def doPin (s : State) (i : Nat) : DoPin := tget {} s.dos i
def setDoPin (s : State) (i : Nat) (x : DoPin) : State := { s with dos := tset {} s.dos i x }

/-! ## Positions between counts (R34 to R36, R44, R264) -/

/-- Register addresses of an axis. -/
def encOff (n : Nat) : Nat := 0x210000 + 0x100 * n

def encOn (s : State) (n : Nat) : Bool := s.flag (encOff n) 31
def encMode (s : State) (n : Nat) : Nat := s.fld (encOff n) 3 0
/-- An axis that has a source and is enabled: with EN 1 and MODE 0 it is off, and position and speed hold (R22). -/
def encCounts (s : State) (n : Nat) : Bool := s.encOn n && decide (s.encMode n ≠ 0)
/-- An axis whose source is absolute. -/
def encAbs (s : State) (n : Nat) : Bool := s.encMode n = 3 || s.encMode n = 4

/-- P of the period method (R34). -/
def periodP (s : State) (n : Nat) : Nat := 2 ^ s.fld (encOff n) 9 8

/-- Whether an axis is in wire fault or axis fault (R32). -/
def axisFault (s : State) (n : Nat) : Bool := (s.axis n).absFault || (s.axis n).wire ≠ 0

/-- `ENCn_SPEED` in 1/64 ct/s (R34 to R36): 0 in fault and at standstill; the count estimate, or the period estimate,
0 until P counts have come since a reversal; while no count arrives, limited by the time since the last count. -/
def speed (s : State) (n : Nat) : Int :=
  let a := s.axis n
  let lim (v : Int) : Int :=
    if s.now ≤ a.lastAt ∨ ¬ s.encCounts n then v
    else let m := divRne 64000000000 (s.now - a.lastAt); clampInt (-m) m v
  let v := if s.axisFault n || a.still then 0
    else if a.method then lim a.counted
    else if s.encCounts n && !s.encAbs n && decide (a.run < s.periodP n) then 0
    else lim a.period
  clampInt (-(2 ^ 31 - 1)) (2 ^ 31 - 1) v

/-- The 16-bit fraction of a position at module time `t` when the last count was stamped `tl` (R44). -/
def fraction (s : State) (n : Nat) (t : Nat) (tl : Int) : Nat :=
  let a := s.axis n
  let f := ((t : Int) - tl) * ((s.speed n).natAbs * 1024 : Nat) / (1000000000 * nsUnit : Nat)
  let cap := if s.encAbs n then a.delta * 65536 - 1 else 65535
  min f.toNat cap

/-- A position with a signed fraction in the Calendar's form. -/
def withFraction (p : Pos) (neg : Bool) (f : Nat) : Fine :=
  BitVec.ofInt 64 ((p.toNat * 65536 : Nat) + (if neg then -(f : Int) else (f : Int)))

/-- The interpolated position of an axis at module time `t` (R44). -/
def posAt (s : State) (n : Nat) (t : Nat) : Fine :=
  let a := s.axis n
  match a.hist with
  | [] => withFraction a.pos a.neg 0
  | (tl, _) :: _ => withFraction a.pos a.neg (s.fraction n t tl)

/-- L of R264 in ns: how long after its stamp a count becomes known to the Calendar. -/
def latency (s : State) (n : Nat) : Int :=
  let o := encOff n
  let f : Nat := s.fld o 15 11
  let t : Nat := (s.fld (o + 4) 11 0 + 1) * 4
  let sb : Nat := s.fld o 24 19
  let c : Nat := match s.fld o 27 26 with | 0 => 0 | 3 => 6 | _ => 1
  let sd : Nat := s.fld (o + 4) 31 24 * 4
  let ld : Nat := s.fld (o + 0x50) 7 0 * 4
  match s.encMode n with
  | 1 => (f * 4 + 60 : Nat)
  | 2 => (f * 10 + 848 : Nat)
  | 3 => ((2 * (sb + c) - 1) * (t / 2) + sd + 48 : Nat) - (ld : Int)
  | 4 => ((s.axis n).lineDelay + (sb + 10) * t + 48 : Nat) - (ld : Int)
  | _ => 0

/-- The interpolated position the Calendar knows now (R264): from the newest count whose latency has passed. -/
def posKnown (s : State) (n : Nat) : Fine :=
  let a := s.axis n
  let l := s.latency n * nsUnit
  match a.hist.find? (fun h => decide (h.1 + l ≤ (s.time.t : Int))) with
  | some h => withFraction h.2 a.neg (s.fraction n s.time.t h.1)
  | none => withFraction (match a.hist.getLast? with | some h => h.2 | none => a.pos) a.neg 0

/-- The signed difference of two positions in the Calendar's form (R24). -/
def fineDiff (a b : Fine) : Int := (a - b).toInt

/-- Whether a position is at or beyond another in a direction: false rising, true falling (R264). -/
def beyond (dir : Bool) (p target : Fine) : Bool :=
  if dir then decide (fineDiff p target ≤ 0) else decide (0 ≤ fineDiff p target)

/-- Positions of all four axes now (R40, R75). -/
def allPos (s : State) : List Fine := [s.posAt 0 s.time.t, s.posAt 1 s.time.t, s.posAt 2 s.time.t, s.posAt 3 s.time.t]

end State
end Sys2Proof.Machine
end

