-- ==== Sys2Proof/Machine/Regions.lean ====
section
/-! DEFINITION. The regions of bonded memory and the rules that a commit checks (R453, R454, R446). -/

namespace Sys2Proof.Machine

/-- Bytes of bonded memory. -/
def bondedBytes : Nat := 2 ^ 35
/-- The module-reserved area and its parts (R454). -/
def reservedAt : Nat := 0x7F0000000
def verdictRegionAt : Nat := 0x7F2000000
def ringPoolAt : Nat := 0x7F9000000
def ringPoolBytes : Nat := 96 * 2 ^ 20

/-- Two spans of addresses meet. -/
def spansMeet (a n b m : Nat) : Bool := decide (a < b + m) && decide (b < a + n)
/-- A span lies wholly within another. -/
def spanWithin (a n b m : Nat) : Bool := decide (b ≤ a) && decide (a + n ≤ b + m)

namespace State

def rewBase (s : State) : Nat := s.reg64 0x2A0004 / 2 ^ 26 * 2 ^ 26
def rewBytes (s : State) : Nat := s.fld 0x2A0000 22 18 * 2 ^ 30
def idxBase (s : State) : Nat := s.reg64 0x2A000C / 4096 * 4096
def idxCount (s : State) : Nat := 2 ^ s.fld 0x2A0014 4 0
def archBase (s : State) : Nat := s.reg64 0x2A0104 / 2 ^ 20 * 2 ^ 20
def archBytes (s : State) : Nat := (s.reg 0x2A010C).toNat * 2 ^ 20
def kvRegion (s : State) : Nat × Nat := (s.reg64 0x270000 / 2 ^ 26 * 2 ^ 26, s.fld 0x270008 4 0 * 2 ^ 30)
def pfxRegion (s : State) : Nat × Nat := (s.reg64 0x270104 / 2 ^ 20 * 2 ^ 20, 2 ^ s.fld 0x270100 20 16 * 256)
def lineWindow (s : State) : Nat × Nat := (s.reg64 0x2E0008 / 2 ^ 21 * 2 ^ 21, s.fld 0x2E0010 12 0 * 2 ^ 20)
def polder (s : State) (p : Nat) : Polder := tget {} s.polders p

/-- The region of an ID that is committed: its address and bytes. -/
def region (s : State) (i : Nat) : Option (Nat × Nat) :=
  match i with
  | 0 => some (reservedAt, 2 ^ 28)
  | 1 => s.sec.lsw
  | 2 => if s.flag 0x2A0000 31 then some (s.rewBase, s.rewBytes) else none
  | 3 => if s.flag 0x2A0000 31 then some (s.idxBase, s.idxCount * 1216) else none
  | 4 => if s.flag 0x2A0100 31 then some (s.archBase, s.archBytes) else none
  | 5 => if s.kv.running then some s.kvRegion else none
  | 6 => if s.kv.treeRunning then some s.pfxRegion else none
  | 13 => if s.line.running then some s.lineWindow else none
  | _ => if 7 ≤ i ∧ i ≤ 12 ∧ (s.polder (i - 7)).made then some ((s.polder (i - 7)).base, (s.polder (i - 7)).size) else none

/-- Whether two overlapping regions may: region 13 wholly within one polder allocation. -/
def mayOverlap (i : Nat) (a n : Nat) (j : Nat) (b m : Nat) : Bool :=
  (decide (i = 13) && decide (7 ≤ j) && decide (j ≤ 12) && spanWithin a n b m) ||
  (decide (j = 13) && decide (7 ≤ i) && decide (i ≤ 12) && spanWithin b m a n)

/-- What stands against an exclusive region: 0xFF beyond bonded memory, or the first region it may not overlap. -/
def exclusiveMeets (s : State) (i a n : Nat) : Option Nat :=
  if bondedBytes < a + n then some 0xFF
  else (List.range 14).find? (fun j => decide (j ≠ i) &&
    (match s.region j with | none => false | some (b, m) => spansMeet a n b m && !mayOverlap i a n j b m))

/-- What stands against a placed region: 0xFF beyond bonded memory, or a region of 0 to 6. -/
def placedMeets (s : State) (a n : Nat) : Option Nat :=
  if bondedBytes < a + n then some 0xFF
  else (List.range 7).find? (fun j => match s.region j with | none => false | some (b, m) => spansMeet a n b m)

/-- The subject of a region's refusal (R451). -/
def regionSubject (i j : Nat) : Nat := i + 256 * j

/-- The failures of a region as a commit lists them: code and subject. -/
def regionFails (code : Half) (i : Nat) (m : Option Nat) : List (Half × Nat) :=
  match m with | none => [] | some j => [(code, regionSubject i j)]

/-- Every failure of a commit reported in order (R446). -/
def refuseAll (s : State) (kind inst off b : Nat) (fn : Nat := 0) : List (Half × Nat) → State
  | [] => s
  | (c, subj) :: r => refuseAll (s.refuse c kind inst off b subj fn) kind inst off b fn r

/-- A field that keeps the value it held, with its report (R446). -/
def revertField (s : State) (old : Word) (off hi lo kind inst : Nat) (code : Half) (subject : Nat := 0) : State :=
  ((s.report code 2 off hi lo (s.fld off hi lo) (bits old hi lo) subject).last code kind inst).setFld off hi lo (bits old hi lo)

/-! ## The Sluice ring pool (R454) -/

/-- The rings allocated in the pool. -/
def rings (s : State) : List (Nat × Nat) :=
  (s.sluices.filter (fun (p : Nat × Sluice) => decide (0 < p.2.ringBytes))).map (fun (p : Nat × Sluice) => (p.2.ringBase, p.2.ringBytes))

/-- The lowest free address of the pool that holds n bytes. -/
def ringFit (s : State) (n : Nat) : Option Nat :=
  let cand := ringPoolAt :: s.rings.map (fun r => r.1 + r.2)
  let ok := cand.filter (fun a => decide (a + n ≤ ringPoolAt + ringPoolBytes) && s.rings.all (fun r => !spansMeet a n r.1 r.2))
  match ok with
  | [] => none
  | a :: r => some (r.foldl min a)

end State
end Sys2Proof.Machine
end

