-- ==== Sys2Proof/Machine/Outputs.lean ====
section
/-! DEFINITION. Ejector outputs: bindings, hold counts, output levels, and the fail-safe states of the Dike domain
(R260, R264, R267, R271 to R273, R283). -/

namespace Sys2Proof.Machine.State

/-! ## Bindings (R260) -/

def bindOff (k : Nat) : Nat := 0x281000 + 0x40 * k
def bindOn (s : State) (k : Nat) : Bool := s.flag (bindOff k) 31
def bindAxis (s : State) (k : Nat) : Nat := s.fld (bindOff k) 29 28
def bindDir (s : State) (k : Nat) : Bool := s.flag (bindOff k) 27

/-- The bits set in a mask, in ascending order. -/
def maskBits (n m : Nat) : List Nat := (List.range n).filter (fun i => m / 2 ^ i % 2 = 1)

/-- Channels first to last. -/
def channelRange (a b : Nat) : List Nat := (List.range (b + 1 - a)).map (· + a)

/-- Whether a binding names an output or channel (channels from 16). -/
def bindNames (s : State) (k c : Nat) : Bool :=
  let o := bindOff k
  s.bindOn k &&
    (if s.flag o 30 then decide (16 + s.fld (o + 0x10) 8 0 ≤ c) && decide (c ≤ 16 + s.fld (o + 0x14) 8 0)
     else decide (c < 16) && decide (s.fld o 15 0 / 2 ^ c % 2 = 1))

/-! ## Fail-safe (R271, R272) -/

/-- Whether fail-safe is engaged on an output or channel. -/
def engaged (s : State) (c : Nat) : Bool :=
  s.fs.heartbeat || s.fs.command ||
  ((!s.fs.axes.isEmpty || !s.fs.full.isEmpty) &&
   (List.range 18).any (fun k => s.bindNames k c && (s.fs.axes.contains (s.bindAxis k) || s.fs.full.contains k)))

/-- Whether fail-safe is engaged on any output (`VU_STAT.FS`). -/
def anyEngaged (s : State) : Bool := s.fs.heartbeat || s.fs.command || !s.fs.axes.isEmpty || !s.fs.full.isEmpty

/-- The fail-safe state of an output or channel: 0 OFF, 1 ON, 2 HOLD (R271). -/
def fsState (s : State) (c : Nat) : Nat :=
  if c < 16 then s.fld 0x284008 (2 * c + 1) (2 * c)
  else
    let g := c - 16
    let n := g % 128
    s.fld (0x284020 + 0x20 * (g / 128) + 4 * (n / 16)) (2 * (n % 16) + 1) (2 * (n % 16))

/-- An output or channel is active while its hold count is above 0, and through the tick of its last OFF (R264). -/
def chanActive (s : State) (c : Nat) : Bool :=
  let x := s.chan c
  decide (0 < x.hold) || x.spans.any (fun p => decide (p.1 ≤ s.now) && decide (s.now < p.2 + 10))

/-- The output whose hold count and fail-safe state drive an output: the lead of its group (R283). -/
def leadOf (s : State) (n : Nat) : Nat :=
  match s.fld 0x290200 (2 * (n / 4) + 1) (2 * (n / 4)) with
  | 1 => n / 2 * 2
  | 2 => n / 4 * 4
  | _ => n

/-- The outputs of an output's group. -/
def groupOf (s : State) (n : Nat) : List Nat := (List.range 16).filter (fun m => s.leadOf m = s.leadOf n)

/-- The level an output's hold count or fail-safe state asks for (R271, R282). -/
def doAsked (s : State) (n : Nat) : Bool :=
  let c := s.leadOf n
  if s.engaged c then (match s.fsState c with | 0 => false | 1 => true | _ => s.fs.held.contains c)
  else s.chanActive c

/-- An output's commanded level: off while tripped, latched off or unpowered (R278, R284). -/
def doLevel (s : State) (n : Nat) : Bool :=
  !s.field.uv && !(s.groupOf n).any (fun m => (s.doPin m).tripped || (s.doPin m).latched) && s.doAsked n

/-- Fail-safe causes replaced: an output that engages in HOLD keeps the level present (R271). -/
def withFs (s : State) (f : FailSafe) : State :=
  let t : State := { s with fs := f }
  { s with fs := { f with held := (List.range 16).filter (fun n =>
      t.engaged n && (if s.engaged n then s.fs.held.contains n else s.doLevel n)) } }

/-- An engagement's post (R272, R352): of the unit as a whole, the cause in the payload. -/
def postEngaged (s : State) (cause : Nat) : State := s.raise 0x5C01#16 0x07 0xFF 1 (leBytes 4 cause)

/-! ## Hold counts (R264) -/

/-- Spans still needed by a tick or a frame. -/
def liveSpans (s : State) (l : List (Nat × Nat)) : List (Nat × Nat) := l.filter (fun p => decide (s.now - p.2 ≤ 5000))

/-- An ON for one output or channel. -/
def holdUp (s : State) (c : Nat) : State :=
  let x := s.chan c
  if x.hold = 65535 then (s.bump 0x280050 1).raise 0x3C05#16 0x07 0xFF
  else s.setChan c { x with hold := x.hold + 1, onAt := if x.hold = 0 then s.now else x.onAt, spans := s.liveSpans x.spans }

/-- An OFF for one output or channel. -/
def holdDown (s : State) (c : Nat) : State :=
  let x := s.chan c
  if x.hold = 0 then s.bump 0x28003C 1
  else s.setChan c { x with
    hold := x.hold - 1, spans := s.liveSpans x.spans ++ (if x.hold = 1 then [(x.onAt, s.now)] else []) }

def holdUpAll (s : State) : List Nat → State
  | [] => s
  | c :: r => holdUpAll (s.holdUp c) r

def holdDownAll (s : State) : List Nat → State
  | [] => s
  | c :: r => holdDownAll (s.holdDown c) r

/-- The outputs or channels an ON or OFF operand names (R262). -/
def operandChans (w : Word) : List Nat :=
  if bit w 31 then (channelRange (bits w 22 16) (bits w 14 8)).map (fun n => 16 + 128 * bits w 23 23 + n)
  else maskBits 16 (bits w 15 0)

/-- The hold counts of the outputs of an axis's bindings at 0 (R267). -/
def clearHolds (s : State) (n : Nat) : State :=
  { s with chans := s.chans.filter (fun p =>
      !(List.range 18).any (fun k => s.bindNames k p.1 && decide (s.bindAxis k = n))) }

/-- The Calendar-full fail-safe of bindings on an axis ends below 3,840 entries (R272). -/
def fullRelease (s : State) (n : Nat) : State :=
  if (s.calOf n).length < 3840 ∧ s.fs.full.any (fun k => decide (s.bindAxis k = n)) then
    s.withFs { s.fs with full := s.fs.full.filter (fun k => s.bindAxis k ≠ n) }
  else s

/-- An axis's pending ON and OFF entries discarded and its hold counts cleared (R267). -/
def discardEjections (s : State) (n : Nat) : State :=
  ((s.clearHolds n).setCal n ((s.calOf n).filter (fun e => ¬(e.kind = .on ∨ e.kind = .off)))).fullRelease n

/-- An axis enters fault (R267): its outputs go fail-safe, its ON and OFF entries are discarded, its hold counts are
cleared, and 0x5C02 tells how many entries. -/
def axisFailSafe (s : State) (n : Nat) : State :=
  let gone := (s.calOf n).filter (fun e => e.kind = .on ∨ e.kind = .off)
  let s := (s.withFs { s.fs with axes := including s.fs.axes n }).discardEjections n
  (s.postEngaged (16 * 2 ^ n)).raise 0x5C02#16 0x07 (0x40 + n) 1 (leBytes 4 n ++ leBytes 4 gone.length)

/-- Calendar and hold counts cleared, and with them every Calendar-full fail-safe (R266, R272, R273). -/
def clearCalendar (s : State) : State :=
  let s : State := { s with cal := [], chans := [] }
  s.withFs { s.fs with full := [] }

/-- The verdict unit and the Calendar run (`VU_CFG.EN`). -/
def vuOn (s : State) : Bool := s.flag 0x280000 31 && s.vu.running

end Sys2Proof.Machine.State
end

