-- ==== Sys2Proof/Machine/Calendar.lean ====
section
/-! DEFINITION. The Calendar: writing entries and firing them (R262 to R266), and the fail-safe commands (R272). -/

namespace Sys2Proof.Machine

namespace State

/-- The code an entry is refused with, if any (R2, R263, R283, R292); `kind` as the four bits of R262. -/
def calRefusal (s : State) (e : CalWord) : Option Half :=
  if (e.kind.val = 1 ∨ e.kind.val = 2) ∧ s.variantN then some 0x1010#16
  else if e.kind.val = 0 ∨ 7 ≤ e.kind.val then some 0x1C02#16
  else if ¬ s.encOn e.axis ∨ s.encMode e.axis = 0 then some 0x1C02#16
  else if e.kind.val ≤ 2 then
    (if bit e.operand 31 then
      (if bits e.operand 14 8 < bits e.operand 22 16 then some 0x1C02#16
       else if ¬ s.flag (0x290400 + 0x100 * bits e.operand 23 23) 31 then some 0x1D01#16 else none)
     else if (maskBits 16 (bits e.operand 15 0)).any (fun n => decide (s.leadOf n ≠ n)) then some 0x1D02#16
     else none)
  else if e.kind.val = 4 ∧ 17 < bits e.operand 4 0 then some 0x1C02#16
  else none

/-- The kind of an entry that the check has passed. -/
def calKindOf (k : Fin 16) : CalKind :=
  match k.val with | 1 => .on | 2 => .off | 3 => .swap | 4 => .changeover | 5 => .prove | _ => .mark

/-- The instance that an entry's events name (R352): its lane's, or its axis's. -/
def calInst (n : Nat) (e : CalEntry) : Nat := e.lane.getD (0x40 + n)

/-- Adds entries of one axis together, or none where the axis cannot take them (R263): whether they were taken. -/
def calAdd (s : State) (n : Nat) (es : List CalEntry) : State × Bool :=
  if 4096 < (s.calOf n).length + es.length then
    ((s.bump 0x280038 1).raise 0x3C01#16 0x07 ((es.head?.map (calInst n)).getD (0x40 + n)), false)
  else
    (s.setCal n (s.calOf n ++ es.map (fun e => { e with late := beyond e.dir (s.posKnown n) e.pos })), true)

/-- The entry at an index of an axis that fires now: of the kind, and reached (R264); in fault entries wait (R13, R257). -/
def calDue (s : State) (n idx : Nat) (k : CalKind) : Option CalEntry :=
  match (s.calOf n)[idx]? with
  | none => none
  | some e => if e.kind = k ∧ s.vuOn ∧ ¬ s.axisFault n ∧ beyond e.dir (s.posKnown n) e.pos then some e else none

/-- What every firing does (R264): the entry is freed and counted, and one reached before it was written is counted in
`CAL_LATE` with 0x4C02; a Calendar-full fail-safe may end (R272). -/
def calTake (s : State) (n idx : Nat) (e : CalEntry) : State :=
  let s := (s.setCal n ((s.calOf n).eraseIdx idx)).bump 0x28002C 1
  let s := if e.late then (s.bump 0x280030 1).raise 0x4C02#16 0x07 (calInst n e) else s
  s.fullRelease n

/-- The 16 bytes of an entry (R262). -/
def calBytes (e : CalEntry) : List Byte :=
  let k : Nat := match e.kind with | .on => 1 | .off => 2 | .swap => 3 | .changeover => 4 | .prove => 5 | .mark => 6
  leBytes 8 e.pos.toNat ++ leBytes 2 (k + 16 * e.axis + (if e.dir then 64 else 0)) ++ leBytes 2 e.tag.toNat ++
  leBytes 4 e.operand.toNat

/-- CAL_ON_FIRE (R264): 1 onto the hold count of each output or channel named. -/
def calOnEff (s : State) (n idx : Nat) : State :=
  match s.calDue n idx .on with
  | none => s
  | some e => (s.calTake n idx e).holdUpAll (operandChans e.operand)

/-- CAL_OFF_FIRE (R264): 1 off the hold count of each, with a floor of 0. -/
def calOffEff (s : State) (n idx : Nat) : State :=
  match s.calDue n idx .off with
  | none => s
  | some e => (s.calTake n idx e).holdDownAll (operandChans e.operand)

/-- A Calendar swap entry reaches a slot (R102, R103). -/
def swapFired (s : State) (e : CalEntry) : State :=
  let i := 4 * bits e.operand 1 0 + bits e.operand 3 2
  let x := s.slot i
  if x.pending ∧ x.whenSwap = 2 then s.setSlot i { x with fired := some (e.axis, e.pos, e.dir) }
  else (s.reportSubject 0x1505#16 2 (bits e.operand 1 0 * 2 ^ 32 + bits e.operand 3 2 * 2 ^ 36)).last 0x1505#16 0x04 i

/-- CAL_SWAP_FIRE (R102, R103). -/
def calSwapEff (s : State) (n idx : Nat) : State :=
  match s.calDue n idx .swap with
  | none => s
  | some e => (s.calTake n idx e).swapFired e

/-- CAL_MARK_FIRE (R262): notice 0x0C01 with the entry's bytes. -/
def calMarkEff (s : State) (n idx : Nat) : State :=
  match s.calDue n idx .mark with
  | none => s
  | some e => (s.calTake n idx e).raiseNow 0x0C01#16 0x07 (0x40 + n) (calBytes e)

/-- HEARTBEAT_LOSS (R272, R273): every output goes fail-safe and the Calendar is cleared. -/
def heartbeatLossEff (s : State) : State :=
  let s := s.withFs { s.fs with heartbeat := true, beating := false }
  (s.clearCalendar).postEngaged 1

/-- ENGAGE (R272): a write of `FS_CTL` with bit 31. -/
def engageEff (s : State) (v : Word) : State :=
  if bit v 31 then (s.withFs { s.fs with command := true }).postEngaged 2 else s

/-- Whether a release is taken (R272): the heartbeat has run for 1 ms. -/
def mayRelease (s : State) : Bool := s.fs.beating && decide (1000000 ≤ s.now - s.fs.beatSince)

/-- RELEASE (R272): a write of `FS_CTL` with bit 30. It ends a commanded engagement, and one by heartbeat loss once the
heartbeat has run for 1 ms; before then it is ignored for that cause and reported with 0x1C04. -/
def releaseEff (s : State) (v : Word) : State :=
  if bit v 30 then
    let early : Bool := s.fs.heartbeat && !s.mayRelease
    let t := s.withFs { s.fs with heartbeat := early, command := false }
    if early then (t.report 0x1C04#16 3 0x284000 30 30 1 0).last 0x1C04#16 0x07 0xFF else t
  else s

/-- VU_ENABLE: a write of `VU_CFG` (R272, R385): with EN the verdict unit, the Calendar and their heartbeat run. -/
def vuEnableEff (s : State) (v : Word) : State :=
  let s := s.writeFields 0x280000 0x07 0xFF v
  if bit v 31 then
    { s with vu := { s.vu with running := true }
             fs := if s.fs.beating then s.fs else { s.fs with beating := true, beatSince := s.now } }
  else { s with vu := { s.vu with running := false }, fs := { s.fs with beating := false } }

end State

/-! ## Meanings -/

def execCalOnFire (n : Fin 4) (idx : Nat) (s : State) : Host.Outcome State Fault Refusal := .next (s.calOnEff n idx)
def execCalOffFire (n : Fin 4) (idx : Nat) (s : State) : Host.Outcome State Fault Refusal := .next (s.calOffEff n idx)
def execCalSwapFire (n : Fin 4) (idx : Nat) (s : State) : Host.Outcome State Fault Refusal := .next (s.calSwapEff n idx)
def execCalMarkFire (n : Fin 4) (idx : Nat) (s : State) : Host.Outcome State Fault Refusal := .next (s.calMarkEff n idx)
def execEngage (v : Word) (s : State) : Host.Outcome State Fault Refusal :=
  .next (s.gate 0 0x284000 v (fun s => s.engageEff v))
def execRelease (v : Word) (s : State) : Host.Outcome State Fault Refusal :=
  .next (s.gate 0 0x284000 v (fun s => s.releaseEff v))
def execVuEnable (v : Word) (s : State) : Host.Outcome State Fault Refusal :=
  .next (s.gate 0 0x280000 v (fun s => s.vuEnableEff v))

end Sys2Proof.Machine
end

