-- ==== Sys2Proof/Machine/Axes.lean ====
section
/-! DEFINITION. Axes and emulation outputs (R22 to R38). -/

namespace Sys2Proof.Machine

namespace State

def encStat (n : Nat) : Nat := encOff n + 0x28

/-- Sets a W1C status bit of an axis. -/
def setStat (s : State) (n b : Nat) : State := s.setFld (encStat n) b b 1

/-! ## Enabling (R22, R23, R446) -/

/-- Inputs an HTL axis uses (R22). -/
def htlInputs (n : Nat) : List Nat := [4 * n, 4 * n + 1, 4 * n + 2]

/-- An axis that stops counting holds the speed it showed (R22). -/
def holdSpeed (s : State) (n : Nat) (sp : Int) : State := s.setAxis n { s.axis n with period := sp, counted := sp }

/-- AXIS_ENABLE: a write of `ENCn_CFG`. A failed check of a commit leaves EN as it was, and of an enabled axis MODE too; MODE 2 on an input that is a
general input is refused with 0x1101, and with 0x1010 on TXM-860-N (R23). -/
def axisEnableEff (s : State) (n : Nat) (v : Word) : State :=
  let o := encOff n
  let old := s.reg o
  let absent := s.variantN ∧ bits v 3 0 = 2
  let htl := bits v 3 0 = 2 ∧ (htlInputs n).any (fun i => s.flag (0x290100 + 4 * i) 31)
  let sp := s.speed n
  let s1 := s.writeFields o 0x01 n v
  if s.sealed ∨ ¬ bit v 31 then
    if s.encCounts n ∧ ¬ s1.encCounts n then s1.holdSpeed n sp else s1
  else
    let reserved := (bits v 3 0 > 4) || (bits v 9 8 = 3) || (bits v 17 16 > 1)
    let code : Half := if absent then 0x1010#16 else 0x1101#16
    let s2 := if ¬ (absent ∨ htl) then s1
      else if bit old 31 then s1.revertField old o 3 0 0x01 n code
      else s1.refuse code 0x01 n o 31
    if absent ∨ htl ∨ reserved then s2.setFld o 31 31 (bits old 31 31)
    else if bit old 31 then (if s.encCounts n ∧ ¬ s2.encCounts n then s2.holdSpeed n sp else s2)
    else s2.setAxis n { s2.axis n with legal := 0, run := 0, hist := [], lastP := none, fails := 0, window := [], zdir := none, frameStart := none, lastAt := s.now }

/-! ## Counting -/

/-- SPD_DOWN in 1/64 ct/s (R35). -/
def speedDown (s : State) (n : Nat) : Nat := (s.reg (encOff n + 0x14)).toNat * 64

/-- The method in force after an estimate (R35). -/
def changeover (s : State) (n : Nat) : State :=
  let a := s.axis n
  let up := (s.reg (encOff n + 0x10)).toNat
  if !a.method && decide (up * 64 < a.period.natAbs) then s.setAxis n { a with method := true }
  else if a.method && decide (a.counted.natAbs < s.speedDown n) then s.setAxis n { a with method := false }
  else s

/-- The speed of `d` counts in a time in 2^-48 ns, in 1/64 ct/s, rounded half to even and saturated (R34). -/
def speedOf (d : Int) (dt : Int) : Int :=
  if dt ≤ 0 then (if d < 0 then -(2 ^ 31 - 1) else if d = 0 then 0 else 2 ^ 31 - 1)
  else clampInt (-(2 ^ 31 - 1)) (2 ^ 31 - 1) (divRne (d * 64000000000 * nsUnit) dt.toNat)

/-- EMUn registers. -/
def emuOff (n : Nat) : Nat := 0x210800 + 0x40 * n

/-- The backlog check of an emulation output (R38): OVF and 0x4103 once per onset. -/
def emuBacklog (s : State) (m : Nat) : State :=
  let e := s.emu m
  let excess := decide (4096 < (e.target - e.emitted).natAbs)
  if excess && !e.ovf then
    ((s.setEmu m { e with ovf := true }).setFld (emuOff m + 0x0C) 15 15 1).raise 0x4103#16 0x01 (0x10 + m)
  else if !excess && e.ovf then s.setEmu m { e with ovf := false }
  else s

/-- Source counts of one emulation output (R37). A preset or the first frame of an absolute axis is no count, and a
write of SRC while EN is 1 takes no new origin: the target goes on from where it stands (DESIGN CHOICE, the assumption
log, 124). -/
def emuCount (s : State) (m n : Nat) (d : Int) : State :=
  let o := emuOff m
  if s.flag o 31 ∧ s.fld o 1 0 = n then
    let e := s.emu m
    let nn : Int := s.fld (o + 4) 31 16
    let mm : Int := s.fld (o + 4) 15 0
    let acc := e.acc + d * nn
    let q := acc / mm
    (s.setEmu m { e with acc := acc - q * mm, target := e.target + q }).emuBacklog m
  else s

/-- The physical time of a module-time stamp at or before now (R36). -/
def stampedAt (s : State) (st : Int) : Nat := s.now - (((s.time.t : Int) - st) / nsUnit).toNat

/-- The stamps of `k` counts that come at once, newest first; `d` the signed number of them. -/
def countStamps (st : Int) (p : Pos) (d : Int) : Nat → List (Int × Pos)
  | 0 => []
  | k + 1 => (st, p) :: countStamps st (posAdd p (if d < 0 then 1 else -1)) d k

/-- A count of `d` on an axis, stamped (R24, R34, R44): position, WRAP, history, direction, and the emulation outputs
that follow it. Each count of an incremental axis has its stamp; a frame of an absolute one has one stamp. -/
def addCount (s : State) (n : Nat) (d : Int) (st : Int) : State :=
  let a := s.axis n
  let p := posAdd a.pos d
  let wraps := decide (posDiff p 0 - posDiff a.pos 0 ≠ d)
  let neg := decide (d < 0)
  let s := s.setAxis n { a with
    pos := p, neg, delta := d.natAbs, hist := (countStamps st p d (if s.encAbs n then 1 else d.natAbs) ++ a.hist).take 8
    lastAt := s.stampedAt st, still := false
    run := if neg = a.neg then a.run + d.natAbs else d.natAbs }
  let s := if wraps then s.setStat n 8 else s
  (s.emuCount 0 n d).emuCount 1 n d

/-- The period estimate after a count of an incremental axis (R34): none, which reads 0, until P counts have come in the
direction (R36) and P + 1 stamps are held since the axis was enabled (DESIGN CHOICE, the assumption log, 124). -/
def periodUpdate (s : State) (n : Nat) : State :=
  let a := s.axis n
  let p := s.periodP n
  let v := match a.hist.head?, a.hist[p]? with
    | some h, some g => if a.run < p then 0 else speedOf (if a.neg then -(p : Int) else (p : Int)) (h.1 - g.1)
    | _, _ => 0
  (s.setAxis n { a with period := v }).changeover n

/-- The place of levels A, B in the forward sequence 00, 10, 11, 01 (R25). -/
def quadPlace (a b : Bool) : Nat := match a, b with | false, false => 0 | true, false => 1 | true, true => 2 | false, true => 3

/-- The count of a legal transition at a multiplier, before INVERT (R25). -/
def quadCount (mult : Nat) (fwd : Bool) (aOld aNew : Bool) : Int :=
  match mult with
  | 0 => if fwd then (if !aOld && aNew then 1 else 0) else (if aOld && !aNew then -1 else 0)
  | 1 => if aOld = aNew then 0 else if fwd then 1 else -1
  | _ => if fwd then 1 else -1

/-- The stamp of an accepted edge (R45). -/
def edgeStamp (s : State) (n : Nat) : Int :=
  let f := s.fld (encOff n) 15 11
  (s.time.t : Int) - ((if s.encMode n = 2 then f * 10 + 800 else f * 4 + 12) : Nat) * nsUnit

/-- INCREMENTAL_EDGE (R25, R26): an accepted level change of A and B. -/
def incrementalEdgeEff (s : State) (n : Nat) (a b : Bool) : State :=
  let x := s.axis n
  let o := encOff n
  let s1 := s.setAxis n { x with a, b }
  if ¬ s.encOn n ∨ ¬ (s.encMode n = 1 ∨ s.encMode n = 2) then s1
  else
    let inv (d : Int) : Int := if s.flag o 10 then -d else d
    match (quadPlace a b + 4 - quadPlace x.a x.b) % 4 with
    | 0 => s1
    | 2 =>
      let s2 := ((s1.bump (o + 0x2C) 1).setStat n 6).raise 0x2101#16 0x01 n
      if s.flag o 18 ∧ x.legal ≠ 0 ∧ ¬ s.axisFault n then (s2.addCount n (inv (2 * x.legal)) (s.edgeStamp n)).periodUpdate n
      else s2
    | k =>
      let d := quadCount (s.fld o 9 8) (k = 1) x.a a
      let s2 := s1.setAxis n { x with a, b, legal := if k = 1 then 1 else -1 }
      if d = 0 ∨ s.axisFault n then s2 else (s2.addCount n (inv d) (s.edgeStamp n)).periodUpdate n

/-! ## Presets and Z (R27, R33) -/

/-- The axis's positions of a part, moved by an offset. -/
def movePart (s : State) (n : Nat) (d : Fine) (p : Part) : Part :=
  if p.sealed ∨ s.bindAxis p.lane ≠ n then p else { p with on := p.on + d, off := p.off + d, deadline := p.deadline + d }

/-- The position of an axis in a line's stamp, moved. -/
def moveStamp (n : Nat) (d : Fine) (x : LineStamp) : LineStamp := { x with pos := modifyAt (· + d) x.pos n }

/-- The positions a Sluice holds for open line blocks, moved (R33, R76). -/
def moveSluice (n : Nat) (d : Fine) (c : Sluice) : Sluice :=
  { c with
    blocks := c.blocks.map (fun b => { b with lines := b.lines.map (fun l => { l with stamp := l.stamp.map (moveStamp n d) }) })
    stamps := c.stamps.map (fun p => (p.1, moveStamp n d p.2))
    slotStamps := c.slotStamps.map (fun p => (p.1, moveStamp n d p.2)) }

/-- The position after which a proving injection has missed, moved. -/
def moveProving (n : Nat) (d : Fine) (p : Proving) : Proving :=
  if p.axis = n then
    { p with
      fired := p.fired.map (fun f => (f.1, f.2.1 + d, f.2.2))
      runs := p.runs.map (fun r => { r with end_ := r.end_ + d }) }
  else p

/-- A preset applied (R33), which is no count (R37): position, pending Calendar entries, deadlines, open line blocks and the Z latch move by the
same offset; notice 0x0101 tells the old and the new position. -/
def applyPreset (s : State) (n : Nat) : State :=
  let a := s.axis n
  let o := encOff n
  let old := a.pos
  let new : Pos := BitVec.ofNat 48 (s.reg64 (o + 0x40))
  let d := new - old
  let df : Fine := BitVec.ofNat 64 (d.toNat * 65536)
  let s := s.setAxis n { a with
    pos := new, zpos := if a.zdone then a.zpos + d else a.zpos, hist := a.hist.map (fun h => (h.1, h.2 + d)), window := a.window.map (· + d) }
  let s := s.setCal n ((s.calOf n).map (fun e => { e with pos := e.pos + df }))
  let s := { s with
    parts := s.parts.map (s.movePart n df)
    sluices := s.sluices.map (fun (p : Nat × Sluice) => (p.1, moveSluice n df p.2))
    provings := s.provings.map (fun (p : Nat × Proving) => (p.1, moveProving n df p.2)) }
  (s.setFld (o + 0x48) 1 1 0).raiseNow 0x0101#16 0x01 n (leBytes 8 old.toNat ++ leBytes 8 new.toNat)

/-- PRESET_GO (R33): a write of `ENCn_PRESET_CTL`; with ARM_Z the preset waits for the next qualified Z, whether or not GO
is set with it (DESIGN CHOICE, the assumption log, 124). -/
def presetGoEff (s : State) (n : Nat) (v : Word) : State :=
  let s := s.writeFields (encOff n + 0x48) 0x01 n v
  if bit v 0 ∧ ¬ bit v 1 then s.applyPreset n else s

/-- The Z checks and the latch (R27). -/
def zLatch (s : State) (n : Nat) : State :=
  let a := s.axis n
  let per := (s.reg (encOff n + 0x3C)).toNat
  let bad := decide (per ≠ 0) && (a.zdir = some a.neg) && decide ((posDiff a.pos a.zpos).natAbs ≠ per)
  let s := if bad then ((s.setStat n 9).setStat n 6).raise 0x2104#16 0x01 n else s
  (s.setAxis n { a with zpos := a.pos, zdone := true, zdir := some a.neg }).setStat n 7

/-- A source Z reaches the emulation outputs that pass it through (ZMODE 1). -/
def emuPassZ (s : State) (m n : Nat) : State :=
  if s.flag (emuOff m) 31 ∧ s.fld (emuOff m) 1 0 = n ∧ s.fld (emuOff m) 3 2 = 1 then s.setEmu m { s.emu m with z := true } else s

/-- Z_QUALIFIED (R27, R33). -/
def zQualifiedEff (s : State) (n : Nat) : State :=
  if s.encOn n then
    let s := s.zLatch n
    let s := if s.flag (encOff n + 0x48) 1 then s.applyPreset n else s
    (s.emuPassZ 0 n).emuPassZ 1 n
  else s

/-! ## Absolute sensors (R28 to R30) -/

/-- An axis fault begins after FAIL_LIMIT failed frames (R30, R32, R267). -/
def axisFaultEnter (s : State) (n : Nat) : State :=
  let was := s.axisFault n
  let s := (s.setAxis n { s.axis n with absFault := true, clearedAt := none }).raise 0x5104#16 0x01 n
  if was then s else s.axisFailSafe n

/-- A frame fails with a code (R30). -/
def frameFail (s : State) (n : Nat) (code : Half) : State :=
  let o := encOff n
  let a := s.axis n
  let s := ((s.bump (o + 0x30) 1).setStat n 6).raise code 0x01 n
  let s := s.setAxis n { a with fails := a.fails + 1, frameStart := none }
  if a.absFault ∨ a.fails + 1 < s.fld (o + 0x50) 15 8 then s else s.axisFaultEnter n

/-- A Gray code of S bits as a number. -/
def grayTo : Nat → Nat → Nat
  | 0, _ => 0
  | k + 1, g => Nat.xor g (grayTo k (g / 2))

/-- One step of the BiSS C CRC: x^6 + x + 1 (R29). -/
def crc6Bit (c : Nat) (x : Bool) : Nat :=
  let fb := (c / 32 % 2 = 1) != x
  let c := c * 2 % 64
  if fb then Nat.xor c 3 else c

/-- The bits of a number, most significant first. -/
def bitsMsb : Nat → Nat → List Bool
  | 0, _ => []
  | k + 1, x => (x / 2 ^ k % 2 = 1) :: bitsMsb k x

/-- The six CRC bits of a BiSS C frame, inverted (R29). -/
def bissCrc (sb p : Nat) (nE nW : Bool) : Nat := 63 - ((bitsMsb sb p ++ [nE, nW]).foldl crc6Bit 0)

def onesOf (k p : Nat) : Nat := (bitsMsb k p).countP id

/-- Whether a frame's check bits hold (R28, R29). -/
def frameCheck (s : State) (n raw check : Nat) (nE nW : Bool) : Bool :=
  let o := encOff n
  let sb := s.fld o 24 19
  if s.encMode n = 4 then decide (check = bissCrc sb raw nE nW)
  else match s.fld o 27 26 with
    | 0 => true
    | 1 => decide ((onesOf sb raw + check % 2) % 2 = 0)
    | 2 => decide ((onesOf sb raw + check % 2) % 2 = 1)
    | _ => decide (check = Config.ssiCrc6 sb raw)

/-- A frame that has passed its check enters the position (R30); where it ends an axis fault, the entries written
meanwhile are discarded (R267). -/
def framePass (s : State) (n p : Nat) : State :=
  let o := encOff n
  let a := s.axis n
  let sb := s.fld o 24 19
  let st : Int := match a.frameStart with | some t => t | none => s.time.t
  let inv := s.flag o 10
  let jump : Int := (s.reg (o + 0x4C)).toNat
  let leave (s : State) : State :=
    let b := s.axis n
    (if b.absFault then s.discardEjections n else s).setAxis n { b with lastP := some p, fails := 0, absFault := false, frameStart := none, clearedAt := if b.absFault then some s.now else b.clearedAt }
  match a.lastP with
  | none =>
    let pos : Pos := if inv then -BitVec.ofNat 48 p else BitVec.ofNat 48 p
    leave (s.setAxis n { a with pos, hist := [(st, pos)], delta := 0, lastAt := s.stampedAt st, still := false })
  | some lp =>
    let d0 := signed sb (p + 2 ^ sb - lp)
    let d := if inv then -d0 else d0
    if jump ≠ 0 ∧ jump < d.natAbs then s.frameFail n 0x2103#16
    else
      let v := match a.hist.head? with | some h => speedOf d (st - h.1) | none => 0
      let s := if d = 0 then s.setAxis n { a with delta := 0, hist := ((st, a.pos) :: a.hist).take 8 } else s.addCount n d st
      (leave (s.setAxis n { s.axis n with period := v })).changeover n

/-- The clock period of an absolute axis in ns (R28, R29). -/
def absClock (s : State) (n : Nat) : Nat := (s.fld (encOff n + 4) 11 0 + 1) * 4

/-- The line delay of a BiSS C frame that ends now, in ns (R29): what is left of the time since its first clock edge
when the S + 10 sampled bits are taken away. -/
def lineDelayNow (s : State) (n : Nat) : Nat :=
  if (s.axis n).frameStart.isNone then (s.axis n).lineDelay
  else s.now - (s.axis n).frameAt - (s.fld (encOff n) 24 19 + 10) * s.absClock n

/-- ABSOLUTE_FRAME (R28 to R30): a complete SSI or BiSS C frame. Of a frame whose CRC fails and whose nE is 0 the CRC is
what is reported (DESIGN CHOICE, the assumption log, 124). -/
def absoluteFrameEff (s : State) (n raw check : Nat) (nE nW : Bool) : State :=
  let o := encOff n
  if ¬ s.encOn n ∨ ¬ s.encAbs n ∨ (s.axis n).wire ≠ 0 then s
  else
    let biss := s.encMode n = 4
    let sb := s.fld o 24 19
    let raw := raw % 2 ^ sb
    let s := if biss then s.setAxis n { s.axis n with warn := !nW, lineDelay := s.lineDelayNow n } else s
    if ¬ s.frameCheck n raw check nE nW then s.frameFail n 0x2102#16
    else if biss ∧ ¬ nE then s.frameFail n 0x5103#16
    else s.framePass n (if ¬ biss ∧ s.flag o 25 then grayTo sb raw else raw)

/-- BISS_ACK_TIMEOUT (R29): no Ack within 64 clock periods of the frame's first clock edge. -/
def bissAckTimeoutEff (s : State) (n : Nat) : State :=
  let a := s.axis n
  if s.encOn n ∧ s.encMode n = 4 ∧ a.wire = 0 ∧ a.frameStart.isSome ∧ a.frameAt + 64 * s.absClock n ≤ s.now then
    s.frameFail n 0x5102#16
  else s

/-- ABSOLUTE_FRAME_START (R28, R45): the first clock edge of a frame; its stamp is that edge plus LATCH_DELAY. -/
def absoluteFrameStartEff (s : State) (n : Nat) : State :=
  if s.encOn n ∧ s.encAbs n then
    s.setAxis n { s.axis n with
      frameStart := some ((s.time.t : Int) + s.fld (encOff n + 0x50) 7 0 * 4 * nsUnit), frameAt := s.now }
  else s

/-! ## Wire faults (R31, R32, R267) -/

/-- WIRE_FAULT_DETECT: masked pairs that fail to disagree for TIME x 4 ns; HTL inputs have no detection. -/
def wireFaultDetectEff (s : State) (n : Nat) (pairs : BitVec 4) : State :=
  let m := pairs &&& BitVec.ofNat 4 (s.fld (encOff n + 8) 19 16)
  if s.encOn n ∧ (s.encMode n = 1 ∨ s.encAbs n) ∧ m ≠ 0 then
    let was := s.axisFault n
    let s := s.setAxis n { s.axis n with wire := (s.axis n).wire ||| m, clearedAt := none }
    let s := (s.setStat n 6).raise 0x5101#16 0x01 n 1 (leBytes 4 m.toNat)
    if was then s else s.axisFailSafe n
  else s

/-- WIRE_FAULT_CLEAR: every masked pair has disagreed for 1 ms; the fault's end leaves no entry written before it to
drive the outputs (R267). -/
def wireFaultClearEff (s : State) (n : Nat) : State :=
  let a := s.axis n
  if a.wire = 0 then s
  else (if a.absFault then s else s.discardEjections n).setAxis n { a with wire := 0, clearedAt := some s.now }

/-- AXIS_FAILSAFE_RELEASE (R267, R272): 1 ms after the fault has cleared. -/
def axisFailsafeReleaseEff (s : State) (n : Nat) : State :=
  match (s.axis n).clearedAt with
  | none => s
  | some t =>
    if s.fs.axes.contains n ∧ ¬ s.axisFault n ∧ 1000000 ≤ s.now - t then
      (s.withFs { s.fs with axes := without s.fs.axes n }).setAxis n { s.axis n with clearedAt := none }
    else s

/-! ## Speed and standstill (R34 to R36) -/

/-- SPEED_COUNT_EVAL: the count method over the window W, every W/16. -/
def speedCountEvalEff (s : State) (n : Nat) : State :=
  let a := s.axis n
  let w : Nat := (s.reg (encOff n + 0x0C)).toNat
  if ¬ s.encCounts n then s
  else
    let win := (a.pos :: a.window).take 17
    let counted := match win[16]? with
      | some p => clampInt (-(2 ^ 31 - 1)) (2 ^ 31 - 1) (divRne (posDiff a.pos p * 64000000) w)
      | none => a.counted
    (s.setAxis n { a with window := win, counted }).changeover n

/-- STANDSTILL: SPD_STILL ms without a count. -/
def standstillEff (s : State) (n : Nat) : State :=
  let a := s.axis n
  if s.encCounts n ∧ a.lastAt + (s.reg (encOff n + 0x18)).toNat * 1000000 ≤ s.now then s.setAxis n { a with still := true } else s

/-! ## Emulation outputs (R37, R38) -/

/-- EMU_ENABLE: a write of `EMUn_CFG`; N or M of 0 refuses the enable with 0x1102, beside what else fails (R446). -/
def emuEnableEff (s : State) (m : Nat) (v : Word) : State :=
  let o := emuOff m
  let old := s.reg o
  let s := s.writeFields o 0x01 (0x10 + m) v
  let ratio := s.fld (o + 4) 31 16 = 0 ∨ s.fld (o + 4) 15 0 = 0
  let bad := bits v 3 2 = 3 ∨ ratio
  let s := if bit v 31 ∧ ratio then s.refuse 0x1102#16 0x01 (0x10 + m) o 31 else s
  if ¬ bit v 31 then s
  else if bad then s.setFld o 31 31 (bits old 31 31)
  else if bit old 31 then s
  else s.setEmu m { acc := 0, target := 0, emitted := 0 }

/-- EMU_EDGE: one edge toward the target, no faster than one per SPACING. -/
def emuEdgeEff (s : State) (m : Nat) : State :=
  let o := emuOff m
  let e := s.emu m
  if s.flag o 31 ∧ e.target ≠ e.emitted ∧ e.lastEdge + s.fld o 23 8 * 4 ≤ s.now then
    let up := decide (e.emitted < e.target)
    let em := if up then e.emitted + 1 else e.emitted - 1
    let fwd := up != s.flag o 4
    let z := s.fld o 3 2 = 2 ∧ em % (s.fld (o + 8) 23 0 : Int) = 0
    (s.setEmu m { e with emitted := em, phase := (e.phase + (if fwd then 1 else 3)) % 4, lastEdge := s.now, z }).emuBacklog m
  else s

end State

/-! ## Meanings -/

def execAxisEnable (n : Fin 4) (v : Word) (s : State) : Host.Outcome State Fault Refusal :=
  .next (s.gate 0 (State.encOff n) v (fun s => s.axisEnableEff n v))
def execIncrementalEdge (n : Fin 4) (a b : Bool) (s : State) : Host.Outcome State Fault Refusal :=
  .next (s.incrementalEdgeEff n a b)
def execZQualified (n : Fin 4) (s : State) : Host.Outcome State Fault Refusal := .next (s.zQualifiedEff n)
def execPresetGo (n : Fin 4) (v : Word) (s : State) : Host.Outcome State Fault Refusal :=
  .next (s.gate 0 (State.encOff n + 0x48) v (fun s => s.presetGoEff n v))
def execAbsoluteFrame (n : Fin 4) (raw check : Nat) (nE nW : Bool) (s : State) : Host.Outcome State Fault Refusal :=
  .next (s.absoluteFrameEff n raw check nE nW)
def execBissAckTimeout (n : Fin 4) (s : State) : Host.Outcome State Fault Refusal := .next (s.bissAckTimeoutEff n)
def execAbsoluteFrameStart (n : Fin 4) (s : State) : Host.Outcome State Fault Refusal := .next (s.absoluteFrameStartEff n)
def execWireFaultDetect (n : Fin 4) (pairs : BitVec 4) (s : State) : Host.Outcome State Fault Refusal :=
  .next (s.wireFaultDetectEff n pairs)
def execWireFaultClear (n : Fin 4) (s : State) : Host.Outcome State Fault Refusal := .next (s.wireFaultClearEff n)
def execAxisFailsafeRelease (n : Fin 4) (s : State) : Host.Outcome State Fault Refusal := .next (s.axisFailsafeReleaseEff n)
def execSpeedCountEval (n : Fin 4) (s : State) : Host.Outcome State Fault Refusal := .next (s.speedCountEvalEff n)
def execStandstill (n : Fin 4) (s : State) : Host.Outcome State Fault Refusal := .next (s.standstillEff n)
def execEmuEnable (m : Fin 2) (v : Word) (s : State) : Host.Outcome State Fault Refusal :=
  .next (s.gate 0 (0x210800 + 0x40 * m) v (fun s => s.emuEnableEff m v))
def execEmuEdge (m : Fin 2) (s : State) : Host.Outcome State Fault Refusal := .next (s.emuEdgeEff m)

end Sys2Proof.Machine
end

