-- ==== Sys2Proof/Machine/Fp.lean ====
section
/-! DEFINITION. Floating point by exact arithmetic: BF16, FP16 and FP32, one rounding, and the operations of the vector
unit (R140, R141, R146 to R148). -/

namespace Sys2Proof.Machine

/-- A binary format: exponent and fraction widths. -/
structure FFmt where
  eb : Nat
  fb : Nat
  deriving DecidableEq, Repr

def fp32F : FFmt := ⟨8, 23⟩
def bf16F : FFmt := ⟨8, 7⟩
def fp16F : FFmt := ⟨5, 10⟩

/-- A value: NaN, an infinity, or m × 2^e with a sign (zero keeps its sign). -/
inductive FVal where
  | nan
  | inf (neg : Bool)
  | fin (neg : Bool) (m : Nat) (e : Int)
  deriving DecidableEq, Repr

def FFmt.bias (f : FFmt) : Int := 2 ^ (f.eb - 1) - 1
/-- The exponent of the unit in the last place of subnormals. -/
def FFmt.qmin (f : FFmt) : Int := 1 - f.bias - f.fb
def FFmt.infBits (f : FFmt) : Nat := (2 ^ f.eb - 1) * 2 ^ f.fb
def FFmt.signBit (f : FFmt) : Nat := 2 ^ (f.eb + f.fb)
/-- The canonical NaN (R140). -/
def FFmt.nanBits (f : FFmt) : Nat := f.infBits + 2 ^ (f.fb - 1)

/-- What a word encodes, subnormals included (R140). -/
def FFmt.unpack (f : FFmt) (w : Nat) : FVal :=
  let neg := decide (w / f.signBit % 2 = 1)
  let ex := w / 2 ^ f.fb % 2 ^ f.eb
  let fr := w % 2 ^ f.fb
  if ex = 2 ^ f.eb - 1 then (if fr = 0 then .inf neg else .nan)
  else if ex = 0 then .fin neg fr f.qmin
  else .fin neg (2 ^ f.fb + fr) (f.qmin + ex - 1)

/-- A word with a sign. -/
def FFmt.withSign (f : FFmt) (neg : Bool) (w : Nat) : Nat := if neg then f.signBit + w else w

/-- 2^x for x above 0, else 1. -/
def pow2 (x : Int) : Nat := 2 ^ x.toNat

/-- The largest l with 2^l ≤ n / d, n and d above 0. -/
def log2Ratio (n d : Nat) : Int :=
  let l : Int := (Nat.log2 n : Int) - Nat.log2 d
  if d * pow2 l ≤ n * pow2 (-l) then l else l - 1

/-- How a quotient is rounded: half to even, or up (R141). -/
inductive Rnd where
  | even | up
  deriving DecidableEq, Repr

/-- n / d rounded to an integer. -/
def Rnd.quot (r : Rnd) (n d : Nat) : Nat :=
  let q := n / d
  let t := n % d
  match r with
  | .up => if t = 0 then q else q + 1
  | .even => if 2 * t < d then q else if d < 2 * t then q + 1 else if q % 2 = 0 then q else q + 1

/-- n / d rounded once to a format (R141); past the largest finite value it becomes infinity. -/
def FFmt.round (f : FFmt) (r : Rnd) (neg : Bool) (n d : Nat) : Nat :=
  if n = 0 then f.withSign neg 0
  else
    let q := max (log2Ratio n d - f.fb) f.qmin
    let k := r.quot (n * pow2 (-q)) (d * pow2 q)
    f.withSign neg (min ((q - f.qmin).toNat * 2 ^ f.fb + k) f.infBits)

/-- The word of a value, rounded once. -/
def FFmt.pack (f : FFmt) (v : FVal) : Nat :=
  match v with
  | .nan => f.nanBits
  | .inf neg => f.withSign neg f.infBits
  | .fin neg m e => f.round .even neg (m * pow2 e) (pow2 (-e))

def FVal.isFinite : FVal → Bool
  | .fin _ _ _ => true
  | _ => false

def FVal.isNan : FVal → Bool
  | .nan => true
  | _ => false

def FVal.isZero : FVal → Bool
  | .fin _ m _ => decide (m = 0)
  | _ => false

def FVal.neg : FVal → Bool
  | .nan => false
  | .inf n => n
  | .fin n _ _ => n

/-- The signed numerator over a denominator of a finite value. -/
def FVal.num : FVal → Int
  | .fin neg m e => if neg then -((m * pow2 e : Nat) : Int) else ((m * pow2 e : Nat) : Int)
  | _ => 0

def FVal.den : FVal → Nat
  | .fin _ _ e => pow2 (-e)
  | _ => 1

/-- An integer as a value; zero is +0. -/
def FVal.ofInt (x : Int) : FVal := .fin (decide (x < 0)) x.natAbs 0

/-- The exact sum of two finite values; an exact zero is −0 only where both are (the assumption log, 14). -/
def FVal.addFin (an : Bool) (am : Nat) (ae : Int) (bn : Bool) (bm : Nat) (be : Int) : FVal :=
  let e := min ae be
  let x : Int := (am * pow2 (ae - e) : Nat)
  let y : Int := (bm * pow2 (be - e) : Nat)
  let t := (if an then -x else x) + (if bn then -y else y)
  if t = 0 then .fin (an && bn) 0 e else .fin (decide (t < 0)) t.natAbs e

/-- The exact product of two finite values. -/
def FVal.mulFin (an : Bool) (am : Nat) (ae : Int) (bn : Bool) (bm : Nat) (be : Int) : FVal :=
  .fin (an != bn) (am * bm) (ae + be)

/-! ## FP32 operations (R147) -/

def f32 (w : Word) : FVal := fp32F.unpack w.toNat
def pack32 (v : FVal) : Word := BitVec.ofNat 32 (fp32F.pack v)
def nan32 : Word := 0x7FC00000#32
def one32 : Word := 0x3F800000#32

/-- A word with any NaN made canonical (R140). -/
def canon32 (w : Word) : Word := if (f32 w).isNan then nan32 else w

/-- The free value of an operation without a real value at its operands (the assumption log, 15). -/
def open32 (op : Nat) (a b c : Word) : Word := canon32 (Config.fpOpen op a b c)

/-- ADD with one rounding; of infinities of both signs the spec states no sum. -/
def fadd (a b : Word) : Word :=
  match f32 a, f32 b with
  | .nan, _ => nan32
  | _, .nan => nan32
  | .inf x, .inf y => if x = y then pack32 (.inf x) else open32 0 a b 0
  | .inf x, .fin _ _ _ => pack32 (.inf x)
  | .fin _ _ _, .inf y => pack32 (.inf y)
  | .fin n m e, .fin n' m' e' => pack32 (FVal.addFin n m e n' m' e')

def fneg (a : Word) : Word := if (f32 a).isNan then nan32 else a ^^^ 0x80000000#32

/-- SUB. -/
def fsub (a b : Word) : Word :=
  match f32 a, f32 b with
  | .nan, _ => nan32
  | _, .nan => nan32
  | .inf x, .inf y => if x = y then open32 1 a b 0 else pack32 (.inf x)
  | .inf x, .fin _ _ _ => pack32 (.inf x)
  | .fin _ _ _, .inf y => pack32 (.inf (!y))
  | .fin n m e, .fin n' m' e' => pack32 (FVal.addFin n m e (!n') m' e')

/-- MUL. -/
def fmul (a b : Word) : Word :=
  match f32 a, f32 b with
  | .nan, _ => nan32
  | _, .nan => nan32
  | .inf x, .inf y => pack32 (.inf (x != y))
  | .inf x, .fin n m _ => if m = 0 then open32 2 a b 0 else pack32 (.inf (x != n))
  | .fin n m _, .inf y => if m = 0 then open32 2 a b 0 else pack32 (.inf (n != y))
  | .fin n m e, .fin n' m' e' => pack32 (FVal.mulFin n m e n' m' e')

/-- FMA: a × b + c with one rounding. -/
def ffma (a b c : Word) : Word :=
  match f32 a, f32 b, f32 c with
  | .nan, _, _ => nan32
  | _, .nan, _ => nan32
  | _, _, .nan => nan32
  | .fin n m e, .fin n' m' e', .fin n'' m'' e'' =>
    pack32 (FVal.addFin (n != n') (m * m') (e + e') n'' m'' e'')
  | .fin _ _ _, .fin _ _ _, .inf z => pack32 (.inf z)
  | x, y, z =>
    if x.isZero || y.isZero then open32 3 a b c
    else match z with
      | .inf zn => if zn = (x.neg != y.neg) then pack32 (.inf zn) else open32 3 a b c
      | _ => pack32 (.inf (x.neg != y.neg))

/-- DIV: of a zero divisor and of two infinities the spec states no quotient. -/
def fdiv (a b : Word) : Word :=
  match f32 a, f32 b with
  | .nan, _ => nan32
  | _, .nan => nan32
  | .inf _, .inf _ => open32 4 a b 0
  | .inf x, .fin n m _ => if m = 0 then open32 4 a b 0 else pack32 (.inf (x != n))
  | .fin n _ _, .inf y => pack32 (.fin (n != y) 0 0)
  | .fin n m e, .fin n' m' e' =>
    if m' = 0 then open32 4 a b 0
    else BitVec.ofNat 32 (fp32F.round .even (n != n') (m * pow2 (e - e')) (m' * pow2 (e' - e)))

/-- RCP. -/
def frcp (a : Word) : Word :=
  match f32 a with
  | .fin _ 0 _ => open32 8 a 0 0
  | _ => fdiv one32 a

/-- The integer square root, by bits from the highest (structural). -/
def isqrtBits (n : Nat) : Nat → Nat → Nat
  | 0, r => r
  | k + 1, r => let t := r + 2 ^ k; isqrtBits n k (if t * t ≤ n then t else r)

def isqrt (n : Nat) : Nat := isqrtBits n (Nat.log2 n / 2 + 1) 0

/-- A square root of m × 2^e, m above 0, with 34 or more leading bits and a sticky bit: numerator and exponent. -/
def sqrtSticky (m : Nat) (e : Int) : Nat × Int :=
  let odd := e % 2 ≠ 0
  let m1 := if odd then 2 * m else m
  let e1 := if odd then e - 1 else e
  let m2 := m1 * 2 ^ 128
  let r := isqrt m2
  (2 * r + (if r * r = m2 then 0 else 1), e1 / 2 - 65)

/-- SQRT. -/
def fsqrt (a : Word) : Word :=
  match f32 a with
  | .nan => nan32
  | .inf neg => if neg then open32 5 a 0 0 else pack32 (.inf false)
  | .fin neg m e =>
    if m = 0 then pack32 (.fin neg 0 0)
    else if neg then open32 5 a 0 0
    else let (r, q) := sqrtSticky m e; pack32 (.fin false r q)

/-- RSQRT: the reciprocal of a square root, rounded once. -/
def frsqrt (a : Word) : Word :=
  match f32 a with
  | .nan => nan32
  | .inf neg => if neg then open32 9 a 0 0 else pack32 (.fin false 0 0)
  | .fin neg m e =>
    if m = 0 ∨ neg then open32 9 a 0 0
    else
      -- 1 / √(m·2^e) = √(2^(2k) / m) · 2^(-k) · 2^(-e/2), taken as the root of a quotient with a sticky bit
      let odd := e % 2 ≠ 0
      let m1 := if odd then 2 * m else m
      let e1 := if odd then e - 1 else e
      let t := 2 ^ 256 / m1
      let r := isqrt t
      let exact := decide (r * r * m1 = 2 ^ 256)
      pack32 (.fin false (2 * r + (if exact then 0 else 1)) (-(e1 / 2) - 129))

/-! ### EXP2 and LOG2 by enclosures (R147) -/

/-- The working precision of EXP2, in bits. -/
def expPrec : Nat := 160

/-- Bounds of 2^(f / 2^k) at the working precision, f below 2^k: the product of 2^(1/2), 2^(1/4) … over the bits of f
from the highest. `c` bounds the present root. -/
def exp2Bits (f : Nat) : Nat → Nat × Nat → Nat × Nat → Nat × Nat
  | 0, _, acc => acc
  | k + 1, c, acc =>
    let lo := isqrt (c.1 * 2 ^ expPrec)
    let hi := isqrt (c.2 * 2 ^ expPrec) + 1
    exp2Bits f k (lo, hi)
      (if f / 2 ^ k % 2 = 1 then (acc.1 * lo / 2 ^ expPrec, acc.2 * hi / 2 ^ expPrec + 1) else acc)

/-- EXP2: the rounding of 2^x. Both ends of an enclosure round alike except where the enclosure straddles a rounding
boundary, which no 32-bit operand is known to reach; its lower end is taken there. -/
def fexp2 (a : Word) : Word :=
  match f32 a with
  | .nan => nan32
  | .inf neg => if neg then pack32 (.fin false 0 0) else pack32 (.inf false)
  | .fin neg m e =>
    let x : Int := (FVal.fin neg m e).num
    let d := (FVal.fin neg m e).den
    if m = 0 then one32
    else if x.natAbs * 2 ^ 26 < d then one32
    else if (128 * d : Nat) ≤ x then pack32 (.inf false)
    else if x < -((151 * d : Nat) : Int) then pack32 (.fin false 0 0)
    else
      let i := x / (d : Int)
      let f := (x % (d : Int)).toNat
      if f = 0 then pack32 (.fin false 1 i)
      else
        let one := 2 ^ expPrec
        let (lo, _) := exp2Bits f (Nat.log2 d) (2 * one, 2 * one) (one, one)
        pack32 (.fin false (2 * lo + 1) (i - expPrec - 1))

/-- The working precision and the result bits of LOG2. -/
def logPrec : Nat := 320
def logBits : Nat := 128

/-- Bits of log2 y, y in [1, 2) at the working precision, by squaring: `n` bits onto `acc`. -/
def log2Bits : Nat → Nat → Nat → Nat
  | 0, _, acc => acc
  | n + 1, y, acc =>
    let z := y * y / 2 ^ logPrec
    if 2 * 2 ^ logPrec ≤ z then log2Bits n (z / 2) (2 * acc + 1) else log2Bits n z (2 * acc)

/-- LOG2. -/
def flog2 (a : Word) : Word :=
  match f32 a with
  | .nan => nan32
  | .inf neg => if neg then open32 7 a 0 0 else pack32 (.inf false)
  | .fin neg m e =>
    if m = 0 ∨ neg then open32 7 a 0 0
    else
      let l := Nat.log2 m
      let i := e + l
      if m = 2 ^ l then pack32 (FVal.ofInt i)
      else
        let y := m * 2 ^ (logPrec - l)
        let t : Int := i * 2 ^ logBits + log2Bits logBits y 0
        -- the logarithm is irrational here: it lies strictly above t in its last place
        let v : Int := 2 * t + 1
        pack32 (.fin (decide (v < 0)) v.natAbs (-(logBits : Int) - 1))

/-- The order of two values that are no NaN: −0 below +0 (R147). -/
def fltVal (a b : FVal) : Bool :=
  match a, b with
  | .inf x, .inf y => x && !y
  | .inf x, _ => x
  | _, .inf y => !y
  | x, y =>
    let l := x.num * y.den
    let r := y.num * x.den
    decide (l < r) || (decide (l = r) && x.neg && !y.neg)

/-- MAX and MIN: a NaN gives the canonical NaN (R147). -/
def fmax (a b : Word) : Word :=
  if (f32 a).isNan || (f32 b).isNan then nan32 else if fltVal (f32 a) (f32 b) then b else a
def fmin (a b : Word) : Word :=
  if (f32 a).isNan || (f32 b).isNan then nan32 else if fltVal (f32 b) (f32 a) then b else a

/-- A finite value lies beyond a format's largest finite value. -/
def FFmt.beyond (f : FFmt) (v : FVal) : Bool :=
  let mx := f.unpack (f.infBits - 1)
  v.isFinite && decide (mx.num.natAbs * v.den < v.num.natAbs * mx.den)

/-- The conversions of R147: half to even, and beyond the largest finite value infinity. -/
def FFmt.convert (f : FFmt) (v : FVal) : Nat := if f.beyond v then f.withSign v.neg f.infBits else f.pack v

/-- BF16 or FP16 to FP32: exact. -/
def widen (f : FFmt) (w : Nat) : Word := pack32 (f.unpack w)

/-- INT32 to FP32. -/
def ofInt32 (x : Int) : Word := pack32 (FVal.ofInt x)

/-- Round half to even of a quotient of rationals: (an / ad) / (bn / bd), bn above 0. -/
def rheQuot (an : Int) (ad : Nat) (bn bd : Nat) : Int := divRne (an * bd) (ad * bn)

/-- TRUNC: FP32 to INT32 toward zero (R141). -/
def ftrunc (a : Word) : Int :=
  match f32 a with
  | .nan => 0
  | .inf neg => if neg then -(2 ^ 31) else 2 ^ 31 - 1
  | .fin neg m e =>
    let q : Int := (m * pow2 e / pow2 (-e) : Nat)
    clampInt (-(2 ^ 31)) (2 ^ 31 - 1) (if neg then -q else q)

/-- The order of reduction of R148: sixty-four lanes in ascending index, then a pairwise tree. -/
def laneFold {α : Type} (op : α → α → α) : List α → List α → Nat → List α
  | [], lanes, _ => lanes
  | x :: r, lanes, i => laneFold op r (modifyAt (fun y => op y x) lanes i) (if i = 63 then 0 else i + 1)

/-- One level of the tree. -/
def pairLanes {α : Type} (op : α → α → α) : List α → List α
  | a :: b :: r => op a b :: pairLanes op r
  | l => l

/-- A reduction (R148). -/
def reduce {α : Type} (op : α → α → α) (ident : α) (v : List α) : α :=
  let l := laneFold op v (List.replicate 64 ident) 0
  ((pairLanes op (pairLanes op (pairLanes op (pairLanes op (pairLanes op (pairLanes op l)))))).head?).getD ident

/-- The smallest FP32 value at or above a positive quotient (R141, R150). -/
def upFp32 (n d : Nat) : Word := BitVec.ofNat 32 (fp32F.round .up false n d)

end Sys2Proof.Machine
end

