-- ==== Sys2Proof/Machine/PipeMath.lean ====
section
/-! DEFINITION. The stages of a line image pipe: parameter sets, their check, and the value of every output element
(R91 to R99, R106). -/

namespace Sys2Proof.Machine

/-! ## Parameter sets (R97 to R99) -/

/-- The bytes of a parameter set. -/
def psetBytes : Nat := 204864

/-- The identity set (R99): version 1, OGAIN 0x0100_0000, every other byte 0. -/
def identitySet : Mem := [(0, 1), (0x2B, 1)]

def u8At (m : Mem) (a : Nat) : Nat := (byteAt m a).toNat
def u16At (m : Mem) (a : Nat) : Nat := u8At m a + 256 * u8At m (a + 1)
def u32At (m : Mem) (a : Nat) : Nat := u16At m a + 65536 * u16At m (a + 2)
def s16At (m : Mem) (a : Nat) : Int := signed 16 (u16At m a)

def psEnables (m : Mem) : Nat := u16At m 2
def psEn (m : Mem) (b : Nat) : Bool := psEnables m / 2 ^ b % 2 = 1
def psMode (m : Mem) : Nat := u8At m 4
def psOrder (m : Mem) : Nat := u8At m 5
def psDist (m : Mem) : Nat := u16At m 6
def psDefects (m : Mem) : Nat := u16At m 0x0E
def psGain (m : Mem) : Nat := u32At m 0x28
def psZp (m : Mem) : Int := s16At m 0x2C
def psFmt (m : Mem) : Nat := u8At m 0x2E
def psLayout (m : Mem) : Nat := u8At m 0x2F
def psDark (m : Mem) (j c : Nat) : Nat := u16At m (0x40 + 0x8000 * j + 2 * c)
def psFlat (m : Mem) (j c : Nat) : Nat := u16At m (0x18040 + 0x8000 * j + 2 * c)
def psNode (m : Mem) (j i : Nat) : Nat := u16At m (0x30840 + 0x800 * j + 2 * i)
/-- Defect entry i: column, channel, method. -/
def psDefect (m : Mem) (i : Nat) : Nat × Nat × Nat :=
  let w := u32At m (0x30040 + 4 * i)
  (w % 0x4000, w / 0x10000 % 4, w / 0x1000000 % 4)
/-- Trilinear alignment is on. -/
def psTri (m : Mem) : Bool := psEn m 2 && decide (psMode m = 0)
def psBayer (m : Mem) : Bool := psEn m 2 && decide (psMode m ≠ 0)

/-- How far back, and ahead, alignment reads: i, or i + 1 with a fraction (R95). -/
def psReach (m : Mem) : Nat := if psTri m then psDist m / 16 + (if psDist m % 16 = 0 then 0 else 1) else 0

/-- The first failing offset among header checks (R98), in ascending offset; `chan` is the context's CHAN. -/
def psHeaderFault (m : Mem) (chan : Nat) : Option Nat :=
  let align := psEn m 2
  let three := chan = 1 ∨ chan = 2 ∨ (chan = 0 ∧ psBayer m)
  let z := psZp m
  if u16At m 0 ≠ 1 then some 0
  else if 64 ≤ psEnables m ∨ ((psEn m 3 ∨ psEn m 4) ∧ ¬ three) ∨ (chan = 1 ∧ ¬ align) then some 2
  else if 4 < psMode m ∨ (align ∧ ((psMode m = 0 ∧ chan ≠ 1) ∨ (psMode m ≠ 0 ∧ chan ≠ 0))) then some 4
  else if 1 < psOrder m then some 5
  else if 256 < psDist m then some 6
  else if 512 < psDefects m then some 0x0E
  else if (psFmt m = 0 ∧ (z < 0 ∨ 255 < z)) ∨ (psFmt m = 1 ∧ (z < -128 ∨ 127 < z)) then some 0x2C
  else if 3 < psFmt m then some 0x2E
  else if 2 < psLayout m then some 0x2F
  else if (readBytes m 0x30 16).any (fun b => b ≠ 0) then some 0x30
  else none

/-- The first failing defect entry (R98), from entry i: order, columns, reserved bits and values. -/
def psDefectFault (m : Mem) (cols : Nat) : Nat → Nat → Option (Nat × Nat) → Option Nat
  | 0, _, _ => none
  | n + 1, i, prev =>
    let w := u32At m (0x30040 + 4 * i)
    let (c, ch, me) := psDefect m i
    let key := (c, ch)
    let reserved : Bool := decide (w - c - ch * 0x10000 - me * 0x1000000 ≠ 0) || decide (ch = 3) || decide (me = 3)
    let order : Bool := match prev with
      | none => false
      | some (pc, pch) => decide (c < pc) || (decide (c = pc) && decide (ch ≤ pch))
    if reserved || order || decide (cols ≤ c) then some (0x30040 + 4 * i) else psDefectFault m cols n (i + 1) (some key)

/-- The check of an image on a context (R98): the image offset of the first failing field. -/
def psFault (m : Mem) (chan cols : Nat) : Option Nat :=
  match psHeaderFault m chan with
  | some o => some o
  | none => psDefectFault m cols (psDefects m) 0 none

/-! ## Stages (R93 to R96) -/

/-- Division by 2^k, half to even (R93). -/
def rheDiv (a : Int) (k : Nat) : Int := divRne a (2 ^ k)

/-- A clamped value, and 1 where the clamp changed it (R93). -/
def sat (lo hi x : Int) : Int × Nat := (clampInt lo hi x, if clampInt lo hi x = x then 0 else 1)

/-- The shape of a context's lines (R71). -/
structure Shape where
  cols : Nat
  chan : Nat
  sample : Nat
  deriving DecidableEq, Repr

/-- b of R94. -/
def Shape.bits (h : Shape) : Nat := match h.sample with | 0 => 8 | 1 => 10 | 2 => 12 | _ => 16
def Shape.bytes (h : Shape) : Nat := if h.sample = 0 then 1 else 2
def Shape.chans (h : Shape) : Nat := if h.chan = 0 then 1 else 3
/-- The line bytes (R74). -/
def Shape.lineBytes (h : Shape) : Nat := h.cols * h.chans * h.bytes
/-- Where a line holds the sample of channel j at column c. -/
def Shape.at (h : Shape) (j c : Nat) : Nat := (if h.chan = 2 then c * 3 + j else j * h.cols + c) * h.bytes
/-- A source sample, b bits wide. -/
def Shape.sampleOf (h : Shape) (d : Mem) (j c : Nat) : Nat :=
  (if h.sample = 0 then u8At d (h.at j c) else u16At d (h.at j c)) % 2 ^ h.bits

/-- Stage 1 of a sample: the rewind value s, the stage's output, and the clamps that changed a value (R94). -/
def stage1 (m : Mem) (h : Shape) (d : Mem) (j c : Nat) : Nat × Nat × Nat :=
  let k := 16 - h.bits
  let x := h.sampleOf d j c
  if psEn m 0 then
    let (y, n) := sat 0 65535 (rheDiv (((x * 2 ^ k : Nat) - (psDark m j c : Int)) * psFlat m j c) 14)
    if k = 0 then (y.toNat, y.toNat, n)
    else
      let (s, n') := sat 0 (2 ^ h.bits - 1) (rheDiv y k)
      (s.toNat, s.toNat * 2 ^ k, n + n')
  else (x, x * 2 ^ k, 0)

/-- Stage 1's output of a sample; a replayed line enters after stage 1 (R92): its data is the rewind value. -/
def stage1Out (m : Mem) (h : Shape) (after1 : Bool) (d : Mem) (j c : Nat) : Nat :=
  if after1 then h.sampleOf d j c * 2 ^ (16 - h.bits) else (stage1 m h d j c).2.1

def psListed (m : Mem) (j c : Nat) : Bool :=
  (List.range (psDefects m)).any (fun i => decide ((psDefect m i).1 = c) && decide ((psDefect m i).2.1 = j))

/-- The nearest unlisted column to the left of c, or to the right below `cols`. -/
def leftFree (m : Mem) (j : Nat) : Nat → Option Nat
  | 0 => none
  | c + 1 => if psListed m j c then leftFree m j c else some c

def rightFree (m : Mem) (j : Nat) : Nat → Nat → Option Nat
  | 0, _ => none
  | n + 1, c => if psListed m j c then rightFree m j n (c + 1) else some c

/-- The method of the listed column. -/
def psMethod (m : Mem) (j c : Nat) : Nat :=
  match (List.range (psDefects m)).find? (fun i => decide ((psDefect m i).1 = c) && decide ((psDefect m i).2.1 = j)) with
  | some i => (psDefect m i).2.2
  | none => 0

/-- Stage 2 (R94). -/
def stage2 (m : Mem) (h : Shape) (after1 : Bool) (d : Mem) (j c : Nat) : Nat :=
  let v := stage1Out m h after1 d j
  if psEn m 1 && psListed m j c then
    match leftFree m j c, rightFree m j (h.cols - 1 - c) (c + 1) with
    | none, none => 0
    | some l, none => v l
    | none, some r => v r
    | some l, some r =>
      match psMethod m j c with
      | 0 => v l
      | 1 => v r
      | _ => (rheDiv (v l + v r : Nat) 1).toNat
  else v c

/-- A line as the pipe reads it. -/
structure PipeLine where
  n : Nat
  data : Mem
  brk : Bool := false
  concealed : Bool := false
  fault : Bool := false
  deriving DecidableEq, Repr

/-- The lines a block's alignment may read: those at hand, in ascending number. -/
abbrev Reachable := List PipeLine

/-- The first line on line n's side of the breaks: the greatest line at or below n that carries BREAK_BEFORE, or 0. -/
def sideFrom (ls : Reachable) (n : Nat) : Nat :=
  ls.foldl (fun a l => if l.brk && decide (l.n ≤ n) && decide (a < l.n) then l.n else a) 0

/-- The last line on line n's side: the one before the next break, or `top`. -/
def sideTo (ls : Reachable) (top n : Nat) : Nat :=
  ls.foldl (fun a l => if l.brk && decide (n < l.n) && decide (l.n ≤ a) then l.n - 1 else a) top

/-- The line number at a distance from line n, kept on its side of the breaks, and whether it was moved (R96). -/
def sideLine (ls : Reachable) (top n : Nat) (x : Int) : Nat × Bool :=
  let lo := sideFrom ls n
  let hi := sideTo ls top n
  if x < (lo : Int) then (lo, true) else if (hi : Int) < x then (hi, true) else (x.toNat, false)

def lineAt (ls : Reachable) (n : Nat) : PipeLine := (ls.find? (fun l => l.n = n)).getD { n, data := [] }

/-- The largest line number at hand. -/
def topLine (ls : Reachable) : Nat := ls.foldl (fun a l => max a l.n) 0

/-- The lines that aligned line n reads (R96): n − i to n + i, and one more on each side with a fraction. -/
def alignReads (m : Mem) (n : Nat) : List Int :=
  (List.range (2 * psReach m + 1)).map (fun (j : Nat) => (n : Int) - (psReach m : Nat) + j)

/-- CONCEALED and FAULT of a line that leaves stage 3 (R96). -/
def lineFlags (m : Mem) (ls : Reachable) (top n : Nat) : Bool × Bool :=
  let l := lineAt ls n
  if psTri m then
    let reads := (alignReads m n).map (sideLine ls top n)
    (l.concealed || reads.any (fun r => (lineAt ls r.1).concealed),
     l.fault || reads.any (fun r => r.2 || (lineAt ls r.1).fault))
  else (l.concealed, l.fault)

/-- One row of the aligned line (R95): the lead row below, the trail row above. -/
def triRow (m : Mem) (h : Shape) (after1 : Bool) (ls : Reachable) (top n row : Nat) (dir : Int) (c : Nat) : Nat :=
  let i : Int := (psDist m / 16 : Nat)
  let f : Int := (psDist m % 16 : Nat)
  let v (x : Int) : Int := (stage2 m h after1 (lineAt ls (sideLine ls top n x).1).data row c : Nat)
  let a := v (n + dir * i)
  if f = 0 then a.toNat else (a + rheDiv ((v (n + dir * (i + 1)) - a) * f) 4).toNat

/-- The colour a Bayer site holds: 0 R, 1 G, 2 B (R96: the phase follows line and column parity). -/
def bayerColour (mode n c : Nat) : Nat :=
  let p := (n % 2) * 2 + c % 2
  (match mode with | 1 => [0, 1, 1, 2] | 2 => [1, 0, 2, 1] | 3 => [1, 2, 0, 1] | _ => [2, 1, 1, 0]).getD p 1

/-- Bayer demosaic of one channel (R94). -/
def bayer (m : Mem) (h : Shape) (after1 : Bool) (ls : Reachable) (top n j c : Nat) : Nat :=
  let site (dy dx : Int) : Nat :=
    let y := (sideLine ls top n (n + dy)).1
    let x := (clampInt 0 (h.cols - 1 : Nat) (c + dx)).toNat
    stage2 m h after1 (lineAt ls y).data 0 x
  let holds (dy dx : Int) : Bool := bayerColour (psMode m) ((n + 2 + dy).toNat) ((c + 2 + dx).toNat) = j
  if holds 0 0 then site 0 0
  else
    let near : List (Int × Int) := [(-1, 0), (1, 0), (0, -1), (0, 1)].filter (fun p => holds p.1 p.2)
    let far : List (Int × Int) := [(-1, -1), (-1, 1), (1, -1), (1, 1)].filter (fun p => holds p.1 p.2)
    let use := if near.isEmpty then far else near
    let t : Nat := (use.map (fun p => site p.1 p.2)).sum
    (rheDiv t (if use.length = 2 then 1 else 2)).toNat

/-- The channels a pipe works on from stage 3. -/
def outChans (m : Mem) (h : Shape) : Nat := if h.chan = 0 then (if psBayer m then 3 else 1) else 3

/-- Stage 3 (R91, R95). -/
def stage3 (m : Mem) (h : Shape) (after1 : Bool) (ls : Reachable) (top n j c : Nat) : Nat :=
  if psTri m then
    let lead := if psOrder m = 0 then 0 else 2
    if j = 1 then stage2 m h after1 (lineAt ls n).data 1 c
    else triRow m h after1 ls top n j (if j = lead then -1 else 1) c
  else if psBayer m then bayer m h after1 ls top n j c
  else stage2 m h after1 (lineAt ls n).data j c

/-- Stages 4 to 6 of a pixel: the channels' values, and the clamps that changed one (R94). -/
def colourStages (m : Mem) (x : List Nat) : List Nat × Nat :=
  let (x, n) : List Nat × Nat :=
    if psEn m 3 then
      let ys := x.zipIdx.map (fun (v : Nat × Nat) => sat 0 65535 (rheDiv ((v.1 * u16At m (8 + 2 * v.2) : Nat) : Int) 14))
      (ys.map (fun y => y.1.toNat), (ys.map (·.2)).sum)
    else (x, 0)
  let (x, n) : List Nat × Nat :=
    if psEn m 4 then
      let ys := (List.range 3).map (fun i =>
        let t : Int := (x.zipIdx.map (fun (v : Nat × Nat) => s16At m (0x10 + 6 * i + 2 * v.2) * (v.1 : Int))).sum
        sat 0 65535 (rheDiv t 12 + s16At m (0x22 + 2 * i)))
      (ys.map (fun y => y.1.toNat), n + (ys.map (·.2)).sum)
    else (x, n)
  if psEn m 5 then
    (x.zipIdx.map (fun (v : Nat × Nat) =>
      let i := v.1 / 64
      let a : Int := psNode m v.2 i
      let b : Int := psNode m v.2 (min (i + 1) 1023)
      (a + rheDiv ((b - a) * (v.1 % 64 : Nat)) 6).toNat), n)
  else (x, n)

/-- Bytes of an output element (R106). -/
def psElem (m : Mem) : Nat := if psFmt m < 2 then 1 else 2

/-- Stage 7 (R94): the element's bits, and 1 where the clamp changed it. -/
def stage7 (m : Mem) (v : Nat) : Nat × Nat :=
  let t : Int := (v * psGain m : Nat)
  let r := rheDiv t 32 + psZp m
  match psFmt m with
  | 0 => let (y, n) := sat 0 255 r; (y.toNat, n)
  | 1 => let (y, n) := sat (-128) 127 r; (unsigned 8 y, n)
  | 2 => let (y, n) := sat (-32768) 32767 r; (unsigned 16 y, n)
  | _ => let x := t + psZp m * 2 ^ 32; (bf16F.round .even (decide (x < 0)) x.natAbs (2 ^ 32), 0)

/-- A column outside the mask in layouts 0 and 1 (R106). -/
def psOutside (m : Mem) : Nat :=
  match psFmt m with | 0 => (psZp m).toNat | 1 => unsigned 8 (psZp m) | 2 => unsigned 16 (psZp m) | _ => 0

/-- A pixel of line n at column c: its elements and clamps. -/
def pixel (m : Mem) (h : Shape) (after1 : Bool) (ls : Reachable) (top n c : Nat) : List Nat × Nat :=
  let x := (List.range (outChans m h)).map (fun j => stage3 m h after1 ls top n j c)
  let (y, k) := colourStages m x
  let z := y.map (stage7 m)
  (z.map (·.1), k + (z.map (·.2)).sum)

/-- Whether the mask passes a column. -/
def passes (mask : BitVec 256) (c : Nat) : Bool := mask.getLsbD (c / 64)

/-- Where a tensor block's data holds an element (R106). -/
def elemAt (m : Mem) (h : Shape) (i c j : Nat) : Nat :=
  let ch := outChans m h
  (match psLayout m with
   | 0 => (i * h.cols + c) * ch + j
   | 1 => (j * 16 + i) * h.cols + c
   | _ => c / 64 * (16 * 64 * ch) + (i * 64 + c % 64) * ch + j) * psElem m

/-- Line i of a tensor block written onto a memory, its data from an address (R106), and the clamps of stages 3 to 7
added up. -/
def tensorLine (m : Mem) (h : Shape) (after1 : Bool) (ls : Reachable) (first : Nat) (mask : BitVec 256) (base i : Nat)
    (acc : Mem × Nat) : Mem × Nat :=
  let top := topLine ls
  (List.range h.cols).foldl (fun (acc : Mem × Nat) c =>
    if passes mask c then
      let (ys, k) := pixel m h after1 ls top (first + i) c
      (ys.zipIdx.foldl (fun mem (y : Nat × Nat) => writeBytes mem (base + elemAt m h i c y.2) (leBytes (psElem m) y.1)) acc.1, acc.2 + k)
    else if psLayout m = 2 then acc
    else ((List.range (outChans m h)).foldl (fun mem j =>
      writeBytes mem (base + elemAt m h i c j) (leBytes (psElem m) (psOutside m))) acc.1, acc.2)) acc

/-- The data of a tensor block, line by line. -/
def tensorData (m : Mem) (h : Shape) (after1 : Bool) (ls : Reachable) (first : Nat) (mask : BitVec 256) (dst : Mem)
    (base : Nat) : Mem × Nat :=
  (List.range 16).foldl (fun acc i => tensorLine m h after1 ls first mask base i acc) (dst, 0)

/-- The clamps of stage 1 over a line. -/
def stage1Sat (m : Mem) (h : Shape) (d : Mem) : Nat :=
  if psEn m 0 then
    ((List.range (h.chans * h.cols)).map (fun q => (stage1 m h d (q / h.cols) (q % h.cols)).2.2)).sum
  else 0

/-- The rewind bytes of a line: stage 1 at the source width (R92). -/
def rewindLine (m : Mem) (h : Shape) (d : Mem) : List Byte :=
  if psEn m 0 then
    (List.range (h.cols * h.chans)).flatMap (fun q =>
      let j := if h.chan = 2 then q % 3 else q / h.cols
      let c := if h.chan = 2 then q / 3 else q % h.cols
      leBytes h.bytes (stage1 m h d j c).1)
  else readBytes d 0 h.lineBytes

/-- The data bytes of a tensor block. -/
def tensorBytes (m : Mem) (h : Shape) : Nat := 16 * h.cols * outChans m h * psElem m

/-- B_max for a WIDTH (R106). -/
def blockMax (width : Nat) : Nat := (64 + 6144 * width + 4095) / 4096 * 4096

/-! ## Counter-based draws (R241) -/

/-- One round's counter. -/
def philoxRound (c : Nat × Nat × Nat × Nat) (k0 k1 : Nat) : Nat × Nat × Nat × Nat :=
  let p0 := 0xD2511F53 * c.1
  let p1 := 0xCD9E8D57 * c.2.2.1
  (Nat.xor (Nat.xor (p1 / 2 ^ 32) c.2.1) k0, p1 % 2 ^ 32, Nat.xor (Nat.xor (p0 / 2 ^ 32) c.2.2.2) k1, p0 % 2 ^ 32)

def philoxFrom : Nat → Nat × Nat × Nat × Nat → Nat → Nat → Nat × Nat × Nat × Nat
  | 0, c, _, _ => c
  | n + 1, c, k0, k1 => philoxFrom n (philoxRound c k0 k1) ((k0 + 0x9E3779B9) % 2 ^ 32) ((k1 + 0xBB67AE85) % 2 ^ 32)

/-- philox4x32_10 (R241). -/
def philox (c : Nat × Nat × Nat × Nat) (seed : Nat) : List Nat :=
  let r := philoxFrom 10 c (seed % 2 ^ 32) (seed / 2 ^ 32)
  [r.1, r.2.1, r.2.2.1, r.2.2.2]

end Sys2Proof.Machine
end

