-- ==== Sys2Proof/Machine/Keccak.lean ====
section
/-! DEFINITION. SHAKE256, the hash of every digest of the module (R100, R224, R240, R424), and the streams it gives
(R241). -/

namespace Sys2Proof.Machine

/-- Five 64-bit words: a plane of a hash state. -/
structure Plane where
  v : DWord := 0
  w : DWord := 0
  x : DWord := 0
  y : DWord := 0
  z : DWord := 0
  deriving DecidableEq, Repr

def Plane.mix (p q : Plane) : Plane := ⟨p.v ^^^ q.v, p.w ^^^ q.w, p.x ^^^ q.x, p.y ^^^ q.y, p.z ^^^ q.z⟩
/-- The plane's words each one place on, around. -/
def Plane.turn (p : Plane) : Plane := ⟨p.w, p.x, p.y, p.z, p.v⟩
/-- What a plane lets through of itself two places on, where the next word is clear. -/
def Plane.pass (p q : Plane) : Plane := ⟨~~~p.v &&& q.v, ~~~p.w &&& q.w, ~~~p.x &&& q.x, ~~~p.y &&& q.y, ~~~p.z &&& q.z⟩
def Plane.spin (p : Plane) : Plane := ⟨p.v.rotateLeft 1, p.w.rotateLeft 1, p.x.rotateLeft 1, p.y.rotateLeft 1, p.z.rotateLeft 1⟩
/-- The step within a plane that is not linear. -/
def Plane.bend (p : Plane) : Plane := p.mix (p.turn.pass p.turn.turn)

/-- The state of the hash: 1,600 bits in five planes. -/
structure Sponge where
  a : Plane := {}
  b : Plane := {}
  c : Plane := {}
  d : Plane := {}
  e : Plane := {}
  deriving DecidableEq, Repr

def Sponge.planes (s : Sponge) (f : Plane → Plane) : Sponge := ⟨f s.a, f s.b, f s.c, f s.d, f s.e⟩

/-- Every word takes the parities of the two columns beside its own. -/
def Sponge.spread (s : Sponge) : Sponge :=
  let k := s.a.mix (s.b.mix (s.c.mix (s.d.mix s.e)))
  s.planes (Plane.mix (k.turn.turn.turn.turn.mix k.turn.spin))

/-- Every word rotated and sent to its new place. -/
def Sponge.scatter (s : Sponge) : Sponge :=
  { a := { v := s.a.v, w := s.b.w.rotateLeft 44, x := s.c.x.rotateLeft 43, y := s.d.y.rotateLeft 21, z := s.e.z.rotateLeft 14 }
    b := { v := s.a.y.rotateLeft 28, w := s.b.z.rotateLeft 20, x := s.c.v.rotateLeft 3, y := s.d.w.rotateLeft 45, z := s.e.x.rotateLeft 61 }
    c := { v := s.a.w.rotateLeft 1, w := s.b.x.rotateLeft 6, x := s.c.y.rotateLeft 25, y := s.d.z.rotateLeft 8, z := s.e.v.rotateLeft 18 }
    d := { v := s.a.z.rotateLeft 27, w := s.b.v.rotateLeft 36, x := s.c.w.rotateLeft 10, y := s.d.x.rotateLeft 15, z := s.e.y.rotateLeft 56 }
    e := { v := s.a.x.rotateLeft 62, w := s.b.y.rotateLeft 55, x := s.c.z.rotateLeft 39, y := s.d.v.rotateLeft 41, z := s.e.w.rotateLeft 2 } }

/-- The shift register that makes each round's constant: its next state. -/
def clockRegister (r : Nat) : Nat := (r * 2) % 256 ^^^ r / 128 * 0x71

/-- The constant bits still to come of a round, `n` of them, and the register after. -/
def roundBits : Nat → Nat → Nat × Nat
  | 0, r => (0, r)
  | n + 1, r =>
    let r := clockRegister r
    let (k, z) := roundBits n r
    (k + (if r / 2 % 2 = 1 then 2 ^ (2 ^ (6 - n) - 1) else 0), z)

/-- Rounds of the permutation: `n` of them, from a state of the register. -/
def rounds : Nat → Nat → Sponge → Sponge
  | 0, _, s => s
  | n + 1, r, s =>
    let (k, r) := roundBits 7 r
    let t := s.spread.scatter.planes Plane.bend
    rounds n r { t with a := { t.a with v := t.a.v ^^^ BitVec.ofNat 64 k } }

def permute (s : Sponge) : Sponge := rounds 24 1 s

/-- The word at a place in a run of bytes. -/
def wordIn (bs : List Byte) (i : Nat) : DWord := BitVec.ofNat 64 (leNat ((bs.drop (8 * i)).take 8))
def planeIn (bs : List Byte) (i : Nat) : Plane := ⟨wordIn bs i, wordIn bs (i + 1), wordIn bs (i + 2), wordIn bs (i + 3), wordIn bs (i + 4)⟩

/-- 136 bytes of a message enter the state. -/
def Sponge.takeIn (s : Sponge) (block : List Byte) : Sponge :=
  let bs := padTo 200 block
  permute ⟨s.a.mix (planeIn bs 0), s.b.mix (planeIn bs 5), s.c.mix (planeIn bs 10), s.d.mix (planeIn bs 15), s.e.mix (planeIn bs 20)⟩

/-- The end of a message with the padding of SHAKE256. -/
def shakePad (bs : List Byte) : List Byte :=
  if bs.length = 135 then bs ++ [0x9F] else padTo 135 (bs ++ [0x1F]) ++ [0x80]

/-- A message taken in; `n` bounds its whole blocks. -/
def Sponge.takeAll : Nat → Sponge → List Byte → Sponge
  | 0, s, bs => s.takeIn (shakePad bs)
  | n + 1, s, bs => if bs.length < 136 then s.takeIn (shakePad bs) else takeAll n (s.takeIn (bs.take 136)) (bs.drop 136)

def Plane.bytes (p : Plane) : List Byte := [p.v, p.w, p.x, p.y, p.z].flatMap (fun k => leBytes 8 k.toNat)

/-- Blocks of output, 136 bytes each. -/
def Sponge.giveOut : Nat → Sponge → List Byte
  | 0, _ => []
  | n + 1, s => (s.a.bytes ++ s.b.bytes ++ s.c.bytes ++ s.d.bytes).take 136 ++ giveOut n (permute s)

/-- SHAKE256 of a message, `n` bytes. -/
def shake256 (bs : List Byte) (n : Nat) : List Byte := (Sponge.giveOut ((n + 135) / 136) (Sponge.takeAll (bs.length / 136) {} bs)).take n

end Sys2Proof.Machine
end

