-- ==== Sys2Proof/Machine/Pool.lean ====
section
/-! DEFINITION. The KV pool and the prefix tree: slots, tracks, nodes, pins and references, closing, retirement and the
epoch-deferred free (R196 to R201, R207 to R218). -/

namespace Sys2Proof.Machine

namespace State

/-! ## The pool (R196) -/

def kvBase (s : State) : Nat := s.reg64 0x270000 / 2 ^ 26 * 2 ^ 26
/-- Bytes of a pool slot. -/
def kvSlotBytes (s : State) : Nat := s.fld 0x270008 24 16 * 4096
/-- Bytes of the pool. -/
def kvBytes (s : State) : Nat := s.fld 0x270008 4 0 * 2 ^ 30
/-- Where a slot begins. -/
def kvSlotAt (s : State) (n : Nat) : Nat := s.kvBase + 2 ^ 26 + n * s.kvSlotBytes
/-- N (R196). -/
def kvCount (s : State) : Nat := (s.kvBytes - 2 ^ 26) / s.kvSlotBytes

/-- An empty page-list entry. -/
def emptyEntry : Word := 0xFFFFFFFF#32

def track (s : State) (n : Nat) : Track := tget {} s.tracks n

/-- The 64 bytes of a track table entry (R196). -/
def trackBytes (t : Track) : List Byte :=
  let fl : Nat := t.state + (if t.truncated then 4 else 0) + (if t.capped then 8 else 0) + (if t.broken then 16 else 0) +
    (if t.clamped then 32 else 0)
  padTo 64 (leBytes 4 t.handle.toNat ++ leBytes 2 t.ctx ++ leBytes 2 fl ++ leBytes 6 t.b0 ++ leBytes 2 t.c0 ++
    leBytes 2 t.nc ++ leBytes 1 t.th ++ leBytes 1 t.tw ++ leBytes 4 t.prefixTokens ++ leBytes 4 t.tokens ++
    leBytes 2 t.entries ++ leBytes 2 t.resv ++ leBytes 1 t.polder)

/-- A track and its table entry written. -/
def putTrack (s : State) (n : Nat) (t : Track) : State :=
  { s with
    tracks := tset {} s.tracks n t
    bonded := writeBytes s.bonded (s.kvBase + 64 * n) (trackBytes t) }

/-- A page-list entry of a track. -/
def entry (t : Track) (p : Nat) : Word := tget emptyEntry t.pages p
def entryShared (w : Word) : Bool := decide (w ≠ emptyEntry) && bit w 31
def entrySlot (w : Word) : Nat := bits w 22 0

/-- A page-list entry written (R196, R212). -/
def putEntry (s : State) (n p : Nat) (w : Word) : State :=
  let t := s.track n
  let s := { s with bonded := writeBytes s.bonded (s.kvBase + 0x40000 + 8192 * n + 4 * p) (leBytes 4 w.toNat) }
  s.putTrack n { t with pages := tset emptyEntry t.pages p w, entries := max t.entries (p + 1) }

/-- A page list all empty. -/
def clearList (s : State) (n : Nat) : State :=
  let s := { s with bonded := writeBytes s.bonded (s.kvBase + 0x40000 + 8192 * n) (List.replicate 8192 0xFF) }
  s.putTrack n { s.track n with pages := [], entries := 0 }

/-- F: free slots (R198). -/
def kvFree (s : State) : Nat := s.kv.slots - s.kv.fresh + s.kv.freed.length
/-- V: reserved slots not yet allocated. -/
def kvResv (s : State) : Nat := (s.tracks.map (fun (p : Nat × Track) => if p.2.state = 1 then p.2.resv else 0)).sum
/-- GROW_RESERVE. -/
def kvGrow (s : State) : Nat := s.fld 0x27000C 23 0
/-- Slots a polder holds, and may hold. -/
def kvUsed (s : State) (p : Nat) : Nat := tget 0 s.kv.used p
def kvQuota (s : State) (p : Nat) : Nat := s.fld (0x270040 + 4 * p) 23 0
def kvCharge (s : State) (p : Nat) (n : Nat) : State := { s with kv := { s.kv with used := tset 0 s.kv.used p n } }

/-- Entry i of the free-slot stack in the pool's metadata, from the bottom (R196; DESIGN CHOICE, the assumption log, 91). -/
def stackAt (s : State) (i : Nat) : Nat := s.kvBase + 0x2040000 + 4 * i
/-- Place n of the deferred ring, which lies in the stack's region from its top downward (R217). -/
def ringPlace (s : State) (n : Nat) : Nat := s.kvBase + 0x3840000 - 4 * (n % max 1 s.kv.slots + 1)

/-- A slot taken: the last freed, or the lowest never taken (the assumption log, 16). -/
def kvTake (s : State) : Option (Nat × State) :=
  match s.kv.freed with
  | n :: r => some (n, { s with kv := { s.kv with freed := r } })
  | [] => if s.kv.fresh < s.kv.slots then some (s.kv.fresh, { s with kv := { s.kv with fresh := s.kv.fresh + 1 } }) else none

/-- A slot into the deferred ring at the present epoch (R216, R217): [31:23] the epoch modulo 512, [22:0] the slot. -/
def kvDefer (s : State) (n : Nat) : State :=
  { s with
    kv := { s.kv with deferred := s.kv.deferred ++ [{ epoch := s.kv.epoch, slot := n, place := s.kv.ringNext }], ringNext := s.kv.ringNext + 1 }
    bonded := writeBytes s.bonded (s.ringPlace s.kv.ringNext) (leBytes 4 (s.kv.epoch % 512 * 2 ^ 23 + n % 2 ^ 23)) }

/-- The deferred entries of a slot voided, in the ring and in memory (R209, R217). -/
def kvVoid (s : State) (n : Nat) : State :=
  { s with
    kv := { s.kv with deferred := s.kv.deferred.map (fun d => if d.slot = n then { d with voided := true } else d) }
    bonded := (s.kv.deferred.filter (fun d => decide (d.slot = n))).foldl (fun m d => writeBytes m (s.ringPlace d.place) [0xFF, 0xFF, 0xFF, 0xFF]) s.bonded }

/-! ## Nodes (R207, R212, R216) -/

def pfxBase (s : State) : Nat := s.reg64 0x270104 / 2 ^ 20 * 2 ^ 20
def buckets (s : State) : Nat := 2 ^ s.fld 0x270100 20 16
def node (s : State) (i : Nat) : Node := tget {} s.nodes i

/-- The 64 bytes of a node (R207). -/
def nodeBytes (x : Node) : List Byte :=
  padTo 32 x.hash ++ leBytes 4 x.slot ++ leBytes 4 x.pins ++
  leBytes 4 (match x.parent with | some p => p | none => 0xFFFFFFFF) ++ leBytes 2 x.page ++ leBytes 1 x.tokens ++
  leBytes 1 x.state ++ leBytes 4 x.refs ++ leBytes 4 x.retiredAt ++ leBytes 8 0

def putNode (s : State) (i : Nat) (x : Node) : State :=
  { s with
    nodes := tset {} s.nodes i x
    bonded := writeBytes s.bonded (s.pfxBase + 64 * i) (nodeBytes x) }

/-- The node whose page a slot holds, if any that is not free. -/
def nodeOfSlot (s : State) (slot : Nat) : Option Nat :=
  (s.nodes.find? (fun (p : Nat × Node) => decide (p.2.slot = slot) && decide (p.2.state ≠ 0))).map (·.1)

/-- A node without pins or references at the end of an allocator step is retired (R216). -/
def retireNode (s : State) (i : Nat) : State :=
  let x := s.node i
  if (x.state = 1 ∨ x.state = 2) ∧ x.pins = 0 ∧ x.refs = 0 then
    ((s.putNode i { x with state := 3, retiredAt := s.kv.epoch, builder := none }).kvDefer x.slot).bump 0x270130 1
  else s

/-- A node set free, its slot to the deferred free (R209, R211). -/
def discardNode (s : State) (i : Nat) : State :=
  let x := s.node i
  (s.putNode i {}).kvDefer x.slot

def unrefNode (s : State) (i : Nat) : State :=
  let x := s.node i
  (s.putNode i { x with refs := x.refs - 1 }).retireNode i

def unpinNode (s : State) (i : Nat) : State :=
  let x := s.node i
  (s.putNode i { x with pins := x.pins - 1 }).retireNode i

def unrefNodes (s : State) : List Nat → State
  | [] => s
  | i :: r => unrefNodes (s.unrefNode i) r

def discardNodes (s : State) : List Nat → State
  | [] => s
  | i :: r => discardNodes (s.discardNode i) r

/-! ## Recipes' references (R211, R220) -/

def recipe (s : State) (r : Nat) : Option Recipe := tget none s.recipes r
def putRecipe (s : State) (r : Nat) (x : Recipe) : State := { s with recipes := tset none s.recipes r (some x) }
def dropRecipe (s : State) (r : Nat) : State := { s with recipes := tset none s.recipes r none }

/-- A recipe is reported not resident with a code (R209, R211). -/
def notResident (s : State) (r : Nat) (code : Half) : State :=
  match s.recipe r with
  | none => s
  | some x => ((s.reportSubject code 4 (r % 65536 + 0xFFFFFFFF * 2 ^ 24) x.fn).raise code 0x06 0x11 1 (leBytes 4 r))

/-- The record of a load that waited for its residency. -/
def waitingDone (s : State) (key : Nat) (status : Half) : State :=
  match s.recipe key with
  | none => s
  | some r => match r.waiting with
    | none => s
    | some (ring, tag, irq) =>
      let s := s.putRecipe key { r with waiting := none }
      { s with log := s.log.complete s.stamp r.fn ring tag irq { status, result := BitVec.ofNat 64 (key % 65536) } }

/-- One recipe that holds a reference to a discarded node: not resident, its other references released; a load of it that is
still under way ends with the code. -/
def dropHolder (s : State) (bad : List Nat) (r : Nat) : State :=
  match s.recipe r with
  | none => s
  | some x =>
    if x.nodes.any (fun i => bad.contains i) then
      let s := (s.putRecipe r { x with nodes := [], todo := 0, inserted := [], revived := [], residentAt := false, failed := true, buildJob := false })
      ((s.unrefNodes (x.nodes.filter (fun i => !bad.contains i))).notResident r 0x2A03#16).waitingDone r 0x2A03#16
    else s

def dropHolders (s : State) (bad : List Nat) : List Nat → State
  | [] => s
  | r :: rest => dropHolders (s.dropHolder bad r) bad rest

/-- A failed build (R211): the nodes inserted for it are set free, and every recipe that holds one is not resident. -/
def failBuild (s : State) (r : Nat) : State :=
  let bad := (s.nodes.filter (fun (p : Nat × Node) => decide (p.2.state = 1) && decide (p.2.builder = some r))).map (·.1)
  (s.dropHolders bad (s.recipes.map (·.1))).discardNodes bad

/-- Open tracks of a recipe. -/
def openTracks (s : State) (r : Nat) : Bool := s.tracks.any (fun (p : Nat × Track) => decide (p.2.state ≠ 0) && decide (p.2.recipe = r))

/-- A draining recipe goes with its last open track (R220). -/
def drainRecipe (s : State) (r : Nat) : State :=
  match s.recipe r with
  | none => s
  | some x => if x.draining ∧ ¬ s.openTracks r ∧ ¬ x.buildJob then (s.unrefNodes x.nodes).dropRecipe r else s

/-- A recipe is resident once every page of its prefix is taken and ready (R210). -/
def checkResident (s : State) (r : Nat) : State :=
  match s.recipe r with
  | none => s
  | some x => if x.todo = 0 ∧ ¬ x.failed ∧ x.nodes.all (fun i => (s.node i).state = 2) then s.putRecipe r { x with residentAt := true } else s

def checkResidents (s : State) : List Nat → State
  | [] => s
  | r :: rest => checkResidents (s.checkResident r) rest

/-! ## Tracks (R197, R200) -/

/-- The track slot a live handle names. -/
def findTrack (s : State) (h : Word) : Option Nat :=
  let n := bits h 11 0
  if h ≠ 0 ∧ (s.track n).handle = h ∧ (s.track n).state = 1 then some n else none

/-- A flag of a track marked on the part it was opened for: TRUNCATED, CAPPED, BROKEN at bits 5 to 7 (R199). -/
def markParts (s : State) (h : Word) (b : Nat) : State :=
  { s with parts := s.parts.map (fun p =>
      if p.track = h ∧ ¬ p.sealed ∧ p.early / 2 ^ b % 2 = 0 then { p with early := p.early + 2 ^ b } else p) }

/-- The entries of a page list: shared nodes to unpin, own slots to hand over. -/
def closePages (s : State) (polder : Nat) (build : Bool) : List (Nat × Word) → State
  | [] => s
  | (_, w) :: r =>
    let s :=
      if entryShared w then (match s.nodeOfSlot (entrySlot w) with | some i => s.unpinNode i | none => s)
      else if build then s
      else (s.kvDefer (entrySlot w)).kvCharge polder (s.kvUsed polder - 1)
    closePages s polder build r

/-- The slots that copies under way fill for a track, as entries of its own (R201). -/
def copySlots (s : State) (h : Word) : List (Nat × Word) :=
  (s.kv.copies.filter (fun c => decide (c.handle = h))).map (fun c => (c.page, BitVec.ofNat 32 c.slot))

/-- CLOSE of a track slot (R200, R211): the reservation returns, prefix pages are unpinned, own pages enter the deferred
free, and the slot is free. -/
def closeTrack (s : State) (n : Nat) : State :=
  let t := s.track n
  if t.state = 0 then s
  else
    let s := s.putTrack n { t with state := 2, resv := 0 }
    let s := s.closePages t.polder t.build (t.pages ++ s.copySlots t.handle)
    let s := { s with parts := s.parts.map (fun (p : Part) =>
      if p.track = t.handle ∧ p.tokens = none then { p with tokens := some t.tokens } else p) }
    let s := s.putTrack n { serial := t.serial }
    let s := if t.build then s.failBuild t.recipe else s
    s.drainRecipe t.recipe

/-- CLOSE by handle, where it names an open track. -/
def closeHandle (s : State) (h : Word) : State :=
  match s.findTrack h with
  | none => s
  | some n => s.closeTrack n

/-! ## Epochs (R217) -/

/-- m: the least reader epoch of the engines and the copy unit. -/
def readerMin (s : State) : Nat :=
  let e := s.ops.foldl (fun a o => match o.reader with | some x => if o.complete then a else min a x | none => a) s.kv.epoch
  s.kv.copies.foldl (fun a c => min a c.epoch) e

/-- Whether a deferred entry of epoch e is free at m. -/
def epochPast (m e : Nat) : Bool :=
  let d := (m + 512 - e % 512) % 512
  decide (1 ≤ d) && decide (d ≤ 255)

/-- One slot freed: onto the stack and its memory, its retired node free, counted. -/
def freeSlot (s : State) (n : Nat) : State :=
  let s := match s.nodeOfSlot n with
    | some i => if (s.node i).state = 3 then s.putNode i {} else s
    | none => s
  ({ s with kv := { s.kv with freed := n :: s.kv.freed }, bonded := writeBytes s.bonded (s.stackAt s.kvFree) (leBytes 4 n) }).bump 0x270134 1

def freeDue (s : State) (m : Nat) : List Deferred → State
  | [] => s
  | d :: r => freeDue (if epochPast m d.epoch && !d.voided then s.freeSlot d.slot else s) m r

/-- EPOCH_TICK (R217): E rises by 1 each EPOCH_US while the tree is in service, and what no reader can reach is freed. -/
def epochTickEff (s : State) : State :=
  if s.kv.treeRunning ∧ s.kv.epochFrom + s.fld 0x270100 9 0 * 1000 ≤ s.now then
    let s := { s with kv := { s.kv with epoch := s.kv.epoch + 1, epochFrom := s.kv.epochFrom + s.fld 0x270100 9 0 * 1000 } }
    let m := s.readerMin
    let ring := s.kv.deferred
    ({ s with kv := { s.kv with deferred := ring.filter (fun x => !epochPast m x.epoch) } }).freeDue m ring
  else s

end State

def execEpochTick (s : State) : Host.Outcome State Fault Refusal := .next s.epochTickEff

end Sys2Proof.Machine
end

