-- ==== Sys2Proof/Machine/Verdict.lean ====
section
/-! DEFINITION. The verdict unit: submissions, admission, the class of a part, sealing, its record, its ejection, its
delivery, its archive job and its proxy message (R16, R240, R248 to R261, R301, R353, R370). -/

namespace Sys2Proof.Machine

namespace State

/-! ## Lines of a part (R255) -/

/-- A line as a part meets it: its entry of the record, and the flags of its tensor block header where it has one. -/
structure PartLine where
  line : LineOut
  concealed : Bool
  fault : Bool
  refused : Bool
  deriving DecidableEq, Repr

def blockRec (s : State) (k b : Nat) : Option BlockRec := s.records.find? (fun r => decide (r.block.ctx = k) && decide (r.block.b = b))

/-- The lines of a kept block. -/
def linesOf (r : BlockRec) : List PartLine :=
  r.block.lines.zipIdx.map (fun (l : LineOut × Nat) =>
    let m := r.marks.getD l.2 (false, false, false)
    ⟨l.1, l.1.concealed || m.1, l.1.fault || m.2.1, l.1.refused || m.2.2⟩)

/-- The lines at hand of a part. -/
def partLines (s : State) (p : Part) : List PartLine :=
  let a := 16 * p.firstBlock + p.firstOff
  let b := 16 * p.lastBlock + p.lastOff
  (s.records.filter (fun r => decide (r.block.ctx = p.lane) && decide (p.firstBlock ≤ r.block.b) && decide (r.block.b ≤ p.lastBlock))).flatMap
    (fun r => (linesOf r).filter (fun l => decide (a ≤ l.line.n) && decide (l.line.n ≤ b)))

/-- A line's missing columns meet a part's, or it has no range (R255). -/
def meets (l : PartLine) (x0 x1 : Nat) : Bool :=
  decide (l.line.firstCol = 0xFFFF) || (decide (l.line.firstCol ≤ x1) && decide (x0 ≤ l.line.lastCol))

def partRefused (s : State) (p : Part) : Bool := (s.partLines p).any (·.refused)
def partFault (s : State) (p : Part) : Bool := (s.partLines p).any (fun l => l.fault && meets l p.x0 p.x1)
def partConcealed (s : State) (p : Part) : Bool := (s.partLines p).any (fun l => l.concealed && meets l p.x0 p.x1)

/-- The class and status code of a part (R255): refused lines, its refusal, a fault region, the program's class and
status, and the code of a part without one. -/
def classOf (refusedLines : Bool) (refusal : Half) (fault : Bool) (prog : Option (Nat × Half)) (none_ : Half) : Nat × Half :=
  if refusal ≠ 0 then (3, refusal)
  else if refusedLines then (3, 0x3C04#16)
  else if fault then (4, 0x2C04#16)
  else match prog with
    | some (1, st) => (1, st)
    | some (2, st) => (2, st)
    | some _ => (0, 0)
    | none => (2, none_)

/-! ## Positions (R261) -/

def sluiceCols (s : State) (k : Nat) : Nat := s.fld (0x240000 + 0x100 * k) 8 0 * 64

/-- The stamped position of a line on an axis, where its block has been handed on. -/
def linePos (s : State) (k b i axis : Nat) : Option Fine :=
  match s.blockRec k b with
  | none => none
  | some r => (r.block.lines[i]?).bind (fun l => l.stamp.pos[axis]?)

/-- A position moved along the binding's direction by a signed distance in 1/65,536 counts. -/
def along (dir : Bool) (p : Fine) (d : Int) : Fine := p + BitVec.ofInt 64 (if dir then -d else d)

def bindDist (s : State) (k : Nat) : Int := ((s.reg (bindOff k + 4)).toNat * 65536 : Nat)
def leadOn (s : State) (k : Nat) : Int := ((s.reg (bindOff k + 8)).toNat : Int)
def leadOff (s : State) (k : Nat) : Int := ((s.reg (bindOff k + 0x0C)).toNat : Int)

/-- ON of a part whose first line stands at p_f. -/
def onOf (s : State) (k : Nat) (pf : Fine) : Fine := along (s.bindDir k) pf (s.bindDist k - s.leadOn k)
/-- OFF before it is kept from falling short of ON. -/
def offOf (s : State) (k : Nat) (pl : Fine) : Fine := along (s.bindDir k) pl (s.bindDist k - s.leadOff k)
def offFrom (s : State) (k : Nat) (on off : Fine) : Fine := if beyond (s.bindDir k) off on then off else on

/-! ## Policy and recipe of a part (R12, R219, R256) -/

/-- The recipe that decides a part, the one active for its first line block, by its digest; unloading it changes nothing. -/
def partDigest (s : State) (p : Part) : Option (List Byte) :=
  (s.blockRec p.lane p.firstBlock).bind (fun r => r.recipe.map (fun _ => r.recipeDigest))

/-- Actions for classes 2 to 4, DEADLINE and MAX_LEN; without a POLICY section the module ejects (R12). -/
def defaultPolicy : List Nat × Nat × Nat := ([1, 1, 1], 0, 1)
/-- The policy of a recipe. -/
def policyOf (s : State) (r : Option Nat) : List Nat × Nat × Nat := ((r.bind s.recipe).bind (·.policy)).getD defaultPolicy
/-- The policy of a part whose first line block this is (R219). -/
def blockPolicy (s : State) (k b : Nat) : List Nat × Nat × Nat := ((s.blockRec k b).bind (·.policy)).getD defaultPolicy

def policyAction (pol : List Nat) (cls : Nat) : Nat := if cls = 0 then 0 else if cls = 1 then 1 else pol.getD (cls - 2) 1

/-! ## The record (R258, R259) -/

/-- How a part is sealed. -/
structure Sealing where
  cls : Nat
  status : Half
  late : Bool := false
  lost : Bool := false
  action : Option Nat := none
  dec : Option SubEntry := none
  marks : Marks := {}
  deriving DecidableEq, Repr

def defectBytes (d : Defect) : List Byte :=
  leBytes 2 d.kind.toNat ++ leBytes 2 d.score.toNat ++ leBytes 2 d.x0.toNat ++ leBytes 2 d.x1.toNat ++
  leBytes 2 d.y0.toNat ++ leBytes 2 d.y1.toNat

/-- A layer record's flag (R239). -/
def recordFlag (r : List Byte) (b : Nat) : Bool := (r.getD 2 0).toNat / 2 ^ b % 2 = 1

/-- Widened layers among the records named (R164). -/
def widenedCount (rs : List (List Byte)) : Nat := (rs.filter (fun r => recordFlag r 0)).length

/-- The arithmetic revision in force (`ARITH_REV`). -/
def arithRev : Nat := 7

/-- The provenance digest (R240). -/
def provenance (recipe : List Byte) (sets : List (List Byte)) (records : List (List Byte)) : List Byte :=
  shake256 ([0x52, 0x4C, 0x54, 0x4D, 0x2D, 0x50, 0x52, 0x56] ++ recipe ++ leBytes 2 arithRev ++ leBytes 1 sets.length ++ sets.flatMap id ++
    leBytes 2 records.length ++ records.flatMap (fun r => padTo 80 r)) 32

def flagBit (b : Nat) (x : Bool) : Nat := if x then 2 ^ b else 0

/-- The flags word (R259). -/
def flagsWord (s : State) (p : Part) (q : Sealing) (noTarget : Bool) : Nat :=
  let st := match q.dec with | some e => e.status | none => 0
  let ls := s.partLines p
  let ax := s.bindAxis p.lane
  flagBit 0 (s.partConcealed p) + flagBit 1 (q.cls = 4) + flagBit 2 (q.cls = 3) + flagBit 3 q.late + flagBit 4 q.lost +
  flagBit 5 (p.early / 32 % 2 = 1 || decide (st = 0x3902#16)) + flagBit 6 (p.early / 64 % 2 = 1 || decide (st = 0x3903#16)) +
  flagBit 7 (p.early / 128 % 2 = 1) + flagBit 8 (st = 0x3050#16) + flagBit 9 (0 < widenedCount q.marks.records) +
  flagBit 10 (q.marks.varied || q.marks.records.any (fun r => recordFlag r 1)) + flagBit 11 q.marks.excursion +
  flagBit 12 s.line.mixed + flagBit 13 (ls.any (fun l => l.line.stamp.suspect.getLsbD ax)) +
  flagBit 14 (ls.any (fun l => l.line.interp)) + flagBit 15 q.marks.deep +
  flagBit 16 (match q.dec with | some e => decide (8 < e.defectsFound) | none => false) + flagBit 17 noTarget +
  flagBit 18 (match s.partDigest p with | some d => decide (((tget none s.active p.lane).bind s.recipe).map (·.digest) ≠ some d) | none => false) +
  flagBit 19 p.proxy.isSome

/-- Timeliness: whole counts by which the seal came before the deadline (R257). -/
def timeliness (dir : Bool) (deadline pos : Fine) : Int :=
  let d := fineDiff deadline pos
  clampInt (-(2 ^ 31)) (2 ^ 31 - 1) ((if dir then -d else d) / 65536)

/-- The 252 bytes of a record after its seal word (R258). -/
def recordBody (s : State) (laneField : Nat) (p : Part) (q : Sealing) (action : Nat) (noTarget : Bool) : List Byte :=
  let st := s.stamp
  let pos := s.posAt (s.bindAxis p.lane) s.time.t
  let rd := s.partDigest p
  let set := match s.blockRec p.lane p.firstBlock with | some r => [r.digest] | none => []
  let defects := match q.dec with | some e => (e.defects.take 8).flatMap defectBytes | none => []
  leBytes 1 q.cls ++ leBytes 1 action ++ leBytes 2 q.status.toNat ++ leBytes 2 laneField ++
  leBytes 2 (widenedCount q.marks.records) ++ leBytes 4 (s.flagsWord p q noTarget) ++ leBytes 8 p.slot ++
  leBytes 6 p.firstBlock ++ leBytes 1 p.firstOff ++ leBytes 1 p.lastOff ++ leBytes 6 p.lastBlock ++ leBytes 2 p.part ++
  leBytes 2 p.x0 ++ leBytes 2 p.x1 ++ leBytes 2 (match q.dec with | some e => e.confidence.toNat | none => 0) ++
  leBytes 1 (match q.dec with | some e => e.defectsFound | none => 0) ++ leBytes 1 0 ++
  leBytes 8 p.on.toNat ++ leBytes 8 p.off.toNat ++
  leBytes 4 (unsigned 32 (timeliness (s.bindDir p.lane) p.deadline pos)) ++ leBytes 4 0 ++ leBytes 8 pos.toNat ++
  leBytes 6 st.sec ++ leBytes 2 st.epoch ++ leBytes 4 st.ns ++ leBytes 2 arithRev ++ leBytes 2 0 ++
  padTo 32 (rd.getD []) ++
  (if q.dec.isSome then provenance (padTo 32 (rd.getD [])) set q.marks.records else List.replicate 32 0) ++
  padTo 96 defects

/-! ## Delivery (R353) -/

/-- Queued records of a lane written to its ring while entries are free. -/
def drainLane (l : Log) (now k ring : Nat) : Nat → Log
  | 0 => l
  | n + 1 =>
    match tget [] l.queues k with
    | [] => l
    | r :: rest =>
      if l.room 0 ring then
        drainLane (({ l with queues := tset [] l.queues k rest }).writeRecord now 0 ring false r) now k ring n
      else l

/-- The verdict ring of lane k, and the proving ring for 18. -/
def ringOf (k : Nat) : Nat := 40 + k

/-- Delivery of what waits for a verdict ring. -/
def deliverQueued (s : State) (k : Nat) : State :=
  { s with log := drainLane s.log s.now k (ringOf k) (tget [] s.log.queues k).length }

/-- A record handed to delivery: queued, or lost where the queue holds 16,384. -/
def deliver (s : State) (k : Nat) (body : List Byte) : State :=
  let s := s.deliverQueued k
  let q := tget [] s.log.queues k
  if 16384 ≤ q.length then
    let r := s.log.ring 0 (ringOf k)
    let s := { s with log := (s.log.setRing 0 (ringOf k) { r with fullPosted := true }).lose 0 (ringOf k) }
    if r.fullPosted then s else s.raiseNow 0x3031#16 0x0B 0 (leBytes 4 (ringOf k))
  else
    let s := { s with log := { s.log with queues := tset [] s.log.queues k (q ++ [body]) } }
    let r := s.log.ring 0 (ringOf k)
    ({ s with log := s.log.setRing 0 (ringOf k) { r with fullPosted := false } }).deliverQueued k

/-- Sealed records of a lane that are next in slot order go to delivery (R248). -/
def releaseReady (s : State) (k : Nat) : Nat → State
  | 0 => s
  | n + 1 =>
    let v := s.vlane k
    match v.ready.find? (fun r => r.1 = v.nextOut) with
    | none => s
    | some r =>
      ((s.setVlane k { v with nextOut := v.nextOut + 1, ready := v.ready.filter (fun x => x.1 ≠ v.nextOut) }).deliver k r.2).releaseReady k n

/-- A sealed record takes its place in slot order. -/
def recordReady (s : State) (k slot : Nat) (body : List Byte) : State :=
  let v := s.vlane k
  (s.setVlane k { v with ready := v.ready ++ [(slot, body)] }).releaseReady k (v.ready.length + 1)

/-! ## Ejection (R261, R263) -/

/-- The operands of an ejection: one for DO outputs, one for each bank touched; empty where the range is. -/
def ejectOperands (s : State) (k x0 x1 : Nat) : List Word :=
  let o := bindOff k
  if s.flag o 30 then
    let col0 := s.fld (o + 0x10) 31 18
    let per := s.fld (o + 0x10) 17 10
    let ch0 := s.fld (o + 0x10) 8 0
    let last := s.fld (o + 0x14) 8 0
    let a := ch0 + (x0 - col0) / per
    let b := min (ch0 + (x1 - col0) / per) last
    if last < a then []
    else
      let op (bank lo hi : Nat) : Word := BitVec.ofNat 32 (2 ^ 31 + bank * 2 ^ 23 + lo * 2 ^ 16 + hi * 2 ^ 8)
      (if a < 128 then [op 0 a (min b 127)] else []) ++ (if 128 ≤ b then [op 1 (max a 128 - 128) (b - 128)] else [])
  else [BitVec.ofNat 32 (s.fld o 15 0)]

/-- The ejection's entries; the action that results, and NOTARGET. -/
def ejectPart (s : State) (k : Nat) (p : Part) : State × Nat × Bool :=
  let n := s.bindAxis k
  let dir := s.bindDir k
  let ops := s.ejectOperands k p.x0 p.x1
  if ops.isEmpty then (s, 1, true)
  else if beyond dir (s.posKnown n) p.off then ((s.bump 0x280034 1).raise 0x4C02#16 0x07 k, 4, false)
  else
    let tag := BitVec.ofNat 16 p.slot
    let es := ops.flatMap (fun w => ([{ pos := p.on, kind := .on, axis := n, dir, tag, operand := w, lane := some k },
                                      { pos := p.off, kind := .off, axis := n, dir, tag, operand := w, lane := some k }] : List CalEntry))
    let (s, ok) := s.calAdd n es
    if ok then (s, 1, false)
    else
      let s := s.withFs { s.fs with full := including s.fs.full k }
      (s.postEngaged 8, 4, false)

/-! ## Archive jobs (R301) -/

/-- Queues the archive job of a sealed record. -/
def archiveQueue (s : State) (p : Part) (body : List Byte) : State :=
  let c := s.reg 0x2A0100
  if bit c 31 ∧ 1 ≤ p.cls ∧ p.cls ≤ 4 ∧ bit c (19 + p.cls) ∧ s.fld 0x2A0000 17 0 / 2 ^ p.lane % 2 = 1 then
    if 1024 ≤ s.archive.jobs.length then (s.bump 0x2A012C 1).raise 0x3E02#16 0x09 0x70
    else
      let mb := bits c 19 16
      let mg := bits c 15 12
      let g0 := p.x0 / 64 - mg
      let g1 := min (p.x1 / 64 + mg) (s.sluiceCols p.lane / 64 - 1)
      let j : ArchJob := { lane := p.lane, record := body, b1 := p.firstBlock - mb, b2 := p.lastBlock + mb,
                           col := 64 * g0, cols := 64 * (g1 + 1 - g0) }
      { s with archive := { s.archive with jobs := s.archive.jobs ++ [j] } }
  else s

/-! ## Forwarded lanes (R370) -/

def fwdOff (k : Nat) : Nat := 0x2E0280 + 4 * k
def forwarded (s : State) (k : Nat) : Bool := s.flag (fwdOff k) 31

/-- A proxy message. -/
def proxyBytes (kind k seq slot : Nat) (on off deadline : Fine) (block : Nat) (record : List Byte) : List Byte :=
  leBytes 1 kind ++ leBytes 1 k ++ leBytes 2 0 ++ leBytes 4 seq ++ leBytes 8 slot ++ leBytes 8 on.toNat ++
  leBytes 8 off.toNat ++ leBytes 8 deadline.toNat ++ leBytes 6 block ++ leBytes 18 0 ++ padTo 256 record

/-- PROXY_FORWARD: one message of a forwarded lane to its owner's ring, unless forwarding has stopped. -/
def forward (s : State) (k kind slot : Nat) (on off deadline : Fine) (block : Nat) (record : List Byte) : State :=
  let f := tget {} s.fwds k
  if s.forwarded k ∧ ¬ f.stopped then
    let m := proxyBytes kind k f.seq slot on off deadline block record
    let f' := { f with seq := f.seq + 1, queue := if f.fullSince.isSome then f.queue ++ [m] else f.queue }
    { s with
      fwds := tset {} s.fwds k f'
      line := if f.fullSince.isSome then s.line else { s.line with sent := s.line.sent ++ [(s.fld (fwdOff k) 3 0, m)] } }
  else s

/-! ## Sealing -/

def isPart (lane slot : Nat) (p : Part) : Bool := decide (p.lane = lane) && decide (p.slot = slot) && p.proxy.isNone

/-- A part replaced by lane and slot. -/
def setPart (s : State) (p : Part) : State :=
  { s with parts := s.parts.map (fun x => if isPart p.lane p.slot x then p else x) }

def findPart (s : State) (lane slot : Nat) : Option Part := s.parts.find? (isPart lane slot)

/-- The one event of the module that counts the parts its verdict rate limit turns away (R16). -/
def rateEvent (s : State) : State := s.raise 0x3040#16 0x07 0xFF

/-- The code of a seal posts with the part's slot; the rate limit's as the module's one event. -/
def sealCode (s : State) (p : Part) (q : Sealing) : State :=
  if q.status = 0x3040#16 then s.rateEvent
  else if q.status = 0x2C04#16 ∨ q.status = 0x3C04#16 ∨ q.status = 0x3C02#16 then
    s.raise q.status 0x07 p.lane 1 (leBytes 8 p.slot)
  else if q.lost ∧ q.status = 0x5C03#16 then s.raise 0x5C03#16 0x07 p.lane 1 (leBytes 8 p.slot)
  else s

/-- Seals a part (R255 to R261): positions, ejection, record, delivery, archive, proxy message, and its track closed
(R200). -/
def sealPart (s : State) (p : Part) (q : Sealing) : State :=
  let k := p.lane
  -- the last line, where it is known only now
  let p := if p.offKnown then p else
    match s.linePos k p.lastBlock p.lastOff (s.bindAxis k) with
    | some pl => { p with off := s.offFrom k p.on (s.offOf k pl), offKnown := true }
    | none => p
  let pol := s.blockPolicy k p.firstBlock
  let want := match q.action with | some a => a | none => policyAction pol.1 q.cls
  let (s, action, noTarget) :=
    if want = 1 ∧ q.action = none ∧ ¬ s.forwarded k then s.ejectPart k p else (s, want, false)
  let body := s.recordBody k p q action noTarget
  let p := { p with sealed := true, late := q.late, decide := q.dec, cls := q.cls, action, status := q.status }
  let s := ((s.setPart p).bump 0x280010 1).sealCode p q
  let s := s.recordReady k p.slot body
  let s := s.archiveQueue p (leBytes 4 0 ++ body)
  let s := s.forward k 2 p.slot p.on p.off p.deadline p.firstBlock (leBytes 4 0 ++ body)
  s.closeHandle p.track

/-- A part without a decision sealed now (R255): `code` where no earlier row applies. -/
def sealUndecided (s : State) (p : Part) (code : Half) (late lost : Bool) (action : Option Nat) : State :=
  let (cls, st) := classOf (s.partRefused p) p.refusal (s.partFault p) none code
  s.sealPart p { cls, status := st, late, lost, action }

/-! ## Admission (R16, R249, R252) -/

/-- The verdict rate limit: a second of at most 1,000,000 records (R16); whether one more fits. What takes from it, and in
which order it stands with the slot limit, is the model's choice (DESIGN CHOICE, the assumption log, 135). -/
def rateTake (s : State) : State × Bool :=
  let v := if 1000000000 ≤ s.now - s.vu.rateFrom then { s.vu with rateFrom := s.now, rateCount := 0 } else s.vu
  if v.rateCount < 1000000 then ({ s with vu := { v with rateCount := v.rateCount + 1 } }, true) else ({ s with vu := v }, false)

/-- Unsealed slots of a lane. -/
def unsealed (s : State) (k : Nat) : Nat := (s.parts.filter (fun p => decide (p.lane = k) && !p.sealed && p.proxy.isNone)).length

/-- A part as admission enters it (R249, R257, R261). -/
def newPart (s : State) (k : Nat) (e : SubEntry) : Part :=
  let ax := s.bindAxis k
  let v := s.vlane k
  let pf := (s.linePos k e.firstBlock e.firstOff ax).getD 0
  let pl := s.linePos k e.lastBlock e.lastOff ax
  let (_, dl, maxLen) := s.blockPolicy k e.firstBlock
  let on := s.onOf k pf
  let off := s.offFrom k on (s.offOf k (pl.getD (along (s.bindDir k) pf (maxLen * 65536 : Nat))))
  { lane := k, slot := v.nextSlot, part := e.part, firstBlock := e.firstBlock, firstOff := e.firstOff,
    lastBlock := e.lastBlock, lastOff := e.lastOff, x0 := e.x0, x1 := e.x1, on, off,
    deadline := along (s.bindDir k) on (-((dl * 65536 : Nat) : Int)), admission := some e, offKnown := pl.isSome }

/-- ADMIT (R249): the next slot, and at the rate or slot limit a class 3 seal at once. The rate limit is asked first, and an
admission that the slot limit refuses has used up its share of the rate (DESIGN CHOICE, the assumption log, 135). -/
def admitPart (s : State) (k : Nat) (e : SubEntry) : State :=
  let p := s.newPart k e
  let (s, ok) := s.rateTake
  let code : Half := if ¬ ok then 0x3040#16 else if 8192 ≤ s.unsealed k then 0x3C02#16 else 0
  let p := { p with refusal := code }
  let v := s.vlane k
  let s := { s.setVlane k { v with nextSlot := v.nextSlot + 1 } with parts := s.parts ++ [p] }
  let s := s.forward k 1 p.slot p.on p.off p.deadline p.firstBlock []
  if code = 0 then s else s.sealUndecided p code false false none

/-- The part a DECIDE names (R251). -/
def namedPart (s : State) (k : Nat) (e : SubEntry) : Option Part :=
  s.parts.find? (fun p => decide (p.lane = k) && decide (p.firstBlock = e.firstBlock) && decide (p.part = e.part) && p.proxy.isNone)

/-- What the program gives a part: a track that stopped growing, or a candidate set over the recipe's maximum, gives class 2
and its code unless the class is 1 (R21, R199). Where both apply, the record carries the track's code (DESIGN CHOICE, the
assumption log, 136). -/
def progClass (p : Part) (e : SubEntry) : Nat × Half :=
  if e.cls = 1 then (1, e.status)
  else if p.early / 32 % 2 = 1 then (2, 0x3902#16)
  else if p.early / 64 % 2 = 1 then (2, 0x3903#16)
  else if p.early ≠ 0 ∨ e.status = 0x3050#16 then (2, e.status)
  else (e.cls, e.status)

/-- An unsealed part's deadline has been reached (R257): not in fault, nor while the unit does not run. -/
def deadlineReached (s : State) (k : Nat) (p : Part) : Bool :=
  !p.sealed && s.vuOn && !s.axisFault (s.bindAxis k) && beyond (s.bindDir k) (s.posAt (s.bindAxis k) s.time.t) p.deadline

/-- A part sealed at its deadline (R257). -/
def sealLate (s : State) (k : Nat) (p : Part) : State :=
  (s.sealUndecided p 0x4C01#16 true false none).raise 0x4C01#16 0x07 k 1 (leBytes 8 p.slot)

/-- A DECIDE as it finds its part (R252, R255, R257). -/
def decideNow (s : State) (k : Nat) (e : SubEntry) (m : Marks) : State :=
  match s.namedPart k e with
  | none => s
  | some p =>
    if p.sealed then
      if p.late ∧ p.decide = none then
        let late := timeliness (s.bindDir k) p.deadline (s.posAt (s.bindAxis k) s.time.t)
        (s.bump 0x280014 1).raise 0x4C01#16 0x07 k 1 (leBytes 8 p.slot ++ leBytes 4 e.cls ++ leBytes 4 (unsigned 32 late))
      else
        let s := s.bump 0x280018 1
        if p.decide = some e then s else s.raise 0x2C01#16 0x07 k 1 (leBytes 8 p.slot)
    else
      let same := p.lastBlock = e.lastBlock ∧ p.lastOff = e.lastOff
      let p := { p with lastBlock := e.lastBlock, lastOff := e.lastOff, x0 := e.x0, x1 := e.x1,
                        offKnown := p.offKnown && decide same }
      let (cls, st) := classOf (s.partRefused p) p.refusal (s.partFault p) (some (progClass p e)) 0
      s.sealPart p { cls, status := st, dec := some e, marks := m }

/-- DECIDE: one that arrives in the tick of its part's deadline, or later, finds the part sealed (R257). -/
def decidePart (s : State) (k : Nat) (e : SubEntry) (m : Marks) : State :=
  match s.namedPart k e with
  | none => s
  | some p => (if s.deadlineReached k p then s.sealLate k p else s).decideNow k e m

/-- One entry of a submission whose block's turn has come; an ADMIT that is repeated is ignored and counted (R252). -/
def takeEntry (s : State) (k : Nat) (m : Marks) (e : SubEntry) : State :=
  let s := if e.kind % 2 = 0 then s else if (s.namedPart k e).isSome then s.bump 0x280018 1 else s.admitPart k e
  if 2 ≤ e.kind then s.decidePart k e m else s

def takeEntries (s : State) (k : Nat) (m : Marks) : List SubEntry → State
  | [] => s
  | e :: r => takeEntries (s.takeEntry k m e) k m r

/-- An entry of a block that is closed: a repeated ADMIT is ignored and counted (R252), a DECIDE acts. -/
def lateEntry (s : State) (k : Nat) (m : Marks) (e : SubEntry) : State :=
  let s := if e.kind % 2 = 1 then s.bump 0x280018 1 else s
  if 2 ≤ e.kind then s.decidePart k e m else s

def lateEntries (s : State) (k : Nat) (m : Marks) : List SubEntry → State
  | [] => s
  | e :: r => lateEntries (s.lateEntry k m e) k m r

/-- The CLOSE message of a forwarded lane (R370): ON of the block's first line, OFF of its last. -/
def forwardClose (s : State) (k b : Nat) : State :=
  let ax := s.bindAxis k
  let on := s.onOf k ((s.linePos k b 0 ax).getD 0)
  let off := s.offFrom k on (s.offOf k ((s.linePos k b 15 ax).getD 0))
  s.forward k 3 0 on off 0 b []

/-- Admission for a block is complete (R249). -/
def closeBlock (s : State) (k b : Nat) : State :=
  (s.setVlane k { s.vlane k with closed := b + 1 }).forwardClose k b

/-- An area part of a block (R252): its whole width, class 2, RESET_LOST; class 3 over the verdict rate (R16). -/
def areaPart (s : State) (k b : Nat) (code : Half) : State :=
  let cols := s.sluiceCols k
  let e : SubEntry := { kind := 1, cls := 2, status := 0, part := 0, firstOff := 0, lastOff := 15, firstBlock := b, x0 := 0,
                        x1 := cols - 1, confidence := 0, lastBlock := b, defectsFound := 0, defects := [] }
  let (s, ok) := s.rateTake
  let p := { s.newPart k e with admission := none, refusal := if ok then 0 else 0x3040#16 }
  let v := s.vlane k
  let s := { s.setVlane k { v with nextSlot := v.nextSlot + 1 } with parts := s.parts ++ [p] }
  let s := (s.bump 0x28001C 1).forward k 1 p.slot p.on p.off p.deadline b []
  s.sealPart p (if ok then { cls := 2, status := code, lost := true } else { cls := 3, status := 0x3040#16, lost := true })

/-- Submissions that waited for a block take their turn. -/
def takeWaiting (s : State) (k b : Nat) : List (Submission × Marks) → State
  | [] => s
  | (u, m) :: r =>
    let s := if u.block = b then
        let s := s.takeEntries k m u.entries
        if u.close then s.closeBlock k b else s
      else s
    takeWaiting s k b r

/-- Blocks in turn: waiting submissions are taken, and a block left open when the block four above it has been submitted
closes with an area part (R252); `n` bounds the blocks. -/
def advanceLane (s : State) (k : Nat) : Nat → State
  | 0 => s
  | n + 1 =>
    let v := s.vlane k
    let b := v.closed
    let mine := v.waiting.filter (fun u => u.1.block = b)
    let s := (s.setVlane k { v with waiting := v.waiting.filter (fun u => u.1.block ≠ b) }).takeWaiting k b mine
    if (s.vlane k).closed ≠ b then advanceLane s k n
    else if b + 4 ≤ v.highest then
      let s := (s.areaPart k b 0x5C03#16).raise 0x4C03#16 0x07 k 1 (leBytes 6 b)
      advanceLane (s.closeBlock k b) k n
    else s

/-- A lane whose binding is enabled (R248): its slots start at 0, unless earlier ones are open or undelivered still (the
assumption log, 17). -/
def laneEnabled (s : State) (k : Nat) : State :=
  let v := { s.vlane k with started := false, closed := 0, highest := 0, waiting := [] }
  if s.unsealed k = 0 ∧ v.ready.isEmpty then
    { s.setVlane k { v with nextSlot := 0, nextOut := 0 } with parts := s.parts.filter (fun p => decide (p.lane ≠ k) || p.proxy.isSome) }
  else s.setVlane k v

/-! ## Submissions (R250, R251) -/

def entryValid (s : State) (k : Nat) (proving : Bool) (e : SubEntry) : Bool :=
  decide (1 ≤ e.kind) && decide (e.kind ≤ 3) && decide (e.cls ≤ 2) &&
  ([0x0000#16, 0x3050#16, 0x3902#16, 0x3903#16].contains e.status) &&
  decide (e.x0 ≤ e.x1) && decide (e.x1 < s.sluiceCols k) && decide (e.firstOff < 16) && decide (e.lastOff < 16) &&
  decide (16 * e.firstBlock + e.firstOff ≤ 16 * e.lastBlock + e.lastOff) &&
  (proving || decide (e.kind ≠ 2) || (s.namedPart k e).isSome)

/-- Whether a submission keeps the layout. -/
def submissionValid (s : State) (u : Submission) : Bool :=
  let k := if u.proving then (tget ({} : Proving) s.provings u.ctx).source else u.ctx
  decide (u.ctx < (if u.proving then 16 else 18)) && decide (u.entries.length ≤ 256) && decide (u.records.length ≤ 64) &&
  u.records.all (fun r => r.length = 80) && decide (u.names.length ≤ 64) &&
  u.names.all (fun i => decide (i = 0xFF) || decide (i < u.records.length)) && u.entries.all (s.entryValid k u.proving)

/-- The records a submission names, in order. -/
def namedRecords (u : Submission) : List (List Byte) := (u.names.filter (fun i => i ≠ 0xFF)).map (fun i => u.records.getD i [])

/-- A decision of a proving lane (R269, R270): class 5, action 2, to ring 58; a reject within the pattern before DL proves. -/
def provingEntry (s : State) (rule : Nat) (m : Marks) (e : SubEntry) : State :=
  if e.kind < 2 then s
  else
    let s := s.rateTake.1
    let g := tget {} s.provings rule
    let v := s.vlane (32 + rule)
    let p : Part := { s.newPart g.source e with lane := g.source, slot := v.nextSlot }
    let q : Sealing := { cls := 5, status := e.status, dec := some e, marks := m }
    let body := s.recordBody (0x100 + rule) p q 2 false
    let hit (r : ProveRun) : ProveRun :=
      let top := 16 * r.block + r.line
      let meet := decide (e.x0 ≤ r.col + g.pw - 1) && decide (r.col ≤ e.x1) &&
        decide (16 * e.firstBlock + e.firstOff ≤ top + g.ph - 1) && decide (top ≤ 16 * e.lastBlock + e.lastOff)
      let before := !beyond g.dir (s.posAt g.axis s.time.t) r.end_
      { r with proved := r.proved || (meet && before && decide (e.cls = 1)) }
    let s := (s.setVlane (32 + rule) { v with nextSlot := v.nextSlot + 1 }).bump 0x280010 1
    ({ s with provings := tset {} s.provings rule { g with runs := g.runs.map hit } }).deliver 18 body

def provingEntries (s : State) (rule : Nat) (m : Marks) : List SubEntry → State
  | [] => s
  | e :: r => provingEntries (s.provingEntry rule m e) rule m r

/-- A lane's first block after its binding was enabled: the first one handed on or submitted (the assumption log, 17). -/
def startLane (s : State) (k b : Nat) : State :=
  let v := s.vlane k
  if s.bindOn k ∧ ¬ v.started then s.setVlane k { v with started := true, closed := b } else s

/-- VERDICT_SUBMISSION (R250): valid, it is taken in its turn; one for block b + 4 or beyond closes block b (R252). A unit
that does not run takes none. -/
def submit (s : State) (u : Submission) (m : Marks) : State :=
  let m := { m with deep := u.deep, records := namedRecords u }
  if u.proving then s.provingEntries u.ctx m u.entries
  else
    let k := u.ctx
    if ¬ s.bindOn k ∨ ¬ s.vuOn then s
    else
      let s := s.startLane k u.block
      let v := s.vlane k
      let v := { v with highest := max v.highest u.block }
      let adm := u.entries.any (fun e => e.kind % 2 = 1) || u.close
      if ¬ adm then ((s.setVlane k v).advanceLane k (v.highest + 2 - v.closed)).takeEntries k m u.entries
      else if u.block < v.closed then (s.setVlane k v).lateEntries k m u.entries
      else
        (s.setVlane k { v with waiting := v.waiting ++ [(u, m)] }).advanceLane k (v.highest + 2 - v.closed)

/-- DEADLINE (R257): an unsealed part is sealed in the first tick in which its axis is at or beyond its deadline. -/
def deadlineEff (s : State) (k slot : Nat) : State :=
  match s.findPart k slot with
  | none => s
  | some p =>
    if s.deadlineReached k p then s.sealLate k p else s

end State

end Sys2Proof.Machine
end

