-- ==== Sys2Proof/Machine/Sluice.lean ====
section
/-! DEFINITION. The Sluices: placing data, stamps, missing data, concealment, the lane tracker, handing line blocks on,
and the parallel ports (R71 to R90). -/

namespace Sys2Proof.Machine

/-! ## Received ranges -/

/-- A range added to disjoint ranges in ascending order. -/
def addRange (a b : Nat) : List (Nat × Nat) → List (Nat × Nat)
  | [] => [(a, b)]
  | (c, d) :: r =>
    if b < c then (a, b) :: (c, d) :: r
    else if d < a then (c, d) :: addRange a b r
    else addRange (min a c) (max b d) r

def coversRange (l : List (Nat × Nat)) (a b : Nat) : Bool := l.any (fun p => decide (p.1 ≤ a) && decide (b ≤ p.2))

/-- The gaps of disjoint ascending ranges below n, from a place. -/
def gapsFrom (n : Nat) : Nat → List (Nat × Nat) → List (Nat × Nat)
  | a, [] => if a < n then [(a, n)] else []
  | a, (c, d) :: r => (if a < c then [(a, c)] else []) ++ gapsFrom n d r

namespace State

def sOff (k : Nat) : Nat := 0x240000 + 0x100 * k
def shape (s : State) (k : Nat) : Shape :=
  { cols := s.fld (sOff k) 8 0 * 64, chan := s.fld (sOff k) 18 17, sample := s.fld (sOff k) 20 19 }
def inline_ (s : State) (k : Nat) : Bool := s.flag (sOff k) 27
def holdNs (s : State) (k : Nat) : Nat := s.fld (sOff k + 0x14) 15 0 * 1000
def ringBlocks (s : State) (k : Nat) : Nat := s.fld (sOff k + 0x14) 23 16

/-- A stamp taken now (R75): for an axis off, in fault or with POS_SUSPECT the held position, and its bit. -/
def ownStamp (s : State) : LineStamp :=
  let bad (n : Nat) : Bool := !s.encCounts n || s.axisFault n || s.flag (encStat n) 6
  { t := s.time.t / 2 ^ 32, epoch := s.time.epoch.toNat,
    pos := (List.range 4).map (fun n => if bad n then withFraction (s.axis n).pos false 0 else s.posAt n s.time.t),
    suspect := (List.range 4).foldl (fun (m : BitVec 4) n => if bad n then m ||| BitVec.ofNat 4 (2 ^ n) else m) 0 }

/-! ## Open blocks (R79) -/

def emptyBlock (b : Nat) : OpenBlock := { b, lines := List.replicate 16 {} }

/-- The open blocks up to b, each block between given its place; the first after a break carries it. -/
def ensureBlocks (c : Sluice) (b : Nat) : Nat → Sluice
  | 0 => c
  | n + 1 =>
    let nb := c.next + c.blocks.length
    if b < nb then c
    else
      let x := emptyBlock nb
      let x := if c.brkNext then { x with lines := modifyAt (fun l => { l with breakBefore := true }) x.lines 0 } else x
      ensureBlocks { c with blocks := c.blocks ++ [x], brkNext := false } b n

/-- A line of a block replaced. -/
def modLine (f : Line → Line) (n : Nat) (c : Sluice) : Sluice :=
  { c with blocks := modifyAt (fun (x : OpenBlock) => { x with lines := modifyAt f x.lines (n % 16) }) c.blocks (n / 16 - c.next) }

def getLine (c : Sluice) (n : Nat) : Line :=
  match c.blocks[n / 16 - c.next]? with
  | none => {}
  | some x => x.lines.getD (n % 16) {}

/-- A line whose data is all there, or whose absent data is declared missing. -/
def resolved (bytes : Nat) (l : Line) : Bool := l.missing || coversRange l.got 0 bytes

/-- Absent data of lines declared missing where `due` says so. -/
def declare (bytes : Nat) (due : Line → Bool) (c : Sluice) : Sluice :=
  { c with blocks := c.blocks.map (fun (x : OpenBlock) => { x with lines := x.lines.map (fun (l : Line) =>
      if !resolved bytes l && due l then { l with missing := true } else l) }) }

/-- The hold begins for every open line before one whose first datum has come (R80). -/
def beginHold (now n : Nat) (c : Sluice) : Sluice :=
  { c with blocks := c.blocks.map (fun (x : OpenBlock) => { x with lines := x.lines.zipIdx.map (fun (l : Line × Nat) =>
      if 16 * x.b + l.2 < n ∧ l.1.laterAt = none then { l.1 with laterAt := some now } else l.1) }) }

/-- Whether a line's hold has passed. -/
def expired (s : State) (k : Nat) (l : Line) : Bool :=
  match l.laterAt with | none => false | some t => decide (t + s.holdNs k ≤ s.now)

/-! ## Stamps by interpolation (R75) -/

/-- Linear in the line number through (na, a) and (nb, b), na < nb; the result is rounded half to even. -/
def linStamp (a b : LineStamp) (na nb n : Nat) : LineStamp :=
  let q : Int := (n : Int) - na
  let d : Nat := nb - na
  { t := (divRne ((a.t : Int) * d + ((b.t : Int) - a.t) * q) d).toNat, epoch := b.epoch,
    pos := List.zipWith (fun x y => BitVec.ofInt 64 (divRne ((x.toNat : Int) * d + fineDiff y x * q) d)) a.pos b.pos,
    suspect := a.suspect ||| b.suspect }

/-- The stamp of a line without its own: its nearest earlier stamped lines, newest first, and its nearest later. -/
def formStamp (s : State) (n : Nat) (earlier : List (Nat × LineStamp)) (later : Option (Nat × LineStamp)) : LineStamp :=
  match earlier, later with
  | (na, a) :: _, some (nb, b) => if a.epoch = b.epoch then linStamp a b na nb n else b
  | (na, a) :: (nz, z) :: _, none => if a.epoch = z.epoch then linStamp z a nz na n else a
  | (_, a) :: [], none => a
  | [], some (_, b) => b
  | [], none => s.ownStamp

/-! ## Missing data (R84, R85) -/

/-- Bytes of the unit whose columns are missing together: a sample, or a pixel of interleaved channels. -/
def unitBytes (h : Shape) : Nat := if h.chan = 2 then 3 * h.bytes else h.bytes

/-- The gaps of a line widened to whole columns. -/
def columnGaps (h : Shape) (l : Line) : List (Nat × Nat) :=
  let u := unitBytes h
  (gapsFrom h.lineBytes 0 l.got).map (fun (g : Nat × Nat) => (g.1 / u * u, (g.2 + u - 1) / u * u))

/-- First and last missing column of a gap. -/
def gapColumns (h : Shape) (g : Nat × Nat) : Nat × Nat :=
  let u := unitBytes h
  let row := if h.chan = 1 then h.cols * h.bytes else h.lineBytes
  if g.1 / row = (g.2 - 1) / row then (g.1 % row / u, (g.2 - 1) % row / u) else (0, h.cols - 1)

def missingColumns (h : Shape) (gs : List (Nat × Nat)) : Nat × Nat :=
  gs.foldl (fun (a : Nat × Nat) g =>
    let c := gapColumns h g
    if a.1 = 0xFFFF then c else (min a.1 c.1, max a.2 c.2)) (0xFFFF, 0xFFFF)

/-- Missing columns filled from a line, or with 0. -/
def fillGaps (from_ : Option Mem) (d : Mem) : List (Nat × Nat) → Mem
  | [] => d
  | (a, b) :: r =>
    fillGaps from_ (writeBytes d a (match from_ with | some m => readBytes m a (b - a) | none => List.replicate (b - a) 0)) r

/-- The run of missing lines that leads a list, up to a break. -/
def leadingMissing : List Line → Nat
  | [] => 0
  | l :: r => if l.missing && !l.breakBefore then leadingMissing r + 1 else 0

/-- What handing on carries from line to line: the missing run that ends here, whether a valid line precedes it, the last
valid line, the newest own stamps, and the lines handed on. -/
structure HandFold where
  missRun : Nat
  validBefore : Bool
  lastValid : Option Mem
  stamps : List (Nat × LineStamp)
  out : List LineOut
  deriving DecidableEq, Repr

/-- The nearest own stamp among lines that follow, up to a break. -/
def laterStamp (n : Nat) : List Line → Option (Nat × LineStamp)
  | [] => none
  | l :: r => if l.breakBefore then none else match l.stamp with | some x => some (n, x) | none => laterStamp (n + 1) r

/-- One line handed on; `rest` are the open lines after it. Its status is the code of what happened to it, before the code
of its missing data (DESIGN CHOICE, the assumption log, 126). -/
def handLine (s : State) (k : Nat) (refused : Bool) (n : Nat) (l : Line) (rest : List Line) (a : HandFold) : HandFold :=
  let h := s.shape k
  let a := if l.breakBefore then { a with missRun := 0, validBefore := false, stamps := [] } else a
  let (st, interp) : LineStamp × Bool := match l.stamp with
    | some x => (x, false)
    | none => (s.formStamp n a.stamps (laterStamp (n + 1) rest), true)
  let stamps := match l.stamp with | some x => ((n, x) :: a.stamps).take 2 | none => a.stamps
  if l.missing then
    let run := a.missRun + 1
    let total := run + leadingMissing rest
    let conceal := a.validBefore && decide (total ≤ s.fld (sOff k) 16 13)
    let gs := columnGaps h l
    let cols := missingColumns h gs
    let status : Half := if refused then 0x3401#16 else if l.status ≠ 0 then l.status else if conceal then 0x2401#16 else 0x2402#16
    { a with
      missRun := run, stamps
      out := a.out ++ [({ n, data := fillGaps a.lastValid l.data gs, stamp := st, missing := true, concealed := conceal,
                          fault := !conceal, interp, breakBefore := l.breakBefore, refused, firstCol := cols.1,
                          lastCol := cols.2, status } : LineOut)] }
  else
    { missRun := 0, validBefore := true, lastValid := some l.data, stamps
      out := a.out ++ [({ n, data := l.data, stamp := st, interp, breakBefore := l.breakBefore, refused,
                          status := if refused then 0x3401#16 else l.status } : LineOut)] }

def handLines (s : State) (k : Nat) (refused : Bool) (after : List Line) : Nat → List Line → HandFold → HandFold
  | _, [], a => a
  | n, l :: r, a => handLines s k refused after (n + 1) r (s.handLine k refused n l (r ++ after) a)

/-! ## The lane tracker (R88, R89) -/

/-- Whether a group of a line is occupied. -/
def groupOccupied (s : State) (k : Nat) (h : Shape) (d : Mem) (g : Nat) : Bool :=
  let t := s.reg (sOff k + 0x1C)
  let j := if h.chan = 0 then 0 else 1
  let fg := (List.range 64).filter (fun i =>
    let v : Int := h.sampleOf d j (64 * g + i) / 2 ^ (h.bits - 8)
    decide (bits t 15 8 < (v - (bits t 7 0 : Nat)).natAbs))
  decide (bits t 23 16 ≤ fg.length)

/-- The occupied groups of a block. -/
def occupiedMask (s : State) (k : Nat) (lines : List LineOut) : BitVec 256 :=
  let h := s.shape k
  BitVec.ofNat 256 (((List.range (h.cols / 64)).filter (fun g =>
    lines.any (fun l => !l.missing && s.groupOccupied k h l.data g))).map (fun g => 2 ^ g)).sum

/-- The ROI mask from the occupied groups of blocks b − KEEP to b. -/
def roiMask (s : State) (k : Nat) (occ : List (BitVec 256)) : BitVec 256 :=
  let t := s.reg (sOff k + 0x1C)
  let m := bits t 31 28
  let any := (occ.take (bits t 27 24 + 1)).foldl (fun a x => a ||| x) 0
  BitVec.ofNat 256 (((List.range (s.fld (sOff k) 8 0)).filter (fun g =>
    (List.range (2 * m + 1)).any (fun i => decide (m ≤ g + i) && any.getLsbD (g + i - m)))).map (fun g => 2 ^ g)).sum

/-! ## Handing a block on (R73, R84 to R87) -/

/-- The slot that holds a context, as 4 × pipe + slot. -/
def slotOf (s : State) (k : Nat) : Option Nat := (List.range 16).find? (fun i => (s.slot i).ctx = some k)

/-- RING_WARN (R87): set past 75 % with 0x4401 once per onset, cleared below 50 %. -/
def ringWarn (s : State) (k : Nat) : State :=
  let c := s.sluice k
  let n := c.held.length
  let rb := s.ringBlocks k
  if !c.warn && decide (3 * rb < 4 * n) then (s.setSluice k { c with warn := true }).raiseNow 0x4401#16 0x03 k
  else if c.warn && decide (2 * n < rb) then s.setSluice k { c with warn := false }
  else s

/-- How far a slot's alignment reads: the larger reach while a loaded swap is pending (R105). -/
def slotReach (x : Slot) : Nat :=
  if x.pending && x.loaded then max (psReach x.active) (psReach x.shadow) else psReach x.active

/-- The first block after b, and no later than `need`, that begins past a stream break, as far as is known. -/
def breakAfter (s : State) (k b need : Nat) : Option Nat :=
  let c := s.sluice k
  let done := (s.records.filter (fun r => decide (r.block.ctx = k) && r.block.brk && decide (b < r.block.b) &&
    decide (r.block.b ≤ need))).map (·.block.b)
  let open_ := (c.blocks.filter (fun o => o.lines.any (·.breakBefore))).map (·.b)
  let next := if c.brkNext then [c.next + c.blocks.length] else []
  (done ++ (open_ ++ next).filter (fun n => decide (b < n) && decide (n ≤ need))).foldl (fun (a : Option Nat) n =>
    match a with | none => some n | some m => some (min m n)) none

/-- The last block whose aligned lines read lines of block b under a reach: none past a stream break (R96, R105). -/
def lastReader (s : State) (k b reach : Nat) : Nat :=
  let need := (16 * b + 15 + reach) / 16
  match s.breakAfter k b need with | some n => n - 1 | none => need

/-- The blocks in a context's ring that no alignment reads any more are released (R105): the last block that reads them
has been started. -/
def releaseBlocks (s : State) (k : Nat) : State :=
  match s.slotOf k with
  | none => s
  | some i =>
    let x := s.slot i
    let c := s.sluice k
    (s.setSluice k { c with held := c.held.filter (fun n => decide (x.started ≤ s.lastReader k n (slotReach x))) }).ringWarn k

/-- The payload of 0x2401 and 0x2402 (R86): context, first and last line and column, stamp of the first line. -/
def missPayload (k : Nat) (ls : List LineOut) : List Byte :=
  match ls with
  | [] => []
  | l :: _ =>
    let z := ls.getLastD l
    let c0 := ls.foldl (fun a x => min a x.firstCol) l.firstCol
    let c1 := ls.foldl (fun a x => max a x.lastCol) l.lastCol
    leBytes 1 k ++ leBytes 6 l.n ++ leBytes 6 z.n ++ leBytes 2 c0 ++ leBytes 2 c1 ++
    leBytes 6 (l.stamp.t / 65536 / 1000000000) ++ leBytes 4 (l.stamp.t / 65536 % 1000000000) ++ leBytes 2 (l.stamp.t % 65536)

/-- Counts and reports of a block's missing lines (R86). -/
def missReport (s : State) (k : Nat) (out : List LineOut) : State :=
  let con := out.filter (·.concealed)
  let flt := out.filter (·.fault)
  let s := if con.isEmpty ∧ flt.isEmpty then s else s.bump (sOff k + 0x28) (con.length + flt.length)
  let s := if con.isEmpty then s else (s.bump (sOff k + 0x2C) con.length).raiseNow 0x2401#16 0x03 k (missPayload k con)
  if flt.isEmpty then s else (s.bump (sOff k + 0x30) flt.length).raiseNow 0x2402#16 0x03 k (missPayload k flt)

/-- A block without its lines' data. -/
def stripBlock (x : LineBlock) : LineBlock := { x with lines := x.lines.map (fun (l : LineOut) => { l with data := [] }) }

/-- The raw lines of a block in the memory-mode ring (R87). -/
def ringWrite (s : State) (k b : Nat) (lines : List LineOut) : State :=
  let lb := (s.shape k).lineBytes
  let base := (s.sluice k).ringBase + b % s.ringBlocks k * (16 * lb)
  { s with bonded := lines.zipIdx.foldl (fun m (l : LineOut × Nat) => writeBytes m (base + l.2 * lb) (readBytes l.1.data 0 lb)) s.bonded }

/-- The compute domain is out of service (R416). -/
def computeOff (s : State) : Bool := s.vig.outOfService

/-- The oldest open block handed on with its record (R73): stamps formed, runs judged, refused at a full ring, masked,
and given to its pipe's slot. -/
def handOff (s : State) (k : Nat) : State :=
  let c := s.sluice k
  match c.blocks with
  | [] => s
  | x :: rest =>
    let inl := s.inline_ k
    let refused := !inl && decide (s.ringBlocks k ≤ c.held.length)
    let f := s.handLines k refused (rest.flatMap (·.lines)) (16 * x.b) x.lines
      ⟨c.missRun, c.validBefore, c.lastValid, c.stamps, []⟩
    let brk := x.lines.any (·.breakBefore)
    let trk := s.flag (sOff k) 12
    let occ := if trk then (s.occupiedMask k f.out :: c.occupied).take 16 else []
    let status : Half := if refused then 0x3401#16 else if f.out.any (·.fault) then 0x2402#16
      else if f.out.any (·.concealed) then 0x2401#16 else (f.out.map (·.status)).foldl (fun a y => if a = 0 then y else a) 0
    let blk : LineBlock := { ctx := k, b := x.b, refused, brk, track := trk, width := s.fld (sOff k) 8 0, status,
                             mask := if trk then s.roiMask k occ else BitVec.allOnes 256, lines := f.out }
    let s := s.setSluice k { c with
      blocks := rest, next := x.b + 1, missRun := f.missRun, validBefore := f.validBefore, lastValid := f.lastValid
      stamps := f.stamps, occupied := occ, held := if inl || refused then c.held else c.held ++ [x.b] }
    let s := s.missReport k f.out
    let s := if refused then (s.bump (sOff k + 0x34) 1).raiseNow 0x3401#16 0x03 k (leBytes 6 x.b) else s
    let s := if inl || refused then s else (s.ringWrite k x.b f.out).ringWarn k
    let s := { s with records := ({ block := stripBlock blk } : BlockRec) :: s.records }
    let s := match s.slotOf k with
      | some i => s.setSlot i { s.slot i with queue := (s.slot i).queue ++ [blk] }
      | none => s
    let s := s.startLane k x.b
    if s.computeOff && s.bindOn k then (s.areaPart k x.b 0x5067#16).closeBlock k x.b else s

/-- LINE_BLOCK_HANDOFF (R73): the oldest block, once all its lines are resolved. -/
def lineBlockHandoffEff (s : State) (k : Nat) : State :=
  let c := s.sluice k
  match c.blocks with
  | [] => s
  | x :: _ => if c.run && x.lines.all (resolved (s.shape k).lineBytes) then s.handOff k else s

/-- The oldest open block closed at once, its absent data declared missing, and handed on (R79). -/
def forceClose (s : State) (k : Nat) : State :=
  let c := ensureBlocks (s.sluice k) (s.sluice k).next 1
  let c := match c.blocks with
    | [] => c
    | x :: r =>
      let y := (declare (s.shape k).lineBytes (fun _ => true) { c with blocks := [x] }).blocks
      { c with blocks := y ++ r }
  (s.setSluice k c).handOff k

/-- Blocks forced closed until block b is among the four open; `n` bounds them. -/
def makeRoom (s : State) (k b : Nat) : Nat → State
  | 0 => s
  | n + 1 => if (s.sluice k).next + 3 < b then makeRoom (s.forceClose k) k b n else s

/-- DATUM_PLACE (R79, R80): bytes of line n from an offset. -/
def placeDatum (s : State) (k n off : Nat) (data : List Byte) (resent : Bool) : State :=
  let c := s.sluice k
  let lb := (s.shape k).lineBytes
  let data := data.take (lb - off)
  let late (s : State) : State := (s.bump (sOff k + 0x3C) 1).raiseNow 0x2403#16 0x03 k (leBytes 6 n)
  if data.isEmpty then s
  else if n / 16 < c.next then late s
  else
    let l := getLine c n
    if coversRange l.got off (off + data.length) then s.bump (sOff k + 0x38) 1
    else if l.missing || s.expired k l then late s
    else
      let s := s.makeRoom k (n / 16) (n / 16 - 3 - c.next)
      let c := ensureBlocks (s.sluice k) (n / 16) 8
      let l := getLine c n
      let first := l.got.isEmpty
      let own := decide (off = 0) && !resent && decide (c.expect ≤ n + 1) && l.stamp.isNone
      let c := modLine (fun l => { l with
        got := addRange off (off + data.length) l.got, data := writeBytes l.data off data
        stamp := if own then some s.ownStamp else l.stamp }) n c
      let c := if first then beginHold s.now n c else c
      let s := s.setSluice k { c with expect := max c.expect (n + 1) }
      if first then s.bump (sOff k + 0x24) 1 else s

/-- Bytes of a stream from an offset within lines: a datum for each line they meet; `fuel` bounds the lines. -/
def placeRun (s : State) (k n off : Nat) (resent : Bool) : Nat → List Byte → State
  | 0, _ => s
  | f + 1, data =>
    let lb := (s.shape k).lineBytes
    if data.isEmpty then s
    else placeRun (s.placeDatum k n off (data.take (lb - off)) resent) k (n + 1) 0 resent f (data.drop (lb - off))

/-- The rows of a track whose line blocks are complete where its segment ends before block b; whether a row is left incomplete
(R199). -/
def rowsBefore (t : Track) (b : Nat) : Nat × Bool := ((b - t.b0) / max 1 t.th, decide (t.b0 < b) && decide ((b - t.b0) % max 1 t.th ≠ 0))

/-- Open tracks that stop growing at a break before block b: those of which a row is left incomplete (R199). -/
def breakTracks (s : State) (b : Nat) : List Nat → State
  | [] => s
  | n :: r =>
    let t := s.track n
    let (rows, left) := rowsBefore t b
    breakTracks (if left ∧ t.rows.isNone then (s.putTrack n { t with broken := true, rows := some rows }).markParts t.handle 7 else s) b r

/-- STREAM_BREAK (R83): every open block closes with its absent data missing, and the next line carries BREAK_BEFORE.
Rows of tracks whose blocks are not complete are not formed (R199). -/
def streamBreak (s : State) (k : Nat) : State :=
  let c := declare (s.shape k).lineBytes (fun _ => true) (s.sluice k)
  let base := 16 * (c.next + c.blocks.length)
  let s := s.setSluice k { c with brkNext := true, brk := true, firstId := none, lineBase := base, expect := base }
  let s := s.releaseBlocks k
  let mine := (s.tracks.filter (fun (p : Nat × Track) => decide (p.2.state = 1) && decide (p.2.ctx = k))).map (fun (p : Nat × Track) => p.1)
  s.breakTracks (base / 16) mine

/-- HOLD_EXPIRY (R80): absent data of lines whose hold has passed is declared missing. -/
def holdExpiryEff (s : State) (k : Nat) : State :=
  if (s.sluice k).run then s.setSluice k (declare (s.shape k).lineBytes (s.expired k) (s.sluice k)) else s

/-! ## Parallel ports (R82, R83) -/

/-- Pixels a port takes on each clock (`PARp_CFG.PIX`). -/
def parPixels (s : State) (p : Nat) : Nat :=
  match s.fld (0x242000 + 0x40 * p) 2 0 with | 0 => 1 | 1 => 2 | 2 => 3 | 3 => 1 | _ => 2

/-- The samples of a line on a parallel port: `clocks` valid clocks of it. Its stamp is that of its first pixel, where it
has one (R45, R75). -/
def parallelData (s : State) (p clocks : Nat) (data : List Byte) (status : Half) : State :=
  let k := 16 + p
  let h := s.shape k
  let got := min (clocks * s.parPixels p) (h.cols * h.chans) * h.bytes
  let n := (s.sluice k).expect
  let s := s.makeRoom k (n / 16) (n / 16 - 3 - (s.sluice k).next)
  let c := ensureBlocks (s.sluice k) (n / 16) 8
  let c := modLine (fun l => { l with
    got := if got = 0 then [] else [(0, got)], data := writeBytes [] 0 (padTo got (data.take got))
    stamp := if got = 0 then none else some s.ownStamp, missing := decide (got < h.lineBytes), status }) n c
  let s := s.setSluice k { c with expect := n + 1 }
  if got = 0 then s else s.bump (sOff k + 0x24) 1

/-- Clocks that a line of a parallel port takes. -/
def parallelNeed (s : State) (p : Nat) : Nat :=
  let h := s.shape (16 + p)
  (h.cols * h.chans + s.parPixels p - 1) / s.parPixels p

/-- PARALLEL_LINE (R82): one LVAL-qualified line of `clocks` valid clocks. -/
def parallelLineEff (s : State) (p clocks : Nat) (data : List Byte) : State :=
  let k := 16 + p
  let c := s.sluice k
  let short : Bool := decide (clocks ≠ s.parallelNeed p)
  if ¬ c.run ∨ c.clkLost then s
  else
    let s := s.parallelData p clocks data (if short then 0x2405#16 else 0)
    if short then (s.bump (sOff k + 0x44) 1).raiseNow 0x2405#16 0x03 k (leBytes 6 c.expect) else s

/-- PIXEL_CLOCK_LOST (R83): the line in progress closes with its remaining columns missing; a stream break, CLK_LOST, BREAK,
0x5401. -/
def pixelClockLostEff (s : State) (p clocks : Nat) (data : List Byte) : State :=
  let k := 16 + p
  let c := s.sluice k
  if c.clkLost then s
  else
    let s := { s with pars := tset {} s.pars p { kHz := 0 } }
    let s := if c.run ∧ 0 < clocks then s.parallelData p clocks data 0 else s
    let s := if c.run then s.streamBreak k else s
    let c := s.sluice k
    (s.setSluice k { c with clkLost := true, brk := true }).raiseNow 0x5401#16 0x03 k

/-- PIXEL_CLOCK_RESUME (R83): the clock has run for 1 µs without a gap. -/
def pixelClockResumeEff (s : State) (p : Nat) (kHz : Word) : State :=
  let k := 16 + p
  let s := { s with pars := tset {} s.pars p { kHz } }
  s.setSluice k { s.sluice k with clkLost := false }

end State

/-! ## Meanings -/

def execHoldExpiry (k : Fin 18) (s : State) : Host.Outcome State Fault Refusal := .next (s.holdExpiryEff k)
def execParallelLine (p : Fin 2) (clocks : Nat) (data : List Byte) (s : State) : Host.Outcome State Fault Refusal :=
  .next (s.parallelLineEff p clocks data)
def execPixelClockLost (p : ClockLoss) (s : State) : Host.Outcome State Fault Refusal :=
  .next (s.pixelClockLostEff p.input p.clocks p.data)
def execPixelClockResume (p : Fin 2) (kHz : Word) (s : State) : Host.Outcome State Fault Refusal := .next (s.pixelClockResumeEff p kHz)
def execLineBlockHandoff (k : Fin 18) (s : State) : Host.Outcome State Fault Refusal := .next (s.lineBlockHandoffEff k)

end Sys2Proof.Machine
end

