-- ==== Sys2Proof/Machine/Rewind.lean ====
section
/-! DEFINITION. The line block record as bytes (R76), the rewind buffer and its index (R296 to R300), and the archive of
rejects (R301 to R304). -/

namespace Sys2Proof.Machine

/-- A line entry of a line block record (R76). -/
def lineEntryBytes (l : LineOut) : List Byte :=
  let f (b : Nat) (x : Bool) : Nat := if x then 2 ^ b else 0
  let flags := f 0 l.missing + f 1 l.concealed + f 2 l.fault + f 3 l.interp + f 4 l.breakBefore + f 5 l.refused +
    l.stamp.suspect.toNat * 256
  leBytes 6 l.n ++ leBytes 2 flags ++ leBytes 6 (l.stamp.t / 65536 / 1000000000) ++ leBytes 2 0 ++
  leBytes 4 (l.stamp.t / 65536 % 1000000000) ++ leBytes 2 (l.stamp.t % 65536) ++ leBytes 2 0 ++
  (l.stamp.pos.take 4).flatMap (fun p => leBytes 6 (p.toNat / 65536) ++ leBytes 2 (p.toNat % 65536)) ++
  leBytes 2 l.firstCol ++ leBytes 2 l.lastCol ++ leBytes 2 l.status.toNat ++ leBytes 2 0

/-- A line block record, 1,088 bytes (R76). -/
def blockRecordBytes (x : LineBlock) : List Byte :=
  let f (b : Nat) (y : Bool) : Nat := if y then 2 ^ b else 0
  leBytes 2 x.ctx ++
  leBytes 2 (f 0 (x.lines.any (·.concealed)) + f 1 (x.lines.any (·.fault)) + f 2 x.refused + f 3 x.brk + f 4 x.track) ++
  leBytes 6 x.b ++ leBytes 2 x.width ++ leBytes 2 x.status.toNat ++ leBytes 2 0 ++ leBytes 32 x.mask.toNat ++
  leBytes 16 0 ++ x.lines.flatMap lineEntryBytes

/-- Bytes written into a ring from a position, wrapping at its size. -/
def writeRing (m : Mem) (base size pos : Nat) (bs : List Byte) : Mem :=
  let room := size - pos % size
  writeBytes (writeBytes m (base + pos % size) (bs.take room)) base (bs.drop room)

/-- Bytes read from a ring. -/
def readRing (m : Mem) (base size pos n : Nat) : List Byte :=
  let room := size - pos % size
  readBytes m (base + pos % size) (min n room) ++ readBytes m base (n - room)

namespace State

/-! ## The rewind buffer -/

def rewOn (s : State) : Bool := s.flag 0x2A0000 31

/-- The index entry of a block (R297). -/
def indexEntry (s : State) (x : LineBlock) (len gen : Nat) (digest recipe : List Byte) : List Byte :=
  let k := x.ctx
  let h := s.shape k
  leBytes 8 s.rewind.ipos ++ leBytes 8 s.rewind.wpos ++ leBytes 4 len ++ leBytes 2 gen ++
  leBytes 1 ((if x.refused then 1 else 0) + (if s.inline_ k then 2 else 0)) ++ leBytes 1 (h.sample + 4 * h.chan) ++
  leBytes 8 (if tget 0 s.rewind.last k = 0 then 2 ^ 64 - 1 else tget 0 s.rewind.last k - 1) ++
  padTo 32 digest ++ padTo 32 recipe ++ leBytes 32 0 ++ blockRecordBytes x

/-- A block's data and index entry written (R296 to R298): a refused block writes no data. -/
def rewindWrite (s : State) (x : LineBlock) (set : Mem) (gen : Nat) (digest recipe : List Byte) : State :=
  if s.rewOn ∧ s.fld 0x2A0000 17 0 / 2 ^ x.ctx % 2 = 1 then
    let h := s.shape x.ctx
    let data := if x.refused then [] else x.lines.flatMap (fun (l : LineOut) => rewindLine set h l.data)
    let padded := (data.length + 4095) / 4096 * 4096
    let e := s.rewind.ipos
    let entry := s.indexEntry x data.length gen digest recipe
    let m := writeRing s.bonded s.rewBase s.rewBytes s.rewind.wpos (padTo padded data)
    { s with
      bonded := writeBytes m (s.idxBase + e % s.idxCount * 1216) entry
      rewind := { wpos := s.rewind.wpos + padded, ipos := e + 1, last := tset 0 s.rewind.last x.ctx (e + 1) } }
  else s

/-- The index entry e as it stands in its slot. -/
def entryAt (s : State) (e : Nat) : List Byte := readBytes s.bonded (s.idxBase + e % s.idxCount * 1216) 1216

/-- A field of an entry. -/
def entryField (ent : List Byte) (off n : Nat) : Nat := leNat ((ent.drop off).take n)

/-- An entry that holds under R299: its own slot, its data not overwritten. -/
def entryHolds (s : State) (e : Nat) (ent : List Byte) : Bool :=
  decide (e < s.rewind.ipos) && decide (entryField ent 0 8 = e) &&
  decide (s.rewind.wpos ≤ entryField ent 8 8 + s.rewBytes) && decide (s.rewind.ipos - e < s.idxCount)

/-- The newest entry of a context's block b, back along the chain of its entries; `fuel` bounds the steps. -/
def findEntry (s : State) (k b : Nat) : Nat → Nat → Option (Nat × List Byte)
  | 0, _ => none
  | f + 1, e =>
    let ent := s.entryAt e
    if ¬ s.entryHolds e ent then none
    else if entryField ent 0x84 6 = b then some (e, ent)
    else
      let p := entryField ent 0x18 8
      if p < e then findEntry s k b f p else none

/-- READ_BLOCK of R299 by context and block: the entry and its data. -/
def readBlock (s : State) (k b : Nat) : Option (List Byte × List Byte) :=
  if tget 0 s.rewind.last k = 0 then none
  else (s.findEntry k b s.idxCount (tget 0 s.rewind.last k - 1)).map (fun p =>
    (p.2, readRing s.bonded s.rewBase s.rewBytes (entryField p.2 8 8) (entryField p.2 0x10 4)))

/-- What a write of the rewind registers would change beside EN (R300). -/
def rewindWriteIgnored (s : State) (off : Nat) (v : Word) : Bool :=
  let w := s.wouldBe off v
  if off = 0x2A0000 then decide (putBits w 31 31 0 ≠ putBits (s.reg off) 31 31 0) else decide (w ≠ s.reg off)

/-- A write ignored and reported (R300). -/
def ignoreWrite (s : State) (code : Half) (kind inst off : Nat) (v : Word) : State :=
  (s.report code 3 off 31 0 v.toNat (s.reg off).toNat).last code kind inst

/-- A write of `REW_CFG` (R296, R300): EN rising checks the two rings, the index against the ring that has passed; while EN is 1, no other field may change. -/
def rewCfgWrite (s : State) (v : Word) : State :=
  if s.rewOn then
    if s.rewindWriteIgnored 0x2A0000 v then s.ignoreWrite 0x1E01#16 0x09 0x71 0x2A0000 v
    else s.writeFields 0x2A0000 0x09 0x71 v
  else
    let s1 := s.writeFields 0x2A0000 0x09 0x71 v
    if s1.rewOn then
      let none_ := s1.setFld 0x2A0000 31 31 0
      let ring := none_.exclusiveMeets 2 s1.rewBase s1.rewBytes
      let fails := regionFails 0x1E01#16 2 ring ++
        regionFails 0x1E01#16 3 ((if ring.isNone then s1 else none_).exclusiveMeets 3 s1.idxBase (s1.idxCount * 1216))
      if fails.isEmpty then s1 else (s1.setFld 0x2A0000 31 31 0).refuseAll 0x09 0x71 0x2A0000 31 0 fails
    else s1

/-- REWIND_DISABLE (R300). -/
def rewindDisableEff (s : State) (v : Word) : State := if bit v 31 then s else s.rewCfgWrite v
/-- REWIND_ENABLE (R296, R453). -/
def rewindEnableEff (s : State) (v : Word) : State := if bit v 31 then s.rewCfgWrite v else s

/-! ## The archive -/

/-- The oldest job of the queue has its last covered block in the rewind buffer, or that block came and went. -/
def jobReady (s : State) (j : ArchJob) : Bool :=
  match (if tget 0 s.rewind.last j.lane = 0 then none else some (s.entryAt (tget 0 s.rewind.last j.lane - 1))) with
  | none => false
  | some ent => decide (j.b2 ≤ entryField ent 0x84 6)

/-- One sample of a block as it stands in the rewind buffer: the upper 8 bits. -/
def archSample (h : Shape) (data : List Byte) (line j c : Nat) : Byte :=
  let a := line * h.lineBytes + h.at j c
  let v := leNat ((data.drop a).take h.bytes)
  BitVec.ofNat 8 (v % 2 ^ h.bits / 2 ^ (h.bits - 8))

/-- The samples of a picture: component by component, line by line; a refused block is zeros (R302). -/
def archSamples (j : ArchJob) (blocks : List (List Byte × List Byte)) : List Byte :=
  let shapeOf (ent : List Byte) : Shape :=
    { cols := entryField ent 0x8A 2 * 64, chan := entryField ent 0x17 1 / 4 % 4, sample := entryField ent 0x17 1 % 4 }
  let comps := match blocks with | [] => 1 | x :: _ => (shapeOf x.1).chans
  (List.range comps).flatMap (fun cmp => blocks.flatMap (fun (x : List Byte × List Byte) => (List.range 16).flatMap (fun ln =>
    (List.range j.cols).map (fun c =>
      if entryField x.1 0x10 4 = 0 then (0 : Byte) else archSample (shapeOf x.1) x.2 ln cmp (j.col + c)))))

/-- The blocks of a job that can be read, up to the first that cannot. -/
def archBlocks (s : State) (j : ArchJob) : Nat → Nat → List (List Byte × List Byte)
  | 0, _ => []
  | n + 1, b => match s.readBlock j.lane b with | none => [] | some x => x :: archBlocks s j n (b + 1)

/-- Pictures of up to 64 blocks, encoded in order (R302). -/
def archEncode (qp : Nat) (lossless : Bool) (j : ArchJob) : Nat → List (List Byte × List Byte) → List Byte
  | 0, _ => []
  | n + 1, bs =>
    if bs.isEmpty then []
    else
      let p := bs.take 64
      let chroma := match p with | [] => 0 | x :: _ => if entryField x.1 0x17 1 / 4 % 4 = 0 then 0 else 3
      Config.encodePicture qp lossless j.cols (16 * p.length) chroma (archSamples j p) ++ archEncode qp lossless j n (bs.drop 64)

/-- A job is LOSSLESS in MODE 0 on 8-bit sources (R302). -/
def archLossless (s : State) (blocks : List (List Byte × List Byte)) : Bool :=
  !s.flag 0x2A0100 30 && blocks.all (fun x => entryField x.1 0x17 1 % 4 = 0)

/-- ARCHIVE_JOB_START (R302, R303): the oldest job reads its blocks and encodes them. -/
def archiveJobStartEff (s : State) : State :=
  match s.archive.jobs with
  | [] => s
  | j :: rest =>
    if j.started ∨ ¬ s.flag 0x2A0100 31 ∨ ¬ s.jobReady j ∨ ¬ s.deferAdmits then s
    else
      let n := j.b2 + 1 - j.b1
      let bs := s.archBlocks j n j.b1
      let ll := s.archLossless bs
      let j' := { j with
        started := true, partial_ := decide (bs.length < n), entries := bs.map (·.1)
        bits := archEncode (s.fld 0x2A0100 29 24) ll j n bs }
      let s := { s with archive := { s.archive with jobs := j' :: rest } }
      if bs.length < n then (s.bump 0x2A0130 1).raise 0x4E01#16 0x09 0x70 else s

/-- The bytes of an archive entry, padded to 256 (R304). -/
def archEntry (s : State) (j : ArchJob) : List Byte :=
  let ll := !s.flag 0x2A0100 30 && j.entries.all (fun e => entryField e 0x17 1 % 4 = 0)
  let raw := 0x140 + 1216 * j.entries.length + j.bits.length
  let len := (raw + 255) / 256 * 256
  padTo len (leBytes 8 len ++ leBytes 2 (if j.partial_ then 0x4E01 else 0) ++
    leBytes 2 ((if ll then 1 else 0) + (if j.partial_ then 2 else 0)) ++ leBytes 2 j.entries.length ++ leBytes 2 j.col ++
    leBytes 2 j.cols ++ leBytes 2 (if ll then 0 else s.fld 0x2A0100 29 24) ++ leBytes 4 j.bits.length ++ leBytes 40 0 ++
    padTo 256 j.record ++ j.entries.flatMap (padTo 1216) ++ j.bits)

/-- ARCHIVE_JOB_END (R304): the entry in the ring, or the job discarded. -/
def archiveJobEndEff (s : State) : State :=
  match s.archive.jobs with
  | [] => s
  | j :: rest =>
    if ¬ j.started then s
    else
      let e := s.archEntry j
      let a := s.archive
      let s := { s with archive := { a with jobs := rest } }
      if s.archBytes < a.wpos + e.length - a.rpos then (s.bump 0x2A012C 1).raise 0x3E03#16 0x09 0x70
      else
        ({ s with
            bonded := writeRing s.bonded s.archBase s.archBytes a.wpos e
            archive := { a with jobs := rest, wpos := a.wpos + e.length, ends := a.ends ++ [a.wpos + e.length] } }).bump 0x2A0128 1

/-- ARCH_RPOS_WRITE (R304, R447): both halves with the write of the high one. -/
def archRposEff (s : State) (hi : Word) : State :=
  let lo := ((tget none s.held 0x2A011C).getD (BitVec.ofNat 32 s.archive.rpos)).toNat
  let x := hi.toNat * 2 ^ 32 + lo
  let a := s.archive
  let s := { s with held := tset none s.held 0x2A011C none }
  if x = a.rpos ∨ a.ends.contains x then
    { s with archive := { a with rpos := x, ends := a.ends.filter (fun e => decide (x < e)) } }
  else (s.report 0x1E01#16 3 0x2A011C 31 0 lo (a.rpos % 2 ^ 32)).last 0x1E01#16 0x09 0x70

end State

/-! ## Meanings -/

def execRewindDisable (v : Word) (s : State) : Host.Outcome State Fault Refusal :=
  .next (s.gate 0 0x2A0000 v (fun s => s.rewindDisableEff v))
def execRewindEnable (v : Word) (s : State) : Host.Outcome State Fault Refusal :=
  .next (s.gate 0 0x2A0000 v (fun s => s.rewindEnableEff v))
def execArchiveJobStart (s : State) : Host.Outcome State Fault Refusal :=
  .next (if s.serves then s.archiveJobStartEff else s)
def execArchiveJobEnd (s : State) : Host.Outcome State Fault Refusal := .next s.archiveJobEndEff
def execArchRposWrite (hi : Word) (s : State) : Host.Outcome State Fault Refusal :=
  .next (s.gate 0 0x2A0120 hi (fun s => s.archRposEff hi))

end Sys2Proof.Machine
end

