-- ==== Sys2Proof/Machine/Link.lean ====
section
/-! DEFINITION. Quads, lanes and ports as their registers set them, and frames going out: what holds them back, and what
lets them go (R47, R50, R55, R56, R61, R65, R68). -/

namespace Sys2Proof.Machine

namespace State

/-! ## Quads, ports and lanes (R47) -/

def quadMode (s : State) (q : Nat) : Nat := s.fld (0x230000 + 0x40 * q) 1 0
def laneOff (n : Nat) : Nat := 0x231000 + 0x100 * n
def portOff (n : Nat) : Nat := 0x232000 + 0x200 * n

/-- Whether a port exists (R47). -/
def portPresent (s : State) (n : Nat) : Bool :=
  match s.quadMode (n / 4) with | 1 => true | 2 => decide (n % 4 = 0) | _ => false

/-- Whether a port is enabled. -/
def portOn (s : State) (n : Nat) : Bool := s.portPresent n && s.flag (portOff n) 31
/-- A port on all four lanes of its quad. -/
def wide100 (s : State) (n : Nat) : Bool := decide (s.quadMode (n / 4) = 2)
/-- 25GBASE-R. -/
def rate25 (s : State) (n : Nat) : Bool := s.flag (portOff n) 28
/-- The port a lane serves (R47). -/
def portOfLane (s : State) (n : Nat) : Nat := if s.wide100 n then n / 4 * 4 else n
def lanesOf (s : State) (n : Nat) : List Nat := if s.wide100 n then [n, n + 1, n + 2, n + 3] else [n]
/-- A lane is in use. -/
def laneOn (s : State) (n : Nat) : Bool := s.portOn (s.portOfLane n)
/-- The transmit PLL a lane uses: true the one at 25.78125 GHz. -/
def fastPll (s : State) (n : Nat) : Bool := s.wide100 n || s.rate25 n
/-- A lane in use has a locked transmit PLL (R50, R55). -/
def pllLock (s : State) (n : Nat) : Bool := s.laneOn n && !s.pllOut.contains (n / 4, s.fastPll n)

/-- Lanes changed. -/
def mapLanes (s : State) (f : Lane → Lane) : List Nat → State
  | [] => s
  | n :: r => mapLanes (s.setLane n (f (s.lane n))) f r

/-- Rate of a port's line in kb/s. -/
def lineRate (s : State) (n : Nat) : Nat := if s.wide100 n then 100000000 else if s.rate25 n then 25000000 else 10000000

/-! ## Frames going out (R55, R56, R61) -/

/-- Entry into low-power idle and wake from it, in ns (R56). -/
def lpiEntry (s : State) (n : Nat) : Nat := if s.rate25 n then 500 else 5000
def lpiWake (s : State) (n : Nat) : Nat := if s.rate25 n then 900 else 11300

/-- The transmitter wakes for a frame (R56): at once, or when entry is complete. TX_LPI falls as wake begins. -/
def startWake (s : State) (n : Nat) : State :=
  let p := s.port n
  if (s.lane n).txLpi ∧ p.wakeAt = none then
    let from_ := max s.now (p.lpiFrom + s.lpiEntry n)
    (s.setPort n { p with wakeAt := some (from_ + s.lpiWake n) }).setLane n { s.lane n with txLpi := decide (s.now < from_) }
  else s

/-- The transmitter of a port can send: its PLLs are locked and it is not in low-power idle or waking from it. -/
def linkSends (s : State) (n : Nat) : Bool :=
  (s.lanesOf n).all s.pllLock && !(s.lane n).txLpi && (s.port n).wakeAt.isNone

/-- Frames of a port may be sent now: pause does not hold them (R61). -/
def maySend (s : State) (n : Nat) : Bool := s.linkSends n && decide ((s.port n).pauseUntil ≤ s.now)

/-- Frames sent. -/
def txNow (s : State) (n k : Nat) : State := (s.setPort n { s.port n with idleSince := s.now }).bump (portOff n + 0x14) k

/-- Frames held until the transmitter can send them. -/
def txHold (s : State) (n k : Nat) : State := (s.setPort n { s.port n with txHeld := (s.port n).txHeld + k }).startWake n

/-- Frames queued on a port: sent, or held behind low-power idle, electrical idle or pause (R55, R56, R61). -/
def txFrames (s : State) (n k : Nat) : State :=
  if ¬ s.portOn n then s else if s.maySend n ∧ (s.port n).txHeld = 0 then s.txNow n k else s.txHold n k

/-- Pause frames (R61): no pause holds them. -/
def txControl (s : State) (n k : Nat) : State :=
  if ¬ s.portOn n ∨ k = 0 then s else if s.linkSends n then s.txNow n k else s.txHold n k

/-- Frames of the RoCEv2 unit, marked ECT(0) (R65). -/
def roceTx (s : State) (n k : Nat) : State :=
  if s.portOn n then (s.setPort n { s.port n with ect0 := (s.port n).ect0 + k }).txFrames n k else s

/-- What time has released on a port: a wake that has begun or ended, and the frames held (R55, R56, R61). -/
def txRelease (s : State) (n : Nat) : State :=
  let s := match (s.port n).wakeAt with
    | none => s
    | some w =>
      let t := if w ≤ s.now + s.lpiWake n then s.setLane n { s.lane n with txLpi := false } else s
      if w ≤ s.now then t.setPort n { t.port n with wakeAt := none } else t
  let k := (s.port n).txHeld
  if s.portOn n ∧ 0 < k ∧ s.maySend n then (s.setPort n { s.port n with txHeld := 0 }).txNow n k else s

def txReleases (s : State) : List Nat → State
  | [] => s
  | n :: r => txReleases (s.txRelease n) r

/-- Ports that hold frames or wake. -/
def waitingPorts (s : State) : List Nat :=
  (s.ports.filter (fun (p : Nat × Port) => decide (0 < p.2.txHeld) || p.2.wakeAt.isSome)).map (fun (p : Nat × Port) => p.1)

/-! ## PTP stamps (R45, R68) -/

/-- The PMA delay of a port, rate and direction in 1/16 ns, from the module descriptor (R455). -/
def pmaDelay (s : State) (n : Nat) (egress : Bool) : Nat :=
  let r := if s.wide100 n then 2 else if s.rate25 n then 1 else 0
  leNat ((s.descriptor.drop (0x40 + 12 * n + 4 * r + (if egress then 0 else 2))).take 2)

/-- The stamp of a PTP event message at a port, in ns. -/
def ptpStampNow (s : State) (n : Nat) (egress : Bool) : Int :=
  Config.ptpCorrect egress (s.pmaDelay n egress) (signed 16 (s.fld (portOff n + 0x0C) 15 0)) (s.time.t / nsUnit)

/-- A PTP event message goes out with its egress stamp: written into the frame under PTP_ONESTEP where the message carries
one, and otherwise sent in a Follow_Up of its own (`follow`). -/
def ptpSend (s : State) (n : Nat) (follow : Bool) : State :=
  let one := s.flag (portOff n) 24
  let s := s.setPort n { s.port n with ptpTx := some (s.ptpStampNow n true, one) }
  s.txFrames n (if follow && !one then 2 else 1)

end State
end Sys2Proof.Machine
end

