-- ==== Sys2Proof/Machine/TimeU.lean ====
section
/-! DEFINITION. Module time and the PTP servo (R39 to R43, R69, R477), and the passing of one PTP clock cycle. -/

namespace Sys2Proof.Machine

namespace State

/-- Module time's modulus: 2^48 seconds (R39). -/
def timeWrap : Nat := 2 ^ 48 * 1000000000 * nsUnit

/-- ±500 ppm in 2^-48 (R39). -/
def rateMax : Int := 140737488355

/-- A count stamp of every axis moved (R40, R43). -/
def moveStamps (s : State) (d : Int) : State :=
  { s with axes := s.axes.map (fun (p : Nat × Axis) => (p.1, { p.2 with
      hist := p.2.hist.map (fun h => (h.1 + d, h.2)), frameStart := p.2.frameStart.map (· + d) })) }

/-- Twelve bytes of a module time: seconds, nanoseconds, fraction (R43). -/
def timeBytes (t : Nat) : List Byte :=
  leBytes 6 (t / nsUnit / 1000000000 % 2 ^ 48) ++ leBytes 4 (t / nsUnit % 1000000000) ++ leBytes 2 (t / 2 ^ 32 % 65536)

/-- A step of module time by `d` ns (R41, R43): every count stamp moves with it, EPOCH increments, notice 0x0102. -/
def stepTime (s : State) (d : Int) : State :=
  let old := s.time.t
  let new := (((old : Int) + d * nsUnit) % (timeWrap : Int)).toNat
  let s := { s with time := { s.time with t := new, epoch := s.time.epoch + 1 } }
  (s.moveStamps (d * nsUnit)).raiseNow 0x0102#16 0x01 0x20 (timeBytes old ++ timeBytes new)

/-- TIME_SNAP (R40): module time and the four positions latched in one cycle. -/
def timeSnapEff (s : State) (v : Word) : State :=
  if bit v 0 then { s with time := { s.time with snapTime := s.time.t, snapPos := s.allPos } } else s

/-- TIME_STEP_GO (R43): a second GO before the first is applied is refused with 0x1103; a step of 0 is ignored. -/
def timeStepGoEff (s : State) (v : Word) : State :=
  if bit v 0 then
    match s.time.stepPending with
    | some _ => s.refuse 0x1103#16 0x01 0x20 0x220044 0
    | none =>
      let d := signed 64 (s.reg64 0x22003C)
      if d = 0 then s else { s with time := { s.time with stepPending := some d } }
  else s

/-- TIME_STEP_APPLY (R43): the pending step at the next PTP clock cycle. -/
def timeStepApplyEff (s : State) : State :=
  match s.time.stepPending with
  | none => s
  | some d => ({ s with time := { s.time with stepPending := none } }).stepTime d

/-- RATE as its two registers show it. -/
def rateWord (s : State) : Nat := unsigned 40 s.time.rate

/-- TIME_RATE_WRITE (R39, R447): the write of `TIME_RATE_HI` applies both halves, clamped to ±500 ppm with 0x1104;
ignored in MODE 1. -/
def timeRateWriteEff (s : State) (hi : Word) : State :=
  if s.fld 0x220048 1 0 = 1 then s
  else
    let lo := ((tget none s.held 0x220034).getD (BitVec.ofNat 32 s.rateWord)).toNat
    let x := signed 40 (bits hi 7 0 * 2 ^ 32 + lo)
    let y := clampInt (-rateMax) rateMax x
    let s := { s with time := { s.time with rate := y, hostRate := y } }
    if x = y then s else (s.report 0x1104#16 1 0x220034 39 0 (unsigned 40 x) (unsigned 40 y)).last 0x1104#16 0x01 0x20

/-- TIME_SERVO_WRITE (R41, R69, R477): an absent port is refused with 0x1202 and one not enabled with 0x1203, the field
keeping its value; MODE 1 out of free-run begins acquiring; MODE 0 is free-run, where the RATE in force stays until the
host writes one (DESIGN CHOICE, the assumption log, 124). -/
def timeServoWriteEff (s : State) (v : Word) : State :=
  let old := s.reg 0x220048
  let s := s.writeFields 0x220048 0x01 0x20 v
  let p := bits v 5 2
  let asked := p ≠ bits old 5 2 ∨ bits v 1 0 = 1
  let code : Half := if ¬ s.portPresent p then 0x1202#16 else if ¬ s.flag (portOff p) 31 then 0x1203#16 else 0
  let s := if asked ∧ code ≠ 0 then
      (s.setFld 0x220048 5 2 (bits old 5 2)).report code 2 0x220048 5 2 p (bits old 5 2)
    else s
  match s.fld 0x220048 1 0 with
  | 1 => if s.time.servo = 0 then
      { s with time := { s.time with servo := 1, cosc := s.time.rate, sumO := 0, inRow := 0, firstSync := true } }
    else s
  | _ => if bits v 1 0 = 0 then { s with time := { s.time with servo := 0, inRow := 0 } } else s

/-- An exact quotient, or one of the two integers beside it: the spec does not say how RATE is rounded (the assumption
log, 13). -/
def servoRound (s : State) (n : Int) (d : Nat) : Int × State :=
  if n % d = 0 then (n / d, s)
  else let (b, s) := s.drawBool; (n / d + (if b then 1 else 0), s)

/-- The rate adjustment of one Sync (R41). The SLEW limit in 2^-48 is rounded down, and a return from holdover to locked
leaves the sum of offsets as it is (DESIGN CHOICE, the assumption log, 124). -/
def servoRate (s : State) (o : Int) (interval : Nat) : State :=
  let sum := s.time.sumO + o
  let (term, s) := s.servoRound (2 ^ 48 * (16 * o + sum)) (64 * interval)
  let lim : Int := s.fld 0x220048 30 22 * 2 ^ 48 / 1000000
  let rate := clampInt (-rateMax) rateMax (s.time.cosc - clampInt (-lim) lim term)
  let row := if o.natAbs < 100 then s.time.inRow + 1 else 0
  let s := { s with time := { s.time with rate, sumO := sum, inRow := row } }
  if s.time.servo = 1 ∧ row = 16 then
    { s with time := { s.time with servo := 2, cosc := rate, sumO := 0 } }
  else if s.time.servo = 3 then { s with time := { s.time with servo := 2 } }
  else s

/-- 0x4101 at most once per second while the offset stays beyond the threshold after the step (R41). -/
def servoWarn (s : State) (o : Int) : State :=
  let due : Bool := match s.time.posted4101 with | none => true | some t => decide (1000000000 ≤ s.now - t)
  if s.time.stepped ∧ s.fld 0x220048 13 6 * 1000 < o.natAbs ∧ due then
    ({ s with time := { s.time with posted4101 := some s.now } }).raiseNow 0x4101#16 0x01 0x20
  else s

/-- The port the servo listens on is enabled and in block lock (R69). -/
def servoPortUp (s : State) : Bool := s.portOn (s.fld 0x220048 5 2) && (s.port (s.fld 0x220048 5 2)).locked

/-- The delay mechanism of the servo port (R68, R69): with each Sync one Delay_Req, or under PTP_P2P one Pdelay_Req, goes
out with its egress stamp; the spec gives no rate (DESIGN CHOICE, the assumption log, 125). -/
def delayAsk (s : State) : State :=
  let n := s.fld 0x220048 5 2
  ({ s with time := { s.time with peerDelay := s.flag (portOff n) 25 } }).ptpSend n false

/-- SYNC (R41, R42): one Sync message on the servo port, with its offset and interval in ns. Under configuration freeze
no warden runs the servo (R413), and a port without block lock brings no Sync (R69). The offset of the Sync that steps is
not of the sum (DESIGN CHOICE, the assumption log, 124). -/
def syncEff (s : State) (o : Int) (interval : Nat) : State :=
  if s.fld 0x220048 1 0 ≠ 1 ∨ s.time.servo = 0 ∨ interval = 0 ∨ ¬ s.lead.leads ∨ ¬ s.servoPortUp then s
  else
    let s := s.delayAsk
    let first := s.time.firstSync && decide (s.time.servo = 1)
    let s := { s with time := { s.time with
      offset := clampInt (-(2 ^ 31)) (2 ^ 31 - 1) o, lastSync := s.now, interval, firstSync := false } }
    if first ∧ ¬ s.time.stepped ∧ s.fld 0x220048 13 6 * 1000 < o.natAbs then
      ({ s with time := { s.time with stepped := true } }).stepTime (-o)
    else (s.servoRate o interval).servoWarn o

/-- HOLDOVER (R42): LOSS intervals without a Sync, in acquiring or locked (DESIGN CHOICE, the assumption log, 124); RATE is
frozen. -/
def holdoverEff (s : State) : State :=
  if (s.time.servo = 1 ∨ s.time.servo = 2) ∧ s.time.interval ≠ 0 ∧
      s.time.lastSync + s.fld 0x220048 21 14 * s.time.interval ≤ s.now then
    ({ s with time := { s.time with servo := 3 } }).raise 0x4102#16 0x01 0x20
  else s

/-- One PTP clock cycle of module time and the physical clock (R39); frames that this lets go are sent. -/
def clockTick (s : State) : State :=
  let t := if s.time.running then (((s.time.t : Int) + 2 * (nsUnit : Nat) + 2 * s.time.rate) % (timeWrap : Int)).toNat else s.time.t
  let s : State := { s with now := s.now + 2, time := { s.time with t } }
  s.txReleases s.waitingPorts

end State

/-! ## Meanings -/

def execTimeSnap (v : Word) (s : State) : Host.Outcome State Fault Refusal :=
  .next (s.gate 0 0x220000 v (fun s => s.timeSnapEff v))
def execTimeStepGo (v : Word) (s : State) : Host.Outcome State Fault Refusal :=
  .next (s.gate 0 0x220044 v (fun s => s.timeStepGoEff v))
def execTimeStepApply (s : State) : Host.Outcome State Fault Refusal := .next s.timeStepApplyEff
def execTimeRateWrite (hi : Word) (s : State) : Host.Outcome State Fault Refusal :=
  .next (s.gate 0 0x220038 hi (fun s => s.timeRateWriteEff hi))
def execTimeServoWrite (v : Word) (s : State) : Host.Outcome State Fault Refusal :=
  .next (s.gate 0 0x220048 v (fun s => s.timeServoWriteEff v))
def execSync (o : Int) (interval : Nat) (s : State) : Host.Outcome State Fault Refusal := .next (s.syncEff o interval)
def execHoldover (s : State) : Host.Outcome State Fault Refusal := .next s.holdoverEff

end Sys2Proof.Machine
end

