-- ==== Sys2Proof/Machine/Pipes.lean ====
section
/-! DEFINITION. Line image pipes (R91 to R107) and the enabling of Sluice contexts (R71, R72, R77, R78, R454): slots,
shadow swaps, the choice of the next block, tensor blocks, and the recipe changeover at a block (R219, R220). -/

namespace Sys2Proof.Machine

/-- A part of a memory, moved to address 0. -/
def subMem (m : Mem) (a n : Nat) : Mem :=
  (m.filter (fun (p : Nat × Byte) => decide (a ≤ p.1) && decide (p.1 < a + n))).map (fun (p : Nat × Byte) => (p.1 - a, p.2))

/-- Bytes of a parameter image (R97). -/
def imageBytes : Nat := 204864

/-- The digest of a parameter set (R100). -/
def setDigest (m : Mem) : List Byte := shake256 (readBytes m 0 imageBytes) 32

namespace State

/-! ## Slots (R100) -/

def pOff (p : Nat) : Nat := 0x250000 + 0x400 * p
/-- The registers of slot i, as 4 × pipe + slot. -/
def slotOff (i : Nat) : Nat := 0x250100 + 0x400 * (i / 4) + 0x80 * (i % 4)

/-- A replay session holds a slot (R305). -/
def sessionSlot (s : State) (i : Nat) : Bool :=
  s.codec.sessions.any (fun (p : Nat × Option Session) => match p.2 with | none => false | some x => decide (x.slot = i))

/-- The lowest free slot of a pipe. -/
def freeSlotOf (s : State) (p : Nat) : Option Nat :=
  ([0, 1, 2, 3].map (4 * p + ·)).find? (fun i => decide ((s.slot i).ctx = none) && !s.sessionSlot i)
def slotsInUse (s : State) (p : Nat) : List Nat := ([0, 1, 2, 3].map (4 * p + ·)).filter (fun i => (s.slot i).ctx ≠ none)
/-- The slots of a pipe that are taken, by a context or a replay session. -/
def slotsTaken (s : State) (p : Nat) : List Nat :=
  ([0, 1, 2, 3].map (4 * p + ·)).filter (fun i => decide ((s.slot i).ctx ≠ none) || s.sessionSlot i)

/-- The output ring's place and bytes for a slot. -/
def outRing (s : State) (i width : Nat) : Nat × Nat :=
  (s.reg64 (slotOff i + 0x24), s.fld (slotOff i + 0x2C) 7 0 * blockMax width)

/-! ## Admission (R77) -/

/-- Bits per second of a port: 100GBASE-R, 25GBASE-R or 10GBASE-R (R47). -/
def portBits (s : State) (n : Nat) : Nat :=
  if s.fld (0x230000 + 0x40 * (n / 4)) 1 0 = 2 then 100000000000
  else if s.flag (portOff n) 28 then 25000000000 else 10000000000

/-- A context's declared pixel rate. -/
def pixelRate (s : State) (k : Nat) : Nat :=
  let h := s.shape k
  (s.reg (sOff k + 0x10)).toNat * h.cols * h.chans * h.bytes

/-- The limits of R77 that a context breaks beside those already enabled: code and subject, row by row. -/
def admitFails (s : State) (k : Nat) : List (Half × Nat) :=
  let others := (List.range 18).filter (fun j => decide (j ≠ k) && (s.sluice j).run)
  let own := s.pixelRate k
  let h := s.shape k
  let rate := (s.reg (sOff k + 0x10)).toNat
  let row (n : Nat) : Half × Nat := (0x3403#16, n + 256 * k)
  let pipe (j : Nat) : Nat := s.fld (sOff j) 26 25
  let pkt := s.fld (sOff k + 8) 31 16
  let pt := s.fld (sOff k) 24 21
  let samples := rate * h.cols * h.chans
  let ppc := s.parPixels (k - 16)
  (if 32000000000 < own + (others.map s.pixelRate).sum then [row 1] else []) ++
  (if 8000000000 < own + ((others.filter (fun j => decide (pipe j = pipe k))).map s.pixelRate).sum then [row 2] else []) ++
  (if s.fld (sOff k) 30 29 = 0 ∧ 95 * s.portBits pt * pkt < rate * h.lineBytes * (pkt + 86) * 8 * 100 then [row 3] else []) ++
  (if 16 ≤ k ∧ s.fld (sOff k) 30 29 = 2 ∧ (ppc * 300000000 < samples ∨ (tget {} s.pars (k - 16)).kHz.toNat * 1000 * ppc < samples) then [row 4] else []) ++
  (if s.inline_ k ∧ others.any s.inline_ then [(0x1403#16, 5 + 256 * k)] else [])

/-- What a context's settings break beside the limits: source kind, absent port, tracker in-line, window size. -/
def sluiceFails (s : State) (k : Nat) : List (Half × Nat) :=
  let src := s.fld (sOff k) 30 29
  (if src = 1 ∧ s.fld (sOff k + 0x0C) 31 24 < 8 then [(0x1401#16, 0)] else []) ++
  (if (decide (src = 2)) != (decide (16 ≤ k)) then [(0x1405#16, 0)] else []) ++
  (if src ≤ 1 ∧ k < 16 ∧ ¬ s.portPresent (s.fld (sOff k) 24 21) then [(0x1202#16, 0)] else []) ++
  (if s.flag (sOff k) 12 ∧ s.inline_ k then [(0x1404#16, 0)] else [])

/-- What a context breaks in taking a slot of its pipe (R100, R104). -/
def bindFails (s : State) (k : Nat) : List (Half × Nat) :=
  let p := s.fld (sOff k) 26 25
  let clash := if s.inline_ k then !(s.slotsInUse p).isEmpty else (s.pipe p).inlineBound
  (if (s.freeSlotOf p).isNone ∨ clash then [(0x1501#16, 0)] else []) ++
  (if s.inline_ k ∧ (s.shape k).chan = 1 then [(0x1502#16, 0)] else [])

/-- What stands against an output ring (R453): 0xFF where it does not meet its alignment or leaves bonded memory, or a
region it may not overlap. -/
def ringMeets (s : State) (a n : Nat) : Option Nat := if a % 4096 = 0 then s.placedMeets a n else some 0xFF

/-- The region a context's output ring would take (R106, R453). -/
def outFails (s : State) (k : Nat) : List (Half × Nat) :=
  match s.freeSlotOf (s.fld (sOff k) 26 25) with
  | none => []
  | some i => let (a, n) := s.outRing i (s.fld (sOff k) 8 0); regionFails 0x1504#16 14 (s.ringMeets a n)

/-- Bytes of a memory-mode ring (R454). -/
def ringNeed (s : State) (k : Nat) : Nat := (s.ringBlocks k * 16 * (s.shape k).lineBytes + 4095) / 4096 * 4096

def ringFails (s : State) (k : Nat) : List (Half × Nat) :=
  if s.inline_ k ∨ (s.ringFit (s.ringNeed k)).isSome then [] else [(0x3081#16, 0)]

/-- The queue pair a window names. -/
def windowQp (s : State) (k : Nat) : Nat := s.fld (sOff k + 0x0C) 9 0

/-- The responder queue pair of an RDMA window is ready for its context (R63, R81). -/
def windowPair (s : State) (k q : Nat) : State :=
  s.setQp q { s.qp q with state := .ready, owner := 16 + k, port := s.fld (sOff k) 24 21, peer := none }

/-- A context of an RDMA window that starts takes its queue pair. -/
def windowOpen (s : State) (k : Nat) : State :=
  if s.fld (sOff k) 30 29 = 1 then s.windowPair k (s.windowQp k) else s

/-- The queue pair of a context that stops is idle. -/
def dropPair (s : State) (k q : Nat) : State :=
  if (s.qp q).owner = 16 + k then s.setQp q { key := (s.qp q).key } else s

/-- A context starts: its slot with the identity set, its ring, line number 0 (R73, R99, R100). Lines of an earlier
numbering are no longer kept, and its lane starts again (the assumption log, 17). -/
def sluiceStart (s : State) (k : Nat) : State :=
  let p := s.fld (sOff k) 26 25
  match s.freeSlotOf p with
  | none => s
  | some i =>
    let (a, _) := s.outRing i (s.fld (sOff k) 8 0)
    let need := s.ringNeed k
    let s := s.setSlot i { ctx := some k, active := identitySet, outBase := a, outBlocks := s.fld (slotOff i + 0x2C) 7 0 }
    let s := if s.inline_ k then s.setPipe p { s.pipe p with inlineBound := true } else s
    let c : Sluice := { run := true, brkNext := (s.sluice k).brkNext, brk := (s.sluice k).brk }
    let c := if s.inline_ k then c else
      match s.ringFit need with | none => c | some b => { c with ringBase := b, ringBytes := need }
    let s := s.setSluice k c
    let s := { s with records := s.records.filter (fun r => decide (r.block.ctx ≠ k)) }
    s.setVlane k { s.vlane k with started := false, waiting := [] }

/-- A context stops (R103, R104, R454): its slot and ring are free. -/
def sluiceStop (s : State) (k : Nat) : State :=
  let s := match s.slotOf k with
    | none => s
    | some i =>
      let p := i / 4
      let pp := s.pipe p
      let busy := match pp.busy with | some (j, x, m, t) => if j = i then none else some (j, x, m, t) | none => none
      (s.setSlot i {}).setPipe p { pp with busy, inlineBound := pp.inlineBound && !s.inline_ k }
  (s.dropPair k (s.windowQp k)).setSluice k {}

/-- A running context's settings whose check fails keep the value they held (R446). -/
def sluiceRevert (s : State) (k : Nat) (old : Word) : State :=
  let o := sOff k
  let ch (hi lo : Nat) (s : State) : Bool := s.fld o hi lo ≠ bits old hi lo
  let s := if ch 30 29 s ∧ (decide (s.fld o 30 29 = 2)) != (decide (16 ≤ k)) then s.revertField old o 30 29 0x03 k 0x1405#16 else s
  let s := if ch 12 12 s ∧ s.flag o 12 ∧ s.flag o 27 then s.revertField old o 12 12 0x03 k 0x1404#16 else s
  let s := if ch 27 27 s ∧ s.flag o 27 then
      (if s.flag o 12 then s.revertField old o 27 27 0x03 k 0x1404#16
       else if (List.range 18).any (fun j => decide (j ≠ k) && (s.sluice j).run && s.inline_ j) then s.revertField old o 27 27 0x03 k 0x1403#16
       else s)
    else s
  let s := if ch 24 21 s ∧ s.fld o 30 29 ≤ 1 ∧ ¬ s.portPresent (s.fld o 24 21) then s.revertField old o 24 21 0x03 k 0x1202#16 else s
  match (s.admitFails k).find? (fun x => x.1 = 0x3403#16) with
  | none => s
  | some x => [(8, 0), (18, 17), (20, 19), (24, 21), (26, 25)].foldl (fun s (f : Nat × Nat) =>
      if ch f.1 f.2 s then s.revertField old o f.1 f.2 0x03 k 0x3403#16 x.2 else s) s

/-- SLUICE_ENABLE (R71, R77, R78, R446): a write of `SLUICEk_CFG`. -/
def sluiceEnableEff (s : State) (k : Nat) (v : Word) : State :=
  let o := sOff k
  let old := s.reg o
  let reserved := bits v 30 29 = 3 ∨ bits v 18 17 = 3
  let s := s.writeFields o 0x03 k v
  if ¬ s.flag o 31 then (if bit old 31 then s.sluiceStop k else s)
  else if bit old 31 then s.sluiceRevert k old
  else
    let fails := s.outFails k ++ s.sluiceFails k ++ s.admitFails k ++ s.bindFails k ++ s.ringFails k
    if reserved ∨ ¬ fails.isEmpty then
      let s := (s.setFld o 31 31 0).refuseAll 0x03 k o 31 0 fails
      let s := if fails.any (fun f => f.1 = 0x3403#16) then s.raise 0x3403#16 0x03 k else s
      match fails.reverse.find? (fun f => f.1 = 0x1501#16 ∨ f.1 = 0x1502#16 ∨ f.1 = 0x1504#16) with
      | none => s
      | some f => s.last f.1 0x04 (4 * s.fld o 26 25)
    else (s.sluiceStart k).windowOpen k

/-! ## Swaps (R101 to R103) -/

/-- A line of an open block that has come whole (R104). -/
def arrived (s : State) (k : Nat) (l : Line) : Bool := !l.missing && coversRange l.got 0 (s.shape k).lineBytes

/-- The block that an in-line context's pipe may start before it is handed on (R104): the oldest open one, once its first
line has come with its stamp; the block and the stamp. -/
def inlineFirst (s : State) (k : Nat) : Option (Nat × LineStamp) :=
  match (s.sluice k).blocks with
  | x :: _ => match x.lines with
    | l :: _ => if s.inline_ k && s.arrived k l then l.stamp.map (fun t => (x.b, t)) else none
    | [] => none
  | [] => none

/-- A stamp stands at or beyond a fired entry's count (R102). -/
def stampReached (t : LineStamp) (f : Nat × Fine × Bool) : Bool :=
  match t.pos[f.1]? with | none => false | some p => beyond f.2.2 p f.2.1

/-- A block's first line stands at or beyond a fired entry's count (R102). -/
def recReached (r : BlockRec) (f : Nat × Fine × Bool) : Bool :=
  match r.block.lines with | [] => false | l :: _ => stampReached l.stamp f

/-- The lowest block of a context at or beyond a fired entry. -/
def firedTarget (s : State) (k : Nat) (f : Nat × Fine × Bool) : Option Nat :=
  let open_ : List Nat := match s.inlineFirst k with | some (b, t) => if stampReached t f then [b] else [] | none => []
  ((s.records.filter (fun r => decide (r.block.ctx = k) && recReached r f)).map (·.block.b) ++ open_).foldl (fun (a : Option Nat) b =>
    match a with | none => some b | some m => some (min m b)) none

/-- The target block that a WHEN, AT and fired entry name, once block b of context k is started. -/
def targetBlock (s : State) (k b when_ at_ : Nat) (fired : Option (Nat × Fine × Bool)) (missed : Option Nat) : Option Nat :=
  match when_ with
  | 0 => some (missed.getD b)
  | 1 => if at_ ≤ b then some at_ else none
  | _ => match fired with
    | none => none
    | some f => match s.firedTarget k f with | some t => if t ≤ b then some t else none | none => none

/-- SWAP_APPLY (R102): what a pending swap does as block b of slot i is started. -/
def swapApply (s : State) (i k b : Nat) : State :=
  let x := s.slot i
  if ¬ x.pending then s
  else match s.targetBlock k b x.whenSwap x.at_ x.fired x.missed with
    | none => s
    | some t =>
      if ¬ x.loaded then s.setSlot i { x with missed := some t }
      else
        let s := s.setSlot i { x with
          active := x.shadow, shadow := [], pending := false, loaded := false, fired := none, missed := none
          gen := x.gen + 1, applied := b, lateSwap := if t = b then x.lateSwap else some b }
        let s := s.raiseNow 0x0501#16 0x04 i (leBytes 8 t ++ leBytes 8 b ++ leBytes 2 (x.gen + 1).toNat)
        if t = b then s else s.raise 0x4501#16 0x04 i 1 (leBytes 8 t ++ leBytes 8 b)

/-! ## Proving rules (R268 to R270) -/

def proving (s : State) (r : Nat) : Proving := tget {} s.provings r
def setProving (s : State) (r : Nat) (g : Proving) : State := { s with provings := tset {} s.provings r g }

/-- The tag of the entry that the verdict unit keeps pending for a rule. -/
def proveTag (r : Nat) : Half := BitVec.ofNat 16 (0xFF00 + r)

/-- A rule's next entry, PERIOD counts along its direction from a position (R269). -/
def proveNext (s : State) (r : Nat) (p : Fine) : State :=
  let g := s.proving r
  (s.calAdd g.axis [{ pos := along g.dir p (g.period * 65536 : Nat), kind := .prove, axis := g.axis, dir := g.dir, tag := proveTag r,
                      operand := BitVec.ofNat 32 r }]).1

/-- A rule of a recipe that has become active (R268): its header, its place, and its first entry. -/
def installRule (s : State) (rk r : Nat) (b : List Byte) : State :=
  let at_ (o n : Nat) : Nat := leNat ((b.drop o).take n)
  let src := Config.recipeSource rk (at_ 0 1) % 18
  let g : Proving :=
    { on := true, recipe := rk, index := at_ 0 1, axis := s.bindAxis src, dir := s.bindDir src, source := src, pw := at_ 1 1, ph := at_ 2 1
      before := at_ 3 1 % 16, after := at_ 3 1 / 16, period := at_ 4 4, dl := at_ 8 4, colLo := at_ 0x0C 2, colHi := at_ 0x0E 2
      perMin := at_ 0x10 2, pattern := b.drop 64, minute := s.now }
  (s.setProving r g).proveNext r (s.posKnown g.axis)

def installRules (s : State) (rk : Nat) : Nat → List (List Byte) → State
  | _, [] => s
  | r, b :: rest => installRules (s.installRule rk r b) rk (r + 1) rest

/-- The rules in force leave, with the entries kept pending for them. -/
def dropRules (s : State) : State :=
  { s with
    provings := []
    cal := s.cal.map (fun (p : Nat × List CalEntry) => (p.1, p.2.filter (fun e => !(decide (e.kind = .prove) && decide (0xFF00 ≤ e.tag.toNat))))) }

/-- The rules of the recipe that has become active. -/
def takeRules (s : State) (rk : Nat) : State :=
  match s.recipe rk with
  | none => s
  | some x => if x.rules.isEmpty then s else s.dropRules.installRules rk 0 x.rules

/-- RECIPE_CHANGEOVER_APPLY (R219, R220): what a changeover does as block b of context k is started. -/
def changeoverApply (s : State) (k b : Nat) : State :=
  match tget none s.changes k with
  | none => s
  | some c =>
    match s.targetBlock k b c.when_ c.at_ c.fired c.missed with
    | none => s
    | some t =>
      let ready : Bool := match s.recipe c.recipe with | some r => r.residentAt | none => false
      if ¬ ready then { s with changes := tset none s.changes k (some { c with missed := some t }) }
      else
        let old := tget none s.active k
        let s := { s with active := tset none s.active k (some c.recipe), changes := tset none s.changes k none }
        let s := if t = b then s else s.raise 0x4A01#16 0x06 0x11 1 (leBytes 8 t ++ leBytes 8 b)
        let s := s.takeRules c.recipe
        match old with | none => s | some r => s.drainRecipe r

/-- ARM, by a write of `LPp_SLOTs_SWAP`: WHEN, then ARM. A refused WHEN at ARM leaves nothing armed (R100, R101). -/
def armEff (s : State) (i : Nat) (v : Word) : State :=
  let o := slotOff i + 0x0C
  let s := s.writeFields o 0x04 i v
  if ¬ bit v 31 then s
  else
    let x := s.slot i
    let img := s.reg64 (slotOff i + 4) / 256 * 256
    let fails := regionFails 0x1504#16 14 (s.placedMeets img imageBytes) ++
      (if x.pending ∨ x.ctx = none then [(0x1503#16, 0)] else [])
    if bits v 27 26 = 3 ∨ ¬ fails.isEmpty then s.refuseAll 0x04 i o 31 0 fails
    else
      s.setSlot i { x with
        pending := true, loaded := false, img, shadow := subMem s.bonded img imageBytes
        whenSwap := s.fld o 27 26, at_ := s.reg64 (slotOff i + 0x10) % 2 ^ 48, fired := none, missed := none }

/-- The image as read: each byte written since ARM may have reached the shadow bank or not (R101: open). -/
def imageRead (free : Nat) (old new : Mem) : Mem :=
  let keys := (old.map (·.1) ++ new.map (·.1)).eraseDups
  keys.foldl (fun m a =>
    if byteAt old a = byteAt new a ∨ Config.lateImageByte free a then putByte m a (byteAt new a) else putByte m a (byteAt old a)) []

/-- Bytes of bonded memory written by the host: in an image between ARM and LOADED each may or may not reach the shadow bank
(R101: open). -/
def lateWrite (s : State) (a n : Nat) : List Nat → State
  | [] => s
  | i :: r =>
    let x := s.slot i
    if x.pending && !x.loaded && spansMeet a n x.img imageBytes then
      lateWrite ({ s with free := s.free + 1 }.setSlot i { x with
        shadow := imageRead s.free x.shadow (subMem s.bonded x.img imageBytes) }) a n r
    else lateWrite s a n r

/-- SHADOW_LOADED (R98, R101). -/
def shadowLoadedEff (s : State) (i : Nat) : State :=
  let x := s.slot i
  match x.ctx with
  | none => s
  | some k =>
    if ¬ x.pending ∨ x.loaded then s
    else
      let m := imageRead s.free x.shadow (subMem s.bonded x.img imageBytes)
      let s := { s with free := s.free + 1 }
      let h := s.shape k
      match psFault m h.chan h.cols with
      | some o =>
        ((s.setSlot i { x with pending := false, shadow := [], fired := none, missed := none }).reportSubject 0x1504#16 2
          (o + i / 4 * 2 ^ 32 + i % 4 * 2 ^ 36)).last 0x1504#16 0x04 i
      | none => s.setSlot i { x with shadow := m, loaded := true }

/-- CANCEL's own effect (R103): a pending swap is discarded. -/
def cancelSwap (s : State) (i : Nat) (v : Word) : State :=
  let x := s.slot i
  if bit v 30 ∧ x.pending then
    s.setSlot i { x with pending := false, loaded := false, shadow := [], fired := none, missed := none }
  else s

/-- A write of `LPp_SLOTs_SWAP`: WHEN, then ARM, then CANCEL (DESIGN CHOICE, the assumption log, 129). -/
def swapWrite (s : State) (i : Nat) (v : Word) : State := (s.armEff i v).cancelSwap i v

/-! ## Choosing a block (R105) -/

/-- How many blocks were handed on after the one that made a slot's oldest block servable; none where none is. -/
def servable (s : State) (i : Nat) : Option Nat :=
  let x := s.slot i
  match x.ctx, x.queue with
  | some k, b :: _ =>
    let last := s.lastReader k b.b (slotReach x)
    s.records.findIdx? (fun r => decide (r.block.ctx = k) && decide (r.block.b = last))
  | _, _ => none

/-- A slot's output ring has no room for another block. -/
def outFull (s : State) (i : Nat) : Bool :=
  let x := s.slot i
  decide (x.outBlocks ≤ x.out.length + x.waiting.length)

/-- Whether a pipe may start a slot's block (R105): its output ring has room, or it is in-line and cannot wait (R104). -/
def outRoom (s : State) (i : Nat) : Bool :=
  match (s.slot i).ctx with | none => false | some k => s.inline_ k || !s.outFull i

/-- The slot whose block is next in a pipe's order: the one that became servable first, ties to the lower context. -/
def firstServable (s : State) (p : Nat) : Option Nat :=
  (s.slotsInUse p).foldl (fun (a : Option Nat) i =>
    match s.servable i with
    | none => a
    | some n => match a with
      | none => some i
      | some j =>
        let m := (s.servable j).getD 0
        if m < n ∨ (m = n ∧ (s.slot i).ctx.getD 99 < (s.slot j).ctx.getD 99) then some i else some j) none

/-- The slot a pipe serves next: with its output ring full the pipe waits (R105). -/
def nextSlot (s : State) (p : Nat) : Option Nat := (s.firstServable p).filter s.outRoom

/-- The block an in-line pipe starts as its lines arrive: the slot, the context, and the block without its lines (R104). -/
def inlineNext (s : State) (p : Nat) : Option (Nat × Nat × LineBlock) :=
  (s.slotsInUse p).findSome? (fun i => (s.slot i).ctx.bind (fun k =>
    (s.inlineFirst k).bind (fun x => if (s.slot i).queue.isEmpty ∧ (s.slot i).started ≤ x.1 then
      some (i, k, { ctx := k, b := x.1, width := s.fld (sOff k) 8 0, lines := [] }) else none)))

/-- The ns a block occupies a pipe (R105); pixels as R6 counts them. -/
def pipeTime (s : State) (k : Nat) (x : LineBlock) : Nat :=
  let h := s.shape k
  let groups := ((List.range (h.cols / 64)).filter (fun g => x.mask.getLsbD g)).length
  if x.refused then 200 else 200 + 16 * (groups * 64 * h.chans * h.bytes) / 8

/-- What is kept of a block, changed. -/
def modRec (s : State) (k b : Nat) (f : BlockRec → BlockRec) : State :=
  { s with records := s.records.map (fun r => if r.block.ctx = k ∧ r.block.b = b then f r else r) }

/-- The set and the recipe that a block is processed with, kept with its record (R100, R219). -/
def markRec (s : State) (i k b : Nat) : State :=
  let x := s.slot i
  let key := tget none s.active k
  let r := key.bind s.recipe
  s.modRec k b (fun y => { y with
    gen := x.gen, digest := setDigest x.active, recipe := key, recipeDigest := (r.map (·.digest)).getD [], policy := r.bind (·.policy) })

/-- A slot's oldest block started (R102, R105, R219): its set fixed, blocks that no later alignment reads released. An
in-line block has its lines as they come and occupies its pipe until it is whole (R104). -/
def startBlock (s : State) (p i k : Nat) (b : LineBlock) : State :=
  let s := ((s.swapApply i k b.b).changeoverApply k b.b).markRec i k b.b
  let x := s.slot i
  let s := (s.setSlot i { x with started := b.b + 1 }).releaseBlocks k
  s.setPipe p { s.pipe p with
    busy := some (i, b, x.active, if s.inline_ k then s.now else s.now + s.pipeTime k b)
    dropped := s.outFull i, wrote := 0 }

/-- PIPE_BLOCK_START (R105). -/
def pipeBlockStartEff (s : State) (p : Nat) : State :=
  if (s.pipe p).busy.isSome then s
  else match s.nextSlot p with
    | none => match s.inlineNext p with | some (i, k, b) => s.startBlock p i k b | none => s
    | some i =>
      match (s.slot i).ctx, (s.slot i).queue with
      | some k, b :: _ => s.startBlock p i k b
      | _, _ => s

/-! ## Tensor blocks (R92, R96, R104, R106) -/

/-- A handed-on line as the pipe reads it. -/
def pipeLine (l : LineOut) : PipeLine := { n := l.n, data := l.data, brk := l.breakBefore, concealed := l.concealed, fault := l.fault }

/-- A line of an open block as an in-line pipe reads it. -/
def openLine (n : Nat) (l : Line) : PipeLine := { n, data := l.data, brk := l.breakBefore }

/-- The lines of a context that have arrived whole in its oldest open block, up to the first that has not (R104). -/
def arrivedLines (s : State) (k : Nat) : List PipeLine :=
  match (s.sluice k).blocks with
  | [] => []
  | x :: _ => ((x.lines.zipIdx.takeWhile (fun (l : Line × Nat) => s.arrived k l.1)).map (fun (l : Line × Nat) =>
      openLine (16 * x.b + l.2) l.1))

/-- The lines at hand for a slot's blocks: those handed on that the pipe still keeps, and those arrived. -/
def reachable (s : State) (i k : Nat) : Reachable :=
  let x := s.slot i
  (x.behind ++ x.queue).flatMap (fun y => y.lines.map pipeLine) ++ s.arrivedLines k

/-- Whether the line that follows line n is at hand, or a stream break is known to follow it (R94). -/
def followed (s : State) (i k n : Nat) : Bool :=
  (s.reachable i k).any (fun l => decide (l.n = n + 1)) ||
    decide (s.breakAfter k (n / 16) (n / 16 + 1) = some (n / 16 + 1)) && decide (n % 16 = 15)

/-- A tensor block header (R106). -/
def tensorHeader (k : Nat) (gen : Half) (b : LineBlock) (status : Half) (marks : List (Bool × Bool × Bool)) : List Byte :=
  let f (n : Nat) (y : Bool) : Nat := if y then 2 ^ n else 0
  leBytes 2 k ++ leBytes 2 gen.toNat ++ leBytes 6 b.b ++
  leBytes 2 (f 0 (marks.any (·.1)) + f 1 (marks.any (·.2.1)) + f 2 (marks.any (·.2.2)) + f 3 b.brk) ++
  leBytes 2 status.toNat ++ leBytes 2 0 ++ leBytes 32 b.mask.toNat ++
  (padTo 16 (marks.map (fun m => BitVec.ofNat 8 (f 0 m.1 + f 1 m.2.1 + f 2 m.2.2))))

/-- The status of a tensor block header (R96, R102, R104, R107): the ring's code, the Sluice's, that of added FAULT, then
that of a late swap (DESIGN CHOICE, the assumption log, 129). -/
def headerStatus (x : Slot) (b : LineBlock) (full faultAdded : Bool) : Half :=
  if full && !b.refused then 0x3501#16 else if b.status ≠ 0 then b.status else if faultAdded then 0x2402#16
  else if x.lateSwap = some b.b then 0x4501#16 else 0

/-- A block finished by its pipe with its set: data, then header, marks kept, clamps counted, and the rewind entry. -/
def finishBlock (s : State) (i k : Nat) (b : LineBlock) (set : Mem) (full : Bool) : State :=
  let s := s.markRec i k b.b
  let x := s.slot i
  let h := s.shape k
  let ls := s.reachable i k
  let top := topLine ls
  let bare := b.refused || full
  let marks : List (Bool × Bool × Bool) := b.lines.map (fun l =>
    let m := lineFlags set ls top l.n
    (m.1, m.2, bare))
  let base := x.outBase + b.b % x.outBlocks * blockMax b.width
  let faultAdded := marks.any (·.2.1) && !b.lines.any (·.fault)
  let status : Half := headerStatus x b full faultAdded
  let (mem, n) : Mem × Nat := if bare then (s.bonded, 0) else tensorData set h false ls (16 * b.b) b.mask s.bonded (base + 64)
  let clamps := if b.refused then 0 else n + (b.lines.map (fun l => stage1Sat set h l.data)).sum
  let s := { s with bonded := writeBytes mem base (tensorHeader k x.gen b status marks) }
  let s := if clamps = 0 then s else s.bump (slotOff i + 0x30) clamps
  let s := if full && !b.refused then (s.bump (slotOff i + 0x34) 1).raise 0x3501#16 0x04 i 1 (leBytes 8 b.b) else s
  let s := s.setSlot i { x with out := x.out ++ [b.b] }
  let s := s.modRec k b.b (fun y => { y with piped := true, marks })
  let rd := match (s.blockRec k b.b).bind (·.recipe) with | some r => ((s.recipe r).map (·.digest)).getD [] | none => []
  s.rewindWrite b set x.gen.toNat (setDigest set) rd

/-! ## Injections (R269) -/

/-- An element of a tensor block with the pattern laid over it. -/
def blend (fmt v p a : Nat) : Nat :=
  let sgn (x : Nat) : Int := if fmt = 1 then signed 8 x else (x : Int)
  let y := rheDiv (sgn v * (256 - a : Nat) + sgn p * (a : Nat)) 8
  if fmt = 1 then unsigned 8 (clampInt (-128) 127 y) else (clampInt 0 255 y).toNat

/-- A tensor block as the shadow ring takes it: the injection block with the pattern where the mask passes. -/
def shadowBytes (s : State) (g : Proving) (i : Nat) (x : LineBlock) (run : ProveRun) : List Byte :=
  let q := s.slot i
  let h := s.shape g.source
  let base := q.outBase + x.b % q.outBlocks * blockMax x.width
  let n := 64 + tensorBytes q.active h
  let raw := subMem s.bonded base n
  let m : Mem := if x.b = run.block then
      (List.range (g.ph * g.pw)).foldl (fun m j =>
        let c := run.col + j % g.pw
        if passes x.mask c then
          (List.range (outChans q.active h)).foldl (fun m ch =>
            let o := 64 + elemAt q.active h (run.line + j / g.pw) c ch
            putByte m o (BitVec.ofNat 8 (blend (psFmt q.active) (byteAt m o).toNat (g.pattern.getD (2 * j) 0).toNat (g.pattern.getD (2 * j + 1) 0).toNat))) m
        else m) raw
    else raw
  readBytes m 0 n

/-- The draws of an injection (R269): its run. -/
def proveRun (s : State) (g : Proving) (b : Nat) (p : Fine) : ProveRun :=
  let anchor := p.toNat / 65536
  let seed := match s.recipe g.recipe with | some r => r.seed.toNat | none => 0
  let w := philox (anchor % 2 ^ 32, anchor / 2 ^ 32 % 65536, g.index + 0xFFFF * 65536, 0) seed
  { block := b, col := g.colLo + w.getD 0 0 % (g.colHi + 2 - g.colLo - g.pw), line := w.getD 1 0 % (17 - g.ph)
    end_ := along g.dir p (g.dl * 65536 : Nat) }

/-- Whether an injection copies a block. -/
def reaches (g : Proving) (u : ProveRun) (n : Nat) : Bool := decide (u.block ≤ n + g.before) && decide (n ≤ u.block + g.after)

/-- A rule once its source's blocks up to `last` are finished: entries fired find their injection block, and blocks that an
injection copies are in the shadow ring. -/
def proveBlock (s : State) (r i last : Nat) : State :=
  let g := s.proving r
  let hit (f : Nat × Fine × Bool) : Option ProveRun :=
    match s.firedTarget g.source f with
    | none => none
    | some b => match s.blockRec g.source b with
      | none => none
      | some y => if b ≤ last then ((y.block.lines[0]?).bind (fun l => l.stamp.pos[g.axis]?)).map (s.proveRun g b) else none
  let g := { g with runs := g.runs ++ g.fired.filterMap hit, fired := g.fired.filter (fun f => (hit f).isNone) }
  let new := (s.records.filter (fun (y : BlockRec) => decide (y.block.ctx = g.source) && y.piped && decide (y.block.b ≤ last) &&
    !g.shadow.any (fun p => decide (p.1 = y.block.b)))).filterMap (fun (y : BlockRec) =>
      (g.runs.find? (fun u => reaches g u y.block.b)).map (fun u => (y.block.b, s.shadowBytes g i y.block u)))
  s.setProving r { g with shadow := g.shadow ++ new }

/-- Every rule of a source at a finished block. -/
def proveBlocks (s : State) (i : Nat) (x : LineBlock) : List Nat → State
  | [] => s
  | r :: rest => proveBlocks (if (s.proving r).on && decide ((s.proving r).source = x.ctx) then s.proveBlock r i x.b else s) i x rest

/-- A block finished, and the proving rules of its source judged. -/
def blockDone (s : State) (i k : Nat) (b : LineBlock) (set : Mem) (full : Bool) : State :=
  (s.finishBlock i k b set full).proveBlocks i b (s.provings.map (fun (p : Nat × Proving) => p.1))

/-- Whether a block's data must wait for the line that follows it: Bayer's last line reads it (R94, R104; DEDUCED, the
assumption log, 130). -/
def awaitsLine (s : State) (i k : Nat) (b : LineBlock) (set : Mem) (full : Bool) : Bool :=
  psBayer set && !b.refused && !full && !s.followed i k (16 * b.b + 15)

/-- The blocks of a slot that wait for a line which has come, finished in order; `n` bounds them. -/
def finishWaiting (s : State) (i k : Nat) : Nat → State
  | 0 => s
  | n + 1 =>
    let x := s.slot i
    match x.waiting with
    | (b, set, full) :: r =>
      if s.awaitsLine i k b set full then s
      else finishWaiting ((s.setSlot i { x with waiting := r }).blockDone i k b set full) i k n
    | [] => s

/-- Every slot of a pipe, its waiting blocks finished. -/
def finishSlots (s : State) : List Nat → State
  | [] => s
  | i :: r => finishSlots (match (s.slot i).ctx with | some k => s.finishWaiting i k (s.slot i).waiting.length | none => s) r

/-- A pipe's work on a block that has been handed on ends: the block stands behind for what alignment reads of it later, and
is finished or waits for its following line. -/
def pipeRelease (s : State) (p i k : Nat) (b : LineBlock) (set : Mem) : State :=
  let full := (s.pipe p).dropped
  let s := s.setPipe p { s.pipe p with busy := none }
  let x := s.slot i
  let s := s.setSlot i { x with
    queue := x.queue.filter (fun y => decide (y.b ≠ b.b))
    behind := x.behind.filter (fun y => decide (b.b ≤ (16 * y.b + 15 + max 1 (slotReach x)) / 16)) ++ [b] }
  if s.awaitsLine i k b set full then s.setSlot i { s.slot i with waiting := (s.slot i).waiting ++ [(b, set, full)] }
  else s.blockDone i k b set full

/-- PIPE_BLOCK_DONE (R104, R106): blocks whose following line has come, then the block the pipe works on, once its time has
passed and the Sluice has handed it on. -/
def pipeBlockDoneEff (s : State) (p : Nat) : State :=
  let s := s.finishSlots (s.slotsInUse p)
  match (s.pipe p).busy with
  | none => s
  | some (i, b, set, t) =>
    if s.now < t then s
    else match (s.slot i).ctx with
      | none => s.setPipe p { s.pipe p with busy := none }
      | some k => match (s.slot i).queue.find? (fun y => decide (y.b = b.b)) with
        | none => s
        | some y => s.pipeRelease p i k y set

/-! ## In-line lines (R104) -/

/-- The next line of an in-line block written, where it and what Bayer reads of it have come: a pipe with its output ring
full writes none. -/
def inlineLine (s : State) (p : Nat) : State :=
  match (s.pipe p).busy with
  | none => s
  | some (i, b, set, _) =>
    let x := s.slot i
    match x.ctx with
    | none => s
    | some k =>
      let q := s.pipe p
      let n := 16 * b.b + q.wrote
      let ls := s.reachable i k
      if !s.inline_ k || q.dropped || decide (16 ≤ q.wrote) || !ls.any (fun l => decide (l.n = n)) || (psBayer set && !s.followed i k n) then s
      else
        let base := x.outBase + b.b % x.outBlocks * blockMax b.width + 64
        { (s.setPipe p { q with wrote := q.wrote + 1 }) with
          bonded := (tensorLine set (s.shape k) false ls (16 * b.b) (BitVec.allOnes 256) base q.wrote (s.bonded, 0)).1 }

/-- One PTP clock cycle with no command (R39): what an idle step does (the assumption log, 4: DESIGN CHOICE). Frames that
this lets go are sent, and in-line pipes write the lines that have come. -/
def tick (s : State) : State :=
  let s := s.clockTick
  (((s.inlineLine 0).inlineLine 1).inlineLine 2).inlineLine 3

end State

/-! ## Meanings -/

def execSluiceEnable (k : Fin 18) (v : Word) (s : State) : Host.Outcome State Fault Refusal :=
  .next (s.gate 0 (State.sOff k) v (fun s => s.sluiceEnableEff k v))
def execPipeBlockStart (p : Fin 4) (s : State) : Host.Outcome State Fault Refusal :=
  .next (if s.serves then (s.pipeBlockStartEff p) else s)
def execPipeBlockDone (p : Fin 4) (s : State) : Host.Outcome State Fault Refusal := .next (s.pipeBlockDoneEff p)
def execArm (p t : Fin 4) (v : Word) (s : State) : Host.Outcome State Fault Refusal :=
  .next (s.gate 0 (State.slotOff (4 * p + t) + 0x0C) v (fun s => s.swapWrite (4 * p + t) v))
def execShadowLoaded (p t : Fin 4) (s : State) : Host.Outcome State Fault Refusal := .next (s.shadowLoadedEff (4 * p + t))
def execCancel (p t : Fin 4) (v : Word) (s : State) : Host.Outcome State Fault Refusal :=
  .next (s.gate 0 (State.slotOff (4 * p + t) + 0x0C) v (fun s => s.swapWrite (4 * p + t) v))

end Sys2Proof.Machine
end

