-- ==== Sys2Proof/Machine/Engine.lean ====
section
/-! DEFINITION. The engines' sequencers: tasks, the life of an operation, run-ahead, the ordering table, and failing
tasks (R111 to R137, R231, R236 to R238, R325, R397, R398). -/

namespace Sys2Proof.Machine

/-- What an operation gives at issue: its writes, its counts, a fault it holds to retire with the payload of its event,
and a code reported in its completion without failing it. -/
structure OpRes where
  writes : List (Region × List Byte) := []
  counts : Counts := {}
  fault : Half := 0
  detail : List Byte := []
  note : Half := 0
  /-- Its output is empty (R171). -/
  empty : Bool := false
  /-- Counters of its engine that its commit adds to. -/
  tally : List (Nat × Nat) := []
  deriving DecidableEq, Repr

/-- The code of a class (R228). -/
def classCode : OpClass → Nat
  | .move => 1 | .matrix => 2 | .window => 3 | .vector => 4 | .digest => 5 | .gate => 6 | .fence => 7 | .wait => 8 | .culvert => 9

/-- The unit an operation runs on; 0 where operations of the class overlap (R108, R111). -/
def unitOf : OpClass → Nat
  | .matrix | .window => 1 | .vector => 2 | .digest => 3 | .move => 4 | _ => 0

/-- Granules of a space (R117). -/
def granule : Space → Nat
  | .tile => 4096 | _ => 256

/-- A fault of R194: a block that fails its check, held while no younger operation of the task issues. -/
def blockCheck (code : Half) : Bool := decide (0x2901#16 ≤ code) && decide (code ≤ 0x2904#16)

/-- Whether two declared regions meet, compared in granules (R117). -/
def regionsMeet (sameEngine : Bool) (a b : Region) : Bool :=
  decide (a.space = b.space) && decide (a.space ≠ .unused) && decide (a.space ≠ .recipe) &&
  (decide (a.space ≠ .tile) || sameEngine) &&
  (let g := granule a.space
   decide (a.addr / g ≤ (b.addr + b.len - 1) / g) && decide (b.addr / g ≤ (a.addr + a.len - 1) / g))

def anyMeet (same : Bool) (l m : List Region) : Bool := l.any (fun a => m.any (regionsMeet same a))

/-- Device ports begin here in space 3 (R228). -/
def portBase : Nat := 0xFFFF000000000000
def intakePort : Nat := portBase
def arrivalPort : Nat := portBase + 0x10000

namespace State

def eOff (e : Nat) : Nat := 0x260000 + 0x1000 * e
def engine (s : State) (e : Nat) : Engine := tget {} s.engines e
def setEngine (s : State) (e : Nat) (x : Engine) : State := { s with engines := tset {} s.engines e x }
def ctx (s : State) (c : Nat) : Option Ctx := tget none s.ctxs c
def setCtx (s : State) (c : Nat) (x : Ctx) : State := { s with ctxs := tset none s.ctxs c (some x) }
def dropCtx (s : State) (c : Nat) : State := { s with ctxs := tset none s.ctxs c none }
def modCtx (s : State) (c : Nat) (f : Ctx → Ctx) : State := match s.ctx c with | none => s | some x => s.setCtx c (f x)
def polderOf (s : State) (c : Nat) : Nat := match s.ctx c with | none => 0 | some x => x.polder

/-- An engine's clock in MHz (R110). -/
def engMHz (s : State) (e : Nat) : Nat := if s.flag (eOff e) 4 then 1200 else (s.engine e).clkMHz
/-- Cycles an engine makes in a time. -/
def engCycles (s : State) (e ns : Nat) : Nat := ns * s.engMHz e / 1000

/-- Engines of a polder, the lent spare among them. -/
def polderEngines (s : State) (p : Nat) : List Nat := (List.range 6).filter (fun e => (s.engine e).polder = some p)
/-- The engine that `SPARE_CFG` names. -/
def spareOf (s : State) : Option Nat := if s.flag 0x2B0800 31 then some (s.fld 0x2B0800 2 0) else none
/-- A polder's own engines: those that a share of the ordering table is measured by (R17, R123). -/
def ownEngines (s : State) (p : Nat) : List Nat := (s.polderEngines p).filter (fun e => decide (s.spareOf ≠ some e))
/-- LAST_CODE of several units of a kind. -/
def lastAll (s : State) (code : Half) (kind : Nat) : List Nat → State
  | [] => s
  | i :: r => lastAll { s with log := s.log.last code kind i } code kind r
/-- The ordering-table share of a polder (R123): its entries. -/
def shareOf (s : State) (p : Nat) : Option Nat :=
  ([0x268000, 0x268004].find? (fun o => s.flag o 31 && decide (s.fld o 18 16 = p))).map (fun o => s.fld o 11 0)
/-- Entries of the ordering table that the polder of share i uses (R123, R136). -/
def shareUsed (s : State) (i : Nat) : Nat :=
  let o := 0x268000 + 4 * i
  if s.flag o 31 then (s.ops.filter (fun x => decide (s.polderOf x.ctx = s.fld o 18 16))).length else 0
/-- Run-ahead on an engine (R119, R124). -/
def runAhead (s : State) (e : Nat) : Bool :=
  s.flag (eOff e) 8 && (match (s.engine e).polder with | none => false | some p => decide ((s.polderEngines p).length ≤ 2))

/-- Bytes of an engine's tile store for programs: 6 MiB, less the staging area of run-ahead (R119). -/
def tileBytes (s : State) (e : Nat) : Nat := if s.runAhead e then 0x580000 else 0x600000

def op (s : State) (id : Nat) : Option OpEntry := s.ops.find? (fun o => o.id = id)
def modOp (s : State) (id : Nat) (f : OpEntry → OpEntry) : State :=
  { s with ops := s.ops.map (fun o => if o.id = id then f o else o) }
def dropOp (s : State) (id : Nat) : State := { s with ops := s.ops.filter (fun o => o.id ≠ id) }

/-- An entry stands before a place in the program order of its context: job, task, operation. -/
def precedes (a : OpEntry) (job task idx : Nat) : Bool :=
  decide (a.job < job) || (decide (a.job = job) && (decide (a.task < task) || (decide (a.task = task) && decide (a.idx < idx))))
/-- Program order within a context. -/
def before (a b : OpEntry) : Bool := precedes a b.job b.task b.idx

/-! ## Memory as operations see it (R119, R227, R228) -/

/-- The tile store of an engine with what its complete speculative operations have staged (R120). -/
def tileView (s : State) (e : Nat) : Mem :=
  (s.ops.filter (fun o => decide (o.eng = e) && o.spec && o.complete)).foldl (fun m o =>
    o.out.foldl (fun m w => if w.1.space = .tile then writeBytes m w.1.addr w.2 else m) m) (s.engine e).tile

/-- The program's task that a job's i-th run stands for: its tasks in order, once for each bucket (R21). -/
def taskIndex (j : Job) (i : Nat) : Nat := j.first + (i - j.first) % max 1 j.count

/-- The recipe a context's task runs. -/
def taskRecipe (s : State) (c : Nat) (job : Nat) : Option Nat :=
  (s.ctx c).bind (fun x => (x.jobs.find? (fun j => j.id = job)).map (·.recipe))

/-- Where a region of the pool store or bonded memory lies, if within the polder's allocation (R228, R319). -/
def localAt (s : State) (p : Nat) (r : Region) : Option (Bool × Nat) :=
  let x := s.polder p
  match r.space with
  | .pool => if r.addr + r.len ≤ x.psn * 0x40000 then some (true, x.ps0 * 0x40000 + r.addr) else none
  | .bonded => if r.addr + r.len ≤ x.size then some (false, x.base + r.addr) else none
  | _ => none

/-- A recipe that is loaded holds a span of bonded memory: it is read-only (R225). -/
def inRecipe (s : State) (a n : Nat) : Bool :=
  s.recipes.any (fun (p : Nat × Option Recipe) => match p.2 with | none => false | some r => spansMeet a n r.base r.len)

/-- The module's KV pool and prefix table are its own (R202). -/
def inKv (s : State) (a n : Nat) : Bool :=
  (s.kv.running && spansMeet a n s.kvRegion.1 s.kvRegion.2) || (s.kv.treeRunning && spansMeet a n s.pfxRegion.1 s.pfxRegion.2)

/-- A recipe section's place (R228). -/
def sectionAt (s : State) (rec_ : Option Nat) (r : Region) : Option Nat :=
  (rec_.bind s.recipe).bind (fun x => (x.sections[r.addr / 2 ^ 56]?).bind (fun q =>
    if r.addr % 2 ^ 56 + r.len ≤ q.len then some (x.base + q.off + r.addr % 2 ^ 56) else none))

/-- The handle word that a track region names (R228). -/
def handleAt (s : State) (e : Nat) (r : Region) : Word := BitVec.ofNat 32 (leNat (readBytes (s.tileView e) (r.addr % 2 ^ 32) 4))

/-- Bytes of a region; none where an access leaves what it may reach (R118). Remote regions are read by GET alone. -/
def readRegion (s : State) (e c : Nat) (rec_ : Option Nat) (r : Region) : Option (List Byte) :=
  match r.space with
  | .tile => if r.addr + r.len ≤ s.tileBytes e then some (readBytes (s.tileView e) r.addr r.len) else none
  | .pool | .bonded => (s.localAt (s.polderOf c) r).map (fun x => readBytes (if x.1 then s.pool else s.bonded) x.2 r.len)
  | .host => some (readBytes s.log.host r.addr r.len)
  | .recipe => (s.sectionAt rec_ r).map (fun a => readBytes s.bonded a r.len)
  | .track | .remote | .unused => some []

/-- Whether an operation may write a region (R118, R225, R202). -/
def mayWrite (s : State) (e c : Nat) (r : Region) : Bool :=
  match r.space with
  | .tile => decide (r.addr + r.len ≤ s.tileBytes e)
  | .pool => (s.localAt (s.polderOf c) r).isSome
  | .bonded => match s.localAt (s.polderOf c) r with
    | none => false
    | some (_, a) => !s.inRecipe a r.len && !s.inKv a r.len
  | .host => true
  | _ => false

/-- ECC errors in a span that is written over are gone. -/
def clearEcc (s : State) (kind a n : Nat) : State :=
  { s with ecc := s.ecc.filter (fun w => !(decide (w.kind = kind) && decide (a ≤ 8 * w.word) && decide (8 * w.word + 8 ≤ a + n))) }

/-- Where a region lies as memory: the kind of R171's marks and the address. -/
def placeAt (s : State) (e c : Nat) (r : Region) : Option (Nat × Nat) :=
  match r.space with
  | .tile => some (e, r.addr)
  | .pool | .bonded => (s.localAt (s.polderOf c) r).map (fun x => (if x.1 then 8 else 9, x.2))
  | .host => some (16 + s.polderOf c, r.addr)
  | _ => none

/-- Bytes put in place in a region. -/
def writeRegion (s : State) (e c : Nat) (r : Region) (bs : List Byte) : State :=
  let bs := bs.take r.len
  match r.space with
  | .tile => let x := s.engine e; (s.setEngine e { x with tile := writeBytes x.tile r.addr bs }).clearEcc e r.addr bs.length
  | .pool | .bonded => match s.localAt (s.polderOf c) r with
    | none => s
    | some (true, a) => ({ s with pool := writeBytes s.pool a bs } : State).clearEcc 8 a bs.length
    | some (false, a) => { s with bonded := writeBytes s.bonded a bs }
  | .host => { s with log := { s.log with host := writeBytes s.log.host r.addr bs } }
  | .track => { s with bonded := writeBytes s.bonded r.addr bs }
  | _ => s

def writeAll (s : State) (e c : Nat) : List (Region × List Byte) → State
  | [] => s
  | w :: r => writeAll (s.writeRegion e c w.1 w.2) e c r

/-! ## Counts (R161) -/

def modJob (s : State) (c job : Nat) (f : Job → Job) : State :=
  s.modCtx c (fun x => { x with jobs := x.jobs.map (fun j => if j.id = job then f j else j) })

/-- A code that a job's completion record shows without failing: the first of them (R137, R167, R200). -/
def noteJob (s : State) (c job : Nat) (code : Half) : State := s.modJob c job (fun j => { j with note := if j.note = 0 then code else j.note })

def Counts.add (a b : Counts) : Counts := { inn := a.inn + b.inn, acc := a.acc + b.acc, out := a.out + b.out, nonf := a.nonf + b.nonf }

def bumpIf (s : State) (off n : Nat) : State := if n = 0 then s else s.bump off n

/-- Counters at offsets from a base each raised. -/
def bumpAll (s : State) (base : Nat) : List (Nat × Nat) → State
  | [] => s
  | (d, n) :: r => bumpAll (s.bumpIf (base + d) n) base r

/-- The counts of a committed operation reach the engine's counters; non-finite inputs post 0x2702, which the job's record
shows (R153, R161, R167). -/
def commitCounts (s : State) (e ctx job : Nat) (c : Counts) : State :=
  let o := eOff e
  let s := (((s.bumpIf (o + 0x40) c.inn).bumpIf (o + 0x44) c.acc).bumpIf (o + 0x48) c.out).bumpIf (o + 0x4C) c.nonf
  if c.nonf = 0 then s else (s.raise 0x2702#16 0x05 e c.nonf).noteJob ctx job 0x2702#16

/-! ## Issue (R116, R117, R119, R124, R125, R127, R234, R239) -/

/-- Operations of a context between issue and retire. -/
def ctxOps (s : State) (c : Nat) : List OpEntry := s.ops.filter (fun o => o.ctx = c)

/-- Speculative issue is open to an operation (R111): never to a pool form (R197). -/
def maySpec (d : OpDecl) : Bool :=
  match d.cls with
  | .matrix | .window | .vector => true
  | .move => decide (d.opc ≤ 1) && d.writes.all (fun r => r.space = .tile) && d.reads.all (fun r => r.space ≠ .host && r.space ≠ .track) && !d.writes.isEmpty
  | _ => false

/-- Staging pages an operation needs, and those in use (R119, R120). -/
def pagesOf (l : List Region) : Nat := (l.map (fun r => if r.space = .tile then (r.addr + r.len - 1) / 4096 + 1 - r.addr / 4096 else 0)).sum
def staged (s : State) (e : Nat) : Nat := ((s.ops.filter (fun o => decide (o.eng = e) && o.spec)).map (fun o => pagesOf o.writes)).sum

/-- An unresolved GATE of a context, on an engine or anywhere. -/
def gateOpen (s : State) (c : Nat) (e : Option Nat) : Bool :=
  s.ops.any (fun o => decide (o.ctx = c) && decide (o.cls = .gate) && !o.complete && (match e with | none => true | some x => decide (o.eng = x)))

/-- Handles of the tracks an operation reads. -/
def handlesRead (s : State) (h : OpHdr) : List Word :=
  ((h.reads ++ h.writes).filter (fun r => r.space = .track)).map (s.handleAt h.eng)

/-- A track region as the page-list entries it names (R197, R228): their bytes in bonded memory. -/
def entryRegion (s : State) (e : Nat) (r : Region) : Region :=
  if r.space = .track then
    { r with addr := s.kvBase + 0x40000 + 8192 * bits (s.handleAt e r) 11 0 + 4 * (r.addr / 2 ^ 32 % 2 ^ 16), len := 4 * r.len }
  else r

/-- What the operations of a task declare, as its program's records say. -/
def declsOf (s : State) (t : TaskRun) : List OpDecl :=
  match (s.ctx t.ctx).bind (fun x => x.jobs.find? (fun j => j.id = t.job)) with
  | none => []
  | some j => (((s.recipe j.recipe).bind (fun r => r.progs[j.code]?)).bind (fun p => p.decl[taskIndex j t.idx]?)).getD []

/-- The operation a task issues next, as far as its program's records are at hand. -/
def nextDecl (s : State) (t : TaskRun) : Option OpDecl := (s.declsOf t)[t.next]?

/-- Operations of a context between issue and retire that stand before a place in program order. -/
def olderOps (s : State) (c job task idx : Nat) : List OpEntry := (s.ctxOps c).filter (fun o => precedes o job task idx)

/-- Tasks of a context that stand before a place in program order and have not retired: on an engine, or to run again. -/
def olderRuns (s : State) (c job task : Nat) : List TaskRun :=
  let on := (List.range 6).filterMap (fun e => (s.engine e).task.filter (fun t => decide (t.ctx = c) && decide (t.fail = 0) &&
    (decide (t.job < job) || (decide (t.job = job) && decide (t.idx < task)))))
  let again := match (s.ctx c).bind (fun x => x.jobs.find? (fun j => j.id = job)) with
    | none => [] | some j => j.again.filter (fun t => decide (t.idx < task))
  on ++ again

/-- Operations of older tasks of a context that have not issued, as their programs' records declare them. -/
def unissued (s : State) (c job task : Nat) : List OpDecl := (s.olderRuns c job task).flatMap (fun t => (s.declsOf t).drop t.next)

/-- An older task has operations that have not issued. -/
def olderPending (s : State) (c job task : Nat) : Bool := (s.olderRuns c job task).any (fun t => decide (t.next < t.ops))

/-- Hazards of R117 with an entry between issue and retire. A GATE waits for its predicate after it has issued (R119). -/
def hazardWith (e : Nat) (gate : Bool) (rd wr : List Region) (o : OpEntry) : Bool :=
  let same := decide (o.eng = e)
  (!o.complete && !gate && anyMeet same o.writes rd) || anyMeet same o.writes wr || anyMeet same o.reads wr

/-- Hazards of R117 with an operation of another task that has not issued. -/
def declHolds (rd wr : List Region) (d : OpDecl) : Bool :=
  anyMeet false d.writes rd || anyMeet false d.writes wr || anyMeet false d.reads wr

/-- Whether operations of older tasks hold an operation of a task (R117, R124, R125, R127, R234). -/
def heldByOthers (s : State) (e : Nat) (t : TaskRun) (share : Bool) (d : OpDecl) : Bool :=
  let rd := d.reads.map (s.entryRegion e)
  let wr := d.writes.map (s.entryRegion e)
  let others := (s.olderOps t.ctx t.job t.idx t.next).filter (fun o => decide (o.task ≠ t.idx) || decide (o.job ≠ t.job))
  let later := s.unissued t.ctx t.job t.idx
  others.any (hazardWith e (decide (d.cls = .gate)) rd wr) || later.any (declHolds rd wr) ||
  others.any (fun o => decide (o.cls = .fence) && !o.complete) || later.any (fun x => decide (x.cls = .fence)) ||
  (share && (others.any (fun o => decide (o.cls = .gate) && !o.complete) || later.any (fun x => decide (x.cls = .gate)))) ||
  ((decide (d.cls = .fence) || decide (d.cls = .digest)) && (!others.isEmpty || s.olderPending t.ctx t.job t.idx)) ||
  (decide (d.cls = .culvert) && later.any (fun x => decide (x.cls = .culvert))) ||
  (!share && decide (d.cls ≠ .wait) && (s.olderRuns t.ctx t.job t.idx).any (fun x => x.startAt.isNone))

/-- Whether the older operations of its own task hold an operation (R117, R119, R127, R194, R234). -/
def heldByOwn (s : State) (e : Nat) (t : TaskRun) (share sig : Bool) (d : OpDecl) : Bool :=
  let rd := d.reads.map (s.entryRegion e)
  let wr := d.writes.map (s.entryRegion e)
  let own := (s.olderOps t.ctx t.job t.idx t.next).filter (fun o => decide (o.task = t.idx) && decide (o.job = t.job))
  own.any (fun o => hazardWith e (decide (d.cls = .gate)) rd wr o || ((decide (o.cls = .fence) || decide (o.cls = .wait)) && !o.complete) ||
    blockCheck o.fault || (share && decide (o.cls = .gate) && !o.complete)) ||
  ((decide (d.cls = .fence) || decide (d.cls = .digest)) && !own.isEmpty) ||
  (decide (d.cls = .culvert) && sig && (s.olderOps t.ctx t.job t.idx t.next).any (fun o => decide (o.cls = .culvert) && !o.complete))

/-- The polder of an engine holds an ordering-table share. -/
def shared (s : State) (e : Nat) : Bool := match (s.engine e).polder with | some p => (s.shareOf p).isSome | none => false

/-- Speculative operations of an engine (R119). -/
def specOps (s : State) (e : Nat) : List OpEntry := s.ops.filter (fun o => decide (o.eng = e) && o.spec)

/-- Run-ahead stops before an operation (R119): its class, 64 in flight, or no staging page. -/
def stopsAt (s : State) (e : Nat) (d : OpDecl) : Bool :=
  !maySpec d || decide (64 ≤ (s.specOps e).length) || decide (128 < s.staged e + pagesOf d.writes)

/-- What an operation declares. -/
def declOf (h : OpHdr) (cls : OpClass) (opc : Nat) : OpDecl := { cls, opc, reads := h.reads, writes := h.writes }

/-- A provisional operation writes outside the tile store: it is refused at load (R162, R163), and never issues. -/
def provBad (h : OpHdr) : Bool := h.prov && h.writes.any (fun r => decide (r.space ≠ .tile))

/-- How an operation may issue now: not at all, plainly, or past an unresolved gate. -/
def issueMode (s : State) (h : OpHdr) (cls : OpClass) (opc : Nat) : Option Bool :=
  let e : Nat := h.eng
  let c : Nat := h.ctx
  let d := declOf h cls opc
  match (s.engine e).task with
  | none => none
  | some t =>
    let unitBusy : Bool := decide (unitOf cls ≠ 0) && s.ops.any (fun o => decide (o.eng = e) && !o.complete && decide (unitOf o.cls = unitOf cls))
    if t.ctx ≠ c ∨ t.ops ≤ t.next ∨ t.fail ≠ 0 ∨ (s.engine e).inReset.isSome ∨ provBad h ∨ unitBusy ∨ s.heldByOthers e t (s.shared e) d ∨
        s.heldByOwn e t (s.shared e) h.sig d ∨ (cls = .wait ∧ t.startAt.isSome) then none
    else if s.gateOpen c (some e) then (if s.runAhead e ∧ ¬ s.stopsAt e d then some true else none)
    else some false

/-! ### Cycles stopped and cycles waited (R119, R132) -/

/-- Cycles of run-ahead stopped, counted as it goes on or its gate resolves. -/
def countStall (s : State) (e : Nat) : State :=
  let x := s.engine e
  match x.stallFrom with
  | none => s
  | some t => (s.setEngine e { x with stallFrom := none }).bumpIf (eOff e + 0x24) (s.engCycles e (s.now - t))

/-- Run-ahead has stopped (R119): at the end of its task, or before the operation `next` where that is known. -/
def noteStall (s : State) (e : Nat) (next : Option OpDecl) : State :=
  let x := s.engine e
  match x.task with
  | none => s
  | some t =>
    let stop : Bool := decide (t.ops ≤ t.next) || (match next with | none => decide (64 ≤ (s.specOps e).length) | some d => s.stopsAt e d)
    if s.runAhead e ∧ s.gateOpen t.ctx (some e) ∧ x.stallFrom = none ∧ stop then s.setEngine e { x with stallFrom := some s.now } else s

/-- A started task waits on an operation of another task: nothing of its own is at work, and what comes next for it, an issue
or a retire, is held by an older task (R132; DESIGN CHOICE, the assumption log, 133). -/
def waitsOnOther (s : State) (e : Nat) (t : TaskRun) : Bool :=
  let own := s.ops.filter (fun o => decide (o.eng = e) && decide (o.ctx = t.ctx) && decide (o.job = t.job) && decide (o.task = t.idx))
  t.startAt.isSome && own.all (·.complete) &&
  (if t.ops ≤ t.next then !own.isEmpty && (!(s.olderOps t.ctx t.job t.idx 0).isEmpty || !(s.olderRuns t.ctx t.job t.idx).isEmpty)
   else match s.nextDecl t with | none => false | some d => s.heldByOthers e t (s.shared e) d)

/-- The wait of an engine's task on other tasks begins, or ends and is counted. -/
def syncWait (s : State) (e : Nat) : State :=
  let x := s.engine e
  match x.task with
  | none => s
  | some t =>
    if s.waitsOnOther e t then
      (if t.blockedFrom.isSome then s else s.setEngine e { x with task := some { t with blockedFrom := some s.now } })
    else match t.blockedFrom with
      | none => s
      | some a => s.setEngine e { x with task := some { t with blockedFrom := none, waited := t.waited + (s.now - a) } }

def syncWaits (s : State) : State := (List.range 6).foldl syncWait s

/-- The ns a task has waited since its start (R132): on other tasks, and on tensor blocks. -/
def waitedNs (s : State) (e : Nat) (t : TaskRun) : Nat :=
  t.waited + (match t.blockedFrom with | none => 0 | some a => s.now - a) +
  (match s.ops.find? (fun o => decide (o.eng = e) && o.block.isSome && !o.met && !o.complete) with | none => 0 | some o => s.now - o.at_)

/-- Whether every declared region may be reached. -/
def regionsOk (s : State) (h : OpHdr) (rec_ : Option Nat) : Bool :=
  let c : Nat := h.ctx
  h.reads.all (fun r => match r.space with
    | .tile => decide (r.addr + r.len ≤ s.tileBytes h.eng)
    | .pool | .bonded => decide (portBase ≤ r.addr) || (s.localAt (s.polderOf c) r).isSome
    | .recipe => (s.sectionAt rec_ r).isSome
    | .track => decide (r.addr % 2 ^ 32 + 4 ≤ s.tileBytes h.eng)
    | _ => true) &&
  h.writes.all (fun r => decide (r.space = .remote) || decide (r.space = .track) || (decide (r.space = .bonded) && decide (portBase ≤ r.addr)) || s.mayWrite h.eng c r)

/-- A mark meets a span. -/
def markMeets (m : EmptyMark) (kind a n : Nat) : Bool := decide (m.kind = kind) && spansMeet a n m.addr m.len

/-- A region reads as a zero-length operand: the last operation that has written any of it was empty (R171). -/
def readsEmpty (s : State) (e c : Nat) (r : Region) : Bool :=
  match s.placeAt e c r with
  | none => false
  | some (k, a) => match s.empties.find? (fun m => markMeets m k a r.len) with | none => false | some m => m.empty

/-- An operation's write regions marked: as an empty output, or as written over one. -/
def markEmpties (s : State) (id e c : Nat) (empty : Bool) : List Region → State
  | [] => s
  | r :: l =>
    markEmpties (match s.placeAt e c r with
      | none => s
      | some (k, a) =>
        if empty || s.empties.any (fun m => markMeets m k a r.len) then
          { s with empties := { op := id, kind := k, addr := a, len := r.len, empty } :: s.empties } else s) id e c empty l

/-- An operation that reads a zero-length operand is empty itself (R171). -/
def emptyRes (cls : OpClass) : OpRes := { empty := true, tally := if cls = .window then [(0x58, 1)] else [] }

/-- Words with ECC errors that an operation reads (R118). -/
def eccHits (s : State) (h : OpHdr) : List EccWord :=
  s.ecc.filter (fun w => h.reads.any (fun r => match s.placeAt h.eng h.ctx r with
    | none => false | some (k, a) => decide (w.kind = k) && spansMeet a r.len (8 * w.word) 8))

/-- The counter of an ECC event: of the engine, or of the bank of the pool store (R118, R136). -/
def eccCounter (w : EccWord) : Nat :=
  (if w.kind < 6 then eOff w.kind + 0x2C else 0x269000 + 0x10 * (8 * w.word / 0x300000)) + (if w.bad then 4 else 0)

/-- What an operation gives at its issue (R118, R171): empty where it reads a zero-length operand or forms no output; a held
fault where it reaches beyond its memory or meets an uncorrectable word; and else what `f` gives. -/
def issueRes (s : State) (h : OpHdr) (cls : OpClass) (rec_ : Option Nat) (f : State → OpRes × State) : OpRes × State :=
  if h.reads.any (s.readsEmpty h.eng h.ctx) then (emptyRes cls, s)
  else
    let x := f s
    if x.1.empty then x
    else if ¬ s.regionsOk h rec_ then ({ fault := 0x6601#16 }, s)
    else
      let hits := s.eccHits h
      if hits.any (·.bad) then ({ fault := 0x2601#16 }, hits.foldl (fun s w => s.bump (eccCounter w) 1) s)
      else (x.1, hits.foldl (fun s w => s.bump (eccCounter w) 1) x.2)

/-- An operation belongs to the wide pass of its layer: it carries no provisional flag, and stands between the GATE of the
layer's CHECK and that GATE's target (R162, R239). -/
def inWidePass (t : TaskRun) (h : OpHdr) : Bool :=
  !h.prov && t.checked.any (fun x => decide (x.2.1 = h.layer) && (match x.2.2 with | none => false | some z => decide (t.next < z)))

/-- CHECKs of a task after an operation has issued: a CHECK is added, and a GATE ends the wide passes of those before it. -/
def checkedAfter (t : TaskRun) (o : OpEntry) : List (Nat × Nat × Option Nat) :=
  if o.cls = .vector ∧ o.opc = 0x15 then (o.id, o.layer, none) :: t.checked
  else if o.cls = .gate then t.checked.map (fun x => if x.2.2.isNone then (x.1, x.2.1, o.gateTo) else x)
  else t.checked

/-- ISSUE (R116): where the operation may issue, it runs `f` on the state at its issue, holds an ordering entry, and its
task moves on; a fault is held, and an operation that reaches beyond its memory writes nothing. `upd` fills the entry. -/
def issue (s : State) (h : OpHdr) (cls : OpClass) (opc : Nat) (f : State → OpRes × State)
    (upd : OpEntry → OpEntry := fun o => o) : State :=
  let e : Nat := h.eng
  match s.issueMode h cls opc, (s.engine e).task with
  | some spec, some t =>
    let (r, s) := s.issueRes h cls (s.taskRecipe h.ctx t.job) f
    let stale := decide (r.note = 0x2905#16) || decide (r.fault = 0x2905#16)
    let o : OpEntry := upd
      { id := s.nextOp, eng := e, ctx := h.ctx, gen := (s.engine e).gen, cls, opc, job := t.job, task := t.idx, idx := t.next,
        layer := h.layer, dig := h.dig && !r.empty, prov := h.prov, vary := h.vary, reads := h.reads.map (s.entryRegion e), writes := h.writes.map (s.entryRegion e), spec, tally := r.tally
        out := r.writes, counts := r.counts, wide := inWidePass t h, fault := r.fault, detail := r.detail
        note := r.note, cycles := h.cycles, at_ := s.now, complete := blockCheck r.fault
        reader := if h.reads.any (fun x => x.space = .track) && !stale then some s.kv.epoch else none }
    let s := s.countStall e
    let x := s.engine e
    let t := { t with
      next := t.next + 1, startAt := if cls = .wait then t.startAt else some (t.startAt.getD s.now)
      handles := t.handles ++ (s.handlesRead h).map (fun w => (o.id, w)), checked := checkedAfter t o }
    let s := (({ s with ops := s.ops ++ [o], nextOp := s.nextOp + 1 }).setEngine e { x with task := some t }).markEmpties o.id e h.ctx r.empty h.writes
    (s.noteStall e (s.nextDecl t)).syncWaits
  | _, _ => (s.noteStall e (some (declOf h cls opc))).syncWaits

/-! ## Completing (R116, R237) -/

/-- An operation digest over the bytes its write regions hold (R237). The handle that an OPEN writes stays out of it (R197;
DESIGN CHOICE, the assumption log, 137). -/
def opDigest (s : State) (o : OpEntry) : List Byte :=
  let opens : Bool := decide (o.cls = .move) && (decide (o.opc = 2) || decide (o.opc = 6))
  let bytes (r : Region) : List Byte := ((s.readRegion o.eng o.ctx none r).getD [])
  shake256 (leBytes 2 o.layer ++ leBytes 1 (classCode o.cls) ++ leBytes 1 o.opc ++
    (if opens then [] else o.writes.flatMap (fun r => leBytes 4 r.len ++ bytes r))) 32

/-- An operation's writes reach their places and its counts the engine (R116: complete and committed). -/
def putInPlace (s : State) (o : OpEntry) : State :=
  ((s.writeAll o.eng o.ctx o.out).commitCounts o.eng o.ctx o.job o.counts).bumpAll (eOff o.eng) o.tally

/-- A WAIT's word has reached its threshold (R234). -/
def waitMet (s : State) (o : OpEntry) : Bool :=
  match o.word with
  | none => true
  | some (r, t) => match s.localAt (s.polderOf o.ctx) { r with len := 8 } with
    | none => false
    | some (ps, a) => decide (t.toNat ≤ leNat (readBytes (if ps then s.pool else s.bonded) a 8))

/-- A reply to an operation of an earlier generation is dropped and counted in `FAB_STAT.LATE` (R135, R409). -/
def dropReply (s : State) (id : Nat) : State :=
  match (List.range 6).find? (fun e => (s.engine e).late.contains id) with
  | none => s
  | some e =>
    let s := s.setEngine e { s.engine e with late := (s.engine e).late.filter (· ≠ id) }
    { s with vig := { s.vig with late := min 0xFFFF (s.vig.late + 1) } }

/-- OP_COMPLETE (R116): the unit has finished; its writes are in place, or staged while speculative. -/
def opCompleteEff (s : State) (id : Nat) : State :=
  match s.op id with
  | none => s.dropReply id
  | some o =>
    if o.complete ∨ ¬ o.met ∨ o.remote ∨ o.cls = .gate ∨ ¬ s.waitMet o then s
    else
      let s := if o.spec then s else s.putInPlace o
      let s := s.modOp id (fun x => { x with complete := true, reader := none })
      (if o.dig then s.modOp id (fun x => { x with digest := some (s.opDigest o) }) else s).syncWaits

/-! ## Running digests (R238, R239) -/

def layerOf (d : RunDigest) (l : Nat) : LayerRun := tget {} d.layers l

/-- Counts and a digest taken by a context's running digest. -/
def absorb (d : RunDigest) (layer : Nat) (wide : Bool) (c : Counts) (dg : Option (List Byte)) : RunDigest :=
  let x := layerOf d layer
  let x := if wide then { x with wide := Counts.add x.wide c } else { x with first := Counts.add x.first c }
  let d := { d with layers := tset {} d.layers layer x }
  match dg with | none => d | some b => { d with absorbed := d.absorbed ++ b, taken := d.taken + 1 }

/-! ## Jobs and tasks (R115, R129, R132, R351, R397, R398) -/

def findJob (s : State) (c job : Nat) : Option Job := (s.ctx c).bind (fun x => x.jobs.find? (fun j => j.id = job))

/-- Whether any engine holds a task of a job. -/
def jobRunning (s : State) (c job : Nat) : Bool :=
  (List.range 6).any (fun e => match (s.engine e).task with | none => false | some t => decide (t.ctx = c) && decide (t.job = job))

/-- The record of a job that has ended (R351): its status, flags, tasks retired, cycle count, and where it failed. -/
def jobRecord (j : Job) : CompRec :=
  { status := if j.fail = 0 then j.note else j.fail, retired := j.done
    flags := BitVec.ofNat 16 (flagBit 0 j.excursion + flagBit 1 j.varied + flagBit 2 j.widened + flagBit 3 (!j.unfixed) +
      flagBit 4 j.cycleList.isSome), result := BitVec.ofNat 64 (j.cycles.sum)
    failTask := if j.fail = 0 then 0xFFFFFFFF#32 else BitVec.ofNat 32 j.failTask, failOp := BitVec.ofNat 16 j.failOp }

/-- The cycle counts of a job's tasks in host memory (R348). -/
def writeCycles (s : State) (j : Job) : State :=
  match j.cycleList with
  | none => s
  | some a => { s with log := { s.log with host := writeBytes s.log.host a (j.cycles.flatMap (leBytes 4)) } }

/-- A job whose tasks have all retired, or that has failed with none running, completes and leaves its context. -/
def jobCheck (s : State) (c job : Nat) : State :=
  match s.findJob c job with
  | none => s
  | some j =>
    if (j.count * j.passes ≤ j.done ∨ j.fail ≠ 0) ∧ j.again.isEmpty ∧ ¬ s.jobRunning c job then
      let s := s.writeCycles j
      let s := s.modCtx c (fun x => { x with jobs := x.jobs.filter (fun y => y.id ≠ job) })
      let s := if j.silent then s else { s with log := s.log.complete s.stamp j.fn j.ring j.tag j.irq (jobRecord j) }
      if j.build then
        let s := if j.fail ≠ 0 then s.failBuild j.recipe else s
        let s := match s.recipe j.recipe with | none => s | some r => s.putRecipe j.recipe { r with buildJob := false }
        s.drainRecipe j.recipe
      else s
    else s

/-- The part of every track whose handle a finally failed task read is sealed with the code, and its track closed (R398). -/
def sealTracks (s : State) (code : Half) (lost : Bool) : List Word → State
  | [] => s
  | h :: r =>
    let s := match s.parts.find? (fun p => decide (p.track = h) && !p.sealed && p.proxy.isNone) with
      | none => s
      | some p => s.sealUndecided p code false lost none
    sealTracks (s.closeHandle h) code lost r

/-- The task a context offers next: one that runs again, or the next of its job. -/
def nextTask (s : State) (c : Nat) : Option TaskRun :=
  match s.ctx c with
  | none => none
  | some x => if x.doomed.isSome then none else match x.jobs with
    | [] => none
    | j :: _ =>
      match j.again with
      | t :: _ => some t
      | [] =>
        if j.fail ≠ 0 ∨ j.count * j.passes ≤ j.placed then none
        else
          let ops := match (s.recipe j.recipe).bind (fun r => r.progs[j.code]?) with
            | some p => ((p.tasks[taskIndex j (j.first + j.placed)]?).getD (1, 0)).1
            | none => 1
          some { ctx := c, job := j.id, idx := j.first + j.placed, ops }

/-- A waiting task that has not started gives up its engine: it is queued again (R113, R325). -/
def displace (s : State) (e : Nat) : State :=
  let x := s.engine e
  match x.task with
  | none => s
  | some t =>
    let word := (s.ops.find? (fun o => decide (o.eng = e) && decide (o.ctx = t.ctx) && decide (o.cls = .wait) && !o.complete)).bind (·.word)
    let s := { s with ops := s.ops.filter (fun o => !(decide (o.eng = e) && decide (o.ctx = t.ctx) && decide (o.task = t.idx) && decide (o.job = t.job))) }
    let s := s.setEngine e { x with task := none }
    (s.modJob t.ctx t.job (fun j => { j with again := { t with next := 0, startAt := none, waited := 0, handles := [], checked := [], blockedFrom := none, snap := none } :: j.again })).modCtx
      t.ctx (fun y => { y with waitMet := false, waitOn := word })

/-- The context served first: highest PRIO, then ready earliest, then lowest number (R325). -/
def firstCtx : List (Nat × Ctx) → Option (Nat × Ctx)
  | [] => none
  | a :: r => match firstCtx r with
    | none => some a
    | some b =>
      if b.2.prio < a.2.prio ∨ (b.2.prio = a.2.prio ∧ (a.2.readySince < b.2.readySince ∨ (a.2.readySince = b.2.readySince ∧ a.1 < b.1)))
      then some a else some b

/-- The contexts, as numbers and what they hold. -/
def allCtxs (s : State) : List (Nat × Ctx) := s.ctxs.filterMap (fun (p : Nat × Option Ctx) => p.2.map (fun x => (p.1, x)))

/-! ## Residency (R324, R327, R328, R332) -/

/-- An engine's task has started. -/
def holdsStarted (s : State) (e : Nat) : Bool := match (s.engine e).task with | none => false | some t => t.startAt.isSome

/-- A context has a started task. -/
def startedTask (s : State) (c : Nat) : Bool :=
  (List.range 6).any (fun e => match (s.engine e).task with | none => false | some t => decide (t.ctx = c) && t.startAt.isSome)

/-- A task of a context stands on an engine with no WAIT unmet, not yet started. -/
def poised (s : State) (c : Nat) : Bool :=
  (List.range 6).any (fun e => match (s.engine e).task with
    | none => false
    | some t => decide (t.ctx = c) && t.startAt.isNone && !s.ops.any (fun o => decide (o.eng = e) && decide (o.cls = .wait) && !o.complete))

/-- Runnable or running (R324). -/
def ready (s : State) (c : Nat) (x : Ctx) : Bool :=
  s.startedTask c || (!x.deferred && (s.poised c || (x.waitMet && (s.nextTask c).isSome)))

/-- An engine holds a context's resident regions. -/
def loadedOn (s : State) (c : Nat) : List Nat := (List.range 6).filter (fun e => (s.engine e).resident.contains c)

/-- The slice clock and the time since which a context is blocked, idle or deferred, as its state is now (R328, R329). -/
def syncCtx (s : State) (c : Nat) : State :=
  match s.ctx c with
  | none => s
  | some x =>
    let r := s.ready c x
    let on := r && x.resident && x.ending.isNone && !(s.loadedOn c).isEmpty
    let x := { x with blockedSince := if r then none else some (x.blockedSince.getD s.now) }
    match x.runFrom with
    | none => s.setCtx c (if on then { x with runFrom := some s.now } else x)
    | some t => s.setCtx c (if on then x else { x with runFrom := none, ran := x.ran + (s.now - t) })

/-- The switch descriptor of a polder's contexts (R322): the largest values its recipes declare. -/
def switchDesc (s : State) (p : Nat) : Nat × Nat :=
  (s.recipes.filterMap (fun (r : Nat × Option Recipe) => r.2)).foldl (fun a r =>
    if r.fn = p + 1 then r.progs.foldl (fun a g => (max a.1 g.bLive, max a.2 g.nInflight)) a else a) (0, 0)

/-- t_switch in ns (R327). -/
def tSwitch (d : Nat × Nat) : Nat := 900 + (d.1 + 60) / 120 + 3 * d.2

/-- A switch-in begins on an engine (R327). -/
def startLoad (s : State) (e c : Nat) : State :=
  let d := s.switchDesc (s.polderOf c)
  let s := s.displace e
  let s := s.modCtx c (fun x => { x with bLive := d.1, nInflight := d.2 })
  s.setEngine e { s.engine e with loading := some (c, s.now + tSwitch d) }

/-- What an engine does that holds no started task: the leaving context of an ended slice gives way to the incoming one, or
a resident context it does not hold yet switches in. -/
def loadNext (s : State) (e : Nat) : State :=
  let x := s.engine e
  match x.polder with
  | none => s
  | some p =>
    if x.loading.isSome ∨ x.leaving ∨ x.retired ∨ x.inReset.isSome ∨ s.holdsStarted e then s
    else
      let mine := s.allCtxs.filter (fun y => decide (y.2.polder = p))
      match mine.find? (fun y => x.resident.contains y.1 && y.2.ending.isSome) with
      | some (l, y) => (s.setEngine e { x with resident := x.resident.filter (· ≠ l) }).startLoad e ((y.ending.getD (0, 0)).2)
      | none => match mine.find? (fun y => y.2.resident && y.2.ending.isNone && !x.resident.contains y.1) with
        | some (c, _) => s.startLoad e c
        | none => s

def loadAll (s : State) : List Nat → State
  | [] => s
  | e :: r => loadAll (s.loadNext e) r

/-- Leaving contexts that no engine holds any more are non-resident (R328). -/
def endLeavers (s : State) : List Nat → State
  | [] => s
  | c :: r => endLeavers (match s.ctx c with
      | none => s
      | some x => if x.ending.isSome ∧ (s.loadedOn c).isEmpty then s.setCtx c { x with resident := false, ending := none, outSince := s.now, ran := 0, runFrom := none } else s) r

/-- CLK and RUNAHEAD of the polder an engine joins (R136). -/
def joinPolder (s : State) (e p : Nat) : State :=
  let s := match (s.polderEngines p).find? (fun i => i ≠ e) with
    | none => s
    | some i => (s.setFld (eOff e) 4 4 (s.fld (eOff i) 4 4)).setFld (eOff e) 8 8 (s.fld (eOff i) 8 8)
  (s.setEngine e { s.engine e with polder := some p, leaving := false, resident := [] }).loadNext e

/-- A leaving engine with no started task and no switch-in under way leaves its polder; a reclaimed spare posts 0x4F02, and
joins the polder it takes over for (R320, R332, R335). -/
def leaveCheck (s : State) (e : Nat) : State :=
  let x := s.engine e
  if ¬ x.leaving ∨ s.holdsStarted e ∨ x.loading.isSome then s
  else
    let p := x.polder.getD 0
    let s := s.displace e
    let s := s.setEngine e { s.engine e with polder := none, leaving := false, resident := [] }
    let s := s.endLeavers (s.allCtxs.map (·.1))
    if s.spare.reclaiming ∧ s.flag 0x2B0800 31 ∧ s.fld 0x2B0800 2 0 = e then
      let dst := s.spare.takeover
      let s := { s with spare := { s.spare with lent := none, reclaiming := false } }
      let s := s.raise 0x4F02#16 0x0A 0x10 1 (leBytes 4 p ++ leBytes 4 (dst.getD 0xFF))
      match dst with | none => s | some q => s.joinPolder e q
    else s

/-- The incoming context of R328 among some: highest PRIO, then non-resident longest, then lowest number. -/
def firstIncoming (l : List (Nat × Ctx)) : Option (Nat × Ctx) := firstCtx (l.map (fun x => (x.1, { x.2 with readySince := x.2.outSince })))

/-- Contexts of a polder that are neither resident nor coming in. -/
def outside (s : State) (p : Nat) : List (Nat × Ctx) :=
  s.allCtxs.filter (fun x => decide (x.2.polder = p) && !x.2.resident && x.2.doomed.isNone &&
    !s.allCtxs.any (fun y => match y.2.ending with | none => false | some q => decide (q.2 = x.1)))

/-- A context comes to be resident where the polder has room: a runnable one before others (R323, R328). -/
def fillResidency (s : State) (p : Nat) : State :=
  let n := (s.allCtxs.filter (fun x => decide (x.2.polder = p) && x.2.resident)).length
  if (s.polder p).resMax ≤ n then s
  else
    let out := s.outside p
    match (firstIncoming (out.filter (fun x => s.ready x.1 x.2))).or (firstIncoming out) with
    | none => s
    | some (c, _) => (s.modCtx c (fun x => { x with resident := true, ran := 0, runFrom := none })).loadAll (s.polderEngines p)

/-- Contexts whose incoming context is gone take the next candidate, or stay (R332). -/
def redirect (s : State) (c : Nat) : List (Nat × Ctx) → State
  | [] => s
  | (l, x) :: r => redirect (match x.ending with
      | some (t, i) =>
        if i = c then s.setCtx l { x with ending := (firstIncoming ((s.outside x.polder).filter (fun y => s.ready y.1 y.2))).map (fun y => (t, y.1)) } else s
      | none => s) c r

/-- A context that is to be destroyed goes once it has no job and no started task: its ring is unbound, its regions are
dropped, and the next candidate comes in (R321, R332, R347, R358). -/
def doomCheck (s : State) (c : Nat) : State :=
  match s.ctx c with
  | none => s
  | some x =>
    match x.doomed with
    | none => s
    | some d =>
      if ¬ x.jobs.isEmpty ∨ s.startedTask c then s
      else
        let s := { s with engines := s.engines.map (fun (p : Nat × Engine) => (p.1, { p.2 with resident := p.2.resident.filter (· ≠ c) })) }
        let s := s.dropCtx c
        let s := (s.redirect c s.allCtxs).fillResidency x.polder
        let ring := s.log.ring (x.polder + 1) x.ring
        let s := { s with log := s.log.setRing (x.polder + 1) x.ring { ring with bound := 0 } }
        match d with
        | none => s
        | some h => { s with log := s.log.complete s.stamp h.fn h.ring h.tag h.irq {} }

/-- The debt of a context grows; past its slice it posts 0x4F01 once per onset (R330). -/
def addDebt (s : State) (c ns : Nat) : State :=
  match s.ctx c with
  | none => s
  | some x =>
    let d := x.debt + ns
    let excess := decide (x.sliceUs * 1000 < d)
    let s := s.setCtx c { x with debt := d, debtPosted := excess }
    if excess && !x.debtPosted then s.raiseNow 0x4F01#16 0x0A x.polder (leBytes 4 c) else s

def pOffset (p : Nat) : Nat := 0x2B0000 + 0x100 * p

/-- A context that leaves at its slice's end has had its last started task retire: the overrun (R330). -/
def overrun (s : State) (c : Nat) : State :=
  match s.ctx c with
  | none => s
  | some x => match x.ending with
    | none => s
    | some (t0, _) =>
      if (List.range 6).any (fun e => match (s.engine e).task with | none => false | some t => decide (t.ctx = c) && t.startAt.isSome) then s
      else (s.bumpIf (pOffset x.polder + 0x28) (s.now - t0)).addDebt c (s.now - t0)

/-- A task whose re-run found its input overwritten, or that had applied an atomic, is lost (R399). -/
def lostTask (t : TaskRun) : Bool := decide (t.fail = 0x4061#16) || decide (t.fail = 0x5B01#16) || decide (t.fail = 0x7042#16)
/-- The code of the parts of a lost task: 0x7043 where a peer's absence lost it (R372). -/
def lostCode (t : TaskRun) : Half := if t.fail = 0x7042#16 then 0x7043#16 else 0x5C03#16

/-- A run that is repeated contributes nothing to the running digest (R238). -/
def restoreDigest (s : State) (t : TaskRun) : State :=
  match t.snap with | none => s | some d => s.modCtx t.ctx (fun c => { c with dig := d })

/-- A run of a task queued again in program order. -/
def insertRun (t : TaskRun) : List TaskRun → List TaskRun
  | [] => [t]
  | a :: r => if t.idx < a.idx then t :: a :: r else a :: insertRun t r

/-- A task is to run again from its start after a reset (R404). -/
def rerunTask (s : State) (t : TaskRun) : State :=
  (s.restoreDigest t).modJob t.ctx t.job (fun j => { j with
    again := insertRun { ctx := t.ctx, job := t.job, idx := t.idx, ops := t.ops, rerun := t.rerun, redo := true } j.again })

/-- A task that has ended leaves its engine (R116, R132, R331, R397, R404). -/
def finishTask (s : State) (e : Nat) (t : TaskRun) : State :=
  let span := s.now - t.startAt.getD s.now
  let cyc := s.engCycles e (span - s.waitedNs e t)
  let bound := 240000 * 1000 / s.engMHz e
  let s := (s.countStall e).setEngine e { s.engine e with task := none, stallFrom := none }
  let s := { s with empties := s.empties.filter (fun m => m.kind ≠ e) }
  let t := if t.discard && t.atomic then { t with fail := 0x5B01#16 } else t
  if t.discard ∧ ¬ t.atomic then ((((s.rerunTask t).overrun t.ctx).leaveCheck e).loadNext e).syncCtx t.ctx
  else
  let s := (s.bump (eOff e + 0x14) 1).modJob t.ctx t.job (fun j => { j with
    done := j.done + 1, cycles := j.cycles ++ [cyc], excursion := j.excursion || t.excursion, varied := j.varied || t.varied
    widened := j.widened || !t.wide.isEmpty, unfixed := j.unfixed || !s.flag (eOff e) 4 })
  let s := if t.overBound then (s.bumpIf (pOffset (s.polderOf t.ctx) + 0x2C) (span - bound)).addDebt t.ctx (span - bound) else s
  let s :=
    if t.fail = 0 then s
    else if (t.fail = 0x2061#16 ∨ t.fail = 0x2601#16) ∧ ¬ t.rerun ∧ ¬ t.atomic then
      ((s.restoreDigest t).modJob t.ctx t.job (fun j => { j with
        done := j.done - 1, cycles := j.cycles.dropLast
        again := j.again ++ [{ ctx := t.ctx, job := t.job, idx := t.idx, ops := t.ops, rerun := true }] })).bump 0x300048 1
    else
      (s.modJob t.ctx t.job (fun j => if j.fail ≠ 0 then j else { j with fail := t.fail, failTask := taskIndex j t.idx, failOp := t.failOp })).sealTracks
        (if lostTask t then lostCode t else t.fail) (lostTask t) (t.handles.map (·.2))
  let s := ((s.overrun t.ctx).jobCheck t.ctx t.job).doomCheck t.ctx
  ((s.leaveCheck e).loadNext e).syncCtx t.ctx

/-- The task of an engine ends once its operations have all issued, or it has failed, and none is between issue and
retire. -/
def taskCheck (s : State) (e : Nat) : State :=
  match (s.engine e).task with
  | none => s
  | some t =>
    if (t.ops ≤ t.next ∨ t.fail ≠ 0) ∧ ¬ s.ops.any (fun o => decide (o.eng = e) && decide (o.ctx = t.ctx) && decide (o.job = t.job) && decide (o.task = t.idx))
    then s.finishTask e t else s

/-- The task of an engine fails with a code at an operation: nothing more of it issues, and its operations that have not
completed are dropped. -/
def failTask (s : State) (e : Nat) (code : Half) (idx : Nat) : State :=
  let x := s.engine e
  match x.task with
  | none => s
  | some t =>
    if t.fail ≠ 0 then s
    else
      let s := s.setEngine e { x with task := some { t with fail := code, failOp := idx } }
      { s with ops := s.ops.filter (fun o => !(decide (o.eng = e) && decide (o.ctx = t.ctx) && decide (o.task = t.idx) && decide (o.job = t.job))) }

/-! ## Retiring (R116, R118, R162, R231, R238) -/

/-- Whether an operation may retire: complete, committed, and every older operation of its context has retired. -/
def mayRetire (s : State) (o : OpEntry) : Bool :=
  o.complete && !o.spec && !(s.ctxOps o.ctx).any (fun x => before x o) &&
  !(List.range 6).any (fun e => match (s.engine e).task with
    | none => false
    | some t => decide (t.ctx = o.ctx) && decide (e ≠ o.eng) && (decide (t.job < o.job) || (decide (t.job = o.job) && decide (t.idx < o.task)))) &&
  !((s.findJob o.ctx o.job).any (fun j => j.again.any (fun t => decide (t.idx < o.task))))

/-- A CHECK that retires (R162): the held items of its layer's provisional operations are applied, or discarded. -/
def applyHeld (s : State) (o : OpEntry) : State :=
  match o.check, (s.engine o.eng).task with
  | some widen, some t =>
    let mine := t.held.filter (fun h => h.1 = o.layer)
    let x := s.engine o.eng
    let s := s.setEngine o.eng { x with task := some { t with
      held := t.held.filter (fun h => h.1 ≠ o.layer), wide := if widen then including t.wide o.layer else t.wide } }
    if widen then
      let s := s.modCtx o.ctx (fun c =>
        { c with dig := { c.dig with layers := tset {} c.dig.layers o.layer { layerOf c.dig o.layer with widened := true } } })
      ((s.bump (eOff o.eng + 0x50) 1).raise 0x2703#16 0x05 o.eng 1 (leBytes 2 o.layer)).noteJob o.ctx o.job 0x2703#16
    else
      s.modCtx o.ctx (fun c => { c with dig := mine.foldl (fun d h => absorb d o.layer false h.2.1 (if h.2.2.isEmpty then none else some h.2.2)) c.dig })
  | _, _ => s

/-- What retiring adds to the digests: held while provisional, absorbed otherwise. -/
def retireDigest (s : State) (o : OpEntry) : State :=
  if o.prov then
    let x := s.engine o.eng
    match x.task with
    | none => s
    | some t => s.setEngine o.eng { x with task := some { t with held := t.held ++ [(o.layer, o.counts, o.digest.getD [])] } }
  else if o.cls = .digest ∧ o.opc = 0 then
    s.modCtx o.ctx (fun c => { c with dig := { c.dig with absorbed := [], taken := 0, varied := false, layers := tset {} c.dig.layers o.layer {} } })
  else s.modCtx o.ctx (fun c => { c with dig := absorb c.dig o.layer o.wide o.counts o.digest })

/-- The first operation of a task to retire keeps the running digest as it stood. -/
def snapDigest (s : State) (o : OpEntry) : State :=
  let x := s.engine o.eng
  match x.task, s.ctx o.ctx with
  | some t, some c => if t.snap.isSome then s else s.setEngine o.eng { x with task := some { t with snap := some c.dig } }
  | _, _ => s

/-- A code of an operation raised at its retire: those of the KV pool and the prefix tree under their own unit, and a
failed block check counted (R194, R203, R221). -/
def raiseOp (s : State) (code : Half) (e : Nat) (detail : List Byte) : State :=
  let s := if code = 0x2901#16 ∨ code = 0x2902#16 ∨ code = 0x2903#16 ∨ code = 0x2904#16 then s.bump 0x270030 1 else s
  let kind : Nat := if codeChapter code = 0x90 ∨ codeChapter code = 0xA0 then 0x06 else 0x05
  if codeClass code = 1 then s.last code kind e else s.raise code kind e 1 detail

/-- A tensor block that a WAIT_BLOCK has read leaves its output ring with those before it (the assumption log, 18). -/
def releaseOut (s : State) (o : OpEntry) : State :=
  match o.block, o.reads with
  | some b, r :: _ =>
    match s.localAt (s.polderOf o.ctx) r with
    | none => s
    | some (_, a) =>
      match (List.range 16).find? (fun i => let x := s.slot i; x.ctx.isSome && decide (x.outBase ≤ a) &&
          decide (a < x.outBase + x.outBlocks * blockMax (s.fld (sOff (x.ctx.getD 0)) 8 0))) with
      | none => { s with codec := { s.codec with sessions := s.codec.sessions.map (fun (p : Nat × Option Session) =>
          (p.1, p.2.map (fun x => if x.ctx = o.ctx then { x with out := x.out.filter (fun n => decide (b < n)) } else x))) } }
      | some i => s.setSlot i { s.slot i with out := (s.slot i).out.filter (fun n => decide (b < n)) }
  | _, _ => s

/-- VARY at retire (R231). -/
def retireVary (s : State) (o : OpEntry) : State :=
  if o.vary then
    let x := s.engine o.eng
    let s := match x.task with | none => s | some t => s.setEngine o.eng { x with task := some { t with varied := true } }
    (s.bump (eOff o.eng + 0x68) 1).modCtx o.ctx (fun c => { c with dig := { c.dig with varied := true } })
  else s

/-- OP_RETIRE (R116). -/
def opRetireEff (s : State) (id : Nat) : State :=
  match s.op id with
  | none => s
  | some o =>
    if ¬ s.mayRetire o then s
    else
      let s := ((s.dropOp id).snapDigest o).bump (eOff o.eng + 0x10) 1
      let s := if o.cls = .culvert then s.bump (eOff o.eng + 0x60) 1 else s
      let s := s.modJob o.ctx o.job (fun j => { j with opsRetired := j.opsRetired + 1 })
      syncWaits <| if o.fault ≠ 0 then
        ((s.raiseOp o.fault o.eng o.detail).failTask o.eng o.fault o.idx).taskCheck o.eng
      else
        let s := if o.note = 0 then s else
          (s.raiseOp o.note o.eng o.detail).noteJob o.ctx o.job o.note
        ((((s.retireVary o).retireDigest o).applyHeld o).releaseOut o).taskCheck o.eng

/-! ## Gates (R119 to R122) -/

/-- The gate that an engine has not resolved. -/
def openGate (s : State) (e : Nat) : Option OpEntry := s.ops.find? (fun o => decide (o.eng = e) && decide (o.cls = .gate) && !o.complete)

/-- Speculative operations commit in program order: what is complete reaches its place. -/
def commitSpec (s : State) : List OpEntry → State
  | [] => s
  | o :: r =>
    let s := if o.complete then s.putInPlace o else s
    commitSpec (s.modOp o.id (fun x => { x with spec := false })) r

/-- GATE_RESOLVE (R121): a non-zero predicate exits to the target, zero goes on. -/
def gateResolveEff (s : State) (e : Nat) : State :=
  match s.openGate e, (s.engine e).task with
  | some g, some t =>
    match g.reads with
    | [] => s
    | r :: _ =>
      if s.ops.any (fun o => decide (o.id ≠ g.id) && decide (o.ctx = g.ctx) && before o g && !o.complete && anyMeet true o.writes [r]) then s
      else
        let s := s.countStall e
        let spec := s.specOps e
        let s := s.modOp g.id (fun x => { x with complete := true })
        if leNat (readBytes (s.engine e).tile r.addr 4) ≠ 0 then
          let s := (s.bump (eOff e + 0x1C) 1).bumpIf (eOff e + 0x18) spec.length
          let s := { s with ops := s.ops.filter (fun o => !(decide (o.eng = e) && o.spec)) }
          let gone (id : Nat) : Bool := spec.any (fun o => decide (o.id = id))
          let s := { s with empties := s.empties.filter (fun m => !gone m.op) }
          (s.setEngine e { s.engine e with task := some { t with
            next := g.gateTo.getD t.next, handles := t.handles.filter (fun x => !gone x.1), checked := t.checked.filter (fun x => !gone x.1) } }).syncWaits
        else ((s.bump (eOff e + 0x20) 1).commitSpec spec).syncWaits
  | _, _ => s

/-! ## Placement (R115, R123, R124, R325) -/

/-- Whether an engine may take a task: in service, no started task, no switch-in, not leaving. -/
def engineFree (s : State) (e : Nat) : Bool :=
  let x := s.engine e
  !x.retired && !x.fenced && x.inReset.isNone && x.loading.isNone && !x.leaving &&
  (match x.task with | none => true | some t => t.startAt.isNone && s.ops.any (fun o => decide (o.eng = e) && decide (o.cls = .wait) && !o.complete))

/-- Ordering entries that the task placed on an engine holds or will hold. -/
def entriesOn (s : State) (e : Nat) : Nat :=
  match (s.engine e).task with
  | none => 0
  | some t => (s.ops.filter (fun o => o.eng = e)).length + (t.ops - t.next)

/-- Ordering capacity for a task of n operations on an engine, whose own waiting task would leave it (R115, R124). -/
def orderRoom (s : State) (p e n : Nat) : Bool :=
  match s.shareOf p with
  | some k => decide ((((s.polderEngines p).filter (· ≠ e)).map s.entriesOn).sum + n ≤ k) && decide (n ≤ 512)
  | none => decide (n ≤ 64)

/-- A resident context that offers a task on an engine. The engine's waiting task, an older one where it is of the same
context, does not give way to it (R115, R124; DEDUCED, the assumption log, 134). -/
def offers (s : State) (p e : Nat) (c : Nat) (x : Ctx) : Bool :=
  decide (x.polder = p) && x.resident && !x.deferred && x.ending.isNone && x.waitMet && (s.engine e).resident.contains c &&
  (match (s.engine e).task with | none => true | some t => decide (t.ctx ≠ c)) &&
  (match s.nextTask c with | none => false | some t => s.orderRoom p e t.ops)

/-- The clock in MHz of a task in variable-clock mode (R110, R388, R391): 1,200 and 50 for each step the ledger's balance and
the temperature allow. -/
def variableMHz (s : State) : Nat :=
  let k : Nat := if s.flag 0x2F0100 31 ∧ 0 < s.power.cap then min (clampInt 0 4 (4 * s.power.bal / s.power.cap)).toNat s.power.kTherm else s.power.kTherm
  1200 + 50 * k

/-- A job's parameters behind the running digest state of its context in pool store (R238, R348). -/
def writeParams (s : State) (c job : Nat) : State :=
  match s.findJob c job with
  | none => s
  | some j =>
    if j.params.isEmpty then s
    else match s.localAt (s.polderOf c) { space := .pool, addr := Config.digestState c + 256, len := 32 } with
      | none => s
      | some (_, a) => { s with pool := writeBytes s.pool a (padTo 32 j.params) }

/-- Where a recipe's resident regions lie in the tile store: below the staging area (R114, R119; DESIGN CHOICE, the assumption
log, 131). -/
def residentAt (digest : List Byte) : Nat := Config.residentPage digest % 0x480 * 4096

/-- The resident regions of a program reach the tile store of an engine before a task of it starts there (R114): the images of
the recipe's RESIDENT sections, in ascending ordinal, as far as the program declares them. -/
def loadResident (s : State) (e key code : Nat) : State :=
  match s.recipe key with
  | none => s
  | some r =>
    let n := match r.progs[code]? with | none => 0 | some g => g.resident
    let secs := (List.range 65536).flatMap (fun i => r.sections.filter (fun x => decide (x.typ = 4) && decide (x.ord = i)))
    let image := (secs.flatMap (fun x => readBytes s.bonded (r.base + x.off) x.len)).take n
    s.setEngine e { s.engine e with tile := writeBytes (s.engine e).tile (residentAt r.digest) image }

/-- A task placed on an engine; the first of a job clears the running digest (R238). -/
def place (s : State) (e c : Nat) : State :=
  match s.nextTask c with
  | none => s
  | some t =>
    let s := s.displace e
    let first := match s.findJob c t.job with | some j => decide (j.placed = 0) && decide (j.done = 0) && j.again.isEmpty | none => false
    let s := s.modJob c t.job (fun j => if j.again.isEmpty then { j with placed := j.placed + 1 } else { j with again := j.again.drop 1 })
    let s := if first then (s.modCtx c (fun x => { x with dig := {} })).writeParams c t.job else s
    let s := match s.findJob c t.job with | none => s | some j => s.loadResident e j.recipe j.code
    (s.setEngine e { s.engine e with task := some t, clkMHz := s.variableMHz }).syncCtx c

/-- TASK_PLACE (R115, R325): the first context's task on the lowest-numbered engine of the polder that can take it. -/
def taskPlaceEff (s : State) (p : Nat) : State :=
  if s.vig.outOfService then s
  else
    let tries := (s.polderEngines p).filter s.engineFree
    let rec go : List Nat → State
      | [] => s
      | e :: r => match firstCtx (s.allCtxs.filter (fun x => s.offers p e x.1 x.2)) with
        | none => go r
        | some x => s.place e x.1
    go tries

/-! ## Timing (R131 to R134) -/

/-- DELIVERY_EXCURSION (R133). -/
def deliveryExcursionEff (s : State) (e _stall : Nat) : State :=
  let x := s.engine e
  match x.task with
  | none => s
  | some t =>
    if s.flag (eOff e) 4 then
      ((s.setEngine e { x with task := some { t with excursion := true } }).bump (eOff e + 0x28) 1).raise 0x4601#16 0x05 e
    else s

/-- Cycles since a task's start. -/
def taskCycles (s : State) (e : Nat) (t : TaskRun) : Nat := match t.startAt with | none => 0 | some a => s.engCycles e (s.now - a)

/-- TASK_OVER_BOUND (R134, R331). -/
def taskOverBoundEff (s : State) (e : Nat) : State :=
  let x := s.engine e
  match x.task with
  | none => s
  | some t =>
    if t.overBound ∨ s.taskCycles e t < 240000 then s
    else (s.setEngine e { x with task := some { t with overBound := true } }).bump (eOff e + 0x34) 1

/-- The number of a scope among R402's rows, from 0. -/
def scopeRank : Scope → Nat
  | .engine _ => 2 | .compute => 3 | .processor => 4 | .cold => 5

/-- A reset lies within one that is in progress (R401). -/
def absorbed_ (s : State) (x : Scope) : Bool :=
  s.vig.halted || s.vig.coldFrom.isSome || (s.vig.procFrom.isSome && decide (scopeRank x ≤ 4)) || (s.vig.cmpFrom.isSome && decide (scopeRank x ≤ 3)) ||
  (match x with | .engine e => (s.engine e).inReset.isSome || (s.engine e).retired | _ => false)

/-- Vigil orders a reset (R400, R401), unless it lies within one in progress or one that is ordered. -/
def order (s : State) (x : Scope) (counted : Bool := true) : State :=
  if s.absorbed_ x ∨ s.vig.orders.any (fun o => decide (o.1 = x) || decide (scopeRank x < scopeRank o.1)) then s
  else { s with vig := { s.vig with orders := s.vig.orders.filter (fun o => decide (scopeRank x ≤ scopeRank o.1)) ++ [(x, counted)] } }

/-- A detection's action, or its deferral under freeze (R413, R414). -/
def detect (s : State) (x : Scope) : State :=
  if s.freeze then { s with lead := { s.lead with deferred := s.lead.deferred ++ [some x] } } else s.order x

/-- An engine detected as hung under freeze is fenced (R413). -/
def fence (s : State) (e : Nat) : State := if s.freeze then s.setEngine e { s.engine e with fenced := true } else s

/-- TASK_HUNG (R134, R400). -/
def taskHungEff (s : State) (e : Fin 6) : State :=
  let x := s.engine e
  match x.task with
  | none => s
  | some t =>
    if t.hungPosted ∨ s.taskCycles e t < 480000 + s.engCycles e (s.waitedNs e t) then s
    else (((s.setEngine e { x with task := some { t with hungPosted := true } }).raise 0x4602#16 0x05 e).detect (.engine e)).fence e

/-- SEQUENCER_FAULT (R118): at once, and an engine reset. -/
def sequencerFaultEff (s : State) (e : Fin 6) : State := (s.raise 0x5601#16 0x05 e).detect (.engine e)

/-! ## Settings (R119, R123, R124, R136) -/

/-- ENG_CFG_WRITE (R124, R136). -/
def engCfgWriteEff (s : State) (e : Nat) (v : Word) : State :=
  let o := eOff e
  let big : Bool := match (s.engine e).polder with | none => false | some p => decide (2 < (s.polderEngines p).length)
  if ¬ (s.engine e).resident.isEmpty then s.ignoreWrite 0x1601#16 0x05 e o v
  else if big ∧ bit v 8 then (s.writeFields o 0x05 e (putBits v 8 8 (s.fld o 8 8))).ignoreWrite 0x1601#16 0x05 e o v
  else s.writeFields o 0x05 e v

/-- A share that R123 allows: its size, the polder's engines, the other share, and no resident context. -/
def shareOk (s : State) (i : Nat) (v : Word) : Bool :=
  let n := bits v 11 0
  let p := bits v 18 16
  let es := (s.ownEngines p).length
  let other := if s.flag (0x268004 - 4 * i) 31 then s.fld (0x268004 - 4 * i) 11 0 else 0
  let samePolder := s.flag (0x268004 - 4 * i) 31 && decide (s.fld (0x268004 - 4 * i) 18 16 = p)
  decide (p < 6) && decide (n % 64 = 0) && decide (64 ≤ n) && decide (n ≤ min 2048 (512 * es)) && decide (3 ≤ es) &&
  decide (n + other ≤ 2048) && !samePolder && !s.allCtxs.any (fun x => decide (x.2.polder = p) && x.2.resident)

/-- ORD_SHARE_WRITE (R123): a write that breaks a rule is ignored with 0x1605. -/
def ordShareWriteEff (s : State) (i : Nat) (v : Word) : State :=
  let o := 0x268000 + 4 * i
  let old := s.fld o 18 16
  let busy := s.flag o 31 && s.allCtxs.any (fun x => decide (x.2.polder = old) && x.2.resident)
  if busy ∨ (bit v 31 ∧ ¬ s.shareOk i v) then s.ignoreWrite 0x1605#16 0x05 0 o v
  else s.writeFields o 0x05 0 (BitVec.ofNat 32 (bits v 31 31 * 2 ^ 31 + bits v 18 16 * 2 ^ 16 + bits v 11 0))

/-- WAIT_TIMEOUT (R235): the oldest WAIT of a context whose time has passed fails its task. -/
def waitTimeoutEff (s : State) (c : Nat) : State :=
  match s.ops.find? (fun o => decide (o.ctx = c) && decide (o.cls = .wait) && !o.complete) with
  | none => s
  | some o =>
    match o.until_ with
    | none => s
    | some t =>
      if s.now < t ∨ s.waitMet o then s
      else ((((s.bump (eOff o.eng + 0x64) 1).raise 0x4B01#16 0x05 o.eng 1 (leBytes 2 c)).failTask o.eng 0x4B01#16 o.idx).taskCheck o.eng).syncWaits

end State

/-! ## Meanings -/

def execEngCfgWrite (e : Fin 6) (v : Word) (s : State) : Host.Outcome State Fault Refusal :=
  .next (s.gate 0 (State.eOff e) v (fun s => s.engCfgWriteEff e v))
def execOrdShareWrite (i : Fin 2) (v : Word) (s : State) : Host.Outcome State Fault Refusal :=
  .next (s.gate 0 (0x268000 + 4 * i) v (fun s => s.ordShareWriteEff i v))
def execTaskPlace (p : Fin 6) (s : State) : Host.Outcome State Fault Refusal :=
  .next (if s.serves then (s.taskPlaceEff p) else s)
def execOpRetire (id : Nat) (s : State) : Host.Outcome State Fault Refusal := .next (s.opRetireEff id)
def execSequencerFault (e : Fin 6) (s : State) : Host.Outcome State Fault Refusal := .next (s.sequencerFaultEff e)
def execGateResolve (e : Fin 6) (s : State) : Host.Outcome State Fault Refusal := .next (s.gateResolveEff e)
def execDeliveryExcursion (e : Fin 6) (stall : Nat) (s : State) : Host.Outcome State Fault Refusal :=
  .next (s.deliveryExcursionEff e stall)
def execTaskOverBound (e : Fin 6) (s : State) : Host.Outcome State Fault Refusal := .next (s.taskOverBoundEff e)
def execTaskHung (e : Fin 6) (s : State) : Host.Outcome State Fault Refusal := .next (s.taskHungEff e)
def execWaitTimeout (c : Fin 64) (s : State) : Host.Outcome State Fault Refusal := .next (s.waitTimeoutEff c)

end Sys2Proof.Machine
end

