-- ==== Sys2Proof/Machine/Operands.lean ====
section
/-! DEFINITION. Operand forms of engine operations: number formats and their packing (R138, R139), and reading and
writing whole operands (R227, R228). -/

namespace Sys2Proof.Machine

/-- Bits of an element (R138). -/
def fmtBits : Fmt → Nat
  | .int8 | .uint8 => 8 | .int4 | .code4 => 4 | .int16 | .bf16 | .fp16 => 16 | .code2 => 2 | .code3 => 3 | .fp32 | .int32 => 32

/-- The code of a format (R138). -/
def fmtCode : Fmt → Nat
  | .int8 => 0 | .uint8 => 1 | .int4 => 2 | .int16 => 3 | .code2 => 4 | .code3 => 5 | .code4 => 6 | .bf16 => 7 | .fp16 => 8
  | .fp32 => 9 | .int32 => 10

/-- The limits of an integer format (R138). -/
def fmtLo : Fmt → Int
  | .int8 => -128 | .int4 => -8 | .int16 => -32768 | .int32 => -(2 ^ 31) | _ => 0
def fmtHi : Fmt → Int
  | .int8 => 127 | .uint8 => 255 | .int4 => 7 | .int16 => 32767 | .int32 => 2 ^ 31 - 1 | .code2 => 3 | .code3 => 7 | .code4 => 15
  | _ => 0

/-- A zero point a format allows (R138). -/
def zpOk (f : Fmt) (z : Int) : Bool :=
  match f with
  | .int8 | .uint8 | .int4 => decide (fmtLo f ≤ z) && decide (z ≤ fmtHi f)
  | _ => decide (z = 0)

def isCode : Fmt → Bool
  | .code2 | .code3 | .code4 => true | _ => false
def isNarrow : Fmt → Bool
  | .int8 | .uint8 | .int4 => true | _ => false
def isFloat : Fmt → Bool
  | .bf16 | .fp16 | .fp32 => true | _ => false

/-- Elements of one byte, two to a byte, four to a byte, eight to three bytes (R139). -/
def raw8 (l : List Byte) : List Nat := l.map (·.toNat)
def raw4 (l : List Byte) : List Nat := l.flatMap (fun b => [b.toNat % 16, b.toNat / 16])
def raw2 (l : List Byte) : List Nat := l.flatMap (fun b => [b.toNat % 4, b.toNat / 4 % 4, b.toNat / 16 % 4, b.toNat / 64])
def raw3 : List Byte → List Nat
  | a :: b :: c :: r =>
    let w := a.toNat + 256 * b.toNat + 65536 * c.toNat
    [w % 8, w / 8 % 8, w / 64 % 8, w / 512 % 8, w / 4096 % 8, w / 32768 % 8, w / 262144 % 8, w / 2097152 % 8] ++ raw3 r
  | _ => []
def raw16 : List Byte → List Nat
  | a :: b :: r => (a.toNat + 256 * b.toNat) :: raw16 r
  | _ => []
def raw32 : List Byte → List Nat
  | a :: b :: c :: d :: r => (a.toNat + 256 * b.toNat + 65536 * c.toNat + 16777216 * d.toNat) :: raw32 r
  | _ => []

/-- The elements that bytes hold, as the bits of each (R139). -/
def rawsOf (f : Fmt) (l : List Byte) : List Nat :=
  match f with
  | .int8 | .uint8 => raw8 l | .int4 | .code4 => raw4 l | .code2 => raw2 l | .code3 => raw3 l
  | .int16 | .bf16 | .fp16 => raw16 l | .fp32 | .int32 => raw32 l

def pack4 : List Nat → List Byte
  | a :: b :: r => BitVec.ofNat 8 (a % 16 + 16 * (b % 16)) :: pack4 r
  | [a] => [BitVec.ofNat 8 (a % 16)]
  | [] => []
def pack2 : List Nat → List Byte
  | a :: b :: c :: d :: r => BitVec.ofNat 8 (a % 4 + 4 * (b % 4) + 16 * (c % 4) + 64 * (d % 4)) :: pack2 r
  | [] => []
  | l => [BitVec.ofNat 8 (l.getD 0 0 % 4 + 4 * (l.getD 1 0 % 4) + 16 * (l.getD 2 0 % 4))]
def pack3 : List Nat → List Byte
  | a :: b :: c :: d :: e :: f :: g :: h :: r =>
    leBytes 3 (a % 8 + b % 8 * 8 + c % 8 * 64 + d % 8 * 512 + e % 8 * 4096 + f % 8 * 32768 + g % 8 * 262144 + h % 8 * 2097152) ++ pack3 r
  | [] => []
  | l => leBytes 3 ((l.zipIdx.map (fun (x : Nat × Nat) => x.1 % 8 * 8 ^ x.2)).sum)

/-- Elements packed, the last unit filled with code 0 (R139). -/
def packRaws (f : Fmt) (l : List Nat) : List Byte :=
  match f with
  | .int8 | .uint8 => l.map (fun x => BitVec.ofNat 8 x) | .int4 | .code4 => pack4 l | .code2 => pack2 l | .code3 => pack3 l
  | .int16 | .bf16 | .fp16 => l.flatMap (leBytes 2) | .fp32 | .int32 => l.flatMap (leBytes 4)

/-- The integer an element's bits stand for. -/
def intOf (f : Fmt) (x : Nat) : Int :=
  match f with
  | .int8 => signed 8 x | .int4 => signed 4 x | .int16 => signed 16 x | .int32 => signed 32 x | _ => (x : Int)

/-- The bits of an integer element. -/
def ofIntFmt (f : Fmt) (x : Int) : Nat := unsigned (fmtBits f) x

/-- An element as FP32: integers rounded half to even, narrower floats exactly (R147). -/
def word32 (f : Fmt) (x : Nat) : Word :=
  match f with
  | .fp32 => BitVec.ofNat 32 x
  | .bf16 => widen bf16F x
  | .fp16 => widen fp16F x
  | _ => ofInt32 (intOf f x)

/-- The exact value of an element. -/
def valueOf (f : Fmt) (x : Nat) : FVal :=
  match f with
  | .fp32 => fp32F.unpack x | .bf16 => bf16F.unpack x | .fp16 => fp16F.unpack x | _ => FVal.ofInt (intOf f x)

/-- CVT (R147): an element in another format, rounded half to even, infinite beyond the largest BF16 or FP16 value. A value that an integer format does not hold has no
stated result there: it is free. -/
def cvt (from_ dst : Fmt) (x : Nat) : Nat :=
  let v := valueOf from_ x
  match dst with
  | .fp32 => fp32F.pack v | .bf16 => bf16F.convert v | .fp16 => fp16F.convert v
  | _ =>
    let open_ := (Config.fpOpen (64 + fmtCode dst) (BitVec.ofNat 32 x) (BitVec.ofNat 32 (fmtCode from_)) 0).toNat % 2 ^ fmtBits dst
    if v.isFinite then
      let q := divRne v.num v.den
      if fmtLo dst ≤ q ∧ q ≤ fmtHi dst then ofIntFmt dst q else open_
    else open_

/-- Bytes of n elements. -/
def fmtBytes (f : Fmt) (n : Nat) : Nat :=
  match f with | .code3 => (n + 7) / 8 * 3 | _ => (n * fmtBits f + 7) / 8

namespace State

/-- The recipe of the task that an operation belongs to. -/
def opRecipe (s : State) (h : OpHdr) : Option Nat :=
  match (s.engine h.eng).task with | none => none | some t => s.taskRecipe h.ctx t.job

/-- The bytes of an operation's read region. -/
def opRead (s : State) (h : OpHdr) (i : Nat) : List Byte :=
  match h.reads[i]? with
  | none => []
  | some r => (s.readRegion h.eng h.ctx (s.opRecipe h) r).getD []

/-- An operation's write of a region, if it declares it. -/
def opWrite (h : OpHdr) (i : Nat) (bs : List Byte) : List (Region × List Byte) :=
  match h.writes[i]? with | none => [] | some r => [(r, bs)]

end State
end Sys2Proof.Machine
end

