-- ==== Sys2Proof/Machine/Flags.lean ====
section
/-! DEFINITION. The counts that operations add to their layers (R161): clamps, saturations and non-finite inputs. -/

namespace Sys2Proof.Machine

/-- A value kept within bounds, and 1 where that changed it. -/
def clampCount (lo hi x : Int) : Int × Nat := if clampInt lo hi x = x then (x, 0) else (clampInt lo hi x, 1)

/-- A 32-bit accumulator, saturated, and 1 where it saturated (R145). -/
def sat32 (x : Int) : Int × Nat := clampCount (-(2 ^ 31)) (2 ^ 31 - 1) x

/-- Counts of one kind. -/
def countIn (n : Nat) : Counts := { inn := n }
def countAcc (n : Nat) : Counts := { acc := n }
def countOut (n : Nat) : Counts := { out := n }
def countNonf (n : Nat) : Counts := { nonf := n }

/-- The sum of counts. -/
def sumCounts (l : List Counts) : Counts := l.foldl State.Counts.add {}

/-- The counts that a CHECK compares (R162). -/
def maskedSum (m : CheckMask) (c : Counts) : Nat :=
  (if m.inn then c.inn else 0) + (if m.acc then c.acc else 0) + (if m.out then c.out else 0)

end Sys2Proof.Machine
end

