-- ==== Sys2Proof/Machine/Arith.lean ====
section
/-! DEFINITION. The vector unit and the matrix array: element operations, conversions, reductions, quantisers, MATMUL,
CHECK, COUNT and RAND (R142 to R166, R241 to R243). -/

namespace Sys2Proof.Machine

/-! ## Quantisers (R149 to R153) -/

/-- The code of a non-finite input: NaN gives zp, an infinity the limit of its sign (R153). -/
def nonFinite (x : FVal) (zp lo hi : Int) : Int := if x.isNan then zp else if x.neg then lo else hi

/-- q = clamp(rhe(y / s) + zp, lo, hi), and 1 where the clamp changed it; of a scale that is no positive or negative
finite number the spec states no quotient. -/
def quantise (lo hi zp : Int) (s : Word) (y : FVal) : Int × Nat :=
  let d := f32 s
  if d.isFinite ∧ ¬ d.isZero then
    let n := if d.neg then -y.num else y.num
    clampCount lo hi (rheQuot n y.den d.num.natAbs d.den + zp)
  else clampCount lo hi (Config.fpOpen 80 s (pack32 y) 0).toInt

/-- A static quantiser of a format (R149). -/
def qStatic (f : Fmt) (s : Word) (zp : Int) (input : Bool) (y : FVal) : Int × Counts :=
  if y.isFinite then
    let (q, n) := quantise (fmtLo f) (fmtHi f) zp s y
    (q, if input then countIn n else countOut n)
  else (nonFinite y zp (fmtLo f) (fmtHi f), countNonf 1)

/-- |x| of an FP32 word as its bits; finite words keep the order of their values. -/
def absBits (w : Word) : Nat := w.toNat % 2 ^ 31

/-- The finite values of a row outside the excluded channels. -/
def rowVals (row : List Word) (excl : List Nat) : List Word :=
  (row.zipIdx.filter (fun (x : Word × Nat) => !excl.contains x.2 && (f32 x.1).isFinite)).map (·.1)

def allSame : List Word → Bool
  | [] => true
  | a :: r => r.all (fun b => decide (a = b))

/-- Whether a dynamic quantiser counts an input as non-finite. -/
def rowNonf (row : List Word) (excl : List Nat) : Nat :=
  (row.zipIdx.filter (fun (x : Word × Nat) => !excl.contains x.2 && !(f32 x.1).isFinite)).length

/-- A dynamic symmetric quantiser (R150, R152, R153): scale, codes, counts. -/
def qRow (qmax : Nat) (excl : List Nat) (row : List Word) : Word × List Int × Counts :=
  let vals := rowVals row excl
  let amax := vals.foldl (fun a w => max a (absBits w)) 0
  let const : Bool := allSame vals
  let aw : Word := BitVec.ofNat 32 amax
  let s : Word := if amax = 0 then one32 else if const then aw else upFp32 (f32 aw).num.natAbs ((f32 aw).den * qmax)
  let code (x : Word × Nat) : Int :=
    if excl.contains x.2 then 0
    else
      let v := f32 x.1
      if ¬ v.isFinite then nonFinite v 0 (-(qmax : Int)) qmax
      else if amax = 0 then 0
      else if const then (if v.neg then -1 else 1)
      else (quantise (-(qmax : Int)) qmax 0 s v).1
  (s, row.zipIdx.map code, countNonf (rowNonf row excl))

/-- A dynamic asymmetric quantiser to UINT8 (R151, R152, R153): scale, zero point, codes, counts. -/
def qRowU8 (excl : List Nat) (row : List Word) : Word × Int × List Int × Counts :=
  let vals := rowVals row excl
  let mx := vals.foldl (fun a w => if (f32 w).neg then a else max a (absBits w)) 0
  let mn := vals.foldl (fun a w => if (f32 w).neg then max a (absBits w) else a) 0
  let hi := f32 (BitVec.ofNat 32 mx)
  let lo := f32 (BitVec.ofNat 32 mn)
  let const : Bool := allSame vals
  let (s, zp) : Word × Int :=
    if mx = 0 ∧ mn = 0 then (one32, 0)
    else if const then (BitVec.ofNat 32 (max mx mn), if mn = 0 then 0 else 1)
    else
      let s := upFp32 (hi.num.natAbs * lo.den + lo.num.natAbs * hi.den) (hi.den * lo.den * 255)
      (s, (quantise 0 255 0 s lo).1)
  let code (x : Word × Nat) : Int :=
    if excl.contains x.2 then zp
    else
      let v := f32 x.1
      if ¬ v.isFinite then nonFinite v zp 0 255
      else if mx = 0 ∧ mn = 0 then 0
      else if const then (if mn = 0 then 1 else 0)
      else (quantise 0 255 zp s v).1
  (s, zp, row.zipIdx.map code, countNonf (rowNonf row excl))

/-! ## Element operations (R147) -/

/-- A list cut into rows of n. -/
def rowsOf {α : Type} (n : Nat) : Nat → List α → List (List α)
  | 0, _ => []
  | m + 1, l => l.take n :: rowsOf n m (l.drop n)

/-- An element operation in the formats a record declares: integers on INT32, FP32 otherwise, the result rounded to the
output format. An operation that R147 gives no INT32 form has no stated result there: it is free. -/
def vecElem (afmt ofmt : Fmt) (opc : Nat) (f : Word → Word → Word → Word) (g : Option (Int → Int → Int → Int)) (x y z : Nat) : Nat :=
  if afmt = .int32 then
    let r : Int := match g with
      | some g => g (signed 32 x) (signed 32 y) (signed 32 z)
      | none => (Config.fpOpen (32 + opc) (BitVec.ofNat 32 x) (BitVec.ofNat 32 y) (BitVec.ofNat 32 z)).toInt
    if ofmt = .int32 then unsigned 32 r else cvt .int32 ofmt (unsigned 32 r)
  else
    let w := f (word32 afmt x) (word32 afmt y) (word32 afmt z)
    if ofmt = .fp32 then w.toNat else cvt .fp32 ofmt w.toNat

/-- One result for each element of the first operand. -/
def vecList (f : Nat → Nat → Nat → Nat) : List Nat → List Nat → List Nat → List Nat
  | [], _, _ => []
  | x :: a, b, c => f x (b.headD 0) (c.headD 0) :: vecList f a b.tail c.tail

/-- An element-wise VECTOR operation. -/
def vecOp (h : OpHdr) (opc : Nat) (f : Word → Word → Word → Word) (g : Option (Int → Int → Int → Int)) (s : State) : OpRes :=
  let a := rawsOf h.afmt (s.opRead h 0)
  let b := rawsOf h.afmt (s.opRead h 1)
  let c := rawsOf h.afmt (s.opRead h 2)
  { writes := State.opWrite h 0 (packRaws h.ofmt (vecList (vecElem h.afmt h.ofmt opc f g) a b c)) }

/-- A VECTOR operation issued. -/
def State.vec (s : State) (h : OpHdr) (opc : Nat) (f : State → OpRes) (upd : OpEntry → OpEntry := fun o => o) : State :=
  s.issue h .vector opc (fun s => (f s, s)) upd

/-- CVT of a tensor (R147). -/
def cvtOp (h : OpHdr) (s : State) : OpRes :=
  { writes := State.opWrite h 0 (packRaws h.ofmt ((rawsOf h.afmt (s.opRead h 0)).map (cvt h.afmt h.ofmt))) }

/-- TRUNC of a tensor (R141). -/
def truncOp (h : OpHdr) (s : State) : OpRes :=
  { writes := State.opWrite h 0 (packRaws .int32 ((rawsOf h.afmt (s.opRead h 0)).map (fun x => unsigned 32 (ftrunc (word32 h.afmt x))))) }

/-- Rows of a reduction: as many as its output has elements (R148). -/
def reduceOp (h : OpHdr) (f : List Nat → Nat) (s : State) : OpRes :=
  let a := rawsOf h.afmt (s.opRead h 0)
  let m := match h.writes[0]? with | none => 0 | some r => r.len * 8 / fmtBits h.ofmt
  { writes := State.opWrite h 0 (packRaws h.ofmt ((rowsOf (a.length / m) m a).map f)) }

/-- A reduction of a row in its formats: FP32, or INT32 wrapping. -/
def reduceRow (afmt ofmt : Fmt) (f : Word → Word → Word) (id_ : Word) (g : Int → Int → Int) (gid : Int) (l : List Nat) : Nat :=
  if afmt = .int32 then
    let r := unsigned 32 (reduce (fun a b => signed 32 (unsigned 32 (g a b))) gid (l.map (signed 32)))
    if ofmt = .int32 then r else cvt .int32 ofmt r
  else
    let w := (reduce f id_ (l.map (word32 afmt))).toNat
    if ofmt = .fp32 then w else cvt .fp32 ofmt w

/-- A strictly ascending list. -/
def ascending : List Nat → Bool
  | a :: b :: r => decide (a < b) && ascending (b :: r)
  | _ => true

/-- An outlier-channel list that loads: at most 64 indices below K, strictly ascending (R160). -/
def outliersOk (k : Nat) (l : List Nat) : Bool := decide (l.length ≤ 64) && ascending l && l.all (fun i => decide (i < k))

/-- QSTATIC (R149); the outlier channels of a row of k elements take the zero point, uncounted (R160). -/
def qstaticOp (h : OpHdr) (scale : Word) (zp : Int) (input : Bool) (k : Nat) (excl : List Nat) (s : State) : OpRes :=
  let qs := (rawsOf h.afmt (s.opRead h 0)).zipIdx.map (fun (x : Nat × Nat) =>
    if excl.contains (x.2 % k) then (zp, {}) else qStatic h.ofmt scale zp input (valueOf h.afmt x.1))
  { writes := State.opWrite h 0 (packRaws h.ofmt (qs.map (fun q => ofIntFmt h.ofmt q.1))), counts := sumCounts (qs.map (·.2)) }

/-- qmax of a format (R150). -/
def qmaxOf : Fmt → Nat
  | .int4 => 7 | .int16 => 32767 | _ => 127

/-- QROW (R150): codes to write region 0, one FP32 scale a row to write region 1. -/
def qrowOp (h : OpHdr) (excl : List Nat) (s : State) : OpRes :=
  let a := (rawsOf h.afmt (s.opRead h 0)).map (word32 h.afmt)
  let m := match h.writes[1]? with | none => 1 | some r => max 1 (r.len / 4)
  let qs := (rowsOf (a.length / m) m a).map (qRow (qmaxOf h.ofmt) excl)
  { writes := State.opWrite h 0 (packRaws h.ofmt (qs.flatMap (fun q => q.2.1.map (ofIntFmt h.ofmt)))) ++
      State.opWrite h 1 (packRaws .fp32 (qs.map (fun q => q.1.toNat)))
    counts := sumCounts (qs.map (fun q => q.2.2)) }

/-- QROW_U8 (R151): codes to write region 0; to region 1 one FP32 scale a row, then one zero point a row. -/
def qrowU8Op (h : OpHdr) (excl : List Nat) (s : State) : OpRes :=
  let a := (rawsOf h.afmt (s.opRead h 0)).map (word32 h.afmt)
  let m := match h.writes[1]? with | none => 1 | some r => max 1 (r.len / 5)
  let qs := (rowsOf (a.length / m) m a).map (qRowU8 excl)
  { writes := State.opWrite h 0 (packRaws .uint8 (qs.flatMap (fun q => q.2.2.1.map (ofIntFmt .uint8)))) ++
      State.opWrite h 1 (packRaws .fp32 (qs.map (fun q => q.1.toNat)) ++ packRaws .uint8 (qs.map (fun q => ofIntFmt .uint8 q.2.1)))
    counts := sumCounts (qs.map (fun q => q.2.2.2)) }

/-- Elements of a row of QROW or QROW_U8, whose write region 1 holds `u` bytes a row. -/
def rowLenOf (h : OpHdr) (u : Nat) : Nat :=
  match h.reads, h.writes[1]? with
  | r :: _, some w => r.len * 8 / fmtBits h.afmt / max 1 (w.len / u)
  | r :: _, none => r.len * 8 / fmtBits h.afmt
  | [], _ => 0

/-- Whether an element meets a predicate: integers as integers, floats as values; a NaN meets `ne` alone. -/
def cmpMeets (f : Fmt) (op : CmpOp) (x y : Nat) : Bool :=
  let a := valueOf f x
  let b := valueOf f y
  let eq := a == b || (a.isZero && b.isZero)
  let lt := !eq && fltVal a b
  if a.isNan || b.isNan then decide (op = .ne)
  else match op with | .eq => eq | .ne => !eq | .lt => lt | .le => lt || eq | .gt => !lt && !eq | .ge => !lt

/-- COUNT (R111): the elements that meet a predicate, as INT32. -/
def countOp (h : OpHdr) (op : CmpOp) (v : Word) (s : State) : OpRes :=
  let n := ((rawsOf h.afmt (s.opRead h 0)).filter (fun x => cmpMeets h.afmt op x (v.toNat % 2 ^ fmtBits h.afmt))).length
  { writes := State.opWrite h 0 (leBytes 4 n) }

/-! ## RAND (R241 to R243) -/

/-- Word i of a RAND. -/
def randWord (t : List Nat) (seed i : Nat) : Nat :=
  (philox (t.getD 0 0, t.getD 1 0, t.getD 2 0, (t.getD 3 0 + i / 4) % 2 ^ 32) seed).getD (i % 4) 0

/-- RAND (R243): U32 words, or FP32 values below 1. -/
def randOp (h : OpHdr) (n : Nat) (s : State) : OpRes :=
  let t := raw32 (s.opRead h 0)
  let seed := match (s.opRecipe h).bind s.recipe with | none => 0 | some r => r.seed.toNat
  let ws := (List.range n).map (randWord t seed)
  let out := if h.ofmt = .fp32 then ws.map (fun x => (fp32F.round .even false (x / 256) (2 ^ 24))) else ws
  { writes := State.opWrite h 0 (packRaws .int32 out) }

/-! ## CHECK (R162) -/

/-- The sum of the masked counts of a layer's provisional operations in a task. -/
def checkSum (s : State) (h : OpHdr) (m : CheckMask) : Nat :=
  match (s.engine h.eng).task with
  | none => 0
  | some t =>
    let l : Nat := h.layer
    let e : Nat := h.eng
    let c : Nat := h.ctx
    let held := (t.held.filter (fun x => x.1 = l)).map (fun x => maskedSum m x.2.1)
    let open_ := (s.ops.filter (fun o => decide (o.eng = e) && decide (o.task = t.idx) && decide (o.job = t.job) &&
      decide (o.ctx = c) && o.prov && decide (o.layer = l))).map (fun o => maskedSum m o.counts)
    held.sum + open_.sum

/-- Whether CHECK finds that the layer widens. -/
def checkWidens (s : State) (h : OpHdr) (limit : Nat) (m : CheckMask) : Bool :=
  decide (limit ≠ 0) && decide (limit ≤ checkSum s h m)

/-- CHECK (R162): predicate 0 where the layer widens, else a non-zero word, whose value is free. -/
def checkOp (h : OpHdr) (limit : Nat) (m : CheckMask) (s : State) : OpRes × State :=
  if checkWidens s h limit m then ({ writes := State.opWrite h 0 (leBytes 4 0) }, s)
  else
    let (n, s) := s.drawNat
    ({ writes := State.opWrite h 0 (leBytes 4 (n % (2 ^ 32 - 1) + 1)) }, s)

/-! ## MATMUL (R142 to R146, R154 to R160, R164) -/

/-- The halves an INT16 operand runs as; others run whole (R144). -/
def intParts (wide : Bool) (l : List Int) : List (Int × List Int) :=
  if wide then [(256, l.map (fun x => x / 256)), (1, l.map (fun x => x % 256))] else [(1, l)]

/-- Products added in ascending k, each addition saturating (R145). -/
def dotInt : List Int → List Int → Int × Nat → Int × Nat
  | a :: as, b :: bs, (acc, n) =>
    let (x, k) := sat32 (acc + a * b)
    dotInt as bs (x, n + k)
  | _, _, r => r

/-- A group's accumulator: the passes of its halves combined exactly and saturated once (R144). -/
def groupAcc (ap wp : List (Int × List Int)) : Int × Nat :=
  let sums := ap.flatMap (fun a => wp.map (fun w => (a.1 * w.1, dotInt a.2 w.2 (0, 0))))
  match sums with
  | [x] => x.2
  | _ =>
    let (acc, k) := sat32 ((sums.map (fun x => x.1 * x.2.1)).sum)
    (acc, k + (sums.map (fun x => x.2.2)).sum)

/-- Escape products added after the array's sum, in ascending k (R159). -/
def addEscapes : List (Int × Int) → Int × Nat → Int × Nat
  | [], r => r
  | (a, v) :: l, (acc, n) =>
    let (x, k) := sat32 (acc + a * v)
    addEscapes l (x, n + k)

/-- A BF16 dot product: each product rounded once, sums in ascending k from +0.0 (R146). -/
def dotBf16 : List Word → List Word → Word → Word
  | a :: as, b :: bs, acc => dotBf16 as bs (fadd acc (fmul a b))
  | _, _, acc => acc

/-- An output element in integer mode (R154). -/
def outputElement (accs : List Int) (sg : List Word) (sx bias : Word) (o : Option Word) : Word :=
  let t := (List.zipWith (fun a g => fmul (ofInt32 a) g) accs sg).foldl fadd 0#32
  let y := ffma t sx bias
  match o with | none => y | some x => fadd y x

/-- The weight scales of an output channel: one a group. -/
structure MatTensors where
  acts : List Nat
  weights : List Nat
  /-- Group scales of each output channel in turn, as FP32. -/
  scales : List Word
  biases : List Word
  rowScales : List Word
  rowZps : List Nat
  outActs : List Word
  outWeights : List Word
  /-- The codebooks of the blocks of 128 output channels in turn, and the side list: flat index and value. -/
  codebook : List Int := []
  side : List (Nat × Int) := []
  deriving DecidableEq, Repr

def groupsOf (p : MatParams) : Nat := if p.group = 0 then 1 else (p.k + p.group - 1) / p.group

/-- A side list as stored (R158): 8-byte entries of a flat index and an INT16 value. -/
def sideEntries : Nat → List Byte → List (Nat × Int)
  | 0, _ => []
  | n + 1, bs => (leNat (bs.take 4), signed 16 (leNat ((bs.drop 4).take 2))) :: sideEntries n (bs.drop 8)

/-- The weights' region cut into weights, codebooks and side list (R155, R158; DESIGN CHOICE, the assumption log, 19). -/
def weightParts (f : Fmt) (p : MatParams) (bs : List Byte) : List Nat × List Int × List (Nat × Int) :=
  let wb := fmtBytes f (p.n * p.k)
  let cb := if isCode f then p.cbLen * ((p.n + 127) / 128) else 0
  (rawsOf f (bs.take wb), ((bs.drop wb).take cb).map (fun b => signed 8 b.toNat), sideEntries (if p.escape then p.sides else 0) (bs.drop (wb + cb)))

/-- The operand regions of a MATMUL (the assumption log, 19): read 1 holds the weights, codebooks and side list; read 2 the scales (FP16 per channel and group of a
coded tensor, else FP32 per channel), then N FP32 biases; read 3 the row scales of a per-row activation, the zero points
of a UINT8 row, the outlier activations and their weights in BF16. `rows` is the number of rows with a scale of their own. -/
def matTensors (h : OpHdr) (p : MatParams) (rows : Nat) (s : State) : MatTensors :=
  let ng := groupsOf p
  let (weights, codebook, side) := weightParts h.wfmt p (s.opRead h 1)
  let r2 := s.opRead h 2
  let coded := isCode h.wfmt
  let sb := if coded then 2 * p.n * ng else if h.wfmt = .bf16 then 0 else 4 * p.n
  let scales := if coded then (raw16 (r2.take sb)).map (widen fp16F)
    else ((raw32 (r2.take sb)).map (BitVec.ofNat 32)).flatMap (fun w => List.replicate ng w)
  let r3 := s.opRead h 3
  let ns := match p.quant with | .rowSym | .rowU8 => 4 * rows | _ => 0
  let nz := match p.quant with | .rowU8 => rows | _ => 0
  let nc := p.outliers.length
  let o := raw16 (r3.drop (ns + nz))
  { acts := rawsOf h.afmt (s.opRead h 0), weights, codebook, side, scales
    biases := (raw32 (r2.drop sb)).map (BitVec.ofNat 32)
    rowScales := (raw32 (r3.take ns)).map (BitVec.ofNat 32), rowZps := ((r3.drop ns).take nz).map (·.toNat)
    outActs := (o.take (p.m * nc)).map (widen bf16F), outWeights := (o.drop (p.m * nc)).map (widen bf16F) }

/-- The escape code of a weight format (R158). -/
def escapeCode : Fmt → Nat
  | .int8 => 127 | .uint8 => 255 | .int4 => 7 | .code2 => 3 | .code3 => 7 | .code4 => 15 | _ => 0

/-- A weight's zero-centred value in the array: 0 where it is escaped (R142, R156, R158). -/
def weightVal (h : OpHdr) (p : MatParams) (t : MatTensors) (o x : Nat) : Int :=
  if p.escape ∧ x = escapeCode h.wfmt then 0
  else if isCode h.wfmt then t.codebook.getD (o / 128 * 2 ^ fmtBits h.wfmt + x) 0
  else intOf h.wfmt x - p.wzp

/-- Scale and zero point of a row's activations. -/
def rowScale (p : MatParams) (t : MatTensors) (i : Nat) : Word × Int :=
  match p.quant with
  | .static sc zp => (sc, zp)
  | .rowSym => (t.rowScales.getD i one32, 0)
  | .rowU8 => (t.rowScales.getD i one32, (t.rowZps.getD i 0 : Nat))
  | .bf16 => (one32, 0)

/-- One output in integer mode, and its accumulator saturations. -/
def matInt (h : OpHdr) (p : MatParams) (t : MatTensors) (i o : Nat) : Word × Nat :=
  let ng := groupsOf p
  let g := if p.group = 0 then p.k else p.group
  let (sx, zx) := rowScale p t i
  let a := ((t.acts.drop (i * p.k)).take p.k).zipIdx.map (fun (x : Nat × Nat) => if p.outliers.contains x.2 then 0 else intOf h.afmt x.1 - zx)
  let wr := (t.weights.drop (o * p.k)).take p.k
  let w := wr.map (weightVal h p t o)
  let accs := (List.range ng).map (fun q =>
    let as := (a.drop (q * g)).take g
    let ws := (w.drop (q * g)).take g
    let r := groupAcc (intParts (h.afmt = .int16) as) (intParts (h.wfmt = .int16) ws)
    let es := (t.side.filter (fun e => decide (e.1 / p.k = o) && decide (e.1 % p.k / g = q))).map (fun e => (a.getD (e.1 % p.k) 0, e.2))
    addEscapes es r)
  let nc := p.outliers.length
  let ob := if nc = 0 then none else
    some (dotBf16 ((t.outActs.drop (i * nc)).take nc) ((List.range nc).map (fun c => t.outWeights.getD (c * p.n + o) 0)) 0)
  (outputElement (accs.map (·.1)) ((t.scales.drop (o * ng)).take ng) sx (t.biases.getD o 0) ob, (accs.map (·.2)).sum)

/-- A weight restored exactly and rounded once to BF16 (R164). -/
def restored (h : OpHdr) (p : MatParams) (t : MatTensors) (o k : Nat) : Word :=
  let ng := groupsOf p
  let g := if p.group = 0 then p.k else p.group
  let x := t.weights.getD (o * p.k + k) 0
  if h.wfmt = .bf16 then widen bf16F x
  else match p.outliers.zipIdx.find? (fun (c : Nat × Nat) => c.1 = k) with
    | some c => t.outWeights.getD (c.2 * p.n + o) 0
    | none =>
      let v : Int := if p.escape ∧ x = escapeCode h.wfmt then
          (match t.side.find? (fun e => e.1 = o * p.k + k) with | some e => e.2 | none => 0)
        else weightVal h p t o x
      let sc := f32 (t.scales.getD (o * ng + k / g) 0)
      let n := sc.num * v
      widen bf16F (bf16F.round .even (decide (n < 0)) n.natAbs sc.den)

/-- One output in BF16 mode (R146, R154, R164). -/
def matBf16 (h : OpHdr) (p : MatParams) (t : MatTensors) (i o : Nat) : Word :=
  let a := ((t.acts.drop (i * p.k)).take p.k).map (widen bf16F)
  fadd (dotBf16 a ((List.range p.k).map (restored h p t o)) 0) (t.biases.getD o 0)

/-- An output element in the output format: integers through the static quantiser (R149, R154). -/
def outElem (ofmt : Fmt) (sc : Option (Word × Int)) (y : Word) : Nat × Counts :=
  if isFloat ofmt then (cvt .fp32 ofmt y.toNat, {})
  else
    let (s, z) := sc.getD (one32, 0)
    let (q, c) := qStatic ofmt s z false (f32 y)
    (ofIntFmt ofmt q, c)

/-- Escape codes and side-list entries of every group agree (R159). -/
def escapesAgree (h : OpHdr) (p : MatParams) (t : MatTensors) : Bool :=
  let g := if p.group = 0 then p.k else p.group
  !p.escape || (List.range p.n).all (fun o => (List.range (groupsOf p)).all (fun q =>
    let ws := (((t.weights.drop (o * p.k)).take p.k).drop (q * g)).take g
    decide ((ws.filter (fun x => x = escapeCode h.wfmt)).length =
      (t.side.filter (fun e => decide (e.1 / p.k = o) && decide (e.1 % p.k / g = q))).length)))

/-- MATMUL (R154). -/
def matmulOp (h : OpHdr) (p : MatParams) (s : State) : OpRes :=
  let t := matTensors h p p.m s
  if ¬ escapesAgree h p t then { fault := 0x2701#16 }
  else
    let rs := (List.range (p.m * p.n)).map (fun q =>
      let i := q / p.n
      let o := q % p.n
      let (y, n) : Word × Nat := if h.afmt = .bf16 then (matBf16 h p t i o, 0) else matInt h p t i o
      let (x, c) := outElem h.ofmt p.outScale y
      (x, State.Counts.add c (countAcc n)))
    { writes := State.opWrite h 0 (packRaws h.ofmt (rs.map (·.1))), counts := sumCounts (rs.map (·.2)) }

/-! ## Load checks (R138, R143, R155, R157, R158, R160) -/

/-- An operand format combination (R143); `wide` marks a wide pass, where BF16 activations meet restored weights. -/
def comboOk (a w : Fmt) (wide : Bool) : Bool :=
  ((isNarrow a || decide (a = .int16)) && (isNarrow w || decide (w = .int16) || isCode w)) ||
  (decide (a = .bf16) && (decide (w = .bf16) || (wide && decide (w ≠ .fp16) && decide (w ≠ .fp32) && decide (w ≠ .int32))))

/-- A codebook and side list that load (R155, R158): every codebook of 2^b entries above -128; entries in strictly ascending
order, one at most for 32 weights. -/
def codebookBad (f : Fmt) (p : MatParams) (cb : List Int) : Bool := isCode f && (decide (p.cbLen ≠ 2 ^ fmtBits f) || cb.contains (-128))
def sideBad (p : MatParams) (side : List (Nat × Int)) : Bool := !ascending (side.map (·.1)) || decide (p.n * p.k / 32 < side.length)

/-- What loading a MATMUL, or the array's part of a window operation, finds against it; `bs` are the bytes of the weights'
region, as far as a section of the recipe holds them. -/
def matLoadCode (h : OpHdr) (p : MatParams) (wide : Bool) (bs : List Byte) : Option Half :=
  let zp : Int := match p.quant with | .static _ z => z | _ => 0
  let (_, cb, side) := weightParts h.wfmt p bs
  if ¬ comboOk h.afmt h.wfmt wide then some 0x1701#16
  else if ¬ zpOk h.afmt zp ∨ ¬ zpOk h.wfmt p.wzp ∨ (match p.outScale with | some (_, z) => !zpOk h.ofmt z | none => false) = true then some 0x1702#16
  else if (p.escape ∧ ¬ p.outliers.isEmpty) ∨ ((h.wfmt = .int16 ∨ h.wfmt = .bf16) ∧ (p.escape ∨ ¬ p.outliers.isEmpty)) ∨
      ¬ outliersOk p.k p.outliers ∨ (p.escape ∧ (p.n * p.k / 32 < p.sides ∨ (¬ bs.isEmpty ∧ sideBad p side))) then some 0x1703#16
  else if codebookBad h.wfmt p cb then some 0x1705#16
  else none

namespace State

/-- The weights' bytes as loading finds them: those of a region in a section of the recipe (R229). -/
def loadBytes (s : State) (h : OpHdr) : List Byte :=
  match h.reads[1]? with | none => [] | some r => if r.space = .recipe then s.opRead h 1 else []

/-- The next operation of an engine's task, with this header, belongs to a wide pass (R143, R164). -/
def inWide (s : State) (h : OpHdr) : Bool := match (s.engine h.eng).task with | none => false | some t => inWidePass t h

/-- MATMUL issued, where a program that holds it could be loaded. -/
def matmul (s : State) (h : OpHdr) (p : MatParams) : State :=
  if (matLoadCode h p (s.inWide h) (s.loadBytes h)).isSome then s else s.issue h .matrix 0 (fun s => (matmulOp h p s, s))

end State

/-! ## Meanings -/

def wrapAdd (a b _ : Int) : Int := a + b
def wrapSub (a b _ : Int) : Int := a - b
def wrapMul (a b _ : Int) : Int := a * b
def wrapFma (a b c : Int) : Int := a * b + c
def maxInt3 (a b _ : Int) : Int := max a b
def minInt3 (a b _ : Int) : Int := min a b
def satAdd3 (a b _ : Int) : Int := (sat32 (a + b)).1
def satSub3 (a b _ : Int) : Int := (sat32 (a - b)).1

def execVecAdd (h : OpHdr) (s : State) : Host.Outcome State Fault Refusal := .next (s.vec h 0 (vecOp h 0 (fun a b _ => fadd a b) (some wrapAdd)))
def execVecSub (h : OpHdr) (s : State) : Host.Outcome State Fault Refusal := .next (s.vec h 1 (vecOp h 1 (fun a b _ => fsub a b) (some wrapSub)))
def execVecMul (h : OpHdr) (s : State) : Host.Outcome State Fault Refusal := .next (s.vec h 2 (vecOp h 2 (fun a b _ => fmul a b) (some wrapMul)))
def execVecFma (h : OpHdr) (s : State) : Host.Outcome State Fault Refusal := .next (s.vec h 3 (vecOp h 3 ffma (some wrapFma)))
def execVecDiv (h : OpHdr) (s : State) : Host.Outcome State Fault Refusal := .next (s.vec h 4 (vecOp h 4 (fun a b _ => fdiv a b) none))
def execVecSqrt (h : OpHdr) (s : State) : Host.Outcome State Fault Refusal := .next (s.vec h 5 (vecOp h 5 (fun a _ _ => fsqrt a) none))
def execVecExp2 (h : OpHdr) (s : State) : Host.Outcome State Fault Refusal := .next (s.vec h 6 (vecOp h 6 (fun a _ _ => fexp2 a) none))
def execVecLog2 (h : OpHdr) (s : State) : Host.Outcome State Fault Refusal := .next (s.vec h 7 (vecOp h 7 (fun a _ _ => flog2 a) none))
def execVecRcp (h : OpHdr) (s : State) : Host.Outcome State Fault Refusal := .next (s.vec h 8 (vecOp h 8 (fun a _ _ => frcp a) none))
def execVecRsqrt (h : OpHdr) (s : State) : Host.Outcome State Fault Refusal := .next (s.vec h 9 (vecOp h 9 (fun a _ _ => frsqrt a) none))
def execVecMax (h : OpHdr) (s : State) : Host.Outcome State Fault Refusal := .next (s.vec h 10 (vecOp h 10 (fun a b _ => fmax a b) (some maxInt3)))
def execVecMin (h : OpHdr) (s : State) : Host.Outcome State Fault Refusal := .next (s.vec h 11 (vecOp h 11 (fun a b _ => fmin a b) (some minInt3)))
def execCvt (h : OpHdr) (s : State) : Host.Outcome State Fault Refusal := .next (s.vec h 0x0C (cvtOp h))
def execTrunc (h : OpHdr) (s : State) : Host.Outcome State Fault Refusal := .next (s.vec h 0x0D (truncOp h))
def execSatadd (h : OpHdr) (s : State) : Host.Outcome State Fault Refusal :=
  .next (s.vec h 0x0E (vecOp { h with afmt := .int32 } 0x0E (fun a _ _ => a) (some satAdd3)))
def execSatsub (h : OpHdr) (s : State) : Host.Outcome State Fault Refusal :=
  .next (s.vec h 0x0F (vecOp { h with afmt := .int32 } 0x0F (fun a _ _ => a) (some satSub3)))
def execSum (h : OpHdr) (s : State) : Host.Outcome State Fault Refusal :=
  .next (s.vec h 0x10 (reduceOp h (reduceRow h.afmt h.ofmt fadd 0#32 (· + ·) 0)))
def execRmax (h : OpHdr) (s : State) : Host.Outcome State Fault Refusal :=
  .next (s.vec h 0x11 (reduceOp h (reduceRow h.afmt h.ofmt fmax 0xFF800000#32 max (-(2 ^ 31)))))
def execQstatic (h : OpHdr) (scale : Word) (zp : Int) (input : StaticUse) (s : State) : Host.Outcome State Fault Refusal :=
  .next (if zpOk h.ofmt zp ∧ outliersOk input.k input.excl then
    s.vec h 0x12 (qstaticOp h scale zp input.input input.k input.excl) else s)
def execQrow (h : OpHdr) (excl : List Nat) (s : State) : Host.Outcome State Fault Refusal :=
  .next (if outliersOk (rowLenOf h 4) excl then s.vec h 0x13 (qrowOp h excl) else s)
def execQrowU8 (h : OpHdr) (excl : List Nat) (s : State) : Host.Outcome State Fault Refusal :=
  .next (if outliersOk (rowLenOf h 5) excl then s.vec h 0x14 (qrowU8Op h excl) else s)
def execCheck (h : OpHdr) (limit : Fin 65536) (m : CheckMask) (s : State) : Host.Outcome State Fault Refusal :=
  .next (s.issue h .vector 0x15 (checkOp h limit m) (fun o => { o with check := some (checkWidens s h limit m) }))
def execCount (h : OpHdr) (op : CmpOp) (v : Word) (s : State) : Host.Outcome State Fault Refusal := .next (s.vec h 0x16 (countOp h op v))
def execRand (h : OpHdr) (n : Nat) (s : State) : Host.Outcome State Fault Refusal :=
  .next (if h.ofmt = .fp32 ∨ h.ofmt = .int32 then s.vec h 0x17 (randOp h n) else s)
def execMatmul (h : OpHdr) (p : MatParams) (s : State) : Host.Outcome State Fault Refusal := .next (s.matmul h p)

end Sys2Proof.Machine
end

