-- ==== Sys2Proof/Machine/Window.lean ====
section
/-! DEFINITION. Window operations: output size and taps, padding, convolution, pooling, streams, labelling (R168 to R184). -/

namespace Sys2Proof.Machine

/-! ## Sizes and taps (R170, R176) -/

/-- The output size along one axis (R170). -/
def outSize (n k s d p0 p1 : Nat) : Nat :=
  let e := (k - 1) * d + 1
  if n + p0 + p1 < e then 0 else (n + p0 + p1 - e) / s + 1

/-- The input index of a tap (R170). -/
def tapIndex (i t s d p0 : Nat) : Int := ((i * s + t * d : Nat) : Int) - p0

/-- The rows that a window operation's input stands for (R176, R177): the height of its segment as far as it is known, the
first row that the task's line block adds, whether the segment ends with them, the rows of REFUSED blocks, and the ROI mask of
each row. The operand's last row is the segment's newest. -/
structure SegRows where
  height : Nat
  new : Nat := 0
  final : Bool := true
  refused : List Nat := []
  masks : List (Nat × BitVec 256) := []
  deriving DecidableEq, Repr

/-- A whole operand is a segment of its own height (R169). -/
def wholeRows (p : WinParams) : SegRows := { height := p.h }

/-- Output rows whose last tap row lies in the first n rows. -/
def rowsDone (n : Nat) (a : AxisParams) : Nat := if n = 0 then 0 else outSize n a.k a.s a.d a.p0 0

/-- The rows of a layer's output as the rows of its input give them (R176). -/
def SegRows.below (q : SegRows) (a : AxisParams) : SegRows :=
  { height := outSize q.height a.k a.s a.d a.p0 (if q.final then a.p1 else 0), new := rowsDone q.new a, final := q.final }

/-- The vertical axis of a window operation. -/
def vertical (p : WinParams) : AxisParams := { k := p.kh, s := p.sh, d := p.dh, p0 := p.pt, p1 := p.pb }

/-- The output rows an operation computes: those whose last tap row lies in its block, and at the break those that the
final height gives (R176, R177). -/
def outRows (q : SegRows) (p : WinParams) : List Nat :=
  let n := (q.below (vertical p)).height
  (List.range n).drop (min n (rowsDone q.new (vertical p)))

def outCols (p : WinParams) : Nat := outSize p.w p.kw p.sw p.dw p.pl p.pr

/-- The output is empty (R171); a zero-length operand makes it so. -/
def winEmpty (q : SegRows) (p : WinParams) : Bool := decide (p.h = 0 ∨ p.w = 0 ∨ p.c = 0 ∨ (outRows q p).isEmpty ∨ outCols p = 0)

/-! ## Load checks (R169, R173, R175, R179, R183) -/

/-- The operators of R168. -/
inductive WinOp where
  | conv | dwconv | maxpool | minpool | avgpool | label
  deriving DecidableEq, Repr

def WinOp.code : WinOp → Nat
  | .conv => 0 | .dwconv => 1 | .maxpool => 2 | .minpool => 3 | .avgpool => 4 | .label => 5

def WinOp.isConv : WinOp → Bool
  | .conv | .dwconv => true | _ => false

/-- Padding modes an operator allows (R173). -/
def padModes : WinOp → List Nat
  | .conv | .dwconv => [0, 1, 2] | .maxpool | .minpool => [2, 3] | .avgpool => [0, 2] | .label => [0, 1, 2, 3]

/-- Rows any window of an operation reads, clamped under EDGE and clipped to the input. -/
def rowsRead (q : SegRows) (p : WinParams) : List Nat :=
  let ys := (outRows q p).flatMap (fun i => (List.range p.kh).map (fun t => tapIndex i t p.sh p.dh p.pt))
  let ys := if (p.pad : Nat) = 2 then ys.map (clampInt 0 ((q.height : Int) - 1)) else ys
  (ys.filter (fun y => decide (0 ≤ y) && decide (y < (q.height : Int)))).map Int.toNat

/-- Rows from the first to the last read (R179): of a stream, to the last line of the block, for the line block after the
fourth that needs the most. -/
def rowSpan (p : WinParams) : Nat :=
  let span (q : SegRows) : Nat := match rowsRead q p with
    | [] => 0
    | y :: r => (if p.stream then q.height else r.foldl max y + 1) - r.foldl min y
  if p.stream then ((List.range 16).map (fun b => span { height := 16 * (b + 5), new := 16 * (b + 4), final := false })).foldl max 0
  else span (wholeRows p)

/-- The widest stripe's input width, clipped to the image (R178, R179). -/
def stripeWidth (p : WinParams) : Nat :=
  let ow := outCols p
  let st := if p.stripe = 0 then ow else p.stripe
  let ew := (p.kw - 1) * p.dw + 1
  ((List.range ow).map (fun x0 =>
    if x0 % st ≠ 0 then 0
    else
      let x1 := min ow (x0 + st) - 1
      let hi := min ((p.w : Int) - 1) ((x1 * p.sw + ew - 1 : Nat) - (p.pl : Int))
      let lo := max 0 (((x0 * p.sw : Nat) : Int) - p.pl)
      (hi - lo + 1).toNat)).foldl max 0

/-- Bytes the line buffer must hold (R179). -/
def lbNeed (h : OpHdr) (op : WinOp) (p : WinParams) : Nat :=
  match op with
  | .label => p.h * (if p.stripe = 0 then p.w else min p.w p.stripe)
  | _ => (rowSpan p * stripeWidth p * p.c * fmtBits h.afmt + 7) / 8

/-- The input's scale and zero point. -/
def winIn (p : WinParams) : Word × Int := match p.mat.quant with | .static s z => (s, z) | _ => (one32, 0)
/-- The output's; the input's where none is declared. -/
def winOut (p : WinParams) : Word × Int := p.mat.outScale.getD (winIn p)

/-- The weight tensor over the reduction index of R174: one row of activations a position and group. -/
def winMat (q : SegRows) (p : WinParams) : MatParams :=
  { p.mat with m := (outRows q p).length * outCols p * p.g, k := p.kh * p.kw * (p.c / p.g) }

/-- A CONST value lies in the input format: a stored code, or any BF16 value. -/
def constOk (f : Fmt) (c : Nat) : Bool :=
  match f with
  | .int8 | .uint8 => decide (c < 256) | .int4 => decide (c < 16) | .int16 => decide (c < 256) | _ => decide (c < 65536)

/-- The parameters of R169 lie in their ranges, and the combination is allowed; C and the output channels as declared. -/
def winRangesOk (h : OpHdr) (op : WinOp) (p : WinParams) : Bool :=
  let inr (a b x : Nat) : Bool := decide (a ≤ x) && decide (x ≤ b)
  inr 1 15 p.kh && inr 1 15 p.kw && inr 1 16 p.sh && inr 1 16 p.sw && inr 1 255 p.dh && inr 1 255 p.dw &&
  inr 0 1023 p.pt && inr 0 1023 p.pb && inr 0 1023 p.pl && inr 0 1023 p.pr && inr 1 256 p.lbUnits && decide ((p.kh - 1) * p.dh + 1 ≤ 64) &&
  inr 1 p.c p.g && decide (p.c % p.g = 0) && (!op.isConv || decide (p.mat.n % p.g = 0)) && (decide (op ≠ .dwconv) || decide (p.g = p.c)) &&
  (!p.countPad || decide (op = .avgpool)) &&
  (decide (op ≠ .label) || (inr 1 4096 p.lmax && decide (p.h ≤ 64) && decide ((if p.stripe = 0 then p.w else min p.w p.stripe) ≤ 4096) &&
    decide (p.c = 1) && (decide (h.afmt = .uint8) || decide (h.afmt = .int8))))

/-- What loading a window operation finds against it; `bs` are the bytes of its weights' region as far as a section of the
recipe holds them. -/
def winLoadCode (h : OpHdr) (op : WinOp) (p : WinParams) (wide : Bool) (bs : List Byte) : Option Half :=
  let bad2 : Bool := !(padModes op).contains (p.pad : Nat) || (op.isConv && decide ((p.pad : Nat) = 1) && !constOk h.afmt p.const)
  let bad3 : Bool := (decide (op = .maxpool) || decide (op = .minpool)) &&
    (decide (h.ofmt ≠ h.afmt) || decide (winOut p ≠ winIn p))
  if ¬ winRangesOk h op p then some 0x1801#16
  else if bad2 then some 0x1802#16
  else if bad3 then some 0x1803#16
  else if p.lbUnits * 4096 < lbNeed h op p then some 0x1804#16
  else if op.isConv then matLoadCode h (winMat (wholeRows p) p) wide bs
  else if ¬ zpOk h.afmt (winIn p).2 ∨ (op = .avgpool ∧ ¬ zpOk h.ofmt (winOut p).2) then some 0x1702#16
  else none

/-! ## The rows of a stream (R176, R177, R180) -/

namespace State

/-- A tensor block header as an operation reads it (R106): context, line block, BREAK, REFUSED of each line, and mask. -/
structure HeadView where
  ctx : Nat
  b : Nat
  brk : Bool
  refused : List Bool
  mask : BitVec 256
  deriving DecidableEq, Repr

def readHead (bs : List Byte) : HeadView :=
  let fl := leNat ((bs.drop 0x0A).take 2)
  { ctx := leNat (bs.take 2), b := leNat ((bs.drop 4).take 6), brk := decide (fl / 8 % 2 = 1)
    refused := (List.range 16).map (fun i => decide (fl / 4 % 2 = 1) || (bs.getD (0x30 + i) 0).getLsbD 2)
    mask := BitVec.ofNat 256 (leNat ((bs.drop 0x10).take 32)) }

/-- The headers that an operation names. -/
def headsOf (s : State) (h : OpHdr) (q : TensorParams) : List HeadView :=
  q.heads.map (fun r => readHead ((s.readRegion h.eng h.ctx (s.opRecipe h) { r with len := 64 }).getD []))

/-- The first line block of the segment that holds block b (R176, R186). -/
def segmentStart (s : State) (k b : Nat) : Nat :=
  s.records.foldl (fun m r => if r.block.ctx = k ∧ r.block.brk ∧ r.block.b ≤ b then max m r.block.b else m) 0

/-- The segment that holds block b ends with it (R176): the next block carries BREAK, or a break or EN falling has come. -/
def segmentEnds (s : State) (k b : Nat) : Bool :=
  let c := s.sluice k
  !s.flag (sOff k) 31 || s.records.any (fun r => decide (r.block.ctx = k) && r.block.brk && decide (r.block.b = b + 1)) ||
  c.blocks.any (fun x => x.lines.any (·.breakBefore) && decide (x.b = b + 1)) || (c.brkNext && decide (c.next + c.blocks.length ≤ b + 1))

/-- The rows of an operation's input: those of the tensor blocks it names, through the layers above it. -/
def segRows (s : State) (h : OpHdr) (p : WinParams) : SegRows :=
  match p.tensor with
  | none => wholeRows p
  | some q =>
    let hs := s.headsOf h q
    let row (start : Nat) (v : HeadView) (i : Nat) : Nat := 16 * (v.b - start) + i
    let lines (start : Nat) : List (Nat × HeadView × Nat) :=
      (hs.filter (fun v => decide (start ≤ v.b))).flatMap (fun v => (List.range 16).map (fun i => (row start v i, v, i)))
    match hs.getLast? with
    | none => wholeRows p
    | some v =>
      let start := if p.stream then max (s.segmentStart v.ctx v.b) ((hs.filter (·.brk)).foldl (fun m x => max m x.b) 0)
        else (hs.headD v).b
      let base : SegRows :=
        { height := 16 * (v.b + 1 - start), new := if p.stream then 16 * (v.b - start) else 0, final := !p.stream || s.segmentEnds v.ctx v.b
          refused := ((lines start).filter (fun x => x.2.1.refused.getD x.2.2 false)).map (·.1)
          masks := if p.roi then (lines start).map (fun x => (x.1, x.2.1.mask)) else [] }
      if q.above.isEmpty then base else q.above.foldl SegRows.below base

end State

/-! ## Reading taps (R172, R173, R177, R180) -/

/-- The value of a padded tap but for EDGE, as the bits of an element (R173); `zx` is the zero point its row takes. -/
def padBits (f : Fmt) (op : WinOp) (p : WinParams) (zx : Int) : Nat :=
  match (p.pad : Nat), op with
  | 1, _ => if f = .int16 then unsigned 16 (signed 8 p.const) else p.const
  | 3, .maxpool => if f = .bf16 then 0xFF80 else ofIntFmt f (fmtLo f)
  | 3, .minpool => if f = .bf16 then 0x7F80 else ofIntFmt f (fmtHi f)
  | _, _ => if f = .bf16 then 0 else ofIntFmt f zx

/-- A tap reads the input: inside the image, and not in a row of a REFUSED block (R170, R177). -/
def tapInside (q : SegRows) (p : WinParams) (y x : Int) : Bool :=
  decide (0 ≤ y) && decide (y < (q.height : Int)) && decide (0 ≤ x) && decide (x < (p.w : Int)) && !q.refused.contains y.toNat

/-- Where an element stands in the operand: rows of interleaved channels, or the blocks of 16 rows of a layout (R106). -/
def elemIndex (p : WinParams) (r x c : Nat) : Nat :=
  let plain := (r * p.w + x) * p.c + c
  match p.tensor with
  | none => plain
  | some t =>
    if ¬ t.above.isEmpty then plain
    else
      let base := r / 16 * (16 * p.w * p.c)
      match (t.layout : Nat) with
      | 1 => base + (c * 16 + r % 16) * p.w + x
      | 2 => base + ((x / 64 * 16 + r % 16) * 64 + x % 64) * p.c + c
      | _ => plain

/-- The element stored at a row and column of the segment; outside the mask in layout 2 it is OZP (R180). -/
def winElem (f : Fmt) (q : SegRows) (p : WinParams) (els : List Nat) (y x c : Nat) : Nat :=
  let here := els.getD (elemIndex p (y + p.h - q.height) x c) 0
  match p.tensor, q.masks.find? (fun m => decide (m.1 = y)) with
  | some t, some m => if (t.layout : Nat) = 2 ∧ ¬ m.2.getLsbD (x / 64) then (if f = .bf16 then 0 else ofIntFmt f t.ozp) else here
  | _, _ => here

/-- A tap's element: the input, the clamped input under EDGE, or the padded value. -/
def tapElem (f : Fmt) (op : WinOp) (q : SegRows) (p : WinParams) (els : List Nat) (zx : Int) (y x : Int) (c : Nat) : Nat :=
  if tapInside q p y x then winElem f q p els y.toNat x.toNat c
  else if (p.pad : Nat) = 2 then
    winElem f q p els (clampInt 0 ((q.height : Int) - 1) y).toNat (clampInt 0 ((p.w : Int) - 1) x).toNat c
  else padBits f op p zx

/-- The taps of an output position in the order ky, then kx (R174). -/
def tapsOf (p : WinParams) (i j : Nat) : List (Int × Int) :=
  (List.range p.kh).flatMap (fun ky => (List.range p.kw).map (fun kx => (tapIndex i ky p.sh p.dh p.pt, tapIndex j kx p.sw p.dw p.pl)))

def insideCount (q : SegRows) (p : WinParams) (i j : Nat) : Nat := ((tapsOf p i j).filter (fun t => tapInside q p t.1 t.2)).length

/-- Output positions in row order. -/
def positions (q : SegRows) (p : WinParams) : List (Nat × Nat) := (outRows q p).flatMap (fun i => (List.range (outCols p)).map (fun j => (i, j)))

/-- Positions whose taps are all padded (R172). -/
def voids (q : SegRows) (p : WinParams) : Nat := ((positions q p).filter (fun x => insideCount q p x.1 x.2 = 0)).length

/-! ## Convolution (R168, R174) -/

/-- The activations of a position and group in the order of R174. -/
def convRow (f : Fmt) (op : WinOp) (q : SegRows) (p : WinParams) (els : List Nat) (zx : Int) (i j g : Nat) : List Nat :=
  let cg := p.c / p.g
  (tapsOf p i j).flatMap (fun t => (List.range cg).map (fun c => tapElem f op q p els zx t.1 t.2 (g * cg + c)))

/-- CONV and DWCONV as the products of R154 over gathered activations; a row of R150 is one position's input vector, so its
scale and zero point serve every group of the position. -/
def convOp (h : OpHdr) (op : WinOp) (p : WinParams) (s : State) : OpRes :=
  let q := s.segRows h p
  let m := winMat q p
  let els := rawsOf h.afmt (s.opRead h 0)
  let ps := positions q p
  let t0 := matTensors h m ps.length s
  let zx (i : Nat) : Int := match m.quant with | .rowU8 => (t0.rowZps.getD i 0 : Nat) | _ => (winIn p).2
  let acts := ps.zipIdx.flatMap (fun (x : (Nat × Nat) × Nat) => (List.range p.g).flatMap (convRow h.afmt op q p els (zx x.2) x.1.1 x.1.2))
  let t := { t0 with
    acts, rowScales := t0.rowScales.flatMap (List.replicate p.g), rowZps := t0.rowZps.flatMap (List.replicate p.g) }
  if ¬ escapesAgree h m t then { fault := 0x2701#16 }
  else
    let og := m.n / p.g
    let rs := (List.range ps.length).flatMap (fun x => (List.range m.n).map (fun o =>
      let i := x * p.g + o / og
      let (y, n) : Word × Nat := if h.afmt = .bf16 then (matBf16 h m t i o, 0) else matInt h m t i o
      let (x, c) := outElem h.ofmt m.outScale y
      (x, State.Counts.add c (countAcc n))))
    { writes := State.opWrite h 0 (packRaws h.ofmt (rs.map (·.1))), counts := sumCounts (rs.map (·.2)), tally := [(0x54, voids q p)] }

/-! ## Pooling (R175) -/

/-- A BF16 word with any NaN canonical (R140). -/
def canonBf16 (x : Nat) : Nat := (widen bf16F x).toNat / 65536

/-- MAX or MIN of a window's taps. -/
def poolExt (f : Fmt) (mx : Bool) : List Nat → Nat
  | [] => 0
  | a :: r =>
    if f = .bf16 then
      r.foldl (fun x y => (if mx then fmax (widen bf16F x) (widen bf16F y) else fmin (widen bf16F x) (widen bf16F y)).toNat / 65536) (canonBf16 a)
    else r.foldl (fun x y => if (intOf f x < intOf f y) = mx then y else x) a

/-- AVGPOOL of a window. -/
def poolAvg (h : OpHdr) (q : SegRows) (p : WinParams) (els : List Nat) (i j c : Nat) : Nat × Counts :=
  let taps := tapsOf p i j
  let m := if p.countPad ∨ (p.pad : Nat) = 2 then p.kh * p.kw else insideCount q p i j
  let (sx, zx) := winIn p
  let xs := taps.map (fun t => tapElem h.afmt .avgpool q p els zx t.1 t.2 c)
  let (so, zo) := winOut p
  if m = 0 then (if isFloat h.ofmt then 0 else ofIntFmt h.ofmt zo, {})
  else if h.afmt = .bf16 then
    let y := fdiv ((xs.map (widen bf16F)).foldl fadd 0#32) (ofInt32 m)
    if h.ofmt = .bf16 then (bf16F.pack (f32 y), {}) else outElem h.ofmt p.mat.outScale y
  else
    let total := (xs.map (fun x => intOf h.afmt x - zx)).sum
    if ¬ isFloat h.ofmt ∧ so = sx ∧ zo = zx then
      let (v, n) := clampCount (fmtLo h.ofmt) (fmtHi h.ofmt) (divRne total m + zo)
      (ofIntFmt h.ofmt v, countOut n)
    else outElem h.ofmt (some (so, zo)) (fmul (fdiv (ofInt32 total) (ofInt32 m)) sx)

/-- A pooling operation. -/
def poolOp (h : OpHdr) (op : WinOp) (p : WinParams) (s : State) : OpRes :=
  let q := s.segRows h p
  let els := rawsOf h.afmt (s.opRead h 0)
  let rs := (positions q p).flatMap (fun x => (List.range p.c).map (fun c =>
    match op with
    | .avgpool => poolAvg h q p els x.1 x.2 c
    | _ => (poolExt h.afmt (op = WinOp.maxpool) ((tapsOf p x.1 x.2).map (fun (t : Int × Int) => tapElem h.afmt op q p els (winIn p).2 t.1 t.2 c)), ({} : Counts))))
  { writes := State.opWrite h 0 (packRaws h.ofmt (rs.map (·.1))), counts := sumCounts (rs.map (·.2)), tally := [(0x54, voids q p)] }

/-! ## Labelling (R183) -/

/-- The provisional labels after one element: 0 background, else one more than the place of the first element of its
component so far; labels that meet become the lower one. No component crosses the edge of a stripe of `st` columns. -/
def labelStep (w st : Nat) (conn8 : Bool) (labels : List Nat) (x : Nat) : List Nat :=
  let n := labels.length
  if x = 0 then labels ++ [0]
  else
    let col := n % w
    let at_ (ok : Bool) (back : Nat) : List Nat := if ok ∧ back ≤ n then (let l := labels.getD (n - back) 0; if l = 0 then [] else [l]) else []
    let left := decide (col % st ≠ 0)
    let right := decide (col + 1 ≠ w) && decide ((col + 1) % st ≠ 0)
    let near := at_ left 1 ++ at_ true w ++ (if conn8 then at_ left (w + 1) ++ at_ right (w - 1) else [])
    let l := near.foldl min (n + 1)
    labels.map (fun y => if near.contains y then l else y) ++ [l]

/-- The components' labels of a whole input. -/
def labelMap (w st : Nat) (conn8 : Bool) (els : List Nat) : List Nat := els.foldl (labelStep w st conn8) []

/-- A component's table entry (R183). -/
def labelEntry (w num : Nat) (at_ : List Nat) : List Byte :=
  let xs := at_.map (· % w)
  let ys := at_.map (· / w)
  let lo (l : List Nat) : Nat := l.foldl min (l.headD 0)
  let hi (l : List Nat) : Nat := l.foldl max 0
  leBytes 2 num ++ leBytes 4 at_.length ++ leBytes 2 (lo xs) ++ leBytes 2 (lo ys) ++ leBytes 2 (hi xs) ++ leBytes 2 (hi ys) ++ leBytes 2 0

/-- The element that LABEL takes at a row and column of its operand: background in a row of another segment or of a REFUSED
block (R176, R177). -/
def labelElem (f : Fmt) (q : SegRows) (p : WinParams) (els : List Nat) (r x : Nat) : Nat :=
  if r + q.height < p.h ∨ q.refused.contains (r + q.height - p.h) then 0 else winElem f q p els (r + q.height - p.h) x 0

/-- LABEL (R183): the label map to write region 0, the component table to write region 1. -/
def labelOp (h : OpHdr) (p : WinParams) (s : State) : OpRes :=
  let q := s.segRows h p
  let raws := rawsOf h.afmt (s.opRead h 0)
  let els := (List.range (p.h * p.w)).map (fun i => labelElem h.afmt q p raws (i / p.w) (i % p.w))
  let labels := labelMap p.w (if p.stripe = 0 then p.w else p.stripe) p.conn8 els
  let roots := (List.range labels.length).filter (fun i => labels.getD i 0 = i + 1)
  let num (l : Nat) : Nat := if l = 0 then 0 else
    let k := (roots.filter (fun r => decide (r + 1 ≤ l))).length
    if p.lmax < k then 0xFFFF else k
  let table := (roots.take p.lmax).zipIdx.flatMap (fun (r : Nat × Nat) =>
    labelEntry p.w (r.2 + 1) ((List.range labels.length).filter (fun i => labels.getD i 0 = r.1 + 1)))
  let excess := roots.length - p.lmax
  { writes := State.opWrite h 0 (labels.flatMap (fun l => leBytes 2 (num l))) ++ State.opWrite h 1 table
    tally := [(0x5C, excess)], note := if excess = 0 then 0 else 0x3801#16 }

/-! ## Meanings -/

/-- A window operation's result: an empty one counts itself (R171). -/
def winRes (h : OpHdr) (op : WinOp) (p : WinParams) (s : State) : OpRes :=
  match op with
  | .label => if p.h = 0 ∨ p.w = 0 then State.emptyRes .window else labelOp h p s
  | .conv | .dwconv => if winEmpty (s.segRows h p) p then State.emptyRes .window else convOp h op p s
  | _ => if winEmpty (s.segRows h p) p then State.emptyRes .window else poolOp h op p s

/-- A window operation issued, where a program that holds it could be loaded. -/
def State.window (s : State) (h : OpHdr) (op : WinOp) (p : WinParams) : State :=
  if (winLoadCode h op p (s.inWide h) (s.loadBytes h)).isSome then s else s.issue h .window op.code (fun s => (winRes h op p s, s))

def execConv (h : OpHdr) (p : WinParams) (s : State) : Host.Outcome State Fault Refusal := .next (s.window h .conv p)
def execDwconv (h : OpHdr) (p : WinParams) (s : State) : Host.Outcome State Fault Refusal := .next (s.window h .dwconv p)
def execMaxpool (h : OpHdr) (p : WinParams) (s : State) : Host.Outcome State Fault Refusal := .next (s.window h .maxpool p)
def execMinpool (h : OpHdr) (p : WinParams) (s : State) : Host.Outcome State Fault Refusal := .next (s.window h .minpool p)
def execAvgpool (h : OpHdr) (p : WinParams) (s : State) : Host.Outcome State Fault Refusal := .next (s.window h .avgpool p)
def execLabel (h : OpHdr) (p : WinParams) (s : State) : Host.Outcome State Fault Refusal := .next (s.window h .label p)

end Sys2Proof.Machine
end

