-- ==== Sys2Proof/Machine/Move.lean ====
section
/-! DEFINITION. Copies, waits on tensor blocks and on signals, gates, fences, and the digest operations (R111, R119, R127,
R128, R234, R235, R239). -/

namespace Sys2Proof.Machine
namespace State

/-- COPY: the bytes of read region 0 to write region 0. -/
def copyOp (h : OpHdr) (s : State) : OpRes := { writes := opWrite h 0 (s.opRead h 0) }

/-! ## WAIT_BLOCK (R128) -/

/-- The line block index of a tensor block header. -/
def headerIndex (bs : List Byte) : Nat := leNat ((bs.drop 4).take 6)

/-- A tensor block wait that finds the block: it reads the data its header describes. -/
def waitBlockOp (h : OpHdr) (expect : Nat) (redo : Bool) (s : State) : OpRes :=
  let bs := s.opRead h 0
  if headerIndex bs = expect then { writes := opWrite h 0 bs }
  else if redo ∧ expect < headerIndex bs then { fault := 0x4061#16 }
  else {}

/-- Whether the task of an engine runs again after a reset (R399). -/
def redoing (s : State) (e : Nat) : Bool := match (s.engine e).task with | none => false | some t => t.redo

/-- WAIT_BLOCK: it has met its block, or failed, or waits. -/
def waitBlock (s : State) (h : OpHdr) (expect : Nat) : State :=
  let r := waitBlockOp h expect (s.redoing h.eng) s
  s.issue h .move 1 (fun s => (r, s)) (fun o =>
    { o with block := some expect, met := decide (o.fault ≠ 0) || !r.writes.isEmpty || decide (headerIndex (s.opRead h 0) = expect) })

/-- The tensor block wait of an engine that has not met its block. -/
def openWaitBlock (s : State) (e : Nat) : Option OpEntry :=
  s.ops.find? (fun o => decide (o.eng = e) && o.block.isSome && !o.met && !o.complete)

/-- WAIT_BLOCK_POLL: the header read again; the data follows once the index is the expected one. -/
def waitBlockPollEff (s : State) (e : Nat) : State :=
  match s.openWaitBlock e with
  | none => s
  | some o =>
    match o.block, o.reads with
    | some b, r :: _ =>
      let bs := (s.readRegion e o.ctx (s.taskRecipe o.ctx o.job) r).getD []
      if headerIndex bs = b then
        let x := s.engine e
        let s := match x.task with
          | none => s | some t => s.setEngine e { x with task := some { t with waited := t.waited + (s.now - o.at_) } }
        s.modOp o.id (fun x => { x with met := true, out := match x.writes with | [] => [] | w :: _ => [(w, bs)] })
      else if s.redoing e ∧ b < headerIndex bs then s.modOp o.id (fun x => { x with met := true, fault := 0x4061#16 })
      else s
    | _, _ => s

/-! ## DIGEST (R239) -/

/-- The layer record of a layer. -/
def layerRecord (layer : Nat) (d : RunDigest) : List Byte :=
  let x := layerOf d layer
  let cnt (c : Counts) : List Byte := leBytes 4 (min c.inn 0xFFFFFFFF) ++ leBytes 4 (min c.acc 0xFFFFFFFF) ++
    leBytes 4 (min c.out 0xFFFFFFFF) ++ leBytes 4 (min c.nonf 0xFFFFFFFF)
  leBytes 2 layer ++ leBytes 2 (flagBit 0 x.widened + flagBit 1 d.varied + flagBit 2 (d.taken ≠ 0)) ++ leBytes 4 d.taken ++
    cnt x.first ++ cnt x.wide ++ leBytes 8 0 ++ shake256 d.absorbed 32

def squeezeOp (h : OpHdr) (s : State) : OpRes :=
  { writes := opWrite h 0 (layerRecord h.layer (match s.ctx h.ctx with | none => {} | some c => c.dig)) }

/-- What ABSORB absorbs at its retire. -/
def absorbed (s : State) (h : OpHdr) : List Byte :=
  let bs := s.opRead h 0
  leBytes 4 bs.length ++ bs

/-! ## GATE (R112, R119) -/

/-- A gate whose target lies later in its task, or at its end. -/
def gateOk (s : State) (h : OpHdr) (target : Nat) : Bool :=
  match (s.engine h.eng).task with
  | none => false
  | some t => decide (t.next < target) && decide (target ≤ t.ops)

/-! ## WAIT (R234, R235) -/

/-- A signal word that a WAIT may name: aligned to 8, in the polder's memory. -/
def waitWordAt (s : State) (h : OpHdr) (word : Region) : Bool := (s.localAt (s.polderOf h.ctx) { word with len := 8 }).isSome

def waitOn (s : State) (h : OpHdr) (word : Region) (threshold : DWord) (timeoutUs : Nat) : State :=
  if word.addr % 8 ≠ 0 ∨ 65535 < timeoutUs then s
  else
    let here := s.waitWordAt h word
    s.issue h .wait 0 (fun s => (if here then {} else { fault := 0x6601#16 }, s)) (fun o =>
      { o with
        word := if here then some (word, threshold) else none
        until_ := if timeoutUs = 0 ∨ ¬ here then none else some (s.now + timeoutUs * 1000) })

end State

/-! ## Meanings -/

def execCopy (h : OpHdr) (s : State) : Host.Outcome State Fault Refusal := .next (s.issue h .move 0 (fun s => (State.copyOp h s, s)))
def execWaitBlock (h : OpHdr) (expect : Nat) (s : State) : Host.Outcome State Fault Refusal := .next (s.waitBlock h expect)
def execWaitBlockPoll (e : Fin 6) (s : State) : Host.Outcome State Fault Refusal := .next (s.waitBlockPollEff e)
def execSqueeze (h : OpHdr) (s : State) : Host.Outcome State Fault Refusal := .next (s.issue h .digest 0 (fun s => (State.squeezeOp h s, s)))
def execDigestAbsorb (h : OpHdr) (s : State) : Host.Outcome State Fault Refusal :=
  .next (s.issue h .digest 1 (fun s => ({}, s)) (fun o => { o with digest := some (s.absorbed h) }))
def execGate (h : OpHdr) (target : Fin 65) (s : State) : Host.Outcome State Fault Refusal :=
  .next (if s.gateOk h target then s.issue h .gate 0 (fun s => ({}, s)) (fun o => { o with gateTo := some target }) else s)
def execFence (h : OpHdr) (scope : Fin 4) (s : State) : Host.Outcome State Fault Refusal := .next (s.issue h .fence scope (fun s => ({}, s)))
def execWait (h : OpHdr) (word : Region) (threshold : DWord) (timeoutUs : Nat) (s : State) : Host.Outcome State Fault Refusal :=
  .next (s.waitOn h word threshold timeoutUs)

end Sys2Proof.Machine
end

