-- ==== Sys2Proof/Machine/Kv.lean ====
section
/-! DEFINITION. KV pages: their layout, opening, growing, writing and closing part tracks, and the operations that read them
(R185 to R201, R210 to R215). -/

namespace Sys2Proof.Machine

/-! ## Page layout (R192, R193) -/

/-- The shape of a recipe's pages: stored format code, layers, segments. -/
structure KvGeom where
  fmt : Nat
  layers : Nat
  segs : Nat
  deriving DecidableEq, Repr

def upTo (n a : Nat) : Nat := (n + a - 1) / a * a

def KvGeom.blocks (g : KvGeom) : Nat := g.layers * g.segs
/-- A of R192. -/
def KvGeom.scaleAt (g : KvGeom) : Nat := upTo (64 + 8 * g.blocks) 256
/-- D of R192. -/
def KvGeom.dataAt (g : KvGeom) : Nat := upTo (g.scaleAt + 256 * g.blocks) 4096
/-- Bytes of an element times two. -/
def KvGeom.halfBytes (g : KvGeom) : Nat := match g.fmt with | 2 => 1 | 0 => 2 | _ => 4
/-- DB of R192. -/
def KvGeom.db (g : KvGeom) : Nat := 2048 * g.halfBytes
/-- Bytes of one token of a block. -/
def KvGeom.tokenBytes (g : KvGeom) : Nat := 32 * g.halfBytes
def KvGeom.pageBytes (g : KvGeom) : Nat := g.dataAt + g.blocks * g.db

/-- A page header (R193). -/
def pageHeader (owner : Word) (p : Nat) (g : KvGeom) (flags : Nat) : List Byte :=
  padTo 64 (leBytes 4 owner.toNat ++ leBytes 2 p ++ leBytes 1 g.fmt ++ leBytes 1 g.layers ++ leBytes 1 g.segs ++ leBytes 1 flags)

/-- A data tag (R193). -/
def dataTag (seq layer seg tokens fmt : Nat) : List Byte :=
  leBytes 8 (seq % 65536 + layer % 4096 * 2 ^ 16 + seg % 8 * 2 ^ 28 + tokens % 256 * 2 ^ 32 + fmt % 16 * 2 ^ 40)

/-- The header of a scale block from 0x80 on (R193). -/
def scaleHeader (seq layer seg tokens fmt : Nat) : List Byte :=
  leBytes 2 seq ++ leBytes 2 layer ++ leBytes 1 seg ++ leBytes 1 tokens ++ leBytes 1 fmt

/-- What a tag or a scale block header tells. -/
structure BlockTag where
  seq : Nat
  layer : Nat
  seg : Nat
  tokens : Nat
  fmt : Nat
  deriving DecidableEq, Repr

def readTag (bs : List Byte) : BlockTag :=
  let x := leNat bs
  { seq := x % 65536, layer := x / 2 ^ 16 % 4096, seg := x / 2 ^ 28 % 8, tokens := x / 2 ^ 32 % 256, fmt := x / 2 ^ 40 % 16 }

def readScaleHeader (bs : List Byte) : BlockTag :=
  { seq := leNat (bs.take 2), layer := leNat ((bs.drop 2).take 2), seg := leNat ((bs.drop 4).take 1)
    tokens := leNat ((bs.drop 5).take 1), fmt := leNat ((bs.drop 6).take 1) }

/-- The INT, BF16 format of a code of R138. -/
def fmtOfCode (c : Nat) : Fmt := match c with | 2 => .int4 | 0 => .int8 | 3 => .int16 | _ => .bf16

/-- A stored format can be read as another (R195). -/
def readableAs (stored : Nat) (expect : Fmt) : Bool :=
  match stored, expect with
  | 2, .int4 | 2, .int8 | 2, .int16 | 0, .int8 | 0, .int16 | 3, .int16 | 7, .bf16 | 7, .fp32 => true
  | _, _ => false

/-- qmax of a stored integer format (R191). -/
def kvQmax (fmt : Nat) : Nat := match fmt with | 2 => 7 | 0 => 127 | _ => 32767

/-- kv_quantise (R191, R152, R153): the FP16 scale, codes, and counts. |c| rounds to more than 65,504 in FP16 from 65,520 on. -/
def kvQuantise (qmax : Nat) (xs : List Word) : Nat × List Int × Counts :=
  let vals := rowVals xs []
  let amax := vals.foldl (fun a w => max a (absBits w)) 0
  let a := f32 (BitVec.ofNat 32 amax)
  let const : Bool := allSame vals
  let big : Bool := decide (65520 * a.den ≤ a.num.natAbs)
  let excess : Bool := decide (65504 * (a.den * qmax) < a.num.natAbs)
  let sc : Nat :=
    if amax = 0 then 0x3C00
    else if const then (if big then 0x7BFF else fp16F.pack a)
    else if excess then 0x7BFF else fp16F.round .up false a.num.natAbs (a.den * qmax)
  let code (x : Word) : Int × Nat :=
    let v := f32 x
    if ¬ v.isFinite then (nonFinite v 0 (-(qmax : Int)) qmax, 0)
    else if amax = 0 then (0, 0)
    else if const then (if v.neg then -1 else 1, 0)
    else quantise (-(qmax : Int)) qmax 0 (widen fp16F sc) v
  let cs := xs.map code
  (sc, cs.map (·.1), { out := (cs.map (·.2)).sum + (if const ∧ amax ≠ 0 ∧ big then 1 else 0), nonf := rowNonf xs [] })

namespace State

/-! ## Tracks as operations name them (R197, R200) -/

/-- The track region an operation declares. -/
def trackRegion (h : OpHdr) : Option Region := (h.writes ++ h.reads).find? (fun r => r.space = .track)

/-- The handle it names, as the sequencer reads it (R228). -/
def handleOf (s : State) (h : OpHdr) : Word := match trackRegion h with | none => 0 | some r => s.handleAt h.eng r

/-- The first page it names. -/
def pageOf (h : OpHdr) : Nat := match trackRegion h with | none => 0 | some r => r.addr / 2 ^ 32 % 2 ^ 16

/-- The shape of a recipe's pages. -/
def geomOf (s : State) (r : Nat) : KvGeom :=
  match s.recipe r with | none => ⟨0, 0, 0⟩ | some x => ⟨x.kvFmt, x.kvLayers, x.kvSegs⟩

/-- A result that only reports a code. -/
def noted (code : Half) (detail : List Byte := []) : OpRes := { note := code, detail }

/-- An operation that names a closed track is refused without effect (R200). -/
def stale (s : State) (hd : Word) : OpRes × State := (noted 0x2905#16 (leBytes 4 hd.toNat), s.bump 0x270034 1)

/-! ## OPEN (R185, R186, R197, R198, R212) -/

/-- Load checks of a track's parameters. -/
def trackOk (t : TrackParams) : Bool :=
  [16, 32, 64].contains t.th && [16, 32, 64].contains t.tw && decide (1 ≤ t.resv) && decide (t.resv ≤ 1024)

/-- b0 rounded down within its segment (R186). -/
def rowStart (s : State) (k b0 th : Nat) : Nat :=
  let seg := s.segmentStart k b0
  seg + (b0 - seg) / (th / 16) * (th / 16)

/-- The lowest free track slot. -/
def freeTrack (s : State) : Option Nat := (List.range 4096).find? (fun n => (s.track n).state = 0)

/-- A slot's next serial (R197). -/
def nextSerial (n : Nat) : Nat := n % (2 ^ 20 - 1) + 1

/-- Prefix pages entered as shared entries, each node pinned (R212). -/
def pinPages (s : State) (n : Nat) : Nat → List Nat → State
  | _, [] => s
  | p, i :: r =>
    let x := s.node i
    pinPages ((s.putEntry n p (BitVec.ofNat 32 (x.slot + 2 ^ 31))).putNode i { x with pins := x.pins + 1 }) n (p + 1) r

/-- The part of a track as admission knows it. -/
def partOf (s : State) (t : TrackParams) : Option Part :=
  let k : Nat := t.sluice
  s.parts.find? (fun p => decide (p.lane = k) && decide (p.firstBlock = t.first) && decide (p.part = t.part) && p.proxy.isNone && !p.sealed)

/-- A fresh track in a slot. -/
def freshTrack (s : State) (n : Nat) (h : OpHdr) (t : TrackParams) (rec_ : Nat) : Track :=
  let cols := s.sluiceCols t.sluice / t.tw
  let c0 := min t.c0 (cols - 1)
  let nc := max 1 (min (min t.nc 256) (cols - c0))
  let ser := nextSerial (s.track n).serial
  { handle := BitVec.ofNat 32 (n + ser * 2 ^ 12), serial := ser, ctx := t.sluice, state := 1
    clamped := decide (c0 ≠ t.c0) || decide (nc ≠ t.nc), b0 := s.rowStart t.sluice t.b0 t.th, c0, nc, th := t.th / 16, tw := t.tw / 16
    prefixTokens := match s.recipe rec_ with | none => 0 | some r => r.prefixTokens
    resv := t.resv, polder := s.polderOf h.ctx, recipe := rec_, part := (s.partOf t).map (fun p => (p.lane, p.slot)) }

/-- The conditions of R198. -/
def openFits (s : State) (p resv : Nat) : Bool :=
  s.kv.running && decide (s.kvResv + resv + s.kvGrow ≤ s.kvFree) && decide (s.kvUsed p + resv ≤ s.kvQuota p)

/-- A refused OPEN (R198): handle 0, 0x3901, and class 3 for the part. -/
def openRefused (s : State) (h : OpHdr) (t : TrackParams) : OpRes × State :=
  let s := s.bump 0x270024 1
  let s := match s.partOf t with | none => s | some p => s.setPart { p with refusal := 0x3901#16 }
  ({ noted 0x3901#16 with writes := opWrite h 0 (leBytes 4 0) }, s)

/-- The part of a track learns its handle and its shape. -/
def tellPart (s : State) (t : TrackParams) (x : Track) : State :=
  match s.partOf t with
  | none => s
  | some p => s.setPart { p with track := x.handle, shape := some (x.b0, x.th, x.nc, x.prefixTokens) }

/-- OPEN (R197). -/
def openOp (h : OpHdr) (t : TrackParams) (rec_ : Nat) (s : State) : OpRes × State :=
  match s.freeTrack with
  | none => s.openRefused h t
  | some n =>
    if ¬ s.openFits (s.polderOf h.ctx) t.resv then s.openRefused h t
    else
      let x := s.freshTrack n h t rec_
      let nodes := match s.recipe rec_ with | none => [] | some r => r.nodes
      let s := (((s.putTrack n x).clearList n).pinPages n 0 nodes).tellPart t x
      let s := if x.clamped then s.reportSubject 0x1902#16 1 (rec_ % 65536 + 0xFFFFFFFF * 2 ^ 24) else s
      ({ writes := opWrite h 0 (leBytes 4 x.handle.toNat), note := if x.clamped then 0x1902#16 else 0 }, s)

/-! ## New pages (R193, R197) -/

/-- A page's header, its tags and scale block headers with no tokens written. -/
def initPage (s : State) (slot p : Nat) (owner : Word) (g : KvGeom) (flags : Nat) : State :=
  let a := s.kvSlotAt slot
  let tags := (List.range g.blocks).flatMap (fun i => dataTag p (i / g.segs) (i % g.segs) 0 g.fmt)
  let m := writeBytes s.bonded a (pageHeader owner p g flags ++ tags)
  { s with bonded := (List.range g.blocks).foldl (fun m i =>
      writeBytes m (a + g.scaleAt + 256 * i + 0x80) (scaleHeader p (i / g.segs) (i % g.segs) 0 g.fmt)) m }

/-- OPEN in build form (R210): found nodes shared and pinned, inserted nodes the track's own pages. -/
def buildPages (s : State) (n r : Nat) (g : KvGeom) : Nat → List Nat → State
  | _, [] => s
  | p, i :: rest =>
    let x := s.node i
    let s :=
      if x.state = 1 ∧ x.builder = some r then
        (s.putEntry n p (BitVec.ofNat 32 x.slot)).initPage x.slot p (BitVec.ofNat 32 i) g 1
      else s.pinPages n p [i]
    buildPages s n r g (p + 1) rest

def openBuildOp (h : OpHdr) (t : TrackParams) (rec_ : Nat) (s : State) : OpRes × State :=
  match s.freeTrack with
  | none => s.openRefused h t
  | some n =>
    if ¬ s.kv.running then s.openRefused h t
    else
      let x := { s.freshTrack n h t rec_ with resv := 0, build := true, prefixTokens := 0 }
      let nodes := match s.recipe rec_ with | none => [] | some r => r.nodes
      let s := ((s.putTrack n x).clearList n).buildPages n rec_ (s.geomOf rec_) 0 nodes
      ({ writes := opWrite h 0 (leBytes 4 x.handle.toNat) }, s)

/-! ## APPEND (R197 to R199, R214, R215) -/

/-- A track that has stopped growing forms no row from this one on (R199): the rows it may still form, fewer where it had
stopped before. -/
def stopAt (t : Track) (rows : Nat) : Track := { t with rows := some (match t.rows with | none => rows | some r => min r rows) }

/-- A page of a track holds tokens of rows that it may form. -/
def growsTo (t : Track) (p : Nat) : Bool := match t.rows with | none => true | some r => decide (64 * p < t.prefixTokens + r * t.nc)

/-- A row that a track may form. -/
def formsRow (t : Track) (row : Nat) : Bool := match t.rows with | none => true | some r => decide (row < r)

/-- A slot for a track's page: from its reservation, else where the pool and the quota allow. -/
def growTrack (s : State) (n : Nat) : Option (Nat × State) :=
  let t := s.track n
  let ok : Bool := decide (0 < t.resv) || (decide (s.kvResv < s.kvFree) && decide (s.kvUsed t.polder < s.kvQuota t.polder))
  if ok then
    (s.kvTake).map (fun x => (x.1, (x.2.putTrack n { t with resv := t.resv - 1 }).kvCharge t.polder (s.kvUsed t.polder + 1)))
  else none

/-- A track that finds no slot for a page stops growing with the rows that lie before the page (R199). -/
def truncate (s : State) (n p : Nat) : OpRes × State :=
  let t := s.track n
  (noted 0x3902#16 (leBytes 4 t.handle.toNat),
    ((s.putTrack n { stopAt t ((64 * p - t.prefixTokens) / max 1 t.nc) with truncated := true }).markParts t.handle 5).bump 0x270028 1)

/-- The shared partial page of a track (R214). -/
def isPartial (t : Track) (p : Nat) : Bool :=
  entryShared (entry t p) && decide (t.prefixTokens % 64 ≠ 0) && decide (p = t.prefixTokens / 64)

/-- Bytes a copy moves, and how long it takes (R215). -/
def copyBytes (g : KvGeom) (n : Nat) : Nat := g.scaleAt + 256 * g.blocks + g.blocks * n * g.tokenBytes
def copyTime (c : Nat) : Nat := 200 + (c + 63) / 64

/-- APPEND; a page of rows that a stopped track no longer forms is not obtained (R199). -/
def appendOp (h : OpHdr) (id : Nat) (s : State) : OpRes × State :=
  let hd := s.handleOf h
  let p := pageOf h
  match s.findTrack hd with
  | none => s.stale hd
  | some n =>
    let t := s.track n
    let w := entry t p
    if ¬ growsTo t p then ({}, s)
    else if w = emptyEntry then
      match s.growTrack n with
      | none => s.truncate n p
      | some (slot, s) => ({}, (s.initPage slot p hd (s.geomOf t.recipe) 0).putEntry n p (BitVec.ofNat 32 slot))
    else if isPartial t p ∧ ¬ s.kv.copies.any (fun c => decide (c.handle = hd) && decide (c.page = p)) then
      match s.growTrack n, s.nodeOfSlot (entrySlot w) with
      | some (slot, s), some i =>
        let c : KvCopy :=
          { handle := hd, page := p, node := i, slot, at_ := s.now + copyTime (copyBytes (s.geomOf t.recipe) (s.node i).tokens)
            epoch := s.kv.epoch, op := id }
        ({}, { s with kv := { s.kv with copies := s.kv.copies ++ [c] } })
      | _, _ => s.truncate n p
    else ({}, s)

/-- Whether an issued APPEND waits for its copy. -/
def copyPending (s : State) (id : Nat) : Bool := s.kv.copies.any (fun c => c.op = id)

def append (s : State) (h : OpHdr) : State :=
  let id := s.nextOp
  let s' := s.issue h .move 3 (appendOp h id)
  if s'.copyPending id then s'.modOp id (fun o => { o with met := false }) else s'

/-- The first n tokens of every block, and the checks, copied from one slot to another (R214). -/
def copyPage (s : State) (from_ dst p n : Nat) (owner : Word) (g : KvGeom) : State :=
  let a := s.kvSlotAt from_
  let b := s.kvSlotAt dst
  let m := writeBytes s.bonded b (readBytes s.bonded a (g.scaleAt + 256 * g.blocks))
  let m := (List.range g.blocks).foldl (fun m i =>
    writeBytes m (b + g.dataAt + g.db * i) (readBytes s.bonded (a + g.dataAt + g.db * i) (n * g.tokenBytes))) m
  { s with bonded := writeBytes m b (pageHeader owner p g 2) }

/-- APPEND_COPY_DONE (R214, R215): the copy lands, the entry is the track's own, and the node loses a pin. The slot of a track
that has closed went with its pages (R201). -/
def appendCopyDoneEff (s : State) (hd : Word) (p : Nat) : State :=
  match s.kv.copies.find? (fun c => decide (c.handle = hd) && decide (c.page = p)) with
  | none => s
  | some c =>
    if s.now < c.at_ then s
    else
      let s := { s with kv := { s.kv with copies := s.kv.copies.filter (fun x => x ≠ c) } }
      let s := s.modOp c.op (fun o => { o with met := true })
      match s.findTrack hd with
      | none => s
      | some n =>
        let t := s.track n
        let s := s.copyPage (s.node c.node).slot c.slot p (s.node c.node).tokens hd (s.geomOf t.recipe)
        ((s.putEntry n p (BitVec.ofNat 32 c.slot)).unpinNode c.node).bump 0x27012C 1

/-! ## KV_WRITE (R191 to R193, R199, R213) -/

/-- The first entry of a span of pages that may not be written, with its code. -/
def writeFault (t : Track) (ps : List Nat) : Option (Nat × Half) :=
  match ps.find? (fun p => decide (entry t p = emptyEntry) || entryShared (entry t p)) with
  | none => none
  | some p => some (p, if entry t p = emptyEntry then 0x2A02#16 else 0x2A01#16)

/-- Pages that hold sequence indices from lo to below hi. -/
def pagesSpan (lo hi : Nat) : List Nat := (List.range ((hi + 63) / 64 - lo / 64)).map (· + lo / 64)

/-- An absolute place in bonded memory, as a track region puts bytes. -/
def poolRegion (a n : Nat) : Region := { space := .track, addr := a, len := n }

/-- One token and segment written: its codes and its scale. -/
def tokenWrites (s : State) (g : KvGeom) (slot i j : Nat) (xs : List Word) : List (Region × List Byte) × Counts :=
  let a := s.kvSlotAt slot
  let f := fmtOfCode g.fmt
  let (sc, bs, c) : Nat × List Byte × Counts :=
    if f = .bf16 then (0x3C00, packRaws .bf16 (xs.map (fun x => bf16F.pack (f32 x))), {})
    else
      let (sc, qs, c) := kvQuantise (kvQmax g.fmt) xs
      (sc, packRaws f (qs.map (ofIntFmt f)), c)
  let at_ := a + g.dataAt + g.db * i + j * g.tokenBytes
  ([(poolRegion at_ g.tokenBytes, bs), (poolRegion (a + g.scaleAt + 256 * i + 2 * j) 2, leBytes 2 sc)], c)

/-- A block's tag and scale block header after a write. -/
def tagWrites (s : State) (g : KvGeom) (slot p layer seg n : Nat) : List (Region × List Byte) :=
  let a := s.kvSlotAt slot
  let i := layer * g.segs + seg
  let old := readTag (readBytes s.bonded (a + 64 + 8 * i) 8)
  let n := max old.tokens n
  [(poolRegion (a + 64 + 8 * i) 8, dataTag p layer seg n g.fmt),
   (poolRegion (a + g.scaleAt + 256 * i + 0x80) 7, scaleHeader p layer seg n g.fmt)]

/-- KV_WRITE; a row that a stopped track no longer forms is not written (R199). -/
def kvWriteOp (h : OpHdr) (row layer segs : Nat) (s : State) : OpRes × State :=
  let hd := s.handleOf h
  match s.findTrack hd with
  | none => s.stale hd
  | some n =>
    let t := s.track n
    let g := s.geomOf t.recipe
    let lo := t.prefixTokens + row * t.nc
    let hi := lo + t.nc
    let ps := pagesSpan lo hi
    if ¬ formsRow t row then ({}, s)
    else if 65536 < (row + 1) * t.nc then
      (noted 0x3903#16 (leBytes 4 hd.toNat), ((s.putTrack n { stopAt t (65536 / max 1 t.nc) with capped := true }).markParts hd 6).bump 0x27002C 1)
    else match writeFault t ps with
      | some (p, code) => ({ fault := code, detail := leBytes 4 hd.toNat ++ leBytes 2 p }, s)
      | none =>
        let xs := (raw32 (s.opRead h 0)).map (BitVec.ofNat 32)
        let ws := (List.range t.nc).flatMap (fun c => (List.range segs).map (fun sg =>
          let q := lo + c
          s.tokenWrites g (entrySlot (entry t (q / 64))) (layer * g.segs + sg) (q % 64) ((xs.drop ((c * segs + sg) * 64)).take 64)))
        let tags := ps.flatMap (fun p => (List.range segs).flatMap (fun sg =>
          s.tagWrites g (entrySlot (entry t p)) p layer sg (min 64 (hi - 64 * p))))
        ({ writes := ws.flatMap (·.1) ++ tags, counts := sumCounts (ws.map (·.2)) },
          s.putTrack n { t with tokens := max t.tokens ((row + 1) * t.nc) })

/-! ## CLOSE (R200, R210, R211) -/

/-- CLOSE; of a build track in ordinary form it fails (R211). -/
def closeOp (h : OpHdr) (s : State) : OpRes × State :=
  let hd := s.handleOf h
  match s.findTrack hd with
  | none => s.stale hd
  | some n => ({ fault := if (s.track n).build then 0x2A03#16 else 0 }, s.closeTrack n)

/-- Every block of an own page of a build holds exactly its node's tokens. -/
def pageComplete (s : State) (g : KvGeom) (slot n : Nat) : Bool :=
  let a := s.kvSlotAt slot
  (List.range g.blocks).all (fun i =>
    decide ((readTag (readBytes s.bonded (a + 64 + 8 * i) 8)).tokens = n) &&
    decide ((readScaleHeader (readBytes s.bonded (a + g.scaleAt + 256 * i + 0x80) 7)).tokens = n))

def readyNodes (s : State) : List Nat → State
  | [] => s
  | i :: r => readyNodes ((s.putNode i { s.node i with state := 2, builder := none }).retireNode i) r

def unpinNodes (s : State) : List Nat → State
  | [] => s
  | i :: r => unpinNodes (s.unpinNode i) r

/-- The nodes of a build track's own pages, each complete; none where one is not (R210, R211). -/
def publishNodes (s : State) (t : Track) : Option (List Nat) :=
  let own := (t.pages.filter (fun (p : Nat × Word) => !entryShared p.2)).map (fun (p : Nat × Word) => entrySlot p.2)
  let nodes := own.filterMap s.nodeOfSlot
  if t.build ∧ nodes.length = own.length ∧ nodes.all (fun i => s.pageComplete (s.geomOf t.recipe) (s.node i).slot (s.node i).tokens) then some nodes
  else none

/-- CLOSE in publish form (R210): the own pages' nodes ready, the found ones unpinned; a short page fails the build with 0x2A03
(R211). -/
def publish (s : State) (n : Nat) : OpRes × State :=
  let t := s.track n
  match s.publishNodes t with
  | none => ({ fault := 0x2A03#16 }, s.closeTrack n)
  | some nodes =>
    let shared := (t.pages.filter (fun (p : Nat × Word) => entryShared p.2)).filterMap (fun (p : Nat × Word) => s.nodeOfSlot (entrySlot p.2))
    let s := ((s.putTrack n { serial := t.serial }).readyNodes nodes).unpinNodes shared
    ({}, (s.checkResidents (s.recipes.map (fun (p : Nat × Option Recipe) => p.1))).drainRecipe t.recipe)

def closePublishOp (h : OpHdr) (s : State) : OpRes × State :=
  let hd := s.handleOf h
  match s.findTrack hd with
  | none => s.stale hd
  | some n => s.publish n

/-! ## Reading pages (R187, R194, R195, R213) -/

/-- What the checks of a block find: a code, and both sequence numbers. -/
def blockFault (s : State) (g : KvGeom) (slot p layer seg n : Nat) (expect : Fmt) : Option (Half × Nat × Nat) :=
  let a := s.kvSlotAt slot
  let i := layer * g.segs + seg
  let tag := readTag (readBytes s.bonded (a + 64 + 8 * i) 8)
  let sc := readScaleHeader (readBytes s.bonded (a + g.scaleAt + 256 * i + 0x80) 7)
  let hf := (byteAt s.bonded (a + 6)).toNat
  if tag.seq ≠ p % 65536 ∨ sc.seq ≠ p % 65536 then some (0x2901#16, tag.seq, sc.seq)
  else if tag.layer ≠ layer ∨ tag.seg ≠ seg ∨ sc.layer ≠ layer ∨ sc.seg ≠ seg then some (0x2902#16, tag.seq, sc.seq)
  else if tag.tokens < n ∨ sc.tokens < n then some (0x2903#16, tag.seq, sc.seq)
  else if tag.fmt ≠ hf ∨ sc.fmt ≠ hf ∨ ¬ readableAs hf expect then some (0x2904#16, tag.seq, sc.seq)
  else none

/-- The first fault of a read of keys below `hi` in all segments of a layer, as an operation holds it. -/
def readFault (s : State) (t : Track) (g : KvGeom) (layer segs hi : Nat) (expect : Fmt) : List Nat → Option OpRes
  | [] => none
  | p :: r =>
    let w := entry t p
    if w = emptyEntry then some { fault := 0x2A02#16, detail := leBytes 4 t.handle.toNat ++ leBytes 2 p }
    else match (List.range segs).filterMap (fun sg => (s.blockFault g (entrySlot w) p layer sg (min 64 (hi - 64 * p)) expect).map (fun f => (sg, f))) with
      | (sg, code, a, b) :: _ => some
        { fault := code, detail := leBytes 4 t.handle.toNat ++ leBytes 2 p ++ leBytes 2 layer ++ leBytes 2 sg ++ leBytes 2 a ++ leBytes 2 b }
      | [] => readFault s t g layer segs hi expect r

/-- A key's stored codes, as the words of FP32 values where the latent is BF16, and its scale in a segment (R195). -/
def keyCodes (s : State) (t : Track) (g : KvGeom) (layer seg j : Nat) : List Int × Word :=
  let a := s.kvSlotAt (entrySlot (entry t (j / 64)))
  let i := layer * g.segs + seg
  let f := fmtOfCode g.fmt
  let raws := rawsOf f (readBytes s.bonded (a + g.dataAt + g.db * i + j % 64 * g.tokenBytes) g.tokenBytes)
  (raws.map (fun x => if f = .bf16 then ((widen bf16F x).toNat : Int) else intOf f x),
    widen fp16F (leNat (readBytes s.bonded (a + g.scaleAt + 256 * i + 2 * (j % 64)) 2)))

/-- Keys a row attends to (R187). -/
def keysOf (t : Track) (row : Nat) : Nat := t.prefixTokens + (row + 1) * t.nc

def isInt (f : Fmt) : Bool := match f with | .int4 | .int8 | .int16 => true | _ => false

/-- A sum over the codes of a segment as an FP32 word, and its saturations: over integers in the passes of their formats (R144,
R145, R195), over a BF16 latent by R146, an integer operand entering as its exact value (the assumption log, 71). `a` are
integers, or words of FP32 values where `afmt` is BF16; so are `b` where `expect` is no integer format. -/
def codeSum (afmt expect : Fmt) (a b : List Int) : Word × Nat :=
  if isInt expect then
    let r := groupAcc (intParts (afmt = .int16) a) (intParts (expect = .int16) b)
    (ofInt32 r.1, r.2)
  else
    (dotBf16 (a.map (fun x => if afmt = .bf16 then BitVec.ofInt 32 x else ofInt32 x)) (b.map (BitVec.ofInt 32)) 0, 0)

/-- One head of ABSORB (R189): the latent output, accumulator saturations, and the counts of its row quantisers. -/
def attend (qt : List Int) (afmt : Fmt) (sq : Word) (expect : Fmt) (segs : Nat) (keys : List (List (List Int × Word))) : List Word × Counts :=
  let scores := keys.map (fun k =>
    let gs := (List.range segs).map (fun g =>
      let c := k.getD g ([], 0)
      let r := codeSum afmt expect ((qt.drop (64 * g)).take 64) c.1
      (fmul r.1 c.2, r.2))
    (fmul (gs.foldl (fun t x => fadd t x.1) 0#32) sq, (gs.map (·.2)).sum))
  let m := reduce fmax 0xFF800000#32 (scores.map (·.1))
  let w := scores.map (fun x => fexp2 (fsub x.1 m))
  let den := reduce fadd 0#32 w
  let rows := (List.range segs).map (fun g => qRowU8 [] (List.zipWith (fun x k => fmul x (k.getD g ([], 0)).2) w keys))
  let outs := rows.zipIdx.flatMap (fun (q : (Word × Int × List Int × Counts) × Nat) => (List.range 64).map (fun e =>
    let r := codeSum .uint8 expect q.1.2.2.1 (keys.map (fun k => (k.getD q.2 ([], 0)).1.getD e 0))
    (fdiv (fmul r.1 q.1.1) den, r.2)))
  (outs.map (·.1), sumCounts (countAcc ((scores.map (·.2)).sum + (outs.map (·.2)).sum) :: rows.map (·.2.2.2)))

/-- The query codes of a head: integers, or words of FP32 values. -/
def queryCodes (f : Fmt) (l : List Nat) : List Int := l.map (fun x => if f = .bf16 then ((widen bf16F x).toNat : Int) else intOf f x)

/-- The keys of a row with the codes of each segment. -/
def rowKeys (s : State) (t : Track) (g : KvGeom) (layer segs hi : Nat) : List (List (List Int × Word)) :=
  (List.range hi).map (fun j => (List.range segs).map (fun sg => s.keyCodes t g layer sg j))

/-- ATTN_ABSORB (R189): each head in turn. -/
def attnOp (h : OpHdr) (p : AttnParams) (s : State) : OpRes × State :=
  let hd := s.handleOf h
  match s.findTrack hd with
  | none => s.stale hd
  | some n =>
    let t := s.track n
    let g := s.geomOf t.recipe
    let hi := keysOf t p.row
    match s.readFault t g p.stackLayer p.segs hi p.expect (pagesSpan 0 hi) with
    | some r => (r, s)
    | none =>
      let keys := s.rowKeys t g p.stackLayer p.segs hi
      let q := queryCodes h.afmt (rawsOf h.afmt (s.opRead h 0))
      let os := (List.range p.heads).map (fun i => attend ((q.drop (64 * p.segs * i)).take (64 * p.segs)) h.afmt p.sq p.expect p.segs keys)
      ({ writes := opWrite h 0 (packRaws h.ofmt (os.flatMap (fun o => o.1.map (fun w => if h.ofmt = .fp32 then w.toNat else cvt .fp32 h.ofmt w.toNat))))
         counts := sumCounts (os.map (·.2)) }, s)

/-- KV_EXPAND (R190): codes and row scales for INT8, else BF16. BF16 weights have no scale (R154). -/
def expandOp (h : OpHdr) (p : ExpandParams) (s : State) : OpRes × State :=
  let hd := s.handleOf h
  match s.findTrack hd with
  | none => s.stale hd
  | some n =>
    let t := s.track n
    let g := s.geomOf t.recipe
    let hi := keysOf t p.row
    match s.readFault t g p.stackLayer p.segs hi p.expect (pagesSpan 0 hi) with
    | some r => (r, s)
    | none =>
      let ws : List Int := (rawsOf h.wfmt (s.opRead h 1)).map (fun x => if h.wfmt = .bf16 then ((widen bf16F x).toNat : Int) else intOf h.wfmt x - p.wzp)
      let scs := (raw32 (s.opRead h 2)).map (BitVec.ofNat 32)
      let k := 64 * p.segs
      let rows := (s.rowKeys t g p.stackLayer p.segs hi).map (fun key =>
        (List.range p.outs).map (fun o =>
          let gs := key.zipIdx.map (fun (c : (List Int × Word) × Nat) =>
            let w := (ws.drop (o * k + 64 * c.2)).take 64
            let r : Word × Nat := if isInt p.expect then
                (let r := groupAcc (intParts (p.expect = .int16) c.1.1) (intParts (h.wfmt = .int16) w); (ofInt32 r.1, r.2))
              else (dotBf16 (c.1.1.map (BitVec.ofInt 32)) (w.map (BitVec.ofInt 32)) 0, 0)
            (fmul r.1 c.1.2, r.2))
          (fmul (gs.foldl (fun t x => fadd t x.1) 0#32) (if h.wfmt = .bf16 then one32 else scs.getD o 0), (gs.map (·.2)).sum)))
      let sat := (rows.map (fun r => (r.map (·.2)).sum)).sum
      if h.ofmt = .int8 then
        let qs := rows.map (fun r => qRow 127 [] (r.map (·.1)))
        ({ writes := opWrite h 0 (packRaws .int8 (qs.flatMap (fun q => q.2.1.map (ofIntFmt .int8)))) ++
             opWrite h 1 (packRaws .fp32 (qs.map (fun q => q.1.toNat)))
           counts := sumCounts (countAcc sat :: qs.map (fun q => q.2.2)) }, s)
      else
        ({ writes := opWrite h 0 (packRaws h.ofmt (rows.flatMap (fun r => r.map (fun x => cvt .fp32 h.ofmt x.1.toNat)))), counts := countAcc sat }, s)

/-- The weight format that an expected latent counts as in R143. -/
def latentFmt (f : Fmt) : Fmt := if f = .fp32 then .bf16 else f

/-- What loading a KV-reading operation finds against it (R143, R188, R195): the format pair of its products, S, H and d_h, and
the expected against the stored format. -/
def attnCode (stored : Nat) (segs heads width : Nat) (expect : Fmt) (combo : Bool) : Option Half :=
  if ¬ combo then some 0x1701#16
  else if segs = 0 ∨ 8 < segs ∨ heads = 0 ∨ 32 < heads ∨ ¬ [32, 64, 128].contains width then some 0x1902#16
  else if ¬ readableAs stored expect then some 0x1903#16
  else none

def absorbCode (stored : Nat) (h : OpHdr) (p : AttnParams) : Option Half :=
  attnCode stored p.segs p.heads p.headWidth p.expect (comboOk h.afmt (latentFmt p.expect) false)
def expandCode (stored : Nat) (h : OpHdr) (p : ExpandParams) : Option Half :=
  attnCode stored p.segs p.heads p.headWidth p.expect (comboOk (latentFmt p.expect) h.wfmt false)

/-- The stored format of the layer stack of an operation's recipe. -/
def storedFmt (s : State) (h : OpHdr) : Nat := match s.opRecipe h with | none => 15 | some r => (s.geomOf r).fmt

end State

/-! ## Meanings -/

def execOpen (h : OpHdr) (t : TrackParams) (s : State) : Host.Outcome State Fault Refusal :=
  .next (match s.opRecipe h with
    | none => s
    | some r => if State.trackOk t then s.issue h .move 2 (State.openOp h t r) else s)
def execOpenBuild (h : OpHdr) (t : TrackParams) (s : State) : Host.Outcome State Fault Refusal :=
  .next (match s.opRecipe h with
    | none => s
    | some r => if State.trackOk t then s.issue h .move 6 (State.openBuildOp h t r) else s)
def execAppend (h : OpHdr) (s : State) : Host.Outcome State Fault Refusal := .next (s.append h)
def execAppendCopyDone (hd : Word) (page : Nat) (s : State) : Host.Outcome State Fault Refusal := .next (s.appendCopyDoneEff hd page)
def execKvWrite (h : OpHdr) (row layer segs : Nat) (s : State) : Host.Outcome State Fault Refusal :=
  .next (s.issue h .move 4 (State.kvWriteOp h row layer segs))
def execClose (h : OpHdr) (s : State) : Host.Outcome State Fault Refusal := .next (s.issue h .move 5 (State.closeOp h))
def execClosePublish (h : OpHdr) (s : State) : Host.Outcome State Fault Refusal := .next (s.issue h .move 7 (State.closePublishOp h))
def execAttnAbsorb (h : OpHdr) (p : AttnParams) (s : State) : Host.Outcome State Fault Refusal :=
  .next (if (State.absorbCode (s.storedFmt h) h p).isNone then s.issue h .matrix 1 (State.attnOp h p) else s)
def execKvExpand (h : OpHdr) (p : ExpandParams) (s : State) : Host.Outcome State Fault Refusal :=
  .next (if (State.expandCode (s.storedFmt h) h p).isNone ∧ (h.ofmt = .int8 ∨ h.ofmt = .bf16) then s.issue h .matrix 2 (State.expandOp h p) else s)

end Sys2Proof.Machine
end

