-- ==== Sys2Proof/Machine/Keys.lean ====
section
/-! DEFINITION. The keys of the SEC domain and of the owner record, and the attested state (R423, R424, R429, R434). -/

namespace Sys2Proof.Machine

/-- ASCII bytes. -/
def ascii (s : String) : List Byte := s.toList.map (fun c => BitVec.ofNat 8 c.toNat)

/-- n bytes of a record from an offset. -/
def slice (bs : List Byte) (off n : Nat) : List Byte := (bs.drop off).take n
/-- A little-endian field of a record. -/
def fieldAt (bs : List Byte) (off n : Nat) : Nat := leNat (slice bs off n)
def allZero (bs : List Byte) : Bool := bs.all (fun b => decide (b = 0))

/-- The root key, as it was reconstructed (R423). -/
def rootKey : List Byte := Config.pufRoot.getD []
/-- The Ed448 identity seed and public key. -/
def idSeed : List Byte := shake256 (ascii "RLTM-IDS" ++ rootKey) 57
def idPublic : List Byte := Config.ed448Public idSeed
/-- The X448 private and public keys. -/
def kxPrivate : List Byte := shake256 (ascii "RLTM-KXS" ++ rootKey) 56
def kxPublic : List Byte := Config.x448Public kxPrivate
/-- The module identity digest. -/
def idDigest : List Byte := shake256 (ascii "RLTM-MID" ++ idPublic) 32

namespace State

/-- The owner key, the recipe signing key of a slot, the line-software key and the debug key (R429). -/
def ownerKey (s : State) : List Byte := slice s.sec.owner 0x28 57
def recipeKey (s : State) (n : Nat) : List Byte := slice s.sec.owner (0x64 + 57 * n) 57
def lineKey (s : State) : List Byte := slice s.sec.owner 0x148 57
def debugKey (s : State) : List Byte := slice s.sec.owner 0x181 57
/-- A flag of the owner record: 0 REQUIRE_OWNER_FW, 1 ALLOW_DEBUG2, 2 ALLOW_RELTUM_DEBUG. -/
def ownerFlag (s : State) (b : Nat) : Bool := decide (fieldAt s.sec.owner 0x61 1 / 2 ^ b % 2 = 1)

/-- Whether a Reltum ROM key verifies a signature. -/
def romVerify (msg sig : List Byte) : Bool :=
  Config.ed448Verify (Config.romKey 0) msg sig || Config.ed448Verify (Config.romKey 1) msg sig ||
  Config.ed448Verify (Config.romKey 2) msg sig || Config.ed448Verify (Config.romKey 3) msg sig

/-- Resident recipes, by ascending polder and then index. -/
def residentRecipes (s : State) : List Recipe :=
  s.recipes.filterMap (fun (p : Nat × Option Recipe) => match p.2 with | some r => if r.residentAt then some r else none | none => none)

/-- An encrypted recipe is resident. -/
def encResident (s : State) : Bool := s.residentRecipes.any (fun r => r.encrypted)

/-- The attested state (R434): the report's bytes from 0xBC to 0x124 but for module time and EPOCH. -/
def attested (s : State) : List Byte :=
  leBytes 4 (fieldAt s.sec.header 8 4) ++ padTo 32 (slice s.sec.header 0x18 32) ++ leBytes 2 arithRev ++ leBytes 1 s.sec.state ++
  leBytes 1 s.sec.debug ++ leBytes 4 s.sec.svn.toNat ++ leBytes 4 s.sec.gen.toNat ++ leBytes 4 s.sec.token.toNat ++
  (if s.sec.state = 2 then shake256 s.ownerKey 32 else List.replicate 32 0) ++ leBytes 2 s.vig.boots.toNat ++ leBytes 2 s.vig.powerOns.toNat ++
  leBytes 1 (flagBit 0 s.sealed + flagBit 1 (64 < s.residentRecipes.length)) ++ leBytes 3 0

/-- A code of the security chapter: its status register, and the event ring and the Hexkeug record for classes 5 and 6;
a class 1 code enters the configuration report (R441). -/
def secCode (s : State) (code : Half) : State :=
  if codeClass code = 1 then (s.reportSubject code 2 0).last code 0x0D 0 else s.raise code 0x0D 0

end State
end Sys2Proof.Machine
end

