-- ==== Sys2Proof/Machine/Recipe.lean ====
section
/-! DEFINITION. Recipes: envelopes and containers, the load rules, residency, unloading, changeovers, and putting the KV pool
and the prefix tree in service (R166, R196, R204 to R209, R219 to R230, R256, R268, R374, R375, R431, R432). -/

namespace Sys2Proof.Machine

/-! ## Envelopes (R431, R432) -/

/-- An envelope's parts: its wraps and its payload. -/
def envWraps (e : List Byte) : Nat := fieldAt e 0x0C 2
def envPayload (e : List Byte) : List Byte := slice e (256 + 144 * envWraps e) (fieldAt e 0x08 4)
def envSigned (e : List Byte) : List Byte := e.take 0x80 ++ slice e 256 (144 * envWraps e) ++ envPayload e
def envEnc (e : List Byte) : Bool := decide (fieldAt e 0x06 1 % 2 = 1)

/-- An envelope's header as R431 lays it out. -/
def envForm (e : List Byte) : Bool :=
  decide (fieldAt e 0 4 = 0x52574C52) && decide (fieldAt e 4 2 = 1) && decide (fieldAt e 6 1 < 2) && allZero (slice e 0x0E 2) &&
  allZero (slice e 0x2C 84) && allZero (slice e 0xF2 14) &&
  (if envEnc e then decide (1 ≤ envWraps e) && decide (envWraps e ≤ 64) else decide (envWraps e = 0)) &&
  decide (256 + 144 * envWraps e + fieldAt e 0x08 4 ≤ e.length)

/-- The wrap that carries the module's identity digest. -/
def findWrap (e : List Byte) : Option (List Byte) :=
  ((List.range (envWraps e)).map (fun i => slice e (256 + 144 * i) 144)).find? (fun w => decide (w.take 32 = idDigest))

/-- The container of an encrypted envelope (R432). -/
def openEnvelope (e : List Byte) : Option (List Byte) :=
  match findWrap e with
  | none => none
  | some w =>
    let eph := slice w 0x20 56
    let kek := shake256 (ascii "RLTM-KEK" ++ Config.x448 kxPrivate eph ++ eph ++ kxPublic) 32
    match Config.aesGcmOpen kek (List.replicate 12 0) idDigest (slice w 0x58 32) (slice w 0x78 16) with
    | none => none
    | some key => Config.aesGcmOpen key (slice e 0x10 12) (e.take 0x10) (envPayload e) (slice e 0x1C 16)

namespace State

/-- An envelope's signature verifies under the slot it names, in the present security state (R432). -/
def envelopeOk (s : State) (e : List Byte) : Bool :=
  let slot := fieldAt e 0x07 1
  let sig := slice e 0x80 114
  envForm e &&
  (if s.sec.state = 2 then
    decide (slot < 4) && !allZero (s.recipeKey slot) && Config.ed448Verify (s.recipeKey slot) (envSigned e) sig
   else decide (s.sec.state = 1) && decide (slot = 0xFF) && !envEnc e && romVerify (envSigned e) sig)

/-- What an envelope holds, or the code that refuses it. -/
def envelope (s : State) (e : List Byte) : Except Half (List Byte) :=
  if ¬ s.envelopeOk e then .error 0x6074#16
  else if ¬ envEnc e then .ok (envPayload e)
  else if s.sec.debug = 2 then .error 0x6078#16
  else match openEnvelope e with | none => .error 0x6075#16 | some c => .ok c

end State

/-! ## Containers (R222 to R224) -/

/-- A failure of the load: its code, section and operation (R225, R451); 0xFF and 0xFFFFFFFF where none applies. -/
structure LoadFail where
  code : Half
  sec : Nat := 0xFF
  op : Nat := 0xFFFFFFFF
  deriving DecidableEq, Repr

/-- The first of several checks that fails. -/
def firstFail : List (Option LoadFail) → Option LoadFail
  | [] => none
  | some f :: _ => some f
  | none :: r => firstFail r

def failIf (b : Bool) (f : LoadFail) : Option LoadFail := if b then some f else none

/-- A section table entry. -/
def sectionOf (c : List Byte) (i : Nat) : Section :=
  let e := slice c (0x80 + 64 * i) 64
  { typ := fieldAt e 0 2, enc := decide (fieldAt e 2 2 % 2 = 1), ord := fieldAt e 4 2, off := fieldAt e 8 8, len := fieldAt e 0x10 8
    digest := slice e 0x20 32 }

def sectionCount (c : List Byte) : Nat := fieldAt c 0x18 2
def sectionsOf (c : List Byte) : List Section := (List.range (sectionCount c)).map (sectionOf c)
def sectionBytes (c : List Byte) (x : Section) : List Byte := slice c x.off x.len

/-- The container header (R222, R166). -/
def headerFail (c : List Byte) : Option LoadFail :=
  firstFail [
    failIf (decide (fieldAt c 0 4 ≠ 0x50544441) || decide (fieldAt c 4 2 ≠ 1) || decide (sectionCount c = 0) || decide (256 < sectionCount c) ||
      !allZero (slice c 0x1A 6) || !allZero (slice c 0x40 64) || decide (c.length < 0x80 + 64 * sectionCount c)) { code := 0x1B01#16 },
    failIf (decide (fieldAt c 6 2 ≠ State.arithRev) && !(List.range 4).any (fun i => decide (fieldAt c (8 + 2 * i) 2 = State.arithRev))) { code := 0x1701#16 }]

/-- One section's table entry (R223). -/
def tableFail (c : List Byte) (all : List Section) (x : Section × Nat) : Option LoadFail :=
  let e := slice c (0x80 + 64 * x.2) 64
  let q := x.1
  firstFail [
    failIf (decide (q.off % 256 ≠ 0) || decide (q.len = 0) || decide (c.length < q.off + q.len) || !allZero (slice e 6 2) || !allZero (slice e 0x18 8) ||
      all.zipIdx.any (fun (y : Section × Nat) => decide (y.2 ≠ x.2) && decide (q.off < y.1.off + y.1.len) && decide (y.1.off < q.off + q.len)))
      { code := 0x1B01#16, sec := x.2 },
    failIf (decide (q.typ = 0) || decide (8 < q.typ) || decide (1 < fieldAt e 2 2)) { code := 0x1B02#16, sec := x.2 }]

/-- Section digests (R224). -/
def digestFail (c : List Byte) (x : Section × Nat) : Option LoadFail :=
  failIf (decide (shake256 (sectionBytes c x.1) 32 ≠ x.1.digest)) { code := 0x2B01#16, sec := x.2 }

def recipeDigest (c : List Byte) : List Byte := shake256 (ascii "RLTM-RCP" ++ c.take 0x80 ++ slice c 0x80 (64 * sectionCount c)) 32
def encoderDigest (l : List Section) : List Byte := shake256 (ascii "RLTM-ENC" ++ l.flatMap (fun x => if x.enc then x.digest else [])) 32

/-! ## Programs (R112, R163, R226 to R230, R232) -/

/-- A region descriptor of an operation record: space, address, length, and whether its reserved bits are 0. -/
structure RawRegion where
  space : Nat
  addr : Nat
  len : Nat
  clean : Bool
  deriving DecidableEq, Repr

def rawRegion (r : List Byte) (i : Nat) : RawRegion :=
  let d := slice r (0x20 + 16 * i) 16
  { addr := fieldAt d 0 8, len := fieldAt d 8 4, space := fieldAt d 12 1 % 16, clean := decide (fieldAt d 12 4 < 16) }

/-- An operation record as far as R227 to R229, R232 and R233 lay it out. -/
structure RawOp where
  cls : Nat
  opc : Nat
  flags : Nat
  layer : Nat
  afmt : Nat
  wfmt : Nat
  ofmt : Nat
  nr : Nat
  nw : Nat
  target : Nat
  cycles : Nat
  reads : List RawRegion
  writes : List RawRegion
  bytes : List Byte
  deriving DecidableEq, Repr

def rawOp (r : List Byte) : RawOp :=
  let nr := fieldAt r 8 1 % 8
  let nw := fieldAt r 8 1 / 16 % 8
  { cls := fieldAt r 0 1, opc := fieldAt r 1 1, flags := fieldAt r 2 2, layer := fieldAt r 4 2, afmt := fieldAt r 6 1 % 16
    wfmt := fieldAt r 6 1 / 16, ofmt := fieldAt r 7 1, nr, nw, target := fieldAt r 9 1, cycles := fieldAt r 12 4
    reads := (List.range (min nr 4)).map (rawRegion r), writes := (List.range (min nw 2)).map (fun i => rawRegion r (4 + i)), bytes := r }

def RawOp.flag (o : RawOp) (b : Nat) : Bool := decide (o.flags / 2 ^ b % 2 = 1)

/-- Opcodes of a class (R228). -/
def opcodeCount : Nat → Nat
  | 1 => 8 | 2 => 3 | 3 => 6 | 4 => 0x18 | 5 => 2 | 6 => 1 | 7 => 4 | 8 => 1 | 9 => 5 | _ => 0

/-- A class and a space by their codes (R227, R228). -/
def classOfCode : Nat → OpClass
  | 1 => .move | 2 => .matrix | 3 => .window | 4 => .vector | 5 => .digest | 6 => .gate | 7 => .fence | 8 => .wait | _ => .culvert
def spaceOfCode : Nat → Space
  | 1 => .tile | 2 => .pool | 3 => .bonded | 4 => .host | 5 => .remote | 6 => .track | 7 => .recipe | _ => .unused

def RawRegion.region (r : RawRegion) : Region := { space := spaceOfCode r.space, addr := r.addr, len := r.len }

/-- What a record declares of its operation, as an engine's sequencer keeps it (R117). -/
def RawOp.decl (o : RawOp) : OpDecl :=
  { cls := classOfCode o.cls, opc := o.opc, reads := o.reads.map RawRegion.region, writes := o.writes.map RawRegion.region }

/-- A record belongs to a CHECK of R162. -/
def RawOp.isCheck (o : RawOp) : Bool := decide (o.cls = 4) && decide (o.opc = 0x15)

/-- Which records belong to the wide pass of their layer (R162, R239), as an engine finds it at issue: between the GATE of the
layer's CHECK and that GATE's target. `pos` is the place in the task, `cs` its CHECKs so far, each with its GATE's target. -/
def wideFlags : Nat → List (Nat × Option Nat) → List RawOp → List Bool
  | _, _, [] => []
  | pos, cs, o :: r =>
    let (pos, cs) := if o.flag 0 then (0, []) else (pos, cs)
    let w := !o.flag 3 && cs.any (fun x => decide (x.1 = o.layer) && (match x.2 with | none => false | some z => decide (pos < z)))
    let cs := if o.isCheck then (o.layer, none) :: cs
      else if o.cls = 6 then cs.map (fun x => (x.1, some (x.2.getD o.target))) else cs
    w :: wideFlags (pos + 1) cs r

/-- The bytes of a region that lies in a section of the container. -/
def sectionRead (c : List Byte) (r : RawRegion) : List Byte :=
  if r.space = 7 then slice (sectionBytes c (sectionOf c (r.addr / 2 ^ 56))) (r.addr % 2 ^ 56) r.len else []

/-- The encoding of one operation (R227, R228): `secs` are the lengths of the recipe's sections. -/
def encodingBad (secs : List Nat) (o : RawOp) : Bool :=
  let inSec (r : RawRegion) : Bool := match secs[r.addr / 2 ^ 56]? with | none => false | some n => decide (r.addr % 2 ^ 56 + r.len ≤ n)
  decide (opcodeCount o.cls ≤ o.opc) || decide (64 ≤ o.flags) || decide (4096 ≤ o.layer) ||
  decide (16 ≤ o.ofmt) || decide (4 < o.nr) || decide (2 < o.nw) || decide (fieldAt o.bytes 8 1 / 8 % 2 = 1) || decide (128 ≤ fieldAt o.bytes 8 1) ||
  !allZero (slice o.bytes 0x0A 2) || !allZero (slice o.bytes 0x10 16) ||
  (o.reads ++ o.writes).any (fun r => !r.clean || decide (r.space = 0) || decide (7 < r.space) || decide (r.len = 0)) ||
  o.writes.any (fun r => decide (r.space = 7)) || o.reads.any (fun r => decide (r.space = 7) && !inSec r) ||
  decide ((o.cls = 6) ≠ (o.target ≠ 0)) || (decide (o.cls = 6) && decide (64 < o.target)) ||
  (decide (o.cls = 3) && !allZero (slice o.bytes 0x98 104)) ||
  (decide (o.cls = 4) && decide (o.opc = 0x17) && decide (o.ofmt ≠ 9) && decide (o.ofmt ≠ 10))

/-- Culvert operands (R232, R367). -/
def culvertBad (o : RawOp) : Bool :=
  let rd := o.reads.headD ⟨0, 0, 0, true⟩
  let wr := o.writes.headD ⟨0, 0, 0, true⟩
  let loc (r : RawRegion) : Bool := decide (1 ≤ r.space) && decide (r.space ≤ 3)
  let tgt (r : RawRegion) : Bool := decide (2 ≤ r.space) && decide (r.space ≤ 5)
  let word (r : RawRegion) : Bool := decide (r.addr % 8 = 0) && decide (r.space ≠ 4) && tgt r
  decide (o.cls = 9) &&
  (match o.opc with
   | 0 => !loc rd || !tgt wr || (decide (rd.len ≠ wr.len) && decide (wr.space ≠ 3 ∨ wr.addr < portBase))
   | 1 => !tgt rd || !loc wr || decide (rd.len ≠ wr.len)
   | 2 => !word wr || decide (wr.len ≠ 8) || decide (3 < fieldAt o.bytes 0x88 1) || (decide (wr.space = 5) && decide (fieldAt o.bytes 0x88 1 ≠ 1))
   | 3 => !word wr || decide (wr.len ≠ 8)
   | _ => !word wr ||
     (o.flag 5 && decide (fieldAt o.bytes 0xA0 8 % 8 ≠ 0)))

/-- VARY where R230 asks for it. -/
def varyBad (o : RawOp) : Bool :=
  decide (o.cls = 9) && !o.flag 4 &&
  (decide (o.opc = 3) || (decide (o.opc = 2) && (decide (2 ≤ fieldAt o.bytes 0x88 1) || decide (2 ≤ o.nw))))

/-- The code of a format (R138). -/
def fmtOfNat : Nat → Fmt
  | 0 => .int8 | 1 => .uint8 | 2 => .int4 | 3 => .int16 | 4 => .code2 | 5 => .code3 | 6 => .code4 | 7 => .bf16 | 8 => .fp16 | 9 => .fp32
  | _ => .int32

/-- A record's header as an operation carries it. -/
def RawOp.hdr (o : RawOp) : OpHdr :=
  { eng := 0, ctx := 0, layer := ⟨o.layer % 4096, Nat.mod_lt _ (by decide)⟩, dig := o.flag 2, prov := o.flag 3, vary := o.flag 4, sig := o.flag 5
    afmt := fmtOfNat o.afmt, wfmt := fmtOfNat o.wfmt, ofmt := fmtOfNat o.ofmt
    reads := o.reads.map RawRegion.region, writes := o.writes.map RawRegion.region, cycles := o.cycles }

/-- Opcodes of WINDOW operations (R228). -/
def winOpOfNat : Nat → WinOp
  | 0 => .conv | 1 => .dwconv | 2 => .maxpool | 3 => .minpool | 4 => .avgpool | _ => .label

/-- The parameters of a WINDOW record: its fields of R229, and what else it declares. -/
def RawOp.win (o : RawOp) : WinParams :=
  let b := o.bytes
  let f (i : Nat) : Nat := fieldAt b (0x80 + i) 1
  let w (i : Nat) : Nat := fieldAt b (0x80 + i) 2
  let fl := f 0x11
  { Config.winParams b with
    kh := f 0, kw := f 1, sh := f 2, sw := f 3, dh := f 4, dw := f 5, pt := w 6, pb := w 8, pl := w 10, pr := w 12, g := w 14
    pad := ⟨f 0x10 % 4, Nat.mod_lt _ (by decide)⟩, countPad := decide (fl % 2 = 1), stream := decide (fl / 2 % 2 = 1)
    roi := decide (fl / 4 % 2 = 1), conn8 := decide (fl / 8 % 2 = 1), lbUnits := w 0x12, const := w 0x14, lmax := w 0x16 }

/-- What the load rules of the operation's class find against its operands: number formats, outlier lists, codebooks and side
lists, the parameters of R169 to R179, the layer stack, and a track's parameters (R138, R143, R155 to R160, R169, R173, R175,
R179, R185, R188, R195). -/
def operandCode (c : List Byte) (stored : Nat) (o : RawOp) (wide : Bool) : Option Half :=
  let h := o.hdr
  let weights : List Byte := match o.reads[1]? with | none => [] | some r => sectionRead c r
  let (zp, excl, k) := Config.quantDecl o.bytes
  match o.cls, o.opc with
  | 1, 2 | 1, 6 => if State.trackOk (Config.trackParams o.bytes) then none else some 0x1902#16
  | 2, 0 => matLoadCode h (Config.matParams o.bytes) wide weights
  | 2, 1 => State.absorbCode stored h (Config.attnParams o.bytes)
  | 2, _ => State.expandCode stored h (Config.expandParams o.bytes)
  | 3, n => if 4 ≤ fieldAt o.bytes 0x90 1 then some 0x1802#16 else winLoadCode h (winOpOfNat n) o.win wide weights
  | 4, 0x12 => if ¬ zpOk h.ofmt zp then some 0x1702#16 else if outliersOk k excl then none else some 0x1703#16
  | 4, 0x13 => if outliersOk (rowLenOf h 4) excl then none else some 0x1703#16
  | 4, 0x14 => if outliersOk (rowLenOf h 5) excl then none else some 0x1703#16
  | _, _ => none

/-- What one operation is refused for, taken alone: `secs` are the section lengths, `stored` the format of the layer stack, and
`res` the resident bytes of its program. -/
def opFail (c : List Byte) (secs : List Nat) (stored res : Nat) (sec : Nat) (x : (RawOp × Nat) × Bool) : Option LoadFail :=
  let o := x.1.1
  let at_ (code : Half) : LoadFail := { code, sec, op := x.1.2 }
  let place := State.residentAt (recipeDigest c)
  firstFail [
    failIf (encodingBad secs o) (at_ 0x1B03#16),
    failIf (decide (10 < o.afmt) || decide (10 < o.wfmt) || decide (10 < o.ofmt)) (at_ 0x1011#16),
    failIf (culvertBad o) (at_ 0x1B04#16),
    failIf (varyBad o) (at_ 0x1B05#16),
    failIf (o.writes.any (fun r => decide (r.space = 1) && decide (r.addr < place + res) && decide (place < r.addr + r.len))) (at_ 0x1604#16),
    (operandCode c stored o x.2).map at_]

/-- The operations of a CODE section with their indices. -/
def rawOps (code : List Byte) : List (RawOp × Nat) :=
  ((List.range (fieldAt code 4 4)).map (fun i => rawOp (slice code (0x40 + 256 * i) 256))).zipIdx

/-- Operations cut into tasks from TASK_START to TASK_END; none where one stands outside a task or two starts meet. -/
def cutTasks : List (RawOp × Nat) → Option (List (RawOp × Nat)) → Option (List (List (RawOp × Nat)))
  | [], none => some []
  | [], some _ => none
  | x :: r, cur =>
    match cur, x.1.flag 0 with
    | none, false => none
    | some _, true => none
    | none, true => if x.1.flag 1 then (cutTasks r none).map ([x] :: ·) else cutTasks r (some [x])
    | some l, false => if x.1.flag 1 then (cutTasks r none).map ((l ++ [x]) :: ·) else cutTasks r (some (l ++ [x]))

/-- An operation that waits stands at the start of its task alone; a gate's target lies later in the task or at its end (R112). -/
def placesOk (t : List (RawOp × Nat)) : Bool :=
  let lead := (t.takeWhile (fun x => decide (x.1.cls = 8))).length
  t.zipIdx.all (fun (x : (RawOp × Nat) × Nat) =>
    (decide (x.1.1.cls ≠ 8) || decide (x.2 < lead)) && (decide (x.1.1.cls ≠ 6) || (decide (x.2 < x.1.1.target) && decide (x.1.1.target ≤ t.length))))

/-- Every byte of a region lies in one of several: its first byte does, and so does every byte at which one of them ends. -/
def covered (l : List RawRegion) (r : RawRegion) : Bool :=
  (r.addr :: (l.map (fun q => q.addr + q.len)).filter (fun a => decide (r.addr ≤ a) && decide (a < r.addr + r.len))).all (fun a =>
    l.any (fun q => decide (q.addr ≤ a) && decide (a < q.addr + q.len)))

/-- The rules of provisional layers (R163). -/
def checkRules (t : List (RawOp × Nat)) : Bool :=
  let wide := (t.zip (wideFlags 0 [] (t.map (·.1)))).filter (·.2)
  let prov := t.filter (fun x => x.1.flag 3)
  let checks := t.filter (fun x => x.1.isCheck)
  let wrote (layer : Nat) : List RawRegion :=
    (wide.filter (fun y => decide (y.1.1.layer = layer))).flatMap (fun y => y.1.1.writes.filter (fun q => decide (q.space = 1)))
  decide (checks.length ≤ 1) &&
  prov.all (fun x =>
    x.1.writes.all (fun r => decide (r.space = 1)) &&
    (match checks with
     | [] => false
     | c :: _ => decide (c.1.layer = x.1.layer) && decide (x.2 < c.2) && x.1.writes.all (covered (wrote x.1.layer))))

/-- What one task is refused for. -/
def taskFail (sec : Nat) (x : List (RawOp × Nat) × Nat) : Option LoadFail :=
  let t := x.1
  let bound := (t.headD (rawOp [], 0)).1.cycles
  firstFail [
    failIf (decide (64 < t.length) || decide (240000 < bound)) { code := 0x1603#16, sec, op := x.2 },
    failIf (!placesOk t) { code := 0x1604#16, sec, op := x.2 },
    failIf (!checkRules t) { code := 0x1704#16, sec, op := x.2 }]

/-- A region touches a page of the tile store. -/
def touchesPage (p : Nat) (r : RawRegion) : Bool :=
  (decide (r.space = 1) && decide (r.addr < 4096 * (p + 1)) && decide (4096 * p < r.addr + r.len)) ||
  (decide (r.space = 6) && decide (r.addr % 2 ^ 32 < 4096 * (p + 1)) && decide (4096 * p < r.addr % 2 ^ 32 + 4))

/-- Pages of the tile store that a program's operations name, its resident regions among them. -/
def programPages (c : List Byte) (res : Nat) (ops : List RawOp) : Nat :=
  let place := State.residentAt (recipeDigest c)
  ((List.range 1536).filter (fun p => ops.any (fun o => (o.reads ++ o.writes).any (touchesPage p)) ||
    (decide (place < 4096 * (p + 1)) && decide (4096 * p < place + res)))).length

/-- The first WINDOW operation whose line buffer, with the program's pages, exceeds the tile store (R179): `pages` is what R119
leaves of it. -/
def bufferFail (c : List Byte) (res pages sec : Nat) (ops : List (RawOp × Nat)) : Option LoadFail :=
  let used := programPages c res (ops.map (·.1))
  (ops.find? (fun x => decide (x.1.cls = 3) && decide (pages < x.1.win.lbUnits + used))).map (fun x => { code := 0x1804#16, sec, op := x.2 })

/-- What loading takes of the polder it loads for: RES_MAX (R322), and the tile store pages that R119 leaves its engines. -/
structure LoadRoom where
  resMax : Nat
  pages : Nat
  deriving DecidableEq, Repr

/-- The program of a CODE section, or what it is refused for (R226, R227). -/
def program (c : List Byte) (secs : List Nat) (stored : Nat) (room : LoadRoom) (code : List Byte) (sec : Nat) : Except LoadFail Prog :=
  let n := fieldAt code 4 4
  let res := fieldAt code 8 4
  let bLive := fieldAt code 12 4
  let nIn := fieldAt code 16 2
  let bad : LoadFail := { code := 0x1B03#16, sec }
  if 3 < fieldAt code 0 1 ∨ 3 < fieldAt code 1 1 ∨ n = 0 ∨ 1048576 < n ∨ 1048576 < res ∨ code.length ≠ 64 + 256 * n ∨ ¬ allZero (slice code 0x12 46) ∨
      bLive < res ∨ 2097152 / max 1 room.resMax < bLive ∨ 2048 < nIn then .error bad
  else
    let ops := rawOps code
    match firstFail ((ops.zip (wideFlags 0 [] (ops.map (·.1)))).map (opFail c secs stored res sec)) with
    | some f => .error f
    | none =>
      match cutTasks ops none with
      | none => .error bad
      | some ts =>
        if ts.length ≠ fieldAt code 2 2 then .error bad
        else match firstFail (ts.zipIdx.map (taskFail sec) ++ [bufferFail c res room.pages sec ops]) with
          | some f => .error f
          | none => .ok
            { sec, kind := fieldAt code 0 1, bucket := fieldAt code 1 1
              tasks := ts.map (fun t => (t.length, (t.headD (rawOp [], 0)).1.cycles)), decl := ts.map (fun t => t.map (fun x => x.1.decl))
              resident := res, bLive, nInflight := nIn }

/-- The programs of the CODE sections in ascending ordinal. -/
def programs (secs : List Nat) (stored : Nat) (room : LoadRoom) (c : List Byte) : List (Section × Nat) → Except LoadFail (List Prog)
  | [] => .ok []
  | x :: r =>
    match program c secs stored room (sectionBytes c x.1) x.2 with
    | .error f => .error f
    | .ok p => match programs secs stored room c r with | .error f => .error f | .ok l => .ok (p :: l)

/-- Sections of a type in ascending ordinal. -/
def ofType (l : List Section) (t : Nat) : List (Section × Nat) :=
  let q := l.zipIdx.filter (fun (x : Section × Nat) => decide (x.1.typ = t))
  (List.range (q.foldl (fun m x => max m (x.1.ord + 1)) 0)).flatMap (fun i => q.filter (fun x => decide (x.1.ord = i)))

/-! ## POLICY and CALENDAR sections (R12, R256, R268) -/

def policyFail (b : List Byte) (sec : Nat) : Option LoadFail :=
  firstFail [
    failIf ((slice b 2 3).any (fun x => decide (1 < x.toNat))) { code := 0x1012#16, sec },
    failIf (decide (b.length ≠ 32) || decide (fieldAt b 0 2 ≠ 1) || !allZero (slice b 5 3) || decide (2 ^ 31 ≤ fieldAt b 8 4) ||
      decide (fieldAt b 12 4 = 0) || decide (2 ^ 24 < fieldAt b 12 4) || !allZero (slice b 16 16)) { code := 0x1C01#16, sec }]

/-- Proving rules cut from a CALENDAR section; none where they do not fill it. -/
def cutRules : Nat → List Byte → Option (List (List Byte))
  | _, [] => some []
  | 0, _ => none
  | n + 1, b =>
    let k := 64 + 2 * (fieldAt b 1 1 * fieldAt b 2 1)
    if b.length < k then none else (cutRules n (b.drop k)).map (b.take k :: ·)

def ruleBad (r : List Byte) : Bool :=
  let pw := fieldAt r 1 1
  let ph := fieldAt r 2 1
  let lo := fieldAt r 0x0C 2
  let hi := fieldAt r 0x0E 2
  decide (17 < fieldAt r 0 1) || decide (pw = 0) || decide (64 < pw) || decide (ph = 0) || decide (16 < ph) || decide (4 < fieldAt r 3 1 % 16) ||
  decide (4 < fieldAt r 3 1 / 16) || decide (fieldAt r 4 4 = 0) || decide (2 ^ 31 ≤ fieldAt r 4 4) || decide (hi + 1 < lo + pw) ||
  decide (600 < fieldAt r 0x10 2) || !allZero (slice r 0x12 46)

/-- The pipe set of a source packs to other than UINT8 or INT8: its OFMT above 1 (R97, R268). -/
def sourcePacks (c : List Byte) (l : List Section) (r : List Byte) : Bool :=
  match (ofType l 6)[fieldAt r 0 1]? with
  | none => true
  | some x => decide (imageOfmt (sectionBytes c x.1) ≤ 1)
where imageOfmt (b : List Byte) : Nat := fieldAt b 0x2E 1 % 4

def calendarFail (c : List Byte) (l : List Section) (x : Section × Nat) : Option LoadFail :=
  match cutRules 16 (sectionBytes c x.1) with
  | none => some { code := 0x1C03#16, sec := x.2 }
  | some rs => failIf (rs.any (fun r => ruleBad r || !sourcePacks c l r)) { code := 0x1C03#16, sec := x.2 }

/-! ## Prefixes (R204, R208) -/

/-- page_hash (R204). -/
def pageHash (parent enc : List Byte) (rev fmt l sg tb : Nat) (toks : List Byte) (n : Nat) : List Byte :=
  shake256 (ascii "RLTM-PFX" ++ parent ++ enc ++ leBytes 2 rev ++ leBytes 1 fmt ++ leBytes 1 l ++ leBytes 1 sg ++ leBytes 2 tb ++ leBytes 1 n ++ toks) 32

/-- The hashes of a prefix's pages. -/
def pageHashes (enc : List Byte) (rev fmt l sg tb : Nat) : Nat → List Byte → List Byte → List (List Byte)
  | 0, _, _ => []
  | k + 1, parent, toks =>
    let t := toks.take (64 * tb)
    let h := pageHash parent enc rev fmt l sg tb t (t.length / tb)
    h :: pageHashes enc rev fmt l sg tb k h (toks.drop (64 * tb))

/-! ## The whole container (R225, R374) -/

/-- The feature level that a program's operations need (R374): remote PUT, GET, SIGNAL and barriers 1, remote ADD and CAS 2. -/
def levelOf (o : RawOp) : Nat :=
  let remote : Bool := (o.reads ++ o.writes).any (fun r => decide (r.space = 5))
  let port : Bool := o.writes.any (fun r => decide (r.space = 3) && decide (r.addr = arrivalPort))
  if o.cls ≠ 9 then 0 else if remote && (decide (o.opc = 2) || decide (o.opc = 3)) then 2 else if remote || port then 1 else 0

/-- A recipe from a verified container, or the first failure (R225). -/
def parseContainer (room : LoadRoom) (level : Nat) (lineOn : Bool) (c : List Byte) (pfxOn : Bool) (slotBytes : Nat) : Except LoadFail Recipe :=
  let l := sectionsOf c
  let secs := l.map (·.len)
  let shape := Config.recipeShape c
  let tb := shape.1
  let pfx := (ofType l 5).flatMap (fun x => sectionBytes c x.1)
  let tokens := if tb = 0 then 0 else pfx.length / tb
  let g : KvGeom := ⟨shape.2.1, shape.2.2.1, shape.2.2.2⟩
  let early := firstFail ([headerFail c] ++ l.zipIdx.map (tableFail c l) ++ l.zipIdx.map (digestFail c) ++
    [failIf (!pfx.isEmpty && !l.any (·.enc)) { code := 0x1B02#16 }])
  match early with
  | some f => .error f
  | none =>
    match programs secs g.fmt room c (ofType l 1) with
    | .error f => .error f
    | .ok ps =>
      let need := ((ofType l 1).flatMap (fun x => (rawOps (sectionBytes c x.1)).map (fun o => levelOf o.1))).foldl max 0
      let late := firstFail ((ofType l 7).map (fun x => policyFail (sectionBytes c x.1) x.2) ++ (ofType l 8).map (calendarFail c l) ++ [
        failIf (decide (level < need) && lineOn) { code := 0x1042#16 },
        failIf (!pfx.isEmpty && (decide (65536 < tokens) || decide (tb = 0) || decide (4096 < tb) || decide (pfx.length % max 1 tb ≠ 0))) { code := 0x1A02#16 },
        failIf (!pfx.isEmpty && (decide (g.segs = 0) || decide (8 < g.segs))) { code := 0x1902#16 },
        failIf (decide (0 < g.blocks) && decide (slotBytes < g.pageBytes)) { code := 0x1904#16 }])
      match late with
      | some f => .error f
      | none =>
        let enc := encoderDigest l
        let pages := (tokens + 63) / 64
        .ok { len := c.length, base := 0, digest := recipeDigest c, enc, rev := State.arithRev, seed := BitVec.ofNat 64 (fieldAt c 0x10 8), sections := l
              progs := ps, policy := ((ofType l 7).head?).map (fun x =>
                let b := sectionBytes c x.1
                ([fieldAt b 2 1, fieldAt b 3 1, fieldAt b 4 1], fieldAt b 8 4, fieldAt b 12 4))
              prefixTokens := tokens, kvFmt := g.fmt, kvLayers := g.layers, kvSegs := g.segs
              hashes := pageHashes enc State.arithRev g.fmt g.layers g.segs tb pages (List.replicate 32 0) pfx
              tokensOf := (List.range pages).map (fun p => min 64 (tokens - 64 * p)), todo := pages, failed := !pfxOn && decide (0 < pages)
              rules := ((ofType l 8).flatMap (fun x => (cutRules 16 (sectionBytes c x.1)).getD [])) }

namespace State

/-! ## RECIPE_LOAD -/

/-- An admin or work descriptor complete (R351). -/
def descDone (s : State) (d : DescHdr) (status : Half) (result : Nat := 0) : State :=
  { s with log := s.log.complete s.stamp d.fn d.ring d.tag d.irq { status, result := BitVec.ofNat 64 result } }

/-- The lowest free recipe index of a function. -/
def freeRecipe (s : State) (fn : Nat) : Nat :=
  ((List.range (s.recipes.length + 1)).find? (fun i => (s.recipe (fn * 65536 + i)).isNone)).getD 0

/-- What a polder's engines leave a program (R119, R322). -/
def loadRoom (s : State) (p : Nat) : LoadRoom :=
  { resMax := (s.polder p).resMax, pages := (s.polderEngines p).foldl (fun n e => min n (s.tileBytes e / 4096)) 0x600 }

/-- The registers in which a load's code shows: of the engines and the arithmetic those of the polder's engines (R137, R167,
R184), of the pool KV_STAT (R203), of the prefix tree PFX_STAT (R221). -/
def loadLast (s : State) (p : Nat) (code : Half) : State :=
  let ch := codeChapter code
  if ch = 6 ∨ ch = 7 ∨ ch = 8 then s.lastAll code 0x05 (s.polderEngines p)
  else if ch = 9 then ({ s with log := s.log.last code 0x06 0x10 }).lastAll code 0x05 (s.polderEngines p)
  else if ch = 10 then { s with log := s.log.last code 0x06 0x11 }
  else s

/-- A load that fails (R225, R441, R451): the report, LAST_CODE, the security codes' posts, and the record. -/
def loadFailed (s : State) (d : DescHdr) (f : LoadFail) : State :=
  let s := s.loadLast (d.fn - 1) f.code
  let s :=
    if codeChapter f.code = 0x07 then s.raise f.code 0x0D 0
    else if f.code = 0x2B01#16 then
      let s := s.reportSubject f.code 2 (0xFFFF + f.sec % 256 * 2 ^ 16 + f.op * 2 ^ 24) d.fn
      { s with log := s.log.hexEnter s.stamp f.code 0x0D 0 [] }
    else s.reportSubject f.code 2 (0xFFFF + f.sec % 256 * 2 ^ 16 + f.op * 2 ^ 24) d.fn
  s.descDone d f.code

/-- Where a container goes in its polder's allocation. -/
def recipeBase (s : State) (p idx len : Nat) : Nat :=
  let x := s.polder p
  x.base + (Config.recipePlace p idx len % (x.size - len + 1)) / 256 * 256

/-- A container loaded: in the polder's memory, read-only, and its residency begun (R209, R225). -/
def placeRecipe (s : State) (d : DescHdr) (c : List Byte) (encrypted : Bool) (r : Recipe) : State :=
  let fn : Nat := d.fn
  let i := s.freeRecipe fn
  let key := fn * 65536 + i
  let base := s.recipeBase (fn - 1) i c.length
  let r := { r with fn, base, encrypted }
  let s := { s with bonded := writeBytes s.bonded base c }
  if r.failed then ((s.putRecipe key r).notResident key 0x1A01#16).descDone d 0x1A01#16 i
  else if r.todo = 0 then (s.putRecipe key { r with residentAt := true }).descDone d 0 i
  else s.putRecipe key { r with waiting := some (d.ring, d.tag, d.irq) }

/-- RECIPE_LOAD (R225, R347, R432). -/
def recipeLoadEff (s : State) (d : DescHdr) (addr len : Nat) : State :=
  let fn : Nat := d.fn
  let x := s.polder (fn - 1)
  if fn = 0 ∨ ¬ x.made ∨ x.size < len then s.descDone d 0x1031#16
  else
    let e := readBytes s.log.host addr len
    match s.envelope e with
    | .error code => s.loadFailed d { code }
    | .ok c =>
      match parseContainer (s.loadRoom (fn - 1)) s.line.level s.line.running c s.kv.treeRunning s.kvSlotBytes with
      | .error f => s.loadFailed d f
      | .ok r => s.placeRecipe d c (envEnc e) r

/-! ## Residency (R208, R209) -/

/-- The nodes a hash probes, in order. -/
def probes (s : State) (h : List Byte) : List Nat :=
  let n := s.buckets
  (List.range 8).flatMap (fun i => (List.range 4).map (fun w => (leNat (h.take 4) + i) % n * 4 + w))

def lookup (s : State) (h : List Byte) : Option Nat := (s.probes h).find? (fun i => decide ((s.node i).state ≠ 0) && decide ((s.node i).hash = h))
def freeWay (s : State) (h : List Byte) : Option Nat := (s.probes h).find? (fun i => decide ((s.node i).state = 0))

/-- A residency that fails (R209): inserted nodes set free, every reference of the attempt released. -/
def residencyFail (s : State) (key : Nat) (code : Half) : State :=
  match s.recipe key with
  | none => s
  | some r =>
    let mine := r.inserted
    let s := s.putRecipe key { r with nodes := [], todo := 0, inserted := [], revived := [], failed := true }
    let s := s.dropHolders mine (s.recipes.map (fun (p : Nat × Option Recipe) => p.1))
    ((((s.discardNodes mine).unrefNodes (r.nodes.filter (fun i => !mine.contains i))).notResident key code).waitingDone key code)

/-- A page taken. -/
def takePage (s : State) (key i : Nat) (inserted revived : Bool) : State :=
  match s.recipe key with
  | none => s
  | some r => s.putRecipe key { r with
      nodes := r.nodes ++ [i], todo := r.todo - 1, inserted := if inserted then r.inserted ++ [i] else r.inserted
      revived := if revived then r.revived ++ [i] else r.revived }

/-- The last page taken: the load's record, and the recipe resident where every page is ready (R210). -/
def residencyEnd (s : State) (key : Nat) : State :=
  match s.recipe key with
  | none => s
  | some r => if r.todo = 0 ∧ ¬ r.failed then (s.waitingDone key 0).checkResident key else s

/-- RESIDENCY_STEP (R209). -/
def residencyStepEff (s : State) (key : Nat) : State :=
  match s.recipe key with
  | none => s
  | some r =>
    if r.todo = 0 ∨ r.failed ∨ ¬ s.kv.treeRunning then s
    else
      let p := r.nodes.length
      let h := r.hashes.getD p []
      match s.lookup h with
      | some i =>
        let x := s.node i
        if x.state = 3 then
          let s := s.putNode i { x with state := 2, refs := 1, retiredAt := 0 }
          (((s.kvVoid x.slot).bump 0x270128 1).takePage key i false true).residencyEnd key
        else ((((s.putNode i { x with refs := x.refs + 1 }).bump 0x270120 1).takePage key i false false).residencyEnd key)
      | none =>
        match s.freeWay h with
        | none => s.residencyFail key 0x3A01#16
        | some i =>
          if s.kvFree < s.kvResv + 1 + s.kvGrow then s.residencyFail key 0x3A02#16
          else match s.kvTake with
            | none => s.residencyFail key 0x3A02#16
            | some (slot, s) =>
              let s := s.putNode i
                { hash := h, slot, parent := r.nodes.getLast?, page := p, tokens := r.tokensOf.getD p 0, state := 1, refs := 1, builder := some key }
              ((s.bump 0x270124 1).takePage key i true false).residencyEnd key

/-! ## RECIPE_UNLOAD (R220) -/

def recipeUnloadEff (s : State) (d : DescHdr) (idx : Nat) : State :=
  let fn : Nat := d.fn
  let key := fn * 65536 + idx
  match s.recipe key with
  | none => s.descDone d 0x1031#16
  | some r =>
    if s.active.any (fun (p : Nat × Option Nat) => decide (p.2 = some key)) then
      ((s.reportSubject 0x1A03#16 2 (idx % 65536 + 0xFFFFFFFF * 2 ^ 24) fn).last 0x1A03#16 0x06 0x11).descDone d 0x1A03#16
    else
      let mine := (s.nodes.filter (fun (p : Nat × Node) => decide (p.2.state = 1) && decide (p.2.builder = some key))).map (fun (p : Nat × Node) => p.1)
      if ¬ mine.isEmpty ∧ ¬ r.buildJob then
        let s := s.putRecipe key { r with nodes := [], todo := 0, failed := true }
        let s := s.dropHolders mine (s.recipes.map (fun (p : Nat × Option Recipe) => p.1))
        (((s.discardNodes mine).unrefNodes (r.nodes.filter (fun i => !mine.contains i))).dropRecipe key).descDone d 0
      else ((s.putRecipe key { r with draining := true }).drainRecipe key).descDone d 0

/-! ## CHANGEOVER (R219) -/

/-- CHANGEOVER: the next recipe and its target block; a later request replaces one still waiting. -/
def changeoverEff (s : State) (d : DescHdr) (k when_ vf idx at_ : Nat) : State :=
  let key := vf * 65536 + idx
  if (d.fn : Nat) ≠ 0 ∨ vf = 0 ∨ (s.recipe key).isNone then s.descDone d 0x1031#16
  else if when_ = 3 then (s.reportSubject 0x1011#16 2 (idx % 65536 + 0xFFFFFFFF * 2 ^ 24) vf).descDone d 0x1011#16
  else
    ({ s with changes := tset none s.changes k (some { recipe := key, when_, at_ := at_ % 2 ^ 48 }) }).descDone d 0

/-! ## Putting the pool and the tree in service (R196, R206) -/

/-- Field failures of a commit: bits, value and range. -/
def rangeFail (s : State) (off hi lo a b kind inst : Nat) (code : Half) : State × Bool :=
  let v := s.fld off hi lo
  if a ≤ v ∧ v ≤ b then (s, true) else ((s.report code 2 off hi lo v v).last code kind inst, false)

/-- KV_ENABLE: a write of `KV_CFG` (R196). In service, the track table holds no handle and the free-slot stack every slot, the
lowest on top (the assumption log, 91). -/
def kvEnableEff (s : State) (v : Word) : State :=
  let o := 0x270008
  if s.flag o 31 then (if s.wouldBe o v = s.reg o then s.writeFields o 0x06 0x10 v else s.ignoreWrite 0x1901#16 0x06 0x10 o v)
  else
    let s := s.writeFields o 0x06 0x10 v
    if ¬ s.flag o 31 then s
    else
      let (s, a) := s.rangeFail o 4 0 1 24 0x06 0x10 0x1901#16
      let (s, b) := s.rangeFail o 24 16 1 256 0x06 0x10 0x1901#16
      let fails := regionFails 0x1901#16 5 (s.exclusiveMeets 5 s.kvRegion.1 s.kvRegion.2)
      if a ∧ b ∧ fails.isEmpty then
        { s with
          kv := { s.kv with running := true, slots := s.kvCount, fresh := 0, freed := [] }
          bonded := writeBytes (clearSpan s.bonded s.kvBase 0x40000) (s.stackAt 0) ((List.range s.kvCount).flatMap (fun i => leBytes 4 (s.kvCount - 1 - i))) }
      else (s.setFld o 31 31 0).refuseAll 0x06 0x10 o 31 0 fails

/-- A write of a base register, whose lowest `low` bits are ignored, and all of it while its unit is in service (R196, R206). -/
def baseWrite (s : State) (code : Half) (inst off low : Nat) (run : Bool) (v : Word) : State :=
  let v := if low = 0 then v else putBits v (low - 1) 0 0
  if run ∧ s.wouldBe off v ≠ s.reg off then s.ignoreWrite code 0x06 inst off v else s.writeFields off 0x06 inst v

/-- KV_QUOTA_WRITE (R196): a quota below use is ignored. -/
def kvQuotaWriteEff (s : State) (p : Nat) (v : Word) : State :=
  if bits v 23 0 < s.kvUsed p then s.ignoreWrite 0x1901#16 0x06 0x10 (0x270040 + 4 * p) v
  else s.writeFields (0x270040 + 4 * p) 0x06 0x10 (putBits v 31 24 0)

/-- PFX_ENABLE: a write of `PFX_CFG` (R206, R217). A table that comes into service with no node is all free. -/
def pfxEnableEff (s : State) (v : Word) : State :=
  let o := 0x270100
  if s.flag o 31 then (if s.wouldBe o v = s.reg o then s.writeFields o 0x06 0x11 v else s.ignoreWrite 0x1A01#16 0x06 0x11 o v)
  else
    let s := s.writeFields o 0x06 0x11 v
    if ¬ s.flag o 31 then s
    else
      let (s, a) := s.rangeFail o 20 16 10 16 0x06 0x11 0x1A01#16
      let fails := regionFails 0x1A01#16 6 (s.exclusiveMeets 6 s.pfxRegion.1 s.pfxRegion.2) ++ (if s.kv.running then [] else [(0x1A01#16, 0)])
      if a ∧ fails.isEmpty then
        { s with
          kv := { s.kv with treeRunning := true, epochFrom := s.now }
          bonded := if s.nodes.isEmpty then clearSpan s.bonded s.pfxRegion.1 s.pfxRegion.2 else s.bonded }
      else (s.setFld o 31 31 0).refuseAll 0x06 0x11 o 31 0 fails

end State

/-! ## Meanings -/

def execRecipeLoad (d : DescHdr) (addr len : Nat) (s : State) : Host.Outcome State Fault Refusal :=
  .next (if s.serves then s.recipeLoadEff d addr len else s)
def execRecipeUnload (d : DescHdr) (idx : Nat) (s : State) : Host.Outcome State Fault Refusal :=
  .next (if s.serves then s.recipeUnloadEff d idx else s)
def execChangeover (d : DescHdr) (k : Fin 18) (w : Fin 4) (vf : Fin 7) (idx at_ : Nat) (s : State) : Host.Outcome State Fault Refusal :=
  .next (if s.serves then s.changeoverEff d k w vf idx at_ else s)
def execResidencyStep (key : Nat) (s : State) : Host.Outcome State Fault Refusal :=
  .next (if s.serves then (s.residencyStepEff key) else s)
def execKvEnable (v : Word) (s : State) : Host.Outcome State Fault Refusal :=
  .next (s.gate 0 0x270008 v (fun s => s.kvEnableEff v))
def execKvQuotaWrite (p : Fin 6) (v : Word) (s : State) : Host.Outcome State Fault Refusal :=
  .next (s.gate 0 (0x270040 + 4 * p) v (fun s => s.kvQuotaWriteEff p v))
def execPfxEnable (v : Word) (s : State) : Host.Outcome State Fault Refusal :=
  .next (s.gate 0 0x270100 v (fun s => s.pfxEnableEff v))

end Sys2Proof.Machine
end

