-- ==== Sys2Proof/Machine/Prove.lean ====
section
/-! DEFINITION. Calendar writes from software, changeover and proving entries, proving deadlines, and batches
(R219, R253, R254, R262 to R264, R268 to R270, R389). -/

namespace Sys2Proof.Machine

namespace State

/-- CAL_WRITE (R263, R347): an admin descriptor of PF0 that writes one Calendar entry. -/
def calWriteEff (s : State) (d : DescHdr) (e : CalWord) : State :=
  if (d.fn : Nat) ≠ 0 then s.descDone d 0x1031#16
  else match s.calRefusal e with
    | some code => (s.reportSubject code 2 0).descDone d code
    | none =>
      let n : Nat := e.axis
      let (s, ok) := s.calAdd n [{ pos := e.pos, kind := calKindOf e.kind, axis := n, dir := e.dir, tag := e.tag, operand := e.operand }]
      s.descDone d (if ok then 0 else 0x3C01#16)

/-- CAL_CHANGEOVER_FIRE (R219, R264): a changeover with WHEN 2 that waits has its entry. -/
def calChangeoverEff (s : State) (n idx : Nat) : State :=
  match s.calDue n idx .changeover with
  | none => s
  | some e =>
    let s := s.calTake n idx e
    let k := bits e.operand 4 0
    match tget none s.changes k with
    | none => s
    | some c =>
      if c.when_ = 2 ∧ c.fired = none then
        { s with changes := tset none s.changes k (some { c with fired := some (e.axis, e.pos, e.dir) }) }
      else s

/-- The newest finished block of a context. -/
def lastPiped (s : State) (k : Nat) : Option Nat :=
  (s.records.find? (fun y => decide (y.block.ctx = k) && y.piped)).map (fun y => y.block.b)

/-- An injection starts, or is shed beyond MIN_PER_MIN (R269, R270). -/
def inject (s : State) (r : Nat) (e : CalEntry) : State :=
  let g := s.proving r
  let g := if 60000000000 ≤ s.now - g.minute then
      { g with minute := s.now - (s.now - g.minute) % 60000000000, inMinute := 0 } else g
  if g.perMin ≤ g.inMinute ∧ ¬ s.shedAdmits then (s.setProving r g).bump 0x280028 1
  else
    let s := (s.setProving r { g with inMinute := g.inMinute + 1, fired := g.fired ++ [(e.axis, e.pos, e.dir)] }).bump 0x280020 1
    match s.lastPiped g.source, s.slotOf g.source with
    | some b, some i => s.proveBlock r i b
    | _, _ => s

/-- CAL_PROVE_FIRE (R264, R269): the next entry is written, and the injection starts. -/
def calProveEff (s : State) (n idx : Nat) : State :=
  match s.calDue n idx .prove with
  | none => s
  | some e =>
    let s := s.calTake n idx e
    let r := bits e.operand 3 0
    if ¬ (s.proving r).on ∨ s.vig.outOfService then s
    else
      let s := if (s.calOf (s.proving r).axis).any (fun x => decide (x.kind = .prove) && decide (x.tag = proveTag r)) then s
        else s.proveNext r e.pos
      s.inject r e

/-- An injection whose distance has passed unproved has missed (R270). -/
def missAll (s : State) (r : Nat) : List ProveRun → State
  | [] => s
  | u :: rest =>
    missAll (if u.proved then s else (s.bump 0x280024 1).raise 0x2C02#16 0x07 (0x20 + r) 1 (leBytes 6 u.block)) r rest

/-- PROVE_DEADLINE (R270). -/
def proveDeadlineEff (s : State) (r : Nat) : State :=
  let g := s.proving r
  let past (u : ProveRun) : Bool := beyond g.dir (s.posAt g.axis s.time.t) u.end_
  let left := g.runs.filter (fun u => !past u)
  let t := s.setProving r { g with runs := left, shadow := g.shadow.filter (fun p => left.any (fun u => reaches g u p.1)) }
  t.missAll r (g.runs.filter past)

/-! ## Batches (R253, R254) -/

/-- Whether a line of a context carries FAULT or REFUSED. -/
def badLine (s : State) (k n : Nat) : Bool :=
  match s.blockRec k (n / 16) with
  | none => false
  | some r => match (linesOf r)[n % 16]? with | none => false | some l => l.fault || l.refused

/-- The token rows of a part whose last line block lies in a span, row by row and column by column. -/
def partMembers (s : State) (lo hi : Nat) (p : Part) : List BatchMember :=
  match p.shape with
  | none => []
  | some (b0, th, nc, pfx) =>
    let now := (s.findTrack p.track).map s.track
    let stopped : Bool := match now with | none => true | some t => t.truncated || t.capped || t.broken
    let tokens := match p.tokens, now with | some t, _ => t | none, some t => t.tokens | none, none => 0
    (List.range ((tokens - pfx) / max nc 1)).flatMap (fun r =>
      let last := b0 + th * (r + 1) - 1
      if lo ≤ last ∧ last ≤ hi then
        let bad := (List.range (16 * th)).any (fun i => s.badLine p.lane (16 * (b0 + th * r) + i))
        (List.range nc).map (fun c => { last, ctx := p.lane, slot := p.slot, row := r, col := c, masked := stopped || bad })
      else [])

/-- The order of members: last line block, context, slot, row, column. -/
def memberBefore (a b : BatchMember) : Bool :=
  let l := [a.last, a.ctx, a.slot, a.row, a.col]
  let m := [b.last, b.ctx, b.slot, b.row, b.col]
  match (l.zip m).find? (fun x => x.1 ≠ x.2) with | none => true | some x => decide (x.1 < x.2)

def insertMember (a : BatchMember) : List BatchMember → List BatchMember
  | [] => [a]
  | b :: r => if memberBefore a b then a :: b :: r else b :: insertMember a r

/-- Members in order. -/
def orderMembers (l : List BatchMember) : List BatchMember := l.foldr insertMember []

/-- Members cut into batches, the last padded with masked members. -/
def cutBatches (g : BitVec 18) (b size : Nat) : Nat → List BatchMember → List Batch
  | 0, _ => []
  | _, [] => []
  | n + 1, l =>
    { group := g, block := b, members := (l.take size).map some ++ List.replicate (size - (l.take size).length) none } ::
      cutBatches g b size n (l.drop size)

/-- BATCH_FORM (R253): at a line block index that is a multiple of FILL. -/
def batchFormEff (s : State) (g : BitVec 18) (b : Nat) : State :=
  let shape := Config.batchShape g.toNat
  let size := shape.1 + 1
  let fill := shape.2 % 16 + 1
  if b % fill ≠ 0 ∨ s.vu.batches.any (fun x => decide (x.group = g) && decide (x.block = b)) then s
  else
    let ps := s.parts.filter (fun p => g.getLsbD p.lane && p.proxy.isNone)
    let l := orderMembers (ps.flatMap (s.partMembers (b + 1 - fill) b))
    { s with vu := { s.vu with batches := s.vu.batches ++ cutBatches g b size l.length l } }

end State

/-! ## Meanings -/

def execCalWrite (d : DescHdr) (e : CalWord) (s : State) : Host.Outcome State Fault Refusal :=
  .next (if s.serves then s.calWriteEff d e else s)
def execCalChangeoverFire (n : Fin 4) (idx : Nat) (s : State) : Host.Outcome State Fault Refusal := .next (s.calChangeoverEff n idx)
def execCalProveFire (n : Fin 4) (idx : Nat) (s : State) : Host.Outcome State Fault Refusal := .next (s.calProveEff n idx)
def execProveDeadline (r : Fin 16) (s : State) : Host.Outcome State Fault Refusal := .next (s.proveDeadlineEff r)
def execBatchForm (g : BitVec 18) (b : Nat) (s : State) : Host.Outcome State Fault Refusal := .next (s.batchFormEff g b)

end Sys2Proof.Machine
end

