-- ==== Sys2Proof/Machine/Codec.lean ====
section
/-! DEFINITION. Codec streams and replay sessions (R294, R295, R305 to R316, R347, R348). -/

namespace Sys2Proof.Machine

namespace State

/-- The base of a function's bonded memory and its size (R341, R347). -/
def fnMemory (s : State) (fn : Nat) : Nat × Nat := if fn = 0 then (0, bondedBytes) else ((s.polder (fn - 1)).base, (s.polder (fn - 1)).size)

/-- Bytes written at an offset of a function's bonded memory, as far as they lie within it. -/
def fnWrite (s : State) (fn off : Nat) (bs : List Byte) : State :=
  let m := s.fnMemory fn
  { s with bonded := writeBytes s.bonded (m.1 + off) (bs.take (m.2 - off)) }

/-- A descriptor complete with a detail (R351). -/
def descDetail (s : State) (d : DescHdr) (status : Half) (result : Nat) (detail : List Byte) : State :=
  { s with log := s.log.complete s.stamp d.fn d.ring d.tag d.irq { status, result := BitVec.ofNat 64 result, detail } }

/-! ## Streams (R294, R295) -/

def stream (s : State) (n : Nat) : Option Stream := tget none s.codec.streams n
def setStream (s : State) (n : Nat) (x : Option Stream) : State := { s with codec := { s.codec with streams := tset none s.codec.streams n x } }
/-- The open streams, as numbers and what they hold. -/
def streams (s : State) : List (Nat × Stream) := s.codec.streams.filterMap (fun (p : Nat × Option Stream) => p.2.map (fun x => (p.1, x)))

/-- Samples of a picture, by its chroma format. -/
def pictureSamples (chroma w h : Nat) : Nat := match chroma with | 0 => w * h | 1 => w * h + 2 * (((w + 1) / 2) * ((h + 1) / 2)) | _ => 3 * (w * h)

/-- The table of R294: format, chroma format and picture size. -/
def formatOk (encode : Bool) (b : StreamBlock) : Bool :=
  let chroma : Bool := match b.format with
    | 1 | 2 => decide (b.chroma = 1)
    | 3 => decide (b.chroma = 0) || decide (b.chroma = 1) || decide (b.chroma = 3)
    | 4 => encode && (decide (b.chroma = 0) || decide (b.chroma = 1) || decide (b.chroma = 3))
    | _ => false
  let size : Bool :=
    if encode then decide (b.width % 64 = 0) && decide (16 ≤ b.height) && decide (b.height ≤ 1024) && decide (b.height % 16 = 0)
    else decide (1 ≤ b.height) && decide (b.width * b.height ≤ 35651584)
  chroma && size && decide (64 ≤ b.width) && decide (b.width ≤ 16384)

/-- The declared rates of the open streams of a unit in Mpx/s: the decoder; HEVC encoding, the archive among it; JPEG. -/
def ratesOf (s : State) (encode jpeg : Bool) : Nat :=
  ((s.streams.filter (fun x => decide (x.2.encode = encode) && decide ((x.2.format = 4) = jpeg))).map (fun x => x.2.rate)).sum +
  (if encode && !jpeg && s.flag 0x2A0100 31 then (s.reg 0x2A0110).toNat else 0)

/-- The encode streams open, the archive counting as one. -/
def encodeOpen (s : State) : Nat := (s.streams.filter (fun x => x.2.encode)).length + (if s.flag 0x2A0100 31 then 1 else 0)
def decodeOpen (s : State) : Nat := (s.streams.filter (fun x => !x.2.encode)).length

/-- Counts and rates of R294 and R295 with one more stream. -/
def streamFits (s : State) (encode : Bool) (b : StreamBlock) : Bool :=
  if encode then decide (s.encodeOpen < 16) &&
    (if b.format = 4 then decide (s.ratesOf true true + b.rate ≤ 1000) else decide (s.ratesOf true false + b.rate ≤ 2000))
  else decide (s.decodeOpen < 64) && decide (s.ratesOf false false + b.rate ≤ 4000)

/-- The lowest free number of a stream. -/
def freeStream (s : State) (encode : Bool) : Nat :=
  let base := if encode then 0x40 else 0
  ((List.range 64).find? (fun i => (s.stream (base + i)).isNone)).getD 0 + base

/-- A value with its default for 0, clamped to its range (R309). -/
def clampField (dflt lo hi v : Nat) : Nat := if v = 0 then dflt else max lo (min hi v)

/-- A work ring that a command may bind: enabled and not bound (R347). -/
def mayBind (s : State) (fn w : Nat) : Bool :=
  decide (1 ≤ w) && decide (w ≤ 16) && (s.log.ring fn (2 * w)).en && decide ((s.log.ring fn (2 * w)).bound = 0)

def bindRing (s : State) (fn i k : Nat) : State := { s with log := s.log.setRing fn i { s.log.ring fn i with bound := k } }

/-- STREAM_OPEN (R294, R295, R309, R347). -/
def streamOpenEff (s : State) (d : DescHdr) (w : Nat) (encode : Bool) (b : StreamBlock) : State :=
  let fn : Nat := d.fn
  if ¬ s.mayBind fn w then s.descDone d 0x1031#16
  else if ¬ formatOk encode b then (s.last 0x1E02#16 0x09 0xFF).descDone d 0x1E02#16
  else if ¬ s.streamFits encode b then (s.raise 0x3E01#16 0x09 0xFF).descDone d 0x3E01#16
  else
    let n := s.freeStream encode
    let q := clampField 8 1 64 b.qdepth
    let l := clampField 100 10 10000 b.lagMs
    let qp := min 51 b.qp
    let x : Stream := { fn, ring := 2 * w, encode, format := b.format, chroma := b.chroma, width := b.width, height := b.height
                        rate := b.rate, qdepth := q, qp, lagMs := l, base := b.base, budget := b.rate * 800 }
    let off : Bool := (decide (b.qdepth ≠ 0) && decide (q ≠ b.qdepth)) || (decide (b.lagMs ≠ 0) && decide (l ≠ b.lagMs)) || decide (qp ≠ b.qp)
    let s := if off then (s.reportSubject 0x1E01#16 1 n fn).last 0x1E01#16 0x09 n else s
    ((s.setStream n (some x)).bindRing fn (2 * w) 2).descDone d 0 n

/-- The descriptor of a picture. -/
def pictureHdr (x : Stream) (p : Picture) : DescHdr := { fn := if h : x.fn < 7 then ⟨x.fn, h⟩ else 0, ring := x.ring, tag := p.tag, irq := p.irq }

/-- Waiting pictures completed with a code and no output. -/
def dropPictures (s : State) (x : Stream) (code : Half) : List Picture → State
  | [] => s
  | p :: r => dropPictures (s.descDone (pictureHdr x p) code) x code r

/-- A stream of a function. -/
def ownStream (s : State) (fn n : Nat) : Option Stream := (s.stream n).bind (fun x => if x.fn = fn then some x else none)

/-- A stream gone: its ring unbound, its number free. -/
def dropStream (s : State) (n : Nat) (x : Stream) : State := (s.bindRing x.fn x.ring 0).setStream n none

/-- STREAM_CLOSE (R347). -/
def streamCloseEff (s : State) (d : DescHdr) (n : Nat) : State :=
  match s.ownStream d.fn n with
  | none => s.descDone d 0x1031#16
  | some x => ((s.dropPictures x 0x1031#16 x.waiting).dropStream n x).descDone d 0

/-- STREAM_RESUME (R311): the next access unit must be IRAP. -/
def streamResumeEff (s : State) (d : DescHdr) (n : Nat) : State :=
  match s.ownStream d.fn n with
  | none => s.descDone d 0x1031#16
  | some x =>
    if x.encode then s.descDone d 0x1031#16
    else if x.suspended then
      (s.setStream n (some { x with suspended := false, needIrap := some 0x1031#16, lagFrom := none, pixels := 0 })).descDone d 0
    else s.descDone d 0

/-! ## Pictures (R309 to R313) -/

/-- The stream that a work ring is bound to. -/
def ringStream (s : State) (fn ring : Nat) : Option (Nat × Stream) := s.streams.find? (fun x => decide (x.2.fn = fn) && decide (x.2.ring = ring))

/-- A stream's oldest waiting picture starts where deferrable work is admitted (R389). -/
def startHead (s : State) (n : Nat) : State :=
  match s.stream n with
  | none => s
  | some x =>
    match x.waiting with
    | [] => s
    | p :: rest => if s.deferAdmits then s.setStream n (some { x with waiting := { p with started := true } :: rest }) else s

def startHeads (s : State) : List Nat → State
  | [] => s
  | n :: r => startHeads (s.startHead n) r

/-- A picture taken behind those that wait. -/
def takePicture (s : State) (n : Nat) (x : Stream) (p : Picture) : State :=
  (s.setStream n (some { x with needIrap := none, waiting := x.waiting ++ [p], lagFrom := some (x.lagFrom.getD s.now) })).startHead n

/-- AU (R309, R311, R315): held while the stream is suspended or QDEPTH pictures wait. -/
def auEff (s : State) (d : DescHdr) (irap : Bool) (addr len : Nat) : State :=
  match s.ringStream d.fn d.ring with
  | none => s.descDone d 0x1031#16
  | some (n, x) =>
    if x.encode then s.descDone d 0x1031#16
    else if x.suspended ∨ x.qdepth ≤ x.waiting.length then s
    else
      match x.needIrap with
      | some code => if irap then s.takePicture n x { tag := d.tag, irq := d.irq, irap, addr, len } else s.descDone d code
      | none => s.takePicture n x { tag := d.tag, irq := d.irq, irap, addr, len }

/-- PICTURE (R348). -/
def pictureEff (s : State) (d : DescHdr) (off : Nat) : State :=
  match s.ringStream d.fn d.ring with
  | none => s.descDone d 0x1031#16
  | some (n, x) =>
    if ¬ x.encode then s.descDone d 0x1031#16
    else if x.qdepth ≤ x.waiting.length then s
    else s.takePicture n x { tag := d.tag, irq := d.irq, addr := off }

/-- Bytes of a decoded frame (R309), which are its pixels as R6 counts them: a sample of Main 10 is two. -/
def frameBytes (x : Stream) : Nat := pictureSamples x.chroma x.width x.height * (if x.format = 2 then 2 else 1)

def concealedCtu (errs : List SliceError) (c : Nat) : Bool := errs.any (fun e => decide (e.firstCtu ≤ c) && decide (c ≤ e.lastCtu))

/-- A decoded frame with its concealed CTUs copied from the previous output picture, or 0 (R313). -/
def conceal (x : Stream) (units frame : List Byte) (errs : List SliceError) : List Byte :=
  frame.zipIdx.map (fun (b : Byte × Nat) =>
    if concealedCtu errs (Config.frameCtu units x.width x.height b.2) then x.lastPicture.getD b.2 0 else b.1)

/-- A bit map, least significant bit first. -/
def bitMap (n : Nat) (f : Nat → Bool) : List Byte :=
  (List.range ((n + 7) / 8)).map (fun i => BitVec.ofNat 8 (((List.range 8).map (fun b => if decide (8 * i + b < n) && f (8 * i + b) then 2 ^ b else 0)).sum))

/-- The detail of a decode error: picture order count, slice segment, first concealed CTU. -/
def errorDetail (e : SliceError) : List Byte := leBytes 4 e.poc ++ leBytes 4 e.segment ++ leBytes 4 e.firstCtu

/-- A decoded picture written, its errors counted and its record posted (R309, R313). -/
def decodeDone (s : State) (n : Nat) (x : Stream) (p : Picture) (rest : List Picture) (errs : List SliceError) : State :=
  let au := readBytes s.log.host p.addr p.len
  let units := if p.irap then au else x.units ++ au
  let frame := conceal x units (padTo (frameBytes x) (Config.decodePicture x.format units)) errs
  let ctus := Config.frameCtus units x.width x.height
  let place := Config.framePlace x.index frame.length
  let bad := ((List.range ctus).filter (concealedCtu errs)).map (fun c => Config.ctuArea units x.width x.height c)
  let s := (s.fnWrite x.fn (x.base + place.1) frame).fnWrite x.fn (x.base + place.2) (bitMap ctus (concealedCtu errs))
  let s := s.setStream n (some { x with
    waiting := rest, index := x.index + 1, pixels := x.pixels + frameBytes x, units, lastPicture := frame
    bad := x.bad ++ bad.map (fun a => (x.index * x.height + a.1, [(a.2.1, a.2.2.1, a.2.2.2)])) })
  match errs with
  | [] => s.descDone (pictureHdr x p) 0 x.index
  | e :: _ =>
    let concealed := (errs.map (fun e => e.lastCtu + 1 - e.firstCtu)).sum
    (((s.bump 0x2A020C errs.length).bump 0x2A0210 concealed).raise 0x2E01#16 0x09 n errs.length (leBytes 4 x.index ++ errorDetail e)).descDetail
      (pictureHdr x p) 0x2E01#16 x.index (errorDetail e)

/-- An encoded picture's bitstream written and its record posted. -/
def encodeDone (s : State) (n : Nat) (x : Stream) (p : Picture) (rest : List Picture) : State :=
  let m := s.fnMemory x.fn
  let bits := Config.encodeStream x.format x.chroma x.qp x.width x.height (readBytes s.bonded (m.1 + p.addr) (frameBytes x))
  let s := s.fnWrite x.fn (x.base + (Config.framePlace x.index bits.length).2) bits
  (s.setStream n (some { x with waiting := rest, index := x.index + 1 })).descDone (pictureHdr x p) 0

/-- PICTURE_DONE (R309, R313): the oldest waiting picture of a stream. -/
def pictureDoneEff (s : State) (encode : Bool) (i : Nat) (errs : List SliceError) : State :=
  let n := if encode then 0x40 + i else i
  match s.stream n with
  | none => s
  | some x =>
    match x.waiting with
    | [] => s
    | p :: rest =>
      if encode ≠ x.encode ∨ ¬ p.started then s
      else (if encode then s.encodeDone n x p rest else s.decodeDone n x p rest errs).startHead n

/-- DECODER_BUDGET_WINDOW (R310): a window of 1 ms, and (declared rate × 0.8) cycles for each decode stream. -/
def decoderBudgetWindowEff (s : State) : State :=
  if s.now - s.codec.windowAt < 1000000 then s
  else { s with codec := { s.codec with
      windowAt := s.now
      streams := s.codec.streams.map (fun (p : Nat × Option Stream) => (p.1, p.2.map (fun x => if x.encode then x else { x with budget := x.rate * 800 }))) } }

/-- A stream's lag exceeds LAG_MS (R311): the time since its first picture, less the time its declared rate gives the
pixels decoded. -/
def lagging (s : State) (x : Stream) : Bool :=
  match x.lagFrom with
  | none => false
  | some t => decide (x.pixels * 1000 / max 1 x.rate + x.lagMs * 1000000 < s.now - t)

/-- STREAM_LAG_SUSPEND (R311). -/
def streamLagSuspendEff (s : State) (n : Nat) : State :=
  match s.stream n with
  | none => s
  | some x =>
    if x.encode ∨ x.suspended ∨ ¬ s.lagging x then s
    else
      let s := s.dropPictures x 0x4E03#16 x.waiting
      (s.setStream n (some { x with suspended := true, waiting := [], lagFrom := none, pixels := 0 })).raise 0x4E03#16 0x09 n

/-- DECODER_LOAD_HIGH (R312): once per onset. -/
def decoderLoadHighEff (s : State) (permille : Nat) : State :=
  let k := windowKey 0x4E02#16 0x09 0xFF
  let on := s.log.onsets.contains k
  let high := decide (900 < permille)
  let s := { s with codec := { s.codec with load := min 1000 permille } }
  let s := { s with log := { s.log with onsets := if high then including s.log.onsets k else s.log.onsets.filter (· ≠ k) } }
  if high ∧ ¬ on then s.raiseNow 0x4E02#16 0x09 0xFF else s

/-- The codec's reset with the compute domain (R315): the picture in progress of every stream completes with 0x5E01, and so
do a decode stream's pictures before its next IRAP; a started archive job restarts. -/
def resetStream (s : State) (n : Nat) : State :=
  match s.stream n with
  | none => s
  | some x =>
    let live := x.waiting.dropWhile (·.started)
    let keep := if x.encode then live else live.dropWhile (fun p => !p.irap)
    let gone := x.waiting.take (x.waiting.length - keep.length)
    let s := s.dropPictures x 0x5E01#16 gone
    let s := s.setStream n (some { x with
      waiting := keep, needIrap := if x.encode then none else if keep.isEmpty then some 0x5E01#16 else none, units := [] })
    (if gone.isEmpty then s else s.raise 0x5E01#16 0x09 n gone.length).startHead n

def resetStreams (s : State) : List Nat → State
  | [] => s
  | n :: r => resetStreams (s.resetStream n) r

def codecReset (s : State) : State :=
  let s := s.resetStreams (s.streams.map (·.1))
  { s with archive := { s.archive with jobs := s.archive.jobs.map (fun j => { j with started := false, partial_ := false, entries := [], bits := [] }) } }

/-! ## Opening a replay session (R305) -/

def session (s : State) (i : Nat) : Option Session := tget none s.codec.sessions i
def setSession (s : State) (i : Nat) (x : Option Session) : State := { s with codec := { s.codec with sessions := tset none s.codec.sessions i x } }

/-- The contexts of a mask. -/
def maskCtxs (m : BitVec 18) : List Nat := (List.range 18).filter (fun k => m.getLsbD k)

/-- A context of a polder that a work ring is bound to. -/
def ringCtx (s : State) (fn ring : Nat) : Option Nat := (s.allCtxs.find? (fun x => decide (x.2.polder + 1 = fn) && decide (x.2.ring = ring))).map (·.1)

/-- What a session's parameters break, by the row of R305's table; none where they keep every rule. -/
def replayFault (s : State) (fn : Nat) (r : ReplayParams) : Option Nat :=
  let key := fn * 65536 + r.recipe
  let group := Config.deepGroup key
  let imgOk (a : Nat) : Bool :=
    let m := subMem s.bonded ((s.fnMemory fn).1 + a) imageBytes
    decide (a + imageBytes ≤ (s.fnMemory fn).2) && (maskCtxs r.contexts).any (fun k => (psFault m (s.shape k).chan (s.shape k).cols).isNone)
  if 2 < r.source ∨ (r.source = 2 ∧ ((s.ownStream fn r.stream).map (·.encode)) ≠ some false) then some 0
  else if r.contexts = 0 ∨ (r.contexts &&& group) ≠ group then some 1
  else if r.b2 < r.b1 ∨ 2 ^ 48 ≤ r.b2 then some 2
  else if ((s.recipe key).map (·.residentAt)) ≠ some true then some 3
  else if 8 < r.images.length ∨ ¬ r.images.all imgOk then some 4
  else if 64 < r.warm then some 5
  else if (s.freeSlotOf r.pipe).isNone then some 6
  else if r.resultLen % 256 ≠ 0 then some 7
  else none

/-- REPLAY (R305): the session opened, or refused with 0x1E03, which names the parameter. -/
def replayEff (s : State) (d : DescHdr) (r : ReplayParams) : State :=
  let fn : Nat := d.fn
  match s.ringCtx fn d.ring with
  | none => s.descDone d 0x1031#16
  | some c =>
    match (List.range 4).find? (fun i => (s.session i).isNone), s.replayFault fn r with
    | some i, none =>
      let sets := r.images.map (fun a => let m := subMem s.bonded ((s.fnMemory fn).1 + a) imageBytes; (setDigest m, m))
      s.setSession i (some { hdr := d, ctx := c, params := r, recipe := fn * 65536 + r.recipe, slot := (s.freeSlotOf r.pipe).getD 0, sets })
    | none, none => (s.reportSubject 0x1E03#16 2 0xFF fn).descDetail d 0x1E03#16 0 (leBytes 4 0xFF)
    | _, some f => (s.reportSubject 0x1E03#16 2 f fn).descDetail d 0x1E03#16 0 (leBytes 4 f)

/-! ## Blocks of a session (R306, R314) -/

/-- A line block from an entry's record (R76) and its data. -/
def parseLine (r data : List Byte) (lineBytes i : Nat) : LineOut :=
  let e := slice r (0x40 + 64 * i) 64
  let f := fieldAt e 6 2
  let b (n : Nat) : Bool := decide (f / 2 ^ n % 2 = 1)
  { n := fieldAt e 0 6, missing := b 0, concealed := b 1, fault := b 2, interp := b 3, breakBefore := b 4, refused := b 5
    stamp := { t := (fieldAt e 8 6 * 1000000000 + fieldAt e 16 4) * 65536 + fieldAt e 20 2, epoch := 0, suspect := BitVec.ofNat 4 (f / 256)
               pos := (List.range 4).map (fun a => BitVec.ofNat 64 (fieldAt e (24 + 8 * a) 6 * 65536 + fieldAt e (30 + 8 * a) 2)) }
    firstCol := fieldAt e 56 2, lastCol := fieldAt e 58 2, status := BitVec.ofNat 16 (fieldAt e 60 2)
    data := writeBytes [] 0 (slice data (lineBytes * i) lineBytes) }

def parseBlock (r data : List Byte) (lineBytes : Nat) : LineBlock :=
  let f := fieldAt r 2 2
  let b (n : Nat) : Bool := decide (f / 2 ^ n % 2 = 1)
  { ctx := fieldAt r 0 2, b := fieldAt r 4 6, refused := b 2, brk := b 3, track := b 4, width := fieldAt r 10 2
    status := BitVec.ofNat 16 (fieldAt r 12 2), mask := BitVec.ofNat 256 (leNat (slice r 16 32)), lines := (List.range 16).map (parseLine r data lineBytes) }

/-- A block of a session: its block, shape, the digest of its set and of its recipe. -/
structure Fed where
  block : LineBlock
  shape : Shape
  set : List Byte
  recipe : List Byte
  deriving DecidableEq, Repr

def entryShape (ent : List Byte) : Shape :=
  { cols := fieldAt ent 0x8A 2 * 64, chan := fieldAt ent 0x17 1 / 4 % 4, sample := fieldAt ent 0x17 1 % 4 }

def fedOf (ent data : List Byte) : Fed :=
  let h := entryShape ent
  { block := parseBlock (ent.drop 0x80) data h.lineBytes, shape := h, set := slice ent 0x20 32, recipe := slice ent 0x40 32 }

/-- The entry of a block in a staging buffer, each entry followed by its data padded as R296 pads it; `fuel` bounds the
entries passed. -/
def stageBlock (s : State) (k b : Nat) : Nat → Nat → Option (List Byte × List Byte)
  | 0, _ => none
  | f + 1, a =>
    let ent := readBytes s.bonded a 1216
    let n := fieldAt ent 0x10 4
    if fieldAt ent 0x80 2 = k ∧ fieldAt ent 0x84 6 = b then some (ent, readBytes s.bonded (a + 1216) n)
    else if allZero ent then none
    else stageBlock s k b f (a + 1216 + (n + 4095) / 4096 * 4096)

/-- A line over a concealed CTU carries FAULT, with the CTU's columns as its missing range (R314). -/
def faultLine (x : Stream) (row : Nat) (l : LineOut) : LineOut :=
  match x.bad.find? (fun b => b.2.any (fun a => decide (b.1 ≤ row) && decide (row < b.1 + a.1))) with
  | some (_, a :: _) => { l with fault := true, firstCol := a.2.1, lastCol := a.2.2 }
  | _ => l

/-- A block as a decode stream gives it (R309, R314): its lines are the rows of the stream's pictures in order from block
b1; the record that goes with them the spec does not say. -/
def streamBlock (s : State) (q : Session) (k b : Nat) : Option Fed :=
  match s.stream q.params.stream with
  | none => none
  | some x =>
    let row := 16 * (b - q.params.b1)
    if x.index * x.height < row + 16 then none
    else
      let h := s.shape k
      let line (i : Nat) : List Byte :=
        let idx := (row + i) / max 1 x.height
        readBytes s.bonded ((s.fnMemory x.fn).1 + x.base + (Config.framePlace idx (frameBytes x)).1 + (row + i) % max 1 x.height * h.lineBytes) h.lineBytes
      let r := padTo 1088 (Config.streamRecord k b q.slot)
      let blk := parseBlock r ((List.range 16).flatMap line) h.lineBytes
      some { block := { blk with ctx := k, b, lines := blk.lines.zipIdx.map (fun (l : LineOut × Nat) => faultLine x (row + l.2) l.1) }
             shape := h, set := (q.sets.headD ([], [])).1, recipe := ((s.recipe q.recipe).map (·.digest)).getD [] }

/-- A block of a session's source. -/
def fedBlock (s : State) (q : Session) (k b : Nat) : Option Fed :=
  match q.params.source with
  | 0 => (s.readBlock k b).map (fun x => fedOf x.1 x.2)
  | 1 => (s.stageBlock k b 65536 ((s.fnMemory q.hdr.fn).1 + q.params.stage)).map (fun x => fedOf x.1 x.2)
  | _ => s.streamBlock q k b

/-- The blocks a session feeds: b1 to b2, the contexts of its mask in ascending order for each. -/
def sessionBlock (q : Session) (i : Nat) : Option (Nat × Nat) :=
  let cs := maskCtxs q.params.contexts
  let b := q.params.b1 + i / max 1 cs.length
  if b ≤ q.params.b2 then (cs[i % max 1 cs.length]?).map (fun k => (k, b)) else none

/-- The lines at hand of a session's block: those of the blocks its alignment reaches. -/
def sessionLines (s : State) (q : Session) (k b reach : Nat) (cur : Fed) : Reachable :=
  let n := (reach + 15) / 16
  let lines (i : Nat) : Reachable :=
    if i = b then cur.block.lines.map pipeLine
    else if i < q.params.b1 then []
    else match s.fedBlock q k i with | none => [] | some f => f.block.lines.map pipeLine
  (List.range (2 * n + 1)).flatMap (fun j => if b + j < n then [] else lines (b + j - n))

/-- A session ended with a code and no more records. -/
def endSession (s : State) (i : Nat) (q : Session) (code : Half) (idx : Nat) : State :=
  let s := (s.setSession i none).descDetail q.hdr code 0 (leBytes 8 idx)
  if codeClass code = 1 then s.reportSubject code 2 idx q.hdr.fn else if code = 0 then s else s.raise code 0x09 (0x60 + i) 1 (leBytes 8 idx)

/-- A replay block through stages 2 to 7 (R306): its tensor block in the slot's output ring, and what is kept of it. -/
def feedBlock (s : State) (i : Nat) (q : Session) (f : Fed) (set : Mem) : State :=
  let k := f.block.ctx
  let b := f.block.b
  let cs := maskCtxs q.params.contexts
  let ls := s.sessionLines q k b (max 1 (psReach set)) f
  let top := topLine ls
  let ring := s.outRing q.slot f.block.width
  let bm := blockMax f.block.width
  let blocks := max 1 (ring.2 / bm)
  let n := b * cs.length + (cs.findIdx? (· = k)).getD 0
  let base := ring.1 + n % blocks * bm
  let marks : List (Bool × Bool × Bool) := f.block.lines.map (fun l => let m := lineFlags set ls top l.n; (m.1, m.2, f.block.refused))
  let faultAdded := marks.any (·.2.1) && !f.block.lines.any (·.fault)
  let status : Half := if f.block.status = 0 ∧ faultAdded then 0x2402#16 else f.block.status
  let mem : Mem := if f.block.refused then s.bonded else (tensorData set f.shape true ls (16 * b) f.block.mask s.bonded (base + 64)).1
  let r := s.recipe q.recipe
  let mine := (r.map (·.digest)).getD []
  let here := decide (padTo 32 mine = f.recipe)
  let rec_ : BlockRec := { block := stripBlock f.block, piped := true, digest := f.set, marks, recipe := if here then some q.recipe else none, recipeDigest := mine, policy := if here then r.bind (·.policy) else none }
  let s := { s with bonded := writeBytes mem base (tensorHeader k 0 f.block status marks) }
  s.setSession i (some { q with fed := q.fed + 1, recs := rec_ :: q.recs, out := q.out ++ [b] })

/-! ## Records of a session (R307) -/

/-- A part that a session's programs admitted, with the decision that names it. -/
def sessionParts (q : Session) : List (Nat × SubEntry × Option (SubEntry × Marks)) :=
  q.admits.map (fun a => (a.1, a.2, ((q.lanes.find? (fun l => decide (l.1 = a.1) && decide (l.2.1.firstBlock = a.2.firstBlock) &&
    decide (l.2.1.part = a.2.part))).map (fun l => l.2))))

/-- A part that takes a record: within b1 + WARM to b2, its first block under the session's recipe. -/
def takesRecord (q : Session) (k : Nat) (e : SubEntry) : Bool :=
  decide (q.params.b1 + q.params.warm ≤ e.firstBlock) && decide (e.lastBlock ≤ q.params.b2) &&
  q.recs.any (fun r => decide (r.block.ctx = k) && decide (r.block.b = e.firstBlock) && decide (r.recipe = some q.recipe))

/-- The status of a part that a replayed program never decides: some code of the classes 1 to 7 (R9). -/
def undecidedStatus (n : Nat) : Half := BitVec.ofNat 16 (0x1000 + Config.replayStatus n % 0x7000)

/-- One record of a session, the part's ordinal as its slot sequence number. -/
def sessionRecord (s : State) (q : Session) (n : Nat) (x : Nat × SubEntry × Option (SubEntry × Marks)) : List Byte :=
  let t : State := { s with records := q.recs, active := q.recs.foldl (fun m r => tset none m r.block.ctx (some q.recipe)) [] }
  let a := x.2.1
  let e := match x.2.2 with | some d => d.1 | none => a
  let p : Part := { lane := x.1, slot := n, part := a.part, firstBlock := a.firstBlock, firstOff := a.firstOff, lastBlock := e.lastBlock
                    lastOff := e.lastOff, x0 := e.x0, x1 := e.x1 }
  let (cls, st) := classOf (t.partRefused p) 0 (t.partFault p) (x.2.2.map (fun d => (d.1.cls, d.1.status))) (undecidedStatus (s.free + n))
  let act := policyAction (t.blockPolicy x.1 a.firstBlock).1 cls
  let w : Sealing := match x.2.2 with
    | some d => { cls, status := st, dec := some d.1, marks := d.2 }
    | none => { cls, status := st }
  let body := t.recordBody x.1 p w act false
  let body := body.take 44 ++ List.replicate 44 0 ++ body.drop 88
  leBytes 4 (sealWord 0 body) ++ body

/-- A session's parts in ascending context and part order. -/
def orderedParts (q : Session) : List (Nat × SubEntry × Option (SubEntry × Marks)) :=
  (List.range 18).flatMap (fun k => (sessionParts q).filter (fun x =>
    decide (x.1 = k) && takesRecord q k (match x.2.2 with | some d => { x.2.1 with lastBlock := d.1.lastBlock } | none => x.2.1)))

/-- A session whose blocks are all fed and whose context has no job left: its records, then its completion record (R307). -/
def finishSession (s : State) (i : Nat) (q : Session) : State :=
  let recs := ((orderedParts q).zipIdx.flatMap (fun (x : (Nat × SubEntry × Option (SubEntry × Marks)) × Nat) => s.sessionRecord q x.2 x.1)).take q.params.resultLen
  let s := { s with free := s.free + (orderedParts q).length, log := { s.log with host := writeBytes s.log.host q.params.result recs } }
  (s.setSession i none).descDone q.hdr 0 (orderedParts q).length

/-- Replay work may run now: no live block waits for the pipe, deferrable work is admitted, no context warns (R306, R389). -/
def replayMay (s : State) (q : Session) : Bool :=
  (s.pipe q.params.pipe).busy.isNone && (s.firstServable q.params.pipe).isNone && s.deferAdmits && !(List.range 18).any (fun k => (s.sluice k).warn)

/-- REPLAY_BLOCK_FEED (R306, R307). -/
def replayBlockFeedEff (s : State) (i : Nat) : State :=
  match s.session i with
  | none => s
  | some q =>
    match sessionBlock q q.fed with
    | none => if (match s.ctx q.ctx with | some c => c.jobs.isEmpty | none => true) then s.finishSession i q else s
    | some (k, b) =>
      let full := decide ((s.outRing q.slot (s.fld (sOff k) 8 0)).2 / blockMax (s.fld (sOff k) 8 0) ≤ q.out.length)
      if full ∨ ¬ s.replayMay q then s
      else match s.fedBlock q k b with
        | none => s.endSession i q 0x2E03#16 b
        | some f =>
          match q.sets.find? (fun x => decide (x.1 = f.set)) with
          | none => s.endSession i q 0x1E03#16 b
          | some x => s.feedBlock i q f x.2

/-- The session a context works for. -/
def sessionOf (s : State) (c : Nat) : Option (Nat × Session) :=
  (s.codec.sessions.filterMap (fun (p : Nat × Option Session) => p.2.map (fun q => (p.1, q)))).find? (fun x => decide (x.2.ctx = c))

/-- A submission of a session's context is kept for its records, and reaches no lane (R307). -/
def sessionSubmit (s : State) (i : Nat) (q : Session) (u : Submission) (m : Marks) : State :=
  let m := { m with deep := u.deep, records := namedRecords u }
  s.setSession i (some { q with
    admits := q.admits ++ (u.entries.filter (fun e => decide (e.kind % 2 = 1))).map (fun e => (u.ctx, e))
    lanes := q.lanes ++ (u.entries.filter (fun e => decide (2 ≤ e.kind))).map (fun e => (u.ctx, e, m)) })

end State

/-! ## Meanings -/

def execStreamOpen (d : DescHdr) (w : Nat) (encode : Bool) (b : StreamBlock) (s : State) : Host.Outcome State Fault Refusal :=
  .next (if s.serves then s.streamOpenEff d w encode b else s)
def execStreamClose (d : DescHdr) (n : Nat) (s : State) : Host.Outcome State Fault Refusal :=
  .next (if s.serves then s.streamCloseEff d n else s)
def execStreamResume (d : DescHdr) (n : Nat) (s : State) : Host.Outcome State Fault Refusal :=
  .next (if s.serves then s.streamResumeEff d n else s)
def execAu (d : DescHdr) (irap : Bool) (addr len : Nat) (s : State) : Host.Outcome State Fault Refusal :=
  .next (if s.serves then s.auEff d irap addr len else s)
def execPicture (d : DescHdr) (off : Nat) (s : State) : Host.Outcome State Fault Refusal :=
  .next (if s.serves then s.pictureEff d off else s)
def execPictureDone (encode : Bool) (n : Nat) (errs : List SliceError) (s : State) : Host.Outcome State Fault Refusal :=
  .next (s.pictureDoneEff encode n errs)
def execDecoderBudgetWindow (s : State) : Host.Outcome State Fault Refusal := .next s.decoderBudgetWindowEff
def execStreamLagSuspend (n : Nat) (s : State) : Host.Outcome State Fault Refusal := .next (s.streamLagSuspendEff n)
def execDecoderLoadHigh (p : Nat) (s : State) : Host.Outcome State Fault Refusal := .next (s.decoderLoadHighEff p)
def execReplay (d : DescHdr) (r : ReplayParams) (s : State) : Host.Outcome State Fault Refusal :=
  .next (if s.serves then s.replayEff d r else s)
def execReplayBlockFeed (i : Fin 4) (s : State) : Host.Outcome State Fault Refusal :=
  .next (if s.serves then (s.replayBlockFeedEff i) else s)

end Sys2Proof.Machine
end

