-- ==== Sys2Proof/Machine/Polder.lean ====
section
/-! DEFINITION. Polders, contexts, slices, the spare, and the jobs of work rings (R317 to R336, R347, R348, R210, R416). -/

namespace Sys2Proof.Machine
namespace State

def setPolder (s : State) (p : Nat) (x : Polder) : State := { s with polders := tset {} s.polders p x }

/-- A refusal of a command bit of `POLp_CTL`. -/
def polRefuse (s : State) (p b : Nat) (code : Half) : State := s.refuse code 0x0A p (pOffset p + 0x18) b

/-- The engines of a mask. -/
def maskEngines (m : Nat) : List Nat := (List.range 6).filter (fun e => m / 2 ^ e % 2 = 1)

/-- What a mask of engines breaks for a polder, beside its size: a field's code. -/
def maskFail (s : State) (p : Nat) (es : List Nat) (code : Half) : Option Half :=
  let foreign (e : Nat) : Bool := (match (s.engine e).polder with | none => false | some q => decide (q ≠ p)) || decide (s.spareOf = some e) || (s.engine e).retired
  let mixed : Bool := match es with | [] => false | e :: _ => es.any (fun i => decide (s.fld (eOff i) 4 4 ≠ s.fld (eOff e) 4 4))
  if es.isEmpty ∨ es.any foreign then some code
  else if mixed then some 0x1602#16
  else if 3 ≤ es.length ∧ es.any (fun e => s.flag (eOff e) 8) then some code
  else none

/-! ## POLDER_CREATE (R317 to R319) -/

/-- Pool store units of two polders meet. -/
def unitsMeet (s : State) (p a n : Nat) : Bool :=
  (List.range 6).any (fun q => decide (q ≠ p) && (s.polder q).made && spansMeet a n (s.polder q).ps0 (s.polder q).psn)

/-- What stands against CREATE: the code, and the field as register offset and bits, row by row. -/
def createFails (s : State) (p : Nat) : List (Half × Nat × Nat × Nat) :=
  let o := pOffset p
  let base := s.reg64 (o + 4) / 2 ^ 21 * 2 ^ 21
  let size := s.fld (o + 0x0C) 15 0 * 2 ^ 20
  let ps0 := s.fld (o + 0x10) 21 16
  let psn := s.fld (o + 0x10) 5 0
  let f (b : Bool) (c : Half) (r hi lo : Nat) : List (Half × Nat × Nat × Nat) := if b then [(c, o + r, hi, lo)] else []
  f (s.polder p).made 0x1F01#16 0x18 31 31 ++
  (match s.maskFail p (maskEngines (s.fld o 5 0)) 0x1F01#16 with | none => [] | some c => [(c, o, 5, 0)]) ++
  f (decide (size < 2 ^ 26) || (s.exclusiveMeets (7 + p) base size).isSome) 0x1F01#16 0x0C 15 0 ++
  f (decide (psn = 0) || decide (48 < ps0 + psn) || s.unitsMeet p ps0 psn) 0x1F01#16 0x10 21 0 ++
  f (decide (s.fld (o + 0x14) 19 16 = 0) || decide (4 < s.fld (o + 0x14) 19 16)) 0x1F01#16 0x14 19 16 ++
  f (decide (s.fld (o + 0x14) 12 8 = 0) || decide (16 < s.fld (o + 0x14) 12 8)) 0x1F01#16 0x14 12 8 ++
  f (decide (s.fld (o + 0x14) 7 0 = 0)) 0x1F01#16 0x14 7 0

/-- The failing fields of a commit reported in order. -/
def reportAll (s : State) (kind inst : Nat) : List (Half × Nat × Nat × Nat) → State
  | [] => s
  | (c, off, hi, lo) :: r => reportAll ((s.report c 2 off hi lo (s.fld off hi lo) (s.fld off hi lo)).last c kind inst) kind inst r

/-- Engines given to a polder. -/
def giveEngines (s : State) (p : Nat) : List Nat → State
  | [] => s
  | e :: r => giveEngines (s.setEngine e { s.engine e with polder := some p, leaving := false, resident := [], loading := none }) p r

/-- POLDER_CREATE (R317, R318). -/
def polderCreateEff (s : State) (p : Nat) (v : Word) : State :=
  if ¬ bit v 31 then s
  else if s.freeze then s.polRefuse p 31 0x1F06#16
  else
    let fails := s.createFails p
    if fails.isEmpty then
      let o := pOffset p
      (s.setPolder p
        { made := true, base := s.reg64 (o + 4) / 2 ^ 21 * 2 ^ 21, size := s.fld (o + 0x0C) 15 0 * 2 ^ 20, ps0 := s.fld (o + 0x10) 21 16
          psn := s.fld (o + 0x10) 5 0, resMax := s.fld (o + 0x14) 19 16, ctxMax := s.fld (o + 0x14) 12 8, blockUs := s.fld (o + 0x14) 7 0 }).giveEngines
        p (maskEngines (s.fld o 5 0))
    else
      let s := if fails.any (fun f => decide (f.1 = 0x1602#16)) then s.lastAll 0x1602#16 0x05 (maskEngines (s.fld (pOffset p) 5 0)) else s
      s.reportAll 0x0A p fails

/-! ## RESIZE (R320) -/

/-- What stands against RESIZE. -/
def resizeFail (s : State) (p : Nat) : Option Half :=
  let es := maskEngines (s.fld (pOffset p) 5 0)
  let share := ((s.shareOf p).map (fun n => decide (512 * es.length < n) || decide (es.length < 3))).getD false
  if ¬ (s.polder p).made then some 0x1F02#16
  else match s.maskFail p es 0x1F02#16 with
    | some c => some c
    | none =>
      if share ∨ s.spare.lent = some p ∨ (s.polderEngines p).any (fun e => (s.engine e).leaving) then some 0x1F02#16 else none

def leaveAll (s : State) : List Nat → State
  | [] => s
  | e :: r => leaveAll ((s.setEngine e { s.engine e with leaving := true }).leaveCheck e) r

def joinAll (s : State) (p : Nat) : List Nat → State
  | [] => s
  | e :: r => joinAll (((s.setEngine e { s.engine e with polder := some p, leaving := false, resident := [] }).loadNext e)) p r

/-- RESIZE (R320). -/
def resizeEff (s : State) (p : Nat) (v : Word) : State :=
  if ¬ bit v 30 then s
  else if s.freeze then s.polRefuse p 30 0x1F06#16
  else
    match s.resizeFail p with
    | some c => let s := s.polRefuse p 30 0x1F02#16; if c = 0x1602#16 then (s.reportSubject 0x1602#16 2 p).lastAll 0x1602#16 0x05 (maskEngines (s.fld (pOffset p) 5 0)) else s
    | none =>
      let es := maskEngines (s.fld (pOffset p) 5 0)
      let old := s.polderEngines p
      (s.joinAll p (es.filter (fun e => !old.contains e))).leaveAll (old.filter (fun e => !es.contains e))

/-! ## DESTROY (R321) -/

def dropRecipes (s : State) : List Nat → State
  | [] => s
  | k :: r => dropRecipes (match s.recipe k with | none => s | some x => (s.putRecipe k { x with draining := true }).drainRecipe k) r

/-- The recipes of a function that are active on no Sluice context. -/
def idleRecipes (s : State) (fn : Nat) : List Nat :=
  (s.recipes.filter (fun (p : Nat × Option Recipe) => match p.2 with
    | none => false
    | some x => decide (x.fn = fn) && !s.active.any (fun (q : Nat × Option Nat) => decide (q.2 = some p.1)))).map (·.1)

/-- DESTROY (R321). -/
def destroyEff (s : State) (p : Nat) (v : Word) : State :=
  if ¬ bit v 29 then s
  else if s.freeze then s.polRefuse p 29 0x1F06#16
  else if ¬ (s.polder p).made then s.polRefuse p 29 0x1F01#16
  else if s.allCtxs.any (fun x => x.2.polder = p) then s.polRefuse p 29 0x1F05#16
  else
    let s := { s with engines := s.engines.map (fun (q : Nat × Engine) =>
      (q.1, if q.2.polder = some p then { q.2 with polder := none, leaving := false, resident := [], loading := none } else q.2)) }
    let s := match [0x268000, 0x268004].find? (fun o => s.flag o 31 && decide (s.fld o 18 16 = p)) with | none => s | some o => s.setFld o 31 31 0
    let s := if s.spare.lent = some p then { s with spare := { s.spare with lent := none, reclaiming := false } }.setFld 0x2B0800 23 23 0 else s
    (((s.dropRecipes (s.idleRecipes (p + 1))).setPolder p {}).setReg (0x270040 + 4 * p) 0)

/-! ## Contexts (R322, R323, R347) -/

def freeCtx (s : State) : Option Nat := (List.range 64).find? (fun c => (s.ctx c).isNone)

/-- CTX_CREATE (R322, R323, R347). -/
def ctxCreateEff (s : State) (d : DescHdr) (w : Nat) (b : SchedBlock) : State :=
  let fn : Nat := d.fn
  let p := fn - 1
  let x := s.polder p
  let desc := s.switchDesc p
  if fn = 0 ∨ ¬ x.made ∨ ¬ s.mayBind fn w then s.descDone d 0x1031#16
  else if 3 < b.prio ∨ 1 < b.cls ∨ b.sliceUs < 50 ∨ 10000 < b.sliceUs ∨ 2097152 / x.resMax < desc.1 ∨ 2048 < desc.2 then
    ((s.reportSubject 0x1F03#16 2 p fn).last 0x1F03#16 0x0A p).descDone d 0x1F03#16
  else if x.ctxMax ≤ (s.allCtxs.filter (fun y => y.2.polder = p)).length then (s.raise 0x3F01#16 0x0A p).descDone d 0x3F01#16
  else match s.freeCtx with
    | none => (s.raise 0x3F01#16 0x0A p).descDone d 0x3F01#16
    | some c =>
      let y : Ctx := { polder := p, ring := 2 * w, prio := b.prio, deferrable := decide (b.cls = 1), sliceUs := b.sliceUs, bLive := desc.1
                       nInflight := desc.2, outSince := s.now, readySince := s.now, blockedSince := some s.now
                       deferred := decide (b.cls = 1) && !s.deferAdmits }
      (((s.setCtx c y).bindRing fn (2 * w) 1).fillResidency p).descDone d 0 c

/-- Queued work of a context given up: unstarted tasks leave their engines, and every job fails with a code. -/
def failJobs (s : State) (c : Nat) (code : Half) : List Nat → State
  | [] => s
  | j :: r => failJobs ((s.modJob c j (fun x => { x with fail := if x.fail = 0 then code else x.fail, again := [] })).jobCheck c j) c code r

def displaceOf (s : State) (c : Nat) : List Nat → State
  | [] => s
  | e :: r => displaceOf (match (s.engine e).task with
      | some t => if t.ctx = c ∧ t.startAt.isNone then s.displace e else s
      | none => s) c r

/-- A context to be destroyed: it takes no more tasks and goes once its started tasks have retired (R332, R347, R358). -/
def doom (s : State) (c : Nat) (d : Option DescHdr) : State :=
  let s := (s.modCtx c (fun x => { x with doomed := some d })).displaceOf c (List.range 6)
  let s : State := match s.ctx c with
    | none => s
    | some x =>
      if d.isSome then s.failJobs c 0x1031#16 (x.jobs.map (fun (j : Job) => j.id))
      else s.setCtx c { x with jobs := (x.jobs.filter (fun (j : Job) => s.jobRunning c j.id)).map (fun (j : Job) => { j with fail := 0x1031#16, again := [], silent := true }) }
  s.doomCheck c

/-- CTX_DESTROY (R347). -/
def ctxDestroyEff (s : State) (d : DescHdr) (c : Nat) : State :=
  match s.ctx c with
  | none => s.descDone d 0x1031#16
  | some x => if (d.fn : Nat) ≠ x.polder + 1 ∨ x.doomed.isSome then s.descDone d 0x1031#16 else s.doom c (some d)

/-! ## SCHEDULE_POLL, SWITCH_IN, SLICE_END, BLOCK_SWAP (R324, R327 to R330) -/

/-- The leading WAIT of a context's next task, read again. -/
def pollCtx (s : State) (c : Nat) : State :=
  match s.ctx c with
  | none => s
  | some x =>
    if x.waitMet then s.syncCtx c
    else
      let met : Bool := match x.waitOn with
        | none => true
        | some (r, t) => match s.localAt x.polder { r with len := 8 } with
          | none => true
          | some (ps, a) => decide (t.toNat ≤ leNat (readBytes (if ps then s.pool else s.bonded) a 8))
      if met then (s.setCtx c { x with waitMet := true, waitOn := none, readySince := s.now }).syncCtx c else s.syncCtx c

def pollAll (s : State) : List Nat → State
  | [] => s
  | c :: r => pollAll (s.pollCtx c) r

/-- SCHEDULE_POLL (R324). -/
def schedulePollEff (s : State) (c : Nat) : State :=
  match s.ctx c with
  | none => s
  | some x => (s.pollCtx c).fillResidency x.polder

/-- A residency of a context begins: its debt shortens its slice (R328, R330). -/
def beginResidency (s : State) (c : Nat) : State :=
  s.modCtx c (fun x =>
    let a := min x.debt (x.sliceUs * 1000 / 2)
    { x with resident := true, ran := a, runFrom := none, debt := x.debt - a, debtPosted := decide (x.sliceUs * 1000 < x.debt - a) })

/-- SWITCH_IN (R327, R328). -/
def switchInEff (s : State) (e c : Nat) : State :=
  let x := s.engine e
  match x.loading with
  | none => s
  | some (k, t) =>
    if k ≠ c ∨ s.now < t then s
    else
      let p := x.polder.getD 0
      let s := s.setEngine e { x with loading := none }
      let s := match s.ctx c with
        | none => s
        | some y =>
          let n := tSwitch (y.bLive, y.nInflight)
          let s := ((s.bump (pOffset p + 0x20) 1).bump (pOffset p + 0x24) n)
          if y.doomed.isSome then s
          else
            let first := (s.loadedOn c).isEmpty
            let s := s.setEngine e { s.engine e with resident := (s.engine e).resident ++ [c] }
            (if first then s.beginResidency c else s).syncCtx c
      let s := s.endLeavers (s.allCtxs.map (·.1))
      (s.leaveCheck e).loadNext e

/-- How long a context's slice has run. -/
def sliceRun (s : State) (x : Ctx) : Nat := x.ran + (match x.runFrom with | none => 0 | some t => s.now - t)

/-- SLICE_END (R328, R332). -/
def sliceEndEff (s : State) (c : Nat) : State :=
  match s.ctx c with
  | none => s
  | some x =>
    if ¬ x.resident ∨ x.ending.isSome ∨ s.sliceRun x < x.sliceUs * 1000 then s
    else
      let cand := (s.outside x.polder).filter (fun y => decide (x.prio ≤ y.2.prio) && !y.2.deferred && s.ready y.1 y.2)
      match firstIncoming cand with
      | none => (s.setCtx c { x with ran := 0, runFrom := if x.runFrom.isSome then some s.now else none, debt := 0, debtPosted := false })
      | some (i, _) =>
        let s := s.setCtx c { x with ran := 0, runFrom := none, ending := some (s.now, i) }
        ((s.bump (pOffset x.polder + 0x34) 1).loadAll (s.polderEngines x.polder)).endLeavers [c]

/-- BLOCK_SWAP (R329). -/
def blockSwapEff (s : State) (p : Nat) : State :=
  let us := (s.polder p).blockUs * 1000
  let res := s.allCtxs.filter (fun x => decide (x.2.polder = p) && x.2.resident)
  let still (x : Nat × Ctx) : Bool := x.2.ending.isNone && (match x.2.blockedSince with | none => false | some t => decide (t + us ≤ s.now))
  let cand := (s.outside p).filter (fun y => !y.2.deferred && s.ready y.1 y.2)
  if res.isEmpty ∨ ¬ res.all still then s
  else
    let idle := res.filter (fun x => x.2.jobs.isEmpty)
    let oldest (l : List (Nat × Ctx)) : Option (Nat × Ctx) :=
      firstCtx (l.map (fun x => (x.1, { x.2 with prio := 0, readySince := x.2.blockedSince.getD s.now })))
    match firstIncoming cand, (oldest idle).or (oldest res) with
    | some (i, _), some (l, _) =>
      let s := s.displaceOf l (List.range 6)
      let s := s.modCtx l (fun x => { x with resident := false, outSince := s.now, ran := 0, runFrom := none, debt := 0, debtPosted := false })
      let s := { s with engines := s.engines.map (fun (q : Nat × Engine) => (q.1, { q.2 with resident := q.2.resident.filter (· ≠ l) })) }
      let s := s.modCtx i (fun x => { x with resident := true })
      (s.bump (pOffset p + 0x30) 1).loadAll (s.polderEngines p)
    | _, _ => s

/-! ## The spare (R333 to R335) -/

/-- What stands against lending the spare to a polder. -/
def lendFail (s : State) (e q : Nat) : Option Half :=
  let es := e :: s.polderEngines q
  if s.freeze then some 0x1F06#16
  else if 6 ≤ q ∨ ¬ (s.polder q).made ∨ s.spare.lent.isSome ∨ s.spare.reclaiming ∨ s.spare.takeover.isSome then some 0x1F04#16
  else if 3 ≤ es.length ∧ (s.polderEngines q).any (fun i => s.flag (eOff i) 8) then some 0x1F04#16
  else if ((s.shareOf q).map (fun n => decide (512 * es.length < n))).getD false then some 0x1F04#16
  else none

/-- The spare comes to a polder. -/
def lendTo (s : State) (e q : Nat) : State := ({ s with spare := { s.spare with lent := some q } }).joinPolder e q

/-- The reclaim of the spare begins (R335). -/
def startReclaim (s : State) (takeover : Option Nat) : State :=
  match s.spareOf, s.spare.lent with
  | some e, some _ =>
    let s := { s with spare := { s.spare with reclaiming := true, takeover } }
    (s.setEngine e { s.engine e with leaving := true }).leaveCheck e
  | _, _ => s

/-- The spare that `SPARE_CFG` may name: valid, in no polder, not retired. -/
def spareOk (s : State) (v : Word) : Bool :=
  let e := bits v 2 0
  !bit v 31 || (decide (e < 6) && !(s.engine e).retired &&
    ((s.engine e).polder.isNone || (decide (s.spareOf = some e) && s.spare.lent.isSome)))

/-- A write of `SPARE_CFG` (R333 to R335): ENGINE and VALID, then LEND rising or falling. -/
def spareWrite (s : State) (v : Word) : State :=
  let o := 0x2B0800
  let busy := s.flag o 23 || s.spare.takeover.isSome || s.spare.reclaiming
  let changes := decide (bits v 2 0 ≠ s.fld o 2 0) || decide (bit v 31 ≠ s.flag o 31)
  if busy ∧ changes then s.ignoreWrite 0x1F04#16 0x0A 0x10 o v
  else if ¬ s.spareOk v then s.ignoreWrite 0x1F01#16 0x0A 0x10 o v
  else
    let was := s.flag o 23
    let s := s.writeFields o 0x0A 0x10 (if was ∧ bit v 23 then putBits v 22 20 (s.fld o 22 20) else v)
    if bit v 23 ∧ ¬ was then
      match s.spareOf with
      | none => (s.setFld o 23 23 0).refuse 0x1F04#16 0x0A 0x10 o 23
      | some e => match s.lendFail e (bits v 22 20) with
        | some c => (s.setFld o 23 23 0).refuse c 0x0A 0x10 o 23
        | none => s.lendTo e (bits v 22 20)
    else if was ∧ ¬ bit v 23 then s.startReclaim none
    else s

/-- SPARE_CFG_WRITE (R333): a write that leaves LEND as it is. -/
def spareCfgWriteEff (s : State) (v : Word) : State := if bit v 23 = s.flag 0x2B0800 23 then s.spareWrite v else s
/-- LEND (R334): a write that sets LEND. -/
def lendEff (s : State) (v : Word) : State := if bit v 23 && !s.flag 0x2B0800 23 then s.spareWrite v else s
/-- RECLAIM (R335): a write that clears LEND. -/
def reclaimEff (s : State) (v : Word) : State := if !bit v 23 && s.flag 0x2B0800 23 then s.spareWrite v else s

/-- NO_SPARE_NOTICE (R333): once per hour. -/
def noSpareNoticeEff (s : State) : State :=
  if s.flag 0x2B0800 31 then s
  else match s.spare.postedAt with
    | some t => if s.now - t < 3600000000000 then s else { s with spare := { s.spare with postedAt := some s.now } }.raiseNow 0x3F03#16 0x0A 0x10
    | none => { s with spare := { s.spare with postedAt := some s.now } }.raiseNow 0x3F03#16 0x0A 0x10

/-! ## RUN and BUILD (R210, R348, R416) -/

/-- The program a job names: by its CODE section's ordinal. -/
def jobProg (r : Recipe) (code : Nat) : Option Nat :=
  r.progs.findIdx? (fun g => match r.sections[g.sec]? with | none => false | some x => decide (x.ord = code))

/-- Entries of a bucket (R20, R226). -/
def bucketSize : Nat → Nat
  | 1 => 16 | 2 => 64 | 3 => 256 | _ => 0

/-- Of several compiled buckets, the smallest that holds a set, or else the largest. -/
def smallestBucket (n : Nat) : List (Nat × Nat) → Option (Nat × Nat)
  | [] => none
  | a :: l => match smallestBucket n l with
    | none => some a
    | some b =>
      let better : Bool := if n ≤ a.2 then !(decide (n ≤ b.2) && decide (b.2 < a.2)) else !decide (n ≤ b.2) && decide (b.2 ≤ a.2)
      some (if better then a else b)

/-- The dispatcher (R20, R21): the program of the bucket that a job's candidate set runs in, and how many buckets it fills. A
program without a bucket runs once. Where the set's size stands, and which programs are one program's buckets, is the model's
choice (DESIGN CHOICE, the assumption log, 136). -/
def dispatchBucket (r : Recipe) (i : Nat) (params : List Byte) : Nat × Nat :=
  let g := r.progs.getD i { sec := 0, kind := 0 }
  if g.bucket = 0 then (i, 1)
  else
    let n := min (Config.candidates params) (Config.candidateMax r.digest % 1025)
    let l := (r.progs.zipIdx.filter (fun x => decide (x.1.kind = g.kind) && decide (x.1.bucket ≠ 0))).map (fun x => (x.2, bucketSize x.1.bucket))
    match smallestBucket n l with
    | none => (i, 1)
    | some (k, size) => (k, max 1 ((n + size - 1) / max 1 size))

/-- A job taken from a work ring; a descriptor that breaks R348 completes with 0x1031. -/
def submitJob (s : State) (d : DescHdr) (idx code first count : Nat) (list : Option Nat) (params : List Byte) (build : Bool) : State :=
  let fn : Nat := d.fn
  let key := fn * 65536 + idx
  let bad := ((list.map (fun a => decide (a % 8 ≠ 0))).getD false) || decide (count = 0) || decide (65536 < count) || decide (params.length ≠ 32)
  match s.ringCtx fn d.ring, s.recipe key with
  | some c, some r =>
    match jobProg r code with
    | none => s.descDone d 0x1031#16
    | some named =>
      let (i, passes) := dispatchBucket r named params
      let g := r.progs.getD i { sec := 0, kind := 0 }
      if bad ∨ g.tasks.length < first + count ∨ (build ∧ g.kind ≠ 2) ∨ r.draining then s.descDone d 0x1031#16
      else if s.vig.outOfService then s.descDone d 0x5067#16
      else
        let j : Job := { id := s.nextJob, fn, ring := d.ring, tag := d.tag, irq := d.irq, recipe := key, code := i, first, count, passes, build
                         cycleList := list, params := padTo 32 params }
        let s := if build then s.putRecipe key { r with buildJob := true } else s
        let s := { s with nextJob := s.nextJob + 1 }
        let s := s.modCtx c (fun x => { x with jobs := x.jobs ++ [j], readySince := if x.jobs.isEmpty then s.now else x.readySince })
        let p := s.polderOf c
        let s := (s.syncCtx c).fillResidency p
        if (s.polderEngines p).isEmpty ∧ ¬ (s.polder p).emptyPosted then (s.setPolder p { s.polder p with emptyPosted := true }).raise 0x3F02#16 0x0A p
        else s
  | _, _ => s.descDone d 0x1031#16

end State

/-! ## Meanings -/

def execPolderCreate (p : Fin 6) (v : Word) (s : State) : Host.Outcome State Fault Refusal :=
  .next (s.gate 0 (0x2B0018 + 0x100 * p) v (fun s => s.polderCreateEff p v))
def execResize (p : Fin 6) (v : Word) (s : State) : Host.Outcome State Fault Refusal :=
  .next (s.gate 0 (0x2B0018 + 0x100 * p) v (fun s => s.resizeEff p v))
def execDestroy (p : Fin 6) (v : Word) (s : State) : Host.Outcome State Fault Refusal :=
  .next (s.gate 0 (0x2B0018 + 0x100 * p) v (fun s => s.destroyEff p v))
def execCtxCreate (d : DescHdr) (w : Nat) (b : SchedBlock) (s : State) : Host.Outcome State Fault Refusal :=
  .next (if s.serves then s.ctxCreateEff d w b else s)
def execCtxDestroy (d : DescHdr) (c : Nat) (s : State) : Host.Outcome State Fault Refusal :=
  .next (if s.serves then s.ctxDestroyEff d c else s)
def execSchedulePoll (c : Fin 64) (s : State) : Host.Outcome State Fault Refusal := .next (s.schedulePollEff c)
def execSwitchIn (e : Fin 6) (c : Fin 64) (s : State) : Host.Outcome State Fault Refusal := .next (s.switchInEff e c)
def execSliceEnd (c : Fin 64) (s : State) : Host.Outcome State Fault Refusal := .next (s.sliceEndEff c)
def execBlockSwap (p : Fin 6) (s : State) : Host.Outcome State Fault Refusal := .next (s.blockSwapEff p)
def execSpareCfgWrite (v : Word) (s : State) : Host.Outcome State Fault Refusal :=
  .next (s.gate 0 0x2B0800 v (fun s => s.spareCfgWriteEff v))
def execLend (v : Word) (s : State) : Host.Outcome State Fault Refusal :=
  .next (s.gate 0 0x2B0800 v (fun s => s.lendEff v))
def execReclaim (v : Word) (s : State) : Host.Outcome State Fault Refusal :=
  .next (s.gate 0 0x2B0800 v (fun s => s.reclaimEff v))
def execNoSpareNotice (s : State) : Host.Outcome State Fault Refusal := .next s.noSpareNoticeEff
def execRun (d : DescHdr) (r code first count : Nat) (l : Option Nat) (ps : List Byte) (s : State) : Host.Outcome State Fault Refusal :=
  .next (if s.serves then s.submitJob d r code first count l ps false else s)
def execBuild (d : DescHdr) (r code first count : Nat) (l : Option Nat) (ps : List Byte) (s : State) : Host.Outcome State Fault Refusal :=
  .next (if s.serves then s.submitJob d r code first count l ps true else s)

end Sys2Proof.Machine
end

