-- ==== Sys2Proof/Machine/HostIf.lean ====
section
/-! DEFINITION. The host interface: rings, doorbells, descriptor reads, interrupts, the link, and resets and power states of
functions (R337 to R359). -/

namespace Sys2Proof.Machine

/-- A ring ID that a function has (R343). -/
def hasRing (fn i : Nat) : Bool := decide (i ≤ 34) || (decide (fn = 0) && decide (40 ≤ i) && decide (i ≤ 58))
/-- A ring that the host writes: a submission ring. -/
def hostWritten (i : Nat) : Bool := decide (i ≤ 32) && decide (i % 2 = 0)
/-- The offset of a ring's registers, VFs at 2^26 times their number. -/
def ringOff (fn i : Nat) : Nat := (if fn = 0 then 0x2C0000 else fn * 0x4000000) + 0x40 * i
/-- The offset of a function's host-interface status. -/
def hifOff (fn : Nat) : Nat := if fn = 0 then 0x2C1000 else fn * 0x4000000 + 0x1000
/-- MSI-X vectors of a function (R337). -/
def vectorsOf (fn : Nat) : Nat := if fn = 0 then 512 else 256

namespace State

def ring (s : State) (fn i : Nat) : Ring := s.log.ring fn i
def setRing (s : State) (fn i : Nat) (r : Ring) : State := { s with log := s.log.setRing fn i r }

/-- LAST_CODE of a ring and of its function's status. -/
def ringLast (s : State) (fn i : Nat) (code : Half) : State :=
  { s with log := { s.log with lastCodes := tset 0 (tset 0 s.log.lastCodes (ringOff fn i + 0x18) code) (hifOff fn) code } }

/-- A field of a ring's `CFG` refused or ignored with 0x1033 (R344). -/
def ringReport (s : State) (fn i outcome hi lo written applied : Nat) : State :=
  (s.report 0x1033#16 (BitVec.ofNat 8 outcome) (ringOff fn i % 0x4000000 + 8) hi lo written applied i fn).ringLast fn i 0x1033#16
/-- EN refused, or kept at 1. -/
def ringRefuse (s : State) (fn i written : Nat) : State := s.ringReport fn i 2 31 31 written (1 - written)

/-- What waits for rings: completion records, the events lost, sealed records, and interrupts that are due. -/
def serveRing (s : State) (fn i : Nat) : State :=
  if hostWritten i then { s with log := s.log.drainAll s.stamp fn i }
  else if i ≤ 33 then { s with log := (s.log.drainAll s.stamp fn (i - 1)).interrupt s.now fn i }
  else if i = 34 then { s with log := (s.log.eventResume s.stamp fn).interrupt s.now fn 34 }
  else let s := s.deliverQueued (i - 40); { s with log := s.log.interrupt s.now fn i }

def serveRings (s : State) (fn : Nat) : List Nat → State
  | [] => s
  | i :: r => serveRings (s.serveRing fn i) fn r

/-! ## Enabling (R344) -/

/-- The seal words of a module-written ring cleared. -/
def clearSeals (m : Mem) (base step : Nat) : Nat → Mem
  | 0 => m
  | n + 1 => writeBytes (clearSeals m base step n) (base + n * step) (leBytes 4 0)

/-- What stands against EN. -/
def ringOk (fn i : Nat) (r : Ring) : Bool :=
  decide (6 ≤ r.log2) && decide (r.log2 ≤ 16) && decide (r.base.toNat + r.entries * entryBytes i ≤ 2 ^ 64) && decide (r.vector < vectorsOf fn)

/-- The checks of R344 that fail, one item each. -/
def ringFaults (fn : Nat) (i : Nat) (r : Ring) : List Unit :=
  (if r.base.toNat + r.entries * entryBytes i ≤ 2 ^ 64 then [] else [()]) ++
  (if 6 ≤ r.log2 ∧ r.log2 ≤ 16 then [] else [()]) ++ (if r.vector < vectorsOf fn then [] else [()])

/-- RING_ENABLE (R344): a write of `RINGi_CFG` with EN set. -/
def ringEnableEff (s : State) (fn i : Nat) (v : Word) : State :=
  if ¬ bit v 31 ∨ ¬ hasRing fn i then s
  else
    let r := s.ring fn i
    let lg := bits v 20 16
    let vec := bits v 10 0
    if r.en then
      let s := if lg = r.log2 then s else s.ringReport fn i 3 20 16 lg r.log2
      if vec < vectorsOf fn then s.setRing fn i { s.ring fn i with vector := vec } else s.ringReport fn i 2 10 0 vec r.vector
    else
      let r := { r with log2 := lg, vector := vec }
      if ringOk fn i r then
        let r := { r with en := true, seq := 0, db := 0, rel := 0, err := false, lostRun := 0, irqDue := false, timerFrom := none, armed := !hostWritten i }
        let s := if hostWritten i then s else { s with log := { s.log with host := clearSeals s.log.host r.base.toNat (entryBytes i) r.entries } }
        (s.setRing fn i r).serveRing fn i
      else (ringFaults fn i r).foldl (fun s _ => s.ringRefuse fn i 1) (s.setRing fn i r)

/-- RING_DISABLE (R344): a write of `RINGi_CFG` with EN clear. -/
def ringDisableEff (s : State) (fn i : Nat) (v : Word) : State :=
  if bit v 31 ∨ ¬ hasRing fn i then s
  else
    let r := s.ring fn i
    let unread : Bool := hostWritten i && !r.pend.isEmpty
    let paired : Bool := decide (i ≤ 33) && decide (i % 2 = 1) && (s.ring fn (i - 1)).en
    if r.en ∧ (unread ∨ paired) then s.ringRefuse fn i 0
    else if r.en then
      let s := if bits v 20 16 = r.log2 then s else s.ringReport fn i 3 20 16 (bits v 20 16) r.log2
      s.setRing fn i { s.ring fn i with en := false, armed := false, timerFrom := none, vector := bits v 10 0 }
    else s.setRing fn i { r with log2 := bits v 20 16, vector := bits v 10 0 }

/-- Writes of a ring's other registers (R343, R344): base halves and moderation. -/
def ringBaseWrite (s : State) (fn i : Nat) (lo hi : Word) : State :=
  let r := s.ring fn i
  let b : DWord := BitVec.ofNat 64 (hi.toNat * 2 ^ 32 + lo.toNat / 4096 * 4096)
  if r.en then (s.report 0x1033#16 3 (ringOff fn i % 0x4000000) 31 0 lo.toNat (r.base.toNat % 2 ^ 32) i fn).ringLast fn i 0x1033#16
  else s.setRing fn i { r with base := b }

def ringModWrite (s : State) (fn i : Nat) (v : Word) : State := s.setRing fn i { s.ring fn i with time := bits v 31 16, cnt := bits v 15 0 }

/-! ## Doorbells (R345) -/

/-- A doorbell value that is not accepted. -/
def dbBad (s : State) (fn i : Nat) (v : Word) : State :=
  let r := s.ring fn i
  (((s.bump (hifOff fn + 8) 1).report 0x1032#16 3 (8 * i) 31 0 v.toNat (if hostWritten i then r.db.toNat else r.rel.toNat) i fn).ringLast fn i 0x1032#16)

/-- SUBMISSION_DOORBELL (R345). -/
def submissionDoorbellEff (s : State) (fn i : Nat) (v : Word) : State :=
  let r := s.ring fn i
  if ¬ hasRing fn i ∨ ¬ hostWritten i ∨ ¬ r.en then s
  else if (v - r.db).toNat < 2 ^ 31 ∧ (v - r.seq).toNat ≤ r.entries then s.setRing fn i { r with db := v }
  else s.dbBad fn i v

/-- RELEASE_DOORBELL (R345, R354): records released, the ring armed again, and what waited written. -/
def releaseDoorbellEff (s : State) (fn i : Nat) (v : Word) : State :=
  let r := s.ring fn i
  if ¬ hasRing fn i ∨ hostWritten i ∨ ¬ r.en then s
  else if (v - r.rel).toNat ≤ (r.seq - r.rel).toNat then
    let r := { r with rel := v, armed := true, timerFrom := if r.seq = v then none else some s.now }
    (s.setRing fn i r).serveRing fn i
  else s.dbBad fn i v

/-! ## Descriptor reads (R346 to R348, R357) -/

/-- Bytes of a descriptor that are reserved are 0. -/
def zeroAt (d : List Byte) (l : List (Nat × Nat)) : Bool := l.all (fun r => allZero (slice d r.1 r.2))

/-- An admin descriptor that completes with 0x1031 (R347). -/
def adminBad (fn : Nat) (d : List Byte) : Bool :=
  let vf := decide (1 ≤ fn)
  let okFn : Bool := match fieldAt d 0 1 with
    | 1 | 2 | 3 | 4 => vf
    | 5 | 6 => !vf
    | 7 | 8 | 9 => true
    | _ => false
  let rest : List (Nat × Nat) := match fieldAt d 0 1 with
    | 1 => [(0x11, 15), (0x22, 2), (0x28, 24)]
    | 2 | 8 | 9 => [(0x11, 47)]
    | 3 => [(0x1C, 36)]
    | 4 => [(0x12, 46)]
    | 5 => [(0x13, 1), (0x16, 2), (0x20, 32)]
    | 6 => [(0x20, 32)]
    | _ => [(0x12, 6), (0x20, 32)]
  !okFn || decide (1 < fieldAt d 1 1) || !zeroAt d ((2, 6) :: rest)

/-- A work descriptor that completes with 0x1031 (R348): `bound` tells what its ring is bound to. -/
def workBad (bound : Nat) (d : List Byte) : Bool :=
  let op := fieldAt d 0 1
  let ok : Bool := (decide (bound = 1) && decide (1 ≤ op) && decide (op ≤ 3)) || (decide (bound = 2) && (decide (op = 0x10) || decide (op = 0x11)))
  let flags := if op = 3 ∨ op = 0x11 then 1 else 3
  let rest : List (Nat × Nat) := match op with
    | 1 | 2 => [(6, 2)]
    | 3 => [(2, 6), (0x10, 8), (0x20, 32)]
    | 0x10 => [(2, 6), (0x14, 4), (0x20, 32)]
    | _ => [(2, 6), (0x10, 8), (0x20, 32)]
  !ok || decide (flags < fieldAt d 1 1) || !zeroAt d rest

/-- Descriptors a fetch may read now: those the doorbell shows, up to 16, and for a stream's ring no more than its QDEPTH
leaves (R309, R346). -/
def fetchCount (s : State) (fn i : Nat) : Nat :=
  let r := s.ring fn i
  let n := min 16 (r.db - r.seq).toNat
  match s.ringStream fn i with
  | none => n
  | some (_, x) => if x.suspended then 0 else min n (x.qdepth - (r.pend.filter (fun p => p.done.isNone)).length)

/-- Descriptors read one after another. -/
def fetchLoop (s : State) (fn i : Nat) : Nat → State
  | 0 => s
  | n + 1 =>
    let r := s.ring fn i
    let d := readBytes s.log.host (r.base.toNat + r.seq.toNat % r.entries * 64) 64
    let bad := if i = 0 then adminBad fn d else workBad r.bound d
    let p : PendDesc := { tag := BitVec.ofNat 64 (fieldAt d 8 8), irq := decide (fieldAt d 1 1 % 2 = 1), done := if bad then some { status := 0x1031#16 } else none }
    let s := s.setRing fn i { r with seq := r.seq + 1, pend := r.pend ++ [p] }
    fetchLoop (if bad then (s.reportSubject 0x1031#16 2 i fn).ringLast fn i 0x1031#16 else s) fn i n

/-- DESCRIPTOR_FETCH (R346). -/
def descriptorFetchEff (s : State) (fn i : Nat) : State :=
  let r := s.ring fn i
  if ¬ hasRing fn i ∨ ¬ hostWritten i ∨ ¬ r.en ∨ r.err ∨ s.log.d3.contains fn then s
  else (s.fetchLoop fn i (s.fetchCount fn i)).serveRing fn i

/-- DESCRIPTOR_FETCH_FAIL (R357). -/
def descriptorFetchFailEff (s : State) (fn i : Nat) : State :=
  let r := s.ring fn i
  if ¬ hasRing fn i ∨ ¬ hostWritten i ∨ ¬ r.en then s
  else ((s.setRing fn i { r with err := true, en := false }).raise 0x2032#16 0x0B fn).ringLast fn i 0x2032#16

/-- HOST_READ_FAIL (R357): an operation's read of host memory fails; its data is not used and it holds 0x2031. -/
def hostReadFailEff (s : State) (id : Nat) : State :=
  match s.op id with
  | none => s
  | some o =>
    if o.complete ∨ o.fault ≠ 0 ∨ ¬ o.reads.any (fun r => decide (r.space = .host)) then s
    else s.modOp id (fun x => { x with fault := 0x2031#16, out := [], counts := {}, tally := [] })

/-- EVENT_WINDOW_END (R476). -/
def eventWindowEndEff (s : State) (code : Half) (kind inst : Nat) : State :=
  { s with log := s.log.windowEnd s.stamp (s.vfOf kind inst) code kind inst }

/-- INTERRUPT_TIMER (R354): TIME has passed on an armed ring. -/
def interruptTimerEff (s : State) (fn i : Nat) : State := { s with log := s.log.interrupt s.now fn i }

/-- LINK_TRAINED (R338): width and rate shown, and 0x4031 below ×8 or 32 GT/s, once per training. -/
def linkTrainedEff (s : State) (width rate : Nat) : State :=
  let s := { s with regs := tset 0 s.regs 0x2C1000 (BitVec.ofNat 32 (width % 16 * 256 + rate % 16)) }
  if width < 8 ∨ rate < 5 then s.raiseNow 0x4031#16 0x0B 0 (leBytes 4 width ++ leBytes 4 rate) else s

/-! ## Resets and power states of functions (R358, R407) -/

/-- A function's rings disabled, unread descriptors and bindings gone; its delivery queues stay. -/
def ringsOff (s : State) (fn : Nat) : List Nat → State
  | [] => s
  | i :: r => ringsOff (s.setRing fn i { s.ring fn i with en := false, armed := false, timerFrom := none, irqDue := false, err := false, pend := [], bound := 0, lostRun := 0 }) fn r

def closeStreams (s : State) : List (Nat × Stream) → State
  | [] => s
  | x :: r => closeStreams (s.dropStream x.1 x.2) r

def doomAll (s : State) : List Nat → State
  | [] => s
  | c :: r => doomAll (s.doom c none) r

def dropSessions (s : State) : List Nat → State
  | [] => s
  | i :: r => dropSessions (s.setSession i none) r

/-- A function's sessions. -/
def sessionsOf (s : State) (fn : Nat) : List Nat :=
  (s.codec.sessions.filter (fun (p : Nat × Option Session) => match p.2 with | none => false | some q => decide ((q.hdr.fn : Nat) = fn))).map (·.1)

/-- Whether a key of the registers lies in a function's MSI-X table. -/
def msixKey (fn key : Nat) : Bool := if fn = 0 then decide (key / 0x10000 = 0x2D) else decide (key / 0x4000000 = fn)

/-- A function's MSI-X state reset: every vector masked, none pending, its table cleared; and back in D0. -/
def msixReset (s : State) (fn : Nat) : State :=
  let keep (k : Nat) : Bool := decide (k / 512 ≠ fn)
  { s with regs := s.regs.filter (fun (p : Nat × Word) => !msixKey fn p.1), log := { s.log with msixUnmasked := s.log.msixUnmasked.filter keep, msixPending := s.log.msixPending.filter keep, d3 := s.log.d3.filter (· ≠ fn) } }

/-- VF_FLR (R358). -/
def flr (s : State) (fn : Nat) : State :=
  let s := (s.ringsOff fn (List.range 59)).msixReset fn
  let s := s.closeStreams (s.streams.filter (fun x => decide (x.2.fn = fn)))
  let s := s.dropSessions (s.sessionsOf fn)
  let s := s.doomAll ((s.allCtxs.filter (fun x => decide (x.2.polder + 1 = fn))).map (·.1))
  s.dropRecipes (s.idleRecipes fn)

def flrAll (s : State) : List Nat → State
  | [] => s
  | f :: r => flrAll (s.flr f) r

/-- VF_FLR of a VF. -/
def vfFlrEff (s : State) (fn : Nat) : State := if fn = 0 then s else s.flr fn
/-- PF0_FLR: every VF reset, PF0's rings disabled. -/
def pf0FlrEff (s : State) : State := ((s.flrAll [1, 2, 3, 4, 5, 6]).ringsOff 0 (List.range 59)).msixReset 0

/-- The vector of a function unmasked: a pending message is sent (R354). -/
def unmask (s : State) (fn v : Nat) : State :=
  let k := fn * 512 + v
  let l : Log := { s.log with msixUnmasked := including s.log.msixUnmasked k }
  if l.msixPending.contains k && !l.d3.contains fn then
    { s with log := ({ l with msixPending := l.msixPending.filter (· ≠ k) }).sendVector fn v }
  else { s with log := l }

/-- MSIX_VECTOR_UNMASK. -/
def msixVectorUnmaskEff (s : State) (fn v : Nat) : State := if v < vectorsOf fn then s.unmask fn v else s

def unmaskAll (s : State) (fn : Nat) : List Nat → State
  | [] => s
  | v :: r => unmaskAll (s.unmask fn v) fn r

/-- FUNCTION_POWER_STATE (R358): into D3hot, or back to D0, where what waited is written and pending messages are sent. -/
def functionPowerStateEff (s : State) (fn : Nat) (d3 : Bool) : State :=
  if d3 then { s with log := { s.log with d3 := including s.log.d3 fn } }
  else
    let s := { s with log := { s.log with d3 := s.log.d3.filter (· ≠ fn) } }
    let s := s.unmaskAll fn ((s.log.msixPending.filter (fun k => decide (k / 512 = fn) && s.log.msixUnmasked.contains k)).map (· % 512))
    s.serveRings fn ((List.range 59).filter (hasRing fn))

end State

/-! ## Meanings -/

def execRingEnable (fn : Fin 7) (i : Fin 64) (v : Word) (s : State) : Host.Outcome State Fault Refusal :=
  .next (s.gate fn (ringOff fn i % 0x4000000) v (fun s => s.ringEnableEff fn i v))
def execRingDisable (fn : Fin 7) (i : Fin 64) (v : Word) (s : State) : Host.Outcome State Fault Refusal :=
  .next (s.gate fn (ringOff fn i % 0x4000000) v (fun s => s.ringDisableEff fn i v))
def execSubmissionDoorbell (fn : Fin 7) (i : Fin 64) (v : Word) (s : State) : Host.Outcome State Fault Refusal :=
  .next (s.submissionDoorbellEff fn i v)
def execReleaseDoorbell (fn : Fin 7) (i : Fin 64) (v : Word) (s : State) : Host.Outcome State Fault Refusal :=
  .next (s.releaseDoorbellEff fn i v)
def execDescriptorFetch (fn : Fin 7) (i : Fin 64) (s : State) : Host.Outcome State Fault Refusal :=
  .next (if s.serves then s.descriptorFetchEff fn i else s)
def execDescriptorFetchFail (fn : Fin 7) (i : Fin 64) (s : State) : Host.Outcome State Fault Refusal := .next (s.descriptorFetchFailEff fn i)
def execHostReadFail (id : Nat) (s : State) : Host.Outcome State Fault Refusal := .next (s.hostReadFailEff id)
def execEventWindowEnd (code : Half) (kind inst : Byte) (s : State) : Host.Outcome State Fault Refusal :=
  .next (s.eventWindowEndEff code kind.toNat inst.toNat)
def execInterruptTimer (fn : Fin 7) (i : Fin 64) (s : State) : Host.Outcome State Fault Refusal := .next (s.interruptTimerEff fn i)
def execLinkTrained (width rate : Nat) (s : State) : Host.Outcome State Fault Refusal := .next (s.linkTrainedEff width rate)
def execVfFlr (fn : Fin 7) (s : State) : Host.Outcome State Fault Refusal := .next (s.vfFlrEff fn)
def execPf0Flr (s : State) : Host.Outcome State Fault Refusal := .next s.pf0FlrEff
def execHotReset (s : State) : Host.Outcome State Fault Refusal := .next (State.pf0FlrEff s)
def execPerst (s : State) : Host.Outcome State Fault Refusal := .next (State.pf0FlrEff s)
def execMsixVectorUnmask (fn : Fin 7) (v : Nat) (s : State) : Host.Outcome State Fault Refusal := .next (s.msixVectorUnmaskEff fn v)
def execFunctionPowerState (fn : Fin 7) (d3 : Bool) (s : State) : Host.Outcome State Fault Refusal := .next (s.functionPowerStateEff fn d3)

end Sys2Proof.Machine
end

