-- ==== Sys2Proof/Machine/Ports.lean ====
section
/-! DEFINITION. Serial lanes, ports, frames and the RoCEv2 unit (R47 to R70, R74, R81). -/

namespace Sys2Proof.Machine

namespace State

/-! ## Quads, ports and their lanes (R47 to R49) -/

/-- A port's receivers adapt again and the port hunts for lock (R51, R52). -/
def hunt (s : State) (n : Nat) : State :=
  (s.setPort n { s.port n with locked := false, remoteFault := false }).mapLanes (fun l => { l with adapted := false }) (s.lanesOf n)

/-- A port and its lanes stop. -/
def stopPort (s : State) (n : Nat) : State :=
  (s.setPort n {}).mapLanes (fun l => { eyeBits := l.eyeBits, eyeErr := l.eyeErr, eyeDone := l.eyeDone, eyeShed := l.eyeShed }) (s.lanesOf n)

/-- The FEC setting is one the rate allows (R49). -/
def fecOk (s : State) (n : Nat) : Bool := s.wide100 n || s.rate25 n || decide (s.fld (portOff n) 30 29 = 0)

/-- A queue pair that Culvert operations use goes out on a port. -/
def carriesCulvert (s : State) (n : Nat) : Bool :=
  s.qps.any (fun (p : Nat × Qp) => decide (p.2.port = n) && p.2.peer.isSome && decide (p.2.state ≠ .idle))

/-- Transmit and receive low-power idle that a port may not use (R57). -/
def lpiBars (s : State) (n : Nat) : Bool × Bool :=
  (s.wide100 n || decide (s.fld 0x220048 5 2 = n) || s.carriesCulvert n, s.wide100 n)

/-- Transmit or receive low-power idle newly set where it may not be (R57): that bit stays 0, and one entry names LPI. -/
def lpiRefuse (s : State) (n : Nat) (old : Word) : State :=
  let o := portOff n
  let newly (b : Nat) : Bool := s.flag o b && !bit old b
  let tx : Bool := (s.lpiBars n).1 && newly 26
  let rx : Bool := (s.lpiBars n).2 && newly 27
  if tx || rx then
    let keep := s.fld o 27 26 - (if tx then 1 else 0) - (if rx then 2 else 0)
    ((s.report 0x1204#16 2 o 27 26 (s.fld o 27 26) keep).last 0x1204#16 0x02 n).setFld o 27 26 keep
  else s

/-- PORT_ENABLE (R49, R57, R446): a write of `PORTn_CFG`. A change of RATE or FEC on a running 100GBASE-R port, which ignores
both, hunts as on any other (DESIGN CHOICE, the assumption log, 124). -/
def portEnableEff (s : State) (n : Nat) (v : Word) : State :=
  let o := portOff n
  if ¬ s.portPresent n then s
  else
    let old := s.reg o
    let s := s.writeFields o 0x02 n v
    let s := s.lpiRefuse n old
    if ¬ s.flag o 31 then (if bit old 31 then s.stopPort n else s)
    else if ¬ bit old 31 then
      if bits v 30 29 = 3 ∧ ¬ s.sealed then s.setFld o 31 31 0
      else if ¬ s.fecOk n then (s.setFld o 31 31 0).refuse 0x1201#16 0x02 n o 31
      else (s.setPort n { idleSince := s.now }).hunt n
    else
      let changed : Bool := decide (bits (s.reg o) 30 28 ≠ bits old 30 28)
      if ¬ changed then s
      else if s.fecOk n then s.hunt n
      else
        let s := if s.fld o 28 28 ≠ bits old 28 28 then s.revertField old o 28 28 0x02 n 0x1201#16 else s
        if s.fld o 30 29 ≠ bits old 30 29 then s.revertField old o 30 29 0x02 n 0x1201#16 else s

/-- Ports of a quad that a change of its mode leaves absent or serves otherwise: they stop, EN at 0. -/
def stopPorts (s : State) : List Nat → State
  | [] => s
  | n :: r => stopPorts ((s.stopPort n).setFld (portOff n) 31 31 0) r

/-- A write of `QUADq_CFG` (R47): a quad that changes its mode stops its ports. -/
def quadWriteEff (s : State) (q : Nat) (v : Word) : State :=
  let old := s.quadMode q
  let t := s.writeFields (0x230000 + 0x40 * q) 0x02 (0x20 + q) v
  if t.quadMode q = old then t else t.stopPorts [4 * q, 4 * q + 1, 4 * q + 2, 4 * q + 3]

/-- The three taps that fit (R50): PRE, POST, MAIN. -/
def fitTaps (pre post main : Nat) : Nat × Nat × Nat :=
  let m := max main 24
  let excess := pre + post + m - 63
  let c := min pre excess
  (pre - c, post - min post (excess - c), m)

/-- A write of `LANEn_TXFFE` (R50). -/
def txffeWriteEff (s : State) (n : Nat) (v : Word) : State :=
  let o := laneOff n + 4
  let s := s.writeFields o 0x02 n v
  let w := s.reg o
  let t := fitTaps (bits w 19 16) (bits w 12 8) (bits w 5 0)
  let x := putBits (putBits (putBits w 19 16 t.1) 12 8 t.2.1) 5 0 t.2.2
  if x = w then s else (s.setReg o x).report 0x1201#16 1 o 19 0 (bits w 19 0) (bits x 19 0)

/-! ## Lanes (R51 to R59) -/

/-- ADAPT (R51): the CTLE and taps the receiver has found; with ADAPT_DONE set the taps track, or are frozen. -/
def adaptEff (s : State) (n ctle : Nat) (taps : BitVec 30) : State :=
  let l := s.lane n
  let how := s.fld (laneOff n) 9 8
  if ¬ s.laneOn n ∨ l.rxLpi then s
  else if l.adapted then (if how = 1 then s else s.setLane n { l with dfe := taps })
  else s.setLane n { l with
    ctle := if how = 2 then s.fld (laneOff n) 15 12 else ctle, dfe := taps, adapted := true, signal := true, cdr := true }

/-- BLOCK_LOCK (R48, R52): a 100GBASE-R port whose lanes are more than 180 ns apart fails alignment with 0x2201. -/
def blockLockEff (s : State) (n skew : Nat) (remote : Bool) : State :=
  if s.portOn n ∧ (s.lanesOf n).all (fun l => (s.lane l).adapted) then
    if s.wide100 n ∧ 180000 < skew then s.raise 0x2201#16 0x02 n
    else s.setPort n { s.port n with locked := true, remoteFault := remote }
  else s

/-- The receiver of a port is in low-power idle. -/
def rxQuiet (s : State) (n : Nat) : Bool := (s.lane n).rxLpi

/-- BLOCK_LOCK_LOSS (R50, R53, R57): SIGNAL falls with the receive amplitude. -/
def blockLockLossEff (s : State) (n : Nat) (amplitude : Bool) : State :=
  if s.portOn n ∧ (s.port n).locked ∧ ¬ s.rxQuiet n then
    let s := if amplitude then s else s.mapLanes (fun l => { l with signal := false, cdr := false }) (s.lanesOf n)
    ((s.hunt n).bump (portOff n + 0x2C) 1).raise 0x2201#16 0x02 n
  else s

/-- HI_BER_ENTER (R53, R57). -/
def hiBerEnterEff (s : State) (n : Nat) : State :=
  if s.portOn n ∧ (s.port n).locked ∧ ¬ (s.port n).hiBer ∧ ¬ s.rxQuiet n then
    ((s.setPort n { s.port n with hiBer := true }).bump (portOff n + 0x30) 1).raise 0x2202#16 0x02 n
  else s

/-- HI_BER_CLEAR (R53, R57). -/
def hiBerClearEff (s : State) (n : Nat) : State :=
  if s.portOn n ∧ ¬ s.rxQuiet n then s.setPort n { s.port n with hiBer := false } else s

/-- FEC_CODEWORD (R54): RS-FEC corrects up to 7 symbol errors; Clause 74 as `correctable` tells. -/
def fecCodewordEff (s : State) (n errors : Nat) (correctable : Bool) : State :=
  let mode := s.fld (portOff n) 30 29
  let rs := s.wide100 n || decide (mode = 2)
  if ¬ s.portOn n ∨ ¬ (s.port n).locked ∨ (¬ s.wide100 n ∧ mode = 0) ∨ errors = 0 then s
  else if (if rs then decide (errors ≤ 7) else correctable) then s.bump (portOff n + 0x34) 1
  else (s.bump (portOff n + 0x38) 1).raise 0x2203#16 0x02 n

/-- Lanes of a quad on one of its PLLs. -/
def pllLanes (s : State) (q : Nat) (fast : Bool) : List Nat :=
  ([4 * q, 4 * q + 1, 4 * q + 2, 4 * q + 3] : List Nat).filter (fun n => s.laneOn n && (s.fastPll n == fast))

/-- TX_PLL_UNLOCK (R55): its lanes go to electrical idle. -/
def txPllUnlockEff (s : State) (q : Nat) (fast : Bool) : State :=
  if (s.pllLanes q fast).isEmpty ∨ s.pllOut.contains (q, fast) then s
  else ({ s with pllOut := s.pllOut ++ [(q, fast)] } : State).raise 0x5201#16 0x02 (0x20 + q)

/-- TX_PLL_RELOCK (R55): the transmitters resume with the frames held. -/
def txPllRelockEff (s : State) (q : Nat) (fast : Bool) : State :=
  ({ s with pllOut := without s.pllOut (q, fast) } : State).txReleases [4 * q, 4 * q + 1, 4 * q + 2, 4 * q + 3]

/-- TX_LPI_ENTER (R56, R57): nothing to send for IDLE µs. -/
def txLpiEnterEff (s : State) (n : Nat) : State :=
  let p := s.port n
  let l := s.lane n
  if s.portOn n ∧ s.flag (portOff n) 26 ∧ ¬ (s.lpiBars n).1 ∧ ¬ l.txLpi ∧ p.txHeld = 0 ∧ p.wakeAt = none ∧ p.idleSince + s.fld (portOff n + 4) 15 0 * 1000 ≤ s.now then
    (((s.setLane n { l with txLpi := true }).setPort n { p with lpiFrom := s.now, lpiRefreshAt := s.now + 1805000 })).bump (portOff n + 0x3C) 1
  else s

/-- LPI_REFRESH (R56): a 10GBASE-R transmitter at the end of a quiet period of 1.8 ms sends 16 µs of refresh. -/
def lpiRefreshEff (s : State) (n : Nat) : State :=
  let p := s.port n
  if (s.lane n).txLpi ∧ p.wakeAt = none ∧ ¬ s.rate25 n ∧ p.lpiRefreshAt ≤ s.now then s.setPort n { p with lpiRefreshAt := s.now + 1816000 } else s

/-- TX_LPI_WAKE (R56): a frame of line software is queued during low-power idle; it is held through entry and wake, and
TX_LPI falls as wake begins. -/
def txLpiWakeEff (s : State) (n : Nat) : State := if (s.lane n).txLpi then s.txHold n 1 else s

/-- RX_LPI (R56, R57): at 10GBASE-R the CDR is powered down. -/
def rxLpiEff (s : State) (n : Nat) : State :=
  let l := s.lane n
  if s.portOn n ∧ s.flag (portOff n) 27 ∧ ¬ s.wide100 n ∧ ¬ l.rxLpi then
    (s.setLane n { l with rxLpi := true, cdr := l.cdr && s.rate25 n, quietFrom := s.now }).bump (portOff n + 0x3C) 1
  else s

/-- RX_LPI_WAKE (R56, R57). -/
def rxLpiWakeEff (s : State) (n : Nat) : State :=
  let l := s.lane n
  if l.rxLpi then
    s.setLane n { l with rxLpi := false, cdr := true, eyeQuiet := l.eyeQuiet + (s.now - max l.quietFrom l.eyeFrom) }
  else s

def eyeOff (n : Nat) : Nat := laneOff n + 0x10
/-- Bits that end a point (R58). -/
def eyeBitsEnd (s : State) (n : Nat) : Nat := 10 ^ s.fld (eyeOff n) 27 24

/-- Bits compared since the point began, none of them in receive low-power idle (R57, R58): 25.78125 or 10.3125 a ns. -/
def eyeBitsNow (s : State) (n : Nat) : Nat :=
  let l := s.lane n
  let quiet := l.eyeQuiet + (if l.rxLpi then s.now - max l.quietFrom l.eyeFrom else 0)
  min ((s.now - l.eyeFrom - quiet) * (if s.fastPll (s.portOfLane n) then 2578125 else 1031250) / 100000) (s.eyeBitsEnd n)

/-- The mismatches counted so far (R58). -/
def eyeErrNow (s : State) (n : Nat) : Nat :=
  min (Config.eyeErrors n (s.lane n).eyeFrom (s.eyeBitsNow n)) (s.eyeBitsNow n)

/-- A point that ends before its bits are all compared: the counts are those so far (R58, R59). -/
def eyeEndEarly (s : State) (n : Nat) (shed : Bool) : State :=
  if (s.lane n).eyeRun then
    s.setLane n { s.lane n with
      eyeRun := false, eyeDone := true, eyeShed := shed
      eyeBits := BitVec.ofNat 48 (s.eyeBitsNow n), eyeErr := BitVec.ofNat 48 (s.eyeErrNow n) }
  else s

/-- A write of `LANEn_EYE_CTL` (R58, R59): GO starts or restarts a point, refused with 0x1205 without block lock; STOP
ends it. -/
def eyeWrite (s : State) (n : Nat) (v : Word) : State :=
  let s := s.writeFields (eyeOff n) 0x02 n v
  let s :=
    if ¬ bit v 31 then s
    else if ¬ (s.port (s.portOfLane n)).locked then s.refuse 0x1205#16 0x02 n (eyeOff n) 31
    else if ¬ s.shedAdmits then
      (s.setLane n { s.lane n with eyeRun := false, eyeDone := true, eyeShed := true, eyeBits := 0, eyeErr := 0 }).raise 0x4201#16 0x02 n
    else s.setLane n { s.lane n with eyeRun := true, eyeDone := false, eyeShed := false, eyeFrom := s.now, eyeQuiet := 0, eyeBits := 0, eyeErr := 0 }
  if bit v 28 then s.eyeEndEarly n false else s

/-- EYE_POINT_END (R58, R59): 10^BITS_EXP bits have been compared; none in receive low-power idle. -/
def eyePointEndEff (s : State) (n : Nat) (errors : BitVec 48) : State :=
  let l := s.lane n
  let b := BitVec.ofNat 48 (s.eyeBitsEnd n)
  if l.eyeRun ∧ ¬ l.rxLpi ∧ s.eyeBitsNow n = s.eyeBitsEnd n then
    s.setLane n { l with eyeRun := false, eyeDone := true, eyeBits := b, eyeErr := if errors.toNat ≤ b.toNat then errors else b }
  else s

/-- EYE_SHED (R59, R384): the Almanac sheds a running scan. -/
def eyeShed (s : State) (n : Nat) : State :=
  if (s.lane n).eyeRun then (s.eyeEndEarly n true).raise 0x4201#16 0x02 n else s

/-! ## Frames (R55, R60, R61, R66 to R69) -/

def bufferBytes (s : State) (n : Nat) : Nat := if s.wide100 n then 2 ^ 20 else 2 ^ 18

/-- A frame that no unit takes (R60, row 4). -/
def unclassified (s : State) (n : Nat) (f : Frame) : State :=
  if s.flag (portOff n) 14 then s.setPort n { s.port n with toSoftware := (s.port n).toSoftware ++ [(f.len, none)] }
  else s.bump (portOff n + 0x28) 1

/-- A frame handed to line software, with its stamp where it is a PTP event message. -/
def toSoftware (s : State) (n len : Nat) (st : Option Int) : State :=
  s.setPort n { s.port n with toSoftware := (s.port n).toSoftware ++ [(len, st)] }

/-- A PTP message at a port (R68, R69). A peer-delay request is answered on the servo port alone. -/
def ptpFrame (s : State) (n : Nat) (f : Frame) (p : PtpKind) : State :=
  let st := s.ptpStampNow n false
  let servo := decide (s.fld 0x220048 5 2 = n)
  let s := if p = .general then s else s.setPort n { s.port n with ptpStamp := st }
  if ¬ servo then s.toSoftware n f.len (if p = .general then none else some st)
  else if p = .pdelayReq then s.ptpSend n true
  else s

/-- GVSP_DROP (R67): counted, and 0x2204 once per block. -/
def gvspDrop (s : State) (n k b : Nat) : State :=
  let s := s.bump (portOff n + 0x40) 1
  let c := s.sluice k
  if c.dropPosted = some b then s else (s.setSluice k { c with dropPosted := some b }).raiseNow 0x2204#16 0x02 n (leBytes 8 b)

/-- LEADER_CHECK (R74). -/
def leaderOk (s : State) (k : Nat) (accepted : Bool) (w h : Nat) (pf : Word) : Bool :=
  let x := s.shape k
  let ch := if x.chan = 0 then 1 else 3
  accepted && decide (w = x.cols) && decide (h = s.fld (sOff k + 0x18) 15 0) && decide (bits pf 31 24 = if x.chan = 0 then 1 else 2) &&
  decide (bits pf 23 16 = 8 * (if x.sample = 0 then 1 else 2) * ch)

/-- The block of a GVSP packet as the Sluice has it: a lower ID, or a leader of ID 1 after others, breaks the stream
(R79). -/
def gvspBlock (s : State) (k b : Nat) (leader : Bool) : State :=
  let c := s.sluice k
  let back := c.firstId.isSome && (decide (b < c.lastId) || (leader && decide (b = 1) && decide (c.lastId ≠ 1)))
  let s := if back then s.streamBreak k else s
  let c := s.sluice k
  s.setSluice k { c with firstId := some (c.firstId.getD b), lastId := b }

/-- A packet of failed status is reported to the Sluice as missing (R67); one that comes again is not. -/
def lostPacket (s : State) (k : Nat) (g : Gvsp) (gone : Bool) : State :=
  let c := s.sluice k
  s.setSluice k { c with lost := if gone then including c.lost (g.block, g.packet) else without c.lost (g.block, g.packet) }

/-- GVSP_RECEIVE (R66, R67, R74, R79). -/
def gvspFrame (s : State) (n k : Nat) (g : Gvsp) : State :=
  let c := s.sluice k
  if g.ext ≠ s.flag (sOff k) 28 then s.gvspDrop n k g.block
  else match g.kind with
    | .unaccepted => s.gvspDrop n k g.block
    | .leader acc w h pf =>
      let s := s.gvspBlock k g.block true
      if s.leaderOk k acc w h pf then s.setSluice k { s.sluice k with refusedId := none }
      else (s.setSluice k { s.sluice k with refusedId := some g.block }).raiseNow 0x2404#16 0x03 k (leBytes 8 g.block)
    | .payload data =>
      let s := s.gvspBlock k g.block false
      let c := s.sluice k
      let lb := (s.shape k).lineBytes
      let h := s.fld (sOff k + 0x18) 15 0
      let off := (g.packet - 1) * s.fld (sOff k + 8) 31 16
      let line := c.lineBase + (g.block - c.firstId.getD g.block) * h + off / lb
      if c.refusedId = some g.block then s.bump (portOff n + 0x40) 1
      else if ¬ g.ok then (s.gvspDrop n k g.block).lostPacket k g true
      else (s.lostPacket k g false).placeRun k line (off % lb) g.resent (data.length + 1) (data.take (h * lb - off))
    | .trailer => if c.refusedId = some g.block then s.bump (portOff n + 0x40) 1 else s.gvspBlock k g.block false
    | .chunk data =>
      if c.refusedId = some g.block then s.bump (portOff n + 0x40) 1
      else
        let s := s.gvspBlock k g.block false
        if ¬ g.ok then s.gvspDrop n k g.block
        else
          let had := ((s.sluice k).chunks.filter (fun x => x.1 = g.block)).map (fun x => x.2.length)
          s.setSluice k { s.sluice k with chunks := (s.sluice k).chunks ++ [(g.block, data.take (4096 - had.sum))] }

/-- The enabled context that a datagram belongs to (R60). -/
def gvspCtx (s : State) (i : Ipv4) : Option Nat :=
  (List.range 16).find? (fun k => (s.sluice k).run && decide (s.fld (sOff k) 30 29 = 0) && decide (s.reg (sOff k + 4) = i.src) &&
    decide (i.udpDst = some (s.fld (sOff k + 8) 15 0)))

/-- Classification (R60). -/
def classify (s : State) (n : Nat) (f : Frame) : State :=
  let udp : Option Nat := match f.ip with
    | some i => if i.fragment ∨ ¬ i.sumOk then none else i.udpDst
    | none => none
  if 2 ≤ f.tags then s.unclassified n f
  else if f.etherType = 0x88F7#16 ∨ udp = some 319 ∨ udp = some 320 then
    (match f.payload with | .ptp p => s.ptpFrame n f p | _ => s.ptpFrame n f .general)
  else if udp = some 4791 then s
  else match udp, f.ip with
    | some _, some i => match s.gvspCtx i with
      | none => s.unclassified n f
      | some k => (match f.payload with
        | .gvsp g => s.gvspFrame n k g
        | _ => s.gvspDrop n k 0)
    | _, _ => s.unclassified n f

/-- RX_OVERFLOW (R61): the receive buffer with this frame, and the pause frames its fill sends: one for each priority paused
or released. -/
def buffered (s : State) (n : Nat) (f : Frame) : State :=
  let size := s.bufferBytes n
  let fill := if size < f.fill + f.len then min f.fill size else f.fill + f.len
  let p := s.port n
  let mask : Byte := BitVec.ofNat 8 (s.fld (portOff n) 23 16)
  let paused : Byte := if 3 * size < 4 * fill then mask else if 2 * fill < size then 0 else p.paused &&& mask
  (s.setPort n { p with fill, paused }).txControl n (maskBits 8 (paused ^^^ p.paused).toNat).length

/-- A pause frame received (R61): 802.3x holds every frame of the port, PFC those of a priority it names and that is
enabled; a quantum is 512 bit times. -/
def pauseFrame (s : State) (n : Nat) (pfc : Option Byte) (quanta : Nat) : State :=
  let held : Bool := match pfc with
    | none => true
    | some m => (m &&& BitVec.ofNat 8 (s.fld (portOff n) 23 16)).getLsbD (Config.txPriority n).val
  if held then
    (s.setPort n { s.port n with pauseUntil := s.now + quanta * 512 * 1000000 / s.lineRate n }).txRelease n
  else s

/-- A frame on the management port M (R62): to line software, a PTP event message with its stamp. -/
def managementFrame (s : State) (f : Frame) : State :=
  if ¬ f.fcsOk ∨ f.errBlock ∨ f.len < 64 then s
  else s.toSoftware 16 f.len (match f.payload with
    | .ptp .general => none
    | .ptp _ => some (s.time.t / nsUnit : Nat)
    | _ => none)

/-- FRAME_RECEIVED (R55, R60, R61). -/
def frameReceivedEff (s : State) (n : Nat) (f : Frame) : State :=
  let o := portOff n
  if n = 16 then s.managementFrame f
  else if ¬ s.portOn n then s
  else if ¬ (s.port n).locked ∨ (s.port n).hiBer ∨ f.errBlock then s.bump (o + 0x20) 1
  else if ¬ f.fcsOk then s.bump (o + 0x18) 1
  else if s.fld o 13 0 < f.len then s.bump (o + 0x1C) 1
  else if f.len < 64 then s
  else
    let s := s.buffered n f
    if s.bufferBytes n < f.fill + f.len then (s.bump (o + 0x24) 1).raise 0x3202#16 0x02 n
    else match f.payload with
      | .pause pfc q => (s.bump (o + 0x10) 1).pauseFrame n pfc q
      | _ => (s.bump (o + 0x10) 1).classify n f

/-! ## RoCEv2: the responder (R63, R64, R81, R361, R367, R368) -/

/-- A member counts for barriers and its queue pairs are kept open (R364). -/
def participates (s : State) (m : Nat) : Bool := decide (s.line.mask.toNat / 2 ^ m % 2 = 1)

/-- A queue pair as it stands now: the line unit re-opens one in error within 1 ms while its peer participates (R368). -/
def qpNow (s : State) (q : Nat) : Qp :=
  let x := s.qp q
  match x.peer with
  | some m => if x.state = .error ∧ s.participates m ∧ 1000000 ≤ s.now - x.errAt then { x with state := .ready } else x
  | none => x

/-- An operation whose answer has come, or whose queue pair is in error. -/
def answerOp (s : State) (id : Nat) (code : Half) : State :=
  s.modOp id (fun o => { o with remote := false, fault := if o.fault = 0 then code else o.fault })

def answerOps (s : State) (code : Half) : List Outstanding → State
  | [] => s
  | x :: r => answerOps (s.answerOp x.op code) code r

/-- Bytes that name a queue pair and its owner. -/
def qpBytes (q : Nat) (x : Qp) : List Byte := leBytes 4 q ++ leBytes 4 x.owner

/-- A queue pair moves to error (R64): operations not yet completed complete with 0x7201; a Sluice window's stream breaks
(R81). -/
def qpError (s : State) (q : Nat) (code : Half) : State :=
  let x := s.qpNow q
  let s := s.setQp q { x with state := .error, outstanding := [], errAt := s.now }
  let s := (s.answerOps 0x7201#16 x.outstanding).raise code 0x02 x.port 1 (qpBytes q x)
  if 16 ≤ x.owner ∧ x.owner < 34 then
    let k := x.owner - 16
    if (s.sluice k).run ∧ ¬ (s.sluice k).qpBroken then
      (s.streamBreak k).setSluice k { (s.streamBreak k).sluice k with qpBroken := true }
    else s
  else s

/-- What a request does to memory. -/
inductive Access where
  | read | write | atomic
  deriving DecidableEq, Repr

/-- A line window's rules (R361). -/
def windowMay (s : State) (q : Qp) (a : Access) (addr len : Nat) : Bool :=
  let inside (lo hi : Nat) : Bool := decide (lo ≤ addr) && decide (addr + len ≤ hi)
  let proxy : Bool := (List.range 16).any (fun j =>
    inside (0x10000 + 0x80000 * j) (0x10000 + 0x80000 * j + 327680) && s.flag (0x2E0200 + 8 * j) 31 &&
    decide (q.owner = 64 + s.fld (0x2E0200 + 8 * j) 27 24))
  s.line.running &&
  ((decide (a = .read) && inside 0 256) || (decide (a = .write) && proxy) || inside 0x900000 s.lineWindow.2)

/-- Whether a request may touch `len` bytes at an address of its queue pair's memory region (R64). -/
def qpMay (s : State) (q : Qp) (key : Word) (a : Access) (addr len : Nat) : Bool :=
  match q.peer with
  | some _ => decide (key = s.reg 0x2E0004) && s.windowMay q a addr len
  | none =>
    decide (key = q.key) && decide (q.base ≤ addr) && decide (addr + len ≤ q.base + q.len) &&
    (match a with | .write => q.rights.getLsbD 0 | .read => q.rights.getLsbD 1 | .atomic => q.rights.getLsbD 2)

/-- Where an address of a queue pair lies in bonded memory. -/
def qpAt (s : State) (q : Qp) (addr : Nat) : Nat := match q.peer with | some _ => s.lineWindow.1 + addr | none => addr

/-- An 8-byte word of bonded memory. -/
def word64 (s : State) (a : Nat) : Nat := leNat (readBytes s.bonded a 8)
def putBonded (s : State) (a : Nat) (bs : List Byte) : State := { s with bonded := writeBytes s.bonded a bs }

/-- Interrupts a control core (R233). -/
def notify (s : State) (c : Nat) : State := { s with notified := s.notified ++ [c] }

/-- Packets of a message of `len` bytes: one for each path MTU of its data, one at least. -/
def packets (q : Qp) (len : Nat) : Nat := max 1 ((len + q.mtu - 1) / q.mtu)

/-- A message of a queue pair goes out, and its bytes count for DCQCN (R65). -/
def qpSend (s : State) (q len : Nat) : State :=
  let x := s.qp q
  (s.setQp q { x with incBytes := x.incBytes + len }).roceTx x.port (packets x len)

/-- The response to a request goes out. -/
def respond (s : State) (q len : Nat) : State := s.qpSend q len

/-- The bytes a request's message carries or asks for. -/
def reqBytes : RoceReq → Nat
  | .write _ d | .writeImm _ d _ => d.length
  | .read _ n | .fetchAdd _ n _ | .cmpSwap _ n _ _ => n
  | .send => 0

/-- The Invalid Request NAK (R64). -/
def invalidRequest (s : State) (q : Nat) : State := (s.respond q 0).qpError q 0x7202#16

/-! ### RDMA windows (R74, R81) -/

/-- Lines a window holds. -/
def winSlots (s : State) (k : Nat) : Nat := 16 * s.fld (sOff k + 0x0C) 31 24

/-- The oldest block of a context that is open or that its line pipe has not released. -/
def oldestHeld (s : State) (k : Nat) : Nat :=
  let c := s.sluice k
  let inPipe := if s.inline_ k then (match s.slotOf k with | none => [] | some i => (s.slot i).queue.map (·.b)) else []
  (c.held ++ inPipe).foldl min c.next

/-- The line that a write to a slot is for: the first not before the line expected. -/
def slotLine (s : State) (k j : Nat) : Nat :=
  let e := (s.sluice k).expect
  let m := s.winSlots k
  if m = 0 then e else e + (j + m - e % m) % m

/-- A write into a window: discarded where its slot is held (R81). -/
def windowWrite (s : State) (k addr : Nat) (data : List Byte) : State :=
  let lb := (s.shape k).lineBytes
  let j := if lb = 0 then 0 else addr / lb
  let n := s.slotLine k j
  let c := s.sluice k
  if data.isEmpty then s
  else if s.winSlots k ≤ n ∧ s.oldestHeld k ≤ (n - s.winSlots k) / 16 then
    if c.overrun.contains n then s
    else ((s.setSluice k { c with overrun := c.overrun ++ [n] }).bump (sOff k + 0x40) 1).raiseNow 0x3402#16 0x03 k (leBytes 6 n)
  else
    s.setSluice k { c with
      window := writeBytes c.window addr data
      slotStamps := if addr % lb = 0 then c.slotStamps.filter (fun x => x.1 ≠ j) ++ [(j, s.ownStamp)] else c.slotStamps }

/-- The value nearest the expected line whose low 32 bits are the immediate (R74). -/
def nearestLine (e imm : Nat) : Nat :=
  let base := e / 2 ^ 32 * 2 ^ 32 + imm
  let cand := if base + 2 ^ 31 < e then base + 2 ^ 32 else if e + 2 ^ 31 < base ∧ 2 ^ 32 ≤ base then base - 2 ^ 32 else base
  cand % 2 ^ 48

/-- Lines from `n` on declared missing; `f` bounds them. -/
def skipLines (s : State) (k : Nat) : Nat → Nat → State
  | 0, _ => s
  | f + 1, n =>
    let s := s.makeRoom k (n / 16) (n / 16 - 3 - (s.sluice k).next)
    let c := ensureBlocks (s.sluice k) (n / 16) 8
    skipLines (s.setSluice k (modLine (fun l => { l with missing := true }) n c)) k f (n + 1)

/-- RDMA_LINE_CLOSE (R81): the immediate closes line n; lines skipped are missing. -/
def windowClose (s : State) (k imm : Nat) : State :=
  let e := (s.sluice k).expect
  let n := nearestLine e imm
  if n < e then
    if n / 16 < (s.sluice k).next ∨ (getLine (s.sluice k) n).missing then
      (s.bump (sOff k + 0x3C) 1).raiseNow 0x2403#16 0x03 k (leBytes 6 n)
    else s.bump (sOff k + 0x38) 1
  else
    let s := s.skipLines k (n - e) e
    let s := s.makeRoom k (n / 16) (n / 16 - 3 - (s.sluice k).next)
    let c := ensureBlocks (s.sluice k) (n / 16) 8
    let lb := (s.shape k).lineBytes
    let j := if s.winSlots k = 0 then 0 else n % s.winSlots k
    let excess := c.overrun.contains n
    let st := (c.slotStamps.find? (fun x => x.1 = j)).map (·.2)
    let c := modLine (fun l =>
      if excess then { l with missing := true, status := 0x3402#16 }
      else { l with got := [(0, lb)], data := writeBytes [] 0 (readBytes c.window (j * lb) lb), stamp := st }) n c
    let s := s.setSluice k { c with
      expect := n + 1, overrun := c.overrun.filter (fun m => m ≠ n), slotStamps := c.slotStamps.filter (fun x => x.1 ≠ j) }
    if excess then s else s.bump (sOff k + 0x24) 1

/-- A request to the queue pair of a Sluice window (R81). -/
def windowRequest (s : State) (q k : Nat) (r : RoceReq) : State :=
  let bytes := s.winSlots k * (s.shape k).lineBytes
  match r with
  | .write a d => if a + d.length ≤ bytes then (s.windowWrite k a d).respond q 0 else s.invalidRequest q
  | .writeImm a d i => if a + d.length ≤ bytes then ((s.windowWrite k a d).windowClose k i.toNat).respond q 0 else s.invalidRequest q
  | _ => s.invalidRequest q

/-- A signal that has come from another member (R233, R367): a maximum at the bank, then the interrupt. -/
def remoteSignal (s : State) (a : Nat) (v : Nat) (note : Nat) : State :=
  let s := s.putBonded a (leBytes 8 (max (s.word64 a) v))
  if note / 128 % 2 = 1 then s.notify (note % 8) else s

/-- CNP_SEND (R65): at most one each 50 µs. -/
def cnpSend (s : State) (q : Nat) : State :=
  let x := s.qp q
  let due : Bool := match x.cnpAt with | none => true | some t => decide (50000 ≤ s.now - t)
  if due then (s.setQp q { x with cnpAt := some s.now }).roceTx x.port 1 else s

/-- A request to any other queue pair (R64, R367, R368). -/
def memRequest (s : State) (q : Nat) (key : Word) (r : RoceReq) : State :=
  let x := s.qp q
  match r with
  | .write a d => if s.qpMay x key .write a d.length then (s.putBonded (s.qpAt x a) d).respond q 0 else s.invalidRequest q
  | .writeImm a d i =>
    if i.toNat / 2 ^ 24 = 0x5C ∧ d.length = 8 ∧ a % 8 = 0 ∧ s.qpMay x key .write a 8 then
      (s.remoteSignal (s.qpAt x a) (leNat d) (i.toNat % 256)).respond q 0
    else s.invalidRequest q
  | .read a n => if s.qpMay x key .read a n then s.respond q n else s.invalidRequest q
  | .fetchAdd a n v =>
    if n = 8 ∧ a % 8 = 0 ∧ s.qpMay x key .atomic a 8 then
      (s.putBonded (s.qpAt x a) (leBytes 8 ((s.word64 (s.qpAt x a) + v.toNat) % 2 ^ 64))).respond q 8
    else s.invalidRequest q
  | .cmpSwap a n c w =>
    if n = 8 ∧ a % 8 = 0 ∧ s.qpMay x key .atomic a 8 then
      (if s.word64 (s.qpAt x a) = c.toNat then s.putBonded (s.qpAt x a) (leBytes 8 w.toNat) else s).respond q 8
    else s.invalidRequest q
  | .send => s.invalidRequest q

/-- ROCE_REQUEST (R63, R64). A message over 2 GiB is an invalid request (DEDUCED, the assumption log, 127). -/
def roceRequestEff (s : State) (q : Nat) (ce : Bool) (key : Word) (r : RoceReq) : State :=
  let x := s.qpNow q
  if x.state = .idle ∧ x.peer.isSome ∧ s.portOn x.port then s.bump 0x2E0020 1
  else if x.state ≠ .ready ∨ ¬ s.portOn x.port then s
  else
    let s := s.setQp q x
    let s := if ce then s.cnpSend q else s
    if 2 ^ 31 < reqBytes r then s.invalidRequest q
    else if 16 ≤ x.owner ∧ x.owner < 34 then
      if key = x.key ∧ (s.sluice (x.owner - 16)).run then s.windowRequest q (x.owner - 16) r else s.invalidRequest q
    else s.memRequest q key r

/-! ## RoCEv2: the requester (R63 to R65) -/

/-- CNP_RECEIVED (R65): DCQCN with α gain 1/256, not below 100 Mb/s. -/
def cnpReceivedEff (s : State) (q : Nat) : State :=
  let x := s.qp q
  if x.state ≠ .ready then s
  else
    let r := if x.rate = 0 then s.lineRate x.port else x.rate
    s.setQp q { x with
      target := r, rate := max 100000 (r - r * x.alpha / 131072), alpha := x.alpha - x.alpha / 256 + 256, increases := 0,
      incAt := s.now, incBytes := 0 }

/-- The rate-increase timer of 55 µs has run out, or the byte counter of 10 MB has (R65). -/
def increaseDue (s : State) (x : Qp) (byTimer : Bool) : Bool :=
  if byTimer then decide (x.incAt + 55000 ≤ s.now) else decide (10000000 ≤ x.incBytes)

/-- DCQCN_RATE_INCREASE (R65): half way to the target five times, then past it by a step the spec does not give; the
timer also decays α. -/
def dcqcnIncreaseEff (s : State) (q : Nat) (byTimer : Bool) : State :=
  let x := s.qp q
  if x.state ≠ .ready ∨ x.rate = 0 ∨ ¬ s.increaseDue x byTimer then s
  else
    let lr := s.lineRate x.port
    let alpha := if byTimer then x.alpha - x.alpha / 256 else x.alpha
    let (step, s) := if x.increases < 5 then (0, s) else s.drawNat
    let target := min lr (x.target + step)
    s.setQp q { x with
      target, rate := min lr ((x.rate + target) / 2), alpha, increases := x.increases + 1,
      incAt := if byTimer then s.now else x.incAt, incBytes := if byTimer then x.incBytes else x.incBytes - 10000000 }

/-- Data that an answer brings: what a GET or a returned value writes. -/
def answerData (s : State) (id : Nat) (bs : List Byte) : State :=
  s.modOp id (fun o => { o with out := match o.writes.reverse with | [] => o.out | r :: _ => [(r, bs.take r.len)] })

/-- The oldest outstanding operation of a queue pair is answered. -/
def takeAnswer (s : State) (q : Nat) (bs : Option (List Byte)) : State :=
  let x := s.qp q
  match x.outstanding with
  | [] => s
  | o :: r =>
    let s := s.setQp q { x with outstanding := r }
    let s := match bs with | none => s | some b => s.answerData o.op b
    s.answerOp o.op 0

def takeAnswers (s : State) (q : Nat) : Nat → State
  | 0 => s
  | n + 1 => takeAnswers (s.takeAnswer q none) q n

/-- ROCE_RESPONSE (R63, R64). -/
def roceResponseEff (s : State) (q : Nat) (r : RoceResp) : State :=
  let x := s.qp q
  if x.state ≠ .ready then s
  else match r with
    | .ack n => s.takeAnswers q (min n x.outstanding.length)
    | .readData d => s.takeAnswer q (some d)
    | .atomicOld v => s.takeAnswer q (some (leBytes 8 v.toNat))
    | .nak seqErr => if seqErr then s.roceTx x.port x.outstanding.length else s.qpError q 0x7201#16

/-- ROCE_ACK_TIMEOUT (R63, R64): 4.096 µs × 2^T; go-back-N sends all that is outstanding again. -/
def roceAckTimeoutEff (s : State) (q : Nat) : State :=
  let x := s.qp q
  match x.outstanding with
  | [] => s
  | o :: r =>
    if x.state ≠ .ready ∨ s.now - o.sentAt < 4096 * 2 ^ x.timeoutExp then s
    else if o.retries < x.retryLimit then
      (s.setQp q { x with outstanding := { o with retries := o.retries + 1, sentAt := s.now } :: r }).roceTx x.port x.outstanding.length
    else s.qpError q 0x7201#16

end State

/-! ## Meanings -/

def execPortEnable (n : Fin 16) (v : Word) (s : State) : Host.Outcome State Fault Refusal :=
  .next (s.gate 0 (State.portOff n) v (fun s => s.portEnableEff n v))
def execAdapt (n ctle : Fin 16) (taps : BitVec 30) (s : State) : Host.Outcome State Fault Refusal := .next (s.adaptEff n ctle taps)
def execBlockLock (n : LockReport) (s : State) : Host.Outcome State Fault Refusal :=
  .next (s.blockLockEff n.port n.skew n.remote)
def execBlockLockLoss (n : LockLoss) (s : State) : Host.Outcome State Fault Refusal :=
  .next (s.blockLockLossEff n.port n.amplitude)
def execHiBerEnter (n : Fin 16) (s : State) : Host.Outcome State Fault Refusal := .next (s.hiBerEnterEff n)
def execHiBerClear (n : Fin 16) (s : State) : Host.Outcome State Fault Refusal := .next (s.hiBerClearEff n)
def execFecCodeword (n : Fin 16) (errors : Nat) (correctable : Bool) (s : State) : Host.Outcome State Fault Refusal :=
  .next (s.fecCodewordEff n errors correctable)
def execTxPllUnlock (q : Fin 4) (fast : Bool) (s : State) : Host.Outcome State Fault Refusal := .next (s.txPllUnlockEff q fast)
def execTxPllRelock (q : Fin 4) (fast : Bool) (s : State) : Host.Outcome State Fault Refusal := .next (s.txPllRelockEff q fast)
def execTxLpiEnter (n : Fin 16) (s : State) : Host.Outcome State Fault Refusal := .next (s.txLpiEnterEff n)
def execLpiRefresh (n : Fin 16) (s : State) : Host.Outcome State Fault Refusal := .next (s.lpiRefreshEff n)
def execTxLpiWake (n : Fin 16) (s : State) : Host.Outcome State Fault Refusal := .next (s.txLpiWakeEff n)
def execRxLpi (n : Fin 16) (s : State) : Host.Outcome State Fault Refusal := .next (s.rxLpiEff n)
def execRxLpiWake (n : Fin 16) (s : State) : Host.Outcome State Fault Refusal := .next (s.rxLpiWakeEff n)
def execEyeGo (n : Fin 16) (v : Word) (s : State) : Host.Outcome State Fault Refusal :=
  .next (s.gate 0 (State.eyeOff n) v (fun s => s.eyeWrite n v))
def execEyeStop (n : Fin 16) (v : Word) (s : State) : Host.Outcome State Fault Refusal :=
  .next (s.gate 0 (State.eyeOff n) v (fun s => s.eyeWrite n v))
def execEyePointEnd (n : Fin 16) (errors : BitVec 48) (s : State) : Host.Outcome State Fault Refusal :=
  .next (s.eyePointEndEff n errors)
def execFrameReceived (n : Fin 17) (f : Frame) (s : State) : Host.Outcome State Fault Refusal := .next (s.frameReceivedEff n f)
def execRoceRequest (q : Fin 1024) (ce : Bool) (key : Word) (r : RoceReq) (s : State) : Host.Outcome State Fault Refusal :=
  .next (s.roceRequestEff q ce key r)
def execCnpReceived (q : Fin 1024) (s : State) : Host.Outcome State Fault Refusal := .next (s.cnpReceivedEff q)
def execRoceResponse (q : Fin 1024) (r : RoceResp) (s : State) : Host.Outcome State Fault Refusal := .next (s.roceResponseEff q r)
def execRoceAckTimeout (q : Fin 1024) (s : State) : Host.Outcome State Fault Refusal := .next (s.roceAckTimeoutEff q)
def execDcqcnRateIncrease (q : Fin 1024) (byTimer : Bool) (s : State) : Host.Outcome State Fault Refusal :=
  .next (s.dcqcnIncreaseEff q byTimer)

end Sys2Proof.Machine
end

