-- ==== Sys2Proof/Machine/LineU.lean ====
section
/-! DEFINITION. Lines of modules: members, the Equinox chain, barriers, proxies and what a peer's absence does (R360 to
R376), and the deadline of a part (R257, R370). -/

namespace Sys2Proof.Machine
namespace State

def lineIndex (s : State) : Nat := s.fld 0x2E0000 27 24
/-- The member that runs barriers for its segment: member 0, or one that has lost EQU (R362). -/
def isHead (s : State) : Bool := decide (s.lineIndex = 0) || s.line.isolated
def lineBit (m : Nat) : Half := BitVec.ofNat 16 (2 ^ m)
def hasBit (x : Half) (m : Nat) : Bool := decide (x.toNat / 2 ^ m % 2 = 1)
def setBitH (x : Half) (m : Nat) (b : Bool) : Half := if b then x ||| lineBit m else x &&& ~~~(lineBit m)
def membersOf (x : Half) : List Nat := (List.range 16).filter (hasBit x)

def ofProxy (s : State) (j : Nat) : ProxyIn := tget {} s.proxies j
def setProxy (s : State) (j : Nat) (x : ProxyIn) : State := { s with proxies := tset {} s.proxies j x }
def proxyOff (j : Nat) : Nat := 0x2E0200 + 8 * j
def proxyOn (s : State) (j : Nat) : Bool := s.flag (proxyOff j) 31
def proxyModule (s : State) (j : Nat) : Nat := s.fld (proxyOff j) 27 24
def proxyLane (s : State) (j : Nat) : Nat := s.fld (proxyOff j) 4 0
def proxySpan (s : State) (j : Nat) : Nat := s.fld (proxyOff j + 4) 23 0
/-- The lane field of a proxied record (R258, R370). -/
def proxyField (s : State) (j : Nat) : Nat := 0x200 + 32 * s.proxyModule j + s.fld (proxyOff j) 20 16

/-! ## Proxied parts (R370 to R373) -/

def isProxied (j slot : Nat) (p : Part) : Bool := decide (p.proxy = some j) && decide (p.slot = slot)

def setProxied (s : State) (j : Nat) (p : Part) : State := { s with parts := s.parts.map (fun x => if isProxied j p.slot x then p else x) }

/-- A proxied part sealed by its owner: class 2, its action as FS_PASS tells (R371). -/
def sealProxied (s : State) (j : Nat) (p : Part) (q : Sealing) : State :=
  let pass := s.flag (proxyOff j) 8
  let (s, action, noTarget) := if pass then (s, 0, false) else s.ejectPart p.lane p
  let body := s.recordBody (s.proxyField j) p q action noTarget
  ((s.setProxied j { p with sealed := true, late := q.late, cls := q.cls, action, status := q.status }).bump 0x280010 1).deliver p.lane body

/-- Unsealed slots of a proxy sealed in slot order, for its peer is absent (R372). -/
def sealProxyLost (s : State) (j : Nat) : Nat → State
  | 0 => s
  | n + 1 =>
    let l := s.parts.filter (fun p => decide (p.proxy = some j) && !p.sealed)
    match l.foldl (fun (a : Option Part) p => match a with | none => some p | some b => if p.slot < b.slot then some p else some b) none with
    | none => s
    | some p => sealProxyLost (s.sealProxied j p { cls := 2, status := 0x7043#16, lost := true }) j n

/-- A proxied lane handled as absent (R370, R372, R375). -/
def proxyAbsent (s : State) (j : Nat) : State :=
  let x := s.ofProxy j
  if x.absent then s
  else
    let s := s.setProxy j { x with absent := true, areas := 0 }
    let n := (s.parts.filter (fun p => decide (p.proxy = some j) && !p.sealed)).length
    if n = 0 then s else (s.sealProxyLost j n).raise 0x7043#16 0x0F (s.proxyModule j) n

def proxiesAbsent (s : State) : List Nat → State
  | [] => s
  | j :: r => proxiesAbsent (s.proxyAbsent j) r

/-! ## A member lost (R363, R368, R372) -/

/-- Queue pairs of a peer stop; every operation under way to it completes with a code. -/
def peerQps (s : State) (m : Nat) (code : Half) : List (Nat × Qp) → State
  | [] => s
  | (q, x) :: r =>
    peerQps (if x.peer = some m then (s.setQp q { x with state := .idle, outstanding := [] }).answerOps code x.outstanding else s) m code r

/-- MEMBER_ABSENT (R363, R372). -/
def memberAbsent (s : State) (m : Nat) : State :=
  if ¬ hasBit s.line.mask m then s
  else
    let s := { s with line := { s.line with mask := setBitH s.line.mask m false, absent := setBitH s.line.absent m true, missing := setBitH s.line.missing m false } }
    let s := (s.raise 0x7041#16 0x0F m).peerQps m 0x7042#16 s.qps
    s.proxiesAbsent ((List.range 16).filter (fun j => s.proxyOn j && decide (s.proxyModule j = m)))

def membersAbsent (s : State) : List Nat → State
  | [] => s
  | m :: r => membersAbsent (s.memberAbsent m) r

/-! ## Levels and revisions (R374, R375) -/

/-- A new negotiated level and MIXED_REV: proxies below level 2 run as if absent; 0x7044 posts once per onset. -/
def setLevel (s : State) (level : Nat) (mixed : Bool) : State :=
  let was := s.line.mixed
  let s := { s with line := { s.line with level, mixed } }
  let s := if level < 2 then s.proxiesAbsent ((List.range 16).filter s.proxyOn) else s
  if mixed ∧ ¬ was then s.raiseNow 0x7044#16 0x0F s.lineIndex else s

/-- The head's level and MIXED_REV over the members that take part (R374). -/
def ownLevel : Nat := 3
def recompute (s : State) : State :=
  let ps := s.line.peers.filter (fun p => hasBit s.line.mask p.1)
  s.setLevel (ps.foldl (fun a p => min a p.2.level) ownLevel) (ps.any (fun p => decide (p.2.rev ≠ State.arithRev)))

/-! ## Joining (R360, R361) -/

/-- What stands against `LINE_CFG.EN`. -/
def lineFails (s : State) : List (Half × Nat) :=
  let w := s.lineWindow
  (if s.reg 0x2E0004 = 0 ∨ s.fld 0x2E0000 23 20 = 0 ∨ s.fld 0x2E0000 23 20 < s.lineIndex then [(0x1041#16, 0)] else []) ++
  regionFails 0x1041#16 13 (s.exclusiveMeets 13 w.1 w.2)

/-- The lowest queue pair number never used. -/
def freshQp (s : State) : Option Nat := (List.range 1024).find? (fun q => decide (s.qp q = {}))

/-- New queue pairs to a peer: the line unit's, and one for each polder's VF (R360, R367). An absent port is refused with
0x1202 (R47), and a queue pair beyond the 1,024 with 0x3201 (R64). -/
def openQps (s : State) (m : Nat) : List Nat → State
  | [] => s
  | owner :: r =>
    let pt := s.fld (0x2E0044 + 8 * m) 3 0
    openQps (if ¬ s.portPresent pt then (s.report 0x1202#16 2 (0x2E0044 + 8 * m) 3 0 pt pt).last 0x1202#16 0x02 pt
      else match s.freshQp with
      | none => s.raiseNow 0x3201#16 0x02 pt
      | some q => s.setQp q { state := .ready, port := s.fld (0x2E0044 + 8 * m) 3 0, owner, key := s.reg 0x2E0004, len := s.lineWindow.2, rights := 7, peer := some m }) m r

/-- A peer whose descriptor agrees is joined, another is reported and handled as absent. -/
def joinPeers (s : State) : List (Nat × PeerDesc) → State
  | [] => s
  | (m, d) :: r =>
    joinPeers (if d.lineId = s.reg 0x2E0004 ∧ d.index = m ∧ d.hops = m ∧ m ≠ s.lineIndex ∧ m < 16 then
        { s with line := { s.line with peers := s.line.peers ++ [(m, d)] } }.openQps m ((64 + m) :: ((List.range 6).filter (fun p => (s.polder p).made)).map (· + 1))
      else (s.reportSubject 0x1041#16 2 m).last 0x1041#16 0x0F (m % 16)) r

/-- The member descriptor in the window (R361). -/
def memberDescriptor (s : State) : List Byte :=
  padTo 256 (leBytes 4 (s.reg 0x2E0004).toNat ++ leBytes 1 s.lineIndex ++ leBytes 1 (s.fld 0x2E0000 18 16) ++ leBytes 1 ownLevel ++ leBytes 1 0 ++
    leBytes 4 Config.firmwareVersion.toNat ++ leBytes 2 State.arithRev ++ leBytes 2 s.line.incarnation ++ idDigest)

/-- The member takes part once its links are calibrated (R360). -/
def takePart (s : State) : State :=
  if s.line.running ∧ s.line.calDone ∧ ¬ s.line.joined then
    { s with line := { s.line with joined := true, mask := setBitH s.line.mask s.lineIndex true } }
  else s

/-- Everything of a membership given up: queue pairs, peers, mask (R360, R372). -/
def leaveLine (s : State) : State :=
  let s := s.membersAbsent ((membersOf s.line.mask).filter (· ≠ s.lineIndex))
  { s with line := { s.line with
      running := false, joined := false, peers := [], mask := 0, arrival := 0, arrived := 0, arrivedFrom := none, notBefore := [], release := none } }

/-- A write of `LINE_CFG` (R360): EN rising joins, EN falling leaves. -/
def lineWrite (s : State) (v : Word) (peers : List (Nat × PeerDesc)) : State :=
  let was := s.line.running
  let s := s.writeFields 0x2E0000 0x0F (bits v 27 24) v
  let on := s.flag 0x2E0000 31
  if on ∧ ¬ was then
    let fails := s.lineFails
    if fails.isEmpty then
      let s := { s with line := { s.line with
        running := true, incarnation := (s.line.incarnation + 1) % 65536, peers := [], level := ownLevel, mixed := false
        isolated := s.line.lostUp && decide (s.lineIndex ≠ 0), tail := s.line.lostDn || decide (s.lineIndex = s.fld 0x2E0000 23 20) } }
      let s := { s with
        fwds := s.fwds.map (fun (p : Nat × FwdOut) => (p.1, {})), proxies := s.proxies.map (fun (p : Nat × ProxyIn) => (p.1, { p.2 with seq := 0 }))
        bonded := writeBytes s.bonded s.lineWindow.1 s.memberDescriptor }
      let s := (s.joinPeers peers).takePart
      if s.isHead then s.recompute else s
    else (s.setFld 0x2E0000 31 31 0).refuseAll 0x0F (bits v 27 24) 0x2E0000 31 0 fails
  else if was ∧ ¬ on then s.leaveLine
  else s

/-- LINE_JOIN (R360). -/
def lineJoinEff (s : State) (v : Word) (peers : List (Nat × PeerDesc)) : State := s.lineWrite v peers

/-! ## Calibration (R364) -/

/-- d of a member in ps. -/
def delayOf (s : State) : Nat := if s.lineIndex = 0 then 0 else Config.chainBefore s.lineIndex + s.line.upPs

/-- EQ_CAL (R364): GO calibrates the member's links. -/
def eqCalEff (s : State) (v : Word) (upPs dnPs : Nat) : State :=
  if ¬ bit v 0 then s
  else
    let s := { s with line := { s.line with calDone := true, calUp := upPs, calDn := dnPs, upPs, dnPs, newUp := none, newDn := none } }
    let s := { s with line := { s.line with d := s.delayOf, dTail := if s.isHead then Config.chainTail s.lineIndex else s.line.dTail } }
    s.takePart

def drifted (a b : Nat) : Bool := decide (500 < a - b) || decide (500 < b - a)

/-- EQ_REMEASURE (R364): the new delays wait for the next release; a drift over 0.5 ns posts 0x4042. -/
def eqRemeasureEff (s : State) (upPs dnPs : Nat) : State :=
  let s := { s with line := { s.line with newUp := some upPs, newDn := some dnPs } }
  if s.line.calDone ∧ (drifted upPs s.line.calUp ∨ drifted dnPs s.line.calDn) then s.raise 0x4042#16 0x0F s.lineIndex else s

/-! ## Barriers (R365, R366) -/

/-- The barrier that is next: the target. -/
def target (s : State) : Nat := s.line.released + 1

/-- Participating members that count for the target. -/
def counted (s : State) : Half :=
  (membersOf s.line.mask).foldl (fun a m => if s.line.notBefore.any (fun x => decide (x.1 = m) && decide (s.target < x.2)) then a else a ||| lineBit m) 0

/-- The head releases the target with a LATE mask: the next downstream frame carries it. -/
def releaseTarget (s : State) (late : Half) : State :=
  let n := s.target
  { s with line := { s.line with
      release := some (n, late), released := n, arrived := 0, arrivedFrom := none, notBefore := s.line.notBefore.filter (fun x => decide (n + 1 < x.2)) } }

/-- The head's own arrival, and the release once every bit that counts has arrived. -/
def headCheck (s : State) : State :=
  if ¬ s.isHead ∨ ¬ s.line.joined ∨ s.line.release.isSome then s
  else
    let own := decide (s.target ≤ s.line.arrival)
    let arr := if own then s.line.arrived ||| lineBit s.lineIndex else s.line.arrived
    let s := { s with line := { s.line with arrived := arr, arrivedFrom := if arr = 0 then none else some (s.line.arrivedFrom.getD s.now) } }
    if s.counted ≠ 0 ∧ s.counted &&& arr = s.counted then s.releaseTarget 0 else s

/-- PRESET is applied at a release (R366, R374). -/
def presetBits (s : State) : Nat := if 3 ≤ s.line.level then s.fld 0x2E0100 15 12 else 0

/-- EQ_HEAD_FRAME (R362, R366): the head's next downstream frame carries a release; its own action instant follows. -/
def eqHeadFrameEff (s : State) : State :=
  if ¬ s.isHead ∨ ¬ s.line.running then s
  else match s.line.release with
    | none => s
    | some (n, late) =>
      { s with line := { s.line with
          release := none, action := some (n, late, s.line.absent, decide (s.presetBits ≠ 0), s.now + (s.line.dTail + 200000) / 1000) } }.headCheck

/-- The arrival of a number at the member's arrival port or `EQ_ARRIVE` (R365). -/
def arrive (s : State) (n : Nat) : State :=
  if ¬ s.line.running then s else { s with line := { s.line with arrival := max s.line.arrival n } }.headCheck

/-- EQ_ARRIVE. -/
def eqArriveEff (s : State) (v : Word) : State := s.arrive v.toNat

/-- BARRIER_TIMEOUT (R365): BT µs after the first ARRIVED bit the target is released with a LATE mask. -/
def barrierTimeoutEff (s : State) : State :=
  match s.line.arrivedFrom with
  | none => s
  | some t =>
    if ¬ s.isHead ∨ s.line.release.isSome ∨ s.now < t + s.fld 0x2E0100 31 16 * 1000 then s
    else (s.releaseTarget (s.counted &&& ~~~s.line.arrived)).headCheck

def applyPresets (s : State) : List Nat → State
  | [] => s
  | n :: r => applyPresets (s.applyPreset n) r

/-- BARRIER_RELEASE_ACTION (R364, R366): the release word and flags, presets, the stamp, LATE and ABSENT counted. -/
def barrierReleaseActionEff (s : State) : State :=
  match s.line.action with
  | none => s
  | some (n, late, absent, preset, t) =>
    if s.now < t then s
    else
      let a := s.reg64 0x2E0104 / 16 * 16
      let s := s.putBonded a (leBytes 8 (max (s.word64 a) n))
      let s := s.putBonded (a + 8) (leBytes 8 (late.toNat + absent.toNat * 65536 + (if preset then 2 ^ 32 else 0)))
      let s := if preset then s.applyPresets ((List.range 4).filter (fun i => s.fld 0x2E0100 15 12 / 2 ^ i % 2 = 1)) else s
      let s := { s with line := { s.line with
        action := none, lastTime := s.time.t, released := max s.line.released n, absent := 0
        upPs := s.line.newUp.getD s.line.upPs, dnPs := s.line.newDn.getD s.line.dnPs, newUp := none, newDn := none } }
      let s := { s with line := { s.line with d := s.delayOf } }
      let s := if absent = 0 then s else s.bump 0x2E0138 1
      let s := if late = 0 then s else (s.bump 0x2E0134 1).raise 0x4041#16 0x0F s.lineIndex 1 (leBytes 2 late.toNat)
      s.pollAll (s.allCtxs.map (·.1))

/-! ## Frames (R362, R363) -/

/-- EQ_LINK_LOSS (R362): 0x5041; beyond a lost EQD all are absent, before a lost EQU all are, and the member heads its
segment. -/
def eqLinkLossEff (s : State) (up : Bool) : State :=
  let s := s.raise 0x5041#16 0x0F s.lineIndex 1 (leBytes 1 (if up then 0 else 1))
  let i := s.lineIndex
  if up then
    (({ s with line := { s.line with lostUp := true, isolated := true, failedUp := 0 } }.membersAbsent ((List.range i))).recompute).headCheck
  else { s with line := { s.line with lostDn := true, tail := true, failedDn := 0 } }.membersAbsent ((List.range 16).filter (fun m => decide (i < m)))

/-- A frame discarded: three in a row lose the link. -/
def badFrame (s : State) (up : Bool) : State :=
  let s := s.bump 0x2E0130 1
  let n := (if up then s.line.failedUp else s.line.failedDn) + 1
  if 3 ≤ n then s.eqLinkLossEff up
  else { s with line := if up then { s.line with failedUp := n } else { s.line with failedDn := n } }

/-- EQ_DOWNSTREAM_FRAME (R362, R363, R366): mask, level and D_tail as the head gives them; a release sets the action
instant. -/
def eqDownstreamFrameEff (s : State) (f : EqDown) : State :=
  if ¬ s.line.running ∨ s.lineIndex = 0 then s
  else if ¬ f.crcOk then s.badFrame true
  else
    let s := { s with line := { s.line with failedUp := 0, lostUp := false, isolated := false } }
    let s := s.membersAbsent ((membersOf s.line.mask).filter (fun m => decide (m ≠ s.lineIndex) && !hasBit f.mask m))
    let s := { s with line := { s.line with mask := f.mask, dTail := f.dTail * 125 } }
    let s := s.setLevel f.level f.mixed
    match f.typ with
    | .release =>
      let ps := s.line.dTail - s.line.d + 200000
      { s with line := { s.line with
          action := some (f.barrier.toNat, f.late, s.line.absent, f.preset, s.now + ps / 1000) } }
    | _ => s

/-- A member's bit comes back (R363, R365). -/
def memberBack (s : State) (m : Nat) : State :=
  { s with line := { s.line with
      mask := setBitH s.line.mask m true, missing := setBitH s.line.missing m false
      notBefore := if s.line.arrived = 0 then s.line.notBefore else s.line.notBefore ++ [(m, s.target + 1)] } }

def membersBack (s : State) : List Nat → State
  | [] => s
  | m :: r => membersBack (s.memberBack m) r

/-- EQ_UPSTREAM_FRAME (R363, R365): at the head, arrivals and bits; one missing from two frames in a row is absent. -/
def eqUpstreamFrameEff (s : State) (f : EqUp) : State :=
  if ¬ s.line.running then s
  else if ¬ f.crcOk then s.badFrame false
  else
    let s := { s with line := { s.line with failedDn := 0, lostDn := false } }
    if ¬ s.isHead then s
    else
      let gone := (membersOf s.line.mask).filter (fun m => decide (m ≠ s.lineIndex) && !hasBit f.mask m)
      let twice := gone.filter (hasBit s.line.missing)
      let s := { s with line := { s.line with missing := gone.foldl (fun a m => a ||| lineBit m) 0, arrived := f.arrived } }
      let s := s.membersAbsent twice
      let s := s.membersBack ((membersOf f.mask).filter (fun m => decide (m ≠ s.lineIndex) && !hasBit s.line.mask m))
      s.recompute.headCheck

/-! ## Proxy messages (R370, R373) -/

/-- Whether a message is the next; a gap posts 0x2041 and has the lane handled as absent until the next CLOSE. -/
def proxySeq (s : State) (m : ProxyMsg) : State :=
  let j : Nat := m.proxy
  let x := s.ofProxy j
  let s' := s.setProxy j { x with seq := m.seq.toNat + 1, read := x.read + 1 }
  if m.seq.toNat = x.seq then s' else (s'.raise 0x2041#16 0x0F (s.proxyModule j)).proxyAbsent j

/-- PROXY_ADMIT (R370); over the verdict rate, the slot is sealed class 3 at once (R16). -/
def proxyAdmitEff (s : State) (m : ProxyMsg) : State :=
  let j : Nat := m.proxy
  if ¬ s.proxyOn j then s
  else
    let s := s.proxySeq m
    if (s.ofProxy j).absent then s
    else
      let k := s.proxyLane j
      let p : Part := { lane := k, slot := m.slot.toNat, firstBlock := m.block, lastBlock := m.block, x0 := 0, x1 := s.sluiceCols k - 1
                        on := m.on, off := m.off, deadline := m.deadline, offKnown := true, proxy := some j }
      let (s, ok) := s.rateTake
      let s := { s.setProxy j { s.ofProxy j with nextSlot := m.slot.toNat + 1 } with parts := s.parts ++ [p] }
      if ok then s else (s.sealProxied j p { cls := 3, status := 0x3040#16 }).rateEvent

/-- PROXY_SEAL (R370): the record copied with PEER set, its ejection written where its action is eject. -/
def proxySealEff (s : State) (m : ProxyMsg) : State :=
  let j : Nat := m.proxy
  if ¬ s.proxyOn j then s
  else
    let s := s.proxySeq m
    if (s.ofProxy j).absent then s
    else match s.parts.find? (isProxied j m.slot.toNat) with
      | none => s
      | some p =>
        if p.sealed then s
        else
          let b := padTo 252 (m.record.drop 4)
          let p := { p with on := m.on, off := m.off, x0 := fieldAt b 0x24 2, x1 := fieldAt b 0x26 2 }
          let act := fieldAt b 1 1
          let (s, action, noTarget) := if act = 1 then s.ejectPart p.lane p else (s, act, false)
          let flags := fieldAt b 8 4 % 2 ^ 19 + 2 ^ 19
          let flags := if noTarget then flags ||| 2 ^ 17 else flags
          let body := b.take 1 ++ leBytes 1 action ++ slice b 2 2 ++ leBytes 2 (s.proxyField j) ++ slice b 6 2 ++ leBytes 4 flags ++ b.drop 12
          let s := s.setProxied j { p with sealed := true, cls := fieldAt b 0 1, action, status := BitVec.ofNat 16 (fieldAt b 2 2) }
          (s.bump 0x280010 1).deliver p.lane body

/-- The last area part ends where the first CLOSE begins: its OFF entries move (R373). -/
def endAreas (s : State) (j : Nat) (on : Fine) : State :=
  let x := s.ofProxy j
  if x.areas = 0 then s
  else
    let n := s.bindAxis (s.proxyLane j)
    let dir := s.bindDir (s.proxyLane j)
    let start := along dir x.lastOff (((x.areas - 1) * s.proxySpan j * 65536 : Nat) : Int)
    let off := along dir x.lastOff ((x.areas * s.proxySpan j * 65536 : Nat) : Int)
    let dst := if beyond dir on start then on else start
    s.setCal n ((s.calOf n).map (fun e => if e.kind = .off ∧ e.pos = off ∧ e.tag = BitVec.ofNat 16 (x.nextSlot - 1) then { e with pos := dst } else e))

/-- PROXY_CLOSE (R370, R373). -/
def proxyCloseEff (s : State) (m : ProxyMsg) : State :=
  let j : Nat := m.proxy
  if ¬ s.proxyOn j then s
  else
    let s := s.proxySeq m
    let s := if (s.ofProxy j).absent ∧ 2 ≤ s.line.level then s.endAreas j m.on else s
    let x := s.ofProxy j
    s.setProxy j { x with lastOff := m.off, absent := x.absent && decide (s.line.level < 2), areas := 0 }

/-- PROXY_RING_FULL (R370): forwarding of a lane stops, and 0x7046 posts. -/
def proxyRingFullEff (s : State) (k : Nat) : State :=
  if ¬ s.forwarded k ∨ (tget ({} : FwdOut) s.fwds k).stopped then s
  else
    let f : FwdOut := tget {} s.fwds k
    { s with fwds := tset {} s.fwds k { f with stopped := true, fullSince := some (f.fullSince.getD (s.now - 1000000)) } }.raise 0x7046#16 0x0F (s.fld (fwdOff k) 3 0)

/-- PEER_AREA_PART (R373): while a proxied lane is absent, the next area part, once the axis plus DIST reaches its start. -/
def peerAreaPartEff (s : State) (j : Nat) : State :=
  let x := s.ofProxy j
  if ¬ s.proxyOn j ∨ ¬ x.absent ∨ s.line.level < 3 then s
  else
    let k := s.proxyLane j
    let dir := s.bindDir k
    let start := along dir x.lastOff ((x.areas * s.proxySpan j * 65536 : Nat) : Int)
    if ¬ beyond dir (along dir (s.posAt (s.bindAxis k) s.time.t) (s.bindDist k)) start then s
    else
      let p : Part := { lane := k, slot := x.nextSlot, x0 := 0, x1 := s.sluiceCols k - 1, on := start
                        off := along dir start ((s.proxySpan j * 65536 : Nat) : Int), deadline := start, offKnown := true, proxy := some j }
      let s := s.rateTake.1
      let s := { s.setProxy j { x with areas := x.areas + 1, nextSlot := x.nextSlot + 1 } with parts := s.parts ++ [p] }
      s.sealProxied j p { cls := 2, status := 0x7043#16, lost := true }

/-- The deadline of a proxied part: class 2, LATE (R370). -/
def proxyDeadline (s : State) (k slot : Nat) : State :=
  match s.parts.find? (fun p => decide (p.lane = k) && decide (p.slot = slot) && p.proxy.isSome && !p.sealed) with
  | none => s
  | some p =>
    let n := s.bindAxis k
    if ¬ s.vuOn ∨ s.axisFault n ∨ ¬ beyond (s.bindDir k) (s.posAt n s.time.t) p.deadline then s
    else (s.sealProxied (p.proxy.getD 0) p { cls := 2, status := 0x4C01#16, late := true }).raise 0x4C01#16 0x07 (0x30 + p.proxy.getD 0) 1 (leBytes 8 slot)

/-- DEADLINE of a slot: the lane's own part, or one it holds for a peer. -/
def deadlineAny (s : State) (k slot : Nat) : State := (s.deadlineEff k slot).proxyDeadline k slot

end State

/-! ## Meanings -/

def execDeadline (k : Fin 18) (slot : Nat) (s : State) : Host.Outcome State Fault Refusal := .next (s.deadlineAny k slot)
def execLineJoin (v : Word) (ps : List (Nat × PeerDesc)) (s : State) : Host.Outcome State Fault Refusal :=
  .next (s.gate 0 0x2E0000 v (fun s => s.lineJoinEff v ps))
def execEqHeadFrame (s : State) : Host.Outcome State Fault Refusal := .next s.eqHeadFrameEff
def execEqDownstreamFrame (f : EqDown) (s : State) : Host.Outcome State Fault Refusal := .next (s.eqDownstreamFrameEff f)
def execEqUpstreamFrame (f : EqUp) (s : State) : Host.Outcome State Fault Refusal := .next (s.eqUpstreamFrameEff f)
def execEqLinkLoss (up : Bool) (s : State) : Host.Outcome State Fault Refusal := .next (s.eqLinkLossEff up)
def execEqCal (v : Word) (u d : Nat) (s : State) : Host.Outcome State Fault Refusal :=
  .next (s.gate 0 0x2E0120 v (fun s => s.eqCalEff v u d))
def execEqRemeasure (u d : Nat) (s : State) : Host.Outcome State Fault Refusal := .next (s.eqRemeasureEff u d)
def execEqArrive (v : Word) (s : State) : Host.Outcome State Fault Refusal :=
  .next (s.gate 0 0x2E010C v (fun s => s.eqArriveEff v))
def execBarrierTimeout (s : State) : Host.Outcome State Fault Refusal := .next s.barrierTimeoutEff
def execBarrierReleaseAction (s : State) : Host.Outcome State Fault Refusal := .next s.barrierReleaseActionEff
def execProxyAdmit (m : ProxyMsg) (s : State) : Host.Outcome State Fault Refusal := .next (s.proxyAdmitEff m)
def execProxySeal (m : ProxyMsg) (s : State) : Host.Outcome State Fault Refusal := .next (s.proxySealEff m)
def execProxyClose (m : ProxyMsg) (s : State) : Host.Outcome State Fault Refusal := .next (s.proxyCloseEff m)
def execProxyRingFull (k : Fin 18) (s : State) : Host.Outcome State Fault Refusal := .next (s.proxyRingFullEff k)
def execPeerAreaPart (j : Fin 16) (s : State) : Host.Outcome State Fault Refusal := .next (s.peerAreaPartEff j)

end Sys2Proof.Machine
end

