-- ==== Sys2Proof/Machine/Culvert.lean ====
section
/-! DEFINITION. Culvert operations: copies, atomics and signals within the module and to other members, the verdict intake
and the arrival port (R228, R230, R232 to R236, R250, R365, R367, R368, R374, R375). -/

namespace Sys2Proof.Machine

/-! ## What a load refuses (R228, R230, R232, R233, R367) -/

/-- A region of the tile store, pool store or bonded memory that is no device port. -/
def isLocal (r : Region) : Bool :=
  decide (r.space = .tile) || decide (r.space = .pool) || (decide (r.space = .bonded) && decide (r.addr < portBase))

/-- A target of a PUT or GET. -/
def isTarget (r : Region) : Bool :=
  decide (r.space = .pool) || decide (r.space = .bonded) || decide (r.space = .host) || decide (r.space = .remote)

/-- A word that an atomic or a signal acts on. -/
def isWord (r : Region) : Bool :=
  (decide (r.space = .pool) || decide (r.space = .bonded) || decide (r.space = .remote)) && decide (r.addr % 8 = 0)

/-- The common part of a Culvert operation: SIGNAL set exactly where a signal is carried, on an aligned word. -/
def sigOk (h : OpHdr) (sg : Option SignalArg) : Bool := decide (h.sig = sg.isSome) && (match sg with | none => true | some x => isWord x.word)

def putOk (h : OpHdr) : Bool :=
  match h.reads, h.writes with
  | [r], [w] => isLocal r && isTarget w && decide (r.len = w.len)
  | _, _ => false

def getOk (h : OpHdr) : Bool :=
  match h.reads, h.writes with
  | [r], [w] => isTarget r && isLocal w && decide (r.len = w.len)
  | _, _ => false

/-- Regions of an atomic: its target and the return word. -/
def atomicOk (h : OpHdr) (needsReturn : Bool) : Bool :=
  match h.reads, h.writes with
  | [], [w] => !needsReturn && isWord w && decide (w.len = 8)
  | [], [w, r] => isWord w && decide (w.len = 8) && isLocal r && decide (r.len = 8)
  | _, _ => false

def addOk (h : OpHdr) (w : AddWidth) : Bool :=
  atomicOk h false && (h.vary || (decide (w = .int32 ∨ w = .int64) && decide (h.writes.length = 1))) &&
  (decide (w = .int64) || h.writes.all (fun r => decide (r.space ≠ .remote)))

def signalOk (h : OpHdr) (sg : SignalArg) : Bool :=
  isWord sg.word && (match h.reads, h.writes with | [], [w] => decide (w.space = sg.word.space) && decide (w.addr = sg.word.addr) | _, _ => false)

/-! ## Arithmetic of ADD (R232) -/

/-- The target word after an ADD: integers wrap, FP32 rounds under R147 and BF16 half to even. -/
def addWord (w : AddWidth) (old v : Nat) : Nat :=
  match w with
  | .int64 => (old + v) % 2 ^ 64
  | .int32 => old / 2 ^ 32 * 2 ^ 32 + (old + v) % 2 ^ 32
  | .fp32 => old / 2 ^ 32 * 2 ^ 32 + (fadd (BitVec.ofNat 32 old) (BitVec.ofNat 32 v)).toNat
  | .bf16 => old / 2 ^ 16 * 2 ^ 16 + bf16F.pack (f32 (fadd (widen bf16F (old % 2 ^ 16)) (widen bf16F (v % 2 ^ 16))))

namespace State

/-! ## Other members (R367, R368, R372, R374, R375) -/

/-- The member a region of space 5 names, and the offset in its window (R228). -/
def memberOf (r : Region) : Nat := r.addr / 2 ^ 56

/-- The queue pair of a polder's function to a member; it is opened where a polder has come since the join (R367). -/
def findPeerQp (s : State) (m owner : Nat) : Option Nat :=
  (s.qps.find? (fun (p : Nat × Qp) => decide (p.2.peer = some m) && decide (p.2.owner = owner) && decide (p.2.state ≠ .idle))).map (·.1)
def withPeerQp (s : State) (m owner : Nat) : State :=
  if s.participates m ∧ (s.findPeerQp m owner).isNone then s.openQps m [owner] else s

/-- What keeps an operation to a member from being sent: absence, a queue pair in error, a level too low; 0 where nothing does. -/
def remoteCode (s : State) (c m level : Nat) : Half :=
  if ¬ s.participates m then 0x7042#16
  else if s.line.level < level then 0x7045#16
  else match s.findPeerQp m (s.polderOf c + 1) with
    | none => 0x7042#16
    | some q => if (s.qpNow q).state = .ready then 0 else 0x7201#16

/-- A READ or an atomic to a member must wait: 16 are outstanding on the queue pair (R63). -/
def readsFull (s : State) (c m : Nat) : Bool :=
  match s.findPeerQp m (s.polderOf c + 1) with
  | none => false
  | some q => decide (16 ≤ ((s.qpNow q).outstanding.filter (·.read)).length)

/-- An operation goes out to a member: it is outstanding on the queue pair, and its frames are sent. -/
def sendTo (s : State) (id c m bytes : Nat) (read : Bool := false) : State :=
  match s.findPeerQp m (s.polderOf c + 1) with
  | none => s
  | some q =>
    let x := s.qpNow q
    (s.setQp q { x with outstanding := x.outstanding ++ [{ op := id, read, sentAt := s.now }] }).qpSend q bytes

/-- A Culvert operation on another member at its issue: sent, or held with a code. -/
def remoteIssue (s : State) (h : OpHdr) (m level bytes : Nat) (excess : Half) (read : Bool := false) : OpRes × State :=
  let s := s.withPeerQp m (s.polderOf h.ctx + 1)
  let code := if excess = 0 then s.remoteCode h.ctx m level else excess
  if code = 0 then ({}, s.sendTo s.nextOp h.ctx m bytes read) else ({ fault := code }, s)

/-- The entry of an operation sent to another member waits for its answer. -/
def awaitAnswer (sg : Option SignalArg) (remote : Bool) (o : OpEntry) : OpEntry :=
  { o with sig := if o.fault = 0 then sg else none, remote := remote && decide (o.fault = 0) }

/-- The signal word of an operation lies where it may be raised. -/
def sigReach (s : State) (h : OpHdr) (sg : Option SignalArg) : Bool :=
  match sg with
  | none => true
  | some x => decide (x.word.space = .remote) || (decide (x.word.space = .bonded) && decide (x.word.addr = arrivalPort)) ||
      s.mayWrite h.eng h.ctx { x.word with len := 8 }

/-- A Culvert operation issues (R116, R234): `f` is its effect at issue, kept from memory it may not reach. -/
def culvertIssue (s : State) (h : OpHdr) (opc : Nat) (sg : Option SignalArg) (remote : Bool) (f : State → OpRes × State) : State :=
  s.issue h .culvert opc (fun s => if s.sigReach h sg then f s else ({ fault := 0x6601#16 }, s)) (awaitAnswer sg remote)

/-! ## PUT (R232, R250, R367, R369) -/

/-- What a submission's parts take from the task that hands it off (R133, R219, R231): an operation with VARY before it in
the task counts whether it has retired or not. -/
def taskMarks (s : State) (h : OpHdr) : Marks :=
  match (s.engine h.eng).task with
  | none => {}
  | some t =>
    { varied := t.varied || s.ops.any (fun o => decide (o.ctx = t.ctx) && decide (o.job = t.job) && decide (o.task = t.idx) && o.vary)
      excursion := t.excursion, recipe := s.taskRecipe h.ctx t.job }

/-- A submission of a replay session keeps the layout, its decisions naming parts that the session has admitted. -/
def sessionValid (s : State) (q : Session) (u : Submission) : Bool :=
  s.submissionValid { u with entries := u.entries.filter (fun e => e.kind ≠ 2) } && u.entries.all (s.entryValid u.ctx true) &&
  u.entries.all (fun e => decide (e.kind ≠ 2) || q.admits.any (fun a => decide (a.1 = u.ctx) && decide (a.2.firstBlock = e.firstBlock) && decide (a.2.part = e.part)))

/-- A submission at the verdict intake (R250, R251, R307). -/
def intake (s : State) (h : OpHdr) (u : Submission) : OpRes × State :=
  let m := s.taskMarks h
  match s.sessionOf h.ctx with
  | some (i, q) => if s.sessionValid q u then ({}, s.sessionSubmit i q u m) else ({ fault := 0x2C01#16 }, s)
  | none => if s.submissionValid u then ({}, s.submit u m) else ({ fault := 0x2C01#16 }, s)

/-- The program of the task that an operation belongs to has kind 2 (R226). -/
def kindTwo (s : State) (h : OpHdr) : Bool :=
  match (s.engine h.eng).task with
  | none => false
  | some t => match s.findJob h.ctx t.job with
    | none => false
    | some j => match (s.recipe j.recipe).bind (fun r => r.progs[j.code]?) with | none => false | some p => decide (p.kind = 2)

/-- A member shows another arithmetic revision (R369). -/
def otherRev (s : State) (m : Nat) : Bool := s.line.peers.any (fun p => decide (p.1 = m) && decide (p.2.rev ≠ State.arithRev))

def putOp (h : OpHdr) (t : PutTarget) (s : State) : OpRes × State :=
  match h.writes with
  | [w] =>
    if w.space = .remote then
      s.remoteIssue h (memberOf w) 1 w.len (if s.kindTwo h ∧ s.otherRev (memberOf w) then 0x7047#16 else 0)
    else if w.space = .bonded ∧ portBase ≤ w.addr then
      match t with
      | .intake u => if w.addr = intakePort then s.intake h u else ({ fault := 0x6601#16 }, s)
      | .region => ({ fault := if w.addr = intakePort then 0x2C01#16 else 0x6601#16 }, s)
    else ({ writes := [(w, s.opRead h 0)] }, s)
  | _ => ({}, s)

/-- PUT. -/
def putEff (s : State) (h : OpHdr) (t : PutTarget) (sg : Option SignalArg) : State :=
  if putOk h && sigOk h sg then s.culvertIssue h 0 sg (h.writes.any (fun w => w.space = .remote)) (putOp h t) else s

/-! ## GET (R232) -/

def getOp (h : OpHdr) (s : State) : OpRes × State :=
  match h.reads with
  | [r] =>
    if r.space = .remote then s.remoteIssue h (memberOf r) 1 0 0 true
    else if r.space = .bonded ∧ portBase ≤ r.addr then ({ fault := 0x6601#16 }, s)
    else ({ writes := opWrite h 0 (s.opRead h 0) }, s)
  | _ => ({}, s)

/-- GET. -/
def getEff (s : State) (h : OpHdr) (sg : Option SignalArg) : State :=
  if getOk h && sigOk h sg && !(h.reads.any (fun r => decide (r.space = .remote) && s.readsFull h.ctx (memberOf r))) then s.culvertIssue h 1 sg (h.reads.any (fun r => r.space = .remote)) (getOp h) else s

/-! ## ADD and CAS (R232, R236) -/

/-- An atomic within the module: the target takes its new value at once, and the old one is returned. -/
def atomicOp (h : OpHdr) (f : Nat → Nat) (s : State) : OpRes × State :=
  match h.writes with
  | [] => ({}, s)
  | w :: r =>
    if w.space = .remote then s.remoteIssue h (memberOf w) 2 0 0 true
    else if ¬ s.mayWrite h.eng h.ctx w then ({ fault := 0x6601#16 }, s)
    else
      let old := leNat ((s.readRegion h.eng h.ctx none w).getD [])
      ({ writes := r.map (fun x => (x, leBytes 8 old)) }, s.writeRegion h.eng h.ctx w (leBytes 8 (f old)))

/-- The task of an engine has had an ADD or CAS applied, if one has just issued without a fault. -/
def markAtomic (s : State) (e id : Nat) : State :=
  match s.op id, (s.engine e).task with
  | some o, some t => if o.fault = 0 then s.setEngine e { s.engine e with task := some { t with atomic := true } } else s
  | _, _ => s

/-- An atomic issues; signal words and WAITs of others see its value at once. -/
def atomicEff (s : State) (h : OpHdr) (opc : Nat) (sg : Option SignalArg) (f : Nat → Nat) : State :=
  if h.writes.any (fun w => decide (w.space = .remote) && s.readsFull h.ctx (memberOf w)) then s else
  let s' := (s.culvertIssue h opc sg (h.writes.any (fun w => w.space = .remote)) (atomicOp h f)).markAtomic h.eng s.nextOp
  s'.pollAll (s'.allCtxs.map (·.1))

/-- ADD. -/
def addEff (s : State) (h : OpHdr) (w : AddWidth) (v : DWord) (sg : Option SignalArg) : State :=
  if addOk h w && sigOk h sg then s.atomicEff h 2 sg (fun old => addWord w old v.toNat) else s

/-- CAS. -/
def casEff (s : State) (h : OpHdr) (cmp swap : DWord) (sg : Option SignalArg) : State :=
  if atomicOk h true && h.vary && sigOk h sg then s.atomicEff h 3 sg (fun old => if old = cmp.toNat then swap.toNat else old) else s

/-! ## SIGNAL (R233) -/

def signalOp (h : OpHdr) (sg : SignalArg) (s : State) : OpRes × State :=
  if sg.word.space = .remote then s.remoteIssue h (memberOf sg.word) 1 8 0 else ({}, s)

/-- SIGNAL. -/
def signalEff (s : State) (h : OpHdr) (sg : SignalArg) : State :=
  if signalOk h sg then
    let remote := decide (sg.word.space = .remote)
    s.issue { h with sig := true } .culvert 4 (fun s => if s.sigReach h (some sg) then signalOp h sg s else ({ fault := 0x6601#16 }, s))
      (awaitAnswer (if remote then none else some sg) remote)
  else s

/-! ## Completing (R233, R234) -/

/-- A signal raised in the module: the maximum at the bank, the arrival port's own rule, then the interrupt. -/
def raiseSignal (s : State) (o : OpEntry) (sg : SignalArg) : State :=
  let w : Region := { sg.word with len := 8 }
  let s :=
    if w.space = .bonded ∧ w.addr = arrivalPort then s.arrive sg.v.toNat
    else s.writeRegion o.eng o.ctx w (leBytes 8 (max (leNat ((s.readRegion o.eng o.ctx none w).getD [])) sg.v.toNat))
  match sg.notify with | none => s | some c => s.notify c

/-- A signal to another member is sent once the data of its operation is in place; its answer completes the operation. -/
def sendSignal (s : State) (o : OpEntry) (sg : SignalArg) : State :=
  let m := memberOf sg.word
  let s := s.withPeerQp m (s.polderOf o.ctx + 1)
  let code := s.remoteCode o.ctx m 1
  if code = 0 then (s.sendTo o.id o.ctx m 8).modOp o.id (fun x => { x with sig := none, remote := true })
  else (s.modOp o.id (fun x => { x with sig := none, fault := code })).opCompleteEff o.id

/-- OP_COMPLETE (R116, R234): the unit has finished; then the operation's signal becomes visible. -/
def completeAny (s : State) (id : Nat) : State :=
  match s.op id with
  | none => s.dropReply id
  | some o =>
    match o.sig with
    | none => let s := s.opCompleteEff id; if o.cls = .culvert then s.pollAll (s.allCtxs.map (·.1)) else s
    | some sg =>
      if o.complete ∨ ¬ o.met ∨ o.remote then s
      else if o.fault ≠ 0 then s.opCompleteEff id
      else if sg.word.space = .remote then s.sendSignal o sg
      else let s := (s.opCompleteEff id).raiseSignal o sg; s.pollAll (s.allCtxs.map (·.1))

end State

/-! ## Meanings -/

def execOpComplete (id : Nat) (s : State) : Host.Outcome State Fault Refusal := .next (s.completeAny id)
def execPut (h : OpHdr) (t : PutTarget) (sg : Option SignalArg) (s : State) : Host.Outcome State Fault Refusal := .next (s.putEff h t sg)
def execGet (h : OpHdr) (sg : Option SignalArg) (s : State) : Host.Outcome State Fault Refusal := .next (s.getEff h sg)
def execCulvertAdd (h : OpHdr) (w : AddWidth) (v : DWord) (sg : Option SignalArg) (s : State) : Host.Outcome State Fault Refusal :=
  .next (s.addEff h w v sg)
def execCas (h : OpHdr) (cmp swap : DWord) (sg : Option SignalArg) (s : State) : Host.Outcome State Fault Refusal :=
  .next (s.casEff h cmp swap sg)
def execSignal (h : OpHdr) (sg : SignalArg) (s : State) : Host.Outcome State Fault Refusal := .next (s.signalEff h sg)

end Sys2Proof.Machine
end

