-- ==== Sys2Proof/Machine/Faults.lean ====
section
/-! DEFINITION. Faults and recovery: Vigil's detections, the engine, compute-domain and processor resets, escalation counts,
the wardens' lease, and the Hexkeug record (R236, R395 to R421, R200, R266, R273, R274, R300, R315). -/

namespace Sys2Proof.Machine
namespace State

/-! ## The Hexkeug record and replacement (R415, R417 to R420) -/

/-- A code of the Dike domain reported with its payload. -/
def dike (s : State) (code : Half) (inst : Nat) (payload : List Byte) : State := s.raise code 0x0C inst 1 payload

/-- A flush as its event causes it (R419): the record as it stands waits for the next flash slot. -/
def flushDue (s : State) (code : Half) : State :=
  { s with vig := { s.vig with flushes := s.vig.flushes ++
      [{ code, head := s.log.hexHead, boot := BitVec.ofNat 32 (s.vig.powerOns.toNat * 65536 + s.vig.boots.toNat), record := s.log.hex }] } }

def hexEntryBytes (e : HexEntry) : List Byte :=
  leBytes 2 e.code.toNat ++ leBytes 2 e.source.toNat ++ leBytes 4 e.seconds.toNat ++ leBytes 4 e.nanos.toNat ++ leBytes 4 e.detail.toNat

/-- The 64 KiB of a record. -/
def hexBytes (t : Tab HexEntry) : List Byte := (List.range 4096).flatMap (fun i => hexEntryBytes (tget {} t i))

/-- The header of a flash slot. -/
def slotHeader (serial : Nat) (f : Flush) : List Byte :=
  leBytes 4 serial ++ leBytes 4 f.head.toNat ++ leBytes 4 f.boot.toNat ++ leBytes 2 f.code.toNat ++ leBytes 2 0 ++ shake256 (hexBytes f.record) 32 ++ leBytes 16 0

/-- HEXKEUG_FLUSH (R419): the oldest flush of a code that waits is written to the next flash slot. -/
def hexkeugFlushEff (s : State) (code : Half) : State :=
  match s.vig.flushes.find? (fun f => decide (f.code = code)) with
  | none => s
  | some f =>
    { s with vig := { s.vig with
        flushes := s.vig.flushes.filter (fun x => x ≠ f), serial := (s.vig.serial + 1) % 2 ^ 32
        slots := tset none s.vig.slots (s.vig.serial % 8) (some { header := slotHeader s.vig.serial f, record := f.record }) } }

/-- The reason bits. -/
def reasons (s : State) : Nat := s.fld 0x300090 5 0
/-- Reason bits set: each that was not set posts 0x5068 and flushes the record (R417). -/
def setReason (s : State) (b : Nat) : State :=
  if s.reasons / 2 ^ b % 2 = 1 then s
  else
    let s := s.setFld 0x300090 5 0 (s.reasons + 2 ^ b)
    (s.dike 0x5068#16 0 (leBytes 4 s.reasons)).flushDue 0x5068#16

/-! ## Escalation counts (R410) -/

def windowNs (s : State) (off : Nat) : Nat := s.fld off 31 12 * 1000000000
/-- Resets that began within the window. -/
def inWindow (s : State) (off : Nat) (l : List Nat) : Nat := (l.filter (fun t => decide (s.now < t + s.windowNs off))).length
def engCount (s : State) (e : Nat) : Nat := s.inWindow 0x300004 (s.engine e).resets
def cmpCount (s : State) : Nat := s.inWindow 0x300008 s.vig.cmpResets
def procCount (s : State) : Nat := s.inWindow 0x30000C s.vig.procResets

/-- Causes of reason bits that are present. -/
def causePresent (s : State) (b : Nat) : Bool :=
  match b with
  | 0 => s.vig.noSpare
  | 1 => s.vig.short
  | 2 => s.vig.outOfService
  | 3 => decide (s.fld 0x30000C 3 0 ≤ s.procCount)
  | 4 => s.vig.halted
  | 5 => s.power.off
  | _ => false

def setReasons (s : State) : List Nat → State
  | [] => s
  | b :: r => setReasons (s.setReason b) r

/-- REPLACE_CLEAR (R417): bits written 1 are cleared; a cause still present sets its bit again at once. -/
def replaceClearEff (s : State) (v : Word) : State :=
  let was := s.reasons
  let s := s.writeFields 0x300090 0x0C 0 v
  s.setReasons ((List.range 6).filter (fun b => decide (was / 2 ^ b % 2 = 1) && decide (s.reasons / 2 ^ b % 2 = 0) && s.causePresent b))

/-- HEX_SEL_WRITE (R420): a slot that was never written fails its digest, with 0x2062. -/
def hexSelEff (s : State) (v : Word) : State :=
  let s := s.writeFields 0x301008 0x0C 0 v
  let n := s.fld 0x301008 3 0
  if n = 0 ∨ (tget none s.vig.slots (n - 1)).isSome then s else s.dike 0x2062#16 0 (leBytes 4 n)

/-! ## Tasks that a reset interrupts (R236, R399, R404) -/

/-- The task of an engine in reset: it runs again, or is lost where it has had an ADD or CAS applied. -/
def loseTask (s : State) (e : Nat) : State :=
  let x := s.engine e
  match x.task with
  | none => s
  | some t =>
    if t.startAt.isNone then s.displace e
    else
      let s := { s with ops := s.ops.filter (fun o => o.eng ≠ e) }
      if t.atomic then s.finishTask e { t with fail := 0x5B01#16, failOp := t.next, discard := false }
      else (s.setEngine e { x with task := none }).rerunTask t

/-- Later tasks of a context that run on other engines issue again after they retire. -/
def discardLater (s : State) (c job idx : Nat) : State :=
  { s with engines := s.engines.map (fun (p : Nat × Engine) => (p.1, match p.2.task with
      | some t => if t.ctx = c ∧ t.job = job ∧ idx < t.idx ∧ t.startAt.isSome then { p.2 with task := some { t with discard := true } } else p.2
      | none => p.2)) }

/-- An engine isolated and cleared (R402, R403, R409): its generation rises, and what it awaits is of an earlier one. -/
def clearEngine (s : State) (e : Nat) : State :=
  let x := s.engine e
  let waits := (s.ops.filter (fun o => decide (o.eng = e) && !o.complete)).map (·.id)
  let s := s.setEngine e { x with inReset := some s.now, loading := none, fenced := false, late := x.late ++ waits, gen := (x.gen + 1) % 256 }
  let s := s.loseTask e
  let s := { s with ops := s.ops.filter (fun o => o.eng ≠ e), empties := s.empties.filter (fun m => m.kind ≠ e), ecc := s.ecc.filter (fun w => w.kind ≠ e) }
  s.setEngine e { s.engine e with tile := [], resident := [], loading := none, stallFrom := none, task := none }

/-- Contexts as an engine's reset leaves them. -/
def syncAll (s : State) : List Nat → State
  | [] => s
  | c :: r => syncAll (s.syncCtx c) r

/-- Resets since power-on. -/
def bumpTotal (s : State) (i : Nat) : State := { s with vig := { s.vig with totals := tset 0 s.vig.totals i (min 0xFFFF (tget 0 s.vig.totals i + 1)) } }

/-- A reset that begins (R401): its order, and whether it counts; a reset without an order is one that Vigil orders now. -/
def takeOrder (s : State) (x : Scope) : Option (Bool × State) :=
  if s.absorbed_ x then none
  else match s.vig.orders.find? (fun o => decide (o.1 = x)) with
    | some o => some (o.2, { s with vig := { s.vig with orders := s.vig.orders.filter (fun y => decide (scopeRank x < scopeRank y.1) || (decide (scopeRank x = scopeRank y.1) && decide (y.1 ≠ x))) } })
    | none => if s.freeze then none else some (true, s)

/-- The spare takes a failing engine's place (R335, R404). -/
def takeOver (s : State) (e p : Nat) : State :=
  match s.spareOf with
  | none => s
  | some i =>
    if i = e ∨ s.spare.takeover.isSome then s
    else match s.spare.lent with
      | some _ => s.startReclaim (some p)
      | none => (({ s with spare := { s.spare with takeover := some p } }).raise 0x4F02#16 0x0A 0x10 1 (leBytes 4 0xFF ++ leBytes 4 p)).joinPolder i p

/-- Crossings close, by the clock domain in reset (R382): the words they hold are discarded and counted, in a number that the
spec does not fix. -/
def closeXing (s : State) (l : List Nat) : State :=
  let (n, s) := s.drawNat
  { s with power := { s.power with closed := l.foldl including s.power.closed } }.bump 0x2F0008 (n % 65)

/-- ENGINE_RESET (R404). -/
def engineResetEff (s : State) (e : Fin 6) : State :=
  match s.takeOrder (.engine e) with
  | none => s
  | some (counted, s) =>
    let n : Nat := e
    let s := if counted then s.setEngine n { s.engine n with resets := (s.engine n).resets ++ [s.now] } else s
    let s := (s.bumpTotal n).closeXing [3 + n]
    let s := match (s.engine n).task with
      | some t => if t.startAt.isSome then s.discardLater t.ctx t.job t.idx else s
      | none => s
    let s := s.clearEngine n
    let s := match (s.engine n).polder with | none => s | some p => s.takeOver n p
    s.syncAll (s.allCtxs.map (·.1))

/-! ## Retiring an engine (R410, R415) -/

/-- The spare role ends. -/
def dropSpare (s : State) : State :=
  let s := { (s.setFld 0x2B0800 31 31 0).setFld 0x2B0800 23 23 0 with spare := { s.spare with lent := none, reclaiming := false, takeover := none } }
  { s with vig := { s.vig with noSpare := true } }.setReason 0

/-- A share that exceeds what the polder's remaining engines allow is reduced, or invalidated below three engines. -/
def fitShare (s : State) (p : Nat) : State :=
  match [0x268000, 0x268004].find? (fun o => s.flag o 31 && decide (s.fld o 18 16 = p)) with
  | none => s
  | some o =>
    let n := (s.ownEngines p).length
    if n < 3 then s.setFld o 31 31 0 else if 512 * n < s.fld o 11 0 then s.setFld o 11 0 (512 * n) else s

/-- A polder left without an engine posts 0x3F02 once (R321). -/
def emptyPolder (s : State) (p : Nat) : State :=
  if (s.polderEngines p).isEmpty ∧ (s.polder p).made ∧ ¬ (s.polder p).emptyPosted then
    (s.setPolder p { s.polder p with emptyPosted := true }).raiseNow 0x3F02#16 0x0A p
  else s

/-- An engine is retired: it leaves its polder or the spare role, and 0x5066 posts. -/
def retire (s : State) (e : Nat) : State :=
  let p := (s.engine e).polder
  let wasSpare : Bool := decide (s.spareOf = some e)
  let held : Bool := !wasSpare && s.spare.takeover.isSome && decide (s.spare.takeover = p)
  let s := s.setEngine e { s.engine e with retired := true, polder := none, leaving := false, resident := [], loading := none, task := none, fenced := false }
  let s := if wasSpare ∨ held then s.dropSpare else s
  let s := match p with | none => s | some q => (s.fitShare q).emptyPolder q
  let share := ((p.bind s.shareOf).getD 0)
  let s := s.raise 0x5066#16 0x0C 0 1 (leBytes 1 e ++ leBytes 1 0 ++ leBytes 2 share)
  let s := if held ∨ wasSpare then s else { s with vig := { s.vig with short := true } }.setReason 1
  s.endLeavers (s.allCtxs.map (·.1))

/-- The spare is released once the engine it stood in for has rejoined: it leaves after its started task (R404). -/
def releaseSpare (s : State) (p : Nat) : State :=
  match s.spareOf with
  | none => s
  | some i =>
    if s.spare.takeover = some p ∧ ¬ s.spare.reclaiming then
      ({ s with spare := { s.spare with takeover := none } }.setEngine i { s.engine i with leaving := true }).leaveCheck i
    else s

/-- The clock domain of a crossing has left reset. -/
def domainUp (s : State) (c : Nat) : Bool :=
  s.vig.procFrom.isNone && s.vig.coldFrom.isNone && (s.vig.cmpFrom.isNone || !([3, 4, 5, 6, 7, 8, 9, 15].contains c)) &&
  (!(decide (3 ≤ c) && decide (c ≤ 8)) || (s.engine (c - 3)).inReset.isNone)

/-- CROSSING_REOPEN (R382): once the reset side is ready and its clock runs. -/
def crossingReopenEff (s : State) (c : Nat) : State :=
  if s.power.closed.contains c ∧ s.domainUp c ∧ ¬ s.power.stopped.getLsbD (c - 1) then
    { s with power := { s.power with closed := s.power.closed.filter (· ≠ c) } }
  else s

/-- Clocks that run again once the reset of their domains has ended. -/
def clockBack (s : State) (l : List Nat) : State :=
  { s with power := { s.power with stopped := l.foldl (fun (b : BitVec 25) c => b &&& ~~~(1#25 <<< (c - 1))) s.power.stopped } }

/-- ENGINE_RESET_DONE (R404, R410): the engine rejoins its polder, or is retired at its limit. -/
def engineResetDoneEff (s : State) (e : Fin 6) : State :=
  let n : Nat := e
  if (s.engine n).inReset.isNone ∨ s.vig.cmpFrom.isSome then s
  else
    let s := (s.setEngine n { s.engine n with inReset := none }).clockBack [3 + n]
    let k := s.engCount n
    let s := s.raise 0x5061#16 0x05 n 1 (leBytes 1 n ++ leBytes 1 (s.engine n).gen ++ leBytes 1 k ++ leBytes 1 0)
    if s.fld 0x300004 3 0 ≤ k then s.retire n
    else
      let s := (s.leaveCheck n).loadNext n
      match (s.engine n).polder with | none => s | some p => s.releaseSpare p

/-! ## The compute domain (R405, R410, R416) -/

def clearEngines (s : State) : List Nat → State
  | [] => s
  | e :: r => clearEngines (s.clearEngine e) r

/-- Clock domains of the compute domain. -/
def computeXings : List Nat := [3, 4, 5, 6, 7, 8, 9, 15]

/-- COMPUTE_RESET (R405). -/
def computeResetEff (s : State) : State :=
  match s.takeOrder .compute with
  | none => s
  | some (counted, s) =>
    let s := { s with vig := { s.vig with cmpFrom := some s.now, cmpResets := if counted then s.vig.cmpResets ++ [s.now] else s.vig.cmpResets } }
    let s := ((s.bumpTotal 6).closeXing computeXings).clearEngines (List.range 6)
    let s := s.codecReset
    s.syncAll (s.allCtxs.map (·.1))

/-- Every job completes with a code, in ring order (R416). -/
def failAllJobs (s : State) (code : Half) : List (Nat × Ctx) → State
  | [] => s
  | (c, x) :: r => failAllJobs (s.failJobs c code (x.jobs.map (·.id))) code r

def finishEngines (s : State) : State := { s with engines := s.engines.map (fun (p : Nat × Engine) => (p.1, { p.2 with inReset := none })) }

/-- COMPUTE_RESET_DONE (R405, R410): the engines reload, or at the limit the domain leaves service. -/
def computeResetDoneEff (s : State) : State :=
  if s.vig.cmpFrom.isNone then s
  else
    let s := ({ s with vig := { s.vig with cmpFrom := none } }.finishEngines).clockBack computeXings
    let k := s.cmpCount
    let s := s.dike 0x5062#16 0 (leBytes 4 k)
    if s.fld 0x300008 4 0 ≤ k ∧ ¬ s.vig.outOfService then
      let s := { s with vig := { s.vig with outOfService := true } }.dike 0x5067#16 0 []
      (s.failAllJobs 0x5067#16 s.allCtxs).setReason 2
    else s.loadAll (List.range 6)

/-! ## The processor (R266, R274, R300, R402, R403, R406, R407) -/

/-- Blocks whose units restart as the image is written back: time, lanes and ports, Sluices, the verdict unit, the line. -/
def restarts (off : Nat) : Bool :=
  decide (off / 0x10000 = 0x22) || decide (off / 0x10000 = 0x23) || decide (off / 0x10000 = 0x24) || decide (off = 0x280000) || decide (off = 0x2E0000)

/-- Ring and host-interface registers, which the image does not hold (R406). -/
def ringBlock (off : Nat) : Bool := decide (off / 0x10000 = 0x2C) || decide (off / 0x10000 = 0x2D) || decide (0x4000000 ≤ off)

/-- Blocks that run through a processor reset with what they have counted. -/
def runsOn (off : Nat) : Bool :=
  decide (off / 0x10000 = 0x21) || decide (off / 0x10000 = 0x22) || decide (off / 0x10000 = 0x29) || decide (off / 0x10000 = 0x2F) || decide (off / 0x10000 = 0x30) ||
  decide (off / 0x10000 = 0x32)

def closeTracks (s : State) : List Nat → State
  | [] => s
  | n :: r => closeTracks (s.closeTrack n) r

/-- `SEQ` of each function's submission rings. -/
def ringSeqs (s : State) : List Byte :=
  (List.range 7).flatMap (fun fn => (List.range 17).flatMap (fun w => leBytes 4 (s.log.ring fn (2 * w)).seq.toNat))

/-- RATE and the registers that are written back, by offset. -/
def imageOf (s : State) : Tab Word :=
  let rate := unsigned 40 s.time.hostRate
  tset 0 (tset 0 (s.regs.filter (fun (p : Nat × Word) => restarts p.1)) 0x220034 (BitVec.ofNat 32 rate)) 0x220038 (BitVec.ofNat 32 (rate / 2 ^ 32))

/-- What a code's own entry puts into the record first (R418). -/
def enterFirst (s : State) (code : Half) (detail : Nat) : State := { s with log := s.log.hexEnter s.stamp code 0x0C 0 (leBytes 4 detail) }

/-- Recipes that a processor reset keeps: the resident ones, with no descriptor and no build under way. -/
def keptRecipes (s : State) : Tab (Option Recipe) :=
  s.recipes.map (fun (p : Nat × Option Recipe) => (p.1, p.2.map (fun r => { r with waiting := none, buildJob := false, draining := r.draining || !r.residentAt })))

def drainAllRecipes (s : State) : List Nat → State
  | [] => s
  | k :: r => drainAllRecipes (s.drainRecipe k) r

/-- Host memory, the Hexkeug record and sealed records that wait for their rings outlast the log's loss. -/
def keptLog (l : Log) : Log :=
  { host := l.host, hex := l.hex, hexHead := l.hexHead, queues := l.queues, lastCodes := l.lastCodes.filter (fun (p : Nat × Half) => runsOn p.1) }

/-- PROCESSOR_RESET (R402, R403): module time starts again at 0, what the processor holds is lost, and what lies in
bonded memory or in the Dike domain stays. -/
def processorResetEff (s : State) : State :=
  match s.takeOrder .processor with
  | none => s
  | some (counted, s) =>
    let s := (s.closeTracks ((s.tracks.map (·.1))))
    let s := { s with recipes := s.keptRecipes }
    let s := s.drainAllRecipes (s.recipes.map (·.1))
    let vig := { s.vig with
      orders := [], cmpFrom := none, procFrom := some s.now, byCommand := !counted, boots := s.vig.boots + 1
      procResets := if counted then s.vig.procResets ++ [s.now] else s.vig.procResets, image := s.imageOf, imageSealed := s.sealed
      seqs := s.ringSeqs, kicks := [] }
    let s := s.moveStamps (-(s.time.t : Int))
    let s : State := { s with
      vig, sealed := false, time := { running := true, stepped := s.time.stepped }, log := keptLog s.log, held := [], latched := []
      regs := s.regs.filter (fun (p : Nat × Word) => !restarts p.1 && !ringBlock p.1), counters := s.counters.filter (fun (p : Nat × Word) => runsOn p.1)
      lanes := [], ports := [], pllOut := [], qps := s.qps.map (fun (p : Nat × Qp) => (p.1, { p.2 with outstanding := [], cnpAt := none, state := if p.2.peer.isSome then .idle else p.2.state }))
      sluices := [], pars := [], slots := [], pipes := []
      provings := s.provings.map (fun (p : Nat × Proving) => (p.1, { p.2 with fired := [], runs := [], shadow := [] }))
      vlanes := s.vlanes.map (fun (p : Nat × VLane) => (p.1, { p.2 with closed := 0, started := false, highest := 0, waiting := [] }))
      vu := {}, fs := { s.fs with beating := false, full := [] }
      engines := s.engines.map (fun (p : Nat × Engine) => (p.1, { polder := if p.2.leaving then none else p.2.polder, retired := p.2.retired, resets := p.2.resets }))
      pool := [], ops := [], empties := [], ecc := [], ctxs := [], changes := [], notified := [], kv := { s.kv with copies := [] }
      spare := { s.spare with reclaiming := false, takeover := none }
      archive := { s.archive with jobs := [] }, codec := {}
      line := { s.line with running := false, joined := false, peers := [], mask := 0, arrival := 0, arrived := 0, arrivedFrom := none, notBefore := [], release := none, action := none }
      proxies := [], fwds := [], sec := { s.sec with debug := 0, nonce := none } }
    ((((s.clearCalendar).enterFirst 0x5063#16 s.procCount).bumpTotal 7).closeXing ((List.range 25).map (· + 1)))

/-- A proxied slot that the reset left unsealed. -/
def sealProxiedLost (s : State) (p : Part) : State :=
  let j := p.proxy.getD 0
  let q : Sealing := { cls := 2, status := 0x5C03#16, lost := true, action := some 3 }
  let body := s.recordBody (s.proxyField j) p q 3 false
  ((s.setProxied j { p with sealed := true, cls := 2, action := 3, status := 0x5C03#16 }).bump 0x280010 1).deliver p.lane body

/-- The unsealed slot that is oldest in its lane. -/
def firstUnsealed (s : State) : Option Part :=
  (s.parts.filter (fun p => !p.sealed)).foldl (fun (a : Option Part) p => match a with
    | none => some p
    | some b => if p.lane < b.lane ∨ (p.lane = b.lane ∧ p.slot < b.slot) then some p else some b) none

/-- Every unsealed slot sealed, in slot order, with RESET_LOST and action 3 (R274). -/
def sealLost (s : State) : Nat → State
  | 0 => s
  | n + 1 => match s.firstUnsealed with
    | none => s
    | some p => sealLost (if p.proxy.isSome then s.sealProxiedLost p else s.sealUndecided p 0x5C03#16 false true (some 3)) n

/-- What a processor reset leaves once it has ended, but for the image (R274, R406, R410, R416). -/
def processorBack (s : State) : State :=
  let s := { s with vig := { s.vig with procFrom := none } }.clockBack ((List.range 25).map (· + 1))
  let s := s.sealLost s.parts.length
  let s := { s with records := [] }
  if s.vig.byCommand then { s with vig := { s.vig with outOfService := false, cmpResets := [], byCommand := false } } else s

/-- What follows once the image is written back: the seal, the first block's BREAK (R300), and 0x5063. -/
def processorDone (s : State) : State :=
  let s := { s with sealed := s.vig.imageSealed, sluices := s.sluices.map (fun (p : Nat × Sluice) => (p.1, if p.2.run then { p.2 with brkNext := true } else p.2)) }
  let s := { s with log := (s.log.last 0x5063#16 0x0C 0).eventTo s.stamp 0 0x5063#16 0x0C 0 1 s.vig.seqs }
  if s.fld 0x30000C 3 0 ≤ s.procCount then s.setReason 3 else s

/-! ## Escalation (R400, R410) -/

/-- A reset not complete within its bound: 0x5065, and the next scope. -/
def escalate (s : State) (from_ dst : Scope) : State :=
  let s := s.dike 0x5065#16 0 (leBytes 1 (scopeRank from_) ++ leBytes 1 (scopeRank dst))
  let s := if dst = .cold then s.flushDue 0x5065#16 else s
  s.detect dst

def lateBy (s : State) (t : Option Nat) (ns : Nat) : Bool := match t with | none => false | some x => decide (ns ≤ s.now - x)

/-- RESET_ESCALATE (R400, R410). -/
def resetEscalateEff (s : State) (x : Scope) : State :=
  match x with
  | .engine e => if s.vig.cmpFrom.isNone ∧ s.lateBy (s.engine e).inReset 200000 then s.escalate x .compute else s
  | .compute => if s.lateBy s.vig.cmpFrom 2000000 then s.escalate x .processor else s
  | .processor => if s.lateBy s.vig.procFrom 400000000 then s.escalate x .cold else s
  | .cold =>
    if s.lateBy s.vig.coldFrom 6000000000 then
      let n := s.vig.failedBoots + 1
      let s := { s with vig := { s.vig with failedBoots := n, coldFrom := none } }.dike 0x5064#16 0 (leBytes 4 n)
      if 3 ≤ n then { s with vig := { s.vig with halted := true } }.setReason 4 else s.order .cold false
    else s

/-! ## Vigil's detections (R272, R381, R400) -/

/-- HEARTBEAT_LOSS (R272, R400): with the verdict unit enabled, the processor reset follows. -/
def heartbeatLossAny (s : State) : State :=
  let run := s.vu.running && s.vig.procFrom.isNone && s.vig.coldFrom.isNone
  let s := s.heartbeatLossEff
  if run then s.detect .processor else s

/-- FABRIC_REQUEST_TIMEOUT (R400, R409): the request is discarded and counted. -/
def fabricTimeoutEff (s : State) (kind : Byte) : State :=
  let s := { s with vig := { s.vig with timeouts := min 0xFFFF (s.vig.timeouts + 1) } }
  (s.dike 0x506B#16 0 (leBytes 4 kind.toNat)).detect .compute

/-- HANDSHAKE_TIMEOUT (R400): the smallest scope that holds both sides. -/
def handshakeTimeoutEff (s : State) (x : Scope) (kind : Byte) : State := (s.dike 0x506B#16 0 (leBytes 4 kind.toNat)).detect x

/-- CODEC_STALL (R400): a picture or an archive job under way. -/
def codecStallEff (s : State) : State :=
  if s.streams.any (fun x => x.2.waiting.any (·.started)) ∨ s.archive.jobs.any (·.started) then (s.dike 0x506B#16 0 (leBytes 4 9)).detect .compute else s

/-- A detection that resets a control core or a warden, which changes nothing that the model holds; freeze defers it. -/
def detectSmall (s : State) : State := if s.freeze then { s with lead := { s.lead with deferred := s.lead.deferred ++ [none] } } else s

def coreOff (c : Nat) : Nat := 0x300010 + 4 * c

/-- CORE_WATCHDOG (R400): armed, and not kicked within its timeout. -/
def coreWatchdogEff (s : State) (c : Nat) : State :=
  let ms := s.fld (coreOff c) 13 0
  let from_ := tget 0 s.vig.kicks c
  if ms = 0 ∨ s.now - from_ < ms * 1000000 then s
  else (({ s with vig := { s.vig with kicks := tset 0 s.vig.kicks c s.now } }).dike 0x506E#16 (0x10 + c) (leBytes 4 c)).detectSmall

/-- A write of `VIG_COREc` (R400): KICK, or a new timeout, starts its time again. -/
def coreWrite (s : State) (c : Nat) (v : Word) : State :=
  let old := s.fld (coreOff c) 13 0
  let s := s.writeFields (coreOff c) 0x0C 0 v
  if bit v 31 ∨ s.fld (coreOff c) 13 0 ≠ old then { s with vig := { s.vig with kicks := tset 0 s.vig.kicks c s.now } } else s

/-- KICK. -/
def kickEff (s : State) (c : Nat) (v : Word) : State := if bit v 31 then s.coreWrite c v else s

/-! ## RST_CMD (R408) -/

/-- A write of `RST_CMD`: the largest scope named is ordered and not counted; under freeze the command is refused. -/
def rstWrite (s : State) (v : Word) : State :=
  let b : Nat := if bit v 29 then 29 else if bit v 30 then 30 else 31
  let e := bits v 2 0
  let s := if e < 6 then s else (s.report 0x1061#16 1 0x300040 2 0 e 5).last 0x1061#16 0x0C 0
  if ¬ bit v b then s
  else if s.freeze then s.refuse 0x1062#16 0x0C 0 0x300040 b
  else if bit v 29 then s.order .processor false
  else if bit v 30 then s.order .compute false
  else
    if h : e < 6 then s.order (.engine ⟨e, h⟩) false else s.order (.engine 5) false

/-! ## The wardens' lease (R411 to R414) -/

def wardenNo : Warden → Nat
  | .n => 1 | .s => 2
def leaseHeld (s : State) : Bool := s.lead.holder.isSome && decide (s.now - s.lead.grantAt < 1000000)

/-- The reset that ends a freeze: the largest scope deferred. Other engines found hung are found again. -/
def orderDeferred (s : State) : State :=
  let l := s.lead.deferred.filterMap id
  let s := { s with lead := { s.lead with deferred := [] }
                    engines := s.engines.map (fun (p : Nat × Engine) => (p.1, if p.2.fenced then { p.2 with fenced := false, task := p.2.task.map (fun t => { t with hungPosted := false }) } else p.2)) }
  match l.foldl (fun (a : Option Scope) x => match a with | none => some x | some b => if scopeRank b < scopeRank x then some x else some b) none with
  | none => s
  | some x => s.order x

/-- LEASE_REQUEST (R411, R414). -/
def leaseRequestEff (s : State) (w : Warden) : State :=
  let s := { s with lead := match w with | .n => { s.lead with lastN := some s.now } | .s => { s.lead with lastS := some s.now } }
  if s.leaseHeld ∧ s.lead.holder ≠ some w then s
  else
    let changed := decide (s.lead.holder ≠ some w)
    let after := !s.lead.deferred.isEmpty || s.lead.frozen
    let s := { s with lead := { s.lead with holder := some w, grantAt := s.now, sentAt := s.now, leads := true, frozen := false } }
    let s := s.orderDeferred
    let s := if changed then s.bump 0x300084 1 else s
    if changed ∨ after then s.dike 0x506D#16 (wardenNo w) (leBytes 4 (wardenNo w)) else s

/-- LEADER_DEMOTE (R412): 900 µs after the request whose grant it last received. -/
def leaderDemoteEff (s : State) (w : Warden) : State :=
  if s.lead.holder = some w ∧ s.lead.leads ∧ 900000 ≤ s.now - s.lead.sentAt then { s with lead := { s.lead with leads := false } } else s

/-- WARDEN_SILENT (R400): no request for 2 ms while the other warden leads. -/
def wardenSilentEff (s : State) (w : Warden) : State :=
  let last := match w with | .n => s.lead.lastN | .s => s.lead.lastS
  if s.lead.leads ∧ s.lead.holder.isSome ∧ s.lead.holder ≠ some w ∧ 2000000 ≤ s.now - last.getD 0 then
    let s := { s with lead := match w with | .n => { s.lead with lastN := some s.now } | .s => { s.lead with lastS := some s.now } }
    s.dike 0x506D#16 (wardenNo w) (leBytes 4 (match s.lead.holder with | none => 0 | some h => wardenNo h))
  else s

/-- FREEZE_DETECT (R413, R42): freeze has lasted 2 ms; the servo holds its RATE. -/
def freezeDetectEff (s : State) : State :=
  if ¬ s.freeze ∨ s.lead.frozen ∨ s.now - s.lead.grantAt < 3000000 then s
  else
    let s := { s with lead := { s.lead with frozen := true }, time := { s.time with servo := if s.time.servo = 1 ∨ s.time.servo = 2 then 3 else s.time.servo } }
    s.dike 0x5069#16 0 (leBytes 4 s.lead.deferred.length)

end State

/-! ## Meanings -/

def execHeartbeatLoss (s : State) : Host.Outcome State Fault Refusal := .next s.heartbeatLossAny
def execEngineReset (e : Fin 6) (s : State) : Host.Outcome State Fault Refusal := .next (s.engineResetEff e)
def execEngineResetDone (e : Fin 6) (s : State) : Host.Outcome State Fault Refusal := .next (s.engineResetDoneEff e)
def execComputeReset (s : State) : Host.Outcome State Fault Refusal := .next s.computeResetEff
def execComputeResetDone (s : State) : Host.Outcome State Fault Refusal := .next s.computeResetDoneEff
def execProcessorReset (s : State) : Host.Outcome State Fault Refusal := .next s.processorResetEff
def execCrossingReopen (c : Nat) (s : State) : Host.Outcome State Fault Refusal := .next (s.crossingReopenEff c)
def execResetEscalate (x : Scope) (s : State) : Host.Outcome State Fault Refusal := .next (s.resetEscalateEff x)
def execFabricRequestTimeout (kind : Byte) (s : State) : Host.Outcome State Fault Refusal := .next (s.fabricTimeoutEff kind)
def execHandshakeTimeout (x : Scope) (kind : Byte) (s : State) : Host.Outcome State Fault Refusal := .next (s.handshakeTimeoutEff x kind)
def execCodecStall (s : State) : Host.Outcome State Fault Refusal := .next s.codecStallEff
def execCoreWatchdog (c : Fin 8) (s : State) : Host.Outcome State Fault Refusal := .next (s.coreWatchdogEff c)
def execKick (c : Fin 8) (v : Word) (s : State) : Host.Outcome State Fault Refusal :=
  .next (s.gate 0 (State.coreOff c) v (fun s => s.kickEff c v))
def execRstEngine (v : Word) (s : State) : Host.Outcome State Fault Refusal :=
  .next (s.gate 0 0x300040 v (fun s => if bit v 31 then s.rstWrite v else s))
def execRstCompute (v : Word) (s : State) : Host.Outcome State Fault Refusal :=
  .next (s.gate 0 0x300040 v (fun s => if bit v 30 then s.rstWrite v else s))
def execRstProcessor (v : Word) (s : State) : Host.Outcome State Fault Refusal :=
  .next (s.gate 0 0x300040 v (fun s => if bit v 29 then s.rstWrite v else s))
def execLeaseRequest (w : Warden) (s : State) : Host.Outcome State Fault Refusal := .next (s.leaseRequestEff w)
def execLeaderDemote (w : Warden) (s : State) : Host.Outcome State Fault Refusal := .next (s.leaderDemoteEff w)
def execWardenSilent (w : Warden) (s : State) : Host.Outcome State Fault Refusal := .next (s.wardenSilentEff w)
def execFreezeDetect (s : State) : Host.Outcome State Fault Refusal := .next s.freezeDetectEff
def execHexkeugFlush (code : Half) (s : State) : Host.Outcome State Fault Refusal := .next (s.hexkeugFlushEff code)
def execHexSelWrite (v : Word) (s : State) : Host.Outcome State Fault Refusal :=
  .next (s.gate 0 0x301008 v (fun s => s.hexSelEff v))
def execReplaceClear (v : Word) (s : State) : Host.Outcome State Fault Refusal :=
  .next (s.gate 0 0x300090 v (fun s => s.replaceClearEff v))

end Sys2Proof.Machine
end

