-- ==== Sys2Proof/Machine/Field.lean ====
section
/-! DEFINITION. The field section: inputs, outputs, field supply and valve bank ports (R277 to R293). On a TXM-860-N it
is absent (R1, R2). -/

namespace Sys2Proof.Machine

namespace State

/-! ## Inputs (R279 to R281) -/

def diOff (i : Nat) : Nat := 0x290100 + 4 * i

/-- An input that an HTL axis uses (R22, R23). -/
def htlUsed (s : State) (i : Nat) : Bool :=
  (List.range 4).any (fun n => s.encOn n && decide (s.encMode n = 2) && (htlInputs n).contains i)

/-- The raw level of an input (R280); A and B of an HTL axis come by its edges (R25). -/
def diRaw (s : State) (i : Nat) : Bool :=
  if s.htlUsed i ∧ i % 4 = 0 then (s.axis (i / 4)).a else if s.htlUsed i ∧ i % 4 = 1 then (s.axis (i / 4)).b else (s.di i).raw

/-- FILTER_NS of an input (R280, R281). -/
def filterNs (s : State) (i : Nat) : Nat := s.fld (diOff i) 15 0 * (10 * 10 ^ s.fld (diOff i) 27 26) + 800

/-- An axis position as an event entry has it: [47:0] position, [63:48] fraction. -/
def eventPos (p : Fine) : Nat := p.toNat / 65536 + p.toNat % 65536 * 2 ^ 48

/-- An input event entry (R281). -/
def diEntry (s : State) (i : Nat) (rising : Bool) : List Byte :=
  let st := s.stamp
  leBytes 1 i ++ leBytes 1 (if rising then 1 else 0) ++ leBytes 2 0 ++ leBytes 4 (s.filterNs i) ++ leBytes 6 st.sec ++ leBytes 2 0 ++
  leBytes 4 st.ns ++ leBytes 2 st.frac ++ leBytes 2 st.epoch ++
  (List.range 4).flatMap (fun n => leBytes 8 (eventPos (s.posAt n s.time.t))) ++ leBytes 8 0

/-- DI_FILTERED_EDGE (R280, R281): an input's filter has come to a level. -/
def diEdgeEff (s : State) (i : Nat) (level : Bool) : State :=
  let d := s.di i
  if s.variantN ∨ s.htlUsed i ∨ d.out = level then s
  else
    let c := s.reg (diOff i)
    let s := s.setDi i { d with out := level, raw := level != bit c 30 }
    let wanted := bit c 31 && (if level then bit c 28 else bit c 29)
    if ¬ wanted then s
    else if s.field.fifo.length < 256 then { s with field := { s.field with fifo := s.field.fifo ++ [s.diEntry i level] } }
    else (s.bump 0x290014 1).raise 0x3D01#16 0x08 i

/-- DI_CFG_WRITE (R23, R280, R281): the filter restarts at 0 without an event. -/
def diCfgWriteEff (s : State) (i : Nat) (v : Word) : State :=
  if s.variantN then s
  else
    let o := diOff i
    let clash := s.htlUsed i && bit v 31
    let s := s.writeFields o 0x08 i (if clash then putBits v 31 31 (s.fld o 31 31) else v)
    let s := if clash then s.refuse 0x1101#16 0x08 i o 31 else s
    s.setDi i { s.di i with out := false }

/-- DI_EVT_POP (R281). -/
def diEvtPopEff (s : State) (v : Word) : State :=
  if bit v 0 ∧ ¬ s.variantN then { s with field := { s.field with fifo := s.field.fifo.drop 1 } } else s

/-! ## Field supply (R278) -/

/-- FIELD_SUPPLY_SAMPLE (R278). -/
def supplySampleEff (s : State) (mV : Nat) : State :=
  if s.variantN then s
  else
    let f := s.field
    let low := if mV < 18000 then some (f.lowSince.getD s.now) else none
    let inside := decide (19200 ≤ mV) && decide (mV ≤ 30000)
    let good := if inside then some (f.goodSince.getD s.now) else none
    let bad : Bool := decide (33000 < mV) || (match low with | none => false | some t => decide (1000000 ≤ s.now - t))
    let back : Bool := match good with | none => false | some t => decide (10000000 ≤ s.now - t)
    let uv := if bad then true else if back then false else f.uv
    let s := { s with field := { f with supply := mV, ok := inside, lowSince := low, goodSince := good, uv } }
    if uv && !f.uv then s.raise 0x5D04#16 0x08 0xFF else s

/-! ## Outputs (R282 to R285) -/

/-- DO_THERMAL_SHUTDOWN (R284): an output that is on reaches 150 °C; the third within 1 s latches its group off. -/
def doShutdownEff (s : State) (n : Nat) : State :=
  if s.variantN ∨ ¬ s.doLevel n then s
  else
    let lead := s.leadOf n
    let s := s.setDoPin n { s.doPin n with tripped := true }
    let times := s.now :: (s.doPin lead).tripTimes.filter (fun t => decide (s.now - t < 1000000000))
    let latch := decide (3 ≤ times.length)
    let s := s.setDoPin lead { s.doPin lead with tripTimes := times, latched := (s.doPin lead).latched || latch }
    let s := (s.bump 0x290218 1).raise 0x5D01#16 0x08 (0x10 + lead)
    if latch then s.raise 0x5D02#16 0x08 (0x10 + lead) else s

/-- DO_THERMAL_RESTART (R284): below 135 °C. -/
def doRestartEff (s : State) (n : Nat) : State := s.setDoPin n { s.doPin n with tripped := false }

def clearLatches (s : State) : List Nat → State
  | [] => s
  | n :: r => clearLatches (s.setDoPin n { s.doPin n with latched := false, tripTimes := [] }) r

/-- DO_CLEAR (R284). -/
def doClearEff (s : State) (v : Word) : State := if s.variantN then s else s.clearLatches (maskBits 16 (bits v 15 0))

/-- An output that raises no mismatch (R285). -/
def doQuiet (s : State) (n : Nat) : Bool := s.field.uv || (s.groupOf n).any (fun m => (s.doPin m).tripped || (s.doPin m).latched)

/-- DO_MISMATCH (R285): the onset of a readback that has differed for more than 25 µs. -/
def doMismatchEff (s : State) (n : Nat) : State :=
  if s.variantN ∨ s.doQuiet n then s
  else
    ((s.setDoPin n { s.doPin n with readback := some (!s.doLevel n) }).setFld 0x290214 n n 1).raiseNow 0x5D03#16 0x08 (0x10 + s.leadOf n)

/-! ## Valve bank ports (R286 to R292) -/

def vbOff (b : Nat) : Nat := 0x290400 + 0x100 * b
def vbOn (s : State) (b : Nat) : Bool := s.flag (vbOff b) 31 && !s.variantN

/-- Whether a channel's hold count was above 0 in a tick of the frame's window (R287): after `a` and no later than `z`. -/
def heldIn (x : Chan) (a z : Int) : Bool :=
  (decide (0 < x.hold) && decide ((x.onAt : Int) ≤ z)) || x.spans.any (fun p => decide ((p.1 : Int) ≤ z) && decide (a < (p.2 : Int)))

/-- The level a channel has in a frame (R271, R287). -/
def frameBit (s : State) (b n : Nat) (a z : Int) : Bool :=
  let c := 16 + 128 * b + n
  if s.engaged c then (match s.fsState c with | 0 => false | 1 => true | _ => (s.bank b).lastFree.getLsbD n)
  else heldIn (s.chan c) a z

/-- Bits most significant first, as bytes. -/
def bitBytes : Nat → List Bool → List Byte
  | 0, _ => []
  | k + 1, l => BitVec.ofNat 8 ((l.take 8).foldl (fun a x => 2 * a + (if x then 1 else 0)) 0) :: bitBytes k (l.drop 8)

/-- One bank's frame (R287, R288). -/
def bankFrame (s : State) (b : Nat) : State :=
  if ¬ s.vbOn b then s
  else
    let x := s.bank b
    let a : Int := (s.field.frameAt : Int) - 200
    let z : Int := (s.now : Int) - 200
    let lv := (List.range 128).map (fun n => s.frameBit b n a z)
    let silent := !s.fs.beating
    let body := leBytes 1 s.field.frameSeq.toNat ++ leBytes 1 ((if silent then 128 else 0) + b) ++ bitBytes 16 lv
    let crc := crc16 body
    let last := BitVec.ofNat 128 ((lv.zipIdx.map (fun (p : Bool × Nat) => if p.1 then 2 ^ p.2 else 0)).sum)
    let free := BitVec.ofNat 128 ((List.range 128).map (fun n =>
      let now := if s.engaged (16 + 128 * b + n) then x.lastFree.getLsbD n else last.getLsbD n
      if now then 2 ^ n else 0)).sum
    let s := s.setBank b { x with
      last, lastFree := free, frame := body ++ [BitVec.ofNat 8 (crc / 256), BitVec.ofNat 8 (crc % 256)], awaiting := some s.field.frameSeq }
    let s := s.bump (vbOff b + 0x20) 1
    if silent then s.bump (vbOff b + 0x38) 1 else s

/-- VALVE_FRAME (R265, R287): every 2 µs of the cadence, VB0 and VB1 in the same cycle. -/
def valveFrameEff (s : State) : State :=
  let f := s.field
  if s.now - f.frameAt < 2000 then s
  else
    let s := (s.bankFrame 0).bankFrame 1
    { s with field := { s.field with frameAt := s.now, frameSeq := f.frameSeq + 1, frames := f.frames + 1 } }

/-- A status frame missing, failing its CRC or out of sequence (R291). -/
def statusFail (s : State) (b off : Nat) : State :=
  let s := (s.bump (vbOff b + off) 1).raise 0x2D01#16 0x08 (0x20 + b)
  let x := s.bank b
  let n := x.fails + 1
  let s := s.setBank b { x with fails := n, awaiting := none }
  if s.fld (vbOff b) 15 8 ≤ n ∧ x.link then (s.setBank b { s.bank b with link := false }).raise 0x5D05#16 0x08 (0x20 + b) else s

/-- A status frame is looked for. -/
def statusDue (s : State) (b : Nat) : Option Byte := if s.vbOn b && s.flag (vbOff b) 30 then (s.bank b).awaiting else none

/-- VALVE_STATUS_FRAME (R290, R291). -/
def statusFrameEff (s : State) (b : Nat) (f : ValveStatus) : State :=
  match s.statusDue b with
  | none => s
  | some q =>
    let s := s.bump (vbOff b + 0x24) 1
    if ¬ f.crcOk then s.statusFail b 0x28
    else if f.seq ≠ q then (s.setBank b { s.bank b with echo := f.seq }).statusFail b 0x30
    else
      let x := s.bank b
      let fl (n : Nat) (y : Bool) : Nat := if y then 2 ^ n else 0
      let bad := f.supply || f.overtemp || f.safe || decide (f.faults &&& ~~~x.faults ≠ 0)
      let s := s.setBank b { x with
        link := true, fails := 0, awaiting := none, echo := f.seq, phase := f.phase, faults := f.faults
        flags := BitVec.ofNat 4 (fl 3 f.cmdErr + fl 2 f.supply + fl 1 f.overtemp + fl 0 f.safe) }
      let s := if f.cmdErr then (s.bump (vbOff b + 0x34) 1).raise 0x2D02#16 0x08 (0x20 + b) else s
      if bad then s.raise 0x5D06#16 0x08 (0x20 + b) else s

/-- VALVE_STATUS_MISS (R290, R291): no start bit by 2.35 µs after the frame's start. -/
def statusMissEff (s : State) (b : Nat) : State := match s.statusDue b with | none => s | some _ => s.statusFail b 0x2C

/-- A binding names a valve bank (R292). -/
def bankBound (s : State) (b : Nat) : Bool :=
  (List.range 18).any (fun k => (List.range 128).any (fun n => s.bindNames k (16 + 128 * b + n)))

/-- A write of `VBb_CFG` (R286, R292). -/
def vbCfgWriteEff (s : State) (b : Nat) (v : Word) : State :=
  let o := vbOff b
  if s.variantN then s
  else if s.flag o 31 ∧ ¬ bit v 31 ∧ ¬ s.sealed ∧ s.bankBound b then
    ((s.writeFields o 0x08 (0x20 + b) (putBits v 31 31 1)).report 0x1D01#16 3 o 31 31 0 1).last 0x1D01#16 0x08 (0x20 + b)
  else
    let was := s.flag o 31
    let s := s.writeFields o 0x08 (0x20 + b) v
    if s.flag o 31 = was then s else s.setBank b { lastFree := (s.bank b).lastFree }

end State

/-! ## Meanings -/

def execDiFilteredEdge (i : Fin 16) (level : Bool) (s : State) : Host.Outcome State Fault Refusal :=
  .next (if s.variantN then s else s.diEdgeEff i level)
def execDiCfgWrite (i : Fin 16) (v : Word) (s : State) : Host.Outcome State Fault Refusal :=
  .next (s.gate 0 (State.diOff i) v (fun s => s.diCfgWriteEff i v))
def execDiEvtPop (v : Word) (s : State) : Host.Outcome State Fault Refusal :=
  .next (s.gate 0 0x290010 v (fun s => s.diEvtPopEff v))
def execFieldSupplySample (mV : Half) (s : State) : Host.Outcome State Fault Refusal :=
  .next (if s.variantN then s else s.supplySampleEff mV.toNat)
def execDoThermalShutdown (n : Fin 16) (s : State) : Host.Outcome State Fault Refusal :=
  .next (if s.variantN then s else s.doShutdownEff n)
def execDoThermalRestart (n : Fin 16) (s : State) : Host.Outcome State Fault Refusal :=
  .next (if s.variantN then s else s.doRestartEff n)
def execDoClear (v : Word) (s : State) : Host.Outcome State Fault Refusal :=
  .next (s.gate 0 0x290210 v (fun s => s.doClearEff v))
def execDoMismatch (n : Fin 16) (s : State) : Host.Outcome State Fault Refusal :=
  .next (if s.variantN then s else s.doMismatchEff n)
def execValveFrame (s : State) : Host.Outcome State Fault Refusal :=
  .next (if s.variantN then s else s.valveFrameEff)
def execValveStatusFrame (b : Fin 2) (f : ValveStatus) (s : State) : Host.Outcome State Fault Refusal :=
  .next (if s.variantN then s else s.statusFrameEff b f)
def execValveStatusMiss (b : Fin 2) (s : State) : Host.Outcome State Fault Refusal :=
  .next (if s.variantN then s else s.statusMissEff b)

end Sys2Proof.Machine
end

