-- ==== Sys2Proof/Machine/Power.lean ====
section
/-! DEFINITION. Power, clocks and the Almanac: the ledger and admission, thermal limits, stopped clocks, module sleep,
cold boot, and the 48 V supply and nRST_REQ (R377 to R393, R402, R403, R426, R427, R465 to R468). -/

namespace Sys2Proof.Machine
namespace State

/-! ## Admission (R389, R391) -/

/-- CLASS 1 contexts as the Almanac admits or defers them (R324, R389). -/
def deferCtxs (s : State) : List Nat → State
  | [] => s
  | c :: r => deferCtxs ((s.modCtx c (fun x => if x.deferrable then { x with deferred := !s.deferAdmits } else x)).syncCtx c) r

def shedEyes (s : State) : List Nat → State
  | [] => s
  | n :: r => shedEyes (s.eyeShed n) r

/-- What a change of admission does: running eye scans end as sheddable work loses it; contexts are deferred or run again,
and streams whose head waits start it, as deferrable work loses or regains it. -/
def admission (deferWas shedWas : Bool) (s : State) : State :=
  let s := if shedWas ∧ ¬ s.shedAdmits then s.shedEyes (List.range 16) else s
  if s.deferAdmits = deferWas then s
  else
    let s := s.deferCtxs (s.allCtxs.map (·.1))
    if s.deferAdmits then s.startHeads (s.streams.map (·.1)) else s

/-! ## The ledger (R387 to R390) -/

/-- C in nJ: P_env in 0.125 W times T_win in ms. -/
def almCap (s : State) : Nat := s.fld 0x2F0104 9 0 * s.fld 0x2F0100 13 0 * 125000

/-- A quotient rounded toward zero. -/
def toZero (n : Int) (d : Nat) : Int := if 0 ≤ n then n / d else -(-n / d)

/-- One class by its threshold: whether it is without admission, from whether it was. -/
def lostAt (b : Int) (c pct hyst : Nat) (was : Bool) : Bool :=
  if was then decide (100 * b < ((pct + hyst) * c : Nat)) else decide (100 * b < (pct * c : Nat))

/-- Metered energy of the domains; the domains that TXM-860-N lacks read 0 (R383). -/
def meter (variantN : Bool) : Nat → List Nat → List Nat
  | _, [] => []
  | d, e :: r => (if 50 ≤ d ∨ (variantN ∧ (d = 45 ∨ d = 47)) then 0 else e) :: meter variantN (d + 1) r

def addEnergy (t : Tab Nat) : Nat → List Nat → Tab Nat
  | _, [] => t
  | d, e :: r => addEnergy (tset 0 t d (tget 0 t d + e)) (d + 1) r

/-- The balance after a tick of energy `e`, rescaled first where C has changed (R387). -/
def balance (s : State) (e : Nat) : Int :=
  let c := s.almCap
  let b := if s.power.cap = c ∨ s.power.cap = 0 then s.power.bal else toZero (s.power.bal * c) s.power.cap
  clampInt (-(c : Int)) c (b + (s.fld 0x2F0104 9 0 * 1250 : Nat) - e)

/-- ALMANAC_TICK (R387, R389, R390). -/
def almanacTickEff (s : State) (l : List Nat) : State :=
  if ¬ s.running ∨ s.now - s.power.tickAt < 10000 then s
  else
    let m := meter s.variantN 0 l
    let p : PowerU := { s.power with tickAt := s.power.tickAt + 10000, energy := addEnergy s.power.energy 0 m }
    if ¬ s.flag 0x2F0100 31 then { s with power := p }
    else
      let c := s.almCap
      let b := s.balance m.sum
      let h := s.fld 0x2F0108 7 0
      let d := lostAt b c (s.fld 0x2F0108 15 8) h p.deferOut
      let x := lostAt b c (s.fld 0x2F0108 23 16) h p.shedOut
      let fl := decide (b ≤ -(c : Int))
      let t : State := { s with power := { p with bal := b, cap := c, deferOut := d, shedOut := x, floor := fl } }
      let t := if x ∧ ¬ p.shedOut then t.raiseNow 0x4055#16 0x10 0xFF else t
      let t := if d ∧ ¬ p.deferOut then t.raiseNow 0x4054#16 0x10 0xFF else t
      let t := if fl ∧ ¬ p.floor then t.raiseNow 0x4051#16 0x10 0xFF else t
      t.admission s.deferAdmits s.shedAdmits

/-- A write of `ALM_CFG`: the ledger starts with B = C as EN is set, and admits all work as it is cleared (R387). -/
def almCfgWrite (s : State) (v : Word) : State :=
  let was := s.flag 0x2F0100 31
  let d := s.deferAdmits
  let x := s.shedAdmits
  let s := s.writeFields 0x2F0100 0x10 0xFF v
  if s.flag 0x2F0100 31 then
    if was then s else { s with power := { s.power with bal := s.almCap, cap := s.almCap } }
  else ({ s with power := { s.power with deferOut := false, shedOut := false, floor := false } }).admission d x

/-- A write of `ALM_THR` (R389): SHED_PCT below DEFER_PCT is raised to it, and HYST_PCT is lowered to what 100 leaves. -/
def almThrWrite (s : State) (v : Word) : State :=
  let s := s.writeFields 0x2F0108 0x10 0xFF v
  let d := s.fld 0x2F0108 15 8
  let x := s.fld 0x2F0108 23 16
  let s := if x < d then ((s.setFld 0x2F0108 23 16 d).report 0x1051#16 1 0x2F0108 23 16 x d).last 0x1051#16 0x10 0xFF else s
  let h := s.fld 0x2F0108 7 0
  let y := min h (100 - max x d)
  if y = h then s else ((s.setFld 0x2F0108 7 0 y).report 0x1051#16 1 0x2F0108 7 0 h y).last 0x1051#16 0x10 0xFF

/-- ALM_SETTING_WRITE (R387): `ALM_ENV`, or `ALM_CFG`; the next tick rescales B. -/
def almSettingEff (s : State) (env : Bool) (v : Word) : State :=
  if env then s.writeFields 0x2F0104 0x10 0xFF v else s.almCfgWrite v

/-! ## Stopped clocks (R377, R381, R400) -/

/-- Whether R377 lists a cause for a domain's clock to be stopped now, or another rule handles its stop: # − 1. -/
def stopCause (s : State) (d : Nat) : Bool :=
  if d = 21 ∨ d = 22 then true
  else if 16 ≤ d ∧ d < 20 then decide (s.fld (0x230000 + 0x40 * (d - 16)) 1 0 = 0) || decide (s.power.mode ≠ 0)
  else if 2 ≤ d ∧ d < 8 then
    decide (s.power.mode ≠ 0) || (s.engine (d - 2)).retired || s.vig.outOfService ||
      ((s.engine (d - 2)).task.isNone && !s.flag (eOff (d - 2)) 4)
  else decide (s.power.mode ≠ 0) && [8, 9, 10, 11, 13, 14].contains d

def loseLocks (s : State) : List Nat → State
  | [] => s
  | n :: r => loseLocks (s.blockLockLossEff n true) r

/-- CLOCK_STOP_DETECT (R381, R400). -/
def clockStopEff (s : State) (d : Nat) : State :=
  if ¬ s.running ∨ s.power.stopped.getLsbD d ∨ s.stopCause d then s
  else
    let s := { s with power := { s.power with stopped := s.power.stopped ||| (1#25 <<< d) } }
    let s := (s.setReg 0x2F0004 (s.reg 0x2F0004 ||| (1#32 <<< d))).raise 0x5051#16 0x10 (d + 1)
    if h : 2 ≤ d ∧ d < 8 then (s.fence (d - 2)).detect (.engine ⟨d - 2, by omega⟩)
    else if d = 8 ∨ d = 14 then s.detect .compute
    else if d = 20 then { s with fs := { s.fs with beating := false } }.detect .processor
    else if [9, 10, 11, 13, 15].contains d then s.detect .processor
    else if 16 ≤ d ∧ d < 20 then s.loseLocks [4 * (d - 16), 4 * (d - 16) + 1, 4 * (d - 16) + 2, 4 * (d - 16) + 3]
    else s

/-! ## Module sleep (R385, R386) -/

/-- What stands against module sleep. -/
def sleepBarred (s : State) : Bool :=
  s.flag 0x280000 31 || s.sluices.any (fun (p : Nat × Sluice) => p.2.run) || !s.streams.isEmpty ||
  s.engines.any (fun (p : Nat × Engine) => match p.2.task with | some t => t.startAt.isSome | none => false)

/-- Ports without a clock: their lanes adapt and hunt again as the clocks run (R51, R386). -/
def quietPorts (s : State) : List Nat → State
  | [] => s
  | n :: r => quietPorts (s.stopPort n) r

/-- SLEEP (R385): a write of `PWR_CTL` with SLEEP. -/
def sleepEff (s : State) (v : Word) : State :=
  if ¬ bit v 31 ∨ s.power.mode ≠ 0 then s
  else if s.sleepBarred then s.refuse 0x1051#16 0x10 0xFF 0x2F0018 31
  else { s with power := { s.power with mode := 2 } }.quietPorts (List.range 16)

/-- WAKE (R386): a write of `PWR_CTL` with WAKE. -/
def wakeEff (s : State) (v : Word) : State :=
  if bit v 30 ∧ s.power.mode = 2 then { s with power := { s.power with mode := 0 } } else s

/-! ## The unpowered processor (R403) -/

/-- Fail-safe settings, which the Dike domain keeps while 48 V is present. -/
def fsKept (off : Nat) : Bool := decide (off = 0x284008) || decide (0x284020 ≤ off ∧ off < 0x284060) || decide (off = 0x300090)

/-- The processor without its supplies (R393, R403): everything is as reset, but for the Dike and SEC domains and the
flash, host memory, and the queue. Outputs are in their fail-safe states. -/
def unpowered (s : State) : State :=
  { State.reset with
    pending := s.pending, free := s.free, now := s.now, time := {}, variantN := s.variantN
    log := { host := s.log.host, hex := s.log.hex, hexHead := s.log.hexHead,
             lastCodes := s.log.lastCodes.filter (fun (p : Nat × Half) => decide (p.1 / 0x10000 = 0x30) || decide (p.1 / 0x10000 = 0x32)) }
    regs := s.regs.filter (fun (p : Nat × Word) => fsKept p.1)
    fs := { held := (s.withFs { s.fs with heartbeat := true }).fs.held }
    engines := s.engines.map (fun (p : Nat × Engine) => (p.1, { retired := p.2.retired, resets := p.2.resets }))
    lead := { s.lead with deferred := [], frozen := false }
    vig := { s.vig with orders := [], cmpFrom := none, procFrom := none, coldFrom := none, byCommand := false, image := [],
                        imageSealed := false, seqs := [], kicks := [], late := 0, timeouts := 0 }
    sec := { s.sec with lsw := none, lswDigest := [], lswLen := 0, debug := 0, nonce := none, code := 0, done := false }
    power := { off := s.power.off, dark := s.power.dark, tickAt := s.now, tj := s.power.tj, tmem := s.power.tmem, readAt := s.power.readAt,
               coolFrom := s.power.coolFrom } }

/-! ## Thermal limits (R391, R393) -/

/-- The largest of the readings; the last one where there is none. -/
def hottest (last : Int) : List Int → Int
  | [] => last
  | t :: r => r.foldl max t

/-- A row of R391 in force: at its entry thresholds, or above 3 °C below them where it was in force. -/
def rowIn (tj tm : Int) (j m : Int) (was : Bool) : Bool :=
  decide (16 * j ≤ tj) || decide (16 * m ≤ tm) || (was && (decide (16 * (j - 3) ≤ tj) || decide (16 * (m - 3) ≤ tm)))

/-- THERMAL_SAMPLE (R391): readings in 1/16 °C. -/
def thermalSampleEff (s : State) (logic dram : List Int) : State :=
  if s.power.dark ∨ s.now - s.power.readAt < 100000 then s
  else
    let p := s.power
    let tj := hottest p.tj logic
    let tm := hottest p.tmem dram
    let hot := rowIn tj tm 110 98 p.hotFrom.isSome
    let cap := hot || rowIn tj tm 95 90 p.capped
    let warm := cap || rowIn tj tm 90 88 p.warm
    let ref := warm || decide (16 * 85 < tm) || (p.refresh && decide (16 * 82 < tm))
    let cool := decide (tj < 16 * 85) && decide (tm < 16 * 85)
    let q : PowerU := { p with
      tj, tmem := tm, readAt := s.now, kTherm := if cap then 0 else if warm then 2 else 4, refresh := ref, warm, capped := cap
      hotFrom := if hot then some (p.hotFrom.getD s.now) else none, coolFrom := if cool then some (p.coolFrom.getD s.now) else none }
    let t : State := { s with power := q }
    if ¬ s.running then t
    else
      let t := if ref ∧ ¬ p.refresh then t.raiseNow 0x4052#16 0x10 0xFF else t
      let t := if cap ∧ ¬ p.capped then t.raiseNow 0x4053#16 0x10 0xFF else t
      t.admission s.deferAdmits s.shedAdmits

/-- THERMAL_SHUTDOWN (R393, R415): the highest row has held for 1 ms. -/
def thermalShutdownEff (s : State) : State :=
  if s.power.off ∨ s.power.dark ∨ ¬ s.lateBy s.power.hotFrom 1000000 then s
  else
    let s := (s.raise 0x5052#16 0x10 0xFF).flushDue 0x5052#16
    let s := (s.heartbeatLossEff).setReason 5
    let s := { s with power := { s.power with off := true, coolFrom := none } }
    s.unpowered

/-- THERMAL_RESTART (R393): both temperatures have been below 85 °C for 10 s. -/
def thermalRestartEff (s : State) : State :=
  if s.power.off ∧ s.lateBy s.power.coolFrom 10000000000 then s.order .cold false else s

/-! ## Cold boot (R402, R403, R410, R418, R426, R427) -/

/-- The recovery state: a check of the boot chain has failed (R426, R427). -/
def enterRecovery (s : State) (code : Half) : State :=
  let s := { s with sec := { s.sec with state := 0 }, vig := { s.vig with coldFrom := none } }
  if codeChapter code = 0x08 then s.raise code 0x0E 0 else s.secCode code

/-- The boot chain's result (R426). -/
def bootChain (s : State) (c : BootCheck) : State :=
  match c with
  | .puf => s.enterRecovery 0x5072#16
  | .counters => s.enterRecovery 0x6077#16
  | .descriptor => s.enterRecovery 0x6081#16
  | .otherModule => s.enterRecovery 0x6082#16
  | .image => s.enterRecovery 0x6071#16
  | .svn => s.enterRecovery 0x6072#16
  | .ok =>
    if ¬ s.sec.imageOk then s.enterRecovery 0x6071#16
    else { s with sec := { s.sec with header := if s.sec.flash = [] then s.sec.header else s.sec.flash
                                      state := if allZero s.ownerKey then 1 else 2 } }

/-- COLD_BOOT: the supplies are cycled and the boot chain runs. -/
def coldBootEff (s : State) (c : BootCheck) : State :=
  if s.power.dark ∨ s.vig.pinFrom.isSome then s
  else match s.takeOrder .cold with
    | none => s
    | some (_, s) =>
      let s := s.unpowered
      let s : State := { s with power := { s.power with off := false }, lead := { grantAt := s.now, sentAt := s.now },
                                vig := { s.vig with coldFrom := some s.now, boots := s.vig.boots + 1 } }
      let s := (s.bumpTotal 8).enterFirst 0x5064#16 s.vig.failedBoots
      (s.last 0x5064#16 0x0C 0).bootChain c

/-- COLD_BOOT_COMPLETE (R40, R402, R426): counter 0 takes the image's SVN where it is higher. -/
def coldBootCompleteEff (s : State) : State :=
  if s.vig.coldFrom.isNone ∨ s.power.dark ∨ s.vig.pinFrom.isSome then s
  else
    let n := fieldAt s.sec.header 0x0C 4
    { s with time := { s.time with running := true }, vig := { s.vig with coldFrom := none, failedBoots := 0 },
             sec := { s.sec with svn := BitVec.ofNat 32 (max s.sec.svn.toNat n) } }

/-! ## The 48 V supply and nRST_REQ (R465, R466, R468) -/

/-- POWER_LOSS (R466): what is not in flash is lost. -/
def powerLossEff (s : State) : State :=
  let r := s.reasons
  let t := { s with power := { s.power with dark := true, off := false, coolFrom := none } }.unpowered
  { t with
    log := { host := t.log.host }, regs := tset 0 [] 0x300090 (BitVec.ofNat 32 r), fs := {}, engines := [], lead := {}
    vig := { powerOns := s.vig.powerOns, slots := s.vig.slots, serial := s.vig.serial } }

/-- POWER_ON (R465): conversion starts, and a cold boot begins. -/
def powerOnEff (s : State) : State :=
  if s.power.dark then { s with power := { s.power with dark := false }, vig := { s.vig with powerOns := s.vig.powerOns + 1, boots := 0 } }.order .cold false
  else s

/-- The pin has been held low: the processor is unpowered. -/
def pinHeld (s : State) : State :=
  let t := s.unpowered
  { t with vig := { t.vig with halted := false, pinFrom := some s.now } }

/-- NRST_REQ (R468): the pin is held low for `ns`. -/
def nrstReqEff (s : State) (ns : Nat) : State :=
  if s.power.dark ∨ ns < 1000000 ∨ s.vig.pinFrom.isSome then s
  else if ns < 10000000 then (let (b, t) := s.drawBool; if b then t.pinHeld else t)
  else s.pinHeld

/-- NRST_REQ_RELEASE (R468): the cold boot it orders acts under freeze too and is not counted. -/
def nrstReqReleaseEff (s : State) : State :=
  if s.vig.pinFrom.isSome then { s with vig := { s.vig with pinFrom := none } }.order .cold false else s

/-! ## Pins and indicators (R467, R474) -/

/-- nREADY is driven low. -/
def readyPin (s : State) : Bool := s.running && decide (s.sec.state ≠ 0)
/-- nREPLACE is driven low. -/
def replacePin (s : State) : Bool := !s.power.dark && decide (s.reasons ≠ 0)

/-- The clocks that run (`CLK_STAT`), by # − 1, but for stops that R377 lists with each domain. -/
def clocksOn (s : State) (d : Nat) : Bool := !s.power.dark && !s.power.stopped.getLsbD d && !s.stopCause d

end State

/-- What an indicator of R474 shows. -/
inductive Lamp where
  | dark | green | greenSlow | green1 | amber | amber2 | alternate | red | red2
  deriving DecidableEq, Repr

namespace State

def lampPwr (s : State) : Lamp := if s.power.dark then .dark else .green
def lampRun (s : State) : Lamp :=
  if s.power.dark ∨ s.power.off ∨ s.vig.halted ∨ s.vig.pinFrom.isSome then .dark
  else if s.sec.state = 0 then .amber
  else if s.freeze then .alternate
  else if s.vig.coldFrom.isSome ∨ s.vig.procFrom.isSome then .amber2
  else if s.power.mode ≠ 0 then .greenSlow
  else if s.sealed then .green else .green1
def lampSvc (s : State) : Lamp :=
  if s.reasons / 16 % 2 = 1 then .red2 else if s.reasons ≠ 0 then .red else if s.sec.debug ≠ 0 then .amber else .dark

end State

/-! ## Meanings -/

def execAlmanacTick (l : List Nat) (s : State) : Host.Outcome State Fault Refusal := .next (s.almanacTickEff l)
def execAlmSettingWrite (env : Bool) (v : Word) (s : State) : Host.Outcome State Fault Refusal :=
  .next (s.gate 0 (if env then 0x2F0104 else 0x2F0100) v (fun s => s.almSettingEff env v))
def execClockStopDetect (d : Fin 25) (s : State) : Host.Outcome State Fault Refusal := .next (s.clockStopEff d)
def execSleep (v : Word) (s : State) : Host.Outcome State Fault Refusal := .next (s.gate 0 0x2F0018 v (fun s => s.sleepEff v))
def execWake (v : Word) (s : State) : Host.Outcome State Fault Refusal := .next (s.gate 0 0x2F0018 v (fun s => s.wakeEff v))
def execThermalSample (logic dram : List Int) (s : State) : Host.Outcome State Fault Refusal := .next (s.thermalSampleEff logic dram)
def execThermalShutdown (s : State) : Host.Outcome State Fault Refusal := .next s.thermalShutdownEff
def execThermalRestart (s : State) : Host.Outcome State Fault Refusal := .next s.thermalRestartEff
def execColdBoot (c : BootCheck) (s : State) : Host.Outcome State Fault Refusal := .next (s.coldBootEff c)
def execColdBootComplete (s : State) : Host.Outcome State Fault Refusal := .next s.coldBootCompleteEff
def execPowerOn (s : State) : Host.Outcome State Fault Refusal := .next s.powerOnEff
def execPowerLoss (s : State) : Host.Outcome State Fault Refusal := .next s.powerLossEff
def execNrstReq (ns : Nat) (s : State) : Host.Outcome State Fault Refusal := .next (s.nrstReqEff ns)
def execNrstReqRelease (s : State) : Host.Outcome State Fault Refusal := .next s.nrstReqReleaseEff

end Sys2Proof.Machine
end

