-- ==== Sys2Proof/Machine/Security.lean ====
section
/-! DEFINITION. Security requests: firmware update, ownership, attestation, debug unlock, line software, the identity
certificate, and the ordered cold boot (R422, R425 to R430, R433 to R437, R440). -/

namespace Sys2Proof.Machine
namespace State

/-! ## The request mailbox (R440) -/

/-- The request buffer and its length. -/
def secBuf (s : State) : Nat := s.reg64 0x320004 / 4096 * 4096
def secLen (s : State) : Nat := (s.reg 0x32000C).toNat
/-- The request's bytes. -/
def secBytes (s : State) : List Byte := readBytes s.bonded s.secBuf s.secLen
/-- What PF0's BAR4 exposes: bonded memory, or the staging area of the recovery state (R340, R427). -/
def bar4Bytes (s : State) : Nat := if s.sec.state = 0 then 2 ^ 26 else bondedBytes
/-- Output written into the buffer, as far as BAR4 goes. -/
def secOut (s : State) (bs : List Byte) : State := { s with bonded := writeBytes s.bonded s.secBuf (bs.take (s.bar4Bytes - s.secBuf)) }

/-- `SYS_LSW`: base and bytes. -/
def lswRegion (s : State) : Nat × Nat := (s.reg64 0x200020 / 2 ^ 26 * 2 ^ 26, s.fld 0x200028 7 0 * 2 ^ 26)

/-- What stands against region 1: its size, or what it meets. -/
def lswBar (s : State) : Option Nat :=
  let (b, n) := s.lswRegion
  if n = 0 ∨ 128 * 2 ^ 26 < n then some 0xFF else s.exclusiveMeets 1 b n

/-- A request's outcome: its code, and DONE. -/
def secDone (code : Half) (s : State) : State :=
  let s := { s with sec := { s.sec with code, done := true } }
  if code = 0 then s
  else if code = 0x1083#16 then (s.reportSubject code 2 (regionSubject 1 (s.lswBar.getD 0xFF))).last code 0x0D 0
  else s.secCode code

/-- Why a request with an OP is refused before it starts (R427, R437, R440). -/
def secBar (s : State) (op : Nat) : Option Half :=
  if op = 0 ∨ 9 < op ∨ s.bar4Bytes < s.secBuf + s.secLen then some 0x1071#16
  else if s.sec.state = 0 ∧ op ≠ 1 ∧ op ≠ 3 then some 0x1072#16
  else if op = 9 ∧ s.freeze then some 0x1062#16
  else none

/-- A request: GO with an OP. -/
def secRequest (s : State) (op : Nat) (f : State → Half × State) : State :=
  match s.secBar op with
  | some c => s.secDone c
  | none => let (c, s) := f s; s.secDone c

/-! ## Firmware (R426, R428) -/

/-- Steps 3 to 6 of the boot chain on a header and its payload. -/
def imageGood (s : State) (e : List Byte) : Bool :=
  let h := e.take 512
  let n := fieldAt h 0x10 4
  let p := slice e 512 n
  let msg := h.take 0x38
  let k := fieldAt h 0x14 1
  decide (fieldAt h 0 4 = 0x49574C52) && decide (fieldAt h 4 2 = 1) && decide (1 ≤ n) && decide (n ≤ 25165312) && decide (512 + n ≤ e.length) &&
  (if hk : k < 4 then Config.ed448Verify (Config.romKey ⟨k, hk⟩) msg (slice h 0x38 114) else false) &&
  decide (shake256 p 32 = slice h 0x18 32) &&
  (!s.ownerFlag 0 || (decide (fieldAt h 0x15 1 % 2 = 1) && Config.ed448Verify s.ownerKey msg (slice h 0xAA 114)))

/-- Debug level 0 at once (R437). -/
def debugOff (s : State) : State := { s with sec := { s.sec with debug := 0 } }

/-- FIRMWARE_UPDATE: checked, programmed and read back; in the recovery state a cold boot follows. -/
def firmwareUpdate (readBackOk : Bool) (s : State) : Half × State :=
  let e := s.secBytes
  if ¬ s.imageGood e then (0x6071#16, s)
  else if fieldAt e 0x0C 4 < s.sec.svn.toNat then (0x6072#16, s)
  else if ¬ readBackOk then (0x5071#16, { s with sec := { s.sec with flash := [], imageOk := false } })
  else
    let t := { s with sec := { s.sec with flash := e.take 512, imageOk := true } }.debugOff
    (0, if s.sec.state = 0 then t.order .cold false else t)

/-! ## Ownership (R429, R430) -/

/-- OWNER_RECORD. -/
def ownerRecord (s : State) : Half × State :=
  let e := s.secBytes.take 1024
  let key := slice e 0x28 57
  if s.sec.gen = 0xFFFFFFFF#32 then (0x1072#16, s)
  else if e.length = 1024 ∧ fieldAt e 0 4 = 0x4F574C52 ∧ fieldAt e 4 4 = s.sec.gen.toNat + 1 ∧ slice e 8 32 = idDigest ∧
      Config.ed448Verify (if s.sec.state = 2 then s.ownerKey else key) (e.take 0x38E) (slice e 0x38E 114) then
    (0, { s with sec := { s.sec with gen := s.sec.gen + 1, owner := if allZero key then [] else e, state := if allZero key then 1 else 2, debug := 0 } })
  else (0x6073#16, s)

/-! ## Attestation (R434) -/

/-- The attested state with the line-software digest. -/
def attestedAll (s : State) : List Byte := s.attested ++ padTo 32 s.sec.lswDigest

/-- The report before its signature. -/
def reportBytes (s : State) (nonce : List Byte) : List Byte :=
  let r := s.residentRecipes.take 64
  leBytes 4 0x41574C52 ++ leBytes 2 1 ++ leBytes 2 r.length ++ padTo 32 nonce ++ idDigest ++ padTo 57 idPublic ++ padTo 56 kxPublic ++ leBytes 3 0 ++
  s.attested ++ leBytes 6 s.stamp.sec ++ leBytes 2 s.stamp.epoch ++ leBytes 4 s.stamp.ns ++ padTo 32 s.sec.lswDigest ++ leBytes 60 0 ++
  r.flatMap (fun x => padTo 32 x.digest)

/-- ATTESTATION. -/
def attestation (s : State) : Half × State :=
  let b := s.reportBytes (readBytes s.bonded s.secBuf 32)
  (0, s.secOut (b ++ padTo 114 (Config.ed448Sign idSeed b)))

/-! ## Debug unlock (R435 to R437) -/

/-- DEBUG_CHALLENGE. -/
def debugChallenge (s : State) : Half × State :=
  let n := padTo 32 (Config.freshNonce s.sec.nonces)
  (0, { s with sec := { s.sec with nonce := some (n, s.now, s.attestedAll), nonces := s.sec.nonces + 1 } }.secOut n)

/-- The nonce that a token may carry: fresh within 600 s, and the attested state as it was. -/
def nonceNow (s : State) : Option (List Byte) :=
  match s.sec.nonce with
  | none => none
  | some (n, t, a) => if s.now - t < 600000000000 ∧ a = s.attestedAll then some n else none

/-- Who may sign a token (R436). -/
def tokenSigned (s : State) (e : List Byte) : Bool :=
  let msg := e.take 0x8C
  let sig := slice e 0x8C 114
  let level := fieldAt e 4 1
  match fieldAt e 5 1 with
  | 0 => decide (s.sec.state = 2) && Config.ed448Verify s.debugKey msg sig && (decide (level = 1) || s.ownerFlag 1)
  | 1 => romVerify msg sig && (decide (s.sec.state = 1) || (s.ownerFlag 2 && (decide (level = 1) || s.ownerFlag 1)))
  | _ => false

/-- DEBUG_TOKEN. -/
def debugToken (s : State) : Half × State :=
  let e := s.secBytes.take 256
  let level := fieldAt e 4 1
  let serial := fieldAt e 0x48 4
  let life := fieldAt e 0x4C 4
  if s.sec.token = 0xFFFFFFFF#32 then (0x1072#16, s)
  else if e.length = 256 ∧ fieldAt e 0 4 = 0x44574C52 ∧ (level = 1 ∨ level = 2) ∧ slice e 8 32 = idDigest ∧ s.nonceNow = some (slice e 0x28 32) ∧
      s.sec.token.toNat < serial ∧ 60 ≤ life ∧ life ≤ 86400 ∧ s.tokenSigned e then
    if level = 2 ∧ s.encResident then (0x6078#16, s)
    else (0, { s with sec := { s.sec with debug := level, debugUntil := s.now + life * 1000000000, token := BitVec.ofNat 32 serial, nonce := none } })
  else (0x6076#16, s)

/-- DEBUG_LIFETIME_EXPIRY (R437). -/
def debugExpiryEff (s : State) : State := if s.sec.debug ≠ 0 ∧ s.sec.debugUntil ≤ s.now then s.debugOff else s

/-! ## Line software (R433, R453) -/

/-- An envelope of line software whose signature verifies. -/
def lswOk (s : State) (e : List Byte) : Bool :=
  envForm e && !envEnc e && decide (fieldAt e 7 1 = 4) && decide (s.sec.state = 2) && !allZero s.lineKey &&
  Config.ed448Verify s.lineKey (envSigned e) (slice e 0x80 114)

/-- LINE_SOFTWARE: the image is placed in its region, and its digest is kept for attestation. -/
def lineSoftware (s : State) : Half × State :=
  let e := s.secBytes
  let p := envPayload e
  let (b, n) := s.lswRegion
  if ¬ s.lswOk e then (0x6079#16, s)
  else match s.lswBar with
    | some _ => (0x1083#16, s)
    | none =>
      if n < p.length then (0x6079#16, s)
      else (0, { s with bonded := writeBytes s.bonded b p, sec := { s.sec with lsw := some (b, n), lswDigest := shake256 p 32, lswLen := p.length } })

/-- The line software verified again from its copy after a processor reset (R433). -/
def lswAgain (s : State) : State :=
  match s.sec.lsw with
  | none => s
  | some (b, _) =>
    if s.sec.lswDigest = [] ∨ shake256 (readBytes s.bonded b s.sec.lswLen) 32 = s.sec.lswDigest then s
    else { s with sec := { s.sec with lswDigest := [] } }.secCode 0x6079#16

/-! ## The other requests -/

/-- READ_CERTIFICATE (R422). -/
def readCertificate (s : State) : Half × State := (0, s.secOut Config.identityCertificate)

/-- SEC_COLD_BOOT (R440): the Hexkeug record is flushed, and a cold boot ordered. -/
def secColdBoot (s : State) : Half × State := (0, (s.flushDue 0x5064#16).order .cold false)

/-- A request as its OP names it. -/
def secOp (s : State) (readBackOk : Bool) (op : Nat) : State :=
  s.secRequest op (match op with
    | 1 => firmwareUpdate readBackOk
    | 2 => ownerRecord
    | 3 => attestation
    | 4 => debugChallenge
    | 5 => debugToken
    | 6 => (fun s => (0, s.debugOff))
    | 7 => lineSoftware
    | 8 => readCertificate
    | _ => secColdBoot)

/-- A request made through `SEC_REQ_CTL`. -/
def secGo (s : State) (op : Nat) (f : State → Half × State) : State :=
  s.gate 0 0x320010 (BitVec.ofNat 32 (2 ^ 31 + op)) (fun s => s.secRequest op f)

end State

/-! ## Meanings -/

def execFirmwareUpdate (ok : Bool) (s : State) : Host.Outcome State Fault Refusal := .next (s.secGo 1 (State.firmwareUpdate ok))
def execOwnerRecord (s : State) : Host.Outcome State Fault Refusal := .next (s.secGo 2 State.ownerRecord)
def execAttestation (s : State) : Host.Outcome State Fault Refusal := .next (s.secGo 3 State.attestation)
def execDebugChallenge (s : State) : Host.Outcome State Fault Refusal := .next (s.secGo 4 State.debugChallenge)
def execDebugToken (s : State) : Host.Outcome State Fault Refusal := .next (s.secGo 5 State.debugToken)
def execDebugLock (s : State) : Host.Outcome State Fault Refusal := .next (s.secGo 6 (fun s => (0, s.debugOff)))
def execDebugLifetimeExpiry (s : State) : Host.Outcome State Fault Refusal := .next s.debugExpiryEff
def execLineSoftware (s : State) : Host.Outcome State Fault Refusal := .next (s.secGo 7 State.lineSoftware)
def execReadCertificate (s : State) : Host.Outcome State Fault Refusal := .next (s.secGo 8 State.readCertificate)
def execSecColdBoot (s : State) : Host.Outcome State Fault Refusal := .next (s.secGo 9 State.secColdBoot)

end Sys2Proof.Machine
end

