-- ==== Sys2Proof/Machine/Views.lean ====
section
/-! DEFINITION. What the host reads: the read-only registers of every block as functions of the state (the register tables
that end each chapter; R8, R447), and the descriptor and the windows of the configuration report and the Hexkeug record. -/

namespace Sys2Proof.Machine
namespace State

/-! ## Parts of status words -/

/-- LAST_CODE of a status register, in its place. -/
def codeHigh (s : State) (off : Nat) : Nat := (tget 0 s.log.lastCodes off).toNat * 65536
/-- Bit n of a list of flags, from bit 0. -/
def packBits : List Bool → Nat
  | [] => 0
  | b :: r => (if b then 1 else 0) + 2 * packBits r
/-- Bits 31:0 or the bits above, of a number as two's complement. -/
def halfOf (hi : Bool) (x : Int) : Nat := if hi then (x / 2 ^ 32 % 2 ^ 32).toNat else (x % 2 ^ 32).toNat
/-- The four bytes at an offset of a byte string, little-endian. -/
def wordAt (bs : List Byte) (off : Nat) : Nat := leNat ((bs.drop off).take 4)

/-! ## Power domains (R383) -/

/-- Whether an engine's domains may be off: it is in no polder, is not the spare, or is retired. -/
def engineOff (s : State) (e : Nat) : Bool :=
  (s.engine e).retired || ((s.engine e).polder.isNone && decide (s.spareOf ≠ some e))

/-- Whether a power domain is switched on. -/
def powered (s : State) (d : Nat) : Bool :=
  let asleep := decide (s.power.mode ≠ 0)
  if s.power.dark then false
  else if 3 ≤ d ∧ d ≤ 8 then !s.engineOff (d - 3)
  else if 9 ≤ d ∧ d ≤ 14 then !s.engineOff (d - 9)
  else if 15 ≤ d ∧ d ≤ 18 then (List.range 6).any (fun p => (s.polder p).made && decide ((s.polder p).psn ≠ 0) &&
    decide ((s.polder p).ps0 < 24 * (d - 14)) && decide (24 * (d - 15) < (s.polder p).ps0 + (s.polder p).psn))
  else if 28 ≤ d ∧ d ≤ 31 then !(s.slotsTaken (d - 28)).isEmpty
  else if d = 32 then decide (s.encodeOpen ≠ 0)
  else if d = 33 then decide (s.decodeOpen ≠ 0)
  else if 34 ≤ d ∧ d ≤ 37 then decide (s.quadMode (d - 34) ≠ 0) && !asleep
  else if d = 39 ∨ d = 41 then !asleep
  else if d = 44 then (s.sluice 16).run || (s.sluice 17).run
  else if d = 45 then !s.variantN
  else if d = 47 then !s.variantN && (s.vbOn 0 || s.vbOn 1)
  else if d = 49 then decide (s.sec.debug ≠ 0)
  else decide (d < 50)

/-- The bytes of a report entry (R451). -/
def reportEntryBytes (e : RepEntry) : List Byte :=
  leBytes 4 e.seq.toNat ++ leBytes 2 e.code.toNat ++ [e.outcome, e.fn] ++ leBytes 4 e.off.toNat ++ [e.low, e.width] ++ leBytes 2 0 ++
  leBytes 4 e.written.toNat ++ leBytes 4 e.applied.toNat ++ leBytes 8 e.subject.toNat

/-! ## The blocks -/

/-- Axes and emulation outputs (R22 to R38). -/
def viewAxis (s : State) (off : Nat) : Option Nat :=
  if off < 0x210400 then
    let n := (off - 0x210000) / 0x100
    let a := s.axis n
    match off % 0x100 with
    | 0x1C => some (a.pos.toNat % 2 ^ 32)
    | 0x20 => some (a.pos.toNat / 2 ^ 32)
    | 0x24 => some (halfOf false (s.speed n))
    | 0x28 => some (s.codeHigh off + 2 ^ 11 * a.wire.toNat + 2 ^ 10 * packBits [a.warn] + bits (s.reg off) 9 6 * 64 +
        packBits [s.encOn n && !s.axisFault n, a.neg, a.method, a.still, decide (a.wire ≠ 0), s.axisFault n])
    | 0x34 => some (a.zpos.toNat % 2 ^ 32)
    | 0x38 => some (a.zpos.toNat / 2 ^ 32)
    | _ => none
  else if 0x210800 ≤ off then
    let m := (off - 0x210800) / 0x40
    if off % 0x40 = 0x0C then some (s.codeHigh off + bits (s.reg off) 15 15 * 32768)
    else if off % 0x40 = 0x10 then some (halfOf false ((s.emu m).target - (s.emu m).emitted)) else none
  else none

/-- Module time (R39 to R43). -/
def viewTime (s : State) (off : Nat) : Option Nat :=
  let st := ofTime s.time.snapTime s
  let p := s.time.snapPos.getD ((off - 0x220014) / 8) 0
  match off with
  | 0x220004 => some (st.sec % 2 ^ 32)
  | 0x220008 => some (st.sec / 2 ^ 32)
  | 0x22000C => some st.ns
  | 0x220010 => some st.frac
  | 0x22004C => some (s.time.epoch.toNat * 256 + packBits [s.time.stepped] * 4 + s.time.servo)
  | 0x220050 => some (halfOf false s.time.offset)
  | 0x220034 => some (unsigned 40 s.time.rate % 2 ^ 32)
  | 0x220038 => some (unsigned 40 s.time.rate / 2 ^ 32)
  | _ =>
    if 0x220014 ≤ off ∧ off < 0x220034 then
      some (if off % 8 = 4 then p.toNat / 65536 % 2 ^ 32 else p.toNat % 65536 * 65536 + p.toNat / 2 ^ 48)
    else none

/-- Lanes and ports (R50 to R61). -/
def viewLane (s : State) (off : Nat) : Option Nat :=
  if 0x231000 ≤ off ∧ off < 0x232000 then
    let n := (off - 0x231000) / 0x100
    let l := s.lane n
    let nb := if l.eyeRun then s.eyeBitsNow n else l.eyeBits.toNat
    let ne := if l.eyeRun then s.eyeErrNow n else l.eyeErr.toNat
    match off % 0x100 with
    | 0x08 => some l.dfe.toNat
    | 0x0C => some (l.ctle * 65536 + packBits [l.signal, l.cdr, false, false, l.rxLpi, l.txLpi, s.pllLock n, l.adapted])
    | 0x10 => some (bits (s.reg off) 28 0 + 2 ^ 29 * packBits [l.eyeShed, l.eyeDone])
    | 0x14 => some (nb % 2 ^ 32)
    | 0x18 => some (nb / 2 ^ 32)
    | 0x1C => some (ne % 2 ^ 32)
    | 0x20 => some (ne / 2 ^ 32)
    | _ => none
  else if 0x232000 ≤ off ∧ off % 0x200 = 8 then
    let n := (off - 0x232000) / 0x200
    let p := s.port n
    some (packBits [p.locked, p.hiBer, p.remoteFault, s.portOn n && (!p.locked || p.hiBer)])
  else none

/-- Sluices (R71 to R89). -/
def viewSluice (s : State) (off : Nat) : Option Nat :=
  if off < 0x241200 ∧ off % 0x100 = 0x20 then
    let c := s.sluice ((off - 0x240000) / 0x100)
    some (s.codeHigh off + packBits [c.run, c.clkLost, c.warn, c.brk])
  else if 0x242000 ≤ off ∧ off % 0x40 = 4 then some (tget ({} : Par) s.pars ((off - 0x242000) / 0x40)).kHz.toNat
  else none

/-- Pipes and their slots (R97 to R105). -/
def viewPipe (s : State) (off : Nat) : Option Nat :=
  let p := (off - 0x250000) / 0x400
  if off % 0x400 = 0 then
    let used := s.slotsTaken p
    some (s.codeHigh off + used.length * 256 + packBits [!used.isEmpty, (s.pipe p).inlineBound])
  else if 0x100 ≤ off % 0x400 ∧ off % 0x400 < 0x300 then
    let i := 4 * p + (off % 0x400 - 0x100) / 0x80
    let x := s.slot i
    match off % 0x80 with
    | 0x00 => some (match x.ctx with | none => 0 | some k => 256 + k)
    | 0x0C => some (bits (s.reg off) 27 0 + 2 ^ 28 * packBits [x.loaded, x.pending])
    | 0x18 => some x.gen.toNat
    | 0x1C => some (x.applied % 2 ^ 32)
    | 0x20 => some (x.applied / 2 ^ 32)
    | d => if 0x40 ≤ d ∧ d ≤ 0x5C then some (if x.active.isEmpty then 0 else wordAt (setDigest x.active) (d - 0x40)) else none
  else none

/-- Engines and the order table (R108 to R121). -/
def viewEngine (s : State) (off : Nat) : Option Nat :=
  if off < 0x266000 then
    let e := (off - 0x260000) / 0x1000
    let x := s.engine e
    let up := x.polder.isSome && !x.retired && x.inReset.isNone
    match off % 0x1000 with
    | 0x04 => some (s.codeHigh off + x.gen % 256 * 256 +
        packBits [up, s.holdsStarted e, s.runAhead e, s.flag (eOff e) 4, decide (s.spareOf = some e), x.retired])
    | 0x08 => some (if up ∧ s.power.mode = 0 then s.engMHz e else 0)
    | _ => none
  else if off = 0x268008 then
    some (s.shareUsed 0 % 4096 + s.shareUsed 1 % 4096 * 65536)
  else if off = 0x26800C then some State.arithRev
  else none

/-- The KV pool and the prefix tree (R196 to R217). -/
def viewKv (s : State) (off : Nat) : Option Nat :=
  match off with
  | 0x270010 => some (s.codeHigh off + packBits [s.kv.running, s.kv.running && decide (s.kvFree < s.kvResv + s.kvGrow)])
  | 0x270014 => some s.kv.slots
  | 0x270018 => some s.kvFree
  | 0x27001C => some s.kvResv
  | 0x270020 => some (s.tracks.filter (fun (p : Nat × Track) => decide (p.2.state = 1))).length
  | 0x27010C => some (s.codeHigh off + packBits [s.kv.treeRunning])
  | 0x270110 => some (s.kv.epoch % 2 ^ 32)
  | 0x270114 => some (s.readerMin % 2 ^ 32)
  | 0x270118 => some (s.nodes.filter (fun (p : Nat × Node) => decide (p.2.state ≠ 0))).length
  | 0x27011C => some (s.kv.deferred.filter (fun d => !d.voided)).length
  | _ => if 0x270060 ≤ off ∧ off < 0x270078 then some (s.kvUsed ((off - 0x270060) / 4)) else none

/-- The verdict unit, the Calendar and fail-safe (R248 to R275). -/
def viewVerdict (s : State) (off : Nat) : Option Nat :=
  match off with
  | 0x280004 => some (s.codeHigh off + packBits [s.vuOn, s.fs.beating, s.anyEngaged])
  | 0x284004 => some (packBits ([s.fs.heartbeat, s.fs.command, false, !s.fs.full.isEmpty] ++ (List.range 4).map s.fs.axes.contains))
  | _ => if 0x280040 ≤ off ∧ off < 0x280050 then some (s.calOf ((off - 0x280040) / 4)).length else none

/-- The field section (R278 to R293). -/
def viewField (s : State) (off : Nat) : Option Nat :=
  let l16 (f : Nat → Bool) : Nat := packBits ((List.range 16).map f)
  match off with
  | 0x290000 => some (s.codeHigh off + packBits [!s.variantN, s.field.uv, s.field.ok])
  | 0x290004 => some s.field.supply
  | 0x290008 => some (l16 s.diRaw * 65536 + l16 (fun i => (s.di i).out))
  | 0x29000C => some s.field.fifo.length
  | 0x290204 => some (l16 (fun n => ((s.doPin n).readback).getD (s.doLevel n)) * 65536 + l16 s.doLevel)
  | 0x290208 => some (l16 (fun n => (s.doPin n).tripped))
  | 0x29020C => some (l16 (fun n => (s.doPin n).latched))
  | _ =>
    if 0x290040 ≤ off ∧ off < 0x290080 then some (wordAt (s.field.fifo.headD []) (off - 0x290040))
    else if 0x290400 ≤ off ∧ off < 0x290600 then
      let x := s.bank ((off - 0x290400) / 0x100)
      if off % 0x100 = 4 then some (s.codeHigh off + x.echo.toNat * 256 + x.flags.toNat * 16 + x.phase % 8 * 2 + packBits [x.link])
      else if 0x10 ≤ off % 0x100 ∧ off % 0x100 < 0x20 then some (x.faults.toNat / 2 ^ (8 * (off % 0x100 - 0x10)) % 2 ^ 32)
      else none
    else none

/-- Rewind buffer, archive and codec (R296 to R312). `CODEC_ENC_LOAD` is free: the encoder's cycles are no part of the
model. -/
def viewRewind (s : State) (off : Nat) : Option Nat :=
  let l := tget 0 s.rewind.last ((off - 0x2A0040) / 8)
  match off with
  | 0x2A0018 => some (s.rewind.wpos % 2 ^ 32)
  | 0x2A001C => some (s.rewind.wpos / 2 ^ 32)
  | 0x2A0020 => some (s.rewind.ipos % 2 ^ 32)
  | 0x2A0024 => some (s.rewind.ipos / 2 ^ 32)
  | 0x2A0028 => some (s.codeHigh off + packBits [s.rewOn])
  | 0x2A0114 => some (s.archive.wpos % 2 ^ 32)
  | 0x2A0118 => some (s.archive.wpos / 2 ^ 32)
  | 0x2A0124 => some s.archive.jobs.length
  | 0x2A0200 => some (s.codeHigh off + s.decodeOpen * 256 + (s.streams.filter (fun x => x.2.encode)).length)
  | 0x2A0204 => some s.codec.load
  | 0x2A0208 => some (Config.freeNat s.free % 1024)
  | _ => if 0x2A0040 ≤ off ∧ off < 0x2A00D0 then some (halfOf (off % 8 == 4) ((l : Int) - 1)) else none

/-- Polders and the spare (R317 to R335). -/
def viewPolder (s : State) (off : Nat) : Option Nat :=
  if off = 0x2B0804 then
    some (s.codeHigh off + s.spare.lent.getD 0 * 256 + packBits [s.spare.lent.isSome, s.spare.reclaiming, s.spare.takeover.isSome] * 8 +
      s.fld 0x2B0800 2 0)
  else if off < 0x2B0600 ∧ off % 0x100 = 0x1C then
    let p := (off - 0x2B0000) / 0x100
    let es := s.polderEngines p
    some (s.codeHigh off + packBits ((List.range 6).map es.contains) * 256 + packBits [es.any (fun e => (s.engine e).leaving)] * 128 +
      (s.allCtxs.filter (fun x => decide (x.2.polder = p) && x.2.resident)).length % 8 * 16 + packBits [decide (s.spare.lent = some p)] * 8 +
      packBits [(s.polder p).made])
  else none

/-- Rings (R343), and the host interface of a function. -/
def viewHost (s : State) (fn off : Nat) : Option Nat :=
  let o := if fn = 0 then off - 0x2C0000 else off
  if fn = 0 ∧ off < 0x2C0000 then none
  else if o < 0x1000 then
    let i := o / 0x40
    let r := s.ring fn i
    if ¬ hasRing fn i then none
    else match o % 0x40 with
    | 0x00 => some (r.base.toNat % 2 ^ 32)
    | 0x04 => some (r.base.toNat / 2 ^ 32)
    | 0x08 => some (packBits [r.en] * 2 ^ 31 + r.log2 * 65536 + r.vector)
    | 0x0C => some (r.time * 65536 + r.cnt)
    | 0x10 => some r.seq.toNat
    | 0x14 => some r.db.toNat
    | 0x18 => some (s.codeHigh (ringOff fn i + 0x18) + packBits [r.en, r.armed, r.err])
    | 0x1C => some (tget 0 s.log.ringLost (ringKey fn i)).toNat
    | _ => none
  else if o = 0x1000 then some (s.codeHigh (hifOff fn) + (if fn = 0 then bits (tget 0 s.regs 0x2C1000) 11 0 else 0))
  else if fn ≠ 0 ∧ o = 0x3000 then some (tget 0 s.log.repHeads fn).toNat
  else if fn ≠ 0 ∧ 0x4000 ≤ o ∧ o < 0x5000 then
    some (wordAt (reportEntryBytes (tget {} s.log.reports (fn * 4096 + (o - 0x4000) / 32))) (o % 32))
  else none

/-- A line of modules (R360 to R374). -/
def viewLine (s : State) (off : Nat) : Option Nat :=
  let t := ofTime s.line.lastTime s
  match off with
  | 0x2E0014 => some (s.codeHigh off + packBits [s.line.running, s.line.calDone, s.line.mixed, s.line.isolated])
  | 0x2E0018 => some (s.line.mask.toNat * 65536 + s.line.reachable.toNat)
  | 0x2E001C => some (ownLevel * 256 + s.line.level)
  | 0x2E0110 => some (s.line.released % 2 ^ 32)
  | 0x2E0114 => some s.line.d
  | 0x2E0118 => some s.line.upPs
  | 0x2E011C => some s.line.dnPs
  | 0x2E0124 => some (t.sec % 2 ^ 32)
  | 0x2E0128 => some (t.sec / 2 ^ 32)
  | 0x2E012C => some t.ns
  | _ => none

/-- Power, clocks, Almanac and temperatures (R377 to R393). -/
def viewPower (s : State) (off : Nat) : Option Nat :=
  let kOf (e : Nat) : Nat := ((s.engMHz e - 1200) / 50) % 8
  let variable_ := (List.range 6).filter (fun e => decide (s.engMHz e ≠ 0) && !s.flag (eOff e) 4)
  match off with
  | 0x2F0000 => some (packBits ((List.range 25).map s.clocksOn))
  | 0x2F0010 => some (packBits ((List.range 32).map s.powered))
  | 0x2F0014 => some (packBits ((List.range 18).map (fun d => s.powered (32 + d))))
  | 0x2F001C => some (s.power.mode % 4)
  | 0x2F010C => some (halfOf false s.power.bal)
  | 0x2F0110 => some (halfOf true s.power.bal % 65536)
  | 0x2F0114 => some (s.codeHigh off + (variable_.foldl (fun k e => min k (kOf e)) 4) * 256 +
      packBits [s.flag 0x2F0100 31, s.power.floor, s.power.deferOut, s.power.shedOut, s.power.capped])
  | 0x2F0300 => some (unsigned 16 s.power.tj)
  | 0x2F0304 => some (unsigned 16 s.power.tmem)
  | 0x2F0308 => some (s.codeHigh off + packBits [s.power.refresh] * 8 + s.power.kTherm)
  | _ => if 0x2F0200 ≤ off ∧ off < 0x2F02C8 then some (tget 0 s.power.energy ((off - 0x2F0200) / 4) / 1000 % 2 ^ 32) else none

/-- Vigil, resets, leadership and the Hexkeug record (R394 to R420). -/
def viewVigil (s : State) (off : Nat) : Option Nat :=
  let total (i : Nat) : Nat := tget 0 s.vig.totals i
  let leader : Nat := if s.lead.leads then (match s.lead.holder with | none => 0 | some .n => 1 | some .s => 2) else 0
  let sel := s.fld 0x301008 3 0
  let chosen := (tget none s.vig.slots (sel - 1)).getD { header := [], record := [] }
  match off with
  | 0x300044 => some (s.codeHigh off + packBits [(List.range 6).any (fun e => (s.engine e).inReset.isSome), s.vig.cmpFrom.isSome,
      s.vig.procFrom.isSome, s.vig.outOfService])
  | 0x300068 => some (s.cmpCount % 256 * 65536 + total 6)
  | 0x30006C => some (s.procCount % 256 * 65536 + total 7)
  | 0x300070 => some (s.vig.failedBoots % 16 * 65536 + total 8)
  | 0x300080 => some (s.codeHigh off + leader * 256 + packBits [s.lead.lastS.isSome, s.lead.lastN.isSome, s.freeze])
  | 0x300100 => some (s.vig.late * 65536 + s.vig.timeouts)
  | 0x301000 => some s.log.hexHead.toNat
  | 0x301004 => some (s.vig.powerOns.toNat * 65536 + s.vig.boots.toNat)
  | 0x30100C => some (s.codeHigh off + packBits [true, !s.vig.flushes.isEmpty])
  | _ =>
    if 0x300050 ≤ off ∧ off < 0x300068 then some (s.engCount ((off - 0x300050) / 4) % 256 * 65536 + total ((off - 0x300050) / 4))
    else if 0x301040 ≤ off ∧ off < 0x301080 then some (if sel = 0 then 0 else wordAt chosen.header (off - 0x301040))
    else if off / 0x10000 = 0x31 then
      some (wordAt (hexEntryBytes (tget {} (if sel = 0 then s.log.hex else chosen.record) (off % 0x10000 / 16))) (off % 16))
    else none

/-- The SEC block (R422 to R440). -/
def viewSec (s : State) (off : Nat) : Option Nat :=
  match off with
  | 0x320000 => some (s.codeHigh off + s.sec.state * 256 + s.sec.debug * 16 + packBits [true, s.encResident, s.sealed])
  | 0x320014 => some (s.sec.code.toNat * 65536 + packBits [s.sec.done])
  | 0x320018 => some ((if s.sec.header.isEmpty then Config.firmwareVersion.toNat else fieldAt s.sec.header 0x08 4) % 2 ^ 24)
  | 0x32001C => some s.sec.svn.toNat
  | 0x320020 => some s.sec.gen.toNat
  | 0x320024 => some s.sec.token.toNat
  | _ => none

/-- The SYS block (R442 to R455). -/
def viewSys (s : State) (off : Nat) : Option Nat :=
  let mib := 2 ^ 20
  match off with
  | 0x200000 => some 0x0860B000
  | 0x200008 => some (packBits [s.sealed])
  | 0x20000C => some (s.counter off).toNat
  | 0x200010 => some (tget 0 s.regs off).toNat
  | 0x200014 => some (tget 0 s.log.repHeads 0).toNat
  | 0x20002C => some ((((List.range 18).map (fun k => if (s.sluice k).run then (s.sluice k).ringBytes else 0)).sum + mib - 1) / mib)
  | _ =>
    if 0x202000 ≤ off ∧ off < 0x204000 then some (wordAt s.descriptor (off - 0x202000))
    else if 0x208000 ≤ off ∧ off < 0x210000 then
      some (wordAt (reportEntryBytes (tget {} s.log.reports ((off - 0x208000) / 32))) (off % 32))
    else none

/-- What a register shows that is a function of the units' state. -/
def view (s : State) (fn off : Nat) : Option Nat :=
  if fn ≠ 0 then s.viewHost fn off
  else match off / 0x10000 with
  | 0x20 => s.viewSys off
  | 0x21 => s.viewAxis off
  | 0x22 => s.viewTime off
  | 0x23 => s.viewLane off
  | 0x24 => s.viewSluice off
  | 0x25 => s.viewPipe off
  | 0x26 => s.viewEngine off
  | 0x27 => s.viewKv off
  | 0x28 => s.viewVerdict off
  | 0x29 => s.viewField off
  | 0x2A => s.viewRewind off
  | 0x2B => s.viewPolder off
  | 0x2C => s.viewHost fn off
  | 0x2E => s.viewLine off
  | 0x2F => s.viewPower off
  | 0x30 => s.viewVigil off
  | 0x31 => s.viewVigil off
  | 0x32 => s.viewSec off
  | _ => none

/-- The FLD indicator (R474); TXM-860-N does not fit one. -/
def lampFld (s : State) : Lamp :=
  if s.power.dark ∨ s.variantN then .dark
  else if s.field.uv then .red
  else if (List.range 16).any (fun n => (s.doPin n).latched) ∨
      (List.range 2).any (fun b => s.vbOn b && s.flag (vbOff b) 30 && !(s.bank b).link) then .red2
  else if s.field.ok then .green
  else .dark

/-- The halves and values that reading an offset latches (R447, and `ENCn_POS_LO`). -/
def latchedBy (off : Nat) : List Nat :=
  if 0x210000 ≤ off ∧ off < 0x210400 ∧ off % 0x100 = 0x1C then [off + 4, off + 8]
  else if 0x210000 ≤ off ∧ off < 0x210400 ∧ off % 0x100 = 0x34 then [off + 4]
  else if 0x231000 ≤ off ∧ off < 0x232000 ∧ (off % 0x100 = 0x14 ∨ off % 0x100 = 0x1C) then [off + 4]
  else if off / 0x10000 = 0x25 ∧ off % 0x80 = 0x1C then [off + 4]
  else if [0x220004, 0x220014, 0x22001C, 0x220024, 0x22002C, 0x2A0018, 0x2A0020, 0x2A0114, 0x2E0124, 0x2F010C].contains off then [off + 4]
  else if 0x2A0040 ≤ off ∧ off < 0x2A00D0 ∧ off % 8 = 0 then [off + 4]
  else []

/-- A register of a port that the quad's mode leaves absent (R47). -/
def absentPort (s : State) (fn off : Nat) : Bool :=
  decide (fn = 0) && decide (0x232000 ≤ off) && decide (off < 0x234000) && !s.portPresent ((off - 0x232000) / 0x200)

/-- The value that a host read of a register returns: 0 of a unit or port that is absent, the half that reading its `_LO`
has latched, else what its unit shows, its stored word, or its counter. -/
def readReg (s : State) (fn off : Nat) : Word :=
  let key := fn * 0x4000000 + off
  if s.absentUnit fn off ∨ s.absentPort fn off then 0
  else match tget none s.latched key with
  | some w => w
  | none =>
    match s.view fn off with
    | some n => BitVec.ofNat 32 n
    | none => if fn = 0 ∧ (regSpec off).isSome then s.reg off else if fn = 0 ∧ 0x2D0000 ≤ off then tget 0 s.regs key else s.counter key

/-- A read's own effect on the latches: a `_LO` latches its `_HI` (R447). -/
def latchRead (s : State) (fn off : Nat) : State :=
  if fn ≠ 0 then s
  else { s with latched := (latchedBy off).foldl (fun t h => tset none t h (some ((match s.view 0 h with | some n => BitVec.ofNat 32 n | none => 0)))) s.latched }

end State
end Sys2Proof.Machine
end

