-- ==== Sys2Proof/Machine/HostWrite.lean ====
section
/-! DEFINITION. Host accesses through the BARs: setup writes, split values, the seal, unmapped offsets, read-clear counters,
and writes through BAR4; and the configuration image written back after a processor reset (R8, R202, R225, R340, R341, R385,
R406, R442 to R454). -/

namespace Sys2Proof.Machine
namespace State

/-! ## Registers of units (R444 to R446) -/

/-- The unit kind and instance of a register's block (R352). -/
def unitOf (s : State) (off : Nat) : Nat × Nat :=
  match off / 0x10000 with
  | 0x20 => (0x0E, 0)
  | 0x21 => if off < 0x210800 then (0x01, (off - 0x210000) / 0x100) else (0x01, 0x10 + (off - 0x210800) / 0x40)
  | 0x22 => (0x01, 0x20)
  | 0x23 => if off < 0x231000 then (0x02, 0x20 + (off - 0x230000) / 0x40) else if off < 0x232000 then (0x02, (off - 0x231000) / 0x100)
            else (0x02, (off - 0x232000) / 0x200)
  | 0x24 => if off < 0x242000 then (0x03, (off - 0x240000) / 0x100) else (0x03, 16 + (off - 0x242000) / 0x40)
  | 0x25 => (0x04, 4 * ((off - 0x250000) / 0x400) + ((off - 0x250000) % 0x400 - 0x100) / 0x80)
  | 0x26 => if off < 0x268000 then (0x05, (off - 0x260000) / 0x1000) else (0x05, 0x20)
  | 0x27 => if off < 0x270100 then (0x06, 0x10) else (0x06, 0x11)
  | 0x28 => if 0x281000 ≤ off ∧ off < 0x282000 then (0x07, (off - 0x281000) / 0x40) else (0x07, 0xFF)
  | 0x29 => if 0x290100 ≤ off ∧ off < 0x290140 then (0x08, (off - 0x290100) / 4)
            else if 0x290400 ≤ off then (0x08, 0x20 + (off - 0x290400) / 0x100) else (0x08, 0xFF)
  | 0x2A => if off < 0x2A0100 then (0x09, 0x71) else (0x09, 0x70)
  | 0x2B => if off < 0x2B0800 then (0x0A, (off - 0x2B0000) / 0x100) else (0x0A, 0x10)
  | 0x2E => (0x0F, s.lineIndex)
  | 0x2F => (0x10, 0xFF)
  | 0x32 => (0x0D, 0)
  | _ => (0x0C, 0)

/-- A register that has no check but those of its fields. -/
def plainWrite (s : State) (off : Nat) (v : Word) : State := s.writeFields off (s.unitOf off).1 (s.unitOf off).2 v

/-- The channels of a binding lie in a valve bank whose port is off (R292). -/
def bankOff (s : State) (a z : Nat) : Bool := (decide (a < 128) && !s.vbOn 0) || (decide (128 ≤ z) && !s.vbOn 1)

/-- What stands against a binding's valve channels (R260, R292). -/
def channelFails (s : State) (o : Nat) : List (Half × Nat) :=
  let a := s.fld (o + 0x10) 8 0
  let z := s.fld (o + 0x14) 8 0
  if z < a ∨ 255 < z ∨ s.fld (o + 0x10) 17 10 = 0 then [(0x1C01#16, 0)] else if s.bankOff a z then [(0x1D01#16, 0)] else []

/-- What stands against a binding's outputs (R260, R283). -/
def outputFails (s : State) (mask : Nat) : List (Half × Nat) :=
  (if mask = 0 then [(0x1C01#16, 0)] else []) ++
  (if (List.range 16).any (fun n => decide (mask / 2 ^ n % 2 = 1) && decide (s.leadOf n ≠ n)) then [(0x1D02#16, 0)] else [])

/-- What stands against a binding (R2, R260, R283, R292). -/
def laneFails (s : State) (k : Nat) : List (Half × Nat) :=
  let o := bindOff k
  if s.variantN then [(0x1010#16, 0)]
  else
    (if s.encOn (s.bindAxis k) then [] else [(0x1C01#16, 0)]) ++
    (if s.flag o 30 then s.channelFails o else s.outputFails (s.fld o 15 0))

/-- A field of an enabled binding that keeps the value it held, with each failure reported (R446). -/
def revertAll (s : State) (old : Word) (off hi lo kind inst : Nat) : List (Half × Nat) → State
  | [] => s
  | (c, x) :: r =>
    let t := (s.report c 2 off hi lo (s.fld off hi lo) (bits old hi lo) x).last c kind inst
    if r.isEmpty then t.setFld off hi lo (bits old hi lo) else revertAll t old off hi lo kind inst r

/-- An enabled binding whose changed fields fail keeps the values they had (R446): AXIS; TARGET; DO_MASK. -/
def bindRevert (s : State) (k : Nat) (old : Word) : State :=
  let o := bindOff k
  let s := if s.fld o 29 28 ≠ bits old 29 28 ∧ ¬ s.encOn (s.bindAxis k) then s.revertField old o 29 28 0x07 k 0x1C01#16 else s
  let turned : Bool := s.flag o 30 != bit old 30
  if s.flag o 30 then (if turned then s.revertAll old o 30 30 0x07 k (s.channelFails o) else s)
  else
    let s := if s.fld o 15 0 ≠ bits old 15 0 then s.revertAll old o 15 0 0x07 k (s.outputFails (s.fld o 15 0)) else s
    if turned then s.revertAll old o 30 30 0x07 k (s.outputFails (s.fld o 15 0)) else s

/-- A write of `BINDk_CFG` (R260, R446): a binding refused keeps EN at 0; an enabled one keeps what fails. -/
def bindWrite (s : State) (k : Nat) (v : Word) : State :=
  let o := bindOff k
  let old := s.reg o
  let s := s.writeFields o 0x07 k v
  if ¬ s.flag o 31 ∨ s.sealed then s
  else if bit old 31 then s.bindRevert k old
  else
    let fails := s.laneFails k
    if fails.isEmpty then s.laneEnabled k else (s.setFld o 31 31 0).refuseAll 0x07 k o 31 0 fails

/-- Fail-safe states of members other than the lead, refused (R283). -/
def refuseMembers (s : State) (old : Word) : List Nat → State
  | [] => s
  | n :: r => refuseMembers (if s.leadOf n ≠ n ∧ s.fld 0x284008 (2 * n + 1) (2 * n) ≠ 0 then
      s.revertField old 0x284008 (2 * n + 1) (2 * n) 0x08 (0x10 + n) 0x1D02#16 else s) old r

/-- A write of `FS_DO` (R271, R283). -/
def fsDoWrite (s : State) (v : Word) : State :=
  let old := s.reg 0x284008
  let s := s.plainWrite 0x284008 v
  if s.sealed then s else s.refuseMembers old (List.range 16)

/-- A write of `EMUn_RATIO`, ignored while the output is enabled (R38). -/
def emuRatioWrite (s : State) (m : Nat) (v : Word) : State :=
  if s.flag (emuOff m) 31 then s.ignoreWrite 0x1102#16 0x01 (0x10 + m) (emuOff m + 4) v else s.plainWrite (emuOff m + 4) v

/-- A write of `ARCH_CFG` (R301, R304, R453): EN rising checks region 4. -/
def archCfgWrite (s : State) (v : Word) : State :=
  let was := s.flag 0x2A0100 31
  let s := s.plainWrite 0x2A0100 v
  if s.flag 0x2A0100 31 ∧ ¬ was then
    let fails := regionFails 0x1E01#16 4 (s.exclusiveMeets 4 s.archBase s.archBytes)
    if fails.isEmpty then s else (s.setFld 0x2A0100 31 31 0).refuseAll 0x09 0x70 0x2A0100 31 0 fails
  else s

/-- A write of a register of the rewind ring or index while EN is 1 is ignored (R300). -/
def rewRegWrite (s : State) (off : Nat) (v : Word) : State :=
  if s.rewOn ∧ s.rewindWriteIgnored off v then s.ignoreWrite 0x1E01#16 0x09 0x71 off v else s.plainWrite off v

/-- A write of a slot's output ring while its context is enabled is ignored (R98). -/
def outRegWrite (s : State) (i off : Nat) (v : Word) : State :=
  match (s.slot i).ctx with
  | none => s.plainWrite off v
  | some k => if (s.sluice k).run then s.ignoreWrite 0x1504#16 0x04 i off v else s.plainWrite off v

/-- A write of `LINE_PROXYj` (R375): a proxy enabled below level 2 is refused. -/
def proxyWrite (s : State) (j : Nat) (v : Word) : State :=
  let o := proxyOff j
  let old := s.reg o
  let s := s.plainWrite o v
  if ¬ s.sealed ∧ s.flag o 31 ∧ s.line.running ∧ s.line.level < 2 then (s.setFld o 31 31 (bits old 31 31)).refuse 0x1042#16 0x0F s.lineIndex o 31 else s

/-- A write of `POLp_CTL`: CREATE, RESIZE and DESTROY, each that is set (R318). -/
def polCtlWrite (s : State) (p : Nat) (v : Word) : State := ((s.polderCreateEff p v).resizeEff p v).destroyEff p v

/-- A write of `EQ_CAL`: the delays measured are free (R364). -/
def eqCalWrite (s : State) (v : Word) : State :=
  let (u, s) := s.drawNat
  let (d, s) := s.drawNat
  s.eqCalEff v u d

/-- SEAL (R449). -/
def sealEff (s : State) (v : Word) : State := if bit v 31 then { s with sealed := true } else s

/-- A write of `SEC_REQ_CTL` (R440). -/
def secCtlWrite (s : State) (v : Word) : State := if bit v 31 then (let (ok, s) := s.drawBool; s.secOp ok (bits v 3 0)) else s

/-- A register of the port, lane and quad blocks (R47 to R59). -/
def laneWrite (s : State) (off : Nat) (v : Word) : State :=
  if off < 0x231000 then s.quadWriteEff ((off - 0x230000) / 0x40) v
  else if off < 0x232000 then
    let n := (off - 0x231000) / 0x100
    if off % 0x100 = 4 then s.txffeWriteEff n v else if off % 0x100 = 0x10 then s.eyeWrite n v else s.plainWrite off v
  else
    let n := (off - 0x232000) / 0x200
    if ¬ s.portPresent n then s else if (off - 0x232000) % 0x200 = 0 then s.portEnableEff n v else s.plainWrite off v

/-- A write of `ENCn_SPD_UP` or `ENCn_SPD_DOWN` (R35): SPD_DOWN not below SPD_UP becomes SPD_UP x 7/8, rounded down, is
reported, and reads so (R445); then the method is judged against the new bounds. -/
def encSpeedWrite (s : State) (n off : Nat) (v : Word) : State :=
  let s := s.plainWrite off v
  let up := (s.reg (encOff n + 0x10)).toNat
  let dn := (s.reg (encOff n + 0x14)).toNat
  let s := if dn < up then s
    else ((s.setReg (encOff n + 0x14) (BitVec.ofNat 32 (up * 7 / 8))).report 0x1101#16 1 (encOff n + 0x14) 31 0 dn (up * 7 / 8)).last
      0x1101#16 0x01 n
  if s.encCounts n then s.changeover n else s

/-- A register of the axis and emulation blocks. -/
def encWrite (s : State) (off : Nat) (v : Word) : State :=
  if off < 0x210800 then
    let n := (off - 0x210000) / 0x100
    if off % 0x100 = 0 then s.axisEnableEff n v else if off % 0x100 = 0x48 then s.presetGoEff n v
    else if off % 0x100 = 0x10 ∨ off % 0x100 = 0x14 then s.encSpeedWrite n off v else s.plainWrite off v
  else
    let m := (off - 0x210800) / 0x40
    if off = emuOff m then s.emuEnableEff m v else if off = emuOff m + 4 then s.emuRatioWrite m v else s.plainWrite off v

def timeWrite (s : State) (off : Nat) (v : Word) : State :=
  if off = 0x220000 then s.timeSnapEff v else if off = 0x220044 then s.timeStepGoEff v else if off = 0x220048 then s.timeServoWriteEff v
  else s.plainWrite off v

def sluiceWrite (s : State) (off : Nat) (v : Word) : State :=
  if off < 0x242000 ∧ off % 0x100 = 0 then s.sluiceEnableEff ((off - 0x240000) / 0x100) v else s.plainWrite off v

/-- A register of a pipe's slots. -/
def slotWrite (s : State) (off : Nat) (v : Word) : State :=
  let i := (s.unitOf off).2
  if off = slotOff i + 0x0C then s.swapWrite i v else if off = slotOff i + 0x2C then s.outRegWrite i off v else s.plainWrite off v

def engWrite (s : State) (off : Nat) (v : Word) : State :=
  if off < 0x268000 then s.engCfgWriteEff ((off - 0x260000) / 0x1000) v else s.ordShareWriteEff ((off - 0x268000) / 4) v

def kvWrite (s : State) (off : Nat) (v : Word) : State :=
  if off = 0x270008 then s.kvEnableEff v else if off = 0x270100 then s.pfxEnableEff v
  else if 0x270040 ≤ off ∧ off < 0x270058 then s.kvQuotaWriteEff ((off - 0x270040) / 4) v else s.plainWrite off v

def vuWrite (s : State) (off : Nat) (v : Word) : State :=
  if off = 0x280000 then s.vuEnableEff v
  else if off = 0x284000 then (s.releaseEff v).engageEff v
  else if off = 0x284008 then s.fsDoWrite v
  else if 0x281000 ≤ off ∧ off < 0x281480 ∧ off % 0x40 = 0 then s.bindWrite ((off - 0x281000) / 0x40) v
  else s.plainWrite off v

def fieldWrite (s : State) (off : Nat) (v : Word) : State :=
  if off = 0x290010 then s.diEvtPopEff v
  else if off = 0x290210 then s.doClearEff v
  else if 0x290100 ≤ off ∧ off < 0x290140 then s.diCfgWriteEff ((off - 0x290100) / 4) v
  else if off = 0x290400 ∨ off = 0x290500 then s.vbCfgWriteEff ((off - 0x290400) / 0x100) v
  else s.plainWrite off v

def rewWrite (s : State) (off : Nat) (v : Word) : State :=
  if off = 0x2A0000 then s.rewCfgWrite v else if off = 0x2A0014 then s.rewRegWrite off v
  else if off = 0x2A0100 then s.archCfgWrite v else s.plainWrite off v

def polWrite (s : State) (off : Nat) (v : Word) : State :=
  if off = 0x2B0800 then s.spareWrite v
  else if off % 0x100 = 0x18 then s.polCtlWrite ((off - 0x2B0000) / 0x100) v else s.plainWrite off v

def lineRegWrite (s : State) (off : Nat) (v : Word) : State :=
  if off = 0x2E0000 then s.lineWrite v []
  else if off = 0x2E010C then s.eqArriveEff v
  else if off = 0x2E0120 then s.eqCalWrite v
  else if 0x2E0200 ≤ off ∧ off < 0x2E0280 ∧ off % 8 = 0 then s.proxyWrite ((off - 0x2E0200) / 8) v
  else s.plainWrite off v

def pwrWrite (s : State) (off : Nat) (v : Word) : State :=
  if off = 0x2F0018 then (s.sleepEff v).wakeEff v
  else if off = 0x2F0100 then s.almCfgWrite v
  else if off = 0x2F0108 then s.almThrWrite v
  else s.plainWrite off v

def vigWrite (s : State) (off : Nat) (v : Word) : State :=
  if 0x300010 ≤ off ∧ off < 0x300030 then s.coreWrite ((off - 0x300010) / 4) v
  else if off = 0x300040 then s.rstWrite v
  else if off = 0x300090 then s.replaceClearEff v
  else if off = 0x301008 then s.hexSelEff v
  else s.plainWrite off v

/-- One write of a register that stands alone. -/
def writeUnit (s : State) (off : Nat) (v : Word) : State :=
  match off / 0x10000 with
  | 0x20 => if off = 0x200008 then s.sealEff v else s.plainWrite off v
  | 0x21 => s.encWrite off v
  | 0x22 => s.timeWrite off v
  | 0x23 => s.laneWrite off v
  | 0x24 => s.sluiceWrite off v
  | 0x25 => s.slotWrite off v
  | 0x26 => s.engWrite off v
  | 0x27 => s.kvWrite off v
  | 0x28 => s.vuWrite off v
  | 0x29 => s.fieldWrite off v
  | 0x2A => s.rewWrite off v
  | 0x2B => s.polWrite off v
  | 0x2E => s.lineRegWrite off v
  | 0x2F => s.pwrWrite off v
  | 0x30 => s.vigWrite off v
  | 0x32 => if off = 0x320010 then s.secCtlWrite v else s.plainWrite off v
  | _ => s.plainWrite off v

/-! ## Split values (R447) -/

/-- One half of a split value, as its unit takes it. -/
def writeHalf (s : State) (off : Nat) (v : Word) : State :=
  if off = 0x270000 ∨ off = 0x270004 then s.baseWrite 0x1901#16 0x10 off (if off = 0x270000 then 26 else 0) s.kv.running v
  else if off = 0x270104 ∨ off = 0x270108 then s.baseWrite 0x1A01#16 0x11 off (if off = 0x270104 then 20 else 0) s.kv.treeRunning v
  else if 0x2A0004 ≤ off ∧ off ≤ 0x2A0010 then s.rewRegWrite off v
  else if off / 0x10000 = 0x25 ∧ (off % 0x80 = 0x24 ∨ off % 0x80 = 0x28) then s.outRegWrite (s.unitOf off).2 off v
  else s.plainWrite off v

/-- Whether the seal would count a write of a register (R450). -/
def wouldSeal (s : State) (off : Nat) (v : Word) : Bool :=
  match regSpec off with | none => false | some r => s.sealed && (sealedField r.code v (s.reg off) r.fields).isSome

/-- The write of a `_HI` register: both halves apply together, and the seal counts them once. -/
def writePair (s : State) (lo : Nat) (hi : Word) : State :=
  let v := (tget none s.held lo).getD (s.reg lo)
  let s :=
    if lo = 0x220034 then s.timeRateWriteEff hi
    else if lo = 0x2A011C then s.archRposEff hi
    else if s.wouldSeal (lo + 4) hi then s.writeHalf (lo + 4) hi
    else (s.writeHalf lo v).writeHalf (lo + 4) hi
  { s with held := tset none s.held lo none }

def hold (s : State) (key : Nat) (v : Word) : State := { s with held := tset none s.held key (some v) }

/-! ## PF0's and the VFs' maps (R340, R343, R442, R443) -/

/-- A write to an unmapped offset: ignored, counted, and reported at most once per millisecond. -/
def unmappedWrite (s : State) (off : Nat) (v : Word) : State :=
  let s := s.bump 0x200018 1
  let k := windowKey 0x1084#16 0x0E 0
  let open_ : Bool := match findWindow k s.log.windows with | some w => decide (s.now - w.openedAt < 1000000) | none => false
  if open_ then s
  else { s with log := { s.log with windows := putWindow k (some { openedAt := s.now }) s.log.windows } }.report 0x1084#16 3 off 31 0 v.toNat 0

/-- A register of a ring. -/
def ringRegWrite (s : State) (fn i d : Nat) (v : Word) : State :=
  let key := fn * 0x4000000 + ringOff fn i % 0x4000000
  match d with
  | 0x00 => s.hold key v
  | 0x04 =>
    let lo := (tget none s.held key).getD (BitVec.ofNat 32 (s.ring fn i).base.toNat)
    let s := s.ringBaseWrite fn i lo v
    { s with held := tset none s.held key none }
  | 0x08 => if bit v 31 then s.ringEnableEff fn i v else s.ringDisableEff fn i v
  | 0x0C => s.ringModWrite fn i v
  | _ => s

/-- A word of a function's MSI-X table: message address and data are held; the mask bit acts on the vector (R354). -/
def msixWrite (s : State) (fn key e d : Nat) (v : Word) : State :=
  if d ≠ 3 then s.setReg key v
  else if bit v 0 then { s with log := { s.log with msixUnmasked := s.log.msixUnmasked.filter (fun k => decide (k ≠ fn * 512 + e)) } }
  else s.unmask fn e

/-- A write to PF0's BAR0. -/
def pf0Write (s : State) (off : Nat) (v : Word) : State :=
  if 0x2C0000 ≤ off ∧ off < 0x2C1000 then
    let i := (off - 0x2C0000) / 0x40
    if hasRing 0 i ∧ off % 0x40 ≤ 0x1C then s.ringRegWrite 0 i (off % 0x40) v else s.unmappedWrite off v
  else if 0x2D0000 ≤ off ∧ off < 0x2D2000 then s.msixWrite 0 off ((off - 0x2D0000) / 16) (off % 16 / 4) v
  else match regSpec off with
    | none => if mapped off then s else s.unmappedWrite off v
    | some r =>
      match r.half with
      | .low => if off = 0x220034 ∧ s.fld 0x220048 1 0 = 1 then s else s.hold off v
      | .high => s.writePair (off - 4) v
      | .single => s.writeUnit off v

/-- A write to a VF's BAR0. -/
def vfWrite (s : State) (fn off : Nat) (v : Word) : State :=
  if off < 0x1000 then
    let i := off / 0x40
    if hasRing fn i then s.ringRegWrite fn i (off % 0x40) v else s
  else if 0x8000 ≤ off ∧ off < 0x9000 then s.msixWrite fn (fn * 0x4000000 + off) ((off - 0x8000) / 16) (off % 16 / 4) v
  else s

/-- An access that is not allowed (R341). -/
def badAccess (s : State) (fn : Nat) : State :=
  ((s.bump (badAccessOff fn) 1).reportSubject 0x1034#16 3 0 fn).last 0x1034#16 0x0B fn

/-- A host write of four bytes (R341, R444). -/
def setupWriteEff (s : State) (fn off : Nat) (v : Word) : State :=
  if off % 4 ≠ 0 ∨ (if fn = 0 then 0x4000000 else 0x10000) ≤ off then (if s.running then s.badAccess fn else s)
  else s.gate fn off v (fun s => if fn = 0 then s.pf0Write off v else s.vfWrite fn off v)

/-! ## Reads (R8, R447) -/

/-- The ring whose `LOST` counter stands at an offset. -/
def lostRing (fn off : Nat) : Option Nat :=
  let b := if fn = 0 then 0x2C0000 else 0
  if b ≤ off ∧ off < b + 0x1000 ∧ off % 0x40 = 0x1C ∧ hasRing fn ((off - b) / 0x40) then some ((off - b) / 0x40) else none

/-- A read (R8, R447): the register's value, the clearing of an RC counter, and the latches. -/
def readClear (s : State) (fn off : Nat) : State :=
  let key := fn * 0x4000000 + off
  let s := ({ s with busRead := s.readReg fn off }).latchRead fn off
  if key = 0x20000C then s
  else if key = 0x300100 then { s with vig := { s.vig with late := 0, timeouts := 0 } }
  else match lostRing fn off with
    | some i => { s with log := { s.log with ringLost := tset 0 s.log.ringLost (ringKey fn i) 0 } }
    | none => { s with counters := tset 0 s.counters key 0 }

/-- COUNTER_READ_CLEAR: a register that does not answer reads 0. -/
def counterReadEff (s : State) (fn off : Nat) : State := ({ s with busRead := 0 }).gate fn off 0 (fun s => s.readClear fn off)

/-! ## BAR4 (R202, R225, R340, R341, R427, R454) -/

/-- Where a function's BAR4 window lies in bonded memory. -/
def window4 (s : State) (fn : Nat) : Nat × Nat :=
  if fn = 0 then (0, s.bar4Bytes) else if (s.polder (fn - 1)).made then ((s.polder (fn - 1)).base, (s.polder (fn - 1)).size) else (0, 0)

def inSpan (a : Nat) (r : Nat × Nat) : Bool := decide (r.1 ≤ a) && decide (a < r.1 + r.2)

/-- A byte of the module-reserved area, which BAR4 does not write. -/
def isReserved (a : Nat) : Bool := inSpan a (reservedAt, 2 ^ 28)
/-- A byte that BAR4 does not write: of the KV pool, or of a recipe. -/
def isPool (s : State) (a : Nat) : Bool := s.kv.running && inSpan a s.kvRegion
def isRecipe (s : State) (a : Nat) : Bool :=
  s.recipes.any (fun (p : Nat × Option Recipe) => match p.2 with | some r => inSpan a (r.base, r.len) | none => false)

/-- The bytes of a write that reach memory. -/
def put4 (keep : Nat → Bool) (m : Mem) (a : Nat) : List Byte → Mem
  | [] => m
  | b :: r => put4 keep (if keep a then putByte m a b else m) (a + 1) r

/-- BAR4_WRITE. -/
def bar4WriteEff (s : State) (fn addr : Nat) (data : List Byte) : State :=
  if ¬ s.running ∨ s.power.mode ≠ 0 ∨ (s.sec.state = 0 ∧ fn ≠ 0) then s
  else
    let w := s.window4 fn
    if w.2 < addr + data.length then (s.bump (hifOff fn + 0x0C) 1).raise 0x6031#16 0x0B fn
    else
      let a := w.1 + addr
      let span := (List.range data.length).map (a + ·)
      let res := span.any isReserved
      let drop := span.any (fun x => s.isPool x || s.isRecipe x)
      let keep (x : Nat) : Bool := !isReserved x && !s.isPool x && !s.isRecipe x
      let t : State := { s with bonded := put4 keep s.bonded a data }
      let t := t.lateWrite a data.length (List.range 16)
      let t := if res then (t.bump 0x200030 1).raise 0x6083#16 0x0E fn else t
      let t := if drop then (t.bump 0x270038 1).raise 0x6901#16 0x06 0x10 else t
      t.pollAll (t.allCtxs.map (·.1))

/-! ## The end of a processor reset (R274, R406, R433) -/

/-- The image with `TIME_SERVO` after the rest: its PORT is checked against the quads and ports that the image restores
(R40, R406; DEDUCED, the assumption log, 128). -/
def servoLast (l : List (Nat × Word)) : List (Nat × Word) := l.filter (fun p => p.1 ≠ 0x220048) ++ l.filter (fun p => p.1 = 0x220048)

/-- The image written back in ascending offset; a member rejoins its line by the join itself (R360). -/
def writeImage (s : State) : List (Nat × Word) → State
  | [] => s
  | (off, w) :: r => writeImage (s.pf0Write off (if off = 0x2E0000 then putBits w 31 31 0 else w)) r

/-- PROCESSOR_RESET_END. -/
def processorResetEndEff (s : State) : State :=
  if s.vig.procFrom.isNone then s
  else
    let s := s.processorBack
    (s.writeImage (servoLast s.vig.image)).processorDone.lswAgain

end State

/-! ## Meanings -/

def execSetupWrite (fn : Fin 7) (off : Nat) (v : Word) (s : State) : Host.Outcome State Fault Refusal := .next (s.setupWriteEff fn off v)
def execBarBadAccess (fn : Fin 7) (s : State) : Host.Outcome State Fault Refusal := .next (if s.running then s.badAccess fn else s)
def execCounterReadClear (fn : Fin 7) (off : Nat) (s : State) : Host.Outcome State Fault Refusal := .next (s.counterReadEff fn off)
def execSeal (v : Word) (s : State) : Host.Outcome State Fault Refusal := .next (s.gate 0 0x200008 v (fun s => s.sealEff v))
def execBar4Write (fn : Fin 7) (addr : Nat) (data : List Byte) (s : State) : Host.Outcome State Fault Refusal := .next (s.bar4WriteEff fn addr data)
def execProcessorResetEnd (s : State) : Host.Outcome State Fault Refusal := .next s.processorResetEndEff

end Sys2Proof.Machine
end

