-- ==== Sys2Proof/Machine/Dispatch.lean ====
section
/-! DEFINITION. One arm per command: its meaning, called directly. -/

namespace Sys2Proof.Machine
open Sys2Proof

/-- The effect of a command on everything but the queue. -/
def exec (i : Instr) (s : State) : Host.Outcome State Fault Refusal :=
  match i with
  | .setupWrite fn off v => Sys2Proof.Machine.execSetupWrite fn off v s
  | .barBadAccess fn => Sys2Proof.Machine.execBarBadAccess fn s
  | .counterReadClear fn off => Sys2Proof.Machine.execCounterReadClear fn off s
  | .seal v => Sys2Proof.Machine.execSeal v s
  | .axisEnable n v => Sys2Proof.Machine.execAxisEnable n v s
  | .incrementalEdge n a b => Sys2Proof.Machine.execIncrementalEdge n a b s
  | .zQualified n => Sys2Proof.Machine.execZQualified n s
  | .presetGo n v => Sys2Proof.Machine.execPresetGo n v s
  | .absoluteFrame n raw check nE nW => Sys2Proof.Machine.execAbsoluteFrame n raw check nE nW s
  | .bissAckTimeout n => Sys2Proof.Machine.execBissAckTimeout n s
  | .absoluteFrameStart n => Sys2Proof.Machine.execAbsoluteFrameStart n s
  | .wireFaultDetect n pairs => Sys2Proof.Machine.execWireFaultDetect n pairs s
  | .wireFaultClear n => Sys2Proof.Machine.execWireFaultClear n s
  | .axisFailsafeRelease n => Sys2Proof.Machine.execAxisFailsafeRelease n s
  | .speedCountEval n => Sys2Proof.Machine.execSpeedCountEval n s
  | .standstill n => Sys2Proof.Machine.execStandstill n s
  | .emuEnable n v => Sys2Proof.Machine.execEmuEnable n v s
  | .emuEdge n => Sys2Proof.Machine.execEmuEdge n s
  | .timeSnap v => Sys2Proof.Machine.execTimeSnap v s
  | .timeStepGo v => Sys2Proof.Machine.execTimeStepGo v s
  | .timeStepApply => Sys2Proof.Machine.execTimeStepApply s
  | .timeRateWrite hi => Sys2Proof.Machine.execTimeRateWrite hi s
  | .timeServoWrite v => Sys2Proof.Machine.execTimeServoWrite v s
  | .sync offset interval => Sys2Proof.Machine.execSync offset interval s
  | .holdover => Sys2Proof.Machine.execHoldover s
  | .portEnable n v => Sys2Proof.Machine.execPortEnable n v s
  | .adapt n ctle taps => Sys2Proof.Machine.execAdapt n ctle taps s
  | .blockLock n => Sys2Proof.Machine.execBlockLock n s
  | .blockLockLoss n => Sys2Proof.Machine.execBlockLockLoss n s
  | .hiBerEnter n => Sys2Proof.Machine.execHiBerEnter n s
  | .hiBerClear n => Sys2Proof.Machine.execHiBerClear n s
  | .fecCodeword n errors correctable => Sys2Proof.Machine.execFecCodeword n errors correctable s
  | .txPllUnlock q fast => Sys2Proof.Machine.execTxPllUnlock q fast s
  | .txPllRelock q fast => Sys2Proof.Machine.execTxPllRelock q fast s
  | .txLpiEnter n => Sys2Proof.Machine.execTxLpiEnter n s
  | .lpiRefresh n => Sys2Proof.Machine.execLpiRefresh n s
  | .txLpiWake n => Sys2Proof.Machine.execTxLpiWake n s
  | .rxLpi n => Sys2Proof.Machine.execRxLpi n s
  | .eyeGo n v => Sys2Proof.Machine.execEyeGo n v s
  | .eyeStop n v => Sys2Proof.Machine.execEyeStop n v s
  | .eyePointEnd n errors => Sys2Proof.Machine.execEyePointEnd n errors s
  | .frameReceived n f => Sys2Proof.Machine.execFrameReceived n f s
  | .roceRequest qp ce key r => Sys2Proof.Machine.execRoceRequest qp ce key r s
  | .cnpReceived qp => Sys2Proof.Machine.execCnpReceived qp s
  | .roceResponse qp r => Sys2Proof.Machine.execRoceResponse qp r s
  | .roceAckTimeout qp => Sys2Proof.Machine.execRoceAckTimeout qp s
  | .dcqcnRateIncrease qp byTimer => Sys2Proof.Machine.execDcqcnRateIncrease qp byTimer s
  | .sluiceEnable k v => Sys2Proof.Machine.execSluiceEnable k v s
  | .holdExpiry k => Sys2Proof.Machine.execHoldExpiry k s
  | .parallelLine p clocks data => Sys2Proof.Machine.execParallelLine p clocks data s
  | .pixelClockLost p => Sys2Proof.Machine.execPixelClockLost p s
  | .pixelClockResume p kHz => Sys2Proof.Machine.execPixelClockResume p kHz s
  | .lineBlockHandoff k => Sys2Proof.Machine.execLineBlockHandoff k s
  | .pipeBlockStart p => Sys2Proof.Machine.execPipeBlockStart p s
  | .pipeBlockDone p => Sys2Proof.Machine.execPipeBlockDone p s
  | .arm p z v => Sys2Proof.Machine.execArm p z v s
  | .shadowLoaded p z => Sys2Proof.Machine.execShadowLoaded p z s
  | .cancel p z v => Sys2Proof.Machine.execCancel p z v s
  | .engCfgWrite e v => Sys2Proof.Machine.execEngCfgWrite e v s
  | .ordShareWrite ix v => Sys2Proof.Machine.execOrdShareWrite ix v s
  | .taskPlace p => Sys2Proof.Machine.execTaskPlace p s
  | .opComplete id => Sys2Proof.Machine.execOpComplete id s
  | .opRetire id => Sys2Proof.Machine.execOpRetire id s
  | .sequencerFault e => Sys2Proof.Machine.execSequencerFault e s
  | .gateResolve e => Sys2Proof.Machine.execGateResolve e s
  | .deliveryExcursion e stall => Sys2Proof.Machine.execDeliveryExcursion e stall s
  | .taskOverBound e => Sys2Proof.Machine.execTaskOverBound e s
  | .taskHung e => Sys2Proof.Machine.execTaskHung e s
  | .waitBlockPoll e => Sys2Proof.Machine.execWaitBlockPoll e s
  | .copy o => Sys2Proof.Machine.execCopy o s
  | .waitBlock o expect => Sys2Proof.Machine.execWaitBlock o expect s
  | .open_ o t => Sys2Proof.Machine.execOpen o t s
  | .append o => Sys2Proof.Machine.execAppend o s
  | .appendCopyDone handle page => Sys2Proof.Machine.execAppendCopyDone handle page s
  | .kvWrite o row stackLayer segs => Sys2Proof.Machine.execKvWrite o row stackLayer segs s
  | .close o => Sys2Proof.Machine.execClose o s
  | .openBuild o t => Sys2Proof.Machine.execOpenBuild o t s
  | .closePublish o => Sys2Proof.Machine.execClosePublish o s
  | .matmul o p => Sys2Proof.Machine.execMatmul o p s
  | .attnAbsorb o p => Sys2Proof.Machine.execAttnAbsorb o p s
  | .kvExpand o p => Sys2Proof.Machine.execKvExpand o p s
  | .conv o p => Sys2Proof.Machine.execConv o p s
  | .dwconv o p => Sys2Proof.Machine.execDwconv o p s
  | .maxpool o p => Sys2Proof.Machine.execMaxpool o p s
  | .minpool o p => Sys2Proof.Machine.execMinpool o p s
  | .avgpool o p => Sys2Proof.Machine.execAvgpool o p s
  | .label o p => Sys2Proof.Machine.execLabel o p s
  | .vecAdd o => Sys2Proof.Machine.execVecAdd o s
  | .vecSub o => Sys2Proof.Machine.execVecSub o s
  | .vecMul o => Sys2Proof.Machine.execVecMul o s
  | .vecFma o => Sys2Proof.Machine.execVecFma o s
  | .vecDiv o => Sys2Proof.Machine.execVecDiv o s
  | .vecSqrt o => Sys2Proof.Machine.execVecSqrt o s
  | .vecExp2 o => Sys2Proof.Machine.execVecExp2 o s
  | .vecLog2 o => Sys2Proof.Machine.execVecLog2 o s
  | .vecRcp o => Sys2Proof.Machine.execVecRcp o s
  | .vecRsqrt o => Sys2Proof.Machine.execVecRsqrt o s
  | .vecMax o => Sys2Proof.Machine.execVecMax o s
  | .vecMin o => Sys2Proof.Machine.execVecMin o s
  | .cvt o => Sys2Proof.Machine.execCvt o s
  | .trunc o => Sys2Proof.Machine.execTrunc o s
  | .satadd o => Sys2Proof.Machine.execSatadd o s
  | .satsub o => Sys2Proof.Machine.execSatsub o s
  | .sum o => Sys2Proof.Machine.execSum o s
  | .rmax o => Sys2Proof.Machine.execRmax o s
  | .qstatic o scale zp input => Sys2Proof.Machine.execQstatic o scale zp input s
  | .qrow o excl => Sys2Proof.Machine.execQrow o excl s
  | .qrowU8 o excl => Sys2Proof.Machine.execQrowU8 o excl s
  | .check o limit mask => Sys2Proof.Machine.execCheck o limit mask s
  | .count o op v => Sys2Proof.Machine.execCount o op v s
  | .rand o n => Sys2Proof.Machine.execRand o n s
  | .squeeze o => Sys2Proof.Machine.execSqueeze o s
  | .digestAbsorb o => Sys2Proof.Machine.execDigestAbsorb o s
  | .gate o target => Sys2Proof.Machine.execGate o target s
  | .fence o scope => Sys2Proof.Machine.execFence o scope s
  | .wait o word threshold timeoutUs => Sys2Proof.Machine.execWait o word threshold timeoutUs s
  | .waitTimeout ctx => Sys2Proof.Machine.execWaitTimeout ctx s
  | .put o t sg => Sys2Proof.Machine.execPut o t sg s
  | .get o sg => Sys2Proof.Machine.execGet o sg s
  | .culvertAdd o w v sg => Sys2Proof.Machine.execCulvertAdd o w v sg s
  | .cas o cmp swap sg => Sys2Proof.Machine.execCas o cmp swap sg s
  | .signal o sg => Sys2Proof.Machine.execSignal o sg s
  | .batchForm group block => Sys2Proof.Machine.execBatchForm group block s
  | .deadline k slot => Sys2Proof.Machine.execDeadline k slot s
  | .calWrite d e => Sys2Proof.Machine.execCalWrite d e s
  | .calOnFire axis idx => Sys2Proof.Machine.execCalOnFire axis idx s
  | .calOffFire axis idx => Sys2Proof.Machine.execCalOffFire axis idx s
  | .calSwapFire axis idx => Sys2Proof.Machine.execCalSwapFire axis idx s
  | .calChangeoverFire axis idx => Sys2Proof.Machine.execCalChangeoverFire axis idx s
  | .calProveFire axis idx => Sys2Proof.Machine.execCalProveFire axis idx s
  | .calMarkFire axis idx => Sys2Proof.Machine.execCalMarkFire axis idx s
  | .proveDeadline rule => Sys2Proof.Machine.execProveDeadline rule s
  | .valveFrame => Sys2Proof.Machine.execValveFrame s
  | .valveStatusFrame b f => Sys2Proof.Machine.execValveStatusFrame b f s
  | .valveStatusMiss b => Sys2Proof.Machine.execValveStatusMiss b s
  | .heartbeatLoss => Sys2Proof.Machine.execHeartbeatLoss s
  | .engage v => Sys2Proof.Machine.execEngage v s
  | .release v => Sys2Proof.Machine.execRelease v s
  | .vuEnable v => Sys2Proof.Machine.execVuEnable v s
  | .diFilteredEdge ix level => Sys2Proof.Machine.execDiFilteredEdge ix level s
  | .diCfgWrite ix v => Sys2Proof.Machine.execDiCfgWrite ix v s
  | .diEvtPop v => Sys2Proof.Machine.execDiEvtPop v s
  | .fieldSupplySample mV => Sys2Proof.Machine.execFieldSupplySample mV s
  | .doThermalShutdown n => Sys2Proof.Machine.execDoThermalShutdown n s
  | .doThermalRestart n => Sys2Proof.Machine.execDoThermalRestart n s
  | .doClear v => Sys2Proof.Machine.execDoClear v s
  | .doMismatch n => Sys2Proof.Machine.execDoMismatch n s
  | .rewindDisable v => Sys2Proof.Machine.execRewindDisable v s
  | .rewindEnable v => Sys2Proof.Machine.execRewindEnable v s
  | .archiveJobStart => Sys2Proof.Machine.execArchiveJobStart s
  | .archiveJobEnd => Sys2Proof.Machine.execArchiveJobEnd s
  | .archRposWrite hi => Sys2Proof.Machine.execArchRposWrite hi s
  | .streamOpen d ring encode b => Sys2Proof.Machine.execStreamOpen d ring encode b s
  | .streamClose d stream => Sys2Proof.Machine.execStreamClose d stream s
  | .streamResume d stream => Sys2Proof.Machine.execStreamResume d stream s
  | .au d irap addr len => Sys2Proof.Machine.execAu d irap addr len s
  | .picture d offset => Sys2Proof.Machine.execPicture d offset s
  | .pictureDone encode stream errors => Sys2Proof.Machine.execPictureDone encode stream errors s
  | .decoderBudgetWindow => Sys2Proof.Machine.execDecoderBudgetWindow s
  | .streamLagSuspend stream => Sys2Proof.Machine.execStreamLagSuspend stream s
  | .decoderLoadHigh permille => Sys2Proof.Machine.execDecoderLoadHigh permille s
  | .replay d r => Sys2Proof.Machine.execReplay d r s
  | .replayBlockFeed session => Sys2Proof.Machine.execReplayBlockFeed session s
  | .polderCreate p v => Sys2Proof.Machine.execPolderCreate p v s
  | .resize p v => Sys2Proof.Machine.execResize p v s
  | .destroy p v => Sys2Proof.Machine.execDestroy p v s
  | .ctxCreate d ring b => Sys2Proof.Machine.execCtxCreate d ring b s
  | .ctxDestroy d ctx => Sys2Proof.Machine.execCtxDestroy d ctx s
  | .schedulePoll c => Sys2Proof.Machine.execSchedulePoll c s
  | .switchIn e c => Sys2Proof.Machine.execSwitchIn e c s
  | .sliceEnd c => Sys2Proof.Machine.execSliceEnd c s
  | .blockSwap p => Sys2Proof.Machine.execBlockSwap p s
  | .spareCfgWrite v => Sys2Proof.Machine.execSpareCfgWrite v s
  | .lend v => Sys2Proof.Machine.execLend v s
  | .reclaim v => Sys2Proof.Machine.execReclaim v s
  | .noSpareNotice => Sys2Proof.Machine.execNoSpareNotice s
  | .recipeLoad d addr len => Sys2Proof.Machine.execRecipeLoad d addr len s
  | .recipeUnload d recipe => Sys2Proof.Machine.execRecipeUnload d recipe s
  | .changeover d k when_ vf recipe at_ => Sys2Proof.Machine.execChangeover d k when_ vf recipe at_ s
  | .residencyStep recipe => Sys2Proof.Machine.execResidencyStep recipe s
  | .run d recipe code firstTask taskCount cycleList params => Sys2Proof.Machine.execRun d recipe code firstTask taskCount cycleList params s
  | .build d recipe code firstTask taskCount cycleList params => Sys2Proof.Machine.execBuild d recipe code firstTask taskCount cycleList params s
  | .epochTick => Sys2Proof.Machine.execEpochTick s
  | .kvEnable v => Sys2Proof.Machine.execKvEnable v s
  | .kvQuotaWrite p v => Sys2Proof.Machine.execKvQuotaWrite p v s
  | .pfxEnable v => Sys2Proof.Machine.execPfxEnable v s
  | .bar4Write fn addr data => Sys2Proof.Machine.execBar4Write fn addr data s
  | .ringEnable fn ix v => Sys2Proof.Machine.execRingEnable fn ix v s
  | .ringDisable fn ix v => Sys2Proof.Machine.execRingDisable fn ix v s
  | .submissionDoorbell fn ix v => Sys2Proof.Machine.execSubmissionDoorbell fn ix v s
  | .releaseDoorbell fn ix v => Sys2Proof.Machine.execReleaseDoorbell fn ix v s
  | .descriptorFetch fn ix => Sys2Proof.Machine.execDescriptorFetch fn ix s
  | .descriptorFetchFail fn ix => Sys2Proof.Machine.execDescriptorFetchFail fn ix s
  | .hostReadFail id => Sys2Proof.Machine.execHostReadFail id s
  | .eventWindowEnd code kind inst => Sys2Proof.Machine.execEventWindowEnd code kind inst s
  | .interruptTimer fn ix => Sys2Proof.Machine.execInterruptTimer fn ix s
  | .linkTrained width rate => Sys2Proof.Machine.execLinkTrained width rate s
  | .vfFlr fn => Sys2Proof.Machine.execVfFlr fn s
  | .pf0Flr => Sys2Proof.Machine.execPf0Flr s
  | .hotReset => Sys2Proof.Machine.execHotReset s
  | .perst => Sys2Proof.Machine.execPerst s
  | .lineJoin v peers => Sys2Proof.Machine.execLineJoin v peers s
  | .eqHeadFrame => Sys2Proof.Machine.execEqHeadFrame s
  | .eqDownstreamFrame f => Sys2Proof.Machine.execEqDownstreamFrame f s
  | .eqUpstreamFrame f => Sys2Proof.Machine.execEqUpstreamFrame f s
  | .eqLinkLoss up => Sys2Proof.Machine.execEqLinkLoss up s
  | .eqCal v upPs dnPs => Sys2Proof.Machine.execEqCal v upPs dnPs s
  | .eqRemeasure upPs dnPs => Sys2Proof.Machine.execEqRemeasure upPs dnPs s
  | .eqArrive v => Sys2Proof.Machine.execEqArrive v s
  | .barrierTimeout => Sys2Proof.Machine.execBarrierTimeout s
  | .barrierReleaseAction => Sys2Proof.Machine.execBarrierReleaseAction s
  | .proxyAdmit m => Sys2Proof.Machine.execProxyAdmit m s
  | .proxySeal m => Sys2Proof.Machine.execProxySeal m s
  | .proxyClose m => Sys2Proof.Machine.execProxyClose m s
  | .proxyRingFull k => Sys2Proof.Machine.execProxyRingFull k s
  | .peerAreaPart j => Sys2Proof.Machine.execPeerAreaPart j s
  | .almanacTick energy => Sys2Proof.Machine.execAlmanacTick energy s
  | .almSettingWrite env v => Sys2Proof.Machine.execAlmSettingWrite env v s
  | .clockStopDetect domain => Sys2Proof.Machine.execClockStopDetect domain s
  | .crossingReopen crossing => Sys2Proof.Machine.execCrossingReopen crossing s
  | .sleep v => Sys2Proof.Machine.execSleep v s
  | .wake v => Sys2Proof.Machine.execWake v s
  | .thermalSample logic dram => Sys2Proof.Machine.execThermalSample logic dram s
  | .thermalShutdown => Sys2Proof.Machine.execThermalShutdown s
  | .thermalRestart => Sys2Proof.Machine.execThermalRestart s
  | .engineReset e => Sys2Proof.Machine.execEngineReset e s
  | .engineResetDone e => Sys2Proof.Machine.execEngineResetDone e s
  | .computeReset => Sys2Proof.Machine.execComputeReset s
  | .processorReset => Sys2Proof.Machine.execProcessorReset s
  | .processorResetEnd => Sys2Proof.Machine.execProcessorResetEnd s
  | .coldBoot c => Sys2Proof.Machine.execColdBoot c s
  | .coldBootComplete => Sys2Proof.Machine.execColdBootComplete s
  | .resetEscalate z => Sys2Proof.Machine.execResetEscalate z s
  | .fabricRequestTimeout kind => Sys2Proof.Machine.execFabricRequestTimeout kind s
  | .handshakeTimeout z kind => Sys2Proof.Machine.execHandshakeTimeout z kind s
  | .codecStall => Sys2Proof.Machine.execCodecStall s
  | .coreWatchdog c => Sys2Proof.Machine.execCoreWatchdog c s
  | .kick c v => Sys2Proof.Machine.execKick c v s
  | .rstEngine v => Sys2Proof.Machine.execRstEngine v s
  | .rstCompute v => Sys2Proof.Machine.execRstCompute v s
  | .rstProcessor v => Sys2Proof.Machine.execRstProcessor v s
  | .leaseRequest w => Sys2Proof.Machine.execLeaseRequest w s
  | .leaderDemote w => Sys2Proof.Machine.execLeaderDemote w s
  | .wardenSilent w => Sys2Proof.Machine.execWardenSilent w s
  | .freezeDetect => Sys2Proof.Machine.execFreezeDetect s
  | .hexkeugFlush code => Sys2Proof.Machine.execHexkeugFlush code s
  | .hexSelWrite v => Sys2Proof.Machine.execHexSelWrite v s
  | .replaceClear v => Sys2Proof.Machine.execReplaceClear v s
  | .firmwareUpdate readBackOk => Sys2Proof.Machine.execFirmwareUpdate readBackOk s
  | .ownerRecord => Sys2Proof.Machine.execOwnerRecord s
  | .attestation => Sys2Proof.Machine.execAttestation s
  | .debugChallenge => Sys2Proof.Machine.execDebugChallenge s
  | .debugToken => Sys2Proof.Machine.execDebugToken s
  | .debugLock => Sys2Proof.Machine.execDebugLock s
  | .debugLifetimeExpiry => Sys2Proof.Machine.execDebugLifetimeExpiry s
  | .lineSoftware => Sys2Proof.Machine.execLineSoftware s
  | .readCertificate => Sys2Proof.Machine.execReadCertificate s
  | .secColdBoot => Sys2Proof.Machine.execSecColdBoot s
  | .powerOn => Sys2Proof.Machine.execPowerOn s
  | .powerLoss => Sys2Proof.Machine.execPowerLoss s
  | .nrstReq ns => Sys2Proof.Machine.execNrstReq ns s
  | .rxLpiWake n => Sys2Proof.Machine.execRxLpiWake n s
  | .msixVectorUnmask fn vector => Sys2Proof.Machine.execMsixVectorUnmask fn vector s
  | .functionPowerState fn d3 => Sys2Proof.Machine.execFunctionPowerState fn d3 s
  | .computeResetDone => Sys2Proof.Machine.execComputeResetDone s
  | .nrstReqRelease => Sys2Proof.Machine.execNrstReqRelease s

end Sys2Proof.Machine
end

