-- ==== Sys2Proof/Safety.lean ====
section
/-! DEFINITION. The terms that statements about the module are made in: which writes reach a register, what LAST_CODE
shows, and the modes the module can be in. -/

namespace Sys2Proof.Machine.State

/-- A host write to a register of a function reaches it (R2, R386, R427): the processor runs, and the register is one
that answers in the security state, in the power mode and in the variant. -/
def answers (s : State) (fn off : Nat) : Bool :=
  s.running && (decide (s.sec.state ≠ 0) || answersRecovery fn off) &&
    (decide (s.power.mode = 0) || answersAsleep fn off) && !s.absentUnit fn off

/-- `LAST_CODE` of the status register at an offset. -/
def lastCode (s : State) (off : Nat) : Half := tget 0 s.log.lastCodes off

/-- The 1 ms window of a code and source is open (R476): the code has been posted, or counted for the next post. -/
def codeWindow (s : State) (code : Half) (kind inst : Nat) : Bool := (findWindow (windowKey code kind inst) s.log.windows).isSome

/-- The modes are ones the spec has: run or sleep (R385), one of the three security states (R429), and a debug level
(R436). -/
def legalModes (s : State) : Bool :=
  (s.power.mode == 0 || s.power.mode == 2) && decide (s.sec.state ≤ 2) && decide (s.sec.debug ≤ 2)

/-- An operation may issue now (R116 to R127), its regions may be reached and hold no word with an ECC error (R118), and none
of its operands is of zero length (R171). -/
def mayIssue (s : State) (h : OpHdr) (cls : OpClass) (opc : Nat) : Bool :=
  (s.issueMode h cls opc).isSome && s.regionsOk h (s.opRecipe h) && !h.reads.any (s.readsEmpty h.eng h.ctx) && (s.eccHits h).isEmpty

/-- A task as it is but for the cycles it has waited on others and since when it waits (R132). -/
def TaskRun.unwaited (t : TaskRun) : TaskRun := { t with waited := 0, blockedFrom := none }

/-- An engine as it is but for how long its task has waited on others. -/
def unwaited (x : Engine) : Engine := { x with task := x.task.map TaskRun.unwaited }

/-- `t` shows that operation `h` has issued in `s` as the ordering entry `o` (R116): the newest entry, at its place in
program order, complete only where it holds a fault of the block checks (R194), and its task gone on to its next operation.
Of its engine, the task and what is counted of run-ahead's stops change (R119); of every other, no more than how long its task
has waited on others (R132). -/
def issued (s t : State) (h : OpHdr) (cls : OpClass) (opc : Nat) (o : OpEntry) : Prop :=
  t.ops = s.ops ++ [o] ∧ t.nextOp = s.nextOp + 1 ∧ o.id = s.nextOp ∧ o.eng = h.eng.val ∧ o.ctx = h.ctx.val ∧ o.cls = cls ∧
  o.opc = opc ∧ o.layer = h.layer.val ∧ o.prov = h.prov ∧ o.vary = h.vary ∧ o.cycles = h.cycles ∧ o.at_ = s.now ∧
  o.complete = blockCheck o.fault ∧ o.spec = decide (s.issueMode h cls opc = some true) ∧
  (∃ a b st, (s.engine h.eng).task = some a ∧ t.engine h.eng = { s.engine h.eng with task := some b, stallFrom := st } ∧
    b.next = a.next + 1 ∧ b.ctx = a.ctx ∧ b.job = a.job ∧ b.idx = a.idx ∧ b.ops = a.ops ∧ b.fail = a.fail ∧ o.job = a.job ∧
    o.task = a.idx ∧ o.idx = a.next) ∧
  (∀ e, e ≠ h.eng.val → unwaited (t.engine e) = unwaited (s.engine e))

/-- What an operation's issue leaves of the rest of the machine: everything but the ordering entries, the engines (see
`issued`), the engine's count of stopped run-ahead, and marks of its own on regions that had held an empty output (R119, R171). -/
def issueFrame (s t : State) (h : OpHdr) : Prop :=
  t = { s with ops := t.ops, nextOp := t.nextOp, engines := t.engines, empties := t.empties, counters := t.counters } ∧
  (∀ off, off ≠ eOff h.eng + 0x24 → t.counter off = s.counter off) ∧
  (∃ marks, t.empties = marks ++ s.empties ∧ ∀ m, m ∈ marks → m.op = s.nextOp)

/-- A byte of bonded memory outside the record and the page list of track slot n (R196). -/
def outsideTrack (s : State) (n a : Nat) : Bool :=
  !(decide (s.kvBase + 64 * n ≤ a) && decide (a < s.kvBase + 64 * n + 64)) &&
  !(decide (s.kvBase + 0x40000 + 8192 * n ≤ a) && decide (a < s.kvBase + 0x40000 + 8192 * n + 8192))

/-- A byte of bonded memory outside the page that a pool slot holds (R192, R196). -/
def outsidePage (s : State) (g : KvGeom) (slot a : Nat) : Bool :=
  decide (a < s.kvSlotAt slot) || decide (s.kvSlotAt slot + g.pageBytes ≤ a)

/-- An operation belongs to the task of an engine. -/
def ofTask (o : OpEntry) (e : Nat) (t : TaskRun) : Bool :=
  decide (o.eng = e) && decide (o.ctx = t.ctx) && decide (o.task = t.idx) && decide (o.job = t.job)

end Sys2Proof.Machine.State
end

