-- ==== Sys2Proof/WellFormed.lean ====
section
/-! DEFINITION. Which commands are well formed: what the spec fixes of a command's operands and their types do not say.
The machine gives every command a meaning, well formed or not; a claim that needs one of these checks names it. -/

namespace Sys2Proof

/-- An operation declares at most four read and two write regions (R111). -/
def OpHdr.wf (o : OpHdr) : Bool := decide (o.reads.length ≤ 4) && decide (o.writes.length ≤ 2)

/-- A MATMUL has a row, a reduction index and an output channel. -/
def MatParams.wf (p : MatParams) : Bool := decide (0 < p.m) && decide (0 < p.k) && decide (0 < p.n)

/-- A window operation has an input and a filter, moves, and divides its channels into groups (R169). -/
def WinParams.wf (p : WinParams) : Bool :=
  decide (0 < p.h ∧ 0 < p.w ∧ 0 < p.c ∧ 0 < p.kh ∧ 0 < p.kw ∧ 0 < p.sh ∧ 0 < p.sw ∧ 0 < p.dh ∧ 0 < p.dw ∧ 0 < p.g) &&
    decide (p.c % p.g = 0)

/-- A submission entry names at most eight defects (R251). -/
def SubEntry.wf (e : SubEntry) : Bool := decide (e.defects.length ≤ 8)

/-- A submission has at most 256 entries, 64 layer records of 80 bytes, and 64 names (R250). -/
def Submission.wf (u : Submission) : Bool :=
  decide (u.entries.length ≤ 256) && decide (u.records.length ≤ 64) && u.records.all (fun r => decide (r.length = 80)) &&
    decide (u.names.length ≤ 64) && u.entries.all SubEntry.wf

/-- A proxy message carries a 256-byte verdict record (R370). -/
def ProxyMsg.wf (m : ProxyMsg) : Bool := decide (m.record.length = 256)

/-- An access through a BAR of BAR0's size: PF0's 64 MiB, a VF's 64 KiB (R340). -/
def offsetOk (fn : Fin 7) (off : Nat) : Bool := decide (off < (if fn = 0 then 0x4000000 else 0x10000))

/-- Well-formed commands. -/
def Instr.wf : Instr → Bool
  | .setupWrite fn off _ => offsetOk fn off
  | .counterReadClear fn off => offsetOk fn off
  | .copy o | .waitBlock o _ | .append o | .kvWrite o _ _ _ | .close o | .closePublish o => o.wf
  | .open_ o _ | .openBuild o _ => o.wf
  | .matmul o p => o.wf && p.wf
  | .attnAbsorb o _ | .kvExpand o _ => o.wf
  | .conv o p | .dwconv o p | .maxpool o p | .minpool o p | .avgpool o p | .label o p => o.wf && p.wf
  | .vecAdd o | .vecSub o | .vecMul o | .vecFma o | .vecDiv o | .vecSqrt o | .vecExp2 o | .vecLog2 o | .vecRcp o => o.wf
  | .vecRsqrt o | .vecMax o | .vecMin o | .cvt o | .trunc o | .satadd o | .satsub o | .sum o | .rmax o => o.wf
  | .qstatic o _ _ _ | .qrow o _ | .qrowU8 o _ | .check o _ _ | .count o _ _ | .rand o _ | .squeeze o => o.wf
  | .digestAbsorb o | .gate o _ | .fence o _ | .wait o _ _ _ | .get o _ | .culvertAdd o _ _ _ | .cas o _ _ _ | .signal o _ => o.wf
  | .put o .region _ => o.wf
  | .put o (.intake u) _ => o.wf && u.wf
  | .almanacTick l => decide (l.length = 50)
  | .thermalSample a _ => decide (a.length = 8)
  | .lineJoin _ l => decide (l.length ≤ 16)
  | .proxyAdmit m | .proxySeal m | .proxyClose m => m.wf
  | .bar4Write _ _ d => !d.isEmpty
  | _ => true

end Sys2Proof
end

