-- ==== Sys2Proof/Certificates/Slice0/Obligations.lean ====
section
/-! DEFINITION. The statements for the provers. Each is about one command or one family of commands, or about every step. -/

open Sys2Proof Sys2Proof.Machine

/-- A step with a command waiting runs the one at the front of the queue on the state with the queue's rest. The queue is
the model's own (the assumption log, 4). -/
def Obligations.StepRunsTheFrontCommand : Prop :=
  ∀ (c : Instr) (rest : List Instr) (s : State), s.pending = c :: rest → step s = exec c { s with pending := rest }

/-- With no command waiting, one PTP clock cycle of 2 ns passes. That the idle step is a clock cycle is the model's choice
(the assumption log, 4); by how much module time moves in it is R39's. -/
def Obligations.IdleStepIsOneClockCycle : Prop :=
  (∀ s : State, s.pending = [] → ∃ t, step s = .next t ∧ t.now = s.now + 2 ∧
    (s.time.running = true →
      (t.time.t : Int) = ((s.time.t : Int) + 2 * (2 ^ 48 + s.time.rate)) % (2 ^ 48 * 1000000000 * 2 ^ 48)) ∧
    (s.time.running = false → t.time.t = s.time.t)) ∧
  (∀ s : State, s.pending = [] → s.waitingPorts = [] → (∀ p, (s.pipe p).busy = none) →
    ∃ x, step s = .next { s with now := s.now + 2, time := { s.time with t := x } })

/-- Every command answers a next state, and leaves the queue and the product variant as they are. What rests on choices and
readings of the model: the assumption log, 4, 23. -/
def Obligations.CommandsLeaveQueueAndVariant : Prop :=
  ∀ (c : Instr) (s : State), ∃ t, exec c s = .next t ∧ t.pending = s.pending ∧ t.variantN = s.variantN

/-- Whatever command runs, the module ends in one of the power modes, security states and debug levels that the spec has. -/
def Obligations.StepsKeepModesLegal : Prop :=
  ∀ s t : State, s.legalModes = true → step s = .next t → t.legalModes = true

/-- The module right after reset. What rests on choices and readings of the model: the assumption log, 2, 20, 21, 24. -/
def Obligations.ResetIsLegalAndFailSafe : Prop :=
  State.reset.legalModes = true ∧ State.reset.power.mode = 0 ∧ State.reset.sealed = false ∧ State.reset.pending = [] ∧
  State.reset.time.t = 0 ∧ State.reset.time.rate = 0 ∧ State.reset.time.servo = 0 ∧ State.reset.time.epoch = 0 ∧
  (∀ c : Nat, State.reset.engaged c = true) ∧
  Memory.wf State.reset.bonded = true ∧ Memory.wf State.reset.pool = true ∧ Memory.wf State.reset.log.host = true

/-- `SYS_SEAL.SEAL` sets the seal; the commands that can end it are the resets of the processor and the loss of its
supplies. What rests on choices and readings of the model: the assumption log, 98, 100. -/
def Obligations.SealHoldsUntilReset : Prop :=
  (∀ (v : Word) (s : State), s.answers 0 0x200008 = true → bit v 31 = true →
    exec (.seal v) s = .next { s with sealed := true }) ∧
  (∀ (v : Word) (s : State), s.answers 0 0x200008 = true → bit v 31 = false → exec (.seal v) s = .next s) ∧
  (∀ (c : Instr) (s t : State), exec c s = .next t → s.sealed = true →
    c ≠ .processorReset → c ≠ .processorResetEnd → (∀ b, c ≠ .coldBoot b) → c ≠ .thermalShutdown → c ≠ .powerLoss →
    (∀ ns, c ≠ .nrstReq ns) → t.sealed = true)

/-- A plain setup write: the register holds what the check of its field leaves, every other register is as before. What
rests on choices and readings of the model: the assumption log, 29, 119. -/
def Obligations.SetupWriteAppliesFieldChecks : Prop :=
  (∀ (s : State) (n : Fin 4) (v : Word) (d lo hi : Nat),
    (d, lo, hi) ∈ [(0x0C, 10, 10000), (0x18, 1, 10000), (0x3C, 0, 0xFFFFFFFF)] →
    s.answers 0 (State.encOff n + d) = true →
    ∃ t, exec (.setupWrite 0 (State.encOff n + d) v) s = .next t ∧
      t.reg (State.encOff n + d) = BitVec.ofNat 32 (clampNat lo hi v.toNat) ∧
      (∀ o, o ≠ State.encOff n + d → t.reg o = s.reg o) ∧
      ((v.toNat < lo ∨ hi < v.toNat) → t.lastCode (State.encOff n + 0x28) = 0x1101#16) ∧
      (lo ≤ v.toNat → v.toNat ≤ hi → t.log = s.log) ∧
      t = { s with regs := t.regs, log := t.log }) ∧
  (∀ (s : State) (n : Fin 4) (v : Word) (up dn : Nat), s.answers 0 (State.encOff n + 0x10) = true →
    up = v.toNat → dn = (s.reg (State.encOff n + 0x14)).toNat →
    ∃ t, exec (.setupWrite 0 (State.encOff n + 0x10) v) s = .next t ∧ t.reg (State.encOff n + 0x10) = v ∧
      (t.reg (State.encOff n + 0x14)).toNat = (if dn < up then dn else up * 7 / 8) ∧
      (∀ o, o ≠ State.encOff n + 0x10 → o ≠ State.encOff n + 0x14 → t.reg o = s.reg o) ∧
      (up ≤ dn → t.lastCode (State.encOff n + 0x28) = 0x1101#16) ∧ (dn < up → t.log = s.log) ∧
      (∀ m, m ≠ n.val → t.axis m = s.axis m) ∧ t = { s with regs := t.regs, log := t.log, axes := t.axes }) ∧
  (∀ (s : State) (n : Fin 4) (v : Word) (up dn : Nat), s.answers 0 (State.encOff n + 0x14) = true →
    dn = v.toNat → up = (s.reg (State.encOff n + 0x10)).toNat →
    ∃ t, exec (.setupWrite 0 (State.encOff n + 0x14) v) s = .next t ∧
      (t.reg (State.encOff n + 0x14)).toNat = (if dn < up then dn else up * 7 / 8) ∧
      (∀ o, o ≠ State.encOff n + 0x14 → t.reg o = s.reg o) ∧
      (up ≤ dn → t.lastCode (State.encOff n + 0x28) = 0x1101#16) ∧ (dn < up → t.log = s.log) ∧
      (∀ m, m ≠ n.val → t.axis m = s.axis m) ∧ t = { s with regs := t.regs, log := t.log, axes := t.axes })

/-- The two halves of `ENCn_PRESET` apply together, at the write of `_HI`. What rests on choices and readings of the model:
the assumption log, 28, 29. -/
def Obligations.SplitValueAppliesAtHighWrite : Prop :=
  (∀ (s : State) (n : Fin 4) (v : Word), s.answers 0 (State.encOff n + 0x40) = true →
    ∃ t, exec (.setupWrite 0 (State.encOff n + 0x40) v) s = .next t ∧
      tget none t.held (State.encOff n + 0x40) = some v ∧ (∀ o, t.reg o = s.reg o) ∧ t = { s with held := t.held }) ∧
  (∀ (s : State) (n : Fin 4) (v : Word), s.answers 0 (State.encOff n + 0x44) = true →
    ∃ t, exec (.setupWrite 0 (State.encOff n + 0x44) v) s = .next t ∧
      t.reg (State.encOff n + 0x40) = (tget none s.held (State.encOff n + 0x40)).getD (s.reg (State.encOff n + 0x40)) ∧
      bits (t.reg (State.encOff n + 0x44)) 15 0 = bits v 15 0 ∧
      (∀ o, o ≠ State.encOff n + 0x40 → o ≠ State.encOff n + 0x44 → t.reg o = s.reg o) ∧
      tget none t.held (State.encOff n + 0x40) = none ∧
      t = { s with regs := t.regs, held := t.held })

/-- Accesses that are not allowed change no register and are counted. What rests on choices and readings of the model: the
assumption log, 28, 33. -/
def Obligations.BadAccessesAreCounted : Prop :=
  (∀ (s : State) (fn : Fin 7), s.running = true →
    ∃ t, exec (.barBadAccess fn) s = .next t ∧
      t.counter (State.badAccessOff fn) = satAdd (s.counter (State.badAccessOff fn)) 1 ∧
      t.lastCode (if fn.val = 0 then 0x2C1000 else fn.val * 0x4000000 + 0x1000) = 0x1034#16 ∧
      t = { s with counters := t.counters, log := t.log }) ∧
  (∀ (s : State) (fn : Fin 7) (off : Nat) (v : Word), s.running = true → off % 4 ≠ 0 →
    exec (.setupWrite fn off v) s = exec (.barBadAccess fn) s) ∧
  (∀ (s : State) (off : Nat) (v : Word), s.answers 0 off = true → off % 4 = 0 → off < 0x4000000 → mapped off = false →
    ¬ (0x2C0000 ≤ off ∧ off < 0x2C1000) → ¬ (0x2D0000 ≤ off ∧ off < 0x2D2000) →
    ∃ t, exec (.setupWrite 0 off v) s = .next t ∧ t.counter 0x200018 = satAdd (s.counter 0x200018) 1 ∧
      t = { s with counters := t.counters, log := t.log })

/-- A read of a read-clear counter. What rests on choices and readings of the model: the assumption log, 29, 113. -/
def Obligations.CounterReadClearsOnce : Prop :=
  (∀ (s : State) (fn : Fin 7) (off key : Nat), s.answers fn off = true → key = fn.val * 0x4000000 + off →
    ∃ t, exec (.counterReadClear fn off) s = .next t ∧ t.busRead = s.readReg fn off ∧
      (key ≠ 0x20000C → key ≠ 0x300100 → State.lostRing fn off = none → t.counter key = 0) ∧
      (∀ o, o ≠ key → t.counter o = s.counter o) ∧
      (∀ i, State.lostRing fn off = some i → tget 0 t.log.ringLost (ringKey fn i) = 0) ∧
      (∀ j, (∀ i, State.lostRing fn off = some i → j ≠ ringKey fn i) → tget 0 t.log.ringLost j = tget 0 s.log.ringLost j) ∧
      (key = 0x300100 → t.vig.late = 0 ∧ t.vig.timeouts = 0) ∧ (key ≠ 0x300100 → t.vig = s.vig) ∧
      t = { s with busRead := t.busRead, counters := t.counters, latched := t.latched,
                   log := { s.log with ringLost := t.log.ringLost },
                   vig := { s.vig with late := t.vig.late, timeouts := t.vig.timeouts } }) ∧
  (∀ (s : State) (off : Nat), s.variantN = false → s.latched = [] →
    off ∈ [0x200018, 0x21002C, 0x210030, 0x24002C, 0x260010, 0x260024, 0x260040, 0x260054, 0x270024, 0x270038, 0x270120, 0x280010,
      0x280028, 0x28002C, 0x280030, 0x280038, 0x28003C, 0x280050, 0x290018, 0x290420, 0x2A0128, 0x2A020C, 0x2B0020, 0x2B0034,
      0x2C1008, 0x2E0020, 0x2E0130, 0x2F0008, 0x300048, 0x300084] → s.readReg 0 off = s.counter off)

/-- `ENCn_CFG` with EN: the axis starts; or a MODE that is refused keeps EN at 0. What rests on choices and readings of the
model: the assumption log, 26, 27, 36. -/
def Obligations.AxisEnableStartsOrRefuses : Prop :=
  (∀ (s : State) (n : Fin 4) (v : Word), s.answers 0 (State.encOff n) = true → s.sealed = false → bit v 31 = true →
    s.encOn n = false → (bits v 3 0 = 1 ∨ bits v 3 0 = 3 ∨ bits v 3 0 = 4) → bits v 9 8 ≠ 3 → bits v 17 16 ≤ 1 →
    ∃ t, exec (.axisEnable n v) s = .next t ∧ t.encOn n = true ∧ t.encMode n = bits v 3 0 ∧
      t.fld (State.encOff n) 9 8 = bits v 9 8 ∧ t.flag (State.encOff n) 10 = bit v 10 ∧
      t.fld (State.encOff n) 15 11 = bits v 15 11 ∧
      (t.axis n).pos = (s.axis n).pos ∧ (t.axis n).hist = [] ∧ (t.axis n).legal = 0 ∧ (t.axis n).lastP = none ∧
      (∀ m, m ≠ n.val → t.axis m = s.axis m) ∧ (∀ o, o ≠ State.encOff n → t.reg o = s.reg o) ∧
      t = { s with regs := t.regs, axes := t.axes, log := t.log }) ∧
  (∀ (s : State) (n : Fin 4) (v : Word), s.answers 0 (State.encOff n) = true → s.sealed = false → bit v 31 = false →
    bits v 3 0 ≤ 4 →
    ∃ t, exec (.axisEnable n v) s = .next t ∧ t.encOn n = false ∧ t.encMode n = bits v 3 0 ∧
      (t.axis n).pos = (s.axis n).pos ∧ t.speed n = s.speed n ∧ (∀ m, m ≠ n.val → t.axis m = s.axis m) ∧
      (∀ o, o ≠ State.encOff n → t.reg o = s.reg o) ∧ t = { s with regs := t.regs, axes := t.axes, log := t.log }) ∧
  (∀ (s : State) (n : Fin 4) (v : Word), s.answers 0 (State.encOff n) = true → s.sealed = false → bit v 31 = true →
    s.encOn n = false → bits v 3 0 = 2 →
    (s.variantN = true ∨ ∃ i, 4 * n.val ≤ i ∧ i ≤ 4 * n.val + 2 ∧ s.flag (0x290100 + 4 * i) 31 = true) →
    ∃ t, exec (.axisEnable n v) s = .next t ∧ t.encOn n = false ∧ t.encMode n = 2 ∧ t.axes = s.axes ∧
      t.lastCode (State.encStat n) = (if s.variantN then 0x1010#16 else 0x1101#16) ∧
      (∀ o, o ≠ State.encOff n → t.reg o = s.reg o) ∧ t = { s with regs := t.regs, log := t.log })

/-- Quadrature counting: MULT 0 is x1, 1 is x2, 2 is x4. What rests on choices and readings of the model: the assumption
log, 37. -/
def Obligations.IncrementalEdgeCounts : Prop :=
  (∀ (s : State) (n : Fin 4) (a b fwd : Bool), s.encOn n = true → (s.encMode n = 1 ∨ s.encMode n = 2) →
    s.axisFault n = false →
    (State.quadPlace a b + 4 - State.quadPlace (s.axis n).a (s.axis n).b) % 4 = (if fwd then 1 else 3) →
    ∃ t d, exec (.incrementalEdge n a b) s = .next t ∧ (t.axis n).a = a ∧ (t.axis n).b = b ∧
      d = (if s.fld (State.encOff n) 9 8 = 0 then (if fwd && !(s.axis n).a && a then (1 : Int) else if !fwd && (s.axis n).a && !a then -1 else 0)
           else if s.fld (State.encOff n) 9 8 = 1 then (if (s.axis n).a = a then 0 else if fwd then 1 else -1)
           else if fwd then 1 else -1) ∧
      (t.axis n).pos = (s.axis n).pos + BitVec.ofInt 48 (if s.flag (State.encOff n) 10 then -d else d) ∧
      (t.axis n).legal = (if fwd then 1 else -1) ∧ (∀ m, m ≠ n.val → t.axis m = s.axis m) ∧
      t = { s with axes := t.axes, regs := t.regs, emus := t.emus, log := t.log }) ∧
  (∀ (s : State) (n : Fin 4) (a b : Bool), s.encOn n = true → (s.encMode n = 1 ∨ s.encMode n = 2) →
    s.axisFault n = false → a ≠ (s.axis n).a → b ≠ (s.axis n).b →
    ∃ t, exec (.incrementalEdge n a b) s = .next t ∧
      t.counter (State.encOff n + 0x2C) = satAdd (s.counter (State.encOff n + 0x2C)) 1 ∧
      t.flag (State.encStat n) 6 = true ∧ t.lastCode (State.encStat n) = 0x2101#16 ∧
      (t.axis n).pos = (s.axis n).pos + BitVec.ofInt 48
        (if s.flag (State.encOff n) 18 then (if s.flag (State.encOff n) 10 then -(2 * (s.axis n).legal) else 2 * (s.axis n).legal) else 0) ∧
      (∀ m, m ≠ n.val → t.axis m = s.axis m) ∧
      t = { s with axes := t.axes, regs := t.regs, emus := t.emus, counters := t.counters, log := t.log }) ∧
  (∀ (s : State) (n : Fin 4), exec (.incrementalEdge n (s.axis n).a (s.axis n).b) s = .next (s.setAxis n (s.axis n))) ∧
  (∀ (s : State) (n : Fin 4) (a b : Bool), (s.encOn n = false ∨ s.axisFault n = true) →
    ∃ t, exec (.incrementalEdge n a b) s = .next t ∧ (t.axis n).pos = (s.axis n).pos ∧ t.emus = s.emus)

/-- The Z latch and its check. -/
def Obligations.ZLatchesAndChecksPeriod : Prop :=
  ∀ (s : State) (n : Fin 4), s.encOn n = true → s.flag (State.encOff n + 0x48) 1 = false →
    ∃ t bad, exec (.zQualified n) s = .next t ∧ (t.axis n).pos = (s.axis n).pos ∧ (t.axis n).zpos = (s.axis n).pos ∧
      t.flag (State.encStat n) 7 = true ∧
      bad = (decide ((s.reg (State.encOff n + 0x3C)).toNat ≠ 0) && decide ((s.axis n).zdir = some (s.axis n).neg) &&
        decide ((posDiff (s.axis n).pos (s.axis n).zpos).natAbs ≠ (s.reg (State.encOff n + 0x3C)).toNat)) ∧
      t.flag (State.encStat n) 9 = (bad || s.flag (State.encStat n) 9) ∧
      t.flag (State.encStat n) 6 = (bad || s.flag (State.encStat n) 6) ∧
      t.lastCode (State.encStat n) = (if bad then 0x2104#16 else s.lastCode (State.encStat n)) ∧
      (bad = true → t.codeWindow 0x2104#16 0x01 n = true) ∧ (bad = false → t.log = s.log) ∧
      (t.axis n).zdir = some (s.axis n).neg ∧ (∀ m, m ≠ n.val → t.axis m = s.axis m) ∧
      t = { s with axes := t.axes, regs := t.regs, emus := t.emus, log := t.log }

/-- A preset, by GO and by an armed Z. That ARM_Z arms the preset without GO too is the model's choice (the assumption log,
124). What rests on choices and readings of the model: the assumption log, 124. -/
def Obligations.PresetMovesWhatIsKeyedToTheAxis : Prop :=
  (∀ (s : State) (n : Fin 4) (v : Word), s.answers 0 (State.encOff n + 0x48) = true → bit v 0 = true → bit v 1 = false →
    ∃ t d, exec (.presetGo n v) s = .next t ∧ (t.axis n).pos = BitVec.ofNat 48 (s.reg64 (State.encOff n + 0x40)) ∧
      d = (t.axis n).pos - (s.axis n).pos ∧
      (t.axis n).zpos = (if (s.axis n).zdone then (s.axis n).zpos + d else (s.axis n).zpos) ∧
      t.calOf n = (s.calOf n).map (fun e => { e with pos := e.pos + BitVec.ofNat 64 (d.toNat * 65536) }) ∧
      (∀ m, m ≠ n.val → t.calOf m = s.calOf m ∧ t.axis m = s.axis m) ∧
      t.parts = s.parts.map (fun p => if p.sealed = true ∨ s.bindAxis p.lane ≠ n then p else
        { p with on := p.on + BitVec.ofNat 64 (d.toNat * 65536), off := p.off + BitVec.ofNat 64 (d.toNat * 65536),
                 deadline := p.deadline + BitVec.ofNat 64 (d.toNat * 65536) }) ∧
      t.flag (State.encOff n + 0x48) 1 = false ∧ (∀ o, t.lastCode o = s.lastCode o) ∧
      (∀ o, o ≠ State.encOff n + 0x48 → t.reg o = s.reg o) ∧
      t = { s with axes := t.axes, cal := t.cal, parts := t.parts, sluices := t.sluices, provings := t.provings,
                   regs := t.regs, log := t.log }) ∧
  (∀ (s : State) (n : Fin 4) (v : Word), s.answers 0 (State.encOff n + 0x48) = true → (bit v 0 = false ∨ bit v 1 = true) →
    ∃ t, exec (.presetGo n v) s = .next t ∧ t.flag (State.encOff n + 0x48) 1 = bit v 1 ∧
      (∀ o, o ≠ State.encOff n + 0x48 → t.reg o = s.reg o) ∧ t = { s with regs := t.regs }) ∧
  (∀ (s : State) (n : Fin 4), s.encOn n = true → s.flag (State.encOff n + 0x48) 1 = true →
    ∃ t, exec (.zQualified n) s = .next t ∧ (t.axis n).pos = BitVec.ofNat 48 (s.reg64 (State.encOff n + 0x40)) ∧
      (t.axis n).zpos = BitVec.ofNat 48 (s.reg64 (State.encOff n + 0x40)) ∧
      t.flag (State.encOff n + 0x48) 1 = false ∧ (∀ m, m ≠ n.val → t.calOf m = s.calOf m ∧ t.axis m = s.axis m))

/-- Frames of absolute sensors. That a CRC is judged before nE is the model's choice (the assumption log, 124). What rests
on choices and readings of the model: the assumption log, 38, 39, 124. -/
def Obligations.AbsoluteFramesEnterOrFail : Prop :=
  (∀ (s : State) (n : Fin 4), s.encOn n = true → s.encAbs n = true →
    ∃ t, exec (.absoluteFrameStart n) s = .next t ∧
      (t.axis n).frameStart = some ((s.time.t : Int) + s.fld (State.encOff n + 0x50) 7 0 * 4 * 2 ^ 48) ∧
      (t.axis n).frameAt = s.now ∧ (t.axis n).pos = (s.axis n).pos ∧ (∀ m, m ≠ n.val → t.axis m = s.axis m) ∧
      t = { s with axes := t.axes }) ∧
  (∀ (s : State) (n : Fin 4) (raw check sb r p : Nat) (nE nW : Bool), s.encOn n = true → (s.axis n).wire = 0 →
    sb = s.fld (State.encOff n) 24 19 → 8 ≤ sb → r = raw % 2 ^ sb →
    ((s.encMode n = 4 ∧ nE = true ∧ check = State.bissCrc sb r nE nW ∧ p = r) ∨
     (s.encMode n = 3 ∧ p = (if s.flag (State.encOff n) 25 then State.grayTo sb r else r) ∧
       (s.fld (State.encOff n) 27 26 = 0 ∨ (s.fld (State.encOff n) 27 26 = 1 ∧ (State.onesOf sb r + check % 2) % 2 = 0) ∨
        (s.fld (State.encOff n) 27 26 = 2 ∧ (State.onesOf sb r + check % 2) % 2 = 1) ∨
        (s.fld (State.encOff n) 27 26 = 3 ∧ check = Config.ssiCrc6 sb r)))) →
    ((s.axis n).lastP = none →
      ∃ t, exec (.absoluteFrame n raw check nE nW) s = .next t ∧
        (t.axis n).pos = (if s.flag (State.encOff n) 10 then -BitVec.ofNat 48 p else BitVec.ofNat 48 p) ∧
        (t.axis n).lastP = some p ∧ (t.axis n).fails = 0 ∧ (t.axis n).absFault = false ∧
        ((s.axis n).absFault = false → t.cal = s.cal ∧ t.chans = s.chans ∧ t.fs = s.fs) ∧
        ((s.axis n).absFault = true → t.calOf n = (s.calOf n).filter (fun e => ¬(e.kind = .on ∨ e.kind = .off))) ∧
        (∀ m, m ≠ n.val → t.axis m = s.axis m ∧ t.calOf m = s.calOf m) ∧
        t = { s with axes := t.axes, cal := t.cal, chans := t.chans, fs := t.fs }) ∧
    (∀ (lp : Nat) (d : Int), (s.axis n).lastP = some lp → lp < 2 ^ sb → p < 2 ^ sb →
      (d - ((p : Int) - lp)) % 2 ^ sb = 0 → -(2 ^ (sb - 1)) ≤ d → d < 2 ^ (sb - 1) →
      ((s.reg (State.encOff n + 0x4C)).toNat = 0 ∨ d.natAbs ≤ (s.reg (State.encOff n + 0x4C)).toNat) →
      ∃ t, exec (.absoluteFrame n raw check nE nW) s = .next t ∧
        (t.axis n).pos = (s.axis n).pos + BitVec.ofInt 48 (if s.flag (State.encOff n) 10 then -d else d) ∧
        (t.axis n).lastP = some p ∧ (t.axis n).fails = 0 ∧ (t.axis n).absFault = false ∧
        ((s.axis n).absFault = false → t.cal = s.cal ∧ t.chans = s.chans ∧ t.fs = s.fs) ∧
        ((s.axis n).absFault = true → t.calOf n = (s.calOf n).filter (fun e => ¬(e.kind = .on ∨ e.kind = .off))) ∧
        (∀ m, m ≠ n.val → t.axis m = s.axis m ∧ t.calOf m = s.calOf m) ∧
        t = { s with axes := t.axes, regs := t.regs, emus := t.emus, log := t.log, cal := t.cal, chans := t.chans, fs := t.fs })) ∧
  (∀ (s : State) (n : Fin 4) (c : Instr) (code : Half) (sb : Nat), s.encOn n = true → (s.axis n).wire = 0 →
    sb = s.fld (State.encOff n) 24 19 →
    ((c = .bissAckTimeout n ∧ code = 0x5102#16 ∧ s.encMode n = 4 ∧ (s.axis n).frameStart.isSome = true ∧
        (s.axis n).frameAt + 64 * ((s.fld (State.encOff n + 4) 11 0 + 1) * 4) ≤ s.now) ∨
     (∃ raw check nE nW, c = .absoluteFrame n raw check nE nW ∧ code = 0x2102#16 ∧ s.encMode n = 4 ∧
       check ≠ State.bissCrc sb (raw % 2 ^ sb) nE nW) ∨
     (∃ raw check nE nW, c = .absoluteFrame n raw check nE nW ∧ code = 0x2102#16 ∧ s.encMode n = 3 ∧
       ((s.fld (State.encOff n) 27 26 = 1 ∧ (State.onesOf sb (raw % 2 ^ sb) + check % 2) % 2 = 1) ∨
        (s.fld (State.encOff n) 27 26 = 2 ∧ (State.onesOf sb (raw % 2 ^ sb) + check % 2) % 2 = 0) ∨
        (s.fld (State.encOff n) 27 26 = 3 ∧ check ≠ Config.ssiCrc6 sb (raw % 2 ^ sb)))) ∨
     (∃ raw check nW, c = .absoluteFrame n raw check false nW ∧ code = 0x5103#16 ∧ s.encMode n = 4 ∧
       check = State.bissCrc sb (raw % 2 ^ sb) false nW) ∨
     (∃ raw check nW lp, c = .absoluteFrame n raw check true nW ∧ code = 0x2103#16 ∧ s.encMode n = 4 ∧
       check = State.bissCrc sb (raw % 2 ^ sb) true nW ∧ (s.axis n).lastP = some lp ∧
       (s.reg (State.encOff n + 0x4C)).toNat ≠ 0 ∧
       (s.reg (State.encOff n + 0x4C)).toNat < (signed sb (raw % 2 ^ sb + 2 ^ sb - lp)).natAbs)) →
    ∃ t, exec c s = .next t ∧ (t.axis n).pos = (s.axis n).pos ∧ (t.axis n).fails = (s.axis n).fails + 1 ∧
      t.counter (State.encOff n + 0x30) = satAdd (s.counter (State.encOff n + 0x30)) 1 ∧
      t.flag (State.encStat n) 6 = true ∧
      (t.axis n).absFault = ((s.axis n).absFault || decide (s.fld (State.encOff n + 0x50) 15 8 ≤ (s.axis n).fails + 1)) ∧
      (((s.axis n).absFault = true ∨ (s.axis n).fails + 1 < s.fld (State.encOff n + 0x50) 15 8) →
        t.lastCode (State.encStat n) = code ∧ t.fs = s.fs ∧ t.cal = s.cal) ∧
      ((s.axis n).absFault = false → s.fld (State.encOff n + 0x50) 15 8 ≤ (s.axis n).fails + 1 →
        t.lastCode (State.encStat n) = 0x5104#16 ∧ n.val ∈ t.fs.axes) ∧
      (∀ m, m ≠ n.val → t.axis m = s.axis m ∧ t.calOf m = s.calOf m) ∧
      t = { s with axes := t.axes, regs := t.regs, counters := t.counters, cal := t.cal, chans := t.chans, fs := t.fs,
                   log := t.log })

/-- Wire faults and the fail-safe of the axis's outputs. What rests on choices and readings of the model: the assumption
log, 38, 123. -/
def Obligations.WireFaultStopsAxisUntilCleared : Prop :=
  (∀ (s : State) (n : Fin 4) (pairs : BitVec 4), s.encOn n = true → (s.encMode n = 1 ∨ s.encAbs n = true) →
    pairs &&& BitVec.ofNat 4 (s.fld (State.encOff n + 8) 19 16) ≠ 0 →
    ∃ t, exec (.wireFaultDetect n pairs) s = .next t ∧
      (t.axis n).wire = (s.axis n).wire ||| (pairs &&& BitVec.ofNat 4 (s.fld (State.encOff n + 8) 19 16)) ∧
      (t.axis n).pos = (s.axis n).pos ∧ t.speed n = 0 ∧ t.axisFault n = true ∧
      t.flag (State.encStat n) 6 = true ∧ t.lastCode (State.encStat n) = 0x5101#16 ∧
      (∀ m, m ≠ n.val → t.axis m = s.axis m ∧ t.calOf m = s.calOf m) ∧
      (s.axisFault n = true → t.cal = s.cal ∧ t.chans = s.chans ∧ t.fs = s.fs) ∧
      (s.axisFault n = false → t.calOf n = (s.calOf n).filter (fun e => ¬(e.kind = .on ∨ e.kind = .off)) ∧
        n.val ∈ t.fs.axes ∧ t.fs.heartbeat = s.fs.heartbeat ∧ t.fs.command = s.fs.command ∧
        t.lastCode 0x280004 = 0x5C02#16) ∧
      t = { s with axes := t.axes, regs := t.regs, cal := t.cal, chans := t.chans, fs := t.fs, log := t.log }) ∧
  (∀ (s : State) (n : Fin 4), (s.axis n).wire ≠ 0 →
    ∃ t, exec (.wireFaultClear n) s = .next t ∧ (t.axis n).wire = 0 ∧ (t.axis n).clearedAt = some s.now ∧
      (t.axis n).pos = (s.axis n).pos ∧ (t.axis n).absFault = (s.axis n).absFault ∧
      ((s.axis n).absFault = true → t.cal = s.cal ∧ t.chans = s.chans ∧ t.fs = s.fs) ∧
      ((s.axis n).absFault = false → t.calOf n = (s.calOf n).filter (fun e => ¬(e.kind = .on ∨ e.kind = .off))) ∧
      (∀ m, m ≠ n.val → t.axis m = s.axis m ∧ t.calOf m = s.calOf m) ∧
      t = { s with axes := t.axes, cal := t.cal, chans := t.chans, fs := t.fs }) ∧
  (∀ (s : State) (n : Fin 4) (u : Nat), (s.axis n).clearedAt = some u → n.val ∈ s.fs.axes → s.axisFault n = false →
    u + 1000000 ≤ s.now →
    ∃ t, exec (.axisFailsafeRelease n) s = .next t ∧ n.val ∉ t.fs.axes ∧
      (∀ m, m ≠ n.val → (m ∈ t.fs.axes ↔ m ∈ s.fs.axes)) ∧ t.fs.heartbeat = s.fs.heartbeat ∧
      t.fs.command = s.fs.command ∧ t.fs.full = s.fs.full ∧ (t.axis n).pos = (s.axis n).pos ∧
      t = { s with fs := t.fs, axes := t.axes })

/-- The count method and standstill. What rests on choices and readings of the model: the assumption log, 124. -/
def Obligations.SpeedEvaluationAndStandstill : Prop :=
  (∀ (s : State) (n : Fin 4) (p : Pos), s.encOn n = true → s.encMode n ≠ 0 →
    ∃ t, exec (.speedCountEval n) s = .next t ∧ (t.axis n).pos = (s.axis n).pos ∧
      (t.axis n).window = ((s.axis n).pos :: (s.axis n).window).take 17 ∧ (t.axis n).period = (s.axis n).period ∧
      ((s.axis n).window[15]? = some p → (t.axis n).counted =
        clampInt (-(2 ^ 31 - 1)) (2 ^ 31 - 1)
          (divRne (posDiff (s.axis n).pos p * (64 * 1000000)) (s.reg (State.encOff n + 0x0C)).toNat)) ∧
      (∀ m, m ≠ n.val → t.axis m = s.axis m) ∧ t = { s with axes := t.axes }) ∧
  (∀ (s : State) (n : Fin 4), s.encOn n = true → s.encMode n ≠ 0 →
    (s.axis n).lastAt + (s.reg (State.encOff n + 0x18)).toNat * 1000000 ≤ s.now →
    ∃ t, exec (.standstill n) s = .next t ∧ (t.axis n).still = true ∧ t.speed n = 0 ∧ (t.axis n).pos = (s.axis n).pos ∧
      (∀ m, m ≠ n.val → t.axis m = s.axis m) ∧ t = { s with axes := t.axes })

/-- Emulation outputs. What rests on choices and readings of the model: the assumption log, 124. -/
def Obligations.EmulationFollowsItsSource : Prop :=
  (∀ (s : State) (m : Fin 2) (v : Word), s.answers 0 (State.emuOff m) = true → bit v 31 = true →
    s.flag (State.emuOff m) 31 = false → bits v 3 2 ≠ 3 →
    s.fld (State.emuOff m + 4) 31 16 ≠ 0 → s.fld (State.emuOff m + 4) 15 0 ≠ 0 →
    ∃ t, exec (.emuEnable m v) s = .next t ∧ t.flag (State.emuOff m) 31 = true ∧
      t.fld (State.emuOff m) 1 0 = bits v 1 0 ∧ (t.emu m).acc = 0 ∧ (t.emu m).target = 0 ∧ (t.emu m).emitted = 0 ∧
      (∀ k, k ≠ m.val → t.emu k = s.emu k) ∧ (∀ o, o ≠ State.emuOff m → t.reg o = s.reg o) ∧
      t = { s with regs := t.regs, emus := t.emus, log := t.log }) ∧
  (∀ (s : State) (m : Fin 2) (v : Word), s.answers 0 (State.emuOff m) = true → bit v 31 = true →
    s.flag (State.emuOff m) 31 = false →
    (s.fld (State.emuOff m + 4) 31 16 = 0 ∨ s.fld (State.emuOff m + 4) 15 0 = 0) →
    ∃ t, exec (.emuEnable m v) s = .next t ∧ t.flag (State.emuOff m) 31 = false ∧
      t.lastCode (State.emuOff m + 0x0C) = 0x1102#16 ∧ t.emus = s.emus) ∧
  (∀ (s : State) (m : Fin 2) (n : Fin 4) (a b fwd : Bool), s.encOn n = true → s.encMode n = 1 → s.axisFault n = false →
    s.flag (State.emuOff m) 31 = true → s.fld (State.emuOff m) 1 0 = n → s.fld (State.emuOff m + 4) 15 0 ≠ 0 →
    s.fld (State.encOff n) 9 8 = 2 → s.flag (State.encOff n) 10 = false →
    (State.quadPlace a b + 4 - State.quadPlace (s.axis n).a (s.axis n).b) % 4 = (if fwd then 1 else 3) →
    ∃ t, exec (.incrementalEdge n a b) s = .next t ∧
      (t.emu m).acc + s.fld (State.emuOff m + 4) 15 0 * (t.emu m).target =
        (s.emu m).acc + s.fld (State.emuOff m + 4) 15 0 * (s.emu m).target +
          (if fwd then 1 else -1) * s.fld (State.emuOff m + 4) 31 16 ∧
      0 ≤ (t.emu m).acc ∧ (t.emu m).acc < s.fld (State.emuOff m + 4) 15 0 ∧ (t.emu m).emitted = (s.emu m).emitted) ∧
  (∀ (s : State) (m : Fin 2), s.flag (State.emuOff m) 31 = true → (s.emu m).target ≠ (s.emu m).emitted →
    (s.emu m).lastEdge + s.fld (State.emuOff m) 23 8 * 4 ≤ s.now →
    ∃ t, exec (.emuEdge m) s = .next t ∧
      (t.emu m).emitted = (s.emu m).emitted + (if (s.emu m).emitted < (s.emu m).target then 1 else -1) ∧
      (t.emu m).target = (s.emu m).target ∧ (t.emu m).lastEdge = s.now ∧ (∀ k, k ≠ m.val → t.emu k = s.emu k) ∧
      t = { s with emus := t.emus, regs := t.regs, log := t.log })

/-- Snapshots and steps of module time. -/
def Obligations.SnapshotAndStepOfModuleTime : Prop :=
  (∀ (s : State) (v : Word), s.answers 0 0x220000 = true → bit v 0 = true →
    ∃ t, exec (.timeSnap v) s = .next t ∧ t.time.snapTime = s.time.t ∧
      t.time.snapPos = [s.posAt 0 s.time.t, s.posAt 1 s.time.t, s.posAt 2 s.time.t, s.posAt 3 s.time.t] ∧
      t = { s with time := { s.time with snapTime := t.time.snapTime, snapPos := t.time.snapPos } }) ∧
  (∀ (s : State) (v : Word), s.answers 0 0x220044 = true → bit v 0 = true → s.time.stepPending = none →
    ∃ t, exec (.timeStepGo v) s = .next t ∧
      t.time.stepPending = (if s.reg64 0x22003C = 0 then none else
        some (if s.reg64 0x22003C < 2 ^ 63 then (s.reg64 0x22003C : Int) else (s.reg64 0x22003C : Int) - 2 ^ 64)) ∧
      t = { s with time := { s.time with stepPending := t.time.stepPending } }) ∧
  (∀ (s : State) (v : Word) (d : Int), s.answers 0 0x220044 = true → bit v 0 = true → s.time.stepPending = some d →
    ∃ t, exec (.timeStepGo v) s = .next t ∧ t.time = s.time ∧ t = { s with log := t.log }) ∧
  (∀ (s : State) (d : Int), s.time.stepPending = some d →
    ∃ t, exec .timeStepApply s = .next t ∧
      (t.time.t : Int) = ((s.time.t : Int) + d * 2 ^ 48) % (2 ^ 48 * 1000000000 * 2 ^ 48) ∧
      t.time.stepPending = none ∧ t.time.epoch = s.time.epoch + 1 ∧ t.time.rate = s.time.rate ∧
      (∀ n, (t.axis n).hist = (s.axis n).hist.map (fun h => (h.1 + d * 2 ^ 48, h.2)) ∧ (t.axis n).pos = (s.axis n).pos) ∧
      t = { s with time := t.time, axes := t.axes, log := t.log })

/-- Writes of RATE and of the servo's mode. What rests on choices and readings of the model: the assumption log, 41, 124. -/
def Obligations.RateAndServoWrites : Prop :=
  (∀ (s : State) (hi lo : Word), s.answers 0 0x220038 = true → s.fld 0x220048 1 0 ≠ 1 →
    lo = (tget none s.held 0x220034).getD (BitVec.ofNat 32 (unsigned 40 s.time.rate)) →
    ∃ t x, exec (.timeRateWrite hi) s = .next t ∧
      x = (if bits hi 7 7 = 0 then ((bits hi 7 0 * 2 ^ 32 + lo.toNat : Nat) : Int)
           else ((bits hi 7 0 * 2 ^ 32 + lo.toNat : Nat) : Int) - 2 ^ 40) ∧
      t.time.rate = clampInt (-140737488355) 140737488355 x ∧ t.time.t = s.time.t ∧ t.time.servo = s.time.servo ∧
      t = { s with time := { s.time with rate := t.time.rate, hostRate := t.time.hostRate }, log := t.log }) ∧
  (∀ (s : State) (hi : Word), s.answers 0 0x220038 = true → s.fld 0x220048 1 0 = 1 → exec (.timeRateWrite hi) s = .next s) ∧
  (∀ (s : State) (v : Word), s.answers 0 0x220048 = true → bits v 1 0 = 1 → s.time.servo = 0 →
    s.portPresent (bits v 5 2) = true → s.flag (State.portOff (bits v 5 2)) 31 = true →
    ∃ t, exec (.timeServoWrite v) s = .next t ∧ t.time.servo = 1 ∧ t.time.cosc = s.time.rate ∧ t.time.sumO = 0 ∧
      t.fld 0x220048 1 0 = 1 ∧ t.fld 0x220048 5 2 = bits v 5 2 ∧ t.time.t = s.time.t ∧ t.time.rate = s.time.rate ∧
      t = { s with regs := t.regs, time := t.time, log := t.log }) ∧
  (∀ (s : State) (v : Word), s.answers 0 0x220048 = true → bits v 1 0 = 1 →
    (s.portPresent (bits v 5 2) = false ∨ s.flag (State.portOff (bits v 5 2)) 31 = false) →
    ∃ t, exec (.timeServoWrite v) s = .next t ∧ t.fld 0x220048 5 2 = s.fld 0x220048 5 2 ∧ t.time.t = s.time.t ∧
      t.time.rate = s.time.rate ∧ t = { s with regs := t.regs, time := t.time, log := t.log }) ∧
  (∀ (s : State) (v : Word), s.answers 0 0x220048 = true → bits v 1 0 = 0 →
    ∃ t, exec (.timeServoWrite v) s = .next t ∧ t.time.servo = 0 ∧ t.fld 0x220048 1 0 = 0 ∧ t.time.t = s.time.t ∧
      t.time.rate = s.time.rate ∧ t = { s with regs := t.regs, time := t.time, log := t.log })

/-- The PTP servo. That a delay request goes out with each Sync is the model's choice (the assumption log, 125). What rests
on choices and readings of the model: the assumption log, 13, 124, 125. -/
def Obligations.SyncSteersAndHoldoverFreezes : Prop :=
  (∀ (s : State) (o : Int) (interval : Nat), s.fld 0x220048 1 0 = 1 → s.time.servo = 1 → 0 < interval →
    s.lead.leads = true → s.portOn (s.fld 0x220048 5 2) = true → (s.port (s.fld 0x220048 5 2)).locked = true →
    s.time.firstSync = true → s.time.stepped = false → s.fld 0x220048 13 6 * 1000 < o.natAbs →
    ∃ t, exec (.sync o interval) s = .next t ∧
      (t.time.t : Int) = ((s.time.t : Int) - o * 2 ^ 48) % (2 ^ 48 * 1000000000 * 2 ^ 48) ∧
      t.time.stepped = true ∧ t.time.epoch = s.time.epoch + 1 ∧ t.time.rate = s.time.rate ∧ t.time.servo = s.time.servo ∧
      t.time.firstSync = false ∧ t.time.peerDelay = s.flag (State.portOff (s.fld 0x220048 5 2)) 25 ∧
      t = { s with time := t.time, axes := t.axes, ports := t.ports, lanes := t.lanes, counters := t.counters, log := t.log }) ∧
  (∀ (s : State) (o : Int) (interval : Nat), s.fld 0x220048 1 0 = 1 → s.time.servo ≠ 0 → 0 < interval →
    s.lead.leads = true → s.portOn (s.fld 0x220048 5 2) = true → (s.port (s.fld 0x220048 5 2)).locked = true →
    (s.time.firstSync = false ∨ s.time.servo ≠ 1 ∨ s.time.stepped = true ∨ o.natAbs ≤ s.fld 0x220048 13 6 * 1000) →
    ∃ t lim, exec (.sync o interval) s = .next t ∧ t.time.t = s.time.t ∧ t.time.epoch = s.time.epoch ∧
      lim = (s.fld 0x220048 30 22 : Int) * 2 ^ 48 / 1000000 ∧
      -140737488355 ≤ t.time.rate ∧ t.time.rate ≤ 140737488355 ∧
      (s.time.cosc - lim ≤ t.time.rate ∨ t.time.rate = 140737488355) ∧
      (t.time.rate ≤ s.time.cosc + lim ∨ t.time.rate = -140737488355) ∧
      t.time.inRow = (if o.natAbs < 100 then s.time.inRow + 1 else 0) ∧
      t.time.servo = (if s.time.servo = 1 then (if o.natAbs < 100 ∧ s.time.inRow + 1 = 16 then 2 else 1)
                      else if s.time.servo = 3 then 2 else s.time.servo) ∧
      t.time.peerDelay = s.flag (State.portOff (s.fld 0x220048 5 2)) 25 ∧
      t = { s with time := t.time, ports := t.ports, lanes := t.lanes, counters := t.counters, free := t.free, log := t.log }) ∧
  (∀ s : State, (s.time.servo = 1 ∨ s.time.servo = 2) → s.time.interval ≠ 0 →
    s.time.lastSync + s.fld 0x220048 21 14 * s.time.interval ≤ s.now →
    ∃ t, exec .holdover s = .next t ∧ t.time = { s.time with servo := 3 } ∧
      t.codeWindow 0x4102#16 0x01 0x20 = true ∧ t = { s with time := t.time, log := t.log })

/-- From the enable of a port to its block lock. What rests on choices and readings of the model: the assumption log, 42,
124. -/
def Obligations.PortHuntsAdaptsAndLocks : Prop :=
  (∀ (s : State) (n : Fin 16) (v : Word), s.answers 0 (State.portOff n) = true → s.portPresent n = true →
    s.sealed = false → s.flag (State.portOff n) 31 = false → bit v 31 = true → bits v 30 29 ≠ 3 →
    (s.wide100 n = true ∨ bit v 28 = true ∨ bits v 30 29 = 0) →
    (bit v 26 = true → (s.lpiBars n).1 = false) → (bit v 27 = true → s.wide100 n = false) →
    ∃ t, exec (.portEnable n v) s = .next t ∧ t.portOn n = true ∧ t.port n = { idleSince := s.now } ∧
      t.fld (State.portOff n) 30 26 = bits v 30 26 ∧
      (∀ l, l ∈ s.lanesOf n → (t.lane l).adapted = false) ∧ (∀ l, l ∉ s.lanesOf n → t.lane l = s.lane l) ∧
      (∀ m, m ≠ n.val → t.port m = s.port m) ∧ (∀ o, o ≠ State.portOff n → t.reg o = s.reg o) ∧
      t = { s with regs := t.regs, ports := t.ports, lanes := t.lanes, log := t.log }) ∧
  (∀ (s : State) (n : Fin 16) (v : Word), s.answers 0 (State.portOff n) = true → s.portPresent n = true →
    s.sealed = false → s.flag (State.portOff n) 31 = true → bit v 31 = false →
    ∃ t, exec (.portEnable n v) s = .next t ∧ t.portOn n = false ∧ t.port n = {} ∧
      (∀ l, l ∈ s.lanesOf n → (t.lane l).adapted = false ∧ (t.lane l).txLpi = false ∧ (t.lane l).rxLpi = false) ∧
      (∀ l, l ∉ s.lanesOf n → t.lane l = s.lane l) ∧
      (∀ m, m ≠ n.val → t.port m = s.port m) ∧ (∀ o, o ≠ State.portOff n → t.reg o = s.reg o) ∧
      t = { s with regs := t.regs, ports := t.ports, lanes := t.lanes, log := t.log }) ∧
  (∀ (s : State) (n c : Fin 16) (taps : BitVec 30), s.laneOn n = true → (s.lane n).rxLpi = false →
    ∃ t, exec (.adapt n c taps) s = .next t ∧
      t.lane n = (if (s.lane n).adapted then
          (if s.fld (0x231000 + 0x100 * n.val) 9 8 = 1 then s.lane n else { s.lane n with dfe := taps })
        else { s.lane n with
          ctle := if s.fld (0x231000 + 0x100 * n.val) 9 8 = 2 then s.fld (0x231000 + 0x100 * n.val) 15 12 else c.val,
          dfe := taps, adapted := true, signal := true, cdr := true }) ∧
      (∀ m, m ≠ n.val → t.lane m = s.lane m) ∧ t = { s with lanes := t.lanes }) ∧
  (∀ (s : State) (n : Fin 16) (skew : Nat) (remote : Bool), s.portOn n = true →
    (∀ l, l ∈ s.lanesOf n → (s.lane l).adapted = true) → (s.wide100 n = false ∨ skew ≤ 180000) →
    ∃ t, exec (.blockLock ⟨n, skew, remote⟩) s = .next t ∧ t.port n = { s.port n with locked := true, remoteFault := remote } ∧
      (∀ m, m ≠ n.val → t.port m = s.port m) ∧ t = { s with ports := t.ports }) ∧
  (∀ (s : State) (n : Fin 16) (skew : Nat) (remote : Bool), s.portOn n = true →
    (∀ l, l ∈ s.lanesOf n → (s.lane l).adapted = true) → s.wide100 n = true → 180000 < skew →
    ∃ t, exec (.blockLock ⟨n, skew, remote⟩) s = .next t ∧ t.codeWindow 0x2201#16 0x02 n = true ∧ t = { s with log := t.log })

/-- Losses of a port. What rests on choices and readings of the model: the assumption log, 42, 44. -/
def Obligations.PortLossesAreCounted : Prop :=
  (∀ (s : State) (n : Fin 16) (amp : Bool), s.portOn n = true → (s.port n).locked = true → (s.lane n).rxLpi = false →
    ∃ t, exec (.blockLockLoss ⟨n, amp⟩) s = .next t ∧ t.port n = { s.port n with locked := false, remoteFault := false } ∧
      (∀ l, l ∈ s.lanesOf n → t.lane l = { s.lane l with
        adapted := false, signal := (s.lane l).signal && amp, cdr := (s.lane l).cdr && amp }) ∧
      (∀ l, l ∉ s.lanesOf n → t.lane l = s.lane l) ∧ (∀ m, m ≠ n.val → t.port m = s.port m) ∧
      t.counter (State.portOff n + 0x2C) = satAdd (s.counter (State.portOff n + 0x2C)) 1 ∧
      t.codeWindow 0x2201#16 0x02 n = true ∧
      t = { s with ports := t.ports, lanes := t.lanes, counters := t.counters, log := t.log }) ∧
  (∀ (s : State) (n : Fin 16), s.portOn n = true → (s.port n).locked = true → (s.port n).hiBer = false →
    (s.lane n).rxLpi = false →
    ∃ t, exec (.hiBerEnter n) s = .next t ∧ t.port n = { s.port n with hiBer := true } ∧
      (∀ m, m ≠ n.val → t.port m = s.port m) ∧
      t.counter (State.portOff n + 0x30) = satAdd (s.counter (State.portOff n + 0x30)) 1 ∧
      t.codeWindow 0x2202#16 0x02 n = true ∧ t = { s with ports := t.ports, counters := t.counters, log := t.log }) ∧
  (∀ (s : State) (n : Fin 16), s.portOn n = true → (s.lane n).rxLpi = false →
    ∃ t, exec (.hiBerClear n) s = .next t ∧ t.port n = { s.port n with hiBer := false } ∧
      (∀ m, m ≠ n.val → t.port m = s.port m) ∧ t = { s with ports := t.ports }) ∧
  (∀ (s : State) (n : Fin 16) (errors : Nat) (c : Bool), s.portOn n = true → (s.port n).locked = true →
    1 ≤ errors → (((s.wide100 n = true ∨ s.fld (State.portOff n) 30 29 = 2) ∧ errors ≤ 7) ∨
      (s.wide100 n = false ∧ s.fld (State.portOff n) 30 29 = 1 ∧ c = true)) →
    exec (.fecCodeword n errors c) s = .next (s.bump (State.portOff n + 0x34) 1)) ∧
  (∀ (s : State) (n : Fin 16) (errors : Nat) (c : Bool), s.portOn n = true → (s.port n).locked = true →
    1 ≤ errors → (((s.wide100 n = true ∨ s.fld (State.portOff n) 30 29 = 2) ∧ 8 ≤ errors) ∨
      (s.wide100 n = false ∧ s.fld (State.portOff n) 30 29 = 1 ∧ c = false)) →
    ∃ t, exec (.fecCodeword n errors c) s = .next t ∧
      t.counter (State.portOff n + 0x38) = satAdd (s.counter (State.portOff n + 0x38)) 1 ∧
      t.counter (State.portOff n + 0x34) = s.counter (State.portOff n + 0x34) ∧
      t.codeWindow 0x2203#16 0x02 n = true ∧ t = { s with counters := t.counters, log := t.log })

/-- Transmit PLLs and low-power idle. What rests on choices and readings of the model: the assumption log, 42, 43. -/
def Obligations.PllAndLowPowerIdle : Prop :=
  (∀ (s : State) (q : Fin 4) (fast : Bool), s.pllLanes q fast ≠ [] → (q.val, fast) ∉ s.pllOut →
    ∃ t, exec (.txPllUnlock q fast) s = .next t ∧ (∀ l, l ∈ s.pllLanes q fast → t.pllLock l = false) ∧
      (∀ l, l ∉ s.pllLanes q fast → t.pllLock l = s.pllLock l) ∧ t.codeWindow 0x5201#16 0x02 (0x20 + q) = true ∧
      t = { s with pllOut := t.pllOut, log := t.log }) ∧
  (∀ (s : State) (q : Fin 4) (fast : Bool),
    ∃ t, exec (.txPllRelock q fast) s = .next t ∧ (∀ l, l ∈ s.pllLanes q fast → t.pllLock l = true) ∧
      (∀ l, l ∉ s.pllLanes q fast → t.pllLock l = s.pllLock l) ∧
      t = { s with pllOut := t.pllOut, ports := t.ports, lanes := t.lanes, counters := t.counters } ∧
      ((∀ n, (s.port n).txHeld = 0 ∧ (s.port n).wakeAt = none) → t = { s with pllOut := t.pllOut })) ∧
  (∀ (s : State) (n : Fin 16), s.portOn n = true → s.flag (State.portOff n) 26 = true → (s.lpiBars n).1 = false →
    (s.lane n).txLpi = false → (s.port n).txHeld = 0 → (s.port n).wakeAt = none →
    (s.port n).idleSince + s.fld (State.portOff n + 4) 15 0 * 1000 ≤ s.now →
    ∃ t, exec (.txLpiEnter n) s = .next t ∧ t.lane n = { s.lane n with txLpi := true } ∧
      t.port n = { s.port n with lpiFrom := s.now, lpiRefreshAt := s.now + 1805000 } ∧
      t.counter (State.portOff n + 0x3C) = satAdd (s.counter (State.portOff n + 0x3C)) 1 ∧
      (∀ m, m ≠ n.val → t.lane m = s.lane m ∧ t.port m = s.port m) ∧
      t = { s with lanes := t.lanes, ports := t.ports, counters := t.counters }) ∧
  (∀ (s : State) (n : Fin 16), (s.lane n).txLpi = true → (s.port n).wakeAt = none → s.rate25 n = false →
    (s.port n).lpiRefreshAt ≤ s.now →
    ∃ t, exec (.lpiRefresh n) s = .next t ∧ t.port n = { s.port n with lpiRefreshAt := s.now + 1816000 } ∧
      (∀ m, m ≠ n.val → t.port m = s.port m) ∧ t = { s with ports := t.ports }) ∧
  (∀ (s : State) (n : Fin 16), (s.lane n).txLpi = true → (s.port n).wakeAt = none →
    ∃ t begin, exec (.txLpiWake n) s = .next t ∧
      begin = max s.now ((s.port n).lpiFrom + (if s.rate25 n then 500 else 5000)) ∧
      t.port n = { s.port n with txHeld := (s.port n).txHeld + 1, wakeAt := some (begin + (if s.rate25 n then 900 else 11300)) } ∧
      t.lane n = { s.lane n with txLpi := decide (s.now < begin) } ∧
      (∀ m, m ≠ n.val → t.lane m = s.lane m ∧ t.port m = s.port m) ∧ t = { s with lanes := t.lanes, ports := t.ports }) ∧
  (∀ (s : State) (n : Fin 16), (s.lane n).txLpi = true → (s.port n).wakeAt ≠ none →
    ∃ t, exec (.txLpiWake n) s = .next t ∧ t.port n = { s.port n with txHeld := (s.port n).txHeld + 1 } ∧
      (∀ m, m ≠ n.val → t.port m = s.port m) ∧ t = { s with ports := t.ports }) ∧
  (∀ (s : State) (n : Fin 16), s.portOn n = true → s.flag (State.portOff n) 27 = true → s.wide100 n = false →
    (s.lane n).rxLpi = false →
    ∃ t, exec (.rxLpi n) s = .next t ∧
      t.lane n = { s.lane n with rxLpi := true, cdr := (s.lane n).cdr && s.rate25 n, quietFrom := s.now } ∧
      t.counter (State.portOff n + 0x3C) = satAdd (s.counter (State.portOff n + 0x3C)) 1 ∧
      (∀ m, m ≠ n.val → t.lane m = s.lane m) ∧ t = { s with lanes := t.lanes, counters := t.counters }) ∧
  (∀ (s : State) (n : Fin 16), (s.lane n).rxLpi = true →
    ∃ t, exec (.rxLpiWake n) s = .next t ∧
      t.lane n = { s.lane n with rxLpi := false, cdr := true, eyeQuiet := (t.lane n).eyeQuiet } ∧
      (∀ m, m ≠ n.val → t.lane m = s.lane m) ∧ t = { s with lanes := t.lanes })

/-- Eye scans. What rests on choices and readings of the model: the assumption log, 6, 47. -/
def Obligations.EyePointsStartAndEnd : Prop :=
  (∀ (s : State) (n : Fin 16) (v : Word), s.answers 0 (State.eyeOff n) = true → bit v 31 = true → bit v 28 = false →
    (s.port (s.portOfLane n)).locked = true → s.shedAdmits = true →
    ∃ t, exec (.eyeGo n v) s = .next t ∧
      t.lane n = { s.lane n with
        eyeRun := true, eyeDone := false, eyeShed := false, eyeFrom := s.now, eyeQuiet := 0, eyeBits := 0, eyeErr := 0 } ∧
      (∀ m, m ≠ n.val → t.lane m = s.lane m) ∧ t = { s with regs := t.regs, lanes := t.lanes, log := t.log }) ∧
  (∀ (s : State) (n : Fin 16) (v : Word), s.answers 0 (State.eyeOff n) = true → bit v 31 = true → bit v 28 = false →
    (s.port (s.portOfLane n)).locked = false →
    ∃ t, exec (.eyeGo n v) s = .next t ∧ t.lanes = s.lanes ∧ t = { s with regs := t.regs, log := t.log }) ∧
  (∀ (s : State) (n : Fin 16) (v : Word), s.answers 0 (State.eyeOff n) = true → bit v 31 = true → bit v 28 = false →
    (s.port (s.portOfLane n)).locked = true → s.shedAdmits = false →
    ∃ t, exec (.eyeGo n v) s = .next t ∧ (t.lane n).eyeRun = false ∧ (t.lane n).eyeShed = true ∧ (t.lane n).eyeDone = true ∧
      t.codeWindow 0x4201#16 0x02 n = true ∧ (∀ m, m ≠ n.val → t.lane m = s.lane m) ∧
      t = { s with regs := t.regs, lanes := t.lanes, log := t.log }) ∧
  (∀ (s : State) (n : Fin 16) (errors : BitVec 48), (s.lane n).eyeRun = true → (s.lane n).rxLpi = false →
    s.eyeBitsNow n = 10 ^ s.fld (State.eyeOff n) 27 24 →
    ∃ t, exec (.eyePointEnd n errors) s = .next t ∧ (t.lane n).eyeRun = false ∧ (t.lane n).eyeDone = true ∧
      (t.lane n).eyeBits = BitVec.ofNat 48 (10 ^ s.fld (State.eyeOff n) 27 24) ∧
      (t.lane n).eyeErr.toNat = min errors.toNat (10 ^ s.fld (State.eyeOff n) 27 24 % 2 ^ 48) ∧
      (∀ m, m ≠ n.val → t.lane m = s.lane m) ∧ t = { s with lanes := t.lanes }) ∧
  (∀ (s : State) (n : Fin 16) (v : Word), s.answers 0 (State.eyeOff n) = true → bit v 31 = false → bit v 28 = true →
    (s.lane n).eyeRun = true → 6 ≤ bits v 27 24 → bits v 27 24 ≤ 12 →
    ∃ t, exec (.eyeStop n v) s = .next t ∧ (t.lane n).eyeRun = false ∧ (t.lane n).eyeDone = true ∧
      (t.lane n).eyeShed = false ∧ (t.lane n).eyeBits.toNat ≤ 10 ^ bits v 27 24 ∧
      (t.lane n).eyeErr.toNat ≤ (t.lane n).eyeBits.toNat ∧ (∀ m, m ≠ n.val → t.lane m = s.lane m) ∧
      t = { s with regs := t.regs, lanes := t.lanes, log := t.log })

/-- Frames: the checks in order, frames of no unit, pause frames, and frames of port M. What rests on choices and readings
of the model: the assumption log, 44, 45, 46. -/
def Obligations.FrameChecksInOrder : Prop :=
  (∀ (s : State) (n : Fin 17) (f : Frame), n.val ≠ 16 → s.portOn n = true →
    ((s.port n).locked = false ∨ (s.port n).hiBer = true ∨ f.errBlock = true) →
    exec (.frameReceived n f) s = .next (s.bump (State.portOff n + 0x20) 1)) ∧
  (∀ (s : State) (n : Fin 17) (f : Frame), n.val ≠ 16 → s.portOn n = true → (s.port n).locked = true →
    (s.port n).hiBer = false → f.errBlock = false → f.fcsOk = false →
    exec (.frameReceived n f) s = .next (s.bump (State.portOff n + 0x18) 1)) ∧
  (∀ (s : State) (n : Fin 17) (f : Frame), n.val ≠ 16 → s.portOn n = true → (s.port n).locked = true →
    (s.port n).hiBer = false → f.errBlock = false → f.fcsOk = true → s.fld (State.portOff n) 13 0 < f.len →
    exec (.frameReceived n f) s = .next (s.bump (State.portOff n + 0x1C) 1)) ∧
  (∀ (s : State) (n : Fin 17) (f : Frame), n.val ≠ 16 → s.portOn n = true → (s.port n).locked = true →
    (s.port n).hiBer = false → f.errBlock = false → f.fcsOk = true → f.len ≤ s.fld (State.portOff n) 13 0 → 64 ≤ f.len →
    (if s.wide100 n then 2 ^ 20 else 2 ^ 18) < f.fill + f.len →
    ∃ t, exec (.frameReceived n f) s = .next t ∧
      t.counter (State.portOff n + 0x24) = satAdd (s.counter (State.portOff n + 0x24)) 1 ∧
      t.codeWindow 0x3202#16 0x02 n = true ∧ (t.port n).toSoftware = (s.port n).toSoftware ∧
      (∀ m, m ≠ n.val → t.port m = s.port m) ∧
      t = { s with ports := t.ports, lanes := t.lanes, counters := t.counters, log := t.log }) ∧
  (∀ (s : State) (n : Fin 17) (f : Frame), n.val ≠ 16 → s.portOn n = true → (s.port n).locked = true →
    (s.port n).hiBer = false → f.errBlock = false → f.fcsOk = true → f.len ≤ s.fld (State.portOff n) 13 0 → 64 ≤ f.len →
    f.fill + f.len ≤ (if s.wide100 n then 2 ^ 20 else 2 ^ 18) → f.payload = .none →
    (2 ≤ f.tags ∨ (f.ip = none ∧ f.etherType ≠ 0x88F7#16)) →
    ∃ t, exec (.frameReceived n f) s = .next t ∧
      t.counter (State.portOff n + 0x10) = satAdd (s.counter (State.portOff n + 0x10)) 1 ∧
      (t.port n).toSoftware = (s.port n).toSoftware ++ (if s.flag (State.portOff n) 14 then [(f.len, none)] else []) ∧
      t.counter (State.portOff n + 0x28) =
        (if s.flag (State.portOff n) 14 then s.counter (State.portOff n + 0x28) else satAdd (s.counter (State.portOff n + 0x28)) 1) ∧
      (t.port n).fill = f.fill + f.len ∧ (∀ m, m ≠ n.val → t.port m = s.port m) ∧
      t = { s with ports := t.ports, lanes := t.lanes, counters := t.counters }) ∧
  (∀ (s : State) (n : Fin 17) (f : Frame) (q : Nat), n.val ≠ 16 → s.portOn n = true → (s.port n).locked = true →
    (s.port n).hiBer = false → f.errBlock = false → f.fcsOk = true → f.len ≤ s.fld (State.portOff n) 13 0 → 64 ≤ f.len →
    f.fill + f.len ≤ (if s.wide100 n then 2 ^ 20 else 2 ^ 18) → f.payload = .pause none q →
    ∃ t, exec (.frameReceived n f) s = .next t ∧
      t.counter (State.portOff n + 0x10) = satAdd (s.counter (State.portOff n + 0x10)) 1 ∧
      (t.port n).pauseUntil = s.now + q * 512 * 1000000 / s.lineRate n ∧
      (t.port n).toSoftware = (s.port n).toSoftware ∧ (∀ m, m ≠ n.val → t.port m = s.port m) ∧
      t = { s with ports := t.ports, lanes := t.lanes, counters := t.counters }) ∧
  (∀ (s : State) (f : Frame), f.errBlock = false → f.fcsOk = true → 64 ≤ f.len → f.payload = .none →
    ∃ t, exec (.frameReceived 16 f) s = .next t ∧ (t.port 16).toSoftware = (s.port 16).toSoftware ++ [(f.len, none)] ∧
      (∀ m, m ≠ 16 → t.port m = s.port m) ∧ t = { s with ports := t.ports })

/-- The RoCEv2 responder on a plain memory region. What rests on choices and readings of the model: the assumption log, 48,
127. -/
def Obligations.RoceRequestsStayInTheirRegion : Prop :=
  (∀ (s : State) (q : Fin 1024) (key : Word) (a : Nat) (d : List Byte), (s.qp q).state = .ready → (s.qp q).peer = none →
    (s.qp q).owner < 16 → s.portOn (s.qp q).port = true → key = (s.qp q).key → (s.qp q).rights.getLsbD 0 = true →
    (s.qp q).base ≤ a → a + d.length ≤ (s.qp q).base + (s.qp q).len → d.length ≤ 2 ^ 31 →
    ∃ t, exec (.roceRequest q false key (.write a d)) s = .next t ∧
      (∀ i, i < d.length → byteAt t.bonded (a + i) = d[i]?.getD 0) ∧
      (∀ x, x < a ∨ a + d.length ≤ x → byteAt t.bonded x = byteAt s.bonded x) ∧ t.qp q = s.qp q ∧
      t = { s with bonded := t.bonded, qps := t.qps, ports := t.ports, lanes := t.lanes, counters := t.counters }) ∧
  (∀ (s : State) (q : Fin 1024) (key : Word) (a : Nat) (v : DWord), (s.qp q).state = .ready → (s.qp q).peer = none →
    (s.qp q).owner < 16 → s.portOn (s.qp q).port = true → key = (s.qp q).key → (s.qp q).rights.getLsbD 2 = true →
    a % 8 = 0 → (s.qp q).base ≤ a → a + 8 ≤ (s.qp q).base + (s.qp q).len →
    ∃ t, exec (.roceRequest q false key (.fetchAdd a 8 v)) s = .next t ∧
      t.word64 a = (s.word64 a + v.toNat) % 2 ^ 64 ∧
      (∀ x, x < a ∨ a + 8 ≤ x → byteAt t.bonded x = byteAt s.bonded x) ∧
      t.qp q = { s.qp q with incBytes := (s.qp q).incBytes + 8 } ∧
      t = { s with bonded := t.bonded, qps := t.qps, ports := t.ports, lanes := t.lanes, counters := t.counters }) ∧
  (∀ (s : State) (q : Fin 1024) (key : Word) (a : Nat) (cmp swap : DWord), (s.qp q).state = .ready → (s.qp q).peer = none →
    (s.qp q).owner < 16 → s.portOn (s.qp q).port = true → key = (s.qp q).key → (s.qp q).rights.getLsbD 2 = true →
    a % 8 = 0 → (s.qp q).base ≤ a → a + 8 ≤ (s.qp q).base + (s.qp q).len →
    ∃ t, exec (.roceRequest q false key (.cmpSwap a 8 cmp swap)) s = .next t ∧
      t.word64 a = (if s.word64 a = cmp.toNat then swap.toNat else s.word64 a) ∧
      (∀ x, x < a ∨ a + 8 ≤ x → byteAt t.bonded x = byteAt s.bonded x) ∧
      t.qp q = { s.qp q with incBytes := (s.qp q).incBytes + 8 } ∧
      t = { s with bonded := t.bonded, qps := t.qps, ports := t.ports, lanes := t.lanes, counters := t.counters }) ∧
  (∀ (s : State) (q : Fin 1024) (key : Word) (a n : Nat), (s.qp q).state = .ready → (s.qp q).peer = none →
    (s.qp q).owner < 16 → s.portOn (s.qp q).port = true → key = (s.qp q).key → (s.qp q).rights.getLsbD 1 = true →
    (s.qp q).base ≤ a → a + n ≤ (s.qp q).base + (s.qp q).len → n ≤ 2 ^ 31 →
    ∃ t, exec (.roceRequest q false key (.read a n)) s = .next t ∧
      t.qp q = { s.qp q with incBytes := (s.qp q).incBytes + n } ∧
      t = { s with qps := t.qps, ports := t.ports, lanes := t.lanes, counters := t.counters }) ∧
  (∀ (s : State) (q : Fin 1024) (key : Word) (a : Nat) (d : List Byte), (s.qp q).state = .ready → (s.qp q).peer = none →
    (s.qp q).owner < 16 → s.portOn (s.qp q).port = true →
    (key ≠ (s.qp q).key ∨ a < (s.qp q).base ∨ (s.qp q).base + (s.qp q).len < a + d.length) →
    ∃ t, exec (.roceRequest q false key (.write a d)) s = .next t ∧ t.bonded = s.bonded ∧ (t.qp q).state = .error ∧
      (t.qp q).outstanding = [] ∧ t.codeWindow 0x7202#16 0x02 (s.qp q).port = true)

/-- The RoCEv2 requester. What rests on choices and readings of the model: the assumption log, 49, 50, 127. -/
def Obligations.RoceRequesterRateAndRetries : Prop :=
  (∀ (s : State) (q : Fin 1024), (s.qp q).state = .ready →
    ∃ t r, exec (.cnpReceived q) s = .next t ∧ r = (if (s.qp q).rate = 0 then s.lineRate (s.qp q).port else (s.qp q).rate) ∧
      (t.qp q).target = r ∧ (t.qp q).rate = max 100000 (r - r * (s.qp q).alpha / 131072) ∧
      (t.qp q).alpha = (s.qp q).alpha - (s.qp q).alpha / 256 + 256 ∧ (t.qp q).increases = 0 ∧ (t.qp q).incAt = s.now ∧
      (t.qp q).incBytes = 0 ∧
      (t.qp q).state = .ready ∧ (∀ m, m ≠ q.val → t.qp m = s.qp m) ∧ t = { s with qps := t.qps }) ∧
  (∀ (s : State) (q : Fin 1024) (timer : Bool), (s.qp q).state = .ready → (s.qp q).rate ≠ 0 →
    (if timer then (s.qp q).incAt + 55000 ≤ s.now else 10000000 ≤ (s.qp q).incBytes) →
    ∃ t lr, exec (.dcqcnRateIncrease q timer) s = .next t ∧
      lr = (if s.wide100 (s.qp q).port then 100000000 else if s.rate25 (s.qp q).port then 25000000 else 10000000) ∧
      ((s.qp q).increases < 5 → (t.qp q).target = min lr (s.qp q).target) ∧
      min lr (s.qp q).target ≤ (t.qp q).target ∧ (t.qp q).target ≤ lr ∧
      (t.qp q).rate = min lr (((s.qp q).rate + (t.qp q).target) / 2) ∧
      (t.qp q).alpha = (if timer then (s.qp q).alpha - (s.qp q).alpha / 256 else (s.qp q).alpha) ∧
      (t.qp q).increases = (s.qp q).increases + 1 ∧ (∀ m, m ≠ q.val → t.qp m = s.qp m) ∧
      t = { s with qps := t.qps, free := t.free }) ∧
  (∀ (s : State) (q : Fin 1024) (n : Nat), (s.qp q).state = .ready → n ≤ (s.qp q).outstanding.length →
    ∃ t, exec (.roceResponse q (.ack n)) s = .next t ∧ (t.qp q).outstanding = (s.qp q).outstanding.drop n ∧
      (t.qp q).state = .ready ∧ (∀ m, m ≠ q.val → t.qp m = s.qp m) ∧ t = { s with qps := t.qps, ops := t.ops }) ∧
  (∀ (s : State) (q : Fin 1024), (s.qp q).state = .ready → (s.qp q).peer = none →
    ((s.qp q).owner < 16 ∨ 34 ≤ (s.qp q).owner) →
    ∃ t, exec (.roceResponse q (.nak false)) s = .next t ∧ (t.qp q).state = .error ∧ (t.qp q).outstanding = [] ∧
      t.codeWindow 0x7201#16 0x02 (s.qp q).port = true) ∧
  (∀ (s : State) (q : Fin 1024) (x : Outstanding) (r : List Outstanding), (s.qp q).state = .ready →
    (s.qp q).outstanding = x :: r → x.sentAt + 4096 * 2 ^ (s.qp q).timeoutExp ≤ s.now → x.retries < (s.qp q).retryLimit →
    ∃ t, exec (.roceAckTimeout q) s = .next t ∧
      (t.qp q).outstanding = { x with retries := x.retries + 1, sentAt := s.now } :: r ∧ (t.qp q).state = .ready ∧
      (∀ m, m ≠ q.val → t.qp m = s.qp m) ∧
      t = { s with qps := t.qps, ports := t.ports, lanes := t.lanes, counters := t.counters }) ∧
  (∀ (s : State) (q : Fin 1024) (x : Outstanding) (r : List Outstanding), (s.qp q).state = .ready → (s.qp q).peer = none →
    ((s.qp q).owner < 16 ∨ 34 ≤ (s.qp q).owner) →
    (s.qp q).outstanding = x :: r → x.sentAt + 4096 * 2 ^ (s.qp q).timeoutExp ≤ s.now → (s.qp q).retryLimit ≤ x.retries →
    ∃ t, exec (.roceAckTimeout q) s = .next t ∧ (t.qp q).state = .error ∧ (t.qp q).outstanding = [] ∧
      t.codeWindow 0x7201#16 0x02 (s.qp q).port = true)

/-- Enabling and disabling a Sluice context. What rests on choices and readings of the model: the assumption log, 26, 27,
51. -/
def Obligations.SluiceEnableStartsContext : Prop :=
  (∀ (s u : State) (k : Fin 18) (v : Word), s.answers 0 (State.sOff k) = true → s.sealed = false → bit v 31 = true →
    s.flag (State.sOff k) 31 = false → bits v 30 29 ≠ 3 → bits v 18 17 ≠ 3 →
    u = s.writeFields (State.sOff k) 0x03 k v →
    u.outFails k = [] → u.sluiceFails k = [] → u.admitFails k = [] → u.bindFails k = [] → u.ringFails k = [] →
    ∃ t i, exec (.sluiceEnable k v) s = .next t ∧ u.freeSlotOf (u.fld (State.sOff k) 26 25) = some i ∧
      t.flag (State.sOff k) 31 = true ∧ (t.sluice k).run = true ∧ (t.sluice k).next = 0 ∧ (t.sluice k).expect = 0 ∧
      (t.sluice k).blocks = [] ∧ (t.sluice k).held = [] ∧ (t.slot i).ctx = some k.val ∧ (t.slot i).pending = false ∧
      (t.slot i).queue = [] ∧ (t.slot i).out = [] ∧ (t.vlane k).started = false ∧
      (∀ j, j ≠ k.val → t.sluice j = s.sluice j) ∧ (∀ j, j ≠ i → t.slot j = s.slot j) ∧
      (∀ o, o ≠ State.sOff k → t.reg o = s.reg o) ∧
      t = { s with regs := t.regs, sluices := t.sluices, slots := t.slots, pipes := t.pipes, records := t.records,
                   vlanes := t.vlanes, qps := t.qps, log := t.log }) ∧
  (∀ (s : State) (k : Fin 18) (v : Word), s.answers 0 (State.sOff k) = true → s.sealed = false → bit v 31 = true →
    s.flag (State.sOff k) 31 = false → (bits v 30 29 = 3 ∨ bits v 18 17 = 3) →
    ∃ t, exec (.sluiceEnable k v) s = .next t ∧ t.flag (State.sOff k) 31 = false ∧ t.sluices = s.sluices ∧
      t.slots = s.slots ∧ t = { s with regs := t.regs, log := t.log }) ∧
  (∀ (s : State) (k : Fin 18) (v : Word) (i : Nat), s.answers 0 (State.sOff k) = true → bit v 31 = false →
    s.flag (State.sOff k) 31 = true → s.slotOf k = some i →
    ∃ t, exec (.sluiceEnable k v) s = .next t ∧ t.flag (State.sOff k) 31 = false ∧ t.sluice k = {} ∧ t.slot i = {} ∧
      (∀ j, j ≠ k.val → t.sluice j = s.sluice j) ∧ (∀ j, j ≠ i → t.slot j = s.slot j))

/-- Lines of the parallel ports, holds, and their pixel clocks. What rests on choices and readings of the model: the
assumption log, 54, 55, 126. -/
def Obligations.ParallelLinesHoldsAndClocks : Prop :=
  (∀ (s : State) (p : Fin 2) (clocks : Nat) (data : List Byte) (k n need got : Nat), k = 16 + p.val →
    n = (s.sluice k).expect → (s.sluice k).run = true → (s.sluice k).clkLost = false → (s.sluice k).next ≤ n / 16 →
    n / 16 ≤ (s.sluice k).next + 3 → (∀ x, x ∈ (s.sluice k).blocks → x.lines.length = 16) →
    need = ((s.shape k).cols * (s.shape k).chans + s.parPixels p - 1) / s.parPixels p →
    got = min (clocks * s.parPixels p) ((s.shape k).cols * (s.shape k).chans) * (s.shape k).bytes →
    ∃ t, exec (.parallelLine p clocks data) s = .next t ∧ (t.sluice k).expect = n + 1 ∧
      (Sys2Proof.Machine.State.getLine (t.sluice k) n).stamp = (if got = 0 then none else some s.ownStamp) ∧
      (Sys2Proof.Machine.State.getLine (t.sluice k) n).missing = decide (got < (s.shape k).lineBytes) ∧
      t.counter (State.sOff k + 0x44) = (if clocks = need then s.counter (State.sOff k + 0x44)
        else satAdd (s.counter (State.sOff k + 0x44)) 1) ∧
      (clocks ≠ need → t.lastCode (State.sOff k + 0x20) = 0x2405#16) ∧
      (∀ j, j ≠ k → t.sluice j = s.sluice j) ∧
      t = { s with sluices := t.sluices, counters := t.counters, log := t.log }) ∧
  (∀ (s : State) (k : Fin 18), (s.sluice k).run = true →
    ∃ t, exec (.holdExpiry k) s = .next t ∧
      (t.sluice k).blocks = (s.sluice k).blocks.map (fun x => { x with lines := x.lines.map (fun l =>
        if l.missing = false ∧ coversRange l.got 0 (s.shape k).lineBytes = false ∧
            l.laterAt.any (fun u => decide (u + s.fld (State.sOff k + 0x14) 15 0 * 1000 ≤ s.now)) = true
        then { l with missing := true } else l) }) ∧
      (t.sluice k).next = (s.sluice k).next ∧ (t.sluice k).expect = (s.sluice k).expect ∧
      (∀ j, j ≠ k.val → t.sluice j = s.sluice j) ∧ t = { s with sluices := t.sluices }) ∧
  (∀ (s : State) (p : Fin 2) (clocks : Nat) (data : List Byte), (s.sluice (16 + p)).clkLost = false →
    ∃ t, exec (.pixelClockLost ⟨p, clocks, data⟩) s = .next t ∧ (t.sluice (16 + p)).clkLost = true ∧ (t.sluice (16 + p)).brk = true ∧
      (tget {} t.pars p).kHz = 0 ∧ t.lastCode (State.sOff (16 + p) + 0x20) = 0x5401#16 ∧
      ((s.sluice (16 + p)).run = true → (t.sluice (16 + p)).brkNext = true) ∧
      (∀ j, j ≠ 16 + p.val → t.sluice j = s.sluice j)) ∧
  (∀ (s : State) (p : Fin 2) (f : Word),
    ∃ t, exec (.pixelClockResume p f) s = .next t ∧ t.sluice (16 + p) = { s.sluice (16 + p) with clkLost := false } ∧
      (tget {} t.pars p).kHz = f ∧ (∀ j, j ≠ 16 + p.val → t.sluice j = s.sluice j) ∧
      t = { s with sluices := t.sluices, pars := t.pars })

/-- The way of a line block. That Bayer's last line waits for the line after it is the model's reading (the assumption log,
130). What rests on choices and readings of the model: the assumption log, 52, 53, 56, 57, 126, 129, 130. -/
def Obligations.LineBlockHandedOnStartedFinished : Prop :=
  (∀ (s : State) (k : Fin 18) (x : OpenBlock) (rest : List OpenBlock), (s.sluice k).run = true →
    (s.sluice k).blocks = x :: rest → x.lines.all (State.resolved (s.shape k).lineBytes) = true → s.vig.outOfService = false →
    ∃ t r, exec (.lineBlockHandoff k) s = .next t ∧ (t.sluice k).blocks = rest ∧ (t.sluice k).next = x.b + 1 ∧
      t.records = r :: s.records ∧ r.block.ctx = k.val ∧ r.block.b = x.b ∧
      (∀ i, s.slotOf k = some i → ∃ b, (t.slot i).queue = (s.slot i).queue ++ [b] ∧ b.ctx = k.val ∧ b.b = x.b) ∧
      (∀ j, j ≠ k.val → t.sluice j = s.sluice j) ∧
      t = { s with sluices := t.sluices, counters := t.counters, log := t.log, bonded := t.bonded, records := t.records,
                   slots := t.slots, vlanes := t.vlanes }) ∧
  (∀ (s : State) (p : Fin 4) (i k : Nat) (b : LineBlock) (rest : List LineBlock), s.serves = true →
    (s.pipe p).busy = none → s.nextSlot p = some i → (s.slot i).ctx = some k → (s.slot i).queue = b :: rest →
    (s.slot i).pending = false → tget none s.changes k = none →
    ∃ t dt, exec (.pipeBlockStart p) s = .next t ∧
      dt = (if b.refused then 200 else 200 + 16 * (((List.range ((s.shape k).cols / 64)).filter (fun g => b.mask.getLsbD g)).length * 64 *
        (s.shape k).chans * (s.shape k).bytes) / 8) ∧
      (t.pipe p).busy = some (i, b, (s.slot i).active, if s.inline_ k then s.now else s.now + dt) ∧
      (t.pipe p).dropped = s.outFull i ∧ (t.slot i).queue = (s.slot i).queue ∧
      (t.slot i).started = b.b + 1 ∧ (t.slot i).active = (s.slot i).active ∧ (t.slot i).gen = (s.slot i).gen ∧
      (∀ j, j ≠ i → t.slot j = s.slot j) ∧ (∀ j, j ≠ p.val → t.pipe j = s.pipe j) ∧
      (∀ j, j ≠ k → t.sluice j = s.sluice j) ∧
      t = { s with records := t.records, slots := t.slots, sluices := t.sluices, pipes := t.pipes, log := t.log }) ∧
  (∀ (s : State) (p : Fin 4) (i k u : Nat) (b y : LineBlock) (m : Mem), (s.pipe p).busy = some (i, b, m, u) → u ≤ s.now →
    (s.slot i).ctx = some k → (∀ j, (s.slot j).waiting = []) → (s.slot i).queue.find? (fun x => decide (x.b = b.b)) = some y →
    ∃ t, exec (.pipeBlockDone p) s = .next t ∧ (t.pipe p).busy = none ∧
      (t.slot i).queue = (s.slot i).queue.filter (fun x => decide (x.b ≠ b.b)) ∧
      ((t.slot i).out = (s.slot i).out ++ [b.b] ∨
        ((t.slot i).waiting = [(y, m, (s.pipe p).dropped)] ∧ t.bonded = s.bonded ∧ psBayer m = true)) ∧
      (psBayer m = false → (t.slot i).out = (s.slot i).out ++ [b.b]) ∧
      (∀ j, j ≠ p.val → t.pipe j = s.pipe j) ∧ (∀ j, j ≠ i → t.slot j = s.slot j) ∧
      t.axes = s.axes ∧ t.time = s.time ∧ t.sluices = s.sluices ∧ t.cal = s.cal)

/-- Shadow swaps: ARM, SHADOW_LOADED, CANCEL. What rests on choices and readings of the model: the assumption log, 58, 129.
-/
def Obligations.ShadowSwapArmLoadCancel : Prop :=
  (∀ (s : State) (p q : Fin 4) (v : Word) (i k img : Nat), i = 4 * p.val + q.val →
    s.answers 0 (State.slotOff i + 0x0C) = true → bit v 31 = true → bit v 30 = false → bits v 27 26 ≠ 3 →
    (s.slot i).ctx = some k →
    (s.slot i).pending = false → img = s.reg64 (State.slotOff i + 4) / 256 * 256 → s.placedMeets img 204864 = none →
    ∃ t, exec (.arm p q v) s = .next t ∧ (t.slot i).pending = true ∧ (t.slot i).loaded = false ∧
      (t.slot i).whenSwap = bits v 27 26 ∧ (t.slot i).at_ = s.reg64 (State.slotOff i + 0x10) % 2 ^ 48 ∧
      (t.slot i).img = img ∧ (t.slot i).active = (s.slot i).active ∧ (t.slot i).gen = (s.slot i).gen ∧
      (t.slot i).queue = (s.slot i).queue ∧ (∀ j, j ≠ i → t.slot j = s.slot j) ∧
      t = { s with regs := t.regs, slots := t.slots, log := t.log }) ∧
  (∀ (s : State) (p q : Fin 4) (v : Word) (i : Nat), i = 4 * p.val + q.val →
    s.answers 0 (State.slotOff i + 0x0C) = true → bit v 31 = true → bit v 30 = false →
    ((s.slot i).ctx = none ∨ (s.slot i).pending = true) →
    ∃ t, exec (.arm p q v) s = .next t ∧ t.slots = s.slots ∧ t.lastCode (0x250000 + 0x400 * p.val) = 0x1503#16 ∧
      t = { s with regs := t.regs, log := t.log }) ∧
  (∀ (s : State) (p q : Fin 4) (i k : Nat) (m : Mem), i = 4 * p.val + q.val → (s.slot i).ctx = some k →
    (s.slot i).pending = true → (s.slot i).loaded = false →
    m = State.imageRead s.free (s.slot i).shadow (subMem s.bonded (s.slot i).img 204864) →
    ∃ t, exec (.shadowLoaded p q) s = .next t ∧
      (psFault m (s.shape k).chan (s.shape k).cols = none →
        (t.slot i).loaded = true ∧ (t.slot i).pending = true ∧ (t.slot i).shadow = m) ∧
      (∀ o, psFault m (s.shape k).chan (s.shape k).cols = some o →
        (t.slot i).pending = false ∧ t.lastCode (0x250000 + 0x400 * p.val) = 0x1504#16) ∧
      (t.slot i).active = (s.slot i).active ∧ (t.slot i).gen = (s.slot i).gen ∧ (t.slot i).queue = (s.slot i).queue ∧
      (∀ j, j ≠ i → t.slot j = s.slot j) ∧ t = { s with slots := t.slots, free := t.free, log := t.log }) ∧
  (∀ (s : State) (p q : Fin 4) (v : Word) (i : Nat), i = 4 * p.val + q.val →
    s.answers 0 (State.slotOff i + 0x0C) = true → bit v 30 = true → (s.slot i).pending = true →
    ∃ t, exec (.cancel p q v) s = .next t ∧ (t.slot i).pending = false ∧ (t.slot i).loaded = false ∧
      (t.slot i).active = (s.slot i).active ∧ (t.slot i).gen = (s.slot i).gen ∧ (t.slot i).queue = (s.slot i).queue ∧
      (∀ j, j ≠ i → t.slot j = s.slot j) ∧ t = { s with regs := t.regs, slots := t.slots, log := t.log })

/-- The sequencers' settings. What rests on choices and readings of the model: the assumption log, 27, 140. -/
def Obligations.SequencerSettings : Prop :=
  (∀ (s : State) (e : Fin 6) (v : Word), s.answers 0 (State.eOff e) = true → (s.engine e).resident = [] →
    (bit v 8 = false ∨ (s.engine e).polder = none ∨ ∃ p, (s.engine e).polder = some p ∧ (s.polderEngines p).length ≤ 2) →
    ∃ t, exec (.engCfgWrite e v) s = .next t ∧ t.flag (State.eOff e) 4 = bit v 4 ∧ t.flag (State.eOff e) 8 = bit v 8 ∧
      (∀ o, o ≠ State.eOff e → t.reg o = s.reg o) ∧ t = { s with regs := t.regs }) ∧
  (∀ (s : State) (e : Fin 6) (v : Word) (p : Nat), s.answers 0 (State.eOff e) = true → (s.engine e).resident = [] →
    bit v 8 = true → (s.engine e).polder = some p → 2 < (s.polderEngines p).length →
    ∃ t, exec (.engCfgWrite e v) s = .next t ∧ t.flag (State.eOff e) 4 = bit v 4 ∧
      t.flag (State.eOff e) 8 = s.flag (State.eOff e) 8 ∧ t.lastCode (State.eOff e + 4) = 0x1601#16 ∧
      (∀ o, o ≠ State.eOff e → t.reg o = s.reg o) ∧ t = { s with regs := t.regs, log := t.log }) ∧
  (∀ (s : State) (e : Fin 6) (v : Word), s.answers 0 (State.eOff e) = true → (s.engine e).resident ≠ [] →
    ∃ t, exec (.engCfgWrite e v) s = .next t ∧ t.lastCode (State.eOff e + 4) = 0x1601#16 ∧ t = { s with log := t.log }) ∧
  (∀ (s : State) (i : Fin 2) (v : Word) (o : Nat), o = 0x268000 + 4 * i.val → s.answers 0 o = true →
    (s.flag o 31 = true → ∀ c x, s.ctx c = some x → x.polder = s.fld o 18 16 → x.resident = false) →
    (∀ q, q ∈ s.ctxs → tget none s.ctxs q.1 = q.2) → (bit v 31 = true → s.shareOk i v = true) →
    ∃ t, exec (.ordShareWrite i v) s = .next t ∧ t.flag o 31 = bit v 31 ∧ t.fld o 18 16 = bits v 18 16 ∧
      t.fld o 11 0 = bits v 11 0 ∧ (∀ a, a ≠ o → t.reg a = s.reg a) ∧ t = { s with regs := t.regs }) ∧
  (∀ (s : State) (i : Fin 2) (v : Word) (o : Nat), o = 0x268000 + 4 * i.val → s.answers 0 o = true → bit v 31 = true →
    (6 ≤ bits v 18 16 ∨ bits v 11 0 % 64 ≠ 0 ∨ bits v 11 0 < 64 ∨ 2048 < bits v 11 0 ∨
      512 * (s.ownEngines (bits v 18 16)).length < bits v 11 0 ∨ (s.ownEngines (bits v 18 16)).length < 3) →
    ∃ t, exec (.ordShareWrite i v) s = .next t ∧ t = { s with log := t.log })

/-- The life of a task and of an operation. What rests on choices and readings of the model: the assumption log, 59, 60,
116, 131, 133, 134. -/
def Obligations.TasksPlacedOperationsCompleteAndRetire : Prop :=
  (∀ (s : State) (p : Fin 6) (e c : Nat) (rest : List Nat) (x : Ctx) (r : TaskRun), s.serves = true →
    s.vig.outOfService = false → (s.polderEngines p).filter s.engineFree = e :: rest → (s.engine e).task = none →
    State.firstCtx (s.allCtxs.filter (fun y => s.offers p e y.1 y.2)) = some (c, x) → s.nextTask c = some r →
    ∃ t, exec (.taskPlace p) s = .next t ∧
      t.engine e = { s.engine e with task := some r, clkMHz := s.variableMHz, tile := (t.engine e).tile } ∧
      (∀ j, j ≠ e → t.engine j = s.engine j) ∧ (∀ d, d ≠ c → t.ctx d = s.ctx d) ∧
      t = { s with engines := t.engines, ctxs := t.ctxs, pool := t.pool }) ∧
  (∀ (s : State) (id : Nat) (o : OpEntry), s.op id = some o → o.complete = false → o.met = true → o.remote = false →
    o.sig = none → o.word = none → o.block = none → o.dig = false →
    o.cls ∈ [OpClass.move, .matrix, .window, .vector, .digest, .fence] →
    ∃ t, exec (.opComplete id) s = .next t ∧ t.op id = some { o with complete := true, reader := none } ∧
      (∀ j, j ≠ id → t.op j = s.op j) ∧
      (o.spec = true → (∀ j, State.unwaited (t.engine j) = State.unwaited (s.engine j)) ∧ t = { s with ops := t.ops, engines := t.engines }) ∧
      (o.spec = false → ∀ w b, o.out = [(w, b)] → w.space = .tile →
        State.unwaited (t.engine o.eng) =
          State.unwaited { s.engine o.eng with tile := writeBytes (s.engine o.eng).tile w.addr (b.take w.len) } ∧
        (∀ j, j ≠ o.eng → State.unwaited (t.engine j) = State.unwaited (s.engine j)) ∧
        t.bonded = s.bonded ∧ t.pool = s.pool) ∧
      t = { s with ops := t.ops, engines := t.engines, bonded := t.bonded, pool := t.pool, ecc := t.ecc, ctxs := t.ctxs,
                   counters := t.counters, log := t.log }) ∧
  (∀ (s : State) (id : Nat), s.op id = none → (∀ e, e < 6 → (s.engine e).late.contains id = false) →
    exec (.opComplete id) s = .next s) ∧
  (∀ (s : State) (id : Nat) (o : OpEntry) (r : TaskRun), s.op id = some o → s.mayRetire o = true → o.fault ≠ 0 → o.eng < 6 →
    codeClass o.fault ≠ 1 → codeChapter o.fault ≠ 0x90 → codeChapter o.fault ≠ 0xA0 → o.cls ≠ .culvert →
    (s.engine o.eng).task = some r → r.fail = 0 →
    ∃ u : State, exec (.opRetire id) s = .next (u.taskCheck o.eng).syncWaits ∧ u.op id = none ∧
      (∃ b, (u.engine o.eng).task = some { r with fail := o.fault, failOp := o.idx, snap := b }) ∧
      (∀ x, x ∈ u.ops ↔ x ∈ s.ops ∧ x.id ≠ id ∧ State.ofTask x o.eng r = false) ∧
      u.lastCode (State.eOff o.eng + 4) = o.fault ∧
      u.counter (State.eOff o.eng + 0x10) = satAdd (s.counter (State.eOff o.eng + 0x10)) 1 ∧
      (∀ j, j ≠ o.eng → u.engine j = s.engine j) ∧
      u = { s with ops := u.ops, engines := u.engines, counters := u.counters, ctxs := u.ctxs, log := u.log }) ∧
  (∀ (s : State) (id : Nat) (o : OpEntry) (r : TaskRun), s.op id = some o → s.mayRetire o = true → o.fault = 0 → o.note = 0 →
    o.vary = false → o.prov = false → o.check = none → o.block = none → o.cls ≠ .culvert → o.eng < 6 →
    (s.engine o.eng).task = some r → r.fail = 0 → r.next < r.ops →
    ∃ t, exec (.opRetire id) s = .next t ∧ (∀ x, x ∈ t.ops ↔ x ∈ s.ops ∧ x.id ≠ id) ∧
      (∃ b, State.unwaited (t.engine o.eng) = State.unwaited { s.engine o.eng with task := some { r with snap := b } }) ∧
      t.counter (State.eOff o.eng + 0x10) = satAdd (s.counter (State.eOff o.eng + 0x10)) 1 ∧
      (∀ j, j ≠ o.eng → State.unwaited (t.engine j) = State.unwaited (s.engine j)) ∧ (∀ a, a ≠ State.eOff o.eng + 0x10 → t.counter a = s.counter a) ∧
      t = { s with ops := t.ops, engines := t.engines, counters := t.counters, ctxs := t.ctxs })

/-- Gates, timing and waits. What rests on choices and readings of the model: the assumption log, 59, 67, 77, 133. -/
def Obligations.GatesTimingAndWaits : Prop :=
  (∀ (s : State) (e : Fin 6) (g : OpEntry) (k : TaskRun) (r : Region) (rest : List Region), s.openGate e = some g →
    (s.engine e).task = some k → g.reads = r :: rest → (s.engine e).stallFrom = none →
    (∀ o, o ∈ s.ops → o.id ≠ g.id → o.ctx = g.ctx → State.before o g = true → o.complete = false → anyMeet true o.writes [r] = false) →
    (leNat (readBytes (s.engine e).tile r.addr 4) ≠ 0 →
      ∃ t, exec (.gateResolve e) s = .next t ∧
        (∃ hs ch, State.unwaited (t.engine e) =
            State.unwaited { s.engine e with task := some { k with next := g.gateTo.getD k.next, handles := hs, checked := ch } } ∧
          (∀ x, x ∈ hs → x ∈ k.handles) ∧ (∀ x, x ∈ ch → x ∈ k.checked)) ∧
        (∀ x, x ∈ t.ops → x.eng = e.val → x.spec = false) ∧
        (∀ x, x ∈ t.ops → x.id = g.id → x.complete = true) ∧
        (∀ x, x ∈ s.ops → x.id ≠ g.id → (x.eng ≠ e.val ∨ x.spec = false) → x ∈ t.ops) ∧
        t.counter (State.eOff e + 0x1C) = satAdd (s.counter (State.eOff e + 0x1C)) 1 ∧
        t.counter (State.eOff e + 0x18) =
          satAdd (s.counter (State.eOff e + 0x18)) (s.ops.filter (fun o => decide (o.eng = e.val) && o.spec)).length ∧
        (∀ j, j ≠ e.val → State.unwaited (t.engine j) = State.unwaited (s.engine j)) ∧
        t = { s with ops := t.ops, engines := t.engines, empties := t.empties, counters := t.counters }) ∧
    (leNat (readBytes (s.engine e).tile r.addr 4) = 0 → (∀ o, o ∈ s.ops → o.eng = e.val → o.spec = false) →
      ∃ t, exec (.gateResolve e) s = .next t ∧ (∀ x, x ∈ t.ops → x.id = g.id → x.complete = true) ∧
        t.counter (State.eOff e + 0x20) = satAdd (s.counter (State.eOff e + 0x20)) 1 ∧
        (∀ j, State.unwaited (t.engine j) = State.unwaited (s.engine j)) ∧
        t = { s with ops := t.ops, engines := t.engines, counters := t.counters }) ∧
    (leNat (readBytes (s.engine e).tile r.addr 4) = 0 →
      ∃ t, exec (.gateResolve e) s = .next t ∧ (∀ x, x ∈ t.ops → x.id = g.id → x.complete = true) ∧
        (∀ x, x ∈ t.ops → x.eng = e.val → x.spec = false) ∧ t.ops.map (·.id) = s.ops.map (·.id) ∧
        (∀ j, (t.engine j).task.map State.TaskRun.unwaited = (s.engine j).task.map State.TaskRun.unwaited) ∧
        t = { s with ops := t.ops, engines := t.engines, bonded := t.bonded, pool := t.pool, ecc := t.ecc, ctxs := t.ctxs,
                     counters := t.counters, log := t.log })) ∧
  (∀ (s : State) (e : Fin 6) (stall : Nat) (k : TaskRun), (s.engine e).task = some k → s.flag (State.eOff e) 4 = true →
    ∃ t, exec (.deliveryExcursion e stall) s = .next t ∧ t.engine e = { s.engine e with task := some { k with excursion := true } } ∧
      t.counter (State.eOff e + 0x28) = satAdd (s.counter (State.eOff e + 0x28)) 1 ∧ t.lastCode (State.eOff e + 4) = 0x4601#16 ∧
      (∀ j, j ≠ e.val → t.engine j = s.engine j) ∧ t = { s with engines := t.engines, counters := t.counters, log := t.log }) ∧
  (∀ (s : State) (e : Fin 6) (stall : Nat), s.flag (State.eOff e) 4 = false → exec (.deliveryExcursion e stall) s = .next s) ∧
  (∀ (s : State) (e : Fin 6) (k : TaskRun) (a : Nat), (s.engine e).task = some k → k.overBound = false → k.startAt = some a →
    240000 ≤ s.engCycles e (s.now - a) →
    ∃ t, exec (.taskOverBound e) s = .next t ∧ t.engine e = { s.engine e with task := some { k with overBound := true } } ∧
      t.counter (State.eOff e + 0x34) = satAdd (s.counter (State.eOff e + 0x34)) 1 ∧
      (∀ j, j ≠ e.val → t.engine j = s.engine j) ∧ t = { s with engines := t.engines, counters := t.counters } ∧
      exec (.taskOverBound e) t = .next t) ∧
  (∀ (s : State) (e : Fin 6) (k : TaskRun) (a : Nat), (s.engine e).task = some k → k.hungPosted = false → k.startAt = some a →
    480000 + s.engCycles e (s.waitedNs e k) ≤ s.engCycles e (s.now - a) → s.freeze = false → s.absorbed_ (.engine e) = false →
    s.vig.orders = [] →
    ∃ t, exec (.taskHung e) s = .next t ∧ t.engine e = { s.engine e with task := some { k with hungPosted := true } } ∧
      t.lastCode (State.eOff e + 4) = 0x4602#16 ∧ t.vig = { s.vig with orders := [(.engine e, true)] } ∧
      (∀ j, j ≠ e.val → t.engine j = s.engine j) ∧ t = { s with engines := t.engines, log := t.log, vig := t.vig }) ∧
  (∀ (s : State) (e : Fin 6), s.freeze = false → s.absorbed_ (.engine e) = false → s.vig.orders = [] →
    ∃ t, exec (.sequencerFault e) s = .next t ∧ t.lastCode (State.eOff e + 4) = 0x5601#16 ∧
      t.vig = { s.vig with orders := [(.engine e, true)] } ∧ t = { s with log := t.log, vig := t.vig }) ∧
  (∀ (s : State) (e : Fin 6) (o : OpEntry) (b : Nat) (r : Region) (rest : List Region) (d : List Byte),
    s.openWaitBlock e = some o → o.block = some b → o.reads = r :: rest →
    s.readRegion e o.ctx (s.taskRecipe o.ctx o.job) r = some d → leNat ((d.drop 4).take 6) = b →
    ∃ t, exec (.waitBlockPoll e) s = .next t ∧ t.ops = s.ops.map (fun x => if x.id = o.id then
        { x with met := true, out := match x.writes with | [] => [] | w :: _ => [(w, d)] } else x) ∧
      (∀ j, State.unwaited (t.engine j) = State.unwaited (s.engine j)) ∧ t = { s with ops := t.ops, engines := t.engines }) ∧
  (∀ (s : State) (c : Fin 64) (o : OpEntry) (lim : Nat) (k : TaskRun),
    s.ops.find? (fun o => decide (o.ctx = c.val) && decide (o.cls = .wait) && !o.complete) = some o → o.until_ = some lim →
    lim ≤ s.now → s.waitMet o = false → o.eng < 6 → (s.engine o.eng).task = some k → k.fail = 0 →
    ∃ u : State, exec (.waitTimeout c) s = .next (u.taskCheck o.eng).syncWaits ∧ u.lastCode (State.eOff o.eng + 4) = 0x4B01#16 ∧
      u.counter (State.eOff o.eng + 0x64) = satAdd (s.counter (State.eOff o.eng + 0x64)) 1 ∧
      u.engine o.eng = { s.engine o.eng with task := some { k with fail := 0x4B01#16, failOp := o.idx } } ∧
      (∀ x, x ∈ u.ops ↔ x ∈ s.ops ∧ State.ofTask x o.eng k = false) ∧
      (∀ j, j ≠ o.eng → u.engine j = s.engine j) ∧
      u = { s with ops := u.ops, engines := u.engines, counters := u.counters, log := u.log })

/-- Operations without arithmetic, at their issue. What rests on choices and readings of the model: the assumption log, 59,
61, 64, 67, 77, 132. -/
def Obligations.PlainOperationsIssue : Prop :=
  (∀ (s : State) (h : OpHdr), s.mayIssue h .move 0 = true →
    ∃ t o, exec (.copy h) s = .next t ∧ s.issued t h .move 0 o ∧ o.fault = 0 ∧ o.note = 0 ∧ o.met = true ∧
      o.out = (h.writes.take 1).map (fun w => (w, s.opRead h 0)) ∧ s.issueFrame t h) ∧
  (∀ (s : State) (h : OpHdr), s.issueMode h .move 0 = none →
    ∃ t, exec (.copy h) s = .next t ∧ t.ops = s.ops ∧
      (∀ e, e ≠ h.eng.val → State.unwaited (t.engine e) = State.unwaited (s.engine e)) ∧
      (t.engine h.eng).tile = (s.engine h.eng).tile ∧ t = { s with engines := t.engines }) ∧
  (∀ (s : State) (h : OpHdr), (s.issueMode h .move 0).isSome = true → h.reads.any (s.readsEmpty h.eng h.ctx) = false →
    (s.regionsOk h (s.opRecipe h) = false →
      ∃ t o, exec (.copy h) s = .next t ∧ s.issued t h .move 0 o ∧ o.fault = 0x6601#16 ∧ o.out = [] ∧ s.issueFrame t h) ∧
    (s.regionsOk h (s.opRecipe h) = true → (∃ w, w ∈ s.eccHits h ∧ w.bad = true) →
      ∃ t o, exec (.copy h) s = .next t ∧ s.issued t h .move 0 o ∧ o.fault = 0x2601#16 ∧ o.out = [] ∧
        t = { s with ops := t.ops, nextOp := t.nextOp, engines := t.engines, empties := t.empties, counters := t.counters })) ∧
  (∀ (s : State) (h : OpHdr), (s.issueMode h .move 0).isSome = true → h.reads.any (s.readsEmpty h.eng h.ctx) = true →
    ∃ t o, exec (.copy h) s = .next t ∧ s.issued t h .move 0 o ∧ o.fault = 0 ∧ o.out = [] ∧ o.dig = false ∧ s.issueFrame t h) ∧
  (∀ (s : State) (h : OpHdr) (n : Nat), s.mayIssue h .move 1 = true →
    ∃ t o, exec (.waitBlock h n) s = .next t ∧ s.issued t h .move 1 o ∧ o.block = some n ∧
      (leNat (((s.opRead h 0).drop 4).take 6) = n →
        o.fault = 0 ∧ o.met = true ∧ o.out = (h.writes.take 1).map (fun w => (w, s.opRead h 0))) ∧
      (leNat (((s.opRead h 0).drop 4).take 6) ≠ n → o.out = []) ∧
      (leNat (((s.opRead h 0).drop 4).take 6) < n → o.fault = 0 ∧ o.met = false) ∧
      (n < leNat (((s.opRead h 0).drop 4).take 6) → s.redoing h.eng = false → o.fault = 0 ∧ o.met = false) ∧
      (n < leNat (((s.opRead h 0).drop 4).take 6) → s.redoing h.eng = true → o.fault = 0x4061#16) ∧ s.issueFrame t h) ∧
  (∀ (s : State) (h : OpHdr) (w : Region) (x : Ctx), s.mayIssue h .digest 0 = true → h.writes = [w] → s.ctx h.ctx = some x →
    ∃ t o, exec (.squeeze h) s = .next t ∧ s.issued t h .digest 0 o ∧ o.fault = 0 ∧
      o.out = [(w, State.layerRecord h.layer x.dig)] ∧ s.issueFrame t h) ∧
  (∀ (s : State) (h : OpHdr), s.mayIssue h .digest 1 = true →
    ∃ t o, exec (.digestAbsorb h) s = .next t ∧ s.issued t h .digest 1 o ∧ o.fault = 0 ∧ o.out = [] ∧
      o.digest = some (leBytes 4 (s.opRead h 0).length ++ s.opRead h 0) ∧ s.issueFrame t h) ∧
  (∀ (s : State) (h : OpHdr) (target : Fin 65) (k : TaskRun), (s.engine h.eng).task = some k →
    (k.next < target.val → target.val ≤ k.ops → s.mayIssue h .gate 0 = true →
      ∃ t o, exec (.gate h target) s = .next t ∧ s.issued t h .gate 0 o ∧ o.fault = 0 ∧ o.out = [] ∧
        o.gateTo = some target.val ∧ s.issueFrame t h) ∧
    ((target.val ≤ k.next ∨ k.ops < target.val) → exec (.gate h target) s = .next s)) ∧
  (∀ (s : State) (h : OpHdr) (scope : Fin 4), s.mayIssue h .fence scope = true →
    ∃ t o, exec (.fence h scope) s = .next t ∧ s.issued t h .fence scope.val o ∧ o.fault = 0 ∧ o.out = [] ∧ s.issueFrame t h) ∧
  (∀ (s : State) (h : OpHdr) (word : Region) (th : DWord) (us : Nat), s.mayIssue h .wait 0 = true → word.addr % 8 = 0 →
    us ≤ 65535 → (s.localAt (s.polderOf h.ctx) { word with len := 8 }).isSome = true →
    ∃ t o, exec (.wait h word th us) s = .next t ∧ s.issued t h .wait 0 o ∧ o.fault = 0 ∧ o.out = [] ∧
      o.word = some (word, th) ∧ o.until_ = (if us = 0 then none else some (s.now + us * 1000)) ∧ s.issueFrame t h) ∧
  (∀ (s : State) (h : OpHdr) (word : Region) (th : DWord) (us : Nat), (s.issueMode h .wait 0).isSome = true →
    h.reads.any (s.readsEmpty h.eng h.ctx) = false → s.regionsOk h (s.opRecipe h) = true → (s.eccHits h).isEmpty = true →
    word.addr % 8 = 0 → us ≤ 65535 → s.localAt (s.polderOf h.ctx) { word with len := 8 } = none →
    ∃ t o, exec (.wait h word th us) s = .next t ∧ s.issued t h .wait 0 o ∧ o.fault = 0x6601#16 ∧ o.word = none ∧ s.issueFrame t h)

/-- Element-wise vector operations. What rests on choices and readings of the model: the assumption log, 14, 15, 19, 64, 65.
-/
def Obligations.VectorElementOperations : Prop :=
  (∀ (c : OpHdr → Instr) (opc : Nat) (f : Word → Word → Word → Word),
    (c, opc, f) ∈ ([(.vecAdd, 0, fun a b _ => fadd a b), (.vecSub, 1, fun a b _ => fsub a b), (.vecMul, 2, fun a b _ => fmul a b),
      (.vecFma, 3, ffma), (.vecDiv, 4, fun a b _ => fdiv a b), (.vecSqrt, 5, fun a _ _ => fsqrt a), (.vecExp2, 6, fun a _ _ => fexp2 a),
      (.vecLog2, 7, fun a _ _ => flog2 a), (.vecRcp, 8, fun a _ _ => frcp a), (.vecRsqrt, 9, fun a _ _ => frsqrt a),
      (.vecMax, 10, fun a b _ => fmax a b), (.vecMin, 11, fun a b _ => fmin a b)] :
      List ((OpHdr → Instr) × Nat × (Word → Word → Word → Word))) →
    ∀ (s : State) (h : OpHdr) (w : Region) (x y z : List Nat), s.mayIssue h .vector opc = true → h.writes = [w] →
      x = rawsOf h.afmt (s.opRead h 0) → y = rawsOf h.afmt (s.opRead h 1) → z = rawsOf h.afmt (s.opRead h 2) →
      (h.afmt ≠ .int32 →
        ∃ t o, exec (c h) s = .next t ∧ s.issued t h .vector opc o ∧ o.fault = 0 ∧ o.counts = {} ∧
          o.out = [(w, packRaws h.ofmt ((List.range x.length).map (fun i =>
            let r := f (word32 h.afmt (x.getD i 0)) (word32 h.afmt (y.getD i 0)) (word32 h.afmt (z.getD i 0));
            if h.ofmt = .fp32 then r.toNat else cvt .fp32 h.ofmt r.toNat)))] ∧ s.issueFrame t h) ∧
      (h.afmt = .int32 →
        ∃ (t : State) (o : OpEntry) (bs : List Byte), exec (c h) s = .next t ∧ s.issued t h .vector opc o ∧ o.fault = 0 ∧ o.counts = {} ∧
          o.out = [(w, bs)] ∧ (h.ofmt = .int32 → bs.length = 4 * x.length) ∧ s.issueFrame t h)) ∧
  (∀ (c : OpHdr → Instr) (opc : Nat) (g : Int → Int → Int → Int),
    (c, opc, g) ∈ ([(.vecAdd, 0, fun a b _ => a + b), (.vecSub, 1, fun a b _ => a - b), (.vecMul, 2, fun a b _ => a * b),
      (.vecFma, 3, fun a b c => a * b + c), (.vecMax, 10, fun a b _ => max a b), (.vecMin, 11, fun a b _ => min a b)] :
      List ((OpHdr → Instr) × Nat × (Int → Int → Int → Int))) →
    ∀ (s : State) (h : OpHdr) (w : Region) (x y z : List Nat), s.mayIssue h .vector opc = true → h.afmt = .int32 → h.writes = [w] →
      x = raw32 (s.opRead h 0) → y = raw32 (s.opRead h 1) → z = raw32 (s.opRead h 2) →
      ∃ t o, exec (c h) s = .next t ∧ s.issued t h .vector opc o ∧ o.fault = 0 ∧
        o.out = [(w, packRaws h.ofmt ((List.range x.length).map (fun i =>
          let r := unsigned 32 (g (signed 32 (x.getD i 0)) (signed 32 (y.getD i 0)) (signed 32 (z.getD i 0)));
          if h.ofmt = .int32 then r else cvt .int32 h.ofmt r)))] ∧ s.issueFrame t h) ∧
  (∀ (c : OpHdr → Instr) (opc : Nat) (g : Int → Int → Int),
    (c, opc, g) ∈ ([(.satadd, 0x0E, fun a b => min (2 ^ 31 - 1) (max (-(2 ^ 31)) (a + b))),
      (.satsub, 0x0F, fun a b => min (2 ^ 31 - 1) (max (-(2 ^ 31)) (a - b)))] : List ((OpHdr → Instr) × Nat × (Int → Int → Int))) →
    ∀ (s : State) (h : OpHdr) (w : Region) (x y : List Nat), s.mayIssue h .vector opc = true → h.writes = [w] →
      x = raw32 (s.opRead h 0) → y = raw32 (s.opRead h 1) →
      ∃ t o, exec (c h) s = .next t ∧ s.issued t h .vector opc o ∧ o.fault = 0 ∧
        o.out = [(w, packRaws h.ofmt ((List.range x.length).map (fun i =>
          let r := unsigned 32 (g (signed 32 (x.getD i 0)) (signed 32 (y.getD i 0)));
          if h.ofmt = .int32 then r else cvt .int32 h.ofmt r)))] ∧ s.issueFrame t h)

/-- Conversions, reductions, quantisers, CHECK, COUNT and RAND. What rests on choices and readings of the model: the
assumption log, 14, 19, 62, 63, 64. -/
def Obligations.VectorConversionsReductionsAndQuantisers : Prop :=
  (∀ (s : State) (h : OpHdr) (w : Region) (x : List Nat), h.writes = [w] → x = rawsOf h.afmt (s.opRead h 0) →
    (s.mayIssue h .vector 0x0C = true →
      ∃ t o, exec (.cvt h) s = .next t ∧ s.issued t h .vector 0x0C o ∧ o.fault = 0 ∧
        o.out = [(w, packRaws h.ofmt (x.map (cvt h.afmt h.ofmt)))] ∧ s.issueFrame t h) ∧
    (s.mayIssue h .vector 0x0D = true →
      ∃ t o, exec (.trunc h) s = .next t ∧ s.issued t h .vector 0x0D o ∧ o.fault = 0 ∧
        o.out = [(w, x.flatMap (fun y => leBytes 4 (unsigned 32 (ftrunc (word32 h.afmt y)))))] ∧ s.issueFrame t h) ∧
    (∀ (op : CmpOp) (v : Word), s.mayIssue h .vector 0x16 = true →
      ∃ t o, exec (.count h op v) s = .next t ∧ s.issued t h .vector 0x16 o ∧ o.fault = 0 ∧
        o.out = [(w, leBytes 4 (x.filter (fun y => cmpMeets h.afmt op y (v.toNat % 2 ^ fmtBits h.afmt))).length)] ∧ s.issueFrame t h) ∧
    (∀ (sc : Word) (zp : Int) (input : Bool) (k : Nat) (excl : List Nat), s.mayIssue h .vector 0x12 = true →
      zpOk h.ofmt zp = true → outliersOk k excl = true →
      ∃ t o, exec (.qstatic h sc zp ⟨input, k, excl⟩) s = .next t ∧ s.issued t h .vector 0x12 o ∧ o.fault = 0 ∧
        o.out = [(w, packRaws h.ofmt ((List.range x.length).map (fun i =>
          ofIntFmt h.ofmt (if excl.contains (i % k) then zp else (qStatic h.ofmt sc zp input (valueOf h.afmt (x.getD i 0))).1))))] ∧
        o.counts = sumCounts ((List.range x.length).map (fun i =>
          if excl.contains (i % k) then {} else (qStatic h.ofmt sc zp input (valueOf h.afmt (x.getD i 0))).2)) ∧ s.issueFrame t h) ∧
    (∀ (limit : Fin 65536) (m : CheckMask), s.mayIssue h .vector 0x15 = true →
      ∃ t o, exec (.check h limit m) s = .next t ∧ s.issued t h .vector 0x15 o ∧ o.fault = 0 ∧
        o.check = some (decide (limit.val ≠ 0 ∧ limit.val ≤ checkSum s h m)) ∧
        (∃ n, o.out = [(w, leBytes 4 n)] ∧ n < 2 ^ 32 ∧ (n = 0 ↔ limit.val ≠ 0 ∧ limit.val ≤ checkSum s h m)) ∧
        s.issueFrame { t with free := s.free } h) ∧
    (∀ (n : Nat) (r : Nat) (y : Recipe), s.mayIssue h .vector 0x17 = true → s.opRecipe h = some r → s.recipe r = some y →
      (h.ofmt = .int32 →
        ∃ t o, exec (.rand h n) s = .next t ∧ s.issued t h .vector 0x17 o ∧ o.fault = 0 ∧
          o.out = [(w, (List.range n).flatMap (fun i => leBytes 4 (randWord (raw32 (s.opRead h 0)) y.seed.toNat i)))] ∧ s.issueFrame t h) ∧
      (h.ofmt = .fp32 →
        ∃ t o, exec (.rand h n) s = .next t ∧ s.issued t h .vector 0x17 o ∧ o.fault = 0 ∧
          o.out = [(w, (List.range n).flatMap (fun i =>
            leBytes 4 (fp32F.round .even false (randWord (raw32 (s.opRead h 0)) y.seed.toNat i / 256) (2 ^ 24))))] ∧ s.issueFrame t h))) ∧
  (∀ (s : State) (h : OpHdr) (w : Region), s.mayIssue h .vector 0x10 = true → h.writes = [w] →
    ∃ (t : State) (o : OpEntry) (bs : List Byte), exec (.sum h) s = .next t ∧ s.issued t h .vector 0x10 o ∧ o.fault = 0 ∧ o.counts = {} ∧
      o.out = [(w, bs)] ∧
      (w.len = 4 → h.ofmt = .fp32 → h.afmt = .fp32 →
        bs = leBytes 4 (reduce fadd 0#32 ((raw32 (s.opRead h 0)).map (BitVec.ofNat 32))).toNat) ∧
      (w.len = 4 → h.ofmt = .int32 → h.afmt = .int32 → bs = leBytes 4 ((raw32 (s.opRead h 0)).sum % 2 ^ 32)) ∧ s.issueFrame t h) ∧
  (∀ (s : State) (h : OpHdr) (w : Region), s.mayIssue h .vector 0x11 = true → h.writes = [w] →
    ∃ (t : State) (o : OpEntry) (bs : List Byte), exec (.rmax h) s = .next t ∧ s.issued t h .vector 0x11 o ∧ o.fault = 0 ∧ o.counts = {} ∧
      o.out = [(w, bs)] ∧
      (w.len = 4 → h.ofmt = .fp32 → h.afmt = .fp32 →
        bs = leBytes 4 (reduce fmax 0xFF800000#32 ((raw32 (s.opRead h 0)).map (BitVec.ofNat 32))).toNat) ∧
      (w.len = 4 → h.ofmt = .int32 → h.afmt = .int32 →
        bs = leBytes 4 (unsigned 32 (((raw32 (s.opRead h 0)).map (signed 32)).foldl max (-(2 ^ 31))))) ∧ s.issueFrame t h) ∧
  (∀ (s : State) (h : OpHdr) (w1 w2 : Region) (excl : List Nat) (m : Nat) (x : List Word), s.mayIssue h .vector 0x13 = true →
    h.writes = [w1, w2] → h.ofmt ∈ [Fmt.int4, Fmt.int8, Fmt.int16] → outliersOk (rowLenOf h 4) excl = true →
    x = (rawsOf h.afmt (s.opRead h 0)).map (word32 h.afmt) → m = max 1 (w2.len / 4) →
    ∃ (t : State) (o : OpEntry), exec (.qrow h excl) s = .next t ∧ s.issued t h .vector 0x13 o ∧ o.fault = 0 ∧
      o.out = [(w1, packRaws h.ofmt ((rowsOf (x.length / m) m x).flatMap (fun r => (qRow (qmaxOf h.ofmt) excl r).2.1.map (ofIntFmt h.ofmt)))),
        (w2, (rowsOf (x.length / m) m x).flatMap (fun r => leBytes 4 (qRow (qmaxOf h.ofmt) excl r).1.toNat))] ∧
      (∀ r, r ∈ rowsOf (x.length / m) m x → ∀ q, q ∈ (qRow (qmaxOf h.ofmt) excl r).2.1 → -(qmaxOf h.ofmt : Int) ≤ q ∧ q ≤ qmaxOf h.ofmt) ∧
      o.counts = sumCounts ((rowsOf (x.length / m) m x).map (fun r => (qRow (qmaxOf h.ofmt) excl r).2.2)) ∧ s.issueFrame t h) ∧
  (∀ (s : State) (h : OpHdr) (w1 w2 : Region) (excl : List Nat) (m : Nat) (x : List Word), s.mayIssue h .vector 0x14 = true →
    h.writes = [w1, w2] → outliersOk (rowLenOf h 5) excl = true →
    x = (rawsOf h.afmt (s.opRead h 0)).map (word32 h.afmt) → m = max 1 (w2.len / 5) →
    ∃ (t : State) (o : OpEntry), exec (.qrowU8 h excl) s = .next t ∧ s.issued t h .vector 0x14 o ∧ o.fault = 0 ∧
      o.out = [(w1, (rowsOf (x.length / m) m x).flatMap (fun r => (qRowU8 excl r).2.2.1.map (BitVec.ofInt 8))),
        (w2, (rowsOf (x.length / m) m x).flatMap (fun r => leBytes 4 (qRowU8 excl r).1.toNat) ++
          (rowsOf (x.length / m) m x).map (fun r => BitVec.ofInt 8 (qRowU8 excl r).2.1))] ∧
      (∀ r, r ∈ rowsOf (x.length / m) m x → ∀ q, q ∈ (qRowU8 excl r).2.1 :: (qRowU8 excl r).2.2.1 → 0 ≤ q ∧ q ≤ 255) ∧
      o.counts = sumCounts ((rowsOf (x.length / m) m x).map (fun r => (qRowU8 excl r).2.2.2)) ∧ s.issueFrame t h) ∧
  (∀ (s : State) (h : OpHdr) (sc : Word) (zp : Int) (input : Bool) (k : Nat) (excl : List Nat),
    (zpOk h.ofmt zp = false ∨ outliersOk k excl = false → exec (.qstatic h sc zp ⟨input, k, excl⟩) s = .next s) ∧
    (outliersOk (rowLenOf h 4) excl = false → exec (.qrow h excl) s = .next s) ∧
    (outliersOk (rowLenOf h 5) excl = false → exec (.qrowU8 h excl) s = .next s)) ∧
  (∀ (s : State) (h : OpHdr) (n : Nat), h.ofmt ≠ .fp32 → h.ofmt ≠ .int32 → exec (.rand h n) s = .next s)

/-- The matrix array and the window unit. What rests on choices and readings of the model: the assumption log, 14, 19, 64,
66, 73, 139. -/
def Obligations.MatrixAndWindowResults : Prop :=
  (∀ (s : State) (h : OpHdr) (p : MatParams) (w : Region), s.mayIssue h .matrix 0 = true →
    matLoadCode h p (s.inWide h) (s.loadBytes h) = none → h.writes = [w] →
    ∃ t o, exec (.matmul h p) s = .next t ∧ s.issued t h .matrix 0 o ∧ s.issueFrame t h ∧
      (escapesAgree h p (matTensors h p p.m s) = true → o.fault = 0 ∧ o.out.map (·.1) = [w]) ∧
      (escapesAgree h p (matTensors h p p.m s) = false → o.fault = 0x2701#16 ∧ o.out = [])) ∧
  (∀ (s : State) (h : OpHdr) (p : MatParams) (w : Region) (sx : Word) (zx : Int), s.mayIssue h .matrix 0 = true →
    matLoadCode h p (s.inWide h) (s.loadBytes h) = none → h.writes = [w] → h.afmt = .int8 → h.wfmt = .int8 → h.ofmt = .fp32 →
    p.quant = .static sx zx → p.group = 0 → p.escape = false → p.outliers = [] →
    (raw32 ((s.opRead h 2).take (4 * p.n))).length = p.n →
    ∃ t o, exec (.matmul h p) s = .next t ∧ s.issued t h .matrix 0 o ∧ o.fault = 0 ∧
      o.out = [(w, (List.range (p.m * p.n)).flatMap (fun q =>
        let a := (((raw8 (s.opRead h 0)).drop (q / p.n * p.k)).take p.k).map (fun x => signed 8 x - zx);
        let b := (((raw8 (s.opRead h 1)).drop (q % p.n * p.k)).take p.k).map (fun x => signed 8 x - p.wzp);
        let sc := BitVec.ofNat 32 ((raw32 ((s.opRead h 2).take (4 * p.n))).getD (q % p.n) 0);
        let bias := ((raw32 ((s.opRead h 2).drop (4 * p.n))).map (BitVec.ofNat 32)).getD (q % p.n) 0;
        leBytes 4 (cvt .fp32 .fp32 (ffma (fadd 0#32 (fmul (ofInt32 (dotInt a b (0, 0)).1) sc)) sx bias).toNat)))] ∧ s.issueFrame t h) ∧
  (∀ (a b : List Int), (∀ n, n ≤ a.length → -(2 ^ 31) ≤ ((List.zipWith (· * ·) a b).take n).sum ∧ ((List.zipWith (· * ·) a b).take n).sum ≤ 2 ^ 31 - 1) →
    dotInt a b (0, 0) = ((List.zipWith (· * ·) a b).sum, 0)) ∧
  (∀ (s : State) (h : OpHdr) (p : MatParams) (w : Region), s.mayIssue h .matrix 0 = true →
    matLoadCode h p (s.inWide h) (s.loadBytes h) = none → h.writes = [w] →
    h.afmt = .bf16 → h.wfmt = .bf16 → h.ofmt = .fp32 →
    ∃ t o, exec (.matmul h p) s = .next t ∧ s.issued t h .matrix 0 o ∧ o.fault = 0 ∧
      o.out = [(w, (List.range (p.m * p.n)).flatMap (fun q =>
        let a := (((raw16 (s.opRead h 0)).drop (q / p.n * p.k)).take p.k).map (widen bf16F);
        let b := (List.range p.k).map (fun k => widen bf16F ((raw16 (s.opRead h 1)).getD (q % p.n * p.k + k) 0));
        leBytes 4 (cvt .fp32 .fp32 (fadd (dotBf16 a b 0) (((raw32 (s.opRead h 2)).map (BitVec.ofNat 32)).getD (q % p.n) 0)).toNat)))] ∧
      s.issueFrame t h) ∧
  (∀ (s : State) (h : OpHdr) (p : MatParams), (matLoadCode h p (s.inWide h) (s.loadBytes h)).isSome = true → exec (.matmul h p) s = .next s) ∧
  (∀ (c : OpHdr → WinParams → Instr) (op : WinOp),
    (c, op) ∈ ([(.conv, .conv), (.dwconv, .dwconv), (.maxpool, .maxpool), (.minpool, .minpool), (.avgpool, .avgpool)] :
      List ((OpHdr → WinParams → Instr) × WinOp)) →
    ∀ (s : State) (h : OpHdr) (p : WinParams) (w : Region) (q : SegRows), h.writes = [w] → q = s.segRows h p →
      (s.mayIssue h .window op.code = true → winLoadCode h op p (s.inWide h) (s.loadBytes h) = none →
        ∃ t o, exec (c h p) s = .next t ∧ s.issued t h .window op.code o ∧ s.issueFrame t h ∧
          (winEmpty q p = true → o.fault = 0 ∧ o.out = [] ∧ o.tally = [(0x58, 1)]) ∧
          (winEmpty q p = false → op.isConv = false → o.fault = 0 ∧ o.out.map (·.1) = [w]) ∧
          (winEmpty q p = false → op.isConv = true → p.mat.escape = false → o.fault = 0 ∧ o.out.map (·.1) = [w])) ∧
      ((winLoadCode h op p (s.inWide h) (s.loadBytes h)).isSome = true → exec (c h p) s = .next s)) ∧
  (∀ (s : State) (h : OpHdr) (p : WinParams) (w : Region) (sx : Word) (zx : Int) (oh ow k : Nat), s.mayIssue h .window 0 = true →
    winLoadCode h .conv p (s.inWide h) (s.loadBytes h) = none → h.writes = [w] → h.afmt = .int8 → h.wfmt = .int8 → h.ofmt = .fp32 →
    p.mat.quant = .static sx zx → p.mat.group = 0 → p.mat.escape = false → p.mat.outliers = [] → p.g = 1 → p.pad.val = 0 →
    p.stream = false → p.tensor = none → winEmpty (wholeRows p) p = false →
    oh = outSize p.h p.kh p.sh p.dh p.pt p.pb → ow = outSize p.w p.kw p.sw p.dw p.pl p.pr → k = p.kh * p.kw * p.c →
    (s.opRead h 0).length = p.h * p.w * p.c → (raw32 ((s.opRead h 2).take (4 * p.mat.n))).length = p.mat.n →
    ∃ t o, exec (.conv h p) s = .next t ∧ s.issued t h .window 0 o ∧ o.fault = 0 ∧
      o.out = [(w, (List.range (oh * ow * p.mat.n)).flatMap (fun q =>
        let a := (List.range k).map (fun e =>
          let r := ((q / p.mat.n / ow * p.sh + e / p.c / p.kw * p.dh : Nat) : Int) - p.pt;
          let l := ((q / p.mat.n % ow * p.sw + e / p.c % p.kw * p.dw : Nat) : Int) - p.pl;
          if 0 ≤ r && r < p.h && 0 ≤ l && l < p.w then ((s.opRead h 0).getD ((r.toNat * p.w + l.toNat) * p.c + e % p.c) 0).toInt - zx else 0);
        let b := (((raw8 (s.opRead h 1)).drop (q % p.mat.n * k)).take k).map (fun x => signed 8 x - p.mat.wzp);
        let sc := BitVec.ofNat 32 ((raw32 ((s.opRead h 2).take (4 * p.mat.n))).getD (q % p.mat.n) 0);
        let bias := ((raw32 ((s.opRead h 2).drop (4 * p.mat.n))).map (BitVec.ofNat 32)).getD (q % p.mat.n) 0;
        leBytes 4 (cvt .fp32 .fp32 (ffma (fadd 0#32 (fmul (ofInt32 (dotInt a b (0, 0)).1) sc)) sx bias).toNat)))] ∧ s.issueFrame t h) ∧
  (∀ (s : State) (h : OpHdr) (p : WinParams), s.mayIssue h .window 0 = true → s.mayIssue h .matrix 0 = true →
    winLoadCode h .conv p (s.inWide h) (s.loadBytes h) = none → p.kh = 1 → p.kw = 1 → p.sh = 1 → p.sw = 1 → p.g = 1 → p.pt = 0 → p.pb = 0 → p.pl = 0 →
    p.pr = 0 → p.stream = false → p.tensor = none → 0 < p.h → 0 < p.w → 0 < p.c →
    (rawsOf h.afmt (s.opRead h 0)).length = p.h * p.w * p.c →
    ∃ t u o o', exec (.conv h p) s = .next t ∧ s.issued t h .window 0 o ∧
      exec (.matmul h { p.mat with m := p.h * p.w, k := p.c }) s = .next u ∧ s.issued u h .matrix 0 o' ∧
      o.out = o'.out ∧ o.counts = o'.counts ∧ o.fault = o'.fault ∧ s.issueFrame t h) ∧
  (∀ (s : State) (h : OpHdr) (p : WinParams), s.mayIssue h .window 0 = true → s.mayIssue h .window 1 = true →
    winLoadCode h .conv p (s.inWide h) (s.loadBytes h) = none → winLoadCode h .dwconv p (s.inWide h) (s.loadBytes h) = none →
    ∃ t u o o', exec (.dwconv h p) s = .next t ∧ s.issued t h .window 1 o ∧ exec (.conv h p) s = .next u ∧
      s.issued u h .window 0 o' ∧ o.out = o'.out ∧ o.counts = o'.counts ∧ o.fault = o'.fault ∧ s.issueFrame t h) ∧
  (∀ (c : OpHdr → WinParams → Instr) (op : WinOp) (g : Int → Int → Int) (z : Int),
    (c, op, g, z) ∈ ([(.maxpool, .maxpool, max, -128), (.minpool, .minpool, min, 127)] :
      List ((OpHdr → WinParams → Instr) × WinOp × (Int → Int → Int) × Int)) →
    ∀ (s : State) (h : OpHdr) (p : WinParams) (w : Region) (oh ow : Nat), s.mayIssue h .window op.code = true →
      winLoadCode h op p (s.inWide h) (s.loadBytes h) = none → winEmpty (wholeRows p) p = false → h.writes = [w] → h.afmt = .int8 →
      p.pt = 0 → p.pb = 0 → p.pl = 0 → p.pr = 0 → p.stream = false → p.tensor = none →
      oh = outSize p.h p.kh p.sh p.dh 0 0 → ow = outSize p.w p.kw p.sw p.dw 0 0 →
      (s.opRead h 0).length = p.h * p.w * p.c →
      ∃ t o bs, exec (c h p) s = .next t ∧ s.issued t h .window op.code o ∧ o.fault = 0 ∧ o.out = [(w, bs)] ∧
        bs.length = oh * ow * p.c ∧
        (∀ i j ch, i < oh → j < ow → ch < p.c → (bs.getD ((i * ow + j) * p.c + ch) 0).toInt =
          ((List.range p.kh).flatMap (fun y => (List.range p.kw).map (fun x =>
            ((s.opRead h 0).getD (((i * p.sh + y * p.dh) * p.w + (j * p.sw + x * p.dw)) * p.c + ch) 0).toInt))).foldl g z) ∧
        s.issueFrame t h) ∧
  (∀ (s : State) (h : OpHdr) (p : WinParams) (w : Region) (oh ow : Nat), s.mayIssue h .window 4 = true →
      winLoadCode h .avgpool p (s.inWide h) (s.loadBytes h) = none → winEmpty (wholeRows p) p = false → h.writes = [w] → h.afmt = .int8 → h.ofmt = .int8 →
      p.mat.outScale = none → p.pt = 0 → p.pb = 0 → p.pl = 0 → p.pr = 0 → p.stream = false → p.tensor = none →
      oh = outSize p.h p.kh p.sh p.dh 0 0 → ow = outSize p.w p.kw p.sw p.dw 0 0 → (s.opRead h 0).length = p.h * p.w * p.c →
      ∃ t o bs, exec (.avgpool h p) s = .next t ∧ s.issued t h .window 4 o ∧ o.fault = 0 ∧ o.out = [(w, bs)] ∧
        bs.length = oh * ow * p.c ∧
        (∀ i j ch, i < oh → j < ow → ch < p.c → (bs.getD ((i * ow + j) * p.c + ch) 0).toInt = clampInt (-128) 127
          (divRne ((List.range p.kh).flatMap (fun y => (List.range p.kw).map (fun x =>
            ((s.opRead h 0).getD (((i * p.sh + y * p.dh) * p.w + (j * p.sw + x * p.dw)) * p.c + ch) 0).toInt - (winIn p).2))).sum
            (p.kh * p.kw) + (winIn p).2)) ∧
        s.issueFrame t h) ∧
  (∀ (s : State) (h : OpHdr) (p : WinParams), s.mayIssue h .window 5 = true → winLoadCode h .label p (s.inWide h) (s.loadBytes h) = none →
      (p.h = 0 ∨ p.w = 0) →
      ∃ t o, exec (.label h p) s = .next t ∧ s.issued t h .window 5 o ∧ o.fault = 0 ∧ o.out = [] ∧ o.tally = [(0x58, 1)] ∧ s.issueFrame t h) ∧
  (∀ (s : State) (h : OpHdr) (p : WinParams) (w0 w1 : Region) (st : Nat), s.mayIssue h .window 5 = true →
      winLoadCode h .label p (s.inWide h) (s.loadBytes h) = none →
      0 < p.h → 0 < p.w → p.tensor = none → h.writes = [w0, w1] → p.h * p.w ≤ (s.opRead h 0).length →
      st = (if p.stripe = 0 then p.w else p.stripe) →
      ∃ t o m tab lab, exec (.label h p) s = .next t ∧ s.issued t h .window 5 o ∧ o.fault = 0 ∧ o.out = [(w0, m), (w1, tab)] ∧
        m.length = 2 * (p.h * p.w) ∧ (lab = fun i => leNat ((m.drop (2 * i)).take 2)) ∧
        (∀ i, i < p.h * p.w → ((s.opRead h 0).getD i 0 = 0 ↔ lab i = 0)) ∧
        (∀ i, i + 1 < p.h * p.w → (i + 1) % p.w ≠ 0 → (i + 1) % p.w % st ≠ 0 →
          (s.opRead h 0).getD i 0 ≠ 0 → (s.opRead h 0).getD (i + 1) 0 ≠ 0 → lab i = lab (i + 1)) ∧
        (∀ i, i + p.w < p.h * p.w → (s.opRead h 0).getD i 0 ≠ 0 → (s.opRead h 0).getD (i + p.w) 0 ≠ 0 → lab i = lab (i + p.w)) ∧
        s.issueFrame t h) ∧
  (∀ (s : State) (h : OpHdr) (p : WinParams), (winLoadCode h .label p (s.inWide h) (s.loadBytes h)).isSome = true → exec (.label h p) s = .next s)

/-- Operations on part tracks and their pages. What rests on choices and readings of the model: the assumption log, 16, 64,
69, 70, 71, 91, 138. -/
def Obligations.TrackOperations : Prop :=
  (∀ (s : State) (h : OpHdr) (k : TrackParams) (r n : Nat) (x : Recipe) (w : Region),
    State.trackOk k = true → s.opRecipe h = some r → s.recipe r = some x → h.writes = [w] → s.freeTrack = some n →
    (s.mayIssue h .move 2 = true → s.openFits (s.polderOf h.ctx) k.resv = true →
      ∃ t o, exec (.open_ h k) s = .next t ∧ s.issued t h .move 2 o ∧ o.fault = 0 ∧
        o.out = [(w, leBytes 4 (t.track n).handle.toNat)] ∧ t.findTrack (t.track n).handle = some n ∧
        (t.track n).resv = k.resv ∧ (x.nodes = [] → (t.track n).pages = []) ∧ (t.track n).recipe = r ∧ (t.track n).build = false ∧
        (t.track n).polder = s.polderOf h.ctx ∧ ((t.track n).clamped = true ↔ o.note = 0x1902#16) ∧
        (∀ m, m ≠ n → t.track m = s.track m) ∧
        (∀ a, s.outsideTrack n a = true → byteAt t.bonded a = byteAt s.bonded a) ∧
        s.issueFrame { t with tracks := s.tracks, bonded := s.bonded, nodes := s.nodes, parts := s.parts, log := s.log } h) ∧
    (s.mayIssue h .move 6 = true → s.kv.running = true →
      ∃ t o, exec (.openBuild h k) s = .next t ∧ s.issued t h .move 6 o ∧ o.fault = 0 ∧
        o.out = [(w, leBytes 4 (t.track n).handle.toNat)] ∧ t.findTrack (t.track n).handle = some n ∧
        (t.track n).resv = 0 ∧ (t.track n).build = true ∧ (∀ m, m ≠ n → t.track m = s.track m) ∧
        (∀ a, s.outsideTrack n a = true → x.nodes.all (fun i => s.outsidePage (s.geomOf r) (s.node i).slot a) = true →
          byteAt t.bonded a = byteAt s.bonded a) ∧
        s.issueFrame { t with tracks := s.tracks, bonded := s.bonded, nodes := s.nodes } h)) ∧
  (∀ (s : State) (h : OpHdr) (k : TrackParams) (r : Nat) (w : Region), State.trackOk k = true →
    s.opRecipe h = some r → h.writes = [w] →
    (s.mayIssue h .move 2 = true → (s.freeTrack = none ∨ s.openFits (s.polderOf h.ctx) k.resv = false) →
      ∃ t o, exec (.open_ h k) s = .next t ∧ s.issued t h .move 2 o ∧ o.fault = 0 ∧ o.note = 0x3901#16 ∧
        o.out = [(w, [0, 0, 0, 0])] ∧ (s.bump 0x270024 1).issueFrame { t with parts := s.parts } h) ∧
    (s.mayIssue h .move 6 = true → (s.freeTrack = none ∨ s.kv.running = false) →
      ∃ t o, exec (.openBuild h k) s = .next t ∧ s.issued t h .move 6 o ∧ o.fault = 0 ∧ o.note = 0x3901#16 ∧
        o.out = [(w, [0, 0, 0, 0])] ∧ (s.bump 0x270024 1).issueFrame { t with parts := s.parts } h)) ∧
  (∀ (s : State) (h : OpHdr) (n p : Nat), s.mayIssue h .move 3 = true → s.findTrack (s.handleOf h) = some n → p = State.pageOf h →
    (∀ c, c ∈ s.kv.copies → c.op ≠ s.nextOp) →
    (State.growsTo (s.track n) p = false →
      ∃ t o, exec (.append h) s = .next t ∧ s.issued t h .move 3 o ∧ o.fault = 0 ∧ o.note = 0 ∧ o.met = true ∧ s.issueFrame t h) ∧
    (∀ slot rest, State.growsTo (s.track n) p = true → State.entry (s.track n) p = State.emptyEntry →
      0 < (s.track n).resv → s.kv.freed = slot :: rest →
      ∃ t o, exec (.append h) s = .next t ∧ s.issued t h .move 3 o ∧ o.fault = 0 ∧ o.note = 0 ∧ o.met = true ∧
        State.entry (t.track n) p = BitVec.ofNat 32 slot ∧ (t.track n).resv = (s.track n).resv - 1 ∧
        t.kv = { s.kv with freed := rest, used := t.kv.used } ∧
        t.kvUsed (s.track n).polder = s.kvUsed (s.track n).polder + 1 ∧ (∀ m, m ≠ n → t.track m = s.track m) ∧
        (p < 2048 → ∀ a, s.outsideTrack n a = true → s.outsidePage (s.geomOf (s.track n).recipe) slot a = true → byteAt t.bonded a = byteAt s.bonded a) ∧
        s.issueFrame { t with tracks := s.tracks, bonded := s.bonded, kv := s.kv } h) ∧
    (∀ slot rest i, State.growsTo (s.track n) p = true → State.entry (s.track n) p ≠ State.emptyEntry →
      State.isPartial (s.track n) p = true → (∀ c, c ∈ s.kv.copies → c.handle ≠ s.handleOf h) →
      0 < (s.track n).resv → s.kv.freed = slot :: rest → s.nodeOfSlot (State.entrySlot (State.entry (s.track n) p)) = some i →
      ∃ t o, exec (.append h) s = .next t ∧ s.issued t h .move 3 o ∧ o.fault = 0 ∧ o.note = 0 ∧ o.met = false ∧
        t.kv.freed = rest ∧ t.kv.copies = s.kv.copies ++ [{ handle := s.handleOf h, page := p, node := i, slot := slot, at_ := s.now + State.copyTime (State.copyBytes (s.geomOf (s.track n).recipe) (s.node i).tokens), epoch := s.kv.epoch, op := s.nextOp }] ∧
        (∀ m, m ≠ n → t.track m = s.track m) ∧ State.entry (t.track n) p = State.entry (s.track n) p ∧
        s.issueFrame { t with tracks := s.tracks, bonded := s.bonded, kv := s.kv } h) ∧
    (State.growsTo (s.track n) p = true → State.entry (s.track n) p = State.emptyEntry →
      (s.track n).resv = 0 → (s.kvFree ≤ s.kvResv ∨ s.kvQuota (s.track n).polder ≤ s.kvUsed (s.track n).polder) →
      ∃ t o, exec (.append h) s = .next t ∧ s.issued t h .move 3 o ∧ o.fault = 0 ∧ o.note = 0x3902#16 ∧
        (t.track n).truncated = true ∧ t.track n = { s.track n with truncated := true, rows := (t.track n).rows } ∧
        (∀ m, m ≠ n → t.track m = s.track m) ∧
        (∀ a, s.outsideTrack n a = true → byteAt t.bonded a = byteAt s.bonded a) ∧
        (s.bump 0x270028 1).issueFrame { t with tracks := s.tracks, bonded := s.bonded, parts := s.parts } h)) ∧
  (∀ (s : State) (hd : Word) (p n : Nat) (c : KvCopy),
    s.kv.copies.find? (fun c => decide (c.handle = hd) && decide (c.page = p)) = some c →
    (c.at_ ≤ s.now → s.findTrack hd = some n →
      ∃ t, exec (.appendCopyDone hd p) s = .next t ∧ State.entry (t.track n) p = BitVec.ofNat 32 c.slot ∧ c ∉ t.kv.copies ∧
        t.counter 0x27012C = satAdd (s.counter 0x27012C) 1 ∧ (∀ m, m ≠ n → t.track m = s.track m) ∧
        t = { s with kv := t.kv, ops := t.ops, bonded := t.bonded, tracks := t.tracks, nodes := t.nodes, counters := t.counters }) ∧
    (c.at_ ≤ s.now → s.findTrack hd = none →
      ∃ t, exec (.appendCopyDone hd p) s = .next t ∧ c ∉ t.kv.copies ∧
        t = { s with kv := { s.kv with copies := t.kv.copies }, ops := t.ops }) ∧
    (s.now < c.at_ → exec (.appendCopyDone hd p) s = .next s)) ∧
  (∀ (s : State) (h : OpHdr) (row layer segs n lo hi : Nat), s.mayIssue h .move 4 = true → s.findTrack (s.handleOf h) = some n →
    lo = (s.track n).prefixTokens + row * (s.track n).nc → hi = lo + (s.track n).nc →
    (State.formsRow (s.track n) row = false →
      ∃ t o, exec (.kvWrite h row layer segs) s = .next t ∧ s.issued t h .move 4 o ∧ o.fault = 0 ∧ o.note = 0 ∧ o.out = [] ∧
        s.issueFrame t h) ∧
    (State.formsRow (s.track n) row = true → (row + 1) * (s.track n).nc ≤ 65536 →
      State.writeFault (s.track n) (State.pagesSpan lo hi) = none →
      ∃ t o, exec (.kvWrite h row layer segs) s = .next t ∧ s.issued t h .move 4 o ∧ o.fault = 0 ∧ o.note = 0 ∧
        o.out.length = 2 * segs * ((s.track n).nc + (State.pagesSpan lo hi).length) ∧
        t.track n = { s.track n with tokens := max (s.track n).tokens ((row + 1) * (s.track n).nc) } ∧
        (∀ m, m ≠ n → t.track m = s.track m) ∧
        (∀ a, s.outsideTrack n a = true → byteAt t.bonded a = byteAt s.bonded a) ∧
        s.issueFrame { t with tracks := s.tracks, bonded := s.bonded } h) ∧
    (∀ p code, State.formsRow (s.track n) row = true → (row + 1) * (s.track n).nc ≤ 65536 →
      State.writeFault (s.track n) (State.pagesSpan lo hi) = some (p, code) →
      ∃ t o, exec (.kvWrite h row layer segs) s = .next t ∧ s.issued t h .move 4 o ∧ o.fault = code ∧ o.out = [] ∧
        (State.entry (s.track n) p = State.emptyEntry → code = 0x2A02#16) ∧
        (State.entry (s.track n) p ≠ State.emptyEntry → code = 0x2A01#16 ∧ bit (State.entry (s.track n) p) 31 = true) ∧
        s.issueFrame t h) ∧
    (State.formsRow (s.track n) row = true → 65536 < (row + 1) * (s.track n).nc →
      ∃ t o, exec (.kvWrite h row layer segs) s = .next t ∧ s.issued t h .move 4 o ∧ o.fault = 0 ∧ o.note = 0x3903#16 ∧ o.out = [] ∧
        (t.track n).capped = true ∧ t.track n = { s.track n with capped := true, rows := (t.track n).rows } ∧
        (∀ m, m ≠ n → t.track m = s.track m) ∧
        (s.bump 0x27002C 1).issueFrame { t with tracks := s.tracks, bonded := s.bonded, parts := s.parts } h)) ∧
  (∀ (c : OpHdr → Instr) (opc : Nat), (c, opc) ∈ ([(.close, 5), (.closePublish, 7)] : List ((OpHdr → Instr) × Nat)) →
    ∀ (s : State) (h : OpHdr) (n : Nat), s.mayIssue h .move opc = true → s.findTrack (s.handleOf h) = some n →
    ∃ t o, exec (c h) s = .next t ∧ s.issued t h .move opc o ∧
      (opc = 5 → o.fault = (if (s.track n).build then 0x2A03#16 else 0)) ∧
      (opc = 7 → o.fault = (if (s.publishNodes (s.track n)).isNone then 0x2A03#16 else 0)) ∧
      t.findTrack (s.handleOf h) = none ∧
      t.track n = { serial := (s.track n).serial } ∧ (∀ m, m ≠ n → t.track m = s.track m) ∧
      (s.kv.slots ≤ 0x600000 → ∀ a, s.outsideTrack n a = true → (a < s.kvBase + 0x2040000 ∨ s.kvBase + 0x3840000 ≤ a) →
        byteAt t.bonded a = byteAt s.bonded a) ∧
      t = { s with ops := t.ops, nextOp := t.nextOp, engines := t.engines, empties := t.empties, tracks := t.tracks, bonded := t.bonded,
                   kv := t.kv, nodes := t.nodes, parts := t.parts, recipes := t.recipes, counters := t.counters, log := t.log }) ∧
  (∀ (s : State) (h : OpHdr) (row layer segs opc : Nat) (c : OpHdr → Instr), s.mayIssue h .move opc = true →
    s.findTrack (s.handleOf h) = none → (∀ c, c ∈ s.kv.copies → c.op ≠ s.nextOp) →
    (c, opc) ∈ ([(.append, 3), (fun h => .kvWrite h row layer segs, 4), (.close, 5), (.closePublish, 7)] : List ((OpHdr → Instr) × Nat)) →
    ∃ t o, exec (c h) s = .next t ∧ s.issued t h .move opc o ∧ o.fault = 0 ∧ o.note = 0x2905#16 ∧ o.out = [] ∧
      (s.bump 0x270034 1).issueFrame t h) ∧
  (∀ (s : State) (h : OpHdr) (p : AttnParams) (n : Nat) (w : Region), s.mayIssue h .matrix 1 = true →
    State.absorbCode (s.storedFmt h) h p = none → s.findTrack (s.handleOf h) = some n → h.writes = [w] →
    (s.readFault (s.track n) (s.geomOf (s.track n).recipe) p.stackLayer p.segs (State.keysOf (s.track n) p.row) p.expect
      (State.pagesSpan 0 (State.keysOf (s.track n) p.row)) = none →
      ∃ t o bs, exec (.attnAbsorb h p) s = .next t ∧ s.issued t h .matrix 1 o ∧ o.fault = 0 ∧ o.out = [(w, bs)] ∧
        (h.ofmt = .fp32 → bs.length = 256 * p.segs * p.heads) ∧ s.issueFrame t h) ∧
    (∀ r, s.readFault (s.track n) (s.geomOf (s.track n).recipe) p.stackLayer p.segs (State.keysOf (s.track n) p.row) p.expect
      (State.pagesSpan 0 (State.keysOf (s.track n) p.row)) = some r →
      ∃ t o, exec (.attnAbsorb h p) s = .next t ∧ s.issued t h .matrix 1 o ∧ o.fault = r.fault ∧ o.detail = r.detail ∧ o.out = [] ∧
        s.issueFrame t h)) ∧
  (∀ (s : State) (h : OpHdr) (p : ExpandParams) (n : Nat) (w1 : Region) (ws : List Region), s.mayIssue h .matrix 2 = true →
    State.expandCode (s.storedFmt h) h p = none → s.findTrack (s.handleOf h) = some n → h.writes = w1 :: ws →
    s.readFault (s.track n) (s.geomOf (s.track n).recipe) p.stackLayer p.segs (State.keysOf (s.track n) p.row) p.expect
      (State.pagesSpan 0 (State.keysOf (s.track n) p.row)) = none →
    (∀ w2, h.ofmt = .int8 → ws = [w2] →
      ∃ t o b1 b2, exec (.kvExpand h p) s = .next t ∧ s.issued t h .matrix 2 o ∧ o.fault = 0 ∧ o.out = [(w1, b1), (w2, b2)] ∧
        b1.length = State.keysOf (s.track n) p.row * p.outs ∧ b2.length = 4 * State.keysOf (s.track n) p.row ∧ s.issueFrame t h) ∧
    (h.ofmt = .bf16 →
      ∃ t o b1, exec (.kvExpand h p) s = .next t ∧ s.issued t h .matrix 2 o ∧ o.fault = 0 ∧ o.out = [(w1, b1)] ∧
        b1.length = 2 * (State.keysOf (s.track n) p.row * p.outs) ∧ s.issueFrame t h)) ∧
  (∀ (s : State) (h : OpHdr) (p : AttnParams) (q : ExpandParams), s.findTrack (s.handleOf h) = none →
    (s.mayIssue h .matrix 1 = true → State.absorbCode (s.storedFmt h) h p = none →
      ∃ t o, exec (.attnAbsorb h p) s = .next t ∧ s.issued t h .matrix 1 o ∧ o.fault = 0 ∧ o.note = 0x2905#16 ∧ o.out = [] ∧
        (s.bump 0x270034 1).issueFrame t h) ∧
    (s.mayIssue h .matrix 2 = true → State.expandCode (s.storedFmt h) h q = none → h.ofmt = .int8 →
      ∃ t o, exec (.kvExpand h q) s = .next t ∧ s.issued t h .matrix 2 o ∧ o.fault = 0 ∧ o.note = 0x2905#16 ∧ o.out = [] ∧
        (s.bump 0x270034 1).issueFrame t h) ∧
    ((State.absorbCode (s.storedFmt h) h p).isSome = true → exec (.attnAbsorb h p) s = .next s) ∧
    ((State.expandCode (s.storedFmt h) h q).isSome = true → exec (.kvExpand h q) s = .next s))

/-- Culvert operations. What rests on choices and readings of the model: the assumption log, 94, 95. -/
def Obligations.CulvertOperationsWithinTheModule : Prop :=
  (∀ (s : State) (h : OpHdr) (tg : PutTarget) (sg : Option SignalArg) (r w : Region), s.mayIssue h .culvert 0 = true → putOk h = true →
    sigOk h sg = true → s.sigReach h sg = true → h.reads = [r] → h.writes = [w] → w.space ≠ .remote → (w.space ≠ .bonded ∨ w.addr < portBase) →
    ∃ t o, exec (.put h tg sg) s = .next t ∧ s.issued t h .culvert 0 o ∧ o.fault = 0 ∧ o.out = [(w, s.opRead h 0)] ∧
      o.sig = sg ∧ o.remote = false ∧ s.issueFrame t h) ∧
  (∀ (s : State) (h : OpHdr) (sg : Option SignalArg) (r w : Region), s.mayIssue h .culvert 1 = true → getOk h = true →
    sigOk h sg = true → s.sigReach h sg = true → h.reads = [r] → h.writes = [w] → r.space ≠ .remote → (r.space ≠ .bonded ∨ r.addr < portBase) →
    ∃ t o, exec (.get h sg) s = .next t ∧ s.issued t h .culvert 1 o ∧ o.fault = 0 ∧ o.out = [(w, s.opRead h 0)] ∧
      o.sig = sg ∧ o.remote = false ∧ s.issueFrame t h) ∧
  (∀ (s : State) (h : OpHdr) (tg : PutTarget) (w : Region), s.mayIssue h .culvert 0 = true → putOk h = true → h.sig = false →
    h.writes = [w] → w.space = .remote → s.participates (State.memberOf w) = false → s.kindTwo h = false →
    ∃ t o, exec (.put h tg none) s = .next t ∧ s.issued t h .culvert 0 o ∧ o.fault = 0x7042#16 ∧ o.out = [] ∧
      o.remote = false ∧ s.issueFrame t h) ∧
  (∀ (s : State) (h : OpHdr) (k : AddWidth) (v : DWord) (w : Region) (rs : List Region), s.mayIssue h .culvert 2 = true → addOk h k = true → h.sig = false →
    h.writes = w :: rs → w.space ≠ .remote → s.mayWrite h.eng h.ctx w = true →
    (∀ x, x ∈ s.ops → x.id ≠ s.nextOp) →
    ∃ t o b, exec (.culvertAdd h k v none) s = .next t ∧ s.issued t h .culvert 2 o ∧ o.fault = 0 ∧
      s.readRegion h.eng h.ctx none w = some b ∧ o.out = rs.map (fun r => (r, leBytes 8 (leNat b))) ∧
      (t.readRegion h.eng h.ctx none w).map leNat = some (addWord k (leNat b) v.toNat) ∧
      (k = .int64 → addWord k (leNat b) v.toNat = (leNat b + v.toNat) % 2 ^ 64) ∧
      (k = .int32 → addWord k (leNat b) v.toNat = leNat b / 2 ^ 32 * 2 ^ 32 + (leNat b + v.toNat) % 2 ^ 32) ∧
      (t.engine h.eng).task.map (·.atomic) = some true ∧
      s.issueFrame { t with ctxs := s.ctxs, pool := s.pool, bonded := s.bonded, ecc := s.ecc } h) ∧
  (∀ (s : State) (h : OpHdr) (cmp swap : DWord) (w r : Region), s.mayIssue h .culvert 3 = true → atomicOk h true = true →
    h.vary = true → h.sig = false → h.writes = [w, r] → w.space ≠ .remote → s.mayWrite h.eng h.ctx w = true →
    (∀ x, x ∈ s.ops → x.id ≠ s.nextOp) →
    ∃ t o b, exec (.cas h cmp swap none) s = .next t ∧ s.issued t h .culvert 3 o ∧ o.fault = 0 ∧
      s.readRegion h.eng h.ctx none w = some b ∧ o.out = [(r, leBytes 8 (leNat b))] ∧
      (t.readRegion h.eng h.ctx none w).map leNat = some (if leNat b = cmp.toNat then swap.toNat else leNat b) ∧
      (t.engine h.eng).task.map (·.atomic) = some true ∧
      s.issueFrame { t with ctxs := s.ctxs, pool := s.pool, bonded := s.bonded, ecc := s.ecc } h) ∧
  (∀ (s : State) (h : OpHdr) (sg : SignalArg), s.mayIssue { h with sig := true } .culvert 4 = true → signalOk h sg = true →
    sg.word.space ≠ .remote → s.mayWrite h.eng h.ctx { sg.word with len := 8 } = true →
    ∃ t o, exec (.signal h sg) s = .next t ∧ s.issued t { h with sig := true } .culvert 4 o ∧ o.fault = 0 ∧ o.out = [] ∧
      o.sig = some sg ∧ o.remote = false ∧ s.issueFrame t h) ∧
  (∀ (s : State) (id : Nat) (o : OpEntry) (sg : SignalArg) (a : Nat), s.op id = some o → o.cls = .culvert → o.opc = 4 →
    o.sig = some sg → o.complete = false → o.met = true → o.remote = false → o.fault = 0 → o.spec = false → o.out = [] →
    o.counts = {} → o.tally = [] → o.dig = false → o.block = none → o.word = none → sg.word.space = .pool →
    s.localAt (s.polderOf o.ctx) { sg.word with len := 8 } = some (true, a) →
    ∃ t, exec (.opComplete id) s = .next t ∧ t.op id = some { o with complete := true, reader := none } ∧
      leNat (readBytes t.pool a 8) = max (leNat (readBytes s.pool a 8)) sg.v.toNat ∧
      (∀ b, (b < a ∨ a + 8 ≤ b) → byteAt t.pool b = byteAt s.pool b) ∧
      t.notified = s.notified ++ (sg.notify.toList.map (·.val)) ∧
      (∀ e, State.unwaited (t.engine e) = State.unwaited (s.engine e)) ∧
      t = { s with ops := t.ops, pool := t.pool, ctxs := t.ctxs, notified := t.notified, engines := t.engines, ecc := t.ecc }) ∧
  (∀ (s : State) (h : OpHdr) (tg : PutTarget) (sg : Option SignalArg) (x : SignalArg) (v w : DWord) (k : AddWidth),
    (putOk h = false ∨ sigOk h sg = false → exec (.put h tg sg) s = .next s) ∧
    (getOk h = false ∨ sigOk h sg = false → exec (.get h sg) s = .next s) ∧
    (addOk h k = false ∨ sigOk h sg = false → exec (.culvertAdd h k v sg) s = .next s) ∧
    ((atomicOk h true = false ∨ h.vary = false ∨ sigOk h sg = false) → exec (.cas h v w sg) s = .next s) ∧
    (signalOk h x = false → exec (.signal h x) s = .next s))

/-- Batches and deadlines. What rests on choices and readings of the model: the assumption log, 17, 86, 89, 90. -/
def Obligations.BatchesAndDeadlines : Prop :=
  (∀ (s : State) (g : BitVec 18) (b fill size : Nat), fill = (Config.batchShape g.toNat).2 % 16 + 1 →
    size = (Config.batchShape g.toNat).1 + 1 →
    (b % fill ≠ 0 → exec (.batchForm g b) s = .next s) ∧
    (b % fill = 0 → (∀ x, x ∈ s.vu.batches → x.group ≠ g ∨ x.block ≠ b) →
      ∃ t l, exec (.batchForm g b) s = .next t ∧ t.vu = { s.vu with batches := s.vu.batches ++ l } ∧
        (∀ x, x ∈ l → x.group = g ∧ x.block = b ∧ x.members.length = size ∧
          ∀ m, some m ∈ x.members → b + 1 - fill ≤ m.last ∧ m.last ≤ b) ∧
        (l ≠ [] → exec (.batchForm g b) t = .next t) ∧ t = { s with vu := t.vu })) ∧
  (∀ (s : State) (k : Fin 18) (slot : Nat) (p : Part), s.findPart k slot = some p →
    (∀ x ∈ s.parts, x.lane = k.val → x.slot = slot → x.proxy = none) →
    ((p.sealed = true ∨ s.vuOn = false ∨ s.axisFault (s.bindAxis k) = true ∨
      State.beyond (s.bindDir k) (s.posAt (s.bindAxis k) s.time.t) p.deadline = false) → exec (.deadline k slot) s = .next s) ∧
    (p.sealed = false → s.vuOn = true → s.axisFault (s.bindAxis k) = false →
      State.beyond (s.bindDir k) (s.posAt (s.bindAxis k) s.time.t) p.deadline = true →
      ∃ t, exec (.deadline k slot) s = .next t ∧
        (∃ q, q ∈ t.parts ∧ q.lane = k.val ∧ q.slot = slot ∧ q.sealed = true ∧ q.late = true) ∧
        t.lastCode 0x280004 = 0x4C01#16 ∧ t.axes = s.axes ∧ t.time = s.time ∧ t.sluices = s.sluices ∧ t.regs = s.regs ∧
        t.engines = s.engines ∧ t.pending = s.pending))

/-- The Calendar. What rests on choices and readings of the model: the assumption log, 87, 123. -/
def Obligations.CalendarEntriesWrittenAndFired : Prop :=
  (∀ (s : State) (d : DescHdr) (e : CalWord) (n : Nat), s.serves = true → d.fn.val = 0 → n = e.axis.val →
    (s.calRefusal e = none → (s.calOf n).length < 4096 →
      ∃ t, exec (.calWrite d e) s = .next t ∧
        t.calOf n = s.calOf n ++ [{ pos := e.pos, kind := State.calKindOf e.kind, axis := n, dir := e.dir, tag := e.tag,
                                    operand := e.operand, late := State.beyond e.dir (s.posKnown n) e.pos }] ∧
        (∀ m, m ≠ n → t.calOf m = s.calOf m) ∧ t = { s with cal := t.cal, log := t.log }) ∧
    (s.calRefusal e = none → 4096 ≤ (s.calOf n).length →
      ∃ t, exec (.calWrite d e) s = .next t ∧ t.counter 0x280038 = satAdd (s.counter 0x280038) 1 ∧
        t.lastCode 0x280004 = 0x3C01#16 ∧ t = { s with counters := t.counters, log := t.log }) ∧
    (s.calRefusal e ≠ none → ∃ t, exec (.calWrite d e) s = .next t ∧ t = { s with log := t.log })) ∧
  (∀ (s : State) (d : DescHdr) (e : CalWord), s.serves = true → d.fn.val ≠ 0 →
    ∃ t, exec (.calWrite d e) s = .next t ∧ t = { s with log := t.log }) ∧
  (∀ (c : Fin 4 → Nat → Instr) (k : CalKind), (c, k) ∈ ([(.calOnFire, .on), (.calOffFire, .off), (.calSwapFire, .swap),
      (.calChangeoverFire, .changeover), (.calProveFire, .prove), (.calMarkFire, .mark)] : List ((Fin 4 → Nat → Instr) × CalKind)) →
    ∀ (s : State) (n : Fin 4) (i : Nat), (∀ e, (s.calOf n)[i]? = some e → e.kind ≠ k ∨ s.vuOn = false ∨ s.axisFault n = true ∨ State.beyond e.dir (s.posKnown n) e.pos = false) →
      exec (c n i) s = .next s) ∧
  (∀ (s : State) (n : Fin 4) (i : Nat) (e : CalEntry), s.vuOn = true → s.axisFault n = false → (s.calOf n)[i]? = some e →
    State.beyond e.dir (s.posKnown n) e.pos = true →
    (e.kind = .on →
      ∃ t, exec (.calOnFire n i) s = .next t ∧ t.calOf n = (s.calOf n).eraseIdx i ∧
        t.counter 0x28002C = satAdd (s.counter 0x28002C) 1 ∧
        (e.late = true → t.counter 0x280030 = satAdd (s.counter 0x280030) 1 ∧ t.codeWindow 0x4C02#16 0x07 (State.calInst n e) = true) ∧
        (∀ c, (t.chan c).hold = if c ∈ State.operandChans e.operand ∧ (s.chan c).hold ≠ 65535 then (s.chan c).hold + 1 else (s.chan c).hold) ∧
        (∀ m, m ≠ n.val → t.calOf m = s.calOf m) ∧
        t = { s with cal := t.cal, counters := t.counters, chans := t.chans, fs := t.fs, log := t.log }) ∧
    (e.kind = .off →
      ∃ t, exec (.calOffFire n i) s = .next t ∧ t.calOf n = (s.calOf n).eraseIdx i ∧
        t.counter 0x28002C = satAdd (s.counter 0x28002C) 1 ∧
        (∀ c, (t.chan c).hold = if c ∈ State.operandChans e.operand then (s.chan c).hold - 1 else (s.chan c).hold) ∧
        (∀ m, m ≠ n.val → t.calOf m = s.calOf m) ∧
        t = { s with cal := t.cal, counters := t.counters, chans := t.chans, fs := t.fs, log := t.log }) ∧
    (∀ j, e.kind = .swap → j = 4 * bits e.operand 1 0 + bits e.operand 3 2 →
      ∃ t, exec (.calSwapFire n i) s = .next t ∧ t.calOf n = (s.calOf n).eraseIdx i ∧
        ((s.slot j).pending = true → (s.slot j).whenSwap = 2 → t.slot j = { s.slot j with fired := some (e.axis, e.pos, e.dir) }) ∧
        (((s.slot j).pending = false ∨ (s.slot j).whenSwap ≠ 2) → t.slots = s.slots ∧
          t.lastCode (0x250000 + 0x400 * (j / 4)) = 0x1505#16) ∧
        (∀ m, m ≠ j → t.slot m = s.slot m) ∧
        t = { s with cal := t.cal, counters := t.counters, slots := t.slots, fs := t.fs, log := t.log }) ∧
    (∀ j, e.kind = .changeover → j = bits e.operand 4 0 →
      ∃ t, exec (.calChangeoverFire n i) s = .next t ∧ t.calOf n = (s.calOf n).eraseIdx i ∧
        (∀ x, tget none s.changes j = some x → x.when_ = 2 → x.fired = none →
          tget none t.changes j = some { x with fired := some (e.axis, e.pos, e.dir) }) ∧
        (∀ m, m ≠ j → tget none t.changes m = tget none s.changes m) ∧
        t = { s with cal := t.cal, counters := t.counters, changes := t.changes, fs := t.fs, log := t.log }) ∧
    (e.kind = .mark →
      ∃ t, exec (.calMarkFire n i) s = .next t ∧ t.calOf n = (s.calOf n).eraseIdx i ∧
        t.counter 0x28002C = satAdd (s.counter 0x28002C) 1 ∧
        t = { s with cal := t.cal, counters := t.counters, fs := t.fs, log := t.log }) ∧
    (∀ r, e.kind = .prove → r = bits e.operand 3 0 →
      ((s.proving r).on = false ∨ s.vig.outOfService = true) →
      ∃ t, exec (.calProveFire n i) s = .next t ∧ t.calOf n = (s.calOf n).eraseIdx i ∧
        t = { s with cal := t.cal, counters := t.counters, fs := t.fs, log := t.log }) ∧
    (∀ r, e.kind = .prove → r = bits e.operand 3 0 → (s.proving r).on = true → s.vig.outOfService = false →
      (∃ x, x ∈ s.calOf (s.proving r).axis ∧ x.kind = .prove ∧ x.tag = State.proveTag r ∧ ((s.proving r).axis = n.val → x ∈ (s.calOf n).eraseIdx i)) →
      s.now - (s.proving r).minute < 60000000000 →
      (((s.proving r).inMinute < (s.proving r).perMin ∨ s.shedAdmits = true) → s.lastPiped (s.proving r).source = none →
        ∃ t, exec (.calProveFire n i) s = .next t ∧ t.calOf n = (s.calOf n).eraseIdx i ∧
          (t.proving r).inMinute = (s.proving r).inMinute + 1 ∧
          (t.proving r).fired = (s.proving r).fired ++ [(e.axis, e.pos, e.dir)] ∧
          t.counter 0x280020 = satAdd (s.counter 0x280020) 1 ∧
          t = { s with cal := t.cal, counters := t.counters, provings := t.provings, fs := t.fs, log := t.log }) ∧
      ((s.proving r).perMin ≤ (s.proving r).inMinute → s.shedAdmits = false →
        ∃ t, exec (.calProveFire n i) s = .next t ∧ t.calOf n = (s.calOf n).eraseIdx i ∧
          t.counter 0x280028 = satAdd (s.counter 0x280028) 1 ∧
          t = { s with cal := t.cal, counters := t.counters, provings := t.provings, fs := t.fs, log := t.log })))

/-- Fail-safe and proving. What rests on choices and readings of the model: the assumption log, 86, 99, 117, 123. -/
def Obligations.FailSafeHeartbeatAndProving : Prop :=
  (∀ (s : State), ∃ t, exec .heartbeatLoss s = .next t ∧ t.fs.heartbeat = true ∧ t.fs.beating = false ∧ t.cal = [] ∧
      t.chans = [] ∧ (∀ c, t.engaged c = true ∧ (t.chan c).hold = 0) ∧ t.lastCode 0x280004 = 0x5C01#16 ∧
      t.fs.command = s.fs.command ∧ t.fs.axes = s.fs.axes ∧ t.fs.full = [] ∧
      (s.vu.running = false → t.vig = s.vig ∧ t.lead = s.lead) ∧
      (s.vu.running = true → s.freeze = false → s.vig.procFrom = none → s.vig.coldFrom = none → s.vig.halted = false →
        s.vig.orders = [] → t.vig = { s.vig with orders := [(.processor, true)] } ∧ t.lead = s.lead) ∧
      t = { s with fs := t.fs, cal := t.cal, chans := t.chans, log := t.log, vig := t.vig, lead := t.lead }) ∧
  (∀ (s : State) (v : Word), s.answers 0 0x284000 = true →
    (bit v 31 = true → ∃ t, exec (.engage v) s = .next t ∧ t.fs.command = true ∧ (∀ c, t.engaged c = true) ∧
      t.lastCode 0x280004 = 0x5C01#16 ∧ t.fs.heartbeat = s.fs.heartbeat ∧ t = { s with fs := t.fs, log := t.log }) ∧
    (bit v 31 = false → exec (.engage v) s = .next s) ∧
    (bit v 30 = true → s.fs.beating = true → 1000000 ≤ s.now - s.fs.beatSince →
      ∃ t, exec (.release v) s = .next t ∧ t.fs.heartbeat = false ∧ t.fs.command = false ∧ t.fs.axes = s.fs.axes ∧
        t.fs.full = s.fs.full ∧ t = { s with fs := t.fs }) ∧
    (bit v 30 = true → (s.fs.beating = false ∨ s.now - s.fs.beatSince < 1000000) →
      ∃ t, exec (.release v) s = .next t ∧ t.fs = { s.fs with command := false } ∧
        (s.fs.heartbeat = true → t.lastCode 0x280004 = 0x1C04#16) ∧ (s.fs.heartbeat = false → t.log = s.log) ∧
        t = { s with fs := t.fs, log := t.log }) ∧
    (bit v 30 = false → exec (.release v) s = .next s)) ∧
  (∀ (s : State) (v : Word), s.answers 0 0x280000 = true →
    ∃ t, exec (.vuEnable v) s = .next t ∧ t.flag 0x280000 31 = bit v 31 ∧ t.vu = { s.vu with running := bit v 31 } ∧
      t.fs.beating = bit v 31 ∧ (bit v 31 = true → s.fs.beating = false → t.fs.beatSince = s.now) ∧
      (s.fs.beating = true → t.fs.beatSince = s.fs.beatSince) ∧ (∀ o, o ≠ 0x280000 → t.reg o = s.reg o) ∧
      t = { s with regs := t.regs, vu := t.vu, fs := t.fs }) ∧
  (∀ (s : State) (r : Fin 16) (g : Proving), g = s.proving r →
    ∃ t, exec (.proveDeadline r) s = .next t ∧
      (t.proving r).runs = g.runs.filter (fun u => !State.beyond g.dir (s.posAt g.axis s.time.t) u.end_) ∧
      (∀ m, m ≠ r.val → t.proving m = s.proving m) ∧
      ((∀ u, u ∈ g.runs → State.beyond g.dir (s.posAt g.axis s.time.t) u.end_ = true → u.proved = true) →
        t.counter 0x280024 = s.counter 0x280024) ∧
      ((∃ u, u ∈ g.runs ∧ State.beyond g.dir (s.posAt g.axis s.time.t) u.end_ = true ∧ u.proved = false) →
        t.lastCode 0x280004 = 0x2C02#16 ∧ t.codeWindow 0x2C02#16 0x07 (0x20 + r.val) = true) ∧
      t = { s with provings := t.provings, counters := t.counters, log := t.log })

/-- The field section. What rests on choices and readings of the model: the assumption log, 36, 87, 88. -/
def Obligations.FieldSectionInputsOutputsAndBanks : Prop :=
  (∀ (s : State) (i : Fin 16) (level : Bool), s.variantN = false → s.htlUsed i = false → (s.di i).out ≠ level →
    ∃ t, exec (.diFilteredEdge i level) s = .next t ∧ (t.di i).out = level ∧ (∀ m, m ≠ i.val → t.di m = s.di m) ∧
      (bit (s.reg (State.diOff i)) 31 = true → (if level then bit (s.reg (State.diOff i)) 28 else bit (s.reg (State.diOff i)) 29) = true →
        (s.field.fifo.length < 256 → t.field = { s.field with fifo := s.field.fifo ++ [s.diEntry i level] } ∧ t.log = s.log ∧ t.counters = s.counters) ∧
        (256 ≤ s.field.fifo.length → t.field = s.field ∧ t.counter 0x290014 = satAdd (s.counter 0x290014) 1 ∧
          t.lastCode 0x290000 = 0x3D01#16)) ∧
      (bit (s.reg (State.diOff i)) 31 = false → t.field = s.field ∧ t.log = s.log) ∧
      t = { s with dis := t.dis, field := t.field, counters := t.counters, log := t.log }) ∧
  (∀ (s : State) (i : Fin 16) (v : Word), s.answers 0 (State.diOff i) = true → s.htlUsed i = false →
    ∃ t, exec (.diCfgWrite i v) s = .next t ∧ t.di i = { s.di i with out := false } ∧
      t.fld (State.diOff i) 15 0 = max 1 (bits v 15 0) ∧ t.flag (State.diOff i) 31 = bit v 31 ∧
      (∀ o, o ≠ State.diOff i → o ≠ 0x200010 → t.reg o = s.reg o) ∧
      (∀ m, m ≠ i.val → t.di m = s.di m) ∧ t.field = s.field ∧
      t = { s with regs := t.regs, dis := t.dis, counters := t.counters, log := t.log }) ∧
  (∀ (s : State) (v : Word), s.answers 0 0x290010 = true → bit v 0 = true →
    ∃ t, exec (.diEvtPop v) s = .next t ∧ t.field = { s.field with fifo := s.field.fifo.drop 1 } ∧ t = { s with field := t.field }) ∧
  (∀ (s : State) (mV : Half), s.variantN = false →
    ∃ t, exec (.fieldSupplySample mV) s = .next t ∧ t.field.supply = mV.toNat ∧
      t.field.ok = decide (19200 ≤ mV.toNat ∧ mV.toNat ≤ 30000) ∧ t.field.fifo = s.field.fifo ∧
      (33000 < mV.toNat → t.field.uv = true ∧ (s.field.uv = false → t.lastCode 0x290000 = 0x5D04#16)) ∧
      (∀ a, s.field.goodSince = some a → 19200 ≤ mV.toNat → mV.toNat ≤ 30000 → 10000000 ≤ s.now - a → t.field.uv = false) ∧
      t = { s with field := t.field, log := t.log }) ∧
  (∀ (s : State) (n : Fin 16), s.variantN = false → s.doLevel n = true → s.leadOf n = n.val →
    ∃ t, exec (.doThermalShutdown n) s = .next t ∧ (t.doPin n).tripped = true ∧ t.doLevel n = false ∧
      (t.doPin n).tripTimes = s.now :: (s.doPin n).tripTimes.filter (fun a => decide (s.now - a < 1000000000)) ∧
      (t.doPin n).latched = ((s.doPin n).latched || decide (3 ≤ ((s.doPin n).tripTimes.filter (fun a => decide (s.now - a < 1000000000))).length + 1)) ∧
      t.counter 0x290218 = satAdd (s.counter 0x290218) 1 ∧ t.codeWindow 0x5D01#16 0x08 (0x10 + n.val) = true ∧
      (∀ m, m ≠ n.val → t.doPin m = s.doPin m) ∧ t = { s with dos := t.dos, counters := t.counters, log := t.log }) ∧
  (∀ (s : State) (n : Fin 16), s.variantN = false →
    ∃ t, exec (.doThermalRestart n) s = .next t ∧ t.doPin n = { s.doPin n with tripped := false } ∧
      (∀ m, m ≠ n.val → t.doPin m = s.doPin m) ∧ t = { s with dos := t.dos }) ∧
  (∀ (s : State) (v : Word), s.answers 0 0x290210 = true →
    ∃ t, exec (.doClear v) s = .next t ∧
      (∀ n, t.doPin n = if n < 16 ∧ bit v n = true then { s.doPin n with latched := false, tripTimes := [] } else s.doPin n) ∧
      t = { s with dos := t.dos }) ∧
  (∀ (s : State) (n : Fin 16), s.variantN = false → s.doQuiet n = false →
    ∃ t, exec (.doMismatch n) s = .next t ∧ t.doPin n = { s.doPin n with readback := some (!s.doLevel n) } ∧
      t.flag 0x290214 n = true ∧ t.lastCode 0x290000 = 0x5D03#16 ∧ (∀ m, m ≠ n.val → t.doPin m = s.doPin m) ∧
      (∀ o, o ≠ 0x290214 → t.reg o = s.reg o) ∧ t = { s with dos := t.dos, regs := t.regs, log := t.log }) ∧
  (∀ (s : State), s.variantN = false →
    (s.now - s.field.frameAt < 2000 → exec .valveFrame s = .next s) ∧
    (2000 ≤ s.now - s.field.frameAt →
      ∃ t, exec .valveFrame s = .next t ∧ t.field.frameAt = s.now ∧ t.field.frameSeq = s.field.frameSeq + 1 ∧
        (∀ b, b < 2 → s.vbOn b = true → ∃ body, body.length = 18 ∧
          (t.bank b).frame = body ++ [BitVec.ofNat 8 (crc16 body / 256), BitVec.ofNat 8 (crc16 body % 256)] ∧
          body.head? = some s.field.frameSeq ∧ (t.bank b).awaiting = some s.field.frameSeq ∧
          t.counter (State.vbOff b + 0x20) = satAdd (s.counter (State.vbOff b + 0x20)) 1) ∧
        (∀ b, b < 2 → s.vbOn b = false → t.bank b = s.bank b) ∧
        t = { s with banks := t.banks, counters := t.counters, field := t.field })) ∧
  (∀ (s : State) (b : Fin 2) (f : ValveStatus) (q : Byte), s.variantN = false → s.statusDue b = some q → f.crcOk = true → f.seq = q →
    ∃ t, exec (.valveStatusFrame b f) s = .next t ∧ (t.bank b).link = true ∧ (t.bank b).fails = 0 ∧ (t.bank b).awaiting = none ∧
      (t.bank b).echo = q ∧ (t.bank b).phase = f.phase ∧ (t.bank b).faults = f.faults ∧
      (f.cmdErr = true → t.counter (State.vbOff b + 0x34) = satAdd (s.counter (State.vbOff b + 0x34)) 1 ∧
        t.codeWindow 0x2D02#16 0x08 (0x20 + b.val) = true) ∧
      ((f.supply = true ∨ f.overtemp = true ∨ f.safe = true ∨ f.faults &&& ~~~(s.bank b).faults ≠ 0) →
        t.lastCode (0x290404 + 0x100 * b.val) = 0x5D06#16) ∧
      (∀ m, m ≠ b.val → t.bank m = s.bank m) ∧ t = { s with banks := t.banks, counters := t.counters, log := t.log }) ∧
  (∀ (s : State) (b : Fin 2) (f : ValveStatus) (q : Byte) (d : Nat), s.variantN = false → s.statusDue b = some q →
    (f.crcOk = false ∧ d = 0x28 ∨ f.crcOk = true ∧ f.seq ≠ q ∧ d = 0x30) →
    ∃ t, exec (.valveStatusFrame b f) s = .next t ∧ t.counter (State.vbOff b + d) = satAdd (s.counter (State.vbOff b + d)) 1 ∧
      (t.bank b).faults = (s.bank b).faults ∧ (t.bank b).fails = (s.bank b).fails + 1 ∧ (t.bank b).awaiting = none ∧
      t.codeWindow 0x2D01#16 0x08 (0x20 + b.val) = true ∧ (∀ m, m ≠ b.val → t.bank m = s.bank m) ∧
      t = { s with banks := t.banks, counters := t.counters, log := t.log }) ∧
  (∀ (s : State) (b : Fin 2) (q : Byte), s.variantN = false → s.statusDue b = some q →
    ∃ t, exec (.valveStatusMiss b) s = .next t ∧ t.counter (State.vbOff b + 0x2C) = satAdd (s.counter (State.vbOff b + 0x2C)) 1 ∧
      (t.bank b).fails = (s.bank b).fails + 1 ∧ (t.bank b).awaiting = none ∧
      ((s.bank b).link = true → s.fld (State.vbOff b) 15 8 ≤ (s.bank b).fails + 1 →
        (t.bank b).link = false ∧ t.lastCode (0x290404 + 0x100 * b.val) = 0x5D05#16) ∧
      (∀ m, m ≠ b.val → t.bank m = s.bank m) ∧ t = { s with banks := t.banks, counters := t.counters, log := t.log }) ∧
  (∀ (s : State) (i : Fin 16) (b : Fin 2) (level : Bool) (mV : Half) (f : ValveStatus) (c : Instr), s.variantN = true →
    c ∈ [Instr.diFilteredEdge i level, .fieldSupplySample mV, .doThermalShutdown i, .doThermalRestart i, .doMismatch i, .valveFrame,
      .valveStatusFrame b f, .valveStatusMiss b] → exec c s = .next s)

/-- The rewind buffer and the archive of rejects. What rests on choices and readings of the model: the assumption log, 27,
91, 121. -/
def Obligations.RewindAndArchive : Prop :=
  (∀ (s u : State) (v : Word), s.answers 0 0x2A0000 = true → s.sealed = false → s.rewOn = false → bit v 31 = true →
    u = s.writeFields 0x2A0000 0x09 0x71 v →
    (u.exclusiveMeets 2 u.rewBase u.rewBytes = none → u.exclusiveMeets 3 u.idxBase (u.idxCount * 1216) = none →
      ∃ t, exec (.rewindEnable v) s = .next t ∧ t.rewOn = true ∧ t.fld 0x2A0000 17 0 = bits v 17 0 ∧
        (∀ o, o ≠ 0x2A0000 → t.reg o = s.reg o) ∧ t = { s with regs := t.regs, log := t.log }) ∧
    ((u.exclusiveMeets 2 u.rewBase u.rewBytes ≠ none ∨ u.exclusiveMeets 3 u.idxBase (u.idxCount * 1216) ≠ none) →
      ∃ t, exec (.rewindEnable v) s = .next t ∧ t.rewOn = false ∧ t.lastCode 0x2A0028 = 0x1E01#16 ∧
        (∀ o, o ≠ 0x2A0000 → t.reg o = s.reg o) ∧ t = { s with regs := t.regs, log := t.log })) ∧
  (∀ (s : State) (v : Word), s.answers 0 0x2A0000 = true → s.sealed = false → s.rewOn = true → bit v 31 = false →
    (s.rewindWriteIgnored 0x2A0000 v = false →
      ∃ t, exec (.rewindDisable v) s = .next t ∧ t.rewOn = false ∧ t.fld 0x2A0000 17 0 = s.fld 0x2A0000 17 0 ∧
        t.fld 0x2A0000 22 18 = s.fld 0x2A0000 22 18 ∧ (∀ o, o ≠ 0x2A0000 → t.reg o = s.reg o) ∧
        t = { s with regs := t.regs, log := t.log }) ∧
    (s.rewindWriteIgnored 0x2A0000 v = true →
      ∃ t, exec (.rewindDisable v) s = .next t ∧ t.lastCode 0x2A0028 = 0x1E01#16 ∧ t = { s with log := t.log })) ∧
  (∀ (s : State) (j : ArchJob) (rest : List ArchJob), s.serves = true → s.archive.jobs = j :: rest → j.started = false →
    s.flag 0x2A0100 31 = true → s.jobReady j = true → s.deferAdmits = true →
    ∃ t e, exec .archiveJobStart s = .next t ∧ t.archive = { s.archive with jobs := e :: rest } ∧ e.started = true ∧
      e.entries = (s.archBlocks j (j.b2 + 1 - j.b1) j.b1).map (·.1) ∧
      e.partial_ = decide (e.entries.length < j.b2 + 1 - j.b1) ∧ e.record = j.record ∧ e.b1 = j.b1 ∧ e.b2 = j.b2 ∧
      (e.partial_ = true → t.counter 0x2A0130 = satAdd (s.counter 0x2A0130) 1 ∧ t.lastCode 0x2A0028 = 0x4E01#16) ∧
      (e.partial_ = false → t.log = s.log ∧ t.counters = s.counters) ∧
      t = { s with archive := t.archive, counters := t.counters, log := t.log }) ∧
  (∀ (s : State) (j : ArchJob) (rest : List ArchJob), s.archive.jobs = j :: rest →
    ((j.started = true ∨ s.flag 0x2A0100 31 = false ∨ s.jobReady j = false) → exec .archiveJobStart s = .next s) ∧
    (j.started = false → exec .archiveJobEnd s = .next s)) ∧
  (∀ (s : State) (j : ArchJob) (rest : List ArchJob) (n : Nat), s.archive.jobs = j :: rest → j.started = true →
    n = (s.archEntry j).length → n % 256 = 0 ∧
    (s.archive.wpos + n - s.archive.rpos ≤ s.archBytes →
      ∃ t, exec .archiveJobEnd s = .next t ∧ t.archive = { s.archive with
          jobs := rest, wpos := s.archive.wpos + n, ends := s.archive.ends ++ [s.archive.wpos + n] } ∧
        t.counter 0x2A0128 = satAdd (s.counter 0x2A0128) 1 ∧
        (∀ a, (a < s.archBase ∨ s.archBase + s.archBytes ≤ a) → n ≤ s.archBytes → byteAt t.bonded a = byteAt s.bonded a) ∧
        t = { s with archive := t.archive, bonded := t.bonded, counters := t.counters }) ∧
    (s.archBytes < s.archive.wpos + n - s.archive.rpos →
      ∃ t, exec .archiveJobEnd s = .next t ∧ t.archive = { s.archive with jobs := rest } ∧
        t.counter 0x2A012C = satAdd (s.counter 0x2A012C) 1 ∧ t.lastCode 0x2A0028 = 0x3E03#16 ∧
        t = { s with archive := t.archive, counters := t.counters, log := t.log })) ∧
  (∀ (s : State) (hi lo : Word) (x : Nat), s.answers 0 0x2A0120 = true → tget none s.held 0x2A011C = some lo →
    x = hi.toNat * 2 ^ 32 + lo.toNat →
    ∃ t, exec (.archRposWrite hi) s = .next t ∧ tget none t.held 0x2A011C = none ∧
      ((x = s.archive.rpos ∨ x ∈ s.archive.ends) →
        t.archive = { s.archive with rpos := x, ends := s.archive.ends.filter (fun e => decide (x < e)) } ∧ t.log = s.log) ∧
      (x ≠ s.archive.rpos → x ∉ s.archive.ends → t.archive = s.archive ∧ t.lastCode 0x2A0028 = 0x1E01#16) ∧
      t = { s with held := t.held, archive := t.archive, log := t.log })

/-- Codec streams. What rests on choices and readings of the model: the assumption log, 82, 83, 84. -/
def Obligations.CodecStreams : Prop :=
  (∀ (s : State) (d : DescHdr) (w : Nat) (enc : Bool) (b : StreamBlock) (n : Nat), s.serves = true →
    s.mayBind d.fn w = true → State.formatOk enc b = true → s.streamFits enc b = true → n = s.freeStream enc →
    ∃ t x, exec (.streamOpen d w enc b) s = .next t ∧ t.stream n = some x ∧ x.fn = d.fn.val ∧ x.ring = 2 * w ∧ x.encode = enc ∧
      x.width = b.width ∧ x.height = b.height ∧ x.rate = b.rate ∧ x.waiting = [] ∧ x.suspended = false ∧
      x.qdepth = (if b.qdepth = 0 then 8 else max 1 (min 64 b.qdepth)) ∧
      x.lagMs = (if b.lagMs = 0 then 100 else max 10 (min 10000 b.lagMs)) ∧ x.qp = min 51 b.qp ∧
      (∀ m, m ≠ n → t.stream m = s.stream m) ∧ t.codec.sessions = s.codec.sessions ∧
      t = { s with codec := t.codec, log := t.log }) ∧
  (∀ (s : State) (d : DescHdr) (w : Nat) (enc : Bool) (b : StreamBlock), s.serves = true →
    (s.mayBind d.fn w = false → ∃ t, exec (.streamOpen d w enc b) s = .next t ∧ t = { s with log := t.log }) ∧
    (s.mayBind d.fn w = true → State.formatOk enc b = false →
      ∃ t, exec (.streamOpen d w enc b) s = .next t ∧ t.lastCode 0x2A0200 = 0x1E02#16 ∧ t = { s with log := t.log }) ∧
    (s.mayBind d.fn w = true → State.formatOk enc b = true → s.streamFits enc b = false →
      ∃ t, exec (.streamOpen d w enc b) s = .next t ∧ t.lastCode 0x2A0200 = 0x3E01#16 ∧ t = { s with log := t.log })) ∧
  (∀ (s : State) (d : DescHdr) (n : Nat) (x : Stream), s.serves = true → s.stream n = some x →
    (x.fn = d.fn.val →
      ∃ t, exec (.streamClose d n) s = .next t ∧ t.stream n = none ∧ (∀ m, m ≠ n → t.stream m = s.stream m) ∧
        t.codec.sessions = s.codec.sessions ∧ t = { s with codec := t.codec, log := t.log }) ∧
    (x.fn = d.fn.val → x.encode = false → x.suspended = true →
      ∃ t, exec (.streamResume d n) s = .next t ∧
        t.stream n = some { x with suspended := false, needIrap := some 0x1031#16, lagFrom := none, pixels := 0 } ∧
        (∀ m, m ≠ n → t.stream m = s.stream m) ∧ t = { s with codec := t.codec, log := t.log }) ∧
    (x.fn ≠ d.fn.val →
      (∃ t, exec (.streamClose d n) s = .next t ∧ t = { s with log := t.log }) ∧
      (∃ t, exec (.streamResume d n) s = .next t ∧ t = { s with log := t.log }))) ∧
  (∀ (s : State) (d : DescHdr) (n addr len : Nat) (irap : Bool) (x : Stream), s.serves = true →
    s.ringStream d.fn d.ring = some (n, x) → s.stream n = some x → x.encode = false →
    ((x.suspended = true ∨ x.qdepth ≤ x.waiting.length) → exec (.au d irap addr len) s = .next s) ∧
    (x.suspended = false → x.waiting.length < x.qdepth → (x.needIrap = none ∨ irap = true) →
      ∃ t y p, exec (.au d irap addr len) s = .next t ∧ t.stream n = some y ∧ y.waiting.length = x.waiting.length + 1 ∧
        y.waiting.getLast? = some p ∧ p.tag = d.tag ∧ p.addr = addr ∧ p.len = len ∧ p.irap = irap ∧ y.needIrap = none ∧
        y.lagFrom = some (x.lagFrom.getD s.now) ∧ (∀ m, m ≠ n → t.stream m = s.stream m) ∧ t = { s with codec := t.codec }) ∧
    (x.suspended = false → x.waiting.length < x.qdepth → x.needIrap ≠ none → irap = false →
      ∃ t, exec (.au d irap addr len) s = .next t ∧ t = { s with log := t.log })) ∧
  (∀ (s : State) (d : DescHdr) (n off : Nat) (x : Stream), s.serves = true →
    s.ringStream d.fn d.ring = some (n, x) → s.stream n = some x → x.encode = true →
    (x.qdepth ≤ x.waiting.length → exec (.picture d off) s = .next s) ∧
    (x.waiting.length < x.qdepth →
      ∃ t y p, exec (.picture d off) s = .next t ∧ t.stream n = some y ∧ y.waiting.length = x.waiting.length + 1 ∧
        y.waiting.getLast? = some p ∧ p.tag = d.tag ∧ p.addr = off ∧
        (∀ m, m ≠ n → t.stream m = s.stream m) ∧ t = { s with codec := t.codec })) ∧
  (∀ (s : State) (enc : Bool) (i n : Nat) (x : Stream) (p : Picture) (rest : List Picture) (errs : List SliceError),
    i < 64 → n = (if enc then 0x40 + i else i) → s.stream n = some x → x.encode = enc → x.waiting = p :: rest → p.started = true →
    ∃ t y, exec (.pictureDone enc i errs) s = .next t ∧ t.stream n = some y ∧ y.index = x.index + 1 ∧
      y.waiting.map (·.tag) = rest.map (·.tag) ∧ (enc = false → y.pixels = x.pixels + State.pictureSamples x.chroma x.width x.height * (if x.format = 2 then 2 else 1)) ∧
      (enc = false → errs ≠ [] → t.counter 0x2A020C = satAdd (s.counter 0x2A020C) errs.length ∧ t.lastCode 0x2A0200 = 0x2E01#16) ∧
      ((enc = true ∨ errs = []) → t.counters = s.counters) ∧ (∀ m, m ≠ n → t.stream m = s.stream m) ∧
      t = { s with codec := t.codec, bonded := t.bonded, counters := t.counters, log := t.log }) ∧
  (∀ (s : State),
    (s.now - s.codec.windowAt < 1000000 → exec .decoderBudgetWindow s = .next s) ∧
    (1000000 ≤ s.now - s.codec.windowAt →
      ∃ t, exec .decoderBudgetWindow s = .next t ∧ t.codec.windowAt = s.now ∧
        (∀ n x, s.stream n = some x → t.stream n = some (if x.encode then x else { x with budget := x.rate * 800 })) ∧
        t = { s with codec := t.codec })) ∧
  (∀ (s : State) (n : Nat) (x : Stream) (a : Nat), n < 64 → s.stream n = some x → x.encode = false → x.suspended = false → x.lagFrom = some a →
    (x.pixels * 1000 / max 1 x.rate + x.lagMs * 1000000 < s.now - a →
      ∃ t, exec (.streamLagSuspend n) s = .next t ∧
        t.stream n = some { x with suspended := true, waiting := [], lagFrom := none, pixels := 0 } ∧
        t.lastCode 0x2A0200 = 0x4E03#16 ∧ (∀ m, m ≠ n → t.stream m = s.stream m) ∧ t = { s with codec := t.codec, log := t.log }) ∧
    (s.now - a ≤ x.pixels * 1000 / max 1 x.rate + x.lagMs * 1000000 → exec (.streamLagSuspend n) s = .next s)) ∧
  (∀ (s : State) (p : Nat),
    ∃ t, exec (.decoderLoadHigh p) s = .next t ∧ t.codec = { s.codec with load := min 1000 p } ∧
      (900 < p → s.log.onsets.contains (windowKey 0x4E02#16 0x09 0xFF) = false → t.lastCode 0x2A0200 = 0x4E02#16) ∧
      (p ≤ 900 → t.log.lastCodes = s.log.lastCodes) ∧ t = { s with codec := t.codec, log := t.log })

/-- Replay sessions. What rests on choices and readings of the model: the assumption log, 85. -/
def Obligations.ReplaySessions : Prop :=
  (∀ (s : State) (d : DescHdr) (r : ReplayParams) (c i : Nat), s.serves = true → s.ringCtx d.fn d.ring = some c →
    (List.range 4).find? (fun j => (s.session j).isNone) = some i →
    (s.replayFault d.fn r = none →
      ∃ t q, exec (.replay d r) s = .next t ∧ t.session i = some q ∧ q.ctx = c ∧ q.params = r ∧ q.fed = 0 ∧ q.hdr = d ∧
        q.recipe = d.fn.val * 65536 + r.recipe ∧ s.freeSlotOf r.pipe = some q.slot ∧ q.sets.length = r.images.length ∧
        (∀ j, j ≠ i → t.session j = s.session j) ∧ t.codec.streams = s.codec.streams ∧ t = { s with codec := t.codec }) ∧
    (∀ f, s.replayFault d.fn r = some f →
      ∃ t, exec (.replay d r) s = .next t ∧ t = { s with log := t.log })) ∧
  (∀ (s : State) (d : DescHdr) (r : ReplayParams), s.serves = true → s.ringCtx d.fn d.ring = none →
    ∃ t, exec (.replay d r) s = .next t ∧ t = { s with log := t.log }) ∧
  (∀ (s : State) (i : Fin 4) (q : Session) (k b : Nat), s.serves = true → s.session i = some q →
    State.sessionBlock q q.fed = some (k, b) →
    q.out.length < (s.outRing q.slot (s.fld (State.sOff k) 8 0)).2 / blockMax (s.fld (State.sOff k) 8 0) →
    s.replayMay q = true →
    (∀ f m, s.fedBlock q k b = some f → q.sets.find? (fun x => decide (x.1 = f.set)) = some (f.set, m) →
      ∃ t p, exec (.replayBlockFeed i) s = .next t ∧ t.session i = some p ∧ p.fed = q.fed + 1 ∧ p.out = q.out ++ [f.block.b] ∧
        p.recs.length = q.recs.length + 1 ∧ p.ctx = q.ctx ∧ p.params = q.params ∧ p.sets = q.sets ∧
        (∀ j, j ≠ i.val → t.session j = s.session j) ∧ t.codec.streams = s.codec.streams ∧
        t = { s with codec := t.codec, bonded := t.bonded }) ∧
    (s.fedBlock q k b = none →
      ∃ t, exec (.replayBlockFeed i) s = .next t ∧ t.session i = none ∧ t.lastCode 0x2A0200 = 0x2E03#16 ∧
        (∀ j, j ≠ i.val → t.session j = s.session j) ∧ t = { s with codec := t.codec, log := t.log })) ∧
  (∀ (s : State) (i : Fin 4) (q : Session) (k b : Nat), s.serves = true → s.session i = some q →
    State.sessionBlock q q.fed = some (k, b) → s.replayMay q = false → exec (.replayBlockFeed i) s = .next s) ∧
  (∀ (s : State) (i : Fin 4) (q : Session), s.serves = true → s.session i = some q → State.sessionBlock q q.fed = none →
    ((∀ c, s.ctx q.ctx = some c → c.jobs = []) →
      ∃ t, exec (.replayBlockFeed i) s = .next t ∧ t.session i = none ∧ (∀ j, j ≠ i.val → t.session j = s.session j) ∧
        t = { s with codec := t.codec, free := t.free, log := t.log }) ∧
    (∀ c, s.ctx q.ctx = some c → c.jobs ≠ [] → exec (.replayBlockFeed i) s = .next s))

/-- Polders and the spare engine. What rests on choices and readings of the model: the assumption log, 76, 78, 79. -/
def Obligations.PoldersAndTheSpare : Prop :=
  (∀ (s : State) (p : Fin 6) (v : Word), s.answers 0 (0x2B0018 + 0x100 * p.val) = true →
    (bit v 31 = true → s.freeze = false → s.createFails p = [] →
      ∃ t : State, exec (.polderCreate p v) s = .next t ∧
        t.polder p = { made := true, base := s.reg64 (State.pOffset p + 4) / 2 ^ 21 * 2 ^ 21
                       size := s.fld (State.pOffset p + 0x0C) 15 0 * 2 ^ 20, ps0 := s.fld (State.pOffset p + 0x10) 21 16
                       psn := s.fld (State.pOffset p + 0x10) 5 0, resMax := s.fld (State.pOffset p + 0x14) 19 16
                       ctxMax := s.fld (State.pOffset p + 0x14) 12 8, blockUs := s.fld (State.pOffset p + 0x14) 7 0 } ∧
        (∀ q, q ≠ p.val → t.polder q = s.polder q) ∧
        (∀ e, t.engine e = if e ∈ State.maskEngines (s.fld (State.pOffset p) 5 0)
          then { s.engine e with polder := some p.val, leaving := false, resident := [], loading := none } else s.engine e) ∧
        t = { s with polders := t.polders, engines := t.engines }) ∧
    (bit v 31 = true → s.freeze = false → s.createFails p ≠ [] →
      ∃ t : State, exec (.polderCreate p v) s = .next t ∧
        (s.createFails p).getLast?.map (·.1) = some (t.lastCode (0x2B001C + 0x100 * p.val)) ∧ t = { s with log := t.log }) ∧
    (bit v 31 = true → s.freeze = true →
      ∃ t : State, exec (.polderCreate p v) s = .next t ∧ t.lastCode (0x2B001C + 0x100 * p.val) = 0x1F06#16 ∧ t = { s with log := t.log }) ∧
    (bit v 31 = false → exec (.polderCreate p v) s = .next s) ∧ (bit v 30 = false → exec (.resize p v) s = .next s) ∧
    (bit v 29 = false → exec (.destroy p v) s = .next s) ∧
    (bit v 30 = true → s.freeze = true →
      ∃ t : State, exec (.resize p v) s = .next t ∧ t.lastCode (0x2B001C + 0x100 * p.val) = 0x1F06#16 ∧ t = { s with log := t.log }) ∧
    (bit v 29 = true → s.freeze = true →
      ∃ t : State, exec (.destroy p v) s = .next t ∧ t.lastCode (0x2B001C + 0x100 * p.val) = 0x1F06#16 ∧ t = { s with log := t.log })) ∧
  (∀ (s : State) (p : Fin 6) (v : Word), s.answers 0 (0x2B0018 + 0x100 * p.val) = true → bit v 30 = true → s.freeze = false →
    (s.resizeFail p = none → s.spare.reclaiming = false →
      ∃ t : State, exec (.resize p v) s = .next t ∧
        (∀ e ∈ State.maskEngines (s.fld (State.pOffset p) 5 0), (t.engine e).polder = some p.val) ∧
        (∀ e ∈ s.polderEngines p, e ∉ State.maskEngines (s.fld (State.pOffset p) 5 0) →
          (s.holdsStarted e = true → (t.engine e).polder = some p.val ∧ (t.engine e).leaving = true) ∧
          (s.holdsStarted e = false → (s.engine e).loading = none → (t.engine e).polder = none)) ∧
        (∀ e, e ∉ s.polderEngines p → e ∉ State.maskEngines (s.fld (State.pOffset p) 5 0) → t.engine e = s.engine e) ∧
        t = { s with engines := t.engines, ctxs := t.ctxs, ops := t.ops }) ∧
    (s.resizeFail p ≠ none →
      ∃ t : State, exec (.resize p v) s = .next t ∧ t.lastCode (0x2B001C + 0x100 * p.val) = 0x1F02#16 ∧ t = { s with log := t.log })) ∧
  (∀ (s : State) (p : Fin 6) (v : Word), s.answers 0 (0x2B0018 + 0x100 * p.val) = true → bit v 29 = true → s.freeze = false →
    ((s.polder p).made = true → (∀ x ∈ s.allCtxs, x.2.polder ≠ p.val) →
      ∃ t : State, exec (.destroy p v) s = .next t ∧ t.polder p = {} ∧ (∀ q, q ≠ p.val → t.polder q = s.polder q) ∧
        (∀ e, t.engine e = if (s.engine e).polder = some p.val
          then { s.engine e with polder := none, leaving := false, resident := [], loading := none } else s.engine e) ∧
        t.reg (0x270040 + 4 * p.val) = 0 ∧ (s.spare.lent = some p.val → t.spare.lent = none ∧ t.flag 0x2B0800 23 = false) ∧
        (s.spare.lent ≠ some p.val → t.spare = s.spare) ∧
        t = { s with engines := t.engines, regs := t.regs, spare := t.spare, polders := t.polders, recipes := t.recipes,
                     nodes := t.nodes, bonded := t.bonded, kv := t.kv, counters := t.counters }) ∧
    ((s.polder p).made = true → (∃ x ∈ s.allCtxs, x.2.polder = p.val) →
      ∃ t : State, exec (.destroy p v) s = .next t ∧ t.lastCode (0x2B001C + 0x100 * p.val) = 0x1F05#16 ∧ t = { s with log := t.log }) ∧
    ((s.polder p).made = false →
      ∃ t : State, exec (.destroy p v) s = .next t ∧ t.lastCode (0x2B001C + 0x100 * p.val) = 0x1F01#16 ∧ t = { s with log := t.log })) ∧
  (∀ (s : State) (v : Word), s.answers 0 0x2B0800 = true → s.flag 0x2B0800 23 = false → s.spare.takeover = none →
    s.spare.reclaiming = false → bit v 23 = false →
    (s.spareOk v = true → bits v 2 0 < 6 → bits v 22 20 < 6 →
      ∃ t : State, exec (.spareCfgWrite v) s = .next t ∧ t.fld 0x2B0800 2 0 = bits v 2 0 ∧ t.fld 0x2B0800 22 20 = bits v 22 20 ∧
        t.flag 0x2B0800 31 = bit v 31 ∧ t.flag 0x2B0800 23 = false ∧ (∀ o, o ≠ 0x2B0800 → t.reg o = s.reg o) ∧
        t = { s with regs := t.regs, log := t.log }) ∧
    (s.spareOk v = false →
      ∃ t : State, exec (.spareCfgWrite v) s = .next t ∧ t.lastCode 0x2B0804 = 0x1F01#16 ∧ t = { s with log := t.log })) ∧
  (∀ (s : State) (v : Word), s.answers 0 0x2B0800 = true → s.flag 0x2B0800 23 = true → bit v 23 = true →
    (bits v 2 0 ≠ s.fld 0x2B0800 2 0 ∨ bit v 31 ≠ s.flag 0x2B0800 31) →
    ∃ t : State, exec (.spareCfgWrite v) s = .next t ∧ t.lastCode 0x2B0804 = 0x1F04#16 ∧ t = { s with log := t.log }) ∧
  (∀ (s u : State) (v : Word) (e : Nat), s.answers 0 0x2B0800 = true → s.flag 0x2B0800 23 = false → bit v 23 = true →
    s.spare.takeover = none → s.spare.reclaiming = false → s.spareOk v = true →
    u = s.writeFields 0x2B0800 0x0A 0x10 v → u.spareOf = some e →
    (u.lendFail e (bits v 22 20) = none →
      ∃ t : State, exec (.lend v) s = .next t ∧ t.spare = { s.spare with lent := some (bits v 22 20) } ∧
        (t.engine e).polder = some (bits v 22 20) ∧ (t.engine e).leaving = false ∧ (∀ m, m ≠ e → t.engine m = s.engine m) ∧
        t.flag 0x2B0800 23 = true ∧
        t = { s with regs := t.regs, log := t.log, spare := t.spare, engines := t.engines, ctxs := t.ctxs, ops := t.ops }) ∧
    (∀ c, u.lendFail e (bits v 22 20) = some c →
      ∃ t : State, exec (.lend v) s = .next t ∧ t.lastCode 0x2B0804 = c ∧ t.flag 0x2B0800 23 = false ∧
        (∀ o, o ≠ 0x2B0800 → t.reg o = s.reg o) ∧ t = { s with regs := t.regs, log := t.log })) ∧
  (∀ (s : State) (v : Word) (e q : Nat), s.answers 0 0x2B0800 = true → s.flag 0x2B0800 23 = true → bit v 23 = false →
    s.flag 0x2B0800 31 = true → bit v 31 = true → s.fld 0x2B0800 2 0 = e → bits v 2 0 = e → e < 6 → (s.engine e).retired = false →
    s.spare.lent = some q →
    (s.holdsStarted e = false → (s.engine e).loading = none →
      ∃ t : State, exec (.reclaim v) s = .next t ∧ (t.engine e).polder = none ∧ t.spare.lent = none ∧ t.spare.reclaiming = false ∧
        t.lastCode 0x2B0804 = 0x4F02#16 ∧ t.flag 0x2B0800 23 = false ∧ (∀ m, m ≠ e → t.engine m = s.engine m) ∧
        t = { s with regs := t.regs, log := t.log, spare := t.spare, engines := t.engines, ctxs := t.ctxs, ops := t.ops }) ∧
    (s.holdsStarted e = true →
      ∃ t : State, exec (.reclaim v) s = .next t ∧ t.engine e = { s.engine e with leaving := true } ∧ t.spare.lent = some q ∧
        t.spare.reclaiming = true ∧ t.flag 0x2B0800 23 = false ∧ (∀ m, m ≠ e → t.engine m = s.engine m) ∧
        t = { s with regs := t.regs, log := t.log, spare := t.spare, engines := t.engines })) ∧
  (∀ (s : State),
    ((s.flag 0x2B0800 31 = true ∨ ∃ a, s.spare.postedAt = some a ∧ s.now - a < 3600000000000) → exec .noSpareNotice s = .next s) ∧
    (s.flag 0x2B0800 31 = false → (∀ a, s.spare.postedAt = some a → 3600000000000 ≤ s.now - a) →
      ∃ t : State, exec .noSpareNotice s = .next t ∧ t.spare = { s.spare with postedAt := some s.now } ∧
        t.lastCode 0x2B0804 = 0x3F03#16 ∧ t = { s with spare := t.spare, log := t.log }))

/-- Contexts and their scheduling. What rests on choices and readings of the model: the assumption log, 76, 77, 78, 79. -/
def Obligations.ContextsAndTheirScheduling : Prop :=
  (∀ (s : State) (d : DescHdr) (w c : Nat) (b : SchedBlock) (p : Nat), s.serves = true → d.fn.val = p + 1 →
    (s.polder p).made = true → s.mayBind d.fn w = true →
    (b.prio ≤ 3 → b.cls ≤ 1 → 50 ≤ b.sliceUs → b.sliceUs ≤ 10000 → (s.switchDesc p).1 ≤ 2097152 / (s.polder p).resMax →
      (s.switchDesc p).2 ≤ 2048 → (s.allCtxs.filter (fun y => decide (y.2.polder = p))).length < (s.polder p).ctxMax →
      s.freeCtx = some c →
      ∃ (t : State) (y : Ctx), exec (.ctxCreate d w b) s = .next t ∧ t.ctx c = some y ∧ y.polder = p ∧ y.ring = 2 * w ∧ y.prio = b.prio ∧
        y.deferrable = decide (b.cls = 1) ∧ y.sliceUs = b.sliceUs ∧ y.bLive = (s.switchDesc p).1 ∧
        y.nInflight = (s.switchDesc p).2 ∧ y.jobs = [] ∧ y.doomed = none ∧
        (∀ m, m ≠ c → (t.ctx m).isSome = (s.ctx m).isSome) ∧
        t = { s with ctxs := t.ctxs, engines := t.engines, ops := t.ops, log := t.log }) ∧
    ((3 < b.prio ∨ 1 < b.cls ∨ b.sliceUs < 50 ∨ 10000 < b.sliceUs) → p < 6 →
      ∃ t : State, exec (.ctxCreate d w b) s = .next t ∧ t.lastCode (0x2B001C + 0x100 * p) = 0x1F03#16 ∧ t = { s with log := t.log }) ∧
    (b.prio ≤ 3 → b.cls ≤ 1 → 50 ≤ b.sliceUs → b.sliceUs ≤ 10000 → (s.switchDesc p).1 ≤ 2097152 / (s.polder p).resMax →
      (s.switchDesc p).2 ≤ 2048 → (s.polder p).ctxMax ≤ (s.allCtxs.filter (fun y => decide (y.2.polder = p))).length → p < 6 →
      ∃ t : State, exec (.ctxCreate d w b) s = .next t ∧ t.lastCode (0x2B001C + 0x100 * p) = 0x3F01#16 ∧ t = { s with log := t.log })) ∧
  (∀ (s : State) (d : DescHdr) (w : Nat) (b : SchedBlock), s.serves = true →
    (d.fn.val = 0 ∨ (s.polder (d.fn.val - 1)).made = false ∨ s.mayBind d.fn w = false) →
    ∃ t : State, exec (.ctxCreate d w b) s = .next t ∧ t = { s with log := t.log }) ∧
  (∀ (s : State) (d : DescHdr) (c : Nat) (x : Ctx), s.serves = true → s.ctx c = some x → d.fn.val = x.polder + 1 → x.doomed = none →
    (x.jobs = [] → (∀ e a, (s.engine e).task = some a → a.ctx ≠ c) →
      ∃ t : State, exec (.ctxDestroy d c) s = .next t ∧ t.ctx c = none ∧ (t.log.ring (x.polder + 1) x.ring).bound = 0 ∧
        (∀ m, m ≠ c → s.ctx m ≠ none → t.ctx m ≠ none) ∧
        t = { s with ctxs := t.ctxs, engines := t.engines, ops := t.ops, log := t.log }) ∧
    ((∃ e < 6, ∃ a, (s.engine e).task = some a ∧ a.ctx = c) → (∀ e a, (s.engine e).task = some a → a.ctx = c → a.startAt ≠ none) →
      (∀ j ∈ x.jobs, s.jobRunning c j.id = true) →
      ∃ t : State, exec (.ctxDestroy d c) s = .next t ∧
        t.ctx c = some { x with
          doomed := some (some d)
          jobs := x.jobs.map (fun j => { j with fail := if j.fail = 0 then 0x1031#16 else j.fail, again := [] }) } ∧
        (∀ m, m ≠ c → t.ctx m = s.ctx m) ∧ t = { s with ctxs := t.ctxs })) ∧
  (∀ (s : State) (d : DescHdr) (c : Nat), s.serves = true →
    (∀ x, s.ctx c = some x → d.fn.val ≠ x.polder + 1 ∨ x.doomed ≠ none) →
    ∃ t : State, exec (.ctxDestroy d c) s = .next t ∧ t = { s with log := t.log }) ∧
  (∀ (s : State) (c : Fin 64), s.ctx c = none → exec (.schedulePoll c) s = .next s ∧ exec (.sliceEnd c) s = .next s) ∧
  (∀ (s : State) (c : Fin 64) (x : Ctx) (r : Region) (th : DWord) (ps : Bool) (a : Nat), s.ctx c = some x → x.waitMet = false →
    x.waitOn = some (r, th) → s.localAt x.polder { r with len := 8 } = some (ps, a) →
    (s.polder x.polder).resMax ≤ (s.allCtxs.filter (fun y => decide (y.2.polder = x.polder) && y.2.resident)).length →
    ∃ (t : State) (y : Ctx), exec (.schedulePoll c) s = .next t ∧ t.ctx c = some y ∧
      (th.toNat ≤ leNat (readBytes (if ps then s.pool else s.bonded) a 8) →
        y.waitMet = true ∧ y.waitOn = none ∧ y.readySince = s.now) ∧
      (leNat (readBytes (if ps then s.pool else s.bonded) a 8) < th.toNat →
        y.waitMet = false ∧ y.waitOn = some (r, th) ∧ y.readySince = x.readySince) ∧
      y = { x with waitMet := y.waitMet, waitOn := y.waitOn, readySince := y.readySince, blockedSince := y.blockedSince
                   runFrom := y.runFrom, ran := y.ran } ∧
      (∀ m, m ≠ c.val → t.ctx m = s.ctx m) ∧ t = { s with ctxs := t.ctxs }) ∧
  (∀ (s : State) (e : Fin 6) (c : Fin 64),
    (∀ k a, (s.engine e).loading = some (k, a) → k ≠ c.val ∨ s.now < a) → exec (.switchIn e c) s = .next s) ∧
  (∀ (s : State) (e : Fin 6) (c : Fin 64) (p a : Nat) (y : Ctx), (s.engine e).loading = some (c.val, a) → a ≤ s.now →
    (s.engine e).polder = some p → (s.engine e).leaving = false → s.ctx c = some y → y.doomed = none →
    (∀ z ∈ s.allCtxs, z.2.ending = none) → y.ending = none →
    ∃ (t : State) (z : Ctx), exec (.switchIn e c) s = .next t ∧ c.val ∈ (t.engine e).resident ∧ t.ctx c = some z ∧
      (s.loadedOn c = [] → z.resident = true ∧ z.debt = y.debt - min y.debt (y.sliceUs * 1000 / 2)) ∧
      (s.loadedOn c ≠ [] → z.resident = y.resident ∧ z.debt = y.debt) ∧
      t.counter (State.pOffset p + 0x20) = satAdd (s.counter (State.pOffset p + 0x20)) 1 ∧
      t.counter (State.pOffset p + 0x24) = satAdd (s.counter (State.pOffset p + 0x24)) (State.tSwitch (y.bLive, y.nInflight)) ∧
      (∀ m, m ≠ e.val → t.engine m = s.engine m) ∧
      t = { s with counters := t.counters, engines := t.engines, ctxs := t.ctxs, ops := t.ops }) ∧
  (∀ (s : State) (c : Fin 64) (x : Ctx), s.ctx c = some x →
    ((x.resident = false ∨ x.ending ≠ none ∨ s.sliceRun x < x.sliceUs * 1000) → exec (.sliceEnd c) s = .next s) ∧
    (x.resident = true → x.ending = none → x.sliceUs * 1000 ≤ s.sliceRun x →
      (∀ y ∈ s.outside x.polder, y.2.prio < x.prio ∨ y.2.deferred = true ∨ s.ready y.1 y.2 = false) →
      ∃ t : State, exec (.sliceEnd c) s = .next t ∧
        t.ctx c = some { x with ran := 0, runFrom := if x.runFrom.isSome then some s.now else none, debt := 0, debtPosted := false } ∧
        (∀ m, m ≠ c.val → t.ctx m = s.ctx m) ∧ t = { s with ctxs := t.ctxs }) ∧
    (x.resident = true → x.ending = none → x.sliceUs * 1000 ≤ s.sliceRun x →
      (∃ y ∈ s.outside x.polder, x.prio ≤ y.2.prio ∧ y.2.deferred = false ∧ s.ready y.1 y.2 = true) →
      ∃ (t : State) (y : Ctx), exec (.sliceEnd c) s = .next t ∧ t.ctx c = some y ∧
        ((∃ i, y.ending = some (s.now, i) ∧ y.resident = true) ∨ (y.ending = none ∧ y.resident = false ∧ y.outSince = s.now)) ∧
        t.counter (State.pOffset x.polder + 0x34) = satAdd (s.counter (State.pOffset x.polder + 0x34)) 1 ∧
        t = { s with ctxs := t.ctxs, engines := t.engines, ops := t.ops, counters := t.counters })) ∧
  (∀ (s : State) (p : Fin 6), (∀ x ∈ s.allCtxs, s.ctx x.1 = some x.2) →
    (((∀ x ∈ s.allCtxs, x.2.polder = p.val → x.2.resident = false) ∨
      (∃ x ∈ s.allCtxs, x.2.polder = p.val ∧ x.2.resident = true ∧ (x.2.ending ≠ none ∨ x.2.blockedSince = none)) ∨
      (∀ y ∈ s.outside p, y.2.deferred = true ∨ s.ready y.1 y.2 = false)) → exec (.blockSwap p) s = .next s) ∧
    ((∃ x ∈ s.allCtxs, x.2.polder = p.val ∧ x.2.resident = true) →
      (∀ x ∈ s.allCtxs, x.2.polder = p.val → x.2.resident = true → x.2.ending = none ∧
        ∃ a, x.2.blockedSince = some a ∧ a + (s.polder p).blockUs * 1000 ≤ s.now) →
      (∃ y ∈ s.outside p, y.2.deferred = false ∧ s.ready y.1 y.2 = true) →
      ∃ (t : State) (l i : Nat) (x y x' y' : Ctx), exec (.blockSwap p) s = .next t ∧
        s.ctx l = some x ∧ x.polder = p.val ∧ x.resident = true ∧ s.ctx i = some y ∧ y.polder = p.val ∧ y.resident = false ∧
        t.ctx l = some x' ∧ x'.resident = false ∧ t.ctx i = some y' ∧ y'.resident = true ∧
        (∀ e, l ∉ (t.engine e).resident) ∧
        t.counter (State.pOffset p + 0x30) = satAdd (s.counter (State.pOffset p + 0x30)) 1 ∧
        t = { s with ctxs := t.ctxs, engines := t.engines, ops := t.ops, counters := t.counters }))

/-- Recipes and the jobs that run them. What rests on choices and readings of the model: the assumption log, 72, 73, 74, 75,
136. -/
def Obligations.RecipesAndJobs : Prop :=
  (∀ (s : State) (d : DescHdr) (addr len p key : Nat) (c : List Byte) (r : Recipe), s.serves = true → d.fn.val = p + 1 →
    (s.polder p).made = true → len ≤ (s.polder p).size → s.envelope (readBytes s.log.host addr len) = .ok c →
    parseContainer (s.loadRoom p) s.line.level s.line.running c s.kv.treeRunning s.kvSlotBytes = .ok r →
    key = (p + 1) * 65536 + s.freeRecipe (p + 1) →
    ∃ (t : State) (x : Recipe), exec (.recipeLoad d addr len) s = .next t ∧ t.recipe key = some x ∧ x.fn = p + 1 ∧
      x.base = s.recipeBase p (s.freeRecipe (p + 1)) c.length ∧ x.progs = r.progs ∧ x.hashes = r.hashes ∧ x.todo = r.todo ∧
      x.failed = r.failed ∧
      (r.failed = true → t.lastCode 0x27010C = 0x1A01#16) ∧ (r.failed = false → r.todo = 0 → x.residentAt = true) ∧
      (r.failed = false → r.todo ≠ 0 → x.waiting = some (d.ring, d.tag, d.irq) ∧ t.log = s.log) ∧
      (∀ k, k ≠ key → t.recipe k = s.recipe k) ∧
      (∀ a, (a < x.base ∨ x.base + c.length ≤ a) → byteAt t.bonded a = byteAt s.bonded a) ∧
      (∀ i, i < c.length → byteAt t.bonded (x.base + i) = c.getD i 0) ∧
      t = { s with recipes := t.recipes, bonded := t.bonded, log := t.log }) ∧
  (∀ (s : State) (d : DescHdr) (addr len p : Nat), s.serves = true → d.fn.val = p + 1 → (s.polder p).made = true →
    len ≤ (s.polder p).size →
    (∀ e, s.envelope (readBytes s.log.host addr len) = .error e →
      ∃ t : State, exec (.recipeLoad d addr len) s = .next t ∧ (codeChapter e = 0x07 → t.lastCode 0x320000 = e) ∧ t = { s with log := t.log }) ∧
    (∀ c f, s.envelope (readBytes s.log.host addr len) = .ok c →
      parseContainer (s.loadRoom p) s.line.level s.line.running c s.kv.treeRunning s.kvSlotBytes = .error f →
      ∃ t : State, exec (.recipeLoad d addr len) s = .next t ∧ t = { s with log := t.log })) ∧
  (∀ (s : State) (d : DescHdr) (addr len : Nat), s.serves = true →
    (d.fn.val = 0 ∨ (s.polder (d.fn.val - 1)).made = false ∨ (s.polder (d.fn.val - 1)).size < len) →
    ∃ t : State, exec (.recipeLoad d addr len) s = .next t ∧ t = { s with log := t.log }) ∧
  (∀ (s : State) (key : Nat), s.serves = true →
    (s.recipe key = none ∨ s.kv.treeRunning = false ∨ (∃ r, s.recipe key = some r ∧ (r.todo = 0 ∨ r.failed = true))) →
    exec (.residencyStep key) s = .next s) ∧
  (∀ (s : State) (key i : Nat) (r : Recipe), s.serves = true → s.recipe key = some r → r.todo ≠ 0 → r.failed = false →
    s.kv.treeRunning = true → s.lookup (r.hashes.getD r.nodes.length []) = some i →
    ∃ (t : State) (x : Recipe), exec (.residencyStep key) s = .next t ∧ t.recipe key = some x ∧ x.nodes = r.nodes ++ [i] ∧
      x.todo = r.todo - 1 ∧ x.inserted = r.inserted ∧
      ((s.node i).state = 3 → t.node i = { s.node i with state := 2, refs := 1, retiredAt := 0 } ∧ x.revived = r.revived ++ [i] ∧
        t.counter 0x270128 = satAdd (s.counter 0x270128) 1 ∧
        ∀ y ∈ t.kv.deferred, y.slot = (s.node i).slot → y.voided = true) ∧
      ((s.node i).state ≠ 3 → t.node i = { s.node i with refs := (s.node i).refs + 1 } ∧ x.revived = r.revived ∧
        t.counter 0x270120 = satAdd (s.counter 0x270120) 1 ∧ t.kv = s.kv) ∧
      (∀ j, j ≠ i → t.node j = s.node j) ∧ (∀ k, k ≠ key → t.recipe k = s.recipe k) ∧
      t = { s with recipes := t.recipes, nodes := t.nodes, bonded := t.bonded, kv := t.kv, counters := t.counters, log := t.log }) ∧
  (∀ (s u : State) (key i slot : Nat) (r : Recipe), s.serves = true → s.recipe key = some r → r.todo ≠ 0 → r.failed = false →
    s.kv.treeRunning = true → s.lookup (r.hashes.getD r.nodes.length []) = none → s.freeWay (r.hashes.getD r.nodes.length []) = some i →
    s.kvResv + 1 + s.kvGrow ≤ s.kvFree → s.kvTake = some (slot, u) →
    ∃ (t : State) (x : Recipe), exec (.residencyStep key) s = .next t ∧ t.recipe key = some x ∧ x.nodes = r.nodes ++ [i] ∧
      x.todo = r.todo - 1 ∧ x.inserted = r.inserted ++ [i] ∧
      t.node i = { hash := r.hashes.getD r.nodes.length [], slot, parent := r.nodes.getLast?, page := r.nodes.length
                   tokens := r.tokensOf.getD r.nodes.length 0, state := 1, refs := 1, builder := some key } ∧
      t.kv = u.kv ∧ t.counter 0x270124 = satAdd (s.counter 0x270124) 1 ∧
      (∀ j, j ≠ i → t.node j = s.node j) ∧ (∀ k, k ≠ key → t.recipe k = s.recipe k) ∧
      t = { s with recipes := t.recipes, nodes := t.nodes, bonded := t.bonded, kv := t.kv, counters := t.counters, log := t.log }) ∧
  (∀ (s : State) (key : Nat) (r : Recipe) (e : Half), s.serves = true → s.recipe key = some r → r.todo ≠ 0 → r.failed = false →
    s.kv.treeRunning = true → s.lookup (r.hashes.getD r.nodes.length []) = none →
    (s.freeWay (r.hashes.getD r.nodes.length []) = none ∧ e = 0x3A01#16 ∨
      s.freeWay (r.hashes.getD r.nodes.length []) ≠ none ∧ (s.kvFree < s.kvResv + 1 + s.kvGrow ∨ s.kvTake = none) ∧ e = 0x3A02#16) →
    ∃ (t : State) (x : Recipe), exec (.residencyStep key) s = .next t ∧ t.recipe key = some x ∧ x.failed = true ∧ x.nodes = [] ∧
      x.todo = 0 ∧ x.waiting = none ∧ t.lastCode 0x27010C = e ∧
      t = { s with recipes := t.recipes, nodes := t.nodes, bonded := t.bonded, kv := t.kv, counters := t.counters, log := t.log }) ∧
  (∀ (s : State) (d : DescHdr) (idx key : Nat), s.serves = true → key = d.fn.val * 65536 + idx →
    (s.recipe key = none → ∃ t : State, exec (.recipeUnload d idx) s = .next t ∧ t = { s with log := t.log }) ∧
    (∀ r, s.recipe key = some r → (∃ q ∈ s.active, q.2 = some key) →
      ∃ t : State, exec (.recipeUnload d idx) s = .next t ∧ t.lastCode 0x27010C = 0x1A03#16 ∧ t = { s with log := t.log }) ∧
    (∀ r, s.recipe key = some r → (∀ q ∈ s.active, q.2 ≠ some key) →
      ∃ t : State, exec (.recipeUnload d idx) s = .next t ∧
        ((∃ n ∈ s.nodes, n.2.state = 1 ∧ n.2.builder = some key) → r.buildJob = false → t.recipe key = none) ∧
        ((∀ n ∈ s.nodes, n.2.state ≠ 1 ∨ n.2.builder ≠ some key) → s.openTracks key = false → r.buildJob = false → t.recipe key = none) ∧
        (((∀ n ∈ s.nodes, n.2.state ≠ 1 ∨ n.2.builder ≠ some key) ∧ s.openTracks key = true ∨ r.buildJob = true) →
          t.recipe key = some { r with draining := true } ∧ t.nodes = s.nodes) ∧
        t = { s with recipes := t.recipes, nodes := t.nodes, bonded := t.bonded, kv := t.kv, counters := t.counters, log := t.log })) ∧
  (∀ (s : State) (d : DescHdr) (k : Fin 18) (w : Fin 4) (vf : Fin 7) (idx at_ : Nat), s.serves = true →
    (d.fn.val = 0 → vf.val ≠ 0 → s.recipe (vf.val * 65536 + idx) ≠ none → w.val ≠ 3 →
      ∃ t : State, exec (.changeover d k w vf idx at_) s = .next t ∧
        tget none t.changes k = some { recipe := vf.val * 65536 + idx, when_ := w.val, at_ := at_ % 2 ^ 48 } ∧
        (∀ j, j ≠ k.val → tget none t.changes j = tget none s.changes j) ∧ t = { s with changes := t.changes, log := t.log }) ∧
    ((d.fn.val ≠ 0 ∨ vf.val = 0 ∨ s.recipe (vf.val * 65536 + idx) = none ∨ w.val = 3) →
      ∃ t : State, exec (.changeover d k w vf idx at_) s = .next t ∧ t = { s with log := t.log })) ∧
  (∀ (s : State) (d : DescHdr) (idx code first count c i : Nat) (l : Option Nat) (ps : List Byte) (x : Ctx) (r : Recipe) (g : Prog) (b passes : Nat),
    s.serves = true → s.ringCtx d.fn d.ring = some c → s.ctx c = some x → s.recipe (d.fn.val * 65536 + idx) = some r →
    State.jobProg r code = some i → State.dispatchBucket r i ps = (b, passes) → r.progs[b]? = some g → (∀ a, l = some a → a % 8 = 0) → 1 ≤ count → count ≤ 65536 →
    ps.length = 32 → first + count ≤ g.tasks.length → r.draining = false → s.vig.outOfService = false →
    (∃ (t : State) (y : Ctx) (j : Job), exec (.run d idx code first count l ps) s = .next t ∧ t.ctx c = some y ∧
      y.jobs.length = x.jobs.length + 1 ∧ y.jobs.getLast? = some j ∧ j.id = s.nextJob ∧ j.recipe = d.fn.val * 65536 + idx ∧ j.code = b ∧ j.passes = passes ∧
      j.first = first ∧ j.count = count ∧ j.build = false ∧ j.tag = d.tag ∧ j.params = ps ∧ j.cycleList = l ∧
      t.nextJob = s.nextJob + 1 ∧
      t = { s with nextJob := t.nextJob, ctxs := t.ctxs, engines := t.engines, ops := t.ops, polders := t.polders, log := t.log }) ∧
    (g.kind = 2 →
      ∃ (t : State) (y : Ctx) (j : Job), exec (.build d idx code first count l ps) s = .next t ∧ t.ctx c = some y ∧
        y.jobs.length = x.jobs.length + 1 ∧ y.jobs.getLast? = some j ∧ j.id = s.nextJob ∧ j.recipe = d.fn.val * 65536 + idx ∧ j.code = b ∧ j.passes = passes ∧
        j.first = first ∧ j.count = count ∧ j.build = true ∧ j.tag = d.tag ∧ j.params = ps ∧ j.cycleList = l ∧
        t.recipe (d.fn.val * 65536 + idx) = some { r with buildJob := true } ∧ t.nextJob = s.nextJob + 1 ∧
        t = { s with nextJob := t.nextJob, ctxs := t.ctxs, engines := t.engines, ops := t.ops, polders := t.polders,
                     recipes := t.recipes, log := t.log }) ∧
    (g.kind ≠ 2 → ∃ t : State, exec (.build d idx code first count l ps) s = .next t ∧ t = { s with log := t.log })) ∧
  (∀ (s : State) (d : DescHdr) (idx code first count : Nat) (l : Option Nat) (ps : List Byte), s.serves = true →
    (s.ringCtx d.fn d.ring = none ∨ s.recipe (d.fn.val * 65536 + idx) = none ∨ count = 0 ∨ 65536 < count ∨ s.vig.outOfService = true) →
    (∃ t : State, exec (.run d idx code first count l ps) s = .next t ∧ t = { s with log := t.log }) ∧
    (∃ t : State, exec (.build d idx code first count l ps) s = .next t ∧ t = { s with log := t.log }))

/-- The KV pool, the prefix tree, epochs, and host writes to memory. What rests on choices and readings of the model: the
assumption log, 32, 91, 115. -/
def Obligations.PoolTreeAndHostMemory : Prop :=
  (∀ (s u : State) (v : Word), s.answers 0 0x270008 = true → s.sealed = false → s.flag 0x270008 31 = false → bit v 31 = true →
    u = s.writeFields 0x270008 0x06 0x10 v →
    (1 ≤ u.fld 0x270008 4 0 → u.fld 0x270008 4 0 ≤ 24 → 1 ≤ u.fld 0x270008 24 16 → u.fld 0x270008 24 16 ≤ 256 →
      u.exclusiveMeets 5 u.kvRegion.1 u.kvRegion.2 = none →
      ∃ t : State, exec (.kvEnable v) s = .next t ∧ t.flag 0x270008 31 = true ∧
        t.kv = { s.kv with running := true, slots := u.kvCount, fresh := 0, freed := [] } ∧
        (∀ o, o ≠ 0x270008 → t.reg o = s.reg o) ∧ (∀ a, (a < u.kvBase ∨ u.kvBase + 0x40000 ≤ a) → (a < u.kvBase + 0x2040000 ∨ u.kvBase + 0x2040000 + 4 * u.kvCount ≤ a) →
          byteAt t.bonded a = byteAt s.bonded a) ∧
        (∀ a, u.kvBase ≤ a → a < u.kvBase + 0x40000 → byteAt t.bonded a = 0) ∧
        t = { s with regs := t.regs, log := t.log, kv := t.kv, bonded := t.bonded }) ∧
    ((u.fld 0x270008 4 0 = 0 ∨ 24 < u.fld 0x270008 4 0 ∨ u.fld 0x270008 24 16 = 0 ∨ 256 < u.fld 0x270008 24 16 ∨
        u.exclusiveMeets 5 u.kvRegion.1 u.kvRegion.2 ≠ none) →
      ∃ t : State, exec (.kvEnable v) s = .next t ∧ t.flag 0x270008 31 = false ∧ t.lastCode 0x270010 = 0x1901#16 ∧
        (∀ o, o ≠ 0x270008 → t.reg o = s.reg o) ∧ t = { s with regs := t.regs, log := t.log })) ∧
  (∀ (s u : State) (v : Word), s.answers 0 0x270100 = true → s.sealed = false → s.flag 0x270100 31 = false → bit v 31 = true →
    u = s.writeFields 0x270100 0x06 0x11 v →
    (10 ≤ u.fld 0x270100 20 16 → u.fld 0x270100 20 16 ≤ 16 → u.exclusiveMeets 6 u.pfxRegion.1 u.pfxRegion.2 = none → s.kv.running = true →
      ∃ t : State, exec (.pfxEnable v) s = .next t ∧ t.flag 0x270100 31 = true ∧
        t.kv = { s.kv with treeRunning := true, epochFrom := s.now } ∧
        (∀ o, o ≠ 0x270100 → t.reg o = s.reg o) ∧ (∀ a, (a < u.pfxRegion.1 ∨ u.pfxRegion.1 + u.pfxRegion.2 ≤ a ∨ s.nodes ≠ []) → byteAt t.bonded a = byteAt s.bonded a) ∧
        t = { s with regs := t.regs, log := t.log, kv := t.kv, bonded := t.bonded }) ∧
    ((u.fld 0x270100 20 16 < 10 ∨ 16 < u.fld 0x270100 20 16 ∨ u.exclusiveMeets 6 u.pfxRegion.1 u.pfxRegion.2 ≠ none ∨ s.kv.running = false) →
      ∃ t : State, exec (.pfxEnable v) s = .next t ∧ t.flag 0x270100 31 = false ∧ t.lastCode 0x27010C = 0x1A01#16 ∧
        (∀ o, o ≠ 0x270100 → t.reg o = s.reg o) ∧ t = { s with regs := t.regs, log := t.log })) ∧
  (∀ (s : State) (v : Word), s.sealed = false →
    (s.answers 0 0x270008 = true → s.flag 0x270008 31 = true → s.wouldBe 0x270008 v ≠ s.reg 0x270008 →
      ∃ t : State, exec (.kvEnable v) s = .next t ∧ t.lastCode 0x270010 = 0x1901#16 ∧ t = { s with log := t.log }) ∧
    (s.answers 0 0x270100 = true → s.flag 0x270100 31 = true → s.wouldBe 0x270100 v ≠ s.reg 0x270100 →
      ∃ t : State, exec (.pfxEnable v) s = .next t ∧ t.lastCode 0x27010C = 0x1A01#16 ∧ t = { s with log := t.log })) ∧
  (∀ (s : State) (p : Fin 6) (v : Word), s.answers 0 (0x270040 + 4 * p.val) = true →
    (s.kvUsed p ≤ bits v 23 0 →
      ∃ t : State, exec (.kvQuotaWrite p v) s = .next t ∧ t.kvQuota p = bits v 23 0 ∧
        (∀ o, o ≠ 0x270040 + 4 * p.val → t.reg o = s.reg o) ∧ t = { s with regs := t.regs, log := t.log }) ∧
    (bits v 23 0 < s.kvUsed p →
      ∃ t : State, exec (.kvQuotaWrite p v) s = .next t ∧ t.lastCode 0x270010 = 0x1901#16 ∧ t = { s with log := t.log })) ∧
  (∀ (s : State), (s.kv.treeRunning = false ∨ s.now < s.kv.epochFrom + s.fld 0x270100 9 0 * 1000) → exec .epochTick s = .next s) ∧
  (∀ (s : State) (m : Nat), s.kv.treeRunning = true → s.kv.epochFrom + s.fld 0x270100 9 0 * 1000 ≤ s.now →
    m = ({ s with kv := { s.kv with epoch := s.kv.epoch + 1 } } : State).readerMin →
    ∃ t : State, exec .epochTick s = .next t ∧ t.kv.epoch = s.kv.epoch + 1 ∧
      t.kv.epochFrom = s.kv.epochFrom + s.fld 0x270100 9 0 * 1000 ∧
      t.kv.deferred = s.kv.deferred.filter (fun x => !State.epochPast m x.epoch) ∧
      (∀ n, n ∈ t.kv.freed ↔ n ∈ s.kv.freed ∨ ∃ x ∈ s.kv.deferred, State.epochPast m x.epoch = true ∧ x.voided = false ∧ x.slot = n) ∧
      t.kv.fresh = s.kv.fresh ∧ t = { s with kv := t.kv, nodes := t.nodes, bonded := t.bonded, counters := t.counters }) ∧
  (∀ (s : State) (fn : Fin 7) (addr : Nat) (data : List Byte),
    ((s.running = false ∨ s.power.mode ≠ 0 ∨ (s.sec.state = 0 ∧ fn.val ≠ 0)) → exec (.bar4Write fn addr data) s = .next s) ∧
    (s.running = true → s.power.mode = 0 → (s.sec.state ≠ 0 ∨ fn.val = 0) →
      ((s.window4 fn).2 < addr + data.length →
        ∃ t : State, exec (.bar4Write fn addr data) s = .next t ∧
          t.counter (hifOff fn + 0x0C) = satAdd (s.counter (hifOff fn + 0x0C)) 1 ∧ t.lastCode (hifOff fn) = 0x6031#16 ∧
          t = { s with counters := t.counters, log := t.log }) ∧
      (addr + data.length ≤ (s.window4 fn).2 →
        ∃ t : State, exec (.bar4Write fn addr data) s = .next t ∧
          (∀ x, byteAt t.bonded x =
            if (s.window4 fn).1 + addr ≤ x ∧ x < (s.window4 fn).1 + addr + data.length ∧ State.isReserved x = false ∧
              s.isPool x = false ∧ s.isRecipe x = false
            then data.getD (x - ((s.window4 fn).1 + addr)) 0 else byteAt s.bonded x) ∧
          t = { s with bonded := t.bonded, counters := t.counters, log := t.log, ctxs := t.ctxs })))

/-- Rings and descriptors. What rests on choices and readings of the model: the assumption log, 5, 80, 81. -/
def Obligations.RingsDoorbellsAndDescriptors : Prop :=
  (∀ (s : State) (fn : Fin 7) (i : Fin 64) (v : Word) (r : Ring), s.answers fn (ringOff fn i % 0x4000000) = true →
    hasRing fn i = true → bit v 31 = true → (s.ring fn i).en = false →
    r = { s.ring fn i with log2 := bits v 20 16, vector := bits v 10 0 } →
    (State.ringOk fn i r = true →
      ∃ t : State, exec (.ringEnable fn i v) s = .next t ∧ (t.ring fn i).en = true ∧ (t.ring fn i).log2 = bits v 20 16 ∧
        (t.ring fn i).vector = bits v 10 0 ∧ (t.ring fn i).base = r.base ∧ (t.ring fn i).db = 0 ∧ (t.ring fn i).rel = 0 ∧
        (t.ring fn i).err = false ∧ (hostWritten i = true → (t.ring fn i).seq = 0) ∧
        (i.val ≤ 33 → hostWritten i = false → (s.ring fn (i.val - 1)).pend = [] → (t.ring fn i).seq = 0 ∧ (t.ring fn i).armed = true) ∧
        t = { s with log := t.log }) ∧
    (State.ringOk fn i r = false →
      ∃ t : State, exec (.ringEnable fn i v) s = .next t ∧ (t.ring fn i).en = false ∧ t.lastCode (ringOff fn i + 0x18) = 0x1033#16 ∧
        t.lastCode (hifOff fn) = 0x1033#16 ∧ t = { s with log := t.log })) ∧
  (∀ (s : State) (fn : Fin 7) (i : Fin 64) (v : Word), s.answers fn (ringOff fn i % 0x4000000) = true →
    hasRing fn i = true → bit v 31 = true → (s.ring fn i).en = true → bits v 10 0 < vectorsOf fn →
    ∃ t : State, exec (.ringEnable fn i v) s = .next t ∧ (t.ring fn i).en = true ∧ (t.ring fn i).vector = bits v 10 0 ∧
      (t.ring fn i).log2 = (s.ring fn i).log2 ∧
      (bits v 20 16 = (s.ring fn i).log2 →
        t.ring fn i = { s.ring fn i with vector := bits v 10 0 } ∧ (∀ j, j < 64 → j ≠ i.val → t.ring fn j = s.ring fn j)) ∧
      (bits v 20 16 ≠ (s.ring fn i).log2 → t.lastCode (ringOff fn i + 0x18) = 0x1033#16) ∧ t = { s with log := t.log }) ∧
  (∀ (s : State) (fn : Fin 7) (i : Fin 64) (v : Word), s.answers fn (ringOff fn i % 0x4000000) = true →
    hasRing fn i = true → bit v 31 = false →
    ((s.ring fn i).en = false →
      ∃ t : State, exec (.ringDisable fn i v) s = .next t ∧
        t.ring fn i = { s.ring fn i with log2 := bits v 20 16, vector := bits v 10 0 } ∧ t = { s with log := t.log }) ∧
    ((s.ring fn i).en = true → ((hostWritten i = true ∧ (s.ring fn i).pend ≠ []) ∨
        (i.val ≤ 33 ∧ i.val % 2 = 1 ∧ (s.ring fn (i.val - 1)).en = true)) →
      ∃ t : State, exec (.ringDisable fn i v) s = .next t ∧ (t.ring fn i).en = true ∧ t.lastCode (ringOff fn i + 0x18) = 0x1033#16 ∧
        t = { s with log := t.log }) ∧
    ((s.ring fn i).en = true → (hostWritten i = true → (s.ring fn i).pend = []) →
      (i.val ≤ 33 → i.val % 2 = 1 → (s.ring fn (i.val - 1)).en = false) →
      ∃ t : State, exec (.ringDisable fn i v) s = .next t ∧ (t.ring fn i).en = false ∧ (t.ring fn i).armed = false ∧
        (t.ring fn i).log2 = (s.ring fn i).log2 ∧ t = { s with log := t.log })) ∧
  (∀ (s : State) (fn : Fin 7) (i : Fin 64) (v : Word),
    ((hasRing fn i = false ∨ (s.ring fn i).en = false ∨ hostWritten i = false) → exec (.submissionDoorbell fn i v) s = .next s) ∧
    ((hasRing fn i = false ∨ (s.ring fn i).en = false ∨ hostWritten i = true) → exec (.releaseDoorbell fn i v) s = .next s)) ∧
  (∀ (s : State) (fn : Fin 7) (i : Fin 64) (v : Word), hasRing fn i = true → (s.ring fn i).en = true → hostWritten i = true →
    ((v - (s.ring fn i).db).toNat < 2 ^ 31 → (v - (s.ring fn i).seq).toNat ≤ (s.ring fn i).entries →
      ∃ t : State, exec (.submissionDoorbell fn i v) s = .next t ∧ t.ring fn i = { s.ring fn i with db := v } ∧
        (∀ j, j < 64 → j ≠ i.val → t.ring fn j = s.ring fn j) ∧ t = { s with log := t.log }) ∧
    ((2 ^ 31 ≤ (v - (s.ring fn i).db).toNat ∨ (s.ring fn i).entries < (v - (s.ring fn i).seq).toNat) →
      ∃ t : State, exec (.submissionDoorbell fn i v) s = .next t ∧ t.ring fn i = s.ring fn i ∧
        t.counter (hifOff fn + 8) = satAdd (s.counter (hifOff fn + 8)) 1 ∧ t.lastCode (ringOff fn i + 0x18) = 0x1032#16 ∧
        t = { s with counters := t.counters, log := t.log })) ∧
  (∀ (s : State) (fn : Fin 7) (i : Fin 64) (v : Word), hasRing fn i = true → (s.ring fn i).en = true → hostWritten i = false →
    ((v - (s.ring fn i).rel).toNat ≤ ((s.ring fn i).seq - (s.ring fn i).rel).toNat →
      ∃ t : State, exec (.releaseDoorbell fn i v) s = .next t ∧ (t.ring fn i).rel = v ∧ (t.ring fn i).en = true ∧ t = { s with log := t.log }) ∧
    (((s.ring fn i).seq - (s.ring fn i).rel).toNat < (v - (s.ring fn i).rel).toNat →
      ∃ t : State, exec (.releaseDoorbell fn i v) s = .next t ∧ (t.ring fn i).rel = (s.ring fn i).rel ∧
        t.counter (hifOff fn + 8) = satAdd (s.counter (hifOff fn + 8)) 1 ∧ t.lastCode (ringOff fn i + 0x18) = 0x1032#16 ∧
        t = { s with counters := t.counters, log := t.log })) ∧
  (∀ (s : State) (fn : Fin 7) (i : Fin 64) (d : List Byte), s.serves = true → hasRing fn i = true → hostWritten i = true →
    (s.ring fn i).en = true → (s.ring fn i).err = false → s.log.d3.contains fn.val = false →
    d = readBytes s.log.host ((s.ring fn i).base.toNat + (s.ring fn i).seq.toNat % (s.ring fn i).entries * 64) 64 →
    ∃ t : State, exec (.descriptorFetch fn i) s = .next t ∧
      (t.ring fn i).seq = (s.ring fn i).seq + BitVec.ofNat 32 (s.fetchCount fn i) ∧ (t.ring fn i).en = true ∧
      (s.fetchCount fn i = 1 → (if i.val = 0 then State.adminBad fn d else State.workBad (s.ring fn i).bound d) = false →
        (t.ring fn i).pend.getLast? = some { tag := BitVec.ofNat 64 (fieldAt d 8 8), irq := decide (fieldAt d 1 1 % 2 = 1), done := none }) ∧
      (s.fetchCount fn i = 1 → (if i.val = 0 then State.adminBad fn d else State.workBad (s.ring fn i).bound d) = true →
        t.lastCode (ringOff fn i + 0x18) = 0x1031#16) ∧ t = { s with log := t.log }) ∧
  (∀ (s : State) (fn : Fin 7) (i : Fin 64), s.serves = true →
    (hasRing fn i = false ∨ hostWritten i = false ∨ (s.ring fn i).en = false ∨ (s.ring fn i).err = true ∨ s.log.d3.contains fn.val = true) →
    exec (.descriptorFetch fn i) s = .next s) ∧
  (∀ (s : State) (fn : Fin 7) (i : Fin 64), hasRing fn i = true → hostWritten i = true →
    ((s.ring fn i).en = true →
      ∃ t : State, exec (.descriptorFetchFail fn i) s = .next t ∧ t.ring fn i = { s.ring fn i with err := true, en := false } ∧
        t.lastCode (ringOff fn i + 0x18) = 0x2032#16 ∧ t.lastCode (hifOff fn) = 0x2032#16 ∧ t = { s with log := t.log }) ∧
    ((s.ring fn i).en = false → exec (.descriptorFetchFail fn i) s = .next s)) ∧
  (∀ (s : State) (id : Nat) (o : OpEntry), s.op id = some o →
    (o.complete = false → o.fault = 0 → (∃ r ∈ o.reads, r.space = .host) →
      ∃ t : State, exec (.hostReadFail id) s = .next t ∧ t.op id = some { o with fault := 0x2031#16, out := [], counts := {}, tally := [] } ∧
        (∀ j, j ≠ id → t.op j = s.op j) ∧ t = { s with ops := t.ops }) ∧
    ((o.complete = true ∨ o.fault ≠ 0 ∨ ∀ r ∈ o.reads, r.space ≠ .host) → exec (.hostReadFail id) s = .next s))

/-- Interrupts, the link and the functions. What rests on choices and readings of the model: the assumption log, 22, 80. -/
def Obligations.InterruptsLinkAndFunctions : Prop :=
  (∀ (s : State) (code : Half) (k i : Byte),
    (s.codeWindow code k.toNat i.toNat = false → exec (.eventWindowEnd code k i) s = .next s) ∧
    (∀ w, findWindow (windowKey code k.toNat i.toNat) s.log.windows = some w →
      (s.now - w.openedAt < 1000000 → exec (.eventWindowEnd code k i) s = .next s) ∧
      (1000000 ≤ s.now - w.openedAt → w.counted = 0 →
        ∃ t : State, exec (.eventWindowEnd code k i) s = .next t ∧ t.codeWindow code k.toNat i.toNat = false ∧
          t.log.rings = s.log.rings ∧ t = { s with log := t.log }) ∧
      (1000000 ≤ s.now - w.openedAt → w.counted ≠ 0 →
        ∃ t : State, exec (.eventWindowEnd code k i) s = .next t ∧
          findWindow (windowKey code k.toNat i.toNat) t.log.windows = some { openedAt := s.now } ∧
          (entersHexkeug code = true → t.log.hexHead = s.log.hexHead + 1) ∧ (entersHexkeug code = false → t.log.hexHead = s.log.hexHead) ∧
          t = { s with log := t.log }))) ∧
  (∀ (s : State) (fn : Fin 7) (i : Fin 64),
    ((s.ring fn i).due s.now = false → exec (.interruptTimer fn i) s = .next s) ∧
    ((s.ring fn i).due s.now = true →
      ∃ t : State, exec (.interruptTimer fn i) s = .next t ∧
        t.ring fn i = { s.ring fn i with armed := false, irqDue := false, timerFrom := none } ∧
        (s.log.d3.contains fn.val = false → s.log.msixUnmasked.contains (fn.val * 512 + (s.ring fn i).vector) = true →
          tget 0 t.log.msixSent (fn.val * 512 + (s.ring fn i).vector) = tget 0 s.log.msixSent (fn.val * 512 + (s.ring fn i).vector) + 1 ∧
          t.log.msixPending = s.log.msixPending) ∧
        ((s.log.d3.contains fn.val = true ∨ s.log.msixUnmasked.contains (fn.val * 512 + (s.ring fn i).vector) = false) →
          t.log.msixPending.contains (fn.val * 512 + (s.ring fn i).vector) = true ∧ t.log.msixSent = s.log.msixSent) ∧
        (∀ j, j < 64 → j ≠ i.val → t.ring fn j = s.ring fn j) ∧ t = { s with log := t.log })) ∧
  (∀ (s : State) (width rate : Nat),
    ∃ t : State, exec (.linkTrained width rate) s = .next t ∧ t.fld 0x2C1000 11 8 = width % 16 ∧ t.fld 0x2C1000 3 0 = rate % 16 ∧
      (∀ o, o ≠ 0x2C1000 → t.reg o = s.reg o) ∧ ((width < 8 ∨ rate < 5) → t.lastCode 0x2C1000 = 0x4031#16) ∧
      (8 ≤ width → 5 ≤ rate → t.log = s.log) ∧ t = { s with regs := t.regs, log := t.log }) ∧
  (∀ (s : State), exec (.vfFlr 0) s = .next s) ∧
  (∀ (s : State) (fn : Fin 7), fn ≠ 0 →
    ∃ t : State, exec (.vfFlr fn) s = .next t ∧ (∀ i, i < 59 → (t.ring fn i).en = false ∧ (t.ring fn i).bound = 0) ∧
      (∀ k, k / 512 = fn.val → t.log.msixUnmasked.contains k = false ∧ t.log.msixPending.contains k = false) ∧
      t.log.d3.contains fn.val = false ∧ (∀ n x, t.stream n = some x → x.fn ≠ fn.val) ∧
      (∀ n q, t.session n = some q → q.hdr.fn.val ≠ fn.val) ∧
      ((∀ x ∈ s.allCtxs, x.2.ending = none) → ∀ c x, t.ctx c = some x → x.polder + 1 = fn.val → x.doomed ≠ none) ∧
      t = { s with regs := t.regs, log := t.log, codec := t.codec, engines := t.engines, ctxs := t.ctxs, ops := t.ops,
                   recipes := t.recipes, nodes := t.nodes, bonded := t.bonded, kv := t.kv, counters := t.counters }) ∧
  (∀ (s : State) (c : Instr), c ∈ [Instr.pf0Flr, .hotReset, .perst] →
    exec c s = exec .pf0Flr s ∧
    ∃ t : State, exec c s = .next t ∧ (∀ (fn : Fin 7) (i : Nat), i < 59 → (t.ring fn i).en = false) ∧
      (∀ (fn : Fin 7), t.log.d3.contains fn.val = false) ∧
      t = { s with regs := t.regs, log := t.log, codec := t.codec, engines := t.engines, ctxs := t.ctxs, ops := t.ops,
                   recipes := t.recipes, nodes := t.nodes, bonded := t.bonded, kv := t.kv, counters := t.counters }) ∧
  (∀ (s : State) (fn : Fin 7) (v : Nat),
    (vectorsOf fn ≤ v → exec (.msixVectorUnmask fn v) s = .next s) ∧
    (v < vectorsOf fn →
      ∃ t : State, exec (.msixVectorUnmask fn v) s = .next t ∧ t.log.msixUnmasked.contains (fn.val * 512 + v) = true ∧
        (s.log.msixPending.contains (fn.val * 512 + v) = true → s.log.d3.contains fn.val = false →
          tget 0 t.log.msixSent (fn.val * 512 + v) = tget 0 s.log.msixSent (fn.val * 512 + v) + 1 ∧
          t.log.msixPending.contains (fn.val * 512 + v) = false) ∧
        ((s.log.msixPending.contains (fn.val * 512 + v) = false ∨ s.log.d3.contains fn.val = true) →
          t.log.msixSent = s.log.msixSent ∧ t.log.msixPending = s.log.msixPending) ∧
        t.log.rings = s.log.rings ∧ t = { s with log := t.log })) ∧
  (∀ (s : State) (fn : Fin 7),
    (∃ t : State, exec (.functionPowerState fn true) s = .next t ∧ t.log.d3.contains fn.val = true ∧ t.log.rings = s.log.rings ∧
      t.log.msixPending = s.log.msixPending ∧ t = { s with log := t.log }) ∧
    (∃ t : State, exec (.functionPowerState fn false) s = .next t ∧ t.log.d3.contains fn.val = false ∧ t = { s with log := t.log }))

/-- The line and its barriers. What rests on choices and readings of the model: the assumption log, 25, 92. -/
def Obligations.LineMembersAndBarriers : Prop :=
  (∀ (s u : State) (v : Word) (ps : List (Nat × PeerDesc)), s.answers 0 0x2E0000 = true → s.sealed = false →
    u = s.writeFields 0x2E0000 0x0F (bits v 27 24) v →
    (s.line.running = false → s.line.joined = false → u.flag 0x2E0000 31 = true → u.lineFails = [] → (∀ q ∈ ps, 2 ≤ q.2.level) →
      ∃ t : State, exec (.lineJoin v ps) s = .next t ∧ t.line.running = true ∧
        t.line.incarnation = (s.line.incarnation + 1) % 65536 ∧ t.line.joined = s.line.calDone ∧
        (∀ q ∈ t.line.peers, q ∈ ps ∧ q.2.lineId = s.reg 0x2E0004 ∧ q.2.index = q.1 ∧ q.2.hops = q.1 ∧ q.1 ≠ u.lineIndex ∧ q.1 < 16) ∧
        (∀ j, (t.ofProxy j).seq = 0) ∧ (∀ o, o ≠ 0x2E0000 → t.reg o = s.reg o) ∧
        (∀ a, (a < u.lineWindow.1 ∨ u.lineWindow.1 + 256 ≤ a) → byteAt t.bonded a = byteAt s.bonded a) ∧
        t = { s with regs := t.regs, log := t.log, line := t.line, fwds := t.fwds, proxies := t.proxies, bonded := t.bonded, qps := t.qps }) ∧
    (s.line.running = false → u.flag 0x2E0000 31 = true → u.lineFails ≠ [] →
      ∃ t : State, exec (.lineJoin v ps) s = .next t ∧ t.flag 0x2E0000 31 = false ∧ t.lastCode 0x2E0014 = 0x1041#16 ∧
        (∀ o, o ≠ 0x2E0000 → t.reg o = s.reg o) ∧ t = { s with regs := t.regs, log := t.log }) ∧
    (s.line.running = true → u.flag 0x2E0000 31 = false → (∀ p ∈ s.parts, p.proxy = none ∨ p.sealed = true) →
      ∃ t : State, exec (.lineJoin v ps) s = .next t ∧ t.line.running = false ∧ t.line.joined = false ∧ t.line.mask = 0 ∧
        t.line.peers = [] ∧ (∀ o, o ≠ 0x2E0000 → t.reg o = s.reg o) ∧
        t = { s with regs := t.regs, log := t.log, line := t.line, proxies := t.proxies, qps := t.qps, ops := t.ops }) ∧
    (s.line.running = u.flag 0x2E0000 31 →
      ∃ t : State, exec (.lineJoin v ps) s = .next t ∧ t.reg 0x2E0000 = u.reg 0x2E0000 ∧ (∀ o, o ≠ 0x2E0000 → t.reg o = s.reg o) ∧
        t = { s with regs := t.regs, log := t.log })) ∧
  (∀ (s : State),
    ((s.isHead = false ∨ s.line.running = false ∨ s.line.release = none) → exec .eqHeadFrame s = .next s) ∧
    (∀ n late, s.isHead = true → s.line.running = true → s.line.release = some (n, late) →
      ∃ t : State, exec .eqHeadFrame s = .next t ∧
        t.line.action = some (n, late, s.line.absent, decide (s.presetBits ≠ 0), s.now + (s.line.dTail + 200000) / 1000) ∧
        t.line.mask = s.line.mask ∧ t = { s with line := t.line })) ∧
  (∀ (s : State) (f : EqDown),
    ((s.line.running = false ∨ s.lineIndex = 0) → exec (.eqDownstreamFrame f) s = .next s) ∧
    (s.line.running = true → s.lineIndex ≠ 0 → f.crcOk = false →
      (s.line.failedUp + 1 < 3 →
        ∃ t : State, exec (.eqDownstreamFrame f) s = .next t ∧ t.counter 0x2E0130 = satAdd (s.counter 0x2E0130) 1 ∧
          t.line = { s.line with failedUp := s.line.failedUp + 1 } ∧ t = { s with counters := t.counters, line := t.line }) ∧
      (3 ≤ s.line.failedUp + 1 → (∀ p ∈ s.parts, p.proxy = none ∨ p.sealed = true) →
        ∃ t : State, exec (.eqDownstreamFrame f) s = .next t ∧ t.counter 0x2E0130 = satAdd (s.counter 0x2E0130) 1 ∧
          t.line.lostUp = true ∧ t.line.isolated = true ∧ t.codeWindow 0x5041#16 0x0F s.lineIndex = true ∧
          t = { s with counters := t.counters, line := t.line, log := t.log, proxies := t.proxies, qps := t.qps, ops := t.ops })) ∧
    (s.line.running = true → s.lineIndex ≠ 0 → f.crcOk = true → (∀ p ∈ s.parts, p.proxy = none ∨ p.sealed = true) →
      ∃ t : State, exec (.eqDownstreamFrame f) s = .next t ∧ t.line.mask = f.mask ∧ t.line.dTail = f.dTail * 125 ∧ t.line.level = f.level ∧
        t.line.mixed = f.mixed ∧ t.line.failedUp = 0 ∧ t.line.lostUp = false ∧ t.line.isolated = false ∧
        (f.typ = .release → t.line.action =
          some (f.barrier.toNat, f.late, t.line.absent, f.preset, s.now + (f.dTail * 125 - s.line.d + 200000) / 1000)) ∧
        (f.typ ≠ .release → t.line.action = s.line.action) ∧
        (∀ m, m < 16 → m ≠ s.lineIndex → State.hasBit s.line.mask m = true → State.hasBit f.mask m = false → State.hasBit t.line.absent m = true) ∧
        t = { s with line := t.line, log := t.log, proxies := t.proxies, qps := t.qps, ops := t.ops })) ∧
  (∀ (s : State) (f : EqUp),
    (s.line.running = false → exec (.eqUpstreamFrame f) s = .next s) ∧
    (s.line.running = true → f.crcOk = false → s.line.failedDn + 1 < 3 →
      ∃ t : State, exec (.eqUpstreamFrame f) s = .next t ∧ t.counter 0x2E0130 = satAdd (s.counter 0x2E0130) 1 ∧
        t.line = { s.line with failedDn := s.line.failedDn + 1 } ∧ t = { s with counters := t.counters, line := t.line }) ∧
    (s.line.running = true → f.crcOk = true → s.isHead = false →
      ∃ t : State, exec (.eqUpstreamFrame f) s = .next t ∧ t.line = { s.line with failedDn := 0, lostDn := false } ∧ t = { s with line := t.line }) ∧
    (s.line.running = true → f.crcOk = true → s.isHead = true → (∀ p ∈ s.parts, p.proxy = none ∨ p.sealed = true) →
      ∃ t : State, exec (.eqUpstreamFrame f) s = .next t ∧ t.line.failedDn = 0 ∧ t.line.lostDn = false ∧
        (∀ m, m < 16 → m ≠ s.lineIndex →
          (State.hasBit f.mask m = true → State.hasBit t.line.mask m = true) ∧
          (State.hasBit f.mask m = false → State.hasBit s.line.mask m = true → State.hasBit s.line.missing m = true →
            State.hasBit t.line.mask m = false ∧ State.hasBit t.line.absent m = true) ∧
          (State.hasBit f.mask m = false → State.hasBit s.line.mask m = true → State.hasBit s.line.missing m = false →
            State.hasBit t.line.mask m = true ∧ State.hasBit t.line.missing m = true)) ∧
        t = { s with line := t.line, log := t.log, proxies := t.proxies, qps := t.qps, ops := t.ops })) ∧
  (∀ (s : State), (∀ p ∈ s.parts, p.proxy = none ∨ p.sealed = true) →
    (∃ t : State, exec (.eqLinkLoss true) s = .next t ∧ t.line.lostUp = true ∧ t.line.isolated = true ∧
      t.codeWindow 0x5041#16 0x0F s.lineIndex = true ∧ (∀ m, m < s.lineIndex → State.hasBit t.line.mask m = false) ∧
      t = { s with line := t.line, log := t.log, proxies := t.proxies, qps := t.qps, ops := t.ops }) ∧
    (∃ t : State, exec (.eqLinkLoss false) s = .next t ∧ t.line.lostDn = true ∧ t.line.tail = true ∧
      t.codeWindow 0x5041#16 0x0F s.lineIndex = true ∧ (∀ m, s.lineIndex < m → m < 16 → State.hasBit t.line.mask m = false) ∧
      t = { s with line := t.line, log := t.log, proxies := t.proxies, qps := t.qps, ops := t.ops })) ∧
  (∀ (s : State) (v : Word) (up dn : Nat), s.answers 0 0x2E0120 = true →
    (bit v 0 = false → exec (.eqCal v up dn) s = .next s) ∧
    (bit v 0 = true →
      ∃ t : State, exec (.eqCal v up dn) s = .next t ∧ t.line.calDone = true ∧ t.line.upPs = up ∧ t.line.dnPs = dn ∧
        t.line.d = (if s.lineIndex = 0 then 0 else Config.chainBefore s.lineIndex + up) ∧
        t.line.joined = (s.line.joined || s.line.running) ∧ t = { s with line := t.line })) ∧
  (∀ (s : State) (up dn : Nat),
    ∃ t : State, exec (.eqRemeasure up dn) s = .next t ∧ t.line = { s.line with newUp := some up, newDn := some dn } ∧
      (s.line.calDone = true → (State.drifted up s.line.calUp = true ∨ State.drifted dn s.line.calDn = true) → t.lastCode 0x2E0014 = 0x4042#16) ∧
      ((s.line.calDone = false ∨ (State.drifted up s.line.calUp = false ∧ State.drifted dn s.line.calDn = false)) → t.log = s.log) ∧
      t = { s with line := t.line, log := t.log }) ∧
  (∀ (s : State) (v : Word), s.answers 0 0x2E010C = true →
    (s.line.running = false → exec (.eqArrive v) s = .next s) ∧
    (s.line.running = true →
      ∃ t : State, exec (.eqArrive v) s = .next t ∧ t.line.arrival = max s.line.arrival v.toNat ∧
        (s.isHead = false → t.line = { s.line with arrival := max s.line.arrival v.toNat }) ∧
        (∀ arr : Half, s.isHead = true → s.line.joined = true → s.line.release = none →
          arr = (if s.target ≤ max s.line.arrival v.toNat then s.line.arrived ||| State.lineBit s.lineIndex else s.line.arrived) →
          (s.counted ≠ 0 → s.counted &&& arr = s.counted → t.line.release = some (s.target, 0) ∧ t.line.released = s.target) ∧
          (s.counted &&& arr ≠ s.counted → t.line.release = none ∧ t.line.arrived = arr)) ∧
        t = { s with line := t.line })) ∧
  (∀ (s : State),
    ((s.line.arrivedFrom = none ∨ s.isHead = false ∨ s.line.release ≠ none ∨
      ∃ a, s.line.arrivedFrom = some a ∧ s.now < a + s.fld 0x2E0100 31 16 * 1000) → exec .barrierTimeout s = .next s) ∧
    (∀ a, s.line.arrivedFrom = some a → s.isHead = true → s.line.release = none → a + s.fld 0x2E0100 31 16 * 1000 ≤ s.now →
      ∃ t : State, exec .barrierTimeout s = .next t ∧ t.line.release = some (s.target, s.counted &&& ~~~s.line.arrived) ∧
        t.line.released = s.target ∧ t.line.arrived = 0 ∧ t.line.arrivedFrom = none ∧ t = { s with line := t.line })) ∧
  (∀ (s : State), s.line.action = none → exec .barrierReleaseAction s = .next s) ∧
  (∀ (s : State) (n a i : Nat) (late absent : Half) (preset : Bool), s.line.action = some (n, late, absent, preset, i) →
    a = s.reg64 0x2E0104 / 16 * 16 →
    (s.now < i → exec .barrierReleaseAction s = .next s) ∧
    (i ≤ s.now →
      ∃ t : State, exec .barrierReleaseAction s = .next t ∧ t.word64 a = max (s.word64 a) n % 2 ^ 64 ∧
        t.word64 (a + 8) = late.toNat + absent.toNat * 65536 + (if preset then 2 ^ 32 else 0) ∧
        (∀ x, (x < a ∨ a + 16 ≤ x) → byteAt t.bonded x = byteAt s.bonded x) ∧
        t.line.action = none ∧ t.line.lastTime = s.time.t ∧ t.line.released = max s.line.released n ∧ t.line.absent = 0 ∧
        (absent ≠ 0 → t.counter 0x2E0138 = satAdd (s.counter 0x2E0138) 1) ∧
        (late ≠ 0 → t.counter 0x2E0134 = satAdd (s.counter 0x2E0134) 1 ∧ t.lastCode 0x2E0014 = 0x4041#16) ∧
        (preset = false → t = { s with bonded := t.bonded, line := t.line, counters := t.counters, log := t.log, ctxs := t.ctxs }) ∧
        t = { s with bonded := t.bonded, line := t.line, counters := t.counters, log := t.log, ctxs := t.ctxs, axes := t.axes,
                     cal := t.cal, parts := t.parts, sluices := t.sluices, provings := t.provings, regs := t.regs }))

/-- Proxies. What rests on choices and readings of the model: the assumption log, 90, 93, 135. -/
def Obligations.ProxySlotsAndAreaParts : Prop :=
  (∀ (s : State) (m : ProxyMsg), s.proxyOn m.proxy = false →
    exec (.proxyAdmit m) s = .next s ∧ exec (.proxySeal m) s = .next s ∧ exec (.proxyClose m) s = .next s) ∧
  (∀ (s : State) (m : ProxyMsg) (x : ProxyIn), s.proxyOn m.proxy = true → x = s.ofProxy m.proxy → m.seq.toNat = x.seq →
    (x.absent = false → s.rateTake.2 = true →
      ∃ t : State, exec (.proxyAdmit m) s = .next t ∧ t.vu = s.rateTake.1.vu ∧
        t.parts = s.parts ++ [{ lane := s.proxyLane m.proxy, slot := m.slot.toNat, firstBlock := m.block, lastBlock := m.block, x0 := 0
                                x1 := s.sluiceCols (s.proxyLane m.proxy) - 1, on := m.on, off := m.off, deadline := m.deadline
                                offKnown := true, proxy := some m.proxy.val }] ∧
        t.ofProxy m.proxy = { x with seq := x.seq + 1, read := x.read + 1, nextSlot := m.slot.toNat + 1 } ∧
        (∀ j, j ≠ m.proxy.val → t.ofProxy j = s.ofProxy j) ∧ t = { s with parts := t.parts, proxies := t.proxies, vu := t.vu }) ∧
    (x.absent = false → s.rateTake.2 = false → (∀ y ∈ s.parts, y.proxy = some m.proxy.val → y.slot ≠ m.slot.toNat) →
      ∃ (t : State) (q : Part), exec (.proxyAdmit m) s = .next t ∧ q ∈ t.parts ∧ q.proxy = some m.proxy.val ∧ q.slot = m.slot.toNat ∧
        q.sealed = true ∧ q.cls = 3 ∧ q.status = 0x3040#16 ∧ t.parts.length = s.parts.length + 1 ∧
        t = { s with parts := t.parts, proxies := t.proxies, vu := t.vu, counters := t.counters, log := t.log, cal := t.cal, fs := t.fs }) ∧
    (x.absent = true →
      (∃ t : State, exec (.proxyAdmit m) s = .next t ∧ t.ofProxy m.proxy = { x with seq := x.seq + 1, read := x.read + 1 } ∧
        t = { s with proxies := t.proxies }) ∧
      (∃ t : State, exec (.proxySeal m) s = .next t ∧ t.ofProxy m.proxy = { x with seq := x.seq + 1, read := x.read + 1 } ∧
        t = { s with proxies := t.proxies }))) ∧
  (∀ (s : State) (m : ProxyMsg) (x : ProxyIn) (p : Part) (b : List Byte), s.proxyOn m.proxy = true → x = s.ofProxy m.proxy →
    m.seq.toNat = x.seq → x.absent = false → s.parts.find? (State.isProxied m.proxy m.slot.toNat) = some p → b = padTo 252 (m.record.drop 4) →
    (p.sealed = false →
      ∃ (t : State) (q : Part), exec (.proxySeal m) s = .next t ∧ q ∈ t.parts ∧ q.proxy = some m.proxy.val ∧ q.slot = m.slot.toNat ∧
        q.sealed = true ∧ q.cls = fieldAt b 0 1 ∧ q.on = m.on ∧ q.off = m.off ∧
        (fieldAt b 1 1 ≠ 1 → q.action = fieldAt b 1 1 ∧ t.cal = s.cal) ∧
        (fieldAt b 1 1 = 1 → q.action = 1 ∨ q.action = 4) ∧ t.parts.length = s.parts.length ∧
        t.counter 0x280010 = satAdd (s.counter 0x280010) 1 ∧
        t = { s with parts := t.parts, proxies := t.proxies, counters := t.counters, log := t.log, cal := t.cal, fs := t.fs }) ∧
    (p.sealed = true →
      ∃ t : State, exec (.proxySeal m) s = .next t ∧ t.parts = s.parts ∧ t = { s with proxies := t.proxies })) ∧
  (∀ (s : State) (m : ProxyMsg) (x : ProxyIn), s.proxyOn m.proxy = true → x = s.ofProxy m.proxy → m.seq.toNat = x.seq →
    (x.absent = false →
      ∃ t : State, exec (.proxyClose m) s = .next t ∧
        t.ofProxy m.proxy = { x with seq := x.seq + 1, read := x.read + 1, lastOff := m.off, areas := 0 } ∧
        (∀ j, j ≠ m.proxy.val → t.ofProxy j = s.ofProxy j) ∧ t = { s with proxies := t.proxies }) ∧
    (x.absent = true →
      ∃ t : State, exec (.proxyClose m) s = .next t ∧
        t.ofProxy m.proxy = { x with seq := x.seq + 1, read := x.read + 1, lastOff := m.off, areas := 0, absent := decide (s.line.level < 2) } ∧
        (∀ j, j ≠ m.proxy.val → t.ofProxy j = s.ofProxy j) ∧ t = { s with proxies := t.proxies, cal := t.cal })) ∧
  (∀ (s : State) (m : ProxyMsg) (x : ProxyIn), s.proxyOn m.proxy = true → x = s.ofProxy m.proxy → m.seq.toNat ≠ x.seq → x.absent = false →
    (∀ p ∈ s.parts, p.proxy = some m.proxy.val → p.sealed = true) →
    ∃ t : State, exec (.proxyAdmit m) s = .next t ∧
      t.ofProxy m.proxy = { x with seq := m.seq.toNat + 1, read := x.read + 1, absent := true, areas := 0 } ∧
      t.lastCode 0x2E0014 = 0x2041#16 ∧ t.parts = s.parts ∧ t = { s with proxies := t.proxies, log := t.log }) ∧
  (∀ (s : State) (k : Fin 18) (f : FwdOut), f = tget {} s.fwds k →
    ((s.forwarded k = false ∨ f.stopped = true) → exec (.proxyRingFull k) s = .next s) ∧
    (s.forwarded k = true → f.stopped = false →
      ∃ t : State, exec (.proxyRingFull k) s = .next t ∧
        tget {} t.fwds k = { f with stopped := true, fullSince := some (f.fullSince.getD (s.now - 1000000)) } ∧
        (∀ j, j ≠ k.val → tget {} t.fwds j = tget {} s.fwds j) ∧ t.lastCode 0x2E0014 = 0x7046#16 ∧
        t = { s with fwds := t.fwds, log := t.log })) ∧
  (∀ (s : State) (j : Fin 16) (x : ProxyIn) (k : Nat) (start : Fine), x = s.ofProxy j → k = s.proxyLane j →
    start = State.along (s.bindDir k) x.lastOff ((x.areas * s.proxySpan j * 65536 : Nat) : Int) →
    ((s.proxyOn j = false ∨ x.absent = false ∨ s.line.level < 3 ∨
      State.beyond (s.bindDir k) (State.along (s.bindDir k) (s.posAt (s.bindAxis k) s.time.t) (s.bindDist k)) start = false) →
      exec (.peerAreaPart j) s = .next s) ∧
    (s.proxyOn j = true → x.absent = true → 3 ≤ s.line.level →
      State.beyond (s.bindDir k) (State.along (s.bindDir k) (s.posAt (s.bindAxis k) s.time.t) (s.bindDist k)) start = true →
      ∃ (t : State) (q : Part), exec (.peerAreaPart j) s = .next t ∧ q ∈ t.parts ∧ q.proxy = some j.val ∧ q.slot = x.nextSlot ∧ q.lane = k ∧
        q.on = start ∧ q.off = State.along (s.bindDir k) start ((s.proxySpan j * 65536 : Nat) : Int) ∧ q.sealed = true ∧ q.cls = 2 ∧
        q.status = 0x7043#16 ∧ t.ofProxy j = { x with areas := x.areas + 1, nextSlot := x.nextSlot + 1 } ∧
        t.parts.length = s.parts.length + 1 ∧ t.counter 0x280010 = satAdd (s.counter 0x280010) 1 ∧ t.vu = s.rateTake.1.vu ∧
        t = { s with parts := t.parts, proxies := t.proxies, vu := t.vu, counters := t.counters, log := t.log, cal := t.cal, fs := t.fs }))

/-- R371 for each way a slot becomes proxy-failsafe. -/
def Obligations.ProxyFailsafeTakesFsPass : Prop :=
  (∀ (s : State) (k : Fin 18) (slot j : Nat) (p : Part),
    s.parts.find? (fun x => decide (x.lane = k.val) && decide (x.slot = slot) && x.proxy.isSome && !x.sealed) = some p →
    p.proxy = some j → (∀ x ∈ s.parts, x.lane = k.val → x.slot = slot → x.proxy ≠ none) → s.vuOn = true →
    s.axisFault (s.bindAxis k) = false → State.beyond (s.bindDir k) (s.posAt (s.bindAxis k) s.time.t) p.deadline = true →
    ∃ (t : State) (q : Part), exec (.deadline k slot) s = .next t ∧ q ∈ t.parts ∧ q.proxy = some j ∧ q.slot = slot ∧ q.sealed = true ∧
      q.cls = 2 ∧ q.late = true ∧ (s.flag (State.proxyOff j) 8 = true → q.action = 0 ∧ t.cal = s.cal) ∧
      (s.flag (State.proxyOff j) 8 = false → q.action = (s.ejectPart k p).2.1 ∧ t.cal = (s.ejectPart k p).1.cal ∧
        (q.action = 1 ∨ q.action = 4))) ∧
  (∀ (s : State) (j : Fin 16) (x : ProxyIn) (k : Nat) (start : Fine), x = s.ofProxy j → k = s.proxyLane j →
    start = State.along (s.bindDir k) x.lastOff ((x.areas * s.proxySpan j * 65536 : Nat) : Int) →
    s.proxyOn j = true → x.absent = true → 3 ≤ s.line.level →
    State.beyond (s.bindDir k) (State.along (s.bindDir k) (s.posAt (s.bindAxis k) s.time.t) (s.bindDist k)) start = true →
    ∃ (t : State) (q : Part), exec (.peerAreaPart j) s = .next t ∧ q ∈ t.parts ∧ q.proxy = some j.val ∧ q.slot = x.nextSlot ∧ q.sealed = true ∧
      q.cls = 2 ∧ (s.flag (State.proxyOff j) 8 = true → q.action = 0 ∧ t.cal = s.cal) ∧
      (s.flag (State.proxyOff j) 8 = false → q.action = 1 ∨ q.action = 4)) ∧
  (∀ (s : State) (j m : Nat), j < 16 → m < 16 → s.lineIndex < m → State.hasBit s.line.mask m = true → s.proxyOn j = true →
    s.proxyModule j = m → (s.ofProxy j).absent = false →
    ∃ t : State, exec (.eqLinkLoss false) s = .next t ∧
      ∀ p ∈ s.parts, p.proxy = some j → p.sealed = false →
        ∃ q ∈ t.parts, q.proxy = some j ∧ q.slot = p.slot ∧ q.sealed = true ∧ q.cls = 2 ∧ q.status = 0x7043#16 ∧
          (s.flag (State.proxyOff j) 8 = true → q.action = 0) ∧ (s.flag (State.proxyOff j) 8 = false → q.action = 1 ∨ q.action = 4)) ∧
  (∀ (s : State) (m : ProxyMsg), s.proxyOn m.proxy = true → m.seq.toNat ≠ (s.ofProxy m.proxy).seq → (s.ofProxy m.proxy).absent = false →
    ∃ t : State, exec (.proxySeal m) s = .next t ∧
      ∀ p ∈ s.parts, p.proxy = some m.proxy.val → p.sealed = false →
        ∃ q ∈ t.parts, q.proxy = some m.proxy.val ∧ q.slot = p.slot ∧ q.sealed = true ∧ q.cls = 2 ∧ q.status = 0x7043#16 ∧
          (s.flag (State.proxyOff m.proxy) 8 = true → q.action = 0) ∧ (s.flag (State.proxyOff m.proxy) 8 = false → q.action = 1 ∨ q.action = 4))

/-- Power, clocks, temperature and the supply pins. What rests on choices and readings of the model: the assumption log, 35,
103, 104, 105. -/
def Obligations.PowerClocksAndSupplies : Prop :=
  (∀ (s : State) (l : List Nat), (s.running = false ∨ s.now - s.power.tickAt < 10000) → exec (.almanacTick l) s = .next s) ∧
  (∀ (s : State) (l : List Nat), s.running = true → 10000 ≤ s.now - s.power.tickAt →
    ∃ t : State, exec (.almanacTick l) s = .next t ∧ t.power.tickAt = s.power.tickAt + 10000 ∧
      (∀ d, tget 0 t.power.energy d = tget 0 s.power.energy d +
        (if 50 ≤ d ∨ (s.variantN = true ∧ (d = 45 ∨ d = 47)) then 0 else l.getD d 0)) ∧
      (s.flag 0x2F0100 31 = false →
        t.power = { s.power with tickAt := t.power.tickAt, energy := t.power.energy } ∧ t = { s with power := t.power }) ∧
      (s.flag 0x2F0100 31 = true →
        t.power.bal = s.balance (State.meter s.variantN 0 l).sum ∧ t.power.cap = s.almCap ∧
        t.power.deferOut = State.lostAt t.power.bal s.almCap (s.fld 0x2F0108 15 8) (s.fld 0x2F0108 7 0) s.power.deferOut ∧
        t.power.shedOut = State.lostAt t.power.bal s.almCap (s.fld 0x2F0108 23 16) (s.fld 0x2F0108 7 0) s.power.shedOut ∧
        t.power.floor = decide (t.power.bal ≤ -(s.almCap : Int)) ∧
        (t.power.floor = true → s.power.floor = false → t.lastCode 0x2F0114 = 0x4051#16) ∧
        (s.deferAdmits = true → t.deferAdmits = false → ∀ c x, t.ctx c = some x → x.deferrable = true → x.deferred = true) ∧
        t = { s with power := t.power, log := t.log, lanes := t.lanes, free := t.free, ctxs := t.ctxs, codec := t.codec })) ∧
  (∀ (s : State) (v : Word), s.answers 0 0x2F0104 = true → 8 ≤ bits v 9 0 → bits v 9 0 ≤ 920 →
    ∃ t : State, exec (.almSettingWrite true v) s = .next t ∧ t.fld 0x2F0104 9 0 = bits v 9 0 ∧ (∀ o, o ≠ 0x2F0104 → t.reg o = s.reg o) ∧
      t = { s with regs := t.regs, log := t.log }) ∧
  (∀ (s : State) (v : Word), s.answers 0 0x2F0100 = true →
    (bit v 31 = true →
      ∃ t : State, exec (.almSettingWrite false v) s = .next t ∧ t.flag 0x2F0100 31 = true ∧ (∀ o, o ≠ 0x2F0100 → t.reg o = s.reg o) ∧
        (s.flag 0x2F0100 31 = false → t.power = { s.power with bal := t.almCap, cap := t.almCap }) ∧
        (s.flag 0x2F0100 31 = true → t.power = s.power) ∧ t = { s with regs := t.regs, log := t.log, power := t.power }) ∧
    (bit v 31 = false →
      ∃ t : State, exec (.almSettingWrite false v) s = .next t ∧ t.flag 0x2F0100 31 = false ∧ (∀ o, o ≠ 0x2F0100 → t.reg o = s.reg o) ∧
        t.power = { s.power with deferOut := false, shedOut := false, floor := false } ∧
        t = { s with regs := t.regs, log := t.log, power := t.power, ctxs := t.ctxs, codec := t.codec })) ∧
  (∀ (s : State) (d : Fin 25), (s.running = false ∨ s.power.stopped.getLsbD d = true ∨ s.stopCause d = true) →
    exec (.clockStopDetect d) s = .next s) ∧
  (∀ (s : State) (d : Fin 25), s.running = true → s.power.stopped.getLsbD d = false → s.stopCause d = false →
    ∃ t : State, exec (.clockStopDetect d) s = .next t ∧ t.power = { s.power with stopped := t.power.stopped } ∧
      (∀ i, i < 25 → t.power.stopped.getLsbD i = (s.power.stopped.getLsbD i || decide (i = d.val))) ∧
      t.flag 0x2F0004 d = true ∧ (∀ o, o ≠ 0x2F0004 → t.reg o = s.reg o) ∧ t.lastCode 0x2F0114 = 0x5051#16 ∧
      (s.freeze = false →
        (∀ e : Fin 6, d.val = e.val + 2 → t.vig = (s.order (.engine e)).vig) ∧
        ((d.val = 8 ∨ d.val = 14) → t.vig = (s.order .compute).vig) ∧
        (d.val ∈ [9, 10, 11, 13, 15, 20] → t.vig = (s.order .processor).vig) ∧
        (¬(16 ≤ d.val ∧ d.val < 20) → t = { s with power := t.power, regs := t.regs, log := t.log, vig := t.vig, fs := t.fs }))) ∧
  (∀ (s : State) (c : Nat),
    (s.power.closed.contains c = true → s.domainUp c = true → s.power.stopped.getLsbD (c - 1) = false →
      ∃ t : State, exec (.crossingReopen c) s = .next t ∧ t.power = { s.power with closed := s.power.closed.filter (fun x => decide (x ≠ c)) } ∧
        t = { s with power := t.power }) ∧
    ((s.power.closed.contains c = false ∨ s.domainUp c = false ∨ s.power.stopped.getLsbD (c - 1) = true) →
      exec (.crossingReopen c) s = .next s)) ∧
  (∀ (s : State) (v : Word), s.answers 0 0x2F0018 = true →
    ((bit v 31 = false ∨ s.power.mode ≠ 0) → exec (.sleep v) s = .next s) ∧
    (bit v 31 = true → s.power.mode = 0 → s.sleepBarred = true →
      ∃ t : State, exec (.sleep v) s = .next t ∧ t.lastCode 0x2F0114 = 0x1051#16 ∧ t = { s with log := t.log }) ∧
    (bit v 31 = true → s.power.mode = 0 → s.sleepBarred = false →
      ∃ t : State, exec (.sleep v) s = .next t ∧ t.power = { s.power with mode := 2 } ∧ (∀ n, n < 16 → t.port n = {}) ∧
        t = { s with power := t.power, ports := t.ports, lanes := t.lanes }) ∧
    ((bit v 30 = false ∨ s.power.mode ≠ 2) → exec (.wake v) s = .next s) ∧
    (bit v 30 = true → s.power.mode = 2 →
      ∃ t : State, exec (.wake v) s = .next t ∧ t.power = { s.power with mode := 0 } ∧ t = { s with power := t.power })) ∧
  (∀ (s : State) (lg dr : List Int), (s.power.dark = true ∨ s.now - s.power.readAt < 100000) → exec (.thermalSample lg dr) s = .next s) ∧
  (∀ (s : State) (lg dr : List Int) (tj tm : Int), s.power.dark = false → 100000 ≤ s.now - s.power.readAt →
    tj = State.hottest s.power.tj lg → tm = State.hottest s.power.tmem dr →
    ∃ t : State, exec (.thermalSample lg dr) s = .next t ∧ t.power.tj = tj ∧ t.power.tmem = tm ∧ t.power.readAt = s.now ∧
      ((16 * 95 ≤ tj ∨ 16 * 90 ≤ tm) → t.power.capped = true ∧ t.power.kTherm = 0) ∧
      (tj < 16 * 92 → tm < 16 * 87 → t.power.capped = false) ∧
      ((16 * 110 ≤ tj ∨ 16 * 98 ≤ tm) → t.power.hotFrom = some (s.power.hotFrom.getD s.now)) ∧
      (tj < 16 * 107 → tm < 16 * 95 → t.power.hotFrom = none) ∧
      (tj < 16 * 85 → tm < 16 * 85 → t.power.coolFrom = some (s.power.coolFrom.getD s.now)) ∧
      ((16 * 85 ≤ tj ∨ 16 * 85 ≤ tm) → t.power.coolFrom = none) ∧ (16 * 85 < tm → t.power.refresh = true) ∧
      (s.running = true → (16 * 95 ≤ tj ∨ 16 * 90 ≤ tm) → s.power.capped = false → t.lastCode 0x2F0308 = 0x4053#16) ∧
      t.power.bal = s.power.bal ∧ t.power.deferOut = s.power.deferOut ∧ t.power.shedOut = s.power.shedOut ∧ t.power.mode = s.power.mode ∧
      t = { s with power := t.power, log := t.log, lanes := t.lanes, free := t.free, ctxs := t.ctxs, codec := t.codec }) ∧
  (∀ (s : State),
    ((s.power.off = true ∨ s.power.dark = true ∨ ∀ a, s.power.hotFrom = some a → s.now - a < 1000000) → exec .thermalShutdown s = .next s) ∧
    (∀ a, s.power.off = false → s.power.dark = false → s.power.hotFrom = some a → 1000000 ≤ s.now - a →
      ∃ t : State, exec .thermalShutdown s = .next t ∧ t.power.off = true ∧ t.reasons / 2 ^ 5 % 2 = 1 ∧
        (∃ f ∈ t.vig.flushes, f.code = 0x5052#16) ∧
        t = { State.reset with pending := s.pending, free := s.free, now := s.now, time := {}, variantN := s.variantN, log := t.log,
                               regs := t.regs, fs := t.fs, engines := t.engines, lead := t.lead, vig := t.vig, sec := t.sec, power := t.power }) ∧
    ((s.power.off = false ∨ ∀ a, s.power.coolFrom = some a → s.now - a < 10000000000) → exec .thermalRestart s = .next s) ∧
    (∀ a, s.power.off = true → s.power.coolFrom = some a → 10000000000 ≤ s.now - a →
      ∃ t : State, exec .thermalRestart s = .next t ∧
        (s.vig.halted = false → s.vig.coldFrom = none → ∃ b, (Scope.cold, b) ∈ t.vig.orders) ∧ t = { s with vig := t.vig })) ∧
  (∀ (s : State),
    (∃ t : State, exec .powerLoss s = .next t ∧ t.power.dark = true ∧ t.power.off = false ∧ t.reasons = s.reasons ∧
      (∀ o, o ≠ 0x300090 → t.reg o = resetWord o) ∧ t.log = { host := s.log.host } ∧
      t.vig = { powerOns := s.vig.powerOns, slots := s.vig.slots, serial := s.vig.serial } ∧ t.sec.svn = s.sec.svn ∧ t.sec.flash = s.sec.flash ∧
      t = { State.reset with pending := s.pending, free := s.free, now := s.now, time := {}, variantN := s.variantN, log := t.log,
                             regs := t.regs, vig := t.vig, fs := {}, engines := [], lead := {}, sec := t.sec, power := t.power }) ∧
    (s.power.dark = false → exec .powerOn s = .next s) ∧
    (s.power.dark = true →
      ∃ t : State, exec .powerOn s = .next t ∧ t.power = { s.power with dark := false } ∧ t.vig.powerOns = s.vig.powerOns + 1 ∧ t.vig.boots = 0 ∧
        (s.vig.halted = false → s.vig.coldFrom = none → ∃ b, (Scope.cold, b) ∈ t.vig.orders) ∧ t = { s with power := t.power, vig := t.vig })) ∧
  (∀ (s : State) (ns : Nat),
    ((s.power.dark = true ∨ ns < 1000000 ∨ s.vig.pinFrom ≠ none) → exec (.nrstReq ns) s = .next s) ∧
    (s.power.dark = false → 1000000 ≤ ns → s.vig.pinFrom = none →
      ∃ t : State, exec (.nrstReq ns) s = .next t ∧
        ((ns < 10000000 ∧ t = { s with free := s.free + 1 }) ∨
         (t.vig.pinFrom = some s.now ∧ t.running = false ∧ t.vig.halted = false ∧
          t = { State.reset with pending := s.pending, free := t.free, now := s.now, time := {}, variantN := s.variantN, log := t.log,
                                 regs := t.regs, fs := t.fs, engines := t.engines, lead := t.lead, vig := t.vig, sec := t.sec, power := t.power }))) ∧
    (s.vig.pinFrom = none → exec .nrstReqRelease s = .next s) ∧
    (s.vig.pinFrom ≠ none →
      ∃ t : State, exec .nrstReqRelease s = .next t ∧ t.vig.pinFrom = none ∧
        (s.vig.halted = false → s.vig.coldFrom = none → ∃ b, (Scope.cold, b) ∈ t.vig.orders) ∧ t = { s with vig := t.vig })) ∧
  (∀ (s : State) (n : Fin 16),
    ((s.lane n).rxLpi = false → exec (.rxLpiWake n) s = .next s) ∧
    ((s.lane n).rxLpi = true →
      ∃ t : State, exec (.rxLpiWake n) s = .next t ∧ t.lane n = { s.lane n with
          rxLpi := false, cdr := true, eyeQuiet := (s.lane n).eyeQuiet + (s.now - max (s.lane n).quietFrom (s.lane n).eyeFrom) } ∧
        (∀ m, m ≠ n.val → t.lane m = s.lane m) ∧ t = { s with lanes := t.lanes }))

/-- Faults, resets and recovery. What rests on choices and readings of the model: the assumption log, 20, 96, 97, 98, 99,
100, 101, 120. -/
def Obligations.ResetsDetectionsAndTheLease : Prop :=
  (∀ (s : State) (e : Fin 6), s.takeOrder (.engine e) = none → exec (.engineReset e) s = .next s) ∧
  (∀ (s u : State) (e : Fin 6) (b : Bool), s.takeOrder (.engine e) = some (b, u) →
    ∃ t : State, exec (.engineReset e) s = .next t ∧ (t.engine e).inReset = some s.now ∧ (t.engine e).task = none ∧
      (t.engine e).gen = ((s.engine e).gen + 1) % 256 ∧ (t.engine e).tile = [] ∧ (t.engine e).resident = [] ∧
      (t.engine e).resets = (if b then (s.engine e).resets ++ [s.now] else (s.engine e).resets) ∧
      tget 0 t.vig.totals e = min 0xFFFF (tget 0 s.vig.totals e + 1) ∧ t.power.closed.contains (3 + e.val) = true ∧
      (∀ o ∈ t.ops, o.eng ≠ e.val) ∧ t.axes = s.axes ∧ t.time = s.time ∧ t.lanes = s.lanes ∧ t.ports = s.ports ∧ t.sec = s.sec ∧ t.sealed = s.sealed) ∧
  (∀ (s : State) (e : Fin 6), ((s.engine e).inReset = none ∨ s.vig.cmpFrom ≠ none) → exec (.engineResetDone e) s = .next s) ∧
  (∀ (s : State) (e : Fin 6), (s.engine e).inReset ≠ none → s.vig.cmpFrom = none →
    (s.engCount e < s.fld 0x300004 3 0 →
      ∃ t : State, exec (.engineResetDone e) s = .next t ∧ (t.engine e).inReset = none ∧ (t.engine e).retired = (s.engine e).retired ∧
        t.lastCode (0x260004 + 0x1000 * e.val) = 0x5061#16 ∧ t.axes = s.axes ∧ t.time = s.time ∧ t.sec = s.sec) ∧
    (s.fld 0x300004 3 0 ≤ s.engCount e →
      ∃ t : State, exec (.engineResetDone e) s = .next t ∧ (t.engine e).inReset = none ∧ (t.engine e).retired = true ∧
        (t.engine e).polder = none ∧ (t.engine e).task = none ∧ t.codeWindow 0x5066#16 0x0C 0 = true ∧ t.axes = s.axes ∧ t.time = s.time ∧ t.sec = s.sec)) ∧
  (∀ (s : State), s.takeOrder .compute = none → exec .computeReset s = .next s) ∧
  (∀ (s u : State) (b : Bool), s.takeOrder .compute = some (b, u) →
    ∃ t : State, exec .computeReset s = .next t ∧ t.vig.cmpFrom = some s.now ∧
      t.vig.cmpResets = (if b then s.vig.cmpResets ++ [s.now] else s.vig.cmpResets) ∧
      (∀ e, e < 6 → (t.engine e).inReset = some s.now ∧ (t.engine e).task = none ∧ (t.engine e).tile = []) ∧
      tget 0 t.vig.totals 6 = min 0xFFFF (tget 0 s.vig.totals 6 + 1) ∧ t.axes = s.axes ∧ t.time = s.time ∧ t.sec = s.sec ∧ t.sealed = s.sealed) ∧
  (∀ (s : State), s.vig.cmpFrom = none → exec .computeResetDone s = .next s) ∧
  (∀ (s : State), s.vig.cmpFrom ≠ none →
    ((s.cmpCount < s.fld 0x300008 4 0 ∨ s.vig.outOfService = true) →
      ∃ t : State, exec .computeResetDone s = .next t ∧ t.vig = { s.vig with cmpFrom := none } ∧ (∀ e, (t.engine e).inReset = none) ∧
        t.lastCode 0x300044 = 0x5062#16 ∧
        t = { s with vig := t.vig, engines := t.engines, power := t.power, log := t.log, ops := t.ops, ctxs := t.ctxs }) ∧
    (s.fld 0x300008 4 0 ≤ s.cmpCount → s.vig.outOfService = false →
      ∃ t : State, exec .computeResetDone s = .next t ∧ t.vig.cmpFrom = none ∧ t.vig.outOfService = true ∧ (∀ e, (t.engine e).inReset = none) ∧
        t.codeWindow 0x5067#16 0x0C 0 = true ∧ t.reasons / 2 ^ 2 % 2 = 1 ∧ t.axes = s.axes ∧ t.time = s.time ∧ t.sec = s.sec)) ∧
  (∀ (s : State), s.takeOrder .processor = none → exec .processorReset s = .next s) ∧
  (∀ (s u : State) (b : Bool), s.takeOrder .processor = some (b, u) →
    ∃ t : State, exec .processorReset s = .next t ∧ t.vig.procFrom = some s.now ∧ t.running = false ∧ t.vig.byCommand = !b ∧
      t.vig.procResets = (if b then s.vig.procResets ++ [s.now] else s.vig.procResets) ∧ t.vig.boots = s.vig.boots + 1 ∧
      t.vig.imageSealed = s.sealed ∧ t.sealed = false ∧ t.time = { running := true } ∧ t.ctxs = [] ∧ t.ops = [] ∧ t.cal = [] ∧ t.chans = [] ∧
      t.sec = { s.sec with debug := 0, nonce := none } ∧ t.log.hexHead = s.log.hexHead + 1 ∧ t.log.queues = s.log.queues ∧
      t.line.running = false ∧ (∀ c, 1 ≤ c → c ≤ 25 → t.power.closed.contains c = true) ∧
      (∀ e, (t.engine e).retired = (s.engine e).retired ∧ (t.engine e).task = none)) ∧
  (∀ (s : State), s.vig.procFrom = none → exec .processorResetEnd s = .next s) ∧
  (∀ (s : State), s.vig.procFrom ≠ none →
    ∃ t : State, exec .processorResetEnd s = .next t ∧ t.vig.procFrom = none ∧ t.sealed = s.vig.imageSealed ∧
      (s.vig.image = [] → ∀ p ∈ t.parts, p.sealed = true) ∧ (s.vig.byCommand = true → t.vig.outOfService = false ∧ t.vig.cmpResets = [])) ∧
  (∀ (s : State) (c : BootCheck), (s.power.dark = true ∨ s.vig.pinFrom ≠ none ∨ s.takeOrder .cold = none) → exec (.coldBoot c) s = .next s) ∧
  (∀ (s u : State) (c : BootCheck) (b : Bool), s.power.dark = false → s.vig.pinFrom = none → s.takeOrder .cold = some (b, u) →
    ∃ t : State, exec (.coldBoot c) s = .next t ∧ t.power.off = false ∧ t.vig.boots = s.vig.boots + 1 ∧
      ((c ≠ .ok ∨ s.sec.imageOk = false) → t.sec.state = 0 ∧ t.vig.coldFrom = none) ∧
      (c = .ok → s.sec.imageOk = true → t.sec.state = (if allZero s.ownerKey then 1 else 2) ∧ t.vig.coldFrom = some s.now) ∧
      t = { State.reset with pending := s.pending, free := s.free, now := s.now, time := {}, variantN := s.variantN, log := t.log,
                             regs := t.regs, fs := t.fs, engines := t.engines, lead := t.lead, vig := t.vig, sec := t.sec, power := t.power }) ∧
  (∀ (s : State), (s.vig.coldFrom = none ∨ s.power.dark = true ∨ s.vig.pinFrom ≠ none) → exec .coldBootComplete s = .next s) ∧
  (∀ (s : State), s.vig.coldFrom ≠ none → s.power.dark = false → s.vig.pinFrom = none →
    ∃ t : State, exec .coldBootComplete s = .next t ∧ t.time = { s.time with running := true } ∧
      t.vig = { s.vig with coldFrom := none, failedBoots := 0 } ∧
      t.sec = { s.sec with svn := BitVec.ofNat 32 (max s.sec.svn.toNat (fieldAt s.sec.header 0x0C 4)) } ∧
      t = { s with time := t.time, vig := t.vig, sec := t.sec }) ∧
  (∀ (s : State) (e : Fin 6),
    ((s.vig.cmpFrom ≠ none ∨ ∀ a, (s.engine e).inReset = some a → s.now - a < 200000) → exec (.resetEscalate (.engine e)) s = .next s) ∧
    (∀ a, s.vig.cmpFrom = none → (s.engine e).inReset = some a → 200000 ≤ s.now - a → s.freeze = false →
      ∃ t : State, exec (.resetEscalate (.engine e)) s = .next t ∧ t.lastCode 0x300044 = 0x5065#16 ∧ t.vig = (s.order .compute).vig ∧
        t = { s with log := t.log, vig := t.vig })) ∧
  (∀ (s : State),
    ((∀ a, s.vig.cmpFrom = some a → s.now - a < 2000000) → exec (.resetEscalate .compute) s = .next s) ∧
    (∀ a, s.vig.cmpFrom = some a → 2000000 ≤ s.now - a → s.freeze = false →
      ∃ t : State, exec (.resetEscalate .compute) s = .next t ∧ t.lastCode 0x300044 = 0x5065#16 ∧ t.vig = (s.order .processor).vig ∧
        t = { s with log := t.log, vig := t.vig }) ∧
    ((∀ a, s.vig.procFrom = some a → s.now - a < 400000000) → exec (.resetEscalate .processor) s = .next s) ∧
    (∀ a, s.vig.procFrom = some a → 400000000 ≤ s.now - a → s.freeze = false →
      ∃ t : State, exec (.resetEscalate .processor) s = .next t ∧ t.lastCode 0x300044 = 0x5065#16 ∧
        t.vig.orders = (s.order .cold).vig.orders ∧ (∃ f ∈ t.vig.flushes, f.code = 0x5065#16) ∧ t = { s with log := t.log, vig := t.vig }) ∧
    ((∀ a, s.vig.coldFrom = some a → s.now - a < 6000000000) → exec (.resetEscalate .cold) s = .next s) ∧
    (∀ a, s.vig.coldFrom = some a → 6000000000 ≤ s.now - a →
      ∃ t : State, exec (.resetEscalate .cold) s = .next t ∧ t.vig.failedBoots = s.vig.failedBoots + 1 ∧ t.vig.coldFrom = none ∧
        t.codeWindow 0x5064#16 0x0C 0 = true ∧ (3 ≤ s.vig.failedBoots + 1 → t.vig.halted = true ∧ t.reasons / 2 ^ 4 % 2 = 1) ∧
        (s.vig.failedBoots + 1 < 3 → s.vig.halted = false → ∃ b, (Scope.cold, b) ∈ t.vig.orders) ∧
        t = { s with log := t.log, vig := t.vig, regs := t.regs })) ∧
  (∀ (s : State) (x : Scope) (k : Byte),
    (∃ t : State, exec (.handshakeTimeout x k) s = .next t ∧ t.lastCode 0x300044 = 0x506B#16 ∧
      (s.freeze = false → t.vig = (s.order x).vig ∧ t.lead = s.lead) ∧
      (s.freeze = true → t.vig = s.vig ∧ t.lead = { s.lead with deferred := s.lead.deferred ++ [some x] }) ∧
      t = { s with log := t.log, vig := t.vig, lead := t.lead }) ∧
    (∃ t : State, exec (.fabricRequestTimeout k) s = .next t ∧ t.lastCode 0x300044 = 0x506B#16 ∧
      t.vig.timeouts = min 0xFFFF (s.vig.timeouts + 1) ∧
      (s.freeze = false → t.vig.orders = (s.order .compute).vig.orders ∧ t.lead = s.lead) ∧
      (s.freeze = true → t.vig.orders = s.vig.orders ∧ t.lead = { s.lead with deferred := s.lead.deferred ++ [some .compute] }) ∧
      t = { s with log := t.log, vig := t.vig, lead := t.lead })) ∧
  (∀ (s : State),
    ((∀ x ∈ s.streams, ∀ p ∈ x.2.waiting, p.started = false) → (∀ j ∈ s.archive.jobs, j.started = false) → exec .codecStall s = .next s) ∧
    (((∃ x ∈ s.streams, ∃ p ∈ x.2.waiting, p.started = true) ∨ ∃ j ∈ s.archive.jobs, j.started = true) → s.freeze = false →
      ∃ t : State, exec .codecStall s = .next t ∧ t.lastCode 0x300044 = 0x506B#16 ∧ t.vig = (s.order .compute).vig ∧
        t = { s with log := t.log, vig := t.vig })) ∧
  (∀ (s : State) (c : Fin 8),
    ((s.fld (State.coreOff c) 13 0 = 0 ∨ s.now - tget 0 s.vig.kicks c < s.fld (State.coreOff c) 13 0 * 1000000) → exec (.coreWatchdog c) s = .next s) ∧
    (s.fld (State.coreOff c) 13 0 ≠ 0 → s.fld (State.coreOff c) 13 0 * 1000000 ≤ s.now - tget 0 s.vig.kicks c →
      ∃ t : State, exec (.coreWatchdog c) s = .next t ∧ t.lastCode 0x300044 = 0x506E#16 ∧ tget 0 t.vig.kicks c = s.now ∧
        (s.freeze = false → t.lead = s.lead) ∧ (s.freeze = true → t.lead = { s.lead with deferred := s.lead.deferred ++ [none] }) ∧
        t = { s with log := t.log, vig := t.vig, lead := t.lead })) ∧
  (∀ (s : State) (c : Fin 8) (v : Word), s.answers 0 (State.coreOff c) = true →
    (bit v 31 = false → exec (.kick c v) s = .next s) ∧
    (bit v 31 = true → bits v 13 0 ≤ 10000 →
      ∃ t : State, exec (.kick c v) s = .next t ∧ tget 0 t.vig.kicks c = s.now ∧ t.fld (State.coreOff c) 13 0 = bits v 13 0 ∧
        (∀ o, o ≠ State.coreOff c → t.reg o = s.reg o) ∧ t = { s with regs := t.regs, log := t.log, vig := t.vig })) ∧
  (∀ (s : State) (v : Word), s.answers 0 0x300040 = true →
    (bit v 31 = false → exec (.rstEngine v) s = .next s) ∧ (bit v 30 = false → exec (.rstCompute v) s = .next s) ∧
    (bit v 29 = false → exec (.rstProcessor v) s = .next s) ∧
    (s.freeze = true → ∀ c ∈ (if bit v 31 then [Instr.rstEngine v] else []) ++ (if bit v 30 then [Instr.rstCompute v] else []) ++
        (if bit v 29 then [Instr.rstProcessor v] else []),
      ∃ t : State, exec c s = .next t ∧ t.lastCode 0x300044 = 0x1062#16 ∧ t = { s with log := t.log }) ∧
    (s.freeze = false → bit v 29 = true →
      ∃ t : State, exec (.rstProcessor v) s = .next t ∧ t.vig = (s.order .processor false).vig ∧ t = { s with vig := t.vig }) ∧
    (s.freeze = false → bit v 29 = false → bit v 30 = true →
      ∃ t : State, exec (.rstCompute v) s = .next t ∧ t.vig = (s.order .compute false).vig ∧ t = { s with vig := t.vig }) ∧
    (∀ e : Fin 6, s.freeze = false → bit v 29 = false → bit v 30 = false → bit v 31 = true → bits v 2 0 = e.val →
      ∃ t : State, exec (.rstEngine v) s = .next t ∧ t.vig = (s.order (.engine e) false).vig ∧ t = { s with vig := t.vig }) ∧
    (s.freeze = false → bit v 29 = false → bit v 30 = false → bit v 31 = true → 6 ≤ bits v 2 0 →
      ∃ t : State, exec (.rstEngine v) s = .next t ∧ t.vig = (s.order (.engine 5) false).vig ∧ t.lastCode 0x300044 = 0x1061#16 ∧
        t = { s with vig := t.vig, log := t.log })) ∧
  (∀ (s : State) (w : Warden),
    (s.leaseHeld = true → s.lead.holder ≠ some w →
      ∃ t : State, exec (.leaseRequest w) s = .next t ∧ t.lead.holder = s.lead.holder ∧ t.lead.grantAt = s.lead.grantAt ∧
        t.lead.leads = s.lead.leads ∧ t = { s with lead := t.lead }) ∧
    ((s.leaseHeld = false ∨ s.lead.holder = some w) →
      ∃ t : State, exec (.leaseRequest w) s = .next t ∧ t.lead.holder = some w ∧ t.lead.grantAt = s.now ∧ t.lead.leads = true ∧
        t.lead.frozen = false ∧ t.lead.deferred = [] ∧
        (s.lead.holder ≠ some w → t.counter 0x300084 = satAdd (s.counter 0x300084) 1 ∧ t.lastCode 0x300080 = 0x506D#16) ∧
        (s.lead.holder = some w → s.lead.deferred = [] → s.lead.frozen = false → t.log = s.log ∧ t.counters = s.counters ∧ t.vig = s.vig) ∧
        t = { s with lead := t.lead, vig := t.vig, engines := t.engines, counters := t.counters, log := t.log }) ∧
    ((s.lead.holder ≠ some w ∨ s.lead.leads = false ∨ s.now - s.lead.sentAt < 900000) → exec (.leaderDemote w) s = .next s) ∧
    (s.lead.holder = some w → s.lead.leads = true → 900000 ≤ s.now - s.lead.sentAt →
      ∃ t : State, exec (.leaderDemote w) s = .next t ∧ t.lead = { s.lead with leads := false } ∧ t = { s with lead := t.lead })) ∧
  (∀ (s : State) (w o : Warden) (last : Option Nat), last = (match w with | .n => s.lead.lastN | .s => s.lead.lastS) →
    ((s.lead.leads = false ∨ s.lead.holder = none ∨ s.lead.holder = some w ∨ s.now - last.getD 0 < 2000000) → exec (.wardenSilent w) s = .next s) ∧
    (s.lead.leads = true → s.lead.holder = some o → o ≠ w → 2000000 ≤ s.now - last.getD 0 →
      ∃ t : State, exec (.wardenSilent w) s = .next t ∧ t.lastCode 0x300080 = 0x506D#16 ∧ t.lead.holder = some o ∧ t.lead.leads = true ∧
        t = { s with lead := t.lead, log := t.log })) ∧
  (∀ (s : State),
    ((s.freeze = false ∨ s.lead.frozen = true ∨ s.now - s.lead.grantAt < 3000000) → exec .freezeDetect s = .next s) ∧
    (s.freeze = true → s.lead.frozen = false → 3000000 ≤ s.now - s.lead.grantAt →
      ∃ t : State, exec .freezeDetect s = .next t ∧ t.lead = { s.lead with frozen := true } ∧ t.lastCode 0x300080 = 0x5069#16 ∧
        t.time = { s.time with servo := if s.time.servo = 1 ∨ s.time.servo = 2 then 3 else s.time.servo } ∧
        t = { s with lead := t.lead, time := t.time, log := t.log })) ∧
  (∀ (s : State) (e : Half),
    ((∀ f ∈ s.vig.flushes, f.code ≠ e) → exec (.hexkeugFlush e) s = .next s) ∧
    (∀ f, s.vig.flushes.find? (fun x => decide (x.code = e)) = some f →
      ∃ t : State, exec (.hexkeugFlush e) s = .next t ∧
        tget none t.vig.slots (s.vig.serial % 8) = some { header := State.slotHeader s.vig.serial f, record := f.record } ∧
        (∀ i, i ≠ s.vig.serial % 8 → tget none t.vig.slots i = tget none s.vig.slots i) ∧
        t.vig.serial = (s.vig.serial + 1) % 2 ^ 32 ∧ f ∉ t.vig.flushes ∧ t = { s with vig := t.vig })) ∧
  (∀ (s : State) (v : Word), s.answers 0 0x301008 = true → bits v 3 0 ≤ 8 →
    ∃ t : State, exec (.hexSelWrite v) s = .next t ∧ t.fld 0x301008 3 0 = bits v 3 0 ∧ (∀ o, o ≠ 0x301008 → t.reg o = s.reg o) ∧
      (bits v 3 0 ≠ 0 → tget none s.vig.slots (bits v 3 0 - 1) = none → t.lastCode 0x30100C = 0x2062#16) ∧
      t = { s with regs := t.regs, log := t.log }) ∧
  (∀ (s : State) (v : Word), s.answers 0 0x300090 = true →
    ∃ t : State, exec (.replaceClear v) s = .next t ∧
      (∀ b, b < 6 → (t.reasons / 2 ^ b % 2 = 1 ↔ s.reasons / 2 ^ b % 2 = 1 ∧ (bit v b = false ∨ s.causePresent b = true))) ∧
      (∀ o, o ≠ 0x300090 → t.reg o = s.reg o) ∧ t = { s with regs := t.regs, log := t.log, vig := t.vig })

/-- Security requests. What rests on choices and readings of the model: the assumption log, 106, 107, 108, 109. -/
def Obligations.SecurityRequests : Prop :=
  (∀ (s : State) (n : Nat) (c : Instr) (code : Half) (ok : Bool), s.answers 0 0x320010 = true →
    (n, c) ∈ [(1, Instr.firmwareUpdate ok), (2, .ownerRecord), (3, .attestation), (4, .debugChallenge), (5, .debugToken), (6, .debugLock),
      (7, .lineSoftware), (8, .readCertificate), (9, .secColdBoot)] → s.secBar n = some code →
    ∃ t : State, exec c s = .next t ∧ t.sec = { s.sec with code, done := true } ∧ t.lastCode 0x320000 = code ∧
      t = { s with sec := t.sec, log := t.log }) ∧
  (∀ (s : State) (e : List Byte), s.answers 0 0x320010 = true → s.secBar 1 = none → e = s.secBytes →
    (∀ ok, s.imageGood e = false →
      ∃ t : State, exec (.firmwareUpdate ok) s = .next t ∧ t.sec = { s.sec with code := 0x6071#16, done := true } ∧
        t.lastCode 0x320000 = 0x6071#16 ∧ t = { s with sec := t.sec, log := t.log }) ∧
    (∀ ok, s.imageGood e = true → fieldAt e 0x0C 4 < s.sec.svn.toNat →
      ∃ t : State, exec (.firmwareUpdate ok) s = .next t ∧ t.sec = { s.sec with code := 0x6072#16, done := true } ∧
        t.lastCode 0x320000 = 0x6072#16 ∧ t = { s with sec := t.sec, log := t.log }) ∧
    (s.imageGood e = true → s.sec.svn.toNat ≤ fieldAt e 0x0C 4 →
      (∃ t : State, exec (.firmwareUpdate false) s = .next t ∧
        t.sec = { s.sec with flash := [], imageOk := false, code := 0x5071#16, done := true } ∧ t.lastCode 0x320000 = 0x5071#16 ∧
        t = { s with sec := t.sec, log := t.log }) ∧
      (∃ t : State, exec (.firmwareUpdate true) s = .next t ∧
        t.sec = { s.sec with flash := e.take 512, imageOk := true, debug := 0, code := 0, done := true } ∧
        (s.sec.state = 0 → t.vig = (s.order .cold false).vig) ∧ (s.sec.state ≠ 0 → t.vig = s.vig) ∧ t = { s with sec := t.sec, vig := t.vig }))) ∧
  (∀ (s : State) (e key : List Byte), s.answers 0 0x320010 = true → s.secBar 2 = none → e = s.secBytes.take 1024 → key = slice e 0x28 57 →
    (s.sec.gen = 0xFFFFFFFF#32 →
      ∃ t : State, exec .ownerRecord s = .next t ∧ t.sec = { s.sec with code := 0x1072#16, done := true } ∧ t = { s with sec := t.sec, log := t.log }) ∧
    (s.sec.gen ≠ 0xFFFFFFFF#32 → e.length = 1024 → fieldAt e 0 4 = 0x4F574C52 → fieldAt e 4 4 = s.sec.gen.toNat + 1 → slice e 8 32 = idDigest →
      Config.ed448Verify (if s.sec.state = 2 then s.ownerKey else key) (e.take 0x38E) (slice e 0x38E 114) = true →
      ∃ t : State, exec .ownerRecord s = .next t ∧ t.sec = { s.sec with
          gen := s.sec.gen + 1, owner := if allZero key then [] else e, state := if allZero key then 1 else 2, debug := 0, code := 0, done := true } ∧
        t = { s with sec := t.sec }) ∧
    (s.sec.gen ≠ 0xFFFFFFFF#32 → (e.length ≠ 1024 ∨ fieldAt e 0 4 ≠ 0x4F574C52 ∨ fieldAt e 4 4 ≠ s.sec.gen.toNat + 1 ∨ slice e 8 32 ≠ idDigest ∨
        Config.ed448Verify (if s.sec.state = 2 then s.ownerKey else key) (e.take 0x38E) (slice e 0x38E 114) = false) →
      ∃ t : State, exec .ownerRecord s = .next t ∧ t.sec = { s.sec with code := 0x6073#16, done := true } ∧
        t.lastCode 0x320000 = 0x6073#16 ∧ t = { s with sec := t.sec, log := t.log })) ∧
  (∀ (s : State), s.answers 0 0x320010 = true →
    (s.secBar 3 = none →
      ∃ t : State, exec .attestation s = .next t ∧ t.sec = { s.sec with code := 0, done := true } ∧
        (∀ a, a < s.secBuf → byteAt t.bonded a = byteAt s.bonded a) ∧ t = { s with sec := t.sec, bonded := t.bonded }) ∧
    (s.secBar 8 = none →
      ∃ t : State, exec .readCertificate s = .next t ∧ t.sec = { s.sec with code := 0, done := true } ∧
        (∀ i, i < Config.identityCertificate.length → s.secBuf + i < s.bar4Bytes →
          byteAt t.bonded (s.secBuf + i) = Config.identityCertificate.getD i 0) ∧
        (∀ a, (a < s.secBuf ∨ s.secBuf + Config.identityCertificate.length ≤ a) → byteAt t.bonded a = byteAt s.bonded a) ∧
        t = { s with sec := t.sec, bonded := t.bonded }) ∧
    (s.secBar 4 = none →
      ∃ (t : State) (n : List Byte), exec .debugChallenge s = .next t ∧ n.length = 32 ∧
        t.sec = { s.sec with nonce := some (n, s.now, s.attestedAll), nonces := s.sec.nonces + 1, code := 0, done := true } ∧
        (∀ a, (a < s.secBuf ∨ s.secBuf + 32 ≤ a) → byteAt t.bonded a = byteAt s.bonded a) ∧ t = { s with sec := t.sec, bonded := t.bonded }) ∧
    (s.secBar 6 = none →
      ∃ t : State, exec .debugLock s = .next t ∧ t.sec = { s.sec with debug := 0, code := 0, done := true } ∧ t = { s with sec := t.sec }) ∧
    (s.secBar 9 = none →
      ∃ t : State, exec .secColdBoot s = .next t ∧ t.sec = { s.sec with code := 0, done := true } ∧ (∃ f ∈ t.vig.flushes, f.code = 0x5064#16) ∧
        t.vig.orders = (s.order .cold false).vig.orders ∧ t = { s with sec := t.sec, vig := t.vig })) ∧
  (∀ (s : State) (e : List Byte), s.answers 0 0x320010 = true → s.secBar 5 = none → e = s.secBytes.take 256 →
    (s.sec.token = 0xFFFFFFFF#32 →
      ∃ t : State, exec .debugToken s = .next t ∧ t.sec = { s.sec with code := 0x1072#16, done := true } ∧ t = { s with sec := t.sec, log := t.log }) ∧
    (s.sec.token ≠ 0xFFFFFFFF#32 → e.length = 256 → fieldAt e 0 4 = 0x44574C52 → (fieldAt e 4 1 = 1 ∨ fieldAt e 4 1 = 2) → slice e 8 32 = idDigest →
      s.nonceNow = some (slice e 0x28 32) → s.sec.token.toNat < fieldAt e 0x48 4 → 60 ≤ fieldAt e 0x4C 4 → fieldAt e 0x4C 4 ≤ 86400 →
      s.tokenSigned e = true →
      ((fieldAt e 4 1 = 1 ∨ s.encResident = false) →
        ∃ t : State, exec .debugToken s = .next t ∧ t.sec = { s.sec with
            debug := fieldAt e 4 1, debugUntil := s.now + fieldAt e 0x4C 4 * 1000000000, token := BitVec.ofNat 32 (fieldAt e 0x48 4)
            nonce := none, code := 0, done := true } ∧ t = { s with sec := t.sec }) ∧
      (fieldAt e 4 1 = 2 → s.encResident = true →
        ∃ t : State, exec .debugToken s = .next t ∧ t.sec = { s.sec with code := 0x6078#16, done := true } ∧
          t.lastCode 0x320000 = 0x6078#16 ∧ t = { s with sec := t.sec, log := t.log })) ∧
    (s.sec.token ≠ 0xFFFFFFFF#32 → (e.length ≠ 256 ∨ slice e 8 32 ≠ idDigest ∨ s.nonceNow ≠ some (slice e 0x28 32) ∨
        fieldAt e 0x48 4 ≤ s.sec.token.toNat ∨ fieldAt e 0x4C 4 < 60 ∨ 86400 < fieldAt e 0x4C 4 ∨ s.tokenSigned e = false) →
      ∃ t : State, exec .debugToken s = .next t ∧ t.sec = { s.sec with code := 0x6076#16, done := true } ∧
        t.lastCode 0x320000 = 0x6076#16 ∧ t = { s with sec := t.sec, log := t.log })) ∧
  (∀ (s : State),
    ((s.sec.debug = 0 ∨ s.now < s.sec.debugUntil) → exec .debugLifetimeExpiry s = .next s) ∧
    (s.sec.debug ≠ 0 → s.sec.debugUntil ≤ s.now →
      ∃ t : State, exec .debugLifetimeExpiry s = .next t ∧ t.sec = { s.sec with debug := 0 } ∧ t = { s with sec := t.sec })) ∧
  (∀ (s : State) (e : List Byte), s.answers 0 0x320010 = true → s.secBar 7 = none → e = s.secBytes →
    (s.lswOk e = true → s.lswBar = none → (envPayload e).length ≤ s.lswRegion.2 →
      ∃ t : State, exec .lineSoftware s = .next t ∧ t.sec = { s.sec with
          lsw := some s.lswRegion, lswDigest := shake256 (envPayload e) 32, lswLen := (envPayload e).length, code := 0, done := true } ∧
        (∀ a, (a < s.lswRegion.1 ∨ s.lswRegion.1 + (envPayload e).length ≤ a) → byteAt t.bonded a = byteAt s.bonded a) ∧
        t = { s with sec := t.sec, bonded := t.bonded }) ∧
    (s.lswOk e = false →
      ∃ t : State, exec .lineSoftware s = .next t ∧ t.sec = { s.sec with code := 0x6079#16, done := true } ∧
        t.lastCode 0x320000 = 0x6079#16 ∧ t = { s with sec := t.sec, log := t.log }) ∧
    (s.lswOk e = true → s.lswBar ≠ none →
      ∃ t : State, exec .lineSoftware s = .next t ∧ t.sec = { s.sec with code := 0x1083#16, done := true } ∧
        t.lastCode 0x320000 = 0x1083#16 ∧ t = { s with sec := t.sec, log := t.log }))
end

