-- ==== Sys2Proof/Laws/Bits.lean ====
section
/-! SUPPORT. Laws of bit fields of a word, and of one write applied to a register's fields. -/

namespace Sys2Proof.Machine

theorem bits_lt (w : Word) (hi lo : Nat) : bits w hi lo < 2 ^ (hi + 1 - lo) :=
  Nat.mod_lt _ (Nat.two_pow_pos _)

/-- A field has the bits of the word it is read from. -/
theorem bits_testBit (w : Word) (hi lo j : Nat) :
    (bits w hi lo).testBit j = (decide (j < hi + 1 - lo) && w.toNat.testBit (lo + j)) := by
  rw [bits, Nat.testBit_mod_two_pow, Nat.testBit_div_two_pow, Nat.add_comm j lo]

theorem bit_eq (w : Word) (n : Nat) : bit w n = w.toNat.testBit n := by
  rw [bit, Nat.testBit_eq_decide_div_mod_eq]

theorem putBits_nat (a b c : Nat) (hi lo x : Nat) (hw : a = c * 2 ^ (hi + 1) + b * 2 ^ lo + a % 2 ^ lo)
    (hb : b < 2 ^ (hi + 1 - lo)) (hx : x < 2 ^ (hi + 1 - lo)) (h : lo ≤ hi) (j : Nat) :
    (c * 2 ^ (hi + 1) + x * 2 ^ lo + a % 2 ^ lo).testBit j =
      if lo ≤ j ∧ j ≤ hi then x.testBit (j - lo) else a.testBit j := by
  have e (y : Nat) : c * 2 ^ (hi + 1) + y * 2 ^ lo + a % 2 ^ lo
      = 2 ^ lo * (2 ^ (hi + 1 - lo) * c + y) + a % 2 ^ lo := by
    have : 2 ^ (hi + 1) = 2 ^ lo * 2 ^ (hi + 1 - lo) := by rw [← Nat.pow_add]; congr 1; omega
    rw [this]; ring
  have hr : a % 2 ^ lo < 2 ^ lo := Nat.mod_lt _ (Nat.two_pow_pos _)
  have ea : a.testBit j = (2 ^ lo * (2 ^ (hi + 1 - lo) * c + b) + a % 2 ^ lo).testBit j := by rw [← e, ← hw]
  rw [e, ea, Nat.testBit_two_pow_mul_add _ hr, Nat.testBit_two_pow_mul_add _ hr]
  by_cases h1 : j < lo
  · simp [h1]
  · simp only [h1, if_false]
    rw [Nat.testBit_two_pow_mul_add _ hx, Nat.testBit_two_pow_mul_add _ hb]
    have h3 : lo ≤ j := by omega
    by_cases h2 : j ≤ hi
    · have : j - lo < hi + 1 - lo := by omega
      simp [h2, h3, this]
    · have : ¬ (j - lo < hi + 1 - lo) := by omega
      simp [h2, this]

theorem putBits_testBit (w : Word) (hi lo x j : Nat) (h : lo ≤ hi) (hh : hi < 32) :
    (putBits w hi lo x).toNat.testBit j =
      if lo ≤ j ∧ j ≤ hi then x.testBit (j - lo) else w.toNat.testBit j := by
  have hw := w.isLt
  have hd : w.toNat = w.toNat / 2 ^ (hi + 1) * 2 ^ (hi + 1) + bits w hi lo * 2 ^ lo + w.toNat % 2 ^ lo := by
    have e1 : 2 ^ (hi + 1) = 2 ^ lo * 2 ^ (hi + 1 - lo) := by rw [← Nat.pow_add]; congr 1; omega
    have e2 : w.toNat / 2 ^ (hi + 1) = w.toNat / 2 ^ lo / 2 ^ (hi + 1 - lo) := by rw [e1, Nat.div_div_eq_div_mul]
    have d1 := Nat.div_add_mod w.toNat (2 ^ lo)
    have d2 := Nat.div_add_mod (w.toNat / 2 ^ lo) (2 ^ (hi + 1 - lo))
    rw [bits, e2, e1]
    conv_lhs => rw [← d1]
    conv_lhs => rw [← d2]
    ring
  have key := putBits_nat w.toNat (bits w hi lo) (w.toNat / 2 ^ (hi + 1)) hi lo (x % 2 ^ (hi + 1 - lo)) hd (bits_lt w hi lo)
    (Nat.mod_lt _ (Nat.two_pow_pos _)) h j
  have e : w.toNat - bits w hi lo * 2 ^ lo + x % 2 ^ (hi + 1 - lo) * 2 ^ lo
      = w.toNat / 2 ^ (hi + 1) * 2 ^ (hi + 1) + x % 2 ^ (hi + 1 - lo) * 2 ^ lo + w.toNat % 2 ^ lo := by omega
  have hlt : w.toNat - bits w hi lo * 2 ^ lo + x % 2 ^ (hi + 1 - lo) * 2 ^ lo < 2 ^ 32 := by
    rw [e]
    apply Nat.lt_pow_two_of_testBit
    intro i hi'
    rw [putBits_nat w.toNat (bits w hi lo) (w.toNat / 2 ^ (hi + 1)) hi lo (x % 2 ^ (hi + 1 - lo)) hd (bits_lt w hi lo)
      (Nat.mod_lt _ (Nat.two_pow_pos _)) h i]
    have : ¬ (lo ≤ i ∧ i ≤ hi) := by omega
    simp only [this, if_false]
    exact Nat.testBit_eq_false_of_lt (lt_of_lt_of_le hw (Nat.pow_le_pow_right (by norm_num) hi'))
  rw [putBits, BitVec.toNat_ofNat, Nat.mod_eq_of_lt hlt, e, key]
  by_cases hj : lo ≤ j ∧ j ≤ hi
  · simp only [hj, and_self, if_true, Nat.testBit_mod_two_pow]
    have : j - lo < hi + 1 - lo := by omega
    simp [this]
  · simp [hj]

/-- A field reads as it was put. -/
theorem bits_putBits_same (w : Word) (hi lo x : Nat) (h : lo ≤ hi) (hh : hi < 32) :
    bits (putBits w hi lo x) hi lo = x % 2 ^ (hi + 1 - lo) := by
  apply Nat.eq_of_testBit_eq; intro j
  rw [bits_testBit, putBits_testBit _ _ _ _ _ h hh, Nat.testBit_mod_two_pow]
  by_cases hj : j < hi + 1 - lo
  · have h1 : lo ≤ lo + j ∧ lo + j ≤ hi := by omega
    simp [hj, h1]
  · simp [hj]

/-- A field that shares no bit with the one put is as before. -/
theorem bits_putBits_other (w : Word) (hi lo x hi' lo' : Nat) (h : lo ≤ hi) (hh : hi < 32) (hd : hi < lo' ∨ hi' < lo) :
    bits (putBits w hi lo x) hi' lo' = bits w hi' lo' := by
  apply Nat.eq_of_testBit_eq; intro j
  rw [bits_testBit, bits_testBit, putBits_testBit _ _ _ _ _ h hh]
  by_cases hj : j < hi' + 1 - lo'
  · have h1 : ¬ (lo ≤ lo' + j ∧ lo' + j ≤ hi) := by omega
    simp [h1]
  · simp [hj]

theorem bit_putBits_same (w : Word) (n x : Nat) (hn : n < 32) : bit (putBits w n n x) n = decide (x % 2 = 1) := by
  rw [bit_eq, putBits_testBit _ _ _ _ _ (Nat.le_refl n) hn]
  simp [Nat.testBit_zero]

theorem bit_putBits_other (w : Word) (hi lo x n : Nat) (h : lo ≤ hi) (hh : hi < 32) (hd : hi < n ∨ n < lo) :
    bit (putBits w hi lo x) n = bit w n := by
  rw [bit_eq, bit_eq, putBits_testBit _ _ _ _ _ h hh]
  have h1 : ¬ (lo ≤ n ∧ n ≤ hi) := by omega
  simp [h1]

theorem bit_bits (w : Word) (n : Nat) : bits w n n = if bit w n then 1 else 0 := by
  have := Nat.mod_two_eq_zero_or_one (w.toNat / 2 ^ n)
  rw [bits, bit, show n + 1 - n = 1 by omega]
  rcases this with h | h <;> simp [h]

/-! ## One write applied to fields -/

/-- Fields are in order: each within the word, and none shares a bit with a later one. -/
def fieldsApart : List FieldSpec → Bool
  | [] => true
  | f :: r => decide (f.lo ≤ f.hi) && decide (f.hi < 32) &&
      r.all (fun g => decide (f.hi < g.lo) || decide (g.hi < f.lo)) && fieldsApart r

/-- A write of one field leaves the bits outside it. -/
theorem applyField_other (z : Bool) (c : Half) (f : FieldSpec) (v old : Word) (hi lo : Nat) (h : f.lo ≤ f.hi)
    (hh : f.hi < 32) (hd : f.hi < lo ∨ hi < f.lo) : bits (applyField z c f v old).1 hi lo = bits old hi lo := by
  have p (x : Nat) := bits_putBits_other old f.hi f.lo x hi lo h hh hd
  simp only [applyField]
  (repeat' split) <;> first | rfl | exact p _

theorem applyFields_other (z : Bool) (c : Half) (l : List FieldSpec) (v old : Word) (hi lo : Nat)
    (hl : fieldsApart l = true) (hd : ∀ g ∈ l, g.hi < lo ∨ hi < g.lo) :
    bits (applyFields z c l v old).1 hi lo = bits old hi lo := by
  induction l generalizing old with
  | nil => rfl
  | cons f r ih =>
    simp only [fieldsApart, Bool.and_eq_true, decide_eq_true_eq] at hl
    have := ih (applyField z c f v old).1 hl.2 (fun g hg => hd g (List.mem_cons_of_mem _ hg))
    simp only [applyFields]
    rw [this]
    exact applyField_other z c f v old hi lo hl.1.1.1 hl.1.1.2 (hd f (List.mem_cons_self ..))

theorem fieldsApart_mem {l : List FieldSpec} (hl : fieldsApart l = true) {f : FieldSpec} (hf : f ∈ l) :
    f.lo ≤ f.hi ∧ f.hi < 32 := by
  induction l with
  | nil => cases hf
  | cons g r ih =>
    simp only [fieldsApart, Bool.and_eq_true, decide_eq_true_eq] at hl
    rcases List.mem_cons.1 hf with h | h
    · exact h ▸ hl.1.1
    · exact ih hl.2 h

/-- What a field's own write leaves in it depends on no other bit. -/
theorem applyField_congr (z : Bool) (c : Half) (f : FieldSpec) (v o p : Word) (h : f.lo ≤ f.hi) (hh : f.hi < 32)
    (e : bits o f.hi f.lo = bits p f.hi f.lo) :
    bits (applyField z c f v o).1 f.hi f.lo = bits (applyField z c f v p).1 f.hi f.lo := by
  have q (a b : Word) (x : Nat) : bits (putBits a f.hi f.lo x) f.hi f.lo = bits (putBits b f.hi f.lo x) f.hi f.lo := by
    rw [bits_putBits_same _ _ _ _ h hh, bits_putBits_same _ _ _ _ h hh]
  simp only [applyField, e]
  cases f.acc <;> simp only [e]
  · cases f.chk <;> simp only <;> (repeat' split) <;> first | exact q _ _ _ | exact e
  · exact q _ _ _
  · cases f.chk <;> simp only <;> (repeat' split) <;> first | exact q _ _ _ | exact e

/-- What one field of a register holds after a write: what its own write leaves, whatever its neighbours do. -/
theorem applyFields_field (z : Bool) (c : Half) (l : List FieldSpec) (v old : Word) (hl : fieldsApart l = true)
    (f : FieldSpec) (hf : f ∈ l) :
    bits (applyFields z c l v old).1 f.hi f.lo = bits (applyField z c f v old).1 f.hi f.lo := by
  induction l generalizing old with
  | nil => cases hf
  | cons g r ih =>
    have hm := fieldsApart_mem hl hf
    simp only [fieldsApart, Bool.and_eq_true, decide_eq_true_eq, List.all_eq_true, Bool.or_eq_true] at hl
    simp only [applyFields]
    rcases List.mem_cons.1 hf with h | h
    · subst h
      refine applyFields_other z c r v _ f.hi f.lo hl.2 (fun g hg => ?_)
      exact (hl.1.2 g hg).symm
    · rw [ih _ hl.2 h]
      exact applyField_congr z c f v _ _ hm.1 hm.2
        (applyField_other z c g v old f.hi f.lo hl.1.1.1 hl.1.1.2 (hl.1.2 f h))

end Sys2Proof.Machine
end

