-- ==== Sys2Proof/Laws/Tables.lean ====
section
/-! SUPPORT. Reading after writing in tables and memories, and that every memory operation keeps the canonical form. -/

namespace Sys2Proof.Machine

theorem tget_tdel_same {α : Type} (d : α) (t : Tab α) (k : Nat) : tget d (tdel t k) k = d := by
  induction t with
  | nil => rfl
  | cons h r ih =>
    obtain ⟨a, w⟩ := h
    by_cases e : a = k
    · simp [tdel, e, ih]
    · simp [tdel, tget, e, ih]

theorem tget_tdel_other {α : Type} (d : α) (t : Tab α) {k j : Nat} (h : j ≠ k) :
    tget d (tdel t k) j = tget d t j := by
  induction t with
  | nil => rfl
  | cons p r ih =>
    obtain ⟨a, w⟩ := p
    by_cases e : a = k
    · subst e; simp [tdel, tget, ih, Ne.symm h]
    · simp only [tdel, e, if_false, tget, ih]

theorem tget_tins_same {α : Type} (d : α) (t : Tab α) (k : Nat) (v : α) : tget d (tins t k v) k = v := by
  induction t with
  | nil => simp [tins, tget]
  | cons p r ih =>
    obtain ⟨a, w⟩ := p
    by_cases e : k < a
    · simp [tins, tget, e]
    · by_cases f : k = a
      · simp [tins, tget, f]
      · simp [tins, tget, e, f, Ne.symm f, ih]

theorem tget_tins_other {α : Type} (d : α) (t : Tab α) {k j : Nat} (v : α) (h : j ≠ k) :
    tget d (tins t k v) j = tget d t j := by
  induction t with
  | nil => simp [tins, tget, Ne.symm h]
  | cons p r ih =>
    obtain ⟨a, w⟩ := p
    by_cases e : k < a
    · simp [tins, tget, e, Ne.symm h]
    · by_cases f : k = a
      · subst f; simp [tins, tget, Ne.symm h]
      · simp only [tins, e, f, if_false, tget, ih]

/-- What holds of every entry and of the default holds of every read. -/
theorem tget_all {α : Type} {P : α → Prop} {d : α} {t : Tab α} (h : ∀ p ∈ t, P p.2) (hd : P d) (k : Nat) : P (tget d t k) := by
  induction t with
  | nil => exact hd
  | cons p r ih =>
    obtain ⟨a, w⟩ := p
    by_cases e : a = k
    · simpa [tget, e] using h (a, w) (by simp)
    · simpa [tget, e] using ih (fun q hq => h q (List.mem_cons_of_mem _ hq))

/-- A table reads as written at the key written. -/
@[simp] theorem tget_tset_same {α : Type} [DecidableEq α] (d : α) (t : Tab α) (k : Nat) (v : α) :
    tget d (tset d t k v) k = v := by
  by_cases e : v = d
  · simp [tset, e, tget_tdel_same]
  · simp [tset, e, tget_tins_same]

/-- A table reads as before at every other key. -/
@[simp] theorem tget_tset_other {α : Type} [DecidableEq α] (d : α) (t : Tab α) {k j : Nat} (v : α) (h : j ≠ k) :
    tget d (tset d t k v) j = tget d t j := by
  by_cases e : v = d
  · simp [tset, e, tget_tdel_other d t h]
  · simp [tset, e, tget_tins_other d t v h]

theorem tget_tset_other' {α : Type} [DecidableEq α] (d e : α) (t : Tab α) {k j : Nat} (v : α) (h : j ≠ k) :
    tget d (tset e t k v) j = tget d t j := by
  by_cases g : v = e
  · simp [tset, g, tget_tdel_other d t h]
  · simp [tset, g, tget_tins_other d t v h]

theorem tabFrom_weaken {α : Type} [DecidableEq α] (d : α) {t : Tab α} {a b : Nat} (hab : a ≤ b)
    (h : tabFrom d (some b) t = true) : tabFrom d (some a) t = true := by
  cases t with
  | nil => rfl
  | cons p r => simp [tabFrom] at h ⊢; exact ⟨⟨by omega, h.1.2⟩, h.2⟩

theorem tabFrom_none {α : Type} [DecidableEq α] (d : α) {t : Tab α} {b : Nat}
    (h : tabFrom d (some b) t = true) : tabFrom d none t = true := by
  cases t with
  | nil => rfl
  | cons p r => simp [tabFrom] at h ⊢; exact ⟨h.1.2, h.2⟩

theorem tdel_from {α : Type} [DecidableEq α] (d : α) (t : Tab α) (k : Nat) (lo : Option Nat)
    (h : tabFrom d lo t = true) : tabFrom d lo (tdel t k) = true := by
  induction t generalizing lo with
  | nil => rfl
  | cons p r ih =>
    obtain ⟨a, w⟩ := p
    by_cases e : a = k
    · cases lo with
      | none =>
        have h2 : tabFrom d (some a) r = true := by simp [tabFrom] at h; exact h.2
        simp only [tdel, e, if_true]; subst e
        exact tabFrom_none d (ih (some a) h2)
      | some n =>
        simp [tabFrom] at h
        simp only [tdel, e, if_true]; subst e
        exact tabFrom_weaken d (by omega) (ih (some a) h.2)
    · simp only [tdel, e, if_false]
      cases lo with
      | none => simp [tabFrom] at h ⊢; exact ⟨h.1, ih _ h.2⟩
      | some n => simp [tabFrom] at h ⊢; exact ⟨h.1, ih _ h.2⟩

theorem tins_from {α : Type} [DecidableEq α] (d : α) (t : Tab α) (k : Nat) (v : α) (hv : v ≠ d) (lo : Option Nat)
    (hk : ∀ n, lo = some n → n < k) (h : tabFrom d lo t = true) : tabFrom d lo (tins t k v) = true := by
  induction t generalizing lo with
  | nil => cases lo with
    | none => simp [tins, tabFrom, hv]
    | some n => simp [tins, tabFrom, hv, hk n rfl]
  | cons p r ih =>
    obtain ⟨a, w⟩ := p
    have hh : tabFrom d (some a) r = true ∧ w ≠ d := by
      cases lo <;> simp [tabFrom] at h
      · exact ⟨h.2, h.1⟩
      · exact ⟨h.2, h.1.2⟩
    by_cases e : k < a
    · cases lo with
      | none => simp [tins, tabFrom, e, hv, hh.1, hh.2]
      | some n => simp [tins, tabFrom, e, hv, hh.1, hh.2, hk n rfl]
    · by_cases f : k = a
      · subst f
        cases lo with
        | none => simp [tins, tabFrom, hv, hh.1]
        | some n => simp [tins, tabFrom, hv, hh.1, hk n rfl]
      · have hi := ih (some a) (by intro n hn; injection hn with hn; omega) hh.1
        cases lo with
        | none => simp [tins, tabFrom, e, f, hh.2, hi]
        | some n => simp [tabFrom] at h; simp [tins, tabFrom, e, f, hh.2, hi, h.1.1]

/-- Writing keeps the canonical form of a table. -/
theorem tset_wf {α : Type} [DecidableEq α] (d : α) (t : Tab α) (k : Nat) (v : α) (h : tabWf d t = true) :
    tabWf d (tset d t k v) = true := by
  by_cases e : v = d
  · simpa [tset, e, tabWf] using tdel_from d t k none h
  · simpa [tset, e, tabWf] using tins_from d t k v e none (by intro n hn; cases hn) h

/-- A byte written keeps the canonical form of a memory. -/
theorem putByte_wf (m : Mem) (a : Nat) (b : Byte) (h : Memory.wf m = true) : Memory.wf (putByte m a b) = true :=
  tset_wf 0 m a b h

/-- Bytes written keep the canonical form of a memory. -/
theorem writeBytes_wf (bs : List Byte) (m : Mem) (a : Nat) (h : Memory.wf m = true) :
    Memory.wf (writeBytes m a bs) = true := by
  induction bs generalizing m a with
  | nil => exact h
  | cons b r ih => exact ih _ _ (putByte_wf m a b h)

/-- Leaving out entries keeps the canonical form of a table. -/
theorem tabFrom_filter {α : Type} [DecidableEq α] (d : α) (p : Nat × α → Bool) (t : Tab α) (lo : Option Nat)
    (h : tabFrom d lo t = true) : tabFrom d lo (t.filter p) = true := by
  induction t generalizing lo with
  | nil => rfl
  | cons q r ih =>
    have h2 : tabFrom d (some q.1) r = true := by cases lo <;> simp [tabFrom] at h <;> exact h.2
    by_cases e : p q = true
    · rw [List.filter_cons_of_pos e]
      cases lo with
      | none => simp [tabFrom] at h ⊢; exact ⟨h.1, ih _ h2⟩
      | some n => simp [tabFrom] at h ⊢; exact ⟨h.1, ih _ h2⟩
    · rw [List.filter_cons_of_neg e]
      cases lo with
      | none => exact tabFrom_none d (ih _ h2)
      | some n => simp [tabFrom] at h; exact tabFrom_weaken d (by omega) (ih _ h2)

/-- A span cleared keeps the canonical form of a memory. -/
theorem clearSpan_wf (m : Mem) (a n : Nat) (h : Memory.wf m = true) : Memory.wf (clearSpan m a n) = true :=
  tabFrom_filter 0 _ m none h

/-- A span cleared leaves every byte outside it, and its own read as memory that nothing has written. -/
theorem byteAt_clearSpan (m : Mem) (a n x : Nat) :
    byteAt (clearSpan m a n) x = if a ≤ x ∧ x < a + n then 0 else byteAt m x := by
  induction m with
  | nil => simp [clearSpan, byteAt, tget]
  | cons q r ih =>
    obtain ⟨k, v⟩ := q
    simp only [clearSpan, byteAt] at ih ⊢
    by_cases e : a ≤ k ∧ k < a + n
    · rw [List.filter_cons_of_neg (by simp [e]), ih]
      by_cases f : k = x
      · subst f; simp [e]
      · simp [tget, f]
    · rw [List.filter_cons_of_pos (by simp; omega)]
      by_cases f : k = x
      · subst f; simp [tget, e]
      · simp only [tget, f, if_false]; exact ih

/-- Bytes written leave every byte before them. -/
theorem byteAt_writeBytes_below (bs : List Byte) (m : Mem) (a x : Nat) (h : x < a) :
    byteAt (writeBytes m a bs) x = byteAt m x := by
  induction bs generalizing m a with
  | nil => rfl
  | cons b r ih =>
    rw [writeBytes, ih _ _ (by omega)]
    exact tget_tset_other 0 m b (by omega)

/-- Bytes written leave every byte outside them. -/
theorem byteAt_writeBytes_outside (bs : List Byte) (m : Mem) (a x : Nat) (h : x < a ∨ a + bs.length ≤ x) :
    byteAt (writeBytes m a bs) x = byteAt m x := by
  induction bs generalizing m a with
  | nil => rfl
  | cons b r ih =>
    simp only [List.length_cons] at h
    rw [writeBytes, ih _ _ (by omega)]
    exact tget_tset_other 0 m b (by omega)

/-- A byte written reads as written. -/
theorem byteAt_writeBytes_inside (bs : List Byte) (m : Mem) (a i : Nat) (h : i < bs.length) :
    byteAt (writeBytes m a bs) (a + i) = bs[i] := by
  induction bs generalizing m a i with
  | nil => simp at h
  | cons b r ih =>
    cases i with
    | zero =>
      simp only [writeBytes, Nat.add_zero, List.getElem_cons_zero]
      rw [byteAt_writeBytes_below r _ _ _ (by omega)]
      exact tget_tset_same 0 m a b
    | succ i =>
      have h' : i < r.length := by simpa using h
      have := ih (putByte m a b) (a + 1) i h'
      simpa [writeBytes, Nat.add_assoc, Nat.add_comm 1 i] using this

end Sys2Proof.Machine
end

