-- ==== Sys2Proof/Laws/Frames.lean ====
section
/-! SUPPORT. What the shared operations change: posts and reports the log alone, a write of a register's fields the
registers, the counters and the log; and what reaches a register. -/

namespace Sys2Proof.Machine

/-! ## LAST_CODE -/

theorem tget_setCodes (c : Half) (l : List Nat) (t : Tab Half) (k : Nat) :
    tget 0 (setCodes c l t) k = if k ∈ l then c else tget 0 t k := by
  induction l generalizing t with
  | nil => simp [setCodes]
  | cons a r ih =>
    rw [setCodes, ih]
    by_cases h : k = a
    · subst h; simp
    · simp [h, tget_tset_other]

@[simp] theorem Log.interrupt_lastCodes (l : Log) (now fn i : Nat) : (l.interrupt now fn i).lastCodes = l.lastCodes := by
  simp only [Log.interrupt]; split
  · simp only [Log.sendVector]; (repeat' split) <;> rfl
  · rfl

@[simp] theorem Log.writeRecord_lastCodes (l : Log) (now fn i : Nat) (q : Bool) (b : List Byte) :
    (l.writeRecord now fn i q b).lastCodes = l.lastCodes := by
  simp only [Log.writeRecord, Log.interrupt_lastCodes]; rfl

@[simp] theorem Log.eventTo_lastCodes (l : Log) (st : Stamp) (fn : Nat) (c : Half) (k i n : Nat) (p : List Byte) :
    (l.eventTo st fn c k i n p).lastCodes = l.lastCodes := by
  simp only [Log.eventTo]; (repeat' split)
  · rfl
  · simp
  · rfl

@[simp] theorem Log.post_lastCodes (l : Log) (st : Stamp) (vf : Option Nat) (c : Half) (k i n : Nat) (p : List Byte) :
    (l.post st vf c k i n p).lastCodes = l.lastCodes := by
  simp only [Log.post]
  cases vf <;> simp <;> split <;> rfl

@[simp] theorem Log.postWindowed_lastCodes (l : Log) (st : Stamp) (vf : Option Nat) (c : Half) (k i n : Nat)
    (p : List Byte) : (l.postWindowed st vf c k i n p).lastCodes = l.lastCodes := by
  simp only [Log.postWindowed]; split <;> simp

@[simp] theorem Log.report_lastCodes (l : Log) (st : Stamp) (e : RepEntry) : (l.report st e).lastCodes = l.lastCodes := by
  simp only [Log.report, Log.postWindowed_lastCodes]; split <;> rfl

theorem Log.last_lastCodes (l : Log) (c : Half) (k i : Nat) :
    (l.last c k i).lastCodes = setCodes c (lastCodeKeys c k i) l.lastCodes := rfl

namespace State

/-- A code raised shows in LAST_CODE of its source's status registers. -/
theorem lastCode_raise (s : State) (c : Half) (k i n : Nat) (p : List Byte) (o : Nat) :
    (s.raise c k i n p).lastCode o = if o ∈ lastCodeKeys c k i then c else s.lastCode o := by
  rw [lastCode, raise, Log.postWindowed_lastCodes, Log.last_lastCodes, tget_setCodes]; rfl

theorem lastCode_last (s : State) (c : Half) (k i : Nat) (o : Nat) :
    (s.last c k i).lastCode o = if o ∈ lastCodeKeys c k i then c else s.lastCode o := by
  simp only [last]
  split
  · exact lastCode_raise s c k i 1 [] o
  · rw [lastCode, Log.last_lastCodes, tget_setCodes]; rfl

theorem lastCode_refuse (s : State) (c : Half) (k i off b subj fn : Nat) (o : Nat) :
    (s.refuse c k i off b subj fn).lastCode o = if o ∈ lastCodeKeys c k i then c else s.lastCode o := by
  rw [refuse, lastCode_last]
  simp only [lastCode, report, Log.report_lastCodes]

theorem lastCode_raiseNow (s : State) (c : Half) (k i : Nat) (p : List Byte) (o : Nat) :
    (s.raiseNow c k i p).lastCode o = if codeClass c ≠ 0 ∧ o ∈ lastCodeKeys c k i then c else s.lastCode o := by
  rw [lastCode, raiseNow, Log.post_lastCodes]
  by_cases h : codeClass c = 0
  · simp only [h, ne_eq, not_true_eq_false, false_and, if_true, if_false]; rfl
  · simp only [h, ne_eq, not_false_eq_true, true_and, if_false, Log.last_lastCodes, tget_setCodes]; rfl

/-! ## Frames of the shared operations -/

theorem raise_frame (s : State) (c : Half) (k i n : Nat) (p : List Byte) :
    ∃ l, s.raise c k i n p = { s with log := l } := ⟨_, rfl⟩

theorem raiseNow_frame (s : State) (c : Half) (k i : Nat) (p : List Byte) :
    ∃ l, s.raiseNow c k i p = { s with log := l } := ⟨_, rfl⟩

theorem last_frame (s : State) (c : Half) (k i : Nat) : ∃ l, s.last c k i = { s with log := l } := by
  simp only [last]
  split
  · exact ⟨_, rfl⟩
  · exact ⟨_, rfl⟩

theorem report_frame (s : State) (c : Half) (o : Byte) (off hi lo w a subj fn : Nat) :
    ∃ l, s.report c o off hi lo w a subj fn = { s with log := l } := ⟨_, rfl⟩

theorem reportSubject_frame (s : State) (c : Half) (o : Byte) (subj fn : Nat) :
    ∃ l, s.reportSubject c o subj fn = { s with log := l } := ⟨_, rfl⟩

theorem refuse_frame (s : State) (c : Half) (k i off b subj fn : Nat) :
    ∃ l, s.refuse c k i off b subj fn = { s with log := l } := by
  obtain ⟨l, h⟩ := last_frame (s.report c 2 off b b 1 0 subj fn) c k i
  exact ⟨l, h⟩

theorem reportFields_frame (s : State) (off k i : Nat) (l : List FieldRep) :
    ∃ g, s.reportFields off k i l = { s with log := g } := by
  induction l generalizing s with
  | nil => exact ⟨_, rfl⟩
  | cons f r ih =>
    obtain ⟨l, h⟩ := last_frame (s.report f.code f.outcome off f.hi f.lo f.written f.applied) f.code k i
    obtain ⟨g, hg⟩ := ih ((s.report f.code f.outcome off f.hi f.lo f.written f.applied).last f.code k i)
    exact ⟨g, by rw [reportFields, hg, h]; rfl⟩

theorem countSealed_frame (s : State) (off : Nat) (f : FieldSpec) (v o : Word) :
    ∃ c l, s.countSealed off f v o = { s with counters := c, log := l, regs := tset 0 s.regs 0x200010 (BitVec.ofNat 32 off) } := by
  simp only [countSealed]
  split
  · split
    · exact ⟨_, _, rfl⟩
    · exact ⟨_, _, rfl⟩
  · exact ⟨_, _, rfl⟩

/-- A write of fields changes the registers, the counters and the log alone. -/
theorem writeFields_frame (s : State) (off k i : Nat) (v : Word) :
    ∃ r c l, s.writeFields off k i v = { s with regs := r, counters := c, log := l } := by
  simp only [writeFields]
  split
  · exact ⟨_, _, _, rfl⟩
  · rename_i g hg
    obtain ⟨l, hl⟩ := reportFields_frame (s.setReg off (applyFields s.sealed g.code g.fields v (s.reg off)).1) off k i
      (applyFields s.sealed g.code g.fields v (s.reg off)).2
    rw [hl]
    split
    · split
      · exact ⟨_, _, _, rfl⟩
      · rename_i f hf
        obtain ⟨c, l', h⟩ := countSealed_frame { s.setReg off (applyFields s.sealed g.code g.fields v (s.reg off)).1 with log := l } off f v (s.reg off)
        rw [h]; exact ⟨_, _, _, rfl⟩
    · exact ⟨_, _, _, rfl⟩

/-- A write while the module is not sealed: the register's new word, the reports, and nothing else. -/
theorem writeFields_unsealed (s : State) (off k i : Nat) (v : Word) (r : RegSpec) (hr : regSpec off = some r)
    (hs : s.sealed = false) :
    ∃ l, s.writeFields off k i v =
      { s with regs := tset (resetWord off) s.regs off (applyFields false r.code r.fields v (s.reg off)).1, log := l } := by
  simp only [writeFields, hr, hs]
  obtain ⟨l, hl⟩ := reportFields_frame (s.setReg off (applyFields false r.code r.fields v (s.reg off)).1) off k i
    (applyFields false r.code r.fields v (s.reg off)).2
  rw [hl]; exact ⟨l, by simp [setReg, hs]⟩

theorem reg_setReg_same (s : State) (off : Nat) (w : Word) : (s.setReg off w).reg off = w := by
  simp [reg, setReg]

theorem reg_setReg_other (s : State) (off o : Nat) (w : Word) (h : o ≠ off) : (s.setReg off w).reg o = s.reg o := by
  simp only [reg, setReg]; exact tget_tset_other' _ _ _ _ h

/-- The register a write of fields leaves (R445). -/
theorem writeFields_reg (s : State) (off k i : Nat) (v : Word) (r : RegSpec) (hr : regSpec off = some r)
    (h : off ≠ 0x200010) :
    (s.writeFields off k i v).reg off = (applyFields s.sealed r.code r.fields v (s.reg off)).1 := by
  simp only [writeFields, hr]
  obtain ⟨l, hl⟩ := reportFields_frame (s.setReg off (applyFields s.sealed r.code r.fields v (s.reg off)).1) off k i
    (applyFields s.sealed r.code r.fields v (s.reg off)).2
  rw [hl]
  have e : ({ s.setReg off (applyFields s.sealed r.code r.fields v (s.reg off)).1 with log := l } : State).reg off
      = (applyFields s.sealed r.code r.fields v (s.reg off)).1 := reg_setReg_same s off _
  split
  · split
    · exact e
    · rename_i f hf
      obtain ⟨c, l', h'⟩ := countSealed_frame { s.setReg off (applyFields s.sealed r.code r.fields v (s.reg off)).1 with log := l } off f v (s.reg off)
      rw [h']
      refine Eq.trans ?_ e
      simp only [reg]
      rw [tget_tset_other' _ _ _ _ h]
  · exact e

theorem writeFields_reg_other (s : State) (off k i o : Nat) (v : Word) (ho : o ≠ off) (h : o ≠ 0x200010) :
    (s.writeFields off k i v).reg o = s.reg o := by
  simp only [writeFields]
  split
  · rfl
  · rename_i r hr
    obtain ⟨l, hl⟩ := reportFields_frame (s.setReg off (applyFields s.sealed r.code r.fields v (s.reg off)).1) off k i
      (applyFields s.sealed r.code r.fields v (s.reg off)).2
    rw [hl]
    have e : ({ s.setReg off (applyFields s.sealed r.code r.fields v (s.reg off)).1 with log := l } : State).reg o
        = s.reg o := reg_setReg_other s off o _ ho
    split
    · split
      · exact e
      · rename_i f hf
        obtain ⟨c, l', h'⟩ := countSealed_frame { s.setReg off (applyFields s.sealed r.code r.fields v (s.reg off)).1 with log := l } off f v (s.reg off)
        rw [h']
        refine Eq.trans ?_ e
        simp only [reg]
        rw [tget_tset_other' _ _ _ _ h]
    · exact e

/-- What a field holds after a write of its register: what its own check leaves (R445, R450). -/
theorem writeFields_fld (s : State) (off k i : Nat) (v : Word) (r : RegSpec) (hr : regSpec off = some r)
    (h : off ≠ 0x200010) (ha : fieldsApart r.fields = true) (f : FieldSpec) (hf : f ∈ r.fields) :
    (s.writeFields off k i v).fld off f.hi f.lo = bits (applyField s.sealed r.code f v (s.reg off)).1 f.hi f.lo := by
  rw [fld, writeFields_reg s off k i v r hr h, applyFields_field _ _ _ _ _ ha f hf]

/-! ## Writes that reach a register -/

theorem gate_answers (s : State) (fn off : Nat) (v : Word) (f : State → State) (h : s.answers fn off = true) :
    s.gate fn off v f = f s := by
  simp only [answers, Bool.and_eq_true, Bool.or_eq_true, decide_eq_true_eq, Bool.not_eq_true'] at h
  obtain ⟨⟨⟨h1, h2⟩, h3⟩, h4⟩ := h
  have a : ¬ (s.sec.state = 0 ∧ ¬ answersRecovery fn off = true) := by rcases h2 with h | h <;> simp [h]
  have b : ¬ (s.power.mode ≠ 0 ∧ ¬ answersAsleep fn off = true) := by rcases h3 with h | h <;> simp [h]
  simp only [gate, h1, h4, a, b, if_false, Bool.not_true, Bool.false_eq_true]

end State
end Sys2Proof.Machine
end

