-- ==== Sys2Proof/Laws/PerInstr.lean ====
section
/-! SUPPORT. The family Regions: an operation that is well formed declares at most four read and two write regions (R111). -/

set_option Elab.async false

namespace Sys2Proof.Laws.Regions

/-- The header of a command that is an operation of an engine. -/
def header : Instr → Option OpHdr
  | .copy o => some o
  | .waitBlock o _ => some o
  | .open_ o _ => some o
  | .append o => some o
  | .kvWrite o _ _ _ => some o
  | .close o => some o
  | .openBuild o _ => some o
  | .closePublish o => some o
  | .matmul o _ => some o
  | .attnAbsorb o _ => some o
  | .kvExpand o _ => some o
  | .conv o _ => some o
  | .dwconv o _ => some o
  | .maxpool o _ => some o
  | .minpool o _ => some o
  | .avgpool o _ => some o
  | .label o _ => some o
  | .vecAdd o => some o
  | .vecSub o => some o
  | .vecMul o => some o
  | .vecFma o => some o
  | .vecDiv o => some o
  | .vecSqrt o => some o
  | .vecExp2 o => some o
  | .vecLog2 o => some o
  | .vecRcp o => some o
  | .vecRsqrt o => some o
  | .vecMax o => some o
  | .vecMin o => some o
  | .cvt o => some o
  | .trunc o => some o
  | .satadd o => some o
  | .satsub o => some o
  | .sum o => some o
  | .rmax o => some o
  | .qstatic o _ _ _ => some o
  | .qrow o _ => some o
  | .qrowU8 o _ => some o
  | .check o _ _ => some o
  | .count o _ _ => some o
  | .rand o _ => some o
  | .squeeze o => some o
  | .digestAbsorb o => some o
  | .gate o _ => some o
  | .fence o _ => some o
  | .wait o _ _ _ => some o
  | .put o _ _ => some o
  | .get o _ => some o
  | .culvertAdd o _ _ _ => some o
  | .cas o _ _ _ => some o
  | .signal o _ => some o
  | _ => none

/-- What is said of each command. -/
def Statement (i : Instr) : Prop :=
  i.wf = true → ∀ o, header i = some o → o.reads.length ≤ 4 ∧ o.writes.length ≤ 2

/-- A command that is no operation of an engine declares no regions. -/
theorem of_none {i : Instr} (h : header i = none) : Statement i := fun _ _ e => nomatch h.symm.trans e

theorem setupWrite (fn : Fin 7) (off : Nat) (v : Word) : Statement (.setupWrite fn off v) :=
  of_none rfl
theorem barBadAccess (fn : Fin 7) : Statement (.barBadAccess fn) :=
  of_none rfl
theorem counterReadClear (fn : Fin 7) (off : Nat) : Statement (.counterReadClear fn off) :=
  of_none rfl
theorem axisEnable (n : Fin 4) (v : Word) : Statement (.axisEnable n v) :=
  of_none rfl
theorem incrementalEdge (n : Fin 4) (a b : Bool) : Statement (.incrementalEdge n a b) :=
  of_none rfl
theorem zQualified (n : Fin 4) : Statement (.zQualified n) :=
  of_none rfl
theorem presetGo (n : Fin 4) (v : Word) : Statement (.presetGo n v) :=
  of_none rfl
theorem absoluteFrame (n : Fin 4) (raw check : Nat) (nE nW : Bool) : Statement (.absoluteFrame n raw check nE nW) :=
  of_none rfl
theorem bissAckTimeout (n : Fin 4) : Statement (.bissAckTimeout n) :=
  of_none rfl
theorem absoluteFrameStart (n : Fin 4) : Statement (.absoluteFrameStart n) :=
  of_none rfl
theorem wireFaultDetect (n : Fin 4) (pairs : BitVec 4) : Statement (.wireFaultDetect n pairs) :=
  of_none rfl
theorem wireFaultClear (n : Fin 4) : Statement (.wireFaultClear n) :=
  of_none rfl
theorem axisFailsafeRelease (n : Fin 4) : Statement (.axisFailsafeRelease n) :=
  of_none rfl
theorem speedCountEval (n : Fin 4) : Statement (.speedCountEval n) :=
  of_none rfl
theorem standstill (n : Fin 4) : Statement (.standstill n) :=
  of_none rfl
theorem emuEnable (n : Fin 2) (v : Word) : Statement (.emuEnable n v) :=
  of_none rfl
theorem emuEdge (n : Fin 2) : Statement (.emuEdge n) :=
  of_none rfl
theorem timeSnap (v : Word) : Statement (.timeSnap v) :=
  of_none rfl
theorem timeStepGo (v : Word) : Statement (.timeStepGo v) :=
  of_none rfl
theorem timeStepApply : Statement (.timeStepApply) :=
  of_none rfl
theorem timeRateWrite (hi : Word) : Statement (.timeRateWrite hi) :=
  of_none rfl
theorem timeServoWrite (v : Word) : Statement (.timeServoWrite v) :=
  of_none rfl
theorem sync (offset : Int) (interval : Nat) : Statement (.sync offset interval) :=
  of_none rfl
theorem holdover : Statement (.holdover) :=
  of_none rfl
theorem portEnable (n : Fin 16) (v : Word) : Statement (.portEnable n v) :=
  of_none rfl
theorem adapt (n : Fin 16) (ctle : Fin 16) (taps : BitVec 30) : Statement (.adapt n ctle taps) :=
  of_none rfl
theorem blockLock (n : LockReport) : Statement (.blockLock n) :=
  of_none rfl
theorem blockLockLoss (n : LockLoss) : Statement (.blockLockLoss n) :=
  of_none rfl
theorem hiBerEnter (n : Fin 16) : Statement (.hiBerEnter n) :=
  of_none rfl
theorem hiBerClear (n : Fin 16) : Statement (.hiBerClear n) :=
  of_none rfl
theorem fecCodeword (n : Fin 16) (errors : Nat) (correctable : Bool) : Statement (.fecCodeword n errors correctable) :=
  of_none rfl
theorem txPllUnlock (q : Fin 4) (fast : Bool) : Statement (.txPllUnlock q fast) :=
  of_none rfl
theorem txPllRelock (q : Fin 4) (fast : Bool) : Statement (.txPllRelock q fast) :=
  of_none rfl
theorem txLpiEnter (n : Fin 16) : Statement (.txLpiEnter n) :=
  of_none rfl
theorem lpiRefresh (n : Fin 16) : Statement (.lpiRefresh n) :=
  of_none rfl
theorem txLpiWake (n : Fin 16) : Statement (.txLpiWake n) :=
  of_none rfl
theorem rxLpi (n : Fin 16) : Statement (.rxLpi n) :=
  of_none rfl
theorem eyeGo (n : Fin 16) (v : Word) : Statement (.eyeGo n v) :=
  of_none rfl
theorem eyeStop (n : Fin 16) (v : Word) : Statement (.eyeStop n v) :=
  of_none rfl
theorem eyePointEnd (n : Fin 16) (errors : BitVec 48) : Statement (.eyePointEnd n errors) :=
  of_none rfl
theorem frameReceived (n : Fin 17) (f : Frame) : Statement (.frameReceived n f) :=
  of_none rfl
theorem roceRequest (qp : Fin 1024) (ce : Bool) (key : Word) (r : RoceReq) : Statement (.roceRequest qp ce key r) :=
  of_none rfl
theorem cnpReceived (qp : Fin 1024) : Statement (.cnpReceived qp) :=
  of_none rfl
theorem roceResponse (qp : Fin 1024) (r : RoceResp) : Statement (.roceResponse qp r) :=
  of_none rfl
theorem roceAckTimeout (qp : Fin 1024) : Statement (.roceAckTimeout qp) :=
  of_none rfl
theorem dcqcnRateIncrease (qp : Fin 1024) (byTimer : Bool) : Statement (.dcqcnRateIncrease qp byTimer) :=
  of_none rfl
theorem sluiceEnable (k : Fin 18) (v : Word) : Statement (.sluiceEnable k v) :=
  of_none rfl
theorem holdExpiry (k : Fin 18) : Statement (.holdExpiry k) :=
  of_none rfl
theorem parallelLine (p : Fin 2) (clocks : Nat) (data : List Byte) : Statement (.parallelLine p clocks data) :=
  of_none rfl
theorem pixelClockLost (p : ClockLoss) : Statement (.pixelClockLost p) :=
  of_none rfl
theorem pixelClockResume (p : Fin 2) (kHz : Word) : Statement (.pixelClockResume p kHz) :=
  of_none rfl
theorem lineBlockHandoff (k : Fin 18) : Statement (.lineBlockHandoff k) :=
  of_none rfl
theorem pipeBlockStart (p : Fin 4) : Statement (.pipeBlockStart p) :=
  of_none rfl
theorem pipeBlockDone (p : Fin 4) : Statement (.pipeBlockDone p) :=
  of_none rfl
theorem arm (p s : Fin 4) (v : Word) : Statement (.arm p s v) :=
  of_none rfl
theorem shadowLoaded (p s : Fin 4) : Statement (.shadowLoaded p s) :=
  of_none rfl
theorem cancel (p s : Fin 4) (v : Word) : Statement (.cancel p s v) :=
  of_none rfl
theorem engCfgWrite (e : Fin 6) (v : Word) : Statement (.engCfgWrite e v) :=
  of_none rfl
theorem ordShareWrite (i : Fin 2) (v : Word) : Statement (.ordShareWrite i v) :=
  of_none rfl
theorem taskPlace (p : Fin 6) : Statement (.taskPlace p) :=
  of_none rfl
theorem opComplete (id : Nat) : Statement (.opComplete id) :=
  of_none rfl
theorem opRetire (id : Nat) : Statement (.opRetire id) :=
  of_none rfl
theorem sequencerFault (e : Fin 6) : Statement (.sequencerFault e) :=
  of_none rfl
theorem gateResolve (e : Fin 6) : Statement (.gateResolve e) :=
  of_none rfl
theorem deliveryExcursion (e : Fin 6) (stall : Nat) : Statement (.deliveryExcursion e stall) :=
  of_none rfl
theorem taskOverBound (e : Fin 6) : Statement (.taskOverBound e) :=
  of_none rfl
theorem taskHung (e : Fin 6) : Statement (.taskHung e) :=
  of_none rfl
theorem waitBlockPoll (e : Fin 6) : Statement (.waitBlockPoll e) :=
  of_none rfl
theorem copy (o : OpHdr) : Statement (.copy o) := by
  intro h o e; cases e; simp_all [Instr.wf, OpHdr.wf]
theorem waitBlock (o : OpHdr) (expect : Nat) : Statement (.waitBlock o expect) := by
  intro h o e; cases e; simp_all [Instr.wf, OpHdr.wf]
theorem open_ (o : OpHdr) (t : TrackParams) : Statement (.open_ o t) := by
  intro h o e; cases e; simp_all [Instr.wf, OpHdr.wf]
theorem append (o : OpHdr) : Statement (.append o) := by
  intro h o e; cases e; simp_all [Instr.wf, OpHdr.wf]
theorem appendCopyDone (handle : Word) (page : Nat) : Statement (.appendCopyDone handle page) :=
  of_none rfl
theorem kvWrite (o : OpHdr) (row : Nat) (stackLayer segs : Nat) : Statement (.kvWrite o row stackLayer segs) := by
  intro h o e; cases e; simp_all [Instr.wf, OpHdr.wf]
theorem close (o : OpHdr) : Statement (.close o) := by
  intro h o e; cases e; simp_all [Instr.wf, OpHdr.wf]
theorem openBuild (o : OpHdr) (t : TrackParams) : Statement (.openBuild o t) := by
  intro h o e; cases e; simp_all [Instr.wf, OpHdr.wf]
theorem closePublish (o : OpHdr) : Statement (.closePublish o) := by
  intro h o e; cases e; simp_all [Instr.wf, OpHdr.wf]
theorem matmul (o : OpHdr) (p : MatParams) : Statement (.matmul o p) := by
  intro h o e; cases e; simp_all [Instr.wf, OpHdr.wf]
theorem attnAbsorb (o : OpHdr) (p : AttnParams) : Statement (.attnAbsorb o p) := by
  intro h o e; cases e; simp_all [Instr.wf, OpHdr.wf]
theorem kvExpand (o : OpHdr) (p : ExpandParams) : Statement (.kvExpand o p) := by
  intro h o e; cases e; simp_all [Instr.wf, OpHdr.wf]
theorem conv (o : OpHdr) (p : WinParams) : Statement (.conv o p) := by
  intro h o e; cases e; simp_all [Instr.wf, OpHdr.wf]
theorem dwconv (o : OpHdr) (p : WinParams) : Statement (.dwconv o p) := by
  intro h o e; cases e; simp_all [Instr.wf, OpHdr.wf]
theorem maxpool (o : OpHdr) (p : WinParams) : Statement (.maxpool o p) := by
  intro h o e; cases e; simp_all [Instr.wf, OpHdr.wf]
theorem minpool (o : OpHdr) (p : WinParams) : Statement (.minpool o p) := by
  intro h o e; cases e; simp_all [Instr.wf, OpHdr.wf]
theorem avgpool (o : OpHdr) (p : WinParams) : Statement (.avgpool o p) := by
  intro h o e; cases e; simp_all [Instr.wf, OpHdr.wf]
theorem label (o : OpHdr) (p : WinParams) : Statement (.label o p) := by
  intro h o e; cases e; simp_all [Instr.wf, OpHdr.wf]
theorem vecAdd (o : OpHdr) : Statement (.vecAdd o) := by
  intro h o e; cases e; simp_all [Instr.wf, OpHdr.wf]
theorem vecSub (o : OpHdr) : Statement (.vecSub o) := by
  intro h o e; cases e; simp_all [Instr.wf, OpHdr.wf]
theorem vecMul (o : OpHdr) : Statement (.vecMul o) := by
  intro h o e; cases e; simp_all [Instr.wf, OpHdr.wf]
theorem vecFma (o : OpHdr) : Statement (.vecFma o) := by
  intro h o e; cases e; simp_all [Instr.wf, OpHdr.wf]
theorem vecDiv (o : OpHdr) : Statement (.vecDiv o) := by
  intro h o e; cases e; simp_all [Instr.wf, OpHdr.wf]
theorem vecSqrt (o : OpHdr) : Statement (.vecSqrt o) := by
  intro h o e; cases e; simp_all [Instr.wf, OpHdr.wf]
theorem vecExp2 (o : OpHdr) : Statement (.vecExp2 o) := by
  intro h o e; cases e; simp_all [Instr.wf, OpHdr.wf]
theorem vecLog2 (o : OpHdr) : Statement (.vecLog2 o) := by
  intro h o e; cases e; simp_all [Instr.wf, OpHdr.wf]
theorem vecRcp (o : OpHdr) : Statement (.vecRcp o) := by
  intro h o e; cases e; simp_all [Instr.wf, OpHdr.wf]
theorem vecRsqrt (o : OpHdr) : Statement (.vecRsqrt o) := by
  intro h o e; cases e; simp_all [Instr.wf, OpHdr.wf]
theorem vecMax (o : OpHdr) : Statement (.vecMax o) := by
  intro h o e; cases e; simp_all [Instr.wf, OpHdr.wf]
theorem vecMin (o : OpHdr) : Statement (.vecMin o) := by
  intro h o e; cases e; simp_all [Instr.wf, OpHdr.wf]
theorem cvt (o : OpHdr) : Statement (.cvt o) := by
  intro h o e; cases e; simp_all [Instr.wf, OpHdr.wf]
theorem trunc (o : OpHdr) : Statement (.trunc o) := by
  intro h o e; cases e; simp_all [Instr.wf, OpHdr.wf]
theorem satadd (o : OpHdr) : Statement (.satadd o) := by
  intro h o e; cases e; simp_all [Instr.wf, OpHdr.wf]
theorem satsub (o : OpHdr) : Statement (.satsub o) := by
  intro h o e; cases e; simp_all [Instr.wf, OpHdr.wf]
theorem sum (o : OpHdr) : Statement (.sum o) := by
  intro h o e; cases e; simp_all [Instr.wf, OpHdr.wf]
theorem rmax (o : OpHdr) : Statement (.rmax o) := by
  intro h o e; cases e; simp_all [Instr.wf, OpHdr.wf]
theorem qstatic (o : OpHdr) (scale : Word) (zp : Int) (input : StaticUse) : Statement (.qstatic o scale zp input) := by
  intro h o e; cases e; simp_all [Instr.wf, OpHdr.wf]
theorem qrow (o : OpHdr) (excl : List Nat) : Statement (.qrow o excl) := by
  intro h o e; cases e; simp_all [Instr.wf, OpHdr.wf]
theorem qrowU8 (o : OpHdr) (excl : List Nat) : Statement (.qrowU8 o excl) := by
  intro h o e; cases e; simp_all [Instr.wf, OpHdr.wf]
theorem check (o : OpHdr) (limit : Fin 65536) (mask : CheckMask) : Statement (.check o limit mask) := by
  intro h o e; cases e; simp_all [Instr.wf, OpHdr.wf]
theorem count (o : OpHdr) (op : CmpOp) (v : Word) : Statement (.count o op v) := by
  intro h o e; cases e; simp_all [Instr.wf, OpHdr.wf]
theorem rand (o : OpHdr) (n : Nat) : Statement (.rand o n) := by
  intro h o e; cases e; simp_all [Instr.wf, OpHdr.wf]
theorem squeeze (o : OpHdr) : Statement (.squeeze o) := by
  intro h o e; cases e; simp_all [Instr.wf, OpHdr.wf]
theorem digestAbsorb (o : OpHdr) : Statement (.digestAbsorb o) := by
  intro h o e; cases e; simp_all [Instr.wf, OpHdr.wf]
theorem gate (o : OpHdr) (target : Fin 65) : Statement (.gate o target) := by
  intro h o e; cases e; simp_all [Instr.wf, OpHdr.wf]
theorem fence (o : OpHdr) (scope : Fin 4) : Statement (.fence o scope) := by
  intro h o e; cases e; simp_all [Instr.wf, OpHdr.wf]
theorem wait (o : OpHdr) (word : Region) (threshold : DWord) (timeoutUs : Nat) : Statement (.wait o word threshold timeoutUs) := by
  intro h o e; cases e; simp_all [Instr.wf, OpHdr.wf]
theorem waitTimeout (ctx : Fin 64) : Statement (.waitTimeout ctx) :=
  of_none rfl
theorem put (o : OpHdr) (t : PutTarget) (sg : Option SignalArg) : Statement (.put o t sg) := by
  intro h o e; cases e; cases t <;> simp_all [Instr.wf, OpHdr.wf]
theorem get (o : OpHdr) (sg : Option SignalArg) : Statement (.get o sg) := by
  intro h o e; cases e; simp_all [Instr.wf, OpHdr.wf]
theorem culvertAdd (o : OpHdr) (w : AddWidth) (v : DWord) (sg : Option SignalArg) : Statement (.culvertAdd o w v sg) := by
  intro h o e; cases e; simp_all [Instr.wf, OpHdr.wf]
theorem cas (o : OpHdr) (cmp swap : DWord) (sg : Option SignalArg) : Statement (.cas o cmp swap sg) := by
  intro h o e; cases e; simp_all [Instr.wf, OpHdr.wf]
theorem signal (o : OpHdr) (sg : SignalArg) : Statement (.signal o sg) := by
  intro h o e; cases e; simp_all [Instr.wf, OpHdr.wf]
theorem batchForm (group : BitVec 18) (block : Nat) : Statement (.batchForm group block) :=
  of_none rfl
theorem deadline (k : Fin 18) (slot : Nat) : Statement (.deadline k slot) :=
  of_none rfl
theorem calWrite (d : DescHdr) (e : CalWord) : Statement (.calWrite d e) :=
  of_none rfl
theorem calOnFire (axis : Fin 4) (idx : Nat) : Statement (.calOnFire axis idx) :=
  of_none rfl
theorem calOffFire (axis : Fin 4) (idx : Nat) : Statement (.calOffFire axis idx) :=
  of_none rfl
theorem calSwapFire (axis : Fin 4) (idx : Nat) : Statement (.calSwapFire axis idx) :=
  of_none rfl
theorem calChangeoverFire (axis : Fin 4) (idx : Nat) : Statement (.calChangeoverFire axis idx) :=
  of_none rfl
theorem calProveFire (axis : Fin 4) (idx : Nat) : Statement (.calProveFire axis idx) :=
  of_none rfl
theorem calMarkFire (axis : Fin 4) (idx : Nat) : Statement (.calMarkFire axis idx) :=
  of_none rfl
theorem proveDeadline (rule : Fin 16) : Statement (.proveDeadline rule) :=
  of_none rfl
theorem valveFrame : Statement (.valveFrame) :=
  of_none rfl
theorem valveStatusFrame (b : Fin 2) (f : ValveStatus) : Statement (.valveStatusFrame b f) :=
  of_none rfl
theorem valveStatusMiss (b : Fin 2) : Statement (.valveStatusMiss b) :=
  of_none rfl
theorem heartbeatLoss : Statement (.heartbeatLoss) :=
  of_none rfl
theorem engage (v : Word) : Statement (.engage v) :=
  of_none rfl
theorem release (v : Word) : Statement (.release v) :=
  of_none rfl
theorem vuEnable (v : Word) : Statement (.vuEnable v) :=
  of_none rfl
theorem diFilteredEdge (i : Fin 16) (level : Bool) : Statement (.diFilteredEdge i level) :=
  of_none rfl
theorem diCfgWrite (i : Fin 16) (v : Word) : Statement (.diCfgWrite i v) :=
  of_none rfl
theorem diEvtPop (v : Word) : Statement (.diEvtPop v) :=
  of_none rfl
theorem fieldSupplySample (mV : Half) : Statement (.fieldSupplySample mV) :=
  of_none rfl
theorem doThermalShutdown (n : Fin 16) : Statement (.doThermalShutdown n) :=
  of_none rfl
theorem doThermalRestart (n : Fin 16) : Statement (.doThermalRestart n) :=
  of_none rfl
theorem doClear (v : Word) : Statement (.doClear v) :=
  of_none rfl
theorem doMismatch (n : Fin 16) : Statement (.doMismatch n) :=
  of_none rfl
theorem rewindDisable (v : Word) : Statement (.rewindDisable v) :=
  of_none rfl
theorem rewindEnable (v : Word) : Statement (.rewindEnable v) :=
  of_none rfl
theorem archiveJobStart : Statement (.archiveJobStart) :=
  of_none rfl
theorem archiveJobEnd : Statement (.archiveJobEnd) :=
  of_none rfl
theorem archRposWrite (hi : Word) : Statement (.archRposWrite hi) :=
  of_none rfl
theorem streamOpen (d : DescHdr) (ring : Nat) (encode : Bool) (b : StreamBlock) : Statement (.streamOpen d ring encode b) :=
  of_none rfl
theorem streamClose (d : DescHdr) (stream : Nat) : Statement (.streamClose d stream) :=
  of_none rfl
theorem streamResume (d : DescHdr) (stream : Nat) : Statement (.streamResume d stream) :=
  of_none rfl
theorem au (d : DescHdr) (irap : Bool) (addr len : Nat) : Statement (.au d irap addr len) :=
  of_none rfl
theorem picture (d : DescHdr) (offset : Nat) : Statement (.picture d offset) :=
  of_none rfl
theorem pictureDone (encode : Bool) (stream : Nat) (errors : List SliceError) : Statement (.pictureDone encode stream errors) :=
  of_none rfl
theorem decoderBudgetWindow : Statement (.decoderBudgetWindow) :=
  of_none rfl
theorem streamLagSuspend (stream : Nat) : Statement (.streamLagSuspend stream) :=
  of_none rfl
theorem decoderLoadHigh (permille : Nat) : Statement (.decoderLoadHigh permille) :=
  of_none rfl
theorem replay (d : DescHdr) (r : ReplayParams) : Statement (.replay d r) :=
  of_none rfl
theorem replayBlockFeed (session : Fin 4) : Statement (.replayBlockFeed session) :=
  of_none rfl
theorem polderCreate (p : Fin 6) (v : Word) : Statement (.polderCreate p v) :=
  of_none rfl
theorem resize (p : Fin 6) (v : Word) : Statement (.resize p v) :=
  of_none rfl
theorem destroy (p : Fin 6) (v : Word) : Statement (.destroy p v) :=
  of_none rfl
theorem ctxCreate (d : DescHdr) (ring : Nat) (b : SchedBlock) : Statement (.ctxCreate d ring b) :=
  of_none rfl
theorem ctxDestroy (d : DescHdr) (ctx : Nat) : Statement (.ctxDestroy d ctx) :=
  of_none rfl
theorem schedulePoll (c : Fin 64) : Statement (.schedulePoll c) :=
  of_none rfl
theorem switchIn (e : Fin 6) (c : Fin 64) : Statement (.switchIn e c) :=
  of_none rfl
theorem sliceEnd (c : Fin 64) : Statement (.sliceEnd c) :=
  of_none rfl
theorem blockSwap (p : Fin 6) : Statement (.blockSwap p) :=
  of_none rfl
theorem spareCfgWrite (v : Word) : Statement (.spareCfgWrite v) :=
  of_none rfl
theorem lend (v : Word) : Statement (.lend v) :=
  of_none rfl
theorem reclaim (v : Word) : Statement (.reclaim v) :=
  of_none rfl
theorem noSpareNotice : Statement (.noSpareNotice) :=
  of_none rfl
theorem recipeLoad (d : DescHdr) (addr len : Nat) : Statement (.recipeLoad d addr len) :=
  of_none rfl
theorem recipeUnload (d : DescHdr) (recipe : Nat) : Statement (.recipeUnload d recipe) :=
  of_none rfl
theorem changeover (d : DescHdr) (k : Fin 18) (when_ : Fin 4) (vf : Fin 7) (recipe : Nat) (at_ : Nat) : Statement (.changeover d k when_ vf recipe at_) :=
  of_none rfl
theorem residencyStep (recipe : Nat) : Statement (.residencyStep recipe) :=
  of_none rfl
theorem run (d : DescHdr) (recipe code firstTask taskCount : Nat) (cycleList : Option Nat) (params : List Byte) : Statement (.run d recipe code firstTask taskCount cycleList params) :=
  of_none rfl
theorem build (d : DescHdr) (recipe code firstTask taskCount : Nat) (cycleList : Option Nat) (params : List Byte) : Statement (.build d recipe code firstTask taskCount cycleList params) :=
  of_none rfl
theorem epochTick : Statement (.epochTick) :=
  of_none rfl
theorem kvEnable (v : Word) : Statement (.kvEnable v) :=
  of_none rfl
theorem kvQuotaWrite (p : Fin 6) (v : Word) : Statement (.kvQuotaWrite p v) :=
  of_none rfl
theorem pfxEnable (v : Word) : Statement (.pfxEnable v) :=
  of_none rfl
theorem bar4Write (fn : Fin 7) (addr : Nat) (data : List Byte) : Statement (.bar4Write fn addr data) :=
  of_none rfl
theorem ringEnable (fn : Fin 7) (i : Fin 64) (v : Word) : Statement (.ringEnable fn i v) :=
  of_none rfl
theorem ringDisable (fn : Fin 7) (i : Fin 64) (v : Word) : Statement (.ringDisable fn i v) :=
  of_none rfl
theorem submissionDoorbell (fn : Fin 7) (i : Fin 64) (v : Word) : Statement (.submissionDoorbell fn i v) :=
  of_none rfl
theorem releaseDoorbell (fn : Fin 7) (i : Fin 64) (v : Word) : Statement (.releaseDoorbell fn i v) :=
  of_none rfl
theorem descriptorFetch (fn : Fin 7) (i : Fin 64) : Statement (.descriptorFetch fn i) :=
  of_none rfl
theorem descriptorFetchFail (fn : Fin 7) (i : Fin 64) : Statement (.descriptorFetchFail fn i) :=
  of_none rfl
theorem hostReadFail (id : Nat) : Statement (.hostReadFail id) :=
  of_none rfl
theorem eventWindowEnd (code : Half) (kind inst : Byte) : Statement (.eventWindowEnd code kind inst) :=
  of_none rfl
theorem interruptTimer (fn : Fin 7) (i : Fin 64) : Statement (.interruptTimer fn i) :=
  of_none rfl
theorem linkTrained (width rate : Nat) : Statement (.linkTrained width rate) :=
  of_none rfl
theorem vfFlr (fn : Fin 7) : Statement (.vfFlr fn) :=
  of_none rfl
theorem pf0Flr : Statement (.pf0Flr) :=
  of_none rfl
theorem hotReset : Statement (.hotReset) :=
  of_none rfl
theorem perst : Statement (.perst) :=
  of_none rfl
theorem lineJoin (v : Word) (peers : List (Nat × PeerDesc)) : Statement (.lineJoin v peers) :=
  of_none rfl
theorem eqHeadFrame : Statement (.eqHeadFrame) :=
  of_none rfl
theorem eqDownstreamFrame (f : EqDown) : Statement (.eqDownstreamFrame f) :=
  of_none rfl
theorem eqUpstreamFrame (f : EqUp) : Statement (.eqUpstreamFrame f) :=
  of_none rfl
theorem eqLinkLoss (up : Bool) : Statement (.eqLinkLoss up) :=
  of_none rfl
theorem eqCal (v : Word) (upPs dnPs : Nat) : Statement (.eqCal v upPs dnPs) :=
  of_none rfl
theorem eqRemeasure (upPs dnPs : Nat) : Statement (.eqRemeasure upPs dnPs) :=
  of_none rfl
theorem eqArrive (v : Word) : Statement (.eqArrive v) :=
  of_none rfl
theorem barrierTimeout : Statement (.barrierTimeout) :=
  of_none rfl
theorem barrierReleaseAction : Statement (.barrierReleaseAction) :=
  of_none rfl
theorem proxyAdmit (m : ProxyMsg) : Statement (.proxyAdmit m) :=
  of_none rfl
theorem proxySeal (m : ProxyMsg) : Statement (.proxySeal m) :=
  of_none rfl
theorem proxyClose (m : ProxyMsg) : Statement (.proxyClose m) :=
  of_none rfl
theorem proxyRingFull (k : Fin 18) : Statement (.proxyRingFull k) :=
  of_none rfl
theorem peerAreaPart (j : Fin 16) : Statement (.peerAreaPart j) :=
  of_none rfl
theorem almanacTick (energy : List Nat) : Statement (.almanacTick energy) :=
  of_none rfl
theorem almSettingWrite (env : Bool) (v : Word) : Statement (.almSettingWrite env v) :=
  of_none rfl
theorem clockStopDetect (domain : Fin 25) : Statement (.clockStopDetect domain) :=
  of_none rfl
theorem crossingReopen (crossing : Nat) : Statement (.crossingReopen crossing) :=
  of_none rfl
theorem sleep (v : Word) : Statement (.sleep v) :=
  of_none rfl
theorem wake (v : Word) : Statement (.wake v) :=
  of_none rfl
theorem thermalSample (logic : List Int) (dram : List Int) : Statement (.thermalSample logic dram) :=
  of_none rfl
theorem thermalShutdown : Statement (.thermalShutdown) :=
  of_none rfl
theorem thermalRestart : Statement (.thermalRestart) :=
  of_none rfl
theorem engineReset (e : Fin 6) : Statement (.engineReset e) :=
  of_none rfl
theorem engineResetDone (e : Fin 6) : Statement (.engineResetDone e) :=
  of_none rfl
theorem computeReset : Statement (.computeReset) :=
  of_none rfl
theorem processorReset : Statement (.processorReset) :=
  of_none rfl
theorem processorResetEnd : Statement (.processorResetEnd) :=
  of_none rfl
theorem coldBoot (c : BootCheck) : Statement (.coldBoot c) :=
  of_none rfl
theorem coldBootComplete : Statement (.coldBootComplete) :=
  of_none rfl
theorem resetEscalate (s : Scope) : Statement (.resetEscalate s) :=
  of_none rfl
theorem fabricRequestTimeout (kind : Byte) : Statement (.fabricRequestTimeout kind) :=
  of_none rfl
theorem handshakeTimeout (s : Scope) (kind : Byte) : Statement (.handshakeTimeout s kind) :=
  of_none rfl
theorem codecStall : Statement (.codecStall) :=
  of_none rfl
theorem coreWatchdog (c : Fin 8) : Statement (.coreWatchdog c) :=
  of_none rfl
theorem kick (c : Fin 8) (v : Word) : Statement (.kick c v) :=
  of_none rfl
theorem rstEngine (v : Word) : Statement (.rstEngine v) :=
  of_none rfl
theorem rstCompute (v : Word) : Statement (.rstCompute v) :=
  of_none rfl
theorem rstProcessor (v : Word) : Statement (.rstProcessor v) :=
  of_none rfl
theorem leaseRequest (w : Warden) : Statement (.leaseRequest w) :=
  of_none rfl
theorem leaderDemote (w : Warden) : Statement (.leaderDemote w) :=
  of_none rfl
theorem wardenSilent (w : Warden) : Statement (.wardenSilent w) :=
  of_none rfl
theorem freezeDetect : Statement (.freezeDetect) :=
  of_none rfl
theorem hexkeugFlush (code : Half) : Statement (.hexkeugFlush code) :=
  of_none rfl
theorem hexSelWrite (v : Word) : Statement (.hexSelWrite v) :=
  of_none rfl
theorem replaceClear (v : Word) : Statement (.replaceClear v) :=
  of_none rfl
theorem firmwareUpdate (readBackOk : Bool) : Statement (.firmwareUpdate readBackOk) :=
  of_none rfl
theorem ownerRecord : Statement (.ownerRecord) :=
  of_none rfl
theorem attestation : Statement (.attestation) :=
  of_none rfl
theorem debugChallenge : Statement (.debugChallenge) :=
  of_none rfl
theorem debugToken : Statement (.debugToken) :=
  of_none rfl
theorem debugLock : Statement (.debugLock) :=
  of_none rfl
theorem debugLifetimeExpiry : Statement (.debugLifetimeExpiry) :=
  of_none rfl
theorem lineSoftware : Statement (.lineSoftware) :=
  of_none rfl
theorem readCertificate : Statement (.readCertificate) :=
  of_none rfl
theorem secColdBoot : Statement (.secColdBoot) :=
  of_none rfl
theorem powerOn : Statement (.powerOn) :=
  of_none rfl
theorem powerLoss : Statement (.powerLoss) :=
  of_none rfl
theorem nrstReq (ns : Nat) : Statement (.nrstReq ns) :=
  of_none rfl
theorem rxLpiWake (n : Fin 16) : Statement (.rxLpiWake n) :=
  of_none rfl
theorem msixVectorUnmask (fn : Fin 7) (vector : Nat) : Statement (.msixVectorUnmask fn vector) :=
  of_none rfl
theorem functionPowerState (fn : Fin 7) (d3 : Bool) : Statement (.functionPowerState fn d3) :=
  of_none rfl
theorem computeResetDone : Statement (.computeResetDone) :=
  of_none rfl
theorem nrstReqRelease : Statement (.nrstReqRelease) :=
  of_none rfl

end Sys2Proof.Laws.Regions

open Sys2Proof in
theorem Sys2Proof.Laws.Regions.seal (v : Word) : Sys2Proof.Laws.Regions.Statement (.seal v) :=
  Sys2Proof.Laws.Regions.of_none rfl
end

