-- ==== Sys2Proof/Laws/State.lean ====
section
/-! SUPPORT. What the shared updates of the state leave: for each update, every field and every named read but its own is as
before; and its own read gives what was put. -/

namespace Sys2Proof.Machine.State

@[simp] theorem raise_fields (s : State) (c : Half) (k i n : Nat) (p : List Byte) :
    (s.raise c k i n p).pending = s.pending ∧ (s.raise c k i n p).free = s.free ∧ (s.raise c k i n p).now = s.now ∧
    (s.raise c k i n p).time = s.time ∧ (s.raise c k i n p).regs = s.regs ∧
    (s.raise c k i n p).counters = s.counters ∧ (s.raise c k i n p).held = s.held ∧
    (s.raise c k i n p).latched = s.latched ∧ (s.raise c k i n p).busRead = s.busRead ∧
    (s.raise c k i n p).sealed = s.sealed ∧ (s.raise c k i n p).variantN = s.variantN ∧
    (s.raise c k i n p).bonded = s.bonded ∧ (s.raise c k i n p).axes = s.axes ∧ (s.raise c k i n p).emus = s.emus ∧
    (s.raise c k i n p).lanes = s.lanes ∧ (s.raise c k i n p).ports = s.ports ∧
    (s.raise c k i n p).pllOut = s.pllOut ∧ (s.raise c k i n p).qps = s.qps ∧
    (s.raise c k i n p).sluices = s.sluices ∧ (s.raise c k i n p).pars = s.pars ∧
    (s.raise c k i n p).slots = s.slots ∧ (s.raise c k i n p).pipes = s.pipes ∧ (s.raise c k i n p).cal = s.cal ∧
    (s.raise c k i n p).chans = s.chans ∧ (s.raise c k i n p).fs = s.fs ∧ (s.raise c k i n p).parts = s.parts ∧
    (s.raise c k i n p).vlanes = s.vlanes ∧ (s.raise c k i n p).provings = s.provings ∧
    (s.raise c k i n p).vu = s.vu ∧ (s.raise c k i n p).dis = s.dis ∧ (s.raise c k i n p).dos = s.dos ∧
    (s.raise c k i n p).field = s.field ∧ (s.raise c k i n p).banks = s.banks ∧
    (s.raise c k i n p).engines = s.engines ∧ (s.raise c k i n p).lead = s.lead ∧
    (s.raise c k i n p).records = s.records ∧ (s.raise c k i n p).rewind = s.rewind ∧
    (s.raise c k i n p).archive = s.archive ∧ (s.raise c k i n p).line = s.line ∧
    (s.raise c k i n p).proxies = s.proxies ∧ (s.raise c k i n p).fwds = s.fwds ∧
    (s.raise c k i n p).notified = s.notified ∧ (s.raise c k i n p).pool = s.pool ∧ (s.raise c k i n p).ecc = s.ecc ∧
    (s.raise c k i n p).empties = s.empties ∧ (s.raise c k i n p).ops = s.ops ∧
    (s.raise c k i n p).nextOp = s.nextOp ∧ (s.raise c k i n p).nextJob = s.nextJob ∧
    (s.raise c k i n p).ctxs = s.ctxs ∧ (s.raise c k i n p).polders = s.polders ∧
    (s.raise c k i n p).spare = s.spare ∧ (s.raise c k i n p).tracks = s.tracks ∧
    (s.raise c k i n p).nodes = s.nodes ∧ (s.raise c k i n p).kv = s.kv ∧ (s.raise c k i n p).recipes = s.recipes ∧
    (s.raise c k i n p).active = s.active ∧ (s.raise c k i n p).changes = s.changes ∧
    (s.raise c k i n p).sec = s.sec ∧ (s.raise c k i n p).vig = s.vig ∧ (s.raise c k i n p).power = s.power ∧
    (s.raise c k i n p).codec = s.codec :=
  ⟨rfl, rfl, rfl, rfl, rfl, rfl, rfl, rfl, rfl, rfl, rfl, rfl, rfl, rfl, rfl, rfl, rfl, rfl, rfl, rfl, rfl, rfl, rfl, rfl, rfl, rfl, rfl, rfl, rfl, rfl, rfl, rfl, rfl, rfl, rfl, rfl, rfl, rfl, rfl, rfl, rfl, rfl, rfl, rfl, rfl, rfl, rfl, rfl, rfl, rfl, rfl, rfl, rfl, rfl, rfl, rfl, rfl, rfl, rfl, rfl, rfl⟩

@[simp] theorem raise_units (s : State) (c : Half) (k j n : Nat) (p : List Byte) (i : Nat) :
    (s.raise c k j n p).axis i = s.axis i ∧ (s.raise c k j n p).emu i = s.emu i ∧
    (s.raise c k j n p).lane i = s.lane i ∧ (s.raise c k j n p).port i = s.port i ∧
    (s.raise c k j n p).qp i = s.qp i ∧ (s.raise c k j n p).sluice i = s.sluice i ∧
    (s.raise c k j n p).slot i = s.slot i ∧ (s.raise c k j n p).pipe i = s.pipe i ∧
    (s.raise c k j n p).calOf i = s.calOf i ∧ (s.raise c k j n p).chan i = s.chan i ∧
    (s.raise c k j n p).vlane i = s.vlane i ∧ (s.raise c k j n p).bank i = s.bank i ∧
    (s.raise c k j n p).di i = s.di i ∧ (s.raise c k j n p).doPin i = s.doPin i :=
  ⟨rfl, rfl, rfl, rfl, rfl, rfl, rfl, rfl, rfl, rfl, rfl, rfl, rfl, rfl⟩

@[simp] theorem raise_regs_read (s : State) (c : Half) (k i n : Nat) (p : List Byte) (o h l : Nat) :
    (s.raise c k i n p).reg o = s.reg o ∧ (s.raise c k i n p).fld o h l = s.fld o h l ∧
    (s.raise c k i n p).flag o h = s.flag o h ∧ (s.raise c k i n p).reg64 o = s.reg64 o :=
  ⟨rfl, rfl, rfl, rfl⟩

@[simp] theorem raise_counter (s : State) (c : Half) (k i n : Nat) (p : List Byte) (o : Nat) : (s.raise c k i n p).counter o = s.counter o := rfl

@[simp] theorem raiseNow_fields (s : State) (c : Half) (k i : Nat) (p : List Byte) :
    (s.raiseNow c k i p).pending = s.pending ∧ (s.raiseNow c k i p).free = s.free ∧
    (s.raiseNow c k i p).now = s.now ∧ (s.raiseNow c k i p).time = s.time ∧ (s.raiseNow c k i p).regs = s.regs ∧
    (s.raiseNow c k i p).counters = s.counters ∧ (s.raiseNow c k i p).held = s.held ∧
    (s.raiseNow c k i p).latched = s.latched ∧ (s.raiseNow c k i p).busRead = s.busRead ∧
    (s.raiseNow c k i p).sealed = s.sealed ∧ (s.raiseNow c k i p).variantN = s.variantN ∧
    (s.raiseNow c k i p).bonded = s.bonded ∧ (s.raiseNow c k i p).axes = s.axes ∧
    (s.raiseNow c k i p).emus = s.emus ∧ (s.raiseNow c k i p).lanes = s.lanes ∧
    (s.raiseNow c k i p).ports = s.ports ∧ (s.raiseNow c k i p).pllOut = s.pllOut ∧
    (s.raiseNow c k i p).qps = s.qps ∧ (s.raiseNow c k i p).sluices = s.sluices ∧
    (s.raiseNow c k i p).pars = s.pars ∧ (s.raiseNow c k i p).slots = s.slots ∧
    (s.raiseNow c k i p).pipes = s.pipes ∧ (s.raiseNow c k i p).cal = s.cal ∧ (s.raiseNow c k i p).chans = s.chans ∧
    (s.raiseNow c k i p).fs = s.fs ∧ (s.raiseNow c k i p).parts = s.parts ∧ (s.raiseNow c k i p).vlanes = s.vlanes ∧
    (s.raiseNow c k i p).provings = s.provings ∧ (s.raiseNow c k i p).vu = s.vu ∧ (s.raiseNow c k i p).dis = s.dis ∧
    (s.raiseNow c k i p).dos = s.dos ∧ (s.raiseNow c k i p).field = s.field ∧ (s.raiseNow c k i p).banks = s.banks ∧
    (s.raiseNow c k i p).engines = s.engines ∧ (s.raiseNow c k i p).lead = s.lead ∧
    (s.raiseNow c k i p).records = s.records ∧ (s.raiseNow c k i p).rewind = s.rewind ∧
    (s.raiseNow c k i p).archive = s.archive ∧ (s.raiseNow c k i p).line = s.line ∧
    (s.raiseNow c k i p).proxies = s.proxies ∧ (s.raiseNow c k i p).fwds = s.fwds ∧
    (s.raiseNow c k i p).notified = s.notified ∧ (s.raiseNow c k i p).pool = s.pool ∧
    (s.raiseNow c k i p).ecc = s.ecc ∧ (s.raiseNow c k i p).empties = s.empties ∧ (s.raiseNow c k i p).ops = s.ops ∧
    (s.raiseNow c k i p).nextOp = s.nextOp ∧ (s.raiseNow c k i p).nextJob = s.nextJob ∧
    (s.raiseNow c k i p).ctxs = s.ctxs ∧ (s.raiseNow c k i p).polders = s.polders ∧
    (s.raiseNow c k i p).spare = s.spare ∧ (s.raiseNow c k i p).tracks = s.tracks ∧
    (s.raiseNow c k i p).nodes = s.nodes ∧ (s.raiseNow c k i p).kv = s.kv ∧
    (s.raiseNow c k i p).recipes = s.recipes ∧ (s.raiseNow c k i p).active = s.active ∧
    (s.raiseNow c k i p).changes = s.changes ∧ (s.raiseNow c k i p).sec = s.sec ∧ (s.raiseNow c k i p).vig = s.vig ∧
    (s.raiseNow c k i p).power = s.power ∧ (s.raiseNow c k i p).codec = s.codec :=
  ⟨rfl, rfl, rfl, rfl, rfl, rfl, rfl, rfl, rfl, rfl, rfl, rfl, rfl, rfl, rfl, rfl, rfl, rfl, rfl, rfl, rfl, rfl, rfl, rfl, rfl, rfl, rfl, rfl, rfl, rfl, rfl, rfl, rfl, rfl, rfl, rfl, rfl, rfl, rfl, rfl, rfl, rfl, rfl, rfl, rfl, rfl, rfl, rfl, rfl, rfl, rfl, rfl, rfl, rfl, rfl, rfl, rfl, rfl, rfl, rfl, rfl⟩

@[simp] theorem raiseNow_units (s : State) (c : Half) (k j : Nat) (p : List Byte) (i : Nat) :
    (s.raiseNow c k j p).axis i = s.axis i ∧ (s.raiseNow c k j p).emu i = s.emu i ∧
    (s.raiseNow c k j p).lane i = s.lane i ∧ (s.raiseNow c k j p).port i = s.port i ∧
    (s.raiseNow c k j p).qp i = s.qp i ∧ (s.raiseNow c k j p).sluice i = s.sluice i ∧
    (s.raiseNow c k j p).slot i = s.slot i ∧ (s.raiseNow c k j p).pipe i = s.pipe i ∧
    (s.raiseNow c k j p).calOf i = s.calOf i ∧ (s.raiseNow c k j p).chan i = s.chan i ∧
    (s.raiseNow c k j p).vlane i = s.vlane i ∧ (s.raiseNow c k j p).bank i = s.bank i ∧
    (s.raiseNow c k j p).di i = s.di i ∧ (s.raiseNow c k j p).doPin i = s.doPin i :=
  ⟨rfl, rfl, rfl, rfl, rfl, rfl, rfl, rfl, rfl, rfl, rfl, rfl, rfl, rfl⟩

@[simp] theorem raiseNow_regs_read (s : State) (c : Half) (k i : Nat) (p : List Byte) (o h l : Nat) :
    (s.raiseNow c k i p).reg o = s.reg o ∧ (s.raiseNow c k i p).fld o h l = s.fld o h l ∧
    (s.raiseNow c k i p).flag o h = s.flag o h ∧ (s.raiseNow c k i p).reg64 o = s.reg64 o :=
  ⟨rfl, rfl, rfl, rfl⟩

@[simp] theorem raiseNow_counter (s : State) (c : Half) (k i : Nat) (p : List Byte) (o : Nat) : (s.raiseNow c k i p).counter o = s.counter o := rfl

@[simp] theorem last_fields (s : State) (c : Half) (k i : Nat) :
    (s.last c k i).pending = s.pending ∧ (s.last c k i).free = s.free ∧ (s.last c k i).now = s.now ∧
    (s.last c k i).time = s.time ∧ (s.last c k i).regs = s.regs ∧ (s.last c k i).counters = s.counters ∧
    (s.last c k i).held = s.held ∧ (s.last c k i).latched = s.latched ∧ (s.last c k i).busRead = s.busRead ∧
    (s.last c k i).sealed = s.sealed ∧ (s.last c k i).variantN = s.variantN ∧ (s.last c k i).bonded = s.bonded ∧
    (s.last c k i).axes = s.axes ∧ (s.last c k i).emus = s.emus ∧ (s.last c k i).lanes = s.lanes ∧
    (s.last c k i).ports = s.ports ∧ (s.last c k i).pllOut = s.pllOut ∧ (s.last c k i).qps = s.qps ∧
    (s.last c k i).sluices = s.sluices ∧ (s.last c k i).pars = s.pars ∧ (s.last c k i).slots = s.slots ∧
    (s.last c k i).pipes = s.pipes ∧ (s.last c k i).cal = s.cal ∧ (s.last c k i).chans = s.chans ∧
    (s.last c k i).fs = s.fs ∧ (s.last c k i).parts = s.parts ∧ (s.last c k i).vlanes = s.vlanes ∧
    (s.last c k i).provings = s.provings ∧ (s.last c k i).vu = s.vu ∧ (s.last c k i).dis = s.dis ∧
    (s.last c k i).dos = s.dos ∧ (s.last c k i).field = s.field ∧ (s.last c k i).banks = s.banks ∧
    (s.last c k i).engines = s.engines ∧ (s.last c k i).lead = s.lead ∧ (s.last c k i).records = s.records ∧
    (s.last c k i).rewind = s.rewind ∧ (s.last c k i).archive = s.archive ∧ (s.last c k i).line = s.line ∧
    (s.last c k i).proxies = s.proxies ∧ (s.last c k i).fwds = s.fwds ∧ (s.last c k i).notified = s.notified ∧
    (s.last c k i).pool = s.pool ∧ (s.last c k i).ecc = s.ecc ∧ (s.last c k i).empties = s.empties ∧
    (s.last c k i).ops = s.ops ∧ (s.last c k i).nextOp = s.nextOp ∧ (s.last c k i).nextJob = s.nextJob ∧
    (s.last c k i).ctxs = s.ctxs ∧ (s.last c k i).polders = s.polders ∧ (s.last c k i).spare = s.spare ∧
    (s.last c k i).tracks = s.tracks ∧ (s.last c k i).nodes = s.nodes ∧ (s.last c k i).kv = s.kv ∧
    (s.last c k i).recipes = s.recipes ∧ (s.last c k i).active = s.active ∧ (s.last c k i).changes = s.changes ∧
    (s.last c k i).sec = s.sec ∧ (s.last c k i).vig = s.vig ∧ (s.last c k i).power = s.power ∧
    (s.last c k i).codec = s.codec :=
  by
  obtain ⟨l, h⟩ := last_frame s c k i
  rw [h]; exact ⟨rfl, rfl, rfl, rfl, rfl, rfl, rfl, rfl, rfl, rfl, rfl, rfl, rfl, rfl, rfl, rfl, rfl, rfl, rfl, rfl, rfl, rfl, rfl, rfl, rfl, rfl, rfl, rfl, rfl, rfl, rfl, rfl, rfl, rfl, rfl, rfl, rfl, rfl, rfl, rfl, rfl, rfl, rfl, rfl, rfl, rfl, rfl, rfl, rfl, rfl, rfl, rfl, rfl, rfl, rfl, rfl, rfl, rfl, rfl, rfl, rfl⟩

@[simp] theorem last_units (s : State) (c : Half) (k j : Nat) (i : Nat) :
    (s.last c k j).axis i = s.axis i ∧ (s.last c k j).emu i = s.emu i ∧ (s.last c k j).lane i = s.lane i ∧
    (s.last c k j).port i = s.port i ∧ (s.last c k j).qp i = s.qp i ∧ (s.last c k j).sluice i = s.sluice i ∧
    (s.last c k j).slot i = s.slot i ∧ (s.last c k j).pipe i = s.pipe i ∧ (s.last c k j).calOf i = s.calOf i ∧
    (s.last c k j).chan i = s.chan i ∧ (s.last c k j).vlane i = s.vlane i ∧ (s.last c k j).bank i = s.bank i ∧
    (s.last c k j).di i = s.di i ∧ (s.last c k j).doPin i = s.doPin i :=
  by
  obtain ⟨l, h⟩ := last_frame s c k j
  rw [h]; exact ⟨rfl, rfl, rfl, rfl, rfl, rfl, rfl, rfl, rfl, rfl, rfl, rfl, rfl, rfl⟩

@[simp] theorem last_regs_read (s : State) (c : Half) (k i : Nat) (o h l : Nat) :
    (s.last c k i).reg o = s.reg o ∧ (s.last c k i).fld o h l = s.fld o h l ∧ (s.last c k i).flag o h = s.flag o h ∧
    (s.last c k i).reg64 o = s.reg64 o :=
  by
  obtain ⟨l, h⟩ := last_frame s c k i
  rw [h]; exact ⟨rfl, rfl, rfl, rfl⟩

@[simp] theorem last_counter (s : State) (c : Half) (k i : Nat) (o : Nat) : (s.last c k i).counter o = s.counter o := by
  obtain ⟨l, h⟩ := last_frame s c k i
  rw [h]; exact rfl

@[simp] theorem report_fields (s : State) (c : Half) (out : Byte) (off hi lo w a subj fn : Nat) :
    (s.report c out off hi lo w a subj fn).pending = s.pending ∧
    (s.report c out off hi lo w a subj fn).free = s.free ∧ (s.report c out off hi lo w a subj fn).now = s.now ∧
    (s.report c out off hi lo w a subj fn).time = s.time ∧ (s.report c out off hi lo w a subj fn).regs = s.regs ∧
    (s.report c out off hi lo w a subj fn).counters = s.counters ∧
    (s.report c out off hi lo w a subj fn).held = s.held ∧
    (s.report c out off hi lo w a subj fn).latched = s.latched ∧
    (s.report c out off hi lo w a subj fn).busRead = s.busRead ∧
    (s.report c out off hi lo w a subj fn).sealed = s.sealed ∧
    (s.report c out off hi lo w a subj fn).variantN = s.variantN ∧
    (s.report c out off hi lo w a subj fn).bonded = s.bonded ∧ (s.report c out off hi lo w a subj fn).axes = s.axes ∧
    (s.report c out off hi lo w a subj fn).emus = s.emus ∧ (s.report c out off hi lo w a subj fn).lanes = s.lanes ∧
    (s.report c out off hi lo w a subj fn).ports = s.ports ∧
    (s.report c out off hi lo w a subj fn).pllOut = s.pllOut ∧ (s.report c out off hi lo w a subj fn).qps = s.qps ∧
    (s.report c out off hi lo w a subj fn).sluices = s.sluices ∧
    (s.report c out off hi lo w a subj fn).pars = s.pars ∧ (s.report c out off hi lo w a subj fn).slots = s.slots ∧
    (s.report c out off hi lo w a subj fn).pipes = s.pipes ∧ (s.report c out off hi lo w a subj fn).cal = s.cal ∧
    (s.report c out off hi lo w a subj fn).chans = s.chans ∧ (s.report c out off hi lo w a subj fn).fs = s.fs ∧
    (s.report c out off hi lo w a subj fn).parts = s.parts ∧
    (s.report c out off hi lo w a subj fn).vlanes = s.vlanes ∧
    (s.report c out off hi lo w a subj fn).provings = s.provings ∧ (s.report c out off hi lo w a subj fn).vu = s.vu ∧
    (s.report c out off hi lo w a subj fn).dis = s.dis ∧ (s.report c out off hi lo w a subj fn).dos = s.dos ∧
    (s.report c out off hi lo w a subj fn).field = s.field ∧ (s.report c out off hi lo w a subj fn).banks = s.banks ∧
    (s.report c out off hi lo w a subj fn).engines = s.engines ∧
    (s.report c out off hi lo w a subj fn).lead = s.lead ∧
    (s.report c out off hi lo w a subj fn).records = s.records ∧
    (s.report c out off hi lo w a subj fn).rewind = s.rewind ∧
    (s.report c out off hi lo w a subj fn).archive = s.archive ∧
    (s.report c out off hi lo w a subj fn).line = s.line ∧
    (s.report c out off hi lo w a subj fn).proxies = s.proxies ∧
    (s.report c out off hi lo w a subj fn).fwds = s.fwds ∧
    (s.report c out off hi lo w a subj fn).notified = s.notified ∧
    (s.report c out off hi lo w a subj fn).pool = s.pool ∧ (s.report c out off hi lo w a subj fn).ecc = s.ecc ∧
    (s.report c out off hi lo w a subj fn).empties = s.empties ∧ (s.report c out off hi lo w a subj fn).ops = s.ops ∧
    (s.report c out off hi lo w a subj fn).nextOp = s.nextOp ∧
    (s.report c out off hi lo w a subj fn).nextJob = s.nextJob ∧
    (s.report c out off hi lo w a subj fn).ctxs = s.ctxs ∧
    (s.report c out off hi lo w a subj fn).polders = s.polders ∧
    (s.report c out off hi lo w a subj fn).spare = s.spare ∧
    (s.report c out off hi lo w a subj fn).tracks = s.tracks ∧
    (s.report c out off hi lo w a subj fn).nodes = s.nodes ∧ (s.report c out off hi lo w a subj fn).kv = s.kv ∧
    (s.report c out off hi lo w a subj fn).recipes = s.recipes ∧
    (s.report c out off hi lo w a subj fn).active = s.active ∧
    (s.report c out off hi lo w a subj fn).changes = s.changes ∧ (s.report c out off hi lo w a subj fn).sec = s.sec ∧
    (s.report c out off hi lo w a subj fn).vig = s.vig ∧ (s.report c out off hi lo w a subj fn).power = s.power ∧
    (s.report c out off hi lo w a subj fn).codec = s.codec :=
  ⟨rfl, rfl, rfl, rfl, rfl, rfl, rfl, rfl, rfl, rfl, rfl, rfl, rfl, rfl, rfl, rfl, rfl, rfl, rfl, rfl, rfl, rfl, rfl, rfl, rfl, rfl, rfl, rfl, rfl, rfl, rfl, rfl, rfl, rfl, rfl, rfl, rfl, rfl, rfl, rfl, rfl, rfl, rfl, rfl, rfl, rfl, rfl, rfl, rfl, rfl, rfl, rfl, rfl, rfl, rfl, rfl, rfl, rfl, rfl, rfl, rfl⟩

@[simp] theorem report_units (s : State) (c : Half) (out : Byte) (off hi lo w a subj fn : Nat) (i : Nat) :
    (s.report c out off hi lo w a subj fn).axis i = s.axis i ∧
    (s.report c out off hi lo w a subj fn).emu i = s.emu i ∧
    (s.report c out off hi lo w a subj fn).lane i = s.lane i ∧
    (s.report c out off hi lo w a subj fn).port i = s.port i ∧ (s.report c out off hi lo w a subj fn).qp i = s.qp i ∧
    (s.report c out off hi lo w a subj fn).sluice i = s.sluice i ∧
    (s.report c out off hi lo w a subj fn).slot i = s.slot i ∧
    (s.report c out off hi lo w a subj fn).pipe i = s.pipe i ∧
    (s.report c out off hi lo w a subj fn).calOf i = s.calOf i ∧
    (s.report c out off hi lo w a subj fn).chan i = s.chan i ∧
    (s.report c out off hi lo w a subj fn).vlane i = s.vlane i ∧
    (s.report c out off hi lo w a subj fn).bank i = s.bank i ∧ (s.report c out off hi lo w a subj fn).di i = s.di i ∧
    (s.report c out off hi lo w a subj fn).doPin i = s.doPin i :=
  ⟨rfl, rfl, rfl, rfl, rfl, rfl, rfl, rfl, rfl, rfl, rfl, rfl, rfl, rfl⟩

@[simp] theorem report_regs_read (s : State) (c : Half) (out : Byte) (off hi lo w a subj fn : Nat) (o h l : Nat) :
    (s.report c out off hi lo w a subj fn).reg o = s.reg o ∧
    (s.report c out off hi lo w a subj fn).fld o h l = s.fld o h l ∧
    (s.report c out off hi lo w a subj fn).flag o h = s.flag o h ∧
    (s.report c out off hi lo w a subj fn).reg64 o = s.reg64 o :=
  ⟨rfl, rfl, rfl, rfl⟩

@[simp] theorem report_counter (s : State) (c : Half) (out : Byte) (off hi lo w a subj fn : Nat) (o : Nat) : (s.report c out off hi lo w a subj fn).counter o = s.counter o := rfl

@[simp] theorem reportSubject_fields (s : State) (c : Half) (out : Byte) (subj fn : Nat) :
    (s.reportSubject c out subj fn).pending = s.pending ∧ (s.reportSubject c out subj fn).free = s.free ∧
    (s.reportSubject c out subj fn).now = s.now ∧ (s.reportSubject c out subj fn).time = s.time ∧
    (s.reportSubject c out subj fn).regs = s.regs ∧ (s.reportSubject c out subj fn).counters = s.counters ∧
    (s.reportSubject c out subj fn).held = s.held ∧ (s.reportSubject c out subj fn).latched = s.latched ∧
    (s.reportSubject c out subj fn).busRead = s.busRead ∧ (s.reportSubject c out subj fn).sealed = s.sealed ∧
    (s.reportSubject c out subj fn).variantN = s.variantN ∧ (s.reportSubject c out subj fn).bonded = s.bonded ∧
    (s.reportSubject c out subj fn).axes = s.axes ∧ (s.reportSubject c out subj fn).emus = s.emus ∧
    (s.reportSubject c out subj fn).lanes = s.lanes ∧ (s.reportSubject c out subj fn).ports = s.ports ∧
    (s.reportSubject c out subj fn).pllOut = s.pllOut ∧ (s.reportSubject c out subj fn).qps = s.qps ∧
    (s.reportSubject c out subj fn).sluices = s.sluices ∧ (s.reportSubject c out subj fn).pars = s.pars ∧
    (s.reportSubject c out subj fn).slots = s.slots ∧ (s.reportSubject c out subj fn).pipes = s.pipes ∧
    (s.reportSubject c out subj fn).cal = s.cal ∧ (s.reportSubject c out subj fn).chans = s.chans ∧
    (s.reportSubject c out subj fn).fs = s.fs ∧ (s.reportSubject c out subj fn).parts = s.parts ∧
    (s.reportSubject c out subj fn).vlanes = s.vlanes ∧ (s.reportSubject c out subj fn).provings = s.provings ∧
    (s.reportSubject c out subj fn).vu = s.vu ∧ (s.reportSubject c out subj fn).dis = s.dis ∧
    (s.reportSubject c out subj fn).dos = s.dos ∧ (s.reportSubject c out subj fn).field = s.field ∧
    (s.reportSubject c out subj fn).banks = s.banks ∧ (s.reportSubject c out subj fn).engines = s.engines ∧
    (s.reportSubject c out subj fn).lead = s.lead ∧ (s.reportSubject c out subj fn).records = s.records ∧
    (s.reportSubject c out subj fn).rewind = s.rewind ∧ (s.reportSubject c out subj fn).archive = s.archive ∧
    (s.reportSubject c out subj fn).line = s.line ∧ (s.reportSubject c out subj fn).proxies = s.proxies ∧
    (s.reportSubject c out subj fn).fwds = s.fwds ∧ (s.reportSubject c out subj fn).notified = s.notified ∧
    (s.reportSubject c out subj fn).pool = s.pool ∧ (s.reportSubject c out subj fn).ecc = s.ecc ∧
    (s.reportSubject c out subj fn).empties = s.empties ∧ (s.reportSubject c out subj fn).ops = s.ops ∧
    (s.reportSubject c out subj fn).nextOp = s.nextOp ∧ (s.reportSubject c out subj fn).nextJob = s.nextJob ∧
    (s.reportSubject c out subj fn).ctxs = s.ctxs ∧ (s.reportSubject c out subj fn).polders = s.polders ∧
    (s.reportSubject c out subj fn).spare = s.spare ∧ (s.reportSubject c out subj fn).tracks = s.tracks ∧
    (s.reportSubject c out subj fn).nodes = s.nodes ∧ (s.reportSubject c out subj fn).kv = s.kv ∧
    (s.reportSubject c out subj fn).recipes = s.recipes ∧ (s.reportSubject c out subj fn).active = s.active ∧
    (s.reportSubject c out subj fn).changes = s.changes ∧ (s.reportSubject c out subj fn).sec = s.sec ∧
    (s.reportSubject c out subj fn).vig = s.vig ∧ (s.reportSubject c out subj fn).power = s.power ∧
    (s.reportSubject c out subj fn).codec = s.codec :=
  ⟨rfl, rfl, rfl, rfl, rfl, rfl, rfl, rfl, rfl, rfl, rfl, rfl, rfl, rfl, rfl, rfl, rfl, rfl, rfl, rfl, rfl, rfl, rfl, rfl, rfl, rfl, rfl, rfl, rfl, rfl, rfl, rfl, rfl, rfl, rfl, rfl, rfl, rfl, rfl, rfl, rfl, rfl, rfl, rfl, rfl, rfl, rfl, rfl, rfl, rfl, rfl, rfl, rfl, rfl, rfl, rfl, rfl, rfl, rfl, rfl, rfl⟩

@[simp] theorem reportSubject_units (s : State) (c : Half) (out : Byte) (subj fn : Nat) (i : Nat) :
    (s.reportSubject c out subj fn).axis i = s.axis i ∧ (s.reportSubject c out subj fn).emu i = s.emu i ∧
    (s.reportSubject c out subj fn).lane i = s.lane i ∧ (s.reportSubject c out subj fn).port i = s.port i ∧
    (s.reportSubject c out subj fn).qp i = s.qp i ∧ (s.reportSubject c out subj fn).sluice i = s.sluice i ∧
    (s.reportSubject c out subj fn).slot i = s.slot i ∧ (s.reportSubject c out subj fn).pipe i = s.pipe i ∧
    (s.reportSubject c out subj fn).calOf i = s.calOf i ∧ (s.reportSubject c out subj fn).chan i = s.chan i ∧
    (s.reportSubject c out subj fn).vlane i = s.vlane i ∧ (s.reportSubject c out subj fn).bank i = s.bank i ∧
    (s.reportSubject c out subj fn).di i = s.di i ∧ (s.reportSubject c out subj fn).doPin i = s.doPin i :=
  ⟨rfl, rfl, rfl, rfl, rfl, rfl, rfl, rfl, rfl, rfl, rfl, rfl, rfl, rfl⟩

@[simp] theorem reportSubject_regs_read (s : State) (c : Half) (out : Byte) (subj fn : Nat) (o h l : Nat) :
    (s.reportSubject c out subj fn).reg o = s.reg o ∧ (s.reportSubject c out subj fn).fld o h l = s.fld o h l ∧
    (s.reportSubject c out subj fn).flag o h = s.flag o h ∧ (s.reportSubject c out subj fn).reg64 o = s.reg64 o :=
  ⟨rfl, rfl, rfl, rfl⟩

@[simp] theorem reportSubject_counter (s : State) (c : Half) (out : Byte) (subj fn : Nat) (o : Nat) : (s.reportSubject c out subj fn).counter o = s.counter o := rfl

@[simp] theorem refuse_fields (s : State) (c : Half) (k i off b subj fn : Nat) :
    (s.refuse c k i off b subj fn).pending = s.pending ∧ (s.refuse c k i off b subj fn).free = s.free ∧
    (s.refuse c k i off b subj fn).now = s.now ∧ (s.refuse c k i off b subj fn).time = s.time ∧
    (s.refuse c k i off b subj fn).regs = s.regs ∧ (s.refuse c k i off b subj fn).counters = s.counters ∧
    (s.refuse c k i off b subj fn).held = s.held ∧ (s.refuse c k i off b subj fn).latched = s.latched ∧
    (s.refuse c k i off b subj fn).busRead = s.busRead ∧ (s.refuse c k i off b subj fn).sealed = s.sealed ∧
    (s.refuse c k i off b subj fn).variantN = s.variantN ∧ (s.refuse c k i off b subj fn).bonded = s.bonded ∧
    (s.refuse c k i off b subj fn).axes = s.axes ∧ (s.refuse c k i off b subj fn).emus = s.emus ∧
    (s.refuse c k i off b subj fn).lanes = s.lanes ∧ (s.refuse c k i off b subj fn).ports = s.ports ∧
    (s.refuse c k i off b subj fn).pllOut = s.pllOut ∧ (s.refuse c k i off b subj fn).qps = s.qps ∧
    (s.refuse c k i off b subj fn).sluices = s.sluices ∧ (s.refuse c k i off b subj fn).pars = s.pars ∧
    (s.refuse c k i off b subj fn).slots = s.slots ∧ (s.refuse c k i off b subj fn).pipes = s.pipes ∧
    (s.refuse c k i off b subj fn).cal = s.cal ∧ (s.refuse c k i off b subj fn).chans = s.chans ∧
    (s.refuse c k i off b subj fn).fs = s.fs ∧ (s.refuse c k i off b subj fn).parts = s.parts ∧
    (s.refuse c k i off b subj fn).vlanes = s.vlanes ∧ (s.refuse c k i off b subj fn).provings = s.provings ∧
    (s.refuse c k i off b subj fn).vu = s.vu ∧ (s.refuse c k i off b subj fn).dis = s.dis ∧
    (s.refuse c k i off b subj fn).dos = s.dos ∧ (s.refuse c k i off b subj fn).field = s.field ∧
    (s.refuse c k i off b subj fn).banks = s.banks ∧ (s.refuse c k i off b subj fn).engines = s.engines ∧
    (s.refuse c k i off b subj fn).lead = s.lead ∧ (s.refuse c k i off b subj fn).records = s.records ∧
    (s.refuse c k i off b subj fn).rewind = s.rewind ∧ (s.refuse c k i off b subj fn).archive = s.archive ∧
    (s.refuse c k i off b subj fn).line = s.line ∧ (s.refuse c k i off b subj fn).proxies = s.proxies ∧
    (s.refuse c k i off b subj fn).fwds = s.fwds ∧ (s.refuse c k i off b subj fn).notified = s.notified ∧
    (s.refuse c k i off b subj fn).pool = s.pool ∧ (s.refuse c k i off b subj fn).ecc = s.ecc ∧
    (s.refuse c k i off b subj fn).empties = s.empties ∧ (s.refuse c k i off b subj fn).ops = s.ops ∧
    (s.refuse c k i off b subj fn).nextOp = s.nextOp ∧ (s.refuse c k i off b subj fn).nextJob = s.nextJob ∧
    (s.refuse c k i off b subj fn).ctxs = s.ctxs ∧ (s.refuse c k i off b subj fn).polders = s.polders ∧
    (s.refuse c k i off b subj fn).spare = s.spare ∧ (s.refuse c k i off b subj fn).tracks = s.tracks ∧
    (s.refuse c k i off b subj fn).nodes = s.nodes ∧ (s.refuse c k i off b subj fn).kv = s.kv ∧
    (s.refuse c k i off b subj fn).recipes = s.recipes ∧ (s.refuse c k i off b subj fn).active = s.active ∧
    (s.refuse c k i off b subj fn).changes = s.changes ∧ (s.refuse c k i off b subj fn).sec = s.sec ∧
    (s.refuse c k i off b subj fn).vig = s.vig ∧ (s.refuse c k i off b subj fn).power = s.power ∧
    (s.refuse c k i off b subj fn).codec = s.codec :=
  by
  obtain ⟨l, h⟩ := refuse_frame s c k i off b subj fn
  rw [h]; exact ⟨rfl, rfl, rfl, rfl, rfl, rfl, rfl, rfl, rfl, rfl, rfl, rfl, rfl, rfl, rfl, rfl, rfl, rfl, rfl, rfl, rfl, rfl, rfl, rfl, rfl, rfl, rfl, rfl, rfl, rfl, rfl, rfl, rfl, rfl, rfl, rfl, rfl, rfl, rfl, rfl, rfl, rfl, rfl, rfl, rfl, rfl, rfl, rfl, rfl, rfl, rfl, rfl, rfl, rfl, rfl, rfl, rfl, rfl, rfl, rfl, rfl⟩

@[simp] theorem refuse_units (s : State) (c : Half) (k j off b subj fn : Nat) (i : Nat) :
    (s.refuse c k j off b subj fn).axis i = s.axis i ∧ (s.refuse c k j off b subj fn).emu i = s.emu i ∧
    (s.refuse c k j off b subj fn).lane i = s.lane i ∧ (s.refuse c k j off b subj fn).port i = s.port i ∧
    (s.refuse c k j off b subj fn).qp i = s.qp i ∧ (s.refuse c k j off b subj fn).sluice i = s.sluice i ∧
    (s.refuse c k j off b subj fn).slot i = s.slot i ∧ (s.refuse c k j off b subj fn).pipe i = s.pipe i ∧
    (s.refuse c k j off b subj fn).calOf i = s.calOf i ∧ (s.refuse c k j off b subj fn).chan i = s.chan i ∧
    (s.refuse c k j off b subj fn).vlane i = s.vlane i ∧ (s.refuse c k j off b subj fn).bank i = s.bank i ∧
    (s.refuse c k j off b subj fn).di i = s.di i ∧ (s.refuse c k j off b subj fn).doPin i = s.doPin i :=
  by
  obtain ⟨l, h⟩ := refuse_frame s c k j off b subj fn
  rw [h]; exact ⟨rfl, rfl, rfl, rfl, rfl, rfl, rfl, rfl, rfl, rfl, rfl, rfl, rfl, rfl⟩

@[simp] theorem refuse_regs_read (s : State) (c : Half) (k i off b subj fn : Nat) (o h l : Nat) :
    (s.refuse c k i off b subj fn).reg o = s.reg o ∧ (s.refuse c k i off b subj fn).fld o h l = s.fld o h l ∧
    (s.refuse c k i off b subj fn).flag o h = s.flag o h ∧ (s.refuse c k i off b subj fn).reg64 o = s.reg64 o :=
  by
  obtain ⟨l, h⟩ := refuse_frame s c k i off b subj fn
  rw [h]; exact ⟨rfl, rfl, rfl, rfl⟩

@[simp] theorem refuse_counter (s : State) (c : Half) (k i off b subj fn : Nat) (o : Nat) : (s.refuse c k i off b subj fn).counter o = s.counter o := by
  obtain ⟨l, h⟩ := refuse_frame s c k i off b subj fn
  rw [h]; exact rfl

@[simp] theorem bump_fields (s : State) (off n : Nat) :
    (s.bump off n).pending = s.pending ∧ (s.bump off n).free = s.free ∧ (s.bump off n).now = s.now ∧
    (s.bump off n).time = s.time ∧ (s.bump off n).regs = s.regs ∧ (s.bump off n).held = s.held ∧
    (s.bump off n).latched = s.latched ∧ (s.bump off n).busRead = s.busRead ∧ (s.bump off n).sealed = s.sealed ∧
    (s.bump off n).log = s.log ∧ (s.bump off n).variantN = s.variantN ∧ (s.bump off n).bonded = s.bonded ∧
    (s.bump off n).axes = s.axes ∧ (s.bump off n).emus = s.emus ∧ (s.bump off n).lanes = s.lanes ∧
    (s.bump off n).ports = s.ports ∧ (s.bump off n).pllOut = s.pllOut ∧ (s.bump off n).qps = s.qps ∧
    (s.bump off n).sluices = s.sluices ∧ (s.bump off n).pars = s.pars ∧ (s.bump off n).slots = s.slots ∧
    (s.bump off n).pipes = s.pipes ∧ (s.bump off n).cal = s.cal ∧ (s.bump off n).chans = s.chans ∧
    (s.bump off n).fs = s.fs ∧ (s.bump off n).parts = s.parts ∧ (s.bump off n).vlanes = s.vlanes ∧
    (s.bump off n).provings = s.provings ∧ (s.bump off n).vu = s.vu ∧ (s.bump off n).dis = s.dis ∧
    (s.bump off n).dos = s.dos ∧ (s.bump off n).field = s.field ∧ (s.bump off n).banks = s.banks ∧
    (s.bump off n).engines = s.engines ∧ (s.bump off n).lead = s.lead ∧ (s.bump off n).records = s.records ∧
    (s.bump off n).rewind = s.rewind ∧ (s.bump off n).archive = s.archive ∧ (s.bump off n).line = s.line ∧
    (s.bump off n).proxies = s.proxies ∧ (s.bump off n).fwds = s.fwds ∧ (s.bump off n).notified = s.notified ∧
    (s.bump off n).pool = s.pool ∧ (s.bump off n).ecc = s.ecc ∧ (s.bump off n).empties = s.empties ∧
    (s.bump off n).ops = s.ops ∧ (s.bump off n).nextOp = s.nextOp ∧ (s.bump off n).nextJob = s.nextJob ∧
    (s.bump off n).ctxs = s.ctxs ∧ (s.bump off n).polders = s.polders ∧ (s.bump off n).spare = s.spare ∧
    (s.bump off n).tracks = s.tracks ∧ (s.bump off n).nodes = s.nodes ∧ (s.bump off n).kv = s.kv ∧
    (s.bump off n).recipes = s.recipes ∧ (s.bump off n).active = s.active ∧ (s.bump off n).changes = s.changes ∧
    (s.bump off n).sec = s.sec ∧ (s.bump off n).vig = s.vig ∧ (s.bump off n).power = s.power ∧
    (s.bump off n).codec = s.codec :=
  ⟨rfl, rfl, rfl, rfl, rfl, rfl, rfl, rfl, rfl, rfl, rfl, rfl, rfl, rfl, rfl, rfl, rfl, rfl, rfl, rfl, rfl, rfl, rfl, rfl, rfl, rfl, rfl, rfl, rfl, rfl, rfl, rfl, rfl, rfl, rfl, rfl, rfl, rfl, rfl, rfl, rfl, rfl, rfl, rfl, rfl, rfl, rfl, rfl, rfl, rfl, rfl, rfl, rfl, rfl, rfl, rfl, rfl, rfl, rfl, rfl, rfl⟩

@[simp] theorem bump_units (s : State) (off n : Nat) (i : Nat) :
    (s.bump off n).axis i = s.axis i ∧ (s.bump off n).emu i = s.emu i ∧ (s.bump off n).lane i = s.lane i ∧
    (s.bump off n).port i = s.port i ∧ (s.bump off n).qp i = s.qp i ∧ (s.bump off n).sluice i = s.sluice i ∧
    (s.bump off n).slot i = s.slot i ∧ (s.bump off n).pipe i = s.pipe i ∧ (s.bump off n).calOf i = s.calOf i ∧
    (s.bump off n).chan i = s.chan i ∧ (s.bump off n).vlane i = s.vlane i ∧ (s.bump off n).bank i = s.bank i ∧
    (s.bump off n).di i = s.di i ∧ (s.bump off n).doPin i = s.doPin i :=
  ⟨rfl, rfl, rfl, rfl, rfl, rfl, rfl, rfl, rfl, rfl, rfl, rfl, rfl, rfl⟩

@[simp] theorem bump_regs_read (s : State) (off n : Nat) (o h l : Nat) :
    (s.bump off n).reg o = s.reg o ∧ (s.bump off n).fld o h l = s.fld o h l ∧ (s.bump off n).flag o h = s.flag o h ∧
    (s.bump off n).reg64 o = s.reg64 o :=
  ⟨rfl, rfl, rfl, rfl⟩

@[simp] theorem bump_lastCode (s : State) (off n : Nat) (o : Nat) : (s.bump off n).lastCode o = s.lastCode o := rfl

@[simp] theorem setReg_fields (s : State) (off : Nat) (w : Word) :
    (s.setReg off w).pending = s.pending ∧ (s.setReg off w).free = s.free ∧ (s.setReg off w).now = s.now ∧
    (s.setReg off w).time = s.time ∧ (s.setReg off w).counters = s.counters ∧ (s.setReg off w).held = s.held ∧
    (s.setReg off w).latched = s.latched ∧ (s.setReg off w).busRead = s.busRead ∧
    (s.setReg off w).sealed = s.sealed ∧ (s.setReg off w).log = s.log ∧ (s.setReg off w).variantN = s.variantN ∧
    (s.setReg off w).bonded = s.bonded ∧ (s.setReg off w).axes = s.axes ∧ (s.setReg off w).emus = s.emus ∧
    (s.setReg off w).lanes = s.lanes ∧ (s.setReg off w).ports = s.ports ∧ (s.setReg off w).pllOut = s.pllOut ∧
    (s.setReg off w).qps = s.qps ∧ (s.setReg off w).sluices = s.sluices ∧ (s.setReg off w).pars = s.pars ∧
    (s.setReg off w).slots = s.slots ∧ (s.setReg off w).pipes = s.pipes ∧ (s.setReg off w).cal = s.cal ∧
    (s.setReg off w).chans = s.chans ∧ (s.setReg off w).fs = s.fs ∧ (s.setReg off w).parts = s.parts ∧
    (s.setReg off w).vlanes = s.vlanes ∧ (s.setReg off w).provings = s.provings ∧ (s.setReg off w).vu = s.vu ∧
    (s.setReg off w).dis = s.dis ∧ (s.setReg off w).dos = s.dos ∧ (s.setReg off w).field = s.field ∧
    (s.setReg off w).banks = s.banks ∧ (s.setReg off w).engines = s.engines ∧ (s.setReg off w).lead = s.lead ∧
    (s.setReg off w).records = s.records ∧ (s.setReg off w).rewind = s.rewind ∧
    (s.setReg off w).archive = s.archive ∧ (s.setReg off w).line = s.line ∧ (s.setReg off w).proxies = s.proxies ∧
    (s.setReg off w).fwds = s.fwds ∧ (s.setReg off w).notified = s.notified ∧ (s.setReg off w).pool = s.pool ∧
    (s.setReg off w).ecc = s.ecc ∧ (s.setReg off w).empties = s.empties ∧ (s.setReg off w).ops = s.ops ∧
    (s.setReg off w).nextOp = s.nextOp ∧ (s.setReg off w).nextJob = s.nextJob ∧ (s.setReg off w).ctxs = s.ctxs ∧
    (s.setReg off w).polders = s.polders ∧ (s.setReg off w).spare = s.spare ∧ (s.setReg off w).tracks = s.tracks ∧
    (s.setReg off w).nodes = s.nodes ∧ (s.setReg off w).kv = s.kv ∧ (s.setReg off w).recipes = s.recipes ∧
    (s.setReg off w).active = s.active ∧ (s.setReg off w).changes = s.changes ∧ (s.setReg off w).sec = s.sec ∧
    (s.setReg off w).vig = s.vig ∧ (s.setReg off w).power = s.power ∧ (s.setReg off w).codec = s.codec :=
  ⟨rfl, rfl, rfl, rfl, rfl, rfl, rfl, rfl, rfl, rfl, rfl, rfl, rfl, rfl, rfl, rfl, rfl, rfl, rfl, rfl, rfl, rfl, rfl, rfl, rfl, rfl, rfl, rfl, rfl, rfl, rfl, rfl, rfl, rfl, rfl, rfl, rfl, rfl, rfl, rfl, rfl, rfl, rfl, rfl, rfl, rfl, rfl, rfl, rfl, rfl, rfl, rfl, rfl, rfl, rfl, rfl, rfl, rfl, rfl, rfl, rfl⟩

@[simp] theorem setReg_units (s : State) (off : Nat) (w : Word) (i : Nat) :
    (s.setReg off w).axis i = s.axis i ∧ (s.setReg off w).emu i = s.emu i ∧ (s.setReg off w).lane i = s.lane i ∧
    (s.setReg off w).port i = s.port i ∧ (s.setReg off w).qp i = s.qp i ∧ (s.setReg off w).sluice i = s.sluice i ∧
    (s.setReg off w).slot i = s.slot i ∧ (s.setReg off w).pipe i = s.pipe i ∧ (s.setReg off w).calOf i = s.calOf i ∧
    (s.setReg off w).chan i = s.chan i ∧ (s.setReg off w).vlane i = s.vlane i ∧ (s.setReg off w).bank i = s.bank i ∧
    (s.setReg off w).di i = s.di i ∧ (s.setReg off w).doPin i = s.doPin i :=
  ⟨rfl, rfl, rfl, rfl, rfl, rfl, rfl, rfl, rfl, rfl, rfl, rfl, rfl, rfl⟩

@[simp] theorem setReg_counter (s : State) (off : Nat) (w : Word) (o : Nat) : (s.setReg off w).counter o = s.counter o := rfl

@[simp] theorem setReg_lastCode (s : State) (off : Nat) (w : Word) (o : Nat) : (s.setReg off w).lastCode o = s.lastCode o := rfl

@[simp] theorem setFld_fields (s : State) (off hi lo x : Nat) :
    (s.setFld off hi lo x).pending = s.pending ∧ (s.setFld off hi lo x).free = s.free ∧
    (s.setFld off hi lo x).now = s.now ∧ (s.setFld off hi lo x).time = s.time ∧
    (s.setFld off hi lo x).counters = s.counters ∧ (s.setFld off hi lo x).held = s.held ∧
    (s.setFld off hi lo x).latched = s.latched ∧ (s.setFld off hi lo x).busRead = s.busRead ∧
    (s.setFld off hi lo x).sealed = s.sealed ∧ (s.setFld off hi lo x).log = s.log ∧
    (s.setFld off hi lo x).variantN = s.variantN ∧ (s.setFld off hi lo x).bonded = s.bonded ∧
    (s.setFld off hi lo x).axes = s.axes ∧ (s.setFld off hi lo x).emus = s.emus ∧
    (s.setFld off hi lo x).lanes = s.lanes ∧ (s.setFld off hi lo x).ports = s.ports ∧
    (s.setFld off hi lo x).pllOut = s.pllOut ∧ (s.setFld off hi lo x).qps = s.qps ∧
    (s.setFld off hi lo x).sluices = s.sluices ∧ (s.setFld off hi lo x).pars = s.pars ∧
    (s.setFld off hi lo x).slots = s.slots ∧ (s.setFld off hi lo x).pipes = s.pipes ∧
    (s.setFld off hi lo x).cal = s.cal ∧ (s.setFld off hi lo x).chans = s.chans ∧ (s.setFld off hi lo x).fs = s.fs ∧
    (s.setFld off hi lo x).parts = s.parts ∧ (s.setFld off hi lo x).vlanes = s.vlanes ∧
    (s.setFld off hi lo x).provings = s.provings ∧ (s.setFld off hi lo x).vu = s.vu ∧
    (s.setFld off hi lo x).dis = s.dis ∧ (s.setFld off hi lo x).dos = s.dos ∧
    (s.setFld off hi lo x).field = s.field ∧ (s.setFld off hi lo x).banks = s.banks ∧
    (s.setFld off hi lo x).engines = s.engines ∧ (s.setFld off hi lo x).lead = s.lead ∧
    (s.setFld off hi lo x).records = s.records ∧ (s.setFld off hi lo x).rewind = s.rewind ∧
    (s.setFld off hi lo x).archive = s.archive ∧ (s.setFld off hi lo x).line = s.line ∧
    (s.setFld off hi lo x).proxies = s.proxies ∧ (s.setFld off hi lo x).fwds = s.fwds ∧
    (s.setFld off hi lo x).notified = s.notified ∧ (s.setFld off hi lo x).pool = s.pool ∧
    (s.setFld off hi lo x).ecc = s.ecc ∧ (s.setFld off hi lo x).empties = s.empties ∧
    (s.setFld off hi lo x).ops = s.ops ∧ (s.setFld off hi lo x).nextOp = s.nextOp ∧
    (s.setFld off hi lo x).nextJob = s.nextJob ∧ (s.setFld off hi lo x).ctxs = s.ctxs ∧
    (s.setFld off hi lo x).polders = s.polders ∧ (s.setFld off hi lo x).spare = s.spare ∧
    (s.setFld off hi lo x).tracks = s.tracks ∧ (s.setFld off hi lo x).nodes = s.nodes ∧
    (s.setFld off hi lo x).kv = s.kv ∧ (s.setFld off hi lo x).recipes = s.recipes ∧
    (s.setFld off hi lo x).active = s.active ∧ (s.setFld off hi lo x).changes = s.changes ∧
    (s.setFld off hi lo x).sec = s.sec ∧ (s.setFld off hi lo x).vig = s.vig ∧
    (s.setFld off hi lo x).power = s.power ∧ (s.setFld off hi lo x).codec = s.codec :=
  ⟨rfl, rfl, rfl, rfl, rfl, rfl, rfl, rfl, rfl, rfl, rfl, rfl, rfl, rfl, rfl, rfl, rfl, rfl, rfl, rfl, rfl, rfl, rfl, rfl, rfl, rfl, rfl, rfl, rfl, rfl, rfl, rfl, rfl, rfl, rfl, rfl, rfl, rfl, rfl, rfl, rfl, rfl, rfl, rfl, rfl, rfl, rfl, rfl, rfl, rfl, rfl, rfl, rfl, rfl, rfl, rfl, rfl, rfl, rfl, rfl, rfl⟩

@[simp] theorem setFld_units (s : State) (off hi lo x : Nat) (i : Nat) :
    (s.setFld off hi lo x).axis i = s.axis i ∧ (s.setFld off hi lo x).emu i = s.emu i ∧
    (s.setFld off hi lo x).lane i = s.lane i ∧ (s.setFld off hi lo x).port i = s.port i ∧
    (s.setFld off hi lo x).qp i = s.qp i ∧ (s.setFld off hi lo x).sluice i = s.sluice i ∧
    (s.setFld off hi lo x).slot i = s.slot i ∧ (s.setFld off hi lo x).pipe i = s.pipe i ∧
    (s.setFld off hi lo x).calOf i = s.calOf i ∧ (s.setFld off hi lo x).chan i = s.chan i ∧
    (s.setFld off hi lo x).vlane i = s.vlane i ∧ (s.setFld off hi lo x).bank i = s.bank i ∧
    (s.setFld off hi lo x).di i = s.di i ∧ (s.setFld off hi lo x).doPin i = s.doPin i :=
  ⟨rfl, rfl, rfl, rfl, rfl, rfl, rfl, rfl, rfl, rfl, rfl, rfl, rfl, rfl⟩

@[simp] theorem setFld_counter (s : State) (off hi lo x : Nat) (o : Nat) : (s.setFld off hi lo x).counter o = s.counter o := rfl

@[simp] theorem setFld_lastCode (s : State) (off hi lo x : Nat) (o : Nat) : (s.setFld off hi lo x).lastCode o = s.lastCode o := rfl

@[simp] theorem setStat_fields (s : State) (n b : Nat) :
    (s.setStat n b).pending = s.pending ∧ (s.setStat n b).free = s.free ∧ (s.setStat n b).now = s.now ∧
    (s.setStat n b).time = s.time ∧ (s.setStat n b).counters = s.counters ∧ (s.setStat n b).held = s.held ∧
    (s.setStat n b).latched = s.latched ∧ (s.setStat n b).busRead = s.busRead ∧ (s.setStat n b).sealed = s.sealed ∧
    (s.setStat n b).log = s.log ∧ (s.setStat n b).variantN = s.variantN ∧ (s.setStat n b).bonded = s.bonded ∧
    (s.setStat n b).axes = s.axes ∧ (s.setStat n b).emus = s.emus ∧ (s.setStat n b).lanes = s.lanes ∧
    (s.setStat n b).ports = s.ports ∧ (s.setStat n b).pllOut = s.pllOut ∧ (s.setStat n b).qps = s.qps ∧
    (s.setStat n b).sluices = s.sluices ∧ (s.setStat n b).pars = s.pars ∧ (s.setStat n b).slots = s.slots ∧
    (s.setStat n b).pipes = s.pipes ∧ (s.setStat n b).cal = s.cal ∧ (s.setStat n b).chans = s.chans ∧
    (s.setStat n b).fs = s.fs ∧ (s.setStat n b).parts = s.parts ∧ (s.setStat n b).vlanes = s.vlanes ∧
    (s.setStat n b).provings = s.provings ∧ (s.setStat n b).vu = s.vu ∧ (s.setStat n b).dis = s.dis ∧
    (s.setStat n b).dos = s.dos ∧ (s.setStat n b).field = s.field ∧ (s.setStat n b).banks = s.banks ∧
    (s.setStat n b).engines = s.engines ∧ (s.setStat n b).lead = s.lead ∧ (s.setStat n b).records = s.records ∧
    (s.setStat n b).rewind = s.rewind ∧ (s.setStat n b).archive = s.archive ∧ (s.setStat n b).line = s.line ∧
    (s.setStat n b).proxies = s.proxies ∧ (s.setStat n b).fwds = s.fwds ∧ (s.setStat n b).notified = s.notified ∧
    (s.setStat n b).pool = s.pool ∧ (s.setStat n b).ecc = s.ecc ∧ (s.setStat n b).empties = s.empties ∧
    (s.setStat n b).ops = s.ops ∧ (s.setStat n b).nextOp = s.nextOp ∧ (s.setStat n b).nextJob = s.nextJob ∧
    (s.setStat n b).ctxs = s.ctxs ∧ (s.setStat n b).polders = s.polders ∧ (s.setStat n b).spare = s.spare ∧
    (s.setStat n b).tracks = s.tracks ∧ (s.setStat n b).nodes = s.nodes ∧ (s.setStat n b).kv = s.kv ∧
    (s.setStat n b).recipes = s.recipes ∧ (s.setStat n b).active = s.active ∧ (s.setStat n b).changes = s.changes ∧
    (s.setStat n b).sec = s.sec ∧ (s.setStat n b).vig = s.vig ∧ (s.setStat n b).power = s.power ∧
    (s.setStat n b).codec = s.codec :=
  ⟨rfl, rfl, rfl, rfl, rfl, rfl, rfl, rfl, rfl, rfl, rfl, rfl, rfl, rfl, rfl, rfl, rfl, rfl, rfl, rfl, rfl, rfl, rfl, rfl, rfl, rfl, rfl, rfl, rfl, rfl, rfl, rfl, rfl, rfl, rfl, rfl, rfl, rfl, rfl, rfl, rfl, rfl, rfl, rfl, rfl, rfl, rfl, rfl, rfl, rfl, rfl, rfl, rfl, rfl, rfl, rfl, rfl, rfl, rfl, rfl, rfl⟩

@[simp] theorem setStat_units (s : State) (n b : Nat) (i : Nat) :
    (s.setStat n b).axis i = s.axis i ∧ (s.setStat n b).emu i = s.emu i ∧ (s.setStat n b).lane i = s.lane i ∧
    (s.setStat n b).port i = s.port i ∧ (s.setStat n b).qp i = s.qp i ∧ (s.setStat n b).sluice i = s.sluice i ∧
    (s.setStat n b).slot i = s.slot i ∧ (s.setStat n b).pipe i = s.pipe i ∧ (s.setStat n b).calOf i = s.calOf i ∧
    (s.setStat n b).chan i = s.chan i ∧ (s.setStat n b).vlane i = s.vlane i ∧ (s.setStat n b).bank i = s.bank i ∧
    (s.setStat n b).di i = s.di i ∧ (s.setStat n b).doPin i = s.doPin i :=
  ⟨rfl, rfl, rfl, rfl, rfl, rfl, rfl, rfl, rfl, rfl, rfl, rfl, rfl, rfl⟩

@[simp] theorem setStat_counter (s : State) (n b : Nat) (o : Nat) : (s.setStat n b).counter o = s.counter o := rfl

@[simp] theorem setStat_lastCode (s : State) (n b : Nat) (o : Nat) : (s.setStat n b).lastCode o = s.lastCode o := rfl

@[simp] theorem setAxis_fields (s : State) (n : Nat) (v : Axis) :
    (s.setAxis n v).pending = s.pending ∧ (s.setAxis n v).free = s.free ∧ (s.setAxis n v).now = s.now ∧
    (s.setAxis n v).time = s.time ∧ (s.setAxis n v).regs = s.regs ∧ (s.setAxis n v).counters = s.counters ∧
    (s.setAxis n v).held = s.held ∧ (s.setAxis n v).latched = s.latched ∧ (s.setAxis n v).busRead = s.busRead ∧
    (s.setAxis n v).sealed = s.sealed ∧ (s.setAxis n v).log = s.log ∧ (s.setAxis n v).variantN = s.variantN ∧
    (s.setAxis n v).bonded = s.bonded ∧ (s.setAxis n v).emus = s.emus ∧ (s.setAxis n v).lanes = s.lanes ∧
    (s.setAxis n v).ports = s.ports ∧ (s.setAxis n v).pllOut = s.pllOut ∧ (s.setAxis n v).qps = s.qps ∧
    (s.setAxis n v).sluices = s.sluices ∧ (s.setAxis n v).pars = s.pars ∧ (s.setAxis n v).slots = s.slots ∧
    (s.setAxis n v).pipes = s.pipes ∧ (s.setAxis n v).cal = s.cal ∧ (s.setAxis n v).chans = s.chans ∧
    (s.setAxis n v).fs = s.fs ∧ (s.setAxis n v).parts = s.parts ∧ (s.setAxis n v).vlanes = s.vlanes ∧
    (s.setAxis n v).provings = s.provings ∧ (s.setAxis n v).vu = s.vu ∧ (s.setAxis n v).dis = s.dis ∧
    (s.setAxis n v).dos = s.dos ∧ (s.setAxis n v).field = s.field ∧ (s.setAxis n v).banks = s.banks ∧
    (s.setAxis n v).engines = s.engines ∧ (s.setAxis n v).lead = s.lead ∧ (s.setAxis n v).records = s.records ∧
    (s.setAxis n v).rewind = s.rewind ∧ (s.setAxis n v).archive = s.archive ∧ (s.setAxis n v).line = s.line ∧
    (s.setAxis n v).proxies = s.proxies ∧ (s.setAxis n v).fwds = s.fwds ∧ (s.setAxis n v).notified = s.notified ∧
    (s.setAxis n v).pool = s.pool ∧ (s.setAxis n v).ecc = s.ecc ∧ (s.setAxis n v).empties = s.empties ∧
    (s.setAxis n v).ops = s.ops ∧ (s.setAxis n v).nextOp = s.nextOp ∧ (s.setAxis n v).nextJob = s.nextJob ∧
    (s.setAxis n v).ctxs = s.ctxs ∧ (s.setAxis n v).polders = s.polders ∧ (s.setAxis n v).spare = s.spare ∧
    (s.setAxis n v).tracks = s.tracks ∧ (s.setAxis n v).nodes = s.nodes ∧ (s.setAxis n v).kv = s.kv ∧
    (s.setAxis n v).recipes = s.recipes ∧ (s.setAxis n v).active = s.active ∧ (s.setAxis n v).changes = s.changes ∧
    (s.setAxis n v).sec = s.sec ∧ (s.setAxis n v).vig = s.vig ∧ (s.setAxis n v).power = s.power ∧
    (s.setAxis n v).codec = s.codec :=
  ⟨rfl, rfl, rfl, rfl, rfl, rfl, rfl, rfl, rfl, rfl, rfl, rfl, rfl, rfl, rfl, rfl, rfl, rfl, rfl, rfl, rfl, rfl, rfl, rfl, rfl, rfl, rfl, rfl, rfl, rfl, rfl, rfl, rfl, rfl, rfl, rfl, rfl, rfl, rfl, rfl, rfl, rfl, rfl, rfl, rfl, rfl, rfl, rfl, rfl, rfl, rfl, rfl, rfl, rfl, rfl, rfl, rfl, rfl, rfl, rfl, rfl⟩

@[simp] theorem setAxis_units (s : State) (n : Nat) (v : Axis) (i : Nat) :
    (s.setAxis n v).emu i = s.emu i ∧ (s.setAxis n v).lane i = s.lane i ∧ (s.setAxis n v).port i = s.port i ∧
    (s.setAxis n v).qp i = s.qp i ∧ (s.setAxis n v).sluice i = s.sluice i ∧ (s.setAxis n v).slot i = s.slot i ∧
    (s.setAxis n v).pipe i = s.pipe i ∧ (s.setAxis n v).calOf i = s.calOf i ∧ (s.setAxis n v).chan i = s.chan i ∧
    (s.setAxis n v).vlane i = s.vlane i ∧ (s.setAxis n v).bank i = s.bank i ∧ (s.setAxis n v).di i = s.di i ∧
    (s.setAxis n v).doPin i = s.doPin i :=
  ⟨rfl, rfl, rfl, rfl, rfl, rfl, rfl, rfl, rfl, rfl, rfl, rfl, rfl⟩

@[simp] theorem setAxis_regs_read (s : State) (n : Nat) (v : Axis) (o h l : Nat) :
    (s.setAxis n v).reg o = s.reg o ∧ (s.setAxis n v).fld o h l = s.fld o h l ∧
    (s.setAxis n v).flag o h = s.flag o h ∧ (s.setAxis n v).reg64 o = s.reg64 o :=
  ⟨rfl, rfl, rfl, rfl⟩

@[simp] theorem setAxis_counter (s : State) (n : Nat) (v : Axis) (o : Nat) : (s.setAxis n v).counter o = s.counter o := rfl

@[simp] theorem setAxis_lastCode (s : State) (n : Nat) (v : Axis) (o : Nat) : (s.setAxis n v).lastCode o = s.lastCode o := rfl

@[simp] theorem setEmu_fields (s : State) (n : Nat) (v : Emu) :
    (s.setEmu n v).pending = s.pending ∧ (s.setEmu n v).free = s.free ∧ (s.setEmu n v).now = s.now ∧
    (s.setEmu n v).time = s.time ∧ (s.setEmu n v).regs = s.regs ∧ (s.setEmu n v).counters = s.counters ∧
    (s.setEmu n v).held = s.held ∧ (s.setEmu n v).latched = s.latched ∧ (s.setEmu n v).busRead = s.busRead ∧
    (s.setEmu n v).sealed = s.sealed ∧ (s.setEmu n v).log = s.log ∧ (s.setEmu n v).variantN = s.variantN ∧
    (s.setEmu n v).bonded = s.bonded ∧ (s.setEmu n v).axes = s.axes ∧ (s.setEmu n v).lanes = s.lanes ∧
    (s.setEmu n v).ports = s.ports ∧ (s.setEmu n v).pllOut = s.pllOut ∧ (s.setEmu n v).qps = s.qps ∧
    (s.setEmu n v).sluices = s.sluices ∧ (s.setEmu n v).pars = s.pars ∧ (s.setEmu n v).slots = s.slots ∧
    (s.setEmu n v).pipes = s.pipes ∧ (s.setEmu n v).cal = s.cal ∧ (s.setEmu n v).chans = s.chans ∧
    (s.setEmu n v).fs = s.fs ∧ (s.setEmu n v).parts = s.parts ∧ (s.setEmu n v).vlanes = s.vlanes ∧
    (s.setEmu n v).provings = s.provings ∧ (s.setEmu n v).vu = s.vu ∧ (s.setEmu n v).dis = s.dis ∧
    (s.setEmu n v).dos = s.dos ∧ (s.setEmu n v).field = s.field ∧ (s.setEmu n v).banks = s.banks ∧
    (s.setEmu n v).engines = s.engines ∧ (s.setEmu n v).lead = s.lead ∧ (s.setEmu n v).records = s.records ∧
    (s.setEmu n v).rewind = s.rewind ∧ (s.setEmu n v).archive = s.archive ∧ (s.setEmu n v).line = s.line ∧
    (s.setEmu n v).proxies = s.proxies ∧ (s.setEmu n v).fwds = s.fwds ∧ (s.setEmu n v).notified = s.notified ∧
    (s.setEmu n v).pool = s.pool ∧ (s.setEmu n v).ecc = s.ecc ∧ (s.setEmu n v).empties = s.empties ∧
    (s.setEmu n v).ops = s.ops ∧ (s.setEmu n v).nextOp = s.nextOp ∧ (s.setEmu n v).nextJob = s.nextJob ∧
    (s.setEmu n v).ctxs = s.ctxs ∧ (s.setEmu n v).polders = s.polders ∧ (s.setEmu n v).spare = s.spare ∧
    (s.setEmu n v).tracks = s.tracks ∧ (s.setEmu n v).nodes = s.nodes ∧ (s.setEmu n v).kv = s.kv ∧
    (s.setEmu n v).recipes = s.recipes ∧ (s.setEmu n v).active = s.active ∧ (s.setEmu n v).changes = s.changes ∧
    (s.setEmu n v).sec = s.sec ∧ (s.setEmu n v).vig = s.vig ∧ (s.setEmu n v).power = s.power ∧
    (s.setEmu n v).codec = s.codec :=
  ⟨rfl, rfl, rfl, rfl, rfl, rfl, rfl, rfl, rfl, rfl, rfl, rfl, rfl, rfl, rfl, rfl, rfl, rfl, rfl, rfl, rfl, rfl, rfl, rfl, rfl, rfl, rfl, rfl, rfl, rfl, rfl, rfl, rfl, rfl, rfl, rfl, rfl, rfl, rfl, rfl, rfl, rfl, rfl, rfl, rfl, rfl, rfl, rfl, rfl, rfl, rfl, rfl, rfl, rfl, rfl, rfl, rfl, rfl, rfl, rfl, rfl⟩

@[simp] theorem setEmu_units (s : State) (n : Nat) (v : Emu) (i : Nat) :
    (s.setEmu n v).axis i = s.axis i ∧ (s.setEmu n v).lane i = s.lane i ∧ (s.setEmu n v).port i = s.port i ∧
    (s.setEmu n v).qp i = s.qp i ∧ (s.setEmu n v).sluice i = s.sluice i ∧ (s.setEmu n v).slot i = s.slot i ∧
    (s.setEmu n v).pipe i = s.pipe i ∧ (s.setEmu n v).calOf i = s.calOf i ∧ (s.setEmu n v).chan i = s.chan i ∧
    (s.setEmu n v).vlane i = s.vlane i ∧ (s.setEmu n v).bank i = s.bank i ∧ (s.setEmu n v).di i = s.di i ∧
    (s.setEmu n v).doPin i = s.doPin i :=
  ⟨rfl, rfl, rfl, rfl, rfl, rfl, rfl, rfl, rfl, rfl, rfl, rfl, rfl⟩

@[simp] theorem setEmu_regs_read (s : State) (n : Nat) (v : Emu) (o h l : Nat) :
    (s.setEmu n v).reg o = s.reg o ∧ (s.setEmu n v).fld o h l = s.fld o h l ∧ (s.setEmu n v).flag o h = s.flag o h ∧
    (s.setEmu n v).reg64 o = s.reg64 o :=
  ⟨rfl, rfl, rfl, rfl⟩

@[simp] theorem setEmu_counter (s : State) (n : Nat) (v : Emu) (o : Nat) : (s.setEmu n v).counter o = s.counter o := rfl

@[simp] theorem setEmu_lastCode (s : State) (n : Nat) (v : Emu) (o : Nat) : (s.setEmu n v).lastCode o = s.lastCode o := rfl

@[simp] theorem setLane_fields (s : State) (n : Nat) (v : Lane) :
    (s.setLane n v).pending = s.pending ∧ (s.setLane n v).free = s.free ∧ (s.setLane n v).now = s.now ∧
    (s.setLane n v).time = s.time ∧ (s.setLane n v).regs = s.regs ∧ (s.setLane n v).counters = s.counters ∧
    (s.setLane n v).held = s.held ∧ (s.setLane n v).latched = s.latched ∧ (s.setLane n v).busRead = s.busRead ∧
    (s.setLane n v).sealed = s.sealed ∧ (s.setLane n v).log = s.log ∧ (s.setLane n v).variantN = s.variantN ∧
    (s.setLane n v).bonded = s.bonded ∧ (s.setLane n v).axes = s.axes ∧ (s.setLane n v).emus = s.emus ∧
    (s.setLane n v).ports = s.ports ∧ (s.setLane n v).pllOut = s.pllOut ∧ (s.setLane n v).qps = s.qps ∧
    (s.setLane n v).sluices = s.sluices ∧ (s.setLane n v).pars = s.pars ∧ (s.setLane n v).slots = s.slots ∧
    (s.setLane n v).pipes = s.pipes ∧ (s.setLane n v).cal = s.cal ∧ (s.setLane n v).chans = s.chans ∧
    (s.setLane n v).fs = s.fs ∧ (s.setLane n v).parts = s.parts ∧ (s.setLane n v).vlanes = s.vlanes ∧
    (s.setLane n v).provings = s.provings ∧ (s.setLane n v).vu = s.vu ∧ (s.setLane n v).dis = s.dis ∧
    (s.setLane n v).dos = s.dos ∧ (s.setLane n v).field = s.field ∧ (s.setLane n v).banks = s.banks ∧
    (s.setLane n v).engines = s.engines ∧ (s.setLane n v).lead = s.lead ∧ (s.setLane n v).records = s.records ∧
    (s.setLane n v).rewind = s.rewind ∧ (s.setLane n v).archive = s.archive ∧ (s.setLane n v).line = s.line ∧
    (s.setLane n v).proxies = s.proxies ∧ (s.setLane n v).fwds = s.fwds ∧ (s.setLane n v).notified = s.notified ∧
    (s.setLane n v).pool = s.pool ∧ (s.setLane n v).ecc = s.ecc ∧ (s.setLane n v).empties = s.empties ∧
    (s.setLane n v).ops = s.ops ∧ (s.setLane n v).nextOp = s.nextOp ∧ (s.setLane n v).nextJob = s.nextJob ∧
    (s.setLane n v).ctxs = s.ctxs ∧ (s.setLane n v).polders = s.polders ∧ (s.setLane n v).spare = s.spare ∧
    (s.setLane n v).tracks = s.tracks ∧ (s.setLane n v).nodes = s.nodes ∧ (s.setLane n v).kv = s.kv ∧
    (s.setLane n v).recipes = s.recipes ∧ (s.setLane n v).active = s.active ∧ (s.setLane n v).changes = s.changes ∧
    (s.setLane n v).sec = s.sec ∧ (s.setLane n v).vig = s.vig ∧ (s.setLane n v).power = s.power ∧
    (s.setLane n v).codec = s.codec :=
  ⟨rfl, rfl, rfl, rfl, rfl, rfl, rfl, rfl, rfl, rfl, rfl, rfl, rfl, rfl, rfl, rfl, rfl, rfl, rfl, rfl, rfl, rfl, rfl, rfl, rfl, rfl, rfl, rfl, rfl, rfl, rfl, rfl, rfl, rfl, rfl, rfl, rfl, rfl, rfl, rfl, rfl, rfl, rfl, rfl, rfl, rfl, rfl, rfl, rfl, rfl, rfl, rfl, rfl, rfl, rfl, rfl, rfl, rfl, rfl, rfl, rfl⟩

@[simp] theorem setLane_units (s : State) (n : Nat) (v : Lane) (i : Nat) :
    (s.setLane n v).axis i = s.axis i ∧ (s.setLane n v).emu i = s.emu i ∧ (s.setLane n v).port i = s.port i ∧
    (s.setLane n v).qp i = s.qp i ∧ (s.setLane n v).sluice i = s.sluice i ∧ (s.setLane n v).slot i = s.slot i ∧
    (s.setLane n v).pipe i = s.pipe i ∧ (s.setLane n v).calOf i = s.calOf i ∧ (s.setLane n v).chan i = s.chan i ∧
    (s.setLane n v).vlane i = s.vlane i ∧ (s.setLane n v).bank i = s.bank i ∧ (s.setLane n v).di i = s.di i ∧
    (s.setLane n v).doPin i = s.doPin i :=
  ⟨rfl, rfl, rfl, rfl, rfl, rfl, rfl, rfl, rfl, rfl, rfl, rfl, rfl⟩

@[simp] theorem setLane_regs_read (s : State) (n : Nat) (v : Lane) (o h l : Nat) :
    (s.setLane n v).reg o = s.reg o ∧ (s.setLane n v).fld o h l = s.fld o h l ∧
    (s.setLane n v).flag o h = s.flag o h ∧ (s.setLane n v).reg64 o = s.reg64 o :=
  ⟨rfl, rfl, rfl, rfl⟩

@[simp] theorem setLane_counter (s : State) (n : Nat) (v : Lane) (o : Nat) : (s.setLane n v).counter o = s.counter o := rfl

@[simp] theorem setLane_lastCode (s : State) (n : Nat) (v : Lane) (o : Nat) : (s.setLane n v).lastCode o = s.lastCode o := rfl

@[simp] theorem setPort_fields (s : State) (n : Nat) (v : Port) :
    (s.setPort n v).pending = s.pending ∧ (s.setPort n v).free = s.free ∧ (s.setPort n v).now = s.now ∧
    (s.setPort n v).time = s.time ∧ (s.setPort n v).regs = s.regs ∧ (s.setPort n v).counters = s.counters ∧
    (s.setPort n v).held = s.held ∧ (s.setPort n v).latched = s.latched ∧ (s.setPort n v).busRead = s.busRead ∧
    (s.setPort n v).sealed = s.sealed ∧ (s.setPort n v).log = s.log ∧ (s.setPort n v).variantN = s.variantN ∧
    (s.setPort n v).bonded = s.bonded ∧ (s.setPort n v).axes = s.axes ∧ (s.setPort n v).emus = s.emus ∧
    (s.setPort n v).lanes = s.lanes ∧ (s.setPort n v).pllOut = s.pllOut ∧ (s.setPort n v).qps = s.qps ∧
    (s.setPort n v).sluices = s.sluices ∧ (s.setPort n v).pars = s.pars ∧ (s.setPort n v).slots = s.slots ∧
    (s.setPort n v).pipes = s.pipes ∧ (s.setPort n v).cal = s.cal ∧ (s.setPort n v).chans = s.chans ∧
    (s.setPort n v).fs = s.fs ∧ (s.setPort n v).parts = s.parts ∧ (s.setPort n v).vlanes = s.vlanes ∧
    (s.setPort n v).provings = s.provings ∧ (s.setPort n v).vu = s.vu ∧ (s.setPort n v).dis = s.dis ∧
    (s.setPort n v).dos = s.dos ∧ (s.setPort n v).field = s.field ∧ (s.setPort n v).banks = s.banks ∧
    (s.setPort n v).engines = s.engines ∧ (s.setPort n v).lead = s.lead ∧ (s.setPort n v).records = s.records ∧
    (s.setPort n v).rewind = s.rewind ∧ (s.setPort n v).archive = s.archive ∧ (s.setPort n v).line = s.line ∧
    (s.setPort n v).proxies = s.proxies ∧ (s.setPort n v).fwds = s.fwds ∧ (s.setPort n v).notified = s.notified ∧
    (s.setPort n v).pool = s.pool ∧ (s.setPort n v).ecc = s.ecc ∧ (s.setPort n v).empties = s.empties ∧
    (s.setPort n v).ops = s.ops ∧ (s.setPort n v).nextOp = s.nextOp ∧ (s.setPort n v).nextJob = s.nextJob ∧
    (s.setPort n v).ctxs = s.ctxs ∧ (s.setPort n v).polders = s.polders ∧ (s.setPort n v).spare = s.spare ∧
    (s.setPort n v).tracks = s.tracks ∧ (s.setPort n v).nodes = s.nodes ∧ (s.setPort n v).kv = s.kv ∧
    (s.setPort n v).recipes = s.recipes ∧ (s.setPort n v).active = s.active ∧ (s.setPort n v).changes = s.changes ∧
    (s.setPort n v).sec = s.sec ∧ (s.setPort n v).vig = s.vig ∧ (s.setPort n v).power = s.power ∧
    (s.setPort n v).codec = s.codec :=
  ⟨rfl, rfl, rfl, rfl, rfl, rfl, rfl, rfl, rfl, rfl, rfl, rfl, rfl, rfl, rfl, rfl, rfl, rfl, rfl, rfl, rfl, rfl, rfl, rfl, rfl, rfl, rfl, rfl, rfl, rfl, rfl, rfl, rfl, rfl, rfl, rfl, rfl, rfl, rfl, rfl, rfl, rfl, rfl, rfl, rfl, rfl, rfl, rfl, rfl, rfl, rfl, rfl, rfl, rfl, rfl, rfl, rfl, rfl, rfl, rfl, rfl⟩

@[simp] theorem setPort_units (s : State) (n : Nat) (v : Port) (i : Nat) :
    (s.setPort n v).axis i = s.axis i ∧ (s.setPort n v).emu i = s.emu i ∧ (s.setPort n v).lane i = s.lane i ∧
    (s.setPort n v).qp i = s.qp i ∧ (s.setPort n v).sluice i = s.sluice i ∧ (s.setPort n v).slot i = s.slot i ∧
    (s.setPort n v).pipe i = s.pipe i ∧ (s.setPort n v).calOf i = s.calOf i ∧ (s.setPort n v).chan i = s.chan i ∧
    (s.setPort n v).vlane i = s.vlane i ∧ (s.setPort n v).bank i = s.bank i ∧ (s.setPort n v).di i = s.di i ∧
    (s.setPort n v).doPin i = s.doPin i :=
  ⟨rfl, rfl, rfl, rfl, rfl, rfl, rfl, rfl, rfl, rfl, rfl, rfl, rfl⟩

@[simp] theorem setPort_regs_read (s : State) (n : Nat) (v : Port) (o h l : Nat) :
    (s.setPort n v).reg o = s.reg o ∧ (s.setPort n v).fld o h l = s.fld o h l ∧
    (s.setPort n v).flag o h = s.flag o h ∧ (s.setPort n v).reg64 o = s.reg64 o :=
  ⟨rfl, rfl, rfl, rfl⟩

@[simp] theorem setPort_counter (s : State) (n : Nat) (v : Port) (o : Nat) : (s.setPort n v).counter o = s.counter o := rfl

@[simp] theorem setPort_lastCode (s : State) (n : Nat) (v : Port) (o : Nat) : (s.setPort n v).lastCode o = s.lastCode o := rfl

@[simp] theorem setQp_fields (s : State) (n : Nat) (v : Qp) :
    (s.setQp n v).pending = s.pending ∧ (s.setQp n v).free = s.free ∧ (s.setQp n v).now = s.now ∧
    (s.setQp n v).time = s.time ∧ (s.setQp n v).regs = s.regs ∧ (s.setQp n v).counters = s.counters ∧
    (s.setQp n v).held = s.held ∧ (s.setQp n v).latched = s.latched ∧ (s.setQp n v).busRead = s.busRead ∧
    (s.setQp n v).sealed = s.sealed ∧ (s.setQp n v).log = s.log ∧ (s.setQp n v).variantN = s.variantN ∧
    (s.setQp n v).bonded = s.bonded ∧ (s.setQp n v).axes = s.axes ∧ (s.setQp n v).emus = s.emus ∧
    (s.setQp n v).lanes = s.lanes ∧ (s.setQp n v).ports = s.ports ∧ (s.setQp n v).pllOut = s.pllOut ∧
    (s.setQp n v).sluices = s.sluices ∧ (s.setQp n v).pars = s.pars ∧ (s.setQp n v).slots = s.slots ∧
    (s.setQp n v).pipes = s.pipes ∧ (s.setQp n v).cal = s.cal ∧ (s.setQp n v).chans = s.chans ∧
    (s.setQp n v).fs = s.fs ∧ (s.setQp n v).parts = s.parts ∧ (s.setQp n v).vlanes = s.vlanes ∧
    (s.setQp n v).provings = s.provings ∧ (s.setQp n v).vu = s.vu ∧ (s.setQp n v).dis = s.dis ∧
    (s.setQp n v).dos = s.dos ∧ (s.setQp n v).field = s.field ∧ (s.setQp n v).banks = s.banks ∧
    (s.setQp n v).engines = s.engines ∧ (s.setQp n v).lead = s.lead ∧ (s.setQp n v).records = s.records ∧
    (s.setQp n v).rewind = s.rewind ∧ (s.setQp n v).archive = s.archive ∧ (s.setQp n v).line = s.line ∧
    (s.setQp n v).proxies = s.proxies ∧ (s.setQp n v).fwds = s.fwds ∧ (s.setQp n v).notified = s.notified ∧
    (s.setQp n v).pool = s.pool ∧ (s.setQp n v).ecc = s.ecc ∧ (s.setQp n v).empties = s.empties ∧
    (s.setQp n v).ops = s.ops ∧ (s.setQp n v).nextOp = s.nextOp ∧ (s.setQp n v).nextJob = s.nextJob ∧
    (s.setQp n v).ctxs = s.ctxs ∧ (s.setQp n v).polders = s.polders ∧ (s.setQp n v).spare = s.spare ∧
    (s.setQp n v).tracks = s.tracks ∧ (s.setQp n v).nodes = s.nodes ∧ (s.setQp n v).kv = s.kv ∧
    (s.setQp n v).recipes = s.recipes ∧ (s.setQp n v).active = s.active ∧ (s.setQp n v).changes = s.changes ∧
    (s.setQp n v).sec = s.sec ∧ (s.setQp n v).vig = s.vig ∧ (s.setQp n v).power = s.power ∧
    (s.setQp n v).codec = s.codec :=
  ⟨rfl, rfl, rfl, rfl, rfl, rfl, rfl, rfl, rfl, rfl, rfl, rfl, rfl, rfl, rfl, rfl, rfl, rfl, rfl, rfl, rfl, rfl, rfl, rfl, rfl, rfl, rfl, rfl, rfl, rfl, rfl, rfl, rfl, rfl, rfl, rfl, rfl, rfl, rfl, rfl, rfl, rfl, rfl, rfl, rfl, rfl, rfl, rfl, rfl, rfl, rfl, rfl, rfl, rfl, rfl, rfl, rfl, rfl, rfl, rfl, rfl⟩

@[simp] theorem setQp_units (s : State) (n : Nat) (v : Qp) (i : Nat) :
    (s.setQp n v).axis i = s.axis i ∧ (s.setQp n v).emu i = s.emu i ∧ (s.setQp n v).lane i = s.lane i ∧
    (s.setQp n v).port i = s.port i ∧ (s.setQp n v).sluice i = s.sluice i ∧ (s.setQp n v).slot i = s.slot i ∧
    (s.setQp n v).pipe i = s.pipe i ∧ (s.setQp n v).calOf i = s.calOf i ∧ (s.setQp n v).chan i = s.chan i ∧
    (s.setQp n v).vlane i = s.vlane i ∧ (s.setQp n v).bank i = s.bank i ∧ (s.setQp n v).di i = s.di i ∧
    (s.setQp n v).doPin i = s.doPin i :=
  ⟨rfl, rfl, rfl, rfl, rfl, rfl, rfl, rfl, rfl, rfl, rfl, rfl, rfl⟩

@[simp] theorem setQp_regs_read (s : State) (n : Nat) (v : Qp) (o h l : Nat) :
    (s.setQp n v).reg o = s.reg o ∧ (s.setQp n v).fld o h l = s.fld o h l ∧ (s.setQp n v).flag o h = s.flag o h ∧
    (s.setQp n v).reg64 o = s.reg64 o :=
  ⟨rfl, rfl, rfl, rfl⟩

@[simp] theorem setQp_counter (s : State) (n : Nat) (v : Qp) (o : Nat) : (s.setQp n v).counter o = s.counter o := rfl

@[simp] theorem setQp_lastCode (s : State) (n : Nat) (v : Qp) (o : Nat) : (s.setQp n v).lastCode o = s.lastCode o := rfl

@[simp] theorem setSluice_fields (s : State) (n : Nat) (v : Sluice) :
    (s.setSluice n v).pending = s.pending ∧ (s.setSluice n v).free = s.free ∧ (s.setSluice n v).now = s.now ∧
    (s.setSluice n v).time = s.time ∧ (s.setSluice n v).regs = s.regs ∧ (s.setSluice n v).counters = s.counters ∧
    (s.setSluice n v).held = s.held ∧ (s.setSluice n v).latched = s.latched ∧ (s.setSluice n v).busRead = s.busRead ∧
    (s.setSluice n v).sealed = s.sealed ∧ (s.setSluice n v).log = s.log ∧ (s.setSluice n v).variantN = s.variantN ∧
    (s.setSluice n v).bonded = s.bonded ∧ (s.setSluice n v).axes = s.axes ∧ (s.setSluice n v).emus = s.emus ∧
    (s.setSluice n v).lanes = s.lanes ∧ (s.setSluice n v).ports = s.ports ∧ (s.setSluice n v).pllOut = s.pllOut ∧
    (s.setSluice n v).qps = s.qps ∧ (s.setSluice n v).pars = s.pars ∧ (s.setSluice n v).slots = s.slots ∧
    (s.setSluice n v).pipes = s.pipes ∧ (s.setSluice n v).cal = s.cal ∧ (s.setSluice n v).chans = s.chans ∧
    (s.setSluice n v).fs = s.fs ∧ (s.setSluice n v).parts = s.parts ∧ (s.setSluice n v).vlanes = s.vlanes ∧
    (s.setSluice n v).provings = s.provings ∧ (s.setSluice n v).vu = s.vu ∧ (s.setSluice n v).dis = s.dis ∧
    (s.setSluice n v).dos = s.dos ∧ (s.setSluice n v).field = s.field ∧ (s.setSluice n v).banks = s.banks ∧
    (s.setSluice n v).engines = s.engines ∧ (s.setSluice n v).lead = s.lead ∧ (s.setSluice n v).records = s.records ∧
    (s.setSluice n v).rewind = s.rewind ∧ (s.setSluice n v).archive = s.archive ∧ (s.setSluice n v).line = s.line ∧
    (s.setSluice n v).proxies = s.proxies ∧ (s.setSluice n v).fwds = s.fwds ∧
    (s.setSluice n v).notified = s.notified ∧ (s.setSluice n v).pool = s.pool ∧ (s.setSluice n v).ecc = s.ecc ∧
    (s.setSluice n v).empties = s.empties ∧ (s.setSluice n v).ops = s.ops ∧ (s.setSluice n v).nextOp = s.nextOp ∧
    (s.setSluice n v).nextJob = s.nextJob ∧ (s.setSluice n v).ctxs = s.ctxs ∧ (s.setSluice n v).polders = s.polders ∧
    (s.setSluice n v).spare = s.spare ∧ (s.setSluice n v).tracks = s.tracks ∧ (s.setSluice n v).nodes = s.nodes ∧
    (s.setSluice n v).kv = s.kv ∧ (s.setSluice n v).recipes = s.recipes ∧ (s.setSluice n v).active = s.active ∧
    (s.setSluice n v).changes = s.changes ∧ (s.setSluice n v).sec = s.sec ∧ (s.setSluice n v).vig = s.vig ∧
    (s.setSluice n v).power = s.power ∧ (s.setSluice n v).codec = s.codec :=
  ⟨rfl, rfl, rfl, rfl, rfl, rfl, rfl, rfl, rfl, rfl, rfl, rfl, rfl, rfl, rfl, rfl, rfl, rfl, rfl, rfl, rfl, rfl, rfl, rfl, rfl, rfl, rfl, rfl, rfl, rfl, rfl, rfl, rfl, rfl, rfl, rfl, rfl, rfl, rfl, rfl, rfl, rfl, rfl, rfl, rfl, rfl, rfl, rfl, rfl, rfl, rfl, rfl, rfl, rfl, rfl, rfl, rfl, rfl, rfl, rfl, rfl⟩

@[simp] theorem setSluice_units (s : State) (n : Nat) (v : Sluice) (i : Nat) :
    (s.setSluice n v).axis i = s.axis i ∧ (s.setSluice n v).emu i = s.emu i ∧ (s.setSluice n v).lane i = s.lane i ∧
    (s.setSluice n v).port i = s.port i ∧ (s.setSluice n v).qp i = s.qp i ∧ (s.setSluice n v).slot i = s.slot i ∧
    (s.setSluice n v).pipe i = s.pipe i ∧ (s.setSluice n v).calOf i = s.calOf i ∧
    (s.setSluice n v).chan i = s.chan i ∧ (s.setSluice n v).vlane i = s.vlane i ∧
    (s.setSluice n v).bank i = s.bank i ∧ (s.setSluice n v).di i = s.di i ∧ (s.setSluice n v).doPin i = s.doPin i :=
  ⟨rfl, rfl, rfl, rfl, rfl, rfl, rfl, rfl, rfl, rfl, rfl, rfl, rfl⟩

@[simp] theorem setSluice_regs_read (s : State) (n : Nat) (v : Sluice) (o h l : Nat) :
    (s.setSluice n v).reg o = s.reg o ∧ (s.setSluice n v).fld o h l = s.fld o h l ∧
    (s.setSluice n v).flag o h = s.flag o h ∧ (s.setSluice n v).reg64 o = s.reg64 o :=
  ⟨rfl, rfl, rfl, rfl⟩

@[simp] theorem setSluice_counter (s : State) (n : Nat) (v : Sluice) (o : Nat) : (s.setSluice n v).counter o = s.counter o := rfl

@[simp] theorem setSluice_lastCode (s : State) (n : Nat) (v : Sluice) (o : Nat) : (s.setSluice n v).lastCode o = s.lastCode o := rfl

@[simp] theorem setSlot_fields (s : State) (n : Nat) (v : Slot) :
    (s.setSlot n v).pending = s.pending ∧ (s.setSlot n v).free = s.free ∧ (s.setSlot n v).now = s.now ∧
    (s.setSlot n v).time = s.time ∧ (s.setSlot n v).regs = s.regs ∧ (s.setSlot n v).counters = s.counters ∧
    (s.setSlot n v).held = s.held ∧ (s.setSlot n v).latched = s.latched ∧ (s.setSlot n v).busRead = s.busRead ∧
    (s.setSlot n v).sealed = s.sealed ∧ (s.setSlot n v).log = s.log ∧ (s.setSlot n v).variantN = s.variantN ∧
    (s.setSlot n v).bonded = s.bonded ∧ (s.setSlot n v).axes = s.axes ∧ (s.setSlot n v).emus = s.emus ∧
    (s.setSlot n v).lanes = s.lanes ∧ (s.setSlot n v).ports = s.ports ∧ (s.setSlot n v).pllOut = s.pllOut ∧
    (s.setSlot n v).qps = s.qps ∧ (s.setSlot n v).sluices = s.sluices ∧ (s.setSlot n v).pars = s.pars ∧
    (s.setSlot n v).pipes = s.pipes ∧ (s.setSlot n v).cal = s.cal ∧ (s.setSlot n v).chans = s.chans ∧
    (s.setSlot n v).fs = s.fs ∧ (s.setSlot n v).parts = s.parts ∧ (s.setSlot n v).vlanes = s.vlanes ∧
    (s.setSlot n v).provings = s.provings ∧ (s.setSlot n v).vu = s.vu ∧ (s.setSlot n v).dis = s.dis ∧
    (s.setSlot n v).dos = s.dos ∧ (s.setSlot n v).field = s.field ∧ (s.setSlot n v).banks = s.banks ∧
    (s.setSlot n v).engines = s.engines ∧ (s.setSlot n v).lead = s.lead ∧ (s.setSlot n v).records = s.records ∧
    (s.setSlot n v).rewind = s.rewind ∧ (s.setSlot n v).archive = s.archive ∧ (s.setSlot n v).line = s.line ∧
    (s.setSlot n v).proxies = s.proxies ∧ (s.setSlot n v).fwds = s.fwds ∧ (s.setSlot n v).notified = s.notified ∧
    (s.setSlot n v).pool = s.pool ∧ (s.setSlot n v).ecc = s.ecc ∧ (s.setSlot n v).empties = s.empties ∧
    (s.setSlot n v).ops = s.ops ∧ (s.setSlot n v).nextOp = s.nextOp ∧ (s.setSlot n v).nextJob = s.nextJob ∧
    (s.setSlot n v).ctxs = s.ctxs ∧ (s.setSlot n v).polders = s.polders ∧ (s.setSlot n v).spare = s.spare ∧
    (s.setSlot n v).tracks = s.tracks ∧ (s.setSlot n v).nodes = s.nodes ∧ (s.setSlot n v).kv = s.kv ∧
    (s.setSlot n v).recipes = s.recipes ∧ (s.setSlot n v).active = s.active ∧ (s.setSlot n v).changes = s.changes ∧
    (s.setSlot n v).sec = s.sec ∧ (s.setSlot n v).vig = s.vig ∧ (s.setSlot n v).power = s.power ∧
    (s.setSlot n v).codec = s.codec :=
  ⟨rfl, rfl, rfl, rfl, rfl, rfl, rfl, rfl, rfl, rfl, rfl, rfl, rfl, rfl, rfl, rfl, rfl, rfl, rfl, rfl, rfl, rfl, rfl, rfl, rfl, rfl, rfl, rfl, rfl, rfl, rfl, rfl, rfl, rfl, rfl, rfl, rfl, rfl, rfl, rfl, rfl, rfl, rfl, rfl, rfl, rfl, rfl, rfl, rfl, rfl, rfl, rfl, rfl, rfl, rfl, rfl, rfl, rfl, rfl, rfl, rfl⟩

@[simp] theorem setSlot_units (s : State) (n : Nat) (v : Slot) (i : Nat) :
    (s.setSlot n v).axis i = s.axis i ∧ (s.setSlot n v).emu i = s.emu i ∧ (s.setSlot n v).lane i = s.lane i ∧
    (s.setSlot n v).port i = s.port i ∧ (s.setSlot n v).qp i = s.qp i ∧ (s.setSlot n v).sluice i = s.sluice i ∧
    (s.setSlot n v).pipe i = s.pipe i ∧ (s.setSlot n v).calOf i = s.calOf i ∧ (s.setSlot n v).chan i = s.chan i ∧
    (s.setSlot n v).vlane i = s.vlane i ∧ (s.setSlot n v).bank i = s.bank i ∧ (s.setSlot n v).di i = s.di i ∧
    (s.setSlot n v).doPin i = s.doPin i :=
  ⟨rfl, rfl, rfl, rfl, rfl, rfl, rfl, rfl, rfl, rfl, rfl, rfl, rfl⟩

@[simp] theorem setSlot_regs_read (s : State) (n : Nat) (v : Slot) (o h l : Nat) :
    (s.setSlot n v).reg o = s.reg o ∧ (s.setSlot n v).fld o h l = s.fld o h l ∧
    (s.setSlot n v).flag o h = s.flag o h ∧ (s.setSlot n v).reg64 o = s.reg64 o :=
  ⟨rfl, rfl, rfl, rfl⟩

@[simp] theorem setSlot_counter (s : State) (n : Nat) (v : Slot) (o : Nat) : (s.setSlot n v).counter o = s.counter o := rfl

@[simp] theorem setSlot_lastCode (s : State) (n : Nat) (v : Slot) (o : Nat) : (s.setSlot n v).lastCode o = s.lastCode o := rfl

@[simp] theorem setPipe_fields (s : State) (n : Nat) (v : Pipe) :
    (s.setPipe n v).pending = s.pending ∧ (s.setPipe n v).free = s.free ∧ (s.setPipe n v).now = s.now ∧
    (s.setPipe n v).time = s.time ∧ (s.setPipe n v).regs = s.regs ∧ (s.setPipe n v).counters = s.counters ∧
    (s.setPipe n v).held = s.held ∧ (s.setPipe n v).latched = s.latched ∧ (s.setPipe n v).busRead = s.busRead ∧
    (s.setPipe n v).sealed = s.sealed ∧ (s.setPipe n v).log = s.log ∧ (s.setPipe n v).variantN = s.variantN ∧
    (s.setPipe n v).bonded = s.bonded ∧ (s.setPipe n v).axes = s.axes ∧ (s.setPipe n v).emus = s.emus ∧
    (s.setPipe n v).lanes = s.lanes ∧ (s.setPipe n v).ports = s.ports ∧ (s.setPipe n v).pllOut = s.pllOut ∧
    (s.setPipe n v).qps = s.qps ∧ (s.setPipe n v).sluices = s.sluices ∧ (s.setPipe n v).pars = s.pars ∧
    (s.setPipe n v).slots = s.slots ∧ (s.setPipe n v).cal = s.cal ∧ (s.setPipe n v).chans = s.chans ∧
    (s.setPipe n v).fs = s.fs ∧ (s.setPipe n v).parts = s.parts ∧ (s.setPipe n v).vlanes = s.vlanes ∧
    (s.setPipe n v).provings = s.provings ∧ (s.setPipe n v).vu = s.vu ∧ (s.setPipe n v).dis = s.dis ∧
    (s.setPipe n v).dos = s.dos ∧ (s.setPipe n v).field = s.field ∧ (s.setPipe n v).banks = s.banks ∧
    (s.setPipe n v).engines = s.engines ∧ (s.setPipe n v).lead = s.lead ∧ (s.setPipe n v).records = s.records ∧
    (s.setPipe n v).rewind = s.rewind ∧ (s.setPipe n v).archive = s.archive ∧ (s.setPipe n v).line = s.line ∧
    (s.setPipe n v).proxies = s.proxies ∧ (s.setPipe n v).fwds = s.fwds ∧ (s.setPipe n v).notified = s.notified ∧
    (s.setPipe n v).pool = s.pool ∧ (s.setPipe n v).ecc = s.ecc ∧ (s.setPipe n v).empties = s.empties ∧
    (s.setPipe n v).ops = s.ops ∧ (s.setPipe n v).nextOp = s.nextOp ∧ (s.setPipe n v).nextJob = s.nextJob ∧
    (s.setPipe n v).ctxs = s.ctxs ∧ (s.setPipe n v).polders = s.polders ∧ (s.setPipe n v).spare = s.spare ∧
    (s.setPipe n v).tracks = s.tracks ∧ (s.setPipe n v).nodes = s.nodes ∧ (s.setPipe n v).kv = s.kv ∧
    (s.setPipe n v).recipes = s.recipes ∧ (s.setPipe n v).active = s.active ∧ (s.setPipe n v).changes = s.changes ∧
    (s.setPipe n v).sec = s.sec ∧ (s.setPipe n v).vig = s.vig ∧ (s.setPipe n v).power = s.power ∧
    (s.setPipe n v).codec = s.codec :=
  ⟨rfl, rfl, rfl, rfl, rfl, rfl, rfl, rfl, rfl, rfl, rfl, rfl, rfl, rfl, rfl, rfl, rfl, rfl, rfl, rfl, rfl, rfl, rfl, rfl, rfl, rfl, rfl, rfl, rfl, rfl, rfl, rfl, rfl, rfl, rfl, rfl, rfl, rfl, rfl, rfl, rfl, rfl, rfl, rfl, rfl, rfl, rfl, rfl, rfl, rfl, rfl, rfl, rfl, rfl, rfl, rfl, rfl, rfl, rfl, rfl, rfl⟩

@[simp] theorem setPipe_units (s : State) (n : Nat) (v : Pipe) (i : Nat) :
    (s.setPipe n v).axis i = s.axis i ∧ (s.setPipe n v).emu i = s.emu i ∧ (s.setPipe n v).lane i = s.lane i ∧
    (s.setPipe n v).port i = s.port i ∧ (s.setPipe n v).qp i = s.qp i ∧ (s.setPipe n v).sluice i = s.sluice i ∧
    (s.setPipe n v).slot i = s.slot i ∧ (s.setPipe n v).calOf i = s.calOf i ∧ (s.setPipe n v).chan i = s.chan i ∧
    (s.setPipe n v).vlane i = s.vlane i ∧ (s.setPipe n v).bank i = s.bank i ∧ (s.setPipe n v).di i = s.di i ∧
    (s.setPipe n v).doPin i = s.doPin i :=
  ⟨rfl, rfl, rfl, rfl, rfl, rfl, rfl, rfl, rfl, rfl, rfl, rfl, rfl⟩

@[simp] theorem setPipe_regs_read (s : State) (n : Nat) (v : Pipe) (o h l : Nat) :
    (s.setPipe n v).reg o = s.reg o ∧ (s.setPipe n v).fld o h l = s.fld o h l ∧
    (s.setPipe n v).flag o h = s.flag o h ∧ (s.setPipe n v).reg64 o = s.reg64 o :=
  ⟨rfl, rfl, rfl, rfl⟩

@[simp] theorem setPipe_counter (s : State) (n : Nat) (v : Pipe) (o : Nat) : (s.setPipe n v).counter o = s.counter o := rfl

@[simp] theorem setPipe_lastCode (s : State) (n : Nat) (v : Pipe) (o : Nat) : (s.setPipe n v).lastCode o = s.lastCode o := rfl

@[simp] theorem setCal_fields (s : State) (n : Nat) (v : List CalEntry) :
    (s.setCal n v).pending = s.pending ∧ (s.setCal n v).free = s.free ∧ (s.setCal n v).now = s.now ∧
    (s.setCal n v).time = s.time ∧ (s.setCal n v).regs = s.regs ∧ (s.setCal n v).counters = s.counters ∧
    (s.setCal n v).held = s.held ∧ (s.setCal n v).latched = s.latched ∧ (s.setCal n v).busRead = s.busRead ∧
    (s.setCal n v).sealed = s.sealed ∧ (s.setCal n v).log = s.log ∧ (s.setCal n v).variantN = s.variantN ∧
    (s.setCal n v).bonded = s.bonded ∧ (s.setCal n v).axes = s.axes ∧ (s.setCal n v).emus = s.emus ∧
    (s.setCal n v).lanes = s.lanes ∧ (s.setCal n v).ports = s.ports ∧ (s.setCal n v).pllOut = s.pllOut ∧
    (s.setCal n v).qps = s.qps ∧ (s.setCal n v).sluices = s.sluices ∧ (s.setCal n v).pars = s.pars ∧
    (s.setCal n v).slots = s.slots ∧ (s.setCal n v).pipes = s.pipes ∧ (s.setCal n v).chans = s.chans ∧
    (s.setCal n v).fs = s.fs ∧ (s.setCal n v).parts = s.parts ∧ (s.setCal n v).vlanes = s.vlanes ∧
    (s.setCal n v).provings = s.provings ∧ (s.setCal n v).vu = s.vu ∧ (s.setCal n v).dis = s.dis ∧
    (s.setCal n v).dos = s.dos ∧ (s.setCal n v).field = s.field ∧ (s.setCal n v).banks = s.banks ∧
    (s.setCal n v).engines = s.engines ∧ (s.setCal n v).lead = s.lead ∧ (s.setCal n v).records = s.records ∧
    (s.setCal n v).rewind = s.rewind ∧ (s.setCal n v).archive = s.archive ∧ (s.setCal n v).line = s.line ∧
    (s.setCal n v).proxies = s.proxies ∧ (s.setCal n v).fwds = s.fwds ∧ (s.setCal n v).notified = s.notified ∧
    (s.setCal n v).pool = s.pool ∧ (s.setCal n v).ecc = s.ecc ∧ (s.setCal n v).empties = s.empties ∧
    (s.setCal n v).ops = s.ops ∧ (s.setCal n v).nextOp = s.nextOp ∧ (s.setCal n v).nextJob = s.nextJob ∧
    (s.setCal n v).ctxs = s.ctxs ∧ (s.setCal n v).polders = s.polders ∧ (s.setCal n v).spare = s.spare ∧
    (s.setCal n v).tracks = s.tracks ∧ (s.setCal n v).nodes = s.nodes ∧ (s.setCal n v).kv = s.kv ∧
    (s.setCal n v).recipes = s.recipes ∧ (s.setCal n v).active = s.active ∧ (s.setCal n v).changes = s.changes ∧
    (s.setCal n v).sec = s.sec ∧ (s.setCal n v).vig = s.vig ∧ (s.setCal n v).power = s.power ∧
    (s.setCal n v).codec = s.codec :=
  ⟨rfl, rfl, rfl, rfl, rfl, rfl, rfl, rfl, rfl, rfl, rfl, rfl, rfl, rfl, rfl, rfl, rfl, rfl, rfl, rfl, rfl, rfl, rfl, rfl, rfl, rfl, rfl, rfl, rfl, rfl, rfl, rfl, rfl, rfl, rfl, rfl, rfl, rfl, rfl, rfl, rfl, rfl, rfl, rfl, rfl, rfl, rfl, rfl, rfl, rfl, rfl, rfl, rfl, rfl, rfl, rfl, rfl, rfl, rfl, rfl, rfl⟩

@[simp] theorem setCal_units (s : State) (n : Nat) (v : List CalEntry) (i : Nat) :
    (s.setCal n v).axis i = s.axis i ∧ (s.setCal n v).emu i = s.emu i ∧ (s.setCal n v).lane i = s.lane i ∧
    (s.setCal n v).port i = s.port i ∧ (s.setCal n v).qp i = s.qp i ∧ (s.setCal n v).sluice i = s.sluice i ∧
    (s.setCal n v).slot i = s.slot i ∧ (s.setCal n v).pipe i = s.pipe i ∧ (s.setCal n v).chan i = s.chan i ∧
    (s.setCal n v).vlane i = s.vlane i ∧ (s.setCal n v).bank i = s.bank i ∧ (s.setCal n v).di i = s.di i ∧
    (s.setCal n v).doPin i = s.doPin i :=
  ⟨rfl, rfl, rfl, rfl, rfl, rfl, rfl, rfl, rfl, rfl, rfl, rfl, rfl⟩

@[simp] theorem setCal_regs_read (s : State) (n : Nat) (v : List CalEntry) (o h l : Nat) :
    (s.setCal n v).reg o = s.reg o ∧ (s.setCal n v).fld o h l = s.fld o h l ∧ (s.setCal n v).flag o h = s.flag o h ∧
    (s.setCal n v).reg64 o = s.reg64 o :=
  ⟨rfl, rfl, rfl, rfl⟩

@[simp] theorem setCal_counter (s : State) (n : Nat) (v : List CalEntry) (o : Nat) : (s.setCal n v).counter o = s.counter o := rfl

@[simp] theorem setCal_lastCode (s : State) (n : Nat) (v : List CalEntry) (o : Nat) : (s.setCal n v).lastCode o = s.lastCode o := rfl

@[simp] theorem setChan_fields (s : State) (n : Nat) (v : Chan) :
    (s.setChan n v).pending = s.pending ∧ (s.setChan n v).free = s.free ∧ (s.setChan n v).now = s.now ∧
    (s.setChan n v).time = s.time ∧ (s.setChan n v).regs = s.regs ∧ (s.setChan n v).counters = s.counters ∧
    (s.setChan n v).held = s.held ∧ (s.setChan n v).latched = s.latched ∧ (s.setChan n v).busRead = s.busRead ∧
    (s.setChan n v).sealed = s.sealed ∧ (s.setChan n v).log = s.log ∧ (s.setChan n v).variantN = s.variantN ∧
    (s.setChan n v).bonded = s.bonded ∧ (s.setChan n v).axes = s.axes ∧ (s.setChan n v).emus = s.emus ∧
    (s.setChan n v).lanes = s.lanes ∧ (s.setChan n v).ports = s.ports ∧ (s.setChan n v).pllOut = s.pllOut ∧
    (s.setChan n v).qps = s.qps ∧ (s.setChan n v).sluices = s.sluices ∧ (s.setChan n v).pars = s.pars ∧
    (s.setChan n v).slots = s.slots ∧ (s.setChan n v).pipes = s.pipes ∧ (s.setChan n v).cal = s.cal ∧
    (s.setChan n v).fs = s.fs ∧ (s.setChan n v).parts = s.parts ∧ (s.setChan n v).vlanes = s.vlanes ∧
    (s.setChan n v).provings = s.provings ∧ (s.setChan n v).vu = s.vu ∧ (s.setChan n v).dis = s.dis ∧
    (s.setChan n v).dos = s.dos ∧ (s.setChan n v).field = s.field ∧ (s.setChan n v).banks = s.banks ∧
    (s.setChan n v).engines = s.engines ∧ (s.setChan n v).lead = s.lead ∧ (s.setChan n v).records = s.records ∧
    (s.setChan n v).rewind = s.rewind ∧ (s.setChan n v).archive = s.archive ∧ (s.setChan n v).line = s.line ∧
    (s.setChan n v).proxies = s.proxies ∧ (s.setChan n v).fwds = s.fwds ∧ (s.setChan n v).notified = s.notified ∧
    (s.setChan n v).pool = s.pool ∧ (s.setChan n v).ecc = s.ecc ∧ (s.setChan n v).empties = s.empties ∧
    (s.setChan n v).ops = s.ops ∧ (s.setChan n v).nextOp = s.nextOp ∧ (s.setChan n v).nextJob = s.nextJob ∧
    (s.setChan n v).ctxs = s.ctxs ∧ (s.setChan n v).polders = s.polders ∧ (s.setChan n v).spare = s.spare ∧
    (s.setChan n v).tracks = s.tracks ∧ (s.setChan n v).nodes = s.nodes ∧ (s.setChan n v).kv = s.kv ∧
    (s.setChan n v).recipes = s.recipes ∧ (s.setChan n v).active = s.active ∧ (s.setChan n v).changes = s.changes ∧
    (s.setChan n v).sec = s.sec ∧ (s.setChan n v).vig = s.vig ∧ (s.setChan n v).power = s.power ∧
    (s.setChan n v).codec = s.codec :=
  ⟨rfl, rfl, rfl, rfl, rfl, rfl, rfl, rfl, rfl, rfl, rfl, rfl, rfl, rfl, rfl, rfl, rfl, rfl, rfl, rfl, rfl, rfl, rfl, rfl, rfl, rfl, rfl, rfl, rfl, rfl, rfl, rfl, rfl, rfl, rfl, rfl, rfl, rfl, rfl, rfl, rfl, rfl, rfl, rfl, rfl, rfl, rfl, rfl, rfl, rfl, rfl, rfl, rfl, rfl, rfl, rfl, rfl, rfl, rfl, rfl, rfl⟩

@[simp] theorem setChan_units (s : State) (n : Nat) (v : Chan) (i : Nat) :
    (s.setChan n v).axis i = s.axis i ∧ (s.setChan n v).emu i = s.emu i ∧ (s.setChan n v).lane i = s.lane i ∧
    (s.setChan n v).port i = s.port i ∧ (s.setChan n v).qp i = s.qp i ∧ (s.setChan n v).sluice i = s.sluice i ∧
    (s.setChan n v).slot i = s.slot i ∧ (s.setChan n v).pipe i = s.pipe i ∧ (s.setChan n v).calOf i = s.calOf i ∧
    (s.setChan n v).vlane i = s.vlane i ∧ (s.setChan n v).bank i = s.bank i ∧ (s.setChan n v).di i = s.di i ∧
    (s.setChan n v).doPin i = s.doPin i :=
  ⟨rfl, rfl, rfl, rfl, rfl, rfl, rfl, rfl, rfl, rfl, rfl, rfl, rfl⟩

@[simp] theorem setChan_regs_read (s : State) (n : Nat) (v : Chan) (o h l : Nat) :
    (s.setChan n v).reg o = s.reg o ∧ (s.setChan n v).fld o h l = s.fld o h l ∧
    (s.setChan n v).flag o h = s.flag o h ∧ (s.setChan n v).reg64 o = s.reg64 o :=
  ⟨rfl, rfl, rfl, rfl⟩

@[simp] theorem setChan_counter (s : State) (n : Nat) (v : Chan) (o : Nat) : (s.setChan n v).counter o = s.counter o := rfl

@[simp] theorem setChan_lastCode (s : State) (n : Nat) (v : Chan) (o : Nat) : (s.setChan n v).lastCode o = s.lastCode o := rfl

@[simp] theorem setVlane_fields (s : State) (n : Nat) (v : VLane) :
    (s.setVlane n v).pending = s.pending ∧ (s.setVlane n v).free = s.free ∧ (s.setVlane n v).now = s.now ∧
    (s.setVlane n v).time = s.time ∧ (s.setVlane n v).regs = s.regs ∧ (s.setVlane n v).counters = s.counters ∧
    (s.setVlane n v).held = s.held ∧ (s.setVlane n v).latched = s.latched ∧ (s.setVlane n v).busRead = s.busRead ∧
    (s.setVlane n v).sealed = s.sealed ∧ (s.setVlane n v).log = s.log ∧ (s.setVlane n v).variantN = s.variantN ∧
    (s.setVlane n v).bonded = s.bonded ∧ (s.setVlane n v).axes = s.axes ∧ (s.setVlane n v).emus = s.emus ∧
    (s.setVlane n v).lanes = s.lanes ∧ (s.setVlane n v).ports = s.ports ∧ (s.setVlane n v).pllOut = s.pllOut ∧
    (s.setVlane n v).qps = s.qps ∧ (s.setVlane n v).sluices = s.sluices ∧ (s.setVlane n v).pars = s.pars ∧
    (s.setVlane n v).slots = s.slots ∧ (s.setVlane n v).pipes = s.pipes ∧ (s.setVlane n v).cal = s.cal ∧
    (s.setVlane n v).chans = s.chans ∧ (s.setVlane n v).fs = s.fs ∧ (s.setVlane n v).parts = s.parts ∧
    (s.setVlane n v).provings = s.provings ∧ (s.setVlane n v).vu = s.vu ∧ (s.setVlane n v).dis = s.dis ∧
    (s.setVlane n v).dos = s.dos ∧ (s.setVlane n v).field = s.field ∧ (s.setVlane n v).banks = s.banks ∧
    (s.setVlane n v).engines = s.engines ∧ (s.setVlane n v).lead = s.lead ∧ (s.setVlane n v).records = s.records ∧
    (s.setVlane n v).rewind = s.rewind ∧ (s.setVlane n v).archive = s.archive ∧ (s.setVlane n v).line = s.line ∧
    (s.setVlane n v).proxies = s.proxies ∧ (s.setVlane n v).fwds = s.fwds ∧ (s.setVlane n v).notified = s.notified ∧
    (s.setVlane n v).pool = s.pool ∧ (s.setVlane n v).ecc = s.ecc ∧ (s.setVlane n v).empties = s.empties ∧
    (s.setVlane n v).ops = s.ops ∧ (s.setVlane n v).nextOp = s.nextOp ∧ (s.setVlane n v).nextJob = s.nextJob ∧
    (s.setVlane n v).ctxs = s.ctxs ∧ (s.setVlane n v).polders = s.polders ∧ (s.setVlane n v).spare = s.spare ∧
    (s.setVlane n v).tracks = s.tracks ∧ (s.setVlane n v).nodes = s.nodes ∧ (s.setVlane n v).kv = s.kv ∧
    (s.setVlane n v).recipes = s.recipes ∧ (s.setVlane n v).active = s.active ∧
    (s.setVlane n v).changes = s.changes ∧ (s.setVlane n v).sec = s.sec ∧ (s.setVlane n v).vig = s.vig ∧
    (s.setVlane n v).power = s.power ∧ (s.setVlane n v).codec = s.codec :=
  ⟨rfl, rfl, rfl, rfl, rfl, rfl, rfl, rfl, rfl, rfl, rfl, rfl, rfl, rfl, rfl, rfl, rfl, rfl, rfl, rfl, rfl, rfl, rfl, rfl, rfl, rfl, rfl, rfl, rfl, rfl, rfl, rfl, rfl, rfl, rfl, rfl, rfl, rfl, rfl, rfl, rfl, rfl, rfl, rfl, rfl, rfl, rfl, rfl, rfl, rfl, rfl, rfl, rfl, rfl, rfl, rfl, rfl, rfl, rfl, rfl, rfl⟩

@[simp] theorem setVlane_units (s : State) (n : Nat) (v : VLane) (i : Nat) :
    (s.setVlane n v).axis i = s.axis i ∧ (s.setVlane n v).emu i = s.emu i ∧ (s.setVlane n v).lane i = s.lane i ∧
    (s.setVlane n v).port i = s.port i ∧ (s.setVlane n v).qp i = s.qp i ∧ (s.setVlane n v).sluice i = s.sluice i ∧
    (s.setVlane n v).slot i = s.slot i ∧ (s.setVlane n v).pipe i = s.pipe i ∧ (s.setVlane n v).calOf i = s.calOf i ∧
    (s.setVlane n v).chan i = s.chan i ∧ (s.setVlane n v).bank i = s.bank i ∧ (s.setVlane n v).di i = s.di i ∧
    (s.setVlane n v).doPin i = s.doPin i :=
  ⟨rfl, rfl, rfl, rfl, rfl, rfl, rfl, rfl, rfl, rfl, rfl, rfl, rfl⟩

@[simp] theorem setVlane_regs_read (s : State) (n : Nat) (v : VLane) (o h l : Nat) :
    (s.setVlane n v).reg o = s.reg o ∧ (s.setVlane n v).fld o h l = s.fld o h l ∧
    (s.setVlane n v).flag o h = s.flag o h ∧ (s.setVlane n v).reg64 o = s.reg64 o :=
  ⟨rfl, rfl, rfl, rfl⟩

@[simp] theorem setVlane_counter (s : State) (n : Nat) (v : VLane) (o : Nat) : (s.setVlane n v).counter o = s.counter o := rfl

@[simp] theorem setVlane_lastCode (s : State) (n : Nat) (v : VLane) (o : Nat) : (s.setVlane n v).lastCode o = s.lastCode o := rfl

@[simp] theorem setBank_fields (s : State) (n : Nat) (v : Bank) :
    (s.setBank n v).pending = s.pending ∧ (s.setBank n v).free = s.free ∧ (s.setBank n v).now = s.now ∧
    (s.setBank n v).time = s.time ∧ (s.setBank n v).regs = s.regs ∧ (s.setBank n v).counters = s.counters ∧
    (s.setBank n v).held = s.held ∧ (s.setBank n v).latched = s.latched ∧ (s.setBank n v).busRead = s.busRead ∧
    (s.setBank n v).sealed = s.sealed ∧ (s.setBank n v).log = s.log ∧ (s.setBank n v).variantN = s.variantN ∧
    (s.setBank n v).bonded = s.bonded ∧ (s.setBank n v).axes = s.axes ∧ (s.setBank n v).emus = s.emus ∧
    (s.setBank n v).lanes = s.lanes ∧ (s.setBank n v).ports = s.ports ∧ (s.setBank n v).pllOut = s.pllOut ∧
    (s.setBank n v).qps = s.qps ∧ (s.setBank n v).sluices = s.sluices ∧ (s.setBank n v).pars = s.pars ∧
    (s.setBank n v).slots = s.slots ∧ (s.setBank n v).pipes = s.pipes ∧ (s.setBank n v).cal = s.cal ∧
    (s.setBank n v).chans = s.chans ∧ (s.setBank n v).fs = s.fs ∧ (s.setBank n v).parts = s.parts ∧
    (s.setBank n v).vlanes = s.vlanes ∧ (s.setBank n v).provings = s.provings ∧ (s.setBank n v).vu = s.vu ∧
    (s.setBank n v).dis = s.dis ∧ (s.setBank n v).dos = s.dos ∧ (s.setBank n v).field = s.field ∧
    (s.setBank n v).engines = s.engines ∧ (s.setBank n v).lead = s.lead ∧ (s.setBank n v).records = s.records ∧
    (s.setBank n v).rewind = s.rewind ∧ (s.setBank n v).archive = s.archive ∧ (s.setBank n v).line = s.line ∧
    (s.setBank n v).proxies = s.proxies ∧ (s.setBank n v).fwds = s.fwds ∧ (s.setBank n v).notified = s.notified ∧
    (s.setBank n v).pool = s.pool ∧ (s.setBank n v).ecc = s.ecc ∧ (s.setBank n v).empties = s.empties ∧
    (s.setBank n v).ops = s.ops ∧ (s.setBank n v).nextOp = s.nextOp ∧ (s.setBank n v).nextJob = s.nextJob ∧
    (s.setBank n v).ctxs = s.ctxs ∧ (s.setBank n v).polders = s.polders ∧ (s.setBank n v).spare = s.spare ∧
    (s.setBank n v).tracks = s.tracks ∧ (s.setBank n v).nodes = s.nodes ∧ (s.setBank n v).kv = s.kv ∧
    (s.setBank n v).recipes = s.recipes ∧ (s.setBank n v).active = s.active ∧ (s.setBank n v).changes = s.changes ∧
    (s.setBank n v).sec = s.sec ∧ (s.setBank n v).vig = s.vig ∧ (s.setBank n v).power = s.power ∧
    (s.setBank n v).codec = s.codec :=
  ⟨rfl, rfl, rfl, rfl, rfl, rfl, rfl, rfl, rfl, rfl, rfl, rfl, rfl, rfl, rfl, rfl, rfl, rfl, rfl, rfl, rfl, rfl, rfl, rfl, rfl, rfl, rfl, rfl, rfl, rfl, rfl, rfl, rfl, rfl, rfl, rfl, rfl, rfl, rfl, rfl, rfl, rfl, rfl, rfl, rfl, rfl, rfl, rfl, rfl, rfl, rfl, rfl, rfl, rfl, rfl, rfl, rfl, rfl, rfl, rfl, rfl⟩

@[simp] theorem setBank_units (s : State) (n : Nat) (v : Bank) (i : Nat) :
    (s.setBank n v).axis i = s.axis i ∧ (s.setBank n v).emu i = s.emu i ∧ (s.setBank n v).lane i = s.lane i ∧
    (s.setBank n v).port i = s.port i ∧ (s.setBank n v).qp i = s.qp i ∧ (s.setBank n v).sluice i = s.sluice i ∧
    (s.setBank n v).slot i = s.slot i ∧ (s.setBank n v).pipe i = s.pipe i ∧ (s.setBank n v).calOf i = s.calOf i ∧
    (s.setBank n v).chan i = s.chan i ∧ (s.setBank n v).vlane i = s.vlane i ∧ (s.setBank n v).di i = s.di i ∧
    (s.setBank n v).doPin i = s.doPin i :=
  ⟨rfl, rfl, rfl, rfl, rfl, rfl, rfl, rfl, rfl, rfl, rfl, rfl, rfl⟩

@[simp] theorem setBank_regs_read (s : State) (n : Nat) (v : Bank) (o h l : Nat) :
    (s.setBank n v).reg o = s.reg o ∧ (s.setBank n v).fld o h l = s.fld o h l ∧
    (s.setBank n v).flag o h = s.flag o h ∧ (s.setBank n v).reg64 o = s.reg64 o :=
  ⟨rfl, rfl, rfl, rfl⟩

@[simp] theorem setBank_counter (s : State) (n : Nat) (v : Bank) (o : Nat) : (s.setBank n v).counter o = s.counter o := rfl

@[simp] theorem setBank_lastCode (s : State) (n : Nat) (v : Bank) (o : Nat) : (s.setBank n v).lastCode o = s.lastCode o := rfl

@[simp] theorem setDi_fields (s : State) (n : Nat) (v : Di) :
    (s.setDi n v).pending = s.pending ∧ (s.setDi n v).free = s.free ∧ (s.setDi n v).now = s.now ∧
    (s.setDi n v).time = s.time ∧ (s.setDi n v).regs = s.regs ∧ (s.setDi n v).counters = s.counters ∧
    (s.setDi n v).held = s.held ∧ (s.setDi n v).latched = s.latched ∧ (s.setDi n v).busRead = s.busRead ∧
    (s.setDi n v).sealed = s.sealed ∧ (s.setDi n v).log = s.log ∧ (s.setDi n v).variantN = s.variantN ∧
    (s.setDi n v).bonded = s.bonded ∧ (s.setDi n v).axes = s.axes ∧ (s.setDi n v).emus = s.emus ∧
    (s.setDi n v).lanes = s.lanes ∧ (s.setDi n v).ports = s.ports ∧ (s.setDi n v).pllOut = s.pllOut ∧
    (s.setDi n v).qps = s.qps ∧ (s.setDi n v).sluices = s.sluices ∧ (s.setDi n v).pars = s.pars ∧
    (s.setDi n v).slots = s.slots ∧ (s.setDi n v).pipes = s.pipes ∧ (s.setDi n v).cal = s.cal ∧
    (s.setDi n v).chans = s.chans ∧ (s.setDi n v).fs = s.fs ∧ (s.setDi n v).parts = s.parts ∧
    (s.setDi n v).vlanes = s.vlanes ∧ (s.setDi n v).provings = s.provings ∧ (s.setDi n v).vu = s.vu ∧
    (s.setDi n v).dos = s.dos ∧ (s.setDi n v).field = s.field ∧ (s.setDi n v).banks = s.banks ∧
    (s.setDi n v).engines = s.engines ∧ (s.setDi n v).lead = s.lead ∧ (s.setDi n v).records = s.records ∧
    (s.setDi n v).rewind = s.rewind ∧ (s.setDi n v).archive = s.archive ∧ (s.setDi n v).line = s.line ∧
    (s.setDi n v).proxies = s.proxies ∧ (s.setDi n v).fwds = s.fwds ∧ (s.setDi n v).notified = s.notified ∧
    (s.setDi n v).pool = s.pool ∧ (s.setDi n v).ecc = s.ecc ∧ (s.setDi n v).empties = s.empties ∧
    (s.setDi n v).ops = s.ops ∧ (s.setDi n v).nextOp = s.nextOp ∧ (s.setDi n v).nextJob = s.nextJob ∧
    (s.setDi n v).ctxs = s.ctxs ∧ (s.setDi n v).polders = s.polders ∧ (s.setDi n v).spare = s.spare ∧
    (s.setDi n v).tracks = s.tracks ∧ (s.setDi n v).nodes = s.nodes ∧ (s.setDi n v).kv = s.kv ∧
    (s.setDi n v).recipes = s.recipes ∧ (s.setDi n v).active = s.active ∧ (s.setDi n v).changes = s.changes ∧
    (s.setDi n v).sec = s.sec ∧ (s.setDi n v).vig = s.vig ∧ (s.setDi n v).power = s.power ∧
    (s.setDi n v).codec = s.codec :=
  ⟨rfl, rfl, rfl, rfl, rfl, rfl, rfl, rfl, rfl, rfl, rfl, rfl, rfl, rfl, rfl, rfl, rfl, rfl, rfl, rfl, rfl, rfl, rfl, rfl, rfl, rfl, rfl, rfl, rfl, rfl, rfl, rfl, rfl, rfl, rfl, rfl, rfl, rfl, rfl, rfl, rfl, rfl, rfl, rfl, rfl, rfl, rfl, rfl, rfl, rfl, rfl, rfl, rfl, rfl, rfl, rfl, rfl, rfl, rfl, rfl, rfl⟩

@[simp] theorem setDi_units (s : State) (n : Nat) (v : Di) (i : Nat) :
    (s.setDi n v).axis i = s.axis i ∧ (s.setDi n v).emu i = s.emu i ∧ (s.setDi n v).lane i = s.lane i ∧
    (s.setDi n v).port i = s.port i ∧ (s.setDi n v).qp i = s.qp i ∧ (s.setDi n v).sluice i = s.sluice i ∧
    (s.setDi n v).slot i = s.slot i ∧ (s.setDi n v).pipe i = s.pipe i ∧ (s.setDi n v).calOf i = s.calOf i ∧
    (s.setDi n v).chan i = s.chan i ∧ (s.setDi n v).vlane i = s.vlane i ∧ (s.setDi n v).bank i = s.bank i ∧
    (s.setDi n v).doPin i = s.doPin i :=
  ⟨rfl, rfl, rfl, rfl, rfl, rfl, rfl, rfl, rfl, rfl, rfl, rfl, rfl⟩

@[simp] theorem setDi_regs_read (s : State) (n : Nat) (v : Di) (o h l : Nat) :
    (s.setDi n v).reg o = s.reg o ∧ (s.setDi n v).fld o h l = s.fld o h l ∧ (s.setDi n v).flag o h = s.flag o h ∧
    (s.setDi n v).reg64 o = s.reg64 o :=
  ⟨rfl, rfl, rfl, rfl⟩

@[simp] theorem setDi_counter (s : State) (n : Nat) (v : Di) (o : Nat) : (s.setDi n v).counter o = s.counter o := rfl

@[simp] theorem setDi_lastCode (s : State) (n : Nat) (v : Di) (o : Nat) : (s.setDi n v).lastCode o = s.lastCode o := rfl

@[simp] theorem setDoPin_fields (s : State) (n : Nat) (v : DoPin) :
    (s.setDoPin n v).pending = s.pending ∧ (s.setDoPin n v).free = s.free ∧ (s.setDoPin n v).now = s.now ∧
    (s.setDoPin n v).time = s.time ∧ (s.setDoPin n v).regs = s.regs ∧ (s.setDoPin n v).counters = s.counters ∧
    (s.setDoPin n v).held = s.held ∧ (s.setDoPin n v).latched = s.latched ∧ (s.setDoPin n v).busRead = s.busRead ∧
    (s.setDoPin n v).sealed = s.sealed ∧ (s.setDoPin n v).log = s.log ∧ (s.setDoPin n v).variantN = s.variantN ∧
    (s.setDoPin n v).bonded = s.bonded ∧ (s.setDoPin n v).axes = s.axes ∧ (s.setDoPin n v).emus = s.emus ∧
    (s.setDoPin n v).lanes = s.lanes ∧ (s.setDoPin n v).ports = s.ports ∧ (s.setDoPin n v).pllOut = s.pllOut ∧
    (s.setDoPin n v).qps = s.qps ∧ (s.setDoPin n v).sluices = s.sluices ∧ (s.setDoPin n v).pars = s.pars ∧
    (s.setDoPin n v).slots = s.slots ∧ (s.setDoPin n v).pipes = s.pipes ∧ (s.setDoPin n v).cal = s.cal ∧
    (s.setDoPin n v).chans = s.chans ∧ (s.setDoPin n v).fs = s.fs ∧ (s.setDoPin n v).parts = s.parts ∧
    (s.setDoPin n v).vlanes = s.vlanes ∧ (s.setDoPin n v).provings = s.provings ∧ (s.setDoPin n v).vu = s.vu ∧
    (s.setDoPin n v).dis = s.dis ∧ (s.setDoPin n v).field = s.field ∧ (s.setDoPin n v).banks = s.banks ∧
    (s.setDoPin n v).engines = s.engines ∧ (s.setDoPin n v).lead = s.lead ∧ (s.setDoPin n v).records = s.records ∧
    (s.setDoPin n v).rewind = s.rewind ∧ (s.setDoPin n v).archive = s.archive ∧ (s.setDoPin n v).line = s.line ∧
    (s.setDoPin n v).proxies = s.proxies ∧ (s.setDoPin n v).fwds = s.fwds ∧ (s.setDoPin n v).notified = s.notified ∧
    (s.setDoPin n v).pool = s.pool ∧ (s.setDoPin n v).ecc = s.ecc ∧ (s.setDoPin n v).empties = s.empties ∧
    (s.setDoPin n v).ops = s.ops ∧ (s.setDoPin n v).nextOp = s.nextOp ∧ (s.setDoPin n v).nextJob = s.nextJob ∧
    (s.setDoPin n v).ctxs = s.ctxs ∧ (s.setDoPin n v).polders = s.polders ∧ (s.setDoPin n v).spare = s.spare ∧
    (s.setDoPin n v).tracks = s.tracks ∧ (s.setDoPin n v).nodes = s.nodes ∧ (s.setDoPin n v).kv = s.kv ∧
    (s.setDoPin n v).recipes = s.recipes ∧ (s.setDoPin n v).active = s.active ∧
    (s.setDoPin n v).changes = s.changes ∧ (s.setDoPin n v).sec = s.sec ∧ (s.setDoPin n v).vig = s.vig ∧
    (s.setDoPin n v).power = s.power ∧ (s.setDoPin n v).codec = s.codec :=
  ⟨rfl, rfl, rfl, rfl, rfl, rfl, rfl, rfl, rfl, rfl, rfl, rfl, rfl, rfl, rfl, rfl, rfl, rfl, rfl, rfl, rfl, rfl, rfl, rfl, rfl, rfl, rfl, rfl, rfl, rfl, rfl, rfl, rfl, rfl, rfl, rfl, rfl, rfl, rfl, rfl, rfl, rfl, rfl, rfl, rfl, rfl, rfl, rfl, rfl, rfl, rfl, rfl, rfl, rfl, rfl, rfl, rfl, rfl, rfl, rfl, rfl⟩

@[simp] theorem setDoPin_units (s : State) (n : Nat) (v : DoPin) (i : Nat) :
    (s.setDoPin n v).axis i = s.axis i ∧ (s.setDoPin n v).emu i = s.emu i ∧ (s.setDoPin n v).lane i = s.lane i ∧
    (s.setDoPin n v).port i = s.port i ∧ (s.setDoPin n v).qp i = s.qp i ∧ (s.setDoPin n v).sluice i = s.sluice i ∧
    (s.setDoPin n v).slot i = s.slot i ∧ (s.setDoPin n v).pipe i = s.pipe i ∧ (s.setDoPin n v).calOf i = s.calOf i ∧
    (s.setDoPin n v).chan i = s.chan i ∧ (s.setDoPin n v).vlane i = s.vlane i ∧ (s.setDoPin n v).bank i = s.bank i ∧
    (s.setDoPin n v).di i = s.di i :=
  ⟨rfl, rfl, rfl, rfl, rfl, rfl, rfl, rfl, rfl, rfl, rfl, rfl, rfl⟩

@[simp] theorem setDoPin_regs_read (s : State) (n : Nat) (v : DoPin) (o h l : Nat) :
    (s.setDoPin n v).reg o = s.reg o ∧ (s.setDoPin n v).fld o h l = s.fld o h l ∧
    (s.setDoPin n v).flag o h = s.flag o h ∧ (s.setDoPin n v).reg64 o = s.reg64 o :=
  ⟨rfl, rfl, rfl, rfl⟩

@[simp] theorem setDoPin_counter (s : State) (n : Nat) (v : DoPin) (o : Nat) : (s.setDoPin n v).counter o = s.counter o := rfl

@[simp] theorem setDoPin_lastCode (s : State) (n : Nat) (v : DoPin) (o : Nat) : (s.setDoPin n v).lastCode o = s.lastCode o := rfl

@[simp] theorem setAxis_same (s : State) (n : Nat) (v : Axis) : (s.setAxis n v).axis n = v := by
  simp only [setAxis, axis, tget_tset_same]

theorem setAxis_other (s : State) (n m : Nat) (v : Axis) (h : m ≠ n) : (s.setAxis n v).axis m = s.axis m := by
  simp only [setAxis, axis]; exact tget_tset_other _ _ _ h

@[simp] theorem setEmu_same (s : State) (n : Nat) (v : Emu) : (s.setEmu n v).emu n = v := by
  simp only [setEmu, emu, tget_tset_same]

theorem setEmu_other (s : State) (n m : Nat) (v : Emu) (h : m ≠ n) : (s.setEmu n v).emu m = s.emu m := by
  simp only [setEmu, emu]; exact tget_tset_other _ _ _ h

@[simp] theorem setLane_same (s : State) (n : Nat) (v : Lane) : (s.setLane n v).lane n = v := by
  simp only [setLane, lane, tget_tset_same]

theorem setLane_other (s : State) (n m : Nat) (v : Lane) (h : m ≠ n) : (s.setLane n v).lane m = s.lane m := by
  simp only [setLane, lane]; exact tget_tset_other _ _ _ h

@[simp] theorem setPort_same (s : State) (n : Nat) (v : Port) : (s.setPort n v).port n = v := by
  simp only [setPort, port, tget_tset_same]

theorem setPort_other (s : State) (n m : Nat) (v : Port) (h : m ≠ n) : (s.setPort n v).port m = s.port m := by
  simp only [setPort, port]; exact tget_tset_other _ _ _ h

@[simp] theorem setQp_same (s : State) (n : Nat) (v : Qp) : (s.setQp n v).qp n = v := by
  simp only [setQp, qp, tget_tset_same]

theorem setQp_other (s : State) (n m : Nat) (v : Qp) (h : m ≠ n) : (s.setQp n v).qp m = s.qp m := by
  simp only [setQp, qp]; exact tget_tset_other _ _ _ h

@[simp] theorem setSluice_same (s : State) (n : Nat) (v : Sluice) : (s.setSluice n v).sluice n = v := by
  simp only [setSluice, sluice, tget_tset_same]

theorem setSluice_other (s : State) (n m : Nat) (v : Sluice) (h : m ≠ n) : (s.setSluice n v).sluice m = s.sluice m := by
  simp only [setSluice, sluice]; exact tget_tset_other _ _ _ h

@[simp] theorem setSlot_same (s : State) (n : Nat) (v : Slot) : (s.setSlot n v).slot n = v := by
  simp only [setSlot, slot, tget_tset_same]

theorem setSlot_other (s : State) (n m : Nat) (v : Slot) (h : m ≠ n) : (s.setSlot n v).slot m = s.slot m := by
  simp only [setSlot, slot]; exact tget_tset_other _ _ _ h

@[simp] theorem setPipe_same (s : State) (n : Nat) (v : Pipe) : (s.setPipe n v).pipe n = v := by
  simp only [setPipe, pipe, tget_tset_same]

theorem setPipe_other (s : State) (n m : Nat) (v : Pipe) (h : m ≠ n) : (s.setPipe n v).pipe m = s.pipe m := by
  simp only [setPipe, pipe]; exact tget_tset_other _ _ _ h

@[simp] theorem setCal_same (s : State) (n : Nat) (v : List CalEntry) : (s.setCal n v).calOf n = v := by
  simp only [setCal, calOf, tget_tset_same]

theorem setCal_other (s : State) (n m : Nat) (v : List CalEntry) (h : m ≠ n) : (s.setCal n v).calOf m = s.calOf m := by
  simp only [setCal, calOf]; exact tget_tset_other _ _ _ h

@[simp] theorem setChan_same (s : State) (n : Nat) (v : Chan) : (s.setChan n v).chan n = v := by
  simp only [setChan, chan, tget_tset_same]

theorem setChan_other (s : State) (n m : Nat) (v : Chan) (h : m ≠ n) : (s.setChan n v).chan m = s.chan m := by
  simp only [setChan, chan]; exact tget_tset_other _ _ _ h

@[simp] theorem setVlane_same (s : State) (n : Nat) (v : VLane) : (s.setVlane n v).vlane n = v := by
  simp only [setVlane, vlane, tget_tset_same]

theorem setVlane_other (s : State) (n m : Nat) (v : VLane) (h : m ≠ n) : (s.setVlane n v).vlane m = s.vlane m := by
  simp only [setVlane, vlane]; exact tget_tset_other _ _ _ h

@[simp] theorem setBank_same (s : State) (n : Nat) (v : Bank) : (s.setBank n v).bank n = v := by
  simp only [setBank, bank, tget_tset_same]

theorem setBank_other (s : State) (n m : Nat) (v : Bank) (h : m ≠ n) : (s.setBank n v).bank m = s.bank m := by
  simp only [setBank, bank]; exact tget_tset_other _ _ _ h

@[simp] theorem setDi_same (s : State) (n : Nat) (v : Di) : (s.setDi n v).di n = v := by
  simp only [setDi, di, tget_tset_same]

theorem setDi_other (s : State) (n m : Nat) (v : Di) (h : m ≠ n) : (s.setDi n v).di m = s.di m := by
  simp only [setDi, di]; exact tget_tset_other _ _ _ h

@[simp] theorem setDoPin_same (s : State) (n : Nat) (v : DoPin) : (s.setDoPin n v).doPin n = v := by
  simp only [setDoPin, doPin, tget_tset_same]

theorem setDoPin_other (s : State) (n m : Nat) (v : DoPin) (h : m ≠ n) : (s.setDoPin n v).doPin m = s.doPin m := by
  simp only [setDoPin, doPin]; exact tget_tset_other _ _ _ h

@[simp] theorem bump_same (s : State) (o n : Nat) : (s.bump o n).counter o = satAdd (s.counter o) n := by
  simp only [bump, counter, tget_tset_same]

theorem bump_other (s : State) (o n p : Nat) (h : p ≠ o) : (s.bump o n).counter p = s.counter p := by
  simp only [bump, counter]; exact tget_tset_other _ _ _ h

@[simp] theorem setFld_reg_same (s : State) (o hi lo x : Nat) : (s.setFld o hi lo x).reg o = putBits (s.reg o) hi lo x := by
  simp only [setFld, reg_setReg_same]

theorem setFld_reg_other (s : State) (o hi lo x p : Nat) (h : p ≠ o) : (s.setFld o hi lo x).reg p = s.reg p := by
  simp only [setFld]; exact reg_setReg_other _ _ _ _ h

/-- A status bit that is set reads 1. -/
theorem setStat_flag (s : State) (n b : Nat) (h : b < 32) : (s.setStat n b).flag (encStat n) b = true := by
  simp [setStat, flag, bit_putBits_same _ _ _ h]

end Sys2Proof.Machine.State
end

