-- ==== Sys2Proof/Tests/Slice0.lean ====
section
/-! SUPPORT. Tests: every check of WellFormed refuses an ill-formed command; single steps and shared operations against the
worked examples and tables of the spec; and states that meet the hypotheses of the statements. -/

set_option maxRecDepth 100000
set_option Elab.async false
set_option linter.unusedVariables false

namespace Sys2Proof.Machine.Tests
open Sys2Proof Sys2Proof.Machine

/-! ## Well-formedness -/

/-- An operation header with nothing declared. -/
def hdr : OpHdr := { eng := 0, ctx := 0 }
def region1 : Region := { space := .tile, addr := 0, len := 1 }
def mat1 : MatParams := { m := 1, k := 1, n := 1, quant := .rowSym, group := 0 }
def win1 : WinParams := { h := 1, w := 1, c := 1, kh := 1, kw := 1, mat := mat1 }
def defect1 : Defect := { kind := 0, score := 0, x0 := 0, x1 := 0, y0 := 0, y1 := 0 }
def entry1 : SubEntry :=
  { kind := 1, cls := 0, status := 0, part := 0, firstOff := 0, lastOff := 0, firstBlock := 0, x0 := 0, x1 := 0
    confidence := 0, lastBlock := 0, defectsFound := 0, defects := [] }
def sub1 : Submission := { ctx := 0, block := 0, close := false, deep := false, proving := false, entries := [], records := [], names := [] }
def msg1 : ProxyMsg := { proxy := 0, seq := 0, slot := 0, on := 0, off := 0, deadline := 0, block := 0, record := List.replicate 256 0 }

theorem test_wf_accepts :
    (Instr.copy { hdr with reads := List.replicate 4 region1, writes := List.replicate 2 region1 }).wf = true ∧
    (Instr.matmul hdr mat1).wf = true ∧ (Instr.conv hdr win1).wf = true ∧ (Instr.put hdr (.intake sub1) none).wf = true ∧
    (Instr.proxySeal msg1).wf = true ∧ (Instr.setupWrite 0 0x3FFFFFC 0).wf = true := by decide +kernel
theorem test_wf_refuses_regions :
    (Instr.copy { hdr with reads := List.replicate 5 region1 }).wf = false ∧
    (Instr.copy { hdr with writes := List.replicate 3 region1 }).wf = false := by decide +kernel
theorem test_wf_refuses_matmul :
    (Instr.matmul hdr { mat1 with m := 0 }).wf = false ∧ (Instr.matmul hdr { mat1 with k := 0 }).wf = false ∧
    (Instr.matmul hdr { mat1 with n := 0 }).wf = false := by decide +kernel
theorem test_wf_refuses_window :
    (Instr.conv hdr { win1 with h := 0 }).wf = false ∧ (Instr.conv hdr { win1 with w := 0 }).wf = false ∧
    (Instr.conv hdr { win1 with c := 0 }).wf = false ∧ (Instr.dwconv hdr { win1 with kh := 0 }).wf = false ∧
    (Instr.maxpool hdr { win1 with kw := 0 }).wf = false ∧ (Instr.minpool hdr { win1 with sh := 0 }).wf = false ∧
    (Instr.avgpool hdr { win1 with sw := 0 }).wf = false ∧ (Instr.label hdr { win1 with dh := 0 }).wf = false ∧
    (Instr.conv hdr { win1 with dw := 0 }).wf = false ∧ (Instr.conv hdr { win1 with g := 0 }).wf = false ∧
    (Instr.conv hdr { win1 with c := 3, g := 2 }).wf = false := by decide +kernel
theorem test_wf_refuses_submission :
    (Instr.put hdr (.intake { sub1 with entries := [{ entry1 with defects := List.replicate 9 defect1 }] }) none).wf = false ∧
    (Instr.put hdr (.intake { sub1 with entries := List.replicate 257 entry1 }) none).wf = false ∧
    (Instr.put hdr (.intake { sub1 with records := List.replicate 65 (List.replicate 80 0) }) none).wf = false ∧
    (Instr.put hdr (.intake { sub1 with records := [List.replicate 79 0] }) none).wf = false ∧
    (Instr.put hdr (.intake { sub1 with names := List.replicate 65 0 }) none).wf = false := by decide +kernel
theorem test_wf_refuses_proxy_record :
    (Instr.proxyAdmit { msg1 with record := List.replicate 255 0 }).wf = false ∧
    (Instr.proxyClose { msg1 with record := [] }).wf = false := by decide +kernel
theorem test_wf_refuses_offsets :
    (Instr.setupWrite 0 0x4000000 0).wf = false ∧ (Instr.setupWrite 1 0x10000 0).wf = false ∧
    (Instr.counterReadClear 2 0x10000).wf = false := by decide +kernel
theorem test_wf_refuses_samples :
    (Instr.almanacTick (List.replicate 49 0)).wf = false ∧ (Instr.thermalSample (List.replicate 7 0) []).wf = false ∧
    (Instr.lineJoin 0 (List.replicate 17 (0, { lineId := 0, index := 0, hops := 0, level := 0, rev := 0 }))).wf = false ∧ (Instr.bar4Write 0 0 []).wf = false := by decide +kernel

/-! ## The spec's worked examples and tables -/

/-- A module whose host interface runs (after cold boot). -/
def example0 : State := { State.reset with now := 20000000000000 }
/-- The next state of an outcome; the state after reset where there is none. -/
def after (o : Host.Outcome State Fault Refusal) : State := match o with | .next t => t | _ => State.reset

/-- R40, R39: with RATE 0 a PTP clock cycle is 2 ns. -/
theorem test_idle_step_is_two_ns :
    (after (step { example0 with time := { example0.time with running := true } })).time.t = 2 * 2 ^ 48 := by decide +kernel
/-- The step takes the front of the queue. -/
theorem test_step_takes_front :
    (after (step { example0 with pending := [.seal 0x80000000, .seal 0] })).pending = [.seal 0] ∧
    (after (step { example0 with pending := [.seal 0x80000000, .seal 0] })).sealed = true := by decide +kernel
/-- *Setup registers*, the web's memory, step 1: `FS_HB` 3 is clamped to 5, and the entry says so. -/
theorem test_example_fs_hb_clamped :
    (after (exec (.setupWrite 0 0x28400C 3) example0)).fld 0x28400C 9 0 = 5 ∧
    (tget {} (after (exec (.setupWrite 0 0x28400C 3) example0)).log.reports 0).code = 0x1C04#16 ∧
    (tget {} (after (exec (.setupWrite 0 0x28400C 3) example0)).log.reports 0).outcome = 1 ∧
    (tget {} (after (exec (.setupWrite 0 0x28400C 3) example0)).log.reports 0).width = 10 ∧
    (tget {} (after (exec (.setupWrite 0 0x28400C 3) example0)).log.reports 0).applied = 5 := by decide +kernel
/-- The web's rewind ring at 0 with SIZE 8, and a base for the KV pool. -/
def webMemory (base : Word × Word) : State :=
  ((example0.setReg 0x2A0000 0x8023FFFF#32).setReg 0x270000 base.1).setReg 0x270004 base.2
/-- Step 3: the pool would meet the rewind ring; EN stays 0 and the entry names regions 5 and 2. -/
theorem test_example_kv_meets_rewind :
    (after (exec (.kvEnable 0x8027000C) (webMemory (0xF0000000, 1)))).reg 0x270008 = 0x0027000C#32 ∧
    (tget {} (after (exec (.kvEnable 0x8027000C) (webMemory (0xF0000000, 1)))).log.reports 0).subject = 0x0205 ∧
    (tget {} (after (exec (.kvEnable 0x8027000C) (webMemory (0xF0000000, 1)))).log.reports 0).code = 0x1901#16 := by decide +kernel
/-- Step 4: the pool is in service with 80,239 slots. -/
theorem test_example_kv_slots :
    (after (exec (.kvEnable 0x8027000C) (webMemory (0, 2)))).kv.slots = 80239 := by decide +kernel
/-- Step 6: after the seal a write of `KV_CFG` is counted, and the entry holds SLOT as written and in force. -/
theorem test_example_sealed_write_counted :
    (after (exec (.setupWrite 0 0x270008 0x8040000C) { (webMemory (0, 2)).setReg 0x270008 0x8027000C with sealed := true })).counter 0x20000C = 1 ∧
    (after (exec (.setupWrite 0 0x270008 0x8040000C) { (webMemory (0, 2)).setReg 0x270008 0x8027000C with sealed := true })).reg 0x270008 = 0x8027000C ∧
    (tget {} (after (exec (.setupWrite 0 0x270008 0x8040000C)
      { (webMemory (0, 2)).setReg 0x270008 0x8027000C with sealed := true })).log.reports 0).written = 0x40 ∧
    (tget {} (after (exec (.setupWrite 0 0x270008 0x8040000C)
      { (webMemory (0, 2)).setReg 0x270008 0x8027000C with sealed := true })).log.reports 0).applied = 0x27 := by decide +kernel
/-- R36's table: four counts in 25 µs and in 100 µs. -/
theorem test_example_speeds :
    State.speedOf 4 (25000 * 2 ^ 48) = 0x009C4000 ∧ State.speedOf 4 (100000 * 2 ^ 48) = 0x00271000 := by decide +kernel
/-- *Window operators*, the first layer on the lentil chute: the output width. -/
theorem test_example_output_width : outSize 8192 3 2 1 0 1 = 4096 := by decide +kernel
/-- *Host interface*, a verdict ring: sequence 1,000,000 of 4,096 entries has LAP 245. -/
theorem test_example_lap : lapOf { log2 := 12, seq := 1000000 } = 0x00F5 := by decide +kernel
/-- *Arithmetic*, the web's deep stage: the dynamic row scale, and y of both results. -/
theorem test_example_deep_stage :
    upFp32 (127 * 10000) (16 * 1270000) = 0x3D800000#32 ∧
    ffma 0x426F3000 0x3D800000 0xBE800000 = 0x405F3000#32 ∧ ffma 0x42EF0000 0x3D000000 0xBE800000 = 0x405F0000#32 := by decide +kernel
/-- The parameters of one lentil pixel (*Line image pipes*). -/
def lentil : Mem :=
  let w (m : Mem) (a n v : Nat) : Mem := writeBytes m a (leBytes n v)
  let m := w (w (w [] 2 2 0x38) 0x28 4 0x00FF00FF) 0x2E 2 0
  let m := w (w (w m 8 2 16384) 10 2 20480) 12 2 24576
  let m := [(0, 5120), (1, 65024), (2, 65024), (3, 65024), (4, 5120), (5, 65024), (6, 65024), (7, 65024), (8, 5120)].foldl
    (fun m (p : Nat × Nat) => w m (0x10 + 2 * p.1) 2 p.2) m
  [(0, 495, 46000), (0, 496, 46061), (1, 473, 45100), (1, 474, 45163), (2, 303, 38500)].foldl
    (fun m (p : Nat × Nat × Nat) => w m (0x30840 + 0x800 * p.1 + 2 * p.2.1) 2 p.2.2) m
/-- One lentil pixel: stages 4 to 6, and stage 7. -/
theorem test_example_lentil_pixel :
    (colourStages lentil [30464, 23552, 14336]).1 = [46030, 45132, 38500] ∧
    [46030, 45132, 38500].map (fun v => (stage7 lentil v).1) = [179, 176, 150] := by decide +kernel
/-- R25: 00 to 10 is one forward count under MULT 2, which is x4. -/
theorem test_quadrature_forward :
    ((after (exec (.incrementalEdge 0 true false) (example0.setReg 0x210000 0x80001A01))).axis 0).pos = 1 ∧
    ((after (exec (.incrementalEdge 0 true false) (example0.setReg 0x210000 0x80001A01))).encOn 0) = true := by decide +kernel
/-- R451: an unmapped offset is counted and reported with 0x1084. -/
theorem test_unmapped_write :
    (after (exec (.setupWrite 0 0x3F00000 7) example0)).counter 0x200018 = 1 ∧
    (tget {} (after (exec (.setupWrite 0 0x3F00000 7) example0)).log.reports 0).code = 0x1084#16 := by decide +kernel

/-! ## What the first statements assume can be met -/

/-- Hypothesis of `Obligations.StepRunsTheFrontCommand`. -/
theorem test_wit_StepRunsTheFrontCommand : ∃ (c : Instr) (rest : List Instr) (s : State), s.pending = c :: rest :=
  ⟨.seal 0, [], { State.reset with pending := [.seal 0] }, rfl⟩
/-- Hypotheses of `Obligations.IdleStepIsOneClockCycle`: module time running and not, and nothing that a cycle ends. -/
theorem test_wit_IdleStepIsOneClockCycle :
    (∃ s : State, s.pending = [] ∧ s.time.running = true) ∧ (∃ s : State, s.pending = [] ∧ s.time.running = false) ∧
    (∃ s : State, s.pending = [] ∧ s.waitingPorts = [] ∧ ∀ p, (s.pipe p).busy = none) :=
  ⟨⟨{ State.reset with time := { State.reset.time with running := true } }, rfl, rfl⟩,
   ⟨{ State.reset with time := { State.reset.time with running := false } }, rfl, rfl⟩,
   ⟨State.reset, rfl, by decide +kernel, fun _ => rfl⟩⟩
/-- Hypothesis of `Obligations.CommandsLeaveQueueAndVariant`. -/
theorem test_wit_CommandsLeaveQueueAndVariant : ∃ (c : Instr) (s t : State), exec c s = .next t :=
  ⟨.seal 0x80000000, State.reset, _, rfl⟩
/-- Hypotheses of `Obligations.StepsKeepModesLegal`. -/
theorem test_wit_StepsKeepModesLegal : ∃ s t : State, s.legalModes = true ∧ step s = .next t :=
  ⟨{ State.reset with pending := [.seal 0x80000000] }, _, by decide +kernel, rfl⟩
/-- Hypotheses of `Obligations.SealHoldsUntilReset`. -/
theorem test_wit_SealHoldsUntilReset :
    (∃ (v : Word) (s : State), s.answers 0 0x200008 = true ∧ bit v 31 = true) ∧
    (∃ (v : Word) (s : State), s.answers 0 0x200008 = true ∧ bit v 31 = false) ∧
    (∃ (c : Instr) (s t : State), exec c s = .next t ∧ s.sealed = true ∧ c ≠ .processorReset ∧ c ≠ .processorResetEnd ∧
      (∀ b, c ≠ .coldBoot b) ∧ c ≠ .thermalShutdown ∧ c ≠ .powerLoss ∧ (∀ ns, c ≠ .nrstReq ns)) :=
  ⟨⟨0x80000000, State.reset, by decide +kernel, by decide +kernel⟩, ⟨0, State.reset, by decide +kernel, by decide +kernel⟩,
   ⟨.seal 0, { State.reset with sealed := true }, _, rfl, rfl, nofun, nofun, nofun, nofun, nofun, nofun⟩⟩

/-! ## What the statements assume can be met

For each statement with hypotheses, concrete states and operands that meet the hypotheses of each of its clauses together.
Each part has its own small states; the shared ones come first. -/
/-- Registers given their values. -/
def rg (l : List (Nat × Word)) (s : State) : State := l.foldl (fun s (p : Nat × Word) => s.setReg p.1 p.2) s
/-- A module whose module time runs. -/
def base0 : State := { State.reset with time := { State.reset.time with running := true }, now := 20000000000000 }
/-- The next state of an outcome; the state after reset where there is none. -/
def nx (o : Host.Outcome State Fault Refusal) : State := match o with | .next t => t | _ => State.reset
/-- The state after a command. -/
def dox (c : Instr) (s : State) : State := nx (exec c s)
def pc (p : Nat) (mask : Nat) : List (Nat × Word) :=
  let o := State.pOffset p
  [(o, BitVec.ofNat 32 mask), (o + 4, BitVec.ofNat 32 (2^30 * (p+1))), (o+8, 0), (o + 0x0C, 0x100), (o + 0x10, BitVec.ofNat 32 (p * 8 * 65536 + 4)), (o + 0x14, 0x10205)]
/-- A ring of a function enabled. -/
def ring (fn i : Nat) (s : State) : State := { s with log := s.log.setRing fn i { s.log.ring fn i with en := true, log2 := 6 } }
def rings (s : State) : State := ring 0 34 (ring 0 0 (ring 0 1 (ring 2 2 (ring 2 3 (ring 2 0 (ring 2 1 (ring 2 34 s)))))))
def job0 : Job := { id := 7, fn := 2, ring := 2, tag := 5, recipe := 0x20000, code := 0, first := 0, count := 3 }
def x0 : Ctx := { polder := 1, ring := 2, prio := 1, sliceUs := 100 }
def e1 (t : TaskRun) (s : State) : State := s.setEngine 1 { s.engine 1 with task := some t }
def cX (s : State) : State := s.setCtx 3 { x0 with jobs := [job0], resident := true, waitMet := true }
def tl (a : Nat) (b : List Byte) (s : State) : State := s.setEngine 1 { s.engine 1 with tile := writeBytes (s.engine 1).tile a b }
def tk (f : TaskRun → TaskRun) (s : State) : State := s.setEngine 1 { s.engine 1 with task := (s.engine 1).task.map f }
def reg (a n : Nat) : Region := { space := .tile, addr := a, len := n }
def key := 0x20000
def d2 : DescHdr := { fn := 2, ring := 2, tag := 9 }
def r16 (fn i : Nat) (f : Ring → Ring) (s : State) : State := { s with log := s.log.setRing fn i (f (s.log.ring fn i)) }
def prx (j : Nat) (x : ProxyIn) (s : State) : State := s.setProxy j x
def pp (l : List Part) (s : State) : State := { s with parts := l }
def vg (f : VigU → VigU) (s : State) : State := { s with vig := f s.vig }

namespace P02
/-- Hypotheses of `Obligations.SetupWriteAppliesFieldChecks` met together, clause by clause. -/
theorem test_wit_SetupWriteAppliesFieldChecks :
    (∃ (s : State) (n : Fin 4) (v : Word) (d : Nat) (lo : Nat) (hi : Nat), (d, lo, hi) ∈ [(0x0C, 10, 10000), (0x18, 1, 10000), (0x3C, 0, 0xFFFFFFFF)] ∧ s.answers 0 (State.encOff n + d) = true) ∧
    (∃ (s : State) (n : Fin 4) (v : Word) (up : Nat) (dn : Nat), s.answers 0 (State.encOff n + 0x10) = true ∧ up = v.toNat ∧ dn = (s.reg (State.encOff n + 0x14)).toNat) ∧
    (∃ (s : State) (n : Fin 4) (v : Word) (dn : Nat) (up : Nat), s.answers 0 (State.encOff n + 0x14) = true ∧ dn = v.toNat ∧ up = (s.reg (State.encOff n + 0x10)).toNat) :=
  ⟨⟨State.reset, (0 : Fin 4), (0 : Word), (0x0C : Nat), (10 : Nat), (10000 : Nat), by decide +kernel⟩,
   ⟨State.reset, (0 : Fin 4), (0 : Word), ((0 : Word).toNat : Nat), ((State.reset.reg (State.encOff (0 : Fin 4) + 0x14)).toNat : Nat), by decide +kernel⟩,
   ⟨State.reset, (0 : Fin 4), (0 : Word), ((0 : Word).toNat : Nat), ((State.reset.reg (State.encOff (0 : Fin 4) + 0x10)).toNat : Nat), by decide +kernel⟩⟩
/-- Hypotheses of `Obligations.SplitValueAppliesAtHighWrite` met together, clause by clause. -/
theorem test_wit_SplitValueAppliesAtHighWrite :
    (∃ (s : State) (n : Fin 4) (v : Word), s.answers 0 (State.encOff n + 0x40) = true) ∧
    (∃ (s : State) (n : Fin 4) (v : Word), s.answers 0 (State.encOff n + 0x44) = true) :=
  ⟨⟨State.reset, (0 : Fin 4), (0 : Word), by decide +kernel⟩,
   ⟨State.reset, (0 : Fin 4), (0 : Word), by decide +kernel⟩⟩
/-- Hypotheses of `Obligations.BadAccessesAreCounted` met together, clause by clause. -/
theorem test_wit_BadAccessesAreCounted :
    (∃ (s : State) (fn : Fin 7) (off : Nat) (v : Word), s.running = true ∧ off % 4 ≠ 0) ∧
    (∃ (s : State) (off : Nat) (v : Word), s.answers 0 off = true ∧ off % 4 = 0 ∧ off < 0x4000000 ∧ mapped off = false ∧ ¬ ((0x2C0000 ≤ off ∧ off < 0x2C1000)) ∧ ¬ ((0x2D0000 ≤ off ∧ off < 0x2D2000))) :=
  ⟨⟨State.reset, (0 : Fin 7), (10 : Nat), (0 : Word), by decide +kernel⟩,
   ⟨State.reset, (0 : Nat), (0 : Word), by decide +kernel⟩⟩
/-- Hypotheses of `Obligations.CounterReadClearsOnce` met together, clause by clause. -/
theorem test_wit_CounterReadClearsOnce :
    (∃ (s : State) (fn : Fin 7) (off : Nat) (key : Nat), s.answers fn off = true ∧ key = fn.val * 0x4000000 + off) ∧
    (∃ (s : State) (off : Nat), s.variantN = false ∧ s.latched = [] ∧ off ∈ [0x200018, 0x21002C, 0x210030, 0x24002C, 0x260010, 0x260024, 0x260040, 0x260054, 0x270024, 0x270038, 0x270120, 0x280010, 0x280028, 0x28002C, 0x280030, 0x280038, 0x28003C, 0x280050, 0x290018, 0x290420, 0x2A0128, 0x2A020C, 0x2B0020, 0x2B0034, 0x2C1008, 0x2E0020, 0x2E0130, 0x2F0008, 0x300048, 0x300084]) :=
  ⟨⟨State.reset, (0 : Fin 7), (0 : Nat), ((0 : Fin 7).val * 0x4000000 + (0 : Nat) : Nat), by decide +kernel⟩,
   ⟨State.reset, (0x200018 : Nat), by decide +kernel⟩⟩
end P02

namespace P03
def en (n v : Nat) (s : State) : State := rg [(State.encOff n, BitVec.ofNat 32 v)] s
def ax (n : Nat) (f : Axis → Axis) (s : State) : State := s.setAxis n (f (s.axis n))
def m1 (v : Nat) : State := en 1 (0x80000001 + v) base0
def ssi (v : Nat) : State := en 1 (0x80000003 + 12 * 2^19 + v) base0
def biss (v : Nat) : State := en 1 (0x80000004 + 12 * 2^19 + v) base0
def calx (s : State) : State := { s with cal := [(1, [{ pos := 7, kind := .on, axis := 1, dir := false, tag := 3, operand := 4 }]), (2, [{ pos := 9, kind := .off, axis := 2, dir := false, tag := 3, operand := 4 }])] }
def eml (m v r : Nat) (s : State) : State := rg [(State.emuOff m, BitVec.ofNat 32 v), (State.emuOff m + 4, BitVec.ofNat 32 r)] s
def emx (m : Nat) (f : Emu → Emu) (s : State) : State := s.setEmu m (f (s.emu m))
def wm (s : State) : State := rg [(State.encOff 1 + 8, 0x000F0000)] s
/-- Hypotheses of `Obligations.AxisEnableStartsOrRefuses` met together, clause by clause. -/
theorem test_wit_AxisEnableStartsOrRefuses :
    (∃ (s : State) (n : Fin 4) (v : Word), s.answers 0 (State.encOff n) = true ∧ s.sealed = false ∧ bit v 31 = true ∧ s.encOn n = false ∧ (bits v 3 0 = 1 ∨ bits v 3 0 = 3 ∨ bits v 3 0 = 4) ∧ bits v 9 8 ≠ 3 ∧ bits v 17 16 ≤ 1) ∧
    (∃ (s : State) (n : Fin 4) (v : Word), s.answers 0 (State.encOff n) = true ∧ s.sealed = false ∧ bit v 31 = false ∧ bits v 3 0 ≤ 4) ∧
    (∃ (s : State) (n : Fin 4) (v : Word), s.answers 0 (State.encOff n) = true ∧ s.sealed = false ∧ bit v 31 = true ∧ s.encOn n = false ∧ bits v 3 0 = 2 ∧ (s.variantN = true ∨ ∃ i, 4 * n.val ≤ i ∧ i ≤ 4 * n.val + 2 ∧ s.flag (0x290100 + 4 * i) 31 = true)) :=
  ⟨⟨State.reset, (0 : Fin 4), (0x80000001 : Word), by decide +kernel⟩,
   ⟨State.reset, (0 : Fin 4), (0 : Word), by decide +kernel⟩,
   ⟨({ base0 with variantN := true }), (0 : Fin 4), (0x80000002 : Word), by decide +kernel, by decide +kernel, by decide +kernel, by decide +kernel, by decide +kernel, .inl (by decide +kernel)⟩⟩
/-- Hypotheses of `Obligations.IncrementalEdgeCounts` met together, clause by clause. -/
theorem test_wit_IncrementalEdgeCounts :
    (∃ (s : State) (n : Fin 4) (a : Bool) (b : Bool) (fwd : Bool), s.encOn n = true ∧ (s.encMode n = 1 ∨ s.encMode n = 2) ∧ s.axisFault n = false ∧ (State.quadPlace a b + 4 - State.quadPlace (s.axis n).a (s.axis n).b) % 4 = (if fwd then 1 else 3)) ∧
    (∃ (s : State) (n : Fin 4) (a : Bool) (b : Bool), s.encOn n = true ∧ (s.encMode n = 1 ∨ s.encMode n = 2) ∧ s.axisFault n = false ∧ a ≠ (s.axis n).a ∧ b ≠ (s.axis n).b) ∧
    (∃ (s : State) (n : Fin 4) (a : Bool) (b : Bool), (s.encOn n = false ∨ s.axisFault n = true)) :=
  ⟨⟨(m1 0), (1 : Fin 4), false, true, false, by decide +kernel⟩,
   ⟨(m1 0), (1 : Fin 4), true, true, by decide +kernel⟩,
   ⟨State.reset, (0 : Fin 4), false, false, by decide +kernel⟩⟩
/-- Hypotheses of `Obligations.ZLatchesAndChecksPeriod` met together, clause by clause. -/
theorem test_wit_ZLatchesAndChecksPeriod : ∃ (s : State) (n : Fin 4), s.encOn n = true ∧ s.flag (State.encOff n + 0x48) 1 = false :=
  ⟨(m1 0), (1 : Fin 4), by decide +kernel⟩
/-- Hypotheses of `Obligations.PresetMovesWhatIsKeyedToTheAxis` met together, clause by clause. -/
theorem test_wit_PresetMovesWhatIsKeyedToTheAxis :
    (∃ (s : State) (n : Fin 4) (v : Word), s.answers 0 (State.encOff n + 0x48) = true ∧ bit v 0 = true ∧ bit v 1 = false) ∧
    (∃ (s : State) (n : Fin 4) (v : Word), s.answers 0 (State.encOff n + 0x48) = true ∧ (bit v 0 = false ∨ bit v 1 = true)) ∧
    (∃ (s : State) (n : Fin 4), s.encOn n = true ∧ s.flag (State.encOff n + 0x48) 1 = true) :=
  ⟨⟨State.reset, (0 : Fin 4), (1 : Word), by decide +kernel⟩,
   ⟨State.reset, (0 : Fin 4), (0 : Word), by decide +kernel⟩,
   ⟨(calx (rg [(State.encOff 1 + 0x40, 9), (State.encOff 1 + 0x44, 1), (State.encOff 1 + 0x48, 2)] (m1 0))), (1 : Fin 4), by decide +kernel⟩⟩
/-- Hypotheses of `Obligations.AbsoluteFramesEnterOrFail` met together, clause by clause. -/
theorem test_wit_AbsoluteFramesEnterOrFail :
    (∃ (s : State) (n : Fin 4), s.encOn n = true ∧ s.encAbs n = true) ∧
    (∃ (s : State) (n : Fin 4) (raw : Nat) (check : Nat) (p : Nat) (nE : Bool) (nW : Bool) (sb : Nat) (r : Nat), s.encOn n = true ∧ (s.axis n).wire = 0 ∧ sb = s.fld (State.encOff n) 24 19 ∧ 8 ≤ sb ∧ r = raw % 2 ^ sb ∧ ((s.encMode n = 4 ∧ nE = true ∧ check = State.bissCrc sb r nE nW ∧ p = r) ∨ (s.encMode n = 3 ∧ p = (if s.flag (State.encOff n) 25 then State.grayTo sb r else r) ∧ (s.fld (State.encOff n) 27 26 = 0 ∨ (s.fld (State.encOff n) 27 26 = 1 ∧ (State.onesOf sb r + check % 2) % 2 = 0) ∨ (s.fld (State.encOff n) 27 26 = 2 ∧ (State.onesOf sb r + check % 2) % 2 = 1) ∨ (s.fld (State.encOff n) 27 26 = 3 ∧ check = Config.ssiCrc6 sb r)))) ∧ (s.axis n).lastP = none) ∧
    (∃ (s : State) (n : Fin 4) (raw : Nat) (check : Nat) (p : Nat) (nE : Bool) (nW : Bool) (sb : Nat) (r : Nat) (d : Int) (lp : Nat), s.encOn n = true ∧ (s.axis n).wire = 0 ∧ sb = s.fld (State.encOff n) 24 19 ∧ 8 ≤ sb ∧ r = raw % 2 ^ sb ∧ ((s.encMode n = 4 ∧ nE = true ∧ check = State.bissCrc sb r nE nW ∧ p = r) ∨ (s.encMode n = 3 ∧ p = (if s.flag (State.encOff n) 25 then State.grayTo sb r else r) ∧ (s.fld (State.encOff n) 27 26 = 0 ∨ (s.fld (State.encOff n) 27 26 = 1 ∧ (State.onesOf sb r + check % 2) % 2 = 0) ∨ (s.fld (State.encOff n) 27 26 = 2 ∧ (State.onesOf sb r + check % 2) % 2 = 1) ∨ (s.fld (State.encOff n) 27 26 = 3 ∧ check = Config.ssiCrc6 sb r)))) ∧ (s.axis n).lastP = some lp ∧ lp < 2 ^ sb ∧ p < 2 ^ sb ∧ (d - ((p : Int) - lp)) % 2 ^ sb = 0 ∧ -(2 ^ (sb - 1)) ≤ d ∧ d < 2 ^ (sb - 1) ∧ ((s.reg (State.encOff n + 0x4C)).toNat = 0 ∨ d.natAbs ≤ (s.reg (State.encOff n + 0x4C)).toNat)) ∧
    (∃ (s : State) (n : Fin 4) (c : Instr) (code : Half) (sb : Nat), s.encOn n = true ∧ (s.axis n).wire = 0 ∧ sb = s.fld (State.encOff n) 24 19 ∧ ((c = .bissAckTimeout n ∧ code = 0x5102#16 ∧ s.encMode n = 4 ∧ (s.axis n).frameStart.isSome = true ∧ (s.axis n).frameAt + 64 * ((s.fld (State.encOff n + 4) 11 0 + 1) * 4) ≤ s.now) ∨ (∃ raw check nE nW, (c = .absoluteFrame n raw check nE nW ∧ code = 0x2102#16 ∧ s.encMode n = 4 ∧ check ≠ State.bissCrc sb (raw % 2 ^ sb) nE nW)) ∨ (∃ raw check nE nW, (c = .absoluteFrame n raw check nE nW ∧ code = 0x2102#16 ∧ s.encMode n = 3 ∧ ((s.fld (State.encOff n) 27 26 = 1 ∧ (State.onesOf sb (raw % 2 ^ sb) + check % 2) % 2 = 1) ∨ (s.fld (State.encOff n) 27 26 = 2 ∧ (State.onesOf sb (raw % 2 ^ sb) + check % 2) % 2 = 0) ∨ (s.fld (State.encOff n) 27 26 = 3 ∧ check ≠ Config.ssiCrc6 sb (raw % 2 ^ sb))))) ∨ (∃ raw check nW, (c = .absoluteFrame n raw check false nW ∧ code = 0x5103#16 ∧ s.encMode n = 4 ∧ check = State.bissCrc sb (raw % 2 ^ sb) false nW)) ∨ (∃ raw check nW lp, (c = .absoluteFrame n raw check true nW ∧ code = 0x2103#16 ∧ s.encMode n = 4 ∧ check = State.bissCrc sb (raw % 2 ^ sb) true nW ∧ (s.axis n).lastP = some lp ∧ (s.reg (State.encOff n + 0x4C)).toNat ≠ 0 ∧ (s.reg (State.encOff n + 0x4C)).toNat < (signed sb (raw % 2 ^ sb + 2 ^ sb - lp)).natAbs)))) :=
  ⟨⟨(ssi 0), (1 : Fin 4), by decide +kernel⟩,
   ⟨(ssi 0), (1 : Fin 4), (0 : Nat), (0 : Nat), (0 : Nat), false, false, ((ssi 0).fld (State.encOff (1 : Fin 4)) 24 19 : Nat), ((0 : Nat) % 2 ^ ((ssi 0).fld (State.encOff (1 : Fin 4)) 24 19 : Nat) : Nat), by decide +kernel⟩,
   ⟨(ax 1 (fun x => { x with lastP := some 4000, fails := 2, absFault := true }) (ssi 0)), (1 : Fin 4), (0 : Nat), (0 : Nat), (0 : Nat), false, false, ((ax 1 (fun x => { x with lastP := some 4000, fails := 2, absFault := true }) (ssi 0)).fld (State.encOff (1 : Fin 4)) 24 19 : Nat), ((0 : Nat) % 2 ^ ((ax 1 (fun x => { x with lastP := some 4000, fails := 2, absFault := true }) (ssi 0)).fld (State.encOff (1 : Fin 4)) 24 19 : Nat) : Nat), (96 : Int), ((Option.get (((ax 1 (fun x => { x with lastP := some 4000, fails := 2, absFault := true }) (ssi 0)).axis (1 : Fin 4)).lastP) (by decide +kernel)) : Nat), by decide +kernel⟩,
   ⟨(biss 0), (1 : Fin 4), (.absoluteFrame 1 5 0 true true), (0x2102 : Half), ((biss 0).fld (State.encOff (1 : Fin 4)) 24 19 : Nat), by decide +kernel, by decide +kernel, rfl, .inr (.inl ⟨5, 0, true, true, rfl, rfl, by decide +kernel, by decide +kernel⟩)⟩⟩
/-- Hypotheses of `Obligations.WireFaultStopsAxisUntilCleared` met together, clause by clause. -/
theorem test_wit_WireFaultStopsAxisUntilCleared :
    (∃ (s : State) (n : Fin 4) (pairs : BitVec 4), s.encOn n = true ∧ (s.encMode n = 1 ∨ s.encAbs n = true) ∧ pairs &&& BitVec.ofNat 4 (s.fld (State.encOff n + 8) 19 16) ≠ 0) ∧
    (∃ (s : State) (n : Fin 4), (s.axis n).wire ≠ 0) ∧
    (∃ (s : State) (n : Fin 4) (u : Nat), (s.axis n).clearedAt = some u ∧ n.val ∈ s.fs.axes ∧ s.axisFault n = false ∧ u + 1000000 ≤ s.now) :=
  ⟨⟨(m1 0), (1 : Fin 4), (3 : BitVec 4), by decide +kernel⟩,
   ⟨(ax 1 (fun x => { x with wire := 3 }) (wm (m1 0))), (1 : Fin 4), by decide +kernel⟩,
   ⟨(ax 1 (fun x => { x with clearedAt := some 5 }) { m1 0 with fs := { base0.fs with axes := [1, 2] } }), (1 : Fin 4), ((Option.get (((ax 1 (fun x => { x with clearedAt := some 5 }) { m1 0 with fs := { base0.fs with axes := [1, 2] } }).axis (1 : Fin 4)).clearedAt) (by decide +kernel)) : Nat), by decide +kernel⟩⟩
/-- Hypotheses of `Obligations.SpeedEvaluationAndStandstill` met together, clause by clause. -/
theorem test_wit_SpeedEvaluationAndStandstill :
    (∃ (s : State) (n : Fin 4) (p : Pos), s.encOn n = true ∧ s.encMode n ≠ 0) ∧
    (∃ (s : State) (n : Fin 4), s.encOn n = true ∧ s.encMode n ≠ 0 ∧ (s.axis n).lastAt + (s.reg (State.encOff n + 0x18)).toNat * 1000000 ≤ s.now) :=
  ⟨⟨(m1 0), (1 : Fin 4), (15 : Pos), by decide +kernel⟩,
   ⟨(m1 0), (1 : Fin 4), by decide +kernel⟩⟩
/-- Hypotheses of `Obligations.EmulationFollowsItsSource` met together, clause by clause. -/
theorem test_wit_EmulationFollowsItsSource :
    (∃ (s : State) (m : Fin 2) (v : Word), s.answers 0 (State.emuOff m) = true ∧ bit v 31 = true ∧ s.flag (State.emuOff m) 31 = false ∧ bits v 3 2 ≠ 3 ∧ s.fld (State.emuOff m + 4) 31 16 ≠ 0 ∧ s.fld (State.emuOff m + 4) 15 0 ≠ 0) ∧
    (∃ (s : State) (m : Fin 2) (v : Word), s.answers 0 (State.emuOff m) = true ∧ bit v 31 = true ∧ s.flag (State.emuOff m) 31 = false ∧ (s.fld (State.emuOff m + 4) 31 16 = 0 ∨ s.fld (State.emuOff m + 4) 15 0 = 0)) ∧
    (∃ (s : State) (m : Fin 2) (n : Fin 4) (a : Bool) (b : Bool) (fwd : Bool), s.encOn n = true ∧ s.encMode n = 1 ∧ s.axisFault n = false ∧ s.flag (State.emuOff m) 31 = true ∧ s.fld (State.emuOff m) 1 0 = n.val + 0 ∧ s.fld (State.emuOff m + 4) 15 0 ≠ 0 ∧ s.fld (State.encOff n) 9 8 = 2 ∧ s.flag (State.encOff n) 10 = false ∧ (State.quadPlace a b + 4 - State.quadPlace (s.axis n).a (s.axis n).b) % 4 = (if fwd then 1 else 3)) ∧
    (∃ (s : State) (m : Fin 2), s.flag (State.emuOff m) 31 = true ∧ (s.emu m).target ≠ (s.emu m).emitted ∧ (s.emu m).lastEdge + s.fld (State.emuOff m) 23 8 * 4 ≤ s.now) :=
  ⟨⟨State.reset, (0 : Fin 2), (0x80000001 : Word), by decide +kernel⟩,
   ⟨(eml 1 0 0x00000002 base0), (1 : Fin 2), (0x80000001 : Word), by decide +kernel⟩,
   ⟨(eml 0 0x80000101 0x00030002 (m1 0x200)), (0 : Fin 2), (1 : Fin 4), false, true, false, by decide +kernel⟩,
   ⟨(emx 0 (fun x => { x with acc := 1, target := 5, emitted := 7 }) (eml 0 0x80000101 0x00030005 (m1 0x200))), (0 : Fin 2), by decide +kernel⟩⟩
/-- A BiSS frame not begun within 64 clock periods, one whose error bit shows, one that steps too far, and an SSI frame of the wrong parity. -/
theorem test_wit_absolute_frames_that_fail :
    (∃ (s : State) (n : Fin 4), s.encOn n = true ∧ (s.axis n).wire = 0 ∧ s.encMode n = 4 ∧ (s.axis n).frameStart.isSome = true ∧
      (s.axis n).frameAt + 64 * ((s.fld (State.encOff n + 4) 11 0 + 1) * 4) ≤ s.now) ∧
    (∃ (s : State) (n : Fin 4) (raw check sb : Nat), s.encOn n = true ∧ (s.axis n).wire = 0 ∧ sb = s.fld (State.encOff n) 24 19 ∧ s.encMode n = 4 ∧
      check = State.bissCrc sb (raw % 2 ^ sb) false true) ∧
    (∃ (s : State) (n : Fin 4) (raw check sb lp : Nat), s.encOn n = true ∧ (s.axis n).wire = 0 ∧ sb = s.fld (State.encOff n) 24 19 ∧ s.encMode n = 4 ∧
      check = State.bissCrc sb (raw % 2 ^ sb) true true ∧ (s.axis n).lastP = some lp ∧ (s.reg (State.encOff n + 0x4C)).toNat ≠ 0 ∧
      (s.reg (State.encOff n + 0x4C)).toNat < (signed sb (raw % 2 ^ sb + 2 ^ sb - lp)).natAbs) ∧
    (∃ (s : State) (n : Fin 4) (raw check sb : Nat), s.encOn n = true ∧ (s.axis n).wire = 0 ∧ sb = s.fld (State.encOff n) 24 19 ∧ s.encMode n = 3 ∧
      s.fld (State.encOff n) 27 26 = 1 ∧ (State.onesOf sb (raw % 2 ^ sb) + check % 2) % 2 = 1) :=
  ⟨⟨ax 1 (fun x => { x with frameStart := some 0, frameAt := 5 }) (biss 0), 1, by decide +kernel⟩,
   ⟨biss 0, 1, 5, State.bissCrc 12 5 false true, 12, by decide +kernel⟩,
   ⟨ax 1 (fun x => { x with lastP := some 5 }) (rg [(State.encOff 1 + 0x4C, 200)] (biss 0)), 1, 1000, State.bissCrc 12 1000 true true, 12, 5, by decide +kernel⟩,
   ⟨ssi 0x4000000, 1, 5, 1, 12, by decide +kernel⟩⟩
end P03

namespace P04
def tm (f : TimeU → TimeU) (s : State) : State := { s with time := f s.time }
def ax (n : Nat) (f : Axis → Axis) (s : State) : State := s.setAxis n (f (s.axis n))
def srv (v : Nat) (s : State) : State := rg [(0x220048, BitVec.ofNat 32 v)] s
def pt (s : State) : State := rg [(0x230000, 1), (State.portOff 1, 0x82000000)] (s.setPort 1 { locked := true })
/-- Hypotheses of `Obligations.SnapshotAndStepOfModuleTime` met together, clause by clause. -/
theorem test_wit_SnapshotAndStepOfModuleTime :
    (∃ (s : State) (v : Word), s.answers 0 0x220000 = true ∧ bit v 0 = true) ∧
    (∃ (s : State) (v : Word), s.answers 0 0x220044 = true ∧ bit v 0 = true ∧ s.time.stepPending = none) ∧
    (∃ (s : State) (v : Word) (d : Int), s.answers 0 0x220044 = true ∧ bit v 0 = true ∧ s.time.stepPending = some d) ∧
    (∃ (s : State) (d : Int), s.time.stepPending = some d) :=
  ⟨⟨State.reset, (1 : Word), by decide +kernel⟩,
   ⟨State.reset, (1 : Word), by decide +kernel⟩,
   ⟨(tm (fun x => { x with stepPending := some (-5), t := 7 }) (ax 1 (fun x => { x with hist := [(5, 3), (-7, 2)] }) base0)), (1 : Word), ((Option.get ((tm (fun x => { x with stepPending := some (-5), t := 7 }) (ax 1 (fun x => { x with hist := [(5, 3), (-7, 2)] }) base0)).time.stepPending) (by decide +kernel)) : Int), by decide +kernel⟩,
   ⟨(tm (fun x => { x with stepPending := some (-5), t := 7 }) (ax 1 (fun x => { x with hist := [(5, 3), (-7, 2)] }) base0)), ((Option.get ((tm (fun x => { x with stepPending := some (-5), t := 7 }) (ax 1 (fun x => { x with hist := [(5, 3), (-7, 2)] }) base0)).time.stepPending) (by decide +kernel)) : Int), by decide +kernel⟩⟩
/-- Hypotheses of `Obligations.RateAndServoWrites` met together, clause by clause. -/
theorem test_wit_RateAndServoWrites :
    (∃ (s : State) (hi : Word) (lo : Word), s.answers 0 0x220038 = true ∧ s.fld 0x220048 1 0 ≠ 1 ∧ lo = (tget none s.held 0x220034).getD (BitVec.ofNat 32 (unsigned 40 s.time.rate))) ∧
    (∃ (s : State) (hi : Word), s.answers 0 0x220038 = true ∧ s.fld 0x220048 1 0 = 1) ∧
    (∃ (s : State) (v : Word), s.answers 0 0x220048 = true ∧ bits v 1 0 = 1 ∧ s.time.servo = 0 ∧ s.portPresent (bits v 5 2) = true ∧ s.flag (State.portOff (bits v 5 2)) 31 = true) ∧
    (∃ (s : State) (v : Word), s.answers 0 0x220048 = true ∧ bits v 1 0 = 1 ∧ (s.portPresent (bits v 5 2) = false ∨ s.flag (State.portOff (bits v 5 2)) 31 = false)) ∧
    (∃ (s : State) (v : Word), s.answers 0 0x220048 = true ∧ bits v 1 0 = 0) :=
  ⟨⟨State.reset, (0 : Word), ((tget none State.reset.held 0x220034).getD (BitVec.ofNat 32 (unsigned 40 State.reset.time.rate)) : Word), by decide +kernel⟩,
   ⟨({ srv 1 base0 with held := [(0x220034, some 4)] }), (0 : Word), by decide +kernel⟩,
   ⟨(pt base0), (5 : Word), by decide +kernel⟩,
   ⟨State.reset, (1 : Word), by decide +kernel⟩,
   ⟨State.reset, (0 : Word), by decide +kernel⟩⟩
/-- Hypotheses of `Obligations.SyncSteersAndHoldoverFreezes` met together, clause by clause. -/
theorem test_wit_SyncSteersAndHoldoverFreezes :
    (∃ (s : State) (o : Int) (interval : Nat), s.fld 0x220048 1 0 = 1 ∧ s.time.servo = 1 ∧ 0 < interval ∧ s.lead.leads = true ∧ s.portOn (s.fld 0x220048 5 2) = true ∧ (s.port (s.fld 0x220048 5 2)).locked = true ∧ s.time.firstSync = true ∧ s.time.stepped = false ∧ s.fld 0x220048 13 6 * 1000 < o.natAbs) ∧
    (∃ (s : State) (o : Int) (interval : Nat), s.fld 0x220048 1 0 = 1 ∧ s.time.servo ≠ 0 ∧ 0 < interval ∧ s.lead.leads = true ∧ s.portOn (s.fld 0x220048 5 2) = true ∧ (s.port (s.fld 0x220048 5 2)).locked = true ∧ (s.time.firstSync = false ∨ s.time.servo ≠ 1 ∨ s.time.stepped = true ∨ o.natAbs ≤ s.fld 0x220048 13 6 * 1000)) ∧
    (∃ (s : State), (s.time.servo = 1 ∨ s.time.servo = 2) ∧ s.time.interval ≠ 0 ∧ s.time.lastSync + s.fld 0x220048 21 14 * s.time.interval ≤ s.now) :=
  ⟨⟨(tm (fun x => { x with servo := 1, inRow := 15, rate := 99, cosc := 50 }) (srv 0x108085 (pt base0))), (5000 : Int), (1 : Nat), by decide +kernel⟩,
   ⟨(tm (fun x => { x with servo := 1, inRow := 15, rate := 99, cosc := 50 }) (srv 0x108085 (pt base0))), (0 : Int), (1 : Nat), by decide +kernel⟩,
   ⟨(tm (fun x => { x with servo := 2, firstSync := true, interval := 1000, lastSync := 3 }) (srv 0x1080C5 (pt base0))), by decide +kernel⟩⟩
end P04

namespace P05
def q1 (s : State) : State := rg [(0x230000, 1), (0x230040, 2)] s
def po (n v : Nat) (s : State) : State := rg [(State.portOff n, BitVec.ofNat 32 v)] s
def pr (n : Nat) (f : Port → Port) (s : State) : State := s.setPort n (f (s.port n))
def ll (n : Nat) (f : Lane → Lane) (s : State) : State := s.setLane n (f (s.lane n))
def P0 : State := po 4 0x800025F0 (po 1 0x800025F0 (q1 base0))
def Pl : State := pr 1 (fun p => { p with locked := true }) (pr 4 (fun p => { p with locked := true }) P0)
def Pa : State := ll 1 (fun p => { p with adapted := true, signal := true }) P0
def Pr : State := ll 4 (fun p => { p with adapted := true }) (ll 5 (fun p => { p with adapted := true }) (ll 6 (fun p => { p with adapted := true }) (ll 7 (fun p => { p with adapted := true }) P0)))
def qq (f : Qp → Qp) (s : State) : State := s.setQp 3 (f (s.qp 3))
def Q : State := qq (fun q => { q with state := .ready, port := 1, owner := 1, key := 7, base := 64, len := 64, rights := 7, rate := 1000000, target := 20000000, alpha := 40000 }) P0
def f0 : Frame := { len := 64, fcsOk := true, etherType := 0x800 }
/-- Hypotheses of `Obligations.PortHuntsAdaptsAndLocks` met together, clause by clause. -/
theorem test_wit_PortHuntsAdaptsAndLocks :
    (∃ (s : State) (n : Fin 16) (v : Word), s.answers 0 (State.portOff n) = true ∧ s.portPresent n = true ∧ s.sealed = false ∧ s.flag (State.portOff n) 31 = false ∧ bit v 31 = true ∧ bits v 30 29 ≠ 3 ∧ (s.wide100 n = true ∨ bit v 28 = true ∨ bits v 30 29 = 0) ∧ (bit v 26 = true → (s.lpiBars n).1 = false) ∧ (bit v 27 = true → s.wide100 n = false)) ∧
    (∃ (s : State) (n : Fin 16) (v : Word), s.answers 0 (State.portOff n) = true ∧ s.portPresent n = true ∧ s.sealed = false ∧ s.flag (State.portOff n) 31 = true ∧ bit v 31 = false) ∧
    (∃ (s : State) (n : Fin 16) (c : Fin 16) (taps : BitVec 30), s.laneOn n = true ∧ (s.lane n).rxLpi = false) ∧
    (∃ (s : State) (n : Fin 16) (skew : Nat) (remote : Bool), s.portOn n = true ∧ (∀ l ∈ s.lanesOf n, (s.lane l).adapted = true) ∧ (s.wide100 n = false ∨ skew ≤ 180000)) ∧
    (∃ (s : State) (n : Fin 16) (skew : Nat) (remote : Bool), s.portOn n = true ∧ (∀ l ∈ s.lanesOf n, (s.lane l).adapted = true) ∧ s.wide100 n = true ∧ 180000 < skew) :=
  ⟨⟨(q1 base0), (0 : Fin 16), (0x80000000 : Word), by decide +kernel⟩,
   ⟨P0, (1 : Fin 16), (0 : Word), by decide +kernel⟩,
   ⟨P0, (1 : Fin 16), (0 : Fin 16), (5 : BitVec 30), by decide +kernel⟩,
   ⟨Pa, (1 : Fin 16), (0 : Nat), false, by decide +kernel⟩,
   ⟨Pr, (4 : Fin 16), (200000 : Nat), false, by decide +kernel⟩⟩
/-- Hypotheses of `Obligations.PortLossesAreCounted` met together, clause by clause. -/
theorem test_wit_PortLossesAreCounted :
    (∃ (s : State) (n : Fin 16) (amp : Bool), s.portOn n = true ∧ (s.port n).locked = true ∧ (s.lane n).rxLpi = false) ∧
    (∃ (s : State) (n : Fin 16), s.portOn n = true ∧ (s.port n).locked = true ∧ (s.port n).hiBer = false ∧ (s.lane n).rxLpi = false) ∧
    (∃ (s : State) (n : Fin 16), s.portOn n = true ∧ (s.lane n).rxLpi = false) ∧
    (∃ (s : State) (n : Fin 16) (errors : Nat) (c : Bool), s.portOn n = true ∧ (s.port n).locked = true ∧ 1 ≤ errors ∧ (((s.wide100 n = true ∨ s.fld (State.portOff n) 30 29 = 2) ∧ errors ≤ 7) ∨ (s.wide100 n = false ∧ s.fld (State.portOff n) 30 29 = 1 ∧ c = true))) ∧
    (∃ (s : State) (n : Fin 16) (errors : Nat) (c : Bool), s.portOn n = true ∧ (s.port n).locked = true ∧ 1 ≤ errors ∧ (((s.wide100 n = true ∨ s.fld (State.portOff n) 30 29 = 2) ∧ 8 ≤ errors) ∨ (s.wide100 n = false ∧ s.fld (State.portOff n) 30 29 = 1 ∧ c = false))) :=
  ⟨⟨Pl, (1 : Fin 16), false, by decide +kernel⟩,
   ⟨Pl, (1 : Fin 16), by decide +kernel⟩,
   ⟨P0, (1 : Fin 16), by decide +kernel⟩,
   ⟨Pl, (4 : Fin 16), (1 : Nat), false, by decide +kernel⟩,
   ⟨Pl, (4 : Fin 16), (200000 : Nat), false, by decide +kernel⟩⟩
/-- Hypotheses of `Obligations.PllAndLowPowerIdle` met together, clause by clause. -/
theorem test_wit_PllAndLowPowerIdle :
    (∃ (s : State) (q : Fin 4) (fast : Bool), s.pllLanes q fast ≠ [] ∧ (q.val, fast) ∉ s.pllOut) ∧
    (∃ (s : State) (n : Fin 16), s.portOn n = true ∧ s.flag (State.portOff n) 26 = true ∧ (s.lpiBars n).1 = false ∧ (s.lane n).txLpi = false ∧ (s.port n).txHeld = 0 ∧ (s.port n).wakeAt = none ∧ (s.port n).idleSince + s.fld (State.portOff n + 4) 15 0 * 1000 ≤ s.now) ∧
    (∃ (s : State) (n : Fin 16), (s.lane n).txLpi = true ∧ (s.port n).wakeAt = none ∧ s.rate25 n = false ∧ (s.port n).lpiRefreshAt ≤ s.now) ∧
    (∃ (s : State) (n : Fin 16), (s.lane n).txLpi = true ∧ (s.port n).wakeAt ≠ none) ∧
    (∃ (s : State) (n : Fin 16), s.portOn n = true ∧ s.flag (State.portOff n) 27 = true ∧ s.wide100 n = false ∧ (s.lane n).rxLpi = false) ∧
    (∃ (s : State) (n : Fin 16), (s.lane n).rxLpi = true) :=
  ⟨⟨P0, (0 : Fin 4), false, by decide +kernel⟩,
   ⟨(po 1 0x840025F0 Pl), (1 : Fin 16), by decide +kernel⟩,
   ⟨(ll 1 (fun p => { p with txLpi := true, rxLpi := true }) Pl), (1 : Fin 16), by decide +kernel⟩,
   ⟨(pr 1 (fun p => { p with txHeld := 3, wakeAt := some 900, lpiFrom := base0.now }) (ll 1 (fun p => { p with txLpi := true }) Pl)), (1 : Fin 16), by decide +kernel⟩,
   ⟨(po 1 0x8C0065F0 (ll 1 (fun p => { p with cdr := true }) Pl)), (1 : Fin 16), by decide +kernel⟩,
   ⟨(ll 1 (fun p => { p with txLpi := true, rxLpi := true }) Pl), (1 : Fin 16), by decide +kernel⟩⟩
/-- Hypotheses of `Obligations.EyePointsStartAndEnd` met together, clause by clause. -/
theorem test_wit_EyePointsStartAndEnd :
    (∃ (s : State) (n : Fin 16) (v : Word), s.answers 0 (State.eyeOff n) = true ∧ bit v 31 = true ∧ bit v 28 = false ∧ (s.port (s.portOfLane n)).locked = true ∧ s.shedAdmits = true) ∧
    (∃ (s : State) (n : Fin 16) (v : Word), s.answers 0 (State.eyeOff n) = true ∧ bit v 31 = true ∧ bit v 28 = false ∧ (s.port (s.portOfLane n)).locked = false) ∧
    (∃ (s : State) (n : Fin 16) (v : Word), s.answers 0 (State.eyeOff n) = true ∧ bit v 31 = true ∧ bit v 28 = false ∧ (s.port (s.portOfLane n)).locked = true ∧ s.shedAdmits = false) ∧
    (∃ (s : State) (n : Fin 16) (errors : BitVec 48), (s.lane n).eyeRun = true ∧ (s.lane n).rxLpi = false ∧ s.eyeBitsNow n = 10 ^ s.fld (State.eyeOff n) 27 24) ∧
    (∃ (s : State) (n : Fin 16) (v : Word), s.answers 0 (State.eyeOff n) = true ∧ bit v 31 = false ∧ bit v 28 = true ∧ (s.lane n).eyeRun = true ∧ 6 ≤ bits v 27 24 ∧ bits v 27 24 ≤ 12) :=
  ⟨⟨Pl, (1 : Fin 16), (0x80000000 : Word), by decide +kernel⟩,
   ⟨State.reset, (0 : Fin 16), (0x80000000 : Word), by decide +kernel⟩,
   ⟨({ Pl with power := { base0.power with shedOut := true } }), (1 : Fin 16), (0x80000000 : Word), by decide +kernel⟩,
   ⟨(ll 1 (fun p => { p with eyeRun := true }) (rg [(State.eyeOff 1, 0x06000000)] Pl)), (1 : Fin 16), (5 : BitVec 48), by decide +kernel⟩,
   ⟨(ll 1 (fun p => { p with eyeRun := true, rxLpi := true, quietFrom := 5 }) Pl), (1 : Fin 16), (0x16000000 : Word), by decide +kernel⟩⟩
/-- Hypotheses of `Obligations.FrameChecksInOrder` met together, clause by clause. -/
theorem test_wit_FrameChecksInOrder :
    (∃ (s : State) (n : Fin 17) (f : Frame), n.val ≠ 16 ∧ s.portOn n = true ∧ ((s.port n).locked = false ∨ (s.port n).hiBer = true ∨ f.errBlock = true)) ∧
    (∃ (s : State) (n : Fin 17) (f : Frame), n.val ≠ 16 ∧ s.portOn n = true ∧ (s.port n).locked = true ∧ (s.port n).hiBer = false ∧ f.errBlock = false ∧ f.fcsOk = false) ∧
    (∃ (s : State) (n : Fin 17) (f : Frame), n.val ≠ 16 ∧ s.portOn n = true ∧ (s.port n).locked = true ∧ (s.port n).hiBer = false ∧ f.errBlock = false ∧ f.fcsOk = true ∧ s.fld (State.portOff n) 13 0 < f.len) ∧
    (∃ (s : State) (n : Fin 17) (f : Frame), n.val ≠ 16 ∧ s.portOn n = true ∧ (s.port n).locked = true ∧ (s.port n).hiBer = false ∧ f.errBlock = false ∧ f.fcsOk = true ∧ f.len ≤ s.fld (State.portOff n) 13 0 ∧ 64 ≤ f.len ∧ (if s.wide100 n then 2 ^ 20 else 2 ^ 18) < f.fill + f.len) ∧
    (∃ (s : State) (n : Fin 17) (f : Frame), n.val ≠ 16 ∧ s.portOn n = true ∧ (s.port n).locked = true ∧ (s.port n).hiBer = false ∧ f.errBlock = false ∧ f.fcsOk = true ∧ f.len ≤ s.fld (State.portOff n) 13 0 ∧ 64 ≤ f.len ∧ f.fill + f.len ≤ (if s.wide100 n then 2 ^ 20 else 2 ^ 18) ∧ f.payload = .none ∧ (2 ≤ f.tags ∨ (f.ip = none ∧ f.etherType ≠ 0x88F7#16))) ∧
    (∃ (s : State) (n : Fin 17) (f : Frame) (q : Nat), n.val ≠ 16 ∧ s.portOn n = true ∧ (s.port n).locked = true ∧ (s.port n).hiBer = false ∧ f.errBlock = false ∧ f.fcsOk = true ∧ f.len ≤ s.fld (State.portOff n) 13 0 ∧ 64 ≤ f.len ∧ f.fill + f.len ≤ (if s.wide100 n then 2 ^ 20 else 2 ^ 18) ∧ f.payload = .pause none q) ∧
    (∃ (s : State) (f : Frame), f.errBlock = false ∧ f.fcsOk = true ∧ 64 ≤ f.len ∧ f.payload = .none) :=
  ⟨⟨P0, (1 : Fin 17), f0, by decide +kernel⟩,
   ⟨Pl, (1 : Fin 17), ({ f0 with fcsOk := false }), by decide +kernel⟩,
   ⟨Pl, (1 : Fin 17), ({ f0 with len := 20000 }), by decide +kernel⟩,
   ⟨Pl, (1 : Fin 17), ({ f0 with fill := 0x400000 }), by decide +kernel⟩,
   ⟨Pl, (1 : Fin 17), f0, by decide +kernel⟩,
   ⟨Pl, (1 : Fin 17), ({ f0 with payload := .pause none 4 }), (4 : Nat), by decide +kernel⟩,
   ⟨State.reset, f0, by decide +kernel⟩⟩
/-- Hypotheses of `Obligations.RoceRequestsStayInTheirRegion` met together, clause by clause. -/
theorem test_wit_RoceRequestsStayInTheirRegion :
    (∃ (s : State) (q : Fin 1024) (a : Nat) (d : List Byte) (key : Word), (s.qp q).state = .ready ∧ (s.qp q).peer = none ∧ (s.qp q).owner < 16 ∧ s.portOn (s.qp q).port = true ∧ key = (s.qp q).key ∧ (s.qp q).rights.getLsbD 0 = true ∧ (s.qp q).base ≤ a ∧ a + d.length ≤ (s.qp q).base + (s.qp q).len ∧ d.length ≤ 2 ^ 31) ∧
    (∃ (s : State) (q : Fin 1024) (a : Nat) (v : DWord) (key : Word), (s.qp q).state = .ready ∧ (s.qp q).peer = none ∧ (s.qp q).owner < 16 ∧ s.portOn (s.qp q).port = true ∧ key = (s.qp q).key ∧ (s.qp q).rights.getLsbD 2 = true ∧ a % 8 = 0 ∧ (s.qp q).base ≤ a ∧ a + 8 ≤ (s.qp q).base + (s.qp q).len) ∧
    (∃ (s : State) (q : Fin 1024) (a : Nat) (cmp : DWord) (swap : DWord) (key : Word), (s.qp q).state = .ready ∧ (s.qp q).peer = none ∧ (s.qp q).owner < 16 ∧ s.portOn (s.qp q).port = true ∧ key = (s.qp q).key ∧ (s.qp q).rights.getLsbD 2 = true ∧ a % 8 = 0 ∧ (s.qp q).base ≤ a ∧ a + 8 ≤ (s.qp q).base + (s.qp q).len) ∧
    (∃ (s : State) (q : Fin 1024) (a : Nat) (n : Nat) (key : Word), (s.qp q).state = .ready ∧ (s.qp q).peer = none ∧ (s.qp q).owner < 16 ∧ s.portOn (s.qp q).port = true ∧ key = (s.qp q).key ∧ (s.qp q).rights.getLsbD 1 = true ∧ (s.qp q).base ≤ a ∧ a + n ≤ (s.qp q).base + (s.qp q).len ∧ n ≤ 2 ^ 31) ∧
    (∃ (s : State) (q : Fin 1024) (key : Word) (a : Nat) (d : List Byte), (s.qp q).state = .ready ∧ (s.qp q).peer = none ∧ (s.qp q).owner < 16 ∧ s.portOn (s.qp q).port = true ∧ (key ≠ (s.qp q).key ∨ a < (s.qp q).base ∨ (s.qp q).base + (s.qp q).len < a + d.length)) :=
  ⟨⟨(qq (fun q => { q with increases := 9, incBytes := 10000000 }) Q), (3 : Fin 1024), (64 : Nat), [], (((qq (fun q => { q with increases := 9, incBytes := 10000000 }) Q).qp (3 : Fin 1024)).key : Word), by decide +kernel⟩,
   ⟨(qq (fun q => { q with increases := 9, incBytes := 10000000 }) Q), (3 : Fin 1024), (64 : Nat), (1 : DWord), (((qq (fun q => { q with increases := 9, incBytes := 10000000 }) Q).qp (3 : Fin 1024)).key : Word), by decide +kernel⟩,
   ⟨(qq (fun q => { q with increases := 9, incBytes := 10000000 }) Q), (3 : Fin 1024), (64 : Nat), (1 : DWord), (1 : DWord), (((qq (fun q => { q with increases := 9, incBytes := 10000000 }) Q).qp (3 : Fin 1024)).key : Word), by decide +kernel⟩,
   ⟨(qq (fun q => { q with increases := 9, incBytes := 10000000 }) Q), (3 : Fin 1024), (64 : Nat), (0 : Nat), (((qq (fun q => { q with increases := 9, incBytes := 10000000 }) Q).qp (3 : Fin 1024)).key : Word), by decide +kernel⟩,
   ⟨(qq (fun q => { q with increases := 9, incBytes := 10000000 }) Q), (3 : Fin 1024), (0 : Word), (0 : Nat), [], by decide +kernel⟩⟩
/-- Hypotheses of `Obligations.RoceRequesterRateAndRetries` met together, clause by clause. -/
theorem test_wit_RoceRequesterRateAndRetries :
    (∃ (s : State) (q : Fin 1024) (timer : Bool), (s.qp q).state = .ready ∧ (s.qp q).rate ≠ 0 ∧ if timer then (s.qp q).incAt + 55000 ≤ s.now else 10000000 ≤ (s.qp q).incBytes) ∧
    (∃ (s : State) (q : Fin 1024) (n : Nat), (s.qp q).state = .ready ∧ n ≤ (s.qp q).outstanding.length) ∧
    (∃ (s : State) (q : Fin 1024) (x : Outstanding) (r : List Outstanding), (s.qp q).state = .ready ∧ (s.qp q).outstanding = x :: r ∧ x.sentAt + 4096 * 2 ^ (s.qp q).timeoutExp ≤ s.now ∧ x.retries < (s.qp q).retryLimit) ∧
    (∃ (s : State) (q : Fin 1024) (x : Outstanding) (r : List Outstanding), (s.qp q).state = .ready ∧ (s.qp q).peer = none ∧ ((s.qp q).owner < 16 ∨ 34 ≤ (s.qp q).owner) ∧ (s.qp q).outstanding = x :: r ∧ x.sentAt + 4096 * 2 ^ (s.qp q).timeoutExp ≤ s.now ∧ (s.qp q).retryLimit ≤ x.retries) :=
  ⟨⟨(qq (fun q => { q with increases := 9, incBytes := 10000000 }) Q), (3 : Fin 1024), false, by decide +kernel⟩,
   ⟨(qq (fun q => { q with increases := 9, incBytes := 10000000 }) Q), (3 : Fin 1024), (0 : Nat), by decide +kernel⟩,
   ⟨(qq (fun q => { q with outstanding := [{ op := 3 }, { op := 4 }] }) Q), (3 : Fin 1024), (((((qq (fun q => { q with outstanding := [{ op := 3 }, { op := 4 }] }) Q).qp (3 : Fin 1024)).outstanding)[0]'(by decide +kernel)) : Outstanding), ((List.drop 1 (((qq (fun q => { q with outstanding := [{ op := 3 }, { op := 4 }] }) Q).qp (3 : Fin 1024)).outstanding)) : List Outstanding), by decide +kernel⟩,
   ⟨(qq (fun q => { q with outstanding := [{ op := 3, retries := 7 }], port := 4 }) Q), (3 : Fin 1024), (((((qq (fun q => { q with outstanding := [{ op := 3, retries := 7 }], port := 4 }) Q).qp (3 : Fin 1024)).outstanding)[0]'(by decide +kernel)) : Outstanding), ((List.drop 1 (((qq (fun q => { q with outstanding := [{ op := 3, retries := 7 }], port := 4 }) Q).qp (3 : Fin 1024)).outstanding)) : List Outstanding), by decide +kernel⟩⟩
end P05

namespace P06
def w (n : Nat) : Word := BitVec.ofNat 32 n
def S0 : State := rg [(0x230000, 1), (State.sOff 1, w (1 * 2^21 + 1)), (State.sOff 1 + 8, w (1400 * 65536)), (State.sOff 1 + 0x10, 1000), (State.sOff 1 + 0x14, w (8 * 65536 + 100)), (State.sOff 17, w (2 * 2^29 + 1)), (State.sOff 17 + 0x10, 1000), (State.sOff 17 + 0x14, w (8 * 65536 + 100)),
  (State.slotOff 0 + 0x24, 0x40000000), (State.slotOff 0 + 0x2C, 4), (State.slotOff 1 + 0x24, 0x50000000), (State.slotOff 1 + 0x2C, 4), (State.slotOff 0 + 4, 0x60000000), (State.slotOff 0 + 0x10, 5)] base0
def v1 : Word := w (2^31 + 2^21 + 1)
def v17 : Word := w (2^31 + 2 * 2^29 + 1)
def S1 : State := dox (.sluiceEnable 1 v1) S0
def S2 : State := dox (.pixelClockResume 1 50000) (dox (.sluiceEnable 17 v17) { S1 with pars := [(1, { kHz := 50000 })] })
def pl (n : Nat) (s : State) : State := dox (.parallelLine 1 n (List.replicate n 7)) s
def S3 : State := (List.range 16).foldl (fun s _ => pl 64 s) S2
def S4 : State := dox (.lineBlockHandoff 17) S3
def S5 : State := dox (.pipeBlockStart 0) S4
def S6 : State := { S5 with now := S5.now + 100000 }
def slo (i : Nat) (f : Slot → Slot) (s : State) : State := s.setSlot i (f (s.slot i))
/-- Hypotheses of `Obligations.SluiceEnableStartsContext` met together, clause by clause. -/
theorem test_wit_SluiceEnableStartsContext :
    (∃ (s : State) (k : Fin 18) (v : Word) (u : State), s.answers 0 (State.sOff k) = true ∧ s.sealed = false ∧ bit v 31 = true ∧ s.flag (State.sOff k) 31 = false ∧ bits v 30 29 ≠ 3 ∧ bits v 18 17 ≠ 3 ∧ u = s.writeFields (State.sOff k) 0x03 k v ∧ u.outFails k = [] ∧ u.sluiceFails k = [] ∧ u.admitFails k = [] ∧ u.bindFails k = [] ∧ u.ringFails k = []) ∧
    (∃ (s : State) (k : Fin 18) (v : Word), s.answers 0 (State.sOff k) = true ∧ s.sealed = false ∧ bit v 31 = true ∧ s.flag (State.sOff k) 31 = false ∧ (bits v 30 29 = 3 ∨ bits v 18 17 = 3)) ∧
    (∃ (s : State) (k : Fin 18) (v : Word) (i : Nat), s.answers 0 (State.sOff k) = true ∧ bit v 31 = false ∧ s.flag (State.sOff k) 31 = true ∧ s.slotOf k = some i) :=
  ⟨⟨State.reset, (17 : Fin 18), v17, (State.reset.writeFields (State.sOff (17 : Fin 18)) 0x03 (17 : Fin 18) v17 : State), by decide +kernel⟩,
   ⟨State.reset, (0 : Fin 18), (w (2^31 + 3 * 2^29)), by decide +kernel⟩,
   ⟨S1, (1 : Fin 18), (0 : Word), ((Option.get (S1.slotOf (1 : Fin 18)) (by decide +kernel)) : Nat), by decide +kernel⟩⟩
/-- Hypotheses of `Obligations.ParallelLinesHoldsAndClocks` met together, clause by clause. -/
theorem test_wit_ParallelLinesHoldsAndClocks :
    (∃ (s : State) (p : Fin 2) (clocks : Nat) (data : List Byte) (k : Nat) (n : Nat) (need : Nat) (got : Nat), k = 16 + p.val ∧ n = (s.sluice k).expect ∧ (s.sluice k).run = true ∧ (s.sluice k).clkLost = false ∧ (s.sluice k).next ≤ n / 16 ∧ n / 16 ≤ (s.sluice k).next + 3 ∧ (∀ x ∈ (s.sluice k).blocks, x.lines.length = 16) ∧ need = ((s.shape k).cols * (s.shape k).chans + s.parPixels p - 1) / s.parPixels p ∧ got = min (clocks * s.parPixels p) ((s.shape k).cols * (s.shape k).chans) * (s.shape k).bytes) ∧
    (∃ (s : State) (k : Fin 18), (s.sluice k).run = true) ∧
    (∃ (s : State) (p : Fin 2) (clocks : Nat) (data : List Byte), (s.sluice (16 + p)).clkLost = false) :=
  ⟨⟨S2, (1 : Fin 2), (0 : Nat), [], (16 + (1 : Fin 2).val : Nat), ((S2.sluice (16 + (1 : Fin 2).val : Nat)).expect : Nat), (((S2.shape (16 + (1 : Fin 2).val : Nat)).cols * (S2.shape (16 + (1 : Fin 2).val : Nat)).chans + S2.parPixels (1 : Fin 2) - 1) / S2.parPixels (1 : Fin 2) : Nat), (min ((0 : Nat) * S2.parPixels (1 : Fin 2)) ((S2.shape (16 + (1 : Fin 2).val : Nat)).cols * (S2.shape (16 + (1 : Fin 2).val : Nat)).chans) * (S2.shape (16 + (1 : Fin 2).val : Nat)).bytes : Nat), by decide +kernel⟩,
   ⟨S1, (1 : Fin 18), by decide +kernel⟩,
   ⟨State.reset, (0 : Fin 2), (0 : Nat), [], by decide +kernel⟩⟩
/-- Hypotheses of `Obligations.LineBlockHandedOnStartedFinished` met together, clause by clause. -/
theorem test_wit_LineBlockHandedOnStartedFinished :
    (∃ (s : State) (k : Fin 18) (x : OpenBlock) (rest : List OpenBlock), (s.sluice k).run = true ∧ (s.sluice k).blocks = x :: rest ∧ x.lines.all (State.resolved (s.shape k).lineBytes) = true ∧ s.vig.outOfService = false) ∧
    (∃ (s : State) (p : Fin 4) (i : Nat) (k : Nat) (b : LineBlock) (rest : List LineBlock), s.serves = true ∧ (s.pipe p).busy = none ∧ s.nextSlot p = some i ∧ (s.slot i).ctx = some k ∧ (s.slot i).queue = b :: rest ∧ (s.slot i).pending = false ∧ tget none s.changes k = none) ∧
    (∃ (s : State) (p : Fin 4) (i : Nat) (b : LineBlock) (m : Mem) (u : Nat) (k : Nat) (y : LineBlock), (s.pipe p).busy = some (i, b, m, u) ∧ u ≤ s.now ∧ (s.slot i).ctx = some k ∧ (∀ j, (s.slot j).waiting = []) ∧ (s.slot i).queue.find? (fun x => decide (x.b = b.b)) = some y) :=
  ⟨⟨S3, (17 : Fin 18), ((((S3.sluice (17 : Fin 18)).blocks)[0]'(by decide +kernel)) : OpenBlock), ((List.drop 1 ((S3.sluice (17 : Fin 18)).blocks)) : List OpenBlock), by decide +kernel⟩,
   ⟨S4, (0 : Fin 4), ((Option.get (S4.nextSlot (0 : Fin 4)) (by decide +kernel)) : Nat), ((Option.get ((S4.slot ((Option.get (S4.nextSlot (0 : Fin 4)) (by decide +kernel)) : Nat)).ctx) (by decide +kernel)) : Nat), ((((S4.slot ((Option.get (S4.nextSlot (0 : Fin 4)) (by decide +kernel)) : Nat)).queue)[0]'(by decide +kernel)) : LineBlock), ((List.drop 1 ((S4.slot ((Option.get (S4.nextSlot (0 : Fin 4)) (by decide +kernel)) : Nat)).queue)) : List LineBlock), by decide +kernel⟩,
   ⟨S6, (0 : Fin 4), ((Prod.fst ((Option.get ((S6.pipe (0 : Fin 4)).busy) (by decide +kernel)))) : Nat), ((Prod.fst ((Prod.snd ((Option.get ((S6.pipe (0 : Fin 4)).busy) (by decide +kernel)))))) : LineBlock), ((Prod.fst ((Prod.snd ((Prod.snd ((Option.get ((S6.pipe (0 : Fin 4)).busy) (by decide +kernel)))))))) : Mem), ((Prod.snd ((Prod.snd ((Prod.snd ((Option.get ((S6.pipe (0 : Fin 4)).busy) (by decide +kernel)))))))) : Nat), ((Option.get ((S6.slot ((Prod.fst ((Option.get ((S6.pipe (0 : Fin 4)).busy) (by decide +kernel)))) : Nat)).ctx) (by decide +kernel)) : Nat), ((Option.get ((S6.slot ((Prod.fst ((Option.get ((S6.pipe (0 : Fin 4)).busy) (by decide +kernel)))) : Nat)).queue.find? (fun x => decide (x.b = ((Prod.fst ((Prod.snd ((Option.get ((S6.pipe (0 : Fin 4)).busy) (by decide +kernel)))))) : LineBlock).b))) (by decide +kernel)) : LineBlock), by decide +kernel, by decide +kernel, by decide +kernel, (fun j => tget_all (P := fun x => Slot.waiting x = []) (d := {}) (t := S6.slots) (by decide +kernel) rfl j), by decide +kernel⟩⟩
/-- Hypotheses of `Obligations.ShadowSwapArmLoadCancel` met together, clause by clause. -/
theorem test_wit_ShadowSwapArmLoadCancel :
    (∃ (s : State) (p : Fin 4) (q : Fin 4) (v : Word) (i : Nat) (k : Nat) (img : Nat), i = 4 * p.val + q.val ∧ s.answers 0 (State.slotOff i + 0x0C) = true ∧ bit v 31 = true ∧ bit v 30 = false ∧ bits v 27 26 ≠ 3 ∧ (s.slot i).ctx = some k ∧ (s.slot i).pending = false ∧ img = s.reg64 (State.slotOff i + 4) / 256 * 256 ∧ s.placedMeets img 204864 = none) ∧
    (∃ (s : State) (p : Fin 4) (q : Fin 4) (v : Word) (i : Nat), i = 4 * p.val + q.val ∧ s.answers 0 (State.slotOff i + 0x0C) = true ∧ bit v 31 = true ∧ bit v 30 = false ∧ ((s.slot i).ctx = none ∨ (s.slot i).pending = true)) ∧
    (∃ (s : State) (p : Fin 4) (q : Fin 4) (i : Nat) (k : Nat) (m : Mem), i = 4 * p.val + q.val ∧ (s.slot i).ctx = some k ∧ (s.slot i).pending = true ∧ (s.slot i).loaded = false ∧ m = State.imageRead s.free (s.slot i).shadow (subMem s.bonded (s.slot i).img 204864)) ∧
    (∃ (s : State) (p : Fin 4) (q : Fin 4) (v : Word) (i : Nat), i = 4 * p.val + q.val ∧ s.answers 0 (State.slotOff i + 0x0C) = true ∧ bit v 30 = true ∧ (s.slot i).pending = true) :=
  ⟨⟨S1, (0 : Fin 4), (0 : Fin 4), v1, (4 * (0 : Fin 4).val + (0 : Fin 4).val : Nat), ((Option.get ((S1.slot (4 * (0 : Fin 4).val + (0 : Fin 4).val : Nat)).ctx) (by decide +kernel)) : Nat), (S1.reg64 (State.slotOff (4 * (0 : Fin 4).val + (0 : Fin 4).val : Nat) + 4) / 256 * 256 : Nat), by decide +kernel⟩,
   ⟨State.reset, (0 : Fin 4), (0 : Fin 4), v1, (4 * (0 : Fin 4).val + (0 : Fin 4).val : Nat), by decide +kernel⟩,
   ⟨(slo 0 (fun x => { x with pending := true }) S1), (0 : Fin 4), (0 : Fin 4), (4 * (0 : Fin 4).val + (0 : Fin 4).val : Nat), ((Option.get (((slo 0 (fun x => { x with pending := true }) S1).slot (4 * (0 : Fin 4).val + (0 : Fin 4).val : Nat)).ctx) (by decide +kernel)) : Nat), (State.imageRead (slo 0 (fun x => { x with pending := true }) S1).free ((slo 0 (fun x => { x with pending := true }) S1).slot (4 * (0 : Fin 4).val + (0 : Fin 4).val : Nat)).shadow (subMem (slo 0 (fun x => { x with pending := true }) S1).bonded ((slo 0 (fun x => { x with pending := true }) S1).slot (4 * (0 : Fin 4).val + (0 : Fin 4).val : Nat)).img 204864) : Mem), by decide +kernel⟩,
   ⟨(slo 0 (fun x => { x with pending := true }) S1), (0 : Fin 4), (0 : Fin 4), v17, (4 * (0 : Fin 4).val + (0 : Fin 4).val : Nat), by decide +kernel⟩⟩
end P06

namespace P07
def B : State := rings (dox (.polderCreate 1 0x80000000) (rg (pc 1 6) base0))
def task1 : TaskRun := { ctx := 3, job := 7, idx := 0, ops := 1 }
def eB : State := e1 { task1 with ops := 8, next := 1, startAt := some (base0.now - 5) } (cX B)
def op7 : OpEntry := { id := 5, eng := 1, ctx := 3, job := 7, task := 0, idx := 0, cls := .move }
def ops (l : List OpEntry) (s : State) : State := { s with ops := l }
def cf (f : OpEntry → OpEntry) (s : State) : State := ops [f op7] s
def g7 : OpEntry := { op7 with id := 6, idx := 1, cls := .gate, gateTo := some 4, reads := [{ space := .tile, addr := 16, len := 4 }] }
def B3 : State := rings (dox (.polderCreate 1 0x80000000) (rg (pc 1 14) base0))
def eF (v : Nat) (s : State) : State := rg [(State.eOff 1, BitVec.ofNat 32 v)] s
def wb : OpEntry := { op7 with block := some 3, met := false, reads := [{ space := .tile, addr := 0, len := 16 }], writes := [{ space := .tile, addr := 64, len := 16 }] }
/-- Hypotheses of `Obligations.SequencerSettings` met together, clause by clause. -/
theorem test_wit_SequencerSettings :
    (∃ (s : State) (e : Fin 6) (v : Word), s.answers 0 (State.eOff e) = true ∧ (s.engine e).resident = [] ∧ (bit v 8 = false ∨ (s.engine e).polder = none ∨ (∃ p ∈ (s.engine e).polder, ((s.polderEngines p).length ≤ 2)))) ∧
    (∃ (s : State) (e : Fin 6) (v : Word) (p : Nat), s.answers 0 (State.eOff e) = true ∧ (s.engine e).resident = [] ∧ bit v 8 = true ∧ (s.engine e).polder = some p ∧ 2 < (s.polderEngines p).length) ∧
    (∃ (s : State) (e : Fin 6) (v : Word), s.answers 0 (State.eOff e) = true ∧ (s.engine e).resident ≠ []) ∧
    (∃ (s : State) (i : Fin 2) (v : Word) (o : Nat), o = 0x268000 + 4 * i.val ∧ s.answers 0 o = true ∧ (s.flag o 31 = true → (∀ c x, (s.ctx c = some x → (x.polder = s.fld o 18 16 → x.resident = false)))) ∧ (∀ q ∈ s.ctxs, tget none s.ctxs q.1 = q.2) ∧ (bit v 31 = true → s.shareOk i v = true)) ∧
    (∃ (s : State) (i : Fin 2) (v : Word) (o : Nat), o = 0x268000 + 4 * i.val ∧ s.answers 0 o = true ∧ bit v 31 = true ∧ (6 ≤ bits v 18 16 ∨ bits v 11 0 % 64 ≠ 0 ∨ bits v 11 0 < 64 ∨ 2048 < bits v 11 0 ∨ 512 * (s.ownEngines (bits v 18 16)).length < bits v 11 0 ∨ (s.ownEngines (bits v 18 16)).length < 3)) :=
  ⟨⟨State.reset, (1 : Fin 6), (0 : Word), by decide +kernel⟩,
   ⟨B3, (1 : Fin 6), (0x100 : Word), ((Option.get ((B3.engine (1 : Fin 6)).polder) (by decide +kernel)) : Nat), by decide +kernel⟩,
   ⟨(B.setEngine 1 { B.engine 1 with resident := [3] }), (1 : Fin 6), (0 : Word), by decide +kernel⟩,
   ⟨State.reset, (0 : Fin 2), (0 : Word), (0x268000 + 4 * (0 : Fin 2).val : Nat), by decide +kernel, by decide +kernel, (fun h => absurd h (by decide +kernel)), by decide +kernel, by decide +kernel⟩,
   ⟨State.reset, (0 : Fin 2), (0x80010040 : Word), (0x268000 + 4 * (0 : Fin 2).val : Nat), by decide +kernel⟩⟩
/-- Hypotheses of `Obligations.TasksPlacedOperationsCompleteAndRetire` met together, clause by clause. -/
theorem test_wit_TasksPlacedOperationsCompleteAndRetire :
    (∃ (s : State) (p : Fin 6) (e : Nat) (rest : List Nat) (c : Nat) (x : Ctx) (r : TaskRun), s.serves = true ∧ s.vig.outOfService = false ∧ (s.polderEngines p).filter s.engineFree = e :: rest ∧ (s.engine e).task = none ∧ State.firstCtx (s.allCtxs.filter (fun y => s.offers p e y.1 y.2)) = some (c, x) ∧ s.nextTask c = some r) ∧
    (∃ (s : State) (id : Nat) (o : OpEntry), s.op id = some o ∧ o.complete = false ∧ o.met = true ∧ o.remote = false ∧ o.sig = none ∧ o.word = none ∧ o.block = none ∧ o.dig = false ∧ o.cls ∈ [OpClass.move, .matrix, .window, .vector, .digest, .fence]) ∧
    (∃ (s : State) (id : Nat), s.op id = none ∧ (∀ e, (e < 6 → (s.engine e).late.contains id = false))) ∧
    (∃ (s : State) (id : Nat) (o : OpEntry) (r : TaskRun), s.op id = some o ∧ s.mayRetire o = true ∧ o.fault ≠ 0 ∧ o.eng < 6 ∧ codeClass o.fault ≠ 1 ∧ codeChapter o.fault ≠ 0x90 ∧ codeChapter o.fault ≠ 0xA0 ∧ o.cls ≠ .culvert ∧ (s.engine o.eng).task = some r ∧ r.fail = 0) ∧
    (∃ (s : State) (id : Nat) (o : OpEntry) (r : TaskRun), s.op id = some o ∧ s.mayRetire o = true ∧ o.fault = 0 ∧ o.note = 0 ∧ o.vary = false ∧ o.prov = false ∧ o.check = none ∧ o.block = none ∧ o.cls ≠ .culvert ∧ o.eng < 6 ∧ (s.engine o.eng).task = some r ∧ r.fail = 0 ∧ r.next < r.ops) :=
  ⟨⟨((cX B).setEngine 1 { B.engine 1 with resident := [3] }), (1 : Fin 6), ((((((cX B).setEngine 1 { B.engine 1 with resident := [3] }).polderEngines (1 : Fin 6)).filter ((cX B).setEngine 1 { B.engine 1 with resident := [3] }).engineFree)[0]'(by decide +kernel)) : Nat), ((List.drop 1 ((((cX B).setEngine 1 { B.engine 1 with resident := [3] }).polderEngines (1 : Fin 6)).filter ((cX B).setEngine 1 { B.engine 1 with resident := [3] }).engineFree)) : List Nat), ((Prod.fst ((Option.get (State.firstCtx (((cX B).setEngine 1 { B.engine 1 with resident := [3] }).allCtxs.filter (fun y => ((cX B).setEngine 1 { B.engine 1 with resident := [3] }).offers (1 : Fin 6) ((((((cX B).setEngine 1 { B.engine 1 with resident := [3] }).polderEngines (1 : Fin 6)).filter ((cX B).setEngine 1 { B.engine 1 with resident := [3] }).engineFree)[0]'(by decide +kernel)) : Nat) y.1 y.2))) (by decide +kernel)))) : Nat), ((Prod.snd ((Option.get (State.firstCtx (((cX B).setEngine 1 { B.engine 1 with resident := [3] }).allCtxs.filter (fun y => ((cX B).setEngine 1 { B.engine 1 with resident := [3] }).offers (1 : Fin 6) ((((((cX B).setEngine 1 { B.engine 1 with resident := [3] }).polderEngines (1 : Fin 6)).filter ((cX B).setEngine 1 { B.engine 1 with resident := [3] }).engineFree)[0]'(by decide +kernel)) : Nat) y.1 y.2))) (by decide +kernel)))) : Ctx), ((Option.get (((cX B).setEngine 1 { B.engine 1 with resident := [3] }).nextTask ((Prod.fst ((Option.get (State.firstCtx (((cX B).setEngine 1 { B.engine 1 with resident := [3] }).allCtxs.filter (fun y => ((cX B).setEngine 1 { B.engine 1 with resident := [3] }).offers (1 : Fin 6) ((((((cX B).setEngine 1 { B.engine 1 with resident := [3] }).polderEngines (1 : Fin 6)).filter ((cX B).setEngine 1 { B.engine 1 with resident := [3] }).engineFree)[0]'(by decide +kernel)) : Nat) y.1 y.2))) (by decide +kernel)))) : Nat)) (by decide +kernel)) : TaskRun), by decide +kernel⟩,
   ⟨(cf id eB), (5 : Nat), ((Option.get ((cf id eB).op (5 : Nat)) (by decide +kernel)) : OpEntry), by decide +kernel⟩,
   ⟨State.reset, (0 : Nat), by decide +kernel⟩,
   ⟨(cf (fun o => { o with complete := true, fault := 0x6601 }) eB), (5 : Nat), ((Option.get ((cf (fun o => { o with complete := true, fault := 0x6601 }) eB).op (5 : Nat)) (by decide +kernel)) : OpEntry), ((Option.get (((cf (fun o => { o with complete := true, fault := 0x6601 }) eB).engine ((Option.get ((cf (fun o => { o with complete := true, fault := 0x6601 }) eB).op (5 : Nat)) (by decide +kernel)) : OpEntry).eng).task) (by decide +kernel)) : TaskRun), by decide +kernel⟩,
   ⟨(cf (fun o => { o with complete := true }) eB), (5 : Nat), ((Option.get ((cf (fun o => { o with complete := true }) eB).op (5 : Nat)) (by decide +kernel)) : OpEntry), ((Option.get (((cf (fun o => { o with complete := true }) eB).engine ((Option.get ((cf (fun o => { o with complete := true }) eB).op (5 : Nat)) (by decide +kernel)) : OpEntry).eng).task) (by decide +kernel)) : TaskRun), by decide +kernel⟩⟩
/-- Hypotheses of `Obligations.GatesTimingAndWaits` met together, clause by clause. -/
theorem test_wit_GatesTimingAndWaits :
    (∃ (s : State) (e : Fin 6) (g : OpEntry) (k : TaskRun) (r : Region) (rest : List Region), s.openGate e = some g ∧ (s.engine e).task = some k ∧ g.reads = r :: rest ∧ (s.engine e).stallFrom = none ∧ (∀ o ∈ s.ops, (o.id ≠ g.id → (o.ctx = g.ctx → (State.before o g = true → (o.complete = false → anyMeet true o.writes [r] = false))))) ∧ leNat (readBytes (s.engine e).tile r.addr 4) ≠ 0) ∧
    (∃ (s : State) (e : Fin 6) (g : OpEntry) (k : TaskRun) (r : Region) (rest : List Region), s.openGate e = some g ∧ (s.engine e).task = some k ∧ g.reads = r :: rest ∧ (s.engine e).stallFrom = none ∧ (∀ o ∈ s.ops, (o.id ≠ g.id → (o.ctx = g.ctx → (State.before o g = true → (o.complete = false → anyMeet true o.writes [r] = false))))) ∧ leNat (readBytes (s.engine e).tile r.addr 4) = 0 ∧ (∀ o ∈ s.ops, (o.eng = e.val → o.spec = false))) ∧
    (∃ (s : State) (e : Fin 6) (stall : Nat) (k : TaskRun), (s.engine e).task = some k ∧ s.flag (State.eOff e) 4 = true) ∧
    (∃ (s : State) (e : Fin 6) (stall : Nat), s.flag (State.eOff e) 4 = false) ∧
    (∃ (s : State) (e : Fin 6) (k : TaskRun) (a : Nat), (s.engine e).task = some k ∧ k.overBound = false ∧ k.startAt = some a ∧ 240000 ≤ s.engCycles e (s.now - a)) ∧
    (∃ (s : State) (e : Fin 6) (k : TaskRun) (a : Nat), (s.engine e).task = some k ∧ k.hungPosted = false ∧ k.startAt = some a ∧ 480000 + s.engCycles e (s.waitedNs e k) ≤ s.engCycles e (s.now - a) ∧ s.freeze = false ∧ s.absorbed_ (.engine e) = false ∧ s.vig.orders = []) ∧
    (∃ (s : State) (e : Fin 6), s.freeze = false ∧ s.absorbed_ (.engine e) = false ∧ s.vig.orders = []) ∧
    (∃ (s : State) (e : Fin 6) (o : OpEntry) (b : Nat) (r : Region) (rest : List Region) (d : List Byte), s.openWaitBlock e = some o ∧ o.block = some b ∧ o.reads = r :: rest ∧ s.readRegion e o.ctx (s.taskRecipe o.ctx o.job) r = some d ∧ leNat ((d.drop 4).take 6) = b) ∧
    (∃ (s : State) (c : Fin 64) (o : OpEntry) (lim : Nat) (k : TaskRun), s.ops.find? (fun z => decide (z.ctx = c.val) && decide (z.cls = .wait) && !z.complete) = some o ∧ o.until_ = some lim ∧ lim ≤ s.now ∧ s.waitMet o = false ∧ o.eng < 6 ∧ (s.engine o.eng).task = some k ∧ k.fail = 0) :=
  ⟨⟨(ops [g7] (tl 16 [1] eB)), (1 : Fin 6), ((Option.get ((ops [g7] (tl 16 [1] eB)).openGate (1 : Fin 6)) (by decide +kernel)) : OpEntry), ((Option.get (((ops [g7] (tl 16 [1] eB)).engine (1 : Fin 6)).task) (by decide +kernel)) : TaskRun), (((((Option.get ((ops [g7] (tl 16 [1] eB)).openGate (1 : Fin 6)) (by decide +kernel)) : OpEntry).reads)[0]'(by decide +kernel)) : Region), ((List.drop 1 (((Option.get ((ops [g7] (tl 16 [1] eB)).openGate (1 : Fin 6)) (by decide +kernel)) : OpEntry).reads)) : List Region), by decide +kernel⟩,
   ⟨(ops [g7] eB), (1 : Fin 6), ((Option.get ((ops [g7] eB).openGate (1 : Fin 6)) (by decide +kernel)) : OpEntry), ((Option.get (((ops [g7] eB).engine (1 : Fin 6)).task) (by decide +kernel)) : TaskRun), (((((Option.get ((ops [g7] eB).openGate (1 : Fin 6)) (by decide +kernel)) : OpEntry).reads)[0]'(by decide +kernel)) : Region), ((List.drop 1 (((Option.get ((ops [g7] eB).openGate (1 : Fin 6)) (by decide +kernel)) : OpEntry).reads)) : List Region), by decide +kernel⟩,
   ⟨(eF 0x10 eB), (1 : Fin 6), (0 : Nat), ((Option.get (((eF 0x10 eB).engine (1 : Fin 6)).task) (by decide +kernel)) : TaskRun), by decide +kernel⟩,
   ⟨State.reset, (1 : Fin 6), (0 : Nat), by decide +kernel⟩,
   ⟨(tk (fun t => { t with startAt := some 5 }) eB), (1 : Fin 6), ((Option.get (((tk (fun t => { t with startAt := some 5 }) eB).engine (1 : Fin 6)).task) (by decide +kernel)) : TaskRun), ((Option.get (((Option.get (((tk (fun t => { t with startAt := some 5 }) eB).engine (1 : Fin 6)).task) (by decide +kernel)) : TaskRun).startAt) (by decide +kernel)) : Nat), by decide +kernel⟩,
   ⟨(tk (fun t => { t with startAt := some 5 }) eB), (1 : Fin 6), ((Option.get (((tk (fun t => { t with startAt := some 5 }) eB).engine (1 : Fin 6)).task) (by decide +kernel)) : TaskRun), ((Option.get (((Option.get (((tk (fun t => { t with startAt := some 5 }) eB).engine (1 : Fin 6)).task) (by decide +kernel)) : TaskRun).startAt) (by decide +kernel)) : Nat), by decide +kernel⟩,
   ⟨State.reset, (1 : Fin 6), by decide +kernel⟩,
   ⟨(ops [wb] (tl 4 [3] eB)), (1 : Fin 6), ((Option.get ((ops [wb] (tl 4 [3] eB)).openWaitBlock (1 : Fin 6)) (by decide +kernel)) : OpEntry), ((Option.get (((Option.get ((ops [wb] (tl 4 [3] eB)).openWaitBlock (1 : Fin 6)) (by decide +kernel)) : OpEntry).block) (by decide +kernel)) : Nat), (((((Option.get ((ops [wb] (tl 4 [3] eB)).openWaitBlock (1 : Fin 6)) (by decide +kernel)) : OpEntry).reads)[0]'(by decide +kernel)) : Region), ((List.drop 1 (((Option.get ((ops [wb] (tl 4 [3] eB)).openWaitBlock (1 : Fin 6)) (by decide +kernel)) : OpEntry).reads)) : List Region), ((Option.get ((ops [wb] (tl 4 [3] eB)).readRegion (1 : Fin 6) ((Option.get ((ops [wb] (tl 4 [3] eB)).openWaitBlock (1 : Fin 6)) (by decide +kernel)) : OpEntry).ctx ((ops [wb] (tl 4 [3] eB)).taskRecipe ((Option.get ((ops [wb] (tl 4 [3] eB)).openWaitBlock (1 : Fin 6)) (by decide +kernel)) : OpEntry).ctx ((Option.get ((ops [wb] (tl 4 [3] eB)).openWaitBlock (1 : Fin 6)) (by decide +kernel)) : OpEntry).job) (((((Option.get ((ops [wb] (tl 4 [3] eB)).openWaitBlock (1 : Fin 6)) (by decide +kernel)) : OpEntry).reads)[0]'(by decide +kernel)) : Region)) (by decide +kernel)) : List Byte), by decide +kernel⟩,
   ⟨(cf (fun o => { o with met := false, cls := .wait, word := some ({ space := .bonded, addr := 64, len := 8 }, 9), until_ := some 5 }) eB), (3 : Fin 64), ((Option.get ((cf (fun o => { o with met := false, cls := .wait, word := some ({ space := .bonded, addr := 64, len := 8 }, 9), until_ := some 5 }) eB).ops.find? (fun z => decide (z.ctx = (3 : Fin 64).val) && decide (z.cls = .wait) && !z.complete)) (by decide +kernel)) : OpEntry), ((Option.get (((Option.get ((cf (fun o => { o with met := false, cls := .wait, word := some ({ space := .bonded, addr := 64, len := 8 }, 9), until_ := some 5 }) eB).ops.find? (fun z => decide (z.ctx = (3 : Fin 64).val) && decide (z.cls = .wait) && !z.complete)) (by decide +kernel)) : OpEntry).until_) (by decide +kernel)) : Nat), ((Option.get (((cf (fun o => { o with met := false, cls := .wait, word := some ({ space := .bonded, addr := 64, len := 8 }, 9), until_ := some 5 }) eB).engine ((Option.get ((cf (fun o => { o with met := false, cls := .wait, word := some ({ space := .bonded, addr := 64, len := 8 }, 9), until_ := some 5 }) eB).ops.find? (fun z => decide (z.ctx = (3 : Fin 64).val) && decide (z.cls = .wait) && !z.complete)) (by decide +kernel)) : OpEntry).eng).task) (by decide +kernel)) : TaskRun), by decide +kernel⟩⟩
end P07

namespace P08
def B : State := rings (dox (.polderCreate 1 0x80000000) (rg (pc 1 6) base0))
def task1 : TaskRun := { ctx := 3, job := 7, idx := 0, ops := 1 }
def eB : State := e1 { task1 with ops := 8, next := 1, startAt := some (base0.now - 5) } (cX B)
def hb : OpHdr := { eng := 1, ctx := 3, afmt := .fp32, ofmt := .fp32, reads := [{ space := .tile, addr := 0, len := 12 }, { space := .tile, addr := 16, len := 12 }, { space := .tile, addr := 32, len := 12 }], writes := [{ space := .tile, addr := 64, len := 12 }] }
def ops (l : List OpEntry) (s : State) : State := { s with ops := l }
def fl32 : List Byte := [0x3F800000, 0xC0490FDB, 0x40000000, 0, 0x41200000, 0x7F800000, 0x80000000, 0x3F000000, 5].flatMap (fun x => leBytes 4 x)
def T1 : State := tl 32 fl32 (tl 16 (fl32.drop 4) (tl 0 fl32 eB))
/-- Hypotheses of `Obligations.PlainOperationsIssue` met together, clause by clause. -/
theorem test_wit_PlainOperationsIssue :
    (∃ (s : State) (h : OpHdr), s.mayIssue h .move 0 = true) ∧
    (∃ (s : State) (h : OpHdr), s.issueMode h .move 0 = none) ∧
    (∃ (s : State) (h : OpHdr), (s.issueMode h .move 0).isSome = true ∧ h.reads.any (s.readsEmpty h.eng h.ctx) = false ∧ s.regionsOk h (s.opRecipe h) = false) ∧
    (∃ (s : State) (h : OpHdr), (s.issueMode h .move 0).isSome = true ∧ h.reads.any (s.readsEmpty h.eng h.ctx) = false ∧ s.regionsOk h (s.opRecipe h) = true ∧ (s.eccHits h).any (·.bad) = true) ∧
    (∃ (s : State) (h : OpHdr), (s.issueMode h .move 0).isSome = true ∧ h.reads.any (s.readsEmpty h.eng h.ctx) = true) ∧
    (∃ (s : State) (h : OpHdr) (n : Nat), s.mayIssue h .move 1 = true) ∧
    (∃ (s : State) (h : OpHdr) (w : Region) (x : Ctx), s.mayIssue h .digest 0 = true ∧ h.writes = [w] ∧ s.ctx h.ctx = some x) ∧
    (∃ (s : State) (h : OpHdr), s.mayIssue h .digest 1 = true) ∧
    (∃ (s : State) (h : OpHdr) (target : Fin 65) (k : TaskRun), (s.engine h.eng).task = some k ∧ k.next < target.val ∧ target.val ≤ k.ops ∧ s.mayIssue h .gate 0 = true) ∧
    (∃ (s : State) (h : OpHdr) (target : Fin 65) (k : TaskRun), (s.engine h.eng).task = some k ∧ (target.val ≤ k.next ∨ k.ops < target.val)) ∧
    (∃ (s : State) (h : OpHdr) (scope : Fin 4), s.mayIssue h .fence scope = true) ∧
    (∃ (s : State) (h : OpHdr) (word : Region) (th : DWord) (us : Nat), s.mayIssue h .wait 0 = true ∧ word.addr % 8 = 0 ∧ us ≤ 65535 ∧ (s.localAt (s.polderOf h.ctx) { word with len := 8 }).isSome = true) ∧
    (∃ (s : State) (h : OpHdr) (word : Region) (th : DWord) (us : Nat), (s.issueMode h .wait 0).isSome = true ∧ h.reads.any (s.readsEmpty h.eng h.ctx) = false ∧ s.regionsOk h (s.opRecipe h) = true ∧ (s.eccHits h).isEmpty = true ∧ word.addr % 8 = 0 ∧ us ≤ 65535 ∧ s.localAt (s.polderOf h.ctx) { word with len := 8 } = none) :=
  ⟨⟨eB, hb, by decide +kernel⟩,
   ⟨base0, hb, by decide +kernel⟩,
   ⟨eB, ({ hb with reads := [{ space := .tile, addr := 0x5FFFFF, len := 12 }] }), by decide +kernel⟩,
   ⟨({ T1 with ecc := [{ kind := 1, word := 1, bad := true }] }), hb, by decide +kernel⟩,
   ⟨({ T1 with empties := [{ op := 2, kind := 1, addr := 0, len := 12, empty := true }] }), hb, by decide +kernel⟩,
   ⟨eB, hb, (0 : Nat), by decide +kernel⟩,
   ⟨eB, hb, (((hb.writes)[0]'(by decide +kernel)) : Region), ((Option.get (eB.ctx hb.ctx) (by decide +kernel)) : Ctx), by decide +kernel⟩,
   ⟨eB, hb, by decide +kernel⟩,
   ⟨eB, hb, (2 : Fin 65), ((Option.get ((eB.engine hb.eng).task) (by decide +kernel)) : TaskRun), by decide +kernel⟩,
   ⟨eB, hb, (0 : Fin 65), ((Option.get ((eB.engine hb.eng).task) (by decide +kernel)) : TaskRun), by decide +kernel⟩,
   ⟨eB, hb, (0 : Fin 4), by decide +kernel⟩,
   ⟨(tk (fun t => { t with next := 0, startAt := none }) eB), hb, ({ space := .bonded, addr := 64, len := 8 }), (5 : DWord), (0 : Nat), by decide +kernel⟩,
   ⟨(tk (fun t => { t with next := 0, startAt := none }) eB), hb, ({ space := .tile, addr := 64, len := 8 }), (5 : DWord), (0 : Nat), by decide +kernel⟩⟩
/-- Hypotheses of `Obligations.VectorElementOperations` met together, clause by clause. -/
theorem test_wit_VectorElementOperations :
    (∃ (s : State) (h : OpHdr) (w : Region) (x : List Nat) (y : List Nat) (z : List Nat), s.mayIssue h .vector (0) = true ∧ h.writes = [w] ∧ x = rawsOf h.afmt (s.opRead h 0) ∧ y = rawsOf h.afmt (s.opRead h 1) ∧ z = rawsOf h.afmt (s.opRead h 2) ∧ h.afmt ≠ .int32) ∧
    (∃ (s : State) (h : OpHdr) (w : Region) (x : List Nat) (y : List Nat) (z : List Nat), s.mayIssue h .vector (0) = true ∧ h.writes = [w] ∧ x = rawsOf h.afmt (s.opRead h 0) ∧ y = rawsOf h.afmt (s.opRead h 1) ∧ z = rawsOf h.afmt (s.opRead h 2) ∧ h.afmt = .int32) ∧
    (∃ (s : State) (h : OpHdr) (w : Region) (x : List Nat) (y : List Nat) (z : List Nat), s.mayIssue h .vector (0) = true ∧ h.afmt = .int32 ∧ h.writes = [w] ∧ x = raw32 (s.opRead h 0) ∧ y = raw32 (s.opRead h 1) ∧ z = raw32 (s.opRead h 2)) ∧
    (∃ (s : State) (h : OpHdr) (w : Region) (x : List Nat) (y : List Nat), s.mayIssue h .vector (0x0E) = true ∧ h.writes = [w] ∧ x = raw32 (s.opRead h 0) ∧ y = raw32 (s.opRead h 1)) :=
  ⟨⟨eB, hb, (((hb.writes)[0]'(by decide +kernel)) : Region), (rawsOf hb.afmt (eB.opRead hb 0) : List Nat), (rawsOf hb.afmt (eB.opRead hb 1) : List Nat), (rawsOf hb.afmt (eB.opRead hb 2) : List Nat), by decide +kernel⟩,
   ⟨eB, ({ hb with afmt := .int32, ofmt := .int32 }), (((({ hb with afmt := .int32, ofmt := .int32 }).writes)[0]'(by decide +kernel)) : Region), (rawsOf ({ hb with afmt := .int32, ofmt := .int32 }).afmt (eB.opRead ({ hb with afmt := .int32, ofmt := .int32 }) 0) : List Nat), (rawsOf ({ hb with afmt := .int32, ofmt := .int32 }).afmt (eB.opRead ({ hb with afmt := .int32, ofmt := .int32 }) 1) : List Nat), (rawsOf ({ hb with afmt := .int32, ofmt := .int32 }).afmt (eB.opRead ({ hb with afmt := .int32, ofmt := .int32 }) 2) : List Nat), by decide +kernel⟩,
   ⟨eB, ({ hb with afmt := .int32, ofmt := .int32 }), (((({ hb with afmt := .int32, ofmt := .int32 }).writes)[0]'(by decide +kernel)) : Region), (raw32 (eB.opRead ({ hb with afmt := .int32, ofmt := .int32 }) 0) : List Nat), (raw32 (eB.opRead ({ hb with afmt := .int32, ofmt := .int32 }) 1) : List Nat), (raw32 (eB.opRead ({ hb with afmt := .int32, ofmt := .int32 }) 2) : List Nat), by decide +kernel⟩,
   ⟨eB, hb, (((hb.writes)[0]'(by decide +kernel)) : Region), (raw32 (eB.opRead hb 0) : List Nat), (raw32 (eB.opRead hb 1) : List Nat), by decide +kernel⟩⟩
/-- Hypotheses of `Obligations.VectorConversionsReductionsAndQuantisers` met together, clause by clause. -/
theorem test_wit_VectorConversionsReductionsAndQuantisers :
    (∃ (s : State) (h : OpHdr) (w : Region) (x : List Nat), h.writes = [w] ∧ x = rawsOf h.afmt (s.opRead h 0) ∧ s.mayIssue h .vector 0x0C = true) ∧
    (∃ (s : State) (h : OpHdr) (w : Region) (x : List Nat), h.writes = [w] ∧ x = rawsOf h.afmt (s.opRead h 0) ∧ s.mayIssue h .vector 0x0D = true) ∧
    (∃ (s : State) (h : OpHdr) (w : Region) (x : List Nat) (op : CmpOp) (v : Word), h.writes = [w] ∧ x = rawsOf h.afmt (s.opRead h 0) ∧ s.mayIssue h .vector 0x16 = true) ∧
    (∃ (s : State) (h : OpHdr) (w : Region) (x : List Nat) (sc : Word) (zp : Int) (input : Bool) (k : Nat) (excl : List Nat), h.writes = [w] ∧ x = rawsOf h.afmt (s.opRead h 0) ∧ s.mayIssue h .vector 0x12 = true ∧ zpOk h.ofmt zp = true ∧ outliersOk k excl = true) ∧
    (∃ (s : State) (h : OpHdr) (w : Region) (x : List Nat) (limit : Fin 65536) (m : CheckMask), h.writes = [w] ∧ x = rawsOf h.afmt (s.opRead h 0) ∧ s.mayIssue h .vector 0x15 = true) ∧
    (∃ (s : State) (h : OpHdr) (w : Region) (x : List Nat) (n : Nat) (r : Nat) (y : Recipe), h.writes = [w] ∧ x = rawsOf h.afmt (s.opRead h 0) ∧ s.mayIssue h .vector 0x17 = true ∧ s.opRecipe h = some r ∧ s.recipe r = some y ∧ h.ofmt = .int32) ∧
    (∃ (s : State) (h : OpHdr) (w : Region) (x : List Nat) (n : Nat) (r : Nat) (y : Recipe), h.writes = [w] ∧ x = rawsOf h.afmt (s.opRead h 0) ∧ s.mayIssue h .vector 0x17 = true ∧ s.opRecipe h = some r ∧ s.recipe r = some y ∧ h.ofmt = .fp32) ∧
    (∃ (s : State) (h : OpHdr) (w : Region), s.mayIssue h .vector 0x10 = true ∧ h.writes = [w]) ∧
    (∃ (s : State) (h : OpHdr) (w : Region), s.mayIssue h .vector 0x11 = true ∧ h.writes = [w]) ∧
    (∃ (s : State) (h : OpHdr) (excl : List Nat) (w1 : Region) (w2 : Region) (x : List Word) (m : Nat), s.mayIssue h .vector 0x13 = true ∧ h.writes = [w1, w2] ∧ h.ofmt ∈ [Fmt.int4, Fmt.int8, Fmt.int16] ∧ outliersOk (rowLenOf h 4) excl = true ∧ x = (rawsOf h.afmt (s.opRead h 0)).map (word32 h.afmt) ∧ m = max 1 (w2.len / 4)) ∧
    (∃ (s : State) (h : OpHdr) (excl : List Nat) (w1 : Region) (w2 : Region) (x : List Word) (m : Nat), s.mayIssue h .vector 0x14 = true ∧ h.writes = [w1, w2] ∧ outliersOk (rowLenOf h 5) excl = true ∧ x = (rawsOf h.afmt (s.opRead h 0)).map (word32 h.afmt) ∧ m = max 1 (w2.len / 5)) ∧
    (∃ (s : State) (h : OpHdr) (sc : Word) (zp : Int) (input : Bool) (k : Nat) (excl : List Nat), (zpOk h.ofmt zp = false ∨ outliersOk k excl = false)) ∧
    (∃ (s : State) (h : OpHdr) (sc : Word) (zp : Int) (input : Bool) (k : Nat) (excl : List Nat), outliersOk (rowLenOf h 4) excl = false) ∧
    (∃ (s : State) (h : OpHdr) (sc : Word) (zp : Int) (input : Bool) (k : Nat) (excl : List Nat), outliersOk (rowLenOf h 5) excl = false) ∧
    (∃ (s : State) (h : OpHdr) (n : Nat), h.ofmt ≠ .fp32 ∧ h.ofmt ≠ .int32) :=
  ⟨⟨eB, hb, (((hb.writes)[0]'(by decide +kernel)) : Region), (rawsOf hb.afmt (eB.opRead hb 0) : List Nat), by decide +kernel⟩,
   ⟨eB, hb, (((hb.writes)[0]'(by decide +kernel)) : Region), (rawsOf hb.afmt (eB.opRead hb 0) : List Nat), by decide +kernel⟩,
   ⟨eB, hb, (((hb.writes)[0]'(by decide +kernel)) : Region), (rawsOf hb.afmt (eB.opRead hb 0) : List Nat), .eq, (0x3F800000 : Word), by decide +kernel⟩,
   ⟨eB, hb, (((hb.writes)[0]'(by decide +kernel)) : Region), (rawsOf hb.afmt (eB.opRead hb 0) : List Nat), (0x3F800000 : Word), (0 : Int), false, (0 : Nat), [], by decide +kernel⟩,
   ⟨eB, hb, (((hb.writes)[0]'(by decide +kernel)) : Region), (rawsOf hb.afmt (eB.opRead hb 0) : List Nat), (0 : Fin 65536), ({ inn := true, acc := true, out := true }), by decide +kernel⟩,
   ⟨(T1.putRecipe 0x20000 { seed := 99 }), ({ hb with afmt := .int32, ofmt := .int32 }), (((({ hb with afmt := .int32, ofmt := .int32 }).writes)[0]'(by decide +kernel)) : Region), (rawsOf ({ hb with afmt := .int32, ofmt := .int32 }).afmt ((T1.putRecipe 0x20000 { seed := 99 }).opRead ({ hb with afmt := .int32, ofmt := .int32 }) 0) : List Nat), (0 : Nat), ((Option.get ((T1.putRecipe 0x20000 { seed := 99 }).opRecipe ({ hb with afmt := .int32, ofmt := .int32 })) (by decide +kernel)) : Nat), ((Option.get ((T1.putRecipe 0x20000 { seed := 99 }).recipe ((Option.get ((T1.putRecipe 0x20000 { seed := 99 }).opRecipe ({ hb with afmt := .int32, ofmt := .int32 })) (by decide +kernel)) : Nat)) (by decide +kernel)) : Recipe), by decide +kernel⟩,
   ⟨(T1.putRecipe 0x20000 { seed := 99 }), hb, (((hb.writes)[0]'(by decide +kernel)) : Region), (rawsOf hb.afmt ((T1.putRecipe 0x20000 { seed := 99 }).opRead hb 0) : List Nat), (0 : Nat), ((Option.get ((T1.putRecipe 0x20000 { seed := 99 }).opRecipe hb) (by decide +kernel)) : Nat), ((Option.get ((T1.putRecipe 0x20000 { seed := 99 }).recipe ((Option.get ((T1.putRecipe 0x20000 { seed := 99 }).opRecipe hb) (by decide +kernel)) : Nat)) (by decide +kernel)) : Recipe), by decide +kernel⟩,
   ⟨eB, hb, (((hb.writes)[0]'(by decide +kernel)) : Region), by decide +kernel⟩,
   ⟨eB, hb, (((hb.writes)[0]'(by decide +kernel)) : Region), by decide +kernel⟩,
   ⟨eB, ({ hb with ofmt := .int8, writes := [{ space := .tile, addr := 64, len := 3 }, { space := .tile, addr := 80, len := 4 }] }), [], (((({ hb with ofmt := .int8, writes := [{ space := .tile, addr := 64, len := 3 }, { space := .tile, addr := 80, len := 4 }] }).writes)[0]'(by decide +kernel)) : Region), (((({ hb with ofmt := .int8, writes := [{ space := .tile, addr := 64, len := 3 }, { space := .tile, addr := 80, len := 4 }] }).writes)[1]'(by decide +kernel)) : Region), ((rawsOf ({ hb with ofmt := .int8, writes := [{ space := .tile, addr := 64, len := 3 }, { space := .tile, addr := 80, len := 4 }] }).afmt (eB.opRead ({ hb with ofmt := .int8, writes := [{ space := .tile, addr := 64, len := 3 }, { space := .tile, addr := 80, len := 4 }] }) 0)).map (word32 ({ hb with ofmt := .int8, writes := [{ space := .tile, addr := 64, len := 3 }, { space := .tile, addr := 80, len := 4 }] }).afmt) : List Word), (max 1 ((((({ hb with ofmt := .int8, writes := [{ space := .tile, addr := 64, len := 3 }, { space := .tile, addr := 80, len := 4 }] }).writes)[1]'(by decide +kernel)) : Region).len / 4) : Nat), by decide +kernel⟩,
   ⟨eB, ({ hb with ofmt := .int8, writes := [{ space := .tile, addr := 64, len := 3 }, { space := .tile, addr := 80, len := 4 }] }), [], (((({ hb with ofmt := .int8, writes := [{ space := .tile, addr := 64, len := 3 }, { space := .tile, addr := 80, len := 4 }] }).writes)[0]'(by decide +kernel)) : Region), (((({ hb with ofmt := .int8, writes := [{ space := .tile, addr := 64, len := 3 }, { space := .tile, addr := 80, len := 4 }] }).writes)[1]'(by decide +kernel)) : Region), ((rawsOf ({ hb with ofmt := .int8, writes := [{ space := .tile, addr := 64, len := 3 }, { space := .tile, addr := 80, len := 4 }] }).afmt (eB.opRead ({ hb with ofmt := .int8, writes := [{ space := .tile, addr := 64, len := 3 }, { space := .tile, addr := 80, len := 4 }] }) 0)).map (word32 ({ hb with ofmt := .int8, writes := [{ space := .tile, addr := 64, len := 3 }, { space := .tile, addr := 80, len := 4 }] }).afmt) : List Word), (max 1 ((((({ hb with ofmt := .int8, writes := [{ space := .tile, addr := 64, len := 3 }, { space := .tile, addr := 80, len := 4 }] }).writes)[1]'(by decide +kernel)) : Region).len / 5) : Nat), by decide +kernel⟩,
   ⟨base0, hb, (0x3F800000 : Word), (0 : Int), false, (0 : Nat), [1], by decide +kernel⟩,
   ⟨base0, hb, (0x3F800000 : Word), (0 : Int), false, (0 : Nat), [9999], by decide +kernel⟩,
   ⟨base0, hb, (0x3F800000 : Word), (0 : Int), false, (0 : Nat), [9999], by decide +kernel⟩,
   ⟨base0, ({ hb with ofmt := .int8, layer := 3, dig := true }), (0 : Nat), by decide +kernel⟩⟩
end P08

namespace P09a
def B : State := rings (dox (.polderCreate 1 0x80000000) (rg (pc 1 6) base0))
def task1 : TaskRun := { ctx := 3, job := 7, idx := 0, ops := 1 }
def eB : State := e1 { task1 with ops := 8, next := 1, startAt := some (base0.now - 5) } (cX B)
def hb : OpHdr := { eng := 1, ctx := 3, afmt := .int8, wfmt := .int8, ofmt := .fp32, reads := [reg 0 12, reg 0x40 12, reg 0x80 24], writes := [reg 0x200 64] }
def hbf : OpHdr := { hb with afmt := .bf16, wfmt := .bf16, reads := [reg 0 24, reg 0x40 24, reg 0x80 8] }
def h8 : OpHdr := { hb with ofmt := .int8 }
def hl : OpHdr := { hb with afmt := .uint8, ofmt := .uint8, writes := [reg 0x200 24, reg 0x300 64] }
def m0 : MatParams := { m := 3, k := 4, n := 2, quant := .static 0x3F000000 0, group := 0 }
def m1 : MatParams := { m0 with quant := .static 0x3D000000 1, wzp := 2 }
def w0 : WinParams := { h := 3, w := 2, c := 2, kh := 1, kw := 1, mat := m0 }
def wp : WinParams := { h := 3, w := 4, c := 1, kh := 2, kw := 2, mat := m0 }
/-- Hypotheses of `Obligations.MatrixAndWindowResults` met together, clause by clause. -/
theorem test_wit_MatrixAndWindowResults :
    (∃ (s : State) (h : OpHdr) (p : MatParams) (sx : Word) (zx : Int) (w : Region), s.mayIssue h .matrix 0 = true ∧ matLoadCode h p (s.inWide h) (s.loadBytes h) = none ∧ h.writes = [w] ∧ h.afmt = .int8 ∧ h.wfmt = .int8 ∧ h.ofmt = .fp32 ∧ p.quant = .static sx zx ∧ p.group = 0 ∧ p.escape = false ∧ p.outliers = [] ∧ (raw32 ((s.opRead h 2).take (4 * p.n))).length = p.n) ∧
    (∃ (a : List Int) (b : List Int), (∀ n, (n ≤ a.length → (-(2 ^ 31) ≤ ((List.zipWith (· * ·) a b).take n).sum ∧ ((List.zipWith (· * ·) a b).take n).sum ≤ 2 ^ 31 - 1)))) ∧
    (∃ (s : State) (h : OpHdr) (p : MatParams) (w : Region), s.mayIssue h .matrix 0 = true ∧ matLoadCode h p (s.inWide h) (s.loadBytes h) = none ∧ h.writes = [w] ∧ h.afmt = .bf16 ∧ h.wfmt = .bf16 ∧ h.ofmt = .fp32) ∧
    (∃ (s : State) (h : OpHdr) (p : MatParams), (matLoadCode h p (s.inWide h) (s.loadBytes h)).isSome = true) ∧
    (∃ (s : State) (h : OpHdr) (p : WinParams) (w : Region) (q : SegRows), h.writes = [w] ∧ q = s.segRows h p ∧ s.mayIssue h .window (WinOp.conv).code = true ∧ winLoadCode h (.conv) p (s.inWide h) (s.loadBytes h) = none) ∧
    (∃ (s : State) (h : OpHdr) (p : WinParams) (w : Region) (q : SegRows), h.writes = [w] ∧ q = s.segRows h p ∧ (winLoadCode h (.conv) p (s.inWide h) (s.loadBytes h)).isSome = true) ∧
    (∃ (s : State) (h : OpHdr) (p : WinParams) (sx : Word) (zx : Int) (w : Region) (oh : Nat) (ow : Nat) (k : Nat), s.mayIssue h .window 0 = true ∧ winLoadCode h .conv p (s.inWide h) (s.loadBytes h) = none ∧ h.writes = [w] ∧ h.afmt = .int8 ∧ h.wfmt = .int8 ∧ h.ofmt = .fp32 ∧ p.mat.quant = .static sx zx ∧ p.mat.group = 0 ∧ p.mat.escape = false ∧ p.mat.outliers = [] ∧ p.g = 1 ∧ p.pad.val = 0 ∧ p.stream = false ∧ p.tensor = none ∧ winEmpty (wholeRows p) p = false ∧ oh = outSize p.h p.kh p.sh p.dh p.pt p.pb ∧ ow = outSize p.w p.kw p.sw p.dw p.pl p.pr ∧ k = p.kh * p.kw * p.c ∧ (s.opRead h 0).length = p.h * p.w * p.c ∧ (raw32 ((s.opRead h 2).take (4 * p.mat.n))).length = p.mat.n) ∧
    (∃ (s : State) (h : OpHdr) (p : WinParams), s.mayIssue h .window 0 = true ∧ s.mayIssue h .matrix 0 = true ∧ winLoadCode h .conv p (s.inWide h) (s.loadBytes h) = none ∧ p.kh = 1 ∧ p.kw = 1 ∧ p.sh = 1 ∧ p.sw = 1 ∧ p.g = 1 ∧ p.pt = 0 ∧ p.pb = 0 ∧ p.pl = 0 ∧ p.pr = 0 ∧ p.stream = false ∧ p.tensor = none ∧ 0 < p.h ∧ 0 < p.w ∧ 0 < p.c ∧ (rawsOf h.afmt (s.opRead h 0)).length = p.h * p.w * p.c) ∧
    (∃ (s : State) (h : OpHdr) (p : WinParams), s.mayIssue h .window 0 = true ∧ s.mayIssue h .window 1 = true ∧ winLoadCode h .conv p (s.inWide h) (s.loadBytes h) = none ∧ winLoadCode h .dwconv p (s.inWide h) (s.loadBytes h) = none) ∧
    (∃ (s : State) (h : OpHdr) (p : WinParams) (w : Region) (oh : Nat) (ow : Nat), s.mayIssue h .window (WinOp.maxpool).code = true ∧ winLoadCode h (.maxpool) p (s.inWide h) (s.loadBytes h) = none ∧ winEmpty (wholeRows p) p = false ∧ h.writes = [w] ∧ h.afmt = .int8 ∧ p.pt = 0 ∧ p.pb = 0 ∧ p.pl = 0 ∧ p.pr = 0 ∧ p.stream = false ∧ p.tensor = none ∧ oh = outSize p.h p.kh p.sh p.dh 0 0 ∧ ow = outSize p.w p.kw p.sw p.dw 0 0 ∧ (s.opRead h 0).length = p.h * p.w * p.c) ∧
    (∃ (s : State) (h : OpHdr) (p : WinParams) (w : Region) (oh : Nat) (ow : Nat), s.mayIssue h .window 4 = true ∧ winLoadCode h .avgpool p (s.inWide h) (s.loadBytes h) = none ∧ winEmpty (wholeRows p) p = false ∧ h.writes = [w] ∧ h.afmt = .int8 ∧ h.ofmt = .int8 ∧ p.mat.outScale = none ∧ p.pt = 0 ∧ p.pb = 0 ∧ p.pl = 0 ∧ p.pr = 0 ∧ p.stream = false ∧ p.tensor = none ∧ oh = outSize p.h p.kh p.sh p.dh 0 0 ∧ ow = outSize p.w p.kw p.sw p.dw 0 0 ∧ (s.opRead h 0).length = p.h * p.w * p.c) ∧
    (∃ (s : State) (h : OpHdr) (p : WinParams), s.mayIssue h .window 5 = true ∧ winLoadCode h .label p (s.inWide h) (s.loadBytes h) = none ∧ (p.h = 0 ∨ p.w = 0)) ∧
    (∃ (s : State) (h : OpHdr) (p : WinParams) (w0 : Region) (w1 : Region) (st : Nat), s.mayIssue h .window 5 = true ∧ winLoadCode h .label p (s.inWide h) (s.loadBytes h) = none ∧ 0 < p.h ∧ 0 < p.w ∧ p.tensor = none ∧ h.writes = [w0, w1] ∧ p.h * p.w ≤ (s.opRead h 0).length ∧ st = (if p.stripe = 0 then p.w else p.stripe)) ∧
    (∃ (s : State) (h : OpHdr) (p : WinParams), (winLoadCode h .label p (s.inWide h) (s.loadBytes h)).isSome = true) :=
  ⟨⟨eB, hb, m0, (0x3F000000 : Word), (0 : Int), (((hb.writes)[0]'(by decide +kernel)) : Region), by decide +kernel⟩,
   ⟨[], [], by decide +kernel⟩,
   ⟨eB, hbf, m0, (((hbf.writes)[0]'(by decide +kernel)) : Region), by decide +kernel⟩,
   ⟨eB, hb, ({ m0 with outliers := [9] }), by decide +kernel⟩,
   ⟨eB, hb, w0, (((hb.writes)[0]'(by decide +kernel)) : Region), (eB.segRows hb w0 : SegRows), by decide +kernel⟩,
   ⟨eB, hb, ({ wp with pad := 3, c := 2, w := 2, kw := 2, dh := 2, mat := m1 }), (((hb.writes)[0]'(by decide +kernel)) : Region), (eB.segRows hb ({ wp with pad := 3, c := 2, w := 2, kw := 2, dh := 2, mat := m1 }) : SegRows), by decide +kernel⟩,
   ⟨eB, hb, w0, (0x3F000000 : Word), (0 : Int), (((hb.writes)[0]'(by decide +kernel)) : Region), (outSize w0.h w0.kh w0.sh w0.dh w0.pt w0.pb : Nat), (outSize w0.w w0.kw w0.sw w0.dw w0.pl w0.pr : Nat), (w0.kh * w0.kw * w0.c : Nat), by decide +kernel⟩,
   ⟨eB, hb, w0, by decide +kernel⟩,
   ⟨eB, hb, ({ w0 with h := 6, c := 1 }), by decide +kernel⟩,
   ⟨eB, h8, ({ wp with pad := 2, sh := 1 }), (((h8.writes)[0]'(by decide +kernel)) : Region), (outSize ({ wp with pad := 2, sh := 1 }).h ({ wp with pad := 2, sh := 1 }).kh ({ wp with pad := 2, sh := 1 }).sh ({ wp with pad := 2, sh := 1 }).dh 0 0 : Nat), (outSize ({ wp with pad := 2, sh := 1 }).w ({ wp with pad := 2, sh := 1 }).kw ({ wp with pad := 2, sh := 1 }).sw ({ wp with pad := 2, sh := 1 }).dw 0 0 : Nat), by decide +kernel⟩,
   ⟨eB, h8, w0, (((h8.writes)[0]'(by decide +kernel)) : Region), (outSize w0.h w0.kh w0.sh w0.dh 0 0 : Nat), (outSize w0.w w0.kw w0.sw w0.dw 0 0 : Nat), by decide +kernel⟩,
   ⟨eB, hb, ({ wp with h := 0 }), by decide +kernel⟩,
   ⟨eB, hl, ({ w0 with h := 6, c := 1 }), (((hl.writes)[0]'(by decide +kernel)) : Region), (((hl.writes)[1]'(by decide +kernel)) : Region), ((if ({ w0 with h := 6, c := 1 }).stripe = 0 then ({ w0 with h := 6, c := 1 }).w else ({ w0 with h := 6, c := 1 }).stripe) : Nat), by decide +kernel⟩,
   ⟨eB, hb, w0, by decide +kernel⟩⟩
end P09a

namespace P09b
def B : State := rings (dox (.polderCreate 1 0x80000000) (rg (pc 1 6) base0))
def task1 : TaskRun := { ctx := 3, job := 7, idx := 0, ops := 1 }
def eB : State := e1 { task1 with ops := 8, next := 1, startAt := some (base0.now - 5) } (cX B)
def rc : Recipe := { fn := 2, kvFmt := 0, kvLayers := 2, kvSegs := 2, prefixTokens := 0 }
def kvOn (s : State) : State := { rg [(0x27000C, 1), (0x270008, 0x00020001), (0x270100, 0x000A0000), (0x270044, 3), (0x240100, 0x102)] s with kv := { s.kv with running := true, slots := 6, fresh := 4, freed := [3, 2], treeRunning := true } }
def K : State := (kvOn eB).putRecipe key rc
def t4 : State := tl 0x100 (leBytes 4 0x1004 ++ leBytes 4 5 ++ leBytes 4 0x2009) K
def hx (i : Nat) : Region := { space := .track, addr := 0x100 + 4 * i, len := 64 }
def ow : OpHdr := { eng := 1, ctx := 3, afmt := .fp32, ofmt := .fp32, reads := [reg 0x1000 1024], writes := [reg 0x200 4] }
def trk (f : Track → Track) (s : State) : State := s.putTrack 4 (f { handle := 0x1004, serial := 1, ctx := 1, state := 1, nc := 2, th := 1, tw := 1, resv := 2, polder := 1, recipe := key })
def S1 : State := trk id t4
def app (p : Nat) : OpHdr := { ow with reads := [], writes := [{ hx 0 with addr := 0x100 + p * 2 ^ 32 }] }
def kvw : OpHdr := { ow with writes := [hx 0] }
def part0 : Part := { lane := 1, slot := 0, firstBlock := 2, part := 3 }
def mark (s : State) : State := { s with pending := [.append ow] }
def cp : KvCopy := { handle := 0x1004, page := 0, node := 0, slot := 5, at_ := base0.now, epoch := 0, op := 77 }
def cpy (c : KvCopy) (s : State) : State := { s with kv := { s.kv with copies := [{ cp with handle := 9 }, c] } }
def nd (s : State) : State := s.putNode 0 { slot := 2, pins := 1, state := 2, tokens := 5, hash := [1] }
def kp : TrackParams := { sluice := 1, c0 := 0, nc := 2, th := 16, tw := 32, b0 := 2, resv := 1 }
def pg : State := S1.putTrack 4 { S1.track 4 with pages := [(0, 2)] }
def rd : State :=
  let a := pg.kvSlotAt 2
  { pg with bonded := writeBytes (writeBytes pg.bonded (a + 64 + 16) (dataTag 0 1 0 2 0)) (a + (pg.geomOf key).scaleAt + 512 + 0x80) (scaleHeader 0 1 0 2 0) }
def hA : OpHdr := { ow with reads := [reg 0x1000 4, hx 0], writes := [reg 0x200 64], afmt := .int8 }
def hE : OpHdr := { ow with reads := [hx 0, reg 0x1000 64, reg 0x1080 16], writes := [reg 0x200 64, reg 0x400 64], ofmt := .int8 }
def hB : OpHdr := { ow with reads := [hx 0, reg 0x1000 64, reg 0x1080 16], writes := [reg 0x200 64], ofmt := .bf16 }
def pA : AttnParams := { segs := 1, sq := 0x3D000000, stackLayer := 1, row := 0, expect := .int8 }
def pE : ExpandParams := { segs := 1, stackLayer := 1, row := 0, expect := .int8, outs := 3 }
/-- Hypotheses of `Obligations.TrackOperations` met together, clause by clause. -/
theorem test_wit_TrackOperations :
    (∃ (s : State) (k : TrackParams) (h : OpHdr) (r : Nat) (x : Recipe) (w : Region) (n : Nat), s.pending.length = 1 ∧ h = ow ∧ State.trackOk k = true ∧ s.opRecipe h = some r ∧ s.recipe r = some x ∧ h.writes = [w] ∧ s.freeTrack = some n ∧ s.mayIssue h .move 2 = true ∧ s.openFits (s.polderOf h.ctx) k.resv = true) ∧
    (∃ (s : State) (k : TrackParams) (h : OpHdr) (r : Nat) (x : Recipe) (w : Region) (n : Nat), s.pending.length = 1 ∧ h = ow ∧ State.trackOk k = true ∧ s.opRecipe h = some r ∧ s.recipe r = some x ∧ h.writes = [w] ∧ s.freeTrack = some n ∧ s.mayIssue h .move 6 = true ∧ s.kv.running = true) ∧
    (∃ (s : State) (h : OpHdr) (k : TrackParams) (r : Nat) (w : Region), State.trackOk k = true ∧ s.opRecipe h = some r ∧ h.writes = [w] ∧ s.mayIssue h .move 2 = true ∧ (s.freeTrack = none ∨ s.openFits (s.polderOf h.ctx) k.resv = false)) ∧
    (∃ (s : State) (h : OpHdr) (k : TrackParams) (r : Nat) (w : Region), State.trackOk k = true ∧ s.opRecipe h = some r ∧ h.writes = [w] ∧ s.mayIssue h .move 6 = true ∧ (s.freeTrack = none ∨ s.kv.running = false)) ∧
    (∃ (s : State) (h : OpHdr) (n : Nat) (p : Nat), s.mayIssue h .move 3 = true ∧ s.findTrack (s.handleOf h) = some n ∧ p = State.pageOf h ∧ (∀ c ∈ s.kv.copies, c.op ≠ s.nextOp) ∧ State.growsTo (s.track n) p = false) ∧
    (∃ (s : State) (h : OpHdr) (n : Nat) (p : Nat) (slot : _) (rest : _), s.mayIssue h .move 3 = true ∧ s.findTrack (s.handleOf h) = some n ∧ p = State.pageOf h ∧ (∀ c ∈ s.kv.copies, c.op ≠ s.nextOp) ∧ State.growsTo (s.track n) p = true ∧ State.entry (s.track n) p = State.emptyEntry ∧ 0 < (s.track n).resv ∧ s.kv.freed = slot :: rest) ∧
    (∃ (s : State) (h : OpHdr) (n : Nat) (p : Nat) (slot : _) (rest : _) (i : _), s.mayIssue h .move 3 = true ∧ s.findTrack (s.handleOf h) = some n ∧ p = State.pageOf h ∧ (∀ c ∈ s.kv.copies, c.op ≠ s.nextOp) ∧ State.growsTo (s.track n) p = true ∧ State.entry (s.track n) p ≠ State.emptyEntry ∧ State.isPartial (s.track n) p = true ∧ (∀ c ∈ s.kv.copies, c.handle ≠ s.handleOf h) ∧ 0 < (s.track n).resv ∧ s.kv.freed = slot :: rest ∧ s.nodeOfSlot (State.entrySlot (State.entry (s.track n) p)) = some i) ∧
    (∃ (s : State) (h : OpHdr) (n : Nat) (p : Nat), s.mayIssue h .move 3 = true ∧ s.findTrack (s.handleOf h) = some n ∧ p = State.pageOf h ∧ (∀ c ∈ s.kv.copies, c.op ≠ s.nextOp) ∧ State.growsTo (s.track n) p = true ∧ State.entry (s.track n) p = State.emptyEntry ∧ (s.track n).resv = 0 ∧ (s.kvFree ≤ s.kvResv ∨ s.kvQuota (s.track n).polder ≤ s.kvUsed (s.track n).polder)) ∧
    (∃ (s : State) (hd : Word) (p : Nat) (n : Nat) (c : KvCopy), s.kv.copies.find? (fun c => decide (c.handle = hd) && decide (c.page = p)) = some c ∧ c.at_ ≤ s.now ∧ s.findTrack hd = some n) ∧
    (∃ (s : State) (hd : Word) (p : Nat) (n : Nat) (c : KvCopy), s.kv.copies.find? (fun c => decide (c.handle = hd) && decide (c.page = p)) = some c ∧ c.at_ ≤ s.now ∧ s.findTrack hd = none) ∧
    (∃ (s : State) (hd : Word) (p : Nat) (n : Nat) (c : KvCopy), s.kv.copies.find? (fun c => decide (c.handle = hd) && decide (c.page = p)) = some c ∧ s.now < c.at_) ∧
    (∃ (s : State) (h : OpHdr) (row : Nat) (layer : Fin 2) (segs : Fin 3) (n : Nat) (lo : Nat) (hi : Nat), s.mayIssue h .move 4 = true ∧ s.findTrack (s.handleOf h) = some n ∧ lo = (s.track n).prefixTokens + row * (s.track n).nc ∧ hi = lo + (s.track n).nc ∧ State.formsRow (s.track n) row = false) ∧
    (∃ (s : State) (h : OpHdr) (row : Nat) (layer : Fin 2) (segs : Fin 3) (n : Nat) (lo : Nat) (hi : Nat), s.mayIssue h .move 4 = true ∧ s.findTrack (s.handleOf h) = some n ∧ lo = (s.track n).prefixTokens + row * (s.track n).nc ∧ hi = lo + (s.track n).nc ∧ State.formsRow (s.track n) row = true ∧ (row + 1) * (s.track n).nc ≤ 65536 ∧ State.writeFault (s.track n) (State.pagesSpan lo hi) = none) ∧
    (∃ (s : State) (h : OpHdr) (row : Nat) (layer : Fin 2) (segs : Fin 3) (n : Nat) (lo : Nat) (hi : Nat) (p : _) (code : _), s.mayIssue h .move 4 = true ∧ s.findTrack (s.handleOf h) = some n ∧ lo = (s.track n).prefixTokens + row * (s.track n).nc ∧ hi = lo + (s.track n).nc ∧ State.formsRow (s.track n) row = true ∧ (row + 1) * (s.track n).nc ≤ 65536 ∧ State.writeFault (s.track n) (State.pagesSpan lo hi) = some (p, code)) ∧
    (∃ (s : State) (h : OpHdr) (row : Nat) (layer : Fin 2) (segs : Fin 3) (n : Nat) (lo : Nat) (hi : Nat), s.mayIssue h .move 4 = true ∧ s.findTrack (s.handleOf h) = some n ∧ lo = (s.track n).prefixTokens + row * (s.track n).nc ∧ hi = lo + (s.track n).nc ∧ State.formsRow (s.track n) row = true ∧ 65536 < (row + 1) * (s.track n).nc) ∧
    (∃ (s : State) (h : OpHdr) (n : Nat), s.mayIssue h .move (5) = true ∧ s.findTrack (s.handleOf h) = some n) ∧
    (∃ (s : State) (h : OpHdr) (row : Nat) (layer : Fin 2) (segs : Fin 3), s.findTrack (s.handleOf h) = none ∧ (∀ c ∈ s.kv.copies, c.op ≠ s.nextOp) ∧ s.mayIssue h .move (3) = true) ∧
    (∃ (s : State) (h : OpHdr) (p : AttnParams) (n : Nat) (w : Region), s.mayIssue h .matrix 1 = true ∧ State.absorbCode (s.storedFmt h) h p = none ∧ s.findTrack (s.handleOf h) = some n ∧ h.writes = [w] ∧ s.readFault (s.track n) (s.geomOf (s.track n).recipe) p.stackLayer p.segs (State.keysOf (s.track n) p.row) p.expect (State.pagesSpan 0 (State.keysOf (s.track n) p.row)) = none) ∧
    (∃ (s : State) (h : OpHdr) (p : AttnParams) (n : Nat) (w : Region) (r : _), s.mayIssue h .matrix 1 = true ∧ State.absorbCode (s.storedFmt h) h p = none ∧ s.findTrack (s.handleOf h) = some n ∧ h.writes = [w] ∧ s.readFault (s.track n) (s.geomOf (s.track n).recipe) p.stackLayer p.segs (State.keysOf (s.track n) p.row) p.expect (State.pagesSpan 0 (State.keysOf (s.track n) p.row)) = some r) ∧
    (∃ (s : State) (h : OpHdr) (p : ExpandParams) (n : Nat) (w1 : Region) (ws : List Region) (w2 : _), s.mayIssue h .matrix 2 = true ∧ State.expandCode (s.storedFmt h) h p = none ∧ s.findTrack (s.handleOf h) = some n ∧ h.writes = w1 :: ws ∧ s.readFault (s.track n) (s.geomOf (s.track n).recipe) p.stackLayer p.segs (State.keysOf (s.track n) p.row) p.expect (State.pagesSpan 0 (State.keysOf (s.track n) p.row)) = none ∧ h.ofmt = .int8 ∧ ws = [w2]) ∧
    (∃ (s : State) (h : OpHdr) (p : ExpandParams) (n : Nat) (w1 : Region) (ws : List Region), s.mayIssue h .matrix 2 = true ∧ State.expandCode (s.storedFmt h) h p = none ∧ s.findTrack (s.handleOf h) = some n ∧ h.writes = w1 :: ws ∧ s.readFault (s.track n) (s.geomOf (s.track n).recipe) p.stackLayer p.segs (State.keysOf (s.track n) p.row) p.expect (State.pagesSpan 0 (State.keysOf (s.track n) p.row)) = none ∧ h.ofmt = .bf16) ∧
    (∃ (s : State) (h : OpHdr) (p : AttnParams) (q : ExpandParams), s.findTrack (s.handleOf h) = none ∧ s.mayIssue h .matrix 1 = true ∧ State.absorbCode (s.storedFmt h) h p = none) ∧
    (∃ (s : State) (h : OpHdr) (p : AttnParams) (q : ExpandParams), s.findTrack (s.handleOf h) = none ∧ s.mayIssue h .matrix 2 = true ∧ State.expandCode (s.storedFmt h) h q = none ∧ h.ofmt = .int8) ∧
    (∃ (s : State) (h : OpHdr) (p : AttnParams) (q : ExpandParams), s.findTrack (s.handleOf h) = none ∧ (State.absorbCode (s.storedFmt h) h p).isSome = true) ∧
    (∃ (s : State) (h : OpHdr) (p : AttnParams) (q : ExpandParams), s.findTrack (s.handleOf h) = none ∧ (State.expandCode (s.storedFmt h) h q).isSome = true) :=
  ⟨⟨(mark K), kp, (ow : OpHdr), ((Option.get ((mark K).opRecipe (ow : OpHdr)) (by decide +kernel)) : Nat), ((Option.get ((mark K).recipe ((Option.get ((mark K).opRecipe (ow : OpHdr)) (by decide +kernel)) : Nat)) (by decide +kernel)) : Recipe), ((((ow : OpHdr).writes)[0]'(by decide +kernel)) : Region), ((Option.get ((mark K).freeTrack) (by decide +kernel)) : Nat), by decide +kernel⟩,
   ⟨(mark K), kp, (ow : OpHdr), ((Option.get ((mark K).opRecipe (ow : OpHdr)) (by decide +kernel)) : Nat), ((Option.get ((mark K).recipe ((Option.get ((mark K).opRecipe (ow : OpHdr)) (by decide +kernel)) : Nat)) (by decide +kernel)) : Recipe), ((((ow : OpHdr).writes)[0]'(by decide +kernel)) : Region), ((Option.get ((mark K).freeTrack) (by decide +kernel)) : Nat), by decide +kernel⟩,
   ⟨K, ow, ({ kp with resv := 4 }), ((Option.get (K.opRecipe ow) (by decide +kernel)) : Nat), (((ow.writes)[0]'(by decide +kernel)) : Region), by decide +kernel⟩,
   ⟨({ S1 with kv := { S1.kv with running := false } }), ow, kp, ((Option.get (({ S1 with kv := { S1.kv with running := false } }).opRecipe ow) (by decide +kernel)) : Nat), (((ow.writes)[0]'(by decide +kernel)) : Region), by decide +kernel⟩,
   ⟨(trk (fun t => { t with rows := some 0 }) t4), (app 0), ((Option.get ((trk (fun t => { t with rows := some 0 }) t4).findTrack ((trk (fun t => { t with rows := some 0 }) t4).handleOf (app 0))) (by decide +kernel)) : Nat), (State.pageOf (app 0) : Nat), by decide +kernel⟩,
   ⟨(mark { S1 with parts := [part0] }), (app 0), ((Option.get ((mark { S1 with parts := [part0] }).findTrack ((mark { S1 with parts := [part0] }).handleOf (app 0))) (by decide +kernel)) : Nat), (State.pageOf (app 0) : Nat), ((((mark { S1 with parts := [part0] }).kv.freed)[0]'(by decide +kernel))), ((List.drop 1 ((mark { S1 with parts := [part0] }).kv.freed))), by decide +kernel⟩,
   ⟨(nd ((trk (fun t => { t with prefixTokens := 5, pages := [(0, 0x80000002)] }) t4))), (app 0), ((Option.get ((nd ((trk (fun t => { t with prefixTokens := 5, pages := [(0, 0x80000002)] }) t4))).findTrack ((nd ((trk (fun t => { t with prefixTokens := 5, pages := [(0, 0x80000002)] }) t4))).handleOf (app 0))) (by decide +kernel)) : Nat), (State.pageOf (app 0) : Nat), ((((nd ((trk (fun t => { t with prefixTokens := 5, pages := [(0, 0x80000002)] }) t4))).kv.freed)[0]'(by decide +kernel))), ((List.drop 1 ((nd ((trk (fun t => { t with prefixTokens := 5, pages := [(0, 0x80000002)] }) t4))).kv.freed))), ((Option.get ((nd ((trk (fun t => { t with prefixTokens := 5, pages := [(0, 0x80000002)] }) t4))).nodeOfSlot (State.entrySlot (State.entry ((nd ((trk (fun t => { t with prefixTokens := 5, pages := [(0, 0x80000002)] }) t4))).track ((Option.get ((nd ((trk (fun t => { t with prefixTokens := 5, pages := [(0, 0x80000002)] }) t4))).findTrack ((nd ((trk (fun t => { t with prefixTokens := 5, pages := [(0, 0x80000002)] }) t4))).handleOf (app 0))) (by decide +kernel)) : Nat)) (State.pageOf (app 0) : Nat)))) (by decide +kernel))), by decide +kernel⟩,
   ⟨(trk (fun t => { t with resv := 0 }) (t4.kvCharge 1 3)), (app 0), ((Option.get ((trk (fun t => { t with resv := 0 }) (t4.kvCharge 1 3)).findTrack ((trk (fun t => { t with resv := 0 }) (t4.kvCharge 1 3)).handleOf (app 0))) (by decide +kernel)) : Nat), (State.pageOf (app 0) : Nat), by decide +kernel⟩,
   ⟨(cpy cp S1), (0x1004 : Word), (0 : Nat), (4 : Nat), cp, by decide +kernel⟩,
   ⟨(cpy cp S1), (9 : Word), (0 : Nat), (0 : Nat), ({ cp with handle := 9 }), by decide +kernel⟩,
   ⟨(cpy { cp with at_ := base0.now + 1 } S1), (0x1004 : Word), (0 : Nat), (0 : Nat), ({ cp with at_ := base0.now + 1 }), by decide +kernel⟩,
   ⟨(trk (fun t => { t with rows := some 0 }) t4), (app 0), (0 : Nat), (0 : Fin 2), (0 : Fin 3), ((Option.get ((trk (fun t => { t with rows := some 0 }) t4).findTrack ((trk (fun t => { t with rows := some 0 }) t4).handleOf (app 0))) (by decide +kernel)) : Nat), (((trk (fun t => { t with rows := some 0 }) t4).track ((Option.get ((trk (fun t => { t with rows := some 0 }) t4).findTrack ((trk (fun t => { t with rows := some 0 }) t4).handleOf (app 0))) (by decide +kernel)) : Nat)).prefixTokens + (0 : Nat) * ((trk (fun t => { t with rows := some 0 }) t4).track ((Option.get ((trk (fun t => { t with rows := some 0 }) t4).findTrack ((trk (fun t => { t with rows := some 0 }) t4).handleOf (app 0))) (by decide +kernel)) : Nat)).nc : Nat), ((((trk (fun t => { t with rows := some 0 }) t4).track ((Option.get ((trk (fun t => { t with rows := some 0 }) t4).findTrack ((trk (fun t => { t with rows := some 0 }) t4).handleOf (app 0))) (by decide +kernel)) : Nat)).prefixTokens + (0 : Nat) * ((trk (fun t => { t with rows := some 0 }) t4).track ((Option.get ((trk (fun t => { t with rows := some 0 }) t4).findTrack ((trk (fun t => { t with rows := some 0 }) t4).handleOf (app 0))) (by decide +kernel)) : Nat)).nc : Nat) + ((trk (fun t => { t with rows := some 0 }) t4).track ((Option.get ((trk (fun t => { t with rows := some 0 }) t4).findTrack ((trk (fun t => { t with rows := some 0 }) t4).handleOf (app 0))) (by decide +kernel)) : Nat)).nc : Nat), by decide +kernel⟩,
   ⟨pg, kvw, (0 : Nat), (0 : Fin 2), (1 : Fin 3), ((Option.get (pg.findTrack (pg.handleOf kvw)) (by decide +kernel)) : Nat), ((pg.track ((Option.get (pg.findTrack (pg.handleOf kvw)) (by decide +kernel)) : Nat)).prefixTokens + (0 : Nat) * (pg.track ((Option.get (pg.findTrack (pg.handleOf kvw)) (by decide +kernel)) : Nat)).nc : Nat), (((pg.track ((Option.get (pg.findTrack (pg.handleOf kvw)) (by decide +kernel)) : Nat)).prefixTokens + (0 : Nat) * (pg.track ((Option.get (pg.findTrack (pg.handleOf kvw)) (by decide +kernel)) : Nat)).nc : Nat) + (pg.track ((Option.get (pg.findTrack (pg.handleOf kvw)) (by decide +kernel)) : Nat)).nc : Nat), by decide +kernel⟩,
   ⟨(mark { S1 with parts := [part0] }), (app 0), (0 : Nat), (0 : Fin 2), (0 : Fin 3), ((Option.get ((mark { S1 with parts := [part0] }).findTrack ((mark { S1 with parts := [part0] }).handleOf (app 0))) (by decide +kernel)) : Nat), (((mark { S1 with parts := [part0] }).track ((Option.get ((mark { S1 with parts := [part0] }).findTrack ((mark { S1 with parts := [part0] }).handleOf (app 0))) (by decide +kernel)) : Nat)).prefixTokens + (0 : Nat) * ((mark { S1 with parts := [part0] }).track ((Option.get ((mark { S1 with parts := [part0] }).findTrack ((mark { S1 with parts := [part0] }).handleOf (app 0))) (by decide +kernel)) : Nat)).nc : Nat), ((((mark { S1 with parts := [part0] }).track ((Option.get ((mark { S1 with parts := [part0] }).findTrack ((mark { S1 with parts := [part0] }).handleOf (app 0))) (by decide +kernel)) : Nat)).prefixTokens + (0 : Nat) * ((mark { S1 with parts := [part0] }).track ((Option.get ((mark { S1 with parts := [part0] }).findTrack ((mark { S1 with parts := [part0] }).handleOf (app 0))) (by decide +kernel)) : Nat)).nc : Nat) + ((mark { S1 with parts := [part0] }).track ((Option.get ((mark { S1 with parts := [part0] }).findTrack ((mark { S1 with parts := [part0] }).handleOf (app 0))) (by decide +kernel)) : Nat)).nc : Nat), ((Prod.fst ((Option.get (State.writeFault ((mark { S1 with parts := [part0] }).track ((Option.get ((mark { S1 with parts := [part0] }).findTrack ((mark { S1 with parts := [part0] }).handleOf (app 0))) (by decide +kernel)) : Nat)) (State.pagesSpan (((mark { S1 with parts := [part0] }).track ((Option.get ((mark { S1 with parts := [part0] }).findTrack ((mark { S1 with parts := [part0] }).handleOf (app 0))) (by decide +kernel)) : Nat)).prefixTokens + (0 : Nat) * ((mark { S1 with parts := [part0] }).track ((Option.get ((mark { S1 with parts := [part0] }).findTrack ((mark { S1 with parts := [part0] }).handleOf (app 0))) (by decide +kernel)) : Nat)).nc : Nat) ((((mark { S1 with parts := [part0] }).track ((Option.get ((mark { S1 with parts := [part0] }).findTrack ((mark { S1 with parts := [part0] }).handleOf (app 0))) (by decide +kernel)) : Nat)).prefixTokens + (0 : Nat) * ((mark { S1 with parts := [part0] }).track ((Option.get ((mark { S1 with parts := [part0] }).findTrack ((mark { S1 with parts := [part0] }).handleOf (app 0))) (by decide +kernel)) : Nat)).nc : Nat) + ((mark { S1 with parts := [part0] }).track ((Option.get ((mark { S1 with parts := [part0] }).findTrack ((mark { S1 with parts := [part0] }).handleOf (app 0))) (by decide +kernel)) : Nat)).nc : Nat))) (by decide +kernel))))), ((Prod.snd ((Option.get (State.writeFault ((mark { S1 with parts := [part0] }).track ((Option.get ((mark { S1 with parts := [part0] }).findTrack ((mark { S1 with parts := [part0] }).handleOf (app 0))) (by decide +kernel)) : Nat)) (State.pagesSpan (((mark { S1 with parts := [part0] }).track ((Option.get ((mark { S1 with parts := [part0] }).findTrack ((mark { S1 with parts := [part0] }).handleOf (app 0))) (by decide +kernel)) : Nat)).prefixTokens + (0 : Nat) * ((mark { S1 with parts := [part0] }).track ((Option.get ((mark { S1 with parts := [part0] }).findTrack ((mark { S1 with parts := [part0] }).handleOf (app 0))) (by decide +kernel)) : Nat)).nc : Nat) ((((mark { S1 with parts := [part0] }).track ((Option.get ((mark { S1 with parts := [part0] }).findTrack ((mark { S1 with parts := [part0] }).handleOf (app 0))) (by decide +kernel)) : Nat)).prefixTokens + (0 : Nat) * ((mark { S1 with parts := [part0] }).track ((Option.get ((mark { S1 with parts := [part0] }).findTrack ((mark { S1 with parts := [part0] }).handleOf (app 0))) (by decide +kernel)) : Nat)).nc : Nat) + ((mark { S1 with parts := [part0] }).track ((Option.get ((mark { S1 with parts := [part0] }).findTrack ((mark { S1 with parts := [part0] }).handleOf (app 0))) (by decide +kernel)) : Nat)).nc : Nat))) (by decide +kernel))))), by decide +kernel⟩,
   ⟨(mark { S1 with parts := [part0] }), (app 0), (32768 : Nat), (0 : Fin 2), (0 : Fin 3), ((Option.get ((mark { S1 with parts := [part0] }).findTrack ((mark { S1 with parts := [part0] }).handleOf (app 0))) (by decide +kernel)) : Nat), (((mark { S1 with parts := [part0] }).track ((Option.get ((mark { S1 with parts := [part0] }).findTrack ((mark { S1 with parts := [part0] }).handleOf (app 0))) (by decide +kernel)) : Nat)).prefixTokens + (32768 : Nat) * ((mark { S1 with parts := [part0] }).track ((Option.get ((mark { S1 with parts := [part0] }).findTrack ((mark { S1 with parts := [part0] }).handleOf (app 0))) (by decide +kernel)) : Nat)).nc : Nat), ((((mark { S1 with parts := [part0] }).track ((Option.get ((mark { S1 with parts := [part0] }).findTrack ((mark { S1 with parts := [part0] }).handleOf (app 0))) (by decide +kernel)) : Nat)).prefixTokens + (32768 : Nat) * ((mark { S1 with parts := [part0] }).track ((Option.get ((mark { S1 with parts := [part0] }).findTrack ((mark { S1 with parts := [part0] }).handleOf (app 0))) (by decide +kernel)) : Nat)).nc : Nat) + ((mark { S1 with parts := [part0] }).track ((Option.get ((mark { S1 with parts := [part0] }).findTrack ((mark { S1 with parts := [part0] }).handleOf (app 0))) (by decide +kernel)) : Nat)).nc : Nat), by decide +kernel⟩,
   ⟨(mark { S1 with parts := [part0] }), (app 0), ((Option.get ((mark { S1 with parts := [part0] }).findTrack ((mark { S1 with parts := [part0] }).handleOf (app 0))) (by decide +kernel)) : Nat), by decide +kernel⟩,
   ⟨K, ow, (0 : Nat), (0 : Fin 2), (0 : Fin 3), by decide +kernel⟩,
   ⟨rd, hA, pA, ((Option.get (rd.findTrack (rd.handleOf hA)) (by decide +kernel)) : Nat), (((hA.writes)[0]'(by decide +kernel)) : Region), by decide +kernel⟩,
   ⟨S1, hA, pA, ((Option.get (S1.findTrack (S1.handleOf hA)) (by decide +kernel)) : Nat), (((hA.writes)[0]'(by decide +kernel)) : Region), ((Option.get (S1.readFault (S1.track ((Option.get (S1.findTrack (S1.handleOf hA)) (by decide +kernel)) : Nat)) (S1.geomOf (S1.track ((Option.get (S1.findTrack (S1.handleOf hA)) (by decide +kernel)) : Nat)).recipe) pA.stackLayer pA.segs (State.keysOf (S1.track ((Option.get (S1.findTrack (S1.handleOf hA)) (by decide +kernel)) : Nat)) pA.row) pA.expect (State.pagesSpan 0 (State.keysOf (S1.track ((Option.get (S1.findTrack (S1.handleOf hA)) (by decide +kernel)) : Nat)) pA.row))) (by decide +kernel))), by decide +kernel⟩,
   ⟨rd, hE, pE, ((Option.get (rd.findTrack (rd.handleOf hE)) (by decide +kernel)) : Nat), (((hE.writes)[0]'(by decide +kernel)) : Region), ((List.drop 1 (hE.writes)) : List Region), (((((List.drop 1 (hE.writes)) : List Region))[0]'(by decide +kernel))), by decide +kernel⟩,
   ⟨rd, hB, pE, ((Option.get (rd.findTrack (rd.handleOf hB)) (by decide +kernel)) : Nat), (((hB.writes)[0]'(by decide +kernel)) : Region), ((List.drop 1 (hB.writes)) : List Region), by decide +kernel⟩,
   ⟨K, ({ ow with reads := [reg 0x1000 4, hx 0], writes := [reg 0x200 64], afmt := .int8 }), ({ segs := 2, sq := 0x3D000000, stackLayer := 1, row := 0, expect := .int8 }), ({ segs := 2, stackLayer := 1, row := 0, expect := .int8, outs := 3 }), by decide +kernel⟩,
   ⟨K, ({ ow with reads := [hx 1, reg 0x1000 64, reg 0x1080 16], writes := [reg 0x200 64], ofmt := .int8, afmt := .int8 }), ({ segs := 2, sq := 0x3D000000, stackLayer := 1, row := 0, expect := .int8 }), ({ segs := 2, stackLayer := 1, row := 0, expect := .int8, outs := 3 }), by decide +kernel⟩,
   ⟨K, ow, ({ segs := 2, sq := 0x3D000000, stackLayer := 1, row := 0, expect := .int8 }), ({ segs := 2, stackLayer := 1, row := 0, expect := .int8, outs := 3 }), by decide +kernel⟩,
   ⟨K, ({ app 0 with eng := 2 }), ({ segs := 2, sq := 0x3D000000, stackLayer := 1, row := 0, expect := .int8 }), ({ segs := 2, stackLayer := 1, row := 0, expect := .int8, outs := 3 }), by decide +kernel⟩⟩
end P09b

namespace P09c
def B : State := rings (dox (.polderCreate 1 0x80000000) (rg (pc 1 6) base0))
def task1 : TaskRun := { ctx := 3, job := 7, idx := 0, ops := 1 }
def eB : State := e1 { task1 with ops := 8, next := 1, startAt := some (base0.now - 5) } (cX B)
def rp (a n : Nat) : Region := { space := .pool, addr := a, len := n }
def rb (a n : Nat) : Region := { space := .bonded, addr := a, len := n }
def rt (a n : Nat) : Region := { space := .tile, addr := a, len := n }
def rr (a n : Nat) : Region := { space := .remote, addr := a, len := n }
def hb : OpHdr := { eng := 1, ctx := 3 }
def W (x : OpHdr) : OpHdr := { x with vary := true }
def mem (s : State) : State := { tl 0 [1,2,3,4,5,6,7,8] s with pool := writeBytes s.pool ((s.polder 1).ps0 * 0x40000) [255,255,255,255,255,255,255,255, 9,8,7], bonded := writeBytes s.bonded (s.polder 1).base [5,0,0,0,0,0,0,0,1,1,1] }
def M : State := mem eB
def sg0 : SignalArg := { word := rp 0 8, v := 0x100, notify := some 3 }
def so : OpEntry := { id := 5, eng := 1, ctx := 3, job := 7, task := 0, idx := 0, cls := .culvert, opc := 4, sig := some sg0 }
def ops (l : List OpEntry) (s : State) : State := { s with ops := l }
/-- Hypotheses of `Obligations.CulvertOperationsWithinTheModule` met together, clause by clause. -/
theorem test_wit_CulvertOperationsWithinTheModule :
    (∃ (s : State) (h : OpHdr) (tg : PutTarget) (sg : Option SignalArg) (r : Region) (w : Region), s.mayIssue h .culvert 0 = true ∧ putOk h = true ∧ sigOk h sg = true ∧ s.sigReach h sg = true ∧ h.reads = [r] ∧ h.writes = [w] ∧ w.space ≠ .remote ∧ (w.space ≠ .bonded ∨ w.addr < portBase)) ∧
    (∃ (s : State) (h : OpHdr) (sg : Option SignalArg) (r : Region) (w : Region), s.mayIssue h .culvert 1 = true ∧ getOk h = true ∧ sigOk h sg = true ∧ s.sigReach h sg = true ∧ h.reads = [r] ∧ h.writes = [w] ∧ r.space ≠ .remote ∧ (r.space ≠ .bonded ∨ r.addr < portBase)) ∧
    (∃ (s : State) (h : OpHdr) (tg : PutTarget) (w : Region), s.mayIssue h .culvert 0 = true ∧ putOk h = true ∧ h.sig = false ∧ h.writes = [w] ∧ w.space = .remote ∧ s.participates (State.memberOf w) = false ∧ s.kindTwo h = false) ∧
    (∃ (s : State) (h : OpHdr) (k : AddWidth) (v : DWord) (w : Region) (rs : List Region), s.mayIssue h .culvert 2 = true ∧ addOk h k = true ∧ h.sig = false ∧ h.writes = w :: rs ∧ w.space ≠ .remote ∧ s.mayWrite h.eng h.ctx w = true ∧ (∀ x ∈ s.ops, x.id ≠ s.nextOp)) ∧
    (∃ (s : State) (h : OpHdr) (cmp : DWord) (swap : DWord) (w : Region) (r : Region), s.mayIssue h .culvert 3 = true ∧ atomicOk h true = true ∧ h.vary = true ∧ h.sig = false ∧ h.writes = [w, r] ∧ w.space ≠ .remote ∧ s.mayWrite h.eng h.ctx w = true ∧ (∀ x ∈ s.ops, x.id ≠ s.nextOp)) ∧
    (∃ (s : State) (h : OpHdr) (sg : SignalArg), s.mayIssue { h with sig := true } .culvert 4 = true ∧ signalOk h sg = true ∧ sg.word.space ≠ .remote ∧ s.mayWrite h.eng h.ctx { sg.word with len := 8 } = true) ∧
    (∃ (s : State) (id : Nat) (o : OpEntry) (sg : SignalArg) (a : Nat), s.op id = some o ∧ o.cls = .culvert ∧ o.opc = 4 ∧ o.sig = some sg ∧ o.complete = false ∧ o.met = true ∧ o.remote = false ∧ o.fault = 0 ∧ o.spec = false ∧ o.out = [] ∧ o.counts = {} ∧ o.tally = [] ∧ o.dig = false ∧ o.block = none ∧ o.word = none ∧ sg.word.space = .pool ∧ s.localAt (s.polderOf o.ctx) { sg.word with len := 8 } = some (true, a)) ∧
    (∃ (s : State) (h : OpHdr) (tg : PutTarget) (sg : Option SignalArg) (x : SignalArg) (v : DWord) (w : DWord) (k : AddWidth), (putOk h = false ∨ sigOk h sg = false)) ∧
    (∃ (s : State) (h : OpHdr) (tg : PutTarget) (sg : Option SignalArg) (x : SignalArg) (v : DWord) (w : DWord) (k : AddWidth), (getOk h = false ∨ sigOk h sg = false)) ∧
    (∃ (s : State) (h : OpHdr) (tg : PutTarget) (sg : Option SignalArg) (x : SignalArg) (v : DWord) (w : DWord) (k : AddWidth), (addOk h k = false ∨ sigOk h sg = false)) ∧
    (∃ (s : State) (h : OpHdr) (tg : PutTarget) (sg : Option SignalArg) (x : SignalArg) (v : DWord) (w : DWord) (k : AddWidth), (atomicOk h true = false ∨ h.vary = false ∨ sigOk h sg = false)) ∧
    (∃ (s : State) (h : OpHdr) (tg : PutTarget) (sg : Option SignalArg) (x : SignalArg) (v : DWord) (w : DWord) (k : AddWidth), signalOk h x = false) :=
  ⟨⟨eB, ({ hb with reads := [rt 0 8], writes := [rp 16 8] }), .region, none, (((({ hb with reads := [rt 0 8], writes := [rp 16 8] }).reads)[0]'(by decide +kernel)) : Region), (((({ hb with reads := [rt 0 8], writes := [rp 16 8] }).writes)[0]'(by decide +kernel)) : Region), by decide +kernel⟩,
   ⟨eB, ({ hb with reads := [rp 0 11], writes := [rb 64 11] }), none, (((({ hb with reads := [rp 0 11], writes := [rb 64 11] }).reads)[0]'(by decide +kernel)) : Region), (((({ hb with reads := [rp 0 11], writes := [rb 64 11] }).writes)[0]'(by decide +kernel)) : Region), by decide +kernel⟩,
   ⟨eB, ({ hb with reads := [rp 0 8], writes := [rr (2^56*2+8) 8] }), .region, (((({ hb with reads := [rp 0 8], writes := [rr (2^56*2+8) 8] }).writes)[0]'(by decide +kernel)) : Region), by decide +kernel⟩,
   ⟨eB, ({ hb with writes := [rp 0 8] }), .int32, (5 : DWord), (((({ hb with writes := [rp 0 8] }).writes)[0]'(by decide +kernel)) : Region), ((List.drop 1 (({ hb with writes := [rp 0 8] }).writes)) : List Region), by decide +kernel⟩,
   ⟨eB, (W { hb with writes := [rb 0 8, rt 64 8] }), (5 : DWord), (5 : DWord), ((((W { hb with writes := [rb 0 8, rt 64 8] }).writes)[0]'(by decide +kernel)) : Region), ((((W { hb with writes := [rb 0 8, rt 64 8] }).writes)[1]'(by decide +kernel)) : Region), by decide +kernel⟩,
   ⟨eB, ({ hb with writes := [rp 0 8] }), sg0, by decide +kernel⟩,
   ⟨(ops [so] M), (5 : Nat), ((Option.get ((ops [so] M).op (5 : Nat)) (by decide +kernel)) : OpEntry), ((Option.get (((Option.get ((ops [so] M).op (5 : Nat)) (by decide +kernel)) : OpEntry).sig) (by decide +kernel)) : SignalArg), ((Prod.snd ((Option.get ((ops [so] M).localAt ((ops [so] M).polderOf ((Option.get ((ops [so] M).op (5 : Nat)) (by decide +kernel)) : OpEntry).ctx) { ((Option.get (((Option.get ((ops [so] M).op (5 : Nat)) (by decide +kernel)) : OpEntry).sig) (by decide +kernel)) : SignalArg).word with len := 8 }) (by decide +kernel)))) : Nat), by decide +kernel⟩,
   ⟨base0, hb, .region, none, sg0, (5 : DWord), (5 : DWord), .int32, by decide +kernel⟩,
   ⟨base0, hb, .region, none, sg0, (5 : DWord), (5 : DWord), .int32, by decide +kernel⟩,
   ⟨base0, hb, .region, none, sg0, (5 : DWord), (5 : DWord), .int32, by decide +kernel⟩,
   ⟨base0, hb, .region, none, sg0, (5 : DWord), (5 : DWord), .int32, by decide +kernel⟩,
   ⟨base0, hb, .region, none, sg0, (5 : DWord), (5 : DWord), .int32, by decide +kernel⟩⟩
end P09c

namespace P10a
def w (n : Nat) : Word := BitVec.ofNat 32 n
def bnd (k : Nat) (s : State) : State := rg [(State.bindOff k, w (2^31 + 1)), (State.bindOff k + 0x0C, 100)] s
def V : State := rings (bnd 1 ((rg [(0x210000, w (2^31 + 1))] { base0 with vu := { base0.vu with running := true } }).setReg 0x280000 (w (2^31))))
def p0 : Part := { lane := 1, slot := 4, firstBlock := 2, lastBlock := 3 }
def px (p : Part) (s : State) : State := { s with parts := [{ p0 with slot := 9 }, p] }
/-- Hypotheses of `Obligations.BatchesAndDeadlines` met together, clause by clause. -/
theorem test_wit_BatchesAndDeadlines :
    (∃ (s : State) (k : Fin 18) (slot : Nat) (p : Part), s.findPart k slot = some p ∧ (∀ x ∈ s.parts, (x.lane = k.val → (x.slot = slot → x.proxy = none))) ∧ (p.sealed = true ∨ s.vuOn = false ∨ s.axisFault (s.bindAxis k) = true ∨ State.beyond (s.bindDir k) (s.posAt (s.bindAxis k) s.time.t) p.deadline = false)) ∧
    (∃ (s : State) (k : Fin 18) (slot : Nat) (p : Part), s.findPart k slot = some p ∧ (∀ x ∈ s.parts, (x.lane = k.val → (x.slot = slot → x.proxy = none))) ∧ p.sealed = false ∧ s.vuOn = true ∧ s.axisFault (s.bindAxis k) = false ∧ State.beyond (s.bindDir k) (s.posAt (s.bindAxis k) s.time.t) p.deadline = true) :=
  ⟨⟨(px { p0 with sealed := true } V), (1 : Fin 18), (4 : Nat), ((Option.get ((px { p0 with sealed := true } V).findPart (1 : Fin 18) (4 : Nat)) (by decide +kernel)) : Part), by decide +kernel⟩,
   ⟨(px p0 V), (1 : Fin 18), (4 : Nat), ((Option.get ((px p0 V).findPart (1 : Fin 18) (4 : Nat)) (by decide +kernel)) : Part), by decide +kernel⟩⟩
/-- A line block index that is no multiple of FILL, where the shape that each implementation decides has one. -/
theorem test_wit_batch_index_not_of_fill (h : (Config.batchShape 0).2 % 16 ≠ 0) : ∃ (s : State) (g : BitVec 18) (b fill size : Nat),
    fill = (Config.batchShape g.toNat).2 % 16 + 1 ∧ size = (Config.batchShape g.toNat).1 + 1 ∧ b % fill ≠ 0 :=
  ⟨State.reset, 0, 1, _, _, rfl, rfl, by show 1 % ((Config.batchShape 0).2 % 16 + 1) ≠ 0; rw [Nat.mod_eq_of_lt (by omega)]; omega⟩
theorem test_wit_batch_index_of_fill : ∃ (s : State) (g : BitVec 18) (b fill size : Nat), fill = (Config.batchShape g.toNat).2 % 16 + 1 ∧
    size = (Config.batchShape g.toNat).1 + 1 ∧ b % fill = 0 ∧ (∀ x, x ∈ s.vu.batches → x.group ≠ g ∨ x.block ≠ b) :=
  ⟨State.reset, 0, 0, _, _, rfl, rfl, Nat.zero_mod _, by decide +kernel⟩
end P10a

namespace P10b
def w (n : Nat) : Word := BitVec.ofNat 32 n
def ax (s : State) : State := rg [(0x210000, w (2^31 + 1)), (0x210100, w (2^31 + 1))] s
def V : State := (ax { base0 with vu := { base0.vu with running := true } }).setReg 0x280000 (w (2^31))
def ce (k : CalKind) (op : Word) : CalEntry := { pos := 0, kind := k, axis := 0, dir := false, tag := 3, operand := op }
def cal (l : List CalEntry) (s : State) : State := (s.setCal 0 l).setCal 1 [ce .mark 0]
def far (k : CalKind) : CalEntry := { ce k 0 with pos := BitVec.ofNat 64 (2^40) }
def prv (f : Proving → Proving) (s : State) : State := s.setProving 3 (f { on := true, axis := 0, source := 1, perMin := 2, period := 100, minute := s.now })
def pe : CalEntry := { ce .prove 3 with tag := State.proveTag 3, pos := 5 }
def f : State := cal [far .on, far .off, far .swap, far .changeover, far .prove, far .mark] V
def chg (x : Changeover) (s : State) : State := { s with changes := tset none (tset none s.changes 2 (some { recipe := 9, when_ := 1 })) 1 (some x) }
def cw : CalWord := { pos := 0, kind := 6, axis := 0, dir := false, tag := 5, operand := 0 }
/-- Hypotheses of `Obligations.CalendarEntriesWrittenAndFired` met together, clause by clause. -/
theorem test_wit_CalendarEntriesWrittenAndFired :
    (∃ (s : State) (d : DescHdr) (e : CalWord) (n : Nat), s.serves = true ∧ d.fn.val = 0 ∧ n = e.axis.val ∧ s.calRefusal e = none ∧ (s.calOf n).length < 4096) ∧
    (∃ (s : State) (d : DescHdr) (e : CalWord) (n : Nat), s.serves = true ∧ d.fn.val = 0 ∧ n = e.axis.val ∧ s.calRefusal e = none ∧ 4096 ≤ (s.calOf n).length) ∧
    (∃ (s : State) (d : DescHdr) (e : CalWord) (n : Nat), s.serves = true ∧ d.fn.val = 0 ∧ n = e.axis.val ∧ s.calRefusal e ≠ none) ∧
    (∃ (s : State) (d : DescHdr) (e : CalWord), s.serves = true ∧ d.fn.val ≠ 0) ∧
    (∃ (s : State) (n : Fin 4) (i : Nat), (∀ e ∈ (s.calOf n)[i]?, ((e.kind ≠ (.on) ∨ s.vuOn = false ∨ s.axisFault n = true ∨ State.beyond e.dir (s.posKnown n) e.pos = false)))) ∧
    (∃ (s : State) (n : Fin 4) (i : Nat) (e : CalEntry), s.vuOn = true ∧ s.axisFault n = false ∧ (s.calOf n)[i]? = some e ∧ State.beyond e.dir (s.posKnown n) e.pos = true ∧ e.kind = .on) ∧
    (∃ (s : State) (n : Fin 4) (i : Nat) (e : CalEntry), s.vuOn = true ∧ s.axisFault n = false ∧ (s.calOf n)[i]? = some e ∧ State.beyond e.dir (s.posKnown n) e.pos = true ∧ e.kind = .off) ∧
    (∃ (s : State) (n : Fin 4) (i : Nat) (e : CalEntry) (j : _), s.vuOn = true ∧ s.axisFault n = false ∧ (s.calOf n)[i]? = some e ∧ State.beyond e.dir (s.posKnown n) e.pos = true ∧ e.kind = .swap ∧ j = 4 * bits e.operand 1 0 + bits e.operand 3 2) ∧
    (∃ (s : State) (n : Fin 4) (i : Nat) (e : CalEntry) (j : _), s.vuOn = true ∧ s.axisFault n = false ∧ (s.calOf n)[i]? = some e ∧ State.beyond e.dir (s.posKnown n) e.pos = true ∧ e.kind = .changeover ∧ j = bits e.operand 4 0) ∧
    (∃ (s : State) (n : Fin 4) (i : Nat) (e : CalEntry), s.vuOn = true ∧ s.axisFault n = false ∧ (s.calOf n)[i]? = some e ∧ State.beyond e.dir (s.posKnown n) e.pos = true ∧ e.kind = .mark) ∧
    (∃ (s : State) (n : Fin 4) (i : Nat) (e : CalEntry) (r : _), s.vuOn = true ∧ s.axisFault n = false ∧ (s.calOf n)[i]? = some e ∧ State.beyond e.dir (s.posKnown n) e.pos = true ∧ e.kind = .prove ∧ r = bits e.operand 3 0 ∧ ((s.proving r).on = false ∨ s.vig.outOfService = true)) ∧
    (∃ (s : State) (n : Fin 4) (i : Nat) (e : CalEntry) (r : _), s.vuOn = true ∧ s.axisFault n = false ∧ (s.calOf n)[i]? = some e ∧ State.beyond e.dir (s.posKnown n) e.pos = true ∧ e.kind = .prove ∧ r = bits e.operand 3 0 ∧ (s.proving r).on = true ∧ s.vig.outOfService = false ∧ (s.calOf (s.proving r).axis).any (fun x => decide (x.kind = .prove ∧ x.tag = State.proveTag r ∧ ((s.proving r).axis = n.val → x ∈ (s.calOf n).eraseIdx i))) = true ∧ s.now - (s.proving r).minute < 60000000000 ∧ ((s.proving r).inMinute < (s.proving r).perMin ∨ s.shedAdmits = true) ∧ s.lastPiped (s.proving r).source = none) ∧
    (∃ (s : State) (n : Fin 4) (i : Nat) (e : CalEntry) (r : _), s.vuOn = true ∧ s.axisFault n = false ∧ (s.calOf n)[i]? = some e ∧ State.beyond e.dir (s.posKnown n) e.pos = true ∧ e.kind = .prove ∧ r = bits e.operand 3 0 ∧ (s.proving r).on = true ∧ s.vig.outOfService = false ∧ (s.calOf (s.proving r).axis).any (fun x => decide (x.kind = .prove ∧ x.tag = State.proveTag r ∧ ((s.proving r).axis = n.val → x ∈ (s.calOf n).eraseIdx i))) = true ∧ s.now - (s.proving r).minute < 60000000000 ∧ (s.proving r).perMin ≤ (s.proving r).inMinute ∧ s.shedAdmits = false) :=
  ⟨⟨V, ({ fn := 0, ring := 0, tag := 9 }), cw, (cw.axis.val : Nat), by decide +kernel⟩,
   ⟨(V.setCal 0 (List.replicate 4096 (ce .on 0))), ({ fn := 0, ring := 0, tag := 9 }), cw, (cw.axis.val : Nat), by decide +kernel⟩,
   ⟨State.reset, ({ fn := 0, ring := 0, tag := 9 }), cw, (cw.axis.val : Nat), by decide +kernel⟩,
   ⟨State.reset, ({ fn := 2, ring := 2, tag := 9 }), cw, by decide +kernel⟩,
   ⟨State.reset, (0 : Fin 4), (0 : Nat), by decide +kernel⟩,
   ⟨(cal [far .on, ce .on 0x11, ce .on 0x80001203] V), (0 : Fin 4), (1 : Nat), ((Option.get (((cal [far .on, ce .on 0x11, ce .on 0x80001203] V).calOf (0 : Fin 4))[(1 : Nat)]?) (by decide +kernel)) : CalEntry), by decide +kernel⟩,
   ⟨(cal [{ ce .on 0x80801203 with late := true }, ce .off 0x13] ((V.setChan 0 { hold := 65535 }).setChan 1 { hold := 7 })), (0 : Fin 4), (1 : Nat), ((Option.get (((cal [{ ce .on 0x80801203 with late := true }, ce .off 0x13] ((V.setChan 0 { hold := 65535 }).setChan 1 { hold := 7 })).calOf (0 : Fin 4))[(1 : Nat)]?) (by decide +kernel)) : CalEntry), by decide +kernel⟩,
   ⟨(cal [ce .swap 0] V), (0 : Fin 4), (0 : Nat), ((Option.get (((cal [ce .swap 0] V).calOf (0 : Fin 4))[(0 : Nat)]?) (by decide +kernel)) : CalEntry), (4 * bits ((Option.get (((cal [ce .swap 0] V).calOf (0 : Fin 4))[(0 : Nat)]?) (by decide +kernel)) : CalEntry).operand 1 0 + bits ((Option.get (((cal [ce .swap 0] V).calOf (0 : Fin 4))[(0 : Nat)]?) (by decide +kernel)) : CalEntry).operand 3 2), by decide +kernel⟩,
   ⟨(cal [ce .changeover 1] (chg { recipe := 3, when_ := 2 } V)), (0 : Fin 4), (0 : Nat), ((Option.get (((cal [ce .changeover 1] (chg { recipe := 3, when_ := 2 } V)).calOf (0 : Fin 4))[(0 : Nat)]?) (by decide +kernel)) : CalEntry), (bits ((Option.get (((cal [ce .changeover 1] (chg { recipe := 3, when_ := 2 } V)).calOf (0 : Fin 4))[(0 : Nat)]?) (by decide +kernel)) : CalEntry).operand 4 0), by decide +kernel⟩,
   ⟨f, (1 : Fin 4), (0 : Nat), ((Option.get ((f.calOf (1 : Fin 4))[(0 : Nat)]?) (by decide +kernel)) : CalEntry), by decide +kernel⟩,
   ⟨(cal [ce .prove 3] V), (0 : Fin 4), (0 : Nat), ((Option.get (((cal [ce .prove 3] V).calOf (0 : Fin 4))[(0 : Nat)]?) (by decide +kernel)) : CalEntry), (bits ((Option.get (((cal [ce .prove 3] V).calOf (0 : Fin 4))[(0 : Nat)]?) (by decide +kernel)) : CalEntry).operand 3 0), by decide +kernel⟩,
   ⟨(cal [ce .prove 3, pe] (prv id V)), (0 : Fin 4), (0 : Nat), ((Option.get (((cal [ce .prove 3, pe] (prv id V)).calOf (0 : Fin 4))[(0 : Nat)]?) (by decide +kernel)) : CalEntry), (bits ((Option.get (((cal [ce .prove 3, pe] (prv id V)).calOf (0 : Fin 4))[(0 : Nat)]?) (by decide +kernel)) : CalEntry).operand 3 0), by decide +kernel⟩,
   ⟨(cal [{ce .prove 3 with late := true}, pe] (prv (fun p => { p with inMinute := 2 }) { V with power := { V.power with shedOut := true } })), (0 : Fin 4), (0 : Nat), ((Option.get (((cal [{ce .prove 3 with late := true}, pe] (prv (fun p => { p with inMinute := 2 }) { V with power := { V.power with shedOut := true } })).calOf (0 : Fin 4))[(0 : Nat)]?) (by decide +kernel)) : CalEntry), (bits ((Option.get (((cal [{ce .prove 3 with late := true}, pe] (prv (fun p => { p with inMinute := 2 }) { V with power := { V.power with shedOut := true } })).calOf (0 : Fin 4))[(0 : Nat)]?) (by decide +kernel)) : CalEntry).operand 3 0), by decide +kernel⟩⟩
end P10b

namespace P10c
def w (n : Nat) : Word := BitVec.ofNat 32 n
def V : State := (rg [(0x210000, w (2^31 + 1)), (State.bindOff 1, w (2^31 + 5)), (0x280000, w (2^31))] { base0 with vu := { base0.vu with running := true } })
def fs (f : FailSafe → FailSafe) (s : State) : State := { s with fs := f s.fs }
/-- Hypotheses of `Obligations.FailSafeHeartbeatAndProving` met together, clause by clause. -/
theorem test_wit_FailSafeHeartbeatAndProving :
    (∃ (s : State) (v : Word), s.answers 0 0x284000 = true ∧ bit v 31 = true) ∧
    (∃ (s : State) (v : Word), s.answers 0 0x284000 = true ∧ bit v 31 = false) ∧
    (∃ (s : State) (v : Word), s.answers 0 0x284000 = true ∧ bit v 30 = true ∧ s.fs.beating = true ∧ 1000000 ≤ s.now - s.fs.beatSince) ∧
    (∃ (s : State) (v : Word), s.answers 0 0x284000 = true ∧ bit v 30 = true ∧ (s.fs.beating = false ∨ s.now - s.fs.beatSince < 1000000)) ∧
    (∃ (s : State) (v : Word), s.answers 0 0x284000 = true ∧ bit v 30 = false) ∧
    (∃ (s : State) (v : Word), s.answers 0 0x280000 = true) ∧
    (∃ (s : State) (r : Fin 16) (g : Proving), g = s.proving r) :=
  ⟨⟨State.reset, (w (2^31)), by decide +kernel⟩,
   ⟨State.reset, (0 : Word), by decide +kernel⟩,
   ⟨(fs (fun f => { f with heartbeat := false, command := true, beating := true, beatSince := V.now - 1000000, axes := [1], full := [2] }) V), (w (2^30)), by decide +kernel⟩,
   ⟨State.reset, (w (2^30)), by decide +kernel⟩,
   ⟨State.reset, (0 : Word), by decide +kernel⟩,
   ⟨State.reset, (0 : Word), by decide +kernel⟩,
   ⟨State.reset, (0 : Fin 16), (State.reset.proving (0 : Fin 16) : Proving), by decide +kernel⟩⟩
end P10c

namespace P10d
def w (n : Nat) : Word := BitVec.ofNat 32 n
def V : State := (rg [(State.diOff 1, w (2^31 + 2^28 + 7)), (State.diOff 2, w (2^31 + 2^29 + 2^30)), (State.vbOff 0, w (2^31 + 2^30 + 3 * 256)), (0x290200, 0x0001), (State.vbOff 1, w (2^30 + 3 * 256))] base0)
def on (s : State) : State := { ((((s.setChan 0 { hold := 2 }).setChan 4 { hold := 2 }).setChan 5 { hold := 1 }).setChan 30 {hold := 1}) with fs := { s.fs with heartbeat := false } }
def bk (f : Bank → Bank) (s : State) : State := (s.setBank 0 (f (s.bank 0))).setBank 1 (f (s.bank 1))
def Bk : State := bk (fun b => { b with awaiting := some 7, link := true, fails := 2, faults := 5 }) V
def vs : ValveStatus := { seq := 7, cmdErr := false, supply := false, overtemp := false, safe := false, faults := 5, crcOk := true, phase := 3 }
/-- Hypotheses of `Obligations.FieldSectionInputsOutputsAndBanks` met together, clause by clause. -/
theorem test_wit_FieldSectionInputsOutputsAndBanks :
    (∃ (s : State) (i : Fin 16) (level : Bool), s.variantN = false ∧ s.htlUsed i = false ∧ (s.di i).out ≠ level) ∧
    (∃ (s : State) (i : Fin 16) (v : Word), s.answers 0 (State.diOff i) = true ∧ s.htlUsed i = false) ∧
    (∃ (s : State) (v : Word), s.answers 0 0x290010 = true ∧ bit v 0 = true) ∧
    (∃ (s : State) (mV : Half), s.variantN = false) ∧
    (∃ (s : State) (n : Fin 16), s.variantN = false ∧ s.doLevel n = true ∧ s.leadOf n = n.val) ∧
    (∃ (s : State) (v : Word), s.answers 0 0x290210 = true) ∧
    (∃ (s : State) (n : Fin 16), s.variantN = false ∧ s.doQuiet n = false) ∧
    (∃ (s : State), s.variantN = false ∧ s.now - s.field.frameAt < 2000) ∧
    (∃ (s : State), s.variantN = false ∧ 2000 ≤ s.now - s.field.frameAt) ∧
    (∃ (s : State) (b : Fin 2) (f : ValveStatus) (q : Byte), s.variantN = false ∧ s.statusDue b = some q ∧ f.crcOk = true ∧ f.seq = q) ∧
    (∃ (s : State) (b : Fin 2) (f : ValveStatus) (d : Nat) (q : Byte), s.variantN = false ∧ s.statusDue b = some q ∧ ((f.crcOk = false ∧ d = 0x28) ∨ (f.crcOk = true ∧ f.seq ≠ q ∧ d = 0x30))) ∧
    (∃ (s : State) (b : Fin 2) (q : Byte), s.variantN = false ∧ s.statusDue b = some q) ∧
    (∃ (s : State) (i : Fin 16) (b : Fin 2) (level : Bool) (mV : Half) (f : ValveStatus) (c : Instr), s.variantN = true ∧ c ∈ [Instr.diFilteredEdge i level, .fieldSupplySample mV, .doThermalShutdown i, .doThermalRestart i, .doMismatch i, .valveFrame, .valveStatusFrame b f, .valveStatusMiss b]) :=
  ⟨⟨State.reset, (0 : Fin 16), true, by decide +kernel⟩,
   ⟨State.reset, (0 : Fin 16), (0 : Word), by decide +kernel⟩,
   ⟨State.reset, (1 : Word), by decide +kernel⟩,
   ⟨State.reset, (0 : Half), by decide +kernel⟩,
   ⟨(on V), (0 : Fin 16), by decide +kernel⟩,
   ⟨State.reset, (0 : Word), by decide +kernel⟩,
   ⟨State.reset, (0 : Fin 16), by decide +kernel⟩,
   ⟨State.reset, by decide +kernel⟩,
   ⟨base0, by decide +kernel⟩,
   ⟨Bk, (0 : Fin 2), vs, ((Option.get (Bk.statusDue (0 : Fin 2)) (by decide +kernel)) : Byte), by decide +kernel⟩,
   ⟨Bk, (0 : Fin 2), ({ vs with crcOk := false }), (0x28 : Nat), ((Option.get (Bk.statusDue (0 : Fin 2)) (by decide +kernel)) : Byte), by decide +kernel⟩,
   ⟨Bk, (0 : Fin 2), ((Option.get (Bk.statusDue (0 : Fin 2)) (by decide +kernel)) : Byte), by decide +kernel⟩,
   ⟨({ V with variantN := true }), (0 : Fin 16), (0 : Fin 2), false, (0 : Half), vs, .valveFrame, by decide +kernel⟩⟩
end P10d

namespace P11a
def w (n : Nat) : Word := BitVec.ofNat 32 n
def R0 : State := rings (rg [(0x2A0000, w (2^18 + 3)), (0x2A0008, 0x1), (0x2A0010, 0x4), (0x2A0014, 3), (0x2A0100, w (2^31 + 27 * 2^24)), (0x2A0108, 2), (0x2A010C, 1)] base0)
def R1 : State := R0.setReg 0x2A0000 (w (2^31 + 2^18 + 3))
def blk (b : Nat) : LineBlock := { ctx := 0, b, refused := true, width := 2, lines := [] }
def wr (l : List Nat) (s : State) : State := l.foldl (fun s b => s.rewindWrite (blk b) [] 0 [] []) s
def R2 : State := wr [3, 4, 5, 6] R1
def j0 : ArchJob := { lane := 0, record := List.replicate 300 7, b1 := 4, b2 := 6, col := 1, cols := 8 }
def jobs (l : List ArchJob) (s : State) : State := { s with archive := { s.archive with jobs := l } }
def arc (f : ArchiveU → ArchiveU) (s : State) : State := { s with archive := f s.archive }
def held (x : Word) (s : State) : State := { s with held := tset none s.held 0x2A011C (some x) }
def ended : State := jobs [{ j0 with started := true, entries := [List.replicate 4 0], bits := [1, 2, 3] }] R0
def held6 : State := jobs [j0] { R1 with rewind := { R1.rewind with last := [(0, 1)] }, bonded := writeBytes [] (R1.idxBase + 0x84) [6] }
/-- Hypotheses of `Obligations.RewindAndArchive` met together, clause by clause. -/
theorem test_wit_RewindAndArchive :
    (∃ (s : State) (v : Word) (u : State), s.answers 0 0x2A0000 = true ∧ s.sealed = false ∧ s.rewOn = false ∧ bit v 31 = true ∧ u = s.writeFields 0x2A0000 0x09 0x71 v ∧ u.exclusiveMeets 2 u.rewBase u.rewBytes = none ∧ u.exclusiveMeets 3 u.idxBase (u.idxCount * 1216) = none) ∧
    (∃ (s : State) (v : Word) (u : State), s.answers 0 0x2A0000 = true ∧ s.sealed = false ∧ s.rewOn = false ∧ bit v 31 = true ∧ u = s.writeFields 0x2A0000 0x09 0x71 v ∧ (u.exclusiveMeets 2 u.rewBase u.rewBytes ≠ none ∨ u.exclusiveMeets 3 u.idxBase (u.idxCount * 1216) ≠ none)) ∧
    (∃ (s : State) (v : Word), s.answers 0 0x2A0000 = true ∧ s.sealed = false ∧ s.rewOn = true ∧ bit v 31 = false ∧ s.rewindWriteIgnored 0x2A0000 v = false) ∧
    (∃ (s : State) (v : Word), s.answers 0 0x2A0000 = true ∧ s.sealed = false ∧ s.rewOn = true ∧ bit v 31 = false ∧ s.rewindWriteIgnored 0x2A0000 v = true) ∧
    (∃ (s : State) (j : ArchJob) (rest : List ArchJob), s.serves = true ∧ s.archive.jobs = j :: rest ∧ j.started = false ∧ s.flag 0x2A0100 31 = true ∧ s.jobReady j = true ∧ s.deferAdmits = true) ∧
    (∃ (s : State) (j : ArchJob) (rest : List ArchJob), s.archive.jobs = j :: rest ∧ (j.started = true ∨ s.flag 0x2A0100 31 = false ∨ s.jobReady j = false)) ∧
    (∃ (s : State) (j : ArchJob) (rest : List ArchJob), s.archive.jobs = j :: rest ∧ j.started = false) ∧
    (∃ (s : State) (j : ArchJob) (rest : List ArchJob) (n : Nat), s.archive.jobs = j :: rest ∧ j.started = true ∧ n = (s.archEntry j).length ∧ s.archive.wpos + n - s.archive.rpos ≤ s.archBytes) ∧
    (∃ (s : State) (j : ArchJob) (rest : List ArchJob) (n : Nat), s.archive.jobs = j :: rest ∧ j.started = true ∧ n = (s.archEntry j).length ∧ s.archBytes < s.archive.wpos + n - s.archive.rpos) ∧
    (∃ (s : State) (hi : Word) (lo : Word) (x : Nat), s.answers 0 0x2A0120 = true ∧ tget none s.held 0x2A011C = some lo ∧ x = hi.toNat * 2 ^ 32 + lo.toNat) :=
  ⟨⟨R0, (w (2^31)), (R0.writeFields 0x2A0000 0x09 0x71 (w (2^31)) : State), by decide +kernel⟩,
   ⟨State.reset, (w (2^31)), (State.reset.writeFields 0x2A0000 0x09 0x71 (w (2^31)) : State), by decide +kernel⟩,
   ⟨R1, (w (2^18 + 3)), by decide +kernel⟩,
   ⟨R1, (0 : Word), by decide +kernel⟩,
   ⟨held6, (((held6.archive.jobs)[0]'(by decide +kernel)) : ArchJob), ((List.drop 1 (held6.archive.jobs)) : List ArchJob), by decide +kernel⟩,
   ⟨(jobs [j0] R1), ((((jobs [j0] R1).archive.jobs)[0]'(by decide +kernel)) : ArchJob), ((List.drop 1 ((jobs [j0] R1).archive.jobs)) : List ArchJob), by decide +kernel⟩,
   ⟨(jobs [j0] R1), ((((jobs [j0] R1).archive.jobs)[0]'(by decide +kernel)) : ArchJob), ((List.drop 1 ((jobs [j0] R1).archive.jobs)) : List ArchJob), by decide +kernel⟩,
   ⟨ended, (((ended.archive.jobs)[0]'(by decide +kernel)) : ArchJob), ((List.drop 1 (ended.archive.jobs)) : List ArchJob), ((ended.archEntry (((ended.archive.jobs)[0]'(by decide +kernel)) : ArchJob)).length : Nat), by decide +kernel⟩,
   ⟨((arc (fun a => { a with wpos := 2^20, rpos := 0 }) ended)), (((((arc (fun a => { a with wpos := 2^20, rpos := 0 }) ended)).archive.jobs)[0]'(by decide +kernel)) : ArchJob), ((List.drop 1 (((arc (fun a => { a with wpos := 2^20, rpos := 0 }) ended)).archive.jobs)) : List ArchJob), ((((arc (fun a => { a with wpos := 2^20, rpos := 0 }) ended)).archEntry (((((arc (fun a => { a with wpos := 2^20, rpos := 0 }) ended)).archive.jobs)[0]'(by decide +kernel)) : ArchJob)).length : Nat), by decide +kernel⟩,
   ⟨(held 512 (arc (fun a => { a with ends := [256, 512, 1024] }) R2)), (0 : Word), ((Option.get (tget none (held 512 (arc (fun a => { a with ends := [256, 512, 1024] }) R2)).held 0x2A011C) (by decide +kernel)) : Word), ((0 : Word).toNat * 2 ^ 32 + ((Option.get (tget none (held 512 (arc (fun a => { a with ends := [256, 512, 1024] }) R2)).held 0x2A011C) (by decide +kernel)) : Word).toNat : Nat), by decide +kernel⟩⟩
end P11a

namespace P11b
def B : State := rings (dox (.polderCreate 1 0x80000000) (rg (pc 1 6) base0))
def d0 : DescHdr := { fn := 0, ring := 2, tag := 8, irq := true }
def sb : StreamBlock := { format := 1, chroma := 1, width := 64, height := 4, rate := 100, qdepth := 0, qp := 30, lagMs := 0, base := 0x100 }
def se : StreamBlock := { format := 4, chroma := 0, width := 64, height := 16, rate := 100, qdepth := 2, qp := 60, lagMs := 20000, base := 0x100 }
def O1 : State := dox (.streamOpen d2 1 false sb) (ring 2 4 (ring 2 2 B))
def O2 : State := dox (.streamOpen d2 2 true se) O1
def st (n : Nat) (f : Stream → Stream) (s : State) : State := s.setStream n ((s.stream n).map f)
def d24 : DescHdr := { d2 with ring := 4 }
def F1 : State := dox (.au d2 true 0x100 20) { O2 with log := { O2.log with host := writeBytes O2.log.host 0x100 (List.replicate 20 3) } }
def F2 : State := dox (.picture d24 0) (dox (.au d2 false 0x100 20) F1)
/-- Hypotheses of `Obligations.CodecStreams` met together, clause by clause. -/
theorem test_wit_CodecStreams :
    (∃ (s : State) (d : DescHdr) (w : Nat) (enc : Bool) (b : StreamBlock) (n : Nat), s.serves = true ∧ s.mayBind d.fn w = true ∧ State.formatOk enc b = true ∧ s.streamFits enc b = true ∧ n = s.freeStream enc) ∧
    (∃ (s : State) (d : DescHdr) (w : Nat) (enc : Bool) (b : StreamBlock), s.serves = true ∧ s.mayBind d.fn w = false) ∧
    (∃ (s : State) (d : DescHdr) (w : Nat) (enc : Bool) (b : StreamBlock), s.serves = true ∧ s.mayBind d.fn w = true ∧ State.formatOk enc b = false) ∧
    (∃ (s : State) (d : DescHdr) (w : Nat) (enc : Bool) (b : StreamBlock), s.serves = true ∧ s.mayBind d.fn w = true ∧ State.formatOk enc b = true ∧ s.streamFits enc b = false) ∧
    (∃ (s : State) (d : DescHdr) (n : Nat) (x : Stream), s.serves = true ∧ s.stream n = some x ∧ x.fn = d.fn.val ∧ x.encode = false ∧ x.suspended = true) ∧
    (∃ (s : State) (d : DescHdr) (n : Nat) (x : Stream), s.serves = true ∧ s.stream n = some x ∧ x.fn ≠ d.fn.val) ∧
    (∃ (s : State) (d : DescHdr) (addr : Nat) (len : Nat) (irap : Bool) (n : Nat) (x : Stream), s.serves = true ∧ s.ringStream d.fn d.ring = some (n, x) ∧ s.stream n = some x ∧ x.encode = false ∧ (x.suspended = true ∨ x.qdepth ≤ x.waiting.length)) ∧
    (∃ (s : State) (d : DescHdr) (addr : Nat) (len : Nat) (irap : Bool) (n : Nat) (x : Stream), s.serves = true ∧ s.ringStream d.fn d.ring = some (n, x) ∧ s.stream n = some x ∧ x.encode = false ∧ x.suspended = false ∧ x.waiting.length < x.qdepth ∧ (x.needIrap = none ∨ irap = true)) ∧
    (∃ (s : State) (d : DescHdr) (addr : Nat) (len : Nat) (irap : Bool) (n : Nat) (x : Stream), s.serves = true ∧ s.ringStream d.fn d.ring = some (n, x) ∧ s.stream n = some x ∧ x.encode = false ∧ x.suspended = false ∧ x.waiting.length < x.qdepth ∧ x.needIrap ≠ none ∧ irap = false) ∧
    (∃ (s : State) (d : DescHdr) (off : Nat) (n : Nat) (x : Stream), s.serves = true ∧ s.ringStream d.fn d.ring = some (n, x) ∧ s.stream n = some x ∧ x.encode = true ∧ x.qdepth ≤ x.waiting.length) ∧
    (∃ (s : State) (d : DescHdr) (off : Nat) (n : Nat) (x : Stream), s.serves = true ∧ s.ringStream d.fn d.ring = some (n, x) ∧ s.stream n = some x ∧ x.encode = true ∧ x.waiting.length < x.qdepth) ∧
    (∃ (s : State) (enc : Bool) (i : Nat) (errs : List SliceError) (n : Nat) (x : Stream) (p : Picture) (rest : List Picture), i < 64 ∧ n = (if enc then 0x40 + i else i) ∧ s.stream n = some x ∧ x.encode = enc ∧ x.waiting = p :: rest ∧ p.started = true) ∧
    (∃ (s : State), s.now - s.codec.windowAt < 1000000) ∧
    (∃ (s : State), 1000000 ≤ s.now - s.codec.windowAt) ∧
    (∃ (s : State) (n : Nat) (x : Stream) (a : Nat), n < 64 ∧ s.stream n = some x ∧ x.encode = false ∧ x.suspended = false ∧ x.lagFrom = some a ∧ x.pixels * 1000 / max 1 x.rate + x.lagMs * 1000000 < s.now - a) ∧
    (∃ (s : State) (n : Nat) (x : Stream) (a : Nat), n < 64 ∧ s.stream n = some x ∧ x.encode = false ∧ x.suspended = false ∧ x.lagFrom = some a ∧ s.now - a ≤ x.pixels * 1000 / max 1 x.rate + x.lagMs * 1000000) :=
  ⟨⟨B, d2, (1 : Nat), false, sb, (B.freeStream false : Nat), by decide +kernel⟩,
   ⟨base0, d2, (0 : Nat), false, sb, by decide +kernel⟩,
   ⟨B, d2, (1 : Nat), false, se, by decide +kernel⟩,
   ⟨(st 0 (fun x => { x with rate := 3950 }) (ring 2 6 O2)), d2, (3 : Nat), false, sb, by decide +kernel⟩,
   ⟨(st 0 (fun x => { x with suspended := true }) F1), d2, (0 : Nat), ((Option.get ((st 0 (fun x => { x with suspended := true }) F1).stream (0 : Nat)) (by decide +kernel)) : Stream), by decide +kernel⟩,
   ⟨O1, d0, (0 : Nat), ((Option.get (O1.stream (0 : Nat)) (by decide +kernel)) : Stream), by decide +kernel⟩,
   ⟨(st 0 (fun x => { x with suspended := true }) F1), d2, (0 : Nat), (0 : Nat), false, ((Prod.fst ((Option.get ((st 0 (fun x => { x with suspended := true }) F1).ringStream d2.fn d2.ring) (by decide +kernel)))) : Nat), ((Prod.snd ((Option.get ((st 0 (fun x => { x with suspended := true }) F1).ringStream d2.fn d2.ring) (by decide +kernel)))) : Stream), by decide +kernel⟩,
   ⟨O1, d2, (0 : Nat), (0 : Nat), false, ((Prod.fst ((Option.get (O1.ringStream d2.fn d2.ring) (by decide +kernel)))) : Nat), ((Prod.snd ((Option.get (O1.ringStream d2.fn d2.ring) (by decide +kernel)))) : Stream), by decide +kernel⟩,
   ⟨(st 0 (fun x => { x with needIrap := some 0x1031#16 }) O2), d2, (0 : Nat), (0 : Nat), false, ((Prod.fst ((Option.get ((st 0 (fun x => { x with needIrap := some 0x1031#16 }) O2).ringStream d2.fn d2.ring) (by decide +kernel)))) : Nat), ((Prod.snd ((Option.get ((st 0 (fun x => { x with needIrap := some 0x1031#16 }) O2).ringStream d2.fn d2.ring) (by decide +kernel)))) : Stream), by decide +kernel⟩,
   ⟨(dox (.picture d24 0) F2), d24, (0 : Nat), ((Prod.fst ((Option.get ((dox (.picture d24 0) F2).ringStream d24.fn d24.ring) (by decide +kernel)))) : Nat), ((Prod.snd ((Option.get ((dox (.picture d24 0) F2).ringStream d24.fn d24.ring) (by decide +kernel)))) : Stream), by decide +kernel⟩,
   ⟨O2, d24, (0 : Nat), ((Prod.fst ((Option.get (O2.ringStream d24.fn d24.ring) (by decide +kernel)))) : Nat), ((Prod.snd ((Option.get (O2.ringStream d24.fn d24.ring) (by decide +kernel)))) : Stream), by decide +kernel⟩,
   ⟨F1, false, (0 : Nat), [], ((if false then 0x40 + (0 : Nat) else (0 : Nat)) : Nat), ((Option.get (F1.stream ((if false then 0x40 + (0 : Nat) else (0 : Nat)) : Nat)) (by decide +kernel)) : Stream), (((((Option.get (F1.stream ((if false then 0x40 + (0 : Nat) else (0 : Nat)) : Nat)) (by decide +kernel)) : Stream).waiting)[0]'(by decide +kernel)) : Picture), ((List.drop 1 (((Option.get (F1.stream ((if false then 0x40 + (0 : Nat) else (0 : Nat)) : Nat)) (by decide +kernel)) : Stream).waiting)) : List Picture), by decide +kernel⟩,
   ⟨({ F1 with codec := { F1.codec with windowAt := F1.now - 999999 } }), by decide +kernel⟩,
   ⟨base0, by decide +kernel⟩,
   ⟨({ F1 with now := F1.now + 100000001 }), (0 : Nat), ((Option.get (({ F1 with now := F1.now + 100000001 }).stream (0 : Nat)) (by decide +kernel)) : Stream), ((Option.get (((Option.get (({ F1 with now := F1.now + 100000001 }).stream (0 : Nat)) (by decide +kernel)) : Stream).lagFrom) (by decide +kernel)) : Nat), by decide +kernel⟩,
   ⟨F1, (0 : Nat), ((Option.get (F1.stream (0 : Nat)) (by decide +kernel)) : Stream), ((Option.get (((Option.get (F1.stream (0 : Nat)) (by decide +kernel)) : Stream).lagFrom) (by decide +kernel)) : Nat), by decide +kernel⟩⟩
end P11b

namespace P11c
def B : State := rings (dox (.polderCreate 1 0x80000000) (rg (pc 1 6) base0))
def w (n : Nat) : Word := BitVec.ofNat 32 n
def x0' : Ctx := { polder := 1, ring := 2, prio := 1, sliceUs := 100 }
def R1 : State := (rg [(0x2A0000, w (2^18 + 3)), (0x2A0008, 0x1), (0x2A0010, 0x4), (0x2A0014, 3), (State.sOff 0, w (2 * 2^29 + 1)), (State.slotOff 0 + 0x24, 0x40000000), (State.slotOff 0 + 0x2C, 4)] B).setReg 0x2A0000 (w (2^31 + 2^18 + 3))
def r0 : ReplayParams := { source := 0, contexts := 0x20001, b1 := 4, b2 := 6, recipe := 0, images := [], warm := 0, pipe := 0, result := 0x100, resultLen := 256 }
def R2' : State := { R1 with rewind := { R1.rewind with ipos := 1, last := [(0, 1)] }, bonded := writeBytes R1.bonded (R1.idxBase + 0x84) [4] }
def C2 : State := (R2'.setCtx 3 x0').putRecipe 0x20000 { fn := 2, residentAt := true }
def q0 : Session := { hdr := d2, ctx := 3, params := { r0 with contexts := 1 }, recipe := 0x20000, slot := 0, sets := [(List.replicate 32 0, [])] }
def N2 (q : Session) : State := C2.setSession 0 (some q)
/-- Hypotheses of `Obligations.ReplaySessions` met together, clause by clause. -/
theorem test_wit_ReplaySessions :
    (∃ (s : State) (d : DescHdr) (r : ReplayParams) (c : Nat) (i : Nat) (f : _), s.serves = true ∧ s.ringCtx d.fn d.ring = some c ∧ (List.range 4).find? (fun j => (s.session j).isNone) = some i ∧ s.replayFault d.fn r = some f) ∧
    (∃ (s : State) (d : DescHdr) (r : ReplayParams), s.serves = true ∧ s.ringCtx d.fn d.ring = none) ∧
    (∃ (s : State) (i : Fin 4) (q : Session) (k : Nat) (b : Nat), s.serves = true ∧ s.session i = some q ∧ State.sessionBlock q q.fed = some (k, b) ∧ q.out.length < (s.outRing q.slot (s.fld (State.sOff k) 8 0)).2 / blockMax (s.fld (State.sOff k) 8 0) ∧ s.replayMay q = true ∧ s.fedBlock q k b = none) ∧
    (∃ (s : State) (i : Fin 4) (q : Session) (k : Nat) (b : Nat), s.serves = true ∧ s.session i = some q ∧ State.sessionBlock q q.fed = some (k, b) ∧ s.replayMay q = false) ∧
    (∃ (s : State) (i : Fin 4) (q : Session), s.serves = true ∧ s.session i = some q ∧ State.sessionBlock q q.fed = none ∧ (∀ c ∈ s.ctx q.ctx, (c.jobs = []))) ∧
    (∃ (s : State) (i : Fin 4) (q : Session) (c : _), s.serves = true ∧ s.session i = some q ∧ State.sessionBlock q q.fed = none ∧ s.ctx q.ctx = some c ∧ c.jobs ≠ []) :=
  ⟨⟨C2, d2, ({ r0 with source := 3 }), ((Option.get (C2.ringCtx d2.fn d2.ring) (by decide +kernel)) : Nat), ((Option.get ((List.range 4).find? (fun j => (C2.session j).isNone)) (by decide +kernel)) : Nat), ((Option.get (C2.replayFault d2.fn ({ r0 with source := 3 })) (by decide +kernel))), by decide +kernel⟩,
   ⟨base0, d2, r0, by decide +kernel⟩,
   ⟨(N2 { q0 with params := { q0.params with b1 := 1 } }), (0 : Fin 4), ((Option.get ((N2 { q0 with params := { q0.params with b1 := 1 } }).session (0 : Fin 4)) (by decide +kernel)) : Session), ((Prod.fst ((Option.get (State.sessionBlock ((Option.get ((N2 { q0 with params := { q0.params with b1 := 1 } }).session (0 : Fin 4)) (by decide +kernel)) : Session) ((Option.get ((N2 { q0 with params := { q0.params with b1 := 1 } }).session (0 : Fin 4)) (by decide +kernel)) : Session).fed) (by decide +kernel)))) : Nat), ((Prod.snd ((Option.get (State.sessionBlock ((Option.get ((N2 { q0 with params := { q0.params with b1 := 1 } }).session (0 : Fin 4)) (by decide +kernel)) : Session) ((Option.get ((N2 { q0 with params := { q0.params with b1 := 1 } }).session (0 : Fin 4)) (by decide +kernel)) : Session).fed) (by decide +kernel)))) : Nat), by decide +kernel⟩,
   ⟨({ N2 q0 with power := { C2.power with deferOut := true } }), (0 : Fin 4), ((Option.get (({ N2 q0 with power := { C2.power with deferOut := true } }).session (0 : Fin 4)) (by decide +kernel)) : Session), ((Prod.fst ((Option.get (State.sessionBlock ((Option.get (({ N2 q0 with power := { C2.power with deferOut := true } }).session (0 : Fin 4)) (by decide +kernel)) : Session) ((Option.get (({ N2 q0 with power := { C2.power with deferOut := true } }).session (0 : Fin 4)) (by decide +kernel)) : Session).fed) (by decide +kernel)))) : Nat), ((Prod.snd ((Option.get (State.sessionBlock ((Option.get (({ N2 q0 with power := { C2.power with deferOut := true } }).session (0 : Fin 4)) (by decide +kernel)) : Session) ((Option.get (({ N2 q0 with power := { C2.power with deferOut := true } }).session (0 : Fin 4)) (by decide +kernel)) : Session).fed) (by decide +kernel)))) : Nat), by decide +kernel⟩,
   ⟨(N2 { q0 with fed := 3 }), (0 : Fin 4), ((Option.get ((N2 { q0 with fed := 3 }).session (0 : Fin 4)) (by decide +kernel)) : Session), by decide +kernel⟩,
   ⟨((N2 { q0 with fed := 3 }).setCtx 3 { x0' with jobs := [{ id := 7, fn := 2, ring := 2, tag := 5, recipe := 0x20000, code := 0, first := 0, count := 3 }] }), (0 : Fin 4), ((Option.get (((N2 { q0 with fed := 3 }).setCtx 3 { x0' with jobs := [{ id := 7, fn := 2, ring := 2, tag := 5, recipe := 0x20000, code := 0, first := 0, count := 3 }] }).session (0 : Fin 4)) (by decide +kernel)) : Session), ((Option.get (((N2 { q0 with fed := 3 }).setCtx 3 { x0' with jobs := [{ id := 7, fn := 2, ring := 2, tag := 5, recipe := 0x20000, code := 0, first := 0, count := 3 }] }).ctx ((Option.get (((N2 { q0 with fed := 3 }).setCtx 3 { x0' with jobs := [{ id := 7, fn := 2, ring := 2, tag := 5, recipe := 0x20000, code := 0, first := 0, count := 3 }] }).session (0 : Fin 4)) (by decide +kernel)) : Session).ctx) (by decide +kernel))), by decide +kernel⟩⟩
theorem test_wit_replay_opens : ∃ (s : State) (d : DescHdr) (r : ReplayParams) (c : Nat) (i : Nat), s.serves = true ∧ s.ringCtx d.fn d.ring = some c ∧
    (List.range 4).find? (fun j => (s.session j).isNone) = some i ∧ s.replayFault d.fn r = none :=
  ⟨C2, d2, { r0 with contexts := BitVec.allOnes 18 }, 3, 0, by decide +kernel, by decide +kernel, by decide +kernel, by
    have e : ∀ g : BitVec 18, BitVec.allOnes 18 &&& g = g := fun g => BitVec.allOnes_and
    simp only [State.replayFault, e, ne_eq, not_true_eq_false, or_false]
    decide +kernel⟩
theorem test_wit_replay_feeds : ∃ (s : State) (i : Fin 4) (q : Session) (k b : Nat) (f : _) (m : Mem), s.serves = true ∧ s.session i = some q ∧
    State.sessionBlock q q.fed = some (k, b) ∧
    q.out.length < (s.outRing q.slot (s.fld (State.sOff k) 8 0)).2 / blockMax (s.fld (State.sOff k) 8 0) ∧ s.replayMay q = true ∧
    s.fedBlock q k b = some f ∧ q.sets.find? (fun x => decide (x.1 = f.set)) = some (f.set, m) :=
  ⟨N2 q0, 0, q0, 0, 4, (Option.get ((N2 q0).fedBlock q0 0 4) (by decide +kernel)), [], by decide +kernel⟩
end P11c

namespace P12
def frz (s : State) : State := { s with lead := { s.lead with holder := none } }
def task0 : TaskRun := { ctx := 0, job := 0, idx := 0, ops := 1, startAt := some 5 }
def A : State := rg (pc 1 6) base0
def B : State := dox (.polderCreate 1 0x80000000) A
def C : State := B.setCtx 3 { polder := 1, ring := 2, prio := 1, sliceUs := 100 }
def sp : List (Nat × Word) := [(0x2B0800, 0x80000003)]
def E : State := rg sp B
def F : State := dox (.lend 0x80900003) E
def G : State := F.setEngine 3 { F.engine 3 with task := some task0 }
/-- Hypotheses of `Obligations.PoldersAndTheSpare` met together, clause by clause. -/
theorem test_wit_PoldersAndTheSpare :
    (∃ (s : State) (p : Fin 6) (v : Word), s.answers 0 (0x2B0018 + 0x100 * p.val) = true ∧ bit v 31 = true ∧ s.freeze = false ∧ s.createFails p = []) ∧
    (∃ (s : State) (p : Fin 6) (v : Word), s.answers 0 (0x2B0018 + 0x100 * p.val) = true ∧ bit v 31 = true ∧ s.freeze = false ∧ s.createFails p ≠ []) ∧
    (∃ (s : State) (p : Fin 6) (v : Word), s.answers 0 (0x2B0018 + 0x100 * p.val) = true ∧ bit v 31 = true ∧ s.freeze = true) ∧
    (∃ (s : State) (p : Fin 6) (v : Word), s.answers 0 (0x2B0018 + 0x100 * p.val) = true ∧ bit v 31 = false) ∧
    (∃ (s : State) (p : Fin 6) (v : Word), s.answers 0 (0x2B0018 + 0x100 * p.val) = true ∧ bit v 30 = false) ∧
    (∃ (s : State) (p : Fin 6) (v : Word), s.answers 0 (0x2B0018 + 0x100 * p.val) = true ∧ bit v 29 = false) ∧
    (∃ (s : State) (p : Fin 6) (v : Word), s.answers 0 (0x2B0018 + 0x100 * p.val) = true ∧ bit v 30 = true ∧ s.freeze = true) ∧
    (∃ (s : State) (p : Fin 6) (v : Word), s.answers 0 (0x2B0018 + 0x100 * p.val) = true ∧ bit v 29 = true ∧ s.freeze = true) ∧
    (∃ (s : State) (p : Fin 6) (v : Word), s.answers 0 (0x2B0018 + 0x100 * p.val) = true ∧ bit v 30 = true ∧ s.freeze = false ∧ s.resizeFail p = none ∧ s.spare.reclaiming = false) ∧
    (∃ (s : State) (p : Fin 6) (v : Word), s.answers 0 (0x2B0018 + 0x100 * p.val) = true ∧ bit v 30 = true ∧ s.freeze = false ∧ s.resizeFail p ≠ none) ∧
    (∃ (s : State) (p : Fin 6) (v : Word), s.answers 0 (0x2B0018 + 0x100 * p.val) = true ∧ bit v 29 = true ∧ s.freeze = false ∧ (s.polder p).made = true ∧ (∀ x ∈ s.allCtxs, x.2.polder ≠ p.val)) ∧
    (∃ (s : State) (p : Fin 6) (v : Word), s.answers 0 (0x2B0018 + 0x100 * p.val) = true ∧ bit v 29 = true ∧ s.freeze = false ∧ (s.polder p).made = true ∧ (∃ x ∈ s.allCtxs, x.2.polder = p.val)) ∧
    (∃ (s : State) (p : Fin 6) (v : Word), s.answers 0 (0x2B0018 + 0x100 * p.val) = true ∧ bit v 29 = true ∧ s.freeze = false ∧ (s.polder p).made = false) ∧
    (∃ (s : State) (v : Word), s.answers 0 0x2B0800 = true ∧ s.flag 0x2B0800 23 = false ∧ s.spare.takeover = none ∧ s.spare.reclaiming = false ∧ bit v 23 = false ∧ s.spareOk v = true ∧ bits v 2 0 < 6 ∧ bits v 22 20 < 6) ∧
    (∃ (s : State) (v : Word), s.answers 0 0x2B0800 = true ∧ s.flag 0x2B0800 23 = false ∧ s.spare.takeover = none ∧ s.spare.reclaiming = false ∧ bit v 23 = false ∧ s.spareOk v = false) ∧
    (∃ (s : State) (v : Word), s.answers 0 0x2B0800 = true ∧ s.flag 0x2B0800 23 = true ∧ bit v 23 = true ∧ (bits v 2 0 ≠ s.fld 0x2B0800 2 0 ∨ bit v 31 ≠ s.flag 0x2B0800 31)) ∧
    (∃ (s : State) (v : Word) (u : State) (e : Nat), s.answers 0 0x2B0800 = true ∧ s.flag 0x2B0800 23 = false ∧ bit v 23 = true ∧ s.spare.takeover = none ∧ s.spare.reclaiming = false ∧ s.spareOk v = true ∧ u = s.writeFields 0x2B0800 0x0A 0x10 v ∧ u.spareOf = some e ∧ u.lendFail e (bits v 22 20) = none) ∧
    (∃ (s : State) (v : Word) (u : State) (e : Nat) (c : _), s.answers 0 0x2B0800 = true ∧ s.flag 0x2B0800 23 = false ∧ bit v 23 = true ∧ s.spare.takeover = none ∧ s.spare.reclaiming = false ∧ s.spareOk v = true ∧ u = s.writeFields 0x2B0800 0x0A 0x10 v ∧ u.spareOf = some e ∧ u.lendFail e (bits v 22 20) = some c) ∧
    (∃ (s : State) (v : Word) (e : Nat) (q : Nat), s.answers 0 0x2B0800 = true ∧ s.flag 0x2B0800 23 = true ∧ bit v 23 = false ∧ s.flag 0x2B0800 31 = true ∧ bit v 31 = true ∧ s.fld 0x2B0800 2 0 = e ∧ bits v 2 0 = e ∧ e < 6 ∧ (s.engine e).retired = false ∧ s.spare.lent = some q ∧ s.holdsStarted e = false ∧ (s.engine e).loading = none) ∧
    (∃ (s : State) (v : Word) (e : Nat) (q : Nat), s.answers 0 0x2B0800 = true ∧ s.flag 0x2B0800 23 = true ∧ bit v 23 = false ∧ s.flag 0x2B0800 31 = true ∧ bit v 31 = true ∧ s.fld 0x2B0800 2 0 = e ∧ bits v 2 0 = e ∧ e < 6 ∧ (s.engine e).retired = false ∧ s.spare.lent = some q ∧ s.holdsStarted e = true) ∧
    (∃ (s : State), (s.flag 0x2B0800 31 = true ∨ (∃ a ∈ s.spare.postedAt, (s.now - a < 3600000000000)))) ∧
    (∃ (s : State), s.flag 0x2B0800 31 = false ∧ (∀ a ∈ s.spare.postedAt, (3600000000000 ≤ s.now - a))) :=
  ⟨⟨A, (1 : Fin 6), (0x80000000 : Word), by decide +kernel⟩,
   ⟨State.reset, (1 : Fin 6), (0x80000000 : Word), by decide +kernel⟩,
   ⟨(frz A), (1 : Fin 6), (0x80000000 : Word), by decide +kernel⟩,
   ⟨State.reset, (1 : Fin 6), (0 : Word), by decide +kernel⟩,
   ⟨State.reset, (1 : Fin 6), (0 : Word), by decide +kernel⟩,
   ⟨State.reset, (1 : Fin 6), (0 : Word), by decide +kernel⟩,
   ⟨(frz A), (1 : Fin 6), (0x40000000 : Word), by decide +kernel⟩,
   ⟨(frz A), (1 : Fin 6), (0x20000000 : Word), by decide +kernel⟩,
   ⟨B, (1 : Fin 6), (0x40000000 : Word), by decide +kernel⟩,
   ⟨State.reset, (1 : Fin 6), (0x40000000 : Word), by decide +kernel⟩,
   ⟨B, (1 : Fin 6), (0x20000000 : Word), by decide +kernel⟩,
   ⟨C, (1 : Fin 6), (0x20000000 : Word), by decide +kernel⟩,
   ⟨State.reset, (1 : Fin 6), (0x20000000 : Word), by decide +kernel⟩,
   ⟨State.reset, (0 : Word), by decide +kernel⟩,
   ⟨State.reset, (0x80000006 : Word), by decide +kernel⟩,
   ⟨F, (0x80900004 : Word), by decide +kernel⟩,
   ⟨B, (0x80900003 : Word), (B.writeFields 0x2B0800 0x0A 0x10 (0x80900003 : Word) : State), ((Option.get ((B.writeFields 0x2B0800 0x0A 0x10 (0x80900003 : Word) : State).spareOf) (by decide +kernel)) : Nat), by decide +kernel⟩,
   ⟨State.reset, (0x80900003 : Word), (State.reset.writeFields 0x2B0800 0x0A 0x10 (0x80900003 : Word) : State), ((Option.get ((State.reset.writeFields 0x2B0800 0x0A 0x10 (0x80900003 : Word) : State).spareOf) (by decide +kernel)) : Nat), ((Option.get ((State.reset.writeFields 0x2B0800 0x0A 0x10 (0x80900003 : Word) : State).lendFail ((Option.get ((State.reset.writeFields 0x2B0800 0x0A 0x10 (0x80900003 : Word) : State).spareOf) (by decide +kernel)) : Nat) (bits (0x80900003 : Word) 22 20)) (by decide +kernel))), by decide +kernel⟩,
   ⟨F, (0x80000003 : Word), (F.fld 0x2B0800 2 0 : Nat), ((Option.get (F.spare.lent) (by decide +kernel)) : Nat), by decide +kernel⟩,
   ⟨G, (0x80000003 : Word), (G.fld 0x2B0800 2 0 : Nat), ((Option.get (G.spare.lent) (by decide +kernel)) : Nat), by decide +kernel⟩,
   ⟨E, by decide +kernel⟩,
   ⟨State.reset, by decide +kernel⟩⟩
end P12

namespace P13
def B : State := rings (dox (.polderCreate 1 0x80000000) (rg (pc 1 6) base0))
def task1 : TaskRun := { ctx := 3, job := 7, idx := 0, ops := 1 }
def C : State := B.setCtx 3 { x0 with jobs := [job0] }
def Cr : State := B.setCtx 3 { x0 with jobs := [job0], resident := true, ran := 100000, blockedSince := some 5 }
def Cn : State := Cr.setCtx 5 { x0 with jobs := [{ job0 with id := 8 }], ring := 4 }
def w : State := B.setCtx 3 { x0 with resident := true, waitMet := false, waitOn := some ({ space := .bonded, addr := 64, len := 8 }, 0) }
def ld (s : State) : State := s.setEngine 1 { s.engine 1 with loading := some (3, 5) }
def busy : State := e1 { task1 with startAt := some 5 } ({ C with engines := [] })
/-- Hypotheses of `Obligations.ContextsAndTheirScheduling` met together, clause by clause. -/
theorem test_wit_ContextsAndTheirScheduling :
    (∃ (s : State) (d : DescHdr) (w : Nat) (c : Nat) (b : SchedBlock) (p : Nat), s.serves = true ∧ d.fn.val = p + 1 ∧ (s.polder p).made = true ∧ s.mayBind d.fn w = true ∧ b.prio ≤ 3 ∧ b.cls ≤ 1 ∧ 50 ≤ b.sliceUs ∧ b.sliceUs ≤ 10000 ∧ (s.switchDesc p).1 ≤ 2097152 / (s.polder p).resMax ∧ (s.switchDesc p).2 ≤ 2048 ∧ (s.allCtxs.filter (fun y => decide (y.2.polder = p))).length < (s.polder p).ctxMax ∧ s.freeCtx = some c) ∧
    (∃ (s : State) (d : DescHdr) (w : Nat) (c : Nat) (b : SchedBlock) (p : Nat), s.serves = true ∧ d.fn.val = p + 1 ∧ (s.polder p).made = true ∧ s.mayBind d.fn w = true ∧ (3 < b.prio ∨ 1 < b.cls ∨ b.sliceUs < 50 ∨ 10000 < b.sliceUs) ∧ p < 6) ∧
    (∃ (s : State) (d : DescHdr) (w : Nat) (c : Nat) (b : SchedBlock) (p : Nat), s.serves = true ∧ d.fn.val = p + 1 ∧ (s.polder p).made = true ∧ s.mayBind d.fn w = true ∧ b.prio ≤ 3 ∧ b.cls ≤ 1 ∧ 50 ≤ b.sliceUs ∧ b.sliceUs ≤ 10000 ∧ (s.switchDesc p).1 ≤ 2097152 / (s.polder p).resMax ∧ (s.switchDesc p).2 ≤ 2048 ∧ (s.polder p).ctxMax ≤ (s.allCtxs.filter (fun y => decide (y.2.polder = p))).length ∧ p < 6) ∧
    (∃ (s : State) (d : DescHdr) (w : Nat) (b : SchedBlock), s.serves = true ∧ (d.fn.val = 0 ∨ (s.polder (d.fn.val - 1)).made = false ∨ s.mayBind d.fn w = false)) ∧
    (∃ (s : State) (d : DescHdr) (c : Nat) (x : Ctx), s.serves = true ∧ s.ctx c = some x ∧ d.fn.val = x.polder + 1 ∧ x.doomed = none ∧ x.jobs = [] ∧ (∀ e a, ((s.engine e).task = some a → a.ctx ≠ c))) ∧
    (∃ (s : State) (d : DescHdr) (c : Nat), s.serves = true ∧ (∀ x ∈ s.ctx c, ((d.fn.val ≠ x.polder + 1 ∨ x.doomed ≠ none)))) ∧
    (∃ (s : State) (c : Fin 64), s.ctx c = none) ∧
    (∃ (s : State) (c : Fin 64) (x : Ctx) (r : Region) (th : DWord) (ps : Bool) (a : Nat), s.ctx c = some x ∧ x.waitMet = false ∧ x.waitOn = some (r, th) ∧ s.localAt x.polder { r with len := 8 } = some (ps, a) ∧ (s.polder x.polder).resMax ≤ (s.allCtxs.filter (fun y => decide (y.2.polder = x.polder) && y.2.resident)).length) ∧
    (∃ (s : State) (e : Fin 6) (c : Fin 64), (∀ k a, ((s.engine e).loading = some (k, a) → (k ≠ c.val ∨ s.now < a)))) ∧
    (∃ (s : State) (e : Fin 6) (c : Fin 64) (a : Nat) (p : Nat) (y : Ctx), (s.engine e).loading = some (c.val, a) ∧ a ≤ s.now ∧ (s.engine e).polder = some p ∧ (s.engine e).leaving = false ∧ s.ctx c = some y ∧ y.doomed = none ∧ (∀ z ∈ s.allCtxs, z.2.ending = none) ∧ y.ending = none) ∧
    (∃ (s : State) (c : Fin 64) (x : Ctx), s.ctx c = some x ∧ (x.resident = false ∨ x.ending ≠ none ∨ s.sliceRun x < x.sliceUs * 1000)) ∧
    (∃ (s : State) (c : Fin 64) (x : Ctx), s.ctx c = some x ∧ x.resident = true ∧ x.ending = none ∧ x.sliceUs * 1000 ≤ s.sliceRun x ∧ (∀ y ∈ s.outside x.polder, (y.2.prio < x.prio ∨ y.2.deferred = true ∨ s.ready y.1 y.2 = false))) ∧
    (∃ (s : State) (c : Fin 64) (x : Ctx), s.ctx c = some x ∧ x.resident = true ∧ x.ending = none ∧ x.sliceUs * 1000 ≤ s.sliceRun x ∧ (∃ y ∈ s.outside x.polder, (x.prio ≤ y.2.prio ∧ y.2.deferred = false ∧ s.ready y.1 y.2 = true))) ∧
    (∃ (s : State) (p : Fin 6), (∀ x ∈ s.allCtxs, s.ctx x.1 = some x.2) ∧ ((∀ x ∈ s.allCtxs, (x.2.polder = p.val → x.2.resident = false)) ∨ (∃ x ∈ s.allCtxs, (x.2.polder = p.val ∧ x.2.resident = true ∧ (x.2.ending ≠ none ∨ x.2.blockedSince = none))) ∨ (∀ y ∈ s.outside p, (y.2.deferred = true ∨ s.ready y.1 y.2 = false)))) ∧
    (∃ (s : State) (p : Fin 6), (∀ x ∈ s.allCtxs, s.ctx x.1 = some x.2) ∧ (∃ x ∈ s.allCtxs, (x.2.polder = p.val ∧ x.2.resident = true)) ∧ (∀ x ∈ s.allCtxs, (x.2.polder = p.val → (x.2.resident = true → (x.2.ending = none ∧ (∃ a ∈ x.2.blockedSince, (a + (s.polder p).blockUs * 1000 ≤ s.now)))))) ∧ (∃ y ∈ s.outside p, (y.2.deferred = false ∧ s.ready y.1 y.2 = true))) :=
  ⟨⟨B, ({ fn := 2, ring := 0, tag := 9 }), (1 : Nat), (0 : Nat), ({ prio := 1, cls := 0, sliceUs := 100 }), (1 : Nat), by decide +kernel⟩,
   ⟨B, ({ fn := 2, ring := 0, tag := 9 }), (1 : Nat), (0 : Nat), ({ prio := 7, cls := 0, sliceUs := 100 }), (1 : Nat), by decide +kernel⟩,
   ⟨((B.setCtx 3 x0).setCtx 5 x0), ({ fn := 2, ring := 0, tag := 9 }), (1 : Nat), (0 : Nat), ({ prio := 1, cls := 0, sliceUs := 100 }), (1 : Nat), by decide +kernel⟩,
   ⟨State.reset, ({ fn := 2, ring := 0, tag := 9 }), (0 : Nat), ({ prio := 1, cls := 0, sliceUs := 100 }), by decide +kernel⟩,
   ⟨({ B with engines := [] }.setCtx 3 x0), ({ fn := 2, ring := 0, tag := 9 }), (3 : Nat), ((Option.get (({ B with engines := [] }.setCtx 3 x0).ctx (3 : Nat)) (by decide +kernel)) : Ctx), by decide +kernel, by decide +kernel, by decide +kernel, by decide +kernel, by decide +kernel, (by intro e a h; have h2 : (tget {} ([] : Tab Engine) e).task = some a := h; simp [tget] at h2)⟩,
   ⟨State.reset, ({ fn := 2, ring := 0, tag := 9 }), (0 : Nat), by decide +kernel⟩,
   ⟨State.reset, (3 : Fin 64), by decide +kernel⟩,
   ⟨w, (3 : Fin 64), ((Option.get (w.ctx (3 : Fin 64)) (by decide +kernel)) : Ctx), ((Prod.fst ((Option.get (((Option.get (w.ctx (3 : Fin 64)) (by decide +kernel)) : Ctx).waitOn) (by decide +kernel)))) : Region), ((Prod.snd ((Option.get (((Option.get (w.ctx (3 : Fin 64)) (by decide +kernel)) : Ctx).waitOn) (by decide +kernel)))) : DWord), ((Prod.fst ((Option.get (w.localAt ((Option.get (w.ctx (3 : Fin 64)) (by decide +kernel)) : Ctx).polder { ((Prod.fst ((Option.get (((Option.get (w.ctx (3 : Fin 64)) (by decide +kernel)) : Ctx).waitOn) (by decide +kernel)))) : Region) with len := 8 }) (by decide +kernel)))) : Bool), ((Prod.snd ((Option.get (w.localAt ((Option.get (w.ctx (3 : Fin 64)) (by decide +kernel)) : Ctx).polder { ((Prod.fst ((Option.get (((Option.get (w.ctx (3 : Fin 64)) (by decide +kernel)) : Ctx).waitOn) (by decide +kernel)))) : Region) with len := 8 }) (by decide +kernel)))) : Nat), by decide +kernel⟩,
   ⟨State.reset, (1 : Fin 6), (3 : Fin 64), fun k a h => absurd h (by rw [show (State.reset.engine (1 : Fin 6)).loading = none by decide +kernel]; simp)⟩,
   ⟨(ld C), (1 : Fin 6), (3 : Fin 64), (5 : Nat), ((Option.get (((ld C).engine (1 : Fin 6)).polder) (by decide +kernel)) : Nat), ((Option.get ((ld C).ctx (3 : Fin 64)) (by decide +kernel)) : Ctx), by decide +kernel⟩,
   ⟨(B.setCtx 3 x0), (3 : Fin 64), ((Option.get ((B.setCtx 3 x0).ctx (3 : Fin 64)) (by decide +kernel)) : Ctx), by decide +kernel⟩,
   ⟨Cr, (3 : Fin 64), ((Option.get (Cr.ctx (3 : Fin 64)) (by decide +kernel)) : Ctx), by decide +kernel⟩,
   ⟨Cn, (3 : Fin 64), ((Option.get (Cn.ctx (3 : Fin 64)) (by decide +kernel)) : Ctx), by decide +kernel⟩,
   ⟨State.reset, (1 : Fin 6), by decide +kernel⟩,
   ⟨Cn, (1 : Fin 6), by decide +kernel⟩⟩
theorem test_wit_context_removed_while_its_task_runs : ∃ (s : State) (d : DescHdr) (c : Nat) (x : Ctx), s.serves = true ∧ s.ctx c = some x ∧
    d.fn.val = x.polder + 1 ∧ x.doomed = none ∧ (∃ e, e < 6 ∧ ∃ a, (s.engine e).task = some a ∧ a.ctx = c) ∧
    (∀ e a, (s.engine e).task = some a → a.ctx = c → a.startAt ≠ none) ∧ (∀ j ∈ x.jobs, s.jobRunning c j.id = true) :=
  ⟨busy, { fn := 2, ring := 0, tag := 9 }, 3, (Option.get (busy.ctx 3) (by decide +kernel)), by decide +kernel, by decide +kernel, by decide +kernel,
    by decide +kernel, ⟨1, by decide, _, rfl, rfl⟩, by
      intro e a h _
      by_cases he : e = 1
      · subst he; rw [show a = { task1 with startAt := some 5 } from (Option.some.inj (h.symm.trans rfl))]; simp
      · have h2 : (tget {} (tset {} ([] : Tab Engine) 1 { task := some { task1 with startAt := some 5 } }) e).task = some a := h
        rw [tget_tset_other _ _ _ he] at h2; simp [tget] at h2,
    by decide +kernel⟩
end P13

namespace P14
def B : State := rings (dox (.polderCreate 1 0x80000000) (rg (pc 1 6) base0))
def kvOn (s : State) : State := { rg [(0x27000C, 0), (0x270008, 0x00020001), (0x270100, 0x000A0000)] s with kv := { s.kv with running := true, slots := 4, treeRunning := true } }
def B1 : State := kvOn (B.setPolder 1 { B.polder 1 with size := 0x8000 })
def d1 : DescHdr := { fn := 2, ring := 2, tag := 9 }
def act (s : State) : State := { s with active := tset none s.active 1 (some key) }
def cx (s : State) : State := s.setCtx 3 { x0 with ring := 2 }
def rcp : Recipe := { fn := 2, hashes := [[7]], todo := 1, sections := [{ typ := 1, off := 0, len := 0 }], progs := [{ sec := 0, kind := 2, tasks := [(1, 5)] }] }
def Pk : State := B1.putRecipe key rcp
/-- Hypotheses of `Obligations.RecipesAndJobs` met together, clause by clause. -/
theorem test_wit_RecipesAndJobs :
    (∃ (s : State) (d : DescHdr) (addr : Nat) (len : Nat), s.serves = true ∧ (d.fn.val = 0 ∨ (s.polder (d.fn.val - 1)).made = false ∨ (s.polder (d.fn.val - 1)).size < len)) ∧
    (∃ (s : State) (key : Nat), s.serves = true ∧ (s.recipe key = none ∨ s.kv.treeRunning = false ∨ (∃ r ∈ s.recipe key, ((r.todo = 0 ∨ r.failed = true))))) ∧
    (∃ (s : State) (key : Nat) (r : Recipe) (i : Nat), s.serves = true ∧ s.recipe key = some r ∧ r.todo ≠ 0 ∧ r.failed = false ∧ s.kv.treeRunning = true ∧ s.lookup (r.hashes.getD r.nodes.length []) = some i) ∧
    (∃ (s : State) (key : Nat) (r : Recipe) (i : Nat) (slot : Nat) (u : State), s.serves = true ∧ s.recipe key = some r ∧ r.todo ≠ 0 ∧ r.failed = false ∧ s.kv.treeRunning = true ∧ s.lookup (r.hashes.getD r.nodes.length []) = none ∧ s.freeWay (r.hashes.getD r.nodes.length []) = some i ∧ s.kvResv + 1 + s.kvGrow ≤ s.kvFree ∧ s.kvTake = some (slot, u)) ∧
    (∃ (s : State) (key : Nat) (e : Half) (r : Recipe), s.serves = true ∧ s.recipe key = some r ∧ r.todo ≠ 0 ∧ r.failed = false ∧ s.kv.treeRunning = true ∧ s.lookup (r.hashes.getD r.nodes.length []) = none ∧ ((s.freeWay (r.hashes.getD r.nodes.length []) = none ∧ e = 0x3A01#16) ∨ (s.freeWay (r.hashes.getD r.nodes.length []) ≠ none ∧ (s.kvFree < s.kvResv + 1 + s.kvGrow ∨ s.kvTake = none) ∧ e = 0x3A02#16))) ∧
    (∃ (s : State) (d : DescHdr) (idx : Nat) (key : Nat), s.serves = true ∧ key = d.fn.val * 65536 + idx ∧ s.recipe key = none) ∧
    (∃ (s : State) (d : DescHdr) (idx : Nat) (key : Nat) (r : _), s.serves = true ∧ key = d.fn.val * 65536 + idx ∧ s.recipe key = some r ∧ (∃ q ∈ s.active, q.2 = some key)) ∧
    (∃ (s : State) (d : DescHdr) (idx : Nat) (key : Nat) (r : _), s.serves = true ∧ key = d.fn.val * 65536 + idx ∧ s.recipe key = some r ∧ (∀ q ∈ s.active, q.2 ≠ some key)) ∧
    (∃ (s : State) (d : DescHdr) (k : Fin 18) (w : Fin 4) (vf : Fin 7) (idx : Nat) (at_ : Nat), s.serves = true ∧ d.fn.val = 0 ∧ vf.val ≠ 0 ∧ s.recipe (vf.val * 65536 + idx) ≠ none ∧ w.val ≠ 3) ∧
    (∃ (s : State) (d : DescHdr) (k : Fin 18) (w : Fin 4) (vf : Fin 7) (idx : Nat) (at_ : Nat), s.serves = true ∧ (d.fn.val ≠ 0 ∨ vf.val = 0 ∨ s.recipe (vf.val * 65536 + idx) = none ∨ w.val = 3)) ∧
    (∃ (s : State) (d : DescHdr) (idx : Nat) (code : Nat) (first : Nat) (count : Nat) (l : Option Nat) (ps : List Byte) (c : Nat) (x : Ctx) (r : Recipe) (i : Nat) (b : Nat) (passes : Nat) (g : Prog), s.serves = true ∧ s.ringCtx d.fn d.ring = some c ∧ s.ctx c = some x ∧ s.recipe (d.fn.val * 65536 + idx) = some r ∧ State.jobProg r code = some i ∧ State.dispatchBucket r i ps = (b, passes) ∧ r.progs[b]? = some g ∧ (∀ a ∈ l, (a % 8 = 0)) ∧ 1 ≤ count ∧ count ≤ 65536 ∧ ps.length = 32 ∧ first + count ≤ g.tasks.length ∧ r.draining = false ∧ s.vig.outOfService = false ∧ g.kind = 2) ∧
    (∃ (s : State) (d : DescHdr) (idx : Nat) (code : Nat) (first : Nat) (count : Nat) (l : Option Nat) (ps : List Byte) (c : Nat) (x : Ctx) (r : Recipe) (i : Nat) (b : Nat) (passes : Nat) (g : Prog), s.serves = true ∧ s.ringCtx d.fn d.ring = some c ∧ s.ctx c = some x ∧ s.recipe (d.fn.val * 65536 + idx) = some r ∧ State.jobProg r code = some i ∧ State.dispatchBucket r i ps = (b, passes) ∧ r.progs[b]? = some g ∧ (∀ a ∈ l, (a % 8 = 0)) ∧ 1 ≤ count ∧ count ≤ 65536 ∧ ps.length = 32 ∧ first + count ≤ g.tasks.length ∧ r.draining = false ∧ s.vig.outOfService = false ∧ g.kind ≠ 2) ∧
    (∃ (s : State) (d : DescHdr) (idx : Nat) (code : Nat) (first : Nat) (count : Nat) (l : Option Nat) (ps : List Byte), s.serves = true ∧ (s.ringCtx d.fn d.ring = none ∨ s.recipe (d.fn.val * 65536 + idx) = none ∨ count = 0 ∨ 65536 < count ∨ s.vig.outOfService = true)) :=
  ⟨⟨State.reset, d1, (0 : Nat), (0 : Nat), by decide +kernel⟩,
   ⟨State.reset, (0 : Nat), by decide +kernel⟩,
   ⟨(Pk.putNode ((Pk.probes [7]).headD 0) { hash := [7], state := 2 }), key, ((Option.get ((Pk.putNode ((Pk.probes [7]).headD 0) { hash := [7], state := 2 }).recipe key) (by decide +kernel)) : Recipe), ((Option.get ((Pk.putNode ((Pk.probes [7]).headD 0) { hash := [7], state := 2 }).lookup (((Option.get ((Pk.putNode ((Pk.probes [7]).headD 0) { hash := [7], state := 2 }).recipe key) (by decide +kernel)) : Recipe).hashes.getD ((Option.get ((Pk.putNode ((Pk.probes [7]).headD 0) { hash := [7], state := 2 }).recipe key) (by decide +kernel)) : Recipe).nodes.length [])) (by decide +kernel)) : Nat), by decide +kernel⟩,
   ⟨Pk, key, ((Option.get (Pk.recipe key) (by decide +kernel)) : Recipe), ((Option.get (Pk.freeWay (((Option.get (Pk.recipe key) (by decide +kernel)) : Recipe).hashes.getD ((Option.get (Pk.recipe key) (by decide +kernel)) : Recipe).nodes.length [])) (by decide +kernel)) : Nat), ((Prod.fst ((Option.get (Pk.kvTake) (by decide +kernel)))) : Nat), ((Prod.snd ((Option.get (Pk.kvTake) (by decide +kernel)))) : State), by decide +kernel⟩,
   ⟨({ Pk with kv := { Pk.kv with slots := 0 } }), key, 0x3A02#16, ((Option.get (({ Pk with kv := { Pk.kv with slots := 0 } }).recipe key) (by decide +kernel)) : Recipe), by decide +kernel⟩,
   ⟨State.reset, d1, (0 : Nat), (d1.fn.val * 65536 + (0 : Nat) : Nat), by decide +kernel⟩,
   ⟨(act Pk), d1, (0 : Nat), (d1.fn.val * 65536 + (0 : Nat) : Nat), ((Option.get ((act Pk).recipe (d1.fn.val * 65536 + (0 : Nat) : Nat)) (by decide +kernel))), by decide +kernel⟩,
   ⟨Pk, d1, (0 : Nat), (d1.fn.val * 65536 + (0 : Nat) : Nat), ((Option.get (Pk.recipe (d1.fn.val * 65536 + (0 : Nat) : Nat)) (by decide +kernel))), by decide +kernel⟩,
   ⟨Pk, ({ fn := 0, ring := 0, tag := 9 }), (1 : Fin 18), (0 : Fin 4), (2 : Fin 7), (0 : Nat), (0 : Nat), by decide +kernel⟩,
   ⟨State.reset, d1, (1 : Fin 18), (0 : Fin 4), (0 : Fin 7), (0 : Nat), (0 : Nat), by decide +kernel⟩,
   ⟨(cx Pk), d1, (0 : Nat), (0 : Nat), (0 : Nat), (1 : Nat), none, (List.replicate 32 4), ((Option.get ((cx Pk).ringCtx d1.fn d1.ring) (by decide +kernel)) : Nat), ((Option.get ((cx Pk).ctx ((Option.get ((cx Pk).ringCtx d1.fn d1.ring) (by decide +kernel)) : Nat)) (by decide +kernel)) : Ctx), ((Option.get ((cx Pk).recipe (d1.fn.val * 65536 + (0 : Nat))) (by decide +kernel)) : Recipe), ((Option.get (State.jobProg ((Option.get ((cx Pk).recipe (d1.fn.val * 65536 + (0 : Nat))) (by decide +kernel)) : Recipe) (0 : Nat)) (by decide +kernel)) : Nat), ((Prod.fst (State.dispatchBucket ((Option.get ((cx Pk).recipe (d1.fn.val * 65536 + (0 : Nat))) (by decide +kernel)) : Recipe) ((Option.get (State.jobProg ((Option.get ((cx Pk).recipe (d1.fn.val * 65536 + (0 : Nat))) (by decide +kernel)) : Recipe) (0 : Nat)) (by decide +kernel)) : Nat) (List.replicate 32 4))) : Nat), ((Prod.snd (State.dispatchBucket ((Option.get ((cx Pk).recipe (d1.fn.val * 65536 + (0 : Nat))) (by decide +kernel)) : Recipe) ((Option.get (State.jobProg ((Option.get ((cx Pk).recipe (d1.fn.val * 65536 + (0 : Nat))) (by decide +kernel)) : Recipe) (0 : Nat)) (by decide +kernel)) : Nat) (List.replicate 32 4))) : Nat), ((Option.get (((Option.get ((cx Pk).recipe (d1.fn.val * 65536 + (0 : Nat))) (by decide +kernel)) : Recipe).progs[((Prod.fst (State.dispatchBucket ((Option.get ((cx Pk).recipe (d1.fn.val * 65536 + (0 : Nat))) (by decide +kernel)) : Recipe) ((Option.get (State.jobProg ((Option.get ((cx Pk).recipe (d1.fn.val * 65536 + (0 : Nat))) (by decide +kernel)) : Recipe) (0 : Nat)) (by decide +kernel)) : Nat) (List.replicate 32 4))) : Nat)]?) (by decide +kernel)) : Prog), by decide +kernel⟩,
   ⟨(cx (B1.putRecipe key { rcp with progs := [{ sec := 0, kind := 1, tasks := [(1, 5)] }] })), d1, (0 : Nat), (0 : Nat), (0 : Nat), (1 : Nat), none, (List.replicate 32 4), ((Option.get ((cx (B1.putRecipe key { rcp with progs := [{ sec := 0, kind := 1, tasks := [(1, 5)] }] })).ringCtx d1.fn d1.ring) (by decide +kernel)) : Nat), ((Option.get ((cx (B1.putRecipe key { rcp with progs := [{ sec := 0, kind := 1, tasks := [(1, 5)] }] })).ctx ((Option.get ((cx (B1.putRecipe key { rcp with progs := [{ sec := 0, kind := 1, tasks := [(1, 5)] }] })).ringCtx d1.fn d1.ring) (by decide +kernel)) : Nat)) (by decide +kernel)) : Ctx), ((Option.get ((cx (B1.putRecipe key { rcp with progs := [{ sec := 0, kind := 1, tasks := [(1, 5)] }] })).recipe (d1.fn.val * 65536 + (0 : Nat))) (by decide +kernel)) : Recipe), ((Option.get (State.jobProg ((Option.get ((cx (B1.putRecipe key { rcp with progs := [{ sec := 0, kind := 1, tasks := [(1, 5)] }] })).recipe (d1.fn.val * 65536 + (0 : Nat))) (by decide +kernel)) : Recipe) (0 : Nat)) (by decide +kernel)) : Nat), ((Prod.fst (State.dispatchBucket ((Option.get ((cx (B1.putRecipe key { rcp with progs := [{ sec := 0, kind := 1, tasks := [(1, 5)] }] })).recipe (d1.fn.val * 65536 + (0 : Nat))) (by decide +kernel)) : Recipe) ((Option.get (State.jobProg ((Option.get ((cx (B1.putRecipe key { rcp with progs := [{ sec := 0, kind := 1, tasks := [(1, 5)] }] })).recipe (d1.fn.val * 65536 + (0 : Nat))) (by decide +kernel)) : Recipe) (0 : Nat)) (by decide +kernel)) : Nat) (List.replicate 32 4))) : Nat), ((Prod.snd (State.dispatchBucket ((Option.get ((cx (B1.putRecipe key { rcp with progs := [{ sec := 0, kind := 1, tasks := [(1, 5)] }] })).recipe (d1.fn.val * 65536 + (0 : Nat))) (by decide +kernel)) : Recipe) ((Option.get (State.jobProg ((Option.get ((cx (B1.putRecipe key { rcp with progs := [{ sec := 0, kind := 1, tasks := [(1, 5)] }] })).recipe (d1.fn.val * 65536 + (0 : Nat))) (by decide +kernel)) : Recipe) (0 : Nat)) (by decide +kernel)) : Nat) (List.replicate 32 4))) : Nat), ((Option.get (((Option.get ((cx (B1.putRecipe key { rcp with progs := [{ sec := 0, kind := 1, tasks := [(1, 5)] }] })).recipe (d1.fn.val * 65536 + (0 : Nat))) (by decide +kernel)) : Recipe).progs[((Prod.fst (State.dispatchBucket ((Option.get ((cx (B1.putRecipe key { rcp with progs := [{ sec := 0, kind := 1, tasks := [(1, 5)] }] })).recipe (d1.fn.val * 65536 + (0 : Nat))) (by decide +kernel)) : Recipe) ((Option.get (State.jobProg ((Option.get ((cx (B1.putRecipe key { rcp with progs := [{ sec := 0, kind := 1, tasks := [(1, 5)] }] })).recipe (d1.fn.val * 65536 + (0 : Nat))) (by decide +kernel)) : Recipe) (0 : Nat)) (by decide +kernel)) : Nat) (List.replicate 32 4))) : Nat)]?) (by decide +kernel)) : Prog), by decide +kernel⟩,
   ⟨State.reset, d1, (0 : Nat), (0 : Nat), (0 : Nat), (0 : Nat), none, (List.replicate 32 4), by decide +kernel⟩⟩
theorem test_wit_recipes_load_refused_envelope : ∃ (s : State) (d : DescHdr) (addr len p : Nat), s.serves = true ∧ d.fn.val = p + 1 ∧
    (s.polder p).made = true ∧ len ≤ (s.polder p).size ∧ s.envelope (readBytes s.log.host addr len) = .error 0x6074#16 :=
  ⟨B1, d1, 0, 0, 1, by decide +kernel, by decide +kernel, by decide +kernel, by decide +kernel, by rfl⟩
/-- The envelope's signature is checked by an opaque function: where it passes, the rest of the hypotheses hold, of a container
that is taken and of one that is refused. -/
theorem test_wit_recipes_load (c : List Byte) (r : Recipe) (he : B1.envelope (readBytes B1.log.host 0x900 2304) = .ok c)
    (hp : parseContainer (B1.loadRoom 1) B1.line.level B1.line.running c B1.kv.treeRunning B1.kvSlotBytes = .ok r) :
    ∃ (s : State) (d : DescHdr) (addr len p key : Nat) (c : List Byte) (r : Recipe), s.serves = true ∧ d.fn.val = p + 1 ∧
      (s.polder p).made = true ∧ len ≤ (s.polder p).size ∧ s.envelope (readBytes s.log.host addr len) = .ok c ∧
      parseContainer (s.loadRoom p) s.line.level s.line.running c s.kv.treeRunning s.kvSlotBytes = .ok r ∧
      key = (p + 1) * 65536 + s.freeRecipe (p + 1) :=
  ⟨B1, d1, 0x900, 2304, 1, _, c, r, by decide +kernel, by decide +kernel, by decide +kernel, by decide +kernel, he, hp, rfl⟩
theorem test_wit_recipes_load_refused_container (he : B1.envelope (readBytes B1.log.host 0x900 2304) = .ok []) :
    ∃ (s : State) (d : DescHdr) (addr len p : Nat) (c : List Byte) (f : _), s.serves = true ∧ d.fn.val = p + 1 ∧
      (s.polder p).made = true ∧ len ≤ (s.polder p).size ∧ s.envelope (readBytes s.log.host addr len) = .ok c ∧
      parseContainer (s.loadRoom p) s.line.level s.line.running c s.kv.treeRunning s.kvSlotBytes = .error f :=
  ⟨B1, d1, 0x900, 2304, 1, [], _, by decide +kernel, by decide +kernel, by decide +kernel, by decide +kernel, he, by rfl⟩
end P14

namespace P15
def kvr (s : State) : State := rg [(0x270000, 0x80000000)] s
def onK (s : State) : State := dox (.kvEnable 0x81000001) (kvr s)
def onP (s : State) : State := dox (.pfxEnable 0x81EA0001) (rg [(0x270104, 0x40000000)] (onK s))
def K := onK base0
def P := onP base0
def tick : State := { P with now := P.now + 5000, kv := { P.kv with deferred := [{ epoch := 0, slot := 3, voided := false, place := 0 }, { epoch := 0, slot := 4, voided := true, place := 1 }, { epoch := 7, slot := 5, voided := false, place := 2 }], epoch := 3 } }
def kvRuns : State := { kvr base0 with kv := { base0.kv with running := true, slots := 4 } }
/-- Hypotheses of `Obligations.PoolTreeAndHostMemory` met together, clause by clause. -/
theorem test_wit_PoolTreeAndHostMemory :
    (∃ (s : State) (v : Word) (u : State), s.answers 0 0x270008 = true ∧ s.sealed = false ∧ s.flag 0x270008 31 = false ∧ bit v 31 = true ∧ u = s.writeFields 0x270008 0x06 0x10 v ∧ 1 ≤ u.fld 0x270008 4 0 ∧ u.fld 0x270008 4 0 ≤ 24 ∧ 1 ≤ u.fld 0x270008 24 16 ∧ u.fld 0x270008 24 16 ≤ 256 ∧ u.exclusiveMeets 5 u.kvRegion.1 u.kvRegion.2 = none) ∧
    (∃ (s : State) (v : Word) (u : State), s.answers 0 0x270008 = true ∧ s.sealed = false ∧ s.flag 0x270008 31 = false ∧ bit v 31 = true ∧ u = s.writeFields 0x270008 0x06 0x10 v ∧ (u.fld 0x270008 4 0 = 0 ∨ 24 < u.fld 0x270008 4 0 ∨ u.fld 0x270008 24 16 = 0 ∨ 256 < u.fld 0x270008 24 16 ∨ u.exclusiveMeets 5 u.kvRegion.1 u.kvRegion.2 ≠ none)) ∧
    (∃ (s : State) (v : Word) (u : State), s.answers 0 0x270100 = true ∧ s.sealed = false ∧ s.flag 0x270100 31 = false ∧ bit v 31 = true ∧ u = s.writeFields 0x270100 0x06 0x11 v ∧ 10 ≤ u.fld 0x270100 20 16 ∧ u.fld 0x270100 20 16 ≤ 16 ∧ u.exclusiveMeets 6 u.pfxRegion.1 u.pfxRegion.2 = none ∧ s.kv.running = true) ∧
    (∃ (s : State) (v : Word) (u : State), s.answers 0 0x270100 = true ∧ s.sealed = false ∧ s.flag 0x270100 31 = false ∧ bit v 31 = true ∧ u = s.writeFields 0x270100 0x06 0x11 v ∧ (u.fld 0x270100 20 16 < 10 ∨ 16 < u.fld 0x270100 20 16 ∨ u.exclusiveMeets 6 u.pfxRegion.1 u.pfxRegion.2 ≠ none ∨ s.kv.running = false)) ∧
    (∃ (s : State) (v : Word), s.sealed = false ∧ s.answers 0 0x270008 = true ∧ s.flag 0x270008 31 = true ∧ s.wouldBe 0x270008 v ≠ s.reg 0x270008) ∧
    (∃ (s : State) (v : Word), s.sealed = false ∧ s.answers 0 0x270100 = true ∧ s.flag 0x270100 31 = true ∧ s.wouldBe 0x270100 v ≠ s.reg 0x270100) ∧
    (∃ (s : State) (p : Fin 6) (v : Word), s.answers 0 (0x270040 + 4 * p.val) = true ∧ s.kvUsed p ≤ bits v 23 0) ∧
    (∃ (s : State) (p : Fin 6) (v : Word), s.answers 0 (0x270040 + 4 * p.val) = true ∧ bits v 23 0 < s.kvUsed p) ∧
    (∃ (s : State), (s.kv.treeRunning = false ∨ s.now < s.kv.epochFrom + s.fld 0x270100 9 0 * 1000)) ∧
    (∃ (s : State) (m : Nat), s.kv.treeRunning = true ∧ s.kv.epochFrom + s.fld 0x270100 9 0 * 1000 ≤ s.now ∧ m = ({ s with kv := { s.kv with epoch := s.kv.epoch + 1 } } : State).readerMin) ∧
    (∃ (s : State) (fn : Fin 7) (addr : Nat) (data : List Byte), (s.running = false ∨ s.power.mode ≠ 0 ∨ (s.sec.state = 0 ∧ fn.val ≠ 0))) ∧
    (∃ (s : State) (fn : Fin 7) (addr : Nat) (data : List Byte), s.running = true ∧ s.power.mode = 0 ∧ (s.sec.state ≠ 0 ∨ fn.val = 0) ∧ (s.window4 fn).2 < addr + data.length) ∧
    (∃ (s : State) (fn : Fin 7) (addr : Nat) (data : List Byte), s.running = true ∧ s.power.mode = 0 ∧ (s.sec.state ≠ 0 ∨ fn.val = 0) ∧ addr + data.length ≤ (s.window4 fn).2) :=
  ⟨⟨State.reset, (0x81000001 : Word), (State.reset.writeFields 0x270008 0x06 0x10 (0x81000001 : Word) : State), by decide +kernel⟩,
   ⟨State.reset, (0x80010000 : Word), (State.reset.writeFields 0x270008 0x06 0x10 (0x80010000 : Word) : State), by decide +kernel⟩,
   ⟨kvRuns, (0x81EA0001 : Word), (kvRuns.writeFields 0x270100 0x06 0x11 (0x81EA0001 : Word) : State), by decide +kernel⟩,
   ⟨State.reset, (0x81000001 : Word), (State.reset.writeFields 0x270100 0x06 0x11 (0x81000001 : Word) : State), by decide +kernel⟩,
   ⟨K, (0 : Word), by decide +kernel⟩,
   ⟨P, (0 : Word), by decide +kernel⟩,
   ⟨State.reset, (0 : Fin 6), (0 : Word), by decide +kernel⟩,
   ⟨({ K with kv := { K.kv with used := [(1, 5)] } }), (1 : Fin 6), (0 : Word), by decide +kernel⟩,
   ⟨State.reset, by decide +kernel⟩,
   ⟨tick, (({ tick with kv := { tick.kv with epoch := tick.kv.epoch + 1 } } : State).readerMin : Nat), by decide +kernel⟩,
   ⟨({ K with sec := { K.sec with state := 0 } }), (1 : Fin 7), (0 : Nat), [], by decide +kernel⟩,
   ⟨State.reset, (0 : Fin 7), (0xFFFFFFFFFF : Nat), [], by decide +kernel⟩,
   ⟨State.reset, (0 : Fin 7), (0 : Nat), [], by decide +kernel⟩⟩
end P15

namespace P16
def en1 (fn i : Nat) := r16 fn i (fun r => { r with en := true })
def A0 := en1 0 0 base0
def A1 := en1 0 1 A0
def op1 : OpEntry := { id := 5, eng := 1, ctx := 3, cls := .move, reads := [{ space := .host, addr := 64, len := 8 }] }
def ops (l : List OpEntry) : State := { base0 with ops := l }
/-- Hypotheses of `Obligations.RingsDoorbellsAndDescriptors` met together, clause by clause. -/
theorem test_wit_RingsDoorbellsAndDescriptors :
    (∃ (s : State) (fn : Fin 7) (i : Fin 64) (v : Word) (r : Ring), s.answers fn (ringOff fn i % 0x4000000) = true ∧ hasRing fn i = true ∧ bit v 31 = true ∧ (s.ring fn i).en = false ∧ r = { s.ring fn i with log2 := bits v 20 16, vector := bits v 10 0 } ∧ State.ringOk fn i r = true) ∧
    (∃ (s : State) (fn : Fin 7) (i : Fin 64) (v : Word) (r : Ring), s.answers fn (ringOff fn i % 0x4000000) = true ∧ hasRing fn i = true ∧ bit v 31 = true ∧ (s.ring fn i).en = false ∧ r = { s.ring fn i with log2 := bits v 20 16, vector := bits v 10 0 } ∧ State.ringOk fn i r = false) ∧
    (∃ (s : State) (fn : Fin 7) (i : Fin 64) (v : Word), s.answers fn (ringOff fn i % 0x4000000) = true ∧ hasRing fn i = true ∧ bit v 31 = true ∧ (s.ring fn i).en = true ∧ bits v 10 0 < vectorsOf fn) ∧
    (∃ (s : State) (fn : Fin 7) (i : Fin 64) (v : Word), s.answers fn (ringOff fn i % 0x4000000) = true ∧ hasRing fn i = true ∧ bit v 31 = false ∧ (s.ring fn i).en = false) ∧
    (∃ (s : State) (fn : Fin 7) (i : Fin 64) (v : Word), s.answers fn (ringOff fn i % 0x4000000) = true ∧ hasRing fn i = true ∧ bit v 31 = false ∧ (s.ring fn i).en = true ∧ ((hostWritten i = true ∧ (s.ring fn i).pend ≠ []) ∨ (i.val ≤ 33 ∧ i.val % 2 = 1 ∧ (s.ring fn (i.val - 1)).en = true))) ∧
    (∃ (s : State) (fn : Fin 7) (i : Fin 64) (v : Word), s.answers fn (ringOff fn i % 0x4000000) = true ∧ hasRing fn i = true ∧ bit v 31 = false ∧ (s.ring fn i).en = true ∧ (hostWritten i = true → (s.ring fn i).pend = []) ∧ (i.val ≤ 33 → (i.val % 2 = 1 → (s.ring fn (i.val - 1)).en = false))) ∧
    (∃ (s : State) (fn : Fin 7) (i : Fin 64) (v : Word), (hasRing fn i = false ∨ (s.ring fn i).en = false ∨ hostWritten i = false)) ∧
    (∃ (s : State) (fn : Fin 7) (i : Fin 64) (v : Word), (hasRing fn i = false ∨ (s.ring fn i).en = false ∨ hostWritten i = true)) ∧
    (∃ (s : State) (fn : Fin 7) (i : Fin 64) (v : Word), hasRing fn i = true ∧ (s.ring fn i).en = true ∧ hostWritten i = true ∧ (v - (s.ring fn i).db).toNat < 2 ^ 31 ∧ (v - (s.ring fn i).seq).toNat ≤ (s.ring fn i).entries) ∧
    (∃ (s : State) (fn : Fin 7) (i : Fin 64) (v : Word), hasRing fn i = true ∧ (s.ring fn i).en = true ∧ hostWritten i = true ∧ (2 ^ 31 ≤ (v - (s.ring fn i).db).toNat ∨ (s.ring fn i).entries < (v - (s.ring fn i).seq).toNat)) ∧
    (∃ (s : State) (fn : Fin 7) (i : Fin 64) (v : Word), hasRing fn i = true ∧ (s.ring fn i).en = true ∧ hostWritten i = false ∧ (v - (s.ring fn i).rel).toNat ≤ ((s.ring fn i).seq - (s.ring fn i).rel).toNat) ∧
    (∃ (s : State) (fn : Fin 7) (i : Fin 64) (v : Word), hasRing fn i = true ∧ (s.ring fn i).en = true ∧ hostWritten i = false ∧ ((s.ring fn i).seq - (s.ring fn i).rel).toNat < (v - (s.ring fn i).rel).toNat) ∧
    (∃ (s : State) (fn : Fin 7) (i : Fin 64) (d : List Byte), s.serves = true ∧ hasRing fn i = true ∧ hostWritten i = true ∧ (s.ring fn i).en = true ∧ (s.ring fn i).err = false ∧ s.log.d3.contains fn.val = false ∧ d = readBytes s.log.host ((s.ring fn i).base.toNat + (s.ring fn i).seq.toNat % (s.ring fn i).entries * 64) 64) ∧
    (∃ (s : State) (fn : Fin 7) (i : Fin 64), s.serves = true ∧ (hasRing fn i = false ∨ hostWritten i = false ∨ (s.ring fn i).en = false ∨ (s.ring fn i).err = true ∨ s.log.d3.contains fn.val = true)) ∧
    (∃ (s : State) (fn : Fin 7) (i : Fin 64), hasRing fn i = true ∧ hostWritten i = true ∧ (s.ring fn i).en = true) ∧
    (∃ (s : State) (fn : Fin 7) (i : Fin 64), hasRing fn i = true ∧ hostWritten i = true ∧ (s.ring fn i).en = false) ∧
    (∃ (s : State) (id : Nat) (o : OpEntry), s.op id = some o ∧ o.complete = false ∧ o.fault = 0 ∧ (∃ r ∈ o.reads, r.space = .host)) ∧
    (∃ (s : State) (id : Nat) (o : OpEntry), s.op id = some o ∧ (o.complete = true ∨ o.fault ≠ 0 ∨ (∀ r ∈ o.reads, r.space ≠ .host))) :=
  ⟨⟨State.reset, (0 : Fin 7), (0 : Fin 64), (0x80060000 : Word), ({ State.reset.ring (0 : Fin 7) (0 : Fin 64) with log2 := bits (0x80060000 : Word) 20 16, vector := bits (0x80060000 : Word) 10 0 } : Ring), by decide +kernel⟩,
   ⟨State.reset, (0 : Fin 7), (0 : Fin 64), (0x80050000 : Word), ({ State.reset.ring (0 : Fin 7) (0 : Fin 64) with log2 := bits (0x80050000 : Word) 20 16, vector := bits (0x80050000 : Word) 10 0 } : Ring), by decide +kernel⟩,
   ⟨A0, (0 : Fin 7), (0 : Fin 64), (0x80060000 : Word), by decide +kernel⟩,
   ⟨State.reset, (0 : Fin 7), (0 : Fin 64), (0 : Word), by decide +kernel⟩,
   ⟨A1, (0 : Fin 7), (1 : Fin 64), (0 : Word), by decide +kernel⟩,
   ⟨A0, (0 : Fin 7), (0 : Fin 64), (0 : Word), by decide +kernel⟩,
   ⟨State.reset, (0 : Fin 7), (0 : Fin 64), (0 : Word), by decide +kernel⟩,
   ⟨State.reset, (0 : Fin 7), (0 : Fin 64), (0 : Word), by decide +kernel⟩,
   ⟨A0, (0 : Fin 7), (0 : Fin 64), (0 : Word), by decide +kernel⟩,
   ⟨A0, (0 : Fin 7), (0 : Fin 64), (0x80060000 : Word), by decide +kernel⟩,
   ⟨A1, (0 : Fin 7), (1 : Fin 64), (0 : Word), by decide +kernel⟩,
   ⟨A1, (0 : Fin 7), (1 : Fin 64), (1 : Word), by decide +kernel⟩,
   ⟨A0, (0 : Fin 7), (0 : Fin 64), (readBytes A0.log.host ((A0.ring (0 : Fin 7) (0 : Fin 64)).base.toNat + (A0.ring (0 : Fin 7) (0 : Fin 64)).seq.toNat % (A0.ring (0 : Fin 7) (0 : Fin 64)).entries * 64) 64 : List Byte), by decide +kernel⟩,
   ⟨State.reset, (0 : Fin 7), (0 : Fin 64), by decide +kernel⟩,
   ⟨A0, (0 : Fin 7), (0 : Fin 64), by decide +kernel⟩,
   ⟨State.reset, (0 : Fin 7), (0 : Fin 64), by decide +kernel⟩,
   ⟨(ops [op1]), (5 : Nat), ((Option.get ((ops [op1]).op (5 : Nat)) (by decide +kernel)) : OpEntry), by decide +kernel⟩,
   ⟨(ops [{ op1 with complete := true }]), (5 : Nat), ((Option.get ((ops [{ op1 with complete := true }]).op (5 : Nat)) (by decide +kernel)) : OpEntry), by decide +kernel⟩⟩
end P16

namespace P17
def B : State := rings (dox (.polderCreate 1 0x80000000) (rg (pc 1 6) base0))
def task1 : TaskRun := { ctx := 3, job := 7, idx := 0, ops := 1 }
def wi (l : List (Nat × EventWindow)) (s : State) : State := { s with log := { s.log with windows := l } }
def k17 : Nat := windowKey 0x2031 3 1
def due (fn i : Nat) (s : State) : State := r16 fn i (fun r => { r with en := true, armed := true, seq := 3, rel := 1, cnt := 1, vector := 5 }) s
/-- Hypotheses of `Obligations.InterruptsLinkAndFunctions` met together, clause by clause. -/
theorem test_wit_InterruptsLinkAndFunctions :
    (∃ (s : State) (code : Half) (k : Byte) (i : Byte), s.codeWindow code k.toNat i.toNat = false) ∧
    (∃ (s : State) (code : Half) (k : Byte) (i : Byte) (w : _), findWindow (windowKey code k.toNat i.toNat) s.log.windows = some w ∧ s.now - w.openedAt < 1000000) ∧
    (∃ (s : State) (code : Half) (k : Byte) (i : Byte) (w : _), findWindow (windowKey code k.toNat i.toNat) s.log.windows = some w ∧ 1000000 ≤ s.now - w.openedAt ∧ w.counted = 0) ∧
    (∃ (s : State) (code : Half) (k : Byte) (i : Byte) (w : _), findWindow (windowKey code k.toNat i.toNat) s.log.windows = some w ∧ 1000000 ≤ s.now - w.openedAt ∧ w.counted ≠ 0) ∧
    (∃ (s : State) (fn : Fin 7) (i : Fin 64), (s.ring fn i).due s.now = false) ∧
    (∃ (s : State) (fn : Fin 7) (i : Fin 64), (s.ring fn i).due s.now = true) ∧
    (∃ (s : State) (fn : Fin 7), fn ≠ 0) ∧
    (∃ (s : State) (c : Instr), c ∈ [Instr.pf0Flr, .hotReset, .perst]) ∧
    (∃ (s : State) (fn : Fin 7) (v : Nat), vectorsOf fn ≤ v) ∧
    (∃ (s : State) (fn : Fin 7) (v : Nat), v < vectorsOf fn) :=
  ⟨⟨(e1 { task1 with startAt := some 5 } (B.setCtx 3 { x0 with jobs := [job0], resident := true })), (0x2031 : Half), (1 : Byte), (1 : Byte), by decide +kernel⟩,
   ⟨(wi [(k17, { openedAt := base0.now - 5 })] base0), (0x2031 : Half), (3 : Byte), (1 : Byte), ((Option.get (findWindow (windowKey (0x2031 : Half) (3 : Byte).toNat (1 : Byte).toNat) (wi [(k17, { openedAt := base0.now - 5 })] base0).log.windows) (by decide +kernel))), by decide +kernel⟩,
   ⟨(wi [(k17, { openedAt := 5 })] base0), (0x2031 : Half), (3 : Byte), (1 : Byte), ((Option.get (findWindow (windowKey (0x2031 : Half) (3 : Byte).toNat (1 : Byte).toNat) (wi [(k17, { openedAt := 5 })] base0).log.windows) (by decide +kernel))), by decide +kernel⟩,
   ⟨(wi [(k17, { openedAt := 5, counted := 3 })] base0), (0x2031 : Half), (3 : Byte), (1 : Byte), ((Option.get (findWindow (windowKey (0x2031 : Half) (3 : Byte).toNat (1 : Byte).toNat) (wi [(k17, { openedAt := 5, counted := 3 })] base0).log.windows) (by decide +kernel))), by decide +kernel⟩,
   ⟨(e1 { task1 with startAt := some 5 } (B.setCtx 3 { x0 with jobs := [job0], resident := true })), (0 : Fin 7), (0 : Fin 64), by decide +kernel⟩,
   ⟨(due 0 1 base0), (0 : Fin 7), (1 : Fin 64), by decide +kernel⟩,
   ⟨(e1 { task1 with startAt := some 5 } (B.setCtx 3 { x0 with jobs := [job0], resident := true })), (2 : Fin 7), by decide +kernel⟩,
   ⟨(e1 { task1 with startAt := some 5 } (B.setCtx 3 { x0 with jobs := [job0], resident := true })), .pf0Flr, by decide +kernel⟩,
   ⟨(e1 { task1 with startAt := some 5 } (B.setCtx 3 { x0 with jobs := [job0], resident := true })), (0 : Fin 7), (600 : Nat), by decide +kernel⟩,
   ⟨(e1 { task1 with startAt := some 5 } (B.setCtx 3 { x0 with jobs := [job0], resident := true })), (0 : Fin 7), (0 : Nat), by decide +kernel⟩⟩
end P17

namespace P18
def L0 : State := rg [(0x2E0004, 77), (0x2E0008, 0x40000000), (0x2E0010, 4), (0x2E0104, 0x40100000)] base0
def pd (m : Nat) : Nat × PeerDesc := (m, { lineId := 77, index := m, hops := m, level := 2, rev := 7 })
def J0 : State := dox (.lineJoin 0x80300000 [pd 1, pd 2]) L0
def J1 : State := dox (.lineJoin 0x81300000 [pd 2]) L0
def ln (f : LineU → LineU) (s : State) : State := { s with line := f s.line }
def H : State := ln (fun l => { l with joined := true, calDone := true, mask := 7, level := 3, dTail := 5000 }) J0
def M : State := ln (fun l => { l with joined := true, calDone := true, mask := 7, level := 3, dTail := 5000, d := 100 }) J1
def ed : EqDown := { typ := .tick, hop := 1, barrier := 4, mask := 7, late := 2, dTail := 40, level := 3, mixed := false, preset := true, crcOk := true }
/-- Hypotheses of `Obligations.LineMembersAndBarriers` met together, clause by clause. -/
theorem test_wit_LineMembersAndBarriers :
    (∃ (s : State) (v : Word) (ps : List (Nat × PeerDesc)) (u : State), s.answers 0 0x2E0000 = true ∧ s.sealed = false ∧ u = s.writeFields 0x2E0000 0x0F (bits v 27 24) v ∧ s.line.running = false ∧ s.line.joined = false ∧ u.flag 0x2E0000 31 = true ∧ u.lineFails = [] ∧ (∀ q ∈ ps, 2 ≤ q.2.level)) ∧
    (∃ (s : State) (v : Word) (ps : List (Nat × PeerDesc)) (u : State), s.answers 0 0x2E0000 = true ∧ s.sealed = false ∧ u = s.writeFields 0x2E0000 0x0F (bits v 27 24) v ∧ s.line.running = false ∧ u.flag 0x2E0000 31 = true ∧ u.lineFails ≠ []) ∧
    (∃ (s : State) (v : Word) (ps : List (Nat × PeerDesc)) (u : State), s.answers 0 0x2E0000 = true ∧ s.sealed = false ∧ u = s.writeFields 0x2E0000 0x0F (bits v 27 24) v ∧ s.line.running = true ∧ u.flag 0x2E0000 31 = false ∧ (∀ p ∈ s.parts, (p.proxy = none ∨ p.sealed = true))) ∧
    (∃ (s : State) (v : Word) (ps : List (Nat × PeerDesc)) (u : State), s.answers 0 0x2E0000 = true ∧ s.sealed = false ∧ u = s.writeFields 0x2E0000 0x0F (bits v 27 24) v ∧ s.line.running = u.flag 0x2E0000 31) ∧
    (∃ (s : State), (s.isHead = false ∨ s.line.running = false ∨ s.line.release = none)) ∧
    (∃ (s : State) (n : _) (late : _), s.isHead = true ∧ s.line.running = true ∧ s.line.release = some (n, late)) ∧
    (∃ (s : State) (f : EqDown), (s.line.running = false ∨ s.lineIndex = 0)) ∧
    (∃ (s : State) (f : EqDown), s.line.running = true ∧ s.lineIndex ≠ 0 ∧ f.crcOk = false ∧ s.line.failedUp + 1 < 3) ∧
    (∃ (s : State) (f : EqDown), s.line.running = true ∧ s.lineIndex ≠ 0 ∧ f.crcOk = false ∧ 3 ≤ s.line.failedUp + 1 ∧ (∀ p ∈ s.parts, (p.proxy = none ∨ p.sealed = true))) ∧
    (∃ (s : State) (f : EqDown), s.line.running = true ∧ s.lineIndex ≠ 0 ∧ f.crcOk = true ∧ (∀ p ∈ s.parts, (p.proxy = none ∨ p.sealed = true))) ∧
    (∃ (s : State) (f : EqUp), s.line.running = false) ∧
    (∃ (s : State) (f : EqUp), s.line.running = true ∧ f.crcOk = false ∧ s.line.failedDn + 1 < 3) ∧
    (∃ (s : State) (f : EqUp), s.line.running = true ∧ f.crcOk = true ∧ s.isHead = false) ∧
    (∃ (s : State) (f : EqUp), s.line.running = true ∧ f.crcOk = true ∧ s.isHead = true ∧ (∀ p ∈ s.parts, (p.proxy = none ∨ p.sealed = true))) ∧
    (∃ (s : State), (∀ p ∈ s.parts, (p.proxy = none ∨ p.sealed = true))) ∧
    (∃ (s : State) (v : Word) (up : Nat) (dn : Nat), s.answers 0 0x2E0120 = true ∧ bit v 0 = false) ∧
    (∃ (s : State) (v : Word) (up : Nat) (dn : Nat), s.answers 0 0x2E0120 = true ∧ bit v 0 = true) ∧
    (∃ (s : State) (v : Word), s.answers 0 0x2E010C = true ∧ s.line.running = false) ∧
    (∃ (s : State) (v : Word), s.answers 0 0x2E010C = true ∧ s.line.running = true) ∧
    (∃ (s : State), (s.line.arrivedFrom = none ∨ s.isHead = false ∨ s.line.release ≠ none ∨ (∃ a ∈ s.line.arrivedFrom, (s.now < a + s.fld 0x2E0100 31 16 * 1000)))) ∧
    (∃ (s : State) (a : _), s.line.arrivedFrom = some a ∧ s.isHead = true ∧ s.line.release = none ∧ a + s.fld 0x2E0100 31 16 * 1000 ≤ s.now) ∧
    (∃ (s : State), s.line.action = none) ∧
    (∃ (s : State) (n : Nat) (late : Half) (absent : Half) (preset : Bool) (i : Nat) (a : Nat), s.line.action = some (n, late, absent, preset, i) ∧ a = s.reg64 0x2E0104 / 16 * 16 ∧ s.now < i) ∧
    (∃ (s : State) (n : Nat) (late : Half) (absent : Half) (preset : Bool) (i : Nat) (a : Nat), s.line.action = some (n, late, absent, preset, i) ∧ a = s.reg64 0x2E0104 / 16 * 16 ∧ i ≤ s.now) :=
  ⟨⟨L0, (0x80300000 : Word), [], (L0.writeFields 0x2E0000 0x0F (bits (0x80300000 : Word) 27 24) (0x80300000 : Word) : State), by decide +kernel⟩,
   ⟨State.reset, (0x80300000 : Word), [], (State.reset.writeFields 0x2E0000 0x0F (bits (0x80300000 : Word) 27 24) (0x80300000 : Word) : State), by decide +kernel⟩,
   ⟨J0, (0 : Word), [], (J0.writeFields 0x2E0000 0x0F (bits (0 : Word) 27 24) (0 : Word) : State), by decide +kernel, by decide +kernel, rfl, by decide +kernel, by decide +kernel, by decide +kernel⟩,
   ⟨State.reset, (0 : Word), [], (State.reset.writeFields 0x2E0000 0x0F (bits (0 : Word) 27 24) (0 : Word) : State), by decide +kernel⟩,
   ⟨State.reset, by decide +kernel⟩,
   ⟨(ln (fun l => { l with release := some (5, 2) }) H), ((Prod.fst ((Option.get ((ln (fun l => { l with release := some (5, 2) }) H).line.release) (by decide +kernel))))), ((Prod.snd ((Option.get ((ln (fun l => { l with release := some (5, 2) }) H).line.release) (by decide +kernel))))), by decide +kernel⟩,
   ⟨State.reset, ed, by decide +kernel⟩,
   ⟨J1, ({ ed with crcOk := false }), by decide +kernel⟩,
   ⟨(ln (fun l => { l with failedUp := 2 }) M), ({ ed with crcOk := false }), by decide +kernel⟩,
   ⟨J1, ed, by decide +kernel⟩,
   ⟨State.reset, ({ hop := 1, arrived := 6, mask := 6, crcOk := true }), by decide +kernel⟩,
   ⟨J0, ({ hop := 1, arrived := 6, mask := 0, crcOk := false }), by decide +kernel⟩,
   ⟨J1, ({ hop := 1, arrived := 6, mask := 6, crcOk := true }), by decide +kernel⟩,
   ⟨J0, ({ hop := 1, arrived := 6, mask := 6, crcOk := true }), by decide +kernel⟩,
   ⟨State.reset, by decide +kernel⟩,
   ⟨State.reset, (0 : Word), (0 : Nat), (0 : Nat), by decide +kernel⟩,
   ⟨State.reset, (1 : Word), (0 : Nat), (0 : Nat), by decide +kernel⟩,
   ⟨State.reset, (0 : Word), by decide +kernel⟩,
   ⟨J0, (0 : Word), by decide +kernel⟩,
   ⟨State.reset, by decide +kernel⟩,
   ⟨(ln (fun l => { l with arrived := 6, arrivedFrom := some 5 }) H), ((Option.get ((ln (fun l => { l with arrived := 6, arrivedFrom := some 5 }) H).line.arrivedFrom) (by decide +kernel))), by decide +kernel⟩,
   ⟨State.reset, by decide +kernel⟩,
   ⟨(ln (fun l => { l with action := some (5, 2, 4, false, base0.now + 5) }) H), ((Prod.fst ((Option.get ((ln (fun l => { l with action := some (5, 2, 4, false, base0.now + 5) }) H).line.action) (by decide +kernel)))) : Nat), ((Prod.fst ((Prod.snd ((Option.get ((ln (fun l => { l with action := some (5, 2, 4, false, base0.now + 5) }) H).line.action) (by decide +kernel)))))) : Half), ((Prod.fst ((Prod.snd ((Prod.snd ((Option.get ((ln (fun l => { l with action := some (5, 2, 4, false, base0.now + 5) }) H).line.action) (by decide +kernel)))))))) : Half), ((Prod.fst ((Prod.snd ((Prod.snd ((Prod.snd ((Option.get ((ln (fun l => { l with action := some (5, 2, 4, false, base0.now + 5) }) H).line.action) (by decide +kernel)))))))))) : Bool), ((Prod.snd ((Prod.snd ((Prod.snd ((Prod.snd ((Option.get ((ln (fun l => { l with action := some (5, 2, 4, false, base0.now + 5) }) H).line.action) (by decide +kernel)))))))))) : Nat), ((ln (fun l => { l with action := some (5, 2, 4, false, base0.now + 5) }) H).reg64 0x2E0104 / 16 * 16 : Nat), by decide +kernel⟩,
   ⟨(ln (fun l => { l with action := some (5, 0, 0, false, 7) }) M), ((Prod.fst ((Option.get ((ln (fun l => { l with action := some (5, 0, 0, false, 7) }) M).line.action) (by decide +kernel)))) : Nat), ((Prod.fst ((Prod.snd ((Option.get ((ln (fun l => { l with action := some (5, 0, 0, false, 7) }) M).line.action) (by decide +kernel)))))) : Half), ((Prod.fst ((Prod.snd ((Prod.snd ((Option.get ((ln (fun l => { l with action := some (5, 0, 0, false, 7) }) M).line.action) (by decide +kernel)))))))) : Half), ((Prod.fst ((Prod.snd ((Prod.snd ((Prod.snd ((Option.get ((ln (fun l => { l with action := some (5, 0, 0, false, 7) }) M).line.action) (by decide +kernel)))))))))) : Bool), ((Prod.snd ((Prod.snd ((Prod.snd ((Prod.snd ((Option.get ((ln (fun l => { l with action := some (5, 0, 0, false, 7) }) M).line.action) (by decide +kernel)))))))))) : Nat), ((ln (fun l => { l with action := some (5, 0, 0, false, 7) }) M).reg64 0x2E0104 / 16 * 16 : Nat), by decide +kernel⟩⟩
end P18

namespace P19
def PX : State := rg [(0x2E0210, 0x81020001), (0x2E0214, 100), (0x2E0208, 0x81030104), (State.bindOff 1, 0x90000000)] base0
def lvl (n : Nat) (s : State) : State := { s with line := { s.line with level := n, running := true } }
def px : Part := { lane := 1, slot := 3, proxy := some 2 }
def fwdk (k : Nat) (s : State) : State := rg [(0x2E0280 + 4 * k, 0x80000000)] s
def m0 : ProxyMsg := { proxy := 2, seq := 0, slot := 3, on := 77, off := 99, deadline := 5, block := 6, record := List.replicate 64 2 }
/-- Hypotheses of `Obligations.ProxySlotsAndAreaParts` met together, clause by clause. -/
theorem test_wit_ProxySlotsAndAreaParts :
    (∃ (s : State) (m : ProxyMsg), s.proxyOn m.proxy = false) ∧
    (∃ (s : State) (m : ProxyMsg) (x : ProxyIn), s.proxyOn m.proxy = true ∧ x = s.ofProxy m.proxy ∧ m.seq.toNat = x.seq ∧ x.absent = false ∧ s.rateTake.2 = true) ∧
    (∃ (s : State) (m : ProxyMsg) (x : ProxyIn), s.proxyOn m.proxy = true ∧ x = s.ofProxy m.proxy ∧ m.seq.toNat = x.seq ∧ x.absent = false ∧ s.rateTake.2 = false ∧ (∀ y ∈ s.parts, (y.proxy = some m.proxy.val → y.slot ≠ m.slot.toNat))) ∧
    (∃ (s : State) (m : ProxyMsg) (x : ProxyIn), s.proxyOn m.proxy = true ∧ x = s.ofProxy m.proxy ∧ m.seq.toNat = x.seq ∧ x.absent = true) ∧
    (∃ (s : State) (m : ProxyMsg) (x : ProxyIn) (p : Part) (b : List Byte), s.proxyOn m.proxy = true ∧ x = s.ofProxy m.proxy ∧ m.seq.toNat = x.seq ∧ x.absent = false ∧ s.parts.find? (State.isProxied m.proxy m.slot.toNat) = some p ∧ b = padTo 252 (m.record.drop 4) ∧ p.sealed = false) ∧
    (∃ (s : State) (m : ProxyMsg) (x : ProxyIn) (p : Part) (b : List Byte), s.proxyOn m.proxy = true ∧ x = s.ofProxy m.proxy ∧ m.seq.toNat = x.seq ∧ x.absent = false ∧ s.parts.find? (State.isProxied m.proxy m.slot.toNat) = some p ∧ b = padTo 252 (m.record.drop 4) ∧ p.sealed = true) ∧
    (∃ (s : State) (m : ProxyMsg) (x : ProxyIn), s.proxyOn m.proxy = true ∧ x = s.ofProxy m.proxy ∧ m.seq.toNat ≠ x.seq ∧ x.absent = false ∧ (∀ p ∈ s.parts, (p.proxy = some m.proxy.val → p.sealed = true))) ∧
    (∃ (s : State) (k : Fin 18) (f : FwdOut), f = tget {} s.fwds k ∧ (s.forwarded k = false ∨ f.stopped = true)) ∧
    (∃ (s : State) (k : Fin 18) (f : FwdOut), f = tget {} s.fwds k ∧ s.forwarded k = true ∧ f.stopped = false) ∧
    (∃ (s : State) (j : Fin 16) (x : ProxyIn) (k : Nat) (start : Fine), x = s.ofProxy j ∧ k = s.proxyLane j ∧ start = State.along (s.bindDir k) x.lastOff ((x.areas * s.proxySpan j * 65536 : Nat) : Int) ∧ (s.proxyOn j = false ∨ x.absent = false ∨ s.line.level < 3 ∨ State.beyond (s.bindDir k) (State.along (s.bindDir k) (s.posAt (s.bindAxis k) s.time.t) (s.bindDist k)) start = false)) ∧
    (∃ (s : State) (j : Fin 16) (x : ProxyIn) (k : Nat) (start : Fine), x = s.ofProxy j ∧ k = s.proxyLane j ∧ start = State.along (s.bindDir k) x.lastOff ((x.areas * s.proxySpan j * 65536 : Nat) : Int) ∧ s.proxyOn j = true ∧ x.absent = true ∧ 3 ≤ s.line.level ∧ State.beyond (s.bindDir k) (State.along (s.bindDir k) (s.posAt (s.bindAxis k) s.time.t) (s.bindDist k)) start = true) :=
  ⟨⟨State.reset, m0, by decide +kernel⟩,
   ⟨PX, m0, (PX.ofProxy m0.proxy : ProxyIn), by decide +kernel⟩,
   ⟨({ PX with vu := { PX.vu with rateFrom := PX.now, rateCount := 1000000 } }), m0, (({ PX with vu := { PX.vu with rateFrom := PX.now, rateCount := 1000000 } }).ofProxy m0.proxy : ProxyIn), by decide +kernel⟩,
   ⟨(prx 2 { absent := true, areas := 2 } (lvl 1 PX)), m0, ((prx 2 { absent := true, areas := 2 } (lvl 1 PX)).ofProxy m0.proxy : ProxyIn), by decide +kernel⟩,
   ⟨(pp [px] PX), m0, ((pp [px] PX).ofProxy m0.proxy : ProxyIn), ((Option.get ((pp [px] PX).parts.find? (State.isProxied m0.proxy m0.slot.toNat)) (by decide +kernel)) : Part), (padTo 252 (m0.record.drop 4) : List Byte), by decide +kernel⟩,
   ⟨(pp [{ px with sealed := true }] PX), m0, ((pp [{ px with sealed := true }] PX).ofProxy m0.proxy : ProxyIn), ((Option.get ((pp [{ px with sealed := true }] PX).parts.find? (State.isProxied m0.proxy m0.slot.toNat)) (by decide +kernel)) : Part), (padTo 252 (m0.record.drop 4) : List Byte), by decide +kernel⟩,
   ⟨PX, ({ m0 with seq := 4 }), (PX.ofProxy ({ m0 with seq := 4 }).proxy : ProxyIn), by decide +kernel⟩,
   ⟨State.reset, (0 : Fin 18), (tget {} State.reset.fwds (0 : Fin 18) : FwdOut), by decide +kernel⟩,
   ⟨(fwdk 1 base0), (1 : Fin 18), (tget {} (fwdk 1 base0).fwds (1 : Fin 18) : FwdOut), by decide +kernel⟩,
   ⟨State.reset, (0 : Fin 16), (State.reset.ofProxy (0 : Fin 16) : ProxyIn), (State.reset.proxyLane (0 : Fin 16) : Nat), (State.along (State.reset.bindDir (State.reset.proxyLane (0 : Fin 16) : Nat)) (State.reset.ofProxy (0 : Fin 16) : ProxyIn).lastOff (((State.reset.ofProxy (0 : Fin 16) : ProxyIn).areas * State.reset.proxySpan (0 : Fin 16) * 65536 : Nat) : Int) : Fine), by decide +kernel⟩,
   ⟨(prx 2 { absent := true } (lvl 3 PX)), (2 : Fin 16), ((prx 2 { absent := true } (lvl 3 PX)).ofProxy (2 : Fin 16) : ProxyIn), ((prx 2 { absent := true } (lvl 3 PX)).proxyLane (2 : Fin 16) : Nat), (State.along ((prx 2 { absent := true } (lvl 3 PX)).bindDir ((prx 2 { absent := true } (lvl 3 PX)).proxyLane (2 : Fin 16) : Nat)) ((prx 2 { absent := true } (lvl 3 PX)).ofProxy (2 : Fin 16) : ProxyIn).lastOff ((((prx 2 { absent := true } (lvl 3 PX)).ofProxy (2 : Fin 16) : ProxyIn).areas * (prx 2 { absent := true } (lvl 3 PX)).proxySpan (2 : Fin 16) * 65536 : Nat) : Int) : Fine), by decide +kernel⟩⟩
end P19

namespace P20
def PX : State := rg [(0x2E0000, 0x80300000), (0x2E0210, 0x81020001), (0x2E0214, 100), (0x2E0208, 0x81030104), (State.bindOff 1, 0x80000000), (0x280000, 0x80000000)] base0
def lvl (n : Nat) (s : State) : State := { s with line := { s.line with level := n, running := true, mask := 7 } }
def px : Part := { lane := 1, slot := 3, proxy := some 2 }
def cal0 (s : State) : State := { s with vu := { s.vu with running := true } }
def m0 : ProxyMsg := { proxy := 2, seq := 0, slot := 3, on := 77, off := 99, deadline := 5, block := 6, record := List.replicate 64 2 }
/-- Hypotheses of `Obligations.ProxyFailsafeTakesFsPass` met together, clause by clause. -/
theorem test_wit_ProxyFailsafeTakesFsPass :
    (∃ (s : State) (k : Fin 18) (slot : Nat) (p : Part) (j : Nat), s.parts.find? (fun x => decide (x.lane = k.val) && decide (x.slot = slot) && x.proxy.isSome && !x.sealed) = some p ∧ p.proxy = some j ∧ (∀ x ∈ s.parts, (x.lane = k.val → (x.slot = slot → x.proxy ≠ none))) ∧ s.vuOn = true ∧ s.axisFault (s.bindAxis k) = false ∧ State.beyond (s.bindDir k) (s.posAt (s.bindAxis k) s.time.t) p.deadline = true) ∧
    (∃ (s : State) (j : Fin 16) (x : ProxyIn) (k : Nat) (start : Fine), x = s.ofProxy j ∧ k = s.proxyLane j ∧ start = State.along (s.bindDir k) x.lastOff ((x.areas * s.proxySpan j * 65536 : Nat) : Int) ∧ s.proxyOn j = true ∧ x.absent = true ∧ 3 ≤ s.line.level ∧ State.beyond (s.bindDir k) (State.along (s.bindDir k) (s.posAt (s.bindAxis k) s.time.t) (s.bindDist k)) start = true) ∧
    (∃ (s : State) (j : Nat) (m : Nat), j < 16 ∧ m < 16 ∧ s.lineIndex < m ∧ State.hasBit s.line.mask m = true ∧ s.proxyOn j = true ∧ s.proxyModule j = m ∧ (s.ofProxy j).absent = false) ∧
    (∃ (s : State) (m : ProxyMsg), s.proxyOn m.proxy = true ∧ m.seq.toNat ≠ (s.ofProxy m.proxy).seq ∧ (s.ofProxy m.proxy).absent = false) :=
  ⟨⟨(cal0 (pp [px] PX)), (1 : Fin 18), (3 : Nat), ((Option.get ((cal0 (pp [px] PX)).parts.find? (fun x => decide (x.lane = (1 : Fin 18).val) && decide (x.slot = (3 : Nat)) && x.proxy.isSome && !x.sealed)) (by decide +kernel)) : Part), ((Option.get (((Option.get ((cal0 (pp [px] PX)).parts.find? (fun x => decide (x.lane = (1 : Fin 18).val) && decide (x.slot = (3 : Nat)) && x.proxy.isSome && !x.sealed)) (by decide +kernel)) : Part).proxy) (by decide +kernel)) : Nat), by decide +kernel⟩,
   ⟨(prx 2 { absent := true } (lvl 3 PX)), (2 : Fin 16), ((prx 2 { absent := true } (lvl 3 PX)).ofProxy (2 : Fin 16) : ProxyIn), ((prx 2 { absent := true } (lvl 3 PX)).proxyLane (2 : Fin 16) : Nat), (State.along ((prx 2 { absent := true } (lvl 3 PX)).bindDir ((prx 2 { absent := true } (lvl 3 PX)).proxyLane (2 : Fin 16) : Nat)) ((prx 2 { absent := true } (lvl 3 PX)).ofProxy (2 : Fin 16) : ProxyIn).lastOff ((((prx 2 { absent := true } (lvl 3 PX)).ofProxy (2 : Fin 16) : ProxyIn).areas * (prx 2 { absent := true } (lvl 3 PX)).proxySpan (2 : Fin 16) * 65536 : Nat) : Int) : Fine), by decide +kernel⟩,
   ⟨(prx 2 { absent := true, areas := 2 } (lvl 1 PX)), (1 : Nat), ((prx 2 { absent := true, areas := 2 } (lvl 1 PX)).proxyModule (1 : Nat) : Nat), by decide +kernel⟩,
   ⟨PX, ({ m0 with seq := 4 }), by decide +kernel⟩⟩
end P20

namespace P21
def task1 : TaskRun := { ctx := 3, job := 7, idx := 0, ops := 1 }
def pw (f : PowerU → PowerU) (s : State) : State := { s with power := f s.power }
/-- Hypotheses of `Obligations.PowerClocksAndSupplies` met together, clause by clause. -/
theorem test_wit_PowerClocksAndSupplies :
    (∃ (s : State) (l : List Nat), (s.running = false ∨ s.now - s.power.tickAt < 10000)) ∧
    (∃ (s : State) (l : List Nat), s.running = true ∧ 10000 ≤ s.now - s.power.tickAt) ∧
    (∃ (s : State) (v : Word), s.answers 0 0x2F0104 = true ∧ 8 ≤ bits v 9 0 ∧ bits v 9 0 ≤ 920) ∧
    (∃ (s : State) (v : Word), s.answers 0 0x2F0100 = true ∧ bit v 31 = true) ∧
    (∃ (s : State) (v : Word), s.answers 0 0x2F0100 = true ∧ bit v 31 = false) ∧
    (∃ (s : State) (d : Fin 25), (s.running = false ∨ s.power.stopped.getLsbD d = true ∨ s.stopCause d = true)) ∧
    (∃ (s : State) (d : Fin 25), s.running = true ∧ s.power.stopped.getLsbD d = false ∧ s.stopCause d = false) ∧
    (∃ (s : State) (c : Nat), s.power.closed.contains c = true ∧ s.domainUp c = true ∧ s.power.stopped.getLsbD (c - 1) = false) ∧
    (∃ (s : State) (c : Nat), (s.power.closed.contains c = false ∨ s.domainUp c = false ∨ s.power.stopped.getLsbD (c - 1) = true)) ∧
    (∃ (s : State) (v : Word), s.answers 0 0x2F0018 = true ∧ (bit v 31 = false ∨ s.power.mode ≠ 0)) ∧
    (∃ (s : State) (v : Word), s.answers 0 0x2F0018 = true ∧ bit v 31 = true ∧ s.power.mode = 0 ∧ s.sleepBarred = true) ∧
    (∃ (s : State) (v : Word), s.answers 0 0x2F0018 = true ∧ bit v 31 = true ∧ s.power.mode = 0 ∧ s.sleepBarred = false) ∧
    (∃ (s : State) (v : Word), s.answers 0 0x2F0018 = true ∧ (bit v 30 = false ∨ s.power.mode ≠ 2)) ∧
    (∃ (s : State) (v : Word), s.answers 0 0x2F0018 = true ∧ bit v 30 = true ∧ s.power.mode = 2) ∧
    (∃ (s : State) (lg : List Int) (dr : List Int), (s.power.dark = true ∨ s.now - s.power.readAt < 100000)) ∧
    (∃ (s : State) (lg : List Int) (dr : List Int) (tj : Int) (tm : Int), s.power.dark = false ∧ 100000 ≤ s.now - s.power.readAt ∧ tj = State.hottest s.power.tj lg ∧ tm = State.hottest s.power.tmem dr) ∧
    (∃ (s : State), (s.power.off = true ∨ s.power.dark = true ∨ (∀ a ∈ s.power.hotFrom, (s.now - a < 1000000)))) ∧
    (∃ (s : State) (a : _), s.power.off = false ∧ s.power.dark = false ∧ s.power.hotFrom = some a ∧ 1000000 ≤ s.now - a) ∧
    (∃ (s : State), (s.power.off = false ∨ (∀ a ∈ s.power.coolFrom, (s.now - a < 10000000000)))) ∧
    (∃ (s : State) (a : _), s.power.off = true ∧ s.power.coolFrom = some a ∧ 10000000000 ≤ s.now - a) ∧
    (∃ (s : State), s.power.dark = true) ∧
    (∃ (s : State) (ns : Nat), (s.power.dark = true ∨ ns < 1000000 ∨ s.vig.pinFrom ≠ none)) ∧
    (∃ (s : State) (ns : Nat), s.power.dark = false ∧ 1000000 ≤ ns ∧ s.vig.pinFrom = none) ∧
    (∃ (s : State) (ns : Nat), s.vig.pinFrom = none) ∧
    (∃ (s : State) (ns : Nat), s.vig.pinFrom ≠ none) ∧
    (∃ (s : State) (n : Fin 16), (s.lane n).rxLpi = false) ∧
    (∃ (s : State) (n : Fin 16), (s.lane n).rxLpi = true) :=
  ⟨⟨State.reset, [], by decide +kernel⟩,
   ⟨base0, [], by decide +kernel⟩,
   ⟨State.reset, (8 : Word), by decide +kernel⟩,
   ⟨State.reset, (0x80000064 : Word), by decide +kernel⟩,
   ⟨State.reset, (0 : Word), by decide +kernel⟩,
   ⟨State.reset, (2 : Fin 25), by decide +kernel⟩,
   ⟨State.reset, (0 : Fin 25), by decide +kernel⟩,
   ⟨(pw (fun p => { p with closed := [1, 3] }) base0), (1 : Nat), by decide +kernel⟩,
   ⟨State.reset, (0 : Nat), by decide +kernel⟩,
   ⟨State.reset, (0 : Word), by decide +kernel⟩,
   ⟨({ base0 with engines := [(1, { base0.engine 1 with task := some { task1 with startAt := some 5 } })] }), (0x80000064 : Word), by decide +kernel⟩,
   ⟨State.reset, (0x80000064 : Word), by decide +kernel⟩,
   ⟨State.reset, (0 : Word), by decide +kernel⟩,
   ⟨(pw (fun p => { p with mode := 2 }) base0), (0x40000000 : Word), by decide +kernel⟩,
   ⟨State.reset, [], [], by decide +kernel⟩,
   ⟨base0, [], [], (State.hottest base0.power.tj [] : Int), (State.hottest base0.power.tmem [] : Int), by decide +kernel⟩,
   ⟨State.reset, by decide +kernel⟩,
   ⟨(pw (fun p => { p with hotFrom := some 5 }) base0), ((Option.get ((pw (fun p => { p with hotFrom := some 5 }) base0).power.hotFrom) (by decide +kernel))), by decide +kernel⟩,
   ⟨State.reset, by decide +kernel⟩,
   ⟨(pw (fun p => { p with off := true, coolFrom := some 5 }) base0), ((Option.get ((pw (fun p => { p with off := true, coolFrom := some 5 }) base0).power.coolFrom) (by decide +kernel))), by decide +kernel⟩,
   ⟨(pw (fun p => { p with dark := true }) base0), by decide +kernel⟩,
   ⟨State.reset, (0 : Nat), by decide +kernel⟩,
   ⟨State.reset, (1000000 : Nat), by decide +kernel⟩,
   ⟨State.reset, (0 : Nat), by decide +kernel⟩,
   ⟨(vg (fun v => { v with pinFrom := some 5 }) base0), (0 : Nat), by decide +kernel⟩,
   ⟨State.reset, (0 : Fin 16), by decide +kernel⟩,
   ⟨(base0.setLane 2 { base0.lane 2 with rxLpi := true }), (2 : Fin 16), by decide +kernel⟩⟩
end P21

namespace P22
def B : State := rings (dox (.polderCreate 1 0x80000000) (rg (pc 1 6) base0))
def eg (e : Nat) (f : Engine → Engine) (s : State) : State := s.setEngine e (f (s.engine e))
def ld (f : Lead → Lead) (s : State) : State := { s with lead := f s.lead }
def st22 : Stream := { fn := 2, ring := 2, encode := false, format := 0, chroma := 1, width := 64, height := 64, rate := 30, qdepth := 4, qp := 20, lagMs := 10, base := 0, waiting := [{ tag := 3, addr := 0, started := true }] }
def strm (n : Nat) (s : State) : State := { s with codec := { s.codec with streams := tset none s.codec.streams n (some st22) } }
def fz := ld (fun l => { l with holder := none }) base0
def nw := base0.now
def fl (c : Half) : Flush := { code := c, head := 4, boot := 5, record := [] }
def sc (s : State) : State := rg [(0x300004, 0x3E800042), (0x300008, 0x3E800043), (0x30000C, 0x3E800003)] s
/-- Hypotheses of `Obligations.ResetsDetectionsAndTheLease` met together, clause by clause. -/
theorem test_wit_ResetsDetectionsAndTheLease :
    (∃ (s : State) (e : Fin 6), s.takeOrder (.engine e) = none) ∧
    (∃ (s : State) (e : Fin 6) (b : Bool) (u : State), s.takeOrder (.engine e) = some (b, u)) ∧
    (∃ (s : State) (e : Fin 6), ((s.engine e).inReset = none ∨ s.vig.cmpFrom ≠ none)) ∧
    (∃ (s : State) (e : Fin 6), (s.engine e).inReset ≠ none ∧ s.vig.cmpFrom = none ∧ s.engCount e < s.fld 0x300004 3 0) ∧
    (∃ (s : State) (e : Fin 6), (s.engine e).inReset ≠ none ∧ s.vig.cmpFrom = none ∧ s.fld 0x300004 3 0 ≤ s.engCount e) ∧
    (∃ (s : State), s.takeOrder .compute = none) ∧
    (∃ (s : State) (b : Bool) (u : State), s.takeOrder .compute = some (b, u)) ∧
    (∃ (s : State), s.vig.cmpFrom ≠ none ∧ (s.cmpCount < s.fld 0x300008 4 0 ∨ s.vig.outOfService = true)) ∧
    (∃ (s : State), s.vig.cmpFrom ≠ none ∧ s.fld 0x300008 4 0 ≤ s.cmpCount ∧ s.vig.outOfService = false) ∧
    (∃ (s : State), s.takeOrder .processor = none) ∧
    (∃ (s : State) (b : Bool) (u : State), s.takeOrder .processor = some (b, u)) ∧
    (∃ (s : State), s.vig.procFrom = none) ∧
    (∃ (s : State), s.vig.procFrom ≠ none) ∧
    (∃ (s : State) (c : BootCheck), (s.power.dark = true ∨ s.vig.pinFrom ≠ none ∨ s.takeOrder .cold = none)) ∧
    (∃ (s : State) (c : BootCheck) (b : Bool) (u : State), s.power.dark = false ∧ s.vig.pinFrom = none ∧ s.takeOrder .cold = some (b, u)) ∧
    (∃ (s : State), (s.vig.coldFrom = none ∨ s.power.dark = true ∨ s.vig.pinFrom ≠ none)) ∧
    (∃ (s : State), s.vig.coldFrom ≠ none ∧ s.power.dark = false ∧ s.vig.pinFrom = none) ∧
    (∃ (s : State) (e : Fin 6), (s.vig.cmpFrom ≠ none ∨ (∀ a ∈ (s.engine e).inReset, (s.now - a < 200000)))) ∧
    (∃ (s : State) (e : Fin 6) (a : _), s.vig.cmpFrom = none ∧ (s.engine e).inReset = some a ∧ 200000 ≤ s.now - a ∧ s.freeze = false) ∧
    (∃ (s : State), (∀ a ∈ s.vig.cmpFrom, (s.now - a < 2000000))) ∧
    (∃ (s : State) (a : _), s.vig.cmpFrom = some a ∧ 2000000 ≤ s.now - a ∧ s.freeze = false) ∧
    (∃ (s : State), (∀ a ∈ s.vig.procFrom, (s.now - a < 400000000))) ∧
    (∃ (s : State) (a : _), s.vig.procFrom = some a ∧ 400000000 ≤ s.now - a ∧ s.freeze = false) ∧
    (∃ (s : State), (∀ a ∈ s.vig.coldFrom, (s.now - a < 6000000000))) ∧
    (∃ (s : State) (a : _), s.vig.coldFrom = some a ∧ 6000000000 ≤ s.now - a) ∧
    (∃ (s : State), (∀ x ∈ s.streams, (∀ p ∈ x.2.waiting, p.started = false)) ∧ (∀ j ∈ s.archive.jobs, j.started = false)) ∧
    (∃ (s : State), ((∃ x ∈ s.streams, (∃ p ∈ x.2.waiting, p.started = true)) ∨ (∃ j ∈ s.archive.jobs, j.started = true)) ∧ s.freeze = false) ∧
    (∃ (s : State) (c : Fin 8), (s.fld (State.coreOff c) 13 0 = 0 ∨ s.now - tget 0 s.vig.kicks c < s.fld (State.coreOff c) 13 0 * 1000000)) ∧
    (∃ (s : State) (c : Fin 8), s.fld (State.coreOff c) 13 0 ≠ 0 ∧ s.fld (State.coreOff c) 13 0 * 1000000 ≤ s.now - tget 0 s.vig.kicks c) ∧
    (∃ (s : State) (c : Fin 8) (v : Word), s.answers 0 (State.coreOff c) = true ∧ bit v 31 = false) ∧
    (∃ (s : State) (c : Fin 8) (v : Word), s.answers 0 (State.coreOff c) = true ∧ bit v 31 = true ∧ bits v 13 0 ≤ 10000) ∧
    (∃ (s : State) (v : Word), s.answers 0 0x300040 = true ∧ bit v 31 = false) ∧
    (∃ (s : State) (v : Word), s.answers 0 0x300040 = true ∧ bit v 30 = false) ∧
    (∃ (s : State) (v : Word), s.answers 0 0x300040 = true ∧ bit v 29 = false) ∧
    (∃ (s : State) (v : Word), s.answers 0 0x300040 = true ∧ s.freeze = false ∧ bit v 29 = true) ∧
    (∃ (s : State) (v : Word), s.answers 0 0x300040 = true ∧ s.freeze = false ∧ bit v 29 = false ∧ bit v 30 = true) ∧
    (∃ (s : State) (v : Word) (e : Fin 6), s.answers 0 0x300040 = true ∧ s.freeze = false ∧ bit v 29 = false ∧ bit v 30 = false ∧ bit v 31 = true ∧ bits v 2 0 = e.val) ∧
    (∃ (s : State) (v : Word), s.answers 0 0x300040 = true ∧ s.freeze = false ∧ bit v 29 = false ∧ bit v 30 = false ∧ bit v 31 = true ∧ 6 ≤ bits v 2 0) ∧
    (∃ (s : State) (w : Warden), s.leaseHeld = true ∧ s.lead.holder ≠ some w) ∧
    (∃ (s : State) (w : Warden), (s.leaseHeld = false ∨ s.lead.holder = some w)) ∧
    (∃ (s : State) (w : Warden), (s.lead.holder ≠ some w ∨ s.lead.leads = false ∨ s.now - s.lead.sentAt < 900000)) ∧
    (∃ (s : State) (w : Warden), s.lead.holder = some w ∧ s.lead.leads = true ∧ 900000 ≤ s.now - s.lead.sentAt) ∧
    (∃ (s : State) (w : Warden) (o : Warden) (last : Option Nat), last = (match w with | .n => s.lead.lastN | .s => s.lead.lastS) ∧ (s.lead.leads = false ∨ s.lead.holder = none ∨ s.lead.holder = some w ∨ s.now - last.getD 0 < 2000000)) ∧
    (∃ (s : State) (w : Warden) (o : Warden) (last : Option Nat), last = (match w with | .n => s.lead.lastN | .s => s.lead.lastS) ∧ s.lead.leads = true ∧ s.lead.holder = some o ∧ o ≠ w ∧ 2000000 ≤ s.now - last.getD 0) ∧
    (∃ (s : State), (s.freeze = false ∨ s.lead.frozen = true ∨ s.now - s.lead.grantAt < 3000000)) ∧
    (∃ (s : State), s.freeze = true ∧ s.lead.frozen = false ∧ 3000000 ≤ s.now - s.lead.grantAt) ∧
    (∃ (s : State) (e : Half), (∀ f ∈ s.vig.flushes, f.code ≠ e)) ∧
    (∃ (s : State) (e : Half) (f : _), s.vig.flushes.find? (fun x => decide (x.code = e)) = some f) ∧
    (∃ (s : State) (v : Word), s.answers 0 0x301008 = true ∧ bits v 3 0 ≤ 8) ∧
    (∃ (s : State) (v : Word), s.answers 0 0x300090 = true) :=
  ⟨⟨(eg 1 (fun x => { x with inReset := some 5 }) (sc B)), (1 : Fin 6), by decide +kernel⟩,
   ⟨State.reset, (0 : Fin 6), ((Prod.fst ((Option.get (State.reset.takeOrder (.engine (0 : Fin 6))) (by decide +kernel)))) : Bool), ((Prod.snd ((Option.get (State.reset.takeOrder (.engine (0 : Fin 6))) (by decide +kernel)))) : State), by decide +kernel⟩,
   ⟨State.reset, (0 : Fin 6), by decide +kernel⟩,
   ⟨(eg 1 (fun x => { x with inReset := some 5 }) (sc B)), (1 : Fin 6), by decide +kernel⟩,
   ⟨(eg 1 (fun x => { x with inReset := some 5, resets := [nw - 5, nw - 6, nw-7] }) (sc B)), (1 : Fin 6), by decide +kernel⟩,
   ⟨(vg (fun v => { v with cmpFrom := some 5 }) (eg 1 (fun x => { x with inReset := some 5 }) (sc B))), by decide +kernel⟩,
   ⟨State.reset, ((Prod.fst ((Option.get (State.reset.takeOrder .compute) (by decide +kernel)))) : Bool), ((Prod.snd ((Option.get (State.reset.takeOrder .compute) (by decide +kernel)))) : State), by decide +kernel⟩,
   ⟨(vg (fun v => { v with cmpFrom := some 5 }) (eg 1 (fun x => { x with inReset := some 5 }) (sc B))), by decide +kernel⟩,
   ⟨(vg (fun v => { v with cmpFrom := some nw, cmpResets := [nw -1, nw-2, nw-3, nw-4, nw-5] }) (eg 1 (fun x => { x with inReset := some 5 }) (sc B))), by decide +kernel⟩,
   ⟨(vg (fun v => { v with procFrom := some nw }) B), by decide +kernel⟩,
   ⟨State.reset, ((Prod.fst ((Option.get (State.reset.takeOrder .processor) (by decide +kernel)))) : Bool), ((Prod.snd ((Option.get (State.reset.takeOrder .processor) (by decide +kernel)))) : State), by decide +kernel⟩,
   ⟨State.reset, by decide +kernel⟩,
   ⟨(vg (fun v => { v with procFrom := some nw }) B), by decide +kernel⟩,
   ⟨(vg (fun v => { v with coldFrom := some nw }) base0), .ok, by decide +kernel⟩,
   ⟨State.reset, .ok, ((Prod.fst ((Option.get (State.reset.takeOrder .cold) (by decide +kernel)))) : Bool), ((Prod.snd ((Option.get (State.reset.takeOrder .cold) (by decide +kernel)))) : State), by decide +kernel⟩,
   ⟨State.reset, by decide +kernel⟩,
   ⟨(vg (fun v => { v with coldFrom := some nw }) base0), by decide +kernel⟩,
   ⟨State.reset, (0 : Fin 6), by decide +kernel⟩,
   ⟨(eg 1 (fun x => { x with inReset := some 5 }) (sc B)), (1 : Fin 6), ((Option.get (((eg 1 (fun x => { x with inReset := some 5 }) (sc B)).engine (1 : Fin 6)).inReset) (by decide +kernel))), by decide +kernel⟩,
   ⟨State.reset, by decide +kernel⟩,
   ⟨(vg (fun v => { v with cmpFrom := some 5 }) (eg 1 (fun x => { x with inReset := some 5 }) (sc B))), ((Option.get ((vg (fun v => { v with cmpFrom := some 5 }) (eg 1 (fun x => { x with inReset := some 5 }) (sc B))).vig.cmpFrom) (by decide +kernel))), by decide +kernel⟩,
   ⟨State.reset, by decide +kernel⟩,
   ⟨(vg (fun v => { v with procFrom := some 5, byCommand := true, image := [] }) B), ((Option.get ((vg (fun v => { v with procFrom := some 5, byCommand := true, image := [] }) B).vig.procFrom) (by decide +kernel))), by decide +kernel⟩,
   ⟨State.reset, by decide +kernel⟩,
   ⟨(vg (fun v => { v with coldFrom := some 5 }) base0), ((Option.get ((vg (fun v => { v with coldFrom := some 5 }) base0).vig.coldFrom) (by decide +kernel))), by decide +kernel⟩,
   ⟨State.reset, by decide +kernel⟩,
   ⟨(strm 1 base0), by decide +kernel⟩,
   ⟨State.reset, (0 : Fin 8), by decide +kernel⟩,
   ⟨(rg [(0x300010, 5), (0x300014, 5)] base0), (0 : Fin 8), by decide +kernel⟩,
   ⟨State.reset, (0 : Fin 8), (0 : Word), by decide +kernel⟩,
   ⟨State.reset, (0 : Fin 8), (0x80000000 : Word), by decide +kernel⟩,
   ⟨State.reset, (0 : Word), by decide +kernel⟩,
   ⟨State.reset, (0 : Word), by decide +kernel⟩,
   ⟨State.reset, (0 : Word), by decide +kernel⟩,
   ⟨State.reset, (0x20000000 : Word), by decide +kernel⟩,
   ⟨State.reset, (0x40000000 : Word), by decide +kernel⟩,
   ⟨State.reset, (0x80000000 : Word), (0 : Fin 6), by decide +kernel⟩,
   ⟨State.reset, (0x80000007 : Word), by decide +kernel⟩,
   ⟨State.reset, .s, by decide +kernel⟩,
   ⟨State.reset, .n, by decide +kernel⟩,
   ⟨State.reset, .n, by decide +kernel⟩,
   ⟨base0, .n, by decide +kernel⟩,
   ⟨State.reset, .n, .n, ((match Warden.n with | .n => State.reset.lead.lastN | .s => State.reset.lead.lastS) : Option Nat), by decide +kernel⟩,
   ⟨base0, .s, .n, ((match Warden.s with | .n => base0.lead.lastN | .s => base0.lead.lastS) : Option Nat), by decide +kernel⟩,
   ⟨State.reset, by decide +kernel⟩,
   ⟨fz, by decide +kernel⟩,
   ⟨State.reset, (0x5065 : Half), by decide +kernel⟩,
   ⟨(vg (fun v => { v with flushes := [fl 0x5065, fl 0x5066] }) base0), (0x5065 : Half), ((Option.get ((vg (fun v => { v with flushes := [fl 0x5065, fl 0x5066] }) base0).vig.flushes.find? (fun x => decide (x.code = (0x5065 : Half)))) (by decide +kernel))), by decide +kernel⟩,
   ⟨State.reset, (0 : Word), by decide +kernel⟩,
   ⟨State.reset, (0 : Word), by decide +kernel⟩⟩
theorem test_wit_reset_registers : ∃ (s : State) (v : Word), s.answers 0 0x300040 = true ∧ s.freeze = true := ⟨fz, 0x80000000, by decide +kernel⟩
end P22

namespace P23
def se (f : SecU → SecU) (s : State) : State := { s with sec := f s.sec }
def bufAt := 0x3000000
def buf (n : Nat) (b : List Byte) (s : State) : State := { rg [(0x320004, BitVec.ofNat 32 bufAt), (0x320008, 0), (0x32000C, BitVec.ofNat 32 n)] s with bonded := writeBytes s.bonded bufAt b }
def nn : List Byte := List.replicate 32 7
def ch (s : State) : State := se (fun x => { x with nonce := some (nn, s.now - 5, s.attestedAll) }) s
def encR (s : State) : State := s.putRecipe 0x20000 { fn := 2, encrypted := true, residentAt := true }
def rc (s : State) : State := se (fun x => { x with state := 0 }) s
def lswR (s : State) : State := rg [(0x200020, 0x20000000), (0x200028, 1)] s
def img : List Byte := leBytes 4 0x49574C52 ++ [1, 0] ++ List.replicate 6 0 ++ leBytes 4 1 ++ leBytes 4 8 ++ leBytes 4 0 ++ [88, 12, 6, 119, 236, 248, 247, 213, 99, 97, 3, 101, 79, 49, 28, 108, 216, 95, 37, 241, 84, 214, 242, 144, 33, 16, 172, 202, 32, 15, 75, 211] ++ [1] ++ List.replicate 455 0 ++ List.replicate 8 5
def fwS : State := rc (buf 520 img base0)
def ownS : State := buf 1024 (leBytes 4 0x4F574C52 ++ leBytes 4 1) base0
def ownE : List Byte := ownS.secBytes.take 1024
def tokB (level : Byte) : List Byte := leBytes 4 0x44574C52 ++ [level, 1, 0, 0] ++ List.replicate 32 0 ++ nn ++ leBytes 4 5 ++ leBytes 4 60
def tokS (level : Byte) : State := buf 256 (tokB level) (ch base0)
def tokS2 : State := buf 256 (tokB 2) (ch (encR base0))
def lswB : List Byte := leBytes 4 0x52574C52 ++ [1, 0, 0, 4] ++ leBytes 4 16
def OW' : State := se (fun x => { x with state := 2, gen := 1 }) base0
def lswS : State := buf 272 lswB (lswR OW')
def lswS0 : State := buf 272 lswB (rg [(0x200028, 0)] OW')
/-- Hypotheses of `Obligations.SecurityRequests` met together, clause by clause. -/
theorem test_wit_SecurityRequests :
    (∃ (s : State) (n : Nat) (c : Fin 10) (ok : Bool) (code : Half), s.answers 0 0x320010 = true ∧ (n, c) ∈ [(1, (if ok then (0 : Fin 10) else 1)), (2, 2), (3, 3), (4, 4), (5, 5), (6, 6), (7, 7), (8, 8), (9, 9)] ∧ s.secBar n = some code) ∧
    (∃ (s : State) (e : List Byte) (key : List Byte), s.answers 0 0x320010 = true ∧ s.secBar 2 = none ∧ e = s.secBytes.take 1024 ∧ key = slice e 0x28 57 ∧ s.sec.gen = 0xFFFFFFFF#32) ∧
    (∃ (s : State) (e : List Byte) (key : List Byte), s.answers 0 0x320010 = true ∧ s.secBar 2 = none ∧ e = s.secBytes.take 1024 ∧ key = slice e 0x28 57 ∧ s.sec.gen ≠ 0xFFFFFFFF#32 ∧ (e.length ≠ 1024 ∨ fieldAt e 0 4 ≠ 0x4F574C52 ∨ fieldAt e 4 4 ≠ s.sec.gen.toNat + 1 ∨ slice e 8 32 ≠ idDigest ∨ Config.ed448Verify (if s.sec.state = 2 then s.ownerKey else key) (e.take 0x38E) (slice e 0x38E 114) = false)) ∧
    (∃ (s : State), s.answers 0 0x320010 = true ∧ s.secBar 3 = none) ∧
    (∃ (s : State), s.answers 0 0x320010 = true ∧ s.secBar 8 = none) ∧
    (∃ (s : State), s.answers 0 0x320010 = true ∧ s.secBar 4 = none) ∧
    (∃ (s : State), s.answers 0 0x320010 = true ∧ s.secBar 6 = none) ∧
    (∃ (s : State), s.answers 0 0x320010 = true ∧ s.secBar 9 = none) ∧
    (∃ (s : State) (e : List Byte), s.answers 0 0x320010 = true ∧ s.secBar 5 = none ∧ e = s.secBytes.take 256 ∧ s.sec.token = 0xFFFFFFFF#32) ∧
    (∃ (s : State) (e : List Byte), s.answers 0 0x320010 = true ∧ s.secBar 5 = none ∧ e = s.secBytes.take 256 ∧ s.sec.token ≠ 0xFFFFFFFF#32 ∧ (e.length ≠ 256 ∨ slice e 8 32 ≠ idDigest ∨ s.nonceNow ≠ some (slice e 0x28 32) ∨ fieldAt e 0x48 4 ≤ s.sec.token.toNat ∨ fieldAt e 0x4C 4 < 60 ∨ 86400 < fieldAt e 0x4C 4 ∨ s.tokenSigned e = false)) ∧
    (∃ (s : State), (s.sec.debug = 0 ∨ s.now < s.sec.debugUntil)) ∧
    (∃ (s : State), s.sec.debug ≠ 0 ∧ s.sec.debugUntil ≤ s.now) ∧
    (∃ (s : State) (e : List Byte), s.answers 0 0x320010 = true ∧ s.secBar 7 = none ∧ e = s.secBytes ∧ s.lswOk e = false) :=
  ⟨⟨(rc base0), (2 : Nat), (2 : Fin 10), true, ((Option.get ((rc base0).secBar (2 : Nat)) (by decide +kernel)) : Half), by decide +kernel⟩,
   ⟨(buf 1024 [1] (se (fun x => { x with gen := 0xFFFFFFFF }) base0)), ((buf 1024 [1] (se (fun x => { x with gen := 0xFFFFFFFF }) base0)).secBytes.take 1024 : List Byte), (slice ((buf 1024 [1] (se (fun x => { x with gen := 0xFFFFFFFF }) base0)).secBytes.take 1024 : List Byte) 0x28 57 : List Byte), by decide +kernel⟩,
   ⟨State.reset, (State.reset.secBytes.take 1024 : List Byte), (slice (State.reset.secBytes.take 1024 : List Byte) 0x28 57 : List Byte), by decide +kernel⟩,
   ⟨State.reset, by decide +kernel⟩,
   ⟨State.reset, by decide +kernel⟩,
   ⟨State.reset, by decide +kernel⟩,
   ⟨State.reset, by decide +kernel⟩,
   ⟨State.reset, by decide +kernel⟩,
   ⟨(buf 256 [1] (se (fun x => { x with token := 0xFFFFFFFF }) base0)), ((buf 256 [1] (se (fun x => { x with token := 0xFFFFFFFF }) base0)).secBytes.take 256 : List Byte), by decide +kernel⟩,
   ⟨State.reset, (State.reset.secBytes.take 256 : List Byte), by decide +kernel⟩,
   ⟨State.reset, by decide +kernel⟩,
   ⟨(se (fun x => { x with debug := 1, debugUntil := 5 }) base0), by decide +kernel⟩,
   ⟨State.reset, (State.reset.secBytes : List Byte), by decide +kernel⟩⟩
/-! Signatures are checked by an opaque function, and the device's identity is opaque: where the check passes (and the
identity is the one named), the other hypotheses hold together. -/
theorem test_wit_firmware_taken (hv : fwS.imageGood fwS.secBytes = true) : ∃ (s : State) (e : List Byte), s.answers 0 0x320010 = true ∧
    s.secBar 1 = none ∧ e = s.secBytes ∧ s.imageGood e = true ∧ s.sec.svn.toNat ≤ fieldAt e 0x0C 4 :=
  ⟨fwS, _, by decide +kernel, by decide +kernel, rfl, hv, Nat.zero_le _⟩
theorem test_wit_owner_record_taken (hid : slice ownE 8 32 = idDigest)
    (hv : Config.ed448Verify (slice ownE 0x28 57) (ownE.take 0x38E) (slice ownE 0x38E 114) = true) :
    ∃ (s : State) (e key : List Byte), s.answers 0 0x320010 = true ∧ s.secBar 2 = none ∧ e = s.secBytes.take 1024 ∧ key = slice e 0x28 57 ∧
      s.sec.gen ≠ 0xFFFFFFFF#32 ∧ e.length = 1024 ∧ fieldAt e 0 4 = 0x4F574C52 ∧ fieldAt e 4 4 = s.sec.gen.toNat + 1 ∧ slice e 8 32 = idDigest ∧
      Config.ed448Verify (if s.sec.state = 2 then s.ownerKey else key) (e.take 0x38E) (slice e 0x38E 114) = true :=
  ⟨ownS, ownE, _, by decide +kernel, by decide +kernel, rfl, rfl, by decide +kernel, by decide +kernel, by decide +kernel, by decide +kernel, hid,
    by rw [if_neg (by decide +kernel)]; exact hv⟩
theorem test_wit_token_nonce (level : Byte) : (tokS level).nonceNow = some nn := by
  show (if (tokS level).now - (base0.now - 5) < 600000000000 ∧ base0.attestedAll = (tokS level).attestedAll then some nn else none) = some nn
  rw [if_pos ⟨by show base0.now - (base0.now - 5) < 600000000000; decide +kernel, rfl⟩]
theorem test_wit_debug_token_taken (hid : slice ((tokS 1).secBytes.take 256) 8 32 = idDigest) (hv : (tokS 1).tokenSigned ((tokS 1).secBytes.take 256) = true) :
    ∃ (s : State) (e : List Byte), s.answers 0 0x320010 = true ∧ s.secBar 5 = none ∧ e = s.secBytes.take 256 ∧ s.sec.token ≠ 0xFFFFFFFF#32 ∧
      e.length = 256 ∧ fieldAt e 0 4 = 0x44574C52 ∧ (fieldAt e 4 1 = 1 ∨ fieldAt e 4 1 = 2) ∧ slice e 8 32 = idDigest ∧
      s.nonceNow = some (slice e 0x28 32) ∧ s.sec.token.toNat < fieldAt e 0x48 4 ∧ 60 ≤ fieldAt e 0x4C 4 ∧ fieldAt e 0x4C 4 ≤ 86400 ∧
      s.tokenSigned e = true ∧ (fieldAt e 4 1 = 1 ∨ s.encResident = false) :=
  ⟨tokS 1, _, by decide +kernel, by decide +kernel, rfl, by decide +kernel, by decide +kernel, by decide +kernel, by decide +kernel, hid,
    (test_wit_token_nonce 1).trans (by decide +kernel), by decide +kernel, by decide +kernel, by decide +kernel, hv, by decide +kernel⟩
theorem test_wit_debug_token_meets_encrypted_recipe (hid : slice (tokS2.secBytes.take 256) 8 32 = idDigest)
    (hn : tokS2.nonceNow = some nn) (hv : tokS2.tokenSigned (tokS2.secBytes.take 256) = true) :
    ∃ (s : State) (e : List Byte), s.answers 0 0x320010 = true ∧ s.secBar 5 = none ∧ e = s.secBytes.take 256 ∧ s.sec.token ≠ 0xFFFFFFFF#32 ∧
      e.length = 256 ∧ fieldAt e 0 4 = 0x44574C52 ∧ slice e 8 32 = idDigest ∧ s.nonceNow = some (slice e 0x28 32) ∧
      s.sec.token.toNat < fieldAt e 0x48 4 ∧ 60 ≤ fieldAt e 0x4C 4 ∧ fieldAt e 0x4C 4 ≤ 86400 ∧ s.tokenSigned e = true ∧
      fieldAt e 4 1 = 2 ∧ s.encResident = true :=
  ⟨tokS2, _, by decide +kernel, by decide +kernel, rfl, by decide +kernel, by decide +kernel, by decide +kernel, hid,
    hn.trans (by decide +kernel), by decide +kernel, by decide +kernel, by decide +kernel, hv, by decide +kernel, by decide +kernel⟩
theorem test_wit_line_software_taken (hv : lswS.lswOk lswS.secBytes = true) : ∃ (s : State) (e : List Byte), s.answers 0 0x320010 = true ∧
    s.secBar 7 = none ∧ e = s.secBytes ∧ s.lswOk e = true ∧ s.lswBar = none ∧ (envPayload e).length ≤ s.lswRegion.2 :=
  ⟨lswS, _, by decide +kernel, by decide +kernel, rfl, hv, by decide +kernel, by decide +kernel⟩
theorem test_wit_line_software_barred (hv : lswS0.lswOk lswS0.secBytes = true) : ∃ (s : State) (e : List Byte), s.answers 0 0x320010 = true ∧
    s.secBar 7 = none ∧ e = s.secBytes ∧ s.lswOk e = true ∧ s.lswBar ≠ none :=
  ⟨lswS0, _, by decide +kernel, by decide +kernel, rfl, hv, by decide +kernel⟩
end P23


end Sys2Proof.Machine.Tests
end

