-- ==== Sys2Proof/Proofs/FixedPart.lean ====
section
/-! SUPPORT. The queue of commands and the product variant, which no command changes: one lemma for each function of the
model that gives a state, in the model's order, and their sum over `exec`. -/

namespace Sys2Proof.Machine.State

/-- What no command changes: the queue and the product variant. -/
def fixedPart (s : State) : List Instr × Bool := (s.pending, s.variantN)

/-! The lemmas of this part are tried from the outside in (`simp ↓`): a chain of updates is taken off update by update, and
what an update writes is not looked at. -/

@[simp ↓] theorem fixedPart_mk
    (pending free now time regs counters held latched busRead sealed log variantN bonded axes emus lanes ports pllOut qps
      sluices pars slots pipes cal chans fs parts vlanes provings vu dis dos field banks engines lead records rewind archive
      line proxies fwds notified pool ecc empties ops nextOp nextJob ctxs polders spare tracks nodes kv recipes active changes
      sec vig power codec) :
    fixedPart (State.mk pending free now time regs counters held latched busRead sealed log variantN bonded axes emus lanes
      ports pllOut qps sluices pars slots pipes cal chans fs parts vlanes provings vu dis dos field banks engines lead records
      rewind archive line proxies fwds notified pool ecc empties ops nextOp nextJob ctxs polders spare tracks nodes kv recipes
      active changes sec vig power codec) =
      (pending, variantN) := by rw [fixedPart]

@[simp ↓] theorem fixedPart_eta (s : State) : (s.pending, s.variantN) = s.fixedPart := by rw [fixedPart]

@[simp ↓] theorem fixedPart_ite (c : Prop) [Decidable c] (a b : State) :
    (if c then a else b).fixedPart = if c then a.fixedPart else b.fixedPart := apply_ite _ _ _ _

@[simp ↓] theorem fixedPart_snd_ite {α : Type} (c : Prop) [Decidable c] (a b : α × State) :
    (if c then a else b).2.fixedPart = if c then a.2.fixedPart else b.2.fixedPart := by split <;> rfl

theorem foldl_fixedPart {α : Type} (f : State → α → State) (hf : ∀ s a, (f s a).fixedPart = s.fixedPart) (l : List α)
    (s : State) : (l.foldl f s).fixedPart = s.fixedPart := by
  induction l generalizing s with
  | nil => rfl
  | cons x r ih => rw [List.foldl_cons, ih, hf]

/-! ## Registers, counters, posts and reports -/

@[simp ↓] theorem setReg_fixedPart (s : State) (off : Nat) (w : Word) : (s.setReg off w).fixedPart = s.fixedPart := by
  unfold setReg; simp

@[simp ↓] theorem setFld_fixedPart (s : State) (off hi lo x : Nat) : (s.setFld off hi lo x).fixedPart = s.fixedPart := by
  unfold setFld; simp

@[simp ↓] theorem bump_fixedPart (s : State) (off n : Nat) : (s.bump off n).fixedPart = s.fixedPart := by
  unfold bump; simp

@[simp ↓] theorem raise_fixedPart (s : State) (code : Half) (kind inst n : Nat) (payload : List Byte) :
    (s.raise code kind inst n payload).fixedPart = s.fixedPart := by
  unfold raise; simp

@[simp ↓] theorem raiseNow_fixedPart (s : State) (code : Half) (kind inst : Nat) (payload : List Byte) :
    (s.raiseNow code kind inst payload).fixedPart = s.fixedPart := by
  unfold raiseNow; simp

@[simp ↓] theorem last_fixedPart (s : State) (code : Half) (kind inst : Nat) :
    (s.last code kind inst).fixedPart = s.fixedPart := by
  unfold last; simp

@[simp ↓] theorem report_fixedPart (s : State) (code : Half) (outcome : Byte) (off hi lo written applied subject fn : Nat) :
    (s.report code outcome off hi lo written applied subject fn).fixedPart = s.fixedPart := by
  unfold report; simp

@[simp ↓] theorem reportSubject_fixedPart (s : State) (code : Half) (outcome : Byte) (subject fn : Nat) :
    (s.reportSubject code outcome subject fn).fixedPart = s.fixedPart := by
  unfold reportSubject; simp

@[simp ↓] theorem refuse_fixedPart (s : State) (code : Half) (kind inst off b subject fn : Nat) :
    (s.refuse code kind inst off b subject fn).fixedPart = s.fixedPart := by
  unfold refuse; simp

@[simp ↓] theorem reportFields_fixedPart (s : State) (off kind inst : Nat) (l : List FieldRep) :
    (s.reportFields off kind inst l).fixedPart = s.fixedPart := by
  induction l generalizing s with
  | nil => rfl
  | cons x r ih => unfold reportFields; simp [ih]

@[simp ↓] theorem countSealed_fixedPart (s : State) (off : Nat) (f : FieldSpec) (v old : Word) :
    (s.countSealed off f v old).fixedPart = s.fixedPart := by
  unfold countSealed; dsimp only; split <;> simp

@[simp ↓] theorem writeFields_fixedPart (s : State) (off kind inst : Nat) (v : Word) :
    (s.writeFields off kind inst v).fixedPart = s.fixedPart := by
  unfold writeFields; dsimp only; (repeat' split) <;> simp

@[simp ↓] theorem drawNat_fixedPart (s : State) : s.drawNat.2.fixedPart = s.fixedPart := by
  unfold drawNat; simp

@[simp ↓] theorem drawBool_fixedPart (s : State) : s.drawBool.2.fixedPart = s.fixedPart := by
  unfold drawBool; simp

@[simp ↓] theorem gate_fixedPart (s : State) (fn off : Nat) (v : Word) (f : State → State)
    (hf : ∀ t : State, (f t).fixedPart = t.fixedPart) : (gate s fn off v f).fixedPart = s.fixedPart := by
  unfold gate; split <;> simp [hf]

@[simp ↓] theorem setAxis_fixedPart (s : State) (n : Nat) (a : Axis) : (s.setAxis n a).fixedPart = s.fixedPart := by
  unfold setAxis; simp

@[simp ↓] theorem setEmu_fixedPart (s : State) (n : Nat) (e : Emu) : (s.setEmu n e).fixedPart = s.fixedPart := by
  unfold setEmu; simp

@[simp ↓] theorem setLane_fixedPart (s : State) (n : Nat) (l : Lane) : (s.setLane n l).fixedPart = s.fixedPart := by
  unfold setLane; simp

@[simp ↓] theorem setPort_fixedPart (s : State) (n : Nat) (p : Port) : (s.setPort n p).fixedPart = s.fixedPart := by
  unfold setPort; simp

@[simp ↓] theorem setQp_fixedPart (s : State) (n : Nat) (q : Qp) : (s.setQp n q).fixedPart = s.fixedPart := by
  unfold setQp; simp

@[simp ↓] theorem setSluice_fixedPart (s : State) (k : Nat) (c : Sluice) : (s.setSluice k c).fixedPart = s.fixedPart := by
  unfold setSluice; simp

@[simp ↓] theorem setSlot_fixedPart (s : State) (i : Nat) (x : Slot) : (s.setSlot i x).fixedPart = s.fixedPart := by
  unfold setSlot; simp

@[simp ↓] theorem setPipe_fixedPart (s : State) (p : Nat) (x : Pipe) : (s.setPipe p x).fixedPart = s.fixedPart := by
  unfold setPipe; simp

@[simp ↓] theorem setCal_fixedPart (s : State) (n : Nat) (l : List CalEntry) : (s.setCal n l).fixedPart = s.fixedPart := by
  unfold setCal; simp

@[simp ↓] theorem setChan_fixedPart (s : State) (c : Nat) (x : Chan) : (s.setChan c x).fixedPart = s.fixedPart := by
  unfold setChan; simp

@[simp ↓] theorem setVlane_fixedPart (s : State) (k : Nat) (x : VLane) : (s.setVlane k x).fixedPart = s.fixedPart := by
  unfold setVlane; simp

@[simp ↓] theorem setBank_fixedPart (s : State) (b : Nat) (x : Bank) : (s.setBank b x).fixedPart = s.fixedPart := by
  unfold setBank; simp

@[simp ↓] theorem setDi_fixedPart (s : State) (i : Nat) (x : Di) : (s.setDi i x).fixedPart = s.fixedPart := by
  unfold setDi; simp

@[simp ↓] theorem setDoPin_fixedPart (s : State) (i : Nat) (x : DoPin) : (s.setDoPin i x).fixedPart = s.fixedPart := by
  unfold setDoPin; simp

/-! ## Regions of bonded memory -/

@[simp ↓] theorem refuseAll_fixedPart (s : State) (kind inst off b fn : Nat) (l : List (Half × Nat)) :
    (s.refuseAll kind inst off b fn l).fixedPart = s.fixedPart := by
  induction l generalizing s with
  | nil => rfl
  | cons x r ih => unfold refuseAll; simp [ih]

@[simp ↓] theorem revertField_fixedPart (s : State) (old : Word) (off hi lo kind inst : Nat) (code : Half) (subject : Nat) :
    (s.revertField old off hi lo kind inst code subject).fixedPart = s.fixedPart := by
  unfold revertField; simp

/-! ## Ejector outputs and fail-safe -/

@[simp ↓] theorem withFs_fixedPart (s : State) (f : FailSafe) : (s.withFs f).fixedPart = s.fixedPart := by
  unfold withFs; simp

@[simp ↓] theorem postEngaged_fixedPart (s : State) (cause : Nat) : (s.postEngaged cause).fixedPart = s.fixedPart := by
  unfold postEngaged; simp

@[simp ↓] theorem holdUp_fixedPart (s : State) (c : Nat) : (s.holdUp c).fixedPart = s.fixedPart := by
  unfold holdUp; simp

@[simp ↓] theorem holdDown_fixedPart (s : State) (c : Nat) : (s.holdDown c).fixedPart = s.fixedPart := by
  unfold holdDown; simp

@[simp ↓] theorem holdUpAll_fixedPart (s : State) (l : List Nat) : (s.holdUpAll l).fixedPart = s.fixedPart := by
  induction l generalizing s with
  | nil => rfl
  | cons x r ih => unfold holdUpAll; simp [ih]

@[simp ↓] theorem holdDownAll_fixedPart (s : State) (l : List Nat) : (s.holdDownAll l).fixedPart = s.fixedPart := by
  induction l generalizing s with
  | nil => rfl
  | cons x r ih => unfold holdDownAll; simp [ih]

@[simp ↓] theorem clearHolds_fixedPart (s : State) (n : Nat) : (s.clearHolds n).fixedPart = s.fixedPart := by
  unfold clearHolds; simp

@[simp ↓] theorem fullRelease_fixedPart (s : State) (n : Nat) : (s.fullRelease n).fixedPart = s.fixedPart := by
  unfold fullRelease; simp

@[simp ↓] theorem discardEjections_fixedPart (s : State) (n : Nat) : (s.discardEjections n).fixedPart = s.fixedPart := by
  unfold discardEjections; simp

@[simp ↓] theorem axisFailSafe_fixedPart (s : State) (n : Nat) : (s.axisFailSafe n).fixedPart = s.fixedPart := by
  unfold axisFailSafe; simp

@[simp ↓] theorem clearCalendar_fixedPart (s : State) : s.clearCalendar.fixedPart = s.fixedPart := by
  unfold clearCalendar; simp

/-! ## The Calendar -/

@[simp ↓] theorem calAdd_fixedPart (s : State) (n : Nat) (es : List CalEntry) : (s.calAdd n es).1.fixedPart = s.fixedPart := by
  unfold calAdd; split <;> simp

@[simp ↓] theorem calTake_fixedPart (s : State) (n idx : Nat) (e : CalEntry) : (s.calTake n idx e).fixedPart = s.fixedPart := by
  unfold calTake; simp

@[simp ↓] theorem calOnEff_fixedPart (s : State) (n idx : Nat) : (s.calOnEff n idx).fixedPart = s.fixedPart := by
  unfold calOnEff; split <;> simp

@[simp ↓] theorem calOffEff_fixedPart (s : State) (n idx : Nat) : (s.calOffEff n idx).fixedPart = s.fixedPart := by
  unfold calOffEff; split <;> simp

@[simp ↓] theorem swapFired_fixedPart (s : State) (e : CalEntry) : (s.swapFired e).fixedPart = s.fixedPart := by
  unfold swapFired; simp

@[simp ↓] theorem calSwapEff_fixedPart (s : State) (n idx : Nat) : (s.calSwapEff n idx).fixedPart = s.fixedPart := by
  unfold calSwapEff; split <;> simp

@[simp ↓] theorem calMarkEff_fixedPart (s : State) (n idx : Nat) : (s.calMarkEff n idx).fixedPart = s.fixedPart := by
  unfold calMarkEff; split <;> simp

@[simp ↓] theorem heartbeatLossEff_fixedPart (s : State) : s.heartbeatLossEff.fixedPart = s.fixedPart := by
  unfold heartbeatLossEff; simp

@[simp ↓] theorem engageEff_fixedPart (s : State) (v : Word) : (s.engageEff v).fixedPart = s.fixedPart := by
  unfold engageEff; simp

@[simp ↓] theorem releaseEff_fixedPart (s : State) (v : Word) : (s.releaseEff v).fixedPart = s.fixedPart := by
  unfold releaseEff; simp

@[simp ↓] theorem vuEnableEff_fixedPart (s : State) (v : Word) : (s.vuEnableEff v).fixedPart = s.fixedPart := by
  unfold vuEnableEff; simp

/-! ## Axes and emulation outputs -/

@[simp ↓] theorem setStat_fixedPart (s : State) (n b : Nat) : (s.setStat n b).fixedPart = s.fixedPart := by
  unfold setStat; simp

@[simp ↓] theorem holdSpeed_fixedPart (s : State) (n : Nat) (sp : Int) : (s.holdSpeed n sp).fixedPart = s.fixedPart := by
  unfold holdSpeed; simp

@[simp ↓] theorem axisEnableEff_fixedPart (s : State) (n : Nat) (v : Word) : (s.axisEnableEff n v).fixedPart = s.fixedPart := by
  unfold axisEnableEff; simp

@[simp ↓] theorem changeover_fixedPart (s : State) (n : Nat) : (s.changeover n).fixedPart = s.fixedPart := by
  unfold changeover; simp

@[simp ↓] theorem emuBacklog_fixedPart (s : State) (m : Nat) : (s.emuBacklog m).fixedPart = s.fixedPart := by
  unfold emuBacklog; simp

@[simp ↓] theorem emuCount_fixedPart (s : State) (m n : Nat) (d : Int) : (s.emuCount m n d).fixedPart = s.fixedPart := by
  unfold emuCount; simp

@[simp ↓] theorem addCount_fixedPart (s : State) (n : Nat) (d st : Int) : (s.addCount n d st).fixedPart = s.fixedPart := by
  unfold addCount; simp

@[simp ↓] theorem periodUpdate_fixedPart (s : State) (n : Nat) : (s.periodUpdate n).fixedPart = s.fixedPart := by
  unfold periodUpdate; simp

@[simp ↓] theorem incrementalEdgeEff_fixedPart (s : State) (n : Nat) (a b : Bool) :
    (s.incrementalEdgeEff n a b).fixedPart = s.fixedPart := by
  unfold incrementalEdgeEff; dsimp only; (repeat' split) <;> simp

@[simp ↓] theorem applyPreset_fixedPart (s : State) (n : Nat) : (s.applyPreset n).fixedPart = s.fixedPart := by
  unfold applyPreset; simp

@[simp ↓] theorem presetGoEff_fixedPart (s : State) (n : Nat) (v : Word) : (s.presetGoEff n v).fixedPart = s.fixedPart := by
  unfold presetGoEff; simp

@[simp ↓] theorem zLatch_fixedPart (s : State) (n : Nat) : (s.zLatch n).fixedPart = s.fixedPart := by
  unfold zLatch; simp

@[simp ↓] theorem emuPassZ_fixedPart (s : State) (m n : Nat) : (s.emuPassZ m n).fixedPart = s.fixedPart := by
  unfold emuPassZ; simp

@[simp ↓] theorem zQualifiedEff_fixedPart (s : State) (n : Nat) : (s.zQualifiedEff n).fixedPart = s.fixedPart := by
  unfold zQualifiedEff; simp

@[simp ↓] theorem axisFaultEnter_fixedPart (s : State) (n : Nat) : (s.axisFaultEnter n).fixedPart = s.fixedPart := by
  unfold axisFaultEnter; simp

@[simp ↓] theorem frameFail_fixedPart (s : State) (n : Nat) (code : Half) : (s.frameFail n code).fixedPart = s.fixedPart := by
  unfold frameFail; simp

@[simp ↓] theorem framePass_fixedPart (s : State) (n p : Nat) : (s.framePass n p).fixedPart = s.fixedPart := by
  unfold framePass; dsimp only; split <;> simp

@[simp ↓] theorem absoluteFrameEff_fixedPart (s : State) (n raw check : Nat) (nE nW : Bool) :
    (s.absoluteFrameEff n raw check nE nW).fixedPart = s.fixedPart := by
  unfold absoluteFrameEff; simp

@[simp ↓] theorem bissAckTimeoutEff_fixedPart (s : State) (n : Nat) : (s.bissAckTimeoutEff n).fixedPart = s.fixedPart := by
  unfold bissAckTimeoutEff; simp

@[simp ↓] theorem absoluteFrameStartEff_fixedPart (s : State) (n : Nat) :
    (s.absoluteFrameStartEff n).fixedPart = s.fixedPart := by
  unfold absoluteFrameStartEff; simp

@[simp ↓] theorem wireFaultDetectEff_fixedPart (s : State) (n : Nat) (pairs : BitVec 4) :
    (s.wireFaultDetectEff n pairs).fixedPart = s.fixedPart := by
  unfold wireFaultDetectEff; simp

@[simp ↓] theorem wireFaultClearEff_fixedPart (s : State) (n : Nat) : (s.wireFaultClearEff n).fixedPart = s.fixedPart := by
  unfold wireFaultClearEff; simp

@[simp ↓] theorem axisFailsafeReleaseEff_fixedPart (s : State) (n : Nat) :
    (s.axisFailsafeReleaseEff n).fixedPart = s.fixedPart := by
  unfold axisFailsafeReleaseEff; split <;> simp

@[simp ↓] theorem speedCountEvalEff_fixedPart (s : State) (n : Nat) : (s.speedCountEvalEff n).fixedPart = s.fixedPart := by
  unfold speedCountEvalEff; simp

@[simp ↓] theorem standstillEff_fixedPart (s : State) (n : Nat) : (s.standstillEff n).fixedPart = s.fixedPart := by
  unfold standstillEff; simp

@[simp ↓] theorem emuEnableEff_fixedPart (s : State) (m : Nat) (v : Word) : (s.emuEnableEff m v).fixedPart = s.fixedPart := by
  unfold emuEnableEff; simp

@[simp ↓] theorem emuEdgeEff_fixedPart (s : State) (m : Nat) : (s.emuEdgeEff m).fixedPart = s.fixedPart := by
  unfold emuEdgeEff; simp

/-! ## The KV pool and the tree of prefixes -/

@[simp ↓] theorem putTrack_fixedPart (s : State) (n : Nat) (t : Track) : (s.putTrack n t).fixedPart = s.fixedPart := by
  unfold putTrack; simp

@[simp ↓] theorem putEntry_fixedPart (s : State) (n p : Nat) (w : Word) : (s.putEntry n p w).fixedPart = s.fixedPart := by
  unfold putEntry; simp

@[simp ↓] theorem clearList_fixedPart (s : State) (n : Nat) : (s.clearList n).fixedPart = s.fixedPart := by
  unfold clearList; simp

@[simp ↓] theorem kvCharge_fixedPart (s : State) (p n : Nat) : (s.kvCharge p n).fixedPart = s.fixedPart := by
  unfold kvCharge; simp

theorem kvTake_fixedPart {s t : State} {n : Nat} (h : s.kvTake = some (n, t)) : t.fixedPart = s.fixedPart := by
  unfold kvTake at h
  split at h
  · cases h; simp
  · split at h
    · cases h; simp
    · cases h

@[simp ↓] theorem kvDefer_fixedPart (s : State) (n : Nat) : (s.kvDefer n).fixedPart = s.fixedPart := by
  unfold kvDefer; simp

@[simp ↓] theorem kvVoid_fixedPart (s : State) (n : Nat) : (s.kvVoid n).fixedPart = s.fixedPart := by
  unfold kvVoid; simp

@[simp ↓] theorem putNode_fixedPart (s : State) (i : Nat) (x : Node) : (s.putNode i x).fixedPart = s.fixedPart := by
  unfold putNode; simp

@[simp ↓] theorem retireNode_fixedPart (s : State) (i : Nat) : (s.retireNode i).fixedPart = s.fixedPart := by
  unfold retireNode; simp

@[simp ↓] theorem discardNode_fixedPart (s : State) (i : Nat) : (s.discardNode i).fixedPart = s.fixedPart := by
  unfold discardNode; simp

@[simp ↓] theorem unrefNode_fixedPart (s : State) (i : Nat) : (s.unrefNode i).fixedPart = s.fixedPart := by
  unfold unrefNode; simp

@[simp ↓] theorem unpinNode_fixedPart (s : State) (i : Nat) : (s.unpinNode i).fixedPart = s.fixedPart := by
  unfold unpinNode; simp

@[simp ↓] theorem unrefNodes_fixedPart (s : State) (l : List Nat) : (s.unrefNodes l).fixedPart = s.fixedPart := by
  induction l generalizing s with
  | nil => rfl
  | cons x r ih => unfold unrefNodes; simp [ih]

@[simp ↓] theorem discardNodes_fixedPart (s : State) (l : List Nat) : (s.discardNodes l).fixedPart = s.fixedPart := by
  induction l generalizing s with
  | nil => rfl
  | cons x r ih => unfold discardNodes; simp [ih]

@[simp ↓] theorem putRecipe_fixedPart (s : State) (r : Nat) (x : Recipe) : (s.putRecipe r x).fixedPart = s.fixedPart := by
  unfold putRecipe; simp

@[simp ↓] theorem dropRecipe_fixedPart (s : State) (r : Nat) : (s.dropRecipe r).fixedPart = s.fixedPart := by
  unfold dropRecipe; simp

@[simp ↓] theorem notResident_fixedPart (s : State) (r : Nat) (code : Half) : (s.notResident r code).fixedPart = s.fixedPart := by
  unfold notResident; split <;> simp

@[simp ↓] theorem waitingDone_fixedPart (s : State) (key : Nat) (status : Half) :
    (s.waitingDone key status).fixedPart = s.fixedPart := by
  unfold waitingDone; (repeat' split) <;> simp

@[simp ↓] theorem dropHolder_fixedPart (s : State) (bad : List Nat) (r : Nat) : (s.dropHolder bad r).fixedPart = s.fixedPart := by
  unfold dropHolder; split <;> simp

@[simp ↓] theorem dropHolders_fixedPart (s : State) (bad l : List Nat) : (s.dropHolders bad l).fixedPart = s.fixedPart := by
  induction l generalizing s with
  | nil => rfl
  | cons x r ih => unfold dropHolders; simp [ih]

@[simp ↓] theorem failBuild_fixedPart (s : State) (r : Nat) : (s.failBuild r).fixedPart = s.fixedPart := by
  unfold failBuild; simp

@[simp ↓] theorem drainRecipe_fixedPart (s : State) (r : Nat) : (s.drainRecipe r).fixedPart = s.fixedPart := by
  unfold drainRecipe; split <;> simp

@[simp ↓] theorem checkResident_fixedPart (s : State) (r : Nat) : (s.checkResident r).fixedPart = s.fixedPart := by
  unfold checkResident; split <;> simp

@[simp ↓] theorem checkResidents_fixedPart (s : State) (l : List Nat) : (s.checkResidents l).fixedPart = s.fixedPart := by
  induction l generalizing s with
  | nil => rfl
  | cons x r ih => unfold checkResidents; simp [ih]

@[simp ↓] theorem markParts_fixedPart (s : State) (h : Word) (b : Nat) : (s.markParts h b).fixedPart = s.fixedPart := by
  unfold markParts; simp

@[simp ↓] theorem closePages_fixedPart (s : State) (polder : Nat) (build : Bool) (l : List (Nat × Word)) :
    (s.closePages polder build l).fixedPart = s.fixedPart := by
  induction l generalizing s with
  | nil => rfl
  | cons x r ih => unfold closePages; (repeat' split) <;> simp [ih]

@[simp ↓] theorem closeTrack_fixedPart (s : State) (n : Nat) : (s.closeTrack n).fixedPart = s.fixedPart := by
  unfold closeTrack; simp

@[simp ↓] theorem closeHandle_fixedPart (s : State) (h : Word) : (s.closeHandle h).fixedPart = s.fixedPart := by
  unfold closeHandle; split <;> simp

@[simp ↓] theorem freeSlot_fixedPart (s : State) (n : Nat) : (s.freeSlot n).fixedPart = s.fixedPart := by
  unfold freeSlot; split <;> simp

@[simp ↓] theorem freeDue_fixedPart (s : State) (m : Nat) (l : List Deferred) : (s.freeDue m l).fixedPart = s.fixedPart := by
  induction l generalizing s with
  | nil => rfl
  | cons x r ih => unfold freeDue; simp [ih]

@[simp ↓] theorem epochTickEff_fixedPart (s : State) : s.epochTickEff.fixedPart = s.fixedPart := by
  unfold epochTickEff; simp

/-! ## The verdict unit -/

@[simp ↓] theorem deliverQueued_fixedPart (s : State) (k : Nat) : (s.deliverQueued k).fixedPart = s.fixedPart := by
  unfold deliverQueued; simp

@[simp ↓] theorem deliver_fixedPart (s : State) (k : Nat) (body : List Byte) : (s.deliver k body).fixedPart = s.fixedPart := by
  unfold deliver; simp

@[simp ↓] theorem releaseReady_fixedPart (s : State) (k k' : Nat) : (s.releaseReady k k').fixedPart = s.fixedPart := by
  induction k' generalizing s with
  | zero => rfl
  | succ n ih => unfold releaseReady; dsimp only; split <;> simp [ih]

@[simp ↓] theorem recordReady_fixedPart (s : State) (k slot : Nat) (body : List Byte) :
    (s.recordReady k slot body).fixedPart = s.fixedPart := by
  unfold recordReady; simp

@[simp ↓] theorem ejectPart_fixedPart (s : State) (k : Nat) (p : Part) : (s.ejectPart k p).1.fixedPart = s.fixedPart := by
  unfold ejectPart; dsimp only; (repeat' split) <;> simp

@[simp ↓] theorem archiveQueue_fixedPart (s : State) (p : Part) (body : List Byte) :
    (s.archiveQueue p body).fixedPart = s.fixedPart := by
  unfold archiveQueue; simp

@[simp ↓] theorem forward_fixedPart (s : State) (k kind slot : Nat) (on off deadline : Fine) (block : Nat) (record : List Byte) :
    (s.forward k kind slot on off deadline block record).fixedPart = s.fixedPart := by
  unfold forward; simp

@[simp ↓] theorem setPart_fixedPart (s : State) (p : Part) : (s.setPart p).fixedPart = s.fixedPart := by
  unfold setPart; simp

@[simp ↓] theorem rateEvent_fixedPart (s : State) : s.rateEvent.fixedPart = s.fixedPart := by
  unfold rateEvent; simp

@[simp ↓] theorem sealCode_fixedPart (s : State) (p : Part) (q : Sealing) : (s.sealCode p q).fixedPart = s.fixedPart := by
  unfold sealCode; simp

@[simp ↓] theorem sealPart_fixedPart (s : State) (p : Part) (q : Sealing) : (s.sealPart p q).fixedPart = s.fixedPart := by
  unfold sealPart; dsimp only; (repeat' split) <;> simp

@[simp ↓] theorem sealUndecided_fixedPart (s : State) (p : Part) (code : Half) (late lost : Bool) (action : Option Nat) :
    (s.sealUndecided p code late lost action).fixedPart = s.fixedPart := by
  unfold sealUndecided; simp

@[simp ↓] theorem rateTake_fixedPart (s : State) : (s.rateTake).1.fixedPart = s.fixedPart := by
  unfold rateTake; dsimp only; (repeat' split) <;> simp

@[simp ↓] theorem admitPart_fixedPart (s : State) (k : Nat) (e : SubEntry) : (s.admitPart k e).fixedPart = s.fixedPart := by
  unfold admitPart; simp

@[simp ↓] theorem sealLate_fixedPart (s : State) (k : Nat) (p : Part) : (s.sealLate k p).fixedPart = s.fixedPart := by
  unfold sealLate; simp

@[simp ↓] theorem decideNow_fixedPart (s : State) (k : Nat) (e : SubEntry) (m : Marks) :
    (s.decideNow k e m).fixedPart = s.fixedPart := by
  unfold decideNow; split <;> simp

@[simp ↓] theorem decidePart_fixedPart (s : State) (k : Nat) (e : SubEntry) (m : Marks) :
    (s.decidePart k e m).fixedPart = s.fixedPart := by
  unfold decidePart; split <;> simp

@[simp ↓] theorem takeEntry_fixedPart (s : State) (k : Nat) (m : Marks) (e : SubEntry) :
    (s.takeEntry k m e).fixedPart = s.fixedPart := by
  unfold takeEntry; simp

@[simp ↓] theorem takeEntries_fixedPart (s : State) (k : Nat) (m : Marks) (l : List SubEntry) :
    (s.takeEntries k m l).fixedPart = s.fixedPart := by
  induction l generalizing s with
  | nil => rfl
  | cons x r ih => unfold takeEntries; simp [ih]

@[simp ↓] theorem lateEntry_fixedPart (s : State) (k : Nat) (m : Marks) (e : SubEntry) :
    (s.lateEntry k m e).fixedPart = s.fixedPart := by
  unfold lateEntry; simp

@[simp ↓] theorem lateEntries_fixedPart (s : State) (k : Nat) (m : Marks) (l : List SubEntry) :
    (s.lateEntries k m l).fixedPart = s.fixedPart := by
  induction l generalizing s with
  | nil => rfl
  | cons x r ih => unfold lateEntries; simp [ih]

@[simp ↓] theorem forwardClose_fixedPart (s : State) (k b : Nat) : (s.forwardClose k b).fixedPart = s.fixedPart := by
  unfold forwardClose; simp

@[simp ↓] theorem closeBlock_fixedPart (s : State) (k b : Nat) : (s.closeBlock k b).fixedPart = s.fixedPart := by
  unfold closeBlock; simp

@[simp ↓] theorem areaPart_fixedPart (s : State) (k b : Nat) (code : Half) : (s.areaPart k b code).fixedPart = s.fixedPart := by
  unfold areaPart; simp

@[simp ↓] theorem takeWaiting_fixedPart (s : State) (k b : Nat) (l : List (Submission × Marks)) :
    (s.takeWaiting k b l).fixedPart = s.fixedPart := by
  induction l generalizing s with
  | nil => rfl
  | cons x r ih => unfold takeWaiting; simp [ih]

@[simp ↓] theorem advanceLane_fixedPart (s : State) (k k' : Nat) : (s.advanceLane k k').fixedPart = s.fixedPart := by
  induction k' generalizing s with
  | zero => rfl
  | succ n ih => unfold advanceLane; simp [ih]

@[simp ↓] theorem laneEnabled_fixedPart (s : State) (k : Nat) : (s.laneEnabled k).fixedPart = s.fixedPart := by
  unfold laneEnabled; simp

@[simp ↓] theorem provingEntry_fixedPart (s : State) (rule : Nat) (m : Marks) (e : SubEntry) :
    (s.provingEntry rule m e).fixedPart = s.fixedPart := by
  unfold provingEntry; simp

@[simp ↓] theorem provingEntries_fixedPart (s : State) (rule : Nat) (m : Marks) (l : List SubEntry) :
    (s.provingEntries rule m l).fixedPart = s.fixedPart := by
  induction l generalizing s with
  | nil => rfl
  | cons x r ih => unfold provingEntries; simp [ih]

@[simp ↓] theorem startLane_fixedPart (s : State) (k b : Nat) : (s.startLane k b).fixedPart = s.fixedPart := by
  unfold startLane; simp

@[simp ↓] theorem submit_fixedPart (s : State) (u : Submission) (m : Marks) : (s.submit u m).fixedPart = s.fixedPart := by
  unfold submit; simp

@[simp ↓] theorem deadlineEff_fixedPart (s : State) (k slot : Nat) : (s.deadlineEff k slot).fixedPart = s.fixedPart := by
  unfold deadlineEff; split <;> simp

/-! ## The Sluices -/

@[simp ↓] theorem ringWarn_fixedPart (s : State) (k : Nat) : (s.ringWarn k).fixedPart = s.fixedPart := by
  unfold ringWarn; simp

@[simp ↓] theorem releaseBlocks_fixedPart (s : State) (k : Nat) : (s.releaseBlocks k).fixedPart = s.fixedPart := by
  unfold releaseBlocks; split <;> simp

@[simp ↓] theorem missReport_fixedPart (s : State) (k : Nat) (out : List LineOut) :
    (s.missReport k out).fixedPart = s.fixedPart := by
  unfold missReport; simp

@[simp ↓] theorem ringWrite_fixedPart (s : State) (k b : Nat) (lines : List LineOut) :
    (s.ringWrite k b lines).fixedPart = s.fixedPart := by
  unfold ringWrite; simp

@[simp ↓] theorem handOff_fixedPart (s : State) (k : Nat) : (s.handOff k).fixedPart = s.fixedPart := by
  unfold handOff; dsimp only; (repeat' split) <;> simp

@[simp ↓] theorem lineBlockHandoffEff_fixedPart (s : State) (k : Nat) : (s.lineBlockHandoffEff k).fixedPart = s.fixedPart := by
  unfold lineBlockHandoffEff; dsimp only; split <;> simp

@[simp ↓] theorem forceClose_fixedPart (s : State) (k : Nat) : (s.forceClose k).fixedPart = s.fixedPart := by
  unfold forceClose; simp

@[simp ↓] theorem makeRoom_fixedPart (s : State) (k b k' : Nat) : (s.makeRoom k b k').fixedPart = s.fixedPart := by
  induction k' generalizing s with
  | zero => rfl
  | succ n ih => unfold makeRoom; simp [ih]

@[simp ↓] theorem placeDatum_fixedPart (s : State) (k n off : Nat) (data : List Byte) (resent : Bool) :
    (s.placeDatum k n off data resent).fixedPart = s.fixedPart := by
  unfold placeDatum; simp

@[simp ↓] theorem placeRun_fixedPart (s : State) (k n off : Nat) (resent : Bool) (k' : Nat) (l : List Byte) :
    (s.placeRun k n off resent k' l).fixedPart = s.fixedPart := by
  induction k' generalizing s n off l with
  | zero => unfold placeRun; rfl
  | succ f ih => unfold placeRun; simp [ih]

@[simp ↓] theorem breakTracks_fixedPart (s : State) (b : Nat) (l : List Nat) : (s.breakTracks b l).fixedPart = s.fixedPart := by
  induction l generalizing s with
  | nil => rfl
  | cons x r ih => unfold breakTracks; simp [ih]

@[simp ↓] theorem streamBreak_fixedPart (s : State) (k : Nat) : (s.streamBreak k).fixedPart = s.fixedPart := by
  unfold streamBreak; simp

@[simp ↓] theorem holdExpiryEff_fixedPart (s : State) (k : Nat) : (s.holdExpiryEff k).fixedPart = s.fixedPart := by
  unfold holdExpiryEff; simp

@[simp ↓] theorem parallelData_fixedPart (s : State) (p clocks : Nat) (data : List Byte) (status : Half) :
    (s.parallelData p clocks data status).fixedPart = s.fixedPart := by
  unfold parallelData; simp

@[simp ↓] theorem parallelLineEff_fixedPart (s : State) (p clocks : Nat) (data : List Byte) :
    (s.parallelLineEff p clocks data).fixedPart = s.fixedPart := by
  unfold parallelLineEff; simp

@[simp ↓] theorem pixelClockLostEff_fixedPart (s : State) (p clocks : Nat) (data : List Byte) :
    (s.pixelClockLostEff p clocks data).fixedPart = s.fixedPart := by
  unfold pixelClockLostEff; simp

@[simp ↓] theorem pixelClockResumeEff_fixedPart (s : State) (p : Nat) (kHz : Word) :
    (s.pixelClockResumeEff p kHz).fixedPart = s.fixedPart := by
  unfold pixelClockResumeEff; simp

/-! ## The rewind buffer and the archive -/

@[simp ↓] theorem rewindWrite_fixedPart (s : State) (x : LineBlock) (set : Mem) (gen : Nat) (digest recipe : List Byte) :
    (s.rewindWrite x set gen digest recipe).fixedPart = s.fixedPart := by
  unfold rewindWrite; simp

@[simp ↓] theorem ignoreWrite_fixedPart (s : State) (code : Half) (kind inst off : Nat) (v : Word) :
    (s.ignoreWrite code kind inst off v).fixedPart = s.fixedPart := by
  unfold ignoreWrite; simp

@[simp ↓] theorem rewCfgWrite_fixedPart (s : State) (v : Word) : (s.rewCfgWrite v).fixedPart = s.fixedPart := by
  unfold rewCfgWrite; simp

@[simp ↓] theorem rewindDisableEff_fixedPart (s : State) (v : Word) : (s.rewindDisableEff v).fixedPart = s.fixedPart := by
  unfold rewindDisableEff; simp

@[simp ↓] theorem rewindEnableEff_fixedPart (s : State) (v : Word) : (s.rewindEnableEff v).fixedPart = s.fixedPart := by
  unfold rewindEnableEff; simp

@[simp ↓] theorem archiveJobStartEff_fixedPart (s : State) : s.archiveJobStartEff.fixedPart = s.fixedPart := by
  unfold archiveJobStartEff; split <;> simp

@[simp ↓] theorem archiveJobEndEff_fixedPart (s : State) : s.archiveJobEndEff.fixedPart = s.fixedPart := by
  unfold archiveJobEndEff; split <;> simp

@[simp ↓] theorem archRposEff_fixedPart (s : State) (hi : Word) : (s.archRposEff hi).fixedPart = s.fixedPart := by
  unfold archRposEff; simp

/-! ## Frames going out -/

@[simp ↓] theorem mapLanes_fixedPart (s : State) (f : Lane → Lane) (l : List Nat) : (s.mapLanes f l).fixedPart = s.fixedPart := by
  induction l generalizing s with
  | nil => rfl
  | cons x r ih => unfold mapLanes; simp [ih]

@[simp ↓] theorem startWake_fixedPart (s : State) (n : Nat) : (s.startWake n).fixedPart = s.fixedPart := by
  unfold startWake; simp

@[simp ↓] theorem txNow_fixedPart (s : State) (n k : Nat) : (s.txNow n k).fixedPart = s.fixedPart := by
  unfold txNow; simp

@[simp ↓] theorem txHold_fixedPart (s : State) (n k : Nat) : (s.txHold n k).fixedPart = s.fixedPart := by
  unfold txHold; simp

@[simp ↓] theorem txFrames_fixedPart (s : State) (n k : Nat) : (s.txFrames n k).fixedPart = s.fixedPart := by
  unfold txFrames; simp

@[simp ↓] theorem txControl_fixedPart (s : State) (n k : Nat) : (s.txControl n k).fixedPart = s.fixedPart := by
  unfold txControl; simp

@[simp ↓] theorem roceTx_fixedPart (s : State) (n k : Nat) : (s.roceTx n k).fixedPart = s.fixedPart := by
  unfold roceTx; simp

@[simp ↓] theorem txRelease_fixedPart (s : State) (n : Nat) : (s.txRelease n).fixedPart = s.fixedPart := by
  unfold txRelease; split <;> simp

@[simp ↓] theorem txReleases_fixedPart (s : State) (l : List Nat) : (s.txReleases l).fixedPart = s.fixedPart := by
  induction l generalizing s with
  | nil => rfl
  | cons x r ih => unfold txReleases; simp [ih]

@[simp ↓] theorem ptpSend_fixedPart (s : State) (n : Nat) (follow : Bool) : (s.ptpSend n follow).fixedPart = s.fixedPart := by
  unfold ptpSend; simp

/-! ## Module time -/

@[simp ↓] theorem moveStamps_fixedPart (s : State) (d : Int) : (s.moveStamps d).fixedPart = s.fixedPart := by
  unfold moveStamps; simp

@[simp ↓] theorem stepTime_fixedPart (s : State) (d : Int) : (s.stepTime d).fixedPart = s.fixedPart := by
  unfold stepTime; simp

@[simp ↓] theorem timeSnapEff_fixedPart (s : State) (v : Word) : (s.timeSnapEff v).fixedPart = s.fixedPart := by
  unfold timeSnapEff; simp

@[simp ↓] theorem timeStepGoEff_fixedPart (s : State) (v : Word) : (s.timeStepGoEff v).fixedPart = s.fixedPart := by
  unfold timeStepGoEff; (repeat' split) <;> simp

@[simp ↓] theorem timeStepApplyEff_fixedPart (s : State) : s.timeStepApplyEff.fixedPart = s.fixedPart := by
  unfold timeStepApplyEff; split <;> simp

@[simp ↓] theorem timeRateWriteEff_fixedPart (s : State) (hi : Word) : (s.timeRateWriteEff hi).fixedPart = s.fixedPart := by
  unfold timeRateWriteEff; simp

@[simp ↓] theorem timeServoWriteEff_fixedPart (s : State) (v : Word) : (s.timeServoWriteEff v).fixedPart = s.fixedPart := by
  unfold timeServoWriteEff; dsimp only; split <;> simp

@[simp ↓] theorem servoRound_fixedPart (s : State) (n : Int) (d : Nat) : (s.servoRound n d).2.fixedPart = s.fixedPart := by
  unfold servoRound; simp

@[simp ↓] theorem servoRate_fixedPart (s : State) (o : Int) (interval : Nat) :
    (s.servoRate o interval).fixedPart = s.fixedPart := by
  unfold servoRate; simp

@[simp ↓] theorem servoWarn_fixedPart (s : State) (o : Int) : (s.servoWarn o).fixedPart = s.fixedPart := by
  unfold servoWarn; simp

@[simp ↓] theorem delayAsk_fixedPart (s : State) : s.delayAsk.fixedPart = s.fixedPart := by
  unfold delayAsk; simp

@[simp ↓] theorem syncEff_fixedPart (s : State) (o : Int) (interval : Nat) : (s.syncEff o interval).fixedPart = s.fixedPart := by
  unfold syncEff; simp

@[simp ↓] theorem holdoverEff_fixedPart (s : State) : s.holdoverEff.fixedPart = s.fixedPart := by
  unfold holdoverEff; simp

/-! ## Line image pipes -/

@[simp ↓] theorem windowPair_fixedPart (s : State) (k q : Nat) : (s.windowPair k q).fixedPart = s.fixedPart := by
  unfold windowPair; simp

@[simp ↓] theorem windowOpen_fixedPart (s : State) (k : Nat) : (s.windowOpen k).fixedPart = s.fixedPart := by
  unfold windowOpen; simp

@[simp ↓] theorem dropPair_fixedPart (s : State) (k q : Nat) : (s.dropPair k q).fixedPart = s.fixedPart := by
  unfold dropPair; simp

@[simp ↓] theorem sluiceStart_fixedPart (s : State) (k : Nat) : (s.sluiceStart k).fixedPart = s.fixedPart := by
  unfold sluiceStart; dsimp only; split <;> simp

@[simp ↓] theorem sluiceStop_fixedPart (s : State) (k : Nat) : (s.sluiceStop k).fixedPart = s.fixedPart := by
  unfold sluiceStop; split <;> simp

@[simp ↓] theorem sluiceRevert_fixedPart (s : State) (k : Nat) (old : Word) : (s.sluiceRevert k old).fixedPart = s.fixedPart := by
  unfold sluiceRevert; dsimp only; split <;> simp

@[simp ↓] theorem sluiceEnableEff_fixedPart (s : State) (k : Nat) (v : Word) :
    (s.sluiceEnableEff k v).fixedPart = s.fixedPart := by
  unfold sluiceEnableEff; dsimp only; (repeat' split) <;> simp

@[simp ↓] theorem swapApply_fixedPart (s : State) (i k b : Nat) : (s.swapApply i k b).fixedPart = s.fixedPart := by
  unfold swapApply; dsimp only; (repeat' split) <;> simp

@[simp ↓] theorem setProving_fixedPart (s : State) (r : Nat) (g : Proving) : (s.setProving r g).fixedPart = s.fixedPart := by
  unfold setProving; simp

@[simp ↓] theorem proveNext_fixedPart (s : State) (r : Nat) (p : Fine) : (s.proveNext r p).fixedPart = s.fixedPart := by
  unfold proveNext; simp

@[simp ↓] theorem installRule_fixedPart (s : State) (rk r : Nat) (b : List Byte) :
    (s.installRule rk r b).fixedPart = s.fixedPart := by
  unfold installRule; simp

@[simp ↓] theorem installRules_fixedPart (s : State) (rk k : Nat) (l : List (List Byte)) :
    (s.installRules rk k l).fixedPart = s.fixedPart := by
  induction l generalizing s k with
  | nil => rfl
  | cons x r ih => unfold installRules; simp [ih]

@[simp ↓] theorem dropRules_fixedPart (s : State) : s.dropRules.fixedPart = s.fixedPart := by
  unfold dropRules; simp

@[simp ↓] theorem takeRules_fixedPart (s : State) (rk : Nat) : (s.takeRules rk).fixedPart = s.fixedPart := by
  unfold takeRules; split <;> simp

@[simp ↓] theorem changeoverApply_fixedPart (s : State) (k b : Nat) : (s.changeoverApply k b).fixedPart = s.fixedPart := by
  unfold changeoverApply; dsimp only; (repeat' split) <;> simp

@[simp ↓] theorem armEff_fixedPart (s : State) (i : Nat) (v : Word) : (s.armEff i v).fixedPart = s.fixedPart := by
  unfold armEff; simp

@[simp ↓] theorem lateWrite_fixedPart (s : State) (a n : Nat) (l : List Nat) : (s.lateWrite a n l).fixedPart = s.fixedPart := by
  induction l generalizing s with
  | nil => rfl
  | cons x r ih => unfold lateWrite; simp [ih]

@[simp ↓] theorem shadowLoadedEff_fixedPart (s : State) (i : Nat) : (s.shadowLoadedEff i).fixedPart = s.fixedPart := by
  unfold shadowLoadedEff; dsimp only; (repeat' split) <;> simp

@[simp ↓] theorem cancelSwap_fixedPart (s : State) (i : Nat) (v : Word) : (s.cancelSwap i v).fixedPart = s.fixedPart := by
  unfold cancelSwap; simp

@[simp ↓] theorem swapWrite_fixedPart (s : State) (i : Nat) (v : Word) : (s.swapWrite i v).fixedPart = s.fixedPart := by
  unfold swapWrite; simp

@[simp ↓] theorem modRec_fixedPart (s : State) (k b : Nat) (f : BlockRec → BlockRec) :
    (s.modRec k b f).fixedPart = s.fixedPart := by
  unfold modRec; simp

@[simp ↓] theorem markRec_fixedPart (s : State) (i k b : Nat) : (s.markRec i k b).fixedPart = s.fixedPart := by
  unfold markRec; simp

@[simp ↓] theorem startBlock_fixedPart (s : State) (p i k : Nat) (b : LineBlock) :
    (s.startBlock p i k b).fixedPart = s.fixedPart := by
  unfold startBlock; simp

@[simp ↓] theorem pipeBlockStartEff_fixedPart (s : State) (p : Nat) : (s.pipeBlockStartEff p).fixedPart = s.fixedPart := by
  unfold pipeBlockStartEff; (repeat' split) <;> simp

@[simp ↓] theorem finishBlock_fixedPart (s : State) (i k : Nat) (b : LineBlock) (set : Mem) (full : Bool) :
    (s.finishBlock i k b set full).fixedPart = s.fixedPart := by
  unfold finishBlock; simp

@[simp ↓] theorem proveBlock_fixedPart (s : State) (r i last : Nat) : (s.proveBlock r i last).fixedPart = s.fixedPart := by
  unfold proveBlock; simp

@[simp ↓] theorem proveBlocks_fixedPart (s : State) (i : Nat) (x : LineBlock) (l : List Nat) :
    (s.proveBlocks i x l).fixedPart = s.fixedPart := by
  induction l generalizing s with
  | nil => rfl
  | cons x r ih => unfold proveBlocks; simp [ih]

@[simp ↓] theorem blockDone_fixedPart (s : State) (i k : Nat) (b : LineBlock) (set : Mem) (full : Bool) :
    (s.blockDone i k b set full).fixedPart = s.fixedPart := by
  unfold blockDone; simp

@[simp ↓] theorem finishWaiting_fixedPart (s : State) (i k k' : Nat) : (s.finishWaiting i k k').fixedPart = s.fixedPart := by
  induction k' generalizing s with
  | zero => rfl
  | succ n ih => unfold finishWaiting; dsimp only; split <;> simp [ih]

@[simp ↓] theorem finishSlots_fixedPart (s : State) (l : List Nat) : (s.finishSlots l).fixedPart = s.fixedPart := by
  induction l generalizing s with
  | nil => rfl
  | cons x r ih => unfold finishSlots; split <;> simp [ih]

@[simp ↓] theorem pipeRelease_fixedPart (s : State) (p i k : Nat) (b : LineBlock) (set : Mem) :
    (s.pipeRelease p i k b set).fixedPart = s.fixedPart := by
  unfold pipeRelease; simp

@[simp ↓] theorem pipeBlockDoneEff_fixedPart (s : State) (p : Nat) : (s.pipeBlockDoneEff p).fixedPart = s.fixedPart := by
  unfold pipeBlockDoneEff; dsimp only; (repeat' split) <;> simp

/-! ## The sequencers of the engines -/

@[simp ↓] theorem setEngine_fixedPart (s : State) (e : Nat) (x : Engine) : (s.setEngine e x).fixedPart = s.fixedPart := by
  unfold setEngine; simp

@[simp ↓] theorem setCtx_fixedPart (s : State) (c : Nat) (x : Ctx) : (s.setCtx c x).fixedPart = s.fixedPart := by
  unfold setCtx; simp

@[simp ↓] theorem dropCtx_fixedPart (s : State) (c : Nat) : (s.dropCtx c).fixedPart = s.fixedPart := by
  unfold dropCtx; simp

@[simp ↓] theorem modCtx_fixedPart (s : State) (c : Nat) (f : Ctx → Ctx) : (s.modCtx c f).fixedPart = s.fixedPart := by
  unfold modCtx; split <;> simp

@[simp ↓] theorem lastAll_fixedPart (s : State) (code : Half) (kind : Nat) (l : List Nat) :
    (s.lastAll code kind l).fixedPart = s.fixedPart := by
  induction l generalizing s with
  | nil => rfl
  | cons x r ih => unfold lastAll; simp [ih]

@[simp ↓] theorem modOp_fixedPart (s : State) (id : Nat) (f : OpEntry → OpEntry) : (s.modOp id f).fixedPart = s.fixedPart := by
  unfold modOp; simp

@[simp ↓] theorem dropOp_fixedPart (s : State) (id : Nat) : (s.dropOp id).fixedPart = s.fixedPart := by
  unfold dropOp; simp

@[simp ↓] theorem clearEcc_fixedPart (s : State) (kind a n : Nat) : (s.clearEcc kind a n).fixedPart = s.fixedPart := by
  unfold clearEcc; simp

@[simp ↓] theorem writeRegion_fixedPart (s : State) (e c : Nat) (r : Region) (bs : List Byte) :
    (s.writeRegion e c r bs).fixedPart = s.fixedPart := by
  unfold writeRegion; (repeat' split) <;> simp

@[simp ↓] theorem writeAll_fixedPart (s : State) (e c : Nat) (l : List (Region × List Byte)) :
    (s.writeAll e c l).fixedPart = s.fixedPart := by
  induction l generalizing s with
  | nil => rfl
  | cons x r ih => unfold writeAll; simp [ih]

@[simp ↓] theorem modJob_fixedPart (s : State) (c job : Nat) (f : Job → Job) : (s.modJob c job f).fixedPart = s.fixedPart := by
  unfold modJob; simp

@[simp ↓] theorem noteJob_fixedPart (s : State) (c job : Nat) (code : Half) : (s.noteJob c job code).fixedPart = s.fixedPart := by
  unfold noteJob; simp

@[simp ↓] theorem bumpIf_fixedPart (s : State) (off n : Nat) : (s.bumpIf off n).fixedPart = s.fixedPart := by
  unfold bumpIf; simp

@[simp ↓] theorem bumpAll_fixedPart (s : State) (base : Nat) (l : List (Nat × Nat)) :
    (s.bumpAll base l).fixedPart = s.fixedPart := by
  induction l generalizing s with
  | nil => rfl
  | cons x r ih => unfold bumpAll; simp [ih]

@[simp ↓] theorem commitCounts_fixedPart (s : State) (e ctx job : Nat) (c : Counts) :
    (s.commitCounts e ctx job c).fixedPart = s.fixedPart := by
  unfold commitCounts; simp

@[simp ↓] theorem countStall_fixedPart (s : State) (e : Nat) : (s.countStall e).fixedPart = s.fixedPart := by
  unfold countStall; dsimp only; split <;> simp

@[simp ↓] theorem noteStall_fixedPart (s : State) (e : Nat) (next : Option OpDecl) :
    (s.noteStall e next).fixedPart = s.fixedPart := by
  unfold noteStall; dsimp only; split <;> simp

@[simp ↓] theorem syncWait_fixedPart (s : State) (e : Nat) : (s.syncWait e).fixedPart = s.fixedPart := by
  unfold syncWait; dsimp only; (repeat' split) <;> simp

@[simp ↓] theorem syncWaits_fixedPart (s : State) : s.syncWaits.fixedPart = s.fixedPart := by
  unfold syncWaits; exact foldl_fixedPart _ syncWait_fixedPart _ _

@[simp ↓] theorem markEmpties_fixedPart (s : State) (id e c : Nat) (empty : Bool) (l : List Region) :
    (s.markEmpties id e c empty l).fixedPart = s.fixedPart := by
  induction l generalizing s with
  | nil => rfl
  | cons x r ih => unfold markEmpties; split <;> simp [ih]

@[simp ↓] theorem issueRes_fixedPart (s : State) (h : OpHdr) (cls : OpClass) (rec_ : Option Nat) (f : State → OpRes × State)
    (hf : ∀ t : State, (f t).2.fixedPart = t.fixedPart) : (issueRes s h cls rec_ f).2.fixedPart = s.fixedPart := by
  have hits (t : State) (l : List EccWord) : (l.foldl (fun t w => t.bump (eccCounter w) 1) t).fixedPart = t.fixedPart :=
    foldl_fixedPart _ (fun t w => bump_fixedPart t _ _) l t
  unfold issueRes; dsimp only; (repeat' split) <;> simp [hf, hits]

@[simp ↓] theorem issue_fixedPart (s : State) (h : OpHdr) (cls : OpClass) (opc : Nat) (f : State → OpRes × State)
    (upd : OpEntry → OpEntry) (hf : ∀ t : State, (f t).2.fixedPart = t.fixedPart) :
    (issue s h cls opc f upd).fixedPart = s.fixedPart := by
  unfold issue
  dsimp only
  rcases s.issueMode h cls opc with _ | spec
  · simp
  · rcases (s.engine h.eng).task with _ | t
    · simp
    · simp [hf]

@[simp ↓] theorem putInPlace_fixedPart (s : State) (o : OpEntry) : (s.putInPlace o).fixedPart = s.fixedPart := by
  unfold putInPlace; simp

@[simp ↓] theorem dropReply_fixedPart (s : State) (id : Nat) : (s.dropReply id).fixedPart = s.fixedPart := by
  unfold dropReply; split <;> simp

@[simp ↓] theorem opCompleteEff_fixedPart (s : State) (id : Nat) : (s.opCompleteEff id).fixedPart = s.fixedPart := by
  unfold opCompleteEff; split <;> simp

@[simp ↓] theorem writeCycles_fixedPart (s : State) (j : Job) : (s.writeCycles j).fixedPart = s.fixedPart := by
  unfold writeCycles; split <;> simp

@[simp ↓] theorem jobCheck_fixedPart (s : State) (c job : Nat) : (s.jobCheck c job).fixedPart = s.fixedPart := by
  unfold jobCheck; dsimp only; (repeat' split) <;> simp

@[simp ↓] theorem sealTracks_fixedPart (s : State) (code : Half) (lost : Bool) (l : List Word) :
    (s.sealTracks code lost l).fixedPart = s.fixedPart := by
  induction l generalizing s with
  | nil => rfl
  | cons x r ih => unfold sealTracks; split <;> simp [ih]

@[simp ↓] theorem displace_fixedPart (s : State) (e : Nat) : (s.displace e).fixedPart = s.fixedPart := by
  unfold displace; dsimp only; split <;> simp

@[simp ↓] theorem syncCtx_fixedPart (s : State) (c : Nat) : (s.syncCtx c).fixedPart = s.fixedPart := by
  unfold syncCtx; dsimp only; (repeat' split) <;> simp

@[simp ↓] theorem startLoad_fixedPart (s : State) (e c : Nat) : (s.startLoad e c).fixedPart = s.fixedPart := by
  unfold startLoad; simp

@[simp ↓] theorem loadNext_fixedPart (s : State) (e : Nat) : (s.loadNext e).fixedPart = s.fixedPart := by
  unfold loadNext; dsimp only; (repeat' split) <;> simp

@[simp ↓] theorem loadAll_fixedPart (s : State) (l : List Nat) : (s.loadAll l).fixedPart = s.fixedPart := by
  induction l generalizing s with
  | nil => rfl
  | cons x r ih => unfold loadAll; simp [ih]

@[simp ↓] theorem endLeavers_fixedPart (s : State) (l : List Nat) : (s.endLeavers l).fixedPart = s.fixedPart := by
  induction l generalizing s with
  | nil => rfl
  | cons x r ih => unfold endLeavers; split <;> simp [ih]

@[simp ↓] theorem joinPolder_fixedPart (s : State) (e p : Nat) : (s.joinPolder e p).fixedPart = s.fixedPart := by
  unfold joinPolder; split <;> simp

@[simp ↓] theorem leaveCheck_fixedPart (s : State) (e : Nat) : (s.leaveCheck e).fixedPart = s.fixedPart := by
  unfold leaveCheck; dsimp only; (repeat' split) <;> simp

@[simp ↓] theorem fillResidency_fixedPart (s : State) (p : Nat) : (s.fillResidency p).fixedPart = s.fixedPart := by
  unfold fillResidency; dsimp only; (repeat' split) <;> simp

@[simp ↓] theorem redirect_fixedPart (s : State) (c : Nat) (l : List (Nat × Ctx)) : (s.redirect c l).fixedPart = s.fixedPart := by
  induction l generalizing s with
  | nil => rfl
  | cons x r ih => unfold redirect; split <;> simp [ih]

@[simp ↓] theorem doomCheck_fixedPart (s : State) (c : Nat) : (s.doomCheck c).fixedPart = s.fixedPart := by
  unfold doomCheck; (repeat' split) <;> simp

@[simp ↓] theorem addDebt_fixedPart (s : State) (c ns : Nat) : (s.addDebt c ns).fixedPart = s.fixedPart := by
  unfold addDebt; split <;> simp

@[simp ↓] theorem overrun_fixedPart (s : State) (c : Nat) : (s.overrun c).fixedPart = s.fixedPart := by
  unfold overrun; (repeat' split) <;> simp

@[simp ↓] theorem restoreDigest_fixedPart (s : State) (t : TaskRun) : (s.restoreDigest t).fixedPart = s.fixedPart := by
  unfold restoreDigest; split <;> simp

@[simp ↓] theorem rerunTask_fixedPart (s : State) (t : TaskRun) : (s.rerunTask t).fixedPart = s.fixedPart := by
  unfold rerunTask; simp

@[simp ↓] theorem finishTask_fixedPart (s : State) (e : Nat) (t : TaskRun) : (s.finishTask e t).fixedPart = s.fixedPart := by
  unfold finishTask; simp

@[simp ↓] theorem taskCheck_fixedPart (s : State) (e : Nat) : (s.taskCheck e).fixedPart = s.fixedPart := by
  unfold taskCheck; split <;> simp

@[simp ↓] theorem failTask_fixedPart (s : State) (e : Nat) (code : Half) (idx : Nat) :
    (s.failTask e code idx).fixedPart = s.fixedPart := by
  unfold failTask; dsimp only; split <;> simp

@[simp ↓] theorem applyHeld_fixedPart (s : State) (o : OpEntry) : (s.applyHeld o).fixedPart = s.fixedPart := by
  unfold applyHeld; split <;> simp

@[simp ↓] theorem retireDigest_fixedPart (s : State) (o : OpEntry) : (s.retireDigest o).fixedPart = s.fixedPart := by
  unfold retireDigest; dsimp only; (repeat' split) <;> simp

@[simp ↓] theorem snapDigest_fixedPart (s : State) (o : OpEntry) : (s.snapDigest o).fixedPart = s.fixedPart := by
  unfold snapDigest; dsimp only; split <;> simp

@[simp ↓] theorem raiseOp_fixedPart (s : State) (code : Half) (e : Nat) (detail : List Byte) :
    (s.raiseOp code e detail).fixedPart = s.fixedPart := by
  unfold raiseOp; simp

@[simp ↓] theorem releaseOut_fixedPart (s : State) (o : OpEntry) : (s.releaseOut o).fixedPart = s.fixedPart := by
  unfold releaseOut; (repeat' split) <;> simp

@[simp ↓] theorem retireVary_fixedPart (s : State) (o : OpEntry) : (s.retireVary o).fixedPart = s.fixedPart := by
  unfold retireVary; dsimp only; (repeat' split) <;> simp

@[simp ↓] theorem opRetireEff_fixedPart (s : State) (id : Nat) : (s.opRetireEff id).fixedPart = s.fixedPart := by
  unfold opRetireEff; split <;> simp

@[simp ↓] theorem commitSpec_fixedPart (s : State) (l : List OpEntry) : (s.commitSpec l).fixedPart = s.fixedPart := by
  induction l generalizing s with
  | nil => rfl
  | cons x r ih => unfold commitSpec; simp [ih]

@[simp ↓] theorem gateResolveEff_fixedPart (s : State) (e : Nat) : (s.gateResolveEff e).fixedPart = s.fixedPart := by
  unfold gateResolveEff; (repeat' split) <;> simp

@[simp ↓] theorem writeParams_fixedPart (s : State) (c job : Nat) : (s.writeParams c job).fixedPart = s.fixedPart := by
  unfold writeParams; (repeat' split) <;> simp

@[simp ↓] theorem loadResident_fixedPart (s : State) (e key code : Nat) :
    (s.loadResident e key code).fixedPart = s.fixedPart := by
  unfold loadResident; split <;> simp

@[simp ↓] theorem place_fixedPart (s : State) (e c : Nat) : (s.place e c).fixedPart = s.fixedPart := by
  unfold place; dsimp only; (repeat' split) <;> simp

@[simp ↓] theorem taskPlaceEff_fixedPart (s : State) (p : Nat) : (s.taskPlaceEff p).fixedPart = s.fixedPart := by
  have go (l : List Nat) : (taskPlaceEff.go s p l).fixedPart = s.fixedPart := by
    induction l with
    | nil => rfl
    | cons e r ih => unfold taskPlaceEff.go; split <;> simp [ih]
  unfold taskPlaceEff; simp [go]

@[simp ↓] theorem deliveryExcursionEff_fixedPart (s : State) (e _stall : Nat) :
    (s.deliveryExcursionEff e _stall).fixedPart = s.fixedPart := by
  unfold deliveryExcursionEff; dsimp only; split <;> simp

@[simp ↓] theorem taskOverBoundEff_fixedPart (s : State) (e : Nat) : (s.taskOverBoundEff e).fixedPart = s.fixedPart := by
  unfold taskOverBoundEff; dsimp only; split <;> simp

@[simp ↓] theorem order_fixedPart (s : State) (x : Scope) (counted : Bool) : (s.order x counted).fixedPart = s.fixedPart := by
  unfold order; simp

@[simp ↓] theorem detect_fixedPart (s : State) (x : Scope) : (s.detect x).fixedPart = s.fixedPart := by
  unfold detect; simp

@[simp ↓] theorem fence_fixedPart (s : State) (e : Nat) : (s.fence e).fixedPart = s.fixedPart := by
  unfold fence; simp

@[simp ↓] theorem taskHungEff_fixedPart (s : State) (e : Fin 6) : (s.taskHungEff e).fixedPart = s.fixedPart := by
  unfold taskHungEff; dsimp only; split <;> simp

@[simp ↓] theorem sequencerFaultEff_fixedPart (s : State) (e : Fin 6) : (s.sequencerFaultEff e).fixedPart = s.fixedPart := by
  unfold sequencerFaultEff; simp

@[simp ↓] theorem engCfgWriteEff_fixedPart (s : State) (e : Nat) (v : Word) : (s.engCfgWriteEff e v).fixedPart = s.fixedPart := by
  unfold engCfgWriteEff; simp

@[simp ↓] theorem ordShareWriteEff_fixedPart (s : State) (i : Nat) (v : Word) :
    (s.ordShareWriteEff i v).fixedPart = s.fixedPart := by
  unfold ordShareWriteEff; simp

@[simp ↓] theorem waitTimeoutEff_fixedPart (s : State) (c : Nat) : (s.waitTimeoutEff c).fixedPart = s.fixedPart := by
  unfold waitTimeoutEff; (repeat' split) <;> simp

/-! ## The vector unit and the matrix array -/

@[simp ↓] theorem vec_fixedPart (s : State) (h : OpHdr) (opc : Nat) (f : State → OpRes) (upd : OpEntry → OpEntry) :
    (vec s h opc f upd).fixedPart = s.fixedPart := by
  unfold vec; simp

@[simp ↓] theorem checkOp_fixedPart (h : OpHdr) (limit : Nat) (m : CheckMask) (s : State) :
    (checkOp h limit m s).2.fixedPart = s.fixedPart := by
  unfold checkOp; simp

@[simp ↓] theorem matmul_fixedPart (s : State) (h : OpHdr) (p : MatParams) : (s.matmul h p).fixedPart = s.fixedPart := by
  unfold matmul; simp

/-! ## Window operations -/

@[simp ↓] theorem window_fixedPart (s : State) (h : OpHdr) (op : WinOp) (p : WinParams) :
    (s.window h op p).fixedPart = s.fixedPart := by
  unfold window; simp

/-! ## Copies, waits, gates and digests -/

@[simp ↓] theorem waitBlock_fixedPart (s : State) (h : OpHdr) (expect : Nat) :
    (s.waitBlock h expect).fixedPart = s.fixedPart := by
  unfold waitBlock; simp

@[simp ↓] theorem waitBlockPollEff_fixedPart (s : State) (e : Nat) : (s.waitBlockPollEff e).fixedPart = s.fixedPart := by
  unfold waitBlockPollEff; dsimp only; (repeat' split) <;> simp

@[simp ↓] theorem waitOn_fixedPart (s : State) (h : OpHdr) (word : Region) (threshold : DWord) (timeoutUs : Nat) :
    (s.waitOn h word threshold timeoutUs).fixedPart = s.fixedPart := by
  unfold waitOn; simp

/-! ## KV operations -/

@[simp ↓] theorem stale_fixedPart (s : State) (hd : Word) : (s.stale hd).2.fixedPart = s.fixedPart := by
  unfold stale; simp

@[simp ↓] theorem pinPages_fixedPart (s : State) (n k : Nat) (l : List Nat) : (s.pinPages n k l).fixedPart = s.fixedPart := by
  induction l generalizing s k with
  | nil => rfl
  | cons x r ih => unfold pinPages; simp [ih]

@[simp ↓] theorem openRefused_fixedPart (s : State) (h : OpHdr) (t : TrackParams) :
    (s.openRefused h t).2.fixedPart = s.fixedPart := by
  unfold openRefused; dsimp only; split <;> simp

@[simp ↓] theorem tellPart_fixedPart (s : State) (t : TrackParams) (x : Track) : (s.tellPart t x).fixedPart = s.fixedPart := by
  unfold tellPart; split <;> simp

@[simp ↓] theorem openOp_fixedPart (h : OpHdr) (t : TrackParams) (rec_ : Nat) (s : State) :
    (openOp h t rec_ s).2.fixedPart = s.fixedPart := by
  unfold openOp; split <;> simp

@[simp ↓] theorem initPage_fixedPart (s : State) (slot p : Nat) (owner : Word) (g : KvGeom) (flags : Nat) :
    (s.initPage slot p owner g flags).fixedPart = s.fixedPart := by
  unfold initPage; simp

@[simp ↓] theorem buildPages_fixedPart (s : State) (n r : Nat) (g : KvGeom) (k : Nat) (l : List Nat) :
    (s.buildPages n r g k l).fixedPart = s.fixedPart := by
  induction l generalizing s k with
  | nil => rfl
  | cons x r ih => unfold buildPages; simp [ih]

@[simp ↓] theorem openBuildOp_fixedPart (h : OpHdr) (t : TrackParams) (rec_ : Nat) (s : State) :
    (openBuildOp h t rec_ s).2.fixedPart = s.fixedPart := by
  unfold openBuildOp; split <;> simp

theorem growTrack_fixedPart {s t : State} {n k : Nat} (h : s.growTrack n = some (k, t)) : t.fixedPart = s.fixedPart := by
  unfold growTrack at h
  dsimp only at h
  split at h
  · obtain ⟨⟨m, u⟩, hu, hp⟩ := Option.map_eq_some_iff.1 h
    cases hp
    simp [kvTake_fixedPart hu]
  · cases h

@[simp ↓] theorem truncate_fixedPart (s : State) (n p : Nat) : (s.truncate n p).2.fixedPart = s.fixedPart := by
  unfold truncate; simp

@[simp ↓] theorem appendOp_fixedPart (h : OpHdr) (id : Nat) (s : State) : (appendOp h id s).2.fixedPart = s.fixedPart := by
  unfold appendOp
  dsimp only
  split
  · simp
  · split
    · rfl
    · split
      · split
        · simp
        · next hg => simp [growTrack_fixedPart hg]
      · split
        · split
          · next hg _ => simp [growTrack_fixedPart hg]
          · simp
        · rfl

@[simp ↓] theorem append_fixedPart (s : State) (h : OpHdr) : (s.append h).fixedPart = s.fixedPart := by
  unfold append; simp

@[simp ↓] theorem copyPage_fixedPart (s : State) (from_ dst p n : Nat) (owner : Word) (g : KvGeom) :
    (s.copyPage from_ dst p n owner g).fixedPart = s.fixedPart := by
  unfold copyPage; simp

@[simp ↓] theorem appendCopyDoneEff_fixedPart (s : State) (hd : Word) (p : Nat) :
    (s.appendCopyDoneEff hd p).fixedPart = s.fixedPart := by
  unfold appendCopyDoneEff; dsimp only; (repeat' split) <;> simp

@[simp ↓] theorem kvWriteOp_fixedPart (h : OpHdr) (row layer segs : Nat) (s : State) :
    (kvWriteOp h row layer segs s).2.fixedPart = s.fixedPart := by
  unfold kvWriteOp; dsimp only; (repeat' split) <;> simp

@[simp ↓] theorem closeOp_fixedPart (h : OpHdr) (s : State) : (closeOp h s).2.fixedPart = s.fixedPart := by
  unfold closeOp; dsimp only; split <;> simp

@[simp ↓] theorem readyNodes_fixedPart (s : State) (l : List Nat) : (s.readyNodes l).fixedPart = s.fixedPart := by
  induction l generalizing s with
  | nil => rfl
  | cons x r ih => unfold readyNodes; simp [ih]

@[simp ↓] theorem unpinNodes_fixedPart (s : State) (l : List Nat) : (s.unpinNodes l).fixedPart = s.fixedPart := by
  induction l generalizing s with
  | nil => rfl
  | cons x r ih => unfold unpinNodes; simp [ih]

@[simp ↓] theorem publish_fixedPart (s : State) (n : Nat) : (s.publish n).2.fixedPart = s.fixedPart := by
  unfold publish; dsimp only; split <;> simp

@[simp ↓] theorem closePublishOp_fixedPart (h : OpHdr) (s : State) : (closePublishOp h s).2.fixedPart = s.fixedPart := by
  unfold closePublishOp; dsimp only; split <;> simp

@[simp ↓] theorem attnOp_fixedPart (h : OpHdr) (p : AttnParams) (s : State) : (attnOp h p s).2.fixedPart = s.fixedPart := by
  unfold attnOp; dsimp only; (repeat' split) <;> simp

@[simp ↓] theorem expandOp_fixedPart (h : OpHdr) (p : ExpandParams) (s : State) : (expandOp h p s).2.fixedPart = s.fixedPart := by
  unfold expandOp; dsimp only; (repeat' split) <;> simp

/-! ## Keys -/

@[simp ↓] theorem secCode_fixedPart (s : State) (code : Half) : (s.secCode code).fixedPart = s.fixedPart := by
  unfold secCode; simp

/-! ## Recipes -/

@[simp ↓] theorem descDone_fixedPart (s : State) (d : DescHdr) (status : Half) (result : Nat) :
    (s.descDone d status result).fixedPart = s.fixedPart := by
  unfold descDone; simp

@[simp ↓] theorem loadLast_fixedPart (s : State) (p : Nat) (code : Half) : (s.loadLast p code).fixedPart = s.fixedPart := by
  unfold loadLast; simp

@[simp ↓] theorem loadFailed_fixedPart (s : State) (d : DescHdr) (f : LoadFail) : (s.loadFailed d f).fixedPart = s.fixedPart := by
  unfold loadFailed; simp

@[simp ↓] theorem placeRecipe_fixedPart (s : State) (d : DescHdr) (c : List Byte) (encrypted : Bool) (r : Recipe) :
    (s.placeRecipe d c encrypted r).fixedPart = s.fixedPart := by
  unfold placeRecipe; simp

@[simp ↓] theorem recipeLoadEff_fixedPart (s : State) (d : DescHdr) (addr len : Nat) :
    (s.recipeLoadEff d addr len).fixedPart = s.fixedPart := by
  unfold recipeLoadEff; dsimp only; (repeat' split) <;> simp

@[simp ↓] theorem residencyFail_fixedPart (s : State) (key : Nat) (code : Half) :
    (s.residencyFail key code).fixedPart = s.fixedPart := by
  unfold residencyFail; split <;> simp

@[simp ↓] theorem takePage_fixedPart (s : State) (key i : Nat) (inserted revived : Bool) :
    (s.takePage key i inserted revived).fixedPart = s.fixedPart := by
  unfold takePage; split <;> simp

@[simp ↓] theorem residencyEnd_fixedPart (s : State) (key : Nat) : (s.residencyEnd key).fixedPart = s.fixedPart := by
  unfold residencyEnd; split <;> simp

@[simp ↓] theorem residencyStepEff_fixedPart (s : State) (key : Nat) : (s.residencyStepEff key).fixedPart = s.fixedPart := by
  unfold residencyStepEff
  dsimp only
  split
  · rfl
  · split
    · rfl
    · split
      · simp
      · split
        · simp
        · split
          · simp
          · split
            · simp
            · next ht => simp [kvTake_fixedPart ht]

@[simp ↓] theorem recipeUnloadEff_fixedPart (s : State) (d : DescHdr) (idx : Nat) :
    (s.recipeUnloadEff d idx).fixedPart = s.fixedPart := by
  unfold recipeUnloadEff; dsimp only; split <;> simp

@[simp ↓] theorem changeoverEff_fixedPart (s : State) (d : DescHdr) (k when_ vf idx at_ : Nat) :
    (s.changeoverEff d k when_ vf idx at_).fixedPart = s.fixedPart := by
  unfold changeoverEff; simp

@[simp ↓] theorem rangeFail_fixedPart (s : State) (off hi lo a b kind inst : Nat) (code : Half) :
    (s.rangeFail off hi lo a b kind inst code).1.fixedPart = s.fixedPart := by
  unfold rangeFail; dsimp only; split <;> simp

@[simp ↓] theorem kvEnableEff_fixedPart (s : State) (v : Word) : (s.kvEnableEff v).fixedPart = s.fixedPart := by
  unfold kvEnableEff; simp

@[simp ↓] theorem baseWrite_fixedPart (s : State) (code : Half) (inst off low : Nat) (run : Bool) (v : Word) :
    (s.baseWrite code inst off low run v).fixedPart = s.fixedPart := by
  unfold baseWrite; simp

@[simp ↓] theorem kvQuotaWriteEff_fixedPart (s : State) (p : Nat) (v : Word) :
    (s.kvQuotaWriteEff p v).fixedPart = s.fixedPart := by
  unfold kvQuotaWriteEff; simp

@[simp ↓] theorem pfxEnableEff_fixedPart (s : State) (v : Word) : (s.pfxEnableEff v).fixedPart = s.fixedPart := by
  unfold pfxEnableEff; simp

/-! ## Calendar writes, proving and batches -/

@[simp ↓] theorem calWriteEff_fixedPart (s : State) (d : DescHdr) (e : CalWord) :
    (s.calWriteEff d e).fixedPart = s.fixedPart := by
  unfold calWriteEff; (repeat' split) <;> simp

@[simp ↓] theorem calChangeoverEff_fixedPart (s : State) (n idx : Nat) : (s.calChangeoverEff n idx).fixedPart = s.fixedPart := by
  unfold calChangeoverEff; dsimp only; (repeat' split) <;> simp

@[simp ↓] theorem inject_fixedPart (s : State) (r : Nat) (e : CalEntry) : (s.inject r e).fixedPart = s.fixedPart := by
  unfold inject; dsimp only; (repeat' split) <;> simp

@[simp ↓] theorem calProveEff_fixedPart (s : State) (n idx : Nat) : (s.calProveEff n idx).fixedPart = s.fixedPart := by
  unfold calProveEff; split <;> simp

@[simp ↓] theorem missAll_fixedPart (s : State) (r : Nat) (l : List ProveRun) : (s.missAll r l).fixedPart = s.fixedPart := by
  induction l generalizing s with
  | nil => rfl
  | cons x r ih => unfold missAll; simp [ih]

@[simp ↓] theorem proveDeadlineEff_fixedPart (s : State) (r : Nat) : (s.proveDeadlineEff r).fixedPart = s.fixedPart := by
  unfold proveDeadlineEff; simp

@[simp ↓] theorem batchFormEff_fixedPart (s : State) (g : BitVec 18) (b : Nat) :
    (s.batchFormEff g b).fixedPart = s.fixedPart := by
  unfold batchFormEff; simp

/-! ## Codec streams and replay -/

@[simp ↓] theorem fnWrite_fixedPart (s : State) (fn off : Nat) (bs : List Byte) :
    (s.fnWrite fn off bs).fixedPart = s.fixedPart := by
  unfold fnWrite; simp

@[simp ↓] theorem descDetail_fixedPart (s : State) (d : DescHdr) (status : Half) (result : Nat) (detail : List Byte) :
    (s.descDetail d status result detail).fixedPart = s.fixedPart := by
  unfold descDetail; simp

@[simp ↓] theorem setStream_fixedPart (s : State) (n : Nat) (x : Option Stream) : (s.setStream n x).fixedPart = s.fixedPart := by
  unfold setStream; simp

@[simp ↓] theorem bindRing_fixedPart (s : State) (fn i k : Nat) : (s.bindRing fn i k).fixedPart = s.fixedPart := by
  unfold bindRing; simp

@[simp ↓] theorem streamOpenEff_fixedPart (s : State) (d : DescHdr) (w : Nat) (encode : Bool) (b : StreamBlock) :
    (s.streamOpenEff d w encode b).fixedPart = s.fixedPart := by
  unfold streamOpenEff; simp

@[simp ↓] theorem dropPictures_fixedPart (s : State) (x : Stream) (code : Half) (l : List Picture) :
    (s.dropPictures x code l).fixedPart = s.fixedPart := by
  induction l generalizing s with
  | nil => rfl
  | cons x r ih => unfold dropPictures; simp [ih]

@[simp ↓] theorem dropStream_fixedPart (s : State) (n : Nat) (x : Stream) : (s.dropStream n x).fixedPart = s.fixedPart := by
  unfold dropStream; simp

@[simp ↓] theorem streamCloseEff_fixedPart (s : State) (d : DescHdr) (n : Nat) :
    (s.streamCloseEff d n).fixedPart = s.fixedPart := by
  unfold streamCloseEff; split <;> simp

@[simp ↓] theorem streamResumeEff_fixedPart (s : State) (d : DescHdr) (n : Nat) :
    (s.streamResumeEff d n).fixedPart = s.fixedPart := by
  unfold streamResumeEff; split <;> simp

@[simp ↓] theorem startHead_fixedPart (s : State) (n : Nat) : (s.startHead n).fixedPart = s.fixedPart := by
  unfold startHead; (repeat' split) <;> simp

@[simp ↓] theorem startHeads_fixedPart (s : State) (l : List Nat) : (s.startHeads l).fixedPart = s.fixedPart := by
  induction l generalizing s with
  | nil => rfl
  | cons x r ih => unfold startHeads; simp [ih]

@[simp ↓] theorem takePicture_fixedPart (s : State) (n : Nat) (x : Stream) (p : Picture) :
    (s.takePicture n x p).fixedPart = s.fixedPart := by
  unfold takePicture; simp

@[simp ↓] theorem auEff_fixedPart (s : State) (d : DescHdr) (irap : Bool) (addr len : Nat) :
    (s.auEff d irap addr len).fixedPart = s.fixedPart := by
  unfold auEff; (repeat' split) <;> simp

@[simp ↓] theorem pictureEff_fixedPart (s : State) (d : DescHdr) (off : Nat) : (s.pictureEff d off).fixedPart = s.fixedPart := by
  unfold pictureEff; split <;> simp

@[simp ↓] theorem decodeDone_fixedPart (s : State) (n : Nat) (x : Stream) (p : Picture) (rest : List Picture)
    (errs : List SliceError) :
    (s.decodeDone n x p rest errs).fixedPart = s.fixedPart := by
  unfold decodeDone; dsimp only; split <;> simp

@[simp ↓] theorem encodeDone_fixedPart (s : State) (n : Nat) (x : Stream) (p : Picture) (rest : List Picture) :
    (s.encodeDone n x p rest).fixedPart = s.fixedPart := by
  unfold encodeDone; simp

@[simp ↓] theorem pictureDoneEff_fixedPart (s : State) (encode : Bool) (i : Nat) (errs : List SliceError) :
    (s.pictureDoneEff encode i errs).fixedPart = s.fixedPart := by
  unfold pictureDoneEff; dsimp only; (repeat' split) <;> simp

@[simp ↓] theorem decoderBudgetWindowEff_fixedPart (s : State) : s.decoderBudgetWindowEff.fixedPart = s.fixedPart := by
  unfold decoderBudgetWindowEff; simp

@[simp ↓] theorem streamLagSuspendEff_fixedPart (s : State) (n : Nat) : (s.streamLagSuspendEff n).fixedPart = s.fixedPart := by
  unfold streamLagSuspendEff; split <;> simp

@[simp ↓] theorem decoderLoadHighEff_fixedPart (s : State) (permille : Nat) :
    (s.decoderLoadHighEff permille).fixedPart = s.fixedPart := by
  unfold decoderLoadHighEff; simp

@[simp ↓] theorem resetStream_fixedPart (s : State) (n : Nat) : (s.resetStream n).fixedPart = s.fixedPart := by
  unfold resetStream; split <;> simp

@[simp ↓] theorem resetStreams_fixedPart (s : State) (l : List Nat) : (s.resetStreams l).fixedPart = s.fixedPart := by
  induction l generalizing s with
  | nil => rfl
  | cons x r ih => unfold resetStreams; simp [ih]

@[simp ↓] theorem codecReset_fixedPart (s : State) : s.codecReset.fixedPart = s.fixedPart := by
  unfold codecReset; simp

@[simp ↓] theorem setSession_fixedPart (s : State) (i : Nat) (x : Option Session) :
    (s.setSession i x).fixedPart = s.fixedPart := by
  unfold setSession; simp

@[simp ↓] theorem replayEff_fixedPart (s : State) (d : DescHdr) (r : ReplayParams) :
    (s.replayEff d r).fixedPart = s.fixedPart := by
  unfold replayEff; dsimp only; (repeat' split) <;> simp

@[simp ↓] theorem endSession_fixedPart (s : State) (i : Nat) (q : Session) (code : Half) (idx : Nat) :
    (s.endSession i q code idx).fixedPart = s.fixedPart := by
  unfold endSession; simp

@[simp ↓] theorem feedBlock_fixedPart (s : State) (i : Nat) (q : Session) (f : Fed) (set : Mem) :
    (s.feedBlock i q f set).fixedPart = s.fixedPart := by
  unfold feedBlock; simp

@[simp ↓] theorem finishSession_fixedPart (s : State) (i : Nat) (q : Session) :
    (s.finishSession i q).fixedPart = s.fixedPart := by
  unfold finishSession; simp

@[simp ↓] theorem replayBlockFeedEff_fixedPart (s : State) (i : Nat) : (s.replayBlockFeedEff i).fixedPart = s.fixedPart := by
  unfold replayBlockFeedEff; (repeat' split) <;> simp

@[simp ↓] theorem sessionSubmit_fixedPart (s : State) (i : Nat) (q : Session) (u : Submission) (m : Marks) :
    (s.sessionSubmit i q u m).fixedPart = s.fixedPart := by
  unfold sessionSubmit; simp

/-! ## Polders and contexts -/

@[simp ↓] theorem setPolder_fixedPart (s : State) (p : Nat) (x : Polder) : (s.setPolder p x).fixedPart = s.fixedPart := by
  unfold setPolder; simp

@[simp ↓] theorem polRefuse_fixedPart (s : State) (p b : Nat) (code : Half) : (s.polRefuse p b code).fixedPart = s.fixedPart := by
  unfold polRefuse; simp

@[simp ↓] theorem reportAll_fixedPart (s : State) (kind inst : Nat) (l : List (Half × Nat × Nat × Nat)) :
    (s.reportAll kind inst l).fixedPart = s.fixedPart := by
  induction l generalizing s with
  | nil => rfl
  | cons x r ih => unfold reportAll; simp [ih]

@[simp ↓] theorem giveEngines_fixedPart (s : State) (p : Nat) (l : List Nat) : (s.giveEngines p l).fixedPart = s.fixedPart := by
  induction l generalizing s with
  | nil => rfl
  | cons x r ih => unfold giveEngines; simp [ih]

@[simp ↓] theorem polderCreateEff_fixedPart (s : State) (p : Nat) (v : Word) :
    (s.polderCreateEff p v).fixedPart = s.fixedPart := by
  unfold polderCreateEff; simp

@[simp ↓] theorem leaveAll_fixedPart (s : State) (l : List Nat) : (s.leaveAll l).fixedPart = s.fixedPart := by
  induction l generalizing s with
  | nil => rfl
  | cons x r ih => unfold leaveAll; simp [ih]

@[simp ↓] theorem joinAll_fixedPart (s : State) (p : Nat) (l : List Nat) : (s.joinAll p l).fixedPart = s.fixedPart := by
  induction l generalizing s with
  | nil => rfl
  | cons x r ih => unfold joinAll; simp [ih]

@[simp ↓] theorem resizeEff_fixedPart (s : State) (p : Nat) (v : Word) : (s.resizeEff p v).fixedPart = s.fixedPart := by
  unfold resizeEff; (repeat' split) <;> simp

@[simp ↓] theorem dropRecipes_fixedPart (s : State) (l : List Nat) : (s.dropRecipes l).fixedPart = s.fixedPart := by
  induction l generalizing s with
  | nil => rfl
  | cons x r ih => unfold dropRecipes; split <;> simp [ih]

@[simp ↓] theorem destroyEff_fixedPart (s : State) (p : Nat) (v : Word) : (s.destroyEff p v).fixedPart = s.fixedPart := by
  unfold destroyEff; dsimp only; (repeat' split) <;> simp

@[simp ↓] theorem ctxCreateEff_fixedPart (s : State) (d : DescHdr) (w : Nat) (b : SchedBlock) :
    (s.ctxCreateEff d w b).fixedPart = s.fixedPart := by
  unfold ctxCreateEff; split <;> simp

@[simp ↓] theorem failJobs_fixedPart (s : State) (c : Nat) (code : Half) (l : List Nat) :
    (s.failJobs c code l).fixedPart = s.fixedPart := by
  induction l generalizing s with
  | nil => rfl
  | cons x r ih => unfold failJobs; simp [ih]

@[simp ↓] theorem displaceOf_fixedPart (s : State) (c : Nat) (l : List Nat) : (s.displaceOf c l).fixedPart = s.fixedPart := by
  induction l generalizing s with
  | nil => rfl
  | cons x r ih => unfold displaceOf; split <;> simp [ih]

@[simp ↓] theorem doom_fixedPart (s : State) (c : Nat) (d : Option DescHdr) : (s.doom c d).fixedPart = s.fixedPart := by
  unfold doom; dsimp only; split <;> simp

@[simp ↓] theorem ctxDestroyEff_fixedPart (s : State) (d : DescHdr) (c : Nat) :
    (s.ctxDestroyEff d c).fixedPart = s.fixedPart := by
  unfold ctxDestroyEff; split <;> simp

@[simp ↓] theorem pollCtx_fixedPart (s : State) (c : Nat) : (s.pollCtx c).fixedPart = s.fixedPart := by
  unfold pollCtx; split <;> simp

@[simp ↓] theorem pollAll_fixedPart (s : State) (l : List Nat) : (s.pollAll l).fixedPart = s.fixedPart := by
  induction l generalizing s with
  | nil => rfl
  | cons x r ih => unfold pollAll; simp [ih]

@[simp ↓] theorem schedulePollEff_fixedPart (s : State) (c : Nat) : (s.schedulePollEff c).fixedPart = s.fixedPart := by
  unfold schedulePollEff; split <;> simp

@[simp ↓] theorem beginResidency_fixedPart (s : State) (c : Nat) : (s.beginResidency c).fixedPart = s.fixedPart := by
  unfold beginResidency; simp

@[simp ↓] theorem switchInEff_fixedPart (s : State) (e c : Nat) : (s.switchInEff e c).fixedPart = s.fixedPart := by
  unfold switchInEff; dsimp only; (repeat' split) <;> simp

@[simp ↓] theorem sliceEndEff_fixedPart (s : State) (c : Nat) : (s.sliceEndEff c).fixedPart = s.fixedPart := by
  unfold sliceEndEff; dsimp only; (repeat' split) <;> simp

@[simp ↓] theorem blockSwapEff_fixedPart (s : State) (p : Nat) : (s.blockSwapEff p).fixedPart = s.fixedPart := by
  unfold blockSwapEff; dsimp only; (repeat' split) <;> simp

@[simp ↓] theorem lendTo_fixedPart (s : State) (e q : Nat) : (s.lendTo e q).fixedPart = s.fixedPart := by
  unfold lendTo; simp

@[simp ↓] theorem startReclaim_fixedPart (s : State) (takeover : Option Nat) :
    (s.startReclaim takeover).fixedPart = s.fixedPart := by
  unfold startReclaim; split <;> simp

@[simp ↓] theorem spareWrite_fixedPart (s : State) (v : Word) : (s.spareWrite v).fixedPart = s.fixedPart := by
  unfold spareWrite; dsimp only; (repeat' split) <;> simp

@[simp ↓] theorem spareCfgWriteEff_fixedPart (s : State) (v : Word) : (s.spareCfgWriteEff v).fixedPart = s.fixedPart := by
  unfold spareCfgWriteEff; simp

@[simp ↓] theorem lendEff_fixedPart (s : State) (v : Word) : (s.lendEff v).fixedPart = s.fixedPart := by
  unfold lendEff; simp

@[simp ↓] theorem reclaimEff_fixedPart (s : State) (v : Word) : (s.reclaimEff v).fixedPart = s.fixedPart := by
  unfold reclaimEff; simp

@[simp ↓] theorem noSpareNoticeEff_fixedPart (s : State) : s.noSpareNoticeEff.fixedPart = s.fixedPart := by
  unfold noSpareNoticeEff; (repeat' split) <;> simp

@[simp ↓] theorem submitJob_fixedPart (s : State) (d : DescHdr) (idx code first count : Nat) (list : Option Nat)
    (params : List Byte) (build : Bool) :
    (s.submitJob d idx code first count list params build).fixedPart = s.fixedPart := by
  unfold submitJob; dsimp only; (repeat' split) <;> simp

/-! ## The host interface -/

@[simp ↓] theorem setRing_fixedPart (s : State) (fn i : Nat) (r : Ring) : (s.setRing fn i r).fixedPart = s.fixedPart := by
  unfold setRing; simp

@[simp ↓] theorem ringLast_fixedPart (s : State) (fn i : Nat) (code : Half) : (s.ringLast fn i code).fixedPart = s.fixedPart := by
  unfold ringLast; simp

@[simp ↓] theorem ringReport_fixedPart (s : State) (fn i outcome hi lo written applied : Nat) :
    (s.ringReport fn i outcome hi lo written applied).fixedPart = s.fixedPart := by
  unfold ringReport; simp

@[simp ↓] theorem ringRefuse_fixedPart (s : State) (fn i written : Nat) :
    (s.ringRefuse fn i written).fixedPart = s.fixedPart := by
  unfold ringRefuse; simp

@[simp ↓] theorem serveRing_fixedPart (s : State) (fn i : Nat) : (s.serveRing fn i).fixedPart = s.fixedPart := by
  unfold serveRing; simp

@[simp ↓] theorem serveRings_fixedPart (s : State) (fn : Nat) (l : List Nat) : (s.serveRings fn l).fixedPart = s.fixedPart := by
  induction l generalizing s with
  | nil => rfl
  | cons x r ih => unfold serveRings; simp [ih]

@[simp ↓] theorem ringEnableEff_fixedPart (s : State) (fn i : Nat) (v : Word) :
    (s.ringEnableEff fn i v).fixedPart = s.fixedPart := by
  unfold ringEnableEff
  have refuses (t : State) (l : List Unit) : (l.foldl (fun t _ => t.ringRefuse fn i 1) t).fixedPart = t.fixedPart :=
    foldl_fixedPart _ (fun t _ => ringRefuse_fixedPart t _ _ _) l t
  simp [refuses]

@[simp ↓] theorem ringDisableEff_fixedPart (s : State) (fn i : Nat) (v : Word) :
    (s.ringDisableEff fn i v).fixedPart = s.fixedPart := by
  unfold ringDisableEff; simp

@[simp ↓] theorem ringBaseWrite_fixedPart (s : State) (fn i : Nat) (lo hi : Word) :
    (s.ringBaseWrite fn i lo hi).fixedPart = s.fixedPart := by
  unfold ringBaseWrite; simp

@[simp ↓] theorem ringModWrite_fixedPart (s : State) (fn i : Nat) (v : Word) :
    (s.ringModWrite fn i v).fixedPart = s.fixedPart := by
  unfold ringModWrite; simp

@[simp ↓] theorem dbBad_fixedPart (s : State) (fn i : Nat) (v : Word) : (s.dbBad fn i v).fixedPart = s.fixedPart := by
  unfold dbBad; simp

@[simp ↓] theorem submissionDoorbellEff_fixedPart (s : State) (fn i : Nat) (v : Word) :
    (s.submissionDoorbellEff fn i v).fixedPart = s.fixedPart := by
  unfold submissionDoorbellEff; simp

@[simp ↓] theorem releaseDoorbellEff_fixedPart (s : State) (fn i : Nat) (v : Word) :
    (s.releaseDoorbellEff fn i v).fixedPart = s.fixedPart := by
  unfold releaseDoorbellEff; simp

@[simp ↓] theorem fetchLoop_fixedPart (s : State) (fn i k : Nat) : (s.fetchLoop fn i k).fixedPart = s.fixedPart := by
  induction k generalizing s with
  | zero => rfl
  | succ n ih => unfold fetchLoop; simp [ih]

@[simp ↓] theorem descriptorFetchEff_fixedPart (s : State) (fn i : Nat) :
    (s.descriptorFetchEff fn i).fixedPart = s.fixedPart := by
  unfold descriptorFetchEff; simp

@[simp ↓] theorem descriptorFetchFailEff_fixedPart (s : State) (fn i : Nat) :
    (s.descriptorFetchFailEff fn i).fixedPart = s.fixedPart := by
  unfold descriptorFetchFailEff; simp

@[simp ↓] theorem hostReadFailEff_fixedPart (s : State) (id : Nat) : (s.hostReadFailEff id).fixedPart = s.fixedPart := by
  unfold hostReadFailEff; split <;> simp

@[simp ↓] theorem eventWindowEndEff_fixedPart (s : State) (code : Half) (kind inst : Nat) :
    (s.eventWindowEndEff code kind inst).fixedPart = s.fixedPart := by
  unfold eventWindowEndEff; simp

@[simp ↓] theorem interruptTimerEff_fixedPart (s : State) (fn i : Nat) : (s.interruptTimerEff fn i).fixedPart = s.fixedPart := by
  unfold interruptTimerEff; simp

@[simp ↓] theorem linkTrainedEff_fixedPart (s : State) (width rate : Nat) :
    (s.linkTrainedEff width rate).fixedPart = s.fixedPart := by
  unfold linkTrainedEff; simp

@[simp ↓] theorem ringsOff_fixedPart (s : State) (fn : Nat) (l : List Nat) : (s.ringsOff fn l).fixedPart = s.fixedPart := by
  induction l generalizing s with
  | nil => rfl
  | cons x r ih => unfold ringsOff; simp [ih]

@[simp ↓] theorem closeStreams_fixedPart (s : State) (l : List (Nat × Stream)) : (s.closeStreams l).fixedPart = s.fixedPart := by
  induction l generalizing s with
  | nil => rfl
  | cons x r ih => unfold closeStreams; simp [ih]

@[simp ↓] theorem doomAll_fixedPart (s : State) (l : List Nat) : (s.doomAll l).fixedPart = s.fixedPart := by
  induction l generalizing s with
  | nil => rfl
  | cons x r ih => unfold doomAll; simp [ih]

@[simp ↓] theorem dropSessions_fixedPart (s : State) (l : List Nat) : (s.dropSessions l).fixedPart = s.fixedPart := by
  induction l generalizing s with
  | nil => rfl
  | cons x r ih => unfold dropSessions; simp [ih]

@[simp ↓] theorem msixReset_fixedPart (s : State) (fn : Nat) : (s.msixReset fn).fixedPart = s.fixedPart := by
  unfold msixReset; simp

@[simp ↓] theorem flr_fixedPart (s : State) (fn : Nat) : (s.flr fn).fixedPart = s.fixedPart := by
  unfold flr; simp

@[simp ↓] theorem flrAll_fixedPart (s : State) (l : List Nat) : (s.flrAll l).fixedPart = s.fixedPart := by
  induction l generalizing s with
  | nil => rfl
  | cons x r ih => unfold flrAll; simp [ih]

@[simp ↓] theorem vfFlrEff_fixedPart (s : State) (fn : Nat) : (s.vfFlrEff fn).fixedPart = s.fixedPart := by
  unfold vfFlrEff; simp

@[simp ↓] theorem pf0FlrEff_fixedPart (s : State) : (s.pf0FlrEff).fixedPart = s.fixedPart := by
  unfold pf0FlrEff; simp

@[simp ↓] theorem unmask_fixedPart (s : State) (fn v : Nat) : (s.unmask fn v).fixedPart = s.fixedPart := by
  unfold unmask; simp

@[simp ↓] theorem msixVectorUnmaskEff_fixedPart (s : State) (fn v : Nat) :
    (s.msixVectorUnmaskEff fn v).fixedPart = s.fixedPart := by
  unfold msixVectorUnmaskEff; simp

@[simp ↓] theorem unmaskAll_fixedPart (s : State) (fn : Nat) (l : List Nat) : (s.unmaskAll fn l).fixedPart = s.fixedPart := by
  induction l generalizing s with
  | nil => rfl
  | cons x r ih => unfold unmaskAll; simp [ih]

@[simp ↓] theorem functionPowerStateEff_fixedPart (s : State) (fn : Nat) (d3 : Bool) :
    (s.functionPowerStateEff fn d3).fixedPart = s.fixedPart := by
  unfold functionPowerStateEff; simp

/-! ## Lanes, ports, frames and RoCEv2 -/

@[simp ↓] theorem hunt_fixedPart (s : State) (n : Nat) : (s.hunt n).fixedPart = s.fixedPart := by
  unfold hunt; simp

@[simp ↓] theorem stopPort_fixedPart (s : State) (n : Nat) : (s.stopPort n).fixedPart = s.fixedPart := by
  unfold stopPort; simp

@[simp ↓] theorem lpiRefuse_fixedPart (s : State) (n : Nat) (old : Word) : (s.lpiRefuse n old).fixedPart = s.fixedPart := by
  unfold lpiRefuse; simp

@[simp ↓] theorem portEnableEff_fixedPart (s : State) (n : Nat) (v : Word) : (s.portEnableEff n v).fixedPart = s.fixedPart := by
  unfold portEnableEff; simp

@[simp ↓] theorem stopPorts_fixedPart (s : State) (l : List Nat) : (s.stopPorts l).fixedPart = s.fixedPart := by
  induction l generalizing s with
  | nil => rfl
  | cons x r ih => unfold stopPorts; simp [ih]

@[simp ↓] theorem quadWriteEff_fixedPart (s : State) (q : Nat) (v : Word) : (s.quadWriteEff q v).fixedPart = s.fixedPart := by
  unfold quadWriteEff; simp

@[simp ↓] theorem txffeWriteEff_fixedPart (s : State) (n : Nat) (v : Word) : (s.txffeWriteEff n v).fixedPart = s.fixedPart := by
  unfold txffeWriteEff; simp

@[simp ↓] theorem adaptEff_fixedPart (s : State) (n ctle : Nat) (taps : BitVec 30) :
    (s.adaptEff n ctle taps).fixedPart = s.fixedPart := by
  unfold adaptEff; simp

@[simp ↓] theorem blockLockEff_fixedPart (s : State) (n skew : Nat) (remote : Bool) :
    (s.blockLockEff n skew remote).fixedPart = s.fixedPart := by
  unfold blockLockEff; simp

@[simp ↓] theorem blockLockLossEff_fixedPart (s : State) (n : Nat) (amplitude : Bool) :
    (s.blockLockLossEff n amplitude).fixedPart = s.fixedPart := by
  unfold blockLockLossEff; simp

@[simp ↓] theorem hiBerEnterEff_fixedPart (s : State) (n : Nat) : (s.hiBerEnterEff n).fixedPart = s.fixedPart := by
  unfold hiBerEnterEff; simp

@[simp ↓] theorem hiBerClearEff_fixedPart (s : State) (n : Nat) : (s.hiBerClearEff n).fixedPart = s.fixedPart := by
  unfold hiBerClearEff; simp

@[simp ↓] theorem fecCodewordEff_fixedPart (s : State) (n errors : Nat) (correctable : Bool) :
    (s.fecCodewordEff n errors correctable).fixedPart = s.fixedPart := by
  unfold fecCodewordEff; simp

@[simp ↓] theorem txPllUnlockEff_fixedPart (s : State) (q : Nat) (fast : Bool) :
    (s.txPllUnlockEff q fast).fixedPart = s.fixedPart := by
  unfold txPllUnlockEff; simp

@[simp ↓] theorem txPllRelockEff_fixedPart (s : State) (q : Nat) (fast : Bool) :
    (s.txPllRelockEff q fast).fixedPart = s.fixedPart := by
  unfold txPllRelockEff; simp

@[simp ↓] theorem txLpiEnterEff_fixedPart (s : State) (n : Nat) : (s.txLpiEnterEff n).fixedPart = s.fixedPart := by
  unfold txLpiEnterEff; simp

@[simp ↓] theorem lpiRefreshEff_fixedPart (s : State) (n : Nat) : (s.lpiRefreshEff n).fixedPart = s.fixedPart := by
  unfold lpiRefreshEff; simp

@[simp ↓] theorem txLpiWakeEff_fixedPart (s : State) (n : Nat) : (s.txLpiWakeEff n).fixedPart = s.fixedPart := by
  unfold txLpiWakeEff; simp

@[simp ↓] theorem rxLpiEff_fixedPart (s : State) (n : Nat) : (s.rxLpiEff n).fixedPart = s.fixedPart := by
  unfold rxLpiEff; simp

@[simp ↓] theorem rxLpiWakeEff_fixedPart (s : State) (n : Nat) : (s.rxLpiWakeEff n).fixedPart = s.fixedPart := by
  unfold rxLpiWakeEff; simp

@[simp ↓] theorem eyeEndEarly_fixedPart (s : State) (n : Nat) (shed : Bool) : (s.eyeEndEarly n shed).fixedPart = s.fixedPart := by
  unfold eyeEndEarly; simp

@[simp ↓] theorem eyeWrite_fixedPart (s : State) (n : Nat) (v : Word) : (s.eyeWrite n v).fixedPart = s.fixedPart := by
  unfold eyeWrite; simp

@[simp ↓] theorem eyePointEndEff_fixedPart (s : State) (n : Nat) (errors : BitVec 48) :
    (s.eyePointEndEff n errors).fixedPart = s.fixedPart := by
  unfold eyePointEndEff; simp

@[simp ↓] theorem eyeShed_fixedPart (s : State) (n : Nat) : (s.eyeShed n).fixedPart = s.fixedPart := by
  unfold eyeShed; simp

@[simp ↓] theorem unclassified_fixedPart (s : State) (n : Nat) (f : Frame) : (s.unclassified n f).fixedPart = s.fixedPart := by
  unfold unclassified; simp

@[simp ↓] theorem toSoftware_fixedPart (s : State) (n len : Nat) (st : Option Int) :
    (s.toSoftware n len st).fixedPart = s.fixedPart := by
  unfold toSoftware; simp

@[simp ↓] theorem ptpFrame_fixedPart (s : State) (n : Nat) (f : Frame) (p : PtpKind) :
    (s.ptpFrame n f p).fixedPart = s.fixedPart := by
  unfold ptpFrame; simp

@[simp ↓] theorem gvspDrop_fixedPart (s : State) (n k b : Nat) : (s.gvspDrop n k b).fixedPart = s.fixedPart := by
  unfold gvspDrop; simp

@[simp ↓] theorem gvspBlock_fixedPart (s : State) (k b : Nat) (leader : Bool) :
    (s.gvspBlock k b leader).fixedPart = s.fixedPart := by
  unfold gvspBlock; simp

@[simp ↓] theorem lostPacket_fixedPart (s : State) (k : Nat) (g : Gvsp) (gone : Bool) :
    (s.lostPacket k g gone).fixedPart = s.fixedPart := by
  unfold lostPacket; simp

@[simp ↓] theorem gvspFrame_fixedPart (s : State) (n k : Nat) (g : Gvsp) : (s.gvspFrame n k g).fixedPart = s.fixedPart := by
  unfold gvspFrame; (repeat' split) <;> simp

@[simp ↓] theorem classify_fixedPart (s : State) (n : Nat) (f : Frame) : (s.classify n f).fixedPart = s.fixedPart := by
  unfold classify; dsimp only; (repeat' split) <;> simp

@[simp ↓] theorem buffered_fixedPart (s : State) (n : Nat) (f : Frame) : (s.buffered n f).fixedPart = s.fixedPart := by
  unfold buffered; simp

@[simp ↓] theorem pauseFrame_fixedPart (s : State) (n : Nat) (pfc : Option Byte) (quanta : Nat) :
    (s.pauseFrame n pfc quanta).fixedPart = s.fixedPart := by
  unfold pauseFrame; simp

@[simp ↓] theorem managementFrame_fixedPart (s : State) (f : Frame) : (s.managementFrame f).fixedPart = s.fixedPart := by
  unfold managementFrame; simp

@[simp ↓] theorem frameReceivedEff_fixedPart (s : State) (n : Nat) (f : Frame) :
    (s.frameReceivedEff n f).fixedPart = s.fixedPart := by
  unfold frameReceivedEff; (repeat' split) <;> simp

@[simp ↓] theorem answerOp_fixedPart (s : State) (id : Nat) (code : Half) : (s.answerOp id code).fixedPart = s.fixedPart := by
  unfold answerOp; simp

@[simp ↓] theorem answerOps_fixedPart (s : State) (code : Half) (l : List Outstanding) :
    (s.answerOps code l).fixedPart = s.fixedPart := by
  induction l generalizing s with
  | nil => rfl
  | cons x r ih => unfold answerOps; simp [ih]

@[simp ↓] theorem qpError_fixedPart (s : State) (q : Nat) (code : Half) : (s.qpError q code).fixedPart = s.fixedPart := by
  unfold qpError; simp

@[simp ↓] theorem putBonded_fixedPart (s : State) (a : Nat) (bs : List Byte) : (s.putBonded a bs).fixedPart = s.fixedPart := by
  unfold putBonded; simp

@[simp ↓] theorem notify_fixedPart (s : State) (c : Nat) : (s.notify c).fixedPart = s.fixedPart := by
  unfold notify; simp

@[simp ↓] theorem qpSend_fixedPart (s : State) (q len : Nat) : (s.qpSend q len).fixedPart = s.fixedPart := by
  unfold qpSend; simp

@[simp ↓] theorem respond_fixedPart (s : State) (q len : Nat) : (s.respond q len).fixedPart = s.fixedPart := by
  unfold respond; simp

@[simp ↓] theorem invalidRequest_fixedPart (s : State) (q : Nat) : (s.invalidRequest q).fixedPart = s.fixedPart := by
  unfold invalidRequest; simp

@[simp ↓] theorem windowWrite_fixedPart (s : State) (k addr : Nat) (data : List Byte) :
    (s.windowWrite k addr data).fixedPart = s.fixedPart := by
  unfold windowWrite; simp

@[simp ↓] theorem skipLines_fixedPart (s : State) (k k' k'' : Nat) : (s.skipLines k k' k'').fixedPart = s.fixedPart := by
  induction k' generalizing s k'' with
  | zero => unfold skipLines; rfl
  | succ f ih => unfold skipLines; simp [ih]

@[simp ↓] theorem windowClose_fixedPart (s : State) (k imm : Nat) : (s.windowClose k imm).fixedPart = s.fixedPart := by
  unfold windowClose; simp

@[simp ↓] theorem windowRequest_fixedPart (s : State) (q k : Nat) (r : RoceReq) :
    (s.windowRequest q k r).fixedPart = s.fixedPart := by
  unfold windowRequest; split <;> simp

@[simp ↓] theorem remoteSignal_fixedPart (s : State) (a v note : Nat) : (s.remoteSignal a v note).fixedPart = s.fixedPart := by
  unfold remoteSignal; simp

@[simp ↓] theorem cnpSend_fixedPart (s : State) (q : Nat) : (s.cnpSend q).fixedPart = s.fixedPart := by
  unfold cnpSend; simp

@[simp ↓] theorem memRequest_fixedPart (s : State) (q : Nat) (key : Word) (r : RoceReq) :
    (s.memRequest q key r).fixedPart = s.fixedPart := by
  unfold memRequest; split <;> simp

@[simp ↓] theorem roceRequestEff_fixedPart (s : State) (q : Nat) (ce : Bool) (key : Word) (r : RoceReq) :
    (s.roceRequestEff q ce key r).fixedPart = s.fixedPart := by
  unfold roceRequestEff; simp

@[simp ↓] theorem cnpReceivedEff_fixedPart (s : State) (q : Nat) : (s.cnpReceivedEff q).fixedPart = s.fixedPart := by
  unfold cnpReceivedEff; simp

@[simp ↓] theorem dcqcnIncreaseEff_fixedPart (s : State) (q : Nat) (byTimer : Bool) :
    (s.dcqcnIncreaseEff q byTimer).fixedPart = s.fixedPart := by
  unfold dcqcnIncreaseEff; simp

@[simp ↓] theorem answerData_fixedPart (s : State) (id : Nat) (bs : List Byte) :
    (s.answerData id bs).fixedPart = s.fixedPart := by
  unfold answerData; simp

@[simp ↓] theorem takeAnswer_fixedPart (s : State) (q : Nat) (bs : Option (List Byte)) :
    (s.takeAnswer q bs).fixedPart = s.fixedPart := by
  unfold takeAnswer; dsimp only; (repeat' split) <;> simp

@[simp ↓] theorem takeAnswers_fixedPart (s : State) (q k : Nat) : (s.takeAnswers q k).fixedPart = s.fixedPart := by
  induction k generalizing s with
  | zero => rfl
  | succ n ih => unfold takeAnswers; simp [ih]

@[simp ↓] theorem roceResponseEff_fixedPart (s : State) (q : Nat) (r : RoceResp) :
    (s.roceResponseEff q r).fixedPart = s.fixedPart := by
  unfold roceResponseEff; split <;> simp

@[simp ↓] theorem roceAckTimeoutEff_fixedPart (s : State) (q : Nat) : (s.roceAckTimeoutEff q).fixedPart = s.fixedPart := by
  unfold roceAckTimeoutEff; dsimp only; split <;> simp

/-! ## Lines of modules -/

@[simp ↓] theorem setProxy_fixedPart (s : State) (j : Nat) (x : ProxyIn) : (s.setProxy j x).fixedPart = s.fixedPart := by
  unfold setProxy; simp

@[simp ↓] theorem setProxied_fixedPart (s : State) (j : Nat) (p : Part) : (s.setProxied j p).fixedPart = s.fixedPart := by
  unfold setProxied; simp

@[simp ↓] theorem sealProxied_fixedPart (s : State) (j : Nat) (p : Part) (q : Sealing) :
    (s.sealProxied j p q).fixedPart = s.fixedPart := by
  unfold sealProxied; dsimp only; split <;> simp

@[simp ↓] theorem sealProxyLost_fixedPart (s : State) (j k : Nat) : (s.sealProxyLost j k).fixedPart = s.fixedPart := by
  induction k generalizing s with
  | zero => rfl
  | succ n ih => unfold sealProxyLost; dsimp only; split <;> simp [ih]

@[simp ↓] theorem proxyAbsent_fixedPart (s : State) (j : Nat) : (s.proxyAbsent j).fixedPart = s.fixedPart := by
  unfold proxyAbsent; simp

@[simp ↓] theorem proxiesAbsent_fixedPart (s : State) (l : List Nat) : (s.proxiesAbsent l).fixedPart = s.fixedPart := by
  induction l generalizing s with
  | nil => rfl
  | cons x r ih => unfold proxiesAbsent; simp [ih]

@[simp ↓] theorem peerQps_fixedPart (s : State) (m : Nat) (code : Half) (l : List (Nat × Qp)) :
    (s.peerQps m code l).fixedPart = s.fixedPart := by
  induction l generalizing s with
  | nil => rfl
  | cons x r ih => unfold peerQps; simp [ih]

@[simp ↓] theorem memberAbsent_fixedPart (s : State) (m : Nat) : (s.memberAbsent m).fixedPart = s.fixedPart := by
  unfold memberAbsent; simp

@[simp ↓] theorem membersAbsent_fixedPart (s : State) (l : List Nat) : (s.membersAbsent l).fixedPart = s.fixedPart := by
  induction l generalizing s with
  | nil => rfl
  | cons x r ih => unfold membersAbsent; simp [ih]

@[simp ↓] theorem setLevel_fixedPart (s : State) (level : Nat) (mixed : Bool) :
    (s.setLevel level mixed).fixedPart = s.fixedPart := by
  unfold setLevel; simp

@[simp ↓] theorem recompute_fixedPart (s : State) : s.recompute.fixedPart = s.fixedPart := by
  unfold recompute; simp

@[simp ↓] theorem openQps_fixedPart (s : State) (m : Nat) (l : List Nat) : (s.openQps m l).fixedPart = s.fixedPart := by
  induction l generalizing s with
  | nil => rfl
  | cons x r ih => unfold openQps; split <;> simp [ih]

@[simp ↓] theorem joinPeers_fixedPart (s : State) (l : List (Nat × PeerDesc)) : (s.joinPeers l).fixedPart = s.fixedPart := by
  induction l generalizing s with
  | nil => rfl
  | cons x r ih => unfold joinPeers; simp [ih]

@[simp ↓] theorem takePart_fixedPart (s : State) : s.takePart.fixedPart = s.fixedPart := by
  unfold takePart; simp

@[simp ↓] theorem leaveLine_fixedPart (s : State) : s.leaveLine.fixedPart = s.fixedPart := by
  unfold leaveLine; simp

@[simp ↓] theorem lineWrite_fixedPart (s : State) (v : Word) (peers : List (Nat × PeerDesc)) :
    (s.lineWrite v peers).fixedPart = s.fixedPart := by
  unfold lineWrite; simp

@[simp ↓] theorem lineJoinEff_fixedPart (s : State) (v : Word) (peers : List (Nat × PeerDesc)) :
    (s.lineJoinEff v peers).fixedPart = s.fixedPart := by
  unfold lineJoinEff; simp

@[simp ↓] theorem eqCalEff_fixedPart (s : State) (v : Word) (upPs dnPs : Nat) :
    (s.eqCalEff v upPs dnPs).fixedPart = s.fixedPart := by
  unfold eqCalEff; simp

@[simp ↓] theorem eqRemeasureEff_fixedPart (s : State) (upPs dnPs : Nat) :
    (s.eqRemeasureEff upPs dnPs).fixedPart = s.fixedPart := by
  unfold eqRemeasureEff; simp

@[simp ↓] theorem releaseTarget_fixedPart (s : State) (late : Half) : (s.releaseTarget late).fixedPart = s.fixedPart := by
  unfold releaseTarget; simp

@[simp ↓] theorem headCheck_fixedPart (s : State) : s.headCheck.fixedPart = s.fixedPart := by
  unfold headCheck; simp

@[simp ↓] theorem eqHeadFrameEff_fixedPart (s : State) : s.eqHeadFrameEff.fixedPart = s.fixedPart := by
  unfold eqHeadFrameEff; (repeat' split) <;> simp

@[simp ↓] theorem arrive_fixedPart (s : State) (n : Nat) : (s.arrive n).fixedPart = s.fixedPart := by
  unfold arrive; simp

@[simp ↓] theorem eqArriveEff_fixedPart (s : State) (v : Word) : (s.eqArriveEff v).fixedPart = s.fixedPart := by
  unfold eqArriveEff; simp

@[simp ↓] theorem barrierTimeoutEff_fixedPart (s : State) : s.barrierTimeoutEff.fixedPart = s.fixedPart := by
  unfold barrierTimeoutEff; split <;> simp

@[simp ↓] theorem applyPresets_fixedPart (s : State) (l : List Nat) : (s.applyPresets l).fixedPart = s.fixedPart := by
  induction l generalizing s with
  | nil => rfl
  | cons x r ih => unfold applyPresets; simp [ih]

@[simp ↓] theorem barrierReleaseActionEff_fixedPart (s : State) : s.barrierReleaseActionEff.fixedPart = s.fixedPart := by
  unfold barrierReleaseActionEff; split <;> simp

@[simp ↓] theorem eqLinkLossEff_fixedPart (s : State) (up : Bool) : (s.eqLinkLossEff up).fixedPart = s.fixedPart := by
  unfold eqLinkLossEff; simp

@[simp ↓] theorem badFrame_fixedPart (s : State) (up : Bool) : (s.badFrame up).fixedPart = s.fixedPart := by
  unfold badFrame; simp

@[simp ↓] theorem eqDownstreamFrameEff_fixedPart (s : State) (f : EqDown) :
    (s.eqDownstreamFrameEff f).fixedPart = s.fixedPart := by
  unfold eqDownstreamFrameEff; (repeat' split) <;> simp

@[simp ↓] theorem memberBack_fixedPart (s : State) (m : Nat) : (s.memberBack m).fixedPart = s.fixedPart := by
  unfold memberBack; simp

@[simp ↓] theorem membersBack_fixedPart (s : State) (l : List Nat) : (s.membersBack l).fixedPart = s.fixedPart := by
  induction l generalizing s with
  | nil => rfl
  | cons x r ih => unfold membersBack; simp [ih]

@[simp ↓] theorem eqUpstreamFrameEff_fixedPart (s : State) (f : EqUp) : (s.eqUpstreamFrameEff f).fixedPart = s.fixedPart := by
  unfold eqUpstreamFrameEff; simp

@[simp ↓] theorem proxySeq_fixedPart (s : State) (m : ProxyMsg) : (s.proxySeq m).fixedPart = s.fixedPart := by
  unfold proxySeq; simp

@[simp ↓] theorem proxyAdmitEff_fixedPart (s : State) (m : ProxyMsg) : (s.proxyAdmitEff m).fixedPart = s.fixedPart := by
  unfold proxyAdmitEff; simp

@[simp ↓] theorem proxySealEff_fixedPart (s : State) (m : ProxyMsg) : (s.proxySealEff m).fixedPart = s.fixedPart := by
  unfold proxySealEff; dsimp only; (repeat' split) <;> simp

@[simp ↓] theorem endAreas_fixedPart (s : State) (j : Nat) (on : Fine) : (s.endAreas j on).fixedPart = s.fixedPart := by
  unfold endAreas; simp

@[simp ↓] theorem proxyCloseEff_fixedPart (s : State) (m : ProxyMsg) : (s.proxyCloseEff m).fixedPart = s.fixedPart := by
  unfold proxyCloseEff; simp

@[simp ↓] theorem proxyRingFullEff_fixedPart (s : State) (k : Nat) : (s.proxyRingFullEff k).fixedPart = s.fixedPart := by
  unfold proxyRingFullEff; simp

@[simp ↓] theorem peerAreaPartEff_fixedPart (s : State) (j : Nat) : (s.peerAreaPartEff j).fixedPart = s.fixedPart := by
  unfold peerAreaPartEff; simp

@[simp ↓] theorem proxyDeadline_fixedPart (s : State) (k slot : Nat) : (s.proxyDeadline k slot).fixedPart = s.fixedPart := by
  unfold proxyDeadline; split <;> simp

@[simp ↓] theorem deadlineAny_fixedPart (s : State) (k slot : Nat) : (s.deadlineAny k slot).fixedPart = s.fixedPart := by
  unfold deadlineAny; simp

/-! ## Culvert operations -/

@[simp ↓] theorem withPeerQp_fixedPart (s : State) (m owner : Nat) : (s.withPeerQp m owner).fixedPart = s.fixedPart := by
  unfold withPeerQp; simp

@[simp ↓] theorem sendTo_fixedPart (s : State) (id c m bytes : Nat) (read : Bool) :
    (s.sendTo id c m bytes read).fixedPart = s.fixedPart := by
  unfold sendTo; split <;> simp

@[simp ↓] theorem remoteIssue_fixedPart (s : State) (h : OpHdr) (m level bytes : Nat) (excess : Half) (read : Bool) :
    (s.remoteIssue h m level bytes excess read).2.fixedPart = s.fixedPart := by
  unfold remoteIssue; simp

@[simp ↓] theorem culvertIssue_fixedPart (s : State) (h : OpHdr) (opc : Nat) (sg : Option SignalArg) (remote : Bool)
    (f : State → OpRes × State) (hf : ∀ t : State, (f t).2.fixedPart = t.fixedPart) :
    (culvertIssue s h opc sg remote f).fixedPart = s.fixedPart := by
  unfold culvertIssue; refine issue_fixedPart _ _ _ _ _ _ (fun t => ?_); split <;> simp [hf]

@[simp ↓] theorem intake_fixedPart (s : State) (h : OpHdr) (u : Submission) : (s.intake h u).2.fixedPart = s.fixedPart := by
  unfold intake; split <;> simp

@[simp ↓] theorem putOp_fixedPart (h : OpHdr) (t : PutTarget) (s : State) : (putOp h t s).2.fixedPart = s.fixedPart := by
  unfold putOp; (repeat' split) <;> simp

@[simp ↓] theorem putEff_fixedPart (s : State) (h : OpHdr) (t : PutTarget) (sg : Option SignalArg) :
    (s.putEff h t sg).fixedPart = s.fixedPart := by
  unfold putEff; simp

@[simp ↓] theorem getOp_fixedPart (h : OpHdr) (s : State) : (getOp h s).2.fixedPart = s.fixedPart := by
  unfold getOp; split <;> simp

@[simp ↓] theorem getEff_fixedPart (s : State) (h : OpHdr) (sg : Option SignalArg) : (s.getEff h sg).fixedPart = s.fixedPart := by
  unfold getEff; simp

@[simp ↓] theorem atomicOp_fixedPart (h : OpHdr) (f : Nat → Nat) (s : State) : (atomicOp h f s).2.fixedPart = s.fixedPart := by
  unfold atomicOp; split <;> simp

@[simp ↓] theorem markAtomic_fixedPart (s : State) (e id : Nat) : (s.markAtomic e id).fixedPart = s.fixedPart := by
  unfold markAtomic; split <;> simp

@[simp ↓] theorem atomicEff_fixedPart (s : State) (h : OpHdr) (opc : Nat) (sg : Option SignalArg) (f : Nat → Nat) :
    (s.atomicEff h opc sg f).fixedPart = s.fixedPart := by
  unfold atomicEff; simp

@[simp ↓] theorem addEff_fixedPart (s : State) (h : OpHdr) (w : AddWidth) (v : DWord) (sg : Option SignalArg) :
    (s.addEff h w v sg).fixedPart = s.fixedPart := by
  unfold addEff; simp

@[simp ↓] theorem casEff_fixedPart (s : State) (h : OpHdr) (cmp swap : DWord) (sg : Option SignalArg) :
    (s.casEff h cmp swap sg).fixedPart = s.fixedPart := by
  unfold casEff; simp

@[simp ↓] theorem signalOp_fixedPart (h : OpHdr) (sg : SignalArg) (s : State) : (signalOp h sg s).2.fixedPart = s.fixedPart := by
  unfold signalOp; simp

@[simp ↓] theorem signalEff_fixedPart (s : State) (h : OpHdr) (sg : SignalArg) : (s.signalEff h sg).fixedPart = s.fixedPart := by
  unfold signalEff; simp

@[simp ↓] theorem raiseSignal_fixedPart (s : State) (o : OpEntry) (sg : SignalArg) :
    (s.raiseSignal o sg).fixedPart = s.fixedPart := by
  unfold raiseSignal; split <;> simp

@[simp ↓] theorem sendSignal_fixedPart (s : State) (o : OpEntry) (sg : SignalArg) :
    (s.sendSignal o sg).fixedPart = s.fixedPart := by
  unfold sendSignal; simp

@[simp ↓] theorem completeAny_fixedPart (s : State) (id : Nat) : (s.completeAny id).fixedPart = s.fixedPart := by
  unfold completeAny; (repeat' split) <;> simp

/-! ## Faults and recovery -/

@[simp ↓] theorem dike_fixedPart (s : State) (code : Half) (inst : Nat) (payload : List Byte) :
    (s.dike code inst payload).fixedPart = s.fixedPart := by
  unfold dike; simp

@[simp ↓] theorem flushDue_fixedPart (s : State) (code : Half) : (s.flushDue code).fixedPart = s.fixedPart := by
  unfold flushDue; simp

@[simp ↓] theorem hexkeugFlushEff_fixedPart (s : State) (code : Half) : (s.hexkeugFlushEff code).fixedPart = s.fixedPart := by
  unfold hexkeugFlushEff; split <;> simp

@[simp ↓] theorem setReason_fixedPart (s : State) (b : Nat) : (s.setReason b).fixedPart = s.fixedPart := by
  unfold setReason; simp

@[simp ↓] theorem setReasons_fixedPart (s : State) (l : List Nat) : (s.setReasons l).fixedPart = s.fixedPart := by
  induction l generalizing s with
  | nil => rfl
  | cons x r ih => unfold setReasons; simp [ih]

@[simp ↓] theorem replaceClearEff_fixedPart (s : State) (v : Word) : (s.replaceClearEff v).fixedPart = s.fixedPart := by
  unfold replaceClearEff; simp

@[simp ↓] theorem hexSelEff_fixedPart (s : State) (v : Word) : (s.hexSelEff v).fixedPart = s.fixedPart := by
  unfold hexSelEff; simp

@[simp ↓] theorem loseTask_fixedPart (s : State) (e : Nat) : (s.loseTask e).fixedPart = s.fixedPart := by
  unfold loseTask; dsimp only; split <;> simp

@[simp ↓] theorem discardLater_fixedPart (s : State) (c job idx : Nat) : (s.discardLater c job idx).fixedPart = s.fixedPart := by
  unfold discardLater; simp

@[simp ↓] theorem clearEngine_fixedPart (s : State) (e : Nat) : (s.clearEngine e).fixedPart = s.fixedPart := by
  unfold clearEngine; simp

@[simp ↓] theorem syncAll_fixedPart (s : State) (l : List Nat) : (s.syncAll l).fixedPart = s.fixedPart := by
  induction l generalizing s with
  | nil => rfl
  | cons x r ih => unfold syncAll; simp [ih]

@[simp ↓] theorem bumpTotal_fixedPart (s : State) (i : Nat) : (s.bumpTotal i).fixedPart = s.fixedPart := by
  unfold bumpTotal; simp

theorem takeOrder_fixedPart {s t : State} {x : Scope} {b : Bool} (h : s.takeOrder x = some (b, t)) : t.fixedPart = s.fixedPart := by
  unfold takeOrder at h
  split at h
  · cases h
  · split at h
    · cases h; simp
    · split at h <;> cases h
      rfl

@[simp ↓] theorem takeOver_fixedPart (s : State) (e p : Nat) : (s.takeOver e p).fixedPart = s.fixedPart := by
  unfold takeOver; (repeat' split) <;> simp

@[simp ↓] theorem closeXing_fixedPart (s : State) (l : List Nat) : (s.closeXing l).fixedPart = s.fixedPart := by
  unfold closeXing; simp

@[simp ↓] theorem engineResetEff_fixedPart (s : State) (e : Fin 6) : (s.engineResetEff e).fixedPart = s.fixedPart := by
  unfold engineResetEff
  split
  · rfl
  · next ht => dsimp only; (repeat' split) <;> simp [takeOrder_fixedPart ht]

@[simp ↓] theorem dropSpare_fixedPart (s : State) : s.dropSpare.fixedPart = s.fixedPart := by
  unfold dropSpare; simp

@[simp ↓] theorem fitShare_fixedPart (s : State) (p : Nat) : (s.fitShare p).fixedPart = s.fixedPart := by
  unfold fitShare; split <;> simp

@[simp ↓] theorem emptyPolder_fixedPart (s : State) (p : Nat) : (s.emptyPolder p).fixedPart = s.fixedPart := by
  unfold emptyPolder; simp

@[simp ↓] theorem retire_fixedPart (s : State) (e : Nat) : (s.retire e).fixedPart = s.fixedPart := by
  unfold retire; dsimp only; (repeat' split) <;> simp

@[simp ↓] theorem releaseSpare_fixedPart (s : State) (p : Nat) : (s.releaseSpare p).fixedPart = s.fixedPart := by
  unfold releaseSpare; split <;> simp

@[simp ↓] theorem crossingReopenEff_fixedPart (s : State) (c : Nat) : (s.crossingReopenEff c).fixedPart = s.fixedPart := by
  unfold crossingReopenEff; simp

@[simp ↓] theorem clockBack_fixedPart (s : State) (l : List Nat) : (s.clockBack l).fixedPart = s.fixedPart := by
  unfold clockBack; simp

@[simp ↓] theorem engineResetDoneEff_fixedPart (s : State) (e : Fin 6) : (s.engineResetDoneEff e).fixedPart = s.fixedPart := by
  unfold engineResetDoneEff; dsimp only; (repeat' split) <;> simp

@[simp ↓] theorem clearEngines_fixedPart (s : State) (l : List Nat) : (s.clearEngines l).fixedPart = s.fixedPart := by
  induction l generalizing s with
  | nil => rfl
  | cons x r ih => unfold clearEngines; simp [ih]

@[simp ↓] theorem computeResetEff_fixedPart (s : State) : s.computeResetEff.fixedPart = s.fixedPart := by
  unfold computeResetEff
  split
  · rfl
  · next ht => simp [takeOrder_fixedPart ht]

@[simp ↓] theorem failAllJobs_fixedPart (s : State) (code : Half) (l : List (Nat × Ctx)) :
    (s.failAllJobs code l).fixedPart = s.fixedPart := by
  induction l generalizing s with
  | nil => rfl
  | cons x r ih => unfold failAllJobs; simp [ih]

@[simp ↓] theorem finishEngines_fixedPart (s : State) : s.finishEngines.fixedPart = s.fixedPart := by
  unfold finishEngines; simp

@[simp ↓] theorem computeResetDoneEff_fixedPart (s : State) : s.computeResetDoneEff.fixedPart = s.fixedPart := by
  unfold computeResetDoneEff; simp

@[simp ↓] theorem closeTracks_fixedPart (s : State) (l : List Nat) : (s.closeTracks l).fixedPart = s.fixedPart := by
  induction l generalizing s with
  | nil => rfl
  | cons x r ih => unfold closeTracks; simp [ih]

@[simp ↓] theorem enterFirst_fixedPart (s : State) (code : Half) (detail : Nat) :
    (s.enterFirst code detail).fixedPart = s.fixedPart := by
  unfold enterFirst; simp

@[simp ↓] theorem drainAllRecipes_fixedPart (s : State) (l : List Nat) : (s.drainAllRecipes l).fixedPart = s.fixedPart := by
  induction l generalizing s with
  | nil => rfl
  | cons x r ih => unfold drainAllRecipes; simp [ih]

@[simp ↓] theorem processorResetEff_fixedPart (s : State) : s.processorResetEff.fixedPart = s.fixedPart := by
  unfold processorResetEff
  split
  · rfl
  · next ht => simp [takeOrder_fixedPart ht]

@[simp ↓] theorem sealProxiedLost_fixedPart (s : State) (p : Part) : (s.sealProxiedLost p).fixedPart = s.fixedPart := by
  unfold sealProxiedLost; simp

@[simp ↓] theorem sealLost_fixedPart (s : State) (k : Nat) : (s.sealLost k).fixedPart = s.fixedPart := by
  induction k generalizing s with
  | zero => rfl
  | succ n ih => unfold sealLost; split <;> simp [ih]

@[simp ↓] theorem processorBack_fixedPart (s : State) : s.processorBack.fixedPart = s.fixedPart := by
  unfold processorBack; simp

@[simp ↓] theorem processorDone_fixedPart (s : State) : s.processorDone.fixedPart = s.fixedPart := by
  unfold processorDone; simp

@[simp ↓] theorem escalate_fixedPart (s : State) (from_ dst : Scope) : (s.escalate from_ dst).fixedPart = s.fixedPart := by
  unfold escalate; simp

@[simp ↓] theorem resetEscalateEff_fixedPart (s : State) (x : Scope) : (s.resetEscalateEff x).fixedPart = s.fixedPart := by
  unfold resetEscalateEff; split <;> simp

@[simp ↓] theorem heartbeatLossAny_fixedPart (s : State) : s.heartbeatLossAny.fixedPart = s.fixedPart := by
  unfold heartbeatLossAny; simp

@[simp ↓] theorem fabricTimeoutEff_fixedPart (s : State) (kind : Byte) : (s.fabricTimeoutEff kind).fixedPart = s.fixedPart := by
  unfold fabricTimeoutEff; simp

@[simp ↓] theorem handshakeTimeoutEff_fixedPart (s : State) (x : Scope) (kind : Byte) :
    (s.handshakeTimeoutEff x kind).fixedPart = s.fixedPart := by
  unfold handshakeTimeoutEff; simp

@[simp ↓] theorem codecStallEff_fixedPart (s : State) : s.codecStallEff.fixedPart = s.fixedPart := by
  unfold codecStallEff; simp

@[simp ↓] theorem detectSmall_fixedPart (s : State) : s.detectSmall.fixedPart = s.fixedPart := by
  unfold detectSmall; simp

@[simp ↓] theorem coreWatchdogEff_fixedPart (s : State) (c : Nat) : (s.coreWatchdogEff c).fixedPart = s.fixedPart := by
  unfold coreWatchdogEff; simp

@[simp ↓] theorem coreWrite_fixedPart (s : State) (c : Nat) (v : Word) : (s.coreWrite c v).fixedPart = s.fixedPart := by
  unfold coreWrite; simp

@[simp ↓] theorem kickEff_fixedPart (s : State) (c : Nat) (v : Word) : (s.kickEff c v).fixedPart = s.fixedPart := by
  unfold kickEff; simp

@[simp ↓] theorem rstWrite_fixedPart (s : State) (v : Word) : (s.rstWrite v).fixedPart = s.fixedPart := by
  unfold rstWrite; dsimp only; (repeat' split) <;> simp

@[simp ↓] theorem orderDeferred_fixedPart (s : State) : s.orderDeferred.fixedPart = s.fixedPart := by
  unfold orderDeferred; dsimp only; split <;> simp

@[simp ↓] theorem leaseRequestEff_fixedPart (s : State) (w : Warden) : (s.leaseRequestEff w).fixedPart = s.fixedPart := by
  unfold leaseRequestEff; simp

@[simp ↓] theorem leaderDemoteEff_fixedPart (s : State) (w : Warden) : (s.leaderDemoteEff w).fixedPart = s.fixedPart := by
  unfold leaderDemoteEff; simp

@[simp ↓] theorem wardenSilentEff_fixedPart (s : State) (w : Warden) : (s.wardenSilentEff w).fixedPart = s.fixedPart := by
  unfold wardenSilentEff; simp

@[simp ↓] theorem freezeDetectEff_fixedPart (s : State) : s.freezeDetectEff.fixedPart = s.fixedPart := by
  unfold freezeDetectEff; simp

/-! ## The field section -/

@[simp ↓] theorem diEdgeEff_fixedPart (s : State) (i : Nat) (level : Bool) : (s.diEdgeEff i level).fixedPart = s.fixedPart := by
  unfold diEdgeEff; simp

@[simp ↓] theorem diCfgWriteEff_fixedPart (s : State) (i : Nat) (v : Word) : (s.diCfgWriteEff i v).fixedPart = s.fixedPart := by
  unfold diCfgWriteEff; simp

@[simp ↓] theorem diEvtPopEff_fixedPart (s : State) (v : Word) : (s.diEvtPopEff v).fixedPart = s.fixedPart := by
  unfold diEvtPopEff; simp

@[simp ↓] theorem supplySampleEff_fixedPart (s : State) (mV : Nat) : (s.supplySampleEff mV).fixedPart = s.fixedPart := by
  unfold supplySampleEff; simp

@[simp ↓] theorem doShutdownEff_fixedPart (s : State) (n : Nat) : (s.doShutdownEff n).fixedPart = s.fixedPart := by
  unfold doShutdownEff; simp

@[simp ↓] theorem doRestartEff_fixedPart (s : State) (n : Nat) : (s.doRestartEff n).fixedPart = s.fixedPart := by
  unfold doRestartEff; simp

@[simp ↓] theorem clearLatches_fixedPart (s : State) (l : List Nat) : (s.clearLatches l).fixedPart = s.fixedPart := by
  induction l generalizing s with
  | nil => rfl
  | cons x r ih => unfold clearLatches; simp [ih]

@[simp ↓] theorem doClearEff_fixedPart (s : State) (v : Word) : (s.doClearEff v).fixedPart = s.fixedPart := by
  unfold doClearEff; simp

@[simp ↓] theorem doMismatchEff_fixedPart (s : State) (n : Nat) : (s.doMismatchEff n).fixedPart = s.fixedPart := by
  unfold doMismatchEff; simp

@[simp ↓] theorem bankFrame_fixedPart (s : State) (b : Nat) : (s.bankFrame b).fixedPart = s.fixedPart := by
  unfold bankFrame; simp

@[simp ↓] theorem valveFrameEff_fixedPart (s : State) : s.valveFrameEff.fixedPart = s.fixedPart := by
  unfold valveFrameEff; simp

@[simp ↓] theorem statusFail_fixedPart (s : State) (b off : Nat) : (s.statusFail b off).fixedPart = s.fixedPart := by
  unfold statusFail; simp

@[simp ↓] theorem statusFrameEff_fixedPart (s : State) (b : Nat) (f : ValveStatus) :
    (s.statusFrameEff b f).fixedPart = s.fixedPart := by
  unfold statusFrameEff; split <;> simp

@[simp ↓] theorem statusMissEff_fixedPart (s : State) (b : Nat) : (s.statusMissEff b).fixedPart = s.fixedPart := by
  unfold statusMissEff; split <;> simp

@[simp ↓] theorem vbCfgWriteEff_fixedPart (s : State) (b : Nat) (v : Word) : (s.vbCfgWriteEff b v).fixedPart = s.fixedPart := by
  unfold vbCfgWriteEff; simp

/-! ## Power, clocks and the Almanac -/

@[simp ↓] theorem deferCtxs_fixedPart (s : State) (l : List Nat) : (s.deferCtxs l).fixedPart = s.fixedPart := by
  induction l generalizing s with
  | nil => rfl
  | cons x r ih => unfold deferCtxs; simp [ih]

@[simp ↓] theorem shedEyes_fixedPart (s : State) (l : List Nat) : (s.shedEyes l).fixedPart = s.fixedPart := by
  induction l generalizing s with
  | nil => rfl
  | cons x r ih => unfold shedEyes; simp [ih]

@[simp ↓] theorem admission_fixedPart (deferWas shedWas : Bool) (s : State) :
    (admission deferWas shedWas s).fixedPart = s.fixedPart := by
  unfold admission; simp

@[simp ↓] theorem almanacTickEff_fixedPart (s : State) (l : List Nat) : (s.almanacTickEff l).fixedPart = s.fixedPart := by
  unfold almanacTickEff; simp

@[simp ↓] theorem almCfgWrite_fixedPart (s : State) (v : Word) : (s.almCfgWrite v).fixedPart = s.fixedPart := by
  unfold almCfgWrite; simp

@[simp ↓] theorem almThrWrite_fixedPart (s : State) (v : Word) : (s.almThrWrite v).fixedPart = s.fixedPart := by
  unfold almThrWrite; simp

@[simp ↓] theorem almSettingEff_fixedPart (s : State) (env : Bool) (v : Word) :
    (s.almSettingEff env v).fixedPart = s.fixedPart := by
  unfold almSettingEff; simp

@[simp ↓] theorem loseLocks_fixedPart (s : State) (l : List Nat) : (s.loseLocks l).fixedPart = s.fixedPart := by
  induction l generalizing s with
  | nil => rfl
  | cons x r ih => unfold loseLocks; simp [ih]

@[simp ↓] theorem clockStopEff_fixedPart (s : State) (d : Nat) : (s.clockStopEff d).fixedPart = s.fixedPart := by
  unfold clockStopEff; (repeat' split) <;> simp

@[simp ↓] theorem quietPorts_fixedPart (s : State) (l : List Nat) : (s.quietPorts l).fixedPart = s.fixedPart := by
  induction l generalizing s with
  | nil => rfl
  | cons x r ih => unfold quietPorts; simp [ih]

@[simp ↓] theorem sleepEff_fixedPart (s : State) (v : Word) : (s.sleepEff v).fixedPart = s.fixedPart := by
  unfold sleepEff; simp

@[simp ↓] theorem wakeEff_fixedPart (s : State) (v : Word) : (s.wakeEff v).fixedPart = s.fixedPart := by
  unfold wakeEff; simp

@[simp ↓] theorem unpowered_fixedPart (s : State) : s.unpowered.fixedPart = s.fixedPart := by
  unfold unpowered; simp

@[simp ↓] theorem thermalSampleEff_fixedPart (s : State) (logic dram : List Int) :
    (s.thermalSampleEff logic dram).fixedPart = s.fixedPart := by
  unfold thermalSampleEff; simp

@[simp ↓] theorem thermalShutdownEff_fixedPart (s : State) : s.thermalShutdownEff.fixedPart = s.fixedPart := by
  unfold thermalShutdownEff; simp

@[simp ↓] theorem thermalRestartEff_fixedPart (s : State) : s.thermalRestartEff.fixedPart = s.fixedPart := by
  unfold thermalRestartEff; simp

@[simp ↓] theorem enterRecovery_fixedPart (s : State) (code : Half) : (s.enterRecovery code).fixedPart = s.fixedPart := by
  unfold enterRecovery; simp

@[simp ↓] theorem bootChain_fixedPart (s : State) (c : BootCheck) : (s.bootChain c).fixedPart = s.fixedPart := by
  unfold bootChain; split <;> simp

@[simp ↓] theorem coldBootEff_fixedPart (s : State) (c : BootCheck) : (s.coldBootEff c).fixedPart = s.fixedPart := by
  unfold coldBootEff
  split
  · rfl
  · split
    · rfl
    · next ht => simp [takeOrder_fixedPart ht]

@[simp ↓] theorem coldBootCompleteEff_fixedPart (s : State) : s.coldBootCompleteEff.fixedPart = s.fixedPart := by
  unfold coldBootCompleteEff; simp

@[simp ↓] theorem powerLossEff_fixedPart (s : State) : s.powerLossEff.fixedPart = s.fixedPart := by
  unfold powerLossEff; simp

@[simp ↓] theorem powerOnEff_fixedPart (s : State) : s.powerOnEff.fixedPart = s.fixedPart := by
  unfold powerOnEff; simp

@[simp ↓] theorem pinHeld_fixedPart (s : State) : s.pinHeld.fixedPart = s.fixedPart := by
  unfold pinHeld; simp

@[simp ↓] theorem nrstReqEff_fixedPart (s : State) (ns : Nat) : (s.nrstReqEff ns).fixedPart = s.fixedPart := by
  unfold nrstReqEff; simp

@[simp ↓] theorem nrstReqReleaseEff_fixedPart (s : State) : s.nrstReqReleaseEff.fixedPart = s.fixedPart := by
  unfold nrstReqReleaseEff; simp

/-! ## Security requests -/

@[simp ↓] theorem secOut_fixedPart (s : State) (bs : List Byte) : (s.secOut bs).fixedPart = s.fixedPart := by
  unfold secOut; simp

@[simp ↓] theorem secDone_fixedPart (code : Half) (s : State) : (secDone code s).fixedPart = s.fixedPart := by
  unfold secDone; simp

@[simp ↓] theorem secRequest_fixedPart (s : State) (op : Nat) (f : State → Half × State)
    (hf : ∀ t : State, (f t).2.fixedPart = t.fixedPart) : (secRequest s op f).fixedPart = s.fixedPart := by
  unfold secRequest; split <;> simp [hf]

@[simp ↓] theorem debugOff_fixedPart (s : State) : s.debugOff.fixedPart = s.fixedPart := by
  unfold debugOff; simp

@[simp ↓] theorem firmwareUpdate_fixedPart (readBackOk : Bool) (s : State) :
    (firmwareUpdate readBackOk s).2.fixedPart = s.fixedPart := by
  unfold firmwareUpdate; simp

@[simp ↓] theorem ownerRecord_fixedPart (s : State) : s.ownerRecord.2.fixedPart = s.fixedPart := by
  unfold ownerRecord; simp

@[simp ↓] theorem attestation_fixedPart (s : State) : s.attestation.2.fixedPart = s.fixedPart := by
  unfold attestation; simp

@[simp ↓] theorem debugChallenge_fixedPart (s : State) : s.debugChallenge.2.fixedPart = s.fixedPart := by
  unfold debugChallenge; simp

@[simp ↓] theorem debugToken_fixedPart (s : State) : s.debugToken.2.fixedPart = s.fixedPart := by
  unfold debugToken; simp

@[simp ↓] theorem debugExpiryEff_fixedPart (s : State) : s.debugExpiryEff.fixedPart = s.fixedPart := by
  unfold debugExpiryEff; simp

@[simp ↓] theorem lineSoftware_fixedPart (s : State) : s.lineSoftware.2.fixedPart = s.fixedPart := by
  unfold lineSoftware; cases s.lswBar <;> simp

@[simp ↓] theorem lswAgain_fixedPart (s : State) : s.lswAgain.fixedPart = s.fixedPart := by
  unfold lswAgain; split <;> simp

@[simp ↓] theorem readCertificate_fixedPart (s : State) : s.readCertificate.2.fixedPart = s.fixedPart := by
  unfold readCertificate; simp

@[simp ↓] theorem secColdBoot_fixedPart (s : State) : s.secColdBoot.2.fixedPart = s.fixedPart := by
  unfold secColdBoot; simp

@[simp ↓] theorem secOp_fixedPart (s : State) (readBackOk : Bool) (op : Nat) :
    (s.secOp readBackOk op).fixedPart = s.fixedPart := by
  unfold secOp; split <;> simp

@[simp ↓] theorem secGo_fixedPart (s : State) (op : Nat) (f : State → Half × State)
    (hf : ∀ t : State, (f t).2.fixedPart = t.fixedPart) : (secGo s op f).fixedPart = s.fixedPart := by
  unfold secGo; simp [hf]

/-! ## Values that reading latches -/

@[simp ↓] theorem latchRead_fixedPart (s : State) (fn off : Nat) : (s.latchRead fn off).fixedPart = s.fixedPart := by
  unfold latchRead; simp

/-! ## Accesses of the host -/

@[simp ↓] theorem plainWrite_fixedPart (s : State) (off : Nat) (v : Word) : (s.plainWrite off v).fixedPart = s.fixedPart := by
  unfold plainWrite; simp

@[simp ↓] theorem revertAll_fixedPart (s : State) (old : Word) (off hi lo kind inst : Nat) (l : List (Half × Nat)) :
    (s.revertAll old off hi lo kind inst l).fixedPart = s.fixedPart := by
  induction l generalizing s with
  | nil => rfl
  | cons x r ih => unfold revertAll; simp [ih]

@[simp ↓] theorem bindRevert_fixedPart (s : State) (k : Nat) (old : Word) : (s.bindRevert k old).fixedPart = s.fixedPart := by
  unfold bindRevert; simp

@[simp ↓] theorem bindWrite_fixedPart (s : State) (k : Nat) (v : Word) : (s.bindWrite k v).fixedPart = s.fixedPart := by
  unfold bindWrite; simp

@[simp ↓] theorem refuseMembers_fixedPart (s : State) (old : Word) (l : List Nat) :
    (s.refuseMembers old l).fixedPart = s.fixedPart := by
  induction l generalizing s with
  | nil => rfl
  | cons x r ih => unfold refuseMembers; simp [ih]

@[simp ↓] theorem fsDoWrite_fixedPart (s : State) (v : Word) : (s.fsDoWrite v).fixedPart = s.fixedPart := by
  unfold fsDoWrite; simp

@[simp ↓] theorem emuRatioWrite_fixedPart (s : State) (m : Nat) (v : Word) : (s.emuRatioWrite m v).fixedPart = s.fixedPart := by
  unfold emuRatioWrite; simp

@[simp ↓] theorem archCfgWrite_fixedPart (s : State) (v : Word) : (s.archCfgWrite v).fixedPart = s.fixedPart := by
  unfold archCfgWrite; simp

@[simp ↓] theorem rewRegWrite_fixedPart (s : State) (off : Nat) (v : Word) : (s.rewRegWrite off v).fixedPart = s.fixedPart := by
  unfold rewRegWrite; simp

@[simp ↓] theorem outRegWrite_fixedPart (s : State) (i off : Nat) (v : Word) :
    (s.outRegWrite i off v).fixedPart = s.fixedPart := by
  unfold outRegWrite; split <;> simp

@[simp ↓] theorem proxyWrite_fixedPart (s : State) (j : Nat) (v : Word) : (s.proxyWrite j v).fixedPart = s.fixedPart := by
  unfold proxyWrite; simp

@[simp ↓] theorem polCtlWrite_fixedPart (s : State) (p : Nat) (v : Word) : (s.polCtlWrite p v).fixedPart = s.fixedPart := by
  unfold polCtlWrite; simp

@[simp ↓] theorem eqCalWrite_fixedPart (s : State) (v : Word) : (s.eqCalWrite v).fixedPart = s.fixedPart := by
  unfold eqCalWrite; simp

@[simp ↓] theorem sealEff_fixedPart (s : State) (v : Word) : (s.sealEff v).fixedPart = s.fixedPart := by
  unfold sealEff; simp

@[simp ↓] theorem secCtlWrite_fixedPart (s : State) (v : Word) : (s.secCtlWrite v).fixedPart = s.fixedPart := by
  unfold secCtlWrite; simp

@[simp ↓] theorem laneWrite_fixedPart (s : State) (off : Nat) (v : Word) : (s.laneWrite off v).fixedPart = s.fixedPart := by
  unfold laneWrite; simp

@[simp ↓] theorem encSpeedWrite_fixedPart (s : State) (n off : Nat) (v : Word) :
    (s.encSpeedWrite n off v).fixedPart = s.fixedPart := by
  unfold encSpeedWrite; simp

@[simp ↓] theorem encWrite_fixedPart (s : State) (off : Nat) (v : Word) : (s.encWrite off v).fixedPart = s.fixedPart := by
  unfold encWrite; simp

@[simp ↓] theorem timeWrite_fixedPart (s : State) (off : Nat) (v : Word) : (s.timeWrite off v).fixedPart = s.fixedPart := by
  unfold timeWrite; simp

@[simp ↓] theorem sluiceWrite_fixedPart (s : State) (off : Nat) (v : Word) : (s.sluiceWrite off v).fixedPart = s.fixedPart := by
  unfold sluiceWrite; simp

@[simp ↓] theorem slotWrite_fixedPart (s : State) (off : Nat) (v : Word) : (s.slotWrite off v).fixedPart = s.fixedPart := by
  unfold slotWrite; simp

@[simp ↓] theorem engWrite_fixedPart (s : State) (off : Nat) (v : Word) : (s.engWrite off v).fixedPart = s.fixedPart := by
  unfold engWrite; simp

@[simp ↓] theorem kvWrite_fixedPart (s : State) (off : Nat) (v : Word) : (s.kvWrite off v).fixedPart = s.fixedPart := by
  unfold kvWrite; simp

@[simp ↓] theorem vuWrite_fixedPart (s : State) (off : Nat) (v : Word) : (s.vuWrite off v).fixedPart = s.fixedPart := by
  unfold vuWrite; simp

@[simp ↓] theorem fieldWrite_fixedPart (s : State) (off : Nat) (v : Word) : (s.fieldWrite off v).fixedPart = s.fixedPart := by
  unfold fieldWrite; simp

@[simp ↓] theorem rewWrite_fixedPart (s : State) (off : Nat) (v : Word) : (s.rewWrite off v).fixedPart = s.fixedPart := by
  unfold rewWrite; simp

@[simp ↓] theorem polWrite_fixedPart (s : State) (off : Nat) (v : Word) : (s.polWrite off v).fixedPart = s.fixedPart := by
  unfold polWrite; simp

@[simp ↓] theorem lineRegWrite_fixedPart (s : State) (off : Nat) (v : Word) : (s.lineRegWrite off v).fixedPart = s.fixedPart := by
  unfold lineRegWrite; simp

@[simp ↓] theorem pwrWrite_fixedPart (s : State) (off : Nat) (v : Word) : (s.pwrWrite off v).fixedPart = s.fixedPart := by
  unfold pwrWrite; simp

@[simp ↓] theorem vigWrite_fixedPart (s : State) (off : Nat) (v : Word) : (s.vigWrite off v).fixedPart = s.fixedPart := by
  unfold vigWrite; simp

@[simp ↓] theorem writeUnit_fixedPart (s : State) (off : Nat) (v : Word) : (s.writeUnit off v).fixedPart = s.fixedPart := by
  unfold writeUnit; split <;> simp

@[simp ↓] theorem writeHalf_fixedPart (s : State) (off : Nat) (v : Word) : (s.writeHalf off v).fixedPart = s.fixedPart := by
  unfold writeHalf; simp

@[simp ↓] theorem writePair_fixedPart (s : State) (lo : Nat) (hi : Word) : (s.writePair lo hi).fixedPart = s.fixedPart := by
  unfold writePair; simp

@[simp ↓] theorem hold_fixedPart (s : State) (key : Nat) (v : Word) : (s.hold key v).fixedPart = s.fixedPart := by
  unfold hold; simp

@[simp ↓] theorem unmappedWrite_fixedPart (s : State) (off : Nat) (v : Word) :
    (s.unmappedWrite off v).fixedPart = s.fixedPart := by
  unfold unmappedWrite; simp

@[simp ↓] theorem ringRegWrite_fixedPart (s : State) (fn i d : Nat) (v : Word) :
    (s.ringRegWrite fn i d v).fixedPart = s.fixedPart := by
  unfold ringRegWrite; split <;> simp

@[simp ↓] theorem msixWrite_fixedPart (s : State) (fn key e d : Nat) (v : Word) :
    (s.msixWrite fn key e d v).fixedPart = s.fixedPart := by
  unfold msixWrite; simp

@[simp ↓] theorem pf0Write_fixedPart (s : State) (off : Nat) (v : Word) : (s.pf0Write off v).fixedPart = s.fixedPart := by
  unfold pf0Write; (repeat' split) <;> simp

@[simp ↓] theorem vfWrite_fixedPart (s : State) (fn off : Nat) (v : Word) : (s.vfWrite fn off v).fixedPart = s.fixedPart := by
  unfold vfWrite; simp

@[simp ↓] theorem badAccess_fixedPart (s : State) (fn : Nat) : (s.badAccess fn).fixedPart = s.fixedPart := by
  unfold badAccess; simp

@[simp ↓] theorem setupWriteEff_fixedPart (s : State) (fn off : Nat) (v : Word) :
    (s.setupWriteEff fn off v).fixedPart = s.fixedPart := by
  unfold setupWriteEff; simp

@[simp ↓] theorem readClear_fixedPart (s : State) (fn off : Nat) : (s.readClear fn off).fixedPart = s.fixedPart := by
  unfold readClear; split <;> simp

@[simp ↓] theorem counterReadEff_fixedPart (s : State) (fn off : Nat) : (s.counterReadEff fn off).fixedPart = s.fixedPart := by
  unfold counterReadEff; simp

@[simp ↓] theorem bar4WriteEff_fixedPart (s : State) (fn addr : Nat) (data : List Byte) :
    (s.bar4WriteEff fn addr data).fixedPart = s.fixedPart := by
  unfold bar4WriteEff; simp

@[simp ↓] theorem writeImage_fixedPart (s : State) (l : List (Nat × Word)) : (s.writeImage l).fixedPart = s.fixedPart := by
  induction l generalizing s with
  | nil => rfl
  | cons x r ih => unfold writeImage; simp [ih]

@[simp ↓] theorem processorResetEndEff_fixedPart (s : State) : s.processorResetEndEff.fixedPart = s.fixedPart := by
  unfold processorResetEndEff; simp

end Sys2Proof.Machine.State

namespace Sys2Proof.Machine

/-! ## Every command -/

/-- Each command answers a next state with the same queue and variant. -/
theorem exec_fixedPart (c : Instr) (s : State) : ∃ t, exec c s = .next t ∧ t.fixedPart = s.fixedPart := by
  cases c with
  | open_ | openBuild => refine ⟨_, rfl, ?_⟩; split <;> simp
  | _ => exact ⟨_, rfl, by simp⟩

end Sys2Proof.Machine

/-- Settles O3, by one lemma for each function of the model that gives a state. -/
theorem commandsLeaveQueueAndVariant : Obligations.CommandsLeaveQueueAndVariant := by
  unfold Obligations.CommandsLeaveQueueAndVariant
  intro c s
  obtain ⟨t, ht, hk⟩ := Sys2Proof.Machine.exec_fixedPart c s
  exact ⟨t, ht, congrArg Prod.fst hk, congrArg Prod.snd hk⟩
end

