-- ==== Sys2Proof/Proofs/SetupWrites.lean ====
section
/-! SUPPORT. Host writes of plain setup registers (R444, R445): the way from `SETUP_WRITE` to the unit that a register
belongs to, and what a write of a register of one 32-bit RW field leaves. -/

namespace Sys2Proof.Machine

/-! ## A field of a whole word -/

@[simp] theorem bits_word (w : Word) : bits w 31 0 = w.toNat := by
  have := w.isLt
  simp only [bits]; omega

@[simp] theorem putBits_word (w : Word) (x : Nat) : putBits w 31 0 x = BitVec.ofNat 32 x := by
  apply BitVec.eq_of_toNat_eq
  simp [putBits]

theorem clampNat_of_le {lo hi x : Nat} (h1 : lo ≤ x) (h2 : x ≤ hi) : clampNat lo hi x = x := by
  simp only [clampNat]; split_ifs <;> omega

theorem clampNat_ne {lo hi x : Nat} (h : x < lo ∨ hi < x) (_ : lo ≤ hi) : clampNat lo hi x ≠ x := by
  simp only [clampNat]; split_ifs <;> omega

/-- The report of a whole-word field that is clamped to a range (R445, R451). -/
def clampReport (code : Half) (lo hi x : Nat) : Option FieldRep :=
  if clampNat lo hi x = x then none else some ⟨code, 1, 31, 0, x, clampNat lo hi x⟩

/-- A whole-word RW field that takes every value clamped to a range, whether the module is sealed or not. -/
def takesClamped (code : Half) (f : FieldSpec) (lo hi : Nat) : Prop :=
  f.acc = .rw ∧ ∀ z v old, applyField z code f v old = (BitVec.ofNat 32 (clampNat lo hi v.toNat), clampReport code lo hi v.toNat)

theorem fldC_takesClamped (code : Half) (lo hi : Nat) : takesClamped code (fldC .rw 31 0 lo hi) lo hi := by
  refine ⟨rfl, fun z v old => ?_⟩
  by_cases h : clampNat lo hi v.toNat = v.toNat <;> simp [applyField, fldC, clampReport, h]

theorem fld_takesClamped (code : Half) : takesClamped code (fld .rw 31 0) 0 0xFFFFFFFF := by
  refine ⟨rfl, fun z v old => ?_⟩
  have := v.isLt
  simp [applyField, fld, clampReport, clampNat_of_le (lo := 0) (hi := 0xFFFFFFFF) (x := v.toNat) (by omega) (by omega)]

namespace State

/-! ## The way of a write to its unit -/

/-- A write that reaches a register of PF0 with no second half is taken by the register's unit. -/
theorem setupWrite_single {s : State} {off : Nat} {r : RegSpec} (v : Word) (ha : s.answers 0 off = true) (h4 : off % 4 = 0)
    (hb : off < 0x2C0000) (hr : regSpec off = some r) (hs : r.half = .single) :
    exec (.setupWrite 0 off v) s = .next (s.writeUnit off v) := by
  have h1 : ¬ (off % 4 ≠ 0 ∨ 0x4000000 ≤ off) := by omega
  have h2 : ¬ (0x2C0000 ≤ off ∧ off < 0x2C1000) := by omega
  have h3 : ¬ (0x2D0000 ≤ off ∧ off < 0x2D2000) := by omega
  have hp : s.setupWriteEff 0 off v = s.writeUnit off v := by
    simp only [setupWriteEff, if_true, h1, if_false, gate_answers _ _ _ _ _ ha, pf0Write, h2, h3, hr, hs]
  exact congrArg Host.Outcome.next hp

/-- A register of an axis at a distance from the axis's first one. -/
theorem writeUnit_axis (s : State) (n : Fin 4) (d : Nat) (v : Word) (hd : d < 0x100) :
    s.writeUnit (encOff n + d) v = s.encWrite (encOff n + d) v := by
  have : (encOff n + d) / 0x10000 = 0x21 := by have := n.isLt; simp only [encOff]; omega
  simp only [writeUnit, this]

theorem unitOf_axis (s : State) (n : Fin 4) (d : Nat) (hd : d < 0x100) : s.unitOf (encOff n + d) = (0x01, n.val) := by
  have hn := n.isLt
  have h1 : (encOff n + d) / 0x10000 = 0x21 := by simp only [encOff]; omega
  have h2 : encOff n + d < 0x210800 := by simp only [encOff]; omega
  have h3 : (encOff n + d - 0x210000) / 0x100 = n := by simp only [encOff]; omega
  simp only [unitOf, h1, h2, if_true, h3]

@[simp] theorem lastCodeKeys_axis (c : Half) (n : Fin 4) : lastCodeKeys c 0x01 n = [encOff n + 0x28] := by
  have hn : n.val < 0x10 := by have := n.isLt; omega
  simp only [lastCodeKeys, hn, if_true, encOff]
  simp only [List.cons.injEq, and_true]; omega

/-- An axis register at distance `d` is written by `encWrite` as a plain one, but for `CFG`, `SPD_UP`, `SPD_DOWN` and
`PRESET_CTL`. -/
theorem encWrite_axis (s : State) (n : Fin 4) (d : Nat) (v : Word) (hd : d < 0x100) :
    s.encWrite (encOff n + d) v =
      if d = 0 then s.axisEnableEff n v else if d = 0x48 then s.presetGoEff n v
      else if d = 0x10 ∨ d = 0x14 then s.encSpeedWrite n (encOff n + d) v else s.plainWrite (encOff n + d) v := by
  have hn := n.isLt
  have h2 : encOff n + d < 0x210800 := by simp only [encOff]; omega
  have h3 : (encOff n + d - 0x210000) / 0x100 = n := by simp only [encOff]; omega
  have h4 : (encOff n + d) % 0x100 = d := by simp only [encOff]; omega
  simp only [encWrite, h2, if_true, h3, h4]

/-- A host write of a single register of an axis is the axis block's write. -/
theorem setupWrite_axis {s : State} {n : Fin 4} {d : Nat} {r : RegSpec} (v : Word) (ha : s.answers 0 (encOff n + d) = true)
    (h4 : d % 4 = 0) (hd : d < 0x100) (hr : regSpec (encOff n + d) = some r) (hs : r.half = .single) :
    exec (.setupWrite 0 (encOff n + d) v) s = .next (s.encWrite (encOff n + d) v) := by
  have hn := n.isLt
  rw [setupWrite_single v ha (by simp only [encOff]; omega) (by simp only [encOff]; omega) hr hs, writeUnit_axis s n d v hd]

/-! ## A register of one whole-word field -/

/-- A write of a register whose one field takes a clamped value: the word, and the report of a clamp. -/
theorem writeFields_clamped {off : Nat} {r : RegSpec} {f : FieldSpec} {lo hi : Nat} (s : State) (k i : Nat) (v : Word)
    (hr : regSpec off = some r) (hf : r.fields = [f]) (hc : takesClamped r.code f lo hi) :
    s.writeFields off k i v = (s.setReg off (BitVec.ofNat 32 (clampNat lo hi v.toNat))).reportFields off k i
      (clampReport r.code lo hi v.toNat).toList := by
  obtain ⟨hrw, happ⟩ := hc
  have hseal : sealedField r.code v (s.reg off) [f] = none := by simp [sealedField, hrw]
  simp only [writeFields, hr, hseal, hf, applyFields, happ, List.append_nil, ite_self]

/-- A field's outcome reported with its code shown: the log alone changes, and `LAST_CODE` shows the code. -/
theorem reportLast_frame (s : State) (c : Half) (o : Byte) (off hi lo w a k i : Nat) :
    ∃ l, (s.report c o off hi lo w a).last c k i = { s with log := l } ∧
      ∀ x, x ∈ lastCodeKeys c k i → tget 0 l.lastCodes x = c := by
  obtain ⟨l, hl⟩ := last_frame (s.report c o off hi lo w a) c k i
  refine ⟨l, hl.trans rfl, fun x hx => ?_⟩
  have hc := lastCode_last (s.report c o off hi lo w a) c k i x
  rw [hl, if_pos hx] at hc
  exact hc

/-- A register that takes every value holds the value written, and reports nothing. -/
theorem writeFields_word {off : Nat} {r : RegSpec} (s : State) (k i : Nat) (v : Word) (hr : regSpec off = some r)
    (hf : r.fields = [Machine.fld .rw 31 0]) : s.writeFields off k i v = s.setReg off v := by
  have hv : clampNat 0 0xFFFFFFFF v.toNat = v.toNat := clampNat_of_le (Nat.zero_le _) (by have := v.isLt; omega)
  rw [writeFields_clamped s k i v hr hf (fld_takesClamped r.code)]
  simp only [clampReport, hv, if_true]
  rw [BitVec.ofNat_toNat, BitVec.setWidth_eq]
  rfl

/-- What a plain write of an axis register with a clamped field leaves: the word, and a log that shows a clamp. -/
theorem plainWrite_axisClamped {d lo hi : Nat} {f : FieldSpec} {w : Word} (s : State) (n : Fin 4) (v : Word) (hd : d < 0x100)
    (hr : regSpec (encOff n + d) = some (reg1 d 0x1101#16 f w)) (hc : takesClamped 0x1101#16 f lo hi) (hl : lo ≤ hi) :
    ∃ l, s.plainWrite (encOff n + d) v =
        { s.setReg (encOff n + d) (BitVec.ofNat 32 (clampNat lo hi v.toNat)) with log := l } ∧
      ((v.toNat < lo ∨ hi < v.toNat) → tget 0 l.lastCodes (encOff n + 0x28) = 0x1101#16) ∧
      (lo ≤ v.toNat → v.toNat ≤ hi → l = s.log) := by
  have hp := writeFields_clamped s 1 n v hr rfl hc
  rw [plainWrite, unitOf_axis s n d hd, hp]
  by_cases h : clampNat lo hi v.toNat = v.toNat
  · refine ⟨s.log, ?_, fun hv => absurd h (clampNat_ne hv hl), fun _ _ => rfl⟩
    simp only [clampReport, reg1, h, if_true]
    rfl
  · obtain ⟨l, hlog, hcode⟩ := reportLast_frame (s.setReg (encOff n + d) (BitVec.ofNat 32 (clampNat lo hi v.toNat)))
      0x1101#16 1 (encOff n + d) 31 0 v.toNat (clampNat lo hi v.toNat) 1 n
    refine ⟨l, ?_, fun _ => hcode _ (by simp), fun h1 h2 => absurd (clampNat_of_le h1 h2) h⟩
    simp only [clampReport, reg1, h, if_false]
    exact hlog

/-- A host write of an axis register with a clamped field. -/
theorem setupWrite_axisClamped {s : State} {n : Fin 4} {d lo hi : Nat} {f : FieldSpec} {w : Word} (v : Word)
    (ha : s.answers 0 (encOff n + d) = true) (hd : d ∈ [0x0C, 0x18, 0x3C])
    (hr : regSpec (encOff n + d) = some (reg1 d 0x1101#16 f w)) (hc : takesClamped 0x1101#16 f lo hi) (hl : lo ≤ hi) :
    ∃ t, exec (.setupWrite 0 (encOff n + d) v) s = .next t ∧
      t.reg (encOff n + d) = BitVec.ofNat 32 (clampNat lo hi v.toNat) ∧
      (∀ o, o ≠ encOff n + d → t.reg o = s.reg o) ∧
      ((v.toNat < lo ∨ hi < v.toNat) → t.lastCode (encOff n + 0x28) = 0x1101#16) ∧
      (lo ≤ v.toNat → v.toNat ≤ hi → t.log = s.log) ∧
      t = { s with regs := t.regs, log := t.log } := by
  obtain ⟨h4, h100, h0, h48, h10, h14⟩ : d % 4 = 0 ∧ d < 0x100 ∧ d ≠ 0 ∧ d ≠ 0x48 ∧ d ≠ 0x10 ∧ d ≠ 0x14 := by
    simp only [List.mem_cons, List.not_mem_nil, or_false] at hd; omega
  obtain ⟨l, hlog, hcode, hkeep⟩ := plainWrite_axisClamped s n v h100 hr hc hl
  have hx := setupWrite_axis v ha h4 h100 hr rfl
  rw [encWrite_axis s n d v h100, if_neg h0, if_neg h48, if_neg (by omega), hlog] at hx
  exact ⟨_, hx, reg_setReg_same s _ _, fun o ho => reg_setReg_other s _ o _ ho, hcode, hkeep, rfl⟩

/-! ## The speed bounds of an axis (R35) -/

theorem changeover_frame (s : State) (n : Nat) :
    ∃ x, s.changeover n = { s with axes := x } ∧ ∀ m, m ≠ n → tget {} x m = s.axis m := by
  have put (a : Axis) (m : Nat) (h : m ≠ n) : (s.setAxis n a).axis m = s.axis m := setAxis_other s n m a h
  simp only [changeover]
  split
  · exact ⟨_, rfl, put _⟩
  · split
    · exact ⟨_, rfl, put _⟩
    · exact ⟨_, rfl, fun _ _ => rfl⟩

/-- The method of the axis is judged again only where the axis counts. -/
theorem judged_frame (s : State) (n : Nat) :
    ∃ x, (if s.encCounts n then s.changeover n else s) = { s with axes := x } ∧ ∀ m, m ≠ n → tget {} x m = s.axis m := by
  split
  · exact changeover_frame s n
  · exact ⟨_, rfl, fun _ _ => rfl⟩

/-- What a write of `SPD_UP` or `SPD_DOWN` makes of the state `u` that the plain write leaves: `SPD_DOWN` not below `SPD_UP`
becomes `SPD_UP` x 7/8, with 0x1101. -/
theorem encSpeedWrite_leaves {s u : State} {n : Fin 4} {off up dn : Nat} {v : Word} (hu : s.plainWrite off v = u)
    (hup : up = (u.reg (encOff n + 0x10)).toNat) (hdn : dn = (u.reg (encOff n + 0x14)).toNat) :
    ∃ t, s.encSpeedWrite n off v = t ∧
      (t.reg (encOff n + 0x14)).toNat = (if dn < up then dn else up * 7 / 8) ∧
      (∀ o, o ≠ encOff n + 0x14 → t.reg o = u.reg o) ∧
      (up ≤ dn → t.lastCode (encOff n + 0x28) = 0x1101#16) ∧ (dn < up → t.log = u.log) ∧
      (∀ m, m ≠ n.val → t.axis m = u.axis m) ∧ t = { u with regs := t.regs, log := t.log, axes := t.axes } := by
  by_cases h : dn < up
  · obtain ⟨x, hx, hm⟩ := judged_frame u n
    have ht : s.encSpeedWrite n off v = { u with axes := x } := by
      simp only [encSpeedWrite, hu, ← hup, ← hdn, h, if_true]
      exact hx
    exact ⟨_, ht, by rw [if_pos h, hdn]; rfl, fun _ _ => rfl, fun hle => by omega, fun _ => rfl, hm, rfl⟩
  · obtain ⟨l, hl, hcode⟩ := reportLast_frame (u.setReg (encOff n + 0x14) (BitVec.ofNat 32 (up * 7 / 8)))
      0x1101#16 1 (encOff n + 0x14) 31 0 dn (up * 7 / 8) 1 n
    obtain ⟨x, hx, hm⟩ := judged_frame { u.setReg (encOff n + 0x14) (BitVec.ofNat 32 (up * 7 / 8)) with log := l } n
    have ht : s.encSpeedWrite n off v =
        { u.setReg (encOff n + 0x14) (BitVec.ofNat 32 (up * 7 / 8)) with axes := x, log := l } := by
      simp only [encSpeedWrite, hu, ← hup, ← hdn, h, if_false]
      rw [hl]
      exact hx
    have hlt : up * 7 / 8 < 2 ^ 32 := by have := (u.reg (encOff n + 0x10)).isLt; omega
    refine ⟨_, ht, ?_, fun o ho => reg_setReg_other u _ o _ ho, fun _ => hcode _ (by simp), fun hd => absurd hd h, hm, rfl⟩
    rw [if_neg h]
    exact (congrArg BitVec.toNat (reg_setReg_same u _ _)).trans (by rw [BitVec.toNat_ofNat, Nat.mod_eq_of_lt hlt])

/-- The registers of an axis that hold one whole word (R34, R35, R27). -/
theorem regSpec_axisWords (n : Fin 4) :
    regSpec (encOff n + 0x0C) = some (reg1 0x0C 0x1101#16 (fldC .rw 31 0 10 10000) 0x3E8#32) ∧
    regSpec (encOff n + 0x10) = some (reg1 0x10 0x1101#16 (Machine.fld .rw 31 0) 0xF4240#32) ∧
    regSpec (encOff n + 0x14) = some (reg1 0x14 0x1101#16 (Machine.fld .rw 31 0) 0xC3500#32) ∧
    regSpec (encOff n + 0x18) = some (reg1 0x18 0x1101#16 (fldC .rw 31 0 1 10000) 0x64#32) ∧
    regSpec (encOff n + 0x3C) = some (reg1 0x3C 0x1101#16 (Machine.fld .rw 31 0)) := by
  revert n; decide

/-- A host write of `SPD_UP` or `SPD_DOWN`. -/
theorem setupWrite_axisSpeed {s : State} {n : Fin 4} {d : Nat} {w : Word} (v : Word) (ha : s.answers 0 (encOff n + d) = true)
    (hd : d = 0x10 ∨ d = 0x14) (hr : regSpec (encOff n + d) = some (reg1 d 0x1101#16 (Machine.fld .rw 31 0) w)) :
    exec (.setupWrite 0 (encOff n + d) v) s = .next (s.encSpeedWrite n (encOff n + d) v) ∧
      s.plainWrite (encOff n + d) v = s.setReg (encOff n + d) v := by
  have hx := setupWrite_axis v ha (by omega) (by omega) hr rfl
  rw [encWrite_axis s n d v (by omega), if_neg (by omega), if_neg (by omega), if_pos hd] at hx
  exact ⟨hx, writeFields_word s _ _ v hr rfl⟩

end State
end Sys2Proof.Machine

open Sys2Proof Sys2Proof.Machine Sys2Proof.Machine.State in
/-- Settles O7: a whole-word field takes the clamped value, and `SPD_DOWN` is lowered where it is not below `SPD_UP`. -/
theorem setupWriteAppliesFieldChecks : Obligations.SetupWriteAppliesFieldChecks := by
  unfold Obligations.SetupWriteAppliesFieldChecks
  refine ⟨fun s n v d lo hi hm ha => ?_, fun s n v up dn ha hup hdn => ?_, fun s n v up dn ha hdn hup => ?_⟩
  all_goals obtain ⟨r0C, r10, r14, r18, r3C⟩ := regSpec_axisWords n
  · simp only [List.mem_cons, Prod.mk.injEq, List.not_mem_nil, or_false] at hm
    obtain ⟨rfl, rfl, rfl⟩ | ⟨rfl, rfl, rfl⟩ | ⟨rfl, rfl, rfl⟩ := hm
    · exact setupWrite_axisClamped v ha (by simp) r0C (fldC_takesClamped _ _ _) (by omega)
    · exact setupWrite_axisClamped v ha (by simp) r18 (fldC_takesClamped _ _ _) (by omega)
    · exact setupWrite_axisClamped v ha (by simp) r3C (fld_takesClamped _) (by omega)
  · obtain ⟨hx, hu⟩ := setupWrite_axisSpeed v ha (.inl rfl) r10
    have h14 : (s.setReg (encOff n + 0x10) v).reg (encOff n + 0x14) = s.reg (encOff n + 0x14) :=
      reg_setReg_other s _ _ v (by omega)
    obtain ⟨t, ht, hdown, hregs, hcode, hlog, haxes, hframe⟩ := encSpeedWrite_leaves (n := n) (up := up) (dn := dn) hu
      (by rw [reg_setReg_same]; exact hup) (by rw [h14]; exact hdn)
    exact ⟨t, ht ▸ hx, (hregs _ (by omega)).trans (reg_setReg_same s _ v), hdown,
      fun o h1 h2 => (hregs o h2).trans (reg_setReg_other s _ o v h1), hcode, hlog, haxes, hframe⟩
  · obtain ⟨hx, hu⟩ := setupWrite_axisSpeed v ha (.inr rfl) r14
    have h10 : (s.setReg (encOff n + 0x14) v).reg (encOff n + 0x10) = s.reg (encOff n + 0x10) :=
      reg_setReg_other s _ _ v (by omega)
    obtain ⟨t, ht, hdown, hregs, hcode, hlog, haxes, hframe⟩ := encSpeedWrite_leaves (n := n) (up := up) (dn := dn) hu
      (by rw [h10]; exact hup) (by rw [reg_setReg_same]; exact hdn)
    exact ⟨t, ht ▸ hx, hdown, fun o ho => (hregs o ho).trans (reg_setReg_other s _ o v ho), hcode, hlog, haxes, hframe⟩
end

