-- ==== Sys2Proof/Proofs/CounterReads.lean ====
section
/-! SUPPORT. Reads of RC counters (R8, R443): from offset 0x2D0000 on, the model reads PF0's registers that no unit shows out of
the table of register words, where the words of the MSI-X table are kept, also where a counter stands. -/

open Sys2Proof.Machine

/-- Refutes O10: `roceRequestEff` counts at 0x2E0020 the requests that meet an idle queue pair of a peer; after one of them the
counter there is 1, and a read of it returns 0. -/
theorem not_counterReadClearsOnce : ¬ Obligations.CounterReadClearsOnce := by
  unfold Obligations.CounterReadClearsOnce
  rintro ⟨-, hread⟩
  have hshown := hread (State.reset.bump 0x2E0020 1) 0x2E0020 rfl rfl (by simp)
  have hzero : (State.reset.bump 0x2E0020 1).readReg 0 0x2E0020 = 0#32 := by decide
  have hcount : (State.reset.bump 0x2E0020 1).counter 0x2E0020 = 1#32 := by decide
  rw [hzero, hcount] at hshown
  exact absurd hshown (by decide)
end

