-- ==== Sys2Proof/Proofs/FieldSection.lean ====
section
/-! SUPPORT. The field section (R277 to R291): which windows a post opens, and what each of its commands leaves. -/

namespace Sys2Proof.Machine

/-! ## The windows of posts (R476) -/

theorem findWindow_append (k : Nat) (l m : List (Nat × EventWindow)) :
    findWindow k (l ++ m) = (findWindow k l).or (findWindow k m) := by
  induction l with
  | nil => rfl
  | cons p r ih =>
    obtain ⟨a, w⟩ := p
    by_cases h : a = k
    · simp [findWindow, h]
    · simp [findWindow, h, ih]

theorem findWindow_filter (k j : Nat) (l : List (Nat × EventWindow)) :
    findWindow k (l.filter (fun p => p.1 ≠ j)) = if k = j then none else findWindow k l := by
  induction l with
  | nil => simp [findWindow]
  | cons p r ih =>
    obtain ⟨a, w⟩ := p
    by_cases h : a = j
    · rw [List.filter_cons_of_neg (by simp [h]), ih]
      by_cases hk : k = j
      · simp [hk]
      · simp [hk, findWindow, h, Ne.symm hk]
    · rw [List.filter_cons_of_pos (by simp [h])]
      by_cases hk : a = k
      · subst hk; simp [findWindow, h]
      · simp only [findWindow, hk, if_false, ih]

theorem findWindow_putWindow (k j : Nat) (w : EventWindow) (l : List (Nat × EventWindow)) :
    findWindow k (putWindow j (some w) l) = if k = j then some w else findWindow k l := by
  rw [putWindow, findWindow_append, findWindow_filter]
  by_cases h : k = j
  · simp [h, findWindow]
  · simp [h, findWindow, Ne.symm h]

@[simp] theorem Log.interrupt_windows (l : Log) (now fn i : Nat) : (l.interrupt now fn i).windows = l.windows := by
  simp only [Log.interrupt]; split
  · simp only [Log.sendVector]; (repeat' split) <;> rfl
  · rfl

@[simp] theorem Log.writeRecord_windows (l : Log) (now fn i : Nat) (q : Bool) (b : List Byte) :
    (l.writeRecord now fn i q b).windows = l.windows := by
  simp only [Log.writeRecord, Log.interrupt_windows]; rfl

@[simp] theorem Log.eventTo_windows (l : Log) (st : Stamp) (fn : Nat) (c : Half) (k i n : Nat) (p : List Byte) :
    (l.eventTo st fn c k i n p).windows = l.windows := by
  simp only [Log.eventTo]; (repeat' split)
  · rfl
  · exact Log.writeRecord_windows ..
  · rfl

@[simp] theorem Log.post_windows (l : Log) (st : Stamp) (vf : Option Nat) (c : Half) (k i n : Nat) (p : List Byte) :
    (l.post st vf c k i n p).windows = l.windows := by
  simp only [Log.post]
  cases vf <;> simp only [Log.eventTo_windows] <;> split <;> rfl

/-- A windowed post leaves its own window open, and every other as it was. -/
theorem Log.postWindowed_findWindow (l : Log) (st : Stamp) (vf : Option Nat) (c : Half) (k i n : Nat) (p : List Byte) (j : Nat) :
    (findWindow j (l.postWindowed st vf c k i n p).windows).isSome =
      (decide (j = windowKey c k i) || (findWindow j l.windows).isSome) := by
  simp only [Log.postWindowed]
  split <;> simp only [Log.post_windows, findWindow_putWindow] <;> split <;> simp_all

namespace State

/-- A code raised opens the window of its code and source. -/
theorem codeWindow_raise_same (s : State) (c : Half) (k i n : Nat) (p : List Byte) : (s.raise c k i n p).codeWindow c k i = true := by
  simp only [codeWindow, raise, Log.postWindowed_findWindow, decide_true, Bool.true_or]

/-- A code raised closes no window. -/
theorem codeWindow_raise_keeps {s : State} {c : Half} {k i : Nat} (h : s.codeWindow c k i = true) (c' : Half) (k' i' n : Nat)
    (p : List Byte) : (s.raise c' k' i' n p).codeWindow c k i = true := by
  simp only [codeWindow] at h
  simp only [codeWindow, raise, Log.postWindowed_findWindow, Bool.or_eq_true]
  exact .inr h

/-! ## The field section is fitted on a TXM-860 -/

theorem fitted {s : State} (hv : s.variantN = false) (u : State) : (if s.variantN then s else u) = u := by simp [hv]

/-- A register of the field section answers only where the section is fitted (R2). -/
theorem variantN_of_answers {s : State} {off : Nat} (ha : s.answers 0 off = true) (h : off / 0x10000 = 0x29) : s.variantN = false := by
  simp only [answers, absentUnit, h, Bool.and_eq_true, Bool.not_eq_true', decide_true, Bool.and_true] at ha
  exact ha.2

/-- The status registers of a source of the field section that is no valve bank. -/
theorem lastCodeKeys_field (c : Half) {i : Nat} (h : i < 0x20 ∨ 0x22 ≤ i) : lastCodeKeys c 0x08 i = [0x290000] := by
  simp only [lastCodeKeys]; rw [if_neg (by omega)]

/-- The status register of a valve bank. -/
theorem lastCodeKeys_bank (c : Half) (b : Fin 2) : lastCodeKeys c 0x08 (0x20 + b) = [0x290404 + 0x100 * b.val] := by
  have := b.isLt
  simp only [lastCodeKeys]; rw [if_pos (by omega), Nat.add_sub_cancel_left]

theorem diOff_block (i : Fin 16) : diOff i / 0x10000 = 0x29 := by have := i.isLt; simp only [diOff]; omega

/-! ## Inputs (R280, R281) -/

/-- An input whose filter has come to another level. -/
theorem diFilteredEdge_leaves {s : State} {i : Fin 16} {level : Bool} (hv : s.variantN = false) (hh : s.htlUsed i = false)
    (ho : (s.di i).out ≠ level) :
    ∃ t, exec (.diFilteredEdge i level) s = .next t ∧ (t.di i).out = level ∧ (∀ m, m ≠ i.val → t.di m = s.di m) ∧
      (bit (s.reg (diOff i)) 31 = true → (if level then bit (s.reg (diOff i)) 28 else bit (s.reg (diOff i)) 29) = true →
        (s.field.fifo.length < 256 → t.field = { s.field with fifo := s.field.fifo ++ [s.diEntry i level] } ∧ t.log = s.log ∧
          t.counters = s.counters) ∧
        (256 ≤ s.field.fifo.length → t.field = s.field ∧ t.counter 0x290014 = satAdd (s.counter 0x290014) 1 ∧
          t.lastCode 0x290000 = 0x3D01#16)) ∧
      (bit (s.reg (diOff i)) 31 = false → t.field = s.field ∧ t.log = s.log) ∧
      t = { s with dis := t.dis, field := t.field, counters := t.counters, log := t.log } := by
  have he : exec (.diFilteredEdge i level) s = .next (s.diEdgeEff i level) := congrArg Host.Outcome.next (fitted hv _)
  have hn : ¬ (s.variantN = true ∨ s.htlUsed i = true ∨ (s.di i).out = level) := by simp [hv, hh, ho]
  rw [diEdgeEff, if_neg hn] at he
  have same (d : Di) : (s.setDi i d).di i = d := setDi_same s i d
  have other (d : Di) (m : Nat) (hm : m ≠ i.val) : (s.setDi i d).di m = s.di m := setDi_other s i m d hm
  by_cases hw : (bit (s.reg (diOff i)) 31 && (if level then bit (s.reg (diOff i)) 28 else bit (s.reg (diOff i)) 29)) = true
  · have h31 : bit (s.reg (diOff i)) 31 = true := by revert hw; cases bit (s.reg (diOff i)) 31 <;> simp
    by_cases hl : s.field.fifo.length < 256
    · have ht := he.trans (congrArg Host.Outcome.next ((if_neg (not_not.2 hw)).trans (if_pos hl)))
      exact ⟨_, ht, congrArg Di.out (same _), other _, fun _ _ => ⟨fun _ => ⟨rfl, rfl, rfl⟩, fun h => absurd hl (by omega)⟩,
        fun h => by simp [h31] at h, rfl⟩
    · have ht := he.trans (congrArg Host.Outcome.next ((if_neg (not_not.2 hw)).trans (if_neg hl)))
      refine ⟨_, ht, congrArg Di.out (same _), other _, fun _ _ => ⟨fun h => absurd h hl, fun _ => ⟨rfl, ?_, ?_⟩⟩,
        fun h => by simp [h31] at h, rfl⟩
      · rw [raise_counter, bump_same]; rfl
      · rw [lastCode_raise, lastCodeKeys_field _ (.inl (by omega))]; simp
  · have ht := he.trans (congrArg Host.Outcome.next (if_pos hw))
    refine ⟨_, ht, congrArg Di.out (same _), other _, fun h1 h2 => ?_, fun _ => ⟨rfl, rfl⟩, rfl⟩
    rw [h1, h2] at hw
    exact absurd rfl hw


theorem bit_eq_of_bits {w v : Word} {n : Nat} (h : bits w n n = bits v n n) : bit w n = bit v n := by
  rw [bit_bits, bit_bits] at h
  cases hw : bit w n <;> cases hv : bit v n <;> simp [hw, hv] at h ⊢

/-- `DIi_CFG` (R280): the filter's time, polarity, edges and EN. -/
theorem regSpec_di (i : Fin 16) : regSpec (diOff i) = regsDi.head? := by revert i; decide

/-- A write of `DIi_CFG` of an input that no HTL axis uses. -/
theorem diCfgWrite_leaves {s : State} {i : Fin 16} (v : Word) (ha : s.answers 0 (diOff i) = true) (hh : s.htlUsed i = false) :
    ∃ t, exec (.diCfgWrite i v) s = .next t ∧ t.di i = { s.di i with out := false } ∧
      t.fld (diOff i) 15 0 = max 1 (bits v 15 0) ∧ t.flag (diOff i) 31 = bit v 31 ∧
      (∀ o, o ≠ diOff i → o ≠ 0x200010 → t.reg o = s.reg o) ∧
      (∀ m, m ≠ i.val → t.di m = s.di m) ∧ t.field = s.field ∧
      t = { s with regs := t.regs, dis := t.dis, counters := t.counters, log := t.log } := by
  have hv := variantN_of_answers ha (diOff_block i)
  have he : exec (.diCfgWrite i v) s = .next (s.diCfgWriteEff i v) :=
    congrArg Host.Outcome.next (gate_answers s 0 (diOff i) v _ ha)
  have hoff : diOff i ≠ 0x200010 := by simp only [diOff]; omega
  have hfld := writeFields_fld s (diOff i) 0x08 i v _ (regSpec_di i) hoff (by decide)
  have hreg := writeFields_reg_other s (diOff i) 0x08 i
  obtain ⟨r, c, l, hw⟩ := writeFields_frame s (diOff i) 0x08 i v
  simp only [diCfgWriteEff, hv, hh, Bool.false_and, Bool.false_eq_true, if_false] at he
  rw [hw] at he hfld
  have hx : bits v 15 0 < 2 ^ 16 := bits_lt v 15 0
  refine ⟨_, he, setDi_same _ i _, ?_, bit_eq_of_bits ?_, fun o h1 h2 => ?_, fun m hm => setDi_other _ i m _ hm, rfl, rfl⟩
  · refine (hfld (fldC .rw 15 0 1 65535) (by decide)).trans ?_
    have hc : clampNat 1 65535 (bits v 15 0) = max 1 (bits v 15 0) := by simp only [clampNat]; split_ifs <;> omega
    simp only [applyField, fldC, reduceCtorEq, false_and, if_false, hc]
    split <;> rw [bits_putBits_same _ _ _ _ (by omega) (by omega)] <;> omega
  · refine (hfld (Machine.fld .rw 31 31) (by decide)).trans ?_
    simp only [applyField, Machine.fld, reduceCtorEq, false_and, if_false]
    rw [bits_putBits_same _ _ _ _ (by omega) (by omega)]
    exact Nat.mod_eq_of_lt (bits_lt v 31 31)
  · rw [← hreg o v h1 h2, hw]; rfl

/-- The oldest input event dropped. -/
theorem diEvtPop_leaves {s : State} {v : Word} (ha : s.answers 0 0x290010 = true) (h0 : bit v 0 = true) :
    ∃ t, exec (.diEvtPop v) s = .next t ∧ t.field = { s.field with fifo := s.field.fifo.drop 1 } ∧ t = { s with field := t.field } := by
  have he : exec (.diEvtPop v) s = .next (s.diEvtPopEff v) := congrArg Host.Outcome.next (gate_answers s 0 0x290010 v _ ha)
  rw [diEvtPopEff, if_pos (by simp [h0, variantN_of_answers ha rfl])] at he
  exact ⟨_, he, rfl, rfl⟩

/-! ## Codes raised where a condition holds -/

/-- What a code raised only where `b` holds leaves: the log alone changes; it shows the code and its open window where `b`
holds, and no window that was open has closed. -/
theorem raiseIf_leaves (u : State) (b : Prop) [Decidable b] (c : Half) (k i : Nat) :
    ∃ l, (if b then u.raise c k i else u) = { u with log := l } ∧
      (b → ∀ o, o ∈ lastCodeKeys c k i → tget 0 l.lastCodes o = c) ∧
      (∀ c' k' i', u.codeWindow c' k' i' = true → (findWindow (windowKey c' k' i') l.windows).isSome = true) := by
  by_cases h : b
  · refine ⟨(u.raise c k i).log, if_pos h, fun _ o ho => ?_, fun c' k' i' hw => codeWindow_raise_keeps hw c k i 1 []⟩
    exact (lastCode_raise u c k i 1 [] o).trans (if_pos ho)
  · exact ⟨u.log, if_neg h, fun hb => absurd hb h, fun _ _ _ hw => hw⟩

/-! ## Field supply (R278) -/

/-- `UV` after a sample of `x` mV: set above 33 V or below 18 V for 1 ms, cleared within the limits for 10 ms. -/
def uvAfter (s : State) (x : Nat) : Bool :=
  if decide (33000 < x) || (match (if x < 18000 then some (s.field.lowSince.getD s.now) else none) with
      | none => false | some t => decide (1000000 ≤ s.now - t)) then true
  else if (match (if decide (19200 ≤ x) && decide (x ≤ 30000) then some (s.field.goodSince.getD s.now) else none) with
      | none => false | some t => decide (10000000 ≤ s.now - t)) then false
  else s.field.uv

theorem uvAfter_over {s : State} {x : Nat} (h : 33000 < x) : s.uvAfter x = true := by simp [uvAfter, h]

theorem uvAfter_back {s : State} {x a : Nat} (hg : s.field.goodSince = some a) (h1 : 19200 ≤ x) (h2 : x ≤ 30000)
    (h3 : 10000000 ≤ s.now - a) : s.uvAfter x = false := by
  have hl : ¬ x < 18000 := by omega
  have ho : ¬ 33000 < x := by omega
  simp [uvAfter, hl, ho, h1, h2, hg, h3]

theorem supplySampleEff_leaves {s : State} (x : Nat) (hv : s.variantN = false) : ∃ f, f.supply = x ∧
    f.ok = (decide (19200 ≤ x) && decide (x ≤ 30000)) ∧ f.fifo = s.field.fifo ∧ f.uv = s.uvAfter x ∧
    s.supplySampleEff x = if s.uvAfter x && !s.field.uv then ({ s with field := f } : State).raise 0x5D04#16 0x08 0xFF
      else { s with field := f } := by
  refine ⟨{ s.field with
    supply := x, ok := decide (19200 ≤ x) && decide (x ≤ 30000), uv := s.uvAfter x
    lowSince := if x < 18000 then some (s.field.lowSince.getD s.now) else none
    goodSince := if decide (19200 ≤ x) && decide (x ≤ 30000) then some (s.field.goodSince.getD s.now) else none },
    rfl, rfl, rfl, rfl, ?_⟩
  rw [supplySampleEff, if_neg (by simp [hv])]
  rfl

/-- A sample of the field supply. -/
theorem fieldSupplySample_leaves {s : State} {mV : Half} (hv : s.variantN = false) :
    ∃ t, exec (.fieldSupplySample mV) s = .next t ∧ t.field.supply = mV.toNat ∧
      t.field.ok = decide (19200 ≤ mV.toNat ∧ mV.toNat ≤ 30000) ∧ t.field.fifo = s.field.fifo ∧
      (33000 < mV.toNat → t.field.uv = true ∧ (s.field.uv = false → t.lastCode 0x290000 = 0x5D04#16)) ∧
      (∀ a, s.field.goodSince = some a → 19200 ≤ mV.toNat → mV.toNat ≤ 30000 → 10000000 ≤ s.now - a → t.field.uv = false) ∧
      t = { s with field := t.field, log := t.log } := by
  have he : exec (.fieldSupplySample mV) s = .next (s.supplySampleEff mV.toNat) := congrArg Host.Outcome.next (fitted hv _)
  obtain ⟨f, hsupply, hok, hfifo, huv, hf⟩ := supplySampleEff_leaves mV.toNat hv
  obtain ⟨l, hl, hcode, -⟩ := raiseIf_leaves { s with field := f } ((s.uvAfter mV.toNat && !s.field.uv) = true) 0x5D04#16 0x08 0xFF
  rw [hf, hl] at he
  refine ⟨_, he, hsupply, hok.trans (Bool.decide_and _ _).symm, hfifo, fun h => ⟨huv.trans (uvAfter_over h), fun h0 => ?_⟩,
    fun a hg h1 h2 h3 => huv.trans (uvAfter_back hg h1 h2 h3), rfl⟩
  refine hcode ?_ _ ?_
  · simp [uvAfter_over h, h0]
  · rw [lastCodeKeys_field _ (.inr (by omega))]; simp

/-! ## Outputs (R284, R285) -/

theorem leadOf_le (s : State) (n : Nat) : s.leadOf n ≤ n := by
  simp only [leadOf]; split <;> omega

/-- An output whose own pin has tripped is off. -/
theorem doLevel_of_tripped {s : State} {n : Fin 16} (h : (s.doPin n).tripped = true) : s.doLevel n = false := by
  have hm : n.val ∈ s.groupOf n := by simp [groupOf, n.isLt]
  have hany : (s.groupOf n).any (fun m => (s.doPin m).tripped || (s.doPin m).latched) = true :=
    List.any_eq_true.2 ⟨_, hm, by simp [h]⟩
  simp [doLevel, hany]

/-- The pin of an output that leads its group, tripped now. -/
def trippedPin (s : State) (n : Nat) : DoPin :=
  { s.doPin n with
    tripped := true
    tripTimes := s.now :: (s.doPin n).tripTimes.filter (fun a => decide (s.now - a < 1000000000))
    latched := (s.doPin n).latched ||
      decide (3 ≤ ((s.doPin n).tripTimes.filter (fun a => decide (s.now - a < 1000000000))).length + 1) }

/-- The outputs after a thermal shutdown of such an output, before its codes are raised. -/
def trippedState (s : State) (n : Nat) : State := (s.setDoPin n { s.doPin n with tripped := true }).setDoPin n (s.trippedPin n)

theorem trippedState_doPin (s : State) (n m : Nat) :
    (s.trippedState n).doPin m = if m = n then s.trippedPin n else s.doPin m := by
  by_cases hm : m = n
  · subst hm
    exact (setDoPin_same ..).trans (if_pos rfl).symm
  · rw [if_neg hm]
    exact (setDoPin_other _ _ _ _ hm).trans (setDoPin_other _ _ _ _ hm)

theorem doShutdownEff_lead {s : State} {n : Nat} (hv : s.variantN = false) (hon : s.doLevel n = true) (hlead : s.leadOf n = n) :
    ∃ l, s.doShutdownEff n = { (s.trippedState n).bump 0x290218 1 with log := l } ∧
      (findWindow (windowKey 0x5D01#16 0x08 (0x10 + n)) l.windows).isSome = true := by
  have hs : s.doShutdownEff n =
      if decide (3 ≤ ((s.doPin n).tripTimes.filter (fun a => decide (s.now - a < 1000000000))).length + 1) then
        (((s.trippedState n).bump 0x290218 1).raise 0x5D01#16 0x08 (0x10 + n)).raise 0x5D02#16 0x08 (0x10 + n)
      else ((s.trippedState n).bump 0x290218 1).raise 0x5D01#16 0x08 (0x10 + n) := by
    rw [doShutdownEff, if_neg (by simp [hv, hon])]
    simp only [hlead, setDoPin_same, trippedState, trippedPin]
    rfl
  obtain ⟨l, hl, -, hwin⟩ := raiseIf_leaves (((s.trippedState n).bump 0x290218 1).raise 0x5D01#16 0x08 (0x10 + n))
    (decide (3 ≤ ((s.doPin n).tripTimes.filter (fun a => decide (s.now - a < 1000000000))).length + 1) = true)
    0x5D02#16 0x08 (0x10 + n)
  exact ⟨l, hs.trans hl, hwin _ _ _ (codeWindow_raise_same ..)⟩

/-- A thermal shutdown of an output that leads its group and is on. -/
theorem doThermalShutdown_leaves {s : State} {n : Fin 16} (hv : s.variantN = false) (hon : s.doLevel n = true)
    (hlead : s.leadOf n = n.val) :
    ∃ t, exec (.doThermalShutdown n) s = .next t ∧ (t.doPin n).tripped = true ∧ t.doLevel n = false ∧
      (t.doPin n).tripTimes = s.now :: (s.doPin n).tripTimes.filter (fun a => decide (s.now - a < 1000000000)) ∧
      (t.doPin n).latched = ((s.doPin n).latched ||
        decide (3 ≤ ((s.doPin n).tripTimes.filter (fun a => decide (s.now - a < 1000000000))).length + 1)) ∧
      t.counter 0x290218 = satAdd (s.counter 0x290218) 1 ∧ t.codeWindow 0x5D01#16 0x08 (0x10 + n.val) = true ∧
      (∀ m, m ≠ n.val → t.doPin m = s.doPin m) ∧ t = { s with dos := t.dos, counters := t.counters, log := t.log } := by
  have he : exec (.doThermalShutdown n) s = .next (s.doShutdownEff n) := congrArg Host.Outcome.next (fitted hv _)
  obtain ⟨l, hs, hwin⟩ := doShutdownEff_lead hv hon hlead
  rw [hs] at he
  have hpin := trippedState_doPin s n
  have hn : (s.trippedState n).doPin n = s.trippedPin n := (hpin n).trans (if_pos rfl)
  exact ⟨_, he, congrArg DoPin.tripped hn, doLevel_of_tripped (congrArg DoPin.tripped hn), congrArg DoPin.tripTimes hn,
    congrArg DoPin.latched hn, bump_same s 0x290218 1, hwin, fun m hm => (hpin m).trans (if_neg hm), rfl⟩

/-- An output that has cooled. -/
theorem doThermalRestart_leaves {s : State} {n : Fin 16} (hv : s.variantN = false) :
    ∃ t, exec (.doThermalRestart n) s = .next t ∧ t.doPin n = { s.doPin n with tripped := false } ∧
      (∀ m, m ≠ n.val → t.doPin m = s.doPin m) ∧ t = { s with dos := t.dos } :=
  ⟨_, congrArg Host.Outcome.next (fitted hv _), setDoPin_same s n _, fun m hm => setDoPin_other s n m _ hm, rfl⟩

theorem mem_maskBits_word (v : Word) (n : Nat) : n ∈ maskBits 16 (bits v 15 0) ↔ n < 16 ∧ bit v n = true := by
  have h := bits_testBit v 15 0 n
  rw [Nat.testBit_eq_decide_div_mod_eq, Nat.zero_add, ← bit_eq] at h
  simp only [maskBits, List.mem_filter, List.mem_range, h]
  by_cases hn : n < 16 <;> simp [hn]

/-- Latches cleared: the outputs named, and no other. -/
theorem clearLatches_leaves (s : State) (l : List Nat) :
    (∀ n, (s.clearLatches l).doPin n = if n ∈ l then { s.doPin n with latched := false, tripTimes := [] } else s.doPin n) ∧
    ∃ d, s.clearLatches l = { s with dos := d } := by
  induction l generalizing s with
  | nil => exact ⟨fun _ => rfl, s.dos, rfl⟩
  | cons a r ih =>
    obtain ⟨hpin, d, hd⟩ := ih (s.setDoPin a { s.doPin a with latched := false, tripTimes := [] })
    refine ⟨fun n => ?_, d, hd⟩
    rw [clearLatches, hpin]
    by_cases h : n = a
    · subst h; simp
    · simp [h, setDoPin_other _ _ _ _ h]

/-- `DO_CLEAR`. -/
theorem doClear_leaves {s : State} {v : Word} (ha : s.answers 0 0x290210 = true) :
    ∃ t, exec (.doClear v) s = .next t ∧
      (∀ n, t.doPin n = if n < 16 ∧ bit v n = true then { s.doPin n with latched := false, tripTimes := [] } else s.doPin n) ∧
      t = { s with dos := t.dos } := by
  have he : exec (.doClear v) s = .next (s.doClearEff v) := congrArg Host.Outcome.next (gate_answers s 0 0x290210 v _ ha)
  obtain ⟨hpin, d, hd⟩ := clearLatches_leaves s (maskBits 16 (bits v 15 0))
  simp only [mem_maskBits_word] at hpin
  rw [doClearEff, variantN_of_answers ha rfl, if_neg (by simp), hd] at he
  rw [hd] at hpin
  exact ⟨_, he, hpin, rfl⟩

/-- The onset of a readback mismatch. -/
theorem doMismatch_leaves {s : State} {n : Fin 16} (hv : s.variantN = false) (hq : s.doQuiet n = false) :
    ∃ t, exec (.doMismatch n) s = .next t ∧ t.doPin n = { s.doPin n with readback := some (!s.doLevel n) } ∧
      t.flag 0x290214 n = true ∧ t.lastCode 0x290000 = 0x5D03#16 ∧ (∀ m, m ≠ n.val → t.doPin m = s.doPin m) ∧
      (∀ o, o ≠ 0x290214 → t.reg o = s.reg o) ∧ t = { s with dos := t.dos, regs := t.regs, log := t.log } := by
  have he : exec (.doMismatch n) s = .next (s.doMismatchEff n) := congrArg Host.Outcome.next (fitted hv _)
  rw [doMismatchEff, if_neg (by simp [hv, hq])] at he
  have hn := n.isLt
  have hlead := leadOf_le s n
  refine ⟨_, he, setDoPin_same _ n.val _, ?_, ?_, fun m hm => setDoPin_other _ _ _ _ hm,
    fun o ho => setFld_reg_other _ _ _ _ _ _ ho, rfl⟩
  · exact (congrArg (bit · n) (setFld_reg_same _ 0x290214 n n 1)).trans (bit_putBits_same _ _ 1 (by omega : n.val < 32))
  · rw [lastCode_raiseNow, if_pos]
    exact ⟨by decide, by simp [lastCodeKeys_field _ (.inl (by omega : 0x10 + s.leadOf n < 0x20))]⟩


/-! ## Valve frames (R287, R288) -/

theorem length_bitBytes (k : Nat) (l : List Bool) : (bitBytes k l).length = k := by
  induction k generalizing l with
  | zero => rfl
  | succ k ih => rw [bitBytes, List.length_cons, ih]

/-- A bank whose last frame is number `q`: 18 bytes that begin with the number, and their CRC. -/
def FrameSent (q : Byte) (x : Bank) : Prop :=
  ∃ body, body.length = 18 ∧ x.frame = body ++ [BitVec.ofNat 8 (crc16 body / 256), BitVec.ofNat 8 (crc16 body % 256)] ∧
    body.head? = some q ∧ x.awaiting = some q

theorem frameSent_of_channels {q : Byte} {x : Bank} (c : Nat) (l : List Bool) {body : List Byte}
    (hb : body = leBytes 1 q.toNat ++ leBytes 1 c ++ bitBytes 16 l)
    (hf : x.frame = body ++ [BitVec.ofNat 8 (crc16 body / 256), BitVec.ofNat 8 (crc16 body % 256)])
    (ha : x.awaiting = some q) : FrameSent q x := by
  refine ⟨body, ?_, hf, ?_, ha⟩
  · simp [hb, leBytes, length_bitBytes]
  · have hq : BitVec.ofNat 8 (q.toNat % 256) = q := by bv_omega
    simp [hb, leBytes, hq]

/-- The frame of an enabled bank: the bank sent one, and is counted; a silent Valve unit is counted too. -/
theorem bankFrame_on {s : State} {b : Nat} (hon : s.vbOn b = true) : ∃ x, FrameSent s.field.frameSeq x ∧
    s.bankFrame b = if (!s.fs.beating) = true then ((s.setBank b x).bump (vbOff b + 0x20) 1).bump (vbOff b + 0x38) 1
      else (s.setBank b x).bump (vbOff b + 0x20) 1 := by
  refine ⟨_, ?_, if_neg (not_not.2 hon)⟩
  exact frameSent_of_channels _ _ rfl rfl rfl

theorem bankFrame_off {s : State} {b : Nat} (h : s.vbOn b = false) : s.bankFrame b = s := if_pos (by simp [h])

theorem bankFrame_sent {s : State} {b : Nat} (hon : s.vbOn b = true) :
    FrameSent s.field.frameSeq ((s.bankFrame b).bank b) ∧
      (s.bankFrame b).counter (vbOff b + 0x20) = satAdd (s.counter (vbOff b + 0x20)) 1 := by
  obtain ⟨x, hx, hs⟩ := bankFrame_on hon
  have hbank : (s.setBank b x).bank b = x := setBank_same ..
  rw [hs]
  split
  · exact ⟨hbank.symm ▸ hx, (bump_other _ _ _ _ (by omega)).trans (bump_same ..)⟩
  · exact ⟨hbank.symm ▸ hx, bump_same ..⟩

/-- A bank's frame leaves the other bank, every counter but two of its own block, and all but banks and counters. -/
theorem bankFrame_frame (s : State) (b : Nat) :
    s.bankFrame b = { s with banks := (s.bankFrame b).banks, counters := (s.bankFrame b).counters } ∧
    (∀ m, m ≠ b → (s.bankFrame b).bank m = s.bank m) ∧
    (∀ o, o ≠ vbOff b + 0x20 → o ≠ vbOff b + 0x38 → (s.bankFrame b).counter o = s.counter o) := by
  by_cases hon : s.vbOn b = true
  · obtain ⟨x, -, hs⟩ := bankFrame_on hon
    rw [hs]
    split
    · exact ⟨rfl, fun m hm => setBank_other s b m x hm,
        fun o h1 h2 => (bump_other _ _ _ _ h2).trans (bump_other _ _ _ _ h1)⟩
    · exact ⟨rfl, fun m hm => setBank_other s b m x hm, fun o h1 _ => bump_other _ _ _ _ h1⟩
  · rw [bankFrame_off (by simpa using hon)]
    exact ⟨rfl, fun _ _ => rfl, fun _ _ _ => rfl⟩

/-- A frame of the cadence. -/
theorem valveFrame_leaves {s : State} (hv : s.variantN = false) :
    (s.now - s.field.frameAt < 2000 → exec .valveFrame s = .next s) ∧
    (2000 ≤ s.now - s.field.frameAt →
      ∃ t, exec .valveFrame s = .next t ∧ t.field.frameAt = s.now ∧ t.field.frameSeq = s.field.frameSeq + 1 ∧
        (∀ b, b < 2 → s.vbOn b = true → ∃ body, body.length = 18 ∧
          (t.bank b).frame = body ++ [BitVec.ofNat 8 (crc16 body / 256), BitVec.ofNat 8 (crc16 body % 256)] ∧
          body.head? = some s.field.frameSeq ∧ (t.bank b).awaiting = some s.field.frameSeq ∧
          t.counter (vbOff b + 0x20) = satAdd (s.counter (vbOff b + 0x20)) 1) ∧
        (∀ b, b < 2 → s.vbOn b = false → t.bank b = s.bank b) ∧
        t = { s with banks := t.banks, counters := t.counters, field := t.field }) := by
  have he : exec .valveFrame s = .next s.valveFrameEff := congrArg Host.Outcome.next (fitted hv _)
  refine ⟨fun h => he.trans (congrArg Host.Outcome.next (if_pos h)), fun h => ?_⟩
  replace he := he.trans (congrArg Host.Outcome.next (if_neg (by omega)))
  generalize hu : s.bankFrame 0 = u at he
  obtain ⟨hf0, other0, count0⟩ := bankFrame_frame s 0
  obtain ⟨hf1, other1, count1⟩ := bankFrame_frame u 1
  rw [hu] at hf0 other0 count0
  have hseq : u.field.frameSeq = s.field.frameSeq := by rw [hf0]
  have hon1 : u.vbOn 1 = s.vbOn 1 := by rw [hf0]; rfl
  refine ⟨_, he, ?_, ?_, fun b hb hon => ?_, fun b hb hoff => ?_, ?_⟩
  · rw [hf1, hf0]
  · rfl
  · obtain rfl | rfl : b = 0 ∨ b = 1 := by omega
    · obtain ⟨⟨body, hlen, hframe, hhead, hawait⟩, hcount⟩ := bankFrame_sent hon
      rw [hu, ← other1 0 (by decide)] at hframe hawait
      rw [hu] at hcount
      exact ⟨body, hlen, hframe, hhead, hawait, (count1 _ (by decide) (by decide)).trans hcount⟩
    · obtain ⟨⟨body, hlen, hframe, hhead, hawait⟩, hcount⟩ := bankFrame_sent (hon1.trans hon)
      rw [hseq] at hhead hawait
      exact ⟨body, hlen, hframe, hhead, hawait, hcount.trans (congrArg (satAdd · 1) (count0 _ (by decide) (by decide)))⟩
  · obtain rfl | rfl : b = 0 ∨ b = 1 := by omega
    · rw [← bankFrame_off hoff, hu]
      exact other1 0 (by decide)
    · exact (congrArg (bank · 1) (bankFrame_off (hon1.trans hoff))).trans (other0 1 (by decide))
  · rw [hf1, hf0]

/-! ## Status frames (R290, R291) -/

/-- What a failed status frame leaves: its counter, its code's window, and the bank's count of failures; the link drops with
0x5D05 at the threshold. -/
theorem statusFail_leaves (s : State) (b : Fin 2) (off : Nat) :
    ∃ bs l, s.statusFail b off = { s.bump (vbOff b + off) 1 with banks := bs, log := l } ∧
      (tget {} bs b).faults = (s.bank b).faults ∧ (tget {} bs b).fails = (s.bank b).fails + 1 ∧ (tget {} bs b).awaiting = none ∧
      (∀ m, m ≠ b.val → tget {} bs m = s.bank m) ∧ (findWindow (windowKey 0x2D01#16 0x08 (0x20 + b)) l.windows).isSome = true ∧
      ((s.bank b).link = true → s.fld (vbOff b) 15 8 ≤ (s.bank b).fails + 1 →
        (tget {} bs b).link = false ∧ tget 0 l.lastCodes (0x290404 + 0x100 * b.val) = 0x5D05#16) := by
  let x : Bank := { s.bank b with fails := (s.bank b).fails + 1, awaiting := none }
  let u : State := (s.bump (vbOff b + off) 1).raise 0x2D01#16 0x08 (0x20 + b)
  have hwin : u.codeWindow 0x2D01#16 0x08 (0x20 + b) = true := codeWindow_raise_same ..
  have hx : (u.setBank b x).bank b = x := setBank_same ..
  have hother : ∀ m, m ≠ b.val → (u.setBank b x).bank m = s.bank m := fun m hm => setBank_other u b m x hm
  by_cases h : s.fld (vbOff b) 15 8 ≤ (s.bank b).fails + 1 ∧ (s.bank b).link = true
  · let y : Bank := { (u.setBank b x).bank b with link := false }
    let w : State := ((u.setBank b x).setBank b y).raise 0x5D05#16 0x08 (0x20 + b)
    have hy : w.bank b = { x with link := false } := by
      rw [← hx]; exact setBank_same ..
    refine ⟨w.banks, w.log, if_pos h, ?_, ?_, ?_, fun m hm => ?_, ?_, fun _ _ => ⟨?_, ?_⟩⟩
    · exact (congrArg Bank.faults hy :)
    · exact (congrArg Bank.fails hy :)
    · exact (congrArg Bank.awaiting hy :)
    · exact (setBank_other _ _ _ _ hm).trans (hother m hm)
    · exact codeWindow_raise_keeps (s := (u.setBank b x).setBank b y) hwin ..
    · exact (congrArg Bank.link hy :)
    · refine (lastCode_raise ..).trans (if_pos ?_)
      simp [lastCodeKeys_bank]
  · refine ⟨(u.setBank b x).banks, u.log, if_neg h, ?_, ?_, ?_, hother, hwin, fun h1 h2 => absurd ⟨h2, h1⟩ h⟩
    · exact (congrArg Bank.faults hx :)
    · exact (congrArg Bank.fails hx :)
    · exact (congrArg Bank.awaiting hx :)

/-- A status frame that did not come. -/
theorem statusMiss_leaves {s : State} {b : Fin 2} {q : Byte} (hv : s.variantN = false) (hq : s.statusDue b = some q) :
    ∃ t, exec (.valveStatusMiss b) s = .next t ∧ t.counter (vbOff b + 0x2C) = satAdd (s.counter (vbOff b + 0x2C)) 1 ∧
      (t.bank b).fails = (s.bank b).fails + 1 ∧ (t.bank b).awaiting = none ∧
      ((s.bank b).link = true → s.fld (vbOff b) 15 8 ≤ (s.bank b).fails + 1 →
        (t.bank b).link = false ∧ t.lastCode (0x290404 + 0x100 * b.val) = 0x5D05#16) ∧
      (∀ m, m ≠ b.val → t.bank m = s.bank m) ∧ t = { s with banks := t.banks, counters := t.counters, log := t.log } := by
  have he : exec (.valveStatusMiss b) s = .next (s.statusMissEff b) := congrArg Host.Outcome.next (fitted hv _)
  obtain ⟨bs, l, hs, -, hfails, hawait, hother, -, hlink⟩ := statusFail_leaves s b 0x2C
  rw [statusMissEff, hq] at he
  exact ⟨_, he.trans (congrArg Host.Outcome.next hs), bump_same .., hfails, hawait, hlink, hother, rfl⟩

/-- A status frame with a bad CRC or of another sequence fails by the counter of its fault. -/
theorem statusFrameEff_bad {s : State} {b : Fin 2} {f : ValveStatus} {q : Byte} {d : Nat} (hq : s.statusDue b = some q)
    (hbad : f.crcOk = false ∧ d = 0x28 ∨ f.crcOk = true ∧ f.seq ≠ q ∧ d = 0x30) :
    ∃ u : State, s.statusFrameEff b f = u.statusFail b d ∧ u = { s with banks := u.banks, counters := u.counters } ∧
      (u.bank b).faults = (s.bank b).faults ∧ (u.bank b).fails = (s.bank b).fails ∧ (∀ m, m ≠ b.val → u.bank m = s.bank m) ∧
      u.counter (vbOff b + d) = s.counter (vbOff b + d) := by
  simp only [statusFrameEff, hq]
  obtain ⟨hc, rfl⟩ | ⟨hc, hseq, rfl⟩ := hbad
  · refine ⟨s.bump (vbOff b + 0x24) 1, if_pos (by simp [hc]), rfl, rfl, rfl, fun _ _ => rfl, bump_other _ _ _ _ (by omega)⟩
  · let u : State := s.bump (vbOff b + 0x24) 1
    have hx : (u.setBank b { u.bank b with echo := f.seq }).bank b = { u.bank b with echo := f.seq } := setBank_same ..
    refine ⟨u.setBank b { u.bank b with echo := f.seq }, (if_neg (by simp [hc])).trans (if_pos hseq), rfl,
      (congrArg Bank.faults hx :), (congrArg Bank.fails hx :), fun m hm => setBank_other u b m _ hm, bump_other _ _ _ _ (by omega)⟩

theorem valveStatusFrame_bad {s : State} {b : Fin 2} {f : ValveStatus} {q : Byte} {d : Nat} (hv : s.variantN = false)
    (hq : s.statusDue b = some q) (hbad : f.crcOk = false ∧ d = 0x28 ∨ f.crcOk = true ∧ f.seq ≠ q ∧ d = 0x30) :
    ∃ t, exec (.valveStatusFrame b f) s = .next t ∧ t.counter (vbOff b + d) = satAdd (s.counter (vbOff b + d)) 1 ∧
      (t.bank b).faults = (s.bank b).faults ∧ (t.bank b).fails = (s.bank b).fails + 1 ∧ (t.bank b).awaiting = none ∧
      t.codeWindow 0x2D01#16 0x08 (0x20 + b.val) = true ∧ (∀ m, m ≠ b.val → t.bank m = s.bank m) ∧
      t = { s with banks := t.banks, counters := t.counters, log := t.log } := by
  have he : exec (.valveStatusFrame b f) s = .next (s.statusFrameEff b f) := congrArg Host.Outcome.next (fitted hv _)
  obtain ⟨u, hu, hframe, hfaults, hfails, hother, hcount⟩ := statusFrameEff_bad hq hbad
  obtain ⟨bs, l, hs, hfaults', hfails', hawait, hother', hwin, -⟩ := statusFail_leaves u b d
  rw [hu, hs] at he
  refine ⟨_, he, (bump_same ..).trans (congrArg (satAdd · 1) hcount), hfaults'.trans hfaults,
    hfails'.trans (congrArg (· + 1) hfails), hawait, hwin, fun m hm => (hother' m hm).trans (hother m hm), ?_⟩
  rw [hframe]
  rfl

/-- A command error that a bank reports: counted and raised, where there is one. -/
def withCmdErr (w : State) (b : Nat) (e : Bool) : State :=
  if e then (w.bump (vbOff b + 0x34) 1).raise 0x2D02#16 0x08 (0x20 + b) else w

theorem withCmdErr_leaves (w : State) (b : Nat) (e : Bool) :
    w.withCmdErr b e = { w with counters := (w.withCmdErr b e).counters, log := (w.withCmdErr b e).log } ∧
      (e = true → (w.withCmdErr b e).counter (vbOff b + 0x34) = satAdd (w.counter (vbOff b + 0x34)) 1 ∧
        (w.withCmdErr b e).codeWindow 0x2D02#16 0x08 (0x20 + b) = true) := by
  cases e with
  | false => exact ⟨rfl, fun h => absurd h Bool.false_ne_true⟩
  | true => exact ⟨rfl, fun _ => ⟨bump_same .., codeWindow_raise_same ..⟩⟩

/-- The bank that a good status frame leaves. -/
def statusBank (s : State) (b : Nat) (f : ValveStatus) : Bank :=
  { s.bank b with
    link := true, fails := 0, awaiting := none, echo := f.seq, phase := f.phase, faults := f.faults
    flags := BitVec.ofNat 4 ((if f.cmdErr then 2 ^ 3 else 0) + (if f.supply then 2 ^ 2 else 0) +
      (if f.overtemp then 2 ^ 1 else 0) + (if f.safe then 2 ^ 0 else 0)) }

theorem statusFrameEff_good {s : State} {b : Nat} {f : ValveStatus} {q : Byte} (hq : s.statusDue b = some q)
    (hc : f.crcOk = true) (hseq : f.seq = q) :
    ∃ l, s.statusFrameEff b f = { ((s.bump (vbOff b + 0x24) 1).setBank b (s.statusBank b f)).withCmdErr b f.cmdErr with log := l } ∧
      ((f.supply = true ∨ f.overtemp = true ∨ f.safe = true ∨ f.faults &&& ~~~(s.bank b).faults ≠ 0) →
        ∀ o, o ∈ lastCodeKeys 0x5D06#16 0x08 (0x20 + b) → tget 0 l.lastCodes o = 0x5D06#16) ∧
      (f.cmdErr = true → (findWindow (windowKey 0x2D02#16 0x08 (0x20 + b)) l.windows).isSome = true) := by
  let u := ((s.bump (vbOff b + 0x24) 1).setBank b (s.statusBank b f)).withCmdErr b f.cmdErr
  have hs : s.statusFrameEff b f =
      if (f.supply || f.overtemp || f.safe || decide (f.faults &&& ~~~(s.bank b).faults ≠ 0)) = true then
        u.raise 0x5D06#16 0x08 (0x20 + b) else u := by
    rw [statusFrameEff, hq]
    exact (if_neg (not_not.2 hc)).trans (if_neg (not_not.2 hseq))
  obtain ⟨l, hl, hcode, hkeep⟩ := raiseIf_leaves u
    ((f.supply || f.overtemp || f.safe || decide (f.faults &&& ~~~(s.bank b).faults ≠ 0)) = true) 0x5D06#16 0x08 (0x20 + b)
  refine ⟨l, hs.trans hl, fun h => hcode ?_, fun he => hkeep _ _ _ ((withCmdErr_leaves _ b _).2 he).2⟩
  simpa [or_assoc] using h

/-- A status frame in sequence with a good CRC. -/
theorem valveStatusFrame_good {s : State} {b : Fin 2} {f : ValveStatus} {q : Byte} (hv : s.variantN = false)
    (hq : s.statusDue b = some q) (hc : f.crcOk = true) (hseq : f.seq = q) :
    ∃ t, exec (.valveStatusFrame b f) s = .next t ∧ (t.bank b).link = true ∧ (t.bank b).fails = 0 ∧ (t.bank b).awaiting = none ∧
      (t.bank b).echo = q ∧ (t.bank b).phase = f.phase ∧ (t.bank b).faults = f.faults ∧
      (f.cmdErr = true → t.counter (vbOff b + 0x34) = satAdd (s.counter (vbOff b + 0x34)) 1 ∧
        t.codeWindow 0x2D02#16 0x08 (0x20 + b.val) = true) ∧
      ((f.supply = true ∨ f.overtemp = true ∨ f.safe = true ∨ f.faults &&& ~~~(s.bank b).faults ≠ 0) →
        t.lastCode (0x290404 + 0x100 * b.val) = 0x5D06#16) ∧
      (∀ m, m ≠ b.val → t.bank m = s.bank m) ∧ t = { s with banks := t.banks, counters := t.counters, log := t.log } := by
  have he : exec (.valveStatusFrame b f) s = .next (s.statusFrameEff b f) := congrArg Host.Outcome.next (fitted hv _)
  obtain ⟨l, hs, hcode, hwin⟩ := statusFrameEff_good hq hc hseq
  let w := (s.bump (vbOff b + 0x24) 1).setBank b (s.statusBank b f)
  obtain ⟨hw, herr⟩ := withCmdErr_leaves w b f.cmdErr
  have hsame : w.bank b = s.statusBank b f := setBank_same ..
  have hother : ∀ m, m ≠ b.val → w.bank m = s.bank m := fun m hm => setBank_other _ b m _ hm
  have hcount : w.counter (vbOff b + 0x34) = s.counter (vbOff b + 0x34) := bump_other _ _ _ _ (by omega)
  have hbank : ∀ m, (w.withCmdErr b f.cmdErr).bank m = w.bank m := fun m => by rw [hw]; rfl
  have hb : (w.withCmdErr b f.cmdErr).bank b = s.statusBank b f := (hbank b).trans hsame
  refine ⟨_, he.trans (congrArg Host.Outcome.next hs), (congrArg Bank.link hb :), (congrArg Bank.fails hb :),
    (congrArg Bank.awaiting hb :), (congrArg Bank.echo hb :).trans hseq, (congrArg Bank.phase hb :), (congrArg Bank.faults hb :),
    fun h => ⟨(herr h).1.trans (congrArg (satAdd · 1) hcount), hwin h⟩, fun h => hcode h _ ?_,
    fun m hm => (hbank m).trans (hother m hm), ?_⟩
  · simp [lastCodeKeys_bank]
  · change { w.withCmdErr b f.cmdErr with log := l } = _
    rw [hw]
    rfl

/-! ## Without the field section (R2) -/

/-- The events of the field section change nothing on a module without one. -/
theorem fieldEvents_of_variantN {s : State} (hv : s.variantN = true) {i : Fin 16} {b : Fin 2} {level : Bool} {mV : Half}
    {f : ValveStatus} {c : Instr}
    (hc : c ∈ [Instr.diFilteredEdge i level, .fieldSupplySample mV, .doThermalShutdown i, .doThermalRestart i, .doMismatch i,
      .valveFrame, .valveStatusFrame b f, .valveStatusMiss b]) : exec c s = .next s := by
  have unfitted (u : State) : Host.Outcome.next (if s.variantN then s else u) = (.next s : Host.Outcome State Fault Refusal) :=
    congrArg Host.Outcome.next (if_pos hv)
  simp only [List.mem_cons, List.not_mem_nil, or_false] at hc
  obtain rfl | rfl | rfl | rfl | rfl | rfl | rfl | rfl := hc <;> exact unfitted _

end State
end Sys2Proof.Machine

open Sys2Proof Sys2Proof.Machine Sys2Proof.Machine.State in
/-- Settles O45: each clause is what the command's own effect leaves, read off its branches on a module with the section. -/
theorem fieldSectionInputsOutputsAndBanks : Obligations.FieldSectionInputsOutputsAndBanks := by
  unfold Obligations.FieldSectionInputsOutputsAndBanks
  exact ⟨fun _ _ _ => diFilteredEdge_leaves, fun _ _ v => diCfgWrite_leaves v, fun _ _ => diEvtPop_leaves,
    fun _ _ => fieldSupplySample_leaves, fun _ _ => doThermalShutdown_leaves, fun _ _ => doThermalRestart_leaves,
    fun _ _ => doClear_leaves, fun _ _ => doMismatch_leaves, fun _ => valveFrame_leaves, fun _ _ _ _ => valveStatusFrame_good,
    fun _ _ _ _ _ => valveStatusFrame_bad, fun _ _ _ => statusMiss_leaves, fun _ _ _ _ _ _ _ hv hc => fieldEvents_of_variantN hv hc⟩
end

