-- ==== Sys2Proof/Proofs/ProxySlots.lean ====
section
/-! SUPPORT. Proxies (R16, R370 to R374): what sealing a proxied part changes, and what each proxy command leaves. -/

namespace Sys2Proof.Machine.State

/-! ## A proxy's own state -/

theorem ofProxy_setProxy_same (s : State) (j : Nat) (x : ProxyIn) : (s.setProxy j x).ofProxy j = x := tget_tset_same ..

theorem ofProxy_setProxy_other (s : State) {j i : Nat} (x : ProxyIn) (h : i ≠ j) : (s.setProxy j x).ofProxy i = s.ofProxy i :=
  tget_tset_other _ _ _ h

/-- A proxy that has read the message it expects. -/
def heard (x : ProxyIn) : ProxyIn := { x with seq := x.seq + 1, read := x.read + 1 }

theorem proxySeq_inOrder {s : State} {m : ProxyMsg} (h : m.seq.toNat = (s.ofProxy m.proxy).seq) :
    s.proxySeq m = s.setProxy m.proxy (heard (s.ofProxy m.proxy)) := by
  simp only [proxySeq, h, if_true, heard]

/-! ## Ejection and delivery -/

/-- An ejection writes the Calendar or engages its fail-safe, with their counters and posts; it results in action 1 or 4, and
does not count a seal. -/
theorem ejectPart_leaves (s : State) (k : Nat) (p : Part) : ∃ c l e f,
    (s.ejectPart k p).1 = { s with counters := c, log := l, cal := e, fs := f } ∧ tget 0 c 0x280010 = s.counter 0x280010 ∧
    ((s.ejectPart k p).2.1 = 1 ∨ (s.ejectPart k p).2.1 = 4) := by
  unfold ejectPart
  dsimp only
  split
  · exact ⟨_, _, _, _, rfl, rfl, .inl rfl⟩
  · split
    · exact ⟨_, _, _, _, rfl, bump_other _ _ _ _ (by decide), .inr rfl⟩
    · unfold calAdd
      split
      · exact ⟨_, _, _, _, rfl, bump_other _ _ _ _ (by decide), .inr rfl⟩
      · exact ⟨_, _, _, _, rfl, rfl, .inl rfl⟩

/-- Delivery changes the log alone. -/
theorem deliver_frame (s : State) (k : Nat) (body : List Byte) : ∃ l, s.deliver k body = { s with log := l } := by
  unfold deliver
  dsimp only
  split
  · split <;> exact ⟨_, rfl⟩
  · exact ⟨_, rfl⟩

/-! ## Sealing a proxied part -/

/-- A list of parts in which a part stands for those of its proxy and slot. -/
def withProxied (l : List Part) (j : Nat) (p : Part) : List Part := l.map (fun x => if isProxied j p.slot x then p else x)

theorem mem_withProxied {l : List Part} {j : Nat} {x p : Part} (hx : x ∈ l) (h : isProxied j p.slot x = true) :
    p ∈ withProxied l j p :=
  List.mem_map.2 ⟨x, hx, if_pos h⟩

@[simp] theorem length_withProxied (l : List Part) (j : Nat) (p : Part) : (withProxied l j p).length = l.length :=
  List.length_map ..

theorem isProxied_iff {j n : Nat} {p : Part} : isProxied j n p = true ↔ p.proxy = some j ∧ p.slot = n := by
  simp [isProxied]

/-- A part as its owner seals it. -/
def sealedAs (p : Part) (q : Sealing) (action : Nat) : Part :=
  { p with sealed := true, late := q.late, cls := q.cls, action, status := q.status }

theorem sealProxied_leaves (s : State) (j : Nat) (p : Part) (q : Sealing) : ∃ c l e f a,
    s.sealProxied j p q =
      { s with parts := withProxied s.parts j (sealedAs p q a), counters := c, log := l, cal := e, fs := f } ∧
    tget 0 c 0x280010 = satAdd (s.counter 0x280010) 1 := by
  unfold sealProxied
  dsimp only
  split
  · obtain ⟨l, hl⟩ := deliver_frame ((s.setProxied j (sealedAs p q 0)).bump 0x280010 1) p.lane (s.recordBody (s.proxyField j) p q 0 false)
    exact ⟨_, _, _, _, 0, hl, bump_same ..⟩
  · obtain ⟨c, l, e, f, hs, hc, -⟩ := ejectPart_leaves s p.lane p
    generalize s.ejectPart p.lane p = r at hs hc
    obtain ⟨u, a, noTarget⟩ := r
    obtain rfl : u = _ := hs
    obtain ⟨l', hl⟩ := deliver_frame
      (({ s with counters := c, log := l, cal := e, fs := f }.setProxied j (sealedAs p q a)).bump 0x280010 1) p.lane
      ({ s with counters := c, log := l, cal := e, fs := f }.recordBody (proxyField { s with counters := c, log := l, cal := e, fs := f } j) p q a noTarget)
    exact ⟨_, _, _, _, a, hl, (bump_same ..).trans (congrArg (satAdd · 1) hc)⟩

/-! ## The messages of a proxy (R370, R373) -/

/-- A message to a proxy that is off. -/
theorem proxyMessages_off {s : State} {m : ProxyMsg} (h : s.proxyOn m.proxy = false) :
    exec (.proxyAdmit m) s = .next s ∧ exec (.proxySeal m) s = .next s ∧ exec (.proxyClose m) s = .next s :=
  have off : ¬ s.proxyOn m.proxy = true := by simp [h]
  ⟨congrArg Host.Outcome.next (if_pos off), congrArg Host.Outcome.next (if_pos off), congrArg Host.Outcome.next (if_pos off)⟩

/-- The verdict rate's second as it stands now: one that has ended gives way to a new one (R16). -/
def rateNow (s : State) : VerdictU :=
  if 1000000000 ≤ s.now - s.vu.rateFrom then { s.vu with rateFrom := s.now, rateCount := 0 } else s.vu

theorem rateTake_eq (s : State) : s.rateTake =
    if s.rateNow.rateCount < 1000000 then ({ s with vu := { s.rateNow with rateCount := s.rateNow.rateCount + 1 } }, true)
    else ({ s with vu := s.rateNow }, false) := rfl

/-- The verdict rate limit takes from the verdict unit alone. -/
theorem rateTake_frame (s : State) : s.rateTake.1 = { s with vu := s.rateTake.1.vu } := by
  rw [rateTake_eq]
  split <;> rfl

/-- A proxy's own state has no part in the verdict rate. -/
theorem rateTake_setProxy (s : State) (j : Nat) (x : ProxyIn) :
    (s.setProxy j x).rateTake = (s.rateTake.1.setProxy j x, s.rateTake.2) := by
  rw [rateTake_eq, rateTake_eq, show (s.setProxy j x).rateNow = s.rateNow from rfl]
  split <;> rfl

/-- The slot that an admission opens. -/
def admittedPart (s : State) (m : ProxyMsg) : Part :=
  { lane := s.proxyLane m.proxy, slot := m.slot.toNat, firstBlock := m.block, lastBlock := m.block, x0 := 0
    x1 := s.sluiceCols (s.proxyLane m.proxy) - 1, on := m.on, off := m.off, deadline := m.deadline, offKnown := true
    proxy := some m.proxy.val }

/-- A proxy as an admission leaves it. -/
def admittedIn (x : ProxyIn) (m : ProxyMsg) : ProxyIn := { heard x with nextSlot := m.slot.toNat + 1 }

/-- The state with the slot of an admission open, its verdict taken from the rate. -/
def admitted (s : State) (m : ProxyMsg) : State :=
  { s with
    parts := s.parts ++ [s.admittedPart m]
    proxies := tset {} (tset {} s.proxies m.proxy (heard (s.ofProxy m.proxy))) m.proxy (admittedIn (s.ofProxy m.proxy) m)
    vu := s.rateTake.1.vu }

theorem proxyAdmitEff_inOrder {s : State} {m : ProxyMsg} (hon : s.proxyOn m.proxy = true)
    (hseq : m.seq.toNat = (s.ofProxy m.proxy).seq) (hpresent : (s.ofProxy m.proxy).absent = false) :
    s.proxyAdmitEff m = if s.rateTake.2 = true then s.admitted m
      else ((s.admitted m).sealProxied m.proxy (s.admittedPart m) { cls := 3, status := 0x3040#16 }).rateEvent := by
  have present : ¬ (heard (s.ofProxy m.proxy)).absent = true := by simp [heard, hpresent]
  unfold proxyAdmitEff
  dsimp only
  rw [if_neg (by simp [hon]), proxySeq_inOrder hseq, ofProxy_setProxy_same, if_neg present, rateTake_setProxy]
  dsimp only
  rw [ofProxy_setProxy_same, rateTake_frame]
  rfl

/-- A message in sequence opens its slot, where the verdict rate takes one more. -/
theorem proxyAdmit_opens {s : State} {m : ProxyMsg} (hon : s.proxyOn m.proxy = true)
    (hseq : m.seq.toNat = (s.ofProxy m.proxy).seq) (hpresent : (s.ofProxy m.proxy).absent = false) (hrate : s.rateTake.2 = true) :
    exec (.proxyAdmit m) s = .next (s.admitted m) :=
  congrArg Host.Outcome.next ((proxyAdmitEff_inOrder hon hseq hpresent).trans (if_pos hrate))

theorem ofProxy_admitted_same (s : State) (m : ProxyMsg) :
    (s.admitted m).ofProxy m.proxy = admittedIn (s.ofProxy m.proxy) m := by
  simp only [ofProxy, admitted, tget_tset_same]

theorem ofProxy_admitted_other (s : State) (m : ProxyMsg) {j : Nat} (h : j ≠ m.proxy.val) :
    (s.admitted m).ofProxy j = s.ofProxy j := by
  simp only [ofProxy, admitted, tget_tset_other _ _ _ h]

/-- Over the verdict rate, the slot is sealed in class 3 at once (R16). -/
theorem proxyAdmit_overRate {s : State} {m : ProxyMsg} (hon : s.proxyOn m.proxy = true)
    (hseq : m.seq.toNat = (s.ofProxy m.proxy).seq) (hpresent : (s.ofProxy m.proxy).absent = false) (hrate : s.rateTake.2 = false) :
    ∃ (t : State) (q : Part), exec (.proxyAdmit m) s = .next t ∧ q ∈ t.parts ∧ q.proxy = some m.proxy.val ∧ q.slot = m.slot.toNat ∧
      q.sealed = true ∧ q.cls = 3 ∧ q.status = 0x3040#16 ∧ t.parts.length = s.parts.length + 1 ∧
      t = { s with parts := t.parts, proxies := t.proxies, vu := t.vu, counters := t.counters, log := t.log, cal := t.cal, fs := t.fs } := by
  obtain ⟨c, l, e, f, a, hs, -⟩ :=
    sealProxied_leaves (s.admitted m) m.proxy (s.admittedPart m) { cls := 3, status := 0x3040#16 }
  have he := (proxyAdmitEff_inOrder hon hseq hpresent).trans (if_neg (by simp [hrate]))
  rw [hs] at he
  refine ⟨_, _, congrArg Host.Outcome.next he, mem_withProxied (x := s.admittedPart m) (List.mem_append_right _ (List.mem_singleton_self _))
    (isProxied_iff.2 ⟨rfl, rfl⟩), rfl, rfl, rfl, rfl, rfl, ?_, rfl⟩
  exact (length_withProxied ..).trans (List.length_append ..)

/-- A message in sequence to an absent lane is read, and no more. -/
theorem proxyMessage_absent {s : State} {m : ProxyMsg} (hon : s.proxyOn m.proxy = true)
    (hseq : m.seq.toNat = (s.ofProxy m.proxy).seq) (habsent : (s.ofProxy m.proxy).absent = true) :
    exec (.proxyAdmit m) s = .next (s.setProxy m.proxy (heard (s.ofProxy m.proxy))) ∧
    exec (.proxySeal m) s = .next (s.setProxy m.proxy (heard (s.ofProxy m.proxy))) := by
  have on : ¬ ¬ s.proxyOn m.proxy = true := not_not.2 hon
  have absent : ((s.setProxy m.proxy (heard (s.ofProxy m.proxy))).ofProxy m.proxy).absent = true := by
    rw [ofProxy_setProxy_same]; exact habsent
  constructor <;> refine congrArg Host.Outcome.next ((if_neg on).trans ?_) <;> rw [proxySeq_inOrder hseq]
  · exact if_pos absent
  · exact if_pos absent

/-! ### PROXY_SEAL -/

/-- A proxied part with what its peer's record tells of it. -/
def recordPart (p : Part) (m : ProxyMsg) (b : List Byte) : Part :=
  { p with on := m.on, off := m.off, x0 := fieldAt b 0x24 2, x1 := fieldAt b 0x26 2 }

/-- The part that a peer's record seals. -/
def recordSealed (p : Part) (m : ProxyMsg) (b : List Byte) (action : Nat) : Part :=
  { recordPart p m b with sealed := true, cls := fieldAt b 0 1, action, status := BitVec.ofNat 16 (fieldAt b 2 2) }

/-- What an action of a peer's record does: an ejection is written, any other action is kept. -/
def recordEject (s : State) (p : Part) (act : Nat) : State × Nat × Bool :=
  if act = 1 then s.ejectPart p.lane p else (s, act, false)

theorem recordEject_leaves (s : State) (p : Part) (act : Nat) : ∃ c l e f,
    (s.recordEject p act).1 = { s with counters := c, log := l, cal := e, fs := f } ∧ tget 0 c 0x280010 = s.counter 0x280010 ∧
    (act ≠ 1 → (s.recordEject p act).2.1 = act ∧ e = s.cal) ∧
    (act = 1 → (s.recordEject p act).2.1 = 1 ∨ (s.recordEject p act).2.1 = 4) := by
  unfold recordEject
  split
  · next h =>
    obtain ⟨c, l, e, f, hs, hc, ha⟩ := ejectPart_leaves s p.lane p
    exact ⟨c, l, e, f, hs, hc, fun h' => absurd h h', fun _ => ha⟩
  · next h => exact ⟨_, _, _, _, rfl, rfl, fun _ => ⟨rfl, rfl⟩, fun h' => absurd h' h⟩

/-- A peer's record as the owner copies it: PEER set, and NOTARGET where the ejection names no output (R259, R370). -/
def recordCopy (field : Nat) (b : List Byte) (action : Nat) (noTarget : Bool) : List Byte :=
  let flags := fieldAt b 8 4 % 2 ^ 19 + 2 ^ 19
  let flags := if noTarget then flags ||| 2 ^ 17 else flags
  b.take 1 ++ leBytes 1 action ++ slice b 2 2 ++ leBytes 2 field ++ slice b 6 2 ++ leBytes 4 flags ++ b.drop 12

/-- A part sealed by its peer's record: its ejection, the seal and its count, and the copy delivered. -/
def sealByRecord (s : State) (p : Part) (m : ProxyMsg) (b : List Byte) : State :=
  let r := s.recordEject (recordPart p m b) (fieldAt b 1 1)
  ((r.1.setProxied m.proxy (recordSealed p m b r.2.1)).bump 0x280010 1).deliver p.lane
    (recordCopy (r.1.proxyField m.proxy) b r.2.1 r.2.2)

theorem proxySealEff_inOrder {s : State} {m : ProxyMsg} {p : Part} (hon : s.proxyOn m.proxy = true)
    (hseq : m.seq.toNat = (s.ofProxy m.proxy).seq) (hpresent : (s.ofProxy m.proxy).absent = false)
    (hfind : s.parts.find? (isProxied m.proxy m.slot.toNat) = some p) :
    s.proxySealEff m = if p.sealed = true then s.setProxy m.proxy (heard (s.ofProxy m.proxy))
      else (s.setProxy m.proxy (heard (s.ofProxy m.proxy))).sealByRecord p m (padTo 252 (m.record.drop 4)) := by
  have present : ¬ (heard (s.ofProxy m.proxy)).absent = true := by simp [heard, hpresent]
  unfold proxySealEff
  rw [if_neg (by simp [hon]), proxySeq_inOrder hseq]
  dsimp only
  rw [ofProxy_setProxy_same, if_neg present, show (s.setProxy m.proxy (heard (s.ofProxy m.proxy))).parts.find? _ = _ from hfind]
  rfl

theorem sealByRecord_leaves (s : State) (p : Part) (m : ProxyMsg) (b : List Byte) : ∃ c l e f a,
    s.sealByRecord p m b =
      { s with parts := withProxied s.parts m.proxy (recordSealed p m b a), counters := c, log := l, cal := e, fs := f } ∧
    tget 0 c 0x280010 = satAdd (s.counter 0x280010) 1 ∧ (fieldAt b 1 1 ≠ 1 → a = fieldAt b 1 1 ∧ e = s.cal) ∧
    (fieldAt b 1 1 = 1 → a = 1 ∨ a = 4) := by
  obtain ⟨c, l, e, f, hs, hc, hkept, heject⟩ := recordEject_leaves s (recordPart p m b) (fieldAt b 1 1)
  unfold sealByRecord
  generalize s.recordEject (recordPart p m b) (fieldAt b 1 1) = r at hs hkept heject
  obtain ⟨u, a, noTarget⟩ := r
  obtain rfl : u = _ := hs
  obtain ⟨l', hl⟩ := deliver_frame
    (({ s with counters := c, log := l, cal := e, fs := f }.setProxied m.proxy (recordSealed p m b a)).bump 0x280010 1) p.lane
    (recordCopy (proxyField { s with counters := c, log := l, cal := e, fs := f } m.proxy) b a noTarget)
  exact ⟨_, _, _, _, a, hl, (bump_same ..).trans (congrArg (satAdd · 1) hc), hkept, heject⟩

/-- A record in sequence seals its open slot; a slot sealed already stays as it is. -/
theorem proxySeal_leaves {s : State} {m : ProxyMsg} {p : Part} {b : List Byte} (hon : s.proxyOn m.proxy = true)
    (hseq : m.seq.toNat = (s.ofProxy m.proxy).seq) (hpresent : (s.ofProxy m.proxy).absent = false)
    (hfind : s.parts.find? (isProxied m.proxy m.slot.toNat) = some p) (hb : b = padTo 252 (m.record.drop 4)) :
    (p.sealed = false →
      ∃ (t : State) (q : Part), exec (.proxySeal m) s = .next t ∧ q ∈ t.parts ∧ q.proxy = some m.proxy.val ∧ q.slot = m.slot.toNat ∧
        q.sealed = true ∧ q.cls = fieldAt b 0 1 ∧ q.on = m.on ∧ q.off = m.off ∧
        (fieldAt b 1 1 ≠ 1 → q.action = fieldAt b 1 1 ∧ t.cal = s.cal) ∧
        (fieldAt b 1 1 = 1 → q.action = 1 ∨ q.action = 4) ∧ t.parts.length = s.parts.length ∧
        t.counter 0x280010 = satAdd (s.counter 0x280010) 1 ∧
        t = { s with parts := t.parts, proxies := t.proxies, counters := t.counters, log := t.log, cal := t.cal, fs := t.fs }) ∧
    (p.sealed = true →
      ∃ t : State, exec (.proxySeal m) s = .next t ∧ t.parts = s.parts ∧ t = { s with proxies := t.proxies }) := by
  subst hb
  have he := proxySealEff_inOrder hon hseq hpresent hfind
  obtain ⟨hproxy, hslot⟩ := isProxied_iff.1 (List.find?_some hfind)
  refine ⟨fun hopen => ?_, fun hsealed => ⟨_, congrArg Host.Outcome.next (he.trans (if_pos hsealed)), rfl, rfl⟩⟩
  obtain ⟨c, l, e, f, a, hs, hc, hkept, heject⟩ :=
    sealByRecord_leaves (s.setProxy m.proxy (heard (s.ofProxy m.proxy))) p m (padTo 252 (m.record.drop 4))
  rw [hs, if_neg (by simp [hopen])] at he
  exact ⟨_, _, congrArg Host.Outcome.next he, mem_withProxied (List.mem_of_find?_eq_some hfind) (isProxied_iff.2 ⟨hproxy, rfl⟩),
    hproxy, hslot, rfl, rfl, rfl, rfl, hkept, heject, length_withProxied .., hc, rfl⟩

/-! ### PROXY_CLOSE and gaps -/

/-- The end of area parts moves Calendar entries alone. -/
theorem endAreas_frame (s : State) (j : Nat) (on : Fine) : ∃ e, s.endAreas j on = { s with cal := e } := by
  unfold endAreas
  dsimp only
  split <;> exact ⟨_, rfl⟩

/-- A proxy as a CLOSE in sequence leaves it. -/
def closedIn (x : ProxyIn) (off : Fine) (level : Nat) : ProxyIn :=
  { heard x with lastOff := off, areas := 0, absent := x.absent && decide (level < 2) }

/-- A block's CLOSE in sequence: the proxy keeps its OFF, and what else it changes is the end of the area parts. -/
theorem proxyCloseEff_inOrder {s : State} {m : ProxyMsg} (hon : s.proxyOn m.proxy = true)
    (hseq : m.seq.toNat = (s.ofProxy m.proxy).seq) : ∃ e,
    s.proxyCloseEff m =
      { (s.setProxy m.proxy (heard (s.ofProxy m.proxy))).setProxy m.proxy (closedIn (s.ofProxy m.proxy) m.off s.line.level) with cal := e } ∧
    ((s.ofProxy m.proxy).absent = false → e = s.cal) := by
  unfold proxyCloseEff
  rw [if_neg (by simp [hon]), proxySeq_inOrder hseq]
  dsimp only
  rw [ofProxy_setProxy_same]
  split
  · next h =>
    obtain ⟨e, he⟩ := endAreas_frame (s.setProxy m.proxy (heard (s.ofProxy m.proxy))) m.proxy m.on
    have hx : State.ofProxy { s.setProxy m.proxy (heard (s.ofProxy m.proxy)) with cal := e } m.proxy = heard (s.ofProxy m.proxy) :=
      ofProxy_setProxy_same s m.proxy (heard (s.ofProxy m.proxy))
    rw [he, hx]
    exact ⟨e, rfl, fun hp => absurd h.1 (by simp [heard, hp])⟩
  · rw [ofProxy_setProxy_same]
    exact ⟨_, rfl, fun _ => rfl⟩

/-- A CLOSE in sequence; at level 2 and up it ends the absence (R373, R374). -/
theorem proxyClose_leaves {s : State} {m : ProxyMsg} {x : ProxyIn} (hon : s.proxyOn m.proxy = true) (hx : x = s.ofProxy m.proxy)
    (hseq : m.seq.toNat = x.seq) :
    (x.absent = false →
      ∃ t : State, exec (.proxyClose m) s = .next t ∧
        t.ofProxy m.proxy = { x with seq := x.seq + 1, read := x.read + 1, lastOff := m.off, areas := 0 } ∧
        (∀ j, j ≠ m.proxy.val → t.ofProxy j = s.ofProxy j) ∧ t = { s with proxies := t.proxies }) ∧
    (x.absent = true →
      ∃ t : State, exec (.proxyClose m) s = .next t ∧
        t.ofProxy m.proxy = { x with seq := x.seq + 1, read := x.read + 1, lastOff := m.off, areas := 0, absent := decide (s.line.level < 2) } ∧
        (∀ j, j ≠ m.proxy.val → t.ofProxy j = s.ofProxy j) ∧ t = { s with proxies := t.proxies, cal := t.cal }) := by
  subst hx
  obtain ⟨e, he, hcal⟩ := proxyCloseEff_inOrder hon hseq
  have same := ofProxy_setProxy_same (s.setProxy m.proxy (heard (s.ofProxy m.proxy))) m.proxy
    (closedIn (s.ofProxy m.proxy) m.off s.line.level)
  have other : ∀ j, j ≠ m.proxy.val → ((s.setProxy m.proxy (heard (s.ofProxy m.proxy))).setProxy m.proxy
      (closedIn (s.ofProxy m.proxy) m.off s.line.level)).ofProxy j = s.ofProxy j :=
    fun j hj => (ofProxy_setProxy_other _ _ hj).trans (ofProxy_setProxy_other _ _ hj)
  constructor
  · intro h
    refine ⟨_, congrArg Host.Outcome.next he, same.trans ?_, other, ?_⟩
    · simp [closedIn, heard, h]
    · rw [hcal h]; rfl
  · intro h
    refine ⟨_, congrArg Host.Outcome.next he, same.trans ?_, other, rfl⟩
    simp [closedIn, heard, h]

/-- A lane without an unsealed slot is handled as absent: nothing is sealed, and nothing posts (R372). -/
theorem proxyAbsent_allSealed {s : State} {j : Nat} (hpresent : (s.ofProxy j).absent = false)
    (hsealed : ∀ p ∈ s.parts, p.proxy = some j → p.sealed = true) :
    s.proxyAbsent j = s.setProxy j { s.ofProxy j with absent := true, areas := 0 } := by
  have none_open : s.parts.filter (fun p => decide (p.proxy = some j) && !p.sealed) = [] := by simpa using hsealed
  unfold proxyAbsent
  rw [if_neg (by simp [hpresent])]
  exact if_pos (congrArg List.length none_open)

/-- A proxy that has read a message out of sequence, before its lane is handled as absent. -/
def skippedIn (x : ProxyIn) (m : ProxyMsg) : ProxyIn := { x with seq := m.seq.toNat + 1, read := x.read + 1 }

/-- A gap in the sequence with no slot open: 0x2041 posts, and the lane is absent (R370). -/
theorem proxySeq_gap {s : State} {m : ProxyMsg} (hseq : m.seq.toNat ≠ (s.ofProxy m.proxy).seq)
    (hpresent : (s.ofProxy m.proxy).absent = false) (hsealed : ∀ p ∈ s.parts, p.proxy = some m.proxy.val → p.sealed = true) :
    s.proxySeq m = ((s.setProxy m.proxy (skippedIn (s.ofProxy m.proxy) m)).raise 0x2041#16 0x0F (s.proxyModule m.proxy)).setProxy
      m.proxy { skippedIn (s.ofProxy m.proxy) m with absent := true, areas := 0 } := by
  let u := (s.setProxy m.proxy (skippedIn (s.ofProxy m.proxy) m)).raise 0x2041#16 0x0F (s.proxyModule m.proxy)
  have hx : u.ofProxy m.proxy = skippedIn (s.ofProxy m.proxy) m :=
    ofProxy_setProxy_same s m.proxy (skippedIn (s.ofProxy m.proxy) m)
  calc s.proxySeq m = u.proxyAbsent m.proxy := if_neg hseq
    _ = u.setProxy m.proxy { u.ofProxy m.proxy with absent := true, areas := 0 } :=
      proxyAbsent_allSealed (by rw [hx]; exact hpresent) hsealed
    _ = _ := by rw [hx]

/-- An admission out of sequence. -/
theorem proxyAdmit_gap {s : State} {m : ProxyMsg} {x : ProxyIn} (hon : s.proxyOn m.proxy = true) (hx : x = s.ofProxy m.proxy)
    (hseq : m.seq.toNat ≠ x.seq) (hpresent : x.absent = false) (hsealed : ∀ p ∈ s.parts, p.proxy = some m.proxy.val → p.sealed = true) :
    ∃ t : State, exec (.proxyAdmit m) s = .next t ∧
      t.ofProxy m.proxy = { x with seq := m.seq.toNat + 1, read := x.read + 1, absent := true, areas := 0 } ∧
      t.lastCode 0x2E0014 = 0x2041#16 ∧ t.parts = s.parts ∧ t = { s with proxies := t.proxies, log := t.log } := by
  subst hx
  have absent : ((s.proxySeq m).ofProxy m.proxy).absent = true := by
    rw [proxySeq_gap hseq hpresent hsealed, ofProxy_setProxy_same]
  have he : s.proxyAdmitEff m = s.proxySeq m := (if_neg (not_not.2 hon)).trans (if_pos absent)
  rw [proxySeq_gap hseq hpresent hsealed] at he
  refine ⟨_, congrArg Host.Outcome.next he, ofProxy_setProxy_same .., ?_, rfl, rfl⟩
  · exact (lastCode_raise ..).trans (if_pos (List.mem_singleton_self _))

/-! ## PROXY_RING_FULL and PEER_AREA_PART -/

/-- A full ring stops a forwarded lane once. -/
theorem proxyRingFull_leaves {s : State} {k : Fin 18} {f : FwdOut} (hf : f = tget {} s.fwds k) :
    ((s.forwarded k = false ∨ f.stopped = true) → exec (.proxyRingFull k) s = .next s) ∧
    (s.forwarded k = true → f.stopped = false →
      ∃ t : State, exec (.proxyRingFull k) s = .next t ∧
        tget {} t.fwds k = { f with stopped := true, fullSince := some (f.fullSince.getD (s.now - 1000000)) } ∧
        (∀ j, j ≠ k.val → tget {} t.fwds j = tget {} s.fwds j) ∧ t.lastCode 0x2E0014 = 0x7046#16 ∧
        t = { s with fwds := t.fwds, log := t.log }) := by
  subst hf
  refine ⟨fun h => congrArg Host.Outcome.next (if_pos (by simpa using h)), fun hfwd hrun => ?_⟩
  refine ⟨_, congrArg Host.Outcome.next (if_neg (by simp [hfwd, hrun])), tget_tset_same .., fun j hj => tget_tset_other _ _ _ hj,
    (lastCode_raise ..).trans (if_pos (List.mem_singleton_self _)), rfl⟩

/-- Where the next area part of a proxied lane starts (R373). -/
def areaStart (s : State) (j : Nat) : Fine :=
  along (s.bindDir (s.proxyLane j)) (s.ofProxy j).lastOff (((s.ofProxy j).areas * s.proxySpan j * 65536 : Nat) : Int)

/-- The axis plus DIST has reached a position of a lane. -/
def laneReached (s : State) (k : Nat) (start : Fine) : Bool :=
  beyond (s.bindDir k) (along (s.bindDir k) (s.posAt (s.bindAxis k) s.time.t) (s.bindDist k)) start

/-- The next area part of a proxied lane. -/
def nextArea (s : State) (j : Nat) : Part :=
  { lane := s.proxyLane j, slot := (s.ofProxy j).nextSlot, x0 := 0, x1 := s.sluiceCols (s.proxyLane j) - 1, on := s.areaStart j
    off := along (s.bindDir (s.proxyLane j)) (s.areaStart j) ((s.proxySpan j * 65536 : Nat) : Int), deadline := s.areaStart j
    offKnown := true, proxy := some j }

/-- The state with the next area part of a proxied lane in place, its verdict taken from the rate. -/
def withArea (s : State) (j : Nat) : State :=
  { s with
    parts := s.parts ++ [s.nextArea j]
    proxies := tset {} s.proxies j { s.ofProxy j with areas := (s.ofProxy j).areas + 1, nextSlot := (s.ofProxy j).nextSlot + 1 }
    vu := s.rateTake.1.vu }

theorem peerAreaPartEff_eq (s : State) (j : Nat) : s.peerAreaPartEff j =
    if ¬ s.proxyOn j = true ∨ ¬ (s.ofProxy j).absent = true ∨ s.line.level < 3 then s
    else if ¬ s.laneReached (s.proxyLane j) (s.areaStart j) = true then s
    else (s.withArea j).sealProxied j (s.nextArea j) { cls := 2, status := 0x7043#16, lost := true } := by
  unfold peerAreaPartEff
  rw [rateTake_frame]
  rfl

/-- While a proxied lane is absent at level 3, an area part covers the next SPAN once its start is reached. -/
theorem peerAreaPart_leaves {s : State} {j : Fin 16} {x : ProxyIn} {k : Nat} {start : Fine} (hx : x = s.ofProxy j) (hk : k = s.proxyLane j)
    (hstart : start = along (s.bindDir k) x.lastOff ((x.areas * s.proxySpan j * 65536 : Nat) : Int)) :
    ((s.proxyOn j = false ∨ x.absent = false ∨ s.line.level < 3 ∨
      beyond (s.bindDir k) (along (s.bindDir k) (s.posAt (s.bindAxis k) s.time.t) (s.bindDist k)) start = false) →
      exec (.peerAreaPart j) s = .next s) ∧
    (s.proxyOn j = true → x.absent = true → 3 ≤ s.line.level →
      beyond (s.bindDir k) (along (s.bindDir k) (s.posAt (s.bindAxis k) s.time.t) (s.bindDist k)) start = true →
      ∃ (t : State) (q : Part), exec (.peerAreaPart j) s = .next t ∧ q ∈ t.parts ∧ q.proxy = some j.val ∧ q.slot = x.nextSlot ∧ q.lane = k ∧
        q.on = start ∧ q.off = along (s.bindDir k) start ((s.proxySpan j * 65536 : Nat) : Int) ∧ q.sealed = true ∧ q.cls = 2 ∧
        q.status = 0x7043#16 ∧ t.ofProxy j = { x with areas := x.areas + 1, nextSlot := x.nextSlot + 1 } ∧
        t.parts.length = s.parts.length + 1 ∧ t.counter 0x280010 = satAdd (s.counter 0x280010) 1 ∧ t.vu = s.rateTake.1.vu ∧
        t = { s with parts := t.parts, proxies := t.proxies, vu := t.vu, counters := t.counters, log := t.log, cal := t.cal, fs := t.fs }) := by
  subst hx hk hstart
  have he := peerAreaPartEff_eq s j
  constructor
  · refine fun h => congrArg Host.Outcome.next (he.trans ?_)
    obtain h | h | h | (h : s.laneReached (s.proxyLane j) (s.areaStart j) = false) := h
    · exact if_pos (.inl (by simp [h]))
    · exact if_pos (.inr (.inl (by simp [h])))
    · exact if_pos (.inr (.inr h))
    · exact ite_eq_left_iff.2 fun _ => if_pos (by simp [h])
  · intro hon habsent hlevel (hreached : s.laneReached (s.proxyLane j) (s.areaStart j) = true)
    obtain ⟨c, l, e, f, a, hs, hc⟩ := sealProxied_leaves (s.withArea j) j (s.nextArea j) { cls := 2, status := 0x7043#16, lost := true }
    rw [hs, if_neg (by simp [hon, habsent]; omega), if_neg (not_not.2 hreached)] at he
    refine ⟨_, _, congrArg Host.Outcome.next he, mem_withProxied (x := s.nextArea j) (List.mem_append_right _ (List.mem_singleton_self _))
      (isProxied_iff.2 ⟨rfl, rfl⟩), rfl, rfl, rfl, rfl, rfl, rfl, rfl, rfl, ?_, ?_, hc, rfl, rfl⟩
    · simp only [ofProxy, withArea, tget_tset_same]
    · exact (length_withProxied ..).trans (List.length_append ..)

end Sys2Proof.Machine.State

open Sys2Proof Sys2Proof.Machine Sys2Proof.Machine.State in
/-- Settles O56: each clause is what the command's own effect leaves, by whether its message is in sequence. -/
theorem proxySlotsAndAreaParts : Obligations.ProxySlotsAndAreaParts := by
  unfold Obligations.ProxySlotsAndAreaParts
  refine ⟨fun _ _ => proxyMessages_off, ?inSequence, ?sealing, fun _ _ _ hon hx hseq => proxyClose_leaves hon hx hseq,
    fun _ _ _ => proxyAdmit_gap, fun _ _ _ => proxyRingFull_leaves, fun _ _ _ _ _ => peerAreaPart_leaves⟩
  case inSequence =>
    rintro s m x hon rfl hseq
    refine ⟨fun hpresent hrate => ?_, fun hpresent hrate _ => proxyAdmit_overRate hon hseq hpresent hrate, fun habsent => ?_⟩
    · exact ⟨_, proxyAdmit_opens hon hseq hpresent hrate, rfl, rfl, ofProxy_admitted_same s m,
        fun _ hj => ofProxy_admitted_other s m hj, rfl⟩
    · obtain ⟨hadmit, hseal⟩ := proxyMessage_absent hon hseq habsent
      exact ⟨⟨_, hadmit, ofProxy_setProxy_same .., rfl⟩, ⟨_, hseal, ofProxy_setProxy_same .., rfl⟩⟩
  case sealing =>
    rintro s m x p b hon rfl hseq hpresent hfind hb
    exact proxySeal_leaves hon hseq hpresent hfind hb
end

