-- ==== Sys2Proof/Proofs/RecipeResidency.lean ====
section
/-! SUPPORT. Recipes (R208 to R211, R219, R220, R225): what the operations on nodes and on recipes' references change, and
what RECIPE_LOAD, RESIDENCY_STEP, RECIPE_UNLOAD and CHANGEOVER leave. -/

namespace Sys2Proof.Machine

/-! ## Completion records leave LAST_CODE -/

theorem Log.drain_lastCodes (st : Stamp) (fn i n : Nat) (l : Log) : (Log.drain st fn i n l).lastCodes = l.lastCodes := by
  induction n generalizing l with
  | zero => rfl
  | succ n ih =>
    unfold Log.drain
    dsimp only
    (repeat' split)
    · rfl
    · rfl
    · rw [ih, Log.writeRecord_lastCodes]
      rfl
    · rfl

theorem Log.complete_lastCodes (l : Log) (st : Stamp) (fn i : Nat) (tag : DWord) (irq : Bool) (c : CompRec) :
    (l.complete st fn i tag irq c).lastCodes = l.lastCodes := Log.drain_lastCodes ..

namespace State

theorem lastCode_descDone (s : State) (d : DescHdr) (status : Half) (result o : Nat) :
    (s.descDone d status result).lastCode o = s.lastCode o :=
  congrArg (tget 0 · o) (Log.complete_lastCodes ..)

/-! ## What operations on nodes change -/

/-- From `s` to `t` nothing changes but nodes, the pool's free and deferred slots, their memory, and counters. -/
def NodesOnly (s t : State) : Prop :=
  ∃ n b k c, t = { s with nodes := n, bonded := b, kv := k, counters := c }

theorem NodesOnly.refl (s : State) : NodesOnly s s := ⟨_, _, _, _, rfl⟩

theorem NodesOnly.trans {s t u : State} (h : NodesOnly s t) (h' : NodesOnly t u) : NodesOnly s u := by
  obtain ⟨n, b, k, c, rfl⟩ := h
  obtain ⟨n', b', k', c', rfl⟩ := h'
  exact ⟨n', b', k', c', rfl⟩

theorem putNode_nodesOnly (s : State) (i : Nat) (x : Node) : NodesOnly s (s.putNode i x) := ⟨_, _, _, _, rfl⟩

theorem kvDefer_nodesOnly (s : State) (n : Nat) : NodesOnly s (s.kvDefer n) := ⟨_, _, _, _, rfl⟩

theorem bump_nodesOnly (s : State) (o n : Nat) : NodesOnly s (s.bump o n) := ⟨_, _, _, _, rfl⟩

theorem retireNode_nodesOnly (s : State) (i : Nat) : NodesOnly s (s.retireNode i) := by
  unfold retireNode
  dsimp only
  split
  · exact (putNode_nodesOnly ..).trans ((kvDefer_nodesOnly ..).trans (bump_nodesOnly ..))
  · exact .refl s

theorem unrefNode_nodesOnly (s : State) (i : Nat) : NodesOnly s (s.unrefNode i) :=
  (putNode_nodesOnly ..).trans (retireNode_nodesOnly ..)

theorem unrefNodes_nodesOnly (s : State) (l : List Nat) : NodesOnly s (s.unrefNodes l) := by
  induction l generalizing s with
  | nil => exact .refl s
  | cons i r ih => exact (unrefNode_nodesOnly s i).trans (ih _)

theorem discardNode_nodesOnly (s : State) (i : Nat) : NodesOnly s (s.discardNode i) := by
  unfold discardNode
  exact (putNode_nodesOnly s i {}).trans (kvDefer_nodesOnly ..)

theorem discardNodes_nodesOnly (s : State) (l : List Nat) : NodesOnly s (s.discardNodes l) := by
  induction l generalizing s with
  | nil => exact .refl s
  | cons i r ih =>
    unfold discardNodes
    exact (discardNode_nodesOnly s i).trans (ih _)

theorem NodesOnly.recipe {s t : State} (h : NodesOnly s t) (k : Nat) : t.recipe k = s.recipe k := by
  obtain ⟨_, _, _, _, rfl⟩ := h
  rfl

/-! ## What operations on recipes change -/

theorem recipe_putRecipe_same (s : State) (k : Nat) (x : Recipe) : (s.putRecipe k x).recipe k = some x := by
  simp only [recipe, putRecipe, tget_tset_same]

theorem recipe_putRecipe_other (s : State) {k j : Nat} (x : Recipe) (h : j ≠ k) : (s.putRecipe k x).recipe j = s.recipe j := by
  simp only [recipe, putRecipe, tget_tset_other _ _ _ h]

theorem recipe_dropRecipe_same (s : State) (k : Nat) : (s.dropRecipe k).recipe k = none := by
  simp only [recipe, dropRecipe, tget_tset_same]

/-- From `s` to `t` nothing changes but recipes and the log. -/
def RecipesOnly (s t : State) : Prop := ∃ r l, t = { s with recipes := r, log := l }

theorem RecipesOnly.refl (s : State) : RecipesOnly s s := ⟨_, _, rfl⟩

theorem RecipesOnly.trans {s t u : State} (h : RecipesOnly s t) (h' : RecipesOnly t u) : RecipesOnly s u := by
  obtain ⟨r, l, rfl⟩ := h
  obtain ⟨r', l', rfl⟩ := h'
  exact ⟨r', l', rfl⟩

theorem RecipesOnly.node {s t : State} (h : RecipesOnly s t) (j : Nat) : t.node j = s.node j := by
  obtain ⟨_, _, rfl⟩ := h
  rfl

theorem RecipesOnly.kv {s t : State} (h : RecipesOnly s t) : t.kv = s.kv := by
  obtain ⟨_, _, rfl⟩ := h
  rfl

theorem RecipesOnly.counter {s t : State} (h : RecipesOnly s t) (o : Nat) : t.counter o = s.counter o := by
  obtain ⟨_, _, rfl⟩ := h
  rfl

theorem putRecipe_recipesOnly (s : State) (k : Nat) (x : Recipe) : RecipesOnly s (s.putRecipe k x) := ⟨_, _, rfl⟩

/-- From `s` to `t` nothing changes but recipes, nodes, the pool's slots, their memory, counters and the log. -/
def TreeOnly (s t : State) : Prop :=
  ∃ r n b k c l, t = { s with recipes := r, nodes := n, bonded := b, kv := k, counters := c, log := l }

theorem TreeOnly.refl (s : State) : TreeOnly s s := ⟨_, _, _, _, _, _, rfl⟩

theorem TreeOnly.trans {s t u : State} (h : TreeOnly s t) (h' : TreeOnly t u) : TreeOnly s u := by
  obtain ⟨_, _, _, _, _, _, rfl⟩ := h
  obtain ⟨_, _, _, _, _, _, rfl⟩ := h'
  exact ⟨_, _, _, _, _, _, rfl⟩

theorem NodesOnly.treeOnly {s t : State} (h : NodesOnly s t) : TreeOnly s t := by
  obtain ⟨_, _, _, _, rfl⟩ := h
  exact ⟨_, _, _, _, _, _, rfl⟩

theorem RecipesOnly.treeOnly {s t : State} (h : RecipesOnly s t) : TreeOnly s t := by
  obtain ⟨_, _, rfl⟩ := h
  exact ⟨_, _, _, _, _, _, rfl⟩

theorem TreeOnly.eq {s t : State} (h : TreeOnly s t) :
    t = { s with recipes := t.recipes, nodes := t.nodes, bonded := t.bonded, kv := t.kv, counters := t.counters, log := t.log } := by
  obtain ⟨_, _, _, _, _, _, rfl⟩ := h
  rfl

/-! ## Recipes reported and their loads ended -/

/-- A recipe reported not resident posts, and no more. -/
theorem notResident_frame (s : State) (k : Nat) (code : Half) : ∃ l, s.notResident k code = { s with log := l } := by
  unfold notResident
  split <;> exact ⟨_, rfl⟩

theorem notResident_recipe (s : State) (k : Nat) (code : Half) (j : Nat) : (s.notResident k code).recipe j = s.recipe j := by
  obtain ⟨l, hl⟩ := notResident_frame s k code
  rw [hl]
  rfl

theorem notResident_recipesOnly (s : State) (k : Nat) (code : Half) : RecipesOnly s (s.notResident k code) := by
  obtain ⟨l, hl⟩ := notResident_frame s k code
  exact ⟨_, l, hl⟩

/-- A code of the page tree shows in `PFX_STAT` (R221). -/
theorem lastCode_notResident {s : State} {k : Nat} {x : Recipe} (h : s.recipe k = some x) {code : Half} (hc : codeChapter code = 0xA0) :
    (s.notResident k code).lastCode 0x27010C = code := by
  simp only [notResident, h]
  refine (lastCode_raise ..).trans (if_pos ?_)
  simp [lastCodeKeys, hc]

/-- A load that waited has its record, and waits no more. -/
theorem waitingDone_leaves {s : State} {k : Nat} {r : Recipe} (h : s.recipe k = some r) (status : Half) :
    RecipesOnly s (s.waitingDone k status) ∧ (s.waitingDone k status).recipe k = some { r with waiting := none } ∧
    (∀ j, j ≠ k → (s.waitingDone k status).recipe j = s.recipe j) ∧
    ∀ o, (s.waitingDone k status).lastCode o = s.lastCode o := by
  simp only [waitingDone, h]
  split
  · next hw => exact ⟨.refl s, by rw [h, ← hw], fun _ _ => rfl, fun _ => rfl⟩
  · exact ⟨⟨_, _, rfl⟩, recipe_putRecipe_same .., fun j hj => recipe_putRecipe_other s _ hj,
      fun o => congrArg (tget 0 · o) (Log.complete_lastCodes ..)⟩

/-- A recipe that held a discarded node, as it stands after (R211). -/
def dropped (x : Recipe) : Recipe :=
  { x with nodes := [], todo := 0, inserted := [], revived := [], residentAt := false, failed := true, buildJob := false }

theorem dropHolder_holds {s : State} {bad : List Nat} {r : Nat} {x : Recipe} (hx : s.recipe r = some x)
    (hany : x.nodes.any (fun i => bad.contains i) = true) :
    s.dropHolder bad r = (((s.putRecipe r (dropped x)).unrefNodes (x.nodes.filter (fun i => !bad.contains i))).notResident r 0x2A03#16).waitingDone
      r 0x2A03#16 := by
  unfold dropHolder
  rw [hx]
  exact if_pos hany

theorem dropHolder_none {s : State} {bad : List Nat} {r : Nat}
    (h : ∀ x, s.recipe r = some x → x.nodes.any (fun i => bad.contains i) = false) : s.dropHolder bad r = s := by
  unfold dropHolder
  split
  · rfl
  · next x hx => exact if_neg (Bool.eq_false_iff.1 (h x hx))

/-- Dropping a holder changes no other recipe. -/
theorem dropHolder_leaves (s : State) (bad : List Nat) (r : Nat) :
    TreeOnly s (s.dropHolder bad r) ∧ ∀ j, j ≠ r → (s.dropHolder bad r).recipe j = s.recipe j := by
  by_cases h : ∃ x, s.recipe r = some x ∧ x.nodes.any (fun i => bad.contains i) = true
  · obtain ⟨x, hx, hany⟩ := h
    rw [dropHolder_holds hx hany]
    have hn := unrefNodes_nodesOnly (s.putRecipe r (dropped x)) (x.nodes.filter (fun i => !bad.contains i))
    generalize (s.putRecipe r (dropped x)).unrefNodes (x.nodes.filter (fun i => !bad.contains i)) = u at hn
    have hr : (u.notResident r 0x2A03#16).recipe r = some (dropped x) := by
      rw [notResident_recipe, hn.recipe, recipe_putRecipe_same]
    obtain ⟨hw, -, hother, -⟩ := waitingDone_leaves hr 0x2A03#16
    refine ⟨(putRecipe_recipesOnly ..).treeOnly.trans (hn.treeOnly.trans ((notResident_recipesOnly ..).trans hw).treeOnly), fun j hj => ?_⟩
    rw [hother j hj, notResident_recipe, hn.recipe, recipe_putRecipe_other s _ hj]
  · rw [dropHolder_none (by simpa using h)]
    exact ⟨.refl s, fun _ _ => rfl⟩

theorem dropHolders_treeOnly (s : State) (bad l : List Nat) : TreeOnly s (s.dropHolders bad l) := by
  induction l generalizing s with
  | nil => exact .refl s
  | cons r rest ih => exact (dropHolder_leaves s bad r).1.trans (ih _)

/-- A recipe without nodes is none of the holders that are dropped. -/
theorem dropHolders_recipe {s : State} {k : Nat} {x : Recipe} (bad l : List Nat) (h : s.recipe k = some x) (hnil : x.nodes = []) :
    (s.dropHolders bad l).recipe k = some x := by
  induction l generalizing s with
  | nil => exact h
  | cons r rest ih =>
    refine ih ?_
    by_cases hk : k = r
    · subst hk
      rw [dropHolder_none (fun y hy => ?_), h]
      obtain rfl : x = y := Option.some.inj (h.symm.trans hy)
      simp [hnil]
    · rw [(dropHolder_leaves s bad r).2 k hk, h]

/-! ## Giving an attempt up (R209, R220) -/

/-- A recipe's attempt given up: the nodes it inserted are set free with what holds them, and its other references released. -/
def giveUp (s : State) (k : Nat) (x : Recipe) (mine refs : List Nat) : State :=
  let s := s.putRecipe k x
  ((s.dropHolders mine (s.recipes.map (fun (p : Nat × Option Recipe) => p.1))).discardNodes mine).unrefNodes refs

theorem giveUp_leaves (s : State) (k : Nat) {x : Recipe} (hnil : x.nodes = []) (mine refs : List Nat) :
    TreeOnly s (s.giveUp k x mine refs) ∧ (s.giveUp k x mine refs).recipe k = some x := by
  unfold giveUp
  dsimp only
  have hd := dropHolders_treeOnly (s.putRecipe k x) mine ((s.putRecipe k x).recipes.map (fun (p : Nat × Option Recipe) => p.1))
  have hrec := dropHolders_recipe mine ((s.putRecipe k x).recipes.map (fun (p : Nat × Option Recipe) => p.1))
    (recipe_putRecipe_same s k x) hnil
  generalize (s.putRecipe k x).dropHolders mine _ = u at hd hrec
  have hn := (discardNodes_nodesOnly u mine).trans (unrefNodes_nodesOnly _ refs)
  exact ⟨(putRecipe_recipesOnly ..).treeOnly.trans (hd.trans hn.treeOnly), (hn.recipe k).trans hrec⟩

/-- A recipe whose residency has failed. -/
def residencyFailed (r : Recipe) : Recipe := { r with nodes := [], todo := 0, inserted := [], revived := [], failed := true }

theorem residencyFail_eq {s : State} {k : Nat} {r : Recipe} (h : s.recipe k = some r) (code : Half) :
    s.residencyFail k code =
      ((s.giveUp k (residencyFailed r) r.inserted (r.nodes.filter (fun i => !r.inserted.contains i))).notResident k code).waitingDone
        k code := by
  simp only [residencyFail, h]
  rfl

theorem residencyFail_leaves {s : State} {k : Nat} {r : Recipe} (h : s.recipe k = some r) {code : Half} (hc : codeChapter code = 0xA0) :
    TreeOnly s (s.residencyFail k code) ∧ (s.residencyFail k code).recipe k = some { residencyFailed r with waiting := none } ∧
    (s.residencyFail k code).lastCode 0x27010C = code := by
  obtain ⟨hg, hrec⟩ := giveUp_leaves s k (x := residencyFailed r) rfl r.inserted (r.nodes.filter (fun i => !r.inserted.contains i))
  rw [residencyFail_eq h]
  generalize s.giveUp k (residencyFailed r) r.inserted (r.nodes.filter (fun i => !r.inserted.contains i)) = u at hg hrec
  obtain ⟨hw, hrec', -, hcode⟩ := waitingDone_leaves ((notResident_recipe u k code k).trans hrec) code
  exact ⟨hg.trans ((notResident_recipesOnly ..).trans hw).treeOnly, hrec', (hcode _).trans (lastCode_notResident hrec hc)⟩

/-! ## RESIDENCY_STEP (R209) -/

/-- A recipe with one page more. -/
def pageTaken (r : Recipe) (i : Nat) (inserted revived : Bool) : Recipe :=
  { r with
    nodes := r.nodes ++ [i], todo := r.todo - 1, inserted := if inserted then r.inserted ++ [i] else r.inserted
    revived := if revived then r.revived ++ [i] else r.revived }

theorem takePage_eq {s : State} {k : Nat} {r : Recipe} (h : s.recipe k = some r) (i : Nat) (inserted revived : Bool) :
    s.takePage k i inserted revived = s.putRecipe k (pageTaken r i inserted revived) := by
  simp only [takePage, h]
  rfl

/-- A recipe made resident, or left as it is, keeps its nodes and what it has inserted and revived. -/
theorem checkResident_leaves {s : State} {k : Nat} {r : Recipe} (h : s.recipe k = some r) :
    RecipesOnly s (s.checkResident k) ∧ (∃ b, (s.checkResident k).recipe k = some { r with residentAt := b }) ∧
    ∀ j, j ≠ k → (s.checkResident k).recipe j = s.recipe j := by
  simp only [checkResident, h]
  split
  · exact ⟨putRecipe_recipesOnly .., ⟨_, recipe_putRecipe_same ..⟩, fun _ hj => recipe_putRecipe_other _ _ hj⟩
  · exact ⟨.refl s, ⟨_, h⟩, fun _ _ => rfl⟩

/-- Recipes that differ at most in the record they wait for and in being resident. -/
def samePages (x r : Recipe) : Prop := ∃ b w, x = { r with residentAt := b, waiting := w }

/-- The end of a residency changes the recipe's state and the log alone. -/
theorem residencyEnd_leaves {s : State} {k : Nat} {r : Recipe} (h : s.recipe k = some r) :
    RecipesOnly s (s.residencyEnd k) ∧ (∃ x, (s.residencyEnd k).recipe k = some x ∧ samePages x r) ∧
    ∀ j, j ≠ k → (s.residencyEnd k).recipe j = s.recipe j := by
  simp only [residencyEnd, h]
  split
  · obtain ⟨hw, hrec, hother, -⟩ := waitingDone_leaves h 0
    obtain ⟨hc, ⟨b, hb⟩, hother'⟩ := checkResident_leaves hrec
    exact ⟨hw.trans hc, ⟨_, hb, b, none, rfl⟩, fun j hj => (hother' j hj).trans (hother j hj)⟩
  · exact ⟨.refl s, ⟨r, h, _, _, rfl⟩, fun _ _ => rfl⟩

/-- A page taken, and the residency ended where it is the last. -/
theorem pageEnd_leaves {s : State} {k : Nat} {r : Recipe} (h : s.recipe k = some r) (i : Nat) (inserted revived : Bool) :
    RecipesOnly s ((s.takePage k i inserted revived).residencyEnd k) ∧
    (∃ x, ((s.takePage k i inserted revived).residencyEnd k).recipe k = some x ∧ samePages x (pageTaken r i inserted revived)) ∧
    ∀ j, j ≠ k → ((s.takePage k i inserted revived).residencyEnd k).recipe j = s.recipe j := by
  rw [takePage_eq h]
  obtain ⟨hr, hx, hother⟩ := residencyEnd_leaves (recipe_putRecipe_same s k (pageTaken r i inserted revived))
  exact ⟨(putRecipe_recipesOnly ..).trans hr, hx, fun j hj => (hother j hj).trans (recipe_putRecipe_other s _ hj)⟩

/-! ### The node of the page -/

theorem node_putNode_same (s : State) (i : Nat) (x : Node) : (s.putNode i x).node i = x := by
  simp only [node, putNode, tget_tset_same]

theorem node_putNode_other (s : State) {i j : Nat} (x : Node) (h : j ≠ i) : (s.putNode i x).node j = s.node j := by
  simp only [node, putNode, tget_tset_other _ _ _ h]

theorem kvVoid_nodesOnly (s : State) (n : Nat) : NodesOnly s (s.kvVoid n) := ⟨_, _, _, _, rfl⟩

/-- A retired node revived for a page: ready again, with one reference, and its slot no longer due to be freed. -/
def reviveNode (s : State) (i : Nat) : State :=
  ((s.putNode i { s.node i with state := 2, refs := 1, retiredAt := 0 }).kvVoid (s.node i).slot).bump 0x270128 1

/-- A node shared by one page more. -/
def shareNode (s : State) (i : Nat) : State := (s.putNode i { s.node i with refs := (s.node i).refs + 1 }).bump 0x270120 1

/-- The node that a page without one is built in. -/
def freshNode (key slot : Nat) (r : Recipe) : Node :=
  { hash := r.hashes.getD r.nodes.length [], slot, parent := r.nodes.getLast?, page := r.nodes.length
    tokens := r.tokensOf.getD r.nodes.length 0, state := 1, refs := 1, builder := some key }

/-- A node inserted with a slot for a page to be built. -/
def insertNode (s : State) (key i slot : Nat) (r : Recipe) : State := (s.putNode i (freshNode key slot r)).bump 0x270124 1

theorem reviveNode_nodesOnly (s : State) (i : Nat) : NodesOnly s (s.reviveNode i) :=
  (putNode_nodesOnly ..).trans ((kvVoid_nodesOnly ..).trans (bump_nodesOnly ..))

theorem shareNode_nodesOnly (s : State) (i : Nat) : NodesOnly s (s.shareNode i) := (putNode_nodesOnly ..).trans (bump_nodesOnly ..)

theorem insertNode_nodesOnly (s : State) (key i slot : Nat) (r : Recipe) : NodesOnly s (s.insertNode key i slot r) :=
  (putNode_nodesOnly ..).trans (bump_nodesOnly ..)

theorem bump_node (s : State) (o n j : Nat) : (s.bump o n).node j = s.node j := rfl

theorem kvVoid_node (s : State) (n j : Nat) : (s.kvVoid n).node j = s.node j := rfl

theorem reviveNode_same (s : State) (i : Nat) : (s.reviveNode i).node i = { s.node i with state := 2, refs := 1, retiredAt := 0 } := by
  simp only [reviveNode, bump_node, kvVoid_node, node_putNode_same]

theorem reviveNode_other (s : State) {i j : Nat} (h : j ≠ i) : (s.reviveNode i).node j = s.node j := by
  simp only [reviveNode, bump_node, kvVoid_node, node_putNode_other s _ h]

theorem reviveNode_counter (s : State) (i : Nat) : (s.reviveNode i).counter 0x270128 = satAdd (s.counter 0x270128) 1 := by
  rw [reviveNode, bump_same]
  rfl

theorem shareNode_same (s : State) (i : Nat) : (s.shareNode i).node i = { s.node i with refs := (s.node i).refs + 1 } := by
  simp only [shareNode, bump_node, node_putNode_same]

theorem shareNode_other (s : State) {i j : Nat} (h : j ≠ i) : (s.shareNode i).node j = s.node j := by
  simp only [shareNode, bump_node, node_putNode_other s _ h]

theorem shareNode_counter (s : State) (i : Nat) : (s.shareNode i).counter 0x270120 = satAdd (s.counter 0x270120) 1 := by
  rw [shareNode, bump_same]
  rfl

theorem insertNode_same (s : State) (key i slot : Nat) (r : Recipe) : (s.insertNode key i slot r).node i = freshNode key slot r := by
  simp only [insertNode, bump_node, node_putNode_same]

theorem insertNode_other (s : State) (key slot : Nat) (r : Recipe) {i j : Nat} (h : j ≠ i) : (s.insertNode key i slot r).node j = s.node j := by
  simp only [insertNode, bump_node, node_putNode_other s _ h]

theorem insertNode_counter (s : State) (key i slot : Nat) (r : Recipe) :
    (s.insertNode key i slot r).counter 0x270124 = satAdd (s.counter 0x270124) 1 := by
  rw [insertNode, bump_same]
  rfl

/-- No deferred entry of a voided slot is still due. -/
theorem kvVoid_voided (s : State) (n : Nat) : ∀ y ∈ (s.kvVoid n).kv.deferred, y.slot = n → y.voided = true := by
  intro y hy hn
  obtain ⟨d, -, rfl⟩ := List.mem_map.1 hy
  split_ifs at hn ⊢ with h
  · rfl
  · exact absurd hn h

/-- A slot taken changes the pool alone (R196). -/
theorem kvTake_nodesOnly {s u : State} {slot : Nat} (h : s.kvTake = some (slot, u)) : 
    NodesOnly s u ∧ (∀ j, u.node j = s.node j) ∧ ∀ o, u.counter o = s.counter o := by
  unfold kvTake at h
  split at h
  · obtain ⟨-, rfl⟩ := Prod.mk.inj (Option.some.inj h)
    exact ⟨⟨_, _, _, _, rfl⟩, fun _ => rfl, fun _ => rfl⟩
  · split at h
    · obtain ⟨-, rfl⟩ := Prod.mk.inj (Option.some.inj h)
      exact ⟨⟨_, _, _, _, rfl⟩, fun _ => rfl, fun _ => rfl⟩
    · cases h

/-! ### The step -/

theorem residencyStep_none {s : State} {key : Nat} (hserves : s.serves = true)
    (h : s.recipe key = none ∨ s.kv.treeRunning = false ∨ (∃ r, s.recipe key = some r ∧ (r.todo = 0 ∨ r.failed = true))) :
    exec (.residencyStep key) s = .next s := by
  refine congrArg Host.Outcome.next ((if_pos hserves).trans ?_)
  unfold residencyStepEff
  split
  · rfl
  · next r hr =>
    refine if_pos ?_
    obtain h | h | ⟨x, hx, h⟩ := h
    · rw [hr] at h
      cases h
    · exact .inr (.inr (by simp [h]))
    · obtain rfl : r = x := Option.some.inj (hr.symm.trans hx)
      exact h.imp_right .inl

section
variable {s : State} {key : Nat} {r : Recipe} (hr : s.recipe key = some r) (htodo : r.todo ≠ 0) (hfailed : r.failed = false)
  (htree : s.kv.treeRunning = true)
include hr htodo hfailed htree

theorem residencyStepEff_found {i : Nat} (hl : s.lookup (r.hashes.getD r.nodes.length []) = some i) :
    s.residencyStepEff key =
      if (s.node i).state = 3 then ((s.reviveNode i).takePage key i false true).residencyEnd key
      else ((s.shareNode i).takePage key i false false).residencyEnd key := by
  unfold residencyStepEff
  rw [hr]
  dsimp only
  rw [if_neg (by simp [htodo, hfailed, htree]), hl]
  rfl

theorem residencyStepEff_inserts {u : State} {i slot : Nat} (hl : s.lookup (r.hashes.getD r.nodes.length []) = none)
    (hway : s.freeWay (r.hashes.getD r.nodes.length []) = some i) (hroom : s.kvResv + 1 + s.kvGrow ≤ s.kvFree)
    (htake : s.kvTake = some (slot, u)) :
    s.residencyStepEff key = ((u.insertNode key i slot r).takePage key i true false).residencyEnd key := by
  unfold residencyStepEff
  rw [hr]
  dsimp only
  rw [if_neg (by simp [htodo, hfailed, htree]), hl, hway]
  dsimp only
  rw [if_neg (by omega), htake]
  rfl

theorem residencyStepEff_fails {e : Half} (hl : s.lookup (r.hashes.getD r.nodes.length []) = none)
    (he : s.freeWay (r.hashes.getD r.nodes.length []) = none ∧ e = 0x3A01#16 ∨
      s.freeWay (r.hashes.getD r.nodes.length []) ≠ none ∧ (s.kvFree < s.kvResv + 1 + s.kvGrow ∨ s.kvTake = none) ∧ e = 0x3A02#16) :
    s.residencyStepEff key = s.residencyFail key e := by
  unfold residencyStepEff
  rw [hr]
  dsimp only
  rw [if_neg (by simp [htodo, hfailed, htree]), hl]
  obtain ⟨hway, rfl⟩ | ⟨hway, hroom, rfl⟩ := he
  · rw [hway]
  · obtain ⟨i, hi⟩ := Option.ne_none_iff_exists'.1 hway
    rw [hi]
    dsimp only
    split
    · rfl
    · next h => rw [hroom.resolve_left h]

omit htodo hfailed htree

/-- A step that takes a page, once the page's node is in place. -/
theorem residencyStep_page {u : State} {i : Nat} {inserted revived : Bool} (hserves : s.serves = true) (hu : NodesOnly s u)
    (he : s.residencyStepEff key = (u.takePage key i inserted revived).residencyEnd key) :
    ∃ (t : State) (x : Recipe), exec (.residencyStep key) s = .next t ∧ t.recipe key = some x ∧
      samePages x (pageTaken r i inserted revived) ∧ (∀ j, t.node j = u.node j) ∧ t.kv = u.kv ∧
      (∀ o, t.counter o = u.counter o) ∧
      (∀ k, k ≠ key → t.recipe k = s.recipe k) ∧
      t = { s with recipes := t.recipes, nodes := t.nodes, bonded := t.bonded, kv := t.kv, counters := t.counters, log := t.log } := by
  obtain ⟨hrec, ⟨x, hx, hsame⟩, hother⟩ := pageEnd_leaves ((hu.recipe key).trans hr) i inserted revived
  rw [← he] at hrec hx hother
  exact ⟨_, x, congrArg Host.Outcome.next (if_pos hserves), hx, hsame, hrec.node, hrec.kv, hrec.counter,
    fun k hk => (hother k hk).trans (hu.recipe k), (hu.treeOnly.trans hrec.treeOnly).eq⟩

end

/-- A page whose node is there: a retired node is revived, any other is shared. -/
theorem residencyStep_found {s : State} {key i : Nat} {r : Recipe} (hserves : s.serves = true) (hr : s.recipe key = some r)
    (htodo : r.todo ≠ 0) (hfailed : r.failed = false) (htree : s.kv.treeRunning = true)
    (hl : s.lookup (r.hashes.getD r.nodes.length []) = some i) :
    ∃ (t : State) (x : Recipe), exec (.residencyStep key) s = .next t ∧ t.recipe key = some x ∧ x.nodes = r.nodes ++ [i] ∧
      x.todo = r.todo - 1 ∧ x.inserted = r.inserted ∧
      ((s.node i).state = 3 → t.node i = { s.node i with state := 2, refs := 1, retiredAt := 0 } ∧ x.revived = r.revived ++ [i] ∧
        t.counter 0x270128 = satAdd (s.counter 0x270128) 1 ∧
        ∀ y ∈ t.kv.deferred, y.slot = (s.node i).slot → y.voided = true) ∧
      ((s.node i).state ≠ 3 → t.node i = { s.node i with refs := (s.node i).refs + 1 } ∧ x.revived = r.revived ∧
        t.counter 0x270120 = satAdd (s.counter 0x270120) 1 ∧ t.kv = s.kv) ∧
      (∀ j, j ≠ i → t.node j = s.node j) ∧ (∀ k, k ≠ key → t.recipe k = s.recipe k) ∧
      t = { s with recipes := t.recipes, nodes := t.nodes, bonded := t.bonded, kv := t.kv, counters := t.counters, log := t.log } := by
  have he := residencyStepEff_found hr htodo hfailed htree hl
  by_cases h3 : (s.node i).state = 3
  · obtain ⟨t, x, hx, hrec, ⟨_, _, rfl⟩, hnode, hkv, hcounter, hother, hframe⟩ :=
      residencyStep_page hr hserves (reviveNode_nodesOnly s i) (he.trans (if_pos h3))
    refine ⟨t, _, hx, hrec, rfl, rfl, rfl, fun _ => ⟨(hnode i).trans (reviveNode_same s i), rfl, (hcounter _).trans (reviveNode_counter s i), ?_⟩,
      fun h => absurd h3 h, fun j hj => (hnode j).trans (reviveNode_other s hj), hother, hframe⟩
    rw [hkv]
    exact kvVoid_voided _ _
  · obtain ⟨t, x, hx, hrec, ⟨_, _, rfl⟩, hnode, hkv, hcounter, hother, hframe⟩ :=
      residencyStep_page hr hserves (shareNode_nodesOnly s i) (he.trans (if_neg h3))
    exact ⟨t, _, hx, hrec, rfl, rfl, rfl, fun h => absurd h h3,
      fun _ => ⟨(hnode i).trans (shareNode_same s i), rfl, (hcounter _).trans (shareNode_counter s i), hkv⟩,
      fun j hj => (hnode j).trans (shareNode_other s hj), hother, hframe⟩

/-- A page without a node, where a way and a slot are free: a new node. -/
theorem residencyStep_inserts {s u : State} {key i slot : Nat} {r : Recipe} (hserves : s.serves = true) (hr : s.recipe key = some r)
    (htodo : r.todo ≠ 0) (hfailed : r.failed = false) (htree : s.kv.treeRunning = true)
    (hl : s.lookup (r.hashes.getD r.nodes.length []) = none) (hway : s.freeWay (r.hashes.getD r.nodes.length []) = some i)
    (hroom : s.kvResv + 1 + s.kvGrow ≤ s.kvFree) (htake : s.kvTake = some (slot, u)) :
    ∃ (t : State) (x : Recipe), exec (.residencyStep key) s = .next t ∧ t.recipe key = some x ∧ x.nodes = r.nodes ++ [i] ∧
      x.todo = r.todo - 1 ∧ x.inserted = r.inserted ++ [i] ∧
      t.node i = { hash := r.hashes.getD r.nodes.length [], slot, parent := r.nodes.getLast?, page := r.nodes.length
                   tokens := r.tokensOf.getD r.nodes.length 0, state := 1, refs := 1, builder := some key } ∧
      t.kv = u.kv ∧ t.counter 0x270124 = satAdd (s.counter 0x270124) 1 ∧
      (∀ j, j ≠ i → t.node j = s.node j) ∧ (∀ k, k ≠ key → t.recipe k = s.recipe k) ∧
      t = { s with recipes := t.recipes, nodes := t.nodes, bonded := t.bonded, kv := t.kv, counters := t.counters, log := t.log } := by
  obtain ⟨hu, hunode, hucounter⟩ := kvTake_nodesOnly htake
  obtain ⟨t, x, hx, hrec, ⟨_, _, rfl⟩, hnode, hkv, hcounter, hother, hframe⟩ := residencyStep_page hr hserves
    (hu.trans (insertNode_nodesOnly u key i slot r)) (residencyStepEff_inserts hr htodo hfailed htree hl hway hroom htake)
  exact ⟨t, _, hx, hrec, rfl, rfl, rfl, (hnode i).trans (insertNode_same u key i slot r), hkv,
    (hcounter _).trans ((insertNode_counter u key i slot r).trans (congrArg (satAdd · 1) (hucounter _))),
    fun j hj => (hnode j).trans ((insertNode_other u key slot r hj).trans (hunode j)), hother, hframe⟩

/-- A page for which no way, or no slot, is free: the residency fails. -/
theorem residencyStep_fails {s : State} {key : Nat} {r : Recipe} {e : Half} (hserves : s.serves = true) (hr : s.recipe key = some r)
    (htodo : r.todo ≠ 0) (hfailed : r.failed = false) (htree : s.kv.treeRunning = true)
    (hl : s.lookup (r.hashes.getD r.nodes.length []) = none)
    (he : s.freeWay (r.hashes.getD r.nodes.length []) = none ∧ e = 0x3A01#16 ∨
      s.freeWay (r.hashes.getD r.nodes.length []) ≠ none ∧ (s.kvFree < s.kvResv + 1 + s.kvGrow ∨ s.kvTake = none) ∧ e = 0x3A02#16) :
    ∃ (t : State) (x : Recipe), exec (.residencyStep key) s = .next t ∧ t.recipe key = some x ∧ x.failed = true ∧ x.nodes = [] ∧
      x.todo = 0 ∧ x.waiting = none ∧ t.lastCode 0x27010C = e ∧
      t = { s with recipes := t.recipes, nodes := t.nodes, bonded := t.bonded, kv := t.kv, counters := t.counters, log := t.log } := by
  have hchapter : codeChapter e = 0xA0 := by
    obtain ⟨-, rfl⟩ | ⟨-, -, rfl⟩ := he <;> rfl
  obtain ⟨hframe, hrec, hcode⟩ := residencyFail_leaves hr hchapter
  exact ⟨_, _, congrArg Host.Outcome.next ((if_pos hserves).trans (residencyStepEff_fails hr htodo hfailed htree hl he)), hrec, rfl, rfl,
    rfl, rfl, hcode, hframe.eq⟩

/-! ## RECIPE_UNLOAD (R220) -/

/-- A draining recipe: it goes with its references where no track of it is open and no build of it runs, and else it stays. -/
theorem drainRecipe_leaves {s : State} {k : Nat} {r : Recipe} (h : s.recipe k = some r) (hd : r.draining = true) :
    TreeOnly s (s.drainRecipe k) ∧ (s.openTracks k = false → r.buildJob = false → (s.drainRecipe k).recipe k = none) ∧
    (s.openTracks k = true ∨ r.buildJob = true → s.drainRecipe k = s) := by
  simp only [drainRecipe, h]
  split
  · next hgo =>
    obtain ⟨-, hclosed, hidle⟩ := hgo
    have hn := unrefNodes_nodesOnly s r.nodes
    refine ⟨hn.treeOnly.trans ⟨_, _, _, _, _, _, rfl⟩, fun _ _ => recipe_dropRecipe_same .., fun hstay => ?_⟩
    simp [hclosed, hidle] at hstay
  · next hstay => exact ⟨.refl s, fun h1 h2 => absurd ⟨hd, by simp [h1], by simp [h2]⟩ hstay, fun _ => rfl⟩

/-- The nodes that a recipe's build still holds. -/
def building (s : State) (key : Nat) : List Nat :=
  (s.nodes.filter (fun (p : Nat × Node) => decide (p.2.state = 1) && decide (p.2.builder = some key))).map (fun (p : Nat × Node) => p.1)

theorem building_ne_nil {s : State} {key : Nat} (h : ∃ n ∈ s.nodes, n.2.state = 1 ∧ n.2.builder = some key) : s.building key ≠ [] := by
  obtain ⟨n, hn, h1, h2⟩ := h
  exact List.ne_nil_of_mem (List.mem_map.2 ⟨n, List.mem_filter.2 ⟨hn, by simp [h1, h2]⟩, rfl⟩)

theorem building_eq_nil {s : State} {key : Nat} (h : ∀ n ∈ s.nodes, n.2.state ≠ 1 ∨ n.2.builder ≠ some key) : s.building key = [] := by
  unfold building
  rw [List.map_eq_nil_iff, List.filter_eq_nil_iff]
  intro n hn
  simpa [imp_iff_not_or] using h n hn

/-- A recipe given up by its unload. -/
def unloaded (r : Recipe) : Recipe := { r with nodes := [], todo := 0, failed := true }

theorem descDone_treeOnly (s : State) (d : DescHdr) (status : Half) (result : Nat) : TreeOnly s (s.descDone d status result) :=
  ⟨_, _, _, _, _, _, rfl⟩

section
variable {s : State} {d : DescHdr} {idx key : Nat} (hkey : key = d.fn.val * 65536 + idx)
include hkey

theorem recipeUnloadEff_active {r : Recipe} (hr : s.recipe key = some r) (hactive : ∃ q ∈ s.active, q.2 = some key) :
    ∃ l, s.recipeUnloadEff d idx = State.descDone { s with log := l } d 0x1A03#16 ∧ tget 0 l.lastCodes 0x27010C = 0x1A03#16 := by
  subst hkey
  obtain ⟨q, hq, h⟩ := hactive
  have hany : s.active.any (fun (p : Nat × Option Nat) => decide (p.2 = some (d.fn.val * 65536 + idx))) = true :=
    List.any_eq_true.2 ⟨q, hq, decide_eq_true h⟩
  unfold recipeUnloadEff
  dsimp only
  rw [hr]
  dsimp only
  rw [if_pos hany]
  refine ⟨_, rfl, ?_⟩
  rw [Log.last_lastCodes, tget_setCodes]
  exact if_pos (by decide)

theorem recipeUnloadEff_inactive {r : Recipe} (hr : s.recipe key = some r) (hidle : ∀ q ∈ s.active, q.2 ≠ some key) :
    s.recipeUnloadEff d idx =
      if ¬ (s.building key).isEmpty = true ∧ ¬ r.buildJob = true then
        ((s.giveUp key (unloaded r) (s.building key) (r.nodes.filter (fun i => !(s.building key).contains i))).dropRecipe key).descDone d 0
      else ((s.putRecipe key { r with draining := true }).drainRecipe key).descDone d 0 := by
  subst hkey
  have hnone : ¬ s.active.any (fun (p : Nat × Option Nat) => decide (p.2 = some (d.fn.val * 65536 + idx))) = true := by
    rw [List.any_eq_true]
    rintro ⟨q, hq, h⟩
    exact hidle q hq (of_decide_eq_true h)
  unfold recipeUnloadEff
  dsimp only
  rw [hr]
  dsimp only
  rw [if_neg hnone]
  rfl

/-- An unload of an inactive recipe: it goes at once, or it drains. -/
theorem recipeUnload_inactive {r : Recipe} (hserves : s.serves = true) (hr : s.recipe key = some r)
    (hidle : ∀ q ∈ s.active, q.2 ≠ some key) :
    ∃ t : State, exec (.recipeUnload d idx) s = .next t ∧
      ((∃ n ∈ s.nodes, n.2.state = 1 ∧ n.2.builder = some key) → r.buildJob = false → t.recipe key = none) ∧
      ((∀ n ∈ s.nodes, n.2.state ≠ 1 ∨ n.2.builder ≠ some key) → s.openTracks key = false → r.buildJob = false → t.recipe key = none) ∧
      (((∀ n ∈ s.nodes, n.2.state ≠ 1 ∨ n.2.builder ≠ some key) ∧ s.openTracks key = true ∨ r.buildJob = true) →
        t.recipe key = some { r with draining := true } ∧ t.nodes = s.nodes) ∧
      t = { s with recipes := t.recipes, nodes := t.nodes, bonded := t.bonded, kv := t.kv, counters := t.counters, log := t.log } := by
  have he := recipeUnloadEff_inactive hkey hr hidle
  by_cases hb : ¬ (s.building key).isEmpty = true ∧ ¬ r.buildJob = true
  · obtain ⟨hbuilding, hnojob⟩ := hb
    obtain ⟨hg, -⟩ := giveUp_leaves s key (x := unloaded r) rfl (s.building key) (r.nodes.filter (fun i => !(s.building key).contains i))
    rw [if_pos ⟨hbuilding, hnojob⟩] at he
    generalize s.giveUp key (unloaded r) _ _ = u at hg he
    have hnone : ((u.dropRecipe key).descDone d 0).recipe key = none := recipe_dropRecipe_same u key
    refine ⟨_, congrArg Host.Outcome.next ((if_pos hserves).trans he), fun _ _ => hnone, fun _ _ _ => hnone, fun h => ?_,
      (hg.trans (TreeOnly.trans ⟨_, _, _, _, _, _, rfl⟩ (descDone_treeOnly (u.dropRecipe key) d 0 0))).eq⟩
    obtain ⟨h, -⟩ | h := h
    · exact absurd (by rw [building_eq_nil h]; rfl) hbuilding
    · exact absurd h hnojob
  · have hput := recipe_putRecipe_same s key { r with draining := true }
    obtain ⟨hd, hgone, hstay⟩ := drainRecipe_leaves hput rfl
    rw [if_neg hb] at he
    refine ⟨_, congrArg Host.Outcome.next ((if_pos hserves).trans he), fun h hjob => ?_, fun _ hclosed hjob => hgone hclosed hjob, fun h => ?_,
      ((putRecipe_recipesOnly ..).treeOnly.trans (hd.trans (descDone_treeOnly ..))).eq⟩
    · exact absurd ⟨by simpa using building_ne_nil h, by simp [hjob]⟩ hb
    · rw [hstay (h.imp And.right id)]
      exact ⟨hput, rfl⟩

end

theorem recipeUnload_active {s : State} {d : DescHdr} {idx key : Nat} {r : Recipe} (hserves : s.serves = true)
    (hkey : key = d.fn.val * 65536 + idx) (hr : s.recipe key = some r) (hactive : ∃ q ∈ s.active, q.2 = some key) :
    ∃ t : State, exec (.recipeUnload d idx) s = .next t ∧ t.lastCode 0x27010C = 0x1A03#16 ∧ t = { s with log := t.log } := by
  obtain ⟨l, he, hcode⟩ := recipeUnloadEff_active hkey hr hactive
  exact ⟨_, congrArg Host.Outcome.next ((if_pos hserves).trans he), (lastCode_descDone ..).trans hcode, rfl⟩

theorem recipeUnload_none {s : State} {d : DescHdr} {idx : Nat} (hserves : s.serves = true) (h : s.recipe (d.fn.val * 65536 + idx) = none) :
    exec (.recipeUnload d idx) s = .next (s.descDone d 0x1031#16) := by
  refine congrArg Host.Outcome.next ((if_pos hserves).trans ?_)
  unfold recipeUnloadEff
  dsimp only
  rw [h]

/-! ## CHANGEOVER (R219) -/

theorem changes_descDone (s : State) (d : DescHdr) (status : Half) (result : Nat) : (s.descDone d status result).changes = s.changes := rfl

theorem changeover_leaves {s : State} {d : DescHdr} {k : Fin 18} {w : Fin 4} {vf : Fin 7} {idx at_ : Nat} (hserves : s.serves = true) :
    (d.fn.val = 0 → vf.val ≠ 0 → s.recipe (vf.val * 65536 + idx) ≠ none → w.val ≠ 3 →
      ∃ t : State, exec (.changeover d k w vf idx at_) s = .next t ∧
        tget none t.changes k = some { recipe := vf.val * 65536 + idx, when_ := w.val, at_ := at_ % 2 ^ 48 } ∧
        (∀ j, j ≠ k.val → tget none t.changes j = tget none s.changes j) ∧ t = { s with changes := t.changes, log := t.log }) ∧
    ((d.fn.val ≠ 0 ∨ vf.val = 0 ∨ s.recipe (vf.val * 65536 + idx) = none ∨ w.val = 3) →
      ∃ t : State, exec (.changeover d k w vf idx at_) s = .next t ∧ t = { s with log := t.log }) := by
  have he : exec (.changeover d k w vf idx at_) s = .next (s.changeoverEff d k w vf idx at_) :=
    congrArg Host.Outcome.next (if_pos hserves)
  unfold changeoverEff at he
  dsimp only at he
  constructor
  · intro hfn hvf hrec hw
    rw [if_neg (by simp [hfn, hvf, hrec]), if_neg hw] at he
    refine ⟨_, he, ?_, fun j hj => ?_, rfl⟩
    · simp only [changes_descDone, tget_tset_same]
    · simp only [changes_descDone, tget_tset_other _ _ _ hj]
  · intro h
    by_cases hbad : d.fn.val ≠ 0 ∨ vf.val = 0 ∨ (s.recipe (vf.val * 65536 + idx)).isNone = true
    · rw [if_pos hbad] at he
      exact ⟨_, he, rfl⟩
    · rw [if_neg hbad, if_pos (by simp only [Option.isNone_iff_eq_none] at hbad; tauto)] at he
      exact ⟨_, he, rfl⟩

/-! ## RECIPE_LOAD (R225, R347, R432) -/

theorem lastAll_frame (s : State) (code : Half) (kind : Nat) (units : List Nat) : ∃ l, s.lastAll code kind units = { s with log := l } := by
  induction units generalizing s with
  | nil => exact ⟨_, rfl⟩
  | cons i rest ih =>
    obtain ⟨l, hl⟩ := ih { s with log := s.log.last code kind i }
    exact ⟨l, hl⟩

theorem loadLast_frame (s : State) (p : Nat) (code : Half) : ∃ l, s.loadLast p code = { s with log := l } := by
  unfold loadLast
  dsimp only
  split
  · exact lastAll_frame ..
  · split
    · obtain ⟨l, hl⟩ := lastAll_frame { s with log := s.log.last code 0x06 0x10 } code 0x05 (s.polderEngines p)
      exact ⟨l, hl⟩
    · split <;> exact ⟨_, rfl⟩

/-- A load that fails reports, and no more; a code of the security chapter shows in the SEC block's LAST_CODE. -/
theorem loadFailed_leaves (s : State) (d : DescHdr) (f : LoadFail) : ∃ l, s.loadFailed d f = { s with log := l } ∧
    (codeChapter f.code = 0x07 → tget 0 l.lastCodes 0x320000 = f.code) := by
  obtain ⟨l, hl⟩ := loadLast_frame s (d.fn - 1) f.code
  unfold loadFailed
  rw [hl]
  dsimp only
  split
  · exact ⟨_, rfl, fun _ => (lastCode_descDone ..).trans ((lastCode_raise ..).trans (if_pos (List.mem_singleton_self _)))⟩
  · next hc => split <;> exact ⟨_, rfl, fun h => absurd h hc⟩

theorem recipeLoad_exec {s : State} (d : DescHdr) (addr len : Nat) (hserves : s.serves = true) :
    exec (.recipeLoad d addr len) s = .next (s.recipeLoadEff d addr len) := congrArg Host.Outcome.next (if_pos hserves)

section
variable {s : State} {d : DescHdr} {addr len p : Nat} (hfn : d.fn.val = p + 1) (hmade : (s.polder p).made = true)
  (hlen : len ≤ (s.polder p).size)
include hfn hmade hlen

theorem recipeLoadEff_of_envelope_error {e : Half} (he : s.envelope (readBytes s.log.host addr len) = .error e) :
    s.recipeLoadEff d addr len = s.loadFailed d { code := e } := by
  unfold recipeLoadEff
  dsimp only
  rw [hfn, Nat.add_sub_cancel, if_neg (by simp [hmade]; omega)]
  simp only [he]

theorem recipeLoadEff_of_container_error {c : List Byte} {f : LoadFail} (hc : s.envelope (readBytes s.log.host addr len) = .ok c)
    (hf : parseContainer (s.loadRoom p) s.line.level s.line.running c s.kv.treeRunning s.kvSlotBytes = .error f) :
    s.recipeLoadEff d addr len = s.loadFailed d f := by
  unfold recipeLoadEff
  dsimp only
  rw [hfn, Nat.add_sub_cancel, if_neg (by simp [hmade]; omega)]
  simp only [hc, hf]

theorem recipeLoadEff_of_container_ok {c : List Byte} {r : Recipe} (hc : s.envelope (readBytes s.log.host addr len) = .ok c)
    (hr : parseContainer (s.loadRoom p) s.line.level s.line.running c s.kv.treeRunning s.kvSlotBytes = .ok r) :
    s.recipeLoadEff d addr len = s.placeRecipe d c (envEnc (readBytes s.log.host addr len)) r := by
  unfold recipeLoadEff
  dsimp only
  rw [hfn, Nat.add_sub_cancel, if_neg (by simp [hmade]; omega)]
  simp only [hc, hr]

end

/-- A container that passes every check is placed in its polder's memory; its residency has failed, is complete or waits. -/
theorem placeRecipe_leaves {s : State} {d : DescHdr} {p : Nat} {c : List Byte} {encrypted : Bool} {r : Recipe} (hfn : d.fn.val = p + 1) :
    ∃ x l, s.placeRecipe d c encrypted r =
      { s with
        bonded := writeBytes s.bonded (s.recipeBase p (s.freeRecipe (p + 1)) c.length) c
        recipes := tset none s.recipes ((p + 1) * 65536 + s.freeRecipe (p + 1)) (some x), log := l } ∧
      x.fn = p + 1 ∧ x.base = s.recipeBase p (s.freeRecipe (p + 1)) c.length ∧ x.progs = r.progs ∧ x.hashes = r.hashes ∧
      x.todo = r.todo ∧ x.failed = r.failed ∧ (r.failed = true → tget 0 l.lastCodes 0x27010C = 0x1A01#16) ∧
      (r.failed = false → r.todo = 0 → x.residentAt = true) ∧
      (r.failed = false → r.todo ≠ 0 → x.waiting = some (d.ring, d.tag, d.irq) ∧ l = s.log) := by
  unfold placeRecipe
  dsimp only
  rw [hfn, Nat.add_sub_cancel]
  split
  · next hfailed =>
    have hrec := recipe_putRecipe_same { s with bonded := writeBytes s.bonded (s.recipeBase p (s.freeRecipe (p + 1)) c.length) c }
      ((p + 1) * 65536 + s.freeRecipe (p + 1))
      { r with fn := p + 1, base := s.recipeBase p (s.freeRecipe (p + 1)) c.length, encrypted }
    obtain ⟨l, hl⟩ := notResident_frame (State.putRecipe { s with bonded := writeBytes s.bonded (s.recipeBase p (s.freeRecipe (p + 1)) c.length) c }
      ((p + 1) * 65536 + s.freeRecipe (p + 1))
      { r with fn := p + 1, base := s.recipeBase p (s.freeRecipe (p + 1)) c.length, encrypted })
      ((p + 1) * 65536 + s.freeRecipe (p + 1)) 0x1A01#16
    have hcode := lastCode_notResident hrec (code := 0x1A01#16) rfl
    rw [hl] at hcode ⊢
    exact ⟨_, _, rfl, rfl, rfl, rfl, rfl, rfl, rfl, fun _ => (lastCode_descDone ..).trans hcode, fun h => absurd hfailed (by simp [h]),
      fun h => absurd hfailed (by simp [h])⟩
  · next hfailed =>
    split
    · next htodo =>
      exact ⟨_, _, rfl, rfl, rfl, rfl, rfl, rfl, rfl, fun h => absurd h hfailed, fun _ _ => rfl, fun _ h => absurd htodo h⟩
    · next htodo =>
      exact ⟨_, _, rfl, rfl, rfl, rfl, rfl, rfl, rfl, fun h => absurd h hfailed, fun _ h => absurd h htodo, fun _ _ => ⟨rfl, rfl⟩⟩

/-- RECIPE_LOAD of a container that passes every check. -/
theorem recipeLoad_places {s : State} {d : DescHdr} {addr len p key : Nat} {c : List Byte} {r : Recipe} (hserves : s.serves = true)
    (hfn : d.fn.val = p + 1) (hmade : (s.polder p).made = true) (hlen : len ≤ (s.polder p).size)
    (hc : s.envelope (readBytes s.log.host addr len) = .ok c)
    (hr : parseContainer (s.loadRoom p) s.line.level s.line.running c s.kv.treeRunning s.kvSlotBytes = .ok r)
    (hkey : key = (p + 1) * 65536 + s.freeRecipe (p + 1)) :
    ∃ (t : State) (x : Recipe), exec (.recipeLoad d addr len) s = .next t ∧ t.recipe key = some x ∧ x.fn = p + 1 ∧
      x.base = s.recipeBase p (s.freeRecipe (p + 1)) c.length ∧ x.progs = r.progs ∧ x.hashes = r.hashes ∧ x.todo = r.todo ∧
      x.failed = r.failed ∧
      (r.failed = true → t.lastCode 0x27010C = 0x1A01#16) ∧ (r.failed = false → r.todo = 0 → x.residentAt = true) ∧
      (r.failed = false → r.todo ≠ 0 → x.waiting = some (d.ring, d.tag, d.irq) ∧ t.log = s.log) ∧
      (∀ k, k ≠ key → t.recipe k = s.recipe k) ∧
      (∀ a, (a < x.base ∨ x.base + c.length ≤ a) → byteAt t.bonded a = byteAt s.bonded a) ∧
      (∀ i, i < c.length → byteAt t.bonded (x.base + i) = c.getD i 0) ∧
      t = { s with recipes := t.recipes, bonded := t.bonded, log := t.log } := by
  subst hkey
  have he := recipeLoadEff_of_container_ok hfn hmade hlen hc hr
  obtain ⟨x, l, hplace, hxfn, hbase, hprogs, hhashes, htodo, hfailed, hcode, hresident, hwaiting⟩ :=
    placeRecipe_leaves (s := s) (c := c) (encrypted := envEnc (readBytes s.log.host addr len)) (r := r) hfn
  refine ⟨_, x, (recipeLoad_exec d addr len hserves).trans (congrArg Host.Outcome.next (he.trans hplace)), ?_, hxfn, hbase, hprogs, hhashes,
    htodo, hfailed, hcode, hresident, hwaiting, fun k hk => ?_, fun a ha => ?_, fun i hi => ?_, rfl⟩
  · simp only [recipe, tget_tset_same]
  · simp only [recipe, tget_tset_other _ _ _ hk]
  · exact byteAt_writeBytes_outside _ _ _ _ (hbase ▸ ha)
  · rw [hbase, byteAt_writeBytes_inside _ _ _ _ hi, List.getD_eq_getElem _ _ hi]

/-- RECIPE_LOAD of an envelope or a container that fails a check. -/
theorem recipeLoad_fails {s : State} {d : DescHdr} {addr len p : Nat} (hserves : s.serves = true) (hfn : d.fn.val = p + 1)
    (hmade : (s.polder p).made = true) (hlen : len ≤ (s.polder p).size) :
    (∀ e, s.envelope (readBytes s.log.host addr len) = .error e →
      ∃ t : State, exec (.recipeLoad d addr len) s = .next t ∧ (codeChapter e = 0x07 → t.lastCode 0x320000 = e) ∧ t = { s with log := t.log }) ∧
    (∀ c f, s.envelope (readBytes s.log.host addr len) = .ok c →
      parseContainer (s.loadRoom p) s.line.level s.line.running c s.kv.treeRunning s.kvSlotBytes = .error f →
      ∃ t : State, exec (.recipeLoad d addr len) s = .next t ∧ t = { s with log := t.log }) := by
  constructor
  · intro e herr
    obtain ⟨l, hl, hcode⟩ := loadFailed_leaves s d { code := e }
    have he := recipeLoadEff_of_envelope_error hfn hmade hlen herr
    exact ⟨_, (recipeLoad_exec d addr len hserves).trans (congrArg Host.Outcome.next (he.trans hl)), hcode, rfl⟩
  · intro c f hc hf
    obtain ⟨l, hl, -⟩ := loadFailed_leaves s d f
    have he := recipeLoadEff_of_container_error hfn hmade hlen hc hf
    exact ⟨_, (recipeLoad_exec d addr len hserves).trans (congrArg Host.Outcome.next (he.trans hl)), rfl⟩

/-- RECIPE_LOAD to no polder, or of more bytes than its polder has. -/
theorem recipeLoad_refused {s : State} {d : DescHdr} {addr len : Nat} (hserves : s.serves = true)
    (h : d.fn.val = 0 ∨ (s.polder (d.fn.val - 1)).made = false ∨ (s.polder (d.fn.val - 1)).size < len) :
    exec (.recipeLoad d addr len) s = .next (s.descDone d 0x1031#16) := by
  refine (recipeLoad_exec d addr len hserves).trans (congrArg Host.Outcome.next (if_pos ?_))
  simpa using h

end State
end Sys2Proof.Machine
end

