-- ==== Sys2Proof/Proofs/RecipesAndJobs.lean ====
section
/-! SUPPORT. Jobs (R20, R324 to R329, R348): the operations on contexts and engines keep every job but for the runs it has to
repeat, and what RUN and BUILD leave. -/

namespace Sys2Proof.Machine.State

/-! ## Operations that keep every context's jobs -/

/-- A job without the runs it has to repeat. -/
def jobCore (j : Job) : Job := { j with again := [] }

/-- The jobs of a context, without the runs they have to repeat. -/
def coresOf (s : State) (c : Nat) : Option (List Job) := (s.ctx c).map (fun x => x.jobs.map jobCore)

/-- From `s` to `t` contexts, engines and operations change alone, and every context keeps its jobs. -/
def KeepsJobs (s t : State) : Prop :=
  (∃ c e o, t = { s with ctxs := c, engines := e, ops := o }) ∧ ∀ c, t.coresOf c = s.coresOf c

theorem KeepsJobs.refl (s : State) : KeepsJobs s s := ⟨⟨_, _, _, rfl⟩, fun _ => rfl⟩

theorem KeepsJobs.trans {s t u : State} (h : KeepsJobs s t) (h' : KeepsJobs t u) : KeepsJobs s u := by
  obtain ⟨⟨_, _, _, rfl⟩, hcores⟩ := h
  obtain ⟨⟨_, _, _, rfl⟩, hcores'⟩ := h'
  exact ⟨⟨_, _, _, rfl⟩, fun c => (hcores' c).trans (hcores c)⟩

theorem ctx_setCtx_same (s : State) (c : Nat) (x : Ctx) : (s.setCtx c x).ctx c = some x := by
  simp only [ctx, setCtx, tget_tset_same]

theorem ctx_setCtx_other (s : State) {c i : Nat} (x : Ctx) (h : i ≠ c) : (s.setCtx c x).ctx i = s.ctx i := by
  simp only [ctx, setCtx, tget_tset_other _ _ _ h]

theorem modCtx_of_ctx {s : State} {c : Nat} {x : Ctx} (h : s.ctx c = some x) (f : Ctx → Ctx) : s.modCtx c f = s.setCtx c (f x) := by
  simp only [modCtx, h]

theorem coresOf_setCtx_same (s : State) (c : Nat) (x : Ctx) : (s.setCtx c x).coresOf c = some (x.jobs.map jobCore) := by
  simp only [coresOf, ctx_setCtx_same, Option.map_some]

theorem setCtx_keepsJobs {s : State} {c : Nat} {x y : Ctx} (hx : s.ctx c = some x) (hy : y.jobs.map jobCore = x.jobs.map jobCore) :
    KeepsJobs s (s.setCtx c y) := by
  refine ⟨⟨_, _, _, rfl⟩, fun i => ?_⟩
  by_cases hi : i = c
  · subst hi
    rw [coresOf_setCtx_same, hy, coresOf, hx, Option.map_some]
  · rw [coresOf, coresOf, ctx_setCtx_other s y hi]

theorem modCtx_keepsJobs (s : State) (c : Nat) {f : Ctx → Ctx} (hf : ∀ x, (f x).jobs.map jobCore = x.jobs.map jobCore) :
    KeepsJobs s (s.modCtx c f) := by
  unfold modCtx
  split
  · exact .refl s
  · next x hx => exact setCtx_keepsJobs hx (hf x)

theorem modJob_keepsJobs (s : State) (c job : Nat) {f : Job → Job} (hf : ∀ j, jobCore (f j) = jobCore j) :
    KeepsJobs s (s.modJob c job f) := by
  refine modCtx_keepsJobs s c fun x => ?_
  rw [List.map_map]
  refine List.map_congr_left fun j _ => ?_
  rw [Function.comp_apply]
  split
  · exact hf j
  · rfl

theorem setEngine_keepsJobs (s : State) (e : Nat) (x : Engine) : KeepsJobs s (s.setEngine e x) := ⟨⟨_, _, _, rfl⟩, fun _ => rfl⟩

theorem withOps_keepsJobs (s : State) (l : List OpEntry) : KeepsJobs s { s with ops := l } := ⟨⟨_, _, _, rfl⟩, fun _ => rfl⟩

theorem displace_keepsJobs (s : State) (e : Nat) : KeepsJobs s (s.displace e) := by
  unfold displace
  dsimp only
  split
  · exact .refl s
  · exact (withOps_keepsJobs ..).trans ((setEngine_keepsJobs ..).trans ((modJob_keepsJobs _ _ _ fun _ => by rfl).trans (modCtx_keepsJobs _ _ fun _ => by rfl)))

theorem startLoad_keepsJobs (s : State) (e c : Nat) : KeepsJobs s (s.startLoad e c) :=
  (displace_keepsJobs s e).trans ((modCtx_keepsJobs _ _ fun _ => by rfl).trans (setEngine_keepsJobs ..))

theorem loadNext_keepsJobs (s : State) (e : Nat) : KeepsJobs s (s.loadNext e) := by
  unfold loadNext
  dsimp only
  split
  · exact .refl s
  · split
    · exact .refl s
    · split
      · exact (setEngine_keepsJobs ..).trans (startLoad_keepsJobs ..)
      · split
        · exact startLoad_keepsJobs ..
        · exact .refl s

theorem loadAll_keepsJobs (s : State) (l : List Nat) : KeepsJobs s (s.loadAll l) := by
  induction l generalizing s with
  | nil => exact .refl s
  | cons e r ih =>
    unfold loadAll
    exact (loadNext_keepsJobs s e).trans (ih _)

/-- A context that comes to be resident keeps its jobs, and so does every other. -/
theorem fillResidency_keepsJobs (s : State) (p : Nat) : KeepsJobs s (s.fillResidency p) := by
  unfold fillResidency
  dsimp only
  split
  · exact .refl s
  · split
    · exact .refl s
    · exact (modCtx_keepsJobs _ _ fun _ => by rfl).trans (loadAll_keepsJobs ..)

theorem syncCtx_keepsJobs (s : State) (c : Nat) : KeepsJobs s (s.syncCtx c) := by
  unfold syncCtx
  split
  · exact .refl s
  · next x hx =>
    dsimp only
    split
    · refine setCtx_keepsJobs hx ?_
      split <;> rfl
    · refine setCtx_keepsJobs hx ?_
      split <;> rfl

/-! ## RUN and BUILD (R20, R210, R348, R416) -/

theorem padTo_of_length {n : Nat} {bs : List Byte} (h : bs.length = n) : padTo n bs = bs := by
  simp [padTo, ← h]

/-- The job that a descriptor of a work ring asks for, on program `b`. -/
def jobOf (s : State) (d : DescHdr) (idx b first count passes : Nat) (list : Option Nat) (params : List Byte) (build : Bool) : Job :=
  { id := s.nextJob, fn := d.fn, ring := d.ring, tag := d.tag, irq := d.irq, recipe := d.fn.val * 65536 + idx, code := b, first, count
    passes, build, cycleList := list, params := padTo 32 params }

/-- A job at the end of a context's queue. -/
def queueJob (s : State) (c : Nat) (j : Job) : State :=
  let s := { s with nextJob := s.nextJob + 1 }
  s.modCtx c (fun x => { x with jobs := x.jobs ++ [j], readySince := if x.jobs.isEmpty then s.now else x.readySince })

/-- What follows a queued job: its context's clocks, the residency of its polder, and 0x3F02 once where the polder has no
engine. -/
def afterQueue (s : State) (c : Nat) : State :=
  let p := s.polderOf c
  let s := (s.syncCtx c).fillResidency p
  if (s.polderEngines p).isEmpty ∧ ¬ (s.polder p).emptyPosted then (s.setPolder p { s.polder p with emptyPosted := true }).raise 0x3F02#16 0x0A p
  else s

theorem afterQueue_leaves (s : State) (c : Nat) :
    (∃ x e o p l, s.afterQueue c = { s with ctxs := x, engines := e, ops := o, polders := p, log := l }) ∧
    ∀ i, (s.afterQueue c).coresOf i = s.coresOf i := by
  unfold afterQueue
  dsimp only
  have h := (syncCtx_keepsJobs s c).trans (fillResidency_keepsJobs _ (s.polderOf c))
  generalize (s.syncCtx c).fillResidency (s.polderOf c) = u at h
  obtain ⟨⟨_, _, _, rfl⟩, hcores⟩ := h
  split
  · exact ⟨⟨_, _, _, _, _, rfl⟩, hcores⟩
  · exact ⟨⟨_, _, _, _, _, rfl⟩, hcores⟩

/-- The last of a context's jobs, read off their cores. -/
theorem lastJob_of_coresOf {s : State} {c : Nat} {l : List Job} {j : Job} (h : s.coresOf c = some ((l ++ [j]).map jobCore)) :
    ∃ y k, s.ctx c = some y ∧ y.jobs.length = l.length + 1 ∧ y.jobs.getLast? = some k ∧ jobCore k = jobCore j := by
  obtain ⟨y, hy, hjobs⟩ := Option.map_eq_some_iff.1 h
  have hlast : y.jobs.getLast?.map jobCore = some (jobCore j) := by
    rw [← List.getLast?_map, hjobs, List.map_append, List.map_singleton, List.getLast?_concat]
  obtain ⟨k, hk, hcore⟩ := Option.map_eq_some_iff.1 hlast
  exact ⟨y, k, hy, by simpa using congrArg List.length hjobs, hk, hcore⟩

theorem queueJob_leaves {s : State} {c : Nat} {x : Ctx} (hx : s.ctx c = some x) (j : Job) :
    (∃ cs, s.queueJob c j = { s with nextJob := s.nextJob + 1, ctxs := cs }) ∧
    (s.queueJob c j).coresOf c = some ((x.jobs ++ [j]).map jobCore) := by
  have hx' : State.ctx { s with nextJob := s.nextJob + 1 } c = some x := hx
  unfold queueJob
  dsimp only
  rw [modCtx_of_ctx hx']
  exact ⟨⟨_, rfl⟩, coresOf_setCtx_same ..⟩

/-- What a job's descriptor breaks: its cycle list, its count or its parameters, its program's tasks or kind, or a recipe that
drains. -/
def JobBreaks (r : Recipe) (g : Prog) (first count : Nat) (l : Option Nat) (ps : List Byte) (build : Bool) : Prop :=
  ((l.map (fun a => decide (a % 8 ≠ 0))).getD false || decide (count = 0) || decide (65536 < count) || decide (ps.length ≠ 32)) = true ∨
  g.tasks.length < first + count ∨ (build = true ∧ g.kind ≠ 2) ∨ r.draining = true

/-- Whether a job's descriptor is refused or queues its job, once its ring, its recipe and its program are found. -/
theorem submitJob_named {s : State} {d : DescHdr} {idx code first count c i b passes : Nat} {l : Option Nat} {ps : List Byte}
    {r : Recipe} {g : Prog} {build : Bool} (hc : s.ringCtx d.fn d.ring = some c) (hr : s.recipe (d.fn.val * 65536 + idx) = some r)
    (hprog : jobProg r code = some i) (hdisp : dispatchBucket r i ps = (b, passes)) (hg : r.progs.getD b { sec := 0, kind := 0 } = g) :
    (JobBreaks r g first count l ps build → s.submitJob d idx code first count l ps build = s.descDone d 0x1031#16) ∧
    (¬ JobBreaks r g first count l ps build → s.vig.outOfService = true →
      s.submitJob d idx code first count l ps build = s.descDone d 0x5067#16) ∧
    (¬ JobBreaks r g first count l ps build → ¬ s.vig.outOfService = true →
      s.submitJob d idx code first count l ps build =
        ((if build = true then s.putRecipe (d.fn.val * 65536 + idx) { r with buildJob := true } else s).queueJob c
          (s.jobOf d idx b first count passes l ps build)).afterQueue c) := by
  subst hg
  unfold submitJob
  dsimp only
  rw [hc, hr]
  dsimp only
  rw [hprog]
  dsimp only
  rw [hdisp]
  exact ⟨fun h => if_pos h, fun h ho => (if_neg h).trans (if_pos ho), fun h ho => (if_neg h).trans (if_neg ho)⟩

theorem not_jobBreaks {r : Recipe} {g : Prog} {first count : Nat} {l : Option Nat} {ps : List Byte} {build : Bool}
    (hl : ∀ a, l = some a → a % 8 = 0) (h1 : 1 ≤ count) (h2 : count ≤ 65536) (hps : ps.length = 32)
    (hfit : first + count ≤ g.tasks.length) (hdrain : r.draining = false) (hkind : build = true → g.kind = 2) :
    ¬ JobBreaks r g first count l ps build := by
  have hlist : (l.map (fun a => decide (a % 8 ≠ 0))).getD false = false := by
    cases l with
    | none => rfl
    | some a => simp [hl a rfl]
  rintro (h | h | ⟨hb, hk⟩ | h)
  · simp only [hlist, hps, Bool.false_or, Bool.or_eq_true, decide_eq_true_eq, ne_eq, not_true_eq_false, or_false] at h
    omega
  · omega
  · exact hk (hkind hb)
  · exact Bool.false_ne_true (hdrain.symm.trans h)

/-- A descriptor without a bound ring, a recipe or a count in range, or on a module out of service, queues no job. -/
theorem submitJob_refused {s : State} {d : DescHdr} {idx code first count : Nat} {l : Option Nat} {ps : List Byte} {build : Bool}
    (h : s.ringCtx d.fn d.ring = none ∨ s.recipe (d.fn.val * 65536 + idx) = none ∨ count = 0 ∨ 65536 < count ∨ s.vig.outOfService = true) :
    ∃ status, s.submitJob d idx code first count l ps build = s.descDone d status := by
  cases hc : s.ringCtx d.fn d.ring with
  | none => exact ⟨0x1031#16, by simp only [submitJob, hc]⟩
  | some c =>
    cases hr : s.recipe (d.fn.val * 65536 + idx) with
    | none => exact ⟨0x1031#16, by simp only [submitJob, hc, hr]⟩
    | some r =>
      cases hprog : jobProg r code with
      | none => exact ⟨0x1031#16, by simp only [submitJob, hc, hr, hprog]⟩
      | some i =>
        obtain ⟨hbad, hout, -⟩ := submitJob_named (first := first) (count := count) (l := l) (build := build) (passes := (dispatchBucket r i ps).2)
          hc hr hprog rfl rfl
        by_cases hb : JobBreaks r (r.progs.getD (dispatchBucket r i ps).1 { sec := 0, kind := 0 }) first count l ps build
        · exact ⟨_, hbad hb⟩
        · refine ⟨_, hout hb ?_⟩
          rcases h with h | h | h | h | h
          · cases hc.symm.trans h
          · cases hr.symm.trans h
          · exact absurd (.inl (by simp [h])) hb
          · exact absurd (.inl (by simp [h])) hb
          · exact h

section
variable {s : State} {d : DescHdr} {idx code first count c i b passes : Nat} {l : Option Nat} {ps : List Byte} {x : Ctx} {r : Recipe}
  {g : Prog} (hc : s.ringCtx d.fn d.ring = some c) (hr : s.recipe (d.fn.val * 65536 + idx) = some r)
  (hprog : jobProg r code = some i) (hdisp : dispatchBucket r i ps = (b, passes)) (hg : r.progs[b]? = some g)
include hc hr hprog hdisp hg

theorem submitJob_wrongKind (hkind : g.kind ≠ 2) : s.submitJob d idx code first count l ps true = s.descDone d 0x1031#16 :=
  (submitJob_named hc hr hprog hdisp (by rw [List.getD_eq_getElem?_getD, hg]; rfl)).1 (.inr (.inr (.inl ⟨rfl, hkind⟩)))

/-- A descriptor that keeps every rule appends its job to the context of its ring, for the program and the passes that the
dispatcher picks (R20). -/
theorem submitJob_queues (hx : s.ctx c = some x) (hl : ∀ a, l = some a → a % 8 = 0) (h1 : 1 ≤ count) (h2 : count ≤ 65536)
    (hps : ps.length = 32) (hfit : first + count ≤ g.tasks.length) (hdrain : r.draining = false) (hvig : s.vig.outOfService = false)
    {build : Bool} (hkind : build = true → g.kind = 2) :
    ∃ (y : Ctx) (j : Job) (cs : Tab (Option Ctx)) (e : Tab Engine) (o : List OpEntry) (p : Tab Polder) (lg : Log),
      s.submitJob d idx code first count l ps build =
        { (if build = true then s.putRecipe (d.fn.val * 65536 + idx) { r with buildJob := true } else s) with
          nextJob := s.nextJob + 1, ctxs := cs, engines := e, ops := o, polders := p, log := lg } ∧
      tget none cs c = some y ∧ y.jobs.length = x.jobs.length + 1 ∧ y.jobs.getLast? = some j ∧
      j.id = s.nextJob ∧ j.recipe = d.fn.val * 65536 + idx ∧ j.code = b ∧ j.passes = passes ∧ j.first = first ∧ j.count = count ∧
      j.build = build ∧ j.tag = d.tag ∧ j.params = ps ∧ j.cycleList = l := by
  have he := (submitJob_named (first := first) (count := count) (l := l) (build := build) hc hr hprog hdisp
    (by rw [List.getD_eq_getElem?_getD, hg]; rfl)).2.2 (not_jobBreaks hl h1 h2 hps hfit hdrain hkind) (by simp [hvig])
  have hctx : (if build = true then s.putRecipe (d.fn.val * 65536 + idx) { r with buildJob := true } else s).ctx c = some x := by
    cases build <;> exact hx
  have hnext : (if build = true then s.putRecipe (d.fn.val * 65536 + idx) { r with buildJob := true } else s).nextJob = s.nextJob := by
    cases build <;> rfl
  generalize (if build = true then s.putRecipe (d.fn.val * 65536 + idx) { r with buildJob := true } else s) = u at he hctx hnext ⊢
  obtain ⟨⟨cs, hq⟩, hcores⟩ := queueJob_leaves hctx (s.jobOf d idx b first count passes l ps build)
  obtain ⟨⟨cs', e, o, p, lg, ha⟩, hkept⟩ := afterQueue_leaves (u.queueJob c (s.jobOf d idx b first count passes l ps build)) c
  obtain ⟨y, j, hy, hlen, hlast, hcore⟩ := lastJob_of_coresOf ((hkept c).trans hcores)
  rw [ha] at hy
  refine ⟨y, j, cs', e, o, p, lg, he.trans (ha.trans ?_), hy, hlen, hlast, (congrArg Job.id hcore :), (congrArg Job.recipe hcore :),
    (congrArg Job.code hcore :), (congrArg Job.passes hcore :), (congrArg Job.first hcore :), (congrArg Job.count hcore :),
    (congrArg Job.build hcore :), (congrArg Job.tag hcore :), ?_, (congrArg Job.cycleList hcore :)⟩
  · rw [hq, hnext]
  · exact (congrArg Job.params hcore).trans (padTo_of_length hps)

end

theorem run_exec {s : State} (d : DescHdr) (idx code first count : Nat) (l : Option Nat) (ps : List Byte) (hserves : s.serves = true) :
    exec (.run d idx code first count l ps) s = .next (s.submitJob d idx code first count l ps false) :=
  congrArg Host.Outcome.next (if_pos hserves)

theorem build_exec {s : State} (d : DescHdr) (idx code first count : Nat) (l : Option Nat) (ps : List Byte) (hserves : s.serves = true) :
    exec (.build d idx code first count l ps) s = .next (s.submitJob d idx code first count l ps true) :=
  congrArg Host.Outcome.next (if_pos hserves)

end Sys2Proof.Machine.State

open Sys2Proof Sys2Proof.Machine Sys2Proof.Machine.State in
/-- Settles O51: the loads, residency steps, unloads and changeovers by the lemmas about each (RecipeResidency), and the jobs
by `submitJob_queues`, `submitJob_wrongKind` and `submitJob_refused`. -/
theorem recipesAndJobs : Obligations.RecipesAndJobs := by
  unfold Obligations.RecipesAndJobs
  refine ⟨fun s d addr len p key c r => recipeLoad_places, fun s d addr len p => recipeLoad_fails,
    fun s d addr len hserves h => ⟨_, recipeLoad_refused hserves h, rfl⟩, fun s key => residencyStep_none,
    fun s key i r => residencyStep_found, fun s u key i slot r => residencyStep_inserts, fun s key r e => residencyStep_fails,
    fun s d idx key hserves hkey => ⟨?unloadNone, fun r hr => recipeUnload_active hserves hkey hr,
      fun r hr => recipeUnload_inactive hkey hserves hr⟩,
    fun s d k w vf idx at_ => changeover_leaves, ?queued, ?refused⟩
  case unloadNone =>
    intro hr
    exact ⟨_, recipeUnload_none hserves (hkey ▸ hr), rfl⟩
  case queued =>
    intro s d idx code first count c i l ps x r g b passes hserves hc hx hr hprog hdisp hg hl h1 h2 hps hfit hdrain hvig
    refine ⟨?_, fun hkind => ?_, fun hkind => ?_⟩
    · obtain ⟨y, j, cs, e, o, p, lg, ht, hy, hj⟩ :=
        submitJob_queues hc hr hprog hdisp hg hx hl h1 h2 hps hfit hdrain hvig (build := false) (fun h => nomatch h)
      obtain ⟨hlen, hlast, hid, hrec, hcode, hpasses, hfirst, hcount, hbuild, htag, hparams, hlist⟩ := hj
      exact ⟨_, y, j, (run_exec d idx code first count l ps hserves).trans (congrArg Host.Outcome.next ht), hy, hlen, hlast, hid, hrec,
        hcode, hpasses, hfirst, hcount, hbuild, htag, hparams, hlist, rfl, rfl⟩
    · obtain ⟨y, j, cs, e, o, p, lg, ht, hy, hj⟩ :=
        submitJob_queues hc hr hprog hdisp hg hx hl h1 h2 hps hfit hdrain hvig (build := true) (fun _ => hkind)
      obtain ⟨hlen, hlast, hid, hrec, hcode, hpasses, hfirst, hcount, hbuild, htag, hparams, hlist⟩ := hj
      exact ⟨_, y, j, (build_exec d idx code first count l ps hserves).trans (congrArg Host.Outcome.next ht), hy, hlen, hlast, hid, hrec,
        hcode, hpasses, hfirst, hcount, hbuild, htag, hparams, hlist, recipe_putRecipe_same s _ _, rfl, rfl⟩
    · exact ⟨_, (build_exec d idx code first count l ps hserves).trans
        (congrArg Host.Outcome.next (submitJob_wrongKind hc hr hprog hdisp hg hkind)), rfl⟩
  case refused =>
    intro s d idx code first count l ps hserves h
    obtain ⟨e, he⟩ := submitJob_refused (first := first) (code := code) (l := l) (ps := ps) (build := false) h
    obtain ⟨e', he'⟩ := submitJob_refused (first := first) (code := code) (l := l) (ps := ps) (build := true) h
    exact ⟨⟨_, (run_exec d idx code first count l ps hserves).trans (congrArg Host.Outcome.next he), rfl⟩,
      ⟨_, (build_exec d idx code first count l ps hserves).trans (congrArg Host.Outcome.next he'), rfl⟩⟩
end

