-- ==== Sys2Proof/Proofs/AxisWrites.lean ====
section
/-! SUPPORT. Host writes of an axis's registers: the two halves of its preset value (R33, R447), and `ENCn_CFG` with its enable
(R22, R23, R446); and for these and later writes, which fields of a register take the value written. -/

namespace Sys2Proof.Machine

/-! ## Fields that take what is written (R445, R450) -/

/-- A field that a write leaves at the value written: writable under the seal `z`, and with no check that refuses or
changes the value. -/
def takes (z : Bool) (f : FieldSpec) (v : Word) : Prop :=
  (f.acc = .rw ∨ f.acc = .rwl ∧ z = false) ∧
    (f.chk = .any ∨ ∃ bad, f.chk = .reserved bad ∧ bad.contains (bits v f.hi f.lo) = false)

theorem applyField_takes {z : Bool} {f : FieldSpec} {v : Word} (ht : takes z f v) (c : Half) (old : Word) :
    applyField z c f v old = (putBits old f.hi f.lo (bits v f.hi f.lo), none) := by
  obtain ⟨hacc, hchk⟩ := ht
  have hw : ¬ (f.acc = .rwl ∧ z = true) := by
    obtain h | ⟨h, hz⟩ := hacc
    · simp [h]
    · simp [hz]
  obtain h | ⟨h, -⟩ := hacc <;> obtain hany | ⟨bad, hbad, hx⟩ := hchk <;>
    simp_all [applyField]

theorem bits_putBits_bits (w v : Word) {hi lo : Nat} (h : lo ≤ hi) (hh : hi < 32) :
    bits (putBits w hi lo (bits v hi lo)) hi lo = bits v hi lo := by
  rw [bits_putBits_same w hi lo _ h hh]
  exact Nat.mod_eq_of_lt (bits_lt v hi lo)

/-- A register none of whose fields is sealed has none that the seal would count. -/
theorem sealedField_of_rw (c : Half) (v old : Word) {l : List FieldSpec} (h : ∀ f ∈ l, f.acc ≠ .rwl) :
    sealedField c v old l = none := by
  induction l with
  | nil => rfl
  | cons f r ih =>
    have hf := h f (List.mem_cons_self ..)
    simp only [sealedField, hf, false_and, if_false]
    exact ih fun g hg => h g (List.mem_cons_of_mem _ hg)

namespace State

/-- A write of a register that the seal does not count: it changes that register and the log of its reports. -/
theorem writeFields_leaves {s : State} {off : Nat} {r : RegSpec} (k i : Nat) (v : Word) (hr : regSpec off = some r)
    (hoff : off ≠ 0x200010) (ha : fieldsApart r.fields = true) (hs : s.sealed = false ∨ ∀ f ∈ r.fields, f.acc ≠ .rwl) :
    ∃ u, s.writeFields off k i v = u ∧
      (∀ f ∈ r.fields, takes s.sealed f v → bits (u.reg off) f.hi f.lo = bits v f.hi f.lo) ∧
      (∀ o, o ≠ off → u.reg o = s.reg o) ∧ u = { s with regs := u.regs, log := u.log } := by
  let w := (applyFields s.sealed r.code r.fields v (s.reg off)).1
  obtain ⟨l, hl⟩ := reportFields_frame (s.setReg off w) off k i (applyFields s.sealed r.code r.fields v (s.reg off)).2
  have hw : s.writeFields off k i v = { s.setReg off w with log := l } := by
    simp only [writeFields, hr]
    rw [hl]
    obtain h | h := hs
    · simp [h, setReg]
    · simp [sealedField_of_rw _ _ _ h, setReg]
  refine ⟨_, hw, fun f hf ht => ?_, fun o ho => reg_setReg_other s off o w ho, rfl⟩
  obtain ⟨hle, hlt⟩ := fieldsApart_mem ha hf
  have hfld := writeFields_fld s off k i v r hr hoff ha f hf
  rw [applyField_takes ht, bits_putBits_bits _ _ hle hlt, hw] at hfld
  exact hfld

/-- A register of one RW field takes what is written, and reports nothing. -/
theorem writeFields_rw {off hi lo : Nat} {r : RegSpec} (s : State) (k i : Nat) (v : Word) (hr : regSpec off = some r)
    (hf : r.fields = [Machine.fld .rw hi lo]) :
    s.writeFields off k i v = s.setReg off (putBits (s.reg off) hi lo (bits v hi lo)) := by
  have happ := applyField_takes (z := s.sealed) (f := Machine.fld .rw hi lo) (v := v) ⟨.inl rfl, .inl rfl⟩ r.code (s.reg off)
  have hseal : sealedField r.code v (s.reg off) [Machine.fld .rw hi lo] = none := sealedField_of_rw _ _ _ (by simp [Machine.fld])
  simp only [writeFields, hr, hf, applyFields, happ, hseal]
  simp [reportFields, Machine.fld]

/-! ## The preset value of an axis, written by halves (R447) -/

/-- A write that reaches a register of PF0. -/
theorem setupWrite_pf0 {s : State} {off : Nat} (v : Word) (ha : s.answers 0 off = true) (h4 : off % 4 = 0)
    (hb : off < 0x4000000) : exec (.setupWrite 0 off v) s = .next (s.pf0Write off v) := by
  have h1 : ¬ (off % 4 ≠ 0 ∨ 0x4000000 ≤ off) := by omega
  have hp : s.setupWriteEff 0 off v = s.pf0Write off v := by
    simp only [setupWriteEff, if_true, h1, if_false, gate_answers _ _ _ _ _ ha]
  exact congrArg Host.Outcome.next hp

/-- The first half of a split value is held. -/
theorem pf0Write_low {off : Nat} {r : RegSpec} (s : State) (v : Word) (hb : off < 0x2C0000) (hr : regSpec off = some r)
    (hh : r.half = .low) (hne : off ≠ 0x220034) : s.pf0Write off v = s.hold off v := by
  have h2 : ¬ (0x2C0000 ≤ off ∧ off < 0x2C1000) := by omega
  have h3 : ¬ (0x2D0000 ≤ off ∧ off < 0x2D2000) := by omega
  simp only [pf0Write, h2, h3, if_false, hr, hh, hne, false_and]

/-- The second half of a split value applies both. -/
theorem pf0Write_high {off : Nat} {r : RegSpec} (s : State) (v : Word) (hb : off < 0x2C0000) (hr : regSpec off = some r)
    (hh : r.half = .high) : s.pf0Write off v = s.writePair (off - 4) v := by
  have h2 : ¬ (0x2C0000 ≤ off ∧ off < 0x2C1000) := by omega
  have h3 : ¬ (0x2D0000 ≤ off ∧ off < 0x2D2000) := by omega
  simp only [pf0Write, h2, h3, if_false, hr, hh]

/-- The halves of `ENCn_PRESET`. -/
theorem regSpec_preset (n : Fin 4) :
    regSpec (encOff n + 0x40) = some { delta := 0x40, code := 0x1101#16, half := .low, fields := [Machine.fld .rw 31 0] } ∧
    regSpec (encOff n + 0x44) = some { delta := 0x44, code := 0x1101#16, half := .high, fields := [Machine.fld .rw 15 0] } := by
  revert n; decide

/-- A half of a split value of an axis is written as a plain register. -/
theorem writeHalf_axis (s : State) (n : Fin 4) (d : Nat) (v : Word) (hd : d < 0x100) :
    s.writeHalf (encOff n + d) v = s.writeFields (encOff n + d) 0x01 n v := by
  have := n.isLt
  have hlt : 0x210000 ≤ encOff n + d ∧ encOff n + d < 0x210400 := by simp only [encOff]; omega
  rw [writeHalf, if_neg (by omega), if_neg (by omega), if_neg (by omega), if_neg (by omega), plainWrite, unitOf_axis s n d hd]

/-- The write of `ENCn_PRESET_HI`: both halves' registers written, and nothing held. -/
theorem writePair_preset (s : State) (n : Fin 4) (v : Word) :
    s.writePair (encOff n + 0x40) v =
      { (s.setReg (encOff n + 0x40) ((tget none s.held (encOff n + 0x40)).getD (s.reg (encOff n + 0x40)))).setReg (encOff n + 0x44)
          (putBits (s.reg (encOff n + 0x44)) 15 0 (bits v 15 0)) with held := tset none s.held (encOff n + 0x40) none } := by
  have := n.isLt
  obtain ⟨hlo, hhi⟩ := regSpec_preset n
  have h1 : encOff n + 0x40 ≠ 0x220034 := by simp only [encOff]; omega
  have h2 : encOff n + 0x40 ≠ 0x2A011C := by simp only [encOff]; omega
  have hseal : s.wouldSeal (encOff n + 0x40 + 4) v = false := by
    simp only [wouldSeal, Nat.add_assoc, Nat.reduceAdd, hhi]
    simp [sealedField_of_rw, Machine.fld]
  rw [writePair, if_neg h1, if_neg h2, if_neg (by simp [hseal])]
  simp only [Nat.add_assoc, Nat.reduceAdd]
  rw [writeHalf_axis s n 0x40 _ (by omega), writeFields_word s _ _ _ hlo rfl, writeHalf_axis _ n 0x44 _ (by omega),
    writeFields_rw _ _ _ _ hhi rfl, reg_setReg_other s _ _ _ (by omega)]
  rfl

end State
end Sys2Proof.Machine

open Sys2Proof Sys2Proof.Machine Sys2Proof.Machine.State in
/-- Settles O8: the low half is held in no register, and the write of the high half puts both into theirs. -/
theorem splitValueAppliesAtHighWrite : Obligations.SplitValueAppliesAtHighWrite := by
  unfold Obligations.SplitValueAppliesAtHighWrite
  refine ⟨fun s n v ha => ?_, fun s n v ha => ?_⟩
  all_goals
    obtain ⟨hlo, hhi⟩ := regSpec_preset n
    have hn : encOff n + 0x40 < 0x220034 ∧ encOff n % 4 = 0 := by have := n.isLt; simp only [encOff]; omega
  · have hx := setupWrite_pf0 v ha (by omega) (by omega)
    rw [pf0Write_low s v (by omega) hlo rfl (by omega)] at hx
    exact ⟨_, hx, tget_tset_same none s.held _ (some v), fun _ => rfl, rfl⟩
  · have hx := setupWrite_pf0 v ha (by omega) (by omega)
    rw [pf0Write_high s v (by omega) hhi rfl, show encOff n + 0x44 - 4 = encOff n + 0x40 by omega, writePair_preset] at hx
    have hnone := tget_tset_same none s.held (encOff n + 0x40) none
    refine ⟨_, hx, ?_, ?_, fun o h1 h2 => ?_, hnone, ?_⟩
    · exact (reg_setReg_other _ _ _ _ (by omega)).trans (reg_setReg_same s _ _)
    · refine (congrArg (bits · 15 0) (reg_setReg_same _ _ _)).trans ?_
      exact bits_putBits_bits _ _ (by omega) (by omega)
    · exact (reg_setReg_other _ _ _ _ h2).trans (reg_setReg_other s _ _ _ h1)
    · rfl
end

