-- ==== Sys2Proof/Proofs/AxisEnable.lean ====
section
/-! SUPPORT. Writes of `ENCn_CFG` (R22, R23, R446): the fields they leave, the axis that starts, and the speed that an axis
which stops counting holds. -/

namespace Sys2Proof.Machine

theorem clampInt_bounds {lo hi : Int} (h : lo ≤ hi) (x : Int) : lo ≤ clampInt lo hi x ∧ clampInt lo hi x ≤ hi := by
  simp only [clampInt]; split_ifs <;> omega

theorem clampInt_of_mem {lo hi x : Int} (h1 : lo ≤ x) (h2 : x ≤ hi) : clampInt lo hi x = x := by
  simp only [clampInt]; split_ifs <;> omega

namespace State

/-! ## The speed of an axis that is off (R22) -/

/-- What `ENCn_SPEED` shows of an axis that does not count, in no fault and not at standstill: the estimate of its method. -/
theorem speed_off {s : State} {n : Nat} (h : s.encCounts n = false) :
    s.speed n = clampInt (-(2 ^ 31 - 1)) (2 ^ 31 - 1)
      (if s.axisFault n || (s.axis n).still then 0 else if (s.axis n).method then (s.axis n).counted else (s.axis n).period) := by
  simp [speed, h]

theorem speed_bounds (s : State) (n : Nat) : -(2 ^ 31 - 1) ≤ s.speed n ∧ s.speed n ≤ 2 ^ 31 - 1 :=
  clampInt_bounds (by decide) _

/-- An axis in fault or at standstill reads speed 0 (R32, R36). -/
theorem speed_stopped {s : State} {n : Nat} (h : (s.axisFault n || (s.axis n).still) = true) : s.speed n = 0 := by
  simp only [speed, h, if_true]
  exact clampInt_of_mem (by decide) (by decide)

/-- The speed of an axis that is off does not change while the axis does not. -/
theorem speed_off_congr {s u : State} {n : Nat} (hs : s.encCounts n = false) (hu : u.encCounts n = false)
    (ha : u.axis n = s.axis n) : u.speed n = s.speed n := by
  rw [speed_off hs, speed_off hu, axisFault, axisFault, ha]

/-- An axis that stops counting goes on showing the speed it showed. -/
theorem speed_holdSpeed {s u : State} {n : Nat} (hu : u.encCounts n = false) (ha : u.axis n = s.axis n) :
    (u.holdSpeed n (s.speed n)).speed n = s.speed n := by
  obtain ⟨hlo, hhi⟩ := s.speed_bounds n
  have hx : (u.holdSpeed n (s.speed n)).axis n = { s.axis n with period := s.speed n, counted := s.speed n } := by
    rw [holdSpeed, setAxis_same, ha]
  have hoff : (u.holdSpeed n (s.speed n)).encCounts n = false := hu
  rw [speed_off hoff, axisFault, hx, ite_self]
  by_cases hstop : (s.axisFault n || (s.axis n).still) = true
  · rw [speed_stopped hstop, ite_self]
    exact clampInt_of_mem (by decide) (by decide)
  · exact (congrArg _ (if_neg hstop)).trans (clampInt_of_mem hlo hhi)

/-! ## `ENCn_CFG` (R22, R446) -/

theorem regSpec_axisCfg (n : Fin 4) : regSpec (encOff n) = regsAxis.head? := by revert n; decide

/-- What a write of `ENCn_CFG` leaves in its fields: MODE, where it is a mode of the spec, MULT, where it is not reserved, and
INVERT, FILTER and EN take what is written. -/
theorem axisCfg_leaves {s : State} (n : Fin 4) (v : Word) (hs : s.sealed = false) :
    ∃ u, s.writeFields (encOff n) 0x01 n v = u ∧ (bits v 3 0 ≤ 4 → u.encMode n = bits v 3 0) ∧
      (bits v 9 8 ≠ 3 → u.fld (encOff n) 9 8 = bits v 9 8) ∧ u.flag (encOff n) 10 = bit v 10 ∧
      u.fld (encOff n) 15 11 = bits v 15 11 ∧ u.encOn n = bit v 31 ∧ (∀ o, o ≠ encOff n → u.reg o = s.reg o) ∧
      u = { s with regs := u.regs, log := u.log } := by
  have hoff : encOff n ≠ 0x200010 := by simp only [encOff]; omega
  obtain ⟨u, hu, hf, hother, hframe⟩ := writeFields_leaves (s := s) 0x01 n v (regSpec_axisCfg n) hoff (by decide) (.inl hs)
  have hany (hi lo : Nat) (hm : Machine.fld .rwl hi lo ∈ (regsAxis.head?.get rfl).fields) :
      bits (u.reg (encOff n)) hi lo = bits v hi lo := hf _ hm ⟨.inr ⟨rfl, hs⟩, .inl rfl⟩
  have hres (hi lo : Nat) (bad : List Nat) (hm : fldE .rwl hi lo bad ∈ (regsAxis.head?.get rfl).fields)
      (hx : bad.contains (bits v hi lo) = false) : bits (u.reg (encOff n)) hi lo = bits v hi lo :=
    hf _ hm ⟨.inr ⟨rfl, hs⟩, .inr ⟨bad, rfl, hx⟩⟩
  refine ⟨u, hu, fun h => ?_, fun h => ?_, bit_eq_of_bits (hany 10 10 (by decide)), hany 15 11 (by decide),
    bit_eq_of_bits (hany 31 31 (by decide)), hother, hframe⟩
  · refine hres 3 0 [5, 6, 7, 8, 9, 10, 11, 12, 13, 14, 15] (by decide) ?_
    generalize bits v 3 0 = m at h
    interval_cases m <;> rfl
  · exact hres 9 8 [3] (by decide) (by simpa using h)

/-- `AXIS_ENABLE` where the register answers. -/
theorem axisEnable_exec {s : State} {n : Fin 4} (v : Word) (ha : s.answers 0 (encOff n) = true) :
    exec (.axisEnable n v) s = .next (s.axisEnableEff n v) := congrArg Host.Outcome.next (gate_answers s 0 (encOff n) v _ ha)

/-- An axis that starts: no history, no last legal direction, no earlier frame. -/
def startedAxis (s : State) (n : Nat) : Axis :=
  { s.axis n with
    legal := 0, run := 0, hist := [], lastP := none, fails := 0, window := [], zdir := none, frameStart := none, lastAt := s.now }

/-- A write with EN that starts an axis that is off. -/
theorem axisEnable_starts {s : State} {n : Fin 4} {v : Word} (ha : s.answers 0 (encOff n) = true) (hs : s.sealed = false)
    (hv : bit v 31 = true) (hoff : s.encOn n = false) (hm : bits v 3 0 = 1 ∨ bits v 3 0 = 3 ∨ bits v 3 0 = 4)
    (hmult : bits v 9 8 ≠ 3) (hz : bits v 17 16 ≤ 1) :
    ∃ t, exec (.axisEnable n v) s = .next t ∧ t.encOn n = true ∧ t.encMode n = bits v 3 0 ∧
      t.fld (encOff n) 9 8 = bits v 9 8 ∧ t.flag (encOff n) 10 = bit v 10 ∧ t.fld (encOff n) 15 11 = bits v 15 11 ∧
      t.axis n = s.startedAxis n ∧ (∀ m, m ≠ n.val → t.axis m = s.axis m) ∧ (∀ o, o ≠ encOff n → t.reg o = s.reg o) ∧
      t = { s with regs := t.regs, axes := t.axes, log := t.log } := by
  obtain ⟨u, hu, hmode, hmu, hinv, hfil, hen, hother, hframe⟩ := axisCfg_leaves n v hs
  have hold : bit (s.reg (encOff n)) 31 = false := hoff
  have hx := axisEnable_exec v ha
  have hmode4 : ¬ bits v 3 0 > 4 := by omega
  have hmode2 : bits v 3 0 ≠ 2 := by omega
  have hz1 : ¬ bits v 17 16 > 1 := by omega
  have hnow : u.now = s.now := (congrArg State.now hframe :)
  have hstart : s.axisEnableEff n v = u.setAxis n (u.startedAxis n) := by
    simp only [axisEnableEff, startedAxis, hnow, hu, hs, hv, hold, hmode4, hmode2, hmult, hz1, Bool.false_eq_true,
      not_true_eq_false, or_self, Bool.or_self, if_false, and_false, false_and, decide_false, not_false_eq_true, if_true]
  rw [hstart] at hx
  have haxis : u.startedAxis n = s.startedAxis n := (congrArg (startedAxis · n) hframe :)
  have haxes (m : Nat) : u.axis m = s.axis m := (congrArg (axis · m) hframe :)
  refine ⟨_, hx, hen.trans hv, hmode (by omega), hmu hmult, hinv, hfil, (setAxis_same u n _).trans haxis,
    fun m hm => (setAxis_other u n m _ hm).trans (haxes m), hother, ?_⟩
  rw [hframe]
  rfl

/-- A write without EN stops the axis, or leaves it stopped. -/
theorem axisEnable_stops {s : State} {n : Fin 4} {v : Word} (ha : s.answers 0 (encOff n) = true) (hs : s.sealed = false)
    (hv : bit v 31 = false) (hm : bits v 3 0 ≤ 4) :
    ∃ t, exec (.axisEnable n v) s = .next t ∧ t.encOn n = false ∧ t.encMode n = bits v 3 0 ∧
      (t.axis n).pos = (s.axis n).pos ∧ t.speed n = s.speed n ∧ (∀ m, m ≠ n.val → t.axis m = s.axis m) ∧
      (∀ o, o ≠ encOff n → t.reg o = s.reg o) ∧ t = { s with regs := t.regs, axes := t.axes, log := t.log } := by
  obtain ⟨u, hu, hmode, -, -, -, hen, hother, hframe⟩ := axisCfg_leaves n v hs
  have hon : u.encOn n = false := hen.trans hv
  have huc : u.encCounts n = false := by rw [encCounts, hon, Bool.false_and]
  have haxes (m : Nat) : u.axis m = s.axis m := (congrArg (axis · m) hframe :)
  have hx := axisEnable_exec v ha
  have he : s.axisEnableEff n v = if s.encCounts n = true then u.holdSpeed n (s.speed n) else u := by
    simp only [axisEnableEff, hu, hv, huc, Bool.false_eq_true, not_false_eq_true, or_true, if_true, and_true]
  rw [he] at hx
  cases hc : s.encCounts n with
  | true =>
    rw [hc, if_pos rfl] at hx
    have hsame : (u.holdSpeed n (s.speed n)).axis n = { u.axis n with period := s.speed n, counted := s.speed n } := setAxis_same ..
    refine ⟨_, hx, hon, hmode hm, (congrArg Axis.pos (hsame.trans (by rw [haxes])) :), speed_holdSpeed huc (haxes n),
      fun m hm => (setAxis_other u n m _ hm).trans (haxes m), hother, ?_⟩
    rw [hframe]
    rfl
  | false =>
    rw [hc, if_neg (by simp)] at hx
    refine ⟨u, hx, hon, hmode hm, by rw [haxes], speed_off_congr hc huc (haxes n), fun m _ => haxes m, hother, ?_⟩
    rw [hframe]

/-- A write with EN and MODE 2 to an axis that is off, where the module has no HTL axes or an input of the axis is a general
input: EN stays 0. -/
theorem axisEnable_htlRefused {s : State} {n : Fin 4} {v : Word} (ha : s.answers 0 (encOff n) = true) (hs : s.sealed = false)
    (hv : bit v 31 = true) (hoff : s.encOn n = false) (hm : bits v 3 0 = 2)
    (hbar : s.variantN = true ∨ ∃ i, 4 * n.val ≤ i ∧ i ≤ 4 * n.val + 2 ∧ s.flag (0x290100 + 4 * i) 31 = true) :
    ∃ t, exec (.axisEnable n v) s = .next t ∧ t.encOn n = false ∧ t.encMode n = 2 ∧ t.axes = s.axes ∧
      t.lastCode (encStat n) = (if s.variantN then 0x1010#16 else 0x1101#16) ∧
      (∀ o, o ≠ encOff n → t.reg o = s.reg o) ∧ t = { s with regs := t.regs, log := t.log } := by
  obtain ⟨u, hu, hmode, -, -, -, -, hother, hframe⟩ := axisCfg_leaves n v hs
  have hold : bit (s.reg (encOff n)) 31 = false := hoff
  have hbar' : s.variantN = true ∨ (htlInputs n).any (fun i => s.flag (0x290100 + 4 * i) 31) = true := by
    refine hbar.imp_right fun ⟨i, h1, h2, hi⟩ => List.any_eq_true.2 ⟨i, ?_, hi⟩
    simp only [htlInputs, List.mem_cons, List.not_mem_nil, or_false]; omega
  have hx := axisEnable_exec v ha
  have he : s.axisEnableEff n v =
      (u.refuse (if s.variantN = true then 0x1010#16 else 0x1101#16) 0x01 n (encOff n) 31).setFld (encOff n) 31 31 0 := by
    simp only [axisEnableEff, hu, hs, hv, hold, hm, and_true, true_and, hbar', Bool.false_eq_true,
      not_true_eq_false, or_self, if_false, bit_bits, ← or_assoc, true_or, if_true]
  rw [he] at hx
  generalize hc : (if s.variantN = true then (0x1010#16 : Half) else 0x1101#16) = code at hx
  obtain ⟨g, hg⟩ := refuse_frame u code 0x01 n (encOff n) 31 0 0
  have hcode := lastCode_refuse u code 0x01 n (encOff n) 31 0 0 (encStat n)
  rw [if_pos (by simp [encStat])] at hcode
  have hregs (o : Nat) : (u.refuse code 0x01 n (encOff n) 31).reg o = u.reg o :=
    (refuse_regs_read u code 0x01 n (encOff n) 31 0 0 o 0 0).1
  have hnew := (setFld_reg_same (u.refuse code 0x01 n (encOff n) 31) (encOff n) 31 31 0).trans
    (congrArg (putBits · 31 31 0) (hregs (encOff n)))
  refine ⟨_, hx, ?_, ?_, ?_, (setFld_lastCode ..).trans hcode, fun o ho => ?_, ?_⟩
  · exact (congrArg (bit · 31) hnew).trans (bit_putBits_same _ 31 0 (by omega))
  · refine (congrArg (bits · 3 0) hnew).trans ?_
    rw [bits_putBits_other _ 31 31 0 3 0 (by omega) (by omega) (by omega)]
    exact (hmode (by omega)).trans hm
  · simp only [setFld_fields, refuse_fields]; exact (congrArg State.axes hframe :)
  · exact (setFld_reg_other _ _ 31 31 0 o ho).trans ((hregs o).trans (hother o ho))
  · rw [hg, hframe]; rfl

end State
end Sys2Proof.Machine

open Sys2Proof Sys2Proof.Machine Sys2Proof.Machine.State in
/-- Settles O11: the axis starts, stops, or is refused, by EN and MODE as written. -/
theorem axisEnableStartsOrRefuses : Obligations.AxisEnableStartsOrRefuses := by
  unfold Obligations.AxisEnableStartsOrRefuses
  refine ⟨fun s n v ha hs hv hoff hm hmult hz => ?_, fun _ _ _ => axisEnable_stops, fun _ _ _ => axisEnable_htlRefused⟩
  obtain ⟨t, hx, hon, hmode, hmu, hinv, hfil, haxis, hrest⟩ := axisEnable_starts ha hs hv hoff hm hmult hz
  exact ⟨t, hx, hon, hmode, hmu, hinv, hfil, (congrArg Axis.pos haxis :), (congrArg Axis.hist haxis :), (congrArg Axis.legal haxis :),
    (congrArg Axis.lastP haxis :), hrest⟩
end

