-- ==== Sys2Proof/Proofs/AxisCounting.lean ====
section
/-! SUPPORT. Counts of an axis (R24 to R26, R34 to R38): what a count leaves of the axis, its status and the emulation outputs
that follow it, and the edges of an incremental axis. -/

namespace Sys2Proof.Machine.State

/-! ## One code raised, one field written -/

theorem raise_leaves (s : State) (c : Half) (k i n : Nat) (p : List Byte) :
    ∃ t, s.raise c k i n p = t ∧ (∀ o, t.lastCode o = if o ∈ lastCodeKeys c k i then c else s.lastCode o) ∧
      t.codeWindow c k i = true ∧ t = { s with log := t.log } :=
  ⟨_, rfl, lastCode_raise s c k i n p, codeWindow_raise_same s c k i n p, rfl⟩

theorem setFld_leaves (s : State) (off hi lo x : Nat) :
    ∃ t, s.setFld off hi lo x = t ∧ t.reg off = putBits (s.reg off) hi lo x ∧ (∀ o, o ≠ off → t.reg o = s.reg o) ∧
      t = { s with regs := t.regs } :=
  ⟨_, rfl, setFld_reg_same s off hi lo x, fun o ho => setFld_reg_other s off hi lo x o ho, rfl⟩

/-! ## The method of the speed (R34, R35) -/

theorem methodAfter_leaves (s : State) (n : Nat) :
    ∃ t b, s.changeover n = t ∧ t.axis n = { s.axis n with method := b } ∧ (∀ m, m ≠ n → t.axis m = s.axis m) ∧
      t = { s with axes := t.axes } := by
  have put (b : Bool) : ∃ t b', s.setAxis n { s.axis n with method := b } = t ∧ t.axis n = { s.axis n with method := b' } ∧
      (∀ m, m ≠ n → t.axis m = s.axis m) ∧ t = { s with axes := t.axes } :=
    ⟨_, b, rfl, setAxis_same .., fun m hm => setAxis_other _ _ m _ hm, rfl⟩
  simp only [changeover]
  split
  · exact put true
  · split
    · exact put false
    · exact ⟨s, (s.axis n).method, rfl, rfl, fun _ _ => rfl, rfl⟩

theorem periodUpdate_leaves (s : State) (n : Nat) :
    ∃ t p b, s.periodUpdate n = t ∧ t.axis n = { s.axis n with period := p, method := b } ∧
      (∀ m, m ≠ n → t.axis m = s.axis m) ∧ t = { s with axes := t.axes } := by
  obtain ⟨p, hp⟩ : ∃ p, s.periodUpdate n = (s.setAxis n { s.axis n with period := p }).changeover n := ⟨_, rfl⟩
  obtain ⟨t, b, ht, haxis, hother, hframe⟩ := methodAfter_leaves (s.setAxis n { s.axis n with period := p }) n
  rw [setAxis_same] at haxis
  exact ⟨t, p, b, hp.trans ht, haxis, fun m hm => (hother m hm).trans (setAxis_other _ _ m _ hm), hframe⟩

/-! ## Emulation outputs that follow a source (R37, R38) -/

/-- The status register of an emulation output. -/
def emuStat (m : Nat) : Nat := emuOff m + 0x0C

theorem lastCodeKeys_emu (c : Half) {m : Nat} (hm : m < 2) : lastCodeKeys c 0x01 (0x10 + m) = [emuStat m] := by
  simp only [lastCodeKeys]
  rw [if_neg (by omega), if_pos (by omega), emuStat, emuOff, Nat.add_sub_cancel_left, List.cons.injEq]
  exact ⟨by omega, rfl⟩

/-- The backlog check of an output: its OVF, its status register and the log. -/
theorem emuBacklog_leaves (s : State) {m : Nat} (hm : m < 2) :
    ∃ t b, s.emuBacklog m = t ∧ t.emu m = { s.emu m with ovf := b } ∧ (∀ k, k ≠ m → t.emu k = s.emu k) ∧
      (∀ o, o ≠ emuStat m → t.reg o = s.reg o) ∧ (∀ o, o ≠ emuStat m → t.lastCode o = s.lastCode o) ∧
      t = { s with emus := t.emus, regs := t.regs, log := t.log } := by
  have hstat : emuOff m + 0x0C = emuStat m := rfl
  simp only [emuBacklog, hstat]
  split
  · obtain ⟨u, hu, -, hregs, hframe⟩ := setFld_leaves (s.setEmu m { s.emu m with ovf := true }) (emuStat m) 15 15 1
    obtain ⟨t, ht, hcode, -, hframe'⟩ := raise_leaves u 0x4103#16 0x01 (0x10 + m) 1 []
    have hemu (k : Nat) : t.emu k = (s.setEmu m { s.emu m with ovf := true }).emu k :=
      (congrArg (emu · k) hframe' :).trans (congrArg (emu · k) hframe :)
    refine ⟨t, true, by rw [hu, ht], (hemu m).trans (setEmu_same ..), fun k hk => (hemu k).trans (setEmu_other s m k _ hk),
      fun o ho => (congrArg (reg · o) hframe' :).trans (hregs o ho), fun o ho => ?_, ?_⟩
    · rw [hcode, lastCodeKeys_emu _ hm, if_neg (by simpa using ho)]
      exact (congrArg (lastCode · o) hframe :)
    · rw [hframe', hframe]
      rfl
  · split
    · exact ⟨_, false, rfl, setEmu_same .., fun k hk => setEmu_other _ m k _ hk, fun _ _ => rfl, fun _ _ => rfl, rfl⟩
    · exact ⟨s, (s.emu m).ovf, rfl, rfl, fun _ _ => rfl, fun _ _ => rfl, fun _ _ => rfl, rfl⟩

/-- An output `e` that has followed `d` counts of axis `n` as R37 says: exact by N/M, with nothing emitted yet. -/
def emuFollows (s : State) (m n : Nat) (d : Int) (e : Emu) : Prop :=
  e.emitted = (s.emu m).emitted ∧
    (s.flag (emuOff m) 31 = true → s.fld (emuOff m) 1 0 = n → s.fld (emuOff m + 4) 15 0 ≠ 0 →
      e.acc + s.fld (emuOff m + 4) 15 0 * e.target =
        (s.emu m).acc + s.fld (emuOff m + 4) 15 0 * (s.emu m).target + d * s.fld (emuOff m + 4) 31 16 ∧
      0 ≤ e.acc ∧ e.acc < s.fld (emuOff m + 4) 15 0)

theorem emuFollows_congr {s u : State} {m n : Nat} {d : Int} {e : Emu} (h0 : u.reg (emuOff m) = s.reg (emuOff m))
    (h4 : u.reg (emuOff m + 4) = s.reg (emuOff m + 4)) (he : u.emu m = s.emu m) (h : emuFollows u m n d e) :
    emuFollows s m n d e := by
  simpa only [emuFollows, flag, Machine.State.fld, h0, h4, he] using h

/-- One output at a count of an axis. -/
theorem emuCount_leaves (s : State) {m : Nat} (n : Nat) (d : Int) (hm : m < 2) :
    ∃ t, s.emuCount m n d = t ∧ emuFollows s m n d (t.emu m) ∧ (∀ k, k ≠ m → t.emu k = s.emu k) ∧
      (∀ o, o ≠ emuStat m → t.reg o = s.reg o) ∧ (∀ o, o ≠ emuStat m → t.lastCode o = s.lastCode o) ∧
      t = { s with emus := t.emus, regs := t.regs, log := t.log } := by
  by_cases hsrc : s.flag (emuOff m) 31 = true ∧ s.fld (emuOff m) 1 0 = n
  · let acc : Int := (s.emu m).acc + d * s.fld (emuOff m + 4) 31 16
    let e : Emu := { s.emu m with
      acc := acc - acc / s.fld (emuOff m + 4) 15 0 * s.fld (emuOff m + 4) 15 0
      target := (s.emu m).target + acc / s.fld (emuOff m + 4) 15 0 }
    obtain ⟨t, b, ht, hemu, hother, hregs, hcodes, hframe⟩ := emuBacklog_leaves (s.setEmu m e) hm
    have hcount : s.emuCount m n d = (s.setEmu m e).emuBacklog m := if_pos hsrc
    rw [setEmu_same] at hemu
    refine ⟨t, hcount.trans ht, ?_, fun k hk => (hother k hk).trans (setEmu_other _ m k _ hk), hregs, hcodes, hframe⟩
    rw [hemu]
    refine ⟨rfl, fun _ _ hM => ?_⟩
    have hpos : (0 : Int) < s.fld (emuOff m + 4) 15 0 := by omega
    have hmod : acc - acc / s.fld (emuOff m + 4) 15 0 * s.fld (emuOff m + 4) 15 0 = acc % s.fld (emuOff m + 4) 15 0 := by
      rw [Int.emod_def, Int.mul_comm]
    refine ⟨?_, ?_, ?_⟩
    · simp only [e, acc]; ring
    · exact (Int.emod_nonneg _ hpos.ne').trans_eq hmod.symm
    · exact hmod.trans_lt (Int.emod_lt_of_pos _ hpos)
  · refine ⟨s, if_neg hsrc, ⟨rfl, fun h1 h2 => absurd ⟨h1, h2⟩ hsrc⟩, fun _ _ => rfl, fun _ _ => rfl, fun _ _ => rfl, rfl⟩

/-! ## Counts (R24, R34, R44) -/

/-- The axis after a count of `d`, stamped. -/
def countedAxis (s : State) (n : Nat) (d : Int) (st : Int) : Axis :=
  { s.axis n with
    pos := posAdd (s.axis n).pos d, neg := decide (d < 0), delta := d.natAbs
    hist := (countStamps st (posAdd (s.axis n).pos d) d (if s.encAbs n then 1 else d.natAbs) ++ (s.axis n).hist).take 8
    lastAt := s.stampedAt st, still := false
    run := if decide (d < 0) = (s.axis n).neg then (s.axis n).run + d.natAbs else d.natAbs }

/-- A status bit set. -/
theorem setStat_leaves (s : State) (n b : Nat) (hb : b < 32) :
    ∃ t, s.setStat n b = t ∧ (∀ o, o ≠ encStat n → t.reg o = s.reg o) ∧
      (∀ k, k ≠ b → t.flag (encStat n) k = s.flag (encStat n) k) ∧ t.flag (encStat n) b = true ∧
      t = { s with regs := t.regs } := by
  obtain ⟨t, ht, hreg, hother, hframe⟩ := setFld_leaves s (encStat n) b b 1
  refine ⟨t, ht, hother, fun k hk => ?_, ?_, hframe⟩
  · rw [flag, hreg]; exact bit_putBits_other _ b b 1 k (le_refl b) hb (by omega)
  · rw [flag, hreg]; exact bit_putBits_same _ b 1 hb

/-- A count: the axis, WRAP of its status, and the outputs that follow it. -/
theorem addCount_leaves (s : State) {n : Nat} (d st : Int) (hn : n < 4) :
    ∃ t, s.addCount n d st = t ∧ t.axis n = s.countedAxis n d st ∧ (∀ m, m ≠ n → t.axis m = s.axis m) ∧
      (∀ m, m < 2 → emuFollows s m n d (t.emu m)) ∧ (∀ k, k ≠ 8 → t.flag (encStat n) k = s.flag (encStat n) k) ∧
      t.lastCode (encStat n) = s.lastCode (encStat n) ∧
      t = { s with axes := t.axes, regs := t.regs, emus := t.emus, log := t.log } := by
  let w : Bool := decide (posDiff (posAdd (s.axis n).pos d) 0 - posDiff (s.axis n).pos 0 ≠ d)
  obtain ⟨u, hu, hregs, hflags, hframe⟩ : ∃ u, (if w then (s.setAxis n (s.countedAxis n d st)).setStat n 8
      else s.setAxis n (s.countedAxis n d st)) = u ∧ (∀ o, o ≠ encStat n → u.reg o = s.reg o) ∧
      (∀ k, k ≠ 8 → u.flag (encStat n) k = s.flag (encStat n) k) ∧
      u = { s.setAxis n (s.countedAxis n d st) with regs := u.regs } := by
    obtain ⟨u, hu, hregs, hflags, -, hframe⟩ := setStat_leaves (s.setAxis n (s.countedAxis n d st)) n 8 (by omega)
    cases w with
    | true => exact ⟨u, hu, hregs, hflags, hframe⟩
    | false => exact ⟨_, rfl, fun _ _ => rfl, fun _ _ => rfl, rfl⟩
  obtain ⟨x, hx, hfol0, hemu0, hregs0, hcodes0, hframe0⟩ := emuCount_leaves u (m := 0) n d (by omega)
  obtain ⟨t, ht, hfol1, hemu1, hregs1, hcodes1, hframe1⟩ := emuCount_leaves x (m := 1) n d (by omega)
  have hadd : s.addCount n d st = t := by
    rw [← ht, ← hx, ← hu]; rfl
  have hux (m : Nat) : u.emu m = s.emu m := (congrArg (emu · m) hframe :)
  have hstat : encStat n ≠ emuStat 0 ∧ encStat n ≠ emuStat 1 := by simp only [encStat, encOff, emuStat, emuOff]; omega
  have haxes : t.axes = u.axes := (congrArg axes hframe1 :).trans (congrArg axes hframe0 :)
  have haxis (m : Nat) : t.axis m = (s.setAxis n (s.countedAxis n d st)).axis m :=
    (congrArg (tget {} · m) haxes :).trans (congrArg (axis · m) hframe :)
  refine ⟨t, hadd, (haxis n).trans (setAxis_same ..), fun m hm => (haxis m).trans (setAxis_other _ n m _ hm), fun m hm => ?_,
    fun k hk => ?_, ?_, ?_⟩
  · obtain rfl | rfl : m = 0 ∨ m = 1 := by omega
    · rw [hemu1 0 (by decide)]
      refine emuFollows_congr (hregs _ ?_) (hregs _ ?_) (hux 0) hfol0 <;> simp only [encStat, encOff, emuOff] <;> omega
    · refine emuFollows_congr ((hregs0 _ ?_).trans (hregs _ ?_)) ((hregs0 _ ?_).trans (hregs _ ?_))
        ((hemu0 1 (by decide)).trans (hux 1)) hfol1 <;> simp only [encStat, encOff, emuStat, emuOff] <;> omega
  · exact (congrArg (bit · k) ((hregs1 _ hstat.2).trans (hregs0 _ hstat.1))).trans (hflags k hk)
  · exact (hcodes1 _ hstat.2).trans ((hcodes0 _ hstat.1).trans (congrArg (lastCode · (encStat n)) hframe :))
  · rw [hframe1, hframe0, hframe]
    rfl

/-- A count, with the period estimate after it. -/
theorem countUpdate_leaves (s : State) {n : Nat} (d st : Int) (hn : n < 4) :
    ∃ t, (s.addCount n d st).periodUpdate n = t ∧ (t.axis n).pos = posAdd (s.axis n).pos d ∧ (t.axis n).a = (s.axis n).a ∧
      (t.axis n).b = (s.axis n).b ∧ (t.axis n).legal = (s.axis n).legal ∧ (∀ m, m ≠ n → t.axis m = s.axis m) ∧
      (∀ m, m < 2 → emuFollows s m n d (t.emu m)) ∧ (∀ k, k ≠ 8 → t.flag (encStat n) k = s.flag (encStat n) k) ∧
      t.lastCode (encStat n) = s.lastCode (encStat n) ∧
      t = { s with axes := t.axes, regs := t.regs, emus := t.emus, log := t.log } := by
  obtain ⟨u, hu, haxis, hother, hfol, hflags, hcode, hframe⟩ := addCount_leaves s d st hn
  obtain ⟨t, p, b, ht, haxis', hother', hframe'⟩ := periodUpdate_leaves u n
  rw [haxis] at haxis'
  have hemu (m : Nat) : t.emu m = u.emu m := (congrArg (emu · m) hframe' :)
  refine ⟨t, by rw [hu, ht], (congrArg Axis.pos haxis' :), (congrArg Axis.a haxis' :), (congrArg Axis.b haxis' :),
    (congrArg Axis.legal haxis' :), fun m hm => (hother' m hm).trans (hother m hm), fun m hm => ?_, fun k hk => ?_, ?_, ?_⟩
  · rw [hemu]; exact hfol m hm
  · exact (congrArg (flag · (encStat n) k) hframe' :).trans (hflags k hk)
  · exact (congrArg (lastCode · (encStat n)) hframe' :).trans hcode
  · rw [hframe', hframe]

/-! ## Edges (R25, R26) -/

/-- A number of counts as INVERT gives it. -/
def inverted (s : State) (n : Nat) (d : Int) : Int := if s.flag (encOff n) 10 then -d else d

theorem quadCount_eq (mult : Nat) (fwd aOld aNew : Bool) :
    quadCount mult fwd aOld aNew =
      if mult = 0 then (if fwd && !aOld && aNew then 1 else if !fwd && aOld && !aNew then -1 else 0)
      else if mult = 1 then (if aOld = aNew then 0 else if fwd then 1 else -1) else if fwd then 1 else -1 := by
  match mult with
  | 0 => revert fwd aOld aNew; decide
  | 1 => revert fwd aOld aNew; decide
  | k + 2 => simp [quadCount]

/-- The axis's new levels noted, and the direction of their legal transition. -/
def edged (s : State) (n : Nat) (a b fwd : Bool) : State :=
  (s.setAxis n { s.axis n with a, b }).setAxis n { s.axis n with a, b, legal := if fwd then 1 else -1 }

theorem edged_leaves (s : State) (n : Nat) (a b fwd : Bool) :
    (s.edged n a b fwd).axis n = { s.axis n with a, b, legal := if fwd then 1 else -1 } ∧
      (∀ m, m ≠ n → (s.edged n a b fwd).axis m = s.axis m) ∧ s.edged n a b fwd = { s with axes := (s.edged n a b fwd).axes } :=
  ⟨setAxis_same .., fun m h => (setAxis_other _ n m _ h).trans (setAxis_other s n m _ h), rfl⟩

/-- A step to the next or to the last state of the sequence, on an axis that takes edges and is in no fault. -/
theorem legalEdge_leaves {s : State} {n : Nat} {a b fwd : Bool} (hn : n < 4) (hon : s.encOn n = true)
    (hm : s.encMode n = 1 ∨ s.encMode n = 2) (hf : s.axisFault n = false)
    (hp : (quadPlace a b + 4 - quadPlace (s.axis n).a (s.axis n).b) % 4 = (if fwd then 1 else 3)) :
    ∃ t d, s.incrementalEdgeEff n a b = t ∧ d = s.inverted n (quadCount (s.fld (encOff n) 9 8) fwd (s.axis n).a a) ∧
      (t.axis n).a = a ∧ (t.axis n).b = b ∧ (t.axis n).pos = (s.axis n).pos + BitVec.ofInt 48 d ∧
      (t.axis n).legal = (if fwd then 1 else -1) ∧ (∀ m, m ≠ n → t.axis m = s.axis m) ∧
      (d ≠ 0 → ∀ m, m < 2 → emuFollows s m n d (t.emu m)) ∧
      t = { s with axes := t.axes, regs := t.regs, emus := t.emus, log := t.log } := by
  let q : Int := quadCount (s.fld (encOff n) 9 8) fwd (s.axis n).a a
  have hzero : s.inverted n q = 0 ↔ q = 0 := by
    simp only [inverted]; split <;> omega
  have he : s.incrementalEdgeEff n a b = if q = 0 then s.edged n a b fwd
      else ((s.edged n a b fwd).addCount n (s.inverted n q) (s.edgeStamp n)).periodUpdate n := by
    simp only [incrementalEdgeEff, hon, hm, not_true_eq_false, or_self, if_false, hp, hf, Bool.false_eq_true, or_false]
    cases fwd <;> rfl
  obtain ⟨hx, hother, hframe⟩ := edged_leaves s n a b fwd
  by_cases hq : q = 0
  · refine ⟨_, s.inverted n q, he.trans (if_pos hq), rfl, (congrArg Axis.a hx :), (congrArg Axis.b hx :), ?_,
      (congrArg Axis.legal hx :), hother, fun h => absurd (hzero.2 hq) h, ?_⟩
    · rw [hx, hzero.2 hq]; simp
    · rw [hframe]
  · obtain ⟨t, ht, hpos, ha, hb, hlegal, hkeep, hfol, -, -, hframe'⟩ :=
      countUpdate_leaves (s.edged n a b fwd) (s.inverted n q) (s.edgeStamp n) hn
    rw [hx] at hpos ha hb hlegal
    refine ⟨t, _, (he.trans (if_neg hq)).trans ht, rfl, ha, hb, hpos, hlegal, fun m h => (hkeep m h).trans (hother m h),
      fun _ m h => emuFollows_congr rfl rfl rfl (hfol m h), ?_⟩
    rw [hframe', hframe]

/-- A code of an axis with its count and POS_SUSPECT. -/
theorem countedCode_leaves (s : State) (n : Fin 4) (off : Nat) (code : Half) :
    ∃ u, ((s.bump off 1).setStat n 6).raise code 0x01 n = u ∧ u.counter off = satAdd (s.counter off) 1 ∧
      u.flag (encStat n) 6 = true ∧ u.lastCode (encStat n) = code ∧ (∀ o, o ≠ encStat n → u.reg o = s.reg o) ∧
      u = { s with regs := u.regs, counters := u.counters, log := u.log } := by
  obtain ⟨v, hv, hregs, -, hflag, hframe⟩ := setStat_leaves (s.bump off 1) n 6 (by omega)
  obtain ⟨u, hu, hcode, -, hframe'⟩ := raise_leaves v code 0x01 n 1 []
  have hsame := hcode (encStat n)
  rw [if_pos (by simp [encStat])] at hsame
  refine ⟨u, by rw [hv, hu], ?_, (congrArg (flag · (encStat n) 6) hframe' :).trans hflag, hsame,
    fun o ho => (congrArg (reg · o) hframe' :).trans (hregs o ho), ?_⟩
  · exact (congrArg (counter · off) hframe' :).trans ((congrArg (counter · off) hframe :).trans (bump_same s off 1))
  · rw [hframe', hframe]
    rfl

/-- A change of both levels (R26). -/
theorem illegalEdge_leaves {s : State} {n : Fin 4} {a b : Bool} (hon : s.encOn n = true)
    (hm : s.encMode n = 1 ∨ s.encMode n = 2) (hf : s.axisFault n = false) (ha : a ≠ (s.axis n).a) (hb : b ≠ (s.axis n).b) :
    ∃ t, s.incrementalEdgeEff n a b = t ∧ t.counter (encOff n + 0x2C) = satAdd (s.counter (encOff n + 0x2C)) 1 ∧
      t.flag (encStat n) 6 = true ∧ t.lastCode (encStat n) = 0x2101#16 ∧
      (t.axis n).pos = (s.axis n).pos +
        BitVec.ofInt 48 (if s.flag (encOff n) 18 then s.inverted n (2 * (s.axis n).legal) else 0) ∧
      (∀ m, m ≠ n.val → t.axis m = s.axis m) ∧
      t = { s with axes := t.axes, regs := t.regs, emus := t.emus, counters := t.counters, log := t.log } := by
  let x : Axis := { s.axis n with a, b }
  have hp : (quadPlace a b + 4 - quadPlace (s.axis n).a (s.axis n).b) % 4 = 2 := by
    generalize (s.axis n).a = xa at ha; generalize (s.axis n).b = xb at hb
    revert a b xa xb; decide
  obtain ⟨u, hu, hcount, hflag, hcode, -, hframe⟩ := countedCode_leaves (s.setAxis n x) n (encOff n + 0x2C) 0x2101#16
  have haxis (m : Nat) : u.axis m = (s.setAxis n x).axis m := (congrArg (axis · m) hframe :)
  have hx : u.axis n = x := (haxis n).trans (setAxis_same s n x)
  have hother (m : Nat) (h : m ≠ n.val) : u.axis m = s.axis m := (haxis m).trans (setAxis_other s n m x h)
  have he : s.incrementalEdgeEff n a b = if s.flag (encOff n) 18 = true ∧ (s.axis n).legal ≠ 0 then
      (u.addCount n (s.inverted n (2 * (s.axis n).legal)) (s.edgeStamp n)).periodUpdate n else u := by
    simp only [incrementalEdgeEff, hon, hm, not_true_eq_false, or_self, if_false, hp, hf, Bool.false_eq_true,
      not_false_eq_true, and_true, ← hu]
    rfl
  by_cases hc : s.flag (encOff n) 18 = true ∧ (s.axis n).legal ≠ 0
  · obtain ⟨t, ht, hpos, -, -, -, hkeep, -, hflags, hcode', hframe'⟩ :=
      countUpdate_leaves u (s.inverted n (2 * (s.axis n).legal)) (s.edgeStamp n) n.isLt
    rw [hx] at hpos
    refine ⟨t, (he.trans (if_pos hc)).trans ht, (congrArg (counter · (encOff n + 0x2C)) hframe' :).trans hcount,
      (hflags 6 (by omega)).trans hflag, hcode'.trans hcode, ?_, fun m h => (hkeep m h).trans (hother m h), ?_⟩
    · rw [hpos, if_pos hc.1]; rfl
    · rw [hframe', hframe]; rfl
  · refine ⟨u, he.trans (if_neg hc), hcount, hflag, hcode, ?_, hother, ?_⟩
    · have hnone : (if s.flag (encOff n) 18 then s.inverted n (2 * (s.axis n).legal) else 0) = 0 := by
        split
        · have h0 : (s.axis n).legal = 0 := by_contra fun h => hc ⟨‹_›, h⟩
          simp [inverted, h0]
        · rfl
      rw [hnone, hx]
      simp [x]
    · rw [hframe]; rfl

/-- Levels as they were: no edge. -/
theorem noEdge_leaves (s : State) (n : Nat) :
    s.incrementalEdgeEff n (s.axis n).a (s.axis n).b = s.setAxis n (s.axis n) := by
  have hp : (quadPlace (s.axis n).a (s.axis n).b + 4 - quadPlace (s.axis n).a (s.axis n).b) % 4 = 0 := by
    generalize (s.axis n).a = xa; generalize (s.axis n).b = xb
    revert xa xb; decide
  simp only [incrementalEdgeEff, hp, ite_self]

/-- An axis that is off or in fault takes no count. -/
theorem heldEdge_leaves {s : State} {n : Nat} (a b : Bool) (h : s.encOn n = false ∨ s.axisFault n = true) :
    ((s.incrementalEdgeEff n a b).axis n).pos = (s.axis n).pos ∧ (s.incrementalEdgeEff n a b).emus = s.emus := by
  have hput (w : State) (x : Axis) (hx : x.pos = (s.axis n).pos) : ((w.setAxis n x).axis n).pos = (s.axis n).pos := by
    rw [setAxis_same, hx]
  simp only [incrementalEdgeEff]
  split
  · exact ⟨hput _ _ rfl, rfl⟩
  · rename_i hc
    have hf : s.axisFault n = true := h.resolve_left fun hoff => hc (.inl (by simp [hoff]))
    split
    · exact ⟨hput _ _ rfl, rfl⟩
    · simp only [hf, not_true_eq_false, and_false, if_false, raise_units, raise_fields, setStat_units, setStat_fields]
      exact ⟨hput _ _ rfl, rfl⟩
    · simp only [hf, or_true, if_true]
      exact ⟨hput _ _ rfl, rfl⟩

end Sys2Proof.Machine.State

open Sys2Proof Sys2Proof.Machine Sys2Proof.Machine.State in
/-- Settles O12: by the place of the new levels in the sequence, one step on, one back, two, or none. -/
theorem incrementalEdgeCounts : Obligations.IncrementalEdgeCounts := by
  unfold Obligations.IncrementalEdgeCounts
  refine ⟨fun s n a b fwd hon hm hf hp => ?_, fun s n a b hon hm hf ha hb => ?_,
    fun s n => congrArg Host.Outcome.next (noEdge_leaves s n), fun s n a b h => ?_⟩
  · obtain ⟨t, d, ht, rfl, hta, htb, hpos, hlegal, hother, -, hframe⟩ := legalEdge_leaves n.isLt hon hm hf hp
    exact ⟨t, _, congrArg Host.Outcome.next ht, hta, htb, quadCount_eq .., hpos, hlegal, hother, hframe⟩
  · obtain ⟨t, ht, hrest⟩ := illegalEdge_leaves hon hm hf ha hb
    exact ⟨t, congrArg Host.Outcome.next ht, hrest⟩
  · exact ⟨_, rfl, heldEdge_leaves a b h⟩
end

