-- ==== Sys2Proof/Proofs/EmulationAndSpeed.lean ====
section
/-! SUPPORT. The enable and the edges of emulation outputs (R37, R38), and the evaluations of an axis's speed (R34 to R36). -/

namespace Sys2Proof.Machine.State

/-! ## `EMUn_CFG` (R38, R446) -/

theorem regSpec_emuCfg (m : Fin 2) : regSpec (emuOff m) = regsEmu.head? := by revert m; decide

/-- The fields of `EMUn_CFG` that matter to the enable take what is written; the ratio's register stays. -/
theorem emuCfg_leaves (s : State) (m : Fin 2) (v : Word) :
    ∃ u, s.writeFields (emuOff m) 0x01 (0x10 + m) v = u ∧ u.fld (emuOff m) 1 0 = bits v 1 0 ∧ u.flag (emuOff m) 31 = bit v 31 ∧
      (∀ o, o ≠ emuOff m → u.reg o = s.reg o) ∧ u = { s with regs := u.regs, log := u.log } := by
  have hoff : emuOff m ≠ 0x200010 := by simp only [emuOff]; omega
  obtain ⟨u, hu, hf, hother, hframe⟩ :=
    writeFields_leaves (s := s) 0x01 (0x10 + m) v (regSpec_emuCfg m) hoff (by decide) (.inr (by decide))
  have hany (hi lo : Nat) (hm : Machine.fld .rw hi lo ∈ (regsEmu.head?.get rfl).fields) :
      bits (u.reg (emuOff m)) hi lo = bits v hi lo := hf _ hm ⟨.inl rfl, .inl rfl⟩
  exact ⟨u, hu, hany 1 0 (by decide), bit_eq_of_bits (hany 31 31 (by decide)), hother, hframe⟩

theorem emuEnable_exec {s : State} {m : Fin 2} (v : Word) (ha : s.answers 0 (emuOff m) = true) :
    exec (.emuEnable m v) s = .next (s.emuEnableEff m v) := congrArg Host.Outcome.next (gate_answers s 0 (emuOff m) v _ ha)

/-- An output that starts. -/
theorem emuEnable_starts {s : State} {m : Fin 2} {v : Word} (ha : s.answers 0 (emuOff m) = true) (hv : bit v 31 = true)
    (hoff : s.flag (emuOff m) 31 = false) (hz : bits v 3 2 ≠ 3) (hN : s.fld (emuOff m + 4) 31 16 ≠ 0)
    (hM : s.fld (emuOff m + 4) 15 0 ≠ 0) :
    ∃ t, exec (.emuEnable m v) s = .next t ∧ t.flag (emuOff m) 31 = true ∧ t.fld (emuOff m) 1 0 = bits v 1 0 ∧
      t.emu m = { acc := 0, target := 0, emitted := 0 } ∧ (∀ k, k ≠ m.val → t.emu k = s.emu k) ∧
      (∀ o, o ≠ emuOff m → t.reg o = s.reg o) ∧ t = { s with regs := t.regs, emus := t.emus, log := t.log } := by
  obtain ⟨u, hu, hsrc, hen, hother, hframe⟩ := emuCfg_leaves s m v
  have hratio (hi lo : Nat) : u.fld (emuOff m + 4) hi lo = s.fld (emuOff m + 4) hi lo :=
    congrArg (bits · hi lo) (hother _ (by omega))
  have hold : bit (s.reg (emuOff m)) 31 = false := hoff
  have he : s.emuEnableEff m v = u.setEmu m { acc := 0, target := 0, emitted := 0 } := by
    simp only [emuEnableEff, hu, hv, hold, hz, hratio, hN, hM, or_self, and_false, if_false, not_true_eq_false, Bool.false_eq_true]
  have hemu (k : Nat) : u.emu k = s.emu k := (congrArg (emu · k) hframe :)
  refine ⟨_, (emuEnable_exec v ha).trans (congrArg Host.Outcome.next he), hen.trans hv, hsrc, setEmu_same ..,
    fun k hk => (setEmu_other _ _ k _ hk).trans (hemu k), hother, ?_⟩
  rw [hframe]
  rfl

/-- An enable with N or M at 0 is refused with 0x1102. -/
theorem emuEnable_ratioRefused {s : State} {m : Fin 2} {v : Word} (ha : s.answers 0 (emuOff m) = true) (hv : bit v 31 = true)
    (hoff : s.flag (emuOff m) 31 = false) (hr : s.fld (emuOff m + 4) 31 16 = 0 ∨ s.fld (emuOff m + 4) 15 0 = 0) :
    ∃ t, exec (.emuEnable m v) s = .next t ∧ t.flag (emuOff m) 31 = false ∧ t.lastCode (emuStat m) = 0x1102#16 ∧
      t.emus = s.emus := by
  obtain ⟨u, hu, -, -, hother, hframe⟩ := emuCfg_leaves s m v
  have hratio (hi lo : Nat) : u.fld (emuOff m + 4) hi lo = s.fld (emuOff m + 4) hi lo :=
    congrArg (bits · hi lo) (hother _ (by omega))
  have hold : bit (s.reg (emuOff m)) 31 = false := hoff
  have he : s.emuEnableEff m v =
      (u.refuse 0x1102#16 0x01 (0x10 + m) (emuOff m) 31).setFld (emuOff m) 31 31 0 := by
    simp only [emuEnableEff, hu, hv, hold, hratio, hr, or_true, and_self, if_true, not_true_eq_false, if_false, bit_bits,
      Bool.false_eq_true]
  refine ⟨_, (emuEnable_exec v ha).trans (congrArg Host.Outcome.next he), ?_, ?_, ?_⟩
  · exact (congrArg (bit · 31) (setFld_reg_same _ (emuOff m) 31 31 0)).trans (bit_putBits_same _ 31 0 (by omega))
  · rw [setFld_lastCode, lastCode_refuse, lastCodeKeys_emu _ m.isLt, if_pos (by simp)]
  · simp only [setFld_fields, refuse_fields]
    exact (congrArg State.emus hframe :)

/-! ## Edges of an output (R38) -/

/-- An output after one edge toward its target. -/
def emuStepped (s : State) (m : Nat) : Emu :=
  let e := s.emu m
  let up := decide (e.emitted < e.target)
  let em := if up then e.emitted + 1 else e.emitted - 1
  { e with
    emitted := em, phase := (e.phase + (if up != s.flag (emuOff m) 4 then 1 else 3)) % 4, lastEdge := s.now
    z := s.fld (emuOff m) 3 2 = 2 ∧ em % (s.fld (emuOff m + 8) 23 0 : Int) = 0 }

/-- An edge that is due. -/
theorem emuEdge_leaves {s : State} {m : Fin 2} (hon : s.flag (emuOff m) 31 = true) (hne : (s.emu m).target ≠ (s.emu m).emitted)
    (hdue : (s.emu m).lastEdge + s.fld (emuOff m) 23 8 * 4 ≤ s.now) :
    ∃ t, exec (.emuEdge m) s = .next t ∧
      (t.emu m).emitted = (s.emu m).emitted + (if (s.emu m).emitted < (s.emu m).target then 1 else -1) ∧
      (t.emu m).target = (s.emu m).target ∧ (t.emu m).lastEdge = s.now ∧ (∀ k, k ≠ m.val → t.emu k = s.emu k) ∧
      t = { s with emus := t.emus, regs := t.regs, log := t.log } := by
  have he : s.emuEdgeEff m = (s.setEmu m (s.emuStepped m)).emuBacklog m := if_pos ⟨hon, hne, hdue⟩
  obtain ⟨t, b, ht, hemu, hother, -, -, hframe⟩ := emuBacklog_leaves (s.setEmu m (s.emuStepped m)) m.isLt
  rw [setEmu_same] at hemu
  refine ⟨t, congrArg Host.Outcome.next (he.trans ht), ?_, (congrArg Emu.target hemu :), (congrArg Emu.lastEdge hemu :),
    fun k hk => (hother k hk).trans (setEmu_other _ _ k _ hk), hframe⟩
  refine (congrArg Emu.emitted hemu :).trans ?_
  simp only [emuStepped, decide_eq_true_eq]
  split <;> rfl

/-! ## Speed (R34 to R36) -/

theorem encCounts_of_on {s : State} {n : Nat} (hon : s.encOn n = true) (hm : s.encMode n ≠ 0) : s.encCounts n = true := by
  simp [encCounts, hon, hm]

/-- The axis after an evaluation of the count method: the position recorded, and the estimate once 16 earlier ones are held. -/
def evaluatedAxis (s : State) (n : Nat) : Axis :=
  let a := s.axis n
  let win := (a.pos :: a.window).take 17
  { a with
    window := win
    counted := match win[16]? with
      | some p => clampInt (-(2 ^ 31 - 1)) (2 ^ 31 - 1) (divRne (posDiff a.pos p * 64000000) (s.reg (encOff n + 0x0C)).toNat)
      | none => a.counted }

theorem evaluatedAxis_counted {s : State} {n : Nat} {p : Pos} (hp : (s.axis n).window[15]? = some p) :
    (s.evaluatedAxis n).counted = clampInt (-(2 ^ 31 - 1)) (2 ^ 31 - 1)
      (divRne (posDiff (s.axis n).pos p * (64 * 1000000)) (s.reg (encOff n + 0x0C)).toNat) := by
  have hold : (((s.axis n).pos :: (s.axis n).window).take 17)[16]? = some p := by
    rw [List.getElem?_take_of_lt (by omega), List.getElem?_cons_succ, hp]
  simp only [evaluatedAxis, hold]
  rfl

/-- An evaluation of the count method. -/
theorem speedCountEval_leaves {s : State} {n : Fin 4} (hon : s.encOn n = true) (hm : s.encMode n ≠ 0) (p : Pos) :
    ∃ t, exec (.speedCountEval n) s = .next t ∧ (t.axis n).pos = (s.axis n).pos ∧
      (t.axis n).window = ((s.axis n).pos :: (s.axis n).window).take 17 ∧ (t.axis n).period = (s.axis n).period ∧
      ((s.axis n).window[15]? = some p → (t.axis n).counted =
        clampInt (-(2 ^ 31 - 1)) (2 ^ 31 - 1)
          (divRne (posDiff (s.axis n).pos p * (64 * 1000000)) (s.reg (encOff n + 0x0C)).toNat)) ∧
      (∀ m, m ≠ n.val → t.axis m = s.axis m) ∧ t = { s with axes := t.axes } := by
  have he : s.speedCountEvalEff n = (s.setAxis n (s.evaluatedAxis n)).changeover n := by
    rw [speedCountEvalEff, if_neg (by simp [encCounts_of_on hon hm])]
    rfl
  obtain ⟨t, b, ht, haxis, hother, hframe⟩ := methodAfter_leaves (s.setAxis n (s.evaluatedAxis n)) n
  rw [setAxis_same] at haxis
  exact ⟨t, congrArg Host.Outcome.next (he.trans ht), (congrArg Axis.pos haxis :), (congrArg Axis.window haxis :),
    (congrArg Axis.period haxis :), fun hp => (congrArg Axis.counted haxis :).trans (evaluatedAxis_counted hp),
    fun m h => (hother m h).trans (setAxis_other _ _ m _ h), hframe⟩

/-- An axis without a count for `SPD_STILL`. -/
theorem standstill_leaves {s : State} {n : Fin 4} (hon : s.encOn n = true) (hm : s.encMode n ≠ 0)
    (hdue : (s.axis n).lastAt + (s.reg (encOff n + 0x18)).toNat * 1000000 ≤ s.now) :
    ∃ t, exec (.standstill n) s = .next t ∧ (t.axis n).still = true ∧ t.speed n = 0 ∧ (t.axis n).pos = (s.axis n).pos ∧
      (∀ m, m ≠ n.val → t.axis m = s.axis m) ∧ t = { s with axes := t.axes } := by
  have he : s.standstillEff n = s.setAxis n { s.axis n with still := true } := if_pos ⟨encCounts_of_on hon hm, hdue⟩
  have hx := setAxis_same s n { s.axis n with still := true }
  exact ⟨_, congrArg Host.Outcome.next he, (congrArg Axis.still hx :), speed_stopped (by simp), (congrArg Axis.pos hx :),
    fun m h => setAxis_other s n m _ h, rfl⟩

end Sys2Proof.Machine.State

open Sys2Proof Sys2Proof.Machine Sys2Proof.Machine.State in
/-- Settles O17: an evaluation and a standstill are each one update of the axis. -/
theorem speedEvaluationAndStandstill : Obligations.SpeedEvaluationAndStandstill := by
  unfold Obligations.SpeedEvaluationAndStandstill
  exact ⟨fun _ _ p hon hm => speedCountEval_leaves hon hm p, fun _ _ => standstill_leaves⟩

open Sys2Proof Sys2Proof.Machine Sys2Proof.Machine.State in
/-- Settles O18: the enable's two ends, the output that follows a count of its source (AxisCounting), and its edge. -/
theorem emulationFollowsItsSource : Obligations.EmulationFollowsItsSource := by
  unfold Obligations.EmulationFollowsItsSource
  refine ⟨fun s m v ha hv hoff hz hN hM => ?_, fun _ _ _ => emuEnable_ratioRefused,
    fun s m n a b fwd hon hmode hf hen hsrc hM hmult hinv hp => ?_, fun _ _ => emuEdge_leaves⟩
  · obtain ⟨t, hx, hen, hsrc, hemu, hrest⟩ := emuEnable_starts ha hv hoff hz hN hM
    exact ⟨t, hx, hen, hsrc, congrArg Emu.acc hemu, congrArg Emu.target hemu, congrArg Emu.emitted hemu, hrest⟩
  · obtain ⟨t, d, ht, hd, -, -, -, -, -, hfol, -⟩ := legalEdge_leaves n.isLt hon (.inl hmode) hf hp
    have hd1 : d = if fwd then 1 else -1 := by
      rw [hd, inverted, hinv, hmult, quadCount_eq]; rfl
    have hne : d ≠ 0 := by rw [hd1]; split <;> decide
    obtain ⟨hem, hexact⟩ := hfol hne m m.isLt
    obtain ⟨hacc, h0, hlt⟩ := hexact hen hsrc hM
    exact ⟨t, congrArg Host.Outcome.next ht, hd1 ▸ hacc, h0, hlt, hem⟩
end

