-- ==== Sys2Proof/Proofs/ZAndPresets.lean ====
section
/-! SUPPORT. The Z of an axis, its latch and its check (R27), and presets by GO and by an armed Z (R33). -/

namespace Sys2Proof.Machine.State

/-! ## The latch (R27) -/

/-- The distance of two latches in the same direction is not `ZPERIOD`. -/
def zMismatch (s : State) (n : Nat) : Bool :=
  decide ((s.reg (encOff n + 0x3C)).toNat ≠ 0) && decide ((s.axis n).zdir = some (s.axis n).neg) &&
    decide ((posDiff (s.axis n).pos (s.axis n).zpos).natAbs ≠ (s.reg (encOff n + 0x3C)).toNat)

/-- The check of a Z: ZMISMATCH and POS_SUSPECT with 0x2104 on a mismatch, and nothing where there is none. -/
theorem zCheck_leaves (s : State) (n : Fin 4) (bad : Bool) :
    ∃ t, (if bad then ((s.setStat n 9).setStat n 6).raise 0x2104#16 0x01 n else s) = t ∧
      t.flag (encStat n) 9 = (bad || s.flag (encStat n) 9) ∧ t.flag (encStat n) 6 = (bad || s.flag (encStat n) 6) ∧
      t.lastCode (encStat n) = (if bad then 0x2104#16 else s.lastCode (encStat n)) ∧
      (bad = true → t.codeWindow 0x2104#16 0x01 n = true) ∧ (bad = false → t.log = s.log) ∧
      (∀ o, o ≠ encStat n → t.reg o = s.reg o) ∧ t = { s with regs := t.regs, log := t.log } := by
  cases bad with
  | false => exact ⟨s, rfl, rfl, rfl, rfl, fun h => absurd h Bool.false_ne_true, fun _ => rfl, fun _ _ => rfl, rfl⟩
  | true =>
    obtain ⟨u, hu, hreg, -, h9, hframe⟩ := setStat_leaves s n 9 (by omega)
    obtain ⟨w, hw, hreg', hflag, h6, hframe'⟩ := setStat_leaves u n 6 (by omega)
    obtain ⟨t, ht, hcode, hwin, hframe''⟩ := raise_leaves w 0x2104#16 0x01 n 1 []
    have hsame := hcode (encStat n)
    rw [if_pos (by simp [encStat])] at hsame
    have hreg'' (o : Nat) : t.reg o = w.reg o := (congrArg (reg · o) hframe'' :)
    refine ⟨t, by rw [if_pos rfl, hu, hw, ht], (congrArg (bit · 9) (hreg'' _)).trans ((hflag 9 (by omega)).trans h9),
      (congrArg (bit · 6) (hreg'' _)).trans h6, hsame, fun _ => hwin, fun h => absurd h.symm Bool.false_ne_true,
      fun o ho => (hreg'' o).trans ((hreg' o ho).trans (hreg o ho)), ?_⟩
    rw [hframe'', hframe', hframe]

/-- The axis after a Z: its position latched, with the direction it was latched in. -/
def latchedAxis (s : State) (n : Nat) : Axis :=
  { s.axis n with zpos := (s.axis n).pos, zdone := true, zdir := some (s.axis n).neg }

theorem zLatch_leaves (s : State) (n : Fin 4) :
    ∃ t, s.zLatch n = t ∧ t.axis n = s.latchedAxis n ∧ (∀ m, m ≠ n.val → t.axis m = s.axis m) ∧
      t.flag (encStat n) 7 = true ∧ t.flag (encStat n) 9 = (s.zMismatch n || s.flag (encStat n) 9) ∧
      t.flag (encStat n) 6 = (s.zMismatch n || s.flag (encStat n) 6) ∧
      t.lastCode (encStat n) = (if s.zMismatch n then 0x2104#16 else s.lastCode (encStat n)) ∧
      (s.zMismatch n = true → t.codeWindow 0x2104#16 0x01 n = true) ∧ (s.zMismatch n = false → t.log = s.log) ∧
      (∀ o, o ≠ encStat n → t.reg o = s.reg o) ∧ t = { s with axes := t.axes, regs := t.regs, log := t.log } := by
  obtain ⟨u, hu, h9, h6, hcode, hwin, hlog, hreg, hframe⟩ := zCheck_leaves s n (s.zMismatch n)
  obtain ⟨t, ht, hreg', hflag, h7, hframe'⟩ := setStat_leaves (u.setAxis n (s.latchedAxis n)) n 7 (by omega)
  have he : s.zLatch n = t := by
    rw [← ht, ← hu]; rfl
  have haxis (m : Nat) : t.axis m = (u.setAxis n (s.latchedAxis n)).axis m := (congrArg (axis · m) hframe' :)
  have hux (m : Nat) : u.axis m = s.axis m := (congrArg (axis · m) hframe :)
  have htlog : t.log = u.log := (congrArg State.log hframe' :)
  refine ⟨t, he, (haxis n).trans (setAxis_same ..), fun m h => (haxis m).trans ((setAxis_other u n m _ h).trans (hux m)), h7,
    (hflag 9 (by omega)).trans h9, (hflag 6 (by omega)).trans h6, ?_, fun h => ?_, fun h => htlog.trans (hlog h),
    fun o ho => (hreg' o ho).trans (hreg o ho), ?_⟩
  · rw [lastCode, htlog]; exact hcode
  · rw [codeWindow, htlog]; exact hwin h
  · rw [hframe', hframe]; rfl

/-! ## A preset applied (R33) -/

/-- The preset value of an axis. -/
def presetValue (s : State) (n : Nat) : Pos := BitVec.ofNat 48 (s.reg64 (encOff n + 0x40))

/-- The offset by which a preset moves an axis. -/
def presetShift (s : State) (n : Nat) : Pos := s.presetValue n - (s.axis n).pos

/-- The same offset in the Calendar's form. -/
def presetFine (s : State) (n : Nat) : Fine := BitVec.ofNat 64 ((s.presetShift n).toNat * 65536)

/-- The axis after a preset. -/
def presetAxis (s : State) (n : Nat) : Axis :=
  { s.axis n with
    pos := s.presetValue n, zpos := if (s.axis n).zdone then (s.axis n).zpos + s.presetShift n else (s.axis n).zpos
    hist := (s.axis n).hist.map (fun h => (h.1, h.2 + s.presetShift n))
    window := (s.axis n).window.map (· + s.presetShift n) }

/-- An entry of the Calendar, moved. -/
def movedEntry (d : Fine) (e : CalEntry) : CalEntry := { e with pos := e.pos + d }

/-- What a part of a lane moves by does not depend on an axis's registers. -/
theorem movePart_congr {s u : State} {n : Nat} (hregs : ∀ o, 0x211000 ≤ o → u.reg o = s.reg o) (x : Fine) :
    u.movePart n x = s.movePart n x := by
  have hbind (k : Nat) : u.bindAxis k = s.bindAxis k := congrArg (bits · 29 28) (hregs (bindOff k) (by simp only [bindOff]; omega))
  funext p
  simp only [movePart, hbind]

/-- The axis and its Calendar entries replaced. -/
theorem setAxisCal_leaves (s : State) (n : Nat) (a : Axis) (l : List CalEntry) :
    ∃ t, (s.setAxis n a).setCal n l = t ∧ t.axis n = a ∧ t.calOf n = l ∧
      (∀ m, m ≠ n → t.calOf m = s.calOf m ∧ t.axis m = s.axis m) ∧ t = { s with axes := t.axes, cal := t.cal } :=
  ⟨_, rfl, setAxis_same s n a, setCal_same (s.setAxis n a) n l,
    fun m h => ⟨setCal_other (s.setAxis n a) n m l h, setAxis_other s n m a h⟩, rfl⟩

/-- The parts, line blocks and injections of a state moved with an axis. -/
def moveKeyed (s : State) (n : Nat) (d : Fine) : State :=
  { s with
    parts := s.parts.map (s.movePart n d)
    sluices := s.sluices.map (fun (p : Nat × Sluice) => (p.1, moveSluice n d p.2))
    provings := s.provings.map (fun (p : Nat × Proving) => (p.1, moveProving n d p.2)) }

theorem applyPreset_eq (s : State) (n : Nat) : ∃ p, s.applyPreset n =
    ((((s.setAxis n (s.presetAxis n)).setCal n (((s.setAxis n (s.presetAxis n)).calOf n).map (movedEntry (s.presetFine n)))).moveKeyed n
      (s.presetFine n)).setFld (encOff n + 0x48) 1 1 0).raiseNow 0x0101#16 0x01 n p := by
  simp only [applyPreset, moveKeyed, presetAxis, presetFine, presetShift, presetValue]
  exact ⟨_, rfl⟩

/-- A preset applied. -/
theorem applyPreset_leaves (s : State) (n : Nat) :
    ∃ t, s.applyPreset n = t ∧ t.axis n = s.presetAxis n ∧ t.calOf n = (s.calOf n).map (movedEntry (s.presetFine n)) ∧
      (∀ m, m ≠ n → t.calOf m = s.calOf m ∧ t.axis m = s.axis m) ∧ t.parts = s.parts.map (s.movePart n (s.presetFine n)) ∧
      t.flag (encOff n + 0x48) 1 = false ∧ (∀ o, t.lastCode o = s.lastCode o) ∧
      (∀ o, o ≠ encOff n + 0x48 → t.reg o = s.reg o) ∧
      t = { s with axes := t.axes, cal := t.cal, parts := t.parts, sluices := t.sluices, provings := t.provings,
                   regs := t.regs, log := t.log } := by
  obtain ⟨p, hp⟩ := applyPreset_eq s n
  obtain ⟨u, hu, haxis, hcal, hother, hframe⟩ :=
    setAxisCal_leaves s n (s.presetAxis n) ((s.calOf n).map (movedEntry (s.presetFine n)))
  obtain ⟨w, hw, hreg, hregs, hframe'⟩ := setFld_leaves (u.moveKeyed n (s.presetFine n)) (encOff n + 0x48) 1 1 0
  obtain ⟨l, hl⟩ := raiseNow_frame w 0x0101#16 0x01 n p
  have hcode (o : Nat) : (w.raiseNow 0x0101#16 0x01 n p).lastCode o = w.lastCode o := by
    rw [lastCode_raiseNow, if_neg (fun h => h.1 rfl)]
  rw [(setAxis_units s n (s.presetAxis n) n).2.2.2.2.2.2.2.1, hu, hw, hl] at hp
  rw [hl] at hcode
  rw [hframe'] at hp hcode
  have hukeep (o : Nat) : u.reg o = s.reg o ∧ u.lastCode o = s.lastCode o :=
    ⟨(congrArg (reg · o) hframe :), (congrArg (lastCode · o) hframe :)⟩
  have hparts : u.parts.map (u.movePart n (s.presetFine n)) = s.parts.map (s.movePart n (s.presetFine n)) := by
    rw [movePart_congr fun o _ => (hukeep o).1]
    exact (congrArg (fun x : State => x.parts.map (s.movePart n (s.presetFine n))) hframe :)
  refine ⟨_, hp, haxis, hcal, hother, hparts, ?_, fun o => ?_, fun o ho => (hregs o ho).trans (hukeep o).1, ?_⟩
  · exact (congrArg (bit · 1) hreg).trans (bit_putBits_same _ 1 0 (by omega))
  · exact (hcode o).trans (hukeep o).2
  · rw [moveKeyed, hframe]

/-! ## `ENCn_PRESET_CTL` (R33) -/

theorem regSpec_presetCtl (n : Fin 4) : regSpec (encOff n + 0x48) =
    some { delta := 0x48, code := 0x1101#16, fields := [Machine.fld .wo 0 0, Machine.fld .rw 1 1] } := by
  revert n; decide

/-- A write of `ENCn_PRESET_CTL` sets ARM_Z as written. -/
theorem presetCtl_leaves (s : State) (n : Fin 4) (v : Word) :
    ∃ u, s.writeFields (encOff n + 0x48) 0x01 n v = u ∧ u.flag (encOff n + 0x48) 1 = bit v 1 ∧
      (∀ o, o ≠ encOff n + 0x48 → u.reg o = s.reg o) ∧ u = { s with regs := u.regs } := by
  have hw : s.writeFields (encOff n + 0x48) 0x01 n v =
      s.setReg (encOff n + 0x48) (putBits (s.reg (encOff n + 0x48)) 1 1 (bits v 1 1)) := by
    simp [writeFields, regSpec_presetCtl, applyFields, applyField, sealedField, Machine.fld, reportFields]
  have hsame := reg_setReg_same s (encOff n + 0x48) (putBits (s.reg (encOff n + 0x48)) 1 1 (bits v 1 1))
  refine ⟨_, hw, bit_eq_of_bits ?_, fun o ho => reg_setReg_other s _ o _ ho, rfl⟩
  rw [hsame]
  exact bits_putBits_bits _ v (by omega) (by omega)

theorem presetGo_exec {s : State} {n : Fin 4} (v : Word) (ha : s.answers 0 (encOff n + 0x48) = true) :
    exec (.presetGo n v) s = .next (s.presetGoEff n v) := congrArg Host.Outcome.next (gate_answers s 0 _ v _ ha)

/-- A preset applied by GO. -/
theorem presetGo_applies {s : State} {n : Fin 4} {v : Word} (ha : s.answers 0 (encOff n + 0x48) = true) (h0 : bit v 0 = true)
    (h1 : bit v 1 = false) :
    ∃ t, exec (.presetGo n v) s = .next t ∧ t.axis n = s.presetAxis n ∧
      t.calOf n = (s.calOf n).map (movedEntry (s.presetFine n)) ∧
      (∀ m, m ≠ n.val → t.calOf m = s.calOf m ∧ t.axis m = s.axis m) ∧ t.parts = s.parts.map (s.movePart n (s.presetFine n)) ∧
      t.flag (encOff n + 0x48) 1 = false ∧ (∀ o, t.lastCode o = s.lastCode o) ∧
      (∀ o, o ≠ encOff n + 0x48 → t.reg o = s.reg o) ∧
      t = { s with axes := t.axes, cal := t.cal, parts := t.parts, sluices := t.sluices, provings := t.provings,
                   regs := t.regs, log := t.log } := by
  obtain ⟨u, hu, -, hregs, hframe⟩ := presetCtl_leaves s n v
  obtain ⟨t, ht, haxis, hcal, hother, hparts, harm, hcode, hregs', hframe'⟩ := applyPreset_leaves u n
  have hvalue : u.presetValue n = s.presetValue n := by
    rw [presetValue, presetValue, reg64, reg64, hregs _ (by omega), hregs _ (by omega)]
  have hux (m : Nat) : u.axis m = s.axis m := (congrArg (axis · m) hframe :)
  have huc (m : Nat) : u.calOf m = s.calOf m := (congrArg (calOf · m) hframe :)
  have hshift : u.presetShift n = s.presetShift n := by rw [presetShift, presetShift, hvalue, hux]
  have hfine : u.presetFine n = s.presetFine n := by rw [presetFine, presetFine, hshift]
  have hpreset : u.presetAxis n = s.presetAxis n := by rw [presetAxis, presetAxis, hvalue, hshift, hux]
  have he : s.presetGoEff n v = t := by
    rw [presetGoEff, hu, ← ht]; exact if_pos ⟨h0, by simp [h1]⟩
  refine ⟨t, (presetGo_exec v ha).trans (congrArg Host.Outcome.next he), haxis.trans hpreset, ?_,
    fun m h => ⟨(hother m h).1.trans (huc m), (hother m h).2.trans (hux m)⟩, ?_, harm,
    fun o => (hcode o).trans (congrArg (lastCode · o) hframe :), fun o ho => (hregs' o ho).trans (hregs o ho), ?_⟩
  · rw [hcal, huc, hfine]
  · rw [hparts, movePart_congr fun o ho => hregs o (by simp only [encOff]; omega), hfine]
    exact (congrArg (fun x : State => x.parts.map (s.movePart n (s.presetFine n))) hframe :)
  · rw [hframe', hframe]

/-- A write that arms the preset, or disarms it. -/
theorem presetGo_arms {s : State} {n : Fin 4} {v : Word} (ha : s.answers 0 (encOff n + 0x48) = true)
    (h : bit v 0 = false ∨ bit v 1 = true) :
    ∃ t, exec (.presetGo n v) s = .next t ∧ t.flag (encOff n + 0x48) 1 = bit v 1 ∧
      (∀ o, o ≠ encOff n + 0x48 → t.reg o = s.reg o) ∧ t = { s with regs := t.regs } := by
  obtain ⟨u, hu, hrest⟩ := presetCtl_leaves s n v
  have he : s.presetGoEff n v = u := by
    rw [presetGoEff, hu]
    exact if_neg fun hc => h.elim (fun h0 => by simp [h0] at hc) (fun h1 => hc.2 h1)
  exact ⟨u, (presetGo_exec v ha).trans (congrArg Host.Outcome.next he), hrest⟩

/-! ## A qualified Z (R27, R33) -/

theorem emuPassZ_frame (s : State) (m n : Nat) : ∃ e, s.emuPassZ m n = { s with emus := e } := by
  simp only [emuPassZ]; split
  · exact ⟨_, rfl⟩
  · exact ⟨_, rfl⟩

/-- A Z on an enabled axis: the latch, the preset where one is armed, and the outputs that pass it on. -/
theorem zQualified_leaves {s : State} {n : Fin 4} (hon : s.encOn n = true) :
    ∃ e, exec (.zQualified n) s =
      .next { (if s.flag (encOff n + 0x48) 1 then (s.zLatch n).applyPreset n else s.zLatch n) with emus := e } := by
  obtain ⟨u, hu, -, -, -, -, -, -, -, -, hregs, -⟩ := zLatch_leaves s n
  have harm : (s.zLatch n).flag (encOff n + 0x48) 1 = s.flag (encOff n + 0x48) 1 := by
    rw [hu]; exact congrArg (bit · 1) (hregs _ (by simp only [encStat]; omega))
  generalize hw : (if s.flag (encOff n + 0x48) 1 = true then (s.zLatch n).applyPreset n else s.zLatch n) = w
  obtain ⟨e0, h0⟩ := emuPassZ_frame w 0 n
  obtain ⟨e1, h1⟩ := emuPassZ_frame { w with emus := e0 } 1 n
  have he : s.zQualifiedEff n = (w.emuPassZ 0 n).emuPassZ 1 n := by
    rw [← hw, ← harm]; exact if_pos hon
  exact ⟨e1, congrArg Host.Outcome.next (he.trans (by rw [h0, h1]))⟩

end Sys2Proof.Machine.State

open Sys2Proof Sys2Proof.Machine Sys2Proof.Machine.State in
/-- Settles O13: with no preset armed, a Z is the latch and its check. -/
theorem zLatchesAndChecksPeriod : Obligations.ZLatchesAndChecksPeriod := by
  unfold Obligations.ZLatchesAndChecksPeriod
  intro s n hon harm
  obtain ⟨e, he⟩ := zQualified_leaves hon
  obtain ⟨u, hu, haxis, hother, h7, h9, h6, hcode, hwin, hlog, -, hframe⟩ := zLatch_leaves s n
  rw [harm, if_neg Bool.false_ne_true, hu] at he
  refine ⟨_, s.zMismatch n, he, (congrArg Axis.pos haxis :), (congrArg Axis.zpos haxis :), h7, rfl, h9, h6, hcode, hwin, hlog,
    (congrArg Axis.zdir haxis :), hother, ?_⟩
  rw [hframe]

open Sys2Proof Sys2Proof.Machine Sys2Proof.Machine.State in
/-- Settles O14: GO and an armed Z apply the same preset, the Z after its latch; every other write arms or disarms it. -/
theorem presetMovesWhatIsKeyedToTheAxis : Obligations.PresetMovesWhatIsKeyedToTheAxis := by
  unfold Obligations.PresetMovesWhatIsKeyedToTheAxis
  refine ⟨fun s n v ha h0 h1 => ?_, fun _ _ _ => presetGo_arms, fun s n hon harm => ?_⟩
  · obtain ⟨t, hx, haxis, hcal, hother, hparts, hrest⟩ := presetGo_applies ha h0 h1
    have hpos : (t.axis n).pos = s.presetValue n := (congrArg Axis.pos haxis :)
    have hd : (t.axis n).pos - (s.axis n).pos = s.presetShift n := by rw [hpos]; rfl
    refine ⟨t, _, hx, hpos, rfl, ?_, ?_, hother, ?_, hrest⟩
    · rw [hd, haxis]; rfl
    · rw [hd, hcal]; rfl
    · rw [hd, hparts]; rfl
  · obtain ⟨e, he⟩ := zQualified_leaves hon
    obtain ⟨u, hu, hlatch, hux, -, -, -, -, -, -, hregs, hframe⟩ := zLatch_leaves s n
    obtain ⟨t, ht, haxis, -, hother, -, hoff, -⟩ := applyPreset_leaves u n
    rw [harm, if_pos rfl, hu, ht] at he
    have hvalue : u.presetValue n = s.presetValue n := by
      rw [presetValue, presetValue, reg64, reg64, hregs _ (by simp only [encStat]; omega), hregs _ (by simp only [encStat]; omega)]
    have hz : (u.presetAxis n).zpos = u.presetValue n := by
      simp only [presetAxis, hlatch, latchedAxis, if_true, presetShift]
      exact add_sub_cancel _ _
    exact ⟨_, he, (congrArg Axis.pos haxis :).trans hvalue, (congrArg Axis.zpos haxis :).trans (hz.trans hvalue), hoff,
      fun m h => ⟨(hother m h).1.trans (congrArg (calOf · m) hframe :), (hother m h).2.trans (hux m h)⟩⟩
end

