-- ==== Sys2Proof/Proofs/AxisFaults.lean ====
section
/-! SUPPORT. Faults of an axis (R31, R32, R267, R272): what a fault does to the outputs of the axis's bindings, and wire faults. -/

namespace Sys2Proof.Machine.State

/-! ## Fail-safe of an axis (R267, R272) -/

theorem withFs_leaves (s : State) (f : FailSafe) :
    ∃ t h, s.withFs f = t ∧ t.fs = { f with held := h } ∧ t = { s with fs := t.fs } := ⟨_, _, rfl, rfl, rfl⟩

theorem fullRelease_leaves (s : State) (n : Nat) :
    ∃ t, s.fullRelease n = t ∧ t.fs.axes = s.fs.axes ∧ t.fs.heartbeat = s.fs.heartbeat ∧ t.fs.command = s.fs.command ∧
      t = { s with fs := t.fs } := by
  obtain ⟨t, h, ht, hfs, hframe⟩ := withFs_leaves s { s.fs with full := s.fs.full.filter (fun k => s.bindAxis k ≠ n) }
  simp only [fullRelease]
  split
  · exact ⟨t, ht, (congrArg FailSafe.axes hfs :), (congrArg FailSafe.heartbeat hfs :), (congrArg FailSafe.command hfs :), hframe⟩
  · exact ⟨s, rfl, rfl, rfl, rfl, rfl⟩

/-- The entries of an axis that no ON or OFF is among. -/
def keptEntries (s : State) (n : Nat) : List CalEntry := (s.calOf n).filter (fun e => ¬(e.kind = .on ∨ e.kind = .off))

theorem discardEjections_leaves (s : State) (n : Nat) :
    ∃ t, s.discardEjections n = t ∧ t.calOf n = s.keptEntries n ∧ (∀ m, m ≠ n → t.calOf m = s.calOf m) ∧
      t.fs.axes = s.fs.axes ∧ t.fs.heartbeat = s.fs.heartbeat ∧ t.fs.command = s.fs.command ∧
      t = { s with cal := t.cal, chans := t.chans, fs := t.fs } := by
  obtain ⟨u, hu, hcal, hother, hframe⟩ : ∃ u, (s.clearHolds n).setCal n (s.keptEntries n) = u ∧ u.calOf n = s.keptEntries n ∧
      (∀ m, m ≠ n → u.calOf m = s.calOf m) ∧ u = { s with cal := u.cal, chans := u.chans } :=
    ⟨_, rfl, setCal_same .., fun m h => setCal_other (s.clearHolds n) n m _ h, rfl⟩
  obtain ⟨t, ht, haxes, hbeat, hcmd, hframe'⟩ := fullRelease_leaves u n
  have hfs : u.fs = s.fs := (congrArg State.fs hframe :)
  have hkeep (m : Nat) : t.calOf m = u.calOf m := (congrArg (calOf · m) hframe' :)
  rw [hfs] at haxes hbeat hcmd
  have he : s.discardEjections n = t := by
    rw [← ht, ← hu]; rfl
  refine ⟨t, he, (hkeep n).trans hcal, fun m h => (hkeep m).trans (hother m h), haxes, hbeat, hcmd, ?_⟩
  rw [hframe', hframe]

/-- The outputs of an axis's bindings enter fail-safe. -/
theorem axisFailSafe_leaves (s : State) (n : Nat) :
    ∃ t, s.axisFailSafe n = t ∧ t.calOf n = s.keptEntries n ∧ (∀ m, m ≠ n → t.calOf m = s.calOf m) ∧
      n ∈ t.fs.axes ∧ t.fs.heartbeat = s.fs.heartbeat ∧ t.fs.command = s.fs.command ∧ t.lastCode 0x280004 = 0x5C02#16 ∧
      (∀ o, o ≠ 0x280004 → t.lastCode o = s.lastCode o) ∧
      t = { s with cal := t.cal, chans := t.chans, fs := t.fs, log := t.log } := by
  obtain ⟨u, h, hu, hfs, hframe⟩ := withFs_leaves s { s.fs with axes := including s.fs.axes n }
  obtain ⟨v, hv, hcal, hother, haxes, hbeat, hcmd, hframe'⟩ := discardEjections_leaves u n
  obtain ⟨w, hw, hcode, -, hframe''⟩ := raise_leaves v 0x5C01#16 0x07 0xFF 1 (leBytes 4 (16 * 2 ^ n))
  obtain ⟨t, p, he, hcode', hframe3⟩ : ∃ t p, s.axisFailSafe n = t ∧
      (∀ o, t.lastCode o = if o ∈ lastCodeKeys 0x5C02#16 0x07 (0x40 + n) then 0x5C02#16 else w.lastCode o) ∧ t = { w with log := p } := by
    obtain ⟨t, ht, hcode', -, hframe3⟩ := raise_leaves w 0x5C02#16 0x07 (0x40 + n) 1
      (leBytes 4 n ++ leBytes 4 ((s.calOf n).filter (fun e => e.kind = .on ∨ e.kind = .off)).length)
    refine ⟨t, _, ?_, hcode', hframe3⟩
    rw [← ht, ← hw, ← hv, ← hu]; rfl
  have huc (m : Nat) : u.calOf m = s.calOf m := (congrArg (calOf · m) hframe :)
  have htv : t = { v with log := p } := by rw [hframe3, hframe'']
  have htc (m : Nat) : t.calOf m = v.calOf m := (congrArg (calOf · m) htv :)
  have htfs : t.fs = v.fs := (congrArg State.fs htv :)
  rw [hfs] at haxes hbeat hcmd
  refine ⟨t, he, ?_, fun m h => (htc m).trans ((hother m h).trans (huc m)), ?_, (congrArg FailSafe.heartbeat htfs).trans hbeat,
    (congrArg FailSafe.command htfs).trans hcmd, (hcode' _).trans (if_pos (List.mem_singleton.2 rfl)), fun o ho => ?_, ?_⟩
  · rw [htc, hcal, keptEntries, huc, keptEntries]
  · rw [htfs, haxes, including]
    split
    · rename_i hc; exact List.contains_iff_mem.1 hc
    · exact List.mem_append_right _ (List.mem_singleton.2 rfl)
  · have hno {c : Half} {i : Nat} : o ∉ lastCodeKeys c 0x07 i := fun hk => ho (List.mem_singleton.1 hk)
    exact (hcode' o).trans ((if_neg hno).trans ((hcode o).trans ((if_neg hno).trans
      ((congrArg (lastCode · o) hframe' :).trans (congrArg (lastCode · o) hframe :)))))
  · rw [htv, hframe', hframe]

theorem encStat_ne_verdict (n : Fin 4) : encStat n ≠ 0x280004 := by simp only [encStat, encOff]; omega

/-- An axis fault begins. -/
theorem axisFaultEnter_leaves {s : State} {n : Fin 4} (hf : s.axisFault n = false) :
    ∃ t, s.axisFaultEnter n = t ∧ t.axis n = { s.axis n with absFault := true, clearedAt := none } ∧
      (∀ m, m ≠ n.val → t.axis m = s.axis m ∧ t.calOf m = s.calOf m) ∧
      t.lastCode (encStat n) = 0x5104#16 ∧ n.val ∈ t.fs.axes ∧
      t = { s with axes := t.axes, cal := t.cal, chans := t.chans, fs := t.fs, log := t.log } := by
  let x : Axis := { s.axis n with absFault := true, clearedAt := none }
  obtain ⟨u, hu, hcode, -, hframe⟩ := raise_leaves (s.setAxis n x) 0x5104#16 0x01 n 1 []
  obtain ⟨t, ht, -, hother, hmem, -, -, -, hcode', hframe'⟩ := axisFailSafe_leaves u n
  have he : s.axisFaultEnter n = t := by
    rw [← ht, ← hu]; exact if_neg (by simp [hf])
  have haxis (m : Nat) : t.axis m = (s.setAxis n x).axis m := (congrArg (axis · m) hframe' :).trans (congrArg (axis · m) hframe :)
  refine ⟨t, he, (haxis n).trans (setAxis_same s n x), fun m h => ⟨(haxis m).trans (setAxis_other s n m x h), ?_⟩, ?_, hmem, ?_⟩
  · exact (hother m h).trans (congrArg (calOf · m) hframe :)
  · rw [hcode' _ (encStat_ne_verdict n), hcode]; exact if_pos (by simp [encStat])
  · rw [hframe', hframe]; rfl

/-! ## Wire faults (R31, R32, R267) -/

theorem wireFaultDetect_leaves {s : State} {n : Fin 4} {pairs : BitVec 4} (hon : s.encOn n = true)
    (hm : s.encMode n = 1 ∨ s.encAbs n = true) (hp : pairs &&& BitVec.ofNat 4 (s.fld (encOff n + 8) 19 16) ≠ 0) :
    ∃ t, s.wireFaultDetectEff n pairs = t ∧
      t.axis n = { s.axis n with
        wire := (s.axis n).wire ||| (pairs &&& BitVec.ofNat 4 (s.fld (encOff n + 8) 19 16)), clearedAt := none } ∧
      t.flag (encStat n) 6 = true ∧ t.lastCode (encStat n) = 0x5101#16 ∧
      (∀ m, m ≠ n.val → t.axis m = s.axis m ∧ t.calOf m = s.calOf m) ∧
      (s.axisFault n = true → t.cal = s.cal ∧ t.chans = s.chans ∧ t.fs = s.fs) ∧
      (s.axisFault n = false → t.calOf n = s.keptEntries n ∧ n.val ∈ t.fs.axes ∧ t.fs.heartbeat = s.fs.heartbeat ∧
        t.fs.command = s.fs.command ∧ t.lastCode 0x280004 = 0x5C02#16) ∧
      t = { s with axes := t.axes, regs := t.regs, cal := t.cal, chans := t.chans, fs := t.fs, log := t.log } := by
  let x : Axis := { s.axis n with
    wire := (s.axis n).wire ||| (pairs &&& BitVec.ofNat 4 (s.fld (encOff n + 8) 19 16)), clearedAt := none }
  obtain ⟨u, hu, -, -, h6, hframe⟩ := setStat_leaves (s.setAxis n x) n 6 (by omega)
  obtain ⟨v, hv, hcode, -, hframe'⟩ := raise_leaves u 0x5101#16 0x01 n 1
    (leBytes 4 (pairs &&& BitVec.ofNat 4 (s.fld (encOff n + 8) 19 16)).toNat)
  have he : s.wireFaultDetectEff n pairs = if s.axisFault n then v else v.axisFailSafe n := by
    rw [← hv, ← hu]; exact if_pos ⟨hon, hm, hp⟩
  have hvs : v = { s.setAxis n x with regs := v.regs, log := v.log } := by rw [hframe', hframe]
  have hvx (m : Nat) : v.axis m = (s.setAxis n x).axis m := (congrArg (axis · m) hvs :)
  have hvc (m : Nat) : v.calOf m = s.calOf m := (congrArg (calOf · m) hvs :)
  have hx : v.axis n = x := (hvx n).trans (setAxis_same s n x)
  have hother (m : Nat) (h : m ≠ n.val) : v.axis m = s.axis m := (hvx m).trans (setAxis_other s n m x h)
  have h6' : v.flag (encStat n) 6 = true := (congrArg (flag · (encStat n) 6) hframe' :).trans h6
  have hcode' : v.lastCode (encStat n) = 0x5101#16 := (hcode _).trans (if_pos (by simp [encStat]))
  cases hf : s.axisFault n with
  | true =>
    rw [hf, if_pos rfl] at he
    refine ⟨v, he, hx, h6', hcode', fun m h => ⟨hother m h, hvc m⟩,
      fun _ => ⟨(congrArg State.cal hvs :), (congrArg State.chans hvs :), (congrArg State.fs hvs :)⟩,
      fun h => absurd h Bool.noConfusion, ?_⟩
    rw [hvs]; rfl
  | false =>
    obtain ⟨t, ht, hcal, hcother, hmem, hbeat, hcmd, hverdict, hcodes, hframe3⟩ := axisFailSafe_leaves v n
    rw [hf, if_neg Bool.false_ne_true, ht] at he
    have htx (m : Nat) : t.axis m = v.axis m := (congrArg (axis · m) hframe3 :)
    have hvfs : v.fs = s.fs := (congrArg State.fs hvs :)
    rw [hvfs] at hbeat hcmd
    refine ⟨t, he, (htx n).trans hx, (congrArg (flag · (encStat n) 6) hframe3 :).trans h6',
      (hcodes _ (encStat_ne_verdict n)).trans hcode', fun m h => ⟨(htx m).trans (hother m h), (hcother m h).trans (hvc m)⟩,
      fun h => absurd h Bool.noConfusion, fun _ => ⟨?_, hmem, hbeat, hcmd, hverdict⟩, ?_⟩
    · rw [hcal, keptEntries, hvc, keptEntries]
    · rw [hframe3, hvs]; rfl

/-- The entries of an axis discarded where a fault of it ends. -/
theorem faultEnd_leaves (s : State) (n : Nat) (ends : Bool) :
    ∃ t, (if ends then s.discardEjections n else s) = t ∧ (ends = false → t.cal = s.cal ∧ t.chans = s.chans ∧ t.fs = s.fs) ∧
      (ends = true → t.calOf n = s.keptEntries n) ∧ (∀ m, m ≠ n → t.calOf m = s.calOf m) ∧
      t = { s with cal := t.cal, chans := t.chans, fs := t.fs } := by
  obtain ⟨t, ht, hcal, hother, -, -, -, hframe⟩ := discardEjections_leaves s n
  cases ends with
  | true => exact ⟨t, ht, fun h => absurd h.symm Bool.false_ne_true, fun _ => hcal, hother, hframe⟩
  | false => exact ⟨s, rfl, fun _ => ⟨rfl, rfl, rfl⟩, fun h => absurd h Bool.false_ne_true, fun _ _ => rfl, rfl⟩

theorem wireFaultClear_leaves {s : State} {n : Fin 4} (hw : (s.axis n).wire ≠ 0) :
    ∃ t, s.wireFaultClearEff n = t ∧ t.axis n = { s.axis n with wire := 0, clearedAt := some s.now } ∧
      ((s.axis n).absFault = true → t.cal = s.cal ∧ t.chans = s.chans ∧ t.fs = s.fs) ∧
      ((s.axis n).absFault = false → t.calOf n = s.keptEntries n) ∧
      (∀ m, m ≠ n.val → t.axis m = s.axis m ∧ t.calOf m = s.calOf m) ∧
      t = { s with axes := t.axes, cal := t.cal, chans := t.chans, fs := t.fs } := by
  let x : Axis := { s.axis n with wire := 0, clearedAt := some s.now }
  obtain ⟨u, hu, hsame, hcal, hother, hframe⟩ := faultEnd_leaves s n (!(s.axis n).absFault)
  have he : s.wireFaultClearEff n = u.setAxis n x := by
    have hflip : (if (s.axis n).absFault = true then s else s.discardEjections n) = u := by
      rw [← hu]
      cases (s.axis n).absFault with
      | true => rfl
      | false => rfl
    rw [wireFaultClearEff, if_neg hw, hflip]
  refine ⟨u.setAxis n x, he, setAxis_same u n x, fun h => hsame (by simp [h]), fun h => hcal (by simp [h]),
    fun m h => ⟨(setAxis_other u n m x h).trans (congrArg (axis · m) hframe :), hother m h⟩, ?_⟩
  rw [hframe]; rfl

theorem axisFailsafeRelease_leaves {s : State} {n : Fin 4} {u : Nat} (hc : (s.axis n).clearedAt = some u) (hmem : n.val ∈ s.fs.axes)
    (hf : s.axisFault n = false) (hu : u + 1000000 ≤ s.now) :
    ∃ t, s.axisFailsafeReleaseEff n = t ∧ t.axis n = { s.axis n with clearedAt := none } ∧ t.fs.axes = without s.fs.axes n.val ∧
      t.fs.heartbeat = s.fs.heartbeat ∧ t.fs.command = s.fs.command ∧ t.fs.full = s.fs.full ∧
      t = { s with fs := t.fs, axes := t.axes } := by
  obtain ⟨w, held, hw, hfs, hframe⟩ := withFs_leaves s { s.fs with axes := without s.fs.axes n.val }
  let x : Axis := { s.axis n with clearedAt := none }
  have he : s.axisFailsafeReleaseEff n = w.setAxis n x := by
    have hcond : s.fs.axes.contains n.val = true ∧ ¬ s.axisFault n = true ∧ 1000000 ≤ s.now - u :=
      ⟨List.contains_iff_mem.2 hmem, by simp [hf], by omega⟩
    simp only [axisFailsafeReleaseEff, hc, if_pos hcond, hw]
    rw [hframe]
  refine ⟨w.setAxis n x, he, setAxis_same w n x, (congrArg FailSafe.axes hfs :), (congrArg FailSafe.heartbeat hfs :),
    (congrArg FailSafe.command hfs :), (congrArg FailSafe.full hfs :), ?_⟩
  rw [hframe]; rfl

end Sys2Proof.Machine.State

open Sys2Proof Sys2Proof.Machine Sys2Proof.Machine.State in
/-- Settles O16: the three commands of a wire fault, each through what it leaves of the axis and of the fail-safe causes. -/
theorem wireFaultStopsAxisUntilCleared : Obligations.WireFaultStopsAxisUntilCleared := by
  unfold Obligations.WireFaultStopsAxisUntilCleared
  refine ⟨fun s n pairs hon hm hp => ?_, fun s n hw => ?_, fun s n u hc hmem hf hu => ?_⟩
  · obtain ⟨t, ht, hx, h6, hcode, hrest⟩ := wireFaultDetect_leaves hon hm hp
    have hwire : (t.axis n).wire ≠ 0 := by
      rw [hx]
      exact fun h => hp (BitVec.or_eq_zero_iff.1 h).2
    have hfault : t.axisFault n = true := by
      rw [axisFault, Bool.or_eq_true]
      exact .inr (decide_eq_true hwire)
    exact ⟨t, congrArg Host.Outcome.next ht, (congrArg Axis.wire hx :), (congrArg Axis.pos hx :),
      speed_stopped (by rw [hfault, Bool.true_or]), hfault, h6, hcode, hrest⟩
  · obtain ⟨t, ht, hx, hrest⟩ := wireFaultClear_leaves hw
    exact ⟨t, congrArg Host.Outcome.next ht, (congrArg Axis.wire hx :), (congrArg Axis.clearedAt hx :), (congrArg Axis.pos hx :),
      (congrArg Axis.absFault hx :), hrest⟩
  · obtain ⟨t, ht, hx, haxes, hbeat, hcmd, hfull, hframe⟩ := axisFailsafeRelease_leaves hc hmem hf hu
    refine ⟨t, congrArg Host.Outcome.next ht, ?_, fun m h => ?_, hbeat, hcmd, hfull, (congrArg Axis.pos hx :), hframe⟩
    · simp [haxes, without]
    · simp [haxes, without, h]
end

