-- ==== Sys2Proof/Proofs/AbsoluteFrames.lean ====
section
/-! SUPPORT. Frames of absolute sensors (R28 to R30): a frame that fails, and a frame that enters the position. -/

namespace Sys2Proof.Machine.State

/-! ## Failed frames (R30) -/

/-- `u` is `s` with the warning and the line delay of a frame noted on axis `n`. -/
def notedFrame (s u : State) (n : Nat) : Prop :=
  (∃ w d, u.axis n = { s.axis n with warn := w, lineDelay := d }) ∧ (∀ m, m ≠ n → u.axis m = s.axis m) ∧
    u = { s with axes := u.axes }

theorem notedFrame_refl (s : State) (n : Nat) : notedFrame s s n := ⟨⟨_, _, rfl⟩, fun _ _ => rfl, rfl⟩

/-- `t` is `s` after a frame of axis `n` that failed with a code. -/
def failedFrame (s t : State) (n : Fin 4) (code : Half) : Prop :=
  (t.axis n).pos = (s.axis n).pos ∧ (t.axis n).fails = (s.axis n).fails + 1 ∧
    t.counter (encOff n + 0x30) = satAdd (s.counter (encOff n + 0x30)) 1 ∧ t.flag (encStat n) 6 = true ∧
    (t.axis n).absFault = ((s.axis n).absFault || decide (s.fld (encOff n + 0x50) 15 8 ≤ (s.axis n).fails + 1)) ∧
    (((s.axis n).absFault = true ∨ (s.axis n).fails + 1 < s.fld (encOff n + 0x50) 15 8) →
      t.lastCode (encStat n) = code ∧ t.fs = s.fs ∧ t.cal = s.cal) ∧
    ((s.axis n).absFault = false → s.fld (encOff n + 0x50) 15 8 ≤ (s.axis n).fails + 1 →
      t.lastCode (encStat n) = 0x5104#16 ∧ n.val ∈ t.fs.axes) ∧
    (∀ m, m ≠ n.val → t.axis m = s.axis m ∧ t.calOf m = s.calOf m) ∧
    t = { s with axes := t.axes, regs := t.regs, counters := t.counters, cal := t.cal, chans := t.chans, fs := t.fs, log := t.log }

/-- A failed frame is counted and reported, whether or not it brings the axis into fault. -/
theorem frameFail_counts (s : State) (n : Fin 4) (code : Half) :
    ∃ u, s.frameFail n code =
        (if (s.axis n).absFault ∨ (s.axis n).fails + 1 < s.fld (encOff n + 0x50) 15 8 then u else u.axisFaultEnter n) ∧
      u.axis n = { s.axis n with fails := (s.axis n).fails + 1, frameStart := none } ∧ (∀ m, m ≠ n.val → u.axis m = s.axis m) ∧
      u.counter (encOff n + 0x30) = satAdd (s.counter (encOff n + 0x30)) 1 ∧ u.flag (encStat n) 6 = true ∧
      u.lastCode (encStat n) = code ∧ u = { s with axes := u.axes, regs := u.regs, counters := u.counters, log := u.log } := by
  obtain ⟨v, hv, hcount, h6, hcode, hregs, hframe⟩ := countedCode_leaves s n (encOff n + 0x30) code
  let x : Axis := { s.axis n with fails := (s.axis n).fails + 1, frameStart := none }
  have hlimit : (v.setAxis n x).fld (encOff n + 0x50) 15 8 = s.fld (encOff n + 0x50) 15 8 :=
    congrArg (bits · 15 8) (hregs _ (by simp only [encStat]; omega))
  refine ⟨v.setAxis n x, ?_, setAxis_same v n x, fun m h => (setAxis_other v n m x h).trans (congrArg (axis · m) hframe :),
    hcount, h6, hcode, ?_⟩
  · rw [← hlimit, ← hv]; rfl
  · rw [hframe]; rfl

theorem frameFail_leaves {s u : State} {n : Fin 4} (hn : notedFrame s u n) (hw : (s.axis n).wire = 0) (code : Half) :
    failedFrame s (u.frameFail n code) n code := by
  obtain ⟨⟨w, d, hx⟩, hother, hframe⟩ := hn
  obtain ⟨v, hv, hvx, hvo, hcount, h6, hcode, hframe'⟩ := frameFail_counts u n code
  have hfld : u.fld (encOff n + 0x50) 15 8 = s.fld (encOff n + 0x50) 15 8 := (congrArg (fld · (encOff n + 0x50) 15 8) hframe :)
  have hcount' : v.counter (encOff n + 0x30) = satAdd (s.counter (encOff n + 0x30)) 1 :=
    hcount.trans (congrArg (fun x : State => satAdd (x.counter (encOff n + 0x30)) 1) hframe :)
  rw [hx] at hv hvx
  rw [hfld] at hv
  have hvs : v = { s with axes := v.axes, regs := v.regs, counters := v.counters, log := v.log } := by rw [hframe', hframe]
  have hvc (m : Nat) : v.calOf m = s.calOf m := (congrArg (calOf · m) hvs :)
  have hfault : (v.axis n).absFault = (s.axis n).absFault := (congrArg Axis.absFault hvx :)
  rw [hv]
  by_cases hc : (s.axis n).absFault = true ∨ (s.axis n).fails + 1 < s.fld (encOff n + 0x50) 15 8
  · rw [if_pos hc]
    refine ⟨(congrArg Axis.pos hvx :), (congrArg Axis.fails hvx :), hcount', h6, ?_,
      fun _ => ⟨hcode, (congrArg State.fs hvs :), (congrArg State.cal hvs :)⟩, fun h0 h1 => ?_,
      fun m h => ⟨(hvo m h).trans (hother m h), hvc m⟩, ?_⟩
    · rw [hfault]
      cases hb : (s.axis n).absFault with
      | true => rfl
      | false => simp only [hb, Bool.false_eq_true, false_or] at hc; simpa using hc
    · exact absurd hc (by rw [h0]; simp; omega)
    · rw [hvs]
  · rw [if_neg hc]
    rw [not_or, not_lt, Bool.not_eq_true] at hc
    have hsound : v.axisFault n = false := by
      simp [axisFault, hvx, hc.1, hw]
    obtain ⟨t, ht, htx, hto, htcode, hmem, hframe3⟩ := axisFaultEnter_leaves hsound
    rw [hvx] at htx
    rw [ht]
    refine ⟨(congrArg Axis.pos htx :), (congrArg Axis.fails htx :), (congrArg (counter · (encOff n + 0x30)) hframe3 :).trans hcount',
      (congrArg (flag · (encStat n) 6) hframe3 :).trans h6, ?_, fun h => ?_, fun _ _ => ⟨htcode, hmem⟩,
      fun m h => ⟨(hto m h).1.trans ((hvo m h).trans (hother m h)), (hto m h).2.trans (hvc m)⟩, ?_⟩
    · rw [htx, decide_eq_true hc.2, Bool.or_true]
    · exact absurd h (by rw [hc.1]; simp; omega)
    · rw [hframe3, hvs]

/-! ## Frames that pass (R30) -/

/-- A two's complement field as the balanced residue. -/
theorem signed_eq_bmod {n : Nat} (hn : 0 < n) (x : Nat) : signed n x = (x : Int).bmod (2 ^ n) := by
  obtain ⟨k, rfl⟩ := Nat.exists_eq_succ_of_ne_zero hn.ne'
  have hcast : ((x % 2 ^ (k + 1) : Nat) : Int) = (x : Int) % ((2 ^ (k + 1) : Nat) : Int) := Int.natCast_mod ..
  have hpow : (2 : Nat) ^ (k + 1) = 2 * 2 ^ k := by omega
  have hipow : (2 : Int) ^ (k + 1) = ((2 ^ (k + 1) : Nat) : Int) := by push_cast; rfl
  simp only [signed, Int.bmod, Nat.succ_eq_add_one, Nat.add_sub_cancel, hipow, ← hcast]
  generalize x % 2 ^ (k + 1) = r
  rw [hpow]
  split
  · rw [if_pos (by omega)]
  · rw [if_neg (by omega)]

/-- The signed difference of two frames is the only one in its range (R30). -/
theorem signed_difference {sb p lp : Nat} {d : Int} (hsb : 0 < sb) (hlp : lp < 2 ^ sb) (hd : (d - ((p : Int) - lp)) % 2 ^ sb = 0)
    (h1 : -(2 ^ (sb - 1)) ≤ d) (h2 : d < 2 ^ (sb - 1)) : signed sb (p + 2 ^ sb - lp) = d := by
  obtain ⟨k, rfl⟩ := Nat.exists_eq_succ_of_ne_zero hsb.ne'
  have hpow : (2 : Nat) ^ (k + 1) = 2 * 2 ^ k := by omega
  have hhalf : ((2 ^ k : Nat) : Int) = 2 ^ k := by push_cast; rfl
  have hfull : (2 : Int) ^ (k + 1) = ((2 ^ (k + 1) : Nat) : Int) := by push_cast; rfl
  rw [signed_eq_bmod hsb, Int.bmod_eq_iff (by omega)]
  simp only [Nat.succ_eq_add_one, Nat.add_sub_cancel, ← hhalf, hfull] at *
  refine ⟨by omega, by omega, ?_⟩
  have hdvd : ((2 ^ (k + 1) : Nat) : Int) ∣ d - ((p : Int) - lp) := Int.dvd_of_emod_eq_zero hd
  have hsub : d - ((p + 2 ^ (k + 1) - lp : Nat) : Int) = (d - ((p : Int) - lp)) - ((2 ^ (k + 1) : Nat) : Int) := by omega
  rw [hsub]
  exact dvd_sub_self_right.2 hdvd

/-- `t` is `s` after a frame of axis `n` that passed with value `p`, apart from the position and what follows it. -/
def passedFrame (s t : State) (n : Fin 4) (p : Nat) : Prop :=
  (t.axis n).lastP = some p ∧ (t.axis n).fails = 0 ∧ (t.axis n).absFault = false ∧
    ((s.axis n).absFault = false → t.cal = s.cal ∧ t.chans = s.chans ∧ t.fs = s.fs) ∧
    ((s.axis n).absFault = true → t.calOf n = s.keptEntries n) ∧
    (∀ m, m ≠ n.val → t.axis m = s.axis m ∧ t.calOf m = s.calOf m)

/-- The axis after a frame that passed, out of fault. -/
def soundAxis (s : State) (n p : Nat) : Axis :=
  { s.axis n with
    lastP := some p, fails := 0, absFault := false, frameStart := none
    clearedAt := if (s.axis n).absFault then some s.now else (s.axis n).clearedAt }

/-- A frame that passed takes the axis out of fault (R267). -/
def frameSound (s : State) (n p : Nat) : State :=
  (if (s.axis n).absFault then s.discardEjections n else s).setAxis n (s.soundAxis n p)

theorem frameSound_leaves (s : State) (n : Fin 4) (p : Nat) :
    ∃ t, s.frameSound n p = t ∧ (t.axis n).pos = (s.axis n).pos ∧ passedFrame s t n p ∧
      t = { s with axes := t.axes, cal := t.cal, chans := t.chans, fs := t.fs } := by
  obtain ⟨u, hu, hsame, hcal, hother, hframe⟩ := faultEnd_leaves s n (s.axis n).absFault
  have hx : (u.setAxis n (s.soundAxis n p)).axis n = s.soundAxis n p := setAxis_same ..
  refine ⟨u.setAxis n (s.soundAxis n p), by rw [frameSound, hu], (congrArg Axis.pos hx :),
    ⟨(congrArg Axis.lastP hx :), (congrArg Axis.fails hx :), (congrArg Axis.absFault hx :), hsame, hcal,
      fun m h => ⟨(setAxis_other u n m _ h).trans (congrArg (axis · m) hframe :), hother m h⟩⟩, ?_⟩
  rw [hframe]; rfl

/-- What a passed frame leaves does not depend on what else of the axis was noted before. -/
theorem passedFrame_congr {s u t : State} {n : Fin 4} {p : Nat} (hfault : (u.axis n).absFault = (s.axis n).absFault)
    (hother : ∀ m, m ≠ n.val → u.axis m = s.axis m) (hcal : u.cal = s.cal) (hchans : u.chans = s.chans) (hfs : u.fs = s.fs)
    (h : passedFrame u t n p) : passedFrame s t n p := by
  obtain ⟨hlast, hfails, hsound, hsame, hends, hkeep⟩ := h
  have hcalOf (m : Nat) : u.calOf m = s.calOf m := by rw [calOf, hcal, calOf]
  rw [hfault, hcal, hchans, hfs] at hsame
  rw [hfault, keptEntries, hcalOf] at hends
  exact ⟨hlast, hfails, hsound, hsame, hends, fun m hm => ⟨(hkeep m hm).1.trans (hother m hm), (hkeep m hm).2.trans (hcalOf m)⟩⟩

/-- The stamp of a frame. -/
def frameStamp (s : State) (n : Nat) : Int := match (s.axis n).frameStart with | some t => t | none => s.time.t

/-- The axis after its first frame, with its position entered. -/
def enteredAxis (s : State) (n : Nat) (pos : Pos) : Axis :=
  { s.axis n with
    pos, hist := [(s.frameStamp n, pos)], delta := 0, lastAt := s.stampedAt (s.frameStamp n), still := false }

/-- The first frame enters the position. -/
theorem framePass_enters {s : State} {n : Fin 4} (hl : (s.axis n).lastP = none) (p : Nat) :
    ∃ t, s.framePass n p = t ∧ (t.axis n).pos = (if s.flag (encOff n) 10 then -BitVec.ofNat 48 p else BitVec.ofNat 48 p) ∧
      passedFrame s t n p ∧ t = { s with axes := t.axes, cal := t.cal, chans := t.chans, fs := t.fs } := by
  let x : Axis := s.enteredAxis n (if s.flag (encOff n) 10 then -BitVec.ofNat 48 p else BitVec.ofNat 48 p)
  obtain ⟨t, ht, hpos, hpass, hframe⟩ := frameSound_leaves (s.setAxis n x) n p
  have hx : (s.setAxis n x).axis n = x := setAxis_same s n x
  have he : s.framePass n p = t := by
    rw [← ht, framePass]
    split
    · rfl
    · rename_i h; simp [hl] at h
  refine ⟨t, he, hpos.trans (congrArg Axis.pos hx :),
    passedFrame_congr (congrArg Axis.absFault hx :) (fun m h => setAxis_other s n m x h) rfl rfl rfl hpass, ?_⟩
  rw [hframe]; rfl

/-- A further frame: its difference counted, or the position stamped again where there is none. -/
def frameCounted (s : State) (n : Nat) (d : Int) : State :=
  if d = 0 then s.setAxis n { s.axis n with delta := 0, hist := ((s.frameStamp n, (s.axis n).pos) :: (s.axis n).hist).take 8 }
  else s.addCount n d (s.frameStamp n)

theorem frameCounted_leaves (s : State) (n : Fin 4) (d : Int) :
    ∃ t, s.frameCounted n d = t ∧ (t.axis n).pos = (s.axis n).pos + BitVec.ofInt 48 d ∧
      (t.axis n).absFault = (s.axis n).absFault ∧
      (∀ m, m ≠ n.val → t.axis m = s.axis m) ∧ t = { s with axes := t.axes, regs := t.regs, emus := t.emus, log := t.log } := by
  by_cases hd : d = 0
  · let x : Axis := { s.axis n with delta := 0, hist := ((s.frameStamp n, (s.axis n).pos) :: (s.axis n).hist).take 8 }
    have hx : (s.setAxis n x).axis n = x := setAxis_same s n x
    refine ⟨s.setAxis n x, if_pos hd, ?_, (congrArg Axis.absFault hx :), fun m h => setAxis_other s n m x h, rfl⟩
    rw [hx, hd]; simp [x]
  · obtain ⟨t, ht, hx, hother, -, -, -, hframe⟩ := addCount_leaves s d (s.frameStamp n) n.isLt
    exact ⟨t, (if_neg hd).trans ht, (congrArg Axis.pos hx :), (congrArg Axis.absFault hx :), hother, hframe⟩

/-- A further frame moves the position by its signed difference. -/
theorem framePass_moves {s : State} {n : Fin 4} {p lp : Nat} {d : Int} (hl : (s.axis n).lastP = some lp)
    (hd : signed (s.fld (encOff n) 24 19) (p + 2 ^ s.fld (encOff n) 24 19 - lp) = d)
    (hj : (s.reg (encOff n + 0x4C)).toNat = 0 ∨ d.natAbs ≤ (s.reg (encOff n + 0x4C)).toNat) :
    ∃ t, s.framePass n p = t ∧ (t.axis n).pos = (s.axis n).pos + BitVec.ofInt 48 (s.inverted n d) ∧ passedFrame s t n p ∧
      t = { s with axes := t.axes, regs := t.regs, emus := t.emus, log := t.log, cal := t.cal, chans := t.chans, fs := t.fs } := by
  obtain ⟨u, hu, hpos, hfault, hother, hframe⟩ := frameCounted_leaves s n (s.inverted n d)
  obtain ⟨v, hv⟩ : ∃ v, s.framePass n p = ((u.setAxis n { u.axis n with period := v }).frameSound n p).changeover n := by
    have hnone : ¬(((s.reg (encOff n + 0x4C)).toNat : Int) ≠ 0 ∧
        ((s.reg (encOff n + 0x4C)).toNat : Int) < (s.inverted n d).natAbs) := by
      simp only [inverted]; split <;> omega
    refine ⟨match (s.axis n).hist.head? with | some h => speedOf (s.inverted n d) (s.frameStamp n - h.1) | none => 0, ?_⟩
    rw [← hu, framePass]
    split
    · rename_i h; simp [hl] at h
    · rename_i h
      obtain rfl : lp = _ := Option.some.inj (hl.symm.trans h)
      simp only [hd]
      exact if_neg hnone
  let x : Axis := { u.axis n with period := v }
  have hx : (u.setAxis n x).axis n = x := setAxis_same u n x
  obtain ⟨w, hw, hwpos, hpass, hframe'⟩ := frameSound_leaves (u.setAxis n x) n p
  obtain ⟨t, b, ht, htx, hto, hframe''⟩ := methodAfter_leaves w n
  have hpass' : passedFrame s w n p := passedFrame_congr (s := s) (u := u.setAxis n x)
    ((congrArg Axis.absFault hx :).trans hfault) (fun m h => (setAxis_other u n m x h).trans (hother m h))
    (congrArg State.cal hframe :) (congrArg State.chans hframe :) (congrArg State.fs hframe :) hpass
  obtain ⟨hlast, hfails, hsound, hsame, hends, hkeep⟩ := hpass'
  have hcalOf (m : Nat) : t.calOf m = w.calOf m := (congrArg (calOf · m) hframe'' :)
  refine ⟨t, by rw [hv, hw, ht], ?_, ⟨(congrArg Axis.lastP htx :).trans hlast, (congrArg Axis.fails htx :).trans hfails,
    (congrArg Axis.absFault htx :).trans hsound, fun h => ?_, fun h => (hcalOf n).trans (hends h),
    fun m h => ⟨(hto m h).trans (hkeep m h).1, (hcalOf m).trans (hkeep m h).2⟩⟩, ?_⟩
  · exact (congrArg Axis.pos htx :).trans (hwpos.trans ((congrArg Axis.pos hx :).trans hpos))
  · obtain ⟨hcal, hchans, hfs⟩ := hsame h
    exact ⟨(congrArg State.cal hframe'' :).trans hcal, (congrArg State.chans hframe'' :).trans hchans,
      (congrArg State.fs hframe'' :).trans hfs⟩
  · rw [hframe'', hframe', hframe]; rfl

/-- A further frame whose difference exceeds JUMP. -/
theorem framePass_jumps {s : State} {n : Nat} {p lp : Nat} (hl : (s.axis n).lastP = some lp)
    (h0 : (s.reg (encOff n + 0x4C)).toNat ≠ 0)
    (hj : (s.reg (encOff n + 0x4C)).toNat < (signed (s.fld (encOff n) 24 19) (p + 2 ^ s.fld (encOff n) 24 19 - lp)).natAbs) :
    s.framePass n p = s.frameFail n 0x2103#16 := by
  simp only [framePass, hl]
  refine if_pos ?_
  split <;> omega

/-! ## `ABSOLUTE_FRAME` (R28, R29) -/

theorem frameCheck_biss {s : State} {n : Nat} (h : s.encMode n = 4) (r check : Nat) (nE nW : Bool) :
    s.frameCheck n r check nE nW = decide (check = bissCrc (s.fld (encOff n) 24 19) r nE nW) := if_pos h

/-- The check bits of an SSI frame hold: none, parity or CRC, as ABS_CHECK says. -/
def ssiCheck (s : State) (n r check : Nat) : Prop :=
  s.fld (encOff n) 27 26 = 0 ∨ (s.fld (encOff n) 27 26 = 1 ∧ (onesOf (s.fld (encOff n) 24 19) r + check % 2) % 2 = 0) ∨
    (s.fld (encOff n) 27 26 = 2 ∧ (onesOf (s.fld (encOff n) 24 19) r + check % 2) % 2 = 1) ∨
    (s.fld (encOff n) 27 26 = 3 ∧ check = Config.ssiCrc6 (s.fld (encOff n) 24 19) r)

theorem frameCheck_ssi {s : State} {n : Nat} (h : s.encMode n = 3) (r check : Nat) (nE nW : Bool) :
    s.frameCheck n r check nE nW = true ↔ s.ssiCheck n r check := by
  have hk : s.fld (encOff n) 27 26 < 4 := bits_lt (s.reg (encOff n)) 27 26
  simp only [frameCheck, h, Nat.reduceEqDiff, if_false, ssiCheck]
  generalize s.fld (encOff n) 27 26 = k at hk
  match k with
  | 0 => simp
  | 1 => simp
  | 2 => simp
  | 3 => simp

/-- The number a frame stands for, through the Gray decoding where an SSI axis asks for it. -/
def frameValue (s : State) (n raw : Nat) : Nat :=
  if ¬ s.encMode n = 4 ∧ s.flag (encOff n) 25 then grayTo (s.fld (encOff n) 24 19) (raw % 2 ^ s.fld (encOff n) 24 19)
  else raw % 2 ^ s.fld (encOff n) 24 19

/-- What a frame's check and value are read from is not what it notes. -/
theorem notedFrame_reads {s u : State} {n : Nat} (h : notedFrame s u n) :
    u.flag = s.flag ∧ u.fld = s.fld ∧ u.reg = s.reg ∧ u.cal = s.cal ∧ u.chans = s.chans ∧ u.fs = s.fs := by
  obtain ⟨-, -, hframe⟩ := h
  exact ⟨(congrArg flag hframe :), (congrArg Machine.State.fld hframe :), (congrArg reg hframe :),
    (congrArg State.cal hframe :), (congrArg State.chans hframe :), (congrArg State.fs hframe :)⟩

/-- A frame on an axis in no wire fault: its check, then nE, then its value. -/
theorem absoluteFrame_eq {s : State} {n : Nat} (hon : s.encOn n = true) (habs : s.encAbs n = true) (hw : (s.axis n).wire = 0)
    (raw check : Nat) (nE nW : Bool) : ∃ u, notedFrame s u n ∧ s.absoluteFrameEff n raw check nE nW =
      if ¬ s.frameCheck n (raw % 2 ^ s.fld (encOff n) 24 19) check nE nW then u.frameFail n 0x2102#16
      else if s.encMode n = 4 ∧ ¬ nE then u.frameFail n 0x5103#16 else u.framePass n (s.frameValue n raw) := by
  have hgo : ¬(¬ s.encOn n = true ∨ ¬ s.encAbs n = true ∨ (s.axis n).wire ≠ 0) := by simp [hon, habs, hw]
  by_cases hm : s.encMode n = 4
  · let x : Axis := { s.axis n with warn := !nW, lineDelay := s.lineDelayNow n }
    refine ⟨s.setAxis n x, ⟨⟨_, _, setAxis_same s n x⟩, fun m h => setAxis_other s n m x h, rfl⟩, ?_⟩
    rw [absoluteFrameEff, if_neg hgo]
    simp only [hm, if_true, frameValue, not_true_eq_false, false_and, if_false, true_and]
    rfl
  · refine ⟨s, notedFrame_refl s n, ?_⟩
    rw [absoluteFrameEff, if_neg hgo]
    simp only [hm, if_false, frameValue, false_and]

theorem encAbs_of_mode {s : State} {n : Nat} (h : s.encMode n = 4 ∨ s.encMode n = 3) : s.encAbs n = true := by
  simp only [encAbs, Bool.or_eq_true, decide_eq_true_eq]
  exact h.symm

/-- A frame whose check is right, and whose nE is 1 where it has one, passes with its value. -/
theorem absoluteFrame_passes {s : State} {n raw check p : Nat} {nE nW : Bool} (hon : s.encOn n = true) (hw : (s.axis n).wire = 0)
    (h : (s.encMode n = 4 ∧ nE = true ∧
        check = bissCrc (s.fld (encOff n) 24 19) (raw % 2 ^ s.fld (encOff n) 24 19) nE nW ∧ p = raw % 2 ^ s.fld (encOff n) 24 19) ∨
      (s.encMode n = 3 ∧ p = (if s.flag (encOff n) 25 then grayTo (s.fld (encOff n) 24 19) (raw % 2 ^ s.fld (encOff n) 24 19)
        else raw % 2 ^ s.fld (encOff n) 24 19) ∧ s.ssiCheck n (raw % 2 ^ s.fld (encOff n) 24 19) check)) :
    ∃ u, notedFrame s u n ∧ s.absoluteFrameEff n raw check nE nW = u.framePass n p := by
  obtain ⟨u, hu, he⟩ := absoluteFrame_eq hon (encAbs_of_mode (h.imp (·.1) (·.1))) hw raw check nE nW
  refine ⟨u, hu, he.trans ?_⟩
  rcases h with ⟨hm, rfl, hcrc, rfl⟩ | ⟨hm, rfl, hcheck⟩
  · simp [(frameCheck_biss hm _ _ true nW).trans (decide_eq_true hcrc), frameValue, hm]
  · simp [(frameCheck_ssi hm _ _ nE nW).2 hcheck, frameValue, hm]

/-- A frame whose check is wrong. -/
theorem absoluteFrame_checkFails {s : State} {n : Fin 4} {raw check : Nat} {nE nW : Bool} (hon : s.encOn n = true)
    (habs : s.encAbs n = true) (hw : (s.axis n).wire = 0)
    (h : s.frameCheck n (raw % 2 ^ s.fld (encOff n) 24 19) check nE nW = false) :
    failedFrame s (s.absoluteFrameEff n raw check nE nW) n 0x2102#16 := by
  obtain ⟨u, hu, he⟩ := absoluteFrame_eq hon habs hw raw check nE nW
  rw [he, if_pos (by simp [h])]
  exact frameFail_leaves hu hw _

/-- A BiSS C frame that reports an error (nE 0). -/
theorem absoluteFrame_errorBit {s : State} {n : Fin 4} {raw check : Nat} {nW : Bool} (hon : s.encOn n = true)
    (hm : s.encMode n = 4) (hw : (s.axis n).wire = 0)
    (hc : check = bissCrc (s.fld (encOff n) 24 19) (raw % 2 ^ s.fld (encOff n) 24 19) false nW) :
    failedFrame s (s.absoluteFrameEff n raw check false nW) n 0x5103#16 := by
  obtain ⟨u, hu, he⟩ := absoluteFrame_eq hon (encAbs_of_mode (.inl hm)) hw raw check false nW
  rw [he, if_neg (by simp [frameCheck_biss hm, ← hc]), if_pos ⟨hm, Bool.false_ne_true⟩]
  exact frameFail_leaves hu hw _

/-- A frame whose difference exceeds JUMP. -/
theorem absoluteFrame_jumps {s : State} {n : Fin 4} {raw check lp p : Nat} {nE nW : Bool} {u : State} (hu : notedFrame s u n)
    (hw : (s.axis n).wire = 0) (he : s.absoluteFrameEff n raw check nE nW = u.framePass n p) (hl : (s.axis n).lastP = some lp)
    (h0 : (s.reg (encOff n + 0x4C)).toNat ≠ 0)
    (hj : (s.reg (encOff n + 0x4C)).toNat < (signed (s.fld (encOff n) 24 19) (p + 2 ^ s.fld (encOff n) 24 19 - lp)).natAbs) :
    failedFrame s (s.absoluteFrameEff n raw check nE nW) n 0x2103#16 := by
  obtain ⟨-, hfld, hreg, -⟩ := notedFrame_reads hu
  obtain ⟨⟨w, d, hx⟩, -, -⟩ := id hu
  rw [he, framePass_jumps ((congrArg Axis.lastP hx :).trans hl) (by rwa [hreg]) (by rwa [hreg, hfld])]
  exact frameFail_leaves hu hw _

/-- No Ack. -/
theorem bissAckTimeout_fails {s : State} {n : Fin 4} (hon : s.encOn n = true) (hm : s.encMode n = 4) (hw : (s.axis n).wire = 0)
    (hstart : (s.axis n).frameStart.isSome = true) (hat : (s.axis n).frameAt + 64 * s.absClock n ≤ s.now) :
    failedFrame s (s.bissAckTimeoutEff n) n 0x5102#16 := by
  have he : s.bissAckTimeoutEff n = s.frameFail n 0x5102#16 := if_pos ⟨hon, hm, hw, hstart, hat⟩
  rw [he]
  exact frameFail_leaves (notedFrame_refl s n) hw _

/-- The first clock edge of a frame. -/
theorem absoluteFrameStart_leaves {s : State} {n : Fin 4} (hon : s.encOn n = true) (habs : s.encAbs n = true) :
    ∃ t, s.absoluteFrameStartEff n = t ∧ t.axis n = { s.axis n with
        frameStart := some ((s.time.t : Int) + s.fld (encOff n + 0x50) 7 0 * 4 * nsUnit), frameAt := s.now } ∧
      (∀ m, m ≠ n.val → t.axis m = s.axis m) ∧ t = { s with axes := t.axes } :=
  ⟨s.setAxis n { s.axis n with
      frameStart := some ((s.time.t : Int) + s.fld (encOff n + 0x50) 7 0 * 4 * nsUnit), frameAt := s.now },
    if_pos ⟨hon, habs⟩, setAxis_same .., fun m h => setAxis_other s n m _ h, rfl⟩

/-- The first frame since enable, on the axis it is noted on. -/
theorem framePass_enters_noted {s u : State} {n : Fin 4} (hu : notedFrame s u n) (hl : (s.axis n).lastP = none) (p : Nat) :
    ∃ t, u.framePass n p = t ∧ (t.axis n).pos = (if s.flag (encOff n) 10 then -BitVec.ofNat 48 p else BitVec.ofNat 48 p) ∧
      passedFrame s t n p ∧ t = { s with axes := t.axes, cal := t.cal, chans := t.chans, fs := t.fs } := by
  obtain ⟨hflag, -, -, hcal, hchans, hfs⟩ := notedFrame_reads hu
  obtain ⟨⟨w, d, hx⟩, hother, hframe⟩ := hu
  obtain ⟨t, ht, hpos, hpass, hframe'⟩ := framePass_enters ((congrArg Axis.lastP hx :).trans hl) p
  rw [hflag] at hpos
  refine ⟨t, ht, hpos, passedFrame_congr (congrArg Axis.absFault hx :) hother hcal hchans hfs hpass, ?_⟩
  rw [hframe', hframe]

/-- A further frame, on the axis it is noted on. -/
theorem framePass_moves_noted {s u : State} {n : Fin 4} {p lp : Nat} {d : Int} (hu : notedFrame s u n)
    (hl : (s.axis n).lastP = some lp) (hd : signed (s.fld (encOff n) 24 19) (p + 2 ^ s.fld (encOff n) 24 19 - lp) = d)
    (hj : (s.reg (encOff n + 0x4C)).toNat = 0 ∨ d.natAbs ≤ (s.reg (encOff n + 0x4C)).toNat) :
    ∃ t, u.framePass n p = t ∧ (t.axis n).pos = (s.axis n).pos + BitVec.ofInt 48 (s.inverted n d) ∧ passedFrame s t n p ∧
      t = { s with axes := t.axes, regs := t.regs, emus := t.emus, log := t.log, cal := t.cal, chans := t.chans, fs := t.fs } := by
  obtain ⟨hflag, hfld, hreg, hcal, hchans, hfs⟩ := notedFrame_reads hu
  obtain ⟨⟨w, c, hx⟩, hother, hframe⟩ := hu
  obtain ⟨t, ht, hpos, hpass, hframe'⟩ :=
    framePass_moves (d := d) ((congrArg Axis.lastP hx :).trans hl) (by rw [hfld]; exact hd) (by rw [hreg]; exact hj)
  rw [inverted, hflag, hx] at hpos
  refine ⟨t, ht, hpos, passedFrame_congr (congrArg Axis.absFault hx :) hother hcal hchans hfs hpass, ?_⟩
  rw [hframe', hframe]

end Sys2Proof.Machine.State

open Sys2Proof Sys2Proof.Machine Sys2Proof.Machine.State in
/-- Settles O15: the start of a frame, a frame that passes, and the five ways in which one fails. -/
theorem absoluteFramesEnterOrFail : Obligations.AbsoluteFramesEnterOrFail := by
  unfold Obligations.AbsoluteFramesEnterOrFail
  refine ⟨fun s n hon habs => ?_, ?_, ?_⟩
  · obtain ⟨t, ht, hx, hother, hframe⟩ := absoluteFrameStart_leaves hon habs
    exact ⟨t, congrArg Host.Outcome.next ht, (congrArg Axis.frameStart hx :), (congrArg Axis.frameAt hx :),
      (congrArg Axis.pos hx :), hother, hframe⟩
  · rintro s n raw check _ _ p nE nW hon hw rfl hsb rfl hok
    obtain ⟨u, hu, he⟩ := absoluteFrame_passes hon hw hok
    refine ⟨fun hl => ?_, fun lp d hl hlp hp hd h1 h2 hj => ?_⟩
    · obtain ⟨t, ht, hpos, ⟨hlast, hfails, hsound, hsame, hends, hkeep⟩, hframe⟩ := framePass_enters_noted hu hl p
      exact ⟨t, congrArg Host.Outcome.next (he.trans ht), hpos, hlast, hfails, hsound, hsame, hends, hkeep, hframe⟩
    · obtain ⟨t, ht, hpos, ⟨hlast, hfails, hsound, hsame, hends, hkeep⟩, hframe⟩ :=
        framePass_moves_noted hu hl (signed_difference (by omega : 0 < s.fld (encOff n) 24 19) hlp hd h1 h2) hj
      exact ⟨t, congrArg Host.Outcome.next (he.trans ht), hpos, hlast, hfails, hsound, hsame, hends, hkeep, hframe⟩
  · rintro s n c code _ hon hw rfl h
    rcases h with ⟨rfl, rfl, hm, hstart, hat⟩ | ⟨raw, check, nE, nW, rfl, rfl, hm, hcrc⟩ |
      ⟨raw, check, nE, nW, rfl, rfl, hm, hbad⟩ |
      ⟨raw, check, nW, rfl, rfl, hm, hcrc⟩ | ⟨raw, check, nW, lp, rfl, rfl, hm, hcrc, hl, h0, hj⟩
    · exact ⟨_, rfl, bissAckTimeout_fails hon hm hw hstart hat⟩
    · exact ⟨_, rfl, absoluteFrame_checkFails hon (encAbs_of_mode (.inl hm)) hw
        ((frameCheck_biss hm ..).trans (decide_eq_false hcrc))⟩
    · refine ⟨_, rfl, absoluteFrame_checkFails hon (encAbs_of_mode (.inr hm)) hw (Bool.eq_false_iff.2 fun hc => ?_)⟩
      have hok := (frameCheck_ssi hm _ _ nE nW).1 hc
      simp only [ssiCheck] at hok
      omega
    · exact ⟨_, rfl, absoluteFrame_errorBit hon hm hw hcrc⟩
    · obtain ⟨u, hu, he⟩ := absoluteFrame_passes hon hw (.inl ⟨hm, rfl, hcrc, rfl⟩)
      exact ⟨_, rfl, absoluteFrame_jumps hu hw he hl h0 hj⟩
end

