-- ==== Sys2Proof/Proofs/TimeSteps.lean ====
section
/-! SUPPORT. Module time (R39 to R43): snapshots, and steps with the count stamps that move with them. -/

namespace Sys2Proof.Machine.State

/-- Module time after `d` ns more. -/
def timePlus (s : State) (d : Int) : Nat := (((s.time.t : Int) + d * nsUnit) % (timeWrap : Int)).toNat

theorem timePlus_eq (s : State) (d : Int) :
    (s.timePlus d : Int) = ((s.time.t : Int) + d * 2 ^ 48) % (2 ^ 48 * 1000000000 * 2 ^ 48) :=
  Int.toNat_of_nonneg (Int.emod_nonneg _ (by decide))

/-- An axis with its stamps moved. -/
def stampsMoved (d : Int) (x : Axis) : Axis :=
  { x with hist := x.hist.map (fun h => (h.1 + d, h.2)), frameStart := x.frameStart.map (· + d) }

/-- A table changed value by value. -/
theorem tget_map {α : Type} {f : α → α} {d : α} (hd : f d = d) (l : Tab α) (k : Nat) :
    tget d (l.map (fun p => (p.1, f p.2))) k = f (tget d l k) := by
  induction l with
  | nil => exact hd.symm
  | cons p r ih =>
    obtain ⟨a, v⟩ := p
    by_cases h : a = k
    · simp [tget, h]
    · simp [tget, h, ih]

theorem axis_moveStamps (s : State) (d : Int) (n : Nat) : (s.moveStamps d).axis n = stampsMoved d (s.axis n) :=
  tget_map (f := stampsMoved d) rfl s.axes n

/-- A step of module time. -/
theorem stepTime_leaves (s : State) (d : Int) :
    ∃ t, s.stepTime d = t ∧ t.time = { s.time with t := s.timePlus d, epoch := s.time.epoch + 1 } ∧
      (∀ n, t.axis n = stampsMoved (d * 2 ^ 48) (s.axis n)) ∧ t = { s with time := t.time, axes := t.axes, log := t.log } := by
  let u : State := { s with time := { s.time with t := s.timePlus d, epoch := s.time.epoch + 1 } }
  obtain ⟨l, hl⟩ := raiseNow_frame (u.moveStamps (d * nsUnit)) 0x0102#16 0x01 0x20 (timeBytes s.time.t ++ timeBytes (s.timePlus d))
  exact ⟨_, hl, rfl, fun n => axis_moveStamps u (d * nsUnit) n, rfl⟩

/-! ## Snapshots and the step registers (R40, R43) -/

theorem timeSnap_leaves {s : State} {v : Word} (ha : s.answers 0 0x220000 = true) (hv : bit v 0 = true) :
    exec (.timeSnap v) s = .next { s with time := { s.time with snapTime := s.time.t, snapPos := s.allPos } } :=
  congrArg Host.Outcome.next ((gate_answers s 0 0x220000 v _ ha).trans (if_pos hv))

theorem reg64_lt (s : State) (off : Nat) : s.reg64 off < 2 ^ 64 := by
  have h1 := (s.reg off).isLt
  have h2 := (s.reg (off + 4)).isLt
  simp only [reg64]
  omega

/-- A 64-bit two's complement value. -/
theorem signed_reg64 (s : State) (off : Nat) :
    signed 64 (s.reg64 off) = if s.reg64 off < 2 ^ 63 then (s.reg64 off : Int) else (s.reg64 off : Int) - 2 ^ 64 := by
  rw [signed, Nat.mod_eq_of_lt (reg64_lt s off)]

theorem signed_reg64_eq_zero (s : State) (off : Nat) : signed 64 (s.reg64 off) = 0 ↔ s.reg64 off = 0 := by
  have := reg64_lt s off
  rw [signed_reg64]
  split <;> omega

/-- GO with no step waiting. -/
theorem timeStepGo_holds {s : State} {v : Word} (ha : s.answers 0 0x220044 = true) (hv : bit v 0 = true)
    (hn : s.time.stepPending = none) :
    exec (.timeStepGo v) s = .next (if s.reg64 0x22003C = 0 then s
      else { s with time := { s.time with stepPending := some (signed 64 (s.reg64 0x22003C)) } }) := by
  have he : s.timeStepGoEff v = if signed 64 (s.reg64 0x22003C) = 0 then s
      else { s with time := { s.time with stepPending := some (signed 64 (s.reg64 0x22003C)) } } := by
    rw [timeStepGoEff, if_pos hv, hn]
  simp only [signed_reg64_eq_zero] at he
  exact congrArg Host.Outcome.next ((gate_answers s 0 0x220044 v _ ha).trans he)

/-- GO with a step waiting is refused. -/
theorem timeStepGo_refused {s : State} {v : Word} {d : Int} (ha : s.answers 0 0x220044 = true) (hv : bit v 0 = true)
    (hd : s.time.stepPending = some d) : ∃ l, exec (.timeStepGo v) s = .next { s with log := l } := by
  obtain ⟨l, hl⟩ := refuse_frame s 0x1103#16 0x01 0x20 0x220044 0 0 0
  refine ⟨l, congrArg Host.Outcome.next ((gate_answers s 0 0x220044 v _ ha).trans ?_)⟩
  rw [timeStepGoEff, if_pos hv, hd]
  exact hl

/-- The step that waits, applied. -/
theorem timeStepApply_leaves {s : State} {d : Int} (hd : s.time.stepPending = some d) :
    ∃ t, exec .timeStepApply s = .next t ∧
      t.time = { s.time with stepPending := none, t := s.timePlus d, epoch := s.time.epoch + 1 } ∧
      (∀ n, t.axis n = stampsMoved (d * 2 ^ 48) (s.axis n)) ∧ t = { s with time := t.time, axes := t.axes, log := t.log } := by
  obtain ⟨t, ht, htime, haxis, hframe⟩ := stepTime_leaves { s with time := { s.time with stepPending := none } } d
  refine ⟨t, congrArg Host.Outcome.next ?_, htime, haxis, hframe⟩
  rw [← ht, timeStepApplyEff, hd]

end Sys2Proof.Machine.State

open Sys2Proof Sys2Proof.Machine Sys2Proof.Machine.State in
/-- Settles O19: snapshots, GO with no step waiting and with one, and the step applied. -/
theorem snapshotAndStepOfModuleTime : Obligations.SnapshotAndStepOfModuleTime := by
  unfold Obligations.SnapshotAndStepOfModuleTime
  refine ⟨fun s v ha hv => ⟨_, timeSnap_leaves ha hv, rfl, rfl, rfl⟩, fun s v ha hv hn => ?_, fun s v d ha hv hd => ?_,
    fun s d hd => ?_⟩
  · refine ⟨_, timeStepGo_holds ha hv hn, ?_⟩
    by_cases h : s.reg64 0x22003C = 0
    · rw [if_pos h, if_pos h]
      exact ⟨hn, rfl⟩
    · rw [if_neg h, if_neg h]
      exact ⟨congrArg some (signed_reg64 s 0x22003C), rfl⟩
  · obtain ⟨l, hl⟩ := timeStepGo_refused ha hv hd
    exact ⟨_, hl, rfl, rfl⟩
  · obtain ⟨t, ht, htime, haxis, hframe⟩ := timeStepApply_leaves hd
    refine ⟨t, ht, ?_, by rw [htime], by rw [htime], by rw [htime], fun n => by rw [haxis n]; exact ⟨rfl, rfl⟩, hframe⟩
    rw [htime]
    exact timePlus_eq s d
end

