-- ==== Sys2Proof/Proofs/RateAndServo.lean ====
section
/-! SUPPORT. RATE and the servo's mode (R39, R41, R69, R447, R477), written by the host. -/

namespace Sys2Proof.Machine.State

/-! ## `TIME_RATE` (R39, R447) -/

/-- The low half of RATE that a write of the high half joins: the one held, or that of the RATE in force. -/
def rateLow (s : State) : Word := (tget none s.held 0x220034).getD (BitVec.ofNat 32 s.rateWord)

/-- The two halves of RATE as a signed 40-bit value. -/
theorem signed40_halves (hi lo : Word) :
    signed 40 (bits hi 7 0 * 2 ^ 32 + lo.toNat) =
      if bits hi 7 7 = 0 then ((bits hi 7 0 * 2 ^ 32 + lo.toNat : Nat) : Int)
      else ((bits hi 7 0 * 2 ^ 32 + lo.toNat : Nat) : Int) - 2 ^ 40 := by
  have hlo := lo.isLt
  have hhi : bits hi 7 0 < 256 := bits_lt hi 7 0
  have htop : bits hi 7 7 = bits hi 7 0 / 128 := by
    simp only [bits]
    omega
  rw [signed, Nat.mod_eq_of_lt (by omega), htop]
  split <;> split <;> omega

theorem timeRateWrite_exec {s : State} (hi : Word) (ha : s.answers 0 0x220038 = true) :
    exec (.timeRateWrite hi) s = .next (s.timeRateWriteEff hi) := congrArg Host.Outcome.next (gate_answers s 0 0x220038 hi _ ha)

/-- The state with a RATE from the host. -/
def withRate (s : State) (y : Int) : State := { s with time := { s.time with rate := y, hostRate := y } }

/-- A write of RATE out of MODE 1: the value of both halves, clamped. -/
theorem timeRateWrite_takes {s : State} {hi : Word} (hm : s.fld 0x220048 1 0 ≠ 1) :
    ∃ l, s.timeRateWriteEff hi =
      { s.withRate (clampInt (-rateMax) rateMax (signed 40 (bits hi 7 0 * 2 ^ 32 + s.rateLow.toNat))) with log := l } := by
  obtain ⟨x, hx⟩ : ∃ x, signed 40 (bits hi 7 0 * 2 ^ 32 + s.rateLow.toNat) = x := ⟨_, rfl⟩
  obtain ⟨u, hu⟩ : ∃ u, s.withRate (clampInt (-rateMax) rateMax x) = u := ⟨_, rfl⟩
  obtain ⟨l, hl⟩ := report_frame u 0x1104#16 1 0x220034 39 0 (unsigned 40 x) (unsigned 40 (clampInt (-rateMax) rateMax x)) 0 0
  obtain ⟨l', hl'⟩ := last_frame { u with log := l } 0x1104#16 0x01 0x20
  have he : s.timeRateWriteEff hi = if x = clampInt (-rateMax) rateMax x then u else { u with log := l' } := by
    rw [← hl', ← hl, ← hu, ← hx, timeRateWriteEff, if_neg hm]
    rfl
  rw [he, hx, hu]
  split
  · exact ⟨u.log, rfl⟩
  · exact ⟨l', rfl⟩

/-! ## `TIME_SERVO` (R41, R69, R477) -/

/-- The register's entry in the map. -/
def servoSpec : RegSpec :=
  { delta := 0x48, reset := 0x19020040#32, code := 0x1101#16,
    fields := [fldE .rw 1 0 [2, 3], Machine.fld .rw 5 2, fldC .rw 13 6 1 255, fldC .rw 21 14 2 255, fldC .rw 30 22 1 500] }

theorem regSpec_servo : regSpec 0x220048 = some servoSpec := by decide

/-- What a write of the servo register leaves in MODE, where it is not reserved, and in PORT. -/
theorem servo_leaves (s : State) (v : Word) :
    ∃ u, s.writeFields 0x220048 0x01 0x20 v = u ∧ (bits v 1 0 ≤ 1 → u.fld 0x220048 1 0 = bits v 1 0) ∧
      u.fld 0x220048 5 2 = bits v 5 2 ∧ (∀ o, o ≠ 0x220048 → u.reg o = s.reg o) ∧
      u = { s with regs := u.regs, log := u.log } := by
  obtain ⟨u, hu, hf, hother, hframe⟩ :=
    writeFields_leaves (s := s) 0x01 0x20 v regSpec_servo (by decide) (by decide) (.inr (by decide))
  refine ⟨u, hu, fun h => ?_, hf (Machine.fld .rw 5 2) (by decide) ⟨.inl rfl, .inl rfl⟩, hother, hframe⟩
  refine hf (fldE .rw 1 0 [2, 3]) (by decide) ⟨.inl rfl, .inr ⟨[2, 3], rfl, ?_⟩⟩
  have hx : bits v 1 0 = 0 ∨ bits v 1 0 = 1 := by omega
  rcases hx with hx | hx
  · exact congrArg (List.contains [2, 3]) hx
  · exact congrArg (List.contains [2, 3]) hx

/-- Why the port that PORT asks for is refused: absent (0x1202), or not enabled (0x1203). -/
def servoPortCode (s : State) (p : Nat) : Half :=
  if ¬ s.portPresent p then 0x1202#16 else if ¬ s.flag (portOff p) 31 then 0x1203#16 else 0

theorem servoPortCode_eq_zero {s : State} {p : Nat} (hp : s.portPresent p = true) (hon : s.flag (portOff p) 31 = true) :
    s.servoPortCode p = 0 := by simp [servoPortCode, hp, hon]

theorem servoPortCode_ne_zero {s : State} {p : Nat} (h : s.portPresent p = false ∨ s.flag (portOff p) 31 = false) :
    s.servoPortCode p ≠ 0 := by
  simp only [servoPortCode]
  split
  · decide
  · split
    · decide
    · rename_i hp hon
      rcases h with h | h
      · exact absurd h (by simpa using hp)
      · exact absurd h (by simpa using hon)

/-- A port that the servo register does not hold is as before a write of it. -/
theorem servoPortCode_congr {s u : State} (h : ∀ o, o ≠ 0x220048 → u.reg o = s.reg o) (p : Nat) :
    u.servoPortCode p = s.servoPortCode p := by
  have hflag : u.flag (portOff p) 31 = s.flag (portOff p) 31 := congrArg (bit · 31) (h _ (by simp only [portOff]; omega))
  have hmode : u.quadMode (p / 4) = s.quadMode (p / 4) := congrArg (bits · 1 0) (h _ (by omega))
  have hpresent : u.portPresent p = s.portPresent p := by rw [portPresent, portPresent, hmode]
  rw [servoPortCode, servoPortCode, hflag, hpresent]

/-- The register after a write: a port that is refused leaves PORT at its value. -/
theorem servoWritten_leaves (s : State) (v : Word) (asked : Prop) [Decidable asked] (h1 : bits v 1 0 = 1 → asked) :
    ∃ u, (if asked ∧ (s.writeFields 0x220048 0x01 0x20 v).servoPortCode (bits v 5 2) ≠ 0 then
        ((s.writeFields 0x220048 0x01 0x20 v).setFld 0x220048 5 2 (bits (s.reg 0x220048) 5 2)).report
          ((s.writeFields 0x220048 0x01 0x20 v).servoPortCode (bits v 5 2)) 2 0x220048 5 2 (bits v 5 2) (bits (s.reg 0x220048) 5 2)
      else s.writeFields 0x220048 0x01 0x20 v) = u ∧ (bits v 1 0 ≤ 1 → u.fld 0x220048 1 0 = bits v 1 0) ∧
      (s.servoPortCode (bits v 5 2) = 0 → u.fld 0x220048 5 2 = bits v 5 2) ∧
      (bits v 1 0 = 1 → s.servoPortCode (bits v 5 2) ≠ 0 → u.fld 0x220048 5 2 = s.fld 0x220048 5 2) ∧
      u = { s with regs := u.regs, log := u.log } := by
  obtain ⟨w, hw, hmode, hport, hregs, hframe⟩ := servo_leaves s v
  rw [hw, servoPortCode_congr hregs]
  by_cases hc : asked ∧ s.servoPortCode (bits v 5 2) ≠ 0
  · obtain ⟨x, hx, hreg, -, hframe'⟩ := setFld_leaves w 0x220048 5 2 (bits (s.reg 0x220048) 5 2)
    obtain ⟨l, hl⟩ := report_frame x (s.servoPortCode (bits v 5 2)) 2 0x220048 5 2 (bits v 5 2) (bits (s.reg 0x220048) 5 2) 0 0
    rw [if_pos hc, hx, hl]
    refine ⟨_, rfl, fun h => ?_, fun h => absurd h hc.2, fun _ _ => ?_, ?_⟩
    · refine Eq.trans ?_ (hmode h)
      exact (congrArg (bits · 1 0) hreg).trans (bits_putBits_other _ 5 2 _ 1 0 (by omega) (by omega) (by omega))
    · refine (congrArg (bits · 5 2) hreg).trans ?_
      rw [bits_putBits_same _ 5 2 _ (by omega) (by omega)]
      exact Nat.mod_eq_of_lt (bits_lt (s.reg 0x220048) 5 2)
    · rw [hframe', hframe]
  · rw [if_neg hc]
    exact ⟨w, rfl, hmode, fun _ => hport, fun h hne => absurd ⟨h1 h, hne⟩ hc, hframe⟩

/-- The servo after a write of its register: MODE 1 begins acquiring out of free-run, MODE 0 is free-run. -/
def servoTime (x : TimeU) (mode : Nat) : TimeU :=
  if mode = 1 then (if x.servo = 0 then { x with servo := 1, cosc := x.rate, sumO := 0, inRow := 0, firstSync := true } else x)
  else { x with servo := 0, inRow := 0 }

/-- A write of the servo register: what its fields take, and the servo's state. -/
theorem timeServoWrite_leaves {s : State} {v : Word} (ha : s.answers 0 0x220048 = true) (hv : bits v 1 0 ≤ 1) :
    ∃ t, exec (.timeServoWrite v) s = .next t ∧ t.fld 0x220048 1 0 = bits v 1 0 ∧
      (s.servoPortCode (bits v 5 2) = 0 → t.fld 0x220048 5 2 = bits v 5 2) ∧
      (bits v 1 0 = 1 → s.servoPortCode (bits v 5 2) ≠ 0 → t.fld 0x220048 5 2 = s.fld 0x220048 5 2) ∧
      t.time = servoTime s.time (bits v 1 0) ∧ t = { s with regs := t.regs, time := t.time, log := t.log } := by
  obtain ⟨u, hu, hmode, hport, hkept, hframe⟩ :=
    servoWritten_leaves s v (bits v 5 2 ≠ bits (s.reg 0x220048) 5 2 ∨ bits v 1 0 = 1) .inr
  have hm := hmode hv
  have htime : u.time = s.time := (congrArg State.time hframe :)
  have he : s.timeServoWriteEff v = { u with time := servoTime s.time (bits v 1 0) } := by
    have heff : s.timeServoWriteEff v = match u.fld 0x220048 1 0 with
        | 1 => if u.time.servo = 0 then
            { u with time := { u.time with servo := 1, cosc := u.time.rate, sumO := 0, inRow := 0, firstSync := true } } else u
        | _ => if bits v 1 0 = 0 then { u with time := { u.time with servo := 0, inRow := 0 } } else u := by
      rw [← hu]; rfl
    rw [heff, hm, ← htime]
    have hcases : bits v 1 0 = 0 ∨ bits v 1 0 = 1 := by omega
    rcases hcases with h | h
    · simp [h, servoTime]
    · simp only [h, servoTime, if_true]
      split
      · rfl
      · rfl
  refine ⟨_, congrArg Host.Outcome.next ((gate_answers s 0 0x220048 v _ ha).trans he), hm, hport, hkept, rfl, ?_⟩
  rw [hframe]

end Sys2Proof.Machine.State

open Sys2Proof Sys2Proof.Machine Sys2Proof.Machine.State in
/-- Settles O20: the write of RATE out of MODE 1 and in it, and the write of the servo's register by MODE and by its port. -/
theorem rateAndServoWrites : Obligations.RateAndServoWrites := by
  unfold Obligations.RateAndServoWrites
  refine ⟨fun s hi lo ha hm hlo => ?_, fun s hi ha hm => ?_, fun s v ha hv h0 hp hon => ?_, fun s v ha hv hbad => ?_,
    fun s v ha hv => ?_⟩
  · obtain ⟨l, hl⟩ := timeRateWrite_takes (hi := hi) hm
    have hlow : s.rateLow = lo := hlo.symm
    rw [hlow, signed40_halves] at hl
    exact ⟨_, _, (timeRateWrite_exec hi ha).trans (congrArg Host.Outcome.next hl), rfl, rfl, rfl, rfl, rfl⟩
  · exact (timeRateWrite_exec hi ha).trans (congrArg Host.Outcome.next (if_pos hm))
  · obtain ⟨t, ht, hmode, hport, -, htime, hframe⟩ := timeServoWrite_leaves ha (v := v) (by omega)
    rw [hv, servoTime, if_pos rfl, if_pos h0] at htime
    exact ⟨t, ht, by rw [htime], by rw [htime], by rw [htime], hmode.trans hv, hport (servoPortCode_eq_zero hp hon), by rw [htime],
      by rw [htime], hframe⟩
  · obtain ⟨t, ht, -, -, hkept, htime, hframe⟩ := timeServoWrite_leaves ha (v := v) (by omega)
    have hclock (x : TimeU) : (servoTime x 1).t = x.t ∧ (servoTime x 1).rate = x.rate := by
      rw [servoTime, if_pos rfl]
      split
      · exact ⟨rfl, rfl⟩
      · exact ⟨rfl, rfl⟩
    rw [hv] at htime
    exact ⟨t, ht, hkept hv (servoPortCode_ne_zero hbad), by rw [htime]; exact (hclock s.time).1,
      by rw [htime]; exact (hclock s.time).2, hframe⟩
  · obtain ⟨t, ht, hmode, -, -, htime, hframe⟩ := timeServoWrite_leaves ha (v := v) (by omega)
    rw [hv, servoTime, if_neg (by decide)] at htime
    exact ⟨t, ht, by rw [htime], hmode.trans hv, by rw [htime], by rw [htime], hframe⟩
end

