-- ==== Sys2Proof/Proofs/SyncAndHoldover.lean ====
section
/-! SUPPORT. The PTP servo at a Sync and without one (R41, R42, R68, R69). -/

namespace Sys2Proof.Machine.State

/-! ## Frames going out (R55, R56, R61, R68) -/

/-- `t` is `s` with frames sent or held on ports. -/
def onlySends (s t : State) : Prop := t = { s with ports := t.ports, lanes := t.lanes, counters := t.counters }

theorem onlySends.trans {s t u : State} (h1 : onlySends s t) (h2 : onlySends t u) : onlySends s u := by
  rw [onlySends] at *
  rw [h2, h1]

theorem txNow_onlySends (s : State) (n k : Nat) : onlySends s (s.txNow n k) := rfl

theorem txHold_onlySends (s : State) (n k : Nat) : onlySends s (s.txHold n k) := by
  simp only [txHold, startWake]
  split
  · rfl
  · rfl

theorem txFrames_onlySends (s : State) (n k : Nat) : onlySends s (s.txFrames n k) := by
  simp only [txFrames]
  split
  · rfl
  · split
    · exact txNow_onlySends s n k
    · exact txHold_onlySends s n k

theorem ptpSend_onlySends (s : State) (n : Nat) (follow : Bool) : onlySends s (s.ptpSend n follow) :=
  onlySends.trans (t := s.setPort n { s.port n with ptpTx := some (s.ptpStampNow n true, s.flag (portOff n) 24) }) rfl
    (txFrames_onlySends _ n _)

/-! ## The rate of a Sync (R41) -/

/-- The SLEW limit in 2^-48. -/
def slewLimit (s : State) : Int := s.fld 0x220048 30 22 * 2 ^ 48 / 1000000

/-- The rate that a term of the servo gives. -/
def steeredRate (s : State) (term : Int) : Int :=
  clampInt (-rateMax) rateMax (s.time.cosc - clampInt (-s.slewLimit) s.slewLimit term)

/-- A steered rate is within 500 ppm, and within SLEW of C_osc where that is. -/
theorem steeredRate_bounds (s : State) (term : Int) :
    -140737488355 ≤ s.steeredRate term ∧ s.steeredRate term ≤ 140737488355 ∧
      (s.time.cosc - s.slewLimit ≤ s.steeredRate term ∨ s.steeredRate term = 140737488355) ∧
      (s.steeredRate term ≤ s.time.cosc + s.slewLimit ∨ s.steeredRate term = -140737488355) := by
  have hlim : 0 ≤ s.slewLimit := by simp only [slewLimit]; omega
  obtain ⟨h1, h2⟩ := clampInt_bounds (lo := -s.slewLimit) (hi := s.slewLimit) (by omega) term
  simp only [steeredRate, rateMax]
  generalize clampInt (-s.slewLimit) s.slewLimit term = c at h1 h2
  simp only [clampInt]
  omega

/-- Offsets below 100 ns in a row. -/
def rowAfter (row : Nat) (o : Int) : Nat := if o.natAbs < 100 then row + 1 else 0

/-- The servo's state after a Sync that steers. -/
def servoAfter (servo row : Nat) : Nat := if servo = 1 then (if row = 16 then 2 else 1) else if servo = 3 then 2 else servo

theorem servoRound_frame (s : State) (n : Int) (d : Nat) : ∃ x f, s.servoRound n d = (x, { s with free := f }) := by
  simp only [servoRound]
  split
  · exact ⟨_, _, rfl⟩
  · exact ⟨_, _, rfl⟩

theorem servoRate_leaves (s : State) (o : Int) (interval : Nat) :
    ∃ t term c sum, s.servoRate o interval = t ∧
      t.time = { s.time with
        rate := s.steeredRate term, sumO := sum, cosc := c, inRow := rowAfter s.time.inRow o,
        servo := servoAfter s.time.servo (rowAfter s.time.inRow o) } ∧
      t = { s with time := t.time, free := t.free } := by
  obtain ⟨term, f, hround⟩ := servoRound_frame s (2 ^ 48 * (16 * o + (s.time.sumO + o))) (64 * interval)
  let u : State := { s with free := f, time := { s.time with
    rate := s.steeredRate term, sumO := s.time.sumO + o, inRow := rowAfter s.time.inRow o } }
  have he : s.servoRate o interval = if s.time.servo = 1 ∧ rowAfter s.time.inRow o = 16 then
        { u with time := { u.time with servo := 2, cosc := s.steeredRate term, sumO := 0 } }
      else if s.time.servo = 3 then { u with time := { u.time with servo := 2 } } else u := by
    simp only [servoRate, hround]; rfl
  by_cases h1 : s.time.servo = 1
  · by_cases hrow : rowAfter s.time.inRow o = 16
    · refine ⟨_, term, s.steeredRate term, 0, he.trans (if_pos ⟨h1, hrow⟩), ?_, rfl⟩
      rw [servoAfter, if_pos h1, if_pos hrow]
    · refine ⟨_, term, s.time.cosc, s.time.sumO + o, he.trans ((if_neg fun h => hrow h.2).trans (if_neg (by omega))), ?_, rfl⟩
      rw [servoAfter, if_pos h1, if_neg hrow, ← h1]
  · by_cases h3 : s.time.servo = 3
    · refine ⟨_, term, s.time.cosc, s.time.sumO + o, he.trans ((if_neg fun h => h1 h.1).trans (if_pos h3)), ?_, rfl⟩
      rw [servoAfter, if_neg h1, if_pos h3]
    · refine ⟨_, term, s.time.cosc, s.time.sumO + o, he.trans ((if_neg fun h => h1 h.1).trans (if_neg h3)), ?_, rfl⟩
      rw [servoAfter, if_neg h1, if_neg h3]

theorem servoWarn_leaves (s : State) (o : Int) :
    ∃ t p, s.servoWarn o = t ∧ t.time = { s.time with posted4101 := p } ∧ t = { s with time := t.time, log := t.log } := by
  obtain ⟨due, hdue⟩ : ∃ due : Bool, s.servoWarn o = if s.time.stepped ∧ s.fld 0x220048 13 6 * 1000 < o.natAbs ∧ due then
      ({ s with time := { s.time with posted4101 := some s.now } }).raiseNow 0x4101#16 0x01 0x20 else s := ⟨_, rfl⟩
  rw [hdue]
  split
  · exact ⟨_, some s.now, rfl, rfl, rfl⟩
  · exact ⟨s, s.time.posted4101, rfl, rfl, rfl⟩

/-! ## SYNC (R41, R69) -/

/-- Module time and the servo as a Sync is noted. -/
def syncTime (s : State) (o : Int) (interval : Nat) : TimeU :=
  { s.time with
    peerDelay := s.flag (portOff (s.fld 0x220048 5 2)) 25, offset := clampInt (-(2 ^ 31)) (2 ^ 31 - 1) o, lastSync := s.now, interval
    firstSync := false }

/-- The Sync steps module time. -/
def syncSteps (s : State) (o : Int) : Prop :=
  s.time.firstSync = true ∧ s.time.servo = 1 ∧ s.time.stepped = false ∧ s.fld 0x220048 13 6 * 1000 < o.natAbs

/-- A Sync that the servo takes: noted, with its delay request sent, and then a step or a new rate. -/
theorem sync_eq {s : State} {o : Int} {interval : Nat} (hm : s.fld 0x220048 1 0 = 1) (h0 : s.time.servo ≠ 0) (hi : 0 < interval)
    (hl : s.lead.leads = true) (hp : s.portOn (s.fld 0x220048 5 2) = true) (hk : (s.port (s.fld 0x220048 5 2)).locked = true) :
    ∃ u : State, u.time = s.syncTime o interval ∧
      u = { s with time := u.time, ports := u.ports, lanes := u.lanes, counters := u.counters } ∧
      (s.syncSteps o → s.syncEff o interval = ({ u with time := { u.time with stepped := true } }).stepTime (-o)) ∧
      (¬ s.syncSteps o → s.syncEff o interval = (u.servoRate o interval).servoWarn o) := by
  have hgo : ¬(s.fld 0x220048 1 0 ≠ 1 ∨ s.time.servo = 0 ∨ interval = 0 ∨ ¬ s.lead.leads = true ∨
      ¬ s.servoPortUp = true) := by
    simp [hm, h0, hi.ne', hl, servoPortUp, hp, hk]
  let w : State := { s with time := { s.time with peerDelay := s.flag (portOff (s.fld 0x220048 5 2)) 25 } }
  obtain ⟨v, hv⟩ : ∃ v, s.delayAsk = v := ⟨_, rfl⟩
  have hframe : onlySends w v := by rw [← hv]; exact ptpSend_onlySends w _ false
  rw [onlySends] at hframe
  have htime : v.time = w.time := (congrArg State.time hframe :)
  have hnow : v.now = s.now := (congrArg State.now hframe :)
  have hthr : v.fld 0x220048 13 6 = s.fld 0x220048 13 6 := (congrArg (Machine.State.fld · 0x220048 13 6) hframe :)
  have hnoted : { v.time with offset := clampInt (-(2 ^ 31)) (2 ^ 31 - 1) o, lastSync := v.now, interval, firstSync := false } =
      s.syncTime o interval := by rw [htime, hnow]; rfl
  have he : s.syncEff o interval =
      if (v.time.firstSync && decide (v.time.servo = 1)) = true ∧ ¬ v.time.stepped = true ∧
          v.fld 0x220048 13 6 * 1000 < o.natAbs then
        ({ v with time := { s.syncTime o interval with stepped := true } }).stepTime (-o)
      else (({ v with time := s.syncTime o interval }).servoRate o interval).servoWarn o := by
    rw [syncEff, if_neg hgo, hv, ← hnoted]
    rfl
  have hfirst : v.time.firstSync = s.time.firstSync := (congrArg TimeU.firstSync htime :)
  have hservo : v.time.servo = s.time.servo := (congrArg TimeU.servo htime :)
  have hstepped : v.time.stepped = s.time.stepped := (congrArg TimeU.stepped htime :)
  rw [hfirst, hservo, hstepped, hthr] at he
  refine ⟨{ v with time := s.syncTime o interval }, rfl, ?_, fun hs => ?_, fun hs => ?_⟩
  · rw [hframe]
  · obtain ⟨hf, h1, hst, ho⟩ := hs
    exact he.trans (if_pos ⟨by simp [hf, h1], by simp [hst], ho⟩)
  · refine he.trans (if_neg fun hc => hs ?_)
    obtain ⟨hf, hst, ho⟩ := hc
    simp only [Bool.and_eq_true, decide_eq_true_eq] at hf
    exact ⟨hf.1, hf.2, by simpa using hst, ho⟩

/-- The first Sync since acquiring began, with an offset above STEP_THR: a step. -/
theorem sync_steps {s : State} {o : Int} {interval : Nat} (hm : s.fld 0x220048 1 0 = 1) (hi : 0 < interval)
    (hl : s.lead.leads = true) (hp : s.portOn (s.fld 0x220048 5 2) = true) (hk : (s.port (s.fld 0x220048 5 2)).locked = true)
    (hs : s.syncSteps o) :
    ∃ t, exec (.sync o interval) s = .next t ∧
      t.time = { s.syncTime o interval with stepped := true, t := s.timePlus (-o), epoch := s.time.epoch + 1 } ∧
      t = { s with time := t.time, axes := t.axes, ports := t.ports, lanes := t.lanes, counters := t.counters, log := t.log } := by
  obtain ⟨u, htime, hframe, hstep, -⟩ := sync_eq (o := o) hm (by rw [hs.2.1]; decide) hi hl hp hk
  obtain ⟨t, ht, httime, -, hframe'⟩ := stepTime_leaves { u with time := { u.time with stepped := true } } (-o)
  refine ⟨t, congrArg Host.Outcome.next ((hstep hs).trans ht), ?_, ?_⟩
  · rw [httime, timePlus, htime]; rfl
  · rw [hframe', hframe]

/-- Every other Sync: a new rate. -/
theorem sync_steers {s : State} {o : Int} {interval : Nat} (hm : s.fld 0x220048 1 0 = 1) (h0 : s.time.servo ≠ 0) (hi : 0 < interval)
    (hl : s.lead.leads = true) (hp : s.portOn (s.fld 0x220048 5 2) = true) (hk : (s.port (s.fld 0x220048 5 2)).locked = true)
    (hs : ¬ s.syncSteps o) :
    ∃ t term c sum p, exec (.sync o interval) s = .next t ∧
      t.time = { s.syncTime o interval with
        rate := s.steeredRate term, sumO := sum, cosc := c, inRow := rowAfter s.time.inRow o,
        servo := servoAfter s.time.servo (rowAfter s.time.inRow o), posted4101 := p } ∧
      t = { s with time := t.time, ports := t.ports, lanes := t.lanes, counters := t.counters, free := t.free, log := t.log } := by
  obtain ⟨u, htime, hframe, -, hsteer⟩ := sync_eq (o := o) hm h0 hi hl hp hk
  obtain ⟨v, term, c, sum, hv, hvtime, hframe'⟩ := servoRate_leaves u o interval
  obtain ⟨t, p, ht, httime, hframe''⟩ := servoWarn_leaves v o
  have hrate : u.steeredRate term = s.steeredRate term := by
    have hslew : u.slewLimit = s.slewLimit := (congrArg slewLimit hframe :)
    rw [steeredRate, steeredRate, hslew, htime]; rfl
  refine ⟨t, term, c, sum, p, congrArg Host.Outcome.next ((hsteer hs).trans ?_), ?_, ?_⟩
  · rw [hv, ht]
  · rw [httime, hvtime, hrate, htime]; rfl
  · rw [hframe'', hframe', hframe]

/-! ## HOLDOVER (R42) -/

theorem holdover_leaves {s : State} (hs : s.time.servo = 1 ∨ s.time.servo = 2) (hi : s.time.interval ≠ 0)
    (hl : s.time.lastSync + s.fld 0x220048 21 14 * s.time.interval ≤ s.now) :
    ∃ t, exec .holdover s = .next t ∧ t.time = { s.time with servo := 3 } ∧ t.codeWindow 0x4102#16 0x01 0x20 = true ∧
      t = { s with time := t.time, log := t.log } := by
  obtain ⟨t, ht, -, hwin, hframe⟩ := raise_leaves { s with time := { s.time with servo := 3 } } 0x4102#16 0x01 0x20 1 []
  have he : s.holdoverEff = t := by
    rw [← ht]; exact if_pos ⟨hs, hi, hl⟩
  refine ⟨t, congrArg Host.Outcome.next he, (congrArg State.time hframe :), hwin, ?_⟩
  rw [hframe]

end Sys2Proof.Machine.State

open Sys2Proof Sys2Proof.Machine Sys2Proof.Machine.State in
/-- Settles O21: the Sync that steps, the Syncs that steer, and HOLDOVER. -/
theorem syncSteersAndHoldoverFreezes : Obligations.SyncSteersAndHoldoverFreezes := by
  unfold Obligations.SyncSteersAndHoldoverFreezes
  refine ⟨fun s o interval hm h1 hi hl hp hk hf hst ho => ?_, fun s o interval hm h0 hi hl hp hk hs => ?_, fun s hs hi hl =>
    holdover_leaves hs hi hl⟩
  · obtain ⟨t, ht, htime, hframe⟩ := sync_steps hm hi hl hp hk ⟨hf, h1, hst, ho⟩
    refine ⟨t, ht, ?_, by rw [htime], by rw [htime], by rw [htime]; rfl, by rw [htime]; rfl, by rw [htime]; rfl, by rw [htime]; rfl,
      hframe⟩
    rw [htime]
    refine (timePlus_eq s (-o)).trans ?_
    rw [Int.neg_mul, Int.sub_eq_add_neg]
  · have hno : ¬ s.syncSteps o := by
      rintro ⟨h2, h3, h4, h5⟩
      simp only [h2, h3, h4, Bool.true_eq_false, ne_eq, not_true_eq_false, Bool.false_eq_true, false_or] at hs
      omega
    obtain ⟨t, term, c, sum, p, ht, htime, hframe⟩ := sync_steers hm h0 hi hl hp hk hno
    obtain ⟨hlo, hhi, hslew, hslew'⟩ := steeredRate_bounds s term
    have hrate : t.time.rate = s.steeredRate term := by rw [htime]
    rw [← hrate] at hlo hhi hslew hslew'
    refine ⟨t, s.slewLimit, ht, by rw [htime]; rfl, by rw [htime]; rfl, rfl, hlo, hhi, hslew, hslew', by rw [htime]; rfl, ?_,
      by rw [htime]; rfl, hframe⟩
    rw [htime]
    simp only [servoAfter, rowAfter]
    by_cases hsmall : o.natAbs < 100
    · simp only [hsmall, if_true, true_and]
    · simp [hsmall]
end

