-- ==== Sys2Proof/Proofs/IdleAndReset.lean ====
section
/-! SUPPORT. The idle step, one PTP clock cycle (R39), and the module right after reset (R40, R272, R402, R449, R465). -/

namespace Sys2Proof.Machine.State

/-! ## Frames that a cycle releases (R55, R56, R61) -/

/-- Low-power idle left as a wake begins. -/
def wakeBegun (s : State) (n w : Nat) : State :=
  if w ≤ s.now + s.lpiWake n then s.setLane n { s.lane n with txLpi := false } else s

/-- A wake that has begun or ended. -/
def wakeNow (s : State) (n w : Nat) : State :=
  if w ≤ s.now then (s.wakeBegun n w).setPort n { (s.wakeBegun n w).port n with wakeAt := none } else s.wakeBegun n w

theorem wakeBegun_onlySends (s : State) (n w : Nat) : onlySends s (s.wakeBegun n w) := by
  simp only [wakeBegun]
  split
  · rfl
  · rfl

theorem wakeNow_onlySends (s : State) (n w : Nat) : onlySends s (s.wakeNow n w) := by
  simp only [wakeNow]
  split
  · exact (wakeBegun_onlySends s n w).trans rfl
  · exact wakeBegun_onlySends s n w

/-- The frames held on a port, sent where they may be. -/
def releaseHeld (s : State) (n : Nat) : State :=
  if s.portOn n ∧ 0 < (s.port n).txHeld ∧ s.maySend n then
    (s.setPort n { s.port n with txHeld := 0 }).txNow n (s.port n).txHeld
  else s

theorem releaseHeld_onlySends (s : State) (n : Nat) : onlySends s (s.releaseHeld n) := by
  simp only [releaseHeld]
  split
  · rfl
  · rfl

theorem txRelease_onlySends (s : State) (n : Nat) : onlySends s (s.txRelease n) := by
  have he : s.txRelease n = s.releaseHeld n ∨ ∃ w, s.txRelease n = (s.wakeNow n w).releaseHeld n := by
    rw [txRelease]
    split
    · exact .inl rfl
    · rename_i w h
      exact .inr ⟨w, rfl⟩
  rcases he with he | ⟨w, he⟩
  · rw [he]
    exact releaseHeld_onlySends s n
  · rw [he]
    exact (wakeNow_onlySends s n w).trans (releaseHeld_onlySends _ n)

theorem txReleases_onlySends (s : State) (l : List Nat) : onlySends s (s.txReleases l) := by
  induction l generalizing s with
  | nil => rfl
  | cons n r ih => exact (txRelease_onlySends s n).trans (ih _)

/-! ## The clock cycle (R39) -/

/-- Module time one cycle later. -/
def cycleTime (s : State) : Nat :=
  if s.time.running then (((s.time.t : Int) + 2 * (nsUnit : Nat) + 2 * s.time.rate) % (timeWrap : Int)).toNat else s.time.t

/-- The clocks one cycle later. -/
def clocked (s : State) : State := { s with now := s.now + 2, time := { s.time with t := s.cycleTime } }

theorem clockTick_eq (s : State) : s.clockTick = s.clocked.txReleases s.clocked.waitingPorts := rfl

theorem cycleTime_running {s : State} (h : s.time.running = true) :
    (s.cycleTime : Int) = ((s.time.t : Int) + 2 * (2 ^ 48 + s.time.rate)) % (2 ^ 48 * 1000000000 * 2 ^ 48) := by
  rw [cycleTime, if_pos h, Int.toNat_of_nonneg (Int.emod_nonneg _ (by decide))]
  have hsum : (s.time.t : Int) + 2 * (nsUnit : Nat) + 2 * s.time.rate = (s.time.t : Int) + 2 * (2 ^ 48 + s.time.rate) := by
    simp only [nsUnit]; omega
  rw [hsum]; rfl

theorem inlineLine_frame (s : State) (p : Nat) : ∃ x m, s.inlineLine p = { s with pipes := x, bonded := m } := by
  simp only [inlineLine]
  split
  · exact ⟨s.pipes, s.bonded, rfl⟩
  · split
    · exact ⟨s.pipes, s.bonded, rfl⟩
    · split
      · exact ⟨s.pipes, s.bonded, rfl⟩
      · exact ⟨_, _, rfl⟩

theorem inlineLine_idle {s : State} {p : Nat} (h : (s.pipe p).busy = none) : s.inlineLine p = s := by
  rw [inlineLine, h]

/-- An idle step is a tick. -/
theorem step_idle {s : State} (h : s.pending = []) : step s = .next s.tick := by
  rw [step, h]

/-- A tick moves the clocks by one cycle. -/
theorem tick_clocks (s : State) : s.tick.now = s.now + 2 ∧ s.tick.time.t = s.cycleTime := by
  have hsends : onlySends s.clocked s.clockTick := by rw [clockTick_eq]; exact txReleases_onlySends _ _
  obtain ⟨x0, m0, h0⟩ := inlineLine_frame s.clockTick 0
  obtain ⟨x1, m1, h1⟩ := inlineLine_frame { s.clockTick with pipes := x0, bonded := m0 } 1
  obtain ⟨x2, m2, h2⟩ := inlineLine_frame { s.clockTick with pipes := x1, bonded := m1 } 2
  obtain ⟨x3, m3, h3⟩ := inlineLine_frame { s.clockTick with pipes := x2, bonded := m2 } 3
  have he : s.tick = { s.clockTick with pipes := x3, bonded := m3 } := by rw [tick, h0, h1, h2, h3]
  rw [onlySends] at hsends
  rw [he]
  exact ⟨(congrArg State.now hsends :), (congrArg (fun u : State => u.time.t) hsends :)⟩

/-- With no frame held and no block in progress, a tick moves the clocks only. -/
theorem tick_quiet {s : State} (hw : s.waitingPorts = []) (hp : ∀ p, (s.pipe p).busy = none) : s.tick = s.clocked := by
  have hclock : s.clockTick = s.clocked := by
    have hc : s.clocked.waitingPorts = [] := hw
    rw [clockTick_eq, hc, txReleases]
  have hi (p : Nat) : s.clocked.inlineLine p = s.clocked := inlineLine_idle (hp p)
  rw [tick, hclock, hi, hi, hi, hi]

/-! ## Reset (R272) -/

theorem engaged_of_heartbeat {s : State} (h : s.fs.heartbeat = true) (c : Nat) : s.engaged c = true := by
  rw [engaged, h, Bool.true_or, Bool.true_or]

end Sys2Proof.Machine.State

open Sys2Proof Sys2Proof.Machine Sys2Proof.Machine.State in
/-- Settles O2: an idle step is a tick. -/
theorem idleStepIsOneClockCycle : Obligations.IdleStepIsOneClockCycle := by
  unfold Obligations.IdleStepIsOneClockCycle
  refine ⟨fun s h => ?_, fun s h hw hp => ⟨s.cycleTime, (step_idle h).trans (congrArg Host.Outcome.next (tick_quiet hw hp))⟩⟩
  obtain ⟨hnow, htime⟩ := tick_clocks s
  refine ⟨s.tick, step_idle h, hnow, fun hr => ?_, fun hr => ?_⟩
  · rw [htime]
    exact cycleTime_running hr
  · rw [htime, cycleTime, hr, if_neg Bool.false_ne_true]

open Sys2Proof Sys2Proof.Machine Sys2Proof.Machine.State in
/-- Settles O5: the fields of the reset state, and fail-safe by the heartbeat on every output. -/
theorem resetIsLegalAndFailSafe : Obligations.ResetIsLegalAndFailSafe := by
  unfold Obligations.ResetIsLegalAndFailSafe
  exact ⟨by decide, rfl, rfl, rfl, rfl, rfl, rfl, rfl, engaged_of_heartbeat rfl, by decide, by decide, by decide⟩
end

