-- ==== Sys2Proof/Proofs/PortsAndLock.lean ====
section
/-! SUPPORT. Ports and their lanes (R47 to R54): the write of `PORTn_CFG`, the receiver's adaptation, block lock, and what a port
loses and counts. -/

namespace Sys2Proof.Machine

/-! ## Fields and bits of a word -/

/-- Words that agree on a field agree on its bits. -/
theorem bit_congr_of_bits {w v : Word} {hi lo k : Nat} (h : bits w hi lo = bits v hi lo) (h1 : lo ≤ k) (h2 : k ≤ hi) :
    bit w k = bit v k := by
  have ht := congrArg (Nat.testBit · (k - lo)) h
  have hlt : k - lo < hi + 1 - lo := by omega
  simpa only [bits_testBit, bit_eq, Nat.add_sub_cancel' h1, hlt, decide_true, Bool.true_and] using ht

namespace State

/-! ## Lanes changed together -/

/-- Lanes changed: each lane of the list as `f` makes it, and no other. -/
theorem mapLanes_leaves (s : State) (f : Lane → Lane) {l : List Nat} (hl : l.Nodup) :
    ∃ t, s.mapLanes f l = t ∧ (∀ m, t.lane m = if m ∈ l then f (s.lane m) else s.lane m) ∧ t = { s with lanes := t.lanes } := by
  induction l generalizing s with
  | nil => exact ⟨s, rfl, fun m => by simp, rfl⟩
  | cons n r ih =>
    obtain ⟨hn, hr⟩ := List.nodup_cons.1 hl
    obtain ⟨t, ht, hlane, hframe⟩ := ih (s.setLane n (f (s.lane n))) hr
    refine ⟨t, ht, fun m => ?_, hframe⟩
    rw [hlane]
    by_cases hm : m = n
    · subst hm; simp [hn]
    · simp [setLane_other _ _ _ _ hm, hm]

theorem lanesOf_nodup (s : State) (n : Nat) : (s.lanesOf n).Nodup := by
  simp only [lanesOf]
  split
  · simp
  · simp

/-- A port replaced, and its lanes changed. -/
theorem setPort_mapLanes_leaves (s : State) (n : Nat) (p : Port) (f : Lane → Lane) :
    ∃ t, (s.setPort n p).mapLanes f (s.lanesOf n) = t ∧ t.port n = p ∧ (∀ m, m ≠ n → t.port m = s.port m) ∧
      (∀ l, l ∈ s.lanesOf n → t.lane l = f (s.lane l)) ∧ (∀ l, l ∉ s.lanesOf n → t.lane l = s.lane l) ∧
      t = { s with ports := t.ports, lanes := t.lanes } := by
  obtain ⟨t, ht, hlane, hframe⟩ := mapLanes_leaves (s.setPort n p) f (s.lanesOf_nodup n)
  have hport (m : Nat) : t.port m = (s.setPort n p).port m := (congrArg (port · m) hframe :)
  refine ⟨t, ht, (hport n).trans (setPort_same s n p), fun m hm => (hport m).trans (setPort_other s n m p hm),
    fun l hl => (hlane l).trans (if_pos hl), fun l hl => (hlane l).trans (if_neg hl), ?_⟩
  rw [hframe]
  rfl

/-- A port whose receivers adapt again (R51, R52). -/
theorem hunt_leaves (s : State) (n : Nat) :
    ∃ t, s.hunt n = t ∧ t.port n = { s.port n with locked := false, remoteFault := false } ∧ (∀ m, m ≠ n → t.port m = s.port m) ∧
      (∀ l, l ∈ s.lanesOf n → t.lane l = { s.lane l with adapted := false }) ∧ (∀ l, l ∉ s.lanesOf n → t.lane l = s.lane l) ∧
      t = { s with ports := t.ports, lanes := t.lanes } :=
  setPort_mapLanes_leaves s n _ _

/-- A port that stops holds nothing; its lanes keep what their last eye point counted. -/
theorem stopPort_leaves (s : State) (n : Nat) :
    ∃ t, s.stopPort n = t ∧ t.port n = {} ∧ (∀ m, m ≠ n → t.port m = s.port m) ∧
      (∀ l, l ∈ s.lanesOf n → (t.lane l).adapted = false ∧ (t.lane l).txLpi = false ∧ (t.lane l).rxLpi = false) ∧
      (∀ l, l ∉ s.lanesOf n → t.lane l = s.lane l) ∧ t = { s with ports := t.ports, lanes := t.lanes } := by
  obtain ⟨t, ht, hport, hports, hlane, hlanes, hframe⟩ := setPort_mapLanes_leaves s n {}
    (fun l => { eyeBits := l.eyeBits, eyeErr := l.eyeErr, eyeDone := l.eyeDone, eyeShed := l.eyeShed })
  exact ⟨t, ht, hport, hports, fun l hl => by rw [hlane l hl]; exact ⟨rfl, rfl, rfl⟩, hlanes, hframe⟩

/-! ## What a port's own registers do not change -/

/-- A quad's mode reads as before where no register but one after those of the quads has changed. -/
theorem quadMode_congr {s u : State} {off q : Nat} (h : ∀ o, o ≠ off → u.reg o = s.reg o) (hq : q < 4) (ho : 0x231000 ≤ off) :
    u.quadMode q = s.quadMode q := congrArg (bits · 1 0) (h _ (by omega))

theorem wide100_congr {s u : State} {off n : Nat} (h : ∀ o, o ≠ off → u.reg o = s.reg o) (hn : n < 16) (ho : 0x231000 ≤ off) :
    u.wide100 n = s.wide100 n := by rw [wide100, wide100, quadMode_congr h (by omega) ho]

theorem portPresent_congr {s u : State} {off n : Nat} (h : ∀ o, o ≠ off → u.reg o = s.reg o) (hn : n < 16) (ho : 0x231000 ≤ off) :
    u.portPresent n = s.portPresent n := by rw [portPresent, portPresent, quadMode_congr h (by omega) ho]

theorem lanesOf_congr {s u : State} {off n : Nat} (h : ∀ o, o ≠ off → u.reg o = s.reg o) (hn : n < 16) (ho : 0x231000 ≤ off) :
    u.lanesOf n = s.lanesOf n := by rw [lanesOf, lanesOf, wide100_congr h hn ho]

theorem portOff_ge (n : Nat) : 0x231000 ≤ portOff n := by simp only [portOff]; omega

/-! ## `PORTn_CFG` (R49, R57, R446) -/

/-- The register's entry in the map. -/
def portSpec : RegSpec :=
  { delta := 0, reset := 0x2580#32, code := 0x1201#16, fields :=
      [fldC .rwl 13 0 64 9600, Machine.fld .rw 14 14, Machine.fld .rwl 23 16, Machine.fld .rw 24 24, Machine.fld .rw 25 25,
       Machine.fld .rw 27 26, Machine.fld .rwl 28 28, fldE .rwl 30 29 [3], Machine.fld .rw 31 31] }

theorem regSpec_port (n : Fin 16) : regSpec (portOff n) = some portSpec := by revert n; decide

/-- What a write leaves in EN, LPI, RATE and, where it is not reserved, FEC, while the module is not sealed. -/
theorem portCfg_leaves {s : State} (n : Fin 16) (v : Word) (hs : s.sealed = false) :
    ∃ u, s.writeFields (portOff n) 0x02 n v = u ∧ u.flag (portOff n) 31 = bit v 31 ∧ u.fld (portOff n) 27 26 = bits v 27 26 ∧
      u.fld (portOff n) 28 28 = bits v 28 28 ∧ (bits v 30 29 ≠ 3 → u.fld (portOff n) 30 29 = bits v 30 29) ∧
      (∀ o, o ≠ portOff n → u.reg o = s.reg o) ∧ u = { s with regs := u.regs, log := u.log } := by
  have hoff : portOff n ≠ 0x200010 := by simp only [portOff]; omega
  obtain ⟨u, hu, hfield, hother, hframe⟩ :=
    writeFields_leaves (s := s) 0x02 n v (regSpec_port n) hoff (by decide) (.inl hs)
  refine ⟨u, hu, bit_eq_of_bits ?_, ?_, ?_, fun h => ?_, hother, hframe⟩
  · exact hfield (Machine.fld .rw 31 31) (by decide) ⟨.inl rfl, .inl rfl⟩
  · exact hfield (Machine.fld .rw 27 26) (by decide) ⟨.inl rfl, .inl rfl⟩
  · exact hfield (Machine.fld .rwl 28 28) (by decide) ⟨.inr ⟨rfl, hs⟩, .inl rfl⟩
  · exact hfield (fldE .rwl 30 29 [3]) (by decide) ⟨.inr ⟨rfl, hs⟩, .inr ⟨[3], rfl, by simpa [fldE] using h⟩⟩

/-- RATE, FEC and LPI together. -/
theorem bits_rateFecLpi (w : Word) : bits w 30 26 = bits w 27 26 + 4 * bits w 28 28 + 8 * bits w 30 29 := by
  simp only [bits]
  omega

/-- Low-power idle asked for only where it may be is not refused (R57). -/
theorem lpiRefuse_eq_self {s : State} {n : Nat} (old : Word) (htx : s.flag (portOff n) 26 = true → (s.lpiBars n).1 = false)
    (hrx : s.flag (portOff n) 27 = true → (s.lpiBars n).2 = false) : s.lpiRefuse n old = s := by
  have h26 : ((s.lpiBars n).1 && (s.flag (portOff n) 26 && !bit old 26)) = false := by
    cases h : s.flag (portOff n) 26
    · simp
    · simp [htx h]
  have h27 : ((s.lpiBars n).2 && (s.flag (portOff n) 27 && !bit old 27)) = false := by
    cases h : s.flag (portOff n) 27
    · simp
    · simp [hrx h]
  simp only [lpiRefuse, h26, h27, Bool.or_self, Bool.false_eq_true, if_false]

/-- Low-power idle refused: EN and every other register are as before. -/
theorem lpiRefuse_leaves (s : State) (n : Nat) (old : Word) :
    ∃ t, s.lpiRefuse n old = t ∧ t.flag (portOff n) 31 = s.flag (portOff n) 31 ∧ (∀ o, o ≠ portOff n → t.reg o = s.reg o) ∧
      t = { s with regs := t.regs, log := t.log } := by
  simp only [lpiRefuse]
  split
  · obtain ⟨l, hl, -⟩ := reportLast_frame s 0x1204#16 2 (portOff n) 27 26 (s.fld (portOff n) 27 26)
      (s.fld (portOff n) 27 26 - (if (s.lpiBars n).1 && (s.flag (portOff n) 26 && !bit old 26) then 1 else 0) -
        (if (s.lpiBars n).2 && (s.flag (portOff n) 27 && !bit old 27) then 2 else 0)) 0x02 n
    rw [hl]
    refine ⟨_, rfl, ?_, fun o ho => setFld_reg_other _ _ _ _ _ _ ho, rfl⟩
    rw [flag, setFld_reg_same]
    exact bit_putBits_other _ 27 26 _ 31 (by omega) (by omega) (by omega)
  · exact ⟨s, rfl, rfl, fun _ _ => rfl, rfl⟩

/-- What may be set in low-power idle does not rest on the port's own register. -/
theorem lpiBars_congr {s u : State} {n : Fin 16} (h : ∀ o, o ≠ portOff n → u.reg o = s.reg o) (hq : u.qps = s.qps) :
    u.lpiBars n = s.lpiBars n := by
  have hservo : u.fld 0x220048 5 2 = s.fld 0x220048 5 2 := congrArg (bits · 5 2) (h _ (by simp only [portOff]; omega))
  rw [lpiBars, lpiBars, hservo, wide100_congr h n.isLt (portOff_ge n), carriesCulvert, carriesCulvert, hq]

theorem portEnable_exec {s : State} {n : Fin 16} (v : Word) (ha : s.answers 0 (portOff n) = true) :
    exec (.portEnable n v) s = .next (s.portEnableEff n v) := congrArg Host.Outcome.next (gate_answers s 0 (portOff n) v _ ha)

/-- EN written to a port that is off, with settings that its rate and place allow. -/
theorem portEnable_starts {s : State} {n : Fin 16} {v : Word} (hp : s.portPresent n = true)
    (hs : s.sealed = false) (hoff : s.flag (portOff n) 31 = false) (hon : bit v 31 = true) (hfec : bits v 30 29 ≠ 3)
    (hrate : s.wide100 n = true ∨ bit v 28 = true ∨ bits v 30 29 = 0) (htx : bit v 26 = true → (s.lpiBars n).1 = false)
    (hrx : bit v 27 = true → s.wide100 n = false) :
    ∃ t, s.portEnableEff n v = t ∧ t.portOn n = true ∧ t.port n = { idleSince := s.now } ∧
      t.fld (portOff n) 30 26 = bits v 30 26 ∧
      (∀ l, l ∈ s.lanesOf n → (t.lane l).adapted = false) ∧ (∀ l, l ∉ s.lanesOf n → t.lane l = s.lane l) ∧
      (∀ m, m ≠ n.val → t.port m = s.port m) ∧ (∀ o, o ≠ portOff n → t.reg o = s.reg o) ∧
      t = { s with regs := t.regs, ports := t.ports, lanes := t.lanes, log := t.log } := by
  obtain ⟨u, hu, h31, hlpi, h28, hfec', hregs, hframe⟩ := portCfg_leaves n v hs
  replace hfec' := hfec' hfec
  have hbars : u.lpiBars n = s.lpiBars n := lpiBars_congr hregs (congrArg State.qps hframe :)
  have hwide := wide100_congr hregs n.isLt (portOff_ge n)
  have hself : u.lpiRefuse n (s.reg (portOff n)) = u := by
    refine lpiRefuse_eq_self _ (fun h => ?_) fun h => ?_
    · rw [hbars]
      exact htx ((bit_congr_of_bits hlpi (by omega) (by omega)).symm.trans h)
    · rw [hbars]
      exact hrx ((bit_congr_of_bits hlpi (by omega) (by omega)).symm.trans h)
  have hok : u.fecOk n = true := by
    have h25 : u.rate25 n = bit v 28 := bit_eq_of_bits h28
    rw [fecOk, hwide, h25, hfec']
    rcases hrate with h | h | h <;> simp [h]
  have he : s.portEnableEff n v = (u.setPort n { idleSince := u.now }).hunt n := by
    have hold : bit (s.reg (portOff n)) 31 = false := hoff
    simp only [portEnableEff, hp, hu, hself, h31, hon, hold, hfec, hok, not_true_eq_false, false_and, if_false, Bool.false_eq_true,
      not_false_eq_true, if_true]
  obtain ⟨t, ht, hport, hports, hlane, hlanes, hframe'⟩ := hunt_leaves (u.setPort n { idleSince := u.now }) n
  have hlanesOf : (u.setPort n { idleSince := u.now }).lanesOf n = s.lanesOf n := lanesOf_congr hregs n.isLt (portOff_ge n)
  have hlane_u (l : Nat) : u.lane l = s.lane l := (congrArg (lane · l) hframe :)
  have hport_u (m : Nat) : u.port m = s.port m := (congrArg (port · m) hframe :)
  have hnow : u.now = s.now := (congrArg State.now hframe :)
  have hreg_t (o : Nat) : t.reg o = u.reg o := (congrArg (reg · o) hframe' :)
  rw [hlanesOf] at hlane hlanes
  refine ⟨t, he.trans ht, ?_, ?_, ?_, fun l hl => by rw [hlane l hl], fun l hl => (hlanes l hl).trans (hlane_u l),
    fun m hm => ((hports m hm).trans (setPort_other _ _ _ _ hm)).trans (hport_u m), fun o ho => (hreg_t o).trans (hregs o ho), ?_⟩
  · have hregs' : ∀ o, o ≠ portOff n → t.reg o = s.reg o := fun o ho => (hreg_t o).trans (hregs o ho)
    rw [portOn, portPresent_congr hregs' n.isLt (portOff_ge n), hp, flag, hreg_t]
    exact h31.trans hon
  · rw [hport, setPort_same, hnow]
  · rw [fld, hreg_t, bits_rateFecLpi, bits_rateFecLpi]
    exact congrArg₂ (· + 8 * ·) (congrArg₂ (· + 4 * ·) hlpi h28) hfec'
  · rw [hframe', hframe]
    rfl

/-- EN cleared on a port that is enabled. -/
theorem portEnable_stops {s : State} {n : Fin 16} {v : Word} (hp : s.portPresent n = true)
    (hs : s.sealed = false) (hon : s.flag (portOff n) 31 = true) (hoff : bit v 31 = false) :
    ∃ t, s.portEnableEff n v = t ∧ t.portOn n = false ∧ t.port n = {} ∧
      (∀ l, l ∈ s.lanesOf n → (t.lane l).adapted = false ∧ (t.lane l).txLpi = false ∧ (t.lane l).rxLpi = false) ∧
      (∀ l, l ∉ s.lanesOf n → t.lane l = s.lane l) ∧
      (∀ m, m ≠ n.val → t.port m = s.port m) ∧ (∀ o, o ≠ portOff n → t.reg o = s.reg o) ∧
      t = { s with regs := t.regs, ports := t.ports, lanes := t.lanes, log := t.log } := by
  obtain ⟨w, hw, h31, -, -, -, hregs, hframe⟩ := portCfg_leaves n v hs
  obtain ⟨u, hu, h31', hregs', hframe'⟩ := lpiRefuse_leaves w n (s.reg (portOff n))
  obtain ⟨t, ht, hport, hports, hlane, hlanes, hframe''⟩ := stopPort_leaves u n
  have hflag : u.flag (portOff n) 31 = false := (h31'.trans h31).trans hoff
  have he : s.portEnableEff n v = t := by
    have hold : bit (s.reg (portOff n)) 31 = true := hon
    simp only [portEnableEff, hp, hw, hu, hflag, hold, ht, not_true_eq_false, if_false, Bool.false_eq_true, not_false_eq_true,
      if_true]
  have hregs_u : ∀ o, o ≠ portOff n → u.reg o = s.reg o := fun o ho => (hregs' o ho).trans (hregs o ho)
  have hframe_u : u = { s with regs := u.regs, log := u.log } := by rw [hframe', hframe]
  have hreg_t (o : Nat) : t.reg o = u.reg o := (congrArg (reg · o) hframe'' :)
  have hlane_u (l : Nat) : u.lane l = s.lane l := (congrArg (lane · l) hframe_u :)
  have hport_u (m : Nat) : u.port m = s.port m := (congrArg (port · m) hframe_u :)
  rw [lanesOf_congr hregs_u n.isLt (portOff_ge n)] at hlane hlanes
  refine ⟨t, he, ?_, hport, hlane, fun l hl => (hlanes l hl).trans (hlane_u l), fun m hm => (hports m hm).trans (hport_u m),
    fun o ho => (hreg_t o).trans (hregs_u o ho), ?_⟩
  · have hflag_t : t.flag (portOff n) 31 = false := (congrArg (bit · 31) (hreg_t _)).trans hflag
    rw [portOn, hflag_t, Bool.and_false]
  · rw [hframe'', hframe_u]

/-! ## Adaptation and block lock (R48, R51, R52) -/

/-- The lane that ADAPT leaves: the taps track an adapted lane unless they are frozen; another lane is adapted. -/
def adaptedLane (s : State) (n : Nat) (ctle : Nat) (taps : BitVec 30) : Lane :=
  if (s.lane n).adapted then (if s.fld (laneOff n) 9 8 = 1 then s.lane n else { s.lane n with dfe := taps })
  else { s.lane n with
    ctle := if s.fld (laneOff n) 9 8 = 2 then s.fld (laneOff n) 15 12 else ctle, dfe := taps, adapted := true, signal := true, cdr := true }

theorem adaptEff_leaves {s : State} {n : Nat} (ctle : Nat) (taps : BitVec 30) (hon : s.laneOn n = true)
    (hq : (s.lane n).rxLpi = false) :
    ∃ t, s.adaptEff n ctle taps = t ∧ t.lane n = s.adaptedLane n ctle taps ∧ (∀ m, m ≠ n → t.lane m = s.lane m) ∧
      t = { s with lanes := t.lanes } := by
  have put (l : Lane) : ∃ t, s.setLane n l = t ∧ t.lane n = l ∧ (∀ m, m ≠ n → t.lane m = s.lane m) ∧ t = { s with lanes := t.lanes } :=
    ⟨_, rfl, setLane_same s n l, fun m hm => setLane_other s n m l hm, rfl⟩
  simp only [adaptEff, adaptedLane, hon, hq, not_true_eq_false, Bool.false_eq_true, or_self, if_false]
  split
  · split
    · exact ⟨s, rfl, rfl, fun _ _ => rfl, rfl⟩
    · exact put _
  · exact put _

/-- A port whose lanes have all adapted: block lock, or 0x2201 where the lanes of a 100GBASE-R port are too far apart. -/
theorem blockLockEff_eq {s : State} {n : Nat} (skew : Nat) (remote : Bool) (hon : s.portOn n = true)
    (hl : ∀ l, l ∈ s.lanesOf n → (s.lane l).adapted = true) :
    s.blockLockEff n skew remote =
      if s.wide100 n ∧ 180000 < skew then s.raise 0x2201#16 0x02 n
      else s.setPort n { s.port n with locked := true, remoteFault := remote } := by
  have hall : (s.lanesOf n).all (fun l => (s.lane l).adapted) = true := List.all_eq_true.2 hl
  rw [blockLockEff, if_pos ⟨hon, hall⟩]

/-! ## A loss counted, and its code raised -/

theorem bump_raise_leaves (s : State) (o : Nat) (c : Half) (k i : Nat) :
    ∃ t, (s.bump o 1).raise c k i = t ∧ t.counter o = satAdd (s.counter o) 1 ∧ (∀ p, p ≠ o → t.counter p = s.counter p) ∧
      t.codeWindow c k i = true ∧ t = { s with counters := t.counters, log := t.log } := by
  obtain ⟨t, ht, -, hwin, hframe⟩ := raise_leaves (s.bump o 1) c k i 1 []
  have hcount (p : Nat) : t.counter p = (s.bump o 1).counter p := (congrArg (counter · p) hframe :)
  refine ⟨t, ht, (hcount o).trans (bump_same ..), fun p hp => (hcount p).trans (bump_other _ _ _ _ hp), hwin, ?_⟩
  rw [hframe]
  rfl

/-! ## Losses (R50, R53, R54) -/

/-- The lanes of a port that has lost lock lose signal and CDR where the receive amplitude has gone (R50). -/
def amplitudeAfter (s : State) (n : Nat) (amp : Bool) : State :=
  if amp then s else s.mapLanes (fun l => { l with signal := false, cdr := false }) (s.lanesOf n)

theorem amplitudeAfter_leaves (s : State) (n : Nat) (amp : Bool) :
    ∃ t, s.amplitudeAfter n amp = t ∧
      (∀ l, l ∈ s.lanesOf n → t.lane l = { s.lane l with signal := (s.lane l).signal && amp, cdr := (s.lane l).cdr && amp }) ∧
      (∀ l, l ∉ s.lanesOf n → t.lane l = s.lane l) ∧ t = { s with lanes := t.lanes } := by
  cases amp with
  | true => exact ⟨s, rfl, fun l _ => by simp, fun _ _ => rfl, rfl⟩
  | false =>
    obtain ⟨t, ht, hlane, hframe⟩ := mapLanes_leaves s (fun l => { l with signal := false, cdr := false }) (s.lanesOf_nodup n)
    exact ⟨t, ht, fun l hl => by simp [hlane, hl], fun l hl => by simp [hlane, hl], hframe⟩

theorem blockLockLossEff_eq {s : State} {n : Nat} (amp : Bool) (hon : s.portOn n = true) (hk : (s.port n).locked = true)
    (hq : (s.lane n).rxLpi = false) :
    s.blockLockLossEff n amp = (((s.amplitudeAfter n amp).hunt n).bump (portOff n + 0x2C) 1).raise 0x2201#16 0x02 n :=
  if_pos ⟨hon, hk, by simp [rxQuiet, hq]⟩

theorem blockLockLossEff_leaves {s : State} {n : Nat} (amp : Bool) (hon : s.portOn n = true) (hk : (s.port n).locked = true)
    (hq : (s.lane n).rxLpi = false) :
    ∃ t, s.blockLockLossEff n amp = t ∧ t.port n = { s.port n with locked := false, remoteFault := false } ∧
      (∀ l, l ∈ s.lanesOf n → t.lane l = { s.lane l with
        adapted := false, signal := (s.lane l).signal && amp, cdr := (s.lane l).cdr && amp }) ∧
      (∀ l, l ∉ s.lanesOf n → t.lane l = s.lane l) ∧ (∀ m, m ≠ n → t.port m = s.port m) ∧
      t.counter (portOff n + 0x2C) = satAdd (s.counter (portOff n + 0x2C)) 1 ∧ t.codeWindow 0x2201#16 0x02 n = true ∧
      t = { s with ports := t.ports, lanes := t.lanes, counters := t.counters, log := t.log } := by
  obtain ⟨u, hu, hlane, hlanes, hframe⟩ := amplitudeAfter_leaves s n amp
  obtain ⟨w, hw, hport, hports, hlane', hlanes', hframe'⟩ := hunt_leaves u n
  have hlanesOf : u.lanesOf n = s.lanesOf n := (congrArg (lanesOf · n) hframe :)
  have hport_u (m : Nat) : u.port m = s.port m := (congrArg (port · m) hframe :)
  have hframe_w : w = { s with ports := w.ports, lanes := w.lanes } := by rw [hframe', hframe]
  have hcount : w.counter (portOff n + 0x2C) = s.counter (portOff n + 0x2C) := (congrArg (counter · _) hframe_w :)
  obtain ⟨t, ht, hcount', -, hwin, hframe''⟩ := bump_raise_leaves w (portOff n + 0x2C) 0x2201#16 0x02 n
  have hport_t (m : Nat) : t.port m = w.port m := (congrArg (port · m) hframe'' :)
  have hlane_t (l : Nat) : t.lane l = w.lane l := (congrArg (lane · l) hframe'' :)
  rw [hlanesOf] at hlane' hlanes'
  refine ⟨t, ?_, ?_, fun l hl => ?_, fun l hl => ?_, fun m hm => ?_, hcount'.trans (congrArg (satAdd · 1) hcount), hwin, ?_⟩
  · rw [blockLockLossEff_eq amp hon hk hq, hu, hw, ht]
  · rw [hport_t, hport, hport_u]
  · rw [hlane_t, hlane' l hl, hlane l hl]
  · rw [hlane_t, hlanes' l hl, hlanes l hl]
  · rw [hport_t, hports m hm, hport_u]
  · rw [hframe'', hframe_w]

theorem hiBerEnterEff_leaves {s : State} {n : Nat} (hon : s.portOn n = true) (hk : (s.port n).locked = true)
    (hb : (s.port n).hiBer = false) (hq : (s.lane n).rxLpi = false) :
    ∃ t, s.hiBerEnterEff n = t ∧ t.port n = { s.port n with hiBer := true } ∧ (∀ m, m ≠ n → t.port m = s.port m) ∧
      t.counter (portOff n + 0x30) = satAdd (s.counter (portOff n + 0x30)) 1 ∧ t.codeWindow 0x2202#16 0x02 n = true ∧
      t = { s with ports := t.ports, counters := t.counters, log := t.log } := by
  obtain ⟨t, ht, hcount, -, hwin, hframe⟩ :=
    bump_raise_leaves (s.setPort n { s.port n with hiBer := true }) (portOff n + 0x30) 0x2202#16 0x02 n
  have hport (m : Nat) : t.port m = (s.setPort n { s.port n with hiBer := true }).port m := (congrArg (port · m) hframe :)
  refine ⟨t, ?_, (hport n).trans (setPort_same ..), fun m hm => (hport m).trans (setPort_other _ _ _ _ hm), hcount, hwin, ?_⟩
  · rw [← ht]
    exact if_pos ⟨hon, hk, by simp [hb], by simp [rxQuiet, hq]⟩
  · rw [hframe]
    rfl

theorem hiBerClearEff_leaves {s : State} {n : Nat} (hon : s.portOn n = true) (hq : (s.lane n).rxLpi = false) :
    ∃ t, s.hiBerClearEff n = t ∧ t.port n = { s.port n with hiBer := false } ∧ (∀ m, m ≠ n → t.port m = s.port m) ∧
      t = { s with ports := t.ports } :=
  ⟨_, if_pos ⟨hon, by simp [rxQuiet, hq]⟩, setPort_same s n _, fun m hm => setPort_other s n m _ hm, rfl⟩

/-- The FEC of a port corrects what a codeword holds (R54). -/
def fecCorrects (s : State) (n errors : Nat) (correctable : Bool) : Bool :=
  if s.wide100 n || decide (s.fld (portOff n) 30 29 = 2) then decide (errors ≤ 7) else correctable

/-- A codeword with errors, on a locked port that has a FEC. -/
theorem fecCodewordEff_eq {s : State} {n errors : Nat} (c : Bool) (hon : s.portOn n = true) (hk : (s.port n).locked = true)
    (hfec : s.wide100 n = true ∨ s.fld (portOff n) 30 29 ≠ 0) (he : 1 ≤ errors) :
    s.fecCodewordEff n errors c =
      if s.fecCorrects n errors c then s.bump (portOff n + 0x34) 1
      else (s.bump (portOff n + 0x38) 1).raise 0x2203#16 0x02 n := by
  have hgo : ¬(¬s.portOn n = true ∨ ¬(s.port n).locked = true ∨ (¬s.wide100 n = true ∧ s.fld (portOff n) 30 29 = 0) ∨ errors = 0) := by
    rintro (h | h | ⟨hw, hm⟩ | h)
    · exact h hon
    · exact h hk
    · exact hfec.elim hw (· hm)
    · omega
  exact if_neg hgo

/-- What the two FECs correct: RS-FEC up to 7 symbol errors, Clause 74 what it tells of. -/
theorem fecCorrects_eq {s : State} {n errors : Nat} {c b : Bool}
    (h : (s.wide100 n = true ∨ s.fld (portOff n) 30 29 = 2) ∧ decide (errors ≤ 7) = b ∨
      s.wide100 n = false ∧ s.fld (portOff n) 30 29 = 1 ∧ c = b) :
    s.fecCorrects n errors c = b ∧ (s.wide100 n = true ∨ s.fld (portOff n) 30 29 ≠ 0) := by
  obtain ⟨hrs, hb⟩ | ⟨hw, hm, hb⟩ := h
  · refine ⟨?_, hrs.imp_right (by omega)⟩
    rw [fecCorrects, if_pos (by simpa using hrs), hb]
  · refine ⟨?_, .inr (by omega)⟩
    rw [fecCorrects, if_neg (by simp [hw, hm]), hb]

end State
end Sys2Proof.Machine

open Sys2Proof Sys2Proof.Machine Sys2Proof.Machine.State in
/-- Settles O22: EN written and cleared, a lane's adaptation, and block lock with its lanes within the skew and not. -/
theorem portHuntsAdaptsAndLocks : Obligations.PortHuntsAdaptsAndLocks := by
  unfold Obligations.PortHuntsAdaptsAndLocks
  refine ⟨fun s n v ha hp hs hoff hon hfec hrate htx hrx => ?_, fun s n v ha hp hs hon hoff => ?_, fun s n c taps hon hq => ?_,
    fun s n skew remote hon hl hskew => ?_, fun s n skew remote hon hl hw hskew => ?_⟩
  · obtain ⟨t, ht, h⟩ := portEnable_starts hp hs hoff hon hfec hrate htx hrx
    exact ⟨t, (portEnable_exec v ha).trans (congrArg Host.Outcome.next ht), h⟩
  · obtain ⟨t, ht, h⟩ := portEnable_stops hp hs hon hoff
    exact ⟨t, (portEnable_exec v ha).trans (congrArg Host.Outcome.next ht), h⟩
  · obtain ⟨t, ht, hlane, hlanes, hframe⟩ := adaptEff_leaves c taps hon hq
    exact ⟨t, congrArg Host.Outcome.next ht, hlane, hlanes, hframe⟩
  · have he := (blockLockEff_eq skew remote hon hl).trans (if_neg fun h => by rcases hskew with hw | hle; simp [hw] at h; omega)
    exact ⟨_, congrArg Host.Outcome.next he, setPort_same s n _, fun m hm => setPort_other s n m _ hm, rfl⟩
  · have he := (blockLockEff_eq skew remote hon hl).trans (if_pos ⟨hw, hskew⟩)
    exact ⟨_, congrArg Host.Outcome.next he, codeWindow_raise_same .., rfl⟩

open Sys2Proof Sys2Proof.Machine Sys2Proof.Machine.State in
/-- Settles O23: lock lost, hi_ber entered and left, and codewords that the FEC corrects and does not. -/
theorem portLossesAreCounted : Obligations.PortLossesAreCounted := by
  unfold Obligations.PortLossesAreCounted
  refine ⟨fun s n amp hon hk hq => ?_, fun s n hon hk hb hq => ?_, fun s n hon hq => ?_, fun s n errors c hon hk h1 hfec => ?_,
    fun s n errors c hon hk h1 hfec => ?_⟩
  · obtain ⟨t, ht, h⟩ := blockLockLossEff_leaves amp hon hk hq
    exact ⟨t, congrArg Host.Outcome.next ht, h⟩
  · obtain ⟨t, ht, h⟩ := hiBerEnterEff_leaves hon hk hb hq
    exact ⟨t, congrArg Host.Outcome.next ht, h⟩
  · obtain ⟨t, ht, h⟩ := hiBerClearEff_leaves hon hq
    exact ⟨t, congrArg Host.Outcome.next ht, h⟩
  · obtain ⟨hc, hon'⟩ := fecCorrects_eq (errors := errors) (b := true) (hfec.imp_left fun h => ⟨h.1, decide_eq_true h.2⟩)
    exact congrArg Host.Outcome.next ((fecCodewordEff_eq c hon hk hon' h1).trans (if_pos hc))
  · obtain ⟨hc, hon'⟩ := fecCorrects_eq (errors := errors) (b := false) (hfec.imp_left fun h => ⟨h.1, decide_eq_false (by omega)⟩)
    obtain ⟨t, ht, hcount, hcounts, hwin, hframe⟩ := bump_raise_leaves s (portOff n + 0x38) 0x2203#16 0x02 n
    have he := (fecCodewordEff_eq c hon hk hon' h1).trans (if_neg (by simp [hc]))
    exact ⟨t, congrArg Host.Outcome.next (he.trans ht), hcount, hcounts _ (by omega), hwin, hframe⟩
end

