-- ==== Sys2Proof/Proofs/PllAndIdle.lean ====
section
/-! SUPPORT. Transmit PLLs and low-power idle (R55 to R57): which lanes a PLL holds up, and how a port enters low-power idle,
refreshes, wakes and sends what it held. -/

namespace Sys2Proof.Machine.State

/-! ## Transmit PLLs (R50, R55) -/

theorem mem_pllLanes {s : State} {q l : Nat} {fast : Bool} :
    l ∈ s.pllLanes q fast ↔ l / 4 = q ∧ s.laneOn l = true ∧ s.fastPll l = fast := by
  simp only [pllLanes, List.mem_filter, List.mem_cons, List.not_mem_nil, or_false, Bool.and_eq_true, beq_iff_eq]
  have : (l = 4 * q ∨ l = 4 * q + 1 ∨ l = 4 * q + 2 ∨ l = 4 * q + 3) ↔ l / 4 = q := by omega
  rw [this]

/-- A lane in use on a PLL is locked where that PLL is not out. -/
theorem pllLock_of_mem {s t : State} {q l : Nat} {fast : Bool} (ht : ∀ m, t.laneOn m = s.laneOn m ∧ t.fastPll m = s.fastPll m)
    (hl : l ∈ s.pllLanes q fast) : t.pllLock l = !t.pllOut.contains (q, fast) := by
  obtain ⟨hq, hon, hfast⟩ := mem_pllLanes.1 hl
  rw [pllLock, (ht l).1, (ht l).2, hq, hfast, hon, Bool.true_and]

/-- A lane that is not on a PLL keeps its lock while no other PLL changes. -/
theorem pllLock_of_not_mem {s t : State} {q l : Nat} {fast : Bool} (ht : ∀ m, t.laneOn m = s.laneOn m ∧ t.fastPll m = s.fastPll m)
    (hout : ∀ x, x ≠ (q, fast) → t.pllOut.contains x = s.pllOut.contains x) (hl : l ∉ s.pllLanes q fast) :
    t.pllLock l = s.pllLock l := by
  rw [pllLock, pllLock, (ht l).1, (ht l).2]
  cases hon : s.laneOn l
  · rfl
  · rw [hout]
    rintro he
    obtain ⟨hq, hfast⟩ := Prod.mk.inj he
    exact hl (mem_pllLanes.2 ⟨hq, hon, hfast⟩)

theorem txPllUnlockEff_leaves {s : State} {q : Nat} {fast : Bool} (hl : s.pllLanes q fast ≠ []) (hq : (q, fast) ∉ s.pllOut) :
    ∃ t, s.txPllUnlockEff q fast = t ∧ (∀ l, l ∈ s.pllLanes q fast → t.pllLock l = false) ∧
      (∀ l, l ∉ s.pllLanes q fast → t.pllLock l = s.pllLock l) ∧ t.codeWindow 0x5201#16 0x02 (0x20 + q) = true ∧
      t = { s with pllOut := t.pllOut, log := t.log } := by
  obtain ⟨t, ht, -, hwin, hframe⟩ := raise_leaves { s with pllOut := s.pllOut ++ [(q, fast)] } 0x5201#16 0x02 (0x20 + q) 1 []
  have hlanes (m : Nat) : t.laneOn m = s.laneOn m ∧ t.fastPll m = s.fastPll m := by rw [hframe]; exact ⟨rfl, rfl⟩
  have hout : t.pllOut = s.pllOut ++ [(q, fast)] := (congrArg State.pllOut hframe :)
  refine ⟨t, ?_, fun l hl => ?_, fun l hl => pllLock_of_not_mem hlanes (fun x hx => ?_) hl, hwin, ?_⟩
  · rw [← ht]
    exact if_neg (by simp [hl, hq])
  · rw [pllLock_of_mem hlanes hl, hout]
    simp
  · simp [hout, hx]
  · rw [hframe]

/-- With nothing held back and no wake under way, time releases nothing on a port. -/
theorem txRelease_quiet {s : State} {n : Nat} (hh : (s.port n).txHeld = 0) (hw : (s.port n).wakeAt = none) : s.txRelease n = s := by
  simp [txRelease, hh, hw]

theorem txReleases_quiet {s : State} (h : ∀ n, (s.port n).txHeld = 0 ∧ (s.port n).wakeAt = none) (l : List Nat) :
    s.txReleases l = s := by
  induction l with
  | nil => rfl
  | cons n r ih => rw [txReleases, txRelease_quiet (h n).1 (h n).2, ih]

theorem txPllRelockEff_leaves (s : State) (q : Nat) (fast : Bool) :
    ∃ t, s.txPllRelockEff q fast = t ∧ (∀ l, l ∈ s.pllLanes q fast → t.pllLock l = true) ∧
      (∀ l, l ∉ s.pllLanes q fast → t.pllLock l = s.pllLock l) ∧
      t = { s with pllOut := t.pllOut, ports := t.ports, lanes := t.lanes, counters := t.counters } ∧
      ((∀ n, (s.port n).txHeld = 0 ∧ (s.port n).wakeAt = none) → t = { s with pllOut := t.pllOut }) := by
  let u : State := { s with pllOut := without s.pllOut (q, fast) }
  obtain ⟨t, ht⟩ : ∃ t, u.txReleases [4 * q, 4 * q + 1, 4 * q + 2, 4 * q + 3] = t := ⟨_, rfl⟩
  have hframe : onlySends u t := by rw [← ht]; exact txReleases_onlySends u _
  rw [onlySends] at hframe
  have hlanes (m : Nat) : t.laneOn m = s.laneOn m ∧ t.fastPll m = s.fastPll m := by rw [hframe]; exact ⟨rfl, rfl⟩
  have hout : t.pllOut = s.pllOut.filter (fun y => y ≠ (q, fast)) := (congrArg State.pllOut hframe :)
  refine ⟨t, ht, fun l hl => ?_, fun l hl => pllLock_of_not_mem hlanes (fun x hx => ?_) hl, ?_, fun hquiet => ?_⟩
  · rw [pllLock_of_mem hlanes hl, hout]
    simp
  · simp [hout, hx]
  · rw [hframe]
  · have hu : t = u := ht.symm.trans (txReleases_quiet (s := u) hquiet _)
    rw [hu]

/-! ## Frames going out: what a port's own sending changes (R55, R56, R61) -/

/-- `t` is `s` with frames sent or held on port `n`: of the port, the frames held, the wake and the idle time change, and of the
counters that of frames sent. -/
structure SendsOn (n : Nat) (s t : State) : Prop where
  rest : onlySends s t
  ports : ∀ m, m ≠ n → t.port m = s.port m
  counters : ∀ o, o ≠ portOff n + 0x14 → t.counter o = s.counter o
  port : t.port n = { s.port n with
    idleSince := (t.port n).idleSince, wakeAt := (t.port n).wakeAt, txHeld := (t.port n).txHeld }

namespace SendsOn

theorem refl (n : Nat) (s : State) : SendsOn n s s := ⟨rfl, fun _ _ => rfl, fun _ _ => rfl, rfl⟩

theorem trans {n : Nat} {s t u : State} (h1 : SendsOn n s t) (h2 : SendsOn n t u) : SendsOn n s u where
  rest := h1.rest.trans h2.rest
  ports m hm := (h2.ports m hm).trans (h1.ports m hm)
  counters o ho := (h2.counters o ho).trans (h1.counters o ho)
  port := by rw [h2.port, h1.port]

/-- The port's own record replaced, but for what does not concern sending. -/
theorem setPort {n : Nat} {s : State} {p : Port}
    (hp : p = { s.port n with idleSince := p.idleSince, wakeAt := p.wakeAt, txHeld := p.txHeld }) : SendsOn n s (s.setPort n p) where
  rest := rfl
  ports m hm := setPort_other s n m p hm
  counters _ _ := rfl
  port := by rw [setPort_same]; exact hp

theorem setLane (n : Nat) (s : State) (m : Nat) (l : Lane) : SendsOn n s (s.setLane m l) :=
  ⟨rfl, fun _ _ => rfl, fun _ _ => rfl, rfl⟩

theorem sent (n : Nat) (s : State) (k : Nat) : SendsOn n s (s.bump (portOff n + 0x14) k) :=
  ⟨rfl, fun _ _ => rfl, fun _ ho => bump_other _ _ _ _ ho, rfl⟩

end SendsOn

theorem txNow_sendsOn (s : State) (n k : Nat) : SendsOn n s (s.txNow n k) := (SendsOn.setPort rfl).trans (.sent n _ k)

/-- Where the transmitter wakes: at once, or when its entry into low-power idle is complete (R56). -/
def wakeFrom (s : State) (n : Nat) : Nat := max s.now ((s.port n).lpiFrom + s.lpiEntry n)

theorem startWake_wakes {s : State} {n : Nat} (hl : (s.lane n).txLpi = true) (hw : (s.port n).wakeAt = none) :
    s.startWake n = (s.setPort n { s.port n with wakeAt := some (s.wakeFrom n + s.lpiWake n) }).setLane n
      { s.lane n with txLpi := decide (s.now < s.wakeFrom n) } := if_pos ⟨hl, hw⟩

theorem startWake_awake {s : State} {n : Nat} (h : ¬((s.lane n).txLpi = true ∧ (s.port n).wakeAt = none)) : s.startWake n = s := if_neg h

theorem startWake_sendsOn (s : State) (n : Nat) : SendsOn n s (s.startWake n) := by
  by_cases h : (s.lane n).txLpi = true ∧ (s.port n).wakeAt = none
  · rw [startWake_wakes h.1 h.2]
    exact (SendsOn.setPort rfl).trans (.setLane n _ _ _)
  · rw [startWake_awake h]
    exact .refl n s

theorem txHold_sendsOn (s : State) (n k : Nat) : SendsOn n s (s.txHold n k) := (SendsOn.setPort rfl).trans (startWake_sendsOn _ n)

theorem txFrames_sendsOn (s : State) (n k : Nat) : SendsOn n s (s.txFrames n k) := by
  simp only [txFrames]
  split
  · exact .refl n s
  · split
    · exact txNow_sendsOn s n k
    · exact txHold_sendsOn s n k

theorem txControl_sendsOn (s : State) (n k : Nat) : SendsOn n s (s.txControl n k) := by
  simp only [txControl]
  split
  · exact .refl n s
  · split
    · exact txNow_sendsOn s n k
    · exact txHold_sendsOn s n k

theorem wakeNow_sendsOn (s : State) (n w : Nat) : SendsOn n s (s.wakeNow n w) := by
  have hbegun : SendsOn n s (s.wakeBegun n w) := by
    simp only [wakeBegun]
    split
    · exact .setLane n s _ _
    · exact .refl n s
  simp only [wakeNow]
  split
  · exact hbegun.trans (.setPort rfl)
  · exact hbegun

theorem releaseHeld_sendsOn (s : State) (n : Nat) : SendsOn n s (s.releaseHeld n) := by
  simp only [releaseHeld]
  split
  · exact (SendsOn.setPort rfl).trans (txNow_sendsOn _ n _)
  · exact .refl n s

theorem txRelease_sendsOn (s : State) (n : Nat) : SendsOn n s (s.txRelease n) := by
  cases h : (s.port n).wakeAt with
  | none =>
    have he : s.txRelease n = s.releaseHeld n := by rw [txRelease, h]; rfl
    rw [he]
    exact releaseHeld_sendsOn s n
  | some w =>
    have he : s.txRelease n = (s.wakeNow n w).releaseHeld n := by rw [txRelease, h]; rfl
    rw [he]
    exact (wakeNow_sendsOn s n w).trans (releaseHeld_sendsOn _ n)

/-! ## Low-power idle (R56, R57) -/

theorem txLpiEnterEff_leaves {s : State} {n : Nat} (hon : s.portOn n = true) (hx : s.flag (portOff n) 26 = true)
    (hb : (s.lpiBars n).1 = false) (hl : (s.lane n).txLpi = false) (hh : (s.port n).txHeld = 0) (hw : (s.port n).wakeAt = none)
    (hi : (s.port n).idleSince + s.fld (portOff n + 4) 15 0 * 1000 ≤ s.now) :
    ∃ t, s.txLpiEnterEff n = t ∧ t.lane n = { s.lane n with txLpi := true } ∧
      t.port n = { s.port n with lpiFrom := s.now, lpiRefreshAt := s.now + 1805000 } ∧
      t.counter (portOff n + 0x3C) = satAdd (s.counter (portOff n + 0x3C)) 1 ∧
      (∀ m, m ≠ n → t.lane m = s.lane m ∧ t.port m = s.port m) ∧
      t = { s with lanes := t.lanes, ports := t.ports, counters := t.counters } :=
  ⟨_, if_pos ⟨hon, hx, by simp [hb], by simp [hl], hh, hw, hi⟩, setLane_same s n _, setPort_same _ n _, bump_same ..,
    fun m hm => ⟨setLane_other s n m _ hm, setPort_other _ n m _ hm⟩, rfl⟩

theorem lpiRefreshEff_leaves {s : State} {n : Nat} (hl : (s.lane n).txLpi = true) (hw : (s.port n).wakeAt = none)
    (hr : s.rate25 n = false) (hd : (s.port n).lpiRefreshAt ≤ s.now) :
    ∃ t, s.lpiRefreshEff n = t ∧ t.port n = { s.port n with lpiRefreshAt := s.now + 1816000 } ∧
      (∀ m, m ≠ n → t.port m = s.port m) ∧ t = { s with ports := t.ports } :=
  ⟨_, if_pos ⟨hl, hw, by simp [hr], hd⟩, setPort_same s n _, fun m hm => setPort_other s n m _ hm, rfl⟩

/-- A frame queued in low-power idle: held, and the transmitter starts to wake. -/
theorem txLpiWakeEff_wakes {s : State} {n : Nat} (hl : (s.lane n).txLpi = true) (hw : (s.port n).wakeAt = none) :
    ∃ t, s.txLpiWakeEff n = t ∧
      t.port n = { s.port n with txHeld := (s.port n).txHeld + 1, wakeAt := some (s.wakeFrom n + s.lpiWake n) } ∧
      t.lane n = { s.lane n with txLpi := decide (s.now < s.wakeFrom n) } ∧
      (∀ m, m ≠ n → t.lane m = s.lane m ∧ t.port m = s.port m) ∧ t = { s with lanes := t.lanes, ports := t.ports } := by
  let u : State := s.setPort n { s.port n with txHeld := (s.port n).txHeld + 1 }
  have hport : u.port n = { s.port n with txHeld := (s.port n).txHeld + 1 } := setPort_same ..
  have hfrom : u.wakeFrom n = s.wakeFrom n := by rw [wakeFrom, hport]; rfl
  have he : s.txLpiWakeEff n = u.startWake n := if_pos hl
  rw [startWake_wakes (s := u) hl (by rw [hport]; exact hw), hport, hfrom] at he
  exact ⟨_, he, setPort_same u n _, setLane_same .., fun m hm => ⟨setLane_other _ n m _ hm,
    (setPort_other u n m _ hm).trans (setPort_other s n m _ hm)⟩, rfl⟩

/-- A frame queued while the transmitter wakes is held too. -/
theorem txLpiWakeEff_waking {s : State} {n : Nat} (hl : (s.lane n).txLpi = true) (hw : (s.port n).wakeAt ≠ none) :
    s.txLpiWakeEff n = s.setPort n { s.port n with txHeld := (s.port n).txHeld + 1 } := by
  have he : s.txLpiWakeEff n = (s.setPort n { s.port n with txHeld := (s.port n).txHeld + 1 }).startWake n := if_pos hl
  rw [he]
  refine startWake_awake fun h => hw ?_
  have hwake := h.2
  rw [setPort_same] at hwake
  exact hwake

theorem rxLpiEff_leaves {s : State} {n : Nat} (hon : s.portOn n = true) (hx : s.flag (portOff n) 27 = true)
    (hw : s.wide100 n = false) (hl : (s.lane n).rxLpi = false) :
    ∃ t, s.rxLpiEff n = t ∧
      t.lane n = { s.lane n with rxLpi := true, cdr := (s.lane n).cdr && s.rate25 n, quietFrom := s.now } ∧
      t.counter (portOff n + 0x3C) = satAdd (s.counter (portOff n + 0x3C)) 1 ∧
      (∀ m, m ≠ n → t.lane m = s.lane m) ∧ t = { s with lanes := t.lanes, counters := t.counters } :=
  ⟨_, if_pos ⟨hon, hx, by simp [hw], by simp [hl]⟩, setLane_same s n _, bump_same .., fun m hm => setLane_other s n m _ hm, rfl⟩

/-- A receiver that is not in low-power idle does not wake. -/
theorem rxLpiWakeEff_awake {s : State} {n : Nat} (hl : (s.lane n).rxLpi = false) : s.rxLpiWakeEff n = s := if_neg (by simp [hl])

theorem rxLpiWakeEff_leaves {s : State} {n : Nat} (hl : (s.lane n).rxLpi = true) :
    ∃ t, s.rxLpiWakeEff n = t ∧
      t.lane n = { s.lane n with
        rxLpi := false, cdr := true, eyeQuiet := (s.lane n).eyeQuiet + (s.now - max (s.lane n).quietFrom (s.lane n).eyeFrom) } ∧
      (∀ m, m ≠ n → t.lane m = s.lane m) ∧ t = { s with lanes := t.lanes } :=
  ⟨_, if_pos hl, setLane_same s n _, fun m hm => setLane_other s n m _ hm, rfl⟩

end Sys2Proof.Machine.State

open Sys2Proof Sys2Proof.Machine Sys2Proof.Machine.State in
/-- Settles O24: a PLL out and locked again, and low-power idle entered, refreshed and left by transmitter and receiver. -/
theorem pllAndLowPowerIdle : Obligations.PllAndLowPowerIdle := by
  unfold Obligations.PllAndLowPowerIdle
  refine ⟨fun s q fast hl hq => ?_, fun s q fast => ?_, fun s n hon hx hb hl hh hw hi => ?_, fun s n hl hw hr hd => ?_,
    fun s n hl hw => ?_, fun s n hl hw => ?_, fun s n hon hx hw hl => ?_, fun s n hl => ?_⟩
  · obtain ⟨t, ht, h⟩ := txPllUnlockEff_leaves hl hq
    exact ⟨t, congrArg Host.Outcome.next ht, h⟩
  · obtain ⟨t, ht, h⟩ := txPllRelockEff_leaves s q fast
    exact ⟨t, congrArg Host.Outcome.next ht, h⟩
  · obtain ⟨t, ht, h⟩ := txLpiEnterEff_leaves hon hx hb hl hh hw hi
    exact ⟨t, congrArg Host.Outcome.next ht, h⟩
  · obtain ⟨t, ht, h⟩ := lpiRefreshEff_leaves hl hw hr hd
    exact ⟨t, congrArg Host.Outcome.next ht, h⟩
  · obtain ⟨t, ht, h⟩ := txLpiWakeEff_wakes hl hw
    exact ⟨t, s.wakeFrom n, congrArg Host.Outcome.next ht, rfl, h⟩
  · exact ⟨_, congrArg Host.Outcome.next (txLpiWakeEff_waking hl hw), setPort_same s n _, fun m hm => setPort_other s n m _ hm, rfl⟩
  · obtain ⟨t, ht, h⟩ := rxLpiEff_leaves hon hx hw hl
    exact ⟨t, congrArg Host.Outcome.next ht, h⟩
  · obtain ⟨t, ht, hlane, h⟩ := rxLpiWakeEff_leaves hl
    exact ⟨t, congrArg Host.Outcome.next ht, by rw [hlane], h⟩
end

