-- ==== Sys2Proof/Proofs/EyeScans.lean ====
section
/-! SUPPORT. Eye scans (R58, R59): the write of `LANEn_EYE_CTL`, and how a point starts and ends. -/

namespace Sys2Proof.Machine

/-! ## Fields within their range (R445) -/

/-- A field with a range takes a value that lies within it. -/
theorem applyField_inRange {hi lo a b : Nat} {v : Word} (h1 : a ≤ bits v hi lo) (h2 : bits v hi lo ≤ b) (z : Bool) (c : Half) (old : Word) :
    applyField z c (fldC .rw hi lo a b) v old = (putBits old hi lo (bits v hi lo), none) := by
  simp [applyField, fldC, clampNat_of_le h1 h2]

namespace State

theorem writeFields_inRange {s : State} {off hi lo a b : Nat} {r : RegSpec} (k i : Nat) {v : Word} (hr : regSpec off = some r)
    (hoff : off ≠ 0x200010) (ha : fieldsApart r.fields = true) (hf : fldC .rw hi lo a b ∈ r.fields) (h1 : a ≤ bits v hi lo)
    (h2 : bits v hi lo ≤ b) : (s.writeFields off k i v).fld off hi lo = bits v hi lo := by
  obtain ⟨hle, hlt⟩ := fieldsApart_mem ha hf
  have hfld := writeFields_fld s off k i v r hr hoff ha _ hf
  rw [applyField_inRange h1 h2] at hfld
  exact hfld.trans (bits_putBits_bits _ _ hle hlt)

/-! ## `LANEn_EYE_CTL` (R58, R59) -/

/-- The register's entry in the map. -/
def eyeSpec : RegSpec :=
  { delta := 0x10, reset := 0x08000000#32, code := 0x1201#16,
    fields := [Machine.fld .rw 6 0, { hi := 23, lo := 16, chk := .instead 0x80 0x81 }, fldC .rw 27 24 6 12,
      Machine.fld .wo 28 28, Machine.fld .wo 31 31] }

theorem regSpec_eye (n : Fin 16) : regSpec (eyeOff n) = some eyeSpec := by revert n; decide

theorem eyeOff_ge (n : Nat) : 0x231000 ≤ eyeOff n := by simp only [eyeOff, laneOff]; omega

/-- What a write leaves in the register: BITS_EXP where it lies within its range. -/
theorem eyeCtl_leaves (s : State) (n : Fin 16) (v : Word) :
    ∃ u, s.writeFields (eyeOff n) 0x02 n v = u ∧
      (6 ≤ bits v 27 24 → bits v 27 24 ≤ 12 → u.fld (eyeOff n) 27 24 = bits v 27 24) ∧
      (∀ o, o ≠ eyeOff n → u.reg o = s.reg o) ∧ u = { s with regs := u.regs, log := u.log } := by
  have hoff : eyeOff n ≠ 0x200010 := by have := eyeOff_ge n; omega
  obtain ⟨u, hu, -, hother, hframe⟩ :=
    writeFields_leaves (s := s) 0x02 n v (regSpec_eye n) hoff (by decide) (.inr (by decide))
  refine ⟨u, hu, fun h1 h2 => ?_, hother, hframe⟩
  rw [← hu]
  exact writeFields_inRange 0x02 n (regSpec_eye n) hoff (by decide) (by decide) h1 h2

/-- What GO does once the register is written: a point starts, is shed at once, or is refused without block lock. -/
def eyeStart (s : State) (n : Nat) : State :=
  if ¬ (s.port (s.portOfLane n)).locked then s.refuse 0x1205#16 0x02 n (eyeOff n) 31
  else if ¬ s.shedAdmits then
    (s.setLane n { s.lane n with eyeRun := false, eyeDone := true, eyeShed := true, eyeBits := 0, eyeErr := 0 }).raise 0x4201#16 0x02 n
  else s.setLane n { s.lane n with eyeRun := true, eyeDone := false, eyeShed := false, eyeFrom := s.now, eyeQuiet := 0, eyeBits := 0, eyeErr := 0 }

theorem eyeWrite_go {s : State} {n : Nat} {v : Word} (hgo : bit v 31 = true) (hstop : bit v 28 = false) :
    s.eyeWrite n v = (s.writeFields (eyeOff n) 0x02 n v).eyeStart n := by
  simp only [eyeWrite, eyeStart, hgo, hstop, not_true_eq_false, if_false, Bool.false_eq_true]

theorem eyeWrite_stop {s : State} {n : Nat} {v : Word} (hgo : bit v 31 = false) (hstop : bit v 28 = true) :
    s.eyeWrite n v = (s.writeFields (eyeOff n) 0x02 n v).eyeEndEarly n false := by
  simp only [eyeWrite, hgo, hstop, Bool.false_eq_true, not_false_eq_true, if_true]

/-- GO reaches the state that the register's write leaves: its port and admission are as they were. -/
theorem eyeGo_exec {s : State} {n : Fin 16} {v : Word} (ha : s.answers 0 (eyeOff n) = true) (hgo : bit v 31 = true)
    (hstop : bit v 28 = false) :
    ∃ u : State, exec (.eyeGo n v) s = .next (u.eyeStart n) ∧ u.port (u.portOfLane n) = s.port (s.portOfLane n) ∧
      u.shedAdmits = s.shedAdmits ∧ u = { s with regs := u.regs, log := u.log } := by
  obtain ⟨u, hu, -, hregs, hframe⟩ := eyeCtl_leaves s n v
  have hport (m : Nat) : u.port m = s.port m := (congrArg (port · m) hframe :)
  have hlane : u.portOfLane n = s.portOfLane n := by
    rw [portOfLane, portOfLane, wide100_congr hregs n.isLt (eyeOff_ge n)]
  refine ⟨u, ?_, by rw [hlane, hport], (congrArg shedAdmits hframe :), hframe⟩
  rw [← hu, ← eyeWrite_go hgo hstop]
  exact congrArg Host.Outcome.next (gate_answers s 0 (eyeOff n) v _ ha)

theorem eyeGo_starts {s : State} {n : Fin 16} {v : Word} (ha : s.answers 0 (eyeOff n) = true) (hgo : bit v 31 = true)
    (hstop : bit v 28 = false) (hk : (s.port (s.portOfLane n)).locked = true) (hadmit : s.shedAdmits = true) :
    ∃ t, exec (.eyeGo n v) s = .next t ∧
      t.lane n = { s.lane n with
        eyeRun := true, eyeDone := false, eyeShed := false, eyeFrom := s.now, eyeQuiet := 0, eyeBits := 0, eyeErr := 0 } ∧
      (∀ m, m ≠ n.val → t.lane m = s.lane m) ∧ t = { s with regs := t.regs, lanes := t.lanes, log := t.log } := by
  obtain ⟨u, hu, hport, hshed, hframe⟩ := eyeGo_exec ha hgo hstop
  have hlane (m : Nat) : u.lane m = s.lane m := (congrArg (lane · m) hframe :)
  have hnow : u.now = s.now := (congrArg State.now hframe :)
  rw [eyeStart, if_neg (by simp [hport, hk]), if_neg (by simp [hshed, hadmit])] at hu
  refine ⟨_, hu, (setLane_same u n _).trans (by rw [hlane, hnow]), fun m hm => (setLane_other u n m _ hm).trans (hlane m), ?_⟩
  rw [hframe]
  rfl

/-- Without block lock GO changes the register and the log alone. -/
theorem eyeGo_refused {s : State} {n : Fin 16} {v : Word} (ha : s.answers 0 (eyeOff n) = true) (hgo : bit v 31 = true)
    (hstop : bit v 28 = false) (hk : (s.port (s.portOfLane n)).locked = false) :
    ∃ t, exec (.eyeGo n v) s = .next t ∧ t = { s with regs := t.regs, log := t.log } := by
  obtain ⟨u, hu, hport, -, hframe⟩ := eyeGo_exec ha hgo hstop
  obtain ⟨l, hl⟩ := refuse_frame u 0x1205#16 0x02 n (eyeOff n) 31 0 0
  rw [eyeStart, if_pos (by simp [hport, hk]), hl] at hu
  refine ⟨_, hu, ?_⟩
  rw [hframe]

/-- A point that the Almanac does not admit is shed at once. -/
theorem eyeGo_shed {s : State} {n : Fin 16} {v : Word} (ha : s.answers 0 (eyeOff n) = true) (hgo : bit v 31 = true)
    (hstop : bit v 28 = false) (hk : (s.port (s.portOfLane n)).locked = true) (hadmit : s.shedAdmits = false) :
    ∃ t, exec (.eyeGo n v) s = .next t ∧ (t.lane n).eyeRun = false ∧ (t.lane n).eyeShed = true ∧ (t.lane n).eyeDone = true ∧
      t.codeWindow 0x4201#16 0x02 n = true ∧ (∀ m, m ≠ n.val → t.lane m = s.lane m) ∧
      t = { s with regs := t.regs, lanes := t.lanes, log := t.log } := by
  obtain ⟨u, hu, hport, hshed, hframe⟩ := eyeGo_exec ha hgo hstop
  let w : State := u.setLane n { u.lane n with eyeRun := false, eyeDone := true, eyeShed := true, eyeBits := 0, eyeErr := 0 }
  obtain ⟨t, ht, -, hwin, hframe'⟩ := raise_leaves w 0x4201#16 0x02 n 1 []
  have hlane (m : Nat) : t.lane m = w.lane m := (congrArg (lane · m) hframe' :)
  have hsame : t.lane n = { u.lane n with eyeRun := false, eyeDone := true, eyeShed := true, eyeBits := 0, eyeErr := 0 } :=
    (hlane n).trans (setLane_same ..)
  rw [eyeStart, if_neg (by simp [hport, hk]), if_pos (by simp [hshed, hadmit]), ht] at hu
  refine ⟨t, hu, by rw [hsame], by rw [hsame], by rw [hsame], hwin, fun m hm => ?_, ?_⟩
  · exact (hlane m).trans ((setLane_other u n m _ hm).trans (congrArg (lane · m) hframe :))
  · rw [hframe']
    simp only [w, setLane]
    rw [hframe]

/-! ## The end of a point (R58, R59) -/

theorem eyeBitsNow_le (s : State) (n : Nat) : s.eyeBitsNow n ≤ 10 ^ s.fld (eyeOff n) 27 24 := Nat.min_le_right _ _

theorem eyeErrNow_le (s : State) (n : Nat) : s.eyeErrNow n ≤ s.eyeBitsNow n := Nat.min_le_right _ _

/-- A point ended before its bits are compared counts no more errors than bits, and no more bits than it asked for. -/
theorem eyeEndEarly_leaves {s : State} {n : Nat} (shed : Bool) (hr : (s.lane n).eyeRun = true)
    (hexp : s.fld (eyeOff n) 27 24 ≤ 12) :
    ∃ t, s.eyeEndEarly n shed = t ∧ (t.lane n).eyeRun = false ∧ (t.lane n).eyeDone = true ∧ (t.lane n).eyeShed = shed ∧
      (t.lane n).eyeBits.toNat ≤ 10 ^ s.fld (eyeOff n) 27 24 ∧ (t.lane n).eyeErr.toNat ≤ (t.lane n).eyeBits.toNat ∧
      (∀ m, m ≠ n → t.lane m = s.lane m) ∧ t = { s with lanes := t.lanes } := by
  have hbits := s.eyeBitsNow_le n
  have herrs := s.eyeErrNow_le n
  have hmax : 10 ^ s.fld (eyeOff n) 27 24 ≤ 10 ^ 12 := Nat.pow_le_pow_right (by omega) hexp
  have hb : (BitVec.ofNat 48 (s.eyeBitsNow n)).toNat = s.eyeBitsNow n := by
    rw [BitVec.toNat_ofNat, Nat.mod_eq_of_lt (by omega)]
  have he : (BitVec.ofNat 48 (s.eyeErrNow n)).toNat = s.eyeErrNow n := by
    rw [BitVec.toNat_ofNat, Nat.mod_eq_of_lt (by omega)]
  obtain ⟨t, ht, hlane, hother, hframe⟩ : ∃ t, s.eyeEndEarly n shed = t ∧ t.lane n = { s.lane n with
      eyeRun := false, eyeDone := true, eyeShed := shed
      eyeBits := BitVec.ofNat 48 (s.eyeBitsNow n), eyeErr := BitVec.ofNat 48 (s.eyeErrNow n) } ∧
      (∀ m, m ≠ n → t.lane m = s.lane m) ∧ t = { s with lanes := t.lanes } :=
    ⟨_, if_pos hr, setLane_same s n _, fun m hm => setLane_other s n m _ hm, rfl⟩
  refine ⟨t, ht, by rw [hlane], by rw [hlane], by rw [hlane], ?_, ?_, hother, hframe⟩
  · rw [hlane, hb]
    exact hbits
  · rw [hlane, hb, he]
    exact herrs

/-- A point whose bits have all been compared. -/
theorem eyePointEndEff_leaves {s : State} {n : Nat} (errors : BitVec 48) (hr : (s.lane n).eyeRun = true)
    (hq : (s.lane n).rxLpi = false) (hb : s.eyeBitsNow n = 10 ^ s.fld (eyeOff n) 27 24) :
    ∃ t, s.eyePointEndEff n errors = t ∧ (t.lane n).eyeRun = false ∧ (t.lane n).eyeDone = true ∧
      (t.lane n).eyeBits = BitVec.ofNat 48 (10 ^ s.fld (eyeOff n) 27 24) ∧
      (t.lane n).eyeErr.toNat = min errors.toNat (10 ^ s.fld (eyeOff n) 27 24 % 2 ^ 48) ∧
      (∀ m, m ≠ n → t.lane m = s.lane m) ∧ t = { s with lanes := t.lanes } := by
  obtain ⟨b, hbdef⟩ : ∃ b, BitVec.ofNat 48 (s.eyeBitsEnd n) = b := ⟨_, rfl⟩
  obtain ⟨t, ht, hlane, hother, hframe⟩ : ∃ t, s.eyePointEndEff n errors = t ∧ t.lane n = { s.lane n with
      eyeRun := false, eyeDone := true, eyeBits := b, eyeErr := if errors.toNat ≤ b.toNat then errors else b } ∧
      (∀ m, m ≠ n → t.lane m = s.lane m) ∧ t = { s with lanes := t.lanes } := by
    rw [← hbdef]
    exact ⟨_, if_pos ⟨hr, by simp [hq], hb⟩, setLane_same s n _, fun m hm => setLane_other s n m _ hm, rfl⟩
  have hbnat : b.toNat = 10 ^ s.fld (eyeOff n) 27 24 % 2 ^ 48 := by rw [← hbdef, BitVec.toNat_ofNat, eyeBitsEnd]
  refine ⟨t, ht, by rw [hlane], by rw [hlane], by rw [hlane]; exact hbdef.symm, ?_, hother, hframe⟩
  rw [hlane, ← hbnat]
  by_cases hle : errors.toNat ≤ b.toNat
  · exact (congrArg BitVec.toNat (if_pos hle)).trans (Nat.min_eq_left hle).symm
  · exact (congrArg BitVec.toNat (if_neg hle)).trans (Nat.min_eq_right (by omega)).symm

/-- STOP ends a running point. -/
theorem eyeStop_leaves {s : State} {n : Fin 16} {v : Word} (ha : s.answers 0 (eyeOff n) = true) (hgo : bit v 31 = false)
    (hstop : bit v 28 = true) (hr : (s.lane n).eyeRun = true) (h6 : 6 ≤ bits v 27 24) (h12 : bits v 27 24 ≤ 12) :
    ∃ t, exec (.eyeStop n v) s = .next t ∧ (t.lane n).eyeRun = false ∧ (t.lane n).eyeDone = true ∧ (t.lane n).eyeShed = false ∧
      (t.lane n).eyeBits.toNat ≤ 10 ^ bits v 27 24 ∧ (t.lane n).eyeErr.toNat ≤ (t.lane n).eyeBits.toNat ∧
      (∀ m, m ≠ n.val → t.lane m = s.lane m) ∧ t = { s with regs := t.regs, lanes := t.lanes, log := t.log } := by
  obtain ⟨u, hu, hexp, -, hframe⟩ := eyeCtl_leaves s n v
  replace hexp := hexp h6 h12
  have hlane (m : Nat) : u.lane m = s.lane m := (congrArg (lane · m) hframe :)
  obtain ⟨t, ht, hrun, hdone, hshed, hbits, herr, hother, hframe'⟩ :=
    eyeEndEarly_leaves (s := u) (n := n) false (by rw [hlane]; exact hr) (by omega)
  rw [hexp] at hbits
  refine ⟨t, ?_, hrun, hdone, hshed, hbits, herr, fun m hm => (hother m hm).trans (hlane m), ?_⟩
  · rw [← ht, ← hu, ← eyeWrite_stop hgo hstop]
    exact congrArg Host.Outcome.next (gate_answers s 0 (eyeOff n) v _ ha)
  · rw [hframe', hframe]

end State
end Sys2Proof.Machine

open Sys2Proof Sys2Proof.Machine Sys2Proof.Machine.State in
/-- Settles O25: GO with block lock, without it and without admission, a point's end, and STOP. -/
theorem eyePointsStartAndEnd : Obligations.EyePointsStartAndEnd := by
  unfold Obligations.EyePointsStartAndEnd
  refine ⟨fun s n v ha hgo hstop hk hadmit => eyeGo_starts ha hgo hstop hk hadmit, fun s n v ha hgo hstop hk => ?_,
    fun s n v ha hgo hstop hk hadmit => eyeGo_shed ha hgo hstop hk hadmit, fun s n errors hr hq hb => ?_,
    fun s n v ha hgo hstop hr h6 h12 => eyeStop_leaves ha hgo hstop hr h6 h12⟩
  · obtain ⟨t, ht, hframe⟩ := eyeGo_refused ha hgo hstop hk
    exact ⟨t, ht, (congrArg State.lanes hframe :), hframe⟩
  · obtain ⟨t, ht, h⟩ := eyePointEndEff_leaves errors hr hq hb
    exact ⟨t, congrArg Host.Outcome.next ht, h⟩
end

