-- ==== Sys2Proof/Proofs/FramesReceived.lean ====
section
/-! SUPPORT. Received frames (R55, R60 to R62): the checks in their order, the receive buffer, and where a good frame goes. -/

namespace Sys2Proof.Machine.State

/-! ## The checks (R60) -/

/-- A frame that every check of an enabled port passes. -/
structure PassesChecks (s : State) (n : Nat) (f : Frame) : Prop where
  serial : n ≠ 16
  on : s.portOn n = true
  locked : (s.port n).locked = true
  quiet : (s.port n).hiBer = false
  clean : f.errBlock = false
  fcs : f.fcsOk = true
  long : f.len ≤ s.fld (portOff n) 13 0
  short : 64 ≤ f.len

/-- Where a good frame goes: a pause frame to the port, any other to the unit that it belongs to (R60, R61). -/
def delivered (s : State) (n : Nat) (f : Frame) : State :=
  match f.payload with
  | .pause pfc q => s.pauseFrame n pfc q
  | _ => s.classify n f

theorem delivered_none {f : Frame} (s : State) (n : Nat) (hp : f.payload = .none) : s.delivered n f = s.classify n f := by
  rw [delivered, hp]

theorem delivered_pause {f : Frame} {pfc : Option Byte} {q : Nat} (s : State) (n : Nat) (hp : f.payload = .pause pfc q) :
    s.delivered n f = s.pauseFrame n pfc q := by
  rw [delivered, hp]

theorem frameReceivedEff_noLock {s : State} {n : Nat} {f : Frame} (hn : n ≠ 16) (hon : s.portOn n = true)
    (h : (s.port n).locked = false ∨ (s.port n).hiBer = true ∨ f.errBlock = true) :
    s.frameReceivedEff n f = s.bump (portOff n + 0x20) 1 := by
  have hbad : ¬ (s.port n).locked = true ∨ (s.port n).hiBer = true ∨ f.errBlock = true := h.imp_left (by simp [·])
  rw [frameReceivedEff, if_neg hn, if_neg (not_not.2 hon), if_pos hbad]

/-- With block lock, out of hi_ber and without an error block, the frame's FCS is next. -/
theorem frameReceivedEff_locked {s : State} {n : Nat} {f : Frame} (hn : n ≠ 16) (hon : s.portOn n = true)
    (hk : (s.port n).locked = true) (hb : (s.port n).hiBer = false) (hc : f.errBlock = false) :
    s.frameReceivedEff n f = if ¬ f.fcsOk then s.bump (portOff n + 0x18) 1
      else if s.fld (portOff n) 13 0 < f.len then s.bump (portOff n + 0x1C) 1
      else if f.len < 64 then s
      else if (s.buffered n f).bufferBytes n < f.fill + f.len then
        ((s.buffered n f).bump (portOff n + 0x24) 1).raise 0x3202#16 0x02 n
      else ((s.buffered n f).bump (portOff n + 0x10) 1).delivered n f := by
  have hgood : ¬(¬ (s.port n).locked = true ∨ (s.port n).hiBer = true ∨ f.errBlock = true) := by simp [hk, hb, hc]
  rw [frameReceivedEff, if_neg hn, if_neg (not_not.2 hon), if_neg hgood]
  rfl

/-- Before the receive buffer, a frame that passes every check changes nothing. -/
theorem frameReceivedEff_passes {s : State} {n : Nat} {f : Frame} (h : s.PassesChecks n f) :
    s.frameReceivedEff n f =
      if (s.buffered n f).bufferBytes n < f.fill + f.len then
        ((s.buffered n f).bump (portOff n + 0x24) 1).raise 0x3202#16 0x02 n
      else ((s.buffered n f).bump (portOff n + 0x10) 1).delivered n f := by
  have hlong := h.long
  have hshort := h.short
  rw [frameReceivedEff_locked h.serial h.on h.locked h.quiet h.clean, if_neg (not_not.2 h.fcs), if_neg (by omega), if_neg (by omega)]

/-! ## The receive buffer (R61) -/

/-- A frame that comes into the receive buffer: its fill, the PFC priorities paused, and the pause frames sent. -/
theorem buffered_leaves (s : State) (n : Nat) (f : Frame) :
    ∃ t, s.buffered n f = t ∧ onlySends s t ∧ (t.port n).toSoftware = (s.port n).toSoftware ∧
      (f.fill + f.len ≤ s.bufferBytes n → (t.port n).fill = f.fill + f.len) ∧ (∀ m, m ≠ n → t.port m = s.port m) ∧
      (∀ o, o ≠ portOff n + 0x14 → t.counter o = s.counter o) := by
  obtain ⟨fill, paused, k, he, hfill⟩ : ∃ fill paused k,
      s.buffered n f = (s.setPort n { s.port n with fill, paused }).txControl n k ∧
      fill = if s.bufferBytes n < f.fill + f.len then min f.fill (s.bufferBytes n) else f.fill + f.len := ⟨_, _, _, rfl, rfl⟩
  let u : State := s.setPort n { s.port n with fill, paused }
  obtain ⟨t, ht⟩ : ∃ t, u.txControl n k = t := ⟨_, rfl⟩
  have hsend : SendsOn n u t := by rw [← ht]; exact txControl_sendsOn u n k
  have hport := hsend.port
  rw [setPort_same] at hport
  refine ⟨t, he.trans ht, onlySends.trans (t := u) rfl hsend.rest, by rw [hport], fun hle => ?_,
    fun m hm => (hsend.ports m hm).trans (setPort_other s n m _ hm), hsend.counters⟩
  rw [hport, hfill]
  exact if_neg (by omega)

theorem bufferBytes_of_onlySends {s t : State} (h : onlySends s t) (n : Nat) : t.bufferBytes n = s.bufferBytes n := by
  rw [h]
  rfl

/-- A good frame that does not fit (R61). -/
theorem frameReceivedEff_overflows {s : State} {n : Nat} {f : Frame} (h : s.PassesChecks n f)
    (hfull : s.bufferBytes n < f.fill + f.len) :
    ∃ t, s.frameReceivedEff n f = t ∧ t.counter (portOff n + 0x24) = satAdd (s.counter (portOff n + 0x24)) 1 ∧
      t.codeWindow 0x3202#16 0x02 n = true ∧ (t.port n).toSoftware = (s.port n).toSoftware ∧
      (∀ m, m ≠ n → t.port m = s.port m) ∧
      t = { s with ports := t.ports, lanes := t.lanes, counters := t.counters, log := t.log } := by
  obtain ⟨u, hu, hsend, hsw, -, hports, hcount⟩ := buffered_leaves s n f
  obtain ⟨t, ht, hcount', -, hwin, hframe⟩ := bump_raise_leaves u (portOff n + 0x24) 0x3202#16 0x02 n
  have hport (m : Nat) : t.port m = u.port m := (congrArg (port · m) hframe :)
  refine ⟨t, ?_, hcount'.trans (congrArg (satAdd · 1) (hcount _ (by omega))), hwin, by rw [hport, hsw],
    fun m hm => (hport m).trans (hports m hm), ?_⟩
  · rw [frameReceivedEff_passes h, hu, if_pos (by rw [bufferBytes_of_onlySends hsend]; exact hfull), ht]
  · rw [onlySends] at hsend
    rw [hframe, hsend]

/-- A good frame that fits counts as received, and goes on with its fill in the buffer. -/
theorem frameReceivedEff_fits {s : State} {n : Nat} {f : Frame} (h : s.PassesChecks n f) (hfits : f.fill + f.len ≤ s.bufferBytes n) :
    ∃ u, s.frameReceivedEff n f = u.delivered n f ∧ onlySends s u ∧ (u.port n).toSoftware = (s.port n).toSoftware ∧ (u.port n).fill = f.fill + f.len ∧
      (∀ m, m ≠ n → u.port m = s.port m) ∧ u.counter (portOff n + 0x10) = satAdd (s.counter (portOff n + 0x10)) 1 ∧
      (∀ o, o ≠ portOff n + 0x14 → o ≠ portOff n + 0x10 → u.counter o = s.counter o) := by
  obtain ⟨w, hw, hsend, hsw, hfill, hports, hcount⟩ := buffered_leaves s n f
  refine ⟨w.bump (portOff n + 0x10) 1, ?_, hsend.trans rfl, hsw, hfill hfits, hports,
    (bump_same ..).trans (congrArg (satAdd · 1) (hcount _ (by omega))),
    fun o h1 h2 => (bump_other _ _ _ _ h2).trans (hcount o h1)⟩
  rw [frameReceivedEff_passes h, hw, if_neg (by rw [bufferBytes_of_onlySends hsend]; omega)]

/-! ## Frames of no unit (R60) -/

theorem unclassified_leaves (s : State) (n : Nat) (f : Frame) :
    ∃ t, s.unclassified n f = t ∧
      t.port n = { s.port n with toSoftware := (s.port n).toSoftware ++ (if s.flag (portOff n) 14 then [(f.len, none)] else []) } ∧
      (∀ m, m ≠ n → t.port m = s.port m) ∧
      t.counter (portOff n + 0x28) =
        (if s.flag (portOff n) 14 then s.counter (portOff n + 0x28) else satAdd (s.counter (portOff n + 0x28)) 1) ∧
      (∀ o, o ≠ portOff n + 0x28 → t.counter o = s.counter o) ∧ onlySends s t := by
  by_cases hx : s.flag (portOff n) 14 = true
  · refine ⟨_, if_pos hx, (setPort_same ..).trans ?_, fun m hm => setPort_other s n m _ hm, ?_, fun _ _ => rfl, rfl⟩
    · rw [if_pos hx]
    · rw [if_pos hx]
      rfl
  · refine ⟨_, if_neg hx, ?_, fun _ _ => rfl, (bump_same ..).trans (if_neg hx).symm, fun o ho => bump_other _ _ _ _ ho, rfl⟩
    rw [if_neg hx, List.append_nil]
    rfl

/-- A frame of two tags, or of no IP and no PTP EtherType, belongs to no unit. -/
theorem classify_unclassified {n : Nat} {f : Frame} (s : State) (h : 2 ≤ f.tags ∨ (f.ip = none ∧ f.etherType ≠ 0x88F7#16)) :
    s.classify n f = s.unclassified n f := by
  by_cases htags : 2 ≤ f.tags
  · exact if_pos htags
  · obtain ⟨hip, htype⟩ := h.resolve_left htags
    simp [classify, htags, hip, htype]

/-- A good frame of no unit goes to line software, or counts as unclassified. -/
theorem frameReceivedEff_unclassified {s : State} {n : Nat} {f : Frame} (h : s.PassesChecks n f)
    (hfits : f.fill + f.len ≤ s.bufferBytes n) (hp : f.payload = .none)
    (hclass : 2 ≤ f.tags ∨ (f.ip = none ∧ f.etherType ≠ 0x88F7#16)) :
    ∃ t, s.frameReceivedEff n f = t ∧ t.counter (portOff n + 0x10) = satAdd (s.counter (portOff n + 0x10)) 1 ∧
      (t.port n).toSoftware = (s.port n).toSoftware ++ (if s.flag (portOff n) 14 then [(f.len, none)] else []) ∧
      t.counter (portOff n + 0x28) =
        (if s.flag (portOff n) 14 then s.counter (portOff n + 0x28) else satAdd (s.counter (portOff n + 0x28)) 1) ∧
      (t.port n).fill = f.fill + f.len ∧ (∀ m, m ≠ n → t.port m = s.port m) ∧
      t = { s with ports := t.ports, lanes := t.lanes, counters := t.counters } := by
  obtain ⟨u, hu, hsend, hsw, hfill, hports, hcount, hcounts⟩ := frameReceivedEff_fits h hfits
  obtain ⟨t, ht, hport, hports', hsoft, hcounts', hsend'⟩ := unclassified_leaves u n f
  have hflag : u.flag (portOff n) 14 = s.flag (portOff n) 14 := by rw [hsend]; rfl
  rw [hflag] at hport hsoft
  rw [delivered_none u n hp] at hu
  refine ⟨t, hu.trans ((classify_unclassified u hclass).trans ht), (hcounts' _ (by omega)).trans hcount, by rw [hport, hsw], ?_,
    by rw [hport, hfill], fun m hm => (hports' m hm).trans (hports m hm), hsend.trans hsend'⟩
  rw [hsoft, hcounts _ (by omega) (by omega)]

/-! ## Pause frames (R61) -/

/-- A pause frame of 802.3x holds the port for its quanta; what it does not hold is sent. -/
theorem frameReceivedEff_pause {s : State} {n : Nat} {f : Frame} {q : Nat} (h : s.PassesChecks n f)
    (hfits : f.fill + f.len ≤ s.bufferBytes n) (hp : f.payload = .pause none q) :
    ∃ t, s.frameReceivedEff n f = t ∧ t.counter (portOff n + 0x10) = satAdd (s.counter (portOff n + 0x10)) 1 ∧
      (t.port n).pauseUntil = s.now + q * 512 * 1000000 / s.lineRate n ∧ (t.port n).toSoftware = (s.port n).toSoftware ∧
      (∀ m, m ≠ n → t.port m = s.port m) ∧ t = { s with ports := t.ports, lanes := t.lanes, counters := t.counters } := by
  obtain ⟨u, hu, hsend, hsw, -, hports, hcount, -⟩ := frameReceivedEff_fits h hfits
  rw [delivered_pause u n hp] at hu
  have hnow : u.now = s.now := by rw [hsend]
  have hrate : u.lineRate n = s.lineRate n := by rw [hsend]; rfl
  let w : State := u.setPort n { u.port n with pauseUntil := u.now + q * 512 * 1000000 / u.lineRate n }
  obtain ⟨t, ht⟩ : ∃ t, w.txRelease n = t := ⟨_, rfl⟩
  have hsend' : SendsOn n w t := by rw [← ht]; exact txRelease_sendsOn w n
  have hport := hsend'.port
  rw [setPort_same] at hport
  refine ⟨t, hu.trans ht, (hsend'.counters _ (by omega)).trans hcount, ?_, by rw [hport, hsw],
    fun m hm => (hsend'.ports m hm).trans ((setPort_other u n m _ hm).trans (hports m hm)),
    (hsend.trans (onlySends.trans (t := w) rfl hsend'.rest))⟩
  rw [hport, hnow, hrate]

/-! ## The management port (R62) -/

theorem frameReceivedEff_management {s : State} {f : Frame} (hc : f.errBlock = false) (hf : f.fcsOk = true) (hl : 64 ≤ f.len)
    (hp : f.payload = .none) : s.frameReceivedEff 16 f = s.toSoftware 16 f.len none := by
  have hgood : ¬(¬ f.fcsOk = true ∨ f.errBlock = true ∨ f.len < 64) := by simp [hf, hc, hl]
  rw [frameReceivedEff, if_pos rfl, managementFrame, if_neg hgood, hp]

end Sys2Proof.Machine.State

open Sys2Proof Sys2Proof.Machine Sys2Proof.Machine.State in
/-- Settles O26: each check in its order, a frame that does not fit, one of no unit, a pause frame, and a frame of port M. -/
theorem frameChecksInOrder : Obligations.FrameChecksInOrder := by
  unfold Obligations.FrameChecksInOrder
  refine ⟨fun s n f hn hon h => congrArg Host.Outcome.next (frameReceivedEff_noLock hn hon h),
    fun s n f hn hon hk hb hc hf => ?_, fun s n f hn hon hk hb hc hf hl => ?_, fun s n f hn hon hk hb hc hf hl h64 hfull => ?_,
    fun s n f hn hon hk hb hc hf hl h64 hfits hp hclass => ?_, fun s n f q hn hon hk hb hc hf hl h64 hfits hp => ?_,
    fun s f hc hf h64 hp => ?_⟩
  · exact congrArg Host.Outcome.next ((frameReceivedEff_locked hn hon hk hb hc).trans (if_pos (by simp [hf])))
  · have he := (frameReceivedEff_locked hn hon hk hb hc).trans (if_neg (not_not.2 hf))
    exact congrArg Host.Outcome.next (he.trans (if_pos hl))
  · obtain ⟨t, ht, h⟩ := frameReceivedEff_overflows ⟨hn, hon, hk, hb, hc, hf, hl, h64⟩ hfull
    exact ⟨t, congrArg Host.Outcome.next ht, h⟩
  · obtain ⟨t, ht, h⟩ := frameReceivedEff_unclassified ⟨hn, hon, hk, hb, hc, hf, hl, h64⟩ hfits hp hclass
    exact ⟨t, congrArg Host.Outcome.next ht, h⟩
  · obtain ⟨t, ht, h⟩ := frameReceivedEff_pause ⟨hn, hon, hk, hb, hc, hf, hl, h64⟩ hfits hp
    exact ⟨t, congrArg Host.Outcome.next ht, h⟩
  · exact ⟨_, congrArg Host.Outcome.next (frameReceivedEff_management hc hf h64 hp), congrArg Port.toSoftware (setPort_same s 16 _),
      fun m hm => setPort_other s 16 m _ hm, rfl⟩
end

