-- ==== Sys2Proof/Proofs/RoceResponder.lean ====
section
/-! SUPPORT. RoCEv2 on a plain memory region (R63, R64): what a request may touch and does, its response, and a queue pair that
moves to error. -/

namespace Sys2Proof.Machine

/-! ## Words in bonded memory -/

theorem length_leBytes (n x : Nat) : (leBytes n x).length = n := by
  induction n generalizing x with
  | zero => rfl
  | succ n ih => rw [leBytes, List.length_cons, ih]

/-- The bytes of a number spell it, as far as they go. -/
theorem leNat_leBytes (n x : Nat) : leNat (leBytes n x) = x % 256 ^ n := by
  induction n generalizing x with
  | zero => rw [leBytes, leNat, Nat.pow_zero, Nat.mod_one]
  | succ n ih =>
    have hpow : 256 ^ (n + 1) = 256 * 256 ^ n := Nat.pow_succ'
    have hbyte : (BitVec.ofNat 8 (x % 256)).toNat = x % 256 := Nat.mod_eq_of_lt (Nat.mod_lt _ (by decide))
    rw [leBytes, leNat, ih, hbyte, hpow, Nat.mod_mul]

/-- Bytes written read as written. -/
theorem readBytes_writeBytes (bs : List Byte) (m : Mem) (a : Nat) : readBytes (writeBytes m a bs) a bs.length = bs := by
  induction bs generalizing m a with
  | nil => rfl
  | cons b r ih =>
    have hfirst : byteAt (writeBytes (putByte m a b) (a + 1) r) a = b :=
      (byteAt_writeBytes_below r _ _ _ (by omega)).trans (tget_tset_same 0 m a b)
    rw [List.length_cons, writeBytes, readBytes, hfirst, ih]

namespace State

/-- A word put into bonded memory reads as put, and no byte outside it has changed. -/
theorem putBonded_word {s : State} (a : Nat) {x : Nat} (hx : x < 2 ^ 64) :
    (s.putBonded a (leBytes 8 x)).word64 a = x ∧
      ∀ y, y < a ∨ a + 8 ≤ y → byteAt (s.putBonded a (leBytes 8 x)).bonded y = byteAt s.bonded y := by
  refine ⟨?_, fun y hy => byteAt_writeBytes_outside _ _ _ _ (by rw [length_leBytes]; exact hy)⟩
  have hread := readBytes_writeBytes (leBytes 8 x) s.bonded a
  rw [length_leBytes] at hread
  rw [word64, putBonded, hread, leNat_leBytes]
  exact Nat.mod_eq_of_lt hx

/-! ## Messages of a queue pair (R64, R65) -/

theorem roceTx_onlySends (s : State) (n k : Nat) : onlySends s (s.roceTx n k) := by
  simp only [roceTx]
  split
  · exact onlySends.trans (t := s.setPort n { s.port n with ect0 := (s.port n).ect0 + k }) rfl (txFrames_onlySends _ n k)
  · rfl

/-- A response goes out: its bytes count for the queue pair. -/
theorem respond_leaves (s : State) (q len : Nat) :
    ∃ t, s.respond q len = t ∧ t.qp q = { s.qp q with incBytes := (s.qp q).incBytes + len } ∧ (∀ m, m ≠ q → t.qp m = s.qp m) ∧
      t = { s with qps := t.qps, ports := t.ports, lanes := t.lanes, counters := t.counters } := by
  let u : State := s.setQp q { s.qp q with incBytes := (s.qp q).incBytes + len }
  have hframe : onlySends u (s.respond q len) := roceTx_onlySends u _ _
  rw [onlySends] at hframe
  have hqp (m : Nat) : (s.respond q len).qp m = u.qp m := (congrArg (qp · m) hframe :)
  refine ⟨_, rfl, (hqp q).trans (setQp_same ..), fun m hm => (hqp m).trans (setQp_other _ _ _ _ hm), ?_⟩
  rw [hframe]
  rfl

/-! ## A queue pair in error (R64) -/

theorem answerOps_frame (s : State) (code : Half) (l : List Outstanding) : ∃ o, s.answerOps code l = { s with ops := o } := by
  induction l generalizing s with
  | nil => exact ⟨s.ops, rfl⟩
  | cons x r ih =>
    obtain ⟨o, ho⟩ := ih (s.answerOp x.op code)
    exact ⟨o, ho⟩

theorem qpNow_plain {s : State} {q : Nat} (hp : (s.qp q).peer = none) : s.qpNow q = s.qp q := by simp only [qpNow, hp]

/-- A queue pair of no Sluice and no line moves to error: what it had outstanding completes, and the code is posted. -/
theorem qpError_leaves {s : State} {q : Nat} (code : Half) (hp : (s.qp q).peer = none)
    (ho : (s.qp q).owner < 16 ∨ 34 ≤ (s.qp q).owner) :
    ∃ t, s.qpError q code = t ∧ t.qp q = { s.qp q with state := .error, outstanding := [], errAt := s.now } ∧
      t.codeWindow code 0x02 (s.qp q).port = true ∧ t = { s with qps := t.qps, ops := t.ops, log := t.log } := by
  let u : State := s.setQp q { s.qp q with state := .error, outstanding := [], errAt := s.now }
  obtain ⟨o, hops⟩ := answerOps_frame u 0x7201#16 (s.qp q).outstanding
  obtain ⟨t, ht, -, hwin, hframe⟩ := raise_leaves { u with ops := o } code 0x02 (s.qp q).port 1 (qpBytes q (s.qp q))
  have hplain : ¬(16 ≤ (s.qp q).owner ∧ (s.qp q).owner < 34) := by omega
  have he : s.qpError q code = t := by
    simp only [qpError, qpNow_plain hp, if_neg hplain]
    rw [hops, ht]
  have hqp : t.qp q = u.qp q := (congrArg (qp · q) hframe :)
  refine ⟨t, he, hqp.trans (setQp_same ..), hwin, ?_⟩
  rw [hframe]
  rfl

/-- An invalid request changes no memory and leaves its queue pair in error. -/
theorem invalidRequest_leaves {s : State} {q : Nat} (hp : (s.qp q).peer = none) (ho : (s.qp q).owner < 16) :
    ∃ t, s.invalidRequest q = t ∧ t.bonded = s.bonded ∧ (t.qp q).state = .error ∧ (t.qp q).outstanding = [] ∧
      t.codeWindow 0x7202#16 0x02 (s.qp q).port = true := by
  obtain ⟨u, hu, hqp, -, hframe⟩ := respond_leaves s q 0
  have hport : (u.qp q).port = (s.qp q).port := by rw [hqp]
  obtain ⟨t, ht, hqp', hwin, hframe'⟩ := qpError_leaves (s := u) (q := q) 0x7202#16 (by rw [hqp]; exact hp) (.inl (by rw [hqp]; exact ho))
  refine ⟨t, ?_, ?_, by rw [hqp'], by rw [hqp'], by rw [← hport]; exact hwin⟩
  · rw [invalidRequest, hu, ht]
  · have h1 : t.bonded = u.bonded := (congrArg State.bonded hframe' :)
    exact h1.trans (congrArg State.bonded hframe :)

/-! ## Requests (R64) -/

/-- A queue pair of no Sluice and no line that takes requests. -/
structure PlainQp (s : State) (q : Nat) : Prop where
  ready : (s.qp q).state = .ready
  peer : (s.qp q).peer = none
  owner : (s.qp q).owner < 16
  on : s.portOn (s.qp q).port = true

/-- The state in which a plain queue pair's request acts: its own record is put back as it is. -/
theorem setQp_self_qp (s : State) (q m : Nat) : (s.setQp q (s.qp q)).qp m = s.qp m := by
  by_cases h : m = q
  · rw [h, setQp_same]
  · exact setQp_other _ _ _ _ h

theorem roceRequestEff_plain {s : State} {q : Nat} (h : s.PlainQp q) (key : Word) (r : RoceReq) :
    s.roceRequestEff q false key r =
      if 2 ^ 31 < reqBytes r then (s.setQp q (s.qp q)).invalidRequest q else (s.setQp q (s.qp q)).memRequest q key r := by
  have h1 : ¬((s.qp q).state = .idle ∧ (s.qp q).peer.isSome = true ∧ s.portOn (s.qp q).port = true) := by simp [h.ready]
  have h2 : ¬((s.qp q).state ≠ .ready ∨ ¬ s.portOn (s.qp q).port = true) := by simp [h.ready, h.on]
  have h3 : ¬(16 ≤ (s.qp q).owner ∧ (s.qp q).owner < 34) := by have := h.owner; omega
  simp only [roceRequestEff, qpNow_plain h.peer, if_neg h1, if_neg h2, if_neg h3, Bool.false_eq_true, if_false]

/-- The right that an access needs. -/
def accessBit : Access → Nat
  | .write => 0
  | .read => 1
  | .atomic => 2

/-- A plain queue pair's request may touch what lies in its region, with its key and the access's right. -/
theorem qpMay_plain {s : State} {x : Qp} {key : Word} {a : Access} {addr len : Nat} (hp : x.peer = none) :
    s.qpMay x key a addr len = true ↔
      key = x.key ∧ x.base ≤ addr ∧ addr + len ≤ x.base + x.len ∧ x.rights.getLsbD (accessBit a) = true := by
  cases a <;> simp [qpMay, hp, accessBit, and_assoc]

theorem qpAt_plain {x : Qp} (s : State) (hp : x.peer = none) (addr : Nat) : s.qpAt x addr = addr := by rw [qpAt, hp]

/-- What a request of a plain queue pair that is taken leaves: memory as `m` has it, and its response sent. -/
theorem respond_setQp_leaves (s : State) (q len : Nat) (m : Mem) :
    ∃ t, ({ s.setQp q (s.qp q) with bonded := m } : State).respond q len = t ∧ t.bonded = m ∧
      t.qp q = { s.qp q with incBytes := (s.qp q).incBytes + len } ∧
      t = { s with bonded := t.bonded, qps := t.qps, ports := t.ports, lanes := t.lanes, counters := t.counters } := by
  obtain ⟨t, ht, hqp, -, hframe⟩ := respond_leaves { s.setQp q (s.qp q) with bonded := m } q len
  have hself : ({ s.setQp q (s.qp q) with bonded := m } : State).qp q = s.qp q := setQp_self_qp s q q
  rw [hself] at hqp
  refine ⟨t, ht, (congrArg State.bonded hframe :), hqp, ?_⟩
  rw [hframe]
  rfl

/-- A WRITE inside the region. -/
theorem roceWrite_leaves {s : State} {q : Nat} {key : Word} {a : Nat} {d : List Byte} (h : s.PlainQp q)
    (hmay : s.qpMay (s.qp q) key .write a d.length = true) (hl : d.length ≤ 2 ^ 31) :
    ∃ t, s.roceRequestEff q false key (.write a d) = t ∧ (∀ i, i < d.length → byteAt t.bonded (a + i) = d[i]?.getD 0) ∧
      (∀ x, x < a ∨ a + d.length ≤ x → byteAt t.bonded x = byteAt s.bonded x) ∧ t.qp q = s.qp q ∧
      t = { s with bonded := t.bonded, qps := t.qps, ports := t.ports, lanes := t.lanes, counters := t.counters } := by
  obtain ⟨t, ht, hmem, hqp, hframe⟩ := respond_setQp_leaves s q 0 (writeBytes s.bonded a d)
  refine ⟨t, ?_, fun i hi => ?_, fun x hx => ?_, hqp, hframe⟩
  · have hlen : ¬ 2 ^ 31 < reqBytes (.write a d) := by simp only [reqBytes]; omega
    have hmay' : (s.setQp q (s.qp q)).qpMay (s.qp q) key .write a d.length = true := hmay
    rw [roceRequestEff_plain h, if_neg hlen, memRequest, setQp_self_qp, if_pos hmay', qpAt_plain _ h.peer]
    exact ht
  · rw [hmem, byteAt_writeBytes_inside d s.bonded a i hi, List.getElem?_eq_getElem hi, Option.getD_some]
  · rw [hmem]
    exact byteAt_writeBytes_outside d s.bonded a x hx

/-- An atomic of one aligned word inside the region leaves the word `x`. -/
theorem roceAtomic_leaves {s : State} {q a x : Nat} {key : Word} {r : RoceReq} (h : s.PlainQp q) (hr : reqBytes r = 8)
    (hmem : (s.setQp q (s.qp q)).memRequest q key r =
      ({ s.setQp q (s.qp q) with bonded := writeBytes s.bonded a (leBytes 8 x) } : State).respond q 8) (hx : x < 2 ^ 64) :
    ∃ t, s.roceRequestEff q false key r = t ∧ t.word64 a = x ∧
      (∀ y, y < a ∨ a + 8 ≤ y → byteAt t.bonded y = byteAt s.bonded y) ∧
      t.qp q = { s.qp q with incBytes := (s.qp q).incBytes + 8 } ∧
      t = { s with bonded := t.bonded, qps := t.qps, ports := t.ports, lanes := t.lanes, counters := t.counters } := by
  obtain ⟨t, ht, hbonded, hqp, hframe⟩ := respond_setQp_leaves s q 8 (writeBytes s.bonded a (leBytes 8 x))
  obtain ⟨hword, hother⟩ := putBonded_word (s := s) a hx
  refine ⟨t, ?_, ?_, fun y hy => ?_, hqp, hframe⟩
  · rw [roceRequestEff_plain h, if_neg (by omega), hmem, ht]
  · rw [word64, hbonded]
    exact hword
  · rw [hbonded]
    exact hother y hy

theorem roceFetchAdd_leaves {s : State} {q a : Nat} {key : Word} {v : DWord} (h : s.PlainQp q)
    (hmay : s.qpMay (s.qp q) key .atomic a 8 = true) (ha : a % 8 = 0) :
    ∃ t, s.roceRequestEff q false key (.fetchAdd a 8 v) = t ∧ t.word64 a = (s.word64 a + v.toNat) % 2 ^ 64 ∧
      (∀ y, y < a ∨ a + 8 ≤ y → byteAt t.bonded y = byteAt s.bonded y) ∧
      t.qp q = { s.qp q with incBytes := (s.qp q).incBytes + 8 } ∧
      t = { s with bonded := t.bonded, qps := t.qps, ports := t.ports, lanes := t.lanes, counters := t.counters } := by
  refine roceAtomic_leaves h rfl ?_ (Nat.mod_lt _ (by decide))
  have hmay' : (s.setQp q (s.qp q)).qpMay (s.qp q) key .atomic a 8 = true := hmay
  rw [memRequest, setQp_self_qp, if_pos ⟨rfl, ha, hmay'⟩, qpAt_plain _ h.peer]
  rfl

theorem roceCmpSwap_leaves {s : State} {q a : Nat} {key : Word} {cmp swap : DWord} (h : s.PlainQp q)
    (hmay : s.qpMay (s.qp q) key .atomic a 8 = true) (ha : a % 8 = 0) :
    ∃ t, s.roceRequestEff q false key (.cmpSwap a 8 cmp swap) = t ∧
      t.word64 a = (if s.word64 a = cmp.toNat then swap.toNat else s.word64 a) ∧
      (∀ y, y < a ∨ a + 8 ≤ y → byteAt t.bonded y = byteAt s.bonded y) ∧
      t.qp q = { s.qp q with incBytes := (s.qp q).incBytes + 8 } ∧
      t = { s with bonded := t.bonded, qps := t.qps, ports := t.ports, lanes := t.lanes, counters := t.counters } := by
  have hmay' : (s.setQp q (s.qp q)).qpMay (s.qp q) key .atomic a 8 = true := hmay
  have he : (s.setQp q (s.qp q)).memRequest q key (.cmpSwap a 8 cmp swap) =
      (if s.word64 a = cmp.toNat then (s.setQp q (s.qp q)).putBonded a (leBytes 8 swap.toNat) else s.setQp q (s.qp q)).respond q 8 := by
    rw [memRequest, setQp_self_qp, if_pos ⟨rfl, ha, hmay'⟩, qpAt_plain _ h.peer]
    rfl
  by_cases heq : s.word64 a = cmp.toNat
  · rw [if_pos heq] at he ⊢
    exact roceAtomic_leaves h rfl he swap.isLt
  · rw [if_neg heq] at he ⊢
    obtain ⟨t, ht, hbonded, hqp, hframe⟩ := respond_setQp_leaves s q 8 s.bonded
    refine ⟨t, ?_, by rw [word64, hbonded]; rfl, fun y _ => by rw [hbonded], hqp, hframe⟩
    rw [roceRequestEff_plain h, if_neg (by simp [reqBytes]), he]
    exact ht

/-- A READ inside the region. -/
theorem roceRead_leaves {s : State} {q a n : Nat} {key : Word} (h : s.PlainQp q)
    (hmay : s.qpMay (s.qp q) key .read a n = true) (hl : n ≤ 2 ^ 31) :
    ∃ t, s.roceRequestEff q false key (.read a n) = t ∧ t.qp q = { s.qp q with incBytes := (s.qp q).incBytes + n } ∧
      t = { s with qps := t.qps, ports := t.ports, lanes := t.lanes, counters := t.counters } := by
  obtain ⟨t, ht, hbonded, hqp, hframe⟩ := respond_setQp_leaves s q n s.bonded
  refine ⟨t, ?_, hqp, hbonded ▸ hframe⟩
  have hlen : ¬ 2 ^ 31 < reqBytes (.read a n) := by simp only [reqBytes]; omega
  have hmay' : (s.setQp q (s.qp q)).qpMay (s.qp q) key .read a n = true := hmay
  rw [roceRequestEff_plain h, if_neg hlen, memRequest, setQp_self_qp, if_pos hmay']
  exact ht

/-- A WRITE that its queue pair may not make. -/
theorem roceWrite_refused {s : State} {q : Nat} {key : Word} {a : Nat} {d : List Byte} (h : s.PlainQp q)
    (hmay : ¬ s.qpMay (s.qp q) key .write a d.length = true) :
    ∃ t, s.roceRequestEff q false key (.write a d) = t ∧ t.bonded = s.bonded ∧ (t.qp q).state = .error ∧
      (t.qp q).outstanding = [] ∧ t.codeWindow 0x7202#16 0x02 (s.qp q).port = true := by
  have hself : (s.setQp q (s.qp q)).qp q = s.qp q := setQp_self_qp s q q
  obtain ⟨t, ht, hbonded, hstate, hout, hwin⟩ := invalidRequest_leaves (s := s.setQp q (s.qp q)) (q := q)
    (by rw [hself]; exact h.peer) (by rw [hself]; exact h.owner)
  rw [hself] at hwin
  have hmay' : ¬ (s.setQp q (s.qp q)).qpMay (s.qp q) key .write a d.length = true := hmay
  refine ⟨t, ?_, hbonded, hstate, hout, hwin⟩
  rw [roceRequestEff_plain h, memRequest, hself, if_neg hmay', ite_self, ht]

end State
end Sys2Proof.Machine

open Sys2Proof Sys2Proof.Machine Sys2Proof.Machine.State in
/-- Settles O27: WRITE, the two atomics and READ inside the region, and the WRITE that is refused. -/
theorem roceRequestsStayInTheirRegion : Obligations.RoceRequestsStayInTheirRegion := by
  unfold Obligations.RoceRequestsStayInTheirRegion
  refine ⟨fun s q key a d hr hp ho hon hkey hright hlo hhi hl => ?_, fun s q key a v hr hp ho hon hkey hright ha hlo hhi => ?_,
    fun s q key a cmp swap hr hp ho hon hkey hright ha hlo hhi => ?_, fun s q key a n hr hp ho hon hkey hright hlo hhi hl => ?_,
    fun s q key a d hr hp ho hon hbad => ?_⟩
  · obtain ⟨t, ht, h⟩ := roceWrite_leaves ⟨hr, hp, ho, hon⟩ ((qpMay_plain hp).2 ⟨hkey, hlo, hhi, hright⟩) hl
    exact ⟨t, congrArg Host.Outcome.next ht, h⟩
  · obtain ⟨t, ht, h⟩ := roceFetchAdd_leaves (v := v) ⟨hr, hp, ho, hon⟩ ((qpMay_plain hp).2 ⟨hkey, hlo, hhi, hright⟩) ha
    exact ⟨t, congrArg Host.Outcome.next ht, h⟩
  · obtain ⟨t, ht, h⟩ := roceCmpSwap_leaves (cmp := cmp) (swap := swap) ⟨hr, hp, ho, hon⟩
      ((qpMay_plain hp).2 ⟨hkey, hlo, hhi, hright⟩) ha
    exact ⟨t, congrArg Host.Outcome.next ht, h⟩
  · obtain ⟨t, ht, h⟩ := roceRead_leaves ⟨hr, hp, ho, hon⟩ ((qpMay_plain hp).2 ⟨hkey, hlo, hhi, hright⟩) hl
    exact ⟨t, congrArg Host.Outcome.next ht, h⟩
  · have hmay : ¬ s.qpMay (s.qp q) key .write a d.length = true := fun h => by
      obtain ⟨hk, hlo, hhi, -⟩ := (qpMay_plain hp).1 h
      exact hbad.elim (· hk) fun h => by omega
    obtain ⟨t, ht, h⟩ := roceWrite_refused ⟨hr, hp, ho, hon⟩ hmay
    exact ⟨t, congrArg Host.Outcome.next ht, h⟩
end

