-- ==== Sys2Proof/Proofs/RoceRequester.lean ====
section
/-! SUPPORT. The RoCEv2 requester (R63 to R65): its rate under DCQCN, the answers to its operations, and its retries. -/

namespace Sys2Proof.Machine.State

/-! ## DCQCN (R65) -/

/-- The rate that a queue pair sends at: the line's where none is set. -/
def sendRate (s : State) (x : Qp) : Nat := if x.rate = 0 then s.lineRate x.port else x.rate

/-- A queue pair that a CNP has reached. -/
def afterCnp (s : State) (x : Qp) : Qp :=
  { x with
    target := s.sendRate x, rate := max 100000 (s.sendRate x - s.sendRate x * x.alpha / 131072)
    alpha := x.alpha - x.alpha / 256 + 256, increases := 0, incAt := s.now, incBytes := 0 }

theorem cnpReceivedEff_ready {s : State} {q : Nat} (hr : (s.qp q).state = .ready) :
    s.cnpReceivedEff q = s.setQp q (s.afterCnp (s.qp q)) := if_neg (not_not.2 hr)

theorem increaseDue_iff (s : State) (x : Qp) (timer : Bool) :
    s.increaseDue x timer = true ↔ if timer then x.incAt + 55000 ≤ s.now else 10000000 ≤ x.incBytes := by
  cases timer <;> simp [increaseDue]

/-- A queue pair after an increase past its target by `step`. -/
def afterIncrease (s : State) (x : Qp) (timer : Bool) (step : Nat) : Qp :=
  { x with
    target := min (s.lineRate x.port) (x.target + step)
    rate := min (s.lineRate x.port) ((x.rate + min (s.lineRate x.port) (x.target + step)) / 2)
    alpha := if timer then x.alpha - x.alpha / 256 else x.alpha, increases := x.increases + 1
    incAt := if timer then s.now else x.incAt, incBytes := if timer then x.incBytes else x.incBytes - 10000000 }

/-- An increase that is due: the target rises by a step of 0 in the first five, and the rate moves half way to it. -/
theorem dcqcnIncreaseEff_leaves {s : State} {q : Nat} {timer : Bool} (hr : (s.qp q).state = .ready) (h0 : (s.qp q).rate ≠ 0)
    (hdue : s.increaseDue (s.qp q) timer = true) :
    ∃ t step, s.dcqcnIncreaseEff q timer = t ∧ ((s.qp q).increases < 5 → step = 0) ∧
      (t.qp q).target = min (s.lineRate (s.qp q).port) ((s.qp q).target + step) ∧
      (t.qp q).rate = min (s.lineRate (s.qp q).port) (((s.qp q).rate + (t.qp q).target) / 2) ∧
      (t.qp q).alpha = (if timer then (s.qp q).alpha - (s.qp q).alpha / 256 else (s.qp q).alpha) ∧
      (t.qp q).increases = (s.qp q).increases + 1 ∧ (∀ m, m ≠ q → t.qp m = s.qp m) ∧ t = { s with qps := t.qps, free := t.free } := by
  obtain ⟨step, f, hdraw, hstep⟩ : ∃ step f, (if (s.qp q).increases < 5 then (0, s) else s.drawNat) = (step, { s with free := f }) ∧
      ((s.qp q).increases < 5 → step = 0) := by
    by_cases h5 : (s.qp q).increases < 5
    · exact ⟨0, s.free, if_pos h5, fun _ => rfl⟩
    · exact ⟨_, _, if_neg h5, fun h => absurd h h5⟩
  have hgo : ¬((s.qp q).state ≠ .ready ∨ (s.qp q).rate = 0 ∨ ¬ s.increaseDue (s.qp q) timer = true) := by simp [hr, h0, hdue]
  have he : s.dcqcnIncreaseEff q timer = ({ s with free := f } : State).setQp q (s.afterIncrease (s.qp q) timer step) := by
    simp only [dcqcnIncreaseEff, if_neg hgo]
    rw [hdraw]
    rfl
  have hqp : (({ s with free := f } : State).setQp q (s.afterIncrease (s.qp q) timer step)).qp q =
      s.afterIncrease (s.qp q) timer step := setQp_same ..
  refine ⟨_, step, he, hstep, ?_, ?_, ?_, ?_, fun m hm => setQp_other _ q m _ hm, rfl⟩
  · rw [hqp, afterIncrease]
  · rw [hqp, afterIncrease]
  · rw [hqp, afterIncrease]
  · rw [hqp, afterIncrease]

/-! ## Answers (R63, R64) -/

/-- The oldest operation outstanding is answered. -/
theorem takeAnswer_leaves (s : State) (q : Nat) :
    ∃ t, s.takeAnswer q none = t ∧ t.qp q = { s.qp q with outstanding := (s.qp q).outstanding.drop 1 } ∧
      (∀ m, m ≠ q → t.qp m = s.qp m) ∧ t = { s with qps := t.qps, ops := t.ops } := by
  simp only [takeAnswer]
  split
  · rename_i h
    refine ⟨s, rfl, ?_, fun _ _ => rfl, rfl⟩
    rw [List.drop_one, h, List.tail_nil, ← h]
  · rename_i o r h
    refine ⟨_, rfl, (setQp_same s q _).trans ?_, fun m hm => setQp_other s q m _ hm, rfl⟩
    rw [h, List.drop_one, List.tail_cons]

theorem takeAnswers_leaves (s : State) (q n : Nat) :
    ∃ t, s.takeAnswers q n = t ∧ t.qp q = { s.qp q with outstanding := (s.qp q).outstanding.drop n } ∧
      (∀ m, m ≠ q → t.qp m = s.qp m) ∧ t = { s with qps := t.qps, ops := t.ops } := by
  induction n generalizing s with
  | zero => exact ⟨s, rfl, rfl, fun _ _ => rfl, rfl⟩
  | succ n ih =>
    obtain ⟨u, hu, hqp, hother, hframe⟩ := takeAnswer_leaves s q
    obtain ⟨t, ht, hqp', hother', hframe'⟩ := ih u
    refine ⟨t, ?_, ?_, fun m hm => (hother' m hm).trans (hother m hm), ?_⟩
    · rw [takeAnswers, hu, ht]
    · rw [hqp', hqp, List.drop_drop, Nat.add_comm]
    · rw [hframe', hframe]

theorem roceResponseEff_ack {s : State} {q n : Nat} (hr : (s.qp q).state = .ready) (hn : n ≤ (s.qp q).outstanding.length) :
    s.roceResponseEff q (.ack n) = s.takeAnswers q n := by
  rw [roceResponseEff, if_neg (not_not.2 hr), Nat.min_eq_left hn]

/-- A NAK that is no sequence error ends the queue pair. -/
theorem roceResponseEff_nak {s : State} {q : Nat} (hr : (s.qp q).state = .ready) :
    s.roceResponseEff q (.nak false) = s.qpError q 0x7201#16 := if_neg (not_not.2 hr)

/-! ## The acknowledge timeout (R63, R64) -/

/-- The timeout of the oldest operation outstanding: another try, or the end of the queue pair. -/
theorem roceAckTimeoutEff_late {s : State} {q : Nat} {x : Outstanding} {r : List Outstanding} (hr : (s.qp q).state = .ready)
    (hx : (s.qp q).outstanding = x :: r) (hl : x.sentAt + 4096 * 2 ^ (s.qp q).timeoutExp ≤ s.now) :
    s.roceAckTimeoutEff q =
      if x.retries < (s.qp q).retryLimit then
        (s.setQp q { s.qp q with outstanding := { x with retries := x.retries + 1, sentAt := s.now } :: r }).roceTx (s.qp q).port
          (x :: r).length
      else s.qpError q 0x7201#16 := by
  have hgo : ¬((s.qp q).state ≠ .ready ∨ s.now - x.sentAt < 4096 * 2 ^ (s.qp q).timeoutExp) := by
    rintro (h | h)
    · exact h hr
    · omega
  simp only [roceAckTimeoutEff, hx, if_neg hgo]

theorem roceAckTimeoutEff_retries {s : State} {q : Nat} {x : Outstanding} {r : List Outstanding} (hr : (s.qp q).state = .ready)
    (hx : (s.qp q).outstanding = x :: r) (hl : x.sentAt + 4096 * 2 ^ (s.qp q).timeoutExp ≤ s.now)
    (hn : x.retries < (s.qp q).retryLimit) :
    ∃ t, s.roceAckTimeoutEff q = t ∧
      t.qp q = { s.qp q with outstanding := { x with retries := x.retries + 1, sentAt := s.now } :: r } ∧
      (∀ m, m ≠ q → t.qp m = s.qp m) ∧ t = { s with qps := t.qps, ports := t.ports, lanes := t.lanes, counters := t.counters } := by
  let u : State := s.setQp q { s.qp q with outstanding := { x with retries := x.retries + 1, sentAt := s.now } :: r }
  obtain ⟨t, ht⟩ : ∃ t, u.roceTx (s.qp q).port (x :: r).length = t := ⟨_, rfl⟩
  have hframe : onlySends u t := by rw [← ht]; exact roceTx_onlySends u _ _
  rw [onlySends] at hframe
  have hqp (m : Nat) : t.qp m = u.qp m := (congrArg (qp · m) hframe :)
  refine ⟨t, (roceAckTimeoutEff_late hr hx hl).trans ((if_pos hn).trans ht), (hqp q).trans (setQp_same ..),
    fun m hm => (hqp m).trans (setQp_other _ _ _ _ hm), ?_⟩
  rw [hframe]
  rfl

end Sys2Proof.Machine.State

open Sys2Proof Sys2Proof.Machine Sys2Proof.Machine.State in
/-- Settles O28: the rate lowered and raised, ACKs and the NAK, and the timeout with retries left and with none. -/
theorem roceRequesterRateAndRetries : Obligations.RoceRequesterRateAndRetries := by
  unfold Obligations.RoceRequesterRateAndRetries
  refine ⟨fun s q hr => ?_, fun s q timer hr h0 hdue => ?_, fun s q n hr hn => ?_, fun s q hr hp ho => ?_,
    fun s q x r hr hx hl hn => ?_, fun s q x r hr hp ho hx hl hn => ?_⟩
  · have hqp : (s.setQp q (s.afterCnp (s.qp q))).qp q = s.afterCnp (s.qp q) := setQp_same ..
    refine ⟨_, s.sendRate (s.qp q), congrArg Host.Outcome.next (cnpReceivedEff_ready hr), rfl, ?_⟩
    rw [hqp]
    exact ⟨rfl, rfl, rfl, rfl, rfl, rfl, hr, fun m hm => setQp_other s q m _ hm, rfl⟩
  · obtain ⟨t, step, ht, hstep, htarget, hrate, halpha, hinc, hother, hframe⟩ :=
      dcqcnIncreaseEff_leaves hr h0 ((increaseDue_iff s (s.qp q) timer).2 hdue)
    refine ⟨t, s.lineRate (s.qp q).port, congrArg Host.Outcome.next ht, rfl, fun h5 => ?_, ?_, ?_, hrate, halpha, hinc, hother, hframe⟩
    · rw [htarget, hstep h5, Nat.add_zero]
    · rw [htarget]
      omega
    · rw [htarget]
      omega
  · obtain ⟨t, ht, hqp, hother, hframe⟩ := takeAnswers_leaves s q n
    exact ⟨t, congrArg Host.Outcome.next ((roceResponseEff_ack hr hn).trans ht), by rw [hqp], by rw [hqp]; exact hr, hother, hframe⟩
  · obtain ⟨t, ht, hqp, hwin, -⟩ := qpError_leaves 0x7201#16 hp ho
    exact ⟨t, congrArg Host.Outcome.next ((roceResponseEff_nak hr).trans ht), by rw [hqp], by rw [hqp], hwin⟩
  · obtain ⟨t, ht, hqp, hother, hframe⟩ := roceAckTimeoutEff_retries hr hx hl hn
    exact ⟨t, congrArg Host.Outcome.next ht, by rw [hqp], by rw [hqp]; exact hr, hother, hframe⟩
  · obtain ⟨t, ht, hqp, hwin, -⟩ := qpError_leaves 0x7201#16 hp ho
    have he := (roceAckTimeoutEff_late hr hx hl).trans (if_neg (by omega))
    exact ⟨t, congrArg Host.Outcome.next (he.trans ht), by rw [hqp], by rw [hqp], hwin⟩
end

