-- ==== Sys2Proof/Proofs/Admission.lean ====
section
/-! SUPPORT. The Almanac's admission (R389, R391): what its change does to eye scans, contexts and streams. -/

namespace Sys2Proof.Machine

/-- A value that a table holds at a key stands in it. -/
theorem mem_of_tget {α : Type} {d v : α} {t : Tab α} {k : Nat} (h : tget d t k = v) (hv : v ≠ d) : (k, v) ∈ t := by
  induction t with
  | nil => exact absurd h.symm hv
  | cons p r ih =>
    obtain ⟨a, w⟩ := p
    by_cases hk : a = k
    · simp only [tget, hk, if_true] at h
      simp [hk, h]
    · simp only [tget, hk, if_false] at h
      exact List.mem_cons_of_mem _ (ih h)

namespace State

/-! ## A code posted where a condition holds -/

/-- What a code of its own event raised only where `b` holds leaves: the log alone changes, and LAST_CODE shows the code. -/
theorem raiseNowIf_leaves (u : State) (b : Prop) [Decidable b] {c : Half} (k i : Nat) (hc : codeClass c ≠ 0) :
    ∃ l, (if b then u.raiseNow c k i else u) = { u with log := l } ∧
      (b → ∀ o, o ∈ lastCodeKeys c k i → tget 0 l.lastCodes o = c) := by
  by_cases h : b
  · refine ⟨(u.raiseNow c k i).log, if_pos h, fun _ o ho => ?_⟩
    exact (lastCode_raiseNow u c k i [] o).trans (if_pos ⟨hc, ho⟩)
  · exact ⟨u.log, if_neg h, fun hb => absurd hb h⟩

/-! ## Admission: what its change touches (R389, R391) -/

/-- `t` is `s` with eye scans shed, contexts deferred or not, and streams' heads started; no LAST_CODE changes. -/
structure OnlyAdmits (s t : State) : Prop where
  frame : t = { s with log := t.log, lanes := t.lanes, ctxs := t.ctxs, codec := t.codec }
  code : ∀ o, t.lastCode o = s.lastCode o

theorem OnlyAdmits.trans {s t u : State} (h1 : OnlyAdmits s t) (h2 : OnlyAdmits t u) : OnlyAdmits s u where
  frame := by
    have h := h1.frame
    rw [h2.frame]
    rw [h]
  code o := (h2.code o).trans (h1.code o)

theorem eyeShed_onlyAdmits (s : State) (n : Nat) : OnlyAdmits s (s.eyeShed n) := by
  by_cases hr : (s.lane n).eyeRun = true
  · obtain ⟨u, hu, hframe⟩ : ∃ u, s.eyeEndEarly n true = u ∧ u = { s with lanes := u.lanes } := ⟨_, if_pos hr, rfl⟩
    obtain ⟨t, ht, hcode, -, hframe'⟩ := raise_leaves u 0x4201#16 0x02 n 1 []
    have he : s.eyeShed n = t := by rw [← ht, ← hu]; exact if_pos hr
    rw [he]
    refine ⟨by rw [hframe', hframe], fun o => (hcode o).trans ((if_neg (List.not_mem_nil)).trans ?_)⟩
    exact (congrArg (lastCode · o) hframe :)
  · rw [eyeShed, if_neg hr]
    exact ⟨rfl, fun _ => rfl⟩

theorem shedEyes_onlyAdmits (s : State) (l : List Nat) : OnlyAdmits s (s.shedEyes l) := by
  induction l generalizing s with
  | nil => exact ⟨rfl, fun _ => rfl⟩
  | cons n r ih => exact (eyeShed_onlyAdmits s n).trans (ih _)

/-! ### Contexts deferred -/

/-- A context as admission leaves it: of a deferrable one, DEFERRED is set as `d` says. -/
def defersAs (s : State) (d : Bool) (c : Nat) : Prop := ∀ x, s.ctx c = some x → x.deferrable = true → x.deferred = d

/-- Time since which a context waits or runs is kept; its class and whether it is deferred are not touched. -/
theorem syncCtx_leaves (s : State) (c : Nat) :
    ∃ t, s.syncCtx c = t ∧ (∀ d, s.defersAs d c → t.defersAs d c) ∧ (∀ i, i ≠ c → t.ctx i = s.ctx i) ∧
      t = { s with ctxs := t.ctxs } := by
  have put {y : Ctx} (x : Ctx) (hy : s.ctx c = some y) (h1 : x.deferrable = y.deferrable) (h2 : x.deferred = y.deferred) :
      ∃ t, s.setCtx c x = t ∧ (∀ d, s.defersAs d c → t.defersAs d c) ∧ (∀ i, i ≠ c → t.ctx i = s.ctx i) ∧
        t = { s with ctxs := t.ctxs } := by
    refine ⟨_, rfl, fun d hd z hz hclass => ?_, fun i hi => ctx_setCtx_other s x hi, rfl⟩
    rw [ctx_setCtx_same] at hz
    cases hz
    rw [h2]
    exact hd y hy (h1 ▸ hclass)
  simp only [syncCtx]
  split
  · exact ⟨s, rfl, fun _ h => h, fun _ _ => rfl, rfl⟩
  · next y hy =>
    split
    · split
      · exact put _ hy rfl rfl
      · exact put _ hy rfl rfl
    · split
      · exact put _ hy rfl rfl
      · exact put _ hy rfl rfl

/-- One context admitted or deferred. -/
theorem deferCtx_leaves (s : State) (c : Nat) :
    ∃ t, (s.modCtx c (fun x => if x.deferrable then { x with deferred := !s.deferAdmits } else x)).syncCtx c = t ∧
      t.defersAs (!s.deferAdmits) c ∧ (∀ i, i ≠ c → t.ctx i = s.ctx i) ∧ t = { s with ctxs := t.ctxs } := by
  obtain ⟨u, hu, hdefer, hother, hframe⟩ : ∃ u,
      s.modCtx c (fun x => if x.deferrable then { x with deferred := !s.deferAdmits } else x) = u ∧
      u.defersAs (!s.deferAdmits) c ∧ (∀ i, i ≠ c → u.ctx i = s.ctx i) ∧ u = { s with ctxs := u.ctxs } := by
    cases hc : s.ctx c with
    | none => exact ⟨s, by simp only [modCtx, hc], fun x hx => by simp [hc] at hx, fun _ _ => rfl, rfl⟩
    | some x =>
      refine ⟨_, modCtx_of_ctx hc _, fun z hz hclass => ?_, fun i hi => ctx_setCtx_other s _ hi, rfl⟩
      rw [ctx_setCtx_same] at hz
      cases hz
      by_cases hx : x.deferrable = true
      · simp [hx]
      · simp [hx] at hclass
  obtain ⟨t, ht, hkeep, hother', hframe'⟩ := syncCtx_leaves u c
  refine ⟨t, by rw [hu, ht], hkeep _ hdefer, fun i hi => (hother' i hi).trans (hother i hi), ?_⟩
  rw [hframe', hframe]

theorem deferCtxs_leaves (s : State) (l : List Nat) :
    ∃ t, s.deferCtxs l = t ∧ (∀ c, c ∈ l ∨ s.defersAs (!s.deferAdmits) c → t.defersAs (!s.deferAdmits) c) ∧
      (∀ c, c ∉ l → t.ctx c = s.ctx c) ∧ t = { s with ctxs := t.ctxs } := by
  induction l generalizing s with
  | nil => exact ⟨s, rfl, fun c h => h.resolve_left List.not_mem_nil, fun _ _ => rfl, rfl⟩
  | cons n r ih =>
    obtain ⟨u, hu, hdefer, hother, hframe⟩ := deferCtx_leaves s n
    obtain ⟨t, ht, hall, hkeep, hframe'⟩ := ih u
    have hadmit : u.deferAdmits = s.deferAdmits := (congrArg deferAdmits hframe :)
    rw [hadmit] at hall
    refine ⟨t, by rw [deferCtxs, hu, ht], fun c h => hall c ?_, fun c hc => ?_, by rw [hframe', hframe]⟩
    · by_cases hn : c = n
      · exact .inr (hn ▸ hdefer)
      · refine h.imp (fun hm => (List.mem_cons.1 hm).resolve_left hn) fun hs x hx => hs x ?_
        rw [← hother c hn]
        exact hx
    · exact (hkeep c (List.not_mem_of_not_mem_cons hc)).trans (hother c (List.ne_of_not_mem_cons hc))

/-- Every context there is stands among all contexts. -/
theorem mem_allCtxs {s : State} {c : Nat} {x : Ctx} (h : s.ctx c = some x) : c ∈ s.allCtxs.map (·.1) := by
  have hmem : (c, some x) ∈ s.ctxs := mem_of_tget h (by simp)
  exact List.mem_map.2 ⟨(c, x), List.mem_filterMap.2 ⟨(c, some x), hmem, rfl⟩, rfl⟩

/-- All contexts admitted or deferred. -/
theorem deferCtxs_all_leaves (s : State) :
    ∃ t, s.deferCtxs (s.allCtxs.map (·.1)) = t ∧ (∀ c, t.defersAs (!s.deferAdmits) c) ∧ t = { s with ctxs := t.ctxs } := by
  obtain ⟨t, ht, hall, hkeep, hframe⟩ := deferCtxs_leaves s (s.allCtxs.map (·.1))
  refine ⟨t, ht, fun c => ?_, hframe⟩
  by_cases hc : c ∈ s.allCtxs.map (·.1)
  · exact hall c (.inl hc)
  · intro x hx
    rw [hkeep c hc] at hx
    exact absurd (mem_allCtxs hx) hc

/-! ### Streams' heads -/

theorem startHead_frame (s : State) (n : Nat) : ∃ c, s.startHead n = { s with codec := c } := by
  simp only [startHead]
  split
  · exact ⟨s.codec, rfl⟩
  · split
    · exact ⟨s.codec, rfl⟩
    · split
      · exact ⟨_, rfl⟩
      · exact ⟨s.codec, rfl⟩

theorem startHeads_frame (s : State) (l : List Nat) : ∃ c, s.startHeads l = { s with codec := c } := by
  induction l generalizing s with
  | nil => exact ⟨s.codec, rfl⟩
  | cons n r ih =>
    obtain ⟨c, hc⟩ := startHead_frame s n
    obtain ⟨d, hd⟩ := ih { s with codec := c }
    exact ⟨d, by rw [startHeads, hc, hd]⟩

/-! ### The change -/

/-- Deferrable work lost or regained: the contexts, and where it is regained the heads of the streams. -/
def readmit (deferWas : Bool) (s : State) : State :=
  if s.deferAdmits = deferWas then s
  else
    let s := s.deferCtxs (s.allCtxs.map (·.1))
    if s.deferAdmits then s.startHeads (s.streams.map (·.1)) else s

theorem admission_eq (deferWas shedWas : Bool) (s : State) :
    s.admission deferWas shedWas = (if shedWas ∧ ¬ s.shedAdmits then s.shedEyes (List.range 16) else s).readmit deferWas := rfl

theorem readmit_leaves (s : State) (deferWas : Bool) :
    ∃ t, s.readmit deferWas = t ∧ (deferWas = true → s.deferAdmits = false → ∀ c, t.defersAs true c) ∧
      t = { s with ctxs := t.ctxs, codec := t.codec } := by
  by_cases hsame : s.deferAdmits = deferWas
  · refine ⟨s, if_pos hsame, fun h1 h2 => ?_, rfl⟩
    rw [h2, h1] at hsame
    exact absurd hsame Bool.false_ne_true
  · obtain ⟨u, hu, hall, hframe⟩ := deferCtxs_all_leaves s
    obtain ⟨c, hc⟩ := startHeads_frame u (u.streams.map (·.1))
    have he : s.readmit deferWas = if u.deferAdmits then { u with codec := c } else u := by
      rw [readmit, if_neg hsame, hu, ← hc]
    rw [he]
    refine ⟨_, rfl, fun _ h2 => ?_, ?_⟩
    · rw [h2] at hall
      split
      · exact hall
      · exact hall
    · split
      · exact congrArg (fun w : State => { w with codec := c }) hframe
      · exact hframe.trans (by rw [hframe])

theorem admission_leaves (s : State) (deferWas shedWas : Bool) :
    ∃ t, s.admission deferWas shedWas = t ∧ OnlyAdmits s t ∧ t.power = s.power ∧
      (deferWas = true → s.deferAdmits = false → ∀ c, t.defersAs true c) ∧
      ((shedWas = true → s.shedAdmits = true) → t = { s with ctxs := t.ctxs, codec := t.codec }) := by
  obtain ⟨u, hu, hshed, hnone⟩ : ∃ u, (if shedWas = true ∧ ¬ s.shedAdmits = true then s.shedEyes (List.range 16) else s) = u ∧
      OnlyAdmits s u ∧ ((shedWas = true → s.shedAdmits = true) → u = s) := by
    by_cases h : shedWas = true ∧ ¬ s.shedAdmits = true
    · exact ⟨_, if_pos h, shedEyes_onlyAdmits s _, fun hno => absurd (hno h.1) h.2⟩
    · exact ⟨s, if_neg h, ⟨rfl, fun _ => rfl⟩, fun _ => rfl⟩
  obtain ⟨t, ht, hdefer, hframe⟩ := readmit_leaves u deferWas
  have honly : OnlyAdmits u t := ⟨hframe.trans (by rw [hframe]), fun o => (congrArg (lastCode · o) hframe :)⟩
  have hpower : t.power = s.power := (congrArg State.power (hshed.trans honly).frame :)
  have hadmit : u.deferAdmits = s.deferAdmits := (congrArg deferAdmits hshed.frame :)
  rw [hadmit] at hdefer
  refine ⟨t, by rw [admission_eq, hu, ht], hshed.trans honly, hpower, hdefer, fun hno => ?_⟩
  rw [hnone hno] at hframe
  exact hframe

end State
end Sys2Proof.Machine
end

