-- ==== Sys2Proof/Proofs/AlmanacLedger.lean ====
section
/-! SUPPORT. The Almanac's ledger (R387 to R390): ALMANAC_TICK, and the host's writes of `ALM_ENV` and `ALM_CFG`. -/

namespace Sys2Proof.Machine.State

/-! ## Metered energy (R383, R387) -/

/-- A domain's metered energy: TXM-860-N lacks two of the domains. -/
theorem meter_getD (v : Bool) (k : Nat) (l : List Nat) (i : Nat) :
    (meter v k l).getD i 0 = if 50 ≤ k + i ∨ (v = true ∧ (k + i = 45 ∨ k + i = 47)) then 0 else l.getD i 0 := by
  induction l generalizing k i with
  | nil => simp [meter]
  | cons e r ih =>
    cases i with
    | zero => simp [meter]
    | succ i =>
      rw [meter, List.getD_cons_succ, List.getD_cons_succ, ih, show k + 1 + i = k + (i + 1) by omega]

theorem tget_addEnergy (t : Tab Nat) (k : Nat) (l : List Nat) (d : Nat) :
    tget 0 (addEnergy t k l) d = tget 0 t d + if k ≤ d then l.getD (d - k) 0 else 0 := by
  induction l generalizing t k with
  | nil => simp [addEnergy]
  | cons e r ih =>
    rw [addEnergy, ih]
    rcases Nat.lt_trichotomy d k with h | h | h
    · rw [tget_tset_other _ _ _ (by omega), if_neg (by omega), if_neg (by omega)]
    · subst h
      rw [tget_tset_same, if_neg (by omega), if_pos (Nat.le_refl d), Nat.sub_self, List.getD_cons_zero, Nat.add_zero]
    · rw [tget_tset_other _ _ _ (by omega), if_pos (by omega), if_pos (by omega), show d - k = (d - (k + 1)) + 1 by omega,
        List.getD_cons_succ]

/-- The energy of the domains after a tick. -/
def tickEnergy (s : State) (l : List Nat) : Tab Nat := addEnergy s.power.energy 0 (meter s.variantN 0 l)

theorem tget_tickEnergy (s : State) (l : List Nat) (d : Nat) :
    tget 0 (s.tickEnergy l) d = tget 0 s.power.energy d +
      if 50 ≤ d ∨ (s.variantN = true ∧ (d = 45 ∨ d = 47)) then 0 else l.getD d 0 := by
  rw [tickEnergy, tget_addEnergy, if_pos (Nat.zero_le d), Nat.sub_zero, meter_getD]
  simp only [Nat.zero_add]

/-! ## ALMANAC_TICK (R387, R389, R390) -/

/-- The power unit after a tick that keeps no ledger. -/
def meteredPower (s : State) (l : List Nat) : PowerU :=
  { s.power with tickAt := s.power.tickAt + 10000, energy := s.tickEnergy l }

/-- The power unit after a tick of the ledger. -/
def tickPower (s : State) (l : List Nat) : PowerU :=
  let b := s.balance (meter s.variantN 0 l).sum
  { s.meteredPower l with
    bal := b, cap := s.almCap
    deferOut := lostAt b s.almCap (s.fld 0x2F0108 15 8) (s.fld 0x2F0108 7 0) s.power.deferOut
    shedOut := lostAt b s.almCap (s.fld 0x2F0108 23 16) (s.fld 0x2F0108 7 0) s.power.shedOut
    floor := decide (b ≤ -(s.almCap : Int)) }

/-- What is posted of the losses since `p`. -/
def lossPosts (p : PowerU) (s : State) : State :=
  let t := if s.power.shedOut ∧ ¬ p.shedOut then s.raiseNow 0x4055#16 0x10 0xFF else s
  let t := if s.power.deferOut ∧ ¬ p.deferOut then t.raiseNow 0x4054#16 0x10 0xFF else t
  if s.power.floor ∧ ¬ p.floor then t.raiseNow 0x4051#16 0x10 0xFF else t

theorem lossPosts_leaves (p : PowerU) (s : State) :
    ∃ t, s.lossPosts p = t ∧ (s.power.floor = true → p.floor = false → t.lastCode 0x2F0114 = 0x4051#16) ∧
      t = { s with log := t.log } := by
  obtain ⟨l1, h1, -⟩ := raiseNowIf_leaves s (s.power.shedOut = true ∧ ¬ p.shedOut = true) (c := 0x4055#16) 0x10 0xFF (by decide)
  obtain ⟨l2, h2, -⟩ := raiseNowIf_leaves { s with log := l1 } (s.power.deferOut = true ∧ ¬ p.deferOut = true) (c := 0x4054#16) 0x10 0xFF
    (by decide)
  obtain ⟨l3, h3, hcode⟩ := raiseNowIf_leaves { s with log := l2 } (s.power.floor = true ∧ ¬ p.floor = true) (c := 0x4051#16) 0x10 0xFF
    (by decide)
  refine ⟨{ s with log := l3 }, ?_, fun hf hp => hcode ⟨hf, by simp [hp]⟩ _ (by decide), rfl⟩
  simp only [lossPosts]
  rw [h1, h2, h3]

theorem almanacTickEff_early {s : State} (l : List Nat) (h : s.running = false ∨ s.now - s.power.tickAt < 10000) :
    s.almanacTickEff l = s := if_pos (h.imp_left (by simp [·]))

/-- A tick whose time has come, by the ledger's EN. -/
theorem almanacTickEff_due {s : State} (l : List Nat) (hr : s.running = true) (hd : 10000 ≤ s.now - s.power.tickAt) :
    s.almanacTickEff l =
      if ¬ s.flag 0x2F0100 31 then { s with power := s.meteredPower l }
      else (({ s with power := s.tickPower l } : State).lossPosts s.power).admission s.deferAdmits s.shedAdmits := by
  have hgo : ¬(¬ s.running = true ∨ s.now - s.power.tickAt < 10000) := by
    rintro (h | h)
    · exact h hr
    · omega
  exact if_neg hgo

theorem almanacTickEff_ledger {s : State} (l : List Nat) (hr : s.running = true) (hd : 10000 ≤ s.now - s.power.tickAt)
    (hen : s.flag 0x2F0100 31 = true) :
    ∃ t, s.almanacTickEff l = t ∧ t.power = s.tickPower l ∧
      (t.power.floor = true → s.power.floor = false → t.lastCode 0x2F0114 = 0x4051#16) ∧
      (s.deferAdmits = true → t.deferAdmits = false → ∀ c, t.defersAs true c) ∧
      t = { s with power := t.power, log := t.log, lanes := t.lanes, free := t.free, ctxs := t.ctxs, codec := t.codec } := by
  obtain ⟨u, hu, hcode, hframe⟩ := lossPosts_leaves s.power { s with power := s.tickPower l }
  obtain ⟨t, ht, honly, hpower, hdefer, -⟩ := admission_leaves u s.deferAdmits s.shedAdmits
  have hupower : u.power = s.tickPower l := (congrArg State.power hframe :)
  have hadmit : t.deferAdmits = u.deferAdmits := (congrArg deferAdmits honly.frame :)
  refine ⟨t, ?_, hpower.trans hupower, fun hf hp => ?_, fun hs hno => hdefer hs (hadmit ▸ hno), ?_⟩
  · rw [almanacTickEff_due l hr hd, if_neg (not_not.2 hen), hu, ht]
  · rw [hpower, hupower] at hf
    exact (honly.code _).trans (hcode hf hp)
  · have h := honly.frame
    rw [hframe] at h
    rw [h]

/-! ## `ALM_ENV` and `ALM_CFG` (R387) -/

theorem regSpec_almEnv : regSpec 0x2F0104 = some (reg1 0x104 0x1051#16 (fldC .rw 9 0 8 920) 0x398#32) := by decide

/-- The register's entry in the map. -/
def almCfgSpec : RegSpec :=
  { delta := 0x100, reset := 0x64#32, code := 0x1051#16, fields := [fldC .rw 13 0 1 10000, Machine.fld .rw 31 31] }

theorem regSpec_almCfg : regSpec 0x2F0100 = some almCfgSpec := by decide

theorem almEnv_leaves {s : State} {v : Word} (h8 : 8 ≤ bits v 9 0) (h920 : bits v 9 0 ≤ 920) :
    ∃ t, s.almSettingEff true v = t ∧ t.fld 0x2F0104 9 0 = bits v 9 0 ∧ (∀ o, o ≠ 0x2F0104 → t.reg o = s.reg o) ∧
      t = { s with regs := t.regs, log := t.log } := by
  obtain ⟨t, ht, -, hregs, hframe⟩ :=
    writeFields_leaves (s := s) 0x10 0xFF v regSpec_almEnv (by decide) (by decide) (.inr (by decide))
  refine ⟨t, ht, ?_, hregs, hframe⟩
  rw [← ht]
  exact writeFields_inRange 0x10 0xFF regSpec_almEnv (by decide) (by decide) (by decide) h8 h920

/-- What a write of `ALM_CFG` leaves in EN. -/
theorem almCfg_leaves (s : State) (v : Word) :
    ∃ u, s.writeFields 0x2F0100 0x10 0xFF v = u ∧ u.flag 0x2F0100 31 = bit v 31 ∧ (∀ o, o ≠ 0x2F0100 → u.reg o = s.reg o) ∧
      u = { s with regs := u.regs, log := u.log } := by
  obtain ⟨u, hu, hfield, hregs, hframe⟩ :=
    writeFields_leaves (s := s) 0x10 0xFF v regSpec_almCfg (by decide) (by decide) (.inr (by decide))
  exact ⟨u, hu, bit_eq_of_bits (hfield (Machine.fld .rw 31 31) (by decide) ⟨.inl rfl, .inl rfl⟩), hregs, hframe⟩

/-- EN set: a ledger that was off starts full. -/
theorem almCfg_set {s : State} {v : Word} (hv : bit v 31 = true) :
    ∃ t, s.almSettingEff false v = t ∧ t.flag 0x2F0100 31 = true ∧ (∀ o, o ≠ 0x2F0100 → t.reg o = s.reg o) ∧
      (s.flag 0x2F0100 31 = false → t.power = { s.power with bal := t.almCap, cap := t.almCap }) ∧
      (s.flag 0x2F0100 31 = true → t.power = s.power) ∧ t = { s with regs := t.regs, log := t.log, power := t.power } := by
  obtain ⟨u, hu, hen, hregs, hframe⟩ := almCfg_leaves s v
  rw [hv] at hen
  have hpower : u.power = s.power := (congrArg State.power hframe :)
  have he : s.almSettingEff false v =
      if s.flag 0x2F0100 31 then u else { u with power := { u.power with bal := u.almCap, cap := u.almCap } } := by
    rw [almSettingEff, if_neg Bool.false_ne_true, almCfgWrite, hu]
    exact if_pos hen
  cases hwas : s.flag 0x2F0100 31 with
  | true =>
    rw [hwas, if_pos rfl] at he
    exact ⟨u, he, hen, hregs, fun h => absurd h Bool.noConfusion, fun _ => hpower, hframe.trans (by rw [hframe])⟩
  | false =>
    rw [hwas, if_neg Bool.false_ne_true] at he
    refine ⟨_, he, hen, hregs, fun _ => ?_, fun h => absurd h Bool.noConfusion, ?_⟩
    · rw [hpower]
      rfl
    · exact congrArg (fun w : State => { w with power := { u.power with bal := u.almCap, cap := u.almCap } }) hframe

/-- EN cleared: all work is admitted by balance, and no eye scan is shed. -/
theorem almCfg_cleared {s : State} {v : Word} (hv : bit v 31 = false) :
    ∃ t, s.almSettingEff false v = t ∧ t.flag 0x2F0100 31 = false ∧ (∀ o, o ≠ 0x2F0100 → t.reg o = s.reg o) ∧
      t.power = { s.power with deferOut := false, shedOut := false, floor := false } ∧
      t = { s with regs := t.regs, log := t.log, power := t.power, ctxs := t.ctxs, codec := t.codec } := by
  obtain ⟨u, hu, hen, hregs, hframe⟩ := almCfg_leaves s v
  rw [hv] at hen
  have hpower : u.power = s.power := (congrArg State.power hframe :)
  let w : State := { u with power := { u.power with deferOut := false, shedOut := false, floor := false } }
  obtain ⟨t, ht, -, hpower', -, hquiet⟩ := admission_leaves w s.deferAdmits s.shedAdmits
  have hcap : s.shedAdmits = true → w.shedAdmits = true := by
    have hw : w.shedAdmits = !s.power.capped := by simp only [shedAdmits, w, hpower, Bool.not_false, Bool.true_and]
    rw [hw, shedAdmits, Bool.and_eq_true]
    exact And.right
  have hframe' := hquiet hcap
  have hreg (o : Nat) : t.reg o = u.reg o := (congrArg (reg · o) hframe' :)
  refine ⟨t, ?_, ?_, fun o ho => (hreg o).trans (hregs o ho), hpower'.trans ?_, ?_⟩
  · rw [← ht, almSettingEff, if_neg Bool.false_ne_true, almCfgWrite, hu]
    exact if_neg (by simp [hen])
  · rw [flag, hreg]
    exact hen
  · simp only [w, hpower]
  · rw [hframe']
    simp only [w]
    rw [hframe]

end Sys2Proof.Machine.State
end

