-- ==== Sys2Proof/Proofs/ClocksAndSleep.lean ====
section
/-! SUPPORT. Stopped clocks, crossings and module sleep (R377, R381, R382, R385, R386, R400). -/

namespace Sys2Proof.Machine.State

/-! ## Resets that Vigil orders (R400, R401) -/

theorem order_frame (s : State) (x : Scope) (counted : Bool) :
    ∃ o, s.order x counted = { s with vig := { s.vig with orders := o } } := by
  simp only [order]
  split
  · exact ⟨s.vig.orders, rfl⟩
  · exact ⟨_, rfl⟩

/-- What Vigil orders rests on its own state and the engines alone. -/
theorem order_vig_congr {s u : State} (hv : u.vig = s.vig) (he : u.engines = s.engines) (x : Scope) (counted : Bool) :
    (u.order x counted).vig = (s.order x counted).vig := by
  have ha : u.absorbed_ x = s.absorbed_ x := by cases x <;> simp only [absorbed_, engine, hv, he]
  simp only [order, ha, hv]
  split
  · exact hv
  · rfl

/-- A cold boot that nothing in progress absorbs is ordered. -/
theorem order_cold_mem {s : State} (hh : s.vig.halted = false) (hc : s.vig.coldFrom = none) (counted : Bool) :
    ∃ b, (Scope.cold, b) ∈ (s.order .cold counted).vig.orders := by
  have ha : s.absorbed_ .cold = false := by simp [absorbed_, hh, hc, scopeRank]
  by_cases hany : s.vig.orders.any (fun o => decide (o.1 = Scope.cold) || decide (scopeRank .cold < scopeRank o.1)) = true
  · obtain ⟨⟨x, b⟩, hmem, hx⟩ := List.any_eq_true.1 hany
    have hcold : x = .cold := by cases x <;> simp [scopeRank] at hx ⊢
    refine ⟨b, ?_⟩
    rw [order, if_pos (.inr hany)]
    exact hcold ▸ hmem
  · refine ⟨counted, ?_⟩
    rw [order, if_neg (by rw [ha]; simpa using hany)]
    exact List.mem_append_right _ (List.mem_singleton.2 rfl)

/-- A detection changes Vigil's orders, or what is deferred under freeze. -/
theorem detect_frame (s : State) (x : Scope) : ∃ l o, s.detect x = { s with lead := l, vig := { s.vig with orders := o } } := by
  obtain ⟨o, ho⟩ := order_frame s x true
  simp only [detect]
  split
  · exact ⟨_, s.vig.orders, rfl⟩
  · exact ⟨s.lead, o, ho⟩

theorem detect_unfrozen {s : State} (hf : s.freeze = false) (x : Scope) : s.detect x = s.order x := if_neg (by simp [hf])

theorem fence_frame (s : State) (e : Nat) : ∃ x, s.fence e = { s with engines := x } := by
  simp only [fence]
  split
  · exact ⟨_, rfl⟩
  · exact ⟨s.engines, rfl⟩

theorem fence_unfrozen {s : State} (hf : s.freeze = false) (e : Nat) : s.fence e = s := if_neg (by simp [hf])

/-! ## A clock that has stopped (R381) -/

/-- A stopped clock shown and its code posted. -/
def clockShown (s : State) (d : Nat) : State :=
  let s := { s with power := { s.power with stopped := s.power.stopped ||| (1#25 <<< d) } }
  (s.setReg 0x2F0004 (s.reg 0x2F0004 ||| (1#32 <<< d))).raise 0x5051#16 0x10 (d + 1)

/-- What a stopped clock does by its domain: a reset ordered, the heartbeat gone, or ports that lose lock. -/
def clockActs (s : State) (d : Nat) : State :=
  if h : 2 ≤ d ∧ d < 8 then (s.fence (d - 2)).detect (.engine ⟨d - 2, by omega⟩)
  else if d = 8 ∨ d = 14 then s.detect .compute
  else if d = 20 then { s with fs := { s.fs with beating := false } }.detect .processor
  else if [9, 10, 11, 13, 15].contains d then s.detect .processor
  else if 16 ≤ d ∧ d < 20 then s.loseLocks [4 * (d - 16), 4 * (d - 16) + 1, 4 * (d - 16) + 2, 4 * (d - 16) + 3]
  else s

theorem clockStopEff_ignored {s : State} {d : Nat} (h : s.running = false ∨ s.power.stopped.getLsbD d = true ∨ s.stopCause d = true) :
    s.clockStopEff d = s := if_pos (h.imp_left (by simp [·]))

theorem clockStopEff_eq {s : State} {d : Nat} (hr : s.running = true) (hs : s.power.stopped.getLsbD d = false)
    (hc : s.stopCause d = false) : s.clockStopEff d = (s.clockShown d).clockActs d := if_neg (by simp [hr, hs, hc])

theorem clockShown_leaves (s : State) (d : Fin 25) :
    ∃ t, s.clockShown d = t ∧ t.power = { s.power with stopped := t.power.stopped } ∧
      (∀ i, i < 25 → t.power.stopped.getLsbD i = (s.power.stopped.getLsbD i || decide (i = d.val))) ∧
      t.flag 0x2F0004 d = true ∧ (∀ o, o ≠ 0x2F0004 → t.reg o = s.reg o) ∧ t.lastCode 0x2F0114 = 0x5051#16 ∧
      t = { s with power := t.power, regs := t.regs, log := t.log } := by
  let p : PowerU := { s.power with stopped := s.power.stopped ||| (1#25 <<< d.val) }
  let u : State := ({ s with power := p } : State).setReg 0x2F0004 (s.reg 0x2F0004 ||| (1#32 <<< d.val))
  obtain ⟨t, ht, hcode, -, hframe⟩ := raise_leaves u 0x5051#16 0x10 (d + 1) 1 []
  have hpower : t.power = p := (congrArg State.power hframe :)
  have hreg (o : Nat) : t.reg o = u.reg o := (congrArg (reg · o) hframe :)
  have hd := d.isLt
  refine ⟨t, ht, by rw [hpower], fun i hi => ?_, ?_, fun o ho => (hreg o).trans (reg_setReg_other _ _ _ _ ho),
    (hcode _).trans (if_pos (List.mem_singleton.2 rfl)), ?_⟩
  · rw [hpower]
    simp only [p, BitVec.getLsbD_or, BitVec.getLsbD_shiftLeft, BitVec.getLsbD_one]
    congr 1
    by_cases hid : i = d.val
    · simp [hid, hd]
    · rcases Nat.lt_or_ge i d.val with hlt | hge
      · simp [hid, hlt]
      · have hsub : i - d.val ≠ 0 := by omega
        simp [hid, hsub]
  · have hsame : t.reg 0x2F0004 = s.reg 0x2F0004 ||| (1#32 <<< d.val) := (hreg _).trans (reg_setReg_same _ _ _)
    rw [flag, hsame, bit_eq, BitVec.testBit_toNat]
    simp [Nat.lt_trans hd (by omega : 25 < 32)]
  · rw [hframe]
    rfl

/-- `t` is `s` with a stopped clock acted on. -/
structure ClockActed (s t : State) : Prop where
  power : t.power = s.power
  regs : t.regs = s.regs
  code : ∀ o, t.lastCode o = s.lastCode o

theorem loseLocks_acted (s : State) (l : List Nat) : ClockActed s (s.loseLocks l) := by
  induction l generalizing s with
  | nil => exact ⟨rfl, rfl, fun _ => rfl⟩
  | cons n r ih =>
    have hone : ClockActed s (s.blockLockLossEff n true) := by
      by_cases h : s.portOn n = true ∧ (s.port n).locked = true ∧ ¬ s.rxQuiet n = true
      · obtain ⟨u, hu, -, -, -, -, hframe⟩ := hunt_leaves s n
        obtain ⟨t, ht, hcode, -, hframe'⟩ := raise_leaves (u.bump (portOff n + 0x2C) 1) 0x2201#16 0x02 n 1 []
        have he : s.blockLockLossEff n true = t := by
          rw [← ht, ← hu]
          exact if_pos h
        rw [he]
        refine ⟨(congrArg State.power hframe' :).trans (congrArg State.power hframe :),
          (congrArg State.regs hframe' :).trans (congrArg State.regs hframe :), fun o => ?_⟩
        exact (hcode o).trans ((if_neg List.not_mem_nil).trans (congrArg (lastCode · o) hframe :))
      · rw [blockLockLossEff, if_neg h]
        exact ⟨rfl, rfl, fun _ => rfl⟩
    have hrest := ih (s.blockLockLossEff n true)
    exact ⟨hrest.power.trans hone.power, hrest.regs.trans hone.regs, fun o => (hrest.code o).trans (hone.code o)⟩

theorem detect_acted (s : State) (x : Scope) : ClockActed s (s.detect x) := by
  obtain ⟨l, o, h⟩ := detect_frame s x
  rw [h]
  exact ⟨rfl, rfl, fun _ => rfl⟩

/-- The domain of a stopped clock decides what it does. -/
theorem clockActs_engine {s : State} {d : Nat} (h : 2 ≤ d ∧ d < 8) :
    s.clockActs d = (s.fence (d - 2)).detect (.engine ⟨d - 2, by omega⟩) := dif_pos h

theorem clockActs_compute {s : State} {d : Nat} (h : d = 8 ∨ d = 14) : s.clockActs d = s.detect .compute := by
  rw [clockActs, dif_neg (by omega), if_pos h]

theorem clockActs_processor {s : State} {d : Nat} (h : d ∈ [9, 10, 11, 13, 15]) : s.clockActs d = s.detect .processor := by
  have hd : d = 9 ∨ d = 10 ∨ d = 11 ∨ d = 13 ∨ d = 15 := by simpa using h
  rw [clockActs, dif_neg (by omega), if_neg (by omega), if_neg (by omega), if_pos (List.contains_iff_mem.2 h)]

theorem clockActs_heartbeat (s : State) :
    s.clockActs 20 = ({ s with fs := { s.fs with beating := false } } : State).detect .processor := rfl

theorem clockActs_quad {s : State} {d : Nat} (h : 16 ≤ d ∧ d < 20) :
    s.clockActs d = s.loseLocks [4 * (d - 16), 4 * (d - 16) + 1, 4 * (d - 16) + 2, 4 * (d - 16) + 3] := by
  have hno : d ∉ [9, 10, 11, 13, 15] := by simp; omega
  rw [clockActs, dif_neg (by omega), if_neg (by omega), if_neg (by omega), if_neg (by simpa using hno), if_pos h]

theorem clockActs_none {s : State} {d : Nat} (h : d ∉ [8, 9, 10, 11, 13, 14, 15, 20] ∧ ¬(2 ≤ d ∧ d < 8) ∧ ¬(16 ≤ d ∧ d < 20)) :
    s.clockActs d = s := by
  obtain ⟨hno, he, hq⟩ := h
  simp only [List.mem_cons, List.not_mem_nil, or_false, not_or] at hno
  have hno' : d ∉ [9, 10, 11, 13, 15] := by simp; omega
  rw [clockActs, dif_neg he, if_neg (by omega), if_neg (by omega), if_neg (by simpa using hno'), if_neg hq]

/-- The kinds of clock domain. -/
theorem clockDomain_cases (d : Nat) : (2 ≤ d ∧ d < 8) ∨ (d = 8 ∨ d = 14) ∨ d ∈ [9, 10, 11, 13, 15] ∨ d = 20 ∨ (16 ≤ d ∧ d < 20) ∨
    (d ∉ [8, 9, 10, 11, 13, 14, 15, 20] ∧ ¬(2 ≤ d ∧ d < 8) ∧ ¬(16 ≤ d ∧ d < 20)) := by
  simp only [List.mem_cons, List.not_mem_nil, or_false]
  omega

theorem clockActs_acted (s : State) (d : Nat) : ClockActed s (s.clockActs d) := by
  rcases clockDomain_cases d with h | h | h | h | h | h
  · obtain ⟨x, hx⟩ := fence_frame s (d - 2)
    rw [clockActs_engine h, hx]
    obtain ⟨hp, hr, hc⟩ := detect_acted { s with engines := x } (.engine ⟨d - 2, by omega⟩)
    exact ⟨hp, hr, hc⟩
  · rw [clockActs_compute h]
    exact detect_acted s _
  · rw [clockActs_processor h]
    exact detect_acted s _
  · rw [h, clockActs_heartbeat]
    obtain ⟨hp, hr, hc⟩ := detect_acted { s with fs := { s.fs with beating := false } } .processor
    exact ⟨hp, hr, hc⟩
  · rw [clockActs_quad h]
    exact loseLocks_acted s _
  · rw [clockActs_none h]
    exact ⟨rfl, rfl, fun _ => rfl⟩

/-- Where there is no freeze, a stopped clock orders the reset of its domain. -/
theorem clockActs_unfrozen {s : State} (d : Nat) (hf : s.freeze = false) :
    (∀ e : Fin 6, d = e.val + 2 → (s.clockActs d).vig = (s.order (.engine e)).vig) ∧
      ((d = 8 ∨ d = 14) → (s.clockActs d).vig = (s.order .compute).vig) ∧
      (d ∈ [9, 10, 11, 13, 15, 20] → (s.clockActs d).vig = (s.order .processor).vig) ∧
      (¬(16 ≤ d ∧ d < 20) → s.clockActs d = { s with vig := (s.clockActs d).vig, fs := (s.clockActs d).fs }) := by
  have hengine (h : 2 ≤ d ∧ d < 8) : s.clockActs d = s.order (.engine ⟨d - 2, by omega⟩) := by
    rw [clockActs_engine h, fence_unfrozen hf, detect_unfrozen hf]
  have hcompute (h : d = 8 ∨ d = 14) : s.clockActs d = s.order .compute := (clockActs_compute h).trans (detect_unfrozen hf _)
  have hprocessor (h : d ∈ [9, 10, 11, 13, 15]) : s.clockActs d = s.order .processor :=
    (clockActs_processor h).trans (detect_unfrozen hf _)
  have hbeat : s.clockActs 20 = ({ s with fs := { s.fs with beating := false } } : State).order .processor :=
    (clockActs_heartbeat s).trans (detect_unfrozen (s := { s with fs := { s.fs with beating := false } }) hf _)
  have hframe {u : State} {x : Scope} (hu : u = { s with fs := u.fs }) :
      u.order x = { s with vig := (u.order x).vig, fs := (u.order x).fs } := by
    obtain ⟨o, ho⟩ := order_frame u x true
    rw [ho, hu]
  refine ⟨fun e he => ?_, fun h => by rw [hcompute h], fun h => ?_, fun hq => ?_⟩
  · rw [hengine (by omega)]
    have hfin : (⟨d - 2, by omega⟩ : Fin 6) = e := Fin.ext (by simp only; omega)
    rw [hfin]
  · by_cases h20 : d = 20
    · rw [h20, hbeat]
      exact order_vig_congr (s := s) (u := { s with fs := { s.fs with beating := false } }) rfl rfl _ _
    · rw [hprocessor (by simpa [h20] using h)]
  · rcases clockDomain_cases d with h | h | h | h | h | h
    · rw [hengine h]
      exact hframe rfl
    · rw [hcompute h]
      exact hframe rfl
    · rw [hprocessor h]
      exact hframe rfl
    · rw [h, hbeat]
      exact hframe (u := { s with fs := { s.fs with beating := false } }) rfl
    · exact absurd h hq
    · rw [clockActs_none h]

/-- A clock stopped without cause. -/
theorem clockStop_leaves {s : State} {d : Fin 25} (hr : s.running = true) (hs : s.power.stopped.getLsbD d = false)
    (hc : s.stopCause d = false) :
    ∃ t : State, s.clockStopEff d = t ∧ t.power = { s.power with stopped := t.power.stopped } ∧
      (∀ i, i < 25 → t.power.stopped.getLsbD i = (s.power.stopped.getLsbD i || decide (i = d.val))) ∧
      t.flag 0x2F0004 d = true ∧ (∀ o, o ≠ 0x2F0004 → t.reg o = s.reg o) ∧ t.lastCode 0x2F0114 = 0x5051#16 ∧
      (s.freeze = false →
        (∀ e : Fin 6, d.val = e.val + 2 → t.vig = (s.order (.engine e)).vig) ∧
        ((d.val = 8 ∨ d.val = 14) → t.vig = (s.order .compute).vig) ∧
        (d.val ∈ [9, 10, 11, 13, 15, 20] → t.vig = (s.order .processor).vig) ∧
        (¬(16 ≤ d.val ∧ d.val < 20) → t = { s with power := t.power, regs := t.regs, log := t.log, vig := t.vig, fs := t.fs })) := by
  obtain ⟨u, hu, hpower, hstopped, hflag, hregs, hcode, hframe⟩ := clockShown_leaves s d
  obtain ⟨hpower', hregs', hcode'⟩ := clockActs_acted u d
  have he : s.clockStopEff d = u.clockActs d := by rw [clockStopEff_eq hr hs hc, hu]
  have hreg (o : Nat) : (u.clockActs d).reg o = u.reg o := congrArg (fun r => tget (resetWord o) r o) hregs'
  refine ⟨_, he, by rw [hpower', hpower], fun i hi => by rw [hpower', hstopped i hi], ?_, fun o ho => (hreg o).trans (hregs o ho),
    (hcode' _).trans hcode, fun hf => ?_⟩
  · rw [flag, hreg]
    exact hflag
  · have hvig : u.vig = s.vig := (congrArg State.vig hframe :)
    have hengines : u.engines = s.engines := (congrArg State.engines hframe :)
    have hfreeze : u.freeze = s.freeze := (congrArg freeze hframe :)
    obtain ⟨h1, h2, h3, h4⟩ := clockActs_unfrozen (s := u) d (hfreeze.trans hf)
    refine ⟨fun e hd => (h1 e hd).trans (order_vig_congr hvig hengines _ _), fun hd => (h2 hd).trans (order_vig_congr hvig hengines _ _),
      fun hd => (h3 hd).trans (order_vig_congr hvig hengines _ _), fun hq => ?_⟩
    have h := h4 hq
    obtain ⟨x, hx⟩ : ∃ x, u.clockActs d = x := ⟨_, rfl⟩
    rw [hx] at h ⊢
    rw [h, hframe]

/-! ## Crossings (R382) -/

theorem crossingReopenEff_opens {s : State} {c : Nat} (h1 : s.power.closed.contains c = true) (h2 : s.domainUp c = true)
    (h3 : s.power.stopped.getLsbD (c - 1) = false) :
    s.crossingReopenEff c = { s with power := { s.power with closed := s.power.closed.filter (fun x => decide (x ≠ c)) } } :=
  if_pos ⟨h1, h2, by simp [h3]⟩

theorem crossingReopenEff_waits {s : State} {c : Nat}
    (h : s.power.closed.contains c = false ∨ s.domainUp c = false ∨ s.power.stopped.getLsbD (c - 1) = true) :
    s.crossingReopenEff c = s := by
  refine if_neg fun ⟨h1, h2, h3⟩ => ?_
  rcases h with h | h | h
  · exact absurd (h.symm.trans h1) Bool.false_ne_true
  · simp [h] at h2
  · exact h3 h

/-! ## Module sleep (R385, R386) -/

theorem sleepEff_ignored {s : State} {v : Word} (h : bit v 31 = false ∨ s.power.mode ≠ 0) : s.sleepEff v = s :=
  if_pos (h.imp_left (by simp [·]))

/-- SLEEP with work running is refused with 0x1051. -/
theorem sleepEff_refused {s : State} {v : Word} (hv : bit v 31 = true) (hm : s.power.mode = 0) (hb : s.sleepBarred = true) :
    ∃ t, s.sleepEff v = t ∧ t.lastCode 0x2F0114 = 0x1051#16 ∧ t = { s with log := t.log } := by
  obtain ⟨l, hl⟩ := refuse_frame s 0x1051#16 0x10 0xFF 0x2F0018 31 0 0
  have hcode := lastCode_refuse s 0x1051#16 0x10 0xFF 0x2F0018 31 0 0 0x2F0114
  rw [if_pos (by decide), hl] at hcode
  refine ⟨_, ?_, hcode, rfl⟩
  rw [sleepEff, if_neg (by simp [hv, hm]), if_pos hb, hl]

/-- Every port of a list stops; one that holds nothing stays so. -/
theorem quietPorts_leaves (s : State) (l : List Nat) :
    ∃ t, s.quietPorts l = t ∧ (∀ n, n ∈ l ∨ s.port n = {} → t.port n = {}) ∧ t = { s with ports := t.ports, lanes := t.lanes } := by
  induction l generalizing s with
  | nil => exact ⟨s, rfl, fun n h => h.resolve_left List.not_mem_nil, rfl⟩
  | cons m r ih =>
    obtain ⟨u, hu, hport, hports, -, -, hframe⟩ := stopPort_leaves s m
    obtain ⟨t, ht, hall, hframe'⟩ := ih u
    refine ⟨t, by rw [quietPorts, hu, ht], fun n h => hall n ?_, by rw [hframe', hframe]⟩
    by_cases hn : n = m
    · exact .inr (hn ▸ hport)
    · exact h.imp (fun hm => (List.mem_cons.1 hm).resolve_left hn) fun h0 => (hports n hn).trans h0

theorem sleepEff_sleeps {s : State} {v : Word} (hv : bit v 31 = true) (hm : s.power.mode = 0) (hb : s.sleepBarred = false) :
    ∃ t, s.sleepEff v = t ∧ t.power = { s.power with mode := 2 } ∧ (∀ n, n < 16 → t.port n = {}) ∧
      t = { s with power := t.power, ports := t.ports, lanes := t.lanes } := by
  obtain ⟨t, ht, hall, hframe⟩ := quietPorts_leaves { s with power := { s.power with mode := 2 } } (List.range 16)
  refine ⟨t, ?_, (congrArg State.power hframe :), fun n hn => hall n (.inl (List.mem_range.2 hn)), ?_⟩
  · rw [← ht, sleepEff, if_neg (by simp [hv, hm]), if_neg (by simp [hb])]
  · rw [hframe]

theorem wakeEff_ignored {s : State} {v : Word} (h : bit v 30 = false ∨ s.power.mode ≠ 2) : s.wakeEff v = s :=
  if_neg fun ⟨h1, h2⟩ => h.elim (by simp [h1]) (· h2)

theorem wakeEff_wakes {s : State} {v : Word} (hv : bit v 30 = true) (hm : s.power.mode = 2) :
    s.wakeEff v = { s with power := { s.power with mode := 0 } } := if_pos ⟨hv, hm⟩

end Sys2Proof.Machine.State
end

