-- ==== Sys2Proof/Proofs/ThermalAndSupplies.lean ====
section
/-! SUPPORT. Thermal limits (R391, R393), the 48 V supply and nRST_REQ (R403, R465, R466, R468). -/

namespace Sys2Proof.Machine

/-- A filter by key leaves what a table holds at a key it keeps. -/
theorem tget_filter_key {α : Type} (d : α) (p : Nat → Bool) (t : Tab α) {k : Nat} (hk : p k = true) :
    tget d (t.filter (fun x => p x.1)) k = tget d t k := by
  induction t with
  | nil => rfl
  | cons x r ih =>
    obtain ⟨a, v⟩ := x
    by_cases ha : a = k
    · subst ha
      rw [List.filter_cons_of_pos (p := fun x : Nat × α => p x.1) hk]
      simp only [tget, if_true]
    · have hskip : tget d ((a, v) :: r) k = tget d r k := if_neg ha
      by_cases hpa : p a = true
      · rw [List.filter_cons_of_pos (p := fun x : Nat × α => p x.1) hpa, hskip, ← ih]
        exact if_neg ha
      · rw [List.filter_cons_of_neg (p := fun x : Nat × α => p x.1) hpa, hskip, ih]

namespace State

/-! ## Rows of the thermal limits (R391) -/

theorem rowIn_entered {tj tm j m : Int} (was : Bool) (h : 16 * j ≤ tj ∨ 16 * m ≤ tm) : rowIn tj tm j m was = true := by
  rcases h with h | h
  · simp [rowIn, h]
  · simp [rowIn, h]

/-- A row ends where both temperatures are more than 3 °C below its thresholds. -/
theorem rowIn_left {tj tm j m : Int} (was : Bool) (hj : tj < 16 * (j - 3)) (hm : tm < 16 * (m - 3)) : rowIn tj tm j m was = false := by
  have hj' : ¬ 16 * j ≤ tj := by omega
  have hm' : ¬ 16 * m ≤ tm := by omega
  simp [rowIn, hj', hm', Int.not_le.2 hj, Int.not_le.2 hm]

/-- The highest row, which ends in the shutdown. -/
def hotRow (p : PowerU) (tj tm : Int) : Bool := rowIn tj tm 110 98 p.hotFrom.isSome

/-- The row that takes admission from deferrable and sheddable work. -/
def capRow (p : PowerU) (tj tm : Int) : Bool := hotRow p tj tm || rowIn tj tm 95 90 p.capped

theorem capRow_entered {p : PowerU} {tj tm : Int} (h : 16 * 95 ≤ tj ∨ 16 * 90 ≤ tm) : capRow p tj tm = true := by
  rw [capRow, rowIn_entered _ h, Bool.or_true]

theorem capRow_left {p : PowerU} {tj tm : Int} (hj : tj < 16 * 92) (hm : tm < 16 * 87) : capRow p tj tm = false := by
  rw [capRow, hotRow, rowIn_left _ (by omega) (by omega), rowIn_left _ (by omega) (by omega), Bool.or_false]

/-- The power unit after a sample of the temperatures. -/
def sampledPower (s : State) (logic dram : List Int) : PowerU :=
  let p := s.power
  let tj := hottest p.tj logic
  let tm := hottest p.tmem dram
  let cap := capRow p tj tm
  let warm := cap || rowIn tj tm 90 88 p.warm
  { p with
    tj, tmem := tm, readAt := s.now, kTherm := if cap then 0 else if warm then 2 else 4, warm, capped := cap
    refresh := warm || decide (16 * 85 < tm) || (p.refresh && decide (16 * 82 < tm))
    hotFrom := if hotRow p tj tm then some (p.hotFrom.getD s.now) else none
    coolFrom := if decide (tj < 16 * 85) && decide (tm < 16 * 85) then some (p.coolFrom.getD s.now) else none }

section
variable {s : State} {logic dram : List Int} {tj tm : Int} (hj : tj = hottest s.power.tj logic) (hm : tm = hottest s.power.tmem dram)
include hj hm

theorem sampledPower_capped (h : 16 * 95 ≤ tj ∨ 16 * 90 ≤ tm) :
    (s.sampledPower logic dram).capped = true ∧ (s.sampledPower logic dram).kTherm = 0 := by
  subst hj hm
  have hcap := capRow_entered (p := s.power) h
  exact ⟨hcap, if_pos hcap⟩

theorem sampledPower_uncapped (h1 : tj < 16 * 92) (h2 : tm < 16 * 87) : (s.sampledPower logic dram).capped = false := by
  subst hj hm
  exact capRow_left h1 h2

theorem sampledPower_hot (h : 16 * 110 ≤ tj ∨ 16 * 98 ≤ tm) :
    (s.sampledPower logic dram).hotFrom = some (s.power.hotFrom.getD s.now) := by
  subst hj hm
  exact if_pos (rowIn_entered _ h)

theorem sampledPower_unhot (h1 : tj < 16 * 107) (h2 : tm < 16 * 95) : (s.sampledPower logic dram).hotFrom = none := by
  subst hj hm
  have hrow : hotRow s.power (hottest s.power.tj logic) (hottest s.power.tmem dram) = false :=
    rowIn_left _ (by omega) (by omega)
  exact if_neg (Bool.eq_false_iff.1 hrow)

theorem sampledPower_cool (h1 : tj < 16 * 85) (h2 : tm < 16 * 85) :
    (s.sampledPower logic dram).coolFrom = some (s.power.coolFrom.getD s.now) := by
  subst hj hm
  exact if_pos (by simp only [h1, h2, decide_true, Bool.and_self])

theorem sampledPower_uncool (h : 16 * 85 ≤ tj ∨ 16 * 85 ≤ tm) : (s.sampledPower logic dram).coolFrom = none := by
  subst hj hm
  refine if_neg fun hcool => ?_
  obtain ⟨h1, h2⟩ := (Bool.and_eq_true _ _).mp hcool
  have h1' := of_decide_eq_true h1
  have h2' := of_decide_eq_true h2
  omega

end

theorem sampledPower_refresh {s : State} {logic dram : List Int} (h : 16 * 85 < hottest s.power.tmem dram) :
    (s.sampledPower logic dram).refresh = true := by
  simp only [sampledPower, h, decide_true, Bool.or_true, Bool.true_or]

/-! ## THERMAL_SAMPLE (R391) -/

/-- What is posted of the rows entered since `p`. -/
def thermalPosts (p : PowerU) (s : State) : State :=
  let t := if s.power.refresh ∧ ¬ p.refresh then s.raiseNow 0x4052#16 0x10 0xFF else s
  if s.power.capped ∧ ¬ p.capped then t.raiseNow 0x4053#16 0x10 0xFF else t

theorem thermalPosts_leaves (p : PowerU) (s : State) :
    ∃ t, s.thermalPosts p = t ∧ (s.power.capped = true → p.capped = false → t.lastCode 0x2F0308 = 0x4053#16) ∧
      t = { s with log := t.log } := by
  obtain ⟨l1, h1, -⟩ := raiseNowIf_leaves s (s.power.refresh = true ∧ ¬ p.refresh = true) (c := 0x4052#16) 0x10 0xFF (by decide)
  obtain ⟨l2, h2, hcode⟩ := raiseNowIf_leaves { s with log := l1 } (s.power.capped = true ∧ ¬ p.capped = true) (c := 0x4053#16) 0x10 0xFF
    (by decide)
  refine ⟨{ s with log := l2 }, ?_, fun hc hp => hcode ⟨hc, by simp [hp]⟩ _ (by decide), rfl⟩
  simp only [thermalPosts]
  rw [h1, h2]

theorem thermalSampleEff_early {s : State} (lg dr : List Int) (h : s.power.dark = true ∨ s.now - s.power.readAt < 100000) :
    s.thermalSampleEff lg dr = s := if_pos h

theorem thermalSampleEff_due {s : State} (lg dr : List Int) (hd : s.power.dark = false) (ht : 100000 ≤ s.now - s.power.readAt) :
    s.thermalSampleEff lg dr =
      if ¬ s.running then { s with power := s.sampledPower lg dr }
      else (({ s with power := s.sampledPower lg dr } : State).thermalPosts s.power).admission s.deferAdmits s.shedAdmits := by
  have hgo : ¬(s.power.dark = true ∨ s.now - s.power.readAt < 100000) := by
    rintro (h | h)
    · exact Bool.false_ne_true (hd.symm.trans h)
    · omega
  exact if_neg hgo

theorem thermalSample_leaves {s : State} (lg dr : List Int) (hd : s.power.dark = false) (hnow : 100000 ≤ s.now - s.power.readAt) :
    ∃ t, s.thermalSampleEff lg dr = t ∧ t.power = s.sampledPower lg dr ∧
      (s.running = true → t.power.capped = true → s.power.capped = false → t.lastCode 0x2F0308 = 0x4053#16) ∧
      t = { s with power := t.power, log := t.log, lanes := t.lanes, free := t.free, ctxs := t.ctxs, codec := t.codec } := by
  have hdue := thermalSampleEff_due lg dr hd hnow
  by_cases hr : s.running = true
  · obtain ⟨u, hu, hcode, hframe⟩ := thermalPosts_leaves s.power { s with power := s.sampledPower lg dr }
    obtain ⟨t, ht, honly, hpower, -, -⟩ := admission_leaves u s.deferAdmits s.shedAdmits
    have hupower : u.power = s.sampledPower lg dr := (congrArg State.power hframe :)
    refine ⟨t, ?_, hpower.trans hupower, fun _ hc hp => ?_, ?_⟩
    · rw [hdue, if_neg (not_not.2 hr), hu, ht]
    · rw [hpower, hupower] at hc
      exact (honly.code _).trans (hcode hc hp)
    · have h := honly.frame
      rw [hframe] at h
      rw [h]
  · rw [if_pos hr] at hdue
    exact ⟨_, hdue, rfl, fun h => absurd h hr, rfl⟩

/-! ## The unpowered processor (R393, R403) -/

/-- What the loss of the processor's supplies keeps: the queue, the clock and the free values drawn, and the Dike and SEC
domains. -/
theorem unpowered_frame (s : State) :
    s.unpowered = { State.reset with
      pending := s.pending, free := s.free, now := s.now, time := {}, variantN := s.variantN, log := s.unpowered.log,
      regs := s.unpowered.regs, fs := s.unpowered.fs, engines := s.unpowered.engines, lead := s.unpowered.lead,
      vig := s.unpowered.vig, sec := s.unpowered.sec, power := s.unpowered.power } := rfl

/-- The reasons for a replacement outlast the processor's supplies (R417). -/
theorem unpowered_reasons (s : State) : s.unpowered.reasons = s.reasons := by
  have hreg : s.unpowered.reg 0x300090 = s.reg 0x300090 := tget_filter_key _ fsKept s.regs (by decide)
  rw [reasons, fld, hreg]
  rfl

theorem reasons_lt (s : State) : s.reasons < 64 := bits_lt (s.reg 0x300090) 5 0

/-- Reason 5 set: the flushes that wait stay. -/
theorem setReason_five_leaves (s : State) :
    ∃ t, s.setReason 5 = t ∧ t.reasons / 2 ^ 5 % 2 = 1 ∧ (∀ f ∈ s.vig.flushes, f ∈ t.vig.flushes) ∧
      t = { s with regs := t.regs, log := t.log, vig := t.vig } := by
  by_cases h : s.reasons / 2 ^ 5 % 2 = 1
  · exact ⟨s, if_pos h, h, fun _ hf => hf, rfl⟩
  · obtain ⟨u, hu, hsame, -, huframe⟩ := setFld_leaves s 0x300090 5 0 (s.reasons + 2 ^ 5)
    obtain ⟨w, hw, -, -, hwframe⟩ := raise_leaves u 0x5068#16 0x0C 0 1 (leBytes 4 u.reasons)
    have he : s.setReason 5 = w.flushDue 0x5068#16 := by
      rw [← hw, ← hu]
      exact if_neg h
    have hwreg : (w.flushDue 0x5068#16).reg 0x300090 = u.reg 0x300090 := (congrArg (reg · 0x300090) hwframe :)
    have hvig : w.vig = s.vig := (congrArg State.vig hwframe :).trans (congrArg State.vig huframe :)
    refine ⟨_, he, ?_, fun f hf => ?_, ?_⟩
    · have hlt := reasons_lt s
      rw [reasons, fld, hwreg, hsame, bits_putBits_same _ _ _ _ (by omega) (by omega)]
      omega
    · exact List.mem_append_left _ (hvig.symm ▸ hf)
    · rw [hwframe, huframe]
      rfl

/-! ## Thermal shutdown and restart (R393) -/

theorem lateBy_false {s : State} {x : Option Nat} {n : Nat} (h : ∀ a, x = some a → s.now - a < n) : s.lateBy x n = false := by
  cases x with
  | none => rfl
  | some a => exact decide_eq_false (Nat.not_le.2 (h a rfl))

theorem lateBy_some {s : State} {a n : Nat} (h : n ≤ s.now - a) : s.lateBy (some a) n = true := decide_eq_true h

/-- The heartbeat gone: the Calendar is empty and 0x5C01 posted. -/
theorem heartbeatLoss_leaves (s : State) :
    ∃ t, s.heartbeatLossEff = t ∧ t = { s with fs := t.fs, cal := t.cal, chans := t.chans, log := t.log } := by
  obtain ⟨u, -, hu, -, huframe⟩ := withFs_leaves s { s.fs with heartbeat := true, beating := false }
  obtain ⟨w, -, hw, -, hwframe⟩ := withFs_leaves { u with cal := [], chans := [] } { u.fs with full := [] }
  obtain ⟨t, ht, -, -, htframe⟩ := raise_leaves w 0x5C01#16 0x07 0xFF 1 (leBytes 4 1)
  refine ⟨t, ?_, ?_⟩
  · rw [← ht, ← hw, ← hu]
    rfl
  · rw [htframe, hwframe, huframe]

theorem thermalShutdownEff_ignored {s : State}
    (h : s.power.off = true ∨ s.power.dark = true ∨ ∀ a, s.power.hotFrom = some a → s.now - a < 1000000) : s.thermalShutdownEff = s :=
  if_pos (h.imp_right fun h => h.imp_right fun h => by simp [lateBy_false h])

theorem thermalShutdown_leaves {s : State} {a : Nat} (ho : s.power.off = false) (hd : s.power.dark = false)
    (ha : s.power.hotFrom = some a) (hlate : 1000000 ≤ s.now - a) :
    ∃ t, s.thermalShutdownEff = t ∧ t.power.off = true ∧ t.reasons / 2 ^ 5 % 2 = 1 ∧ (∃ f ∈ t.vig.flushes, f.code = 0x5052#16) ∧
      t = { State.reset with pending := s.pending, free := s.free, now := s.now, time := {}, variantN := s.variantN, log := t.log,
                             regs := t.regs, fs := t.fs, engines := t.engines, lead := t.lead, vig := t.vig, sec := t.sec, power := t.power } := by
  obtain ⟨u, hu, -, -, huframe⟩ := raise_leaves s 0x5052#16 0x10 0xFF 1 []
  obtain ⟨x, hx, hxframe⟩ := heartbeatLoss_leaves (u.flushDue 0x5052#16)
  obtain ⟨y, hy, hreason, hflush, hyframe⟩ := setReason_five_leaves x
  obtain ⟨w, hw⟩ : ∃ w : State, w = { y with power := { y.power with off := true, coolFrom := none } } := ⟨_, rfl⟩
  have he : s.thermalShutdownEff = w.unpowered := by
    rw [hw, ← hy, ← hx, ← hu]
    exact if_neg (by simp [ho, hd, ha, lateBy_some hlate])
  have hframe : w = { s with
      fs := w.fs, cal := w.cal, chans := w.chans, regs := w.regs, log := w.log, vig := w.vig, power := w.power } := by
    rw [hw, hyframe, hxframe, huframe]
    rfl
  have hpending : w.pending = s.pending := (congrArg State.pending hframe :)
  have hfree : w.free = s.free := (congrArg State.free hframe :)
  have hnow : w.now = s.now := (congrArg State.now hframe :)
  have hvariant : w.variantN = s.variantN := (congrArg State.variantN hframe :)
  have hxvig : x.vig = (u.flushDue 0x5052#16).vig := (congrArg State.vig hxframe :)
  refine ⟨w.unpowered, he, by rw [hw]; rfl, ?_, ?_, ?_⟩
  · rw [unpowered_reasons, hw]
    exact hreason
  · obtain ⟨f, hf, hcode⟩ : ∃ f ∈ x.vig.flushes, f.code = 0x5052#16 := by
      rw [hxvig]
      exact ⟨_, List.mem_append_right _ (List.mem_singleton.2 rfl), rfl⟩
    exact ⟨f, hw ▸ hflush f hf, hcode⟩
  · have h := unpowered_frame w
    rwa [hpending, hfree, hnow, hvariant] at h

/-- A cold boot ordered, unless one that is in progress absorbs it. -/
theorem orderCold_leaves (s : State) :
    ∃ t, s.order .cold false = t ∧ (s.vig.halted = false → s.vig.coldFrom = none → ∃ b, (Scope.cold, b) ∈ t.vig.orders) ∧
      t.vig = { s.vig with orders := t.vig.orders } ∧ t = { s with vig := t.vig } := by
  obtain ⟨o, ho⟩ := order_frame s .cold false
  refine ⟨_, rfl, fun hh hc => order_cold_mem hh hc false, ?_, ?_⟩
  · rw [ho]
  · rw [ho]

theorem thermalRestartEff_waits {s : State} (h : s.power.off = false ∨ ∀ a, s.power.coolFrom = some a → s.now - a < 10000000000) :
    s.thermalRestartEff = s := by
  refine if_neg fun ⟨h1, h2⟩ => ?_
  rcases h with h | h
  · exact Bool.false_ne_true (h.symm.trans h1)
  · exact Bool.false_ne_true ((lateBy_false h).symm.trans h2)

theorem thermalRestartEff_restarts {s : State} {a : Nat} (ho : s.power.off = true) (ha : s.power.coolFrom = some a)
    (hlate : 10000000000 ≤ s.now - a) : s.thermalRestartEff = s.order .cold false := if_pos ⟨ho, ha ▸ lateBy_some hlate⟩

/-! ## The 48 V supply (R465, R466) -/

theorem bits_ofNat_reasons {r : Nat} (h : r < 64) : bits (BitVec.ofNat 32 r) 5 0 = r := by
  rw [bits, BitVec.toNat_ofNat]
  omega

theorem powerLoss_leaves (s : State) :
    ∃ t, s.powerLossEff = t ∧ t.power.dark = true ∧ t.power.off = false ∧ t.reasons = s.reasons ∧
      (∀ o, o ≠ 0x300090 → t.reg o = resetWord o) ∧ t.log = { host := s.log.host } ∧
      t.vig = { powerOns := s.vig.powerOns, slots := s.vig.slots, serial := s.vig.serial } ∧ t.sec.svn = s.sec.svn ∧
      t.sec.flash = s.sec.flash ∧
      t = { State.reset with pending := s.pending, free := s.free, now := s.now, time := {}, variantN := s.variantN, log := t.log,
                             regs := t.regs, vig := t.vig, fs := {}, engines := [], lead := {}, sec := t.sec, power := t.power } := by
  obtain ⟨t, ht⟩ : ∃ t, s.powerLossEff = t := ⟨_, rfl⟩
  have hreset : resetWord 0x300090 = 0 := by decide
  have hregs : t.regs = tset 0 [] 0x300090 (BitVec.ofNat 32 s.reasons) := by rw [← ht]; rfl
  have hsame : t.reg 0x300090 = BitVec.ofNat 32 s.reasons := by rw [reg, hregs, hreset, tget_tset_same]
  refine ⟨t, ht, by rw [← ht]; rfl, by rw [← ht]; rfl, ?_, fun o ho => ?_, by rw [← ht]; rfl, by rw [← ht]; rfl, by rw [← ht]; rfl,
    by rw [← ht]; rfl, by rw [← ht]; rfl⟩
  · rw [reasons, fld, hsame, bits_ofNat_reasons (reasons_lt s)]
  · rw [reg, hregs, tget_tset_other' _ _ _ _ ho]
    rfl

theorem powerOnEff_ignored {s : State} (h : s.power.dark = false) : s.powerOnEff = s := if_neg (by simp [h])

theorem powerOn_leaves {s : State} (h : s.power.dark = true) :
    ∃ t, s.powerOnEff = t ∧ t.power = { s.power with dark := false } ∧ t.vig.powerOns = s.vig.powerOns + 1 ∧ t.vig.boots = 0 ∧
      (s.vig.halted = false → s.vig.coldFrom = none → ∃ b, (Scope.cold, b) ∈ t.vig.orders) ∧
      t = { s with power := t.power, vig := t.vig } := by
  obtain ⟨t, ht, hcold, hvig, hframe⟩ := orderCold_leaves
    { s with power := { s.power with dark := false }, vig := { s.vig with powerOns := s.vig.powerOns + 1, boots := 0 } }
  refine ⟨t, ht ▸ if_pos h, (congrArg State.power hframe :), (congrArg VigU.powerOns hvig :), (congrArg VigU.boots hvig :), hcold, ?_⟩
  rw [hframe]

/-! ## nRST_REQ (R468) -/

theorem nrstReqEff_ignored {s : State} {ns : Nat} (h : s.power.dark = true ∨ ns < 1000000 ∨ s.vig.pinFrom ≠ none) :
    s.nrstReqEff ns = s := if_pos (h.imp_right fun h => h.imp_right Option.isSome_iff_ne_none.2)

theorem pinHeld_leaves (s : State) :
    ∃ t, s.pinHeld = t ∧ t.vig.pinFrom = some s.now ∧ t.running = false ∧ t.vig.halted = false ∧
      t = { State.reset with pending := s.pending, free := t.free, now := s.now, time := {}, variantN := s.variantN, log := t.log,
                             regs := t.regs, fs := t.fs, engines := t.engines, lead := t.lead, vig := t.vig, sec := t.sec, power := t.power } := by
  refine ⟨_, rfl, rfl, ?_, rfl, rfl⟩
  have hpin : s.pinHeld.vig.pinFrom = some s.now := rfl
  rw [running, hpin]
  simp

theorem nrstReq_leaves {s : State} {ns : Nat} (hd : s.power.dark = false) (hns : 1000000 ≤ ns) (hp : s.vig.pinFrom = none) :
    ∃ t : State, s.nrstReqEff ns = t ∧
      ((ns < 10000000 ∧ t = { s with free := s.free + 1 }) ∨
       (t.vig.pinFrom = some s.now ∧ t.running = false ∧ t.vig.halted = false ∧
        t = { State.reset with pending := s.pending, free := t.free, now := s.now, time := {}, variantN := s.variantN, log := t.log,
                               regs := t.regs, fs := t.fs, engines := t.engines, lead := t.lead, vig := t.vig, sec := t.sec, power := t.power })) := by
  have hgo : s.nrstReqEff ns =
      if ns < 10000000 then if s.drawBool.1 then s.drawBool.2.pinHeld else s.drawBool.2 else s.pinHeld :=
    if_neg (by simp [hd, hp, hns])
  by_cases hlong : ns < 10000000
  · rw [if_pos hlong] at hgo
    by_cases hdraw : s.drawBool.1 = true
    · rw [if_pos hdraw] at hgo
      obtain ⟨t, ht, hheld⟩ := pinHeld_leaves s.drawBool.2
      exact ⟨t, hgo.trans ht, .inr hheld⟩
    · rw [if_neg hdraw] at hgo
      exact ⟨_, hgo, .inl ⟨hlong, rfl⟩⟩
  · rw [if_neg hlong] at hgo
    obtain ⟨t, ht, hheld⟩ := pinHeld_leaves s
    exact ⟨t, hgo.trans ht, .inr hheld⟩

theorem nrstReqReleaseEff_ignored {s : State} (h : s.vig.pinFrom = none) : s.nrstReqReleaseEff = s := if_neg (by simp [h])

theorem nrstReqRelease_leaves {s : State} (h : s.vig.pinFrom ≠ none) :
    ∃ t, s.nrstReqReleaseEff = t ∧ t.vig.pinFrom = none ∧
      (s.vig.halted = false → s.vig.coldFrom = none → ∃ b, (Scope.cold, b) ∈ t.vig.orders) ∧ t = { s with vig := t.vig } := by
  obtain ⟨t, ht, hcold, hvig, hframe⟩ := orderCold_leaves { s with vig := { s.vig with pinFrom := none } }
  refine ⟨t, ht ▸ if_pos (Option.isSome_iff_ne_none.2 h), (congrArg VigU.pinFrom hvig :), hcold, ?_⟩
  rw [hframe]

end State
end Sys2Proof.Machine

open Sys2Proof Sys2Proof.Machine Sys2Proof.Machine.State in
/-- Settles O58: the ledger's tick and its settings, stopped clocks and crossings, module sleep, the thermal limits, the 48 V
supply, nRST_REQ, and a lane that wakes from low-power idle. -/
theorem powerClocksAndSupplies : Obligations.PowerClocksAndSupplies := by
  unfold Obligations.PowerClocksAndSupplies
  refine ⟨fun s l h => congrArg Host.Outcome.next (almanacTickEff_early l h), fun s l hr hd => ?_, fun s v ha h8 h920 => ?_,
    fun s v ha => ⟨fun hv => ?_, fun hv => ?_⟩, fun s d h => congrArg Host.Outcome.next (clockStopEff_ignored h),
    fun s d hr hs hc => ?_, fun s c => ⟨fun h1 h2 h3 => ?_, fun h => congrArg Host.Outcome.next (crossingReopenEff_waits h)⟩,
    fun s v ha => ?_, fun s lg dr h => congrArg Host.Outcome.next (thermalSampleEff_early lg dr h),
    fun s lg dr tj tm hd hnow hj hm => ?_, fun s => ⟨?_, ?_, ?_, ?_⟩, fun s => ⟨?_, ?_, ?_⟩, fun s ns => ⟨?_, ?_, ?_, ?_⟩,
    fun s n => ⟨?_, ?_⟩⟩
  · cases hen : s.flag 0x2F0100 31 with
    | false =>
      have he := (almanacTickEff_due l hr hd).trans (if_pos (by simp [hen]))
      exact ⟨_, congrArg Host.Outcome.next he, rfl, tget_tickEnergy s l, fun _ => ⟨rfl, rfl⟩, fun h => absurd h Bool.noConfusion⟩
    | true =>
      obtain ⟨t, ht, hpower, hcode, hdefer, hframe⟩ := almanacTickEff_ledger l hr hd hen
      refine ⟨t, congrArg Host.Outcome.next ht, by rw [hpower]; rfl, by rw [hpower]; exact tget_tickEnergy s l,
        fun h => absurd h Bool.noConfusion, fun _ => ⟨?_, ?_, ?_, ?_, ?_, hcode, hdefer, hframe⟩⟩
      all_goals rw [hpower]; rfl
  · obtain ⟨t, ht, h⟩ := almEnv_leaves (s := s) h8 h920
    exact ⟨t, congrArg Host.Outcome.next ((gate_answers s 0 _ v _ ha).trans ht), h⟩
  · obtain ⟨t, ht, h⟩ := almCfg_set (s := s) hv
    exact ⟨t, congrArg Host.Outcome.next ((gate_answers s 0 _ v _ ha).trans ht), h⟩
  · obtain ⟨t, ht, h⟩ := almCfg_cleared (s := s) hv
    exact ⟨t, congrArg Host.Outcome.next ((gate_answers s 0 _ v _ ha).trans ht), h⟩
  · obtain ⟨t, ht, h⟩ := clockStop_leaves hr hs hc
    exact ⟨t, congrArg Host.Outcome.next ht, h⟩
  · exact ⟨_, congrArg Host.Outcome.next (crossingReopenEff_opens h1 h2 h3), rfl, rfl⟩
  · have hsleep : exec (.sleep v) s = .next (s.sleepEff v) := congrArg Host.Outcome.next (gate_answers s 0 _ v _ ha)
    have hwake : exec (.wake v) s = .next (s.wakeEff v) := congrArg Host.Outcome.next (gate_answers s 0 _ v _ ha)
    refine ⟨fun h => hsleep.trans (congrArg _ (sleepEff_ignored h)), fun hv hm hb => ?_, fun hv hm hb => ?_,
      fun h => hwake.trans (congrArg _ (wakeEff_ignored h)), fun hv hm => ?_⟩
    · obtain ⟨t, ht, h⟩ := sleepEff_refused hv hm hb
      exact ⟨t, hsleep.trans (congrArg _ ht), h⟩
    · obtain ⟨t, ht, h⟩ := sleepEff_sleeps hv hm hb
      exact ⟨t, hsleep.trans (congrArg _ ht), h⟩
    · exact ⟨_, hwake.trans (congrArg _ (wakeEff_wakes hv hm)), rfl, rfl⟩
  · obtain ⟨t, ht, hpower, hcode, hframe⟩ := thermalSample_leaves lg dr hd hnow
    refine ⟨t, congrArg Host.Outcome.next ht, ?_⟩
    rw [hpower] at hcode hframe ⊢
    exact ⟨hj.symm, hm.symm, rfl, sampledPower_capped hj hm, sampledPower_uncapped hj hm, sampledPower_hot hj hm,
      sampledPower_unhot hj hm, sampledPower_cool hj hm, sampledPower_uncool hj hm, fun h => sampledPower_refresh (hm ▸ h),
      fun hr h => hcode hr (sampledPower_capped hj hm h).1, rfl, rfl, rfl, rfl, hframe⟩
  · exact fun h => congrArg Host.Outcome.next (thermalShutdownEff_ignored h)
  · intro a ho hd ha hlate
    obtain ⟨t, ht, h⟩ := thermalShutdown_leaves ho hd ha hlate
    exact ⟨t, congrArg Host.Outcome.next ht, h⟩
  · exact fun h => congrArg Host.Outcome.next (thermalRestartEff_waits h)
  · intro a ho ha hlate
    obtain ⟨t, ht, hcold, -, hframe⟩ := orderCold_leaves s
    exact ⟨t, congrArg Host.Outcome.next ((thermalRestartEff_restarts ho ha hlate).trans ht), hcold, hframe⟩
  · obtain ⟨t, ht, h⟩ := powerLoss_leaves s
    exact ⟨t, congrArg Host.Outcome.next ht, h⟩
  · exact fun h => congrArg Host.Outcome.next (powerOnEff_ignored h)
  · intro hd
    obtain ⟨t, ht, h⟩ := powerOn_leaves hd
    exact ⟨t, congrArg Host.Outcome.next ht, h⟩
  · exact fun h => congrArg Host.Outcome.next (nrstReqEff_ignored h)
  · intro hd hns hp
    obtain ⟨t, ht, h⟩ := nrstReq_leaves hd hns hp
    exact ⟨t, congrArg Host.Outcome.next ht, h⟩
  · exact fun h => congrArg Host.Outcome.next (nrstReqReleaseEff_ignored h)
  · intro h
    obtain ⟨t, ht, hall⟩ := nrstReqRelease_leaves h
    exact ⟨t, congrArg Host.Outcome.next ht, hall⟩
  · exact fun hl => congrArg Host.Outcome.next (rxLpiWakeEff_awake hl)
  · intro hl
    obtain ⟨t, ht, h⟩ := rxLpiWakeEff_leaves hl
    exact ⟨t, congrArg Host.Outcome.next ht, h⟩
end

