-- ==== Sys2Proof/Proofs/SluiceEnable.lean ====
section
/-! SUPPORT. Writes of `SLUICEk_CFG` (R71, R73, R77, R78, R99, R100, R446): the context that starts in a free slot of its pipe, a
source or channel arrangement that is reserved, and the context that stops. -/

namespace Sys2Proof.Machine.State

theorem refuseAll_frame (s : State) (kind inst off b fn : Nat) (l : List (Half × Nat)) :
    ∃ g, s.refuseAll kind inst off b fn l = { s with log := g } := by
  induction l generalizing s with
  | nil => exact ⟨_, rfl⟩
  | cons x r ih =>
    obtain ⟨g, hg⟩ := refuse_frame s x.1 kind inst off b x.2 fn
    obtain ⟨g', hg'⟩ := ih (s.refuse x.1 kind inst off b x.2 fn)
    exact ⟨g', by rw [refuseAll, hg', hg]⟩

/-! ## The register (R445, R450) -/

theorem regSpec_sluiceCfg (k : Fin 18) : regSpec (sOff k) = regsSluice.head? := by revert k; decide

/-- EN takes what is written, sealed or not. -/
theorem sluiceCfg_en (s : State) (k : Fin 18) (v : Word) : (s.writeFields (sOff k) 0x03 k v).flag (sOff k) 31 = bit v 31 := by
  have hoff : sOff k ≠ 0x200010 := by simp only [sOff]; omega
  have h := writeFields_fld s (sOff k) 0x03 k v _ (regSpec_sluiceCfg k) hoff (by decide) (Machine.fld .rw 31 31) (by decide)
  rw [applyField_takes ⟨.inl rfl, .inl rfl⟩] at h
  exact bit_eq_of_bits (h.trans (bits_putBits_bits _ _ (by decide) (by decide)))

theorem sluiceEnable_exec {s : State} {k : Fin 18} (v : Word) (ha : s.answers 0 (sOff k) = true) :
    exec (.sluiceEnable k v) s = .next (s.sluiceEnableEff k v) := congrArg Host.Outcome.next (gate_answers s 0 (sOff k) v _ ha)

/-- A context that the checks of its slot pass finds a slot free (R100). -/
theorem freeSlot_of_binds {s : State} {k : Nat} (h : s.bindFails k = []) : ∃ i, s.freeSlotOf (s.fld (sOff k) 26 25) = some i := by
  cases hi : s.freeSlotOf (s.fld (sOff k) 26 25) with
  | some i => exact ⟨i, rfl⟩
  | none => simp [bindFails, hi] at h

/-! ## A context starts (R73, R99, R100) -/

/-- The slot that a starting context takes, with the identity set and its output ring empty. -/
def startedSlot (s : State) (i k : Nat) : Slot :=
  { ctx := some k, active := identitySet, outBase := (s.outRing i (s.fld (sOff k) 8 0)).1,
    outBlocks := s.fld (slotOff i + 0x2C) 7 0 }

/-- An in-line context binds its pipe. -/
def inlineBinds (s : State) (k p : Nat) : State :=
  if s.inline_ k then s.setPipe p { s.pipe p with inlineBound := true } else s

theorem inlineBinds_frame (s : State) (k p : Nat) : ∃ x, s.inlineBinds k p = { s with pipes := x } := by
  unfold inlineBinds
  split <;> exact ⟨_, rfl⟩

/-- A context that starts, with the place of its memory-mode ring. -/
def startedSluice (s : State) (k need : Nat) : Sluice :=
  let c : Sluice := { run := true, brkNext := (s.sluice k).brkNext, brk := (s.sluice k).brk }
  if s.inline_ k then c else match s.ringFit need with | none => c | some b => { c with ringBase := b, ringBytes := need }

/-- A context starts at line number 0 with no open block and an empty ring. -/
theorem startedSluice_leaves (s : State) (k need : Nat) :
    (s.startedSluice k need).run = true ∧ (s.startedSluice k need).next = 0 ∧ (s.startedSluice k need).expect = 0 ∧
    (s.startedSluice k need).blocks = [] ∧ (s.startedSluice k need).held = [] := by
  unfold startedSluice
  dsimp only
  split
  · exact ⟨rfl, rfl, rfl, rfl, rfl⟩
  · split <;> exact ⟨rfl, rfl, rfl, rfl, rfl⟩

/-- A context started in slot i, its settings in `s`, with the state `u` in which its slot and pipe are taken. -/
def startedIn (s u : State) (k : Nat) : State :=
  { u with
    sluices := tset {} u.sluices k (u.startedSluice k (s.ringNeed k))
    records := u.records.filter (fun r => decide (r.block.ctx ≠ k))
    vlanes := tset {} u.vlanes k { u.vlane k with started := false, waiting := [] } }

theorem sluiceStart_eq {s : State} {k i : Nat} (h : s.freeSlotOf (s.fld (sOff k) 26 25) = some i) :
    s.sluiceStart k = s.startedIn ((s.setSlot i (s.startedSlot i k)).inlineBinds k (s.fld (sOff k) 26 25)) k := by
  show (match s.freeSlotOf (s.fld (sOff k) 26 25) with
    | none => s
    | some j => s.startedIn ((s.setSlot j (s.startedSlot j k)).inlineBinds k (s.fld (sOff k) 26 25)) k) = _
  rw [h]

/-- A context starts in the free slot: line number 0, no open block, nothing in its rings, no swap pending, its lane not started. -/
theorem sluiceStart_leaves {s : State} {k i : Nat} (h : s.freeSlotOf (s.fld (sOff k) 26 25) = some i) :
    ∃ t, s.sluiceStart k = t ∧ (t.sluice k).run = true ∧ (t.sluice k).next = 0 ∧ (t.sluice k).expect = 0 ∧
      (t.sluice k).blocks = [] ∧ (t.sluice k).held = [] ∧ t.slot i = s.startedSlot i k ∧ (t.vlane k).started = false ∧
      (∀ j, j ≠ k → t.sluice j = s.sluice j) ∧ (∀ j, j ≠ i → t.slot j = s.slot j) ∧
      t = { s with sluices := t.sluices, slots := t.slots, pipes := t.pipes, records := t.records, vlanes := t.vlanes } := by
  obtain ⟨x, hx⟩ := inlineBinds_frame (s.setSlot i (s.startedSlot i k)) k (s.fld (sOff k) 26 25)
  have he := sluiceStart_eq h
  rw [hx] at he
  obtain ⟨c, hc, ht⟩ : ∃ c, (∃ u n, startedSluice u k n = c) ∧ s.sluiceStart k =
      { s with sluices := tset {} s.sluices k c, slots := tset {} s.slots i (s.startedSlot i k), pipes := x
               records := s.records.filter (fun r => decide (r.block.ctx ≠ k))
               vlanes := tset {} s.vlanes k { s.vlane k with started := false, waiting := [] } } := ⟨_, ⟨_, _, rfl⟩, he⟩
  obtain ⟨u, n, rfl⟩ := hc
  obtain ⟨hrun, hnext, hexp, hblocks, hheld⟩ := startedSluice_leaves u k n
  have hsluice := tget_tset_same {} s.sluices k (u.startedSluice k n)
  rw [← hsluice] at hrun hnext hexp hblocks hheld
  exact ⟨_, ht, hrun, hnext, hexp, hblocks, hheld, setSlot_same s i _, congrArg VLane.started (setVlane_same s k _),
    fun j hj => setSluice_other s k j _ hj, fun j hj => setSlot_other s i j _ hj, rfl⟩

theorem windowOpen_frame (s : State) (k : Nat) : ∃ q, s.windowOpen k = { s with qps := q } := by
  unfold windowOpen
  split <;> exact ⟨_, rfl⟩

/-- A write with EN to a context that is off and that no check refuses (R71, R77, R78, R100, R104, R106, R454). -/
theorem sluiceEnable_starts {s u : State} {k : Fin 18} {v : Word} (hv : bit v 31 = true)
    (hoff : s.flag (sOff k) 31 = false) (hsrc : bits v 30 29 ≠ 3) (hchan : bits v 18 17 ≠ 3)
    (hu : u = s.writeFields (sOff k) 0x03 k v) (hout : u.outFails k = []) (hset : u.sluiceFails k = []) (hadm : u.admitFails k = [])
    (hbind : u.bindFails k = []) (hring : u.ringFails k = []) :
    s.sluiceEnableEff k v = (u.sluiceStart k).windowOpen k := by
  have hen : u.flag (sOff k) 31 = true := by rw [hu, sluiceCfg_en, hv]
  have hold : bit (s.reg (sOff k)) 31 = false := hoff
  simp only [sluiceEnableEff, ← hu, hen, hold, hsrc, hchan, hout, hset, hadm, hbind, hring, not_true_eq_false, if_false,
    Bool.false_eq_true, List.append_nil, List.isEmpty_nil, or_self]

/-- The codes a refused start shows beside its report entries: 0x3403 at the context, and a slot's or ring's code at its pipe. -/
def startCodes (s : State) (k : Nat) (fails : List (Half × Nat)) : State :=
  let s := if fails.any (fun f => f.1 = 0x3403#16) then s.raise 0x3403#16 0x03 k else s
  match fails.reverse.find? (fun f => f.1 = 0x1501#16 ∨ f.1 = 0x1502#16 ∨ f.1 = 0x1504#16) with
  | none => s
  | some f => s.last f.1 0x04 (4 * s.fld (sOff k) 26 25)

theorem startCodes_frame (s : State) (k : Nat) (fails : List (Half × Nat)) : ∃ l, s.startCodes k fails = { s with log := l } := by
  obtain ⟨l, hl⟩ : ∃ l, (if fails.any (fun f => f.1 = 0x3403#16) then s.raise 0x3403#16 0x03 k else s) =
      { s with log := l } := by
    split <;> exact ⟨_, rfl⟩
  unfold startCodes
  dsimp only
  rw [hl]
  split
  · exact ⟨_, rfl⟩
  · obtain ⟨l', hl'⟩ := last_frame { s with log := l } (Prod.fst _) 0x04 _
    exact ⟨l', hl'⟩

/-- A write with EN to a context that is off, with a reserved SRC or CHAN (R71): EN goes back to 0, and codes are reported. -/
theorem sluiceEnable_reserved {s : State} {k : Fin 18} {v : Word} (hs : s.sealed = false) (hv : bit v 31 = true)
    (hoff : s.flag (sOff k) 31 = false) (hres : bits v 30 29 = 3 ∨ bits v 18 17 = 3) :
    ∃ t, s.sluiceEnableEff k v = t ∧ t.flag (sOff k) 31 = false ∧ t = { s with regs := t.regs, log := t.log } := by
  have hne : sOff k ≠ 0x200010 := by simp only [sOff]; omega
  obtain ⟨u, hu, -, -, hframe⟩ := writeFields_leaves 0x03 k v (regSpec_sluiceCfg k) hne (by decide) (.inl hs)
  have hen : u.flag (sOff k) 31 = true := by rw [← hu, sluiceCfg_en, hv]
  have hold : bit (s.reg (sOff k)) 31 = false := hoff
  obtain ⟨fails, he⟩ : ∃ fails, s.sluiceEnableEff k v =
      ((u.setFld (sOff k) 31 31 0).refuseAll 0x03 k (sOff k) 31 0 fails).startCodes k fails := by
    refine ⟨u.outFails k ++ u.sluiceFails k ++ u.admitFails k ++ u.bindFails k ++ u.ringFails k, ?_⟩
    simp only [sluiceEnableEff, hu, hen, hold, hres, not_true_eq_false, if_false, Bool.false_eq_true, true_or, if_true]
    rfl
  have hflag : (u.setFld (sOff k) 31 31 0).flag (sOff k) 31 = false := by
    rw [flag, setFld_reg_same]
    exact bit_putBits_same _ 31 0 (by decide)
  obtain ⟨r, hr⟩ : ∃ r, u.setFld (sOff k) 31 31 0 = { u with regs := r } := ⟨_, rfl⟩
  rw [hr] at he hflag
  obtain ⟨l, hl⟩ := refuseAll_frame { u with regs := r } 0x03 k (sOff k) 31 0 fails
  obtain ⟨l', hl'⟩ := startCodes_frame { u with regs := r, log := l } k fails
  rw [hl, hl'] at he
  refine ⟨_, he, hflag, ?_⟩
  rw [hframe]

/-! ## A context stops (R103, R104, R454) -/

/-- A slot is free again, and its pipe no longer works for it. -/
def slotFreed (s : State) (i k : Nat) : State :=
  let pp := s.pipe (i / 4)
  let busy := match pp.busy with | some (j, x, m, t) => if j = i then none else some (j, x, m, t) | none => none
  (s.setSlot i {}).setPipe (i / 4) { pp with busy, inlineBound := pp.inlineBound && !s.inline_ k }

theorem dropPair_frame (s : State) (k q : Nat) : ∃ x, s.dropPair k q = { s with qps := x } := by
  unfold dropPair
  split <;> exact ⟨_, rfl⟩

theorem sluiceStop_eq {s : State} {k i : Nat} (h : s.slotOf k = some i) :
    s.sluiceStop k = ((s.slotFreed i k).dropPair k ((s.slotFreed i k).windowQp k)).setSluice k {} := by
  show ((match s.slotOf k with | none => s | some j => s.slotFreed j k).dropPair k
    ((match s.slotOf k with | none => s | some j => s.slotFreed j k).windowQp k)).setSluice k {} = _
  rw [h]

/-- A context that stops is as reset, and so is its slot. -/
theorem sluiceStop_leaves {s : State} {k i : Nat} (h : s.slotOf k = some i) :
    ∃ t, s.sluiceStop k = t ∧ t.sluice k = {} ∧ t.slot i = {} ∧ (∀ j, j ≠ k → t.sluice j = s.sluice j) ∧
      (∀ j, j ≠ i → t.slot j = s.slot j) ∧
      t = { s with sluices := t.sluices, slots := t.slots, pipes := t.pipes, qps := t.qps } := by
  obtain ⟨q, hq⟩ := dropPair_frame (s.slotFreed i k) k ((s.slotFreed i k).windowQp k)
  have he := sluiceStop_eq h
  rw [hq] at he
  obtain ⟨x, ht⟩ : ∃ x, s.sluiceStop k =
      { s with slots := tset {} s.slots i {}, pipes := x, qps := q, sluices := tset {} s.sluices k {} } := ⟨_, he⟩
  exact ⟨_, ht, setSluice_same s k _, setSlot_same s i _, fun j hj => setSluice_other s k j _ hj,
    fun j hj => setSlot_other s i j _ hj, rfl⟩

/-- A write without EN to a running context. -/
theorem sluiceEnable_stops {s : State} {k : Fin 18} {v : Word} (hv : bit v 31 = false) (hon : s.flag (sOff k) 31 = true) :
    s.sluiceEnableEff k v = (s.writeFields (sOff k) 0x03 k v).sluiceStop k := by
  have hen : (s.writeFields (sOff k) 0x03 k v).flag (sOff k) 31 = false := by rw [sluiceCfg_en, hv]
  have hold : bit (s.reg (sOff k)) 31 = true := hon
  simp only [sluiceEnableEff, hen, hold, Bool.false_eq_true, not_false_eq_true, if_true]

end Sys2Proof.Machine.State

open Sys2Proof Sys2Proof.Machine Sys2Proof.Machine.State in
/-- Settles O29: the start in a free slot, a reserved SRC or CHAN, and the stop. -/
theorem sluiceEnableStartsContext : Obligations.SluiceEnableStartsContext := by
  unfold Obligations.SluiceEnableStartsContext
  refine ⟨fun s u k v ha hs hv hoff hsrc hchan hu hout hset hadm hbind hring => ?_, fun s k v ha hs hv hoff hres => ?_,
    fun s k v i ha hv hon hi => ?_⟩
  · obtain ⟨i, hi⟩ := freeSlot_of_binds hbind
    have hne : sOff k ≠ 0x200010 := by simp only [sOff]; omega
    obtain ⟨w, hw, -, hregs, hframe⟩ := writeFields_leaves 0x03 k v (regSpec_sluiceCfg k) hne (by decide) (.inl hs)
    obtain rfl : u = w := hu.trans hw
    obtain ⟨t, ht, hrun, hnext, hexp, hblocks, hheld, hslot, hlane, hsluices, hslots, hframe'⟩ := sluiceStart_leaves hi
    obtain ⟨q, hq⟩ := windowOpen_frame t k
    have hen : u.flag (sOff k) 31 = true := by rw [hu, sluiceCfg_en, hv]
    have he := (sluiceEnable_exec v ha).trans
      (congrArg Host.Outcome.next (sluiceEnable_starts hv hoff hsrc hchan hu hout hset hadm hbind hring))
    rw [ht, hq] at he
    refine ⟨_, i, he, hi, ?_, hrun, hnext, hexp, hblocks, hheld, congrArg Slot.ctx hslot, congrArg Slot.pending hslot,
      congrArg Slot.queue hslot,
      congrArg Slot.out hslot, hlane, fun j hj => (hsluices j hj).trans ?_,
      fun j hj => (hslots j hj).trans ?_, fun o ho => ?_, ?_⟩
    · rw [hframe']; exact hen
    · rw [hframe]; rfl
    · rw [hframe]; rfl
    · rw [hframe']; exact hregs o ho
    · rw [hframe', hframe]
  · obtain ⟨t, ht, hen, hframe⟩ := sluiceEnable_reserved hs hv hoff hres
    exact ⟨t, (sluiceEnable_exec v ha).trans (congrArg Host.Outcome.next ht), hen, (congrArg State.sluices hframe :),
      (congrArg State.slots hframe :), hframe⟩
  · obtain ⟨r, c, l, hu⟩ := writeFields_frame s (sOff k) 0x03 k v
    have hen := sluiceCfg_en s k v
    have he := (sluiceEnable_exec v ha).trans (congrArg Host.Outcome.next (sluiceEnable_stops hv hon))
    rw [hu] at he hen
    have hi' : ({ s with regs := r, counters := c, log := l } : State).slotOf k = some i := hi
    obtain ⟨t, ht, hsl, hslot, hsluices, hslots, hframe⟩ := sluiceStop_leaves hi'
    rw [ht] at he
    refine ⟨t, he, ?_, hsl, hslot, hsluices, hslots⟩
    rw [hframe]; exact hen.trans hv
end

