-- ==== Sys2Proof/Proofs/SealingKeepsSluices.lean ====
section
/-! SUPPORT. What sealing a part leaves alone: the Sluice contexts and the clocks of the parallel ports. -/

namespace Sys2Proof.Machine.State

/-! ## Pages and tracks (R200, R211, R220) -/

theorem kvCharge_nodesOnly (s : State) (p n : Nat) : NodesOnly s (s.kvCharge p n) := ⟨_, _, _, _, rfl⟩

theorem unpinNode_nodesOnly (s : State) (i : Nat) : NodesOnly s (s.unpinNode i) :=
  (putNode_nodesOnly ..).trans (retireNode_nodesOnly ..)

theorem closePages_nodesOnly (s : State) (polder : Nat) (build : Bool) (l : List (Nat × Word)) :
    NodesOnly s (s.closePages polder build l) := by
  induction l generalizing s with
  | nil => exact .refl s
  | cons x r ih =>
    refine .trans ?_ (ih _)
    split
    · split
      · exact unpinNode_nodesOnly ..
      · exact .refl s
    · split
      · exact .refl s
      · exact (kvDefer_nodesOnly ..).trans (kvCharge_nodesOnly ..)

theorem failBuild_treeOnly (s : State) (r : Nat) : TreeOnly s (s.failBuild r) :=
  (dropHolders_treeOnly ..).trans (discardNodes_nodesOnly ..).treeOnly

theorem drainRecipe_treeOnly (s : State) (r : Nat) : TreeOnly s (s.drainRecipe r) := by
  unfold drainRecipe
  split
  · exact .refl s
  · split
    · exact (unrefNodes_nodesOnly ..).treeOnly.trans ⟨_, _, _, _, _, _, rfl⟩
    · exact .refl s

/-! ## The Sluices through a seal -/

/-- From `s` to `t` neither the Sluice contexts nor the clocks of the parallel ports change. -/
structure KeepsIngest (s t : State) : Prop where
  sluices : t.sluices = s.sluices
  pars : t.pars = s.pars

namespace KeepsIngest

theorem refl (s : State) : KeepsIngest s s := ⟨rfl, rfl⟩

theorem trans {s t u : State} (h : KeepsIngest s t) (h' : KeepsIngest t u) : KeepsIngest s u :=
  ⟨h'.sluices.trans h.sluices, h'.pars.trans h.pars⟩

theorem of_treeOnly {s t : State} (h : TreeOnly s t) : KeepsIngest s t := by
  obtain ⟨_, _, _, _, _, _, rfl⟩ := h
  exact ⟨rfl, rfl⟩

end KeepsIngest

theorem putTrack_keepsIngest (s : State) (n : Nat) (t : Track) : KeepsIngest s (s.putTrack n t) := by
  obtain ⟨x, m, h⟩ : ∃ x m, s.putTrack n t = { s with tracks := x, bonded := m } := ⟨_, _, rfl⟩
  rw [h]
  exact ⟨rfl, rfl⟩

theorem closeTrack_keepsIngest (s : State) (n : Nat) : KeepsIngest s (s.closeTrack n) := by
  unfold closeTrack
  extract_lets t s1 s2 s3 s4 s5
  split
  · exact .refl s
  · have h1 : KeepsIngest s s1 := putTrack_keepsIngest ..
    have h2 : KeepsIngest s1 s2 := .of_treeOnly (closePages_nodesOnly ..).treeOnly
    have h3 : KeepsIngest s2 s3 := ⟨rfl, rfl⟩
    have h4 : KeepsIngest s3 s4 := putTrack_keepsIngest ..
    have h5 : KeepsIngest s4 s5 := by
      unfold s5
      split
      · exact .of_treeOnly (failBuild_treeOnly ..)
      · exact .refl _
    exact h1.trans (h2.trans (h3.trans (h4.trans (h5.trans (.of_treeOnly (drainRecipe_treeOnly ..))))))

theorem closeHandle_keepsIngest (s : State) (h : Word) : KeepsIngest s (s.closeHandle h) := by
  unfold closeHandle
  split
  · exact .refl s
  · exact closeTrack_keepsIngest ..

theorem deliver_keepsIngest (s : State) (k : Nat) (body : List Byte) : KeepsIngest s (s.deliver k body) := by
  obtain ⟨l, hl⟩ := deliver_frame s k body
  rw [hl]
  exact ⟨rfl, rfl⟩

theorem releaseReady_keepsIngest (s : State) (k n : Nat) : KeepsIngest s (s.releaseReady k n) := by
  induction n generalizing s with
  | zero => exact .refl s
  | succ n ih =>
    unfold releaseReady
    dsimp only
    split
    · exact .refl s
    · exact .trans (t := s.setVlane k _) ⟨rfl, rfl⟩ ((deliver_keepsIngest ..).trans (ih _))

theorem recordReady_keepsIngest (s : State) (k slot : Nat) (body : List Byte) : KeepsIngest s (s.recordReady k slot body) :=
  .trans (t := s.setVlane k _) ⟨rfl, rfl⟩ (releaseReady_keepsIngest ..)

theorem ejectPart_keepsIngest (s : State) (k : Nat) (p : Part) : KeepsIngest s (s.ejectPart k p).1 := by
  obtain ⟨c, l, e, f, h, -, -⟩ := ejectPart_leaves s k p
  rw [h]
  exact ⟨rfl, rfl⟩

theorem archiveQueue_keepsIngest (s : State) (p : Part) (body : List Byte) : KeepsIngest s (s.archiveQueue p body) := by
  unfold archiveQueue
  dsimp only
  split
  · split <;> exact ⟨rfl, rfl⟩
  · exact .refl s

theorem forward_keepsIngest (s : State) (k kind slot : Nat) (on off deadline : Fine) (block : Nat) (record : List Byte) :
    KeepsIngest s (s.forward k kind slot on off deadline block record) := by
  unfold forward
  dsimp only
  split <;> exact ⟨rfl, rfl⟩

theorem sealCode_keepsIngest (s : State) (p : Part) (q : Sealing) : KeepsIngest s (s.sealCode p q) := by
  unfold sealCode
  split
  · exact ⟨rfl, rfl⟩
  · split
    · exact ⟨rfl, rfl⟩
    · split <;> exact ⟨rfl, rfl⟩

theorem sealPart_keepsIngest (s : State) (p : Part) (q : Sealing) : KeepsIngest s (s.sealPart p q) := by
  unfold sealPart
  extract_lets k p' pol want
  have hr : KeepsIngest s (if want = 1 ∧ q.action = none ∧ ¬ s.forwarded k = true
      then s.ejectPart k p' else (s, want, false)).1 := by
    split
    · exact ejectPart_keepsIngest ..
    · exact .refl s
  generalize (if want = 1 ∧ q.action = none ∧ ¬ s.forwarded k = true
      then s.ejectPart k p' else (s, want, false)) = r at hr
  obtain ⟨u, action, noTarget⟩ := r
  dsimp only at hr ⊢
  refine hr.trans (.trans (.trans (.trans (.trans ?_ (sealCode_keepsIngest ..)) (recordReady_keepsIngest ..))
    (archiveQueue_keepsIngest ..))
    ((forward_keepsIngest ..).trans (closeHandle_keepsIngest ..)))
  exact ⟨rfl, rfl⟩

theorem rateTake_keepsIngest (s : State) : KeepsIngest s s.rateTake.1 := by
  rw [rateTake_frame]
  exact ⟨rfl, rfl⟩

theorem areaPart_keepsIngest (s : State) (k b : Nat) (code : Half) : KeepsIngest s (s.areaPart k b code) := by
  unfold areaPart
  dsimp only
  refine (rateTake_keepsIngest s).trans (.trans (.trans ?_ (forward_keepsIngest ..)) (sealPart_keepsIngest ..))
  exact ⟨rfl, rfl⟩

theorem closeBlock_keepsIngest (s : State) (k b : Nat) : KeepsIngest s (s.closeBlock k b) :=
  .trans (t := s.setVlane k _) ⟨rfl, rfl⟩ (forward_keepsIngest ..)

end Sys2Proof.Machine.State
end

