-- ==== Sys2Proof/Proofs/BlockHandOffs.lean ====
section
/-! SUPPORT. Blocks handed on (R73, R84 to R87, R105): what a hand-off leaves of its context, its slot and the records, and
what the blocks that a context no longer keeps change. -/

namespace Sys2Proof.Machine.State

/-! ## What a context keeps in its ring (R87, R105) -/

/-- RING_WARN changes that flag alone, and posts. -/
theorem ringWarn_leaves (s : State) (k : Nat) :
    ∃ t, s.ringWarn k = t ∧ (∃ w, t.sluice k = { s.sluice k with warn := w }) ∧
      (∀ j, j ≠ k → t.sluice j = s.sluice j) ∧
      t = { s with sluices := t.sluices, log := t.log } := by
  refine ⟨_, rfl, ?_⟩
  unfold ringWarn
  dsimp only
  split
  · exact ⟨⟨_, setSluice_same s k _⟩, fun j hj => setSluice_other s k j _ hj, rfl⟩
  · split
    · exact ⟨⟨_, setSluice_same s k _⟩, fun j hj => setSluice_other s k j _ hj, rfl⟩
    · exact ⟨⟨_, rfl⟩, fun _ _ => rfl, rfl⟩

/-- Blocks released leave the ring of their context, and no more. -/
theorem releaseBlocks_leaves (s : State) (k : Nat) :
    ∃ t, s.releaseBlocks k = t ∧ (∃ h w, t.sluice k = { s.sluice k with held := h, warn := w }) ∧
      (∀ j, j ≠ k → t.sluice j = s.sluice j) ∧ t = { s with sluices := t.sluices, log := t.log } := by
  unfold releaseBlocks
  split
  · exact ⟨s, rfl, ⟨_, _, rfl⟩, fun _ _ => rfl, rfl⟩
  · dsimp only
    generalize List.filter _ (s.sluice k).held = h
    obtain ⟨t, ht, ⟨w, hw⟩, hother, hframe⟩ := ringWarn_leaves (s.setSluice k { s.sluice k with held := h }) k
    rw [setSluice_same] at hw
    exact ⟨t, ht, ⟨h, w, hw⟩, fun j hj => (hother j hj).trans (setSluice_other s k j _ hj), hframe⟩

/-! ## A hand-off (R73) -/

theorem missReport_frame (s : State) (k : Nat) (out : List LineOut) :
    ∃ c l, s.missReport k out = { s with counters := c, log := l } := by
  unfold missReport
  extract_lets con flt s1 s2
  have h1 : ∃ c l, s1 = { s with counters := c, log := l } := by
    unfold s1
    split <;> exact ⟨_, _, rfl⟩
  obtain ⟨c, l, h1⟩ := h1
  have h2 : ∃ c l, s2 = { s with counters := c, log := l } := by
    unfold s2
    rw [h1]
    split <;> exact ⟨_, _, rfl⟩
  obtain ⟨c', l', h2⟩ := h2
  rw [h2]
  split <;> exact ⟨_, _, rfl⟩

theorem startLane_frame (s : State) (k b : Nat) : ∃ v, s.startLane k b = { s with vlanes := v } := by
  unfold startLane
  dsimp only
  split <;> exact ⟨_, rfl⟩

theorem slotOf_congr {s t : State} (h : t.slots = s.slots) (k : Nat) : t.slotOf k = s.slotOf k := by
  unfold slotOf slot
  rw [h]

/-- From `s` to `t` nothing changes but what handing a block on writes. -/
def onlyHandsOn (s t : State) : Prop :=
  t = { s with sluices := t.sluices, counters := t.counters, log := t.log, bonded := t.bonded, records := t.records,
               slots := t.slots, vlanes := t.vlanes }

theorem onlyHandsOn.trans {s t u : State} (h : onlyHandsOn s t) (h' : onlyHandsOn t u) : onlyHandsOn s u := by
  rw [onlyHandsOn] at h h' ⊢
  rw [h', h]

/-- As far as the ring's write: slots and records are as before. -/
structure KeepsQueues (s t : State) : Prop where
  only : onlyHandsOn s t
  slots : t.slots = s.slots
  records : t.records = s.records

theorem KeepsQueues.trans {s t u : State} (h : KeepsQueues s t) (h' : KeepsQueues t u) : KeepsQueues s u :=
  ⟨h.only.trans h'.only, h'.slots.trans h.slots, h'.records.trans h.records⟩

/-- The state in which the oldest open block has been handed on: off the open ones, the newest record, the last of its slot's
queue. -/
structure HandedOn (s t : State) (k : Nat) (x : OpenBlock) (rest : List OpenBlock) : Prop where
  blocks : (t.sluice k).blocks = rest
  next : (t.sluice k).next = x.b + 1
  record : ∃ r, t.records = r :: s.records ∧ r.block.ctx = k ∧ r.block.b = x.b
  queue : ∀ i, s.slotOf k = some i → ∃ b, (t.slot i).queue = (s.slot i).queue ++ [b] ∧ b.ctx = k ∧ b.b = x.b
  others : ∀ j, j ≠ k → t.sluice j = s.sluice j
  only : onlyHandsOn s t

/-- A hand-off; where the compute domain is out of service, an area part stands for the block of an enabled binding (R416). -/
theorem handOff_eq {s : State} {k : Nat} {x : OpenBlock} {rest : List OpenBlock} (h : (s.sluice k).blocks = x :: rest) :
    ∃ u, HandedOn s u k x rest ∧ s.handOff k =
      if u.computeOff && u.bindOn k then (u.areaPart k x.b 0x5067#16).closeBlock k x.b else u := by
  obtain ⟨t, ht⟩ : ∃ t, s.handOff k = t := ⟨_, rfl⟩
  rw [ht]
  unfold handOff at ht
  extract_lets c at ht
  split at ht
  · next hnil => rw [h] at hnil; cases hnil
  · next x' rest' hcons =>
    obtain ⟨rfl, rfl⟩ := List.cons.inj (h.symm.trans hcons)
    extract_lets f brk occ status blk s1 s2 s3 s4 s5 s6 s7 at ht
    refine ⟨s7, ?_, ht.symm⟩
    have q1 : KeepsQueues s s1 := ⟨rfl, rfl, rfl⟩
    have k1 : (s1.sluice k).blocks = rest ∧ (s1.sluice k).next = x.b + 1 := by
      unfold s1
      rw [setSluice_same]
      exact ⟨rfl, rfl⟩
    have o1 (j : Nat) (hj : j ≠ k) : s1.sluice j = s.sluice j := setSluice_other s k j _ hj
    have q3 : KeepsQueues s1 s3 ∧ s3.sluices = s1.sluices := by
      obtain ⟨c, l, h2⟩ : ∃ c l, s2 = { s1 with counters := c, log := l } := missReport_frame ..
      unfold s3
      rw [h2]
      split <;> exact ⟨⟨rfl, rfl, rfl⟩, rfl⟩
    have q4 : KeepsQueues s3 s4 ∧ (∃ w, s4.sluice k = { s3.sluice k with warn := w }) ∧
        ∀ j, j ≠ k → s4.sluice j = s3.sluice j := by
      unfold s4
      split
      · exact ⟨⟨rfl, rfl, rfl⟩, ⟨_, rfl⟩, fun _ _ => rfl⟩
      · obtain ⟨t, ht, hw, ho, hframe⟩ := ringWarn_leaves (s3.ringWrite k x.b f.out) k
        rw [ht]
        exact ⟨⟨by rw [hframe]; rfl, by rw [hframe]; rfl, by rw [hframe]; rfl⟩, hw, ho⟩
    have q6 : onlyHandsOn s5 s6 ∧ s6.sluices = s5.sluices ∧ s6.records = s5.records ∧
        ∀ i, s5.slotOf k = some i → (s6.slot i).queue = (s5.slot i).queue ++ [blk] := by
      unfold s6
      split
      · next i hi =>
        refine ⟨rfl, rfl, rfl, fun j hj => ?_⟩
        obtain rfl : i = j := Option.some.inj (hi.symm.trans hj)
        rw [setSlot_same]
      · next hnone => exact ⟨rfl, rfl, rfl, fun i hi => by rw [hnone] at hi; cases hi⟩
    obtain ⟨v, h7⟩ : ∃ v, s7 = { s6 with vlanes := v } := startLane_frame ..
    have hs5 : onlyHandsOn s4 s5 ∧ s5.sluices = s4.sluices ∧ s5.slots = s4.slots ∧
        s5.records = { block := stripBlock blk } :: s4.records :=
      ⟨rfl, rfl, rfl, rfl⟩
    have hs7 : onlyHandsOn s6 s7 ∧ s7.sluices = s6.sluices ∧ s7.slots = s6.slots ∧ s7.records = s6.records := by
      rw [h7]
      exact ⟨rfl, rfl, rfl, rfl⟩
    obtain ⟨q3, e3⟩ := q3
    obtain ⟨q4, ⟨w, w4⟩, o4⟩ := q4
    obtain ⟨n5, e5, l5, r5⟩ := hs5
    obtain ⟨n6, e6, r6, k6⟩ := q6
    obtain ⟨n7, e7, l7, r7⟩ := hs7
    have q := (q1.trans q3).trans q4
    have hblk : blk.ctx = k ∧ blk.b = x.b := ⟨rfl, rfl⟩
    clear_value s7 s6 s5 s4 s3 s1 blk
    have hsl (j : Nat) : s7.sluice j = s4.sluice j := by
      rw [sluice, sluice, e7, e6, e5]
    have hk4 : (s4.sluice k).blocks = rest ∧ (s4.sluice k).next = x.b + 1 := by
      rw [w4, sluice, e3]
      exact k1
    refine ⟨by rw [hsl]; exact hk4.1, by rw [hsl]; exact hk4.2, ⟨_, by rw [r7, r6, r5, q.records], hblk⟩, fun i hi => ?_,
      fun j hj => ?_, ((q.only.trans n5).trans n6).trans n7⟩
    · have hi5 := (slotOf_congr (l5.trans q.slots) k).trans hi
      refine ⟨blk, ?_, hblk⟩
      rw [slot, l7]
      refine (k6 i hi5).trans ?_
      rw [slot, l5, q.slots]
      rfl
    · rw [hsl, o4 j hj, sluice, e3]
      exact o1 j hj

theorem handOff_empty {s : State} {k : Nat} (h : (s.sluice k).blocks = []) : s.handOff k = s := by
  unfold handOff
  extract_lets c
  split
  · rfl
  · next x rest hcons => rw [h] at hcons; cases hcons

/-- A block handed on in a module whose compute domain is in service. -/
theorem handOff_serving {s : State} {k : Nat} {x : OpenBlock} {rest : List OpenBlock} (h : (s.sluice k).blocks = x :: rest)
    (hserves : s.vig.outOfService = false) : HandedOn s (s.handOff k) k x rest := by
  obtain ⟨u, hu, he⟩ := handOff_eq h
  have hoff : u.computeOff = false := by
    have honly := hu.only
    rw [onlyHandsOn] at honly
    rw [honly]
    exact hserves
  rw [he, hoff, Bool.false_and, if_neg Bool.false_ne_true]
  exact hu

/-! ## What operations on one context leave of the others -/

/-- From `s` to `t` no other Sluice context changes, nor a clock of the parallel ports. -/
structure OnlySluice (k : Nat) (s t : State) : Prop where
  others : ∀ j, j ≠ k → t.sluice j = s.sluice j
  pars : t.pars = s.pars

namespace OnlySluice

theorem refl (k : Nat) (s : State) : OnlySluice k s s := ⟨fun _ _ => rfl, rfl⟩

theorem trans {k : Nat} {s t u : State} (h : OnlySluice k s t) (h' : OnlySluice k t u) : OnlySluice k s u :=
  ⟨fun j hj => (h'.others j hj).trans (h.others j hj), h'.pars.trans h.pars⟩

theorem set (k : Nat) (s : State) (c : Sluice) : OnlySluice k s (s.setSluice k c) :=
  ⟨fun j hj => setSluice_other s k j c hj, rfl⟩

end OnlySluice

theorem KeepsIngest.sluice {s t : State} (h : KeepsIngest s t) (j : Nat) : t.sluice j = s.sluice j := by
  rw [State.sluice, State.sluice, h.sluices]

theorem KeepsIngest.onlySluice {s t : State} (h : KeepsIngest s t) (k : Nat) : OnlySluice k s t :=
  ⟨fun j _ => h.sluice j, h.pars⟩

theorem handOff_onlySluice (s : State) (k : Nat) : OnlySluice k s (s.handOff k) := by
  cases h : (s.sluice k).blocks with
  | nil =>
    rw [handOff_empty h]
    exact .refl k s
  | cons x rest =>
    obtain ⟨u, hu, he⟩ := handOff_eq h
    have honly := hu.only
    rw [onlyHandsOn] at honly
    have h1 : OnlySluice k s u := ⟨hu.others, by rw [honly]⟩
    rw [he]
    split
    · exact h1.trans (((areaPart_keepsIngest ..).trans (closeBlock_keepsIngest ..)).onlySluice k)
    · exact h1

theorem forceClose_onlySluice (s : State) (k : Nat) : OnlySluice k s (s.forceClose k) :=
  (OnlySluice.set ..).trans (handOff_onlySluice ..)

theorem makeRoom_onlySluice (s : State) (k b n : Nat) : OnlySluice k s (s.makeRoom k b n) := by
  induction n generalizing s with
  | zero => exact .refl k s
  | succ n ih =>
    unfold makeRoom
    split
    · exact (forceClose_onlySluice s k).trans (ih _)
    · exact .refl k s

theorem markParts_keepsIngest (s : State) (h : Word) (b : Nat) : KeepsIngest s (s.markParts h b) := ⟨rfl, rfl⟩

theorem breakTracks_keepsIngest (s : State) (b : Nat) (l : List Nat) : KeepsIngest s (s.breakTracks b l) := by
  induction l generalizing s with
  | nil => exact .refl s
  | cons n r ih =>
    unfold breakTracks
    extract_lets t
    refine .trans ?_ (ih _)
    split
    · exact (putTrack_keepsIngest ..).trans (markParts_keepsIngest ..)
    · exact .refl s

/-- A stream break is announced at the next line of its context (R83). -/
theorem streamBreak_leaves (s : State) (k : Nat) :
    OnlySluice k s (s.streamBreak k) ∧ ((s.streamBreak k).sluice k).brkNext = true := by
  unfold streamBreak
  extract_lets c base s1 s2 mine
  obtain ⟨t, ht, ⟨h, w, hk⟩, hother, hframe⟩ := releaseBlocks_leaves s1 k
  have h1 : OnlySluice k s s1 := .set ..
  have h2 : OnlySluice k s1 t := ⟨hother, by rw [hframe]⟩
  have h3 := breakTracks_keepsIngest t (base / 16) mine
  have hs1 : (s1.sluice k).brkNext = true := congrArg Sluice.brkNext (setSluice_same ..)
  rw [show s2 = t from ht]
  refine ⟨h1.trans (h2.trans (h3.onlySluice k)), ?_⟩
  rw [h3.sluice, hk]
  exact hs1

end Sys2Proof.Machine.State
end

