-- ==== Sys2Proof/Proofs/ParallelPorts.lean ====
section
/-! SUPPORT. Lines of the parallel ports, holds and pixel clocks (R75, R79, R80, R82, R83). -/

namespace Sys2Proof.Machine

/-! ## The entry at an index replaced -/

theorem length_modifyAt {α : Type} (f : α → α) (l : List α) (n : Nat) : (modifyAt f l n).length = l.length := by
  induction l generalizing n with
  | nil => rfl
  | cons x r ih => cases n with
    | zero => rfl
    | succ n => exact congrArg (· + 1) (ih n)

theorem getElem?_modifyAt_same {α : Type} (f : α → α) (l : List α) (n : Nat) : (modifyAt f l n)[n]? = l[n]?.map f := by
  induction l generalizing n with
  | nil => rfl
  | cons x r ih => cases n with
    | zero => rfl
    | succ n => exact ih n

namespace State

/-! ## Lines of open blocks (R79) -/

/-- The open blocks up to b: the blocks there are, and the ones between, each of 16 lines. -/
theorem ensureBlocks_leaves (c : Sluice) (b n : Nat) (hroom : b < c.next + c.blocks.length + n)
    (h16 : ∀ x ∈ c.blocks, x.lines.length = 16) :
    (ensureBlocks c b n).next = c.next ∧ b < c.next + (ensureBlocks c b n).blocks.length ∧
    ∀ x ∈ (ensureBlocks c b n).blocks, x.lines.length = 16 := by
  induction n generalizing c with
  | zero => exact ⟨rfl, hroom, h16⟩
  | succ n ih =>
    unfold ensureBlocks
    extract_lets nb x y
    split
    · next hb => exact ⟨rfl, hb, h16⟩
    · have hy : y.lines.length = 16 := by
        unfold y
        split
        · exact (length_modifyAt ..).trans (List.length_replicate ..)
        · exact List.length_replicate ..
      refine ih { c with blocks := c.blocks ++ [y], brkNext := false } ?_ fun z hz => ?_
      · show b < c.next + (c.blocks ++ [y]).length + n
        rw [List.length_append, List.length_singleton]
        omega
      · rcases List.mem_append.1 hz with hz | hz
        · exact h16 z hz
        · rw [List.mem_singleton.1 hz]
          exact hy

/-- A line of an open block of 16 lines reads as it was put. -/
theorem getLine_modLine {c : Sluice} {n : Nat} (f : Line → Line) (hopen : n / 16 < c.next + c.blocks.length)
    (hnext : c.next ≤ n / 16)
    (h16 : ∀ x ∈ c.blocks, x.lines.length = 16) : getLine (modLine f n c) n = f (getLine c n) := by
  have hi : n / 16 - c.next < c.blocks.length := by omega
  have hb : c.blocks[n / 16 - c.next]? = some c.blocks[n / 16 - c.next] := List.getElem?_eq_getElem hi
  have hn : n % 16 < c.blocks[n / 16 - c.next].lines.length := by
    rw [h16 _ (List.getElem_mem hi)]
    omega
  have hm : (modLine f n c).blocks[n / 16 - c.next]? = _ := getElem?_modifyAt_same _ c.blocks (n / 16 - c.next)
  rw [hb] at hm
  have hline := getElem?_modifyAt_same f c.blocks[n / 16 - c.next].lines (n % 16)
  rw [List.getElem?_eq_getElem hn] at hline
  rw [getLine, show (modLine f n c).next = c.next from rfl, hm, getLine, hb]
  simp only [Option.map_some, List.getD_eq_getElem?_getD, hline, List.getElem?_eq_getElem hn, Option.getD_some]

/-! ## The lines of a parallel port (R82) -/

/-- Bytes that come of a line of `clocks` valid clocks. -/
def parallelGot (s : State) (p clocks : Nat) : Nat :=
  min (clocks * s.parPixels p) ((s.shape (16 + p)).cols * (s.shape (16 + p)).chans) * (s.shape (16 + p)).bytes

/-- A line as a parallel port delivers it, `got` bytes of it. -/
def sampled (s : State) (got : Nat) (missing : Bool) (data : List Byte) (status : Half) (l : Line) : Line :=
  { l with
    got := if got = 0 then [] else [(0, got)], data := writeBytes [] 0 (padTo got (data.take got))
    stamp := if got = 0 then none else some s.ownStamp, missing, status }

/-- The context of a port with its expected line delivered, and the next one expected. -/
def sampledContext (s : State) (k n got : Nat) (missing : Bool) (data : List Byte) (status : Half) : Sluice :=
  { modLine (s.sampled got missing data status) n (ensureBlocks (s.sluice k) (n / 16) 8) with expect := n + 1 }

/-- A line of a port counts where it has a pixel. -/
def countLine (s : State) (k got : Nat) : State := if got = 0 then s else s.bump (sOff k + 0x24) 1

theorem parallelData_eq (s : State) (p clocks : Nat) (data : List Byte) (status : Half) :
    ∃ u n got missing, s.parallelData p clocks data status =
        (u.setSluice (16 + p) (u.sampledContext (16 + p) n got missing data status)).countLine (16 + p) got ∧
      u = s.makeRoom (16 + p) (n / 16) (n / 16 - 3 - (s.sluice (16 + p)).next) ∧ n = (s.sluice (16 + p)).expect ∧
      got = s.parallelGot p clocks ∧ missing = decide (got < (s.shape (16 + p)).lineBytes) :=
  ⟨_, _, _, _, rfl, rfl, rfl, rfl, rfl⟩

theorem countLine_frame (s : State) (k got : Nat) : ∃ c, s.countLine k got = { s with counters := c } ∧
    ∀ o, o ≠ sOff k + 0x24 → tget 0 c o = s.counter o := by
  unfold countLine
  split
  · exact ⟨_, rfl, fun _ _ => rfl⟩
  · exact ⟨_, rfl, fun o ho => bump_other s _ 1 o ho⟩

theorem parallelData_onlySluice (s : State) (p clocks : Nat) (data : List Byte) (status : Half) :
    OnlySluice (16 + p) s (s.parallelData p clocks data status) := by
  obtain ⟨u, n, got, missing, he, hu, -, -, -⟩ := parallelData_eq s p clocks data status
  have h1 : OnlySluice (16 + p) s u := by
    rw [hu]
    exact makeRoom_onlySluice ..
  obtain ⟨c, hc, -⟩ := countLine_frame (u.setSluice (16 + p) (u.sampledContext (16 + p) n got missing data status)) (16 + p) got
  rw [he, hc]
  exact h1.trans (.trans (.set ..) ⟨fun _ _ => rfl, rfl⟩)

/-- A line that falls in one of the four open blocks is there as the port delivered it. -/
theorem getLine_sampledContext {s : State} {k n : Nat} (got : Nat) (missing : Bool) (data : List Byte) (status : Half)
    (hlo : (s.sluice k).next ≤ n / 16) (hhi : n / 16 ≤ (s.sluice k).next + 3)
    (h16 : ∀ x, x ∈ (s.sluice k).blocks → x.lines.length = 16) :
    ∃ l, getLine (s.sampledContext k n got missing data status) n = s.sampled got missing data status l := by
  obtain ⟨hnext, hlen, hlines⟩ := ensureBlocks_leaves (s.sluice k) (n / 16) 8 (by omega) h16
  rw [← hnext] at hlo hlen
  exact ⟨_, getLine_modLine _ hlen hlo hlines⟩

/-- The expected line of a port falls in an open block: it is put there, with its own stamp, and the next is expected. -/
theorem parallelData_open {s : State} {p clocks n : Nat} (data : List Byte) (status : Half) (hn : n = (s.sluice (16 + p)).expect)
    (hlo : (s.sluice (16 + p)).next ≤ n / 16) (hhi : n / 16 ≤ (s.sluice (16 + p)).next + 3)
    (h16 : ∀ x, x ∈ (s.sluice (16 + p)).blocks → x.lines.length = 16) :
    ∃ t, s.parallelData p clocks data status = t ∧ (t.sluice (16 + p)).expect = n + 1 ∧
      (getLine (t.sluice (16 + p)) n).stamp = (if s.parallelGot p clocks = 0 then none else some s.ownStamp) ∧
      (getLine (t.sluice (16 + p)) n).missing = decide (s.parallelGot p clocks < (s.shape (16 + p)).lineBytes) ∧
      (∀ o, o ≠ sOff (16 + p) + 0x24 → t.counter o = s.counter o) ∧ (∀ j, j ≠ 16 + p → t.sluice j = s.sluice j) ∧
      t = { s with sluices := t.sluices, counters := t.counters } := by
  obtain ⟨u, m, got, missing, he, hu, hm, rfl, rfl⟩ := parallelData_eq s p clocks data status
  obtain rfl : m = n := hm.trans hn.symm
  rw [show m / 16 - 3 - (s.sluice (16 + p)).next = 0 by omega] at hu
  obtain rfl : u = s := hu
  obtain ⟨l, hl⟩ := getLine_sampledContext (u.parallelGot p clocks)
      (decide (u.parallelGot p clocks < (u.shape (16 + p)).lineBytes))
    data status hlo hhi h16
  have hexp : (u.sampledContext (16 + p) m (u.parallelGot p clocks)
    (decide (u.parallelGot p clocks < (u.shape (16 + p)).lineBytes)) data status).expect = m + 1 := rfl
  generalize u.sampledContext (16 + p) m _ _ data status = c at he hl hexp
  obtain ⟨e, hcount, hother⟩ := countLine_frame (u.setSluice (16 + p) c) (16 + p) (u.parallelGot p clocks)
  have hk := setSluice_same u (16 + p) c
  rw [← hk] at hl hexp
  exact ⟨_, he.trans hcount, hexp, congrArg Line.stamp hl, congrArg Line.missing hl, hother,
    fun j hj => setSluice_other u (16 + p) j c hj, rfl⟩

theorem lastCodeKeys_sluice (c : Half) (k : Nat) : lastCodeKeys c 0x03 k = [sOff k + 0x20] := by
  simp only [lastCodeKeys, sOff]
  rw [show 0x240020 + 0x100 * k = 0x240000 + 0x100 * k + 0x20 by omega]

/-- A line of a running port with its clock: with other than its number of clocks, it counts in LEN_ERR with 0x2405. -/
theorem parallelLineEff_eq {s : State} {p clocks : Nat} {data : List Byte} (hrun : (s.sluice (16 + p)).run = true)
    (hclk : (s.sluice (16 + p)).clkLost = false) :
    s.parallelLineEff p clocks data =
      if clocks = s.parallelNeed p then s.parallelData p clocks data 0
      else ((s.parallelData p clocks data 0x2405#16).bump (sOff (16 + p) + 0x44) 1).raiseNow 0x2405#16 0x03 (16 + p)
        (leBytes 6 (s.sluice (16 + p)).expect) := by
  have hgo : ¬ (¬ (s.sluice (16 + p)).run = true ∨ (s.sluice (16 + p)).clkLost = true) := by simp [hrun, hclk]
  unfold parallelLineEff
  extract_lets k c short s1
  rw [if_neg hgo]
  unfold s1 short
  by_cases hc : clocks = s.parallelNeed p <;> simp [hc, k, c]

/-! ## Holds (R80) -/

theorem due_iff (s : State) (k bytes : Nat) (l : Line) :
    (!resolved bytes l && s.expired k l) = true ↔ l.missing = false ∧ coversRange l.got 0 bytes = false ∧
      l.laterAt.any (fun u => decide (u + s.fld (sOff k + 0x14) 15 0 * 1000 ≤ s.now)) = true := by
  unfold resolved expired holdNs
  cases l.laterAt <;> simp [and_assoc]

/-- A hold that expires declares the absent data of exactly the lines whose hold has passed. -/
theorem declare_expired (s : State) (k : Nat) (c : Sluice) :
    (declare (s.shape k).lineBytes (s.expired k) c).blocks = c.blocks.map (fun x => { x with lines := x.lines.map (fun l =>
      if l.missing = false ∧ coversRange l.got 0 (s.shape k).lineBytes = false ∧
          l.laterAt.any (fun u => decide (u + s.fld (sOff k + 0x14) 15 0 * 1000 ≤ s.now)) = true
      then { l with missing := true } else l) }) := by
  simp only [declare, due_iff]

/-! ## Pixel clocks (R83) -/

/-- A pixel clock that is lost: a stream break of a running context, CLK_LOST, BREAK and 0x5401. -/
theorem pixelClockLostEff_leaves {s : State} {p : Nat} (clocks : Nat) (data : List Byte)
    (h : (s.sluice (16 + p)).clkLost = false) :
    ∃ t, s.pixelClockLostEff p clocks data = t ∧ (t.sluice (16 + p)).clkLost = true ∧ (t.sluice (16 + p)).brk = true ∧
      (tget {} t.pars p).kHz = 0 ∧ t.lastCode (sOff (16 + p) + 0x20) = 0x5401#16 ∧
      ((s.sluice (16 + p)).run = true → (t.sluice (16 + p)).brkNext = true) ∧
      ∀ j, j ≠ 16 + p → t.sluice j = s.sluice j := by
  obtain ⟨t, ht⟩ : ∃ t, s.pixelClockLostEff p clocks data = t := ⟨_, rfl⟩
  refine ⟨t, ht, ?_⟩
  unfold pixelClockLostEff at ht
  extract_lets k c s1 s2 s3 c3 at ht
  have hc : ¬ c.clkLost = true := by
    unfold c k
    simp [h]
  rw [if_neg hc] at ht
  have h2 : OnlySluice k s1 s2 := by
    unfold s2
    split
    · exact parallelData_onlySluice ..
    · exact .refl k s1
  have h3 : OnlySluice k s2 s3 ∧ (c.run = true → (s3.sluice k).brkNext = true) := by
    obtain ⟨honly, hbrk⟩ := streamBreak_leaves s2 k
    unfold s3
    split
    · exact ⟨honly, fun _ => hbrk⟩
    · next hr => exact ⟨.refl k s2, fun h => absurd h hr⟩
  obtain ⟨h3, hbrk⟩ := h3
  have hk := setSluice_same s3 k { c3 with clkLost := true, brk := true }
  have hpars : s3.pars = tset {} s.pars p { kHz := 0 } := (h2.trans h3).pars
  have hcode := lastCode_raiseNow (s3.setSluice k { c3 with clkLost := true, brk := true }) 0x5401#16 0x03 k [] (sOff k + 0x20)
  rw [ht] at hcode
  have hsluice (j : Nat) : t.sluice j = (s3.setSluice k { c3 with clkLost := true, brk := true }).sluice j := by
    rw [← ht]
    rfl
  refine ⟨by rw [hsluice, hk], by rw [hsluice, hk], ?_, hcode.trans (if_pos ?_), fun hr => ?_, fun j hj => ?_⟩
  · rw [← ht, show (raiseNow (s3.setSluice k _) 0x5401#16 0x03 k).pars = s3.pars from rfl, hpars, tget_tset_same]
  · exact ⟨by decide, by rw [lastCodeKeys_sluice]; exact List.mem_singleton_self _⟩
  · rw [hsluice, hk]
    exact hbrk hr
  · rw [hsluice]
    exact (setSluice_other s3 k j _ hj).trans ((h2.trans h3).others j hj)

/-- A line whose number falls in one of the four open blocks of a running port with its clock. -/
theorem parallelLineEff_leaves {s : State} {p clocks n : Nat} (data : List Byte) (hn : n = (s.sluice (16 + p)).expect)
    (hrun : (s.sluice (16 + p)).run = true) (hclk : (s.sluice (16 + p)).clkLost = false)
    (hlo : (s.sluice (16 + p)).next ≤ n / 16) (hhi : n / 16 ≤ (s.sluice (16 + p)).next + 3)
    (h16 : ∀ x, x ∈ (s.sluice (16 + p)).blocks → x.lines.length = 16) :
    ∃ t, s.parallelLineEff p clocks data = t ∧ (t.sluice (16 + p)).expect = n + 1 ∧
      (getLine (t.sluice (16 + p)) n).stamp = (if s.parallelGot p clocks = 0 then none else some s.ownStamp) ∧
      (getLine (t.sluice (16 + p)) n).missing = decide (s.parallelGot p clocks < (s.shape (16 + p)).lineBytes) ∧
      t.counter (sOff (16 + p) + 0x44) = (if clocks = s.parallelNeed p then s.counter (sOff (16 + p) + 0x44)
        else satAdd (s.counter (sOff (16 + p) + 0x44)) 1) ∧
      (clocks ≠ s.parallelNeed p → t.lastCode (sOff (16 + p) + 0x20) = 0x2405#16) ∧
      (∀ j, j ≠ 16 + p → t.sluice j = s.sluice j) ∧
      t = { s with sluices := t.sluices, counters := t.counters, log := t.log } := by
  have he := parallelLineEff_eq (clocks := clocks) (data := data) hrun hclk
  by_cases hc : clocks = s.parallelNeed p
  · obtain ⟨t, ht, hexp, hstamp, hmiss, hcount, hother, hframe⟩ :=
      parallelData_open (clocks := clocks) data 0 hn hlo hhi h16
    rw [if_pos hc, ht] at he
    refine ⟨t, he, hexp, hstamp, hmiss, ?_, fun h => absurd hc h, hother, ?_⟩
    · rw [if_pos hc, hcount _ (by omega)]
    · rw [hframe]
  · obtain ⟨t, ht, hexp, hstamp, hmiss, hcount, hother, hframe⟩ :=
      parallelData_open (clocks := clocks) data 0x2405#16 hn hlo hhi h16
    rw [if_neg hc, ht] at he
    refine ⟨_, he, hexp, hstamp, hmiss, ?_, fun _ => ?_, hother, ?_⟩
    · rw [if_neg hc, raiseNow_counter, bump_same, hcount _ (by omega)]
    · refine (lastCode_raiseNow ..).trans (if_pos ⟨by decide, ?_⟩)
      rw [lastCodeKeys_sluice]
      exact List.mem_singleton_self _
    · rw [hframe]
      rfl

end State
end Sys2Proof.Machine

open Sys2Proof Sys2Proof.Machine Sys2Proof.Machine.State in
/-- Settles O30: the line in its open block, the holds that have passed, and a pixel clock lost and back. -/
theorem parallelLinesHoldsAndClocks : Obligations.ParallelLinesHoldsAndClocks := by
  unfold Obligations.ParallelLinesHoldsAndClocks
  refine ⟨fun s p clocks data k n need got hk hn hrun hclk hlo hhi h16 hneed hgot => ?_, fun s k hrun => ?_,
    fun s p clocks data hclk => ?_, fun s p f => ?_⟩
  · subst hk hneed hgot
    obtain ⟨t, ht, h⟩ := parallelLineEff_leaves (clocks := clocks) data hn hrun hclk hlo hhi h16
    exact ⟨t, congrArg Host.Outcome.next ht, h⟩
  · have he : s.holdExpiryEff k = s.setSluice k (declare (s.shape k).lineBytes (s.expired k) (s.sluice k)) := if_pos hrun
    have hk := setSluice_same s k (declare (s.shape k).lineBytes (s.expired k) (s.sluice k))
    refine ⟨_, congrArg Host.Outcome.next he, ?_, (congrArg Sluice.next hk :), (congrArg Sluice.expect hk :),
      fun j hj => setSluice_other s k j _ hj, rfl⟩
    rw [hk, declare_expired]
  · obtain ⟨t, ht, h⟩ := pixelClockLostEff_leaves clocks data hclk
    exact ⟨t, congrArg Host.Outcome.next ht, h⟩
  · exact ⟨_, rfl, setSluice_same .., congrArg Par.kHz (tget_tset_same ..), fun j hj => setSluice_other _ _ j _ hj, rfl⟩
end

