-- ==== Sys2Proof/Proofs/PipeBlocks.lean ====
section
/-! SUPPORT and O31. The way of a line block through its pipe (R73, R102, R105, R106, R219, R269): what a start and an end leave. -/

namespace Sys2Proof.Machine.State

/-! ## A block handed on (R73) -/

theorem lineBlockHandoffEff_resolved {s : State} {k : Nat} {x : OpenBlock} {rest : List OpenBlock}
    (hrun : (s.sluice k).run = true)
    (hblocks : (s.sluice k).blocks = x :: rest) (hres : x.lines.all (resolved (s.shape k).lineBytes) = true) :
    s.lineBlockHandoffEff k = s.handOff k := by
  unfold lineBlockHandoffEff
  dsimp only
  rw [hblocks]
  dsimp only
  rw [hrun, hres, Bool.true_and, if_pos rfl]

/-! ## A block started (R102, R105, R219) -/

theorem shape_congr {s t : State} (h : t.regs = s.regs) (k : Nat) : t.shape k = s.shape k := by
  unfold shape fld reg
  rw [h]

theorem inline_congr {s t : State} (h : t.regs = s.regs) (k : Nat) : t.inline_ k = s.inline_ k := by
  unfold inline_ flag reg
  rw [h]

theorem pipeTime_congr {s t : State} (h : t.regs = s.regs) (k : Nat) (b : LineBlock) : t.pipeTime k b = s.pipeTime k b := by
  unfold pipeTime
  rw [shape_congr h]

/-- With no swap pending, a block's start leaves the parameter sets. -/
theorem swapApply_idle {s : State} {i : Nat} (h : (s.slot i).pending = false) (k b : Nat) : s.swapApply i k b = s := by
  unfold swapApply
  dsimp only
  rw [h, if_pos Bool.false_ne_true]

/-- With no changeover asked for, a block's start leaves the recipes. -/
theorem changeoverApply_idle {s : State} {k : Nat} (h : tget none s.changes k = none) (b : Nat) : s.changeoverApply k b = s := by
  unfold changeoverApply
  rw [h]

theorem markRec_frame (s : State) (i k b : Nat) : ∃ r, s.markRec i k b = { s with records := r } := ⟨_, rfl⟩

/-- The state in which a pipe has started the oldest block of a slot, with its active set. -/
structure Started (s t : State) (p i k : Nat) (b : LineBlock) : Prop where
  busy : (t.pipe p).busy = some (i, b, (s.slot i).active, if s.inline_ k then s.now else s.now + s.pipeTime k b)
  dropped : (t.pipe p).dropped = s.outFull i
  slot : t.slot i = { s.slot i with started := b.b + 1 }
  slots : ∀ j, j ≠ i → t.slot j = s.slot j
  pipes : ∀ j, j ≠ p → t.pipe j = s.pipe j
  sluices : ∀ j, j ≠ k → t.sluice j = s.sluice j
  only : t = { s with records := t.records, slots := t.slots, sluices := t.sluices, pipes := t.pipes, log := t.log }

theorem startBlock_leaves {s : State} {p i k : Nat} {b : LineBlock} (hswap : (s.slot i).pending = false)
    (hchange : tget none s.changes k = none) : Started s (s.startBlock p i k b) p i k b := by
  obtain ⟨t, ht⟩ : ∃ t, s.startBlock p i k b = t := ⟨_, rfl⟩
  rw [ht]
  unfold startBlock at ht
  rw [swapApply_idle hswap, changeoverApply_idle hchange] at ht
  extract_lets s1 x s2 at ht
  obtain ⟨r, h1⟩ : ∃ r, s1 = { s with records := r } := markRec_frame ..
  have hx : x = s.slot i := (congrArg (fun u : State => u.slot i) h1 :)
  obtain ⟨u, hu, -, hother, hframe⟩ := releaseBlocks_leaves (s1.setSlot i { x with started := b.b + 1 }) k
  have h2 : s2 = { s with
      records := r, slots := (s1.setSlot i { x with started := b.b + 1 }).slots, sluices := u.sluices, log := u.log } := by
    rw [show s2 = u from hu, hframe, h1]
    rfl
  have hslot : s2.slot i = { s.slot i with started := b.b + 1 } := by
    rw [h2, ← hx]
    exact setSlot_same s1 i _
  have hslots (j : Nat) (hj : j ≠ i) : s2.slot j = s.slot j := by
    rw [h2]
    refine (setSlot_other s1 i j _ hj).trans ?_
    rw [h1]
    rfl
  have hsluices (j : Nat) (hj : j ≠ k) : s2.sluice j = s.sluice j := by
    rw [show s2 = u from hu, hother j hj, h1]
    rfl
  have hregs : s2.regs = s.regs := by rw [h2]
  have hnow : s2.now = s.now := by rw [h2]
  have hpipe (j : Nat) : s2.pipe j = s.pipe j := by rw [h2]; rfl
  have hfull : s2.outFull i = s.outFull i := by
    unfold outFull
    rw [hslot]
  rw [hx, inline_congr hregs, pipeTime_congr hregs, hnow, hfull] at ht
  clear_value s2
  subst ht
  refine ⟨?_, ?_, hslot, hslots, fun j hj => (setPipe_other s2 p j _ hj).trans (hpipe j), hsluices, ?_⟩
  · rw [setPipe_same]
  · rw [setPipe_same]
  · rw [h2]
    rfl

theorem pipeBlockStartEff_idle {s : State} {p i k : Nat} {b : LineBlock} {rest : List LineBlock} (hidle : (s.pipe p).busy = none)
    (hnext : s.nextSlot p = some i) (hctx : (s.slot i).ctx = some k) (hqueue : (s.slot i).queue = b :: rest) :
    s.pipeBlockStartEff p = s.startBlock p i k b := by
  unfold pipeBlockStartEff
  rw [hidle, hnext]
  dsimp only
  rw [hctx, hqueue]
  rfl

/-! ## A block finished (R106, R268, R269) -/

/-- From `s` to `t` nothing changes but what a finished block writes. -/
def onlyFinishes (s t : State) : Prop :=
  t = { s with records := t.records, bonded := t.bonded, counters := t.counters, log := t.log, slots := t.slots,
               rewind := t.rewind, provings := t.provings }

theorem onlyFinishes.trans {s t u : State} (h : onlyFinishes s t) (h' : onlyFinishes t u) : onlyFinishes s u := by
  rw [onlyFinishes] at h h' ⊢
  rw [h', h]

theorem rewindWrite_frame (s : State) (x : LineBlock) (set : Mem) (gen : Nat) (digest recipe : List Byte) :
    ∃ m w, s.rewindWrite x set gen digest recipe = { s with bonded := m, rewind := w } := by
  unfold rewindWrite
  split
  · exact ⟨_, _, rfl⟩
  · exact ⟨_, _, rfl⟩

/-- The state in which a block numbered n has been finished: the last of its slot's output ring. -/
structure Finished (s t : State) (i n : Nat) : Prop where
  only : onlyFinishes s t
  slot : t.slot i = { s.slot i with out := (s.slot i).out ++ [n] }
  slots : ∀ j, j ≠ i → t.slot j = s.slot j

theorem finishBlock_finished (s : State) (i k : Nat) (b : LineBlock) (set : Mem) (full : Bool) :
    Finished s (s.finishBlock i k b set full) i b.b := by
  obtain ⟨t, ht⟩ : ∃ t, s.finishBlock i k b set full = t := ⟨_, rfl⟩
  rw [ht]
  unfold finishBlock at ht
  extract_lets s1 x h ls top bare marks base faultAdded status at ht
  split at ht
  next mem n hmem =>
    extract_lets clamps s2 s3 s4 s5 s6 rd at ht
    have h2 : ∃ m r, s2 = { s with bonded := m, records := r } := ⟨_, _, rfl⟩
    have h3 : ∃ c, s3 = { s2 with counters := c } := by
      unfold s3
      split <;> exact ⟨_, rfl⟩
    have h4 : ∃ c l, s4 = { s3 with counters := c, log := l } := by
      unfold s4
      split <;> exact ⟨_, _, rfl⟩
    have h5 : s5 = s4.setSlot i { x with out := x.out ++ [b.b] } := rfl
    have h6 : ∃ r, s6 = { s5 with records := r } := ⟨_, rfl⟩
    have hx : x = s.slot i := rfl
    clear_value s6 s5 s4 s3 s2 x
    obtain ⟨m, r, rfl⟩ := h2
    obtain ⟨c, rfl⟩ := h3
    obtain ⟨c, l, rfl⟩ := h4
    obtain ⟨r, rfl⟩ := h6
    obtain ⟨m, w, h7⟩ := rewindWrite_frame { s5 with records := r } b set x.gen.toNat (setDigest set) rd
    rw [h7, h5, hx] at ht
    subst ht
    exact ⟨rfl, setSlot_same s i _, fun j hj => setSlot_other s i j _ hj⟩

theorem proveBlock_frame (s : State) (r i last : Nat) : ∃ g, s.proveBlock r i last = { s with provings := g } := ⟨_, rfl⟩

/-- The proving rules of a source judge a finished block for themselves alone (R269). -/
theorem proveBlocks_frame (s : State) (i : Nat) (x : LineBlock) (l : List Nat) :
    ∃ g, s.proveBlocks i x l = { s with provings := g } := by
  induction l generalizing s with
  | nil => exact ⟨_, rfl⟩
  | cons r rest ih =>
    unfold proveBlocks
    split
    · obtain ⟨g, hg⟩ := proveBlock_frame s r i x.b
      rw [hg]
      obtain ⟨g', hg'⟩ := ih { s with provings := g }
      exact ⟨g', hg'⟩
    · exact ih s

theorem blockDone_finished (s : State) (i k : Nat) (b : LineBlock) (set : Mem) (full : Bool) :
    Finished s (s.blockDone i k b set full) i b.b := by
  obtain ⟨honly, hslot, hslots⟩ := finishBlock_finished s i k b set full
  unfold blockDone
  obtain ⟨g, hg⟩ := proveBlocks_frame (s.finishBlock i k b set full) i b (s.provings.map (fun (p : Nat × Proving) => p.1))
  rw [hg]
  exact ⟨honly.trans rfl, hslot, hslots⟩

/-! ## The end of a pipe's work on a block (R104, R106) -/

/-- With no block waiting for its following line, the slots of a pipe finish none. -/
theorem finishSlots_idle {s : State} (h : ∀ j, (s.slot j).waiting = []) (l : List Nat) : s.finishSlots l = s := by
  induction l with
  | nil => rfl
  | cons i rest ih =>
    unfold finishSlots
    rw [h i]
    split
    · exact ih
    · exact ih

/-- The state in which a pipe has ended its work on a block `y` with a set, in its time and handed on: the pipe is free, the
block off its slot's queue, in the output ring or, under Bayer conversion, waiting for the line that follows it. -/
structure Released (s t : State) (p i : Nat) (y : LineBlock) (set : Mem) : Prop where
  free : (t.pipe p).busy = none
  queue : (t.slot i).queue = (s.slot i).queue.filter (fun x => decide (x.b ≠ y.b))
  done : (t.slot i).out = (s.slot i).out ++ [y.b] ∨
    ((t.slot i).waiting = (s.slot i).waiting ++ [(y, set, (s.pipe p).dropped)] ∧ t.bonded = s.bonded ∧ psBayer set = true)
  plain : psBayer set = false → (t.slot i).out = (s.slot i).out ++ [y.b]
  pipes : ∀ j, j ≠ p → t.pipe j = s.pipe j
  slots : ∀ j, j ≠ i → t.slot j = s.slot j
  axes : t.axes = s.axes
  time : t.time = s.time
  sluices : t.sluices = s.sluices
  cal : t.cal = s.cal

theorem psBayer_of_awaitsLine {s : State} {i k : Nat} {b : LineBlock} {set : Mem} {full : Bool}
    (h : s.awaitsLine i k b set full = true) : psBayer set = true := by
  unfold awaitsLine at h
  simp only [Bool.and_eq_true] at h
  exact h.1.1.1

theorem pipeRelease_released (s : State) (p i k : Nat) (y : LineBlock) (set : Mem) :
    Released s (s.pipeRelease p i k y set) p i y set := by
  obtain ⟨t, ht⟩ : ∃ t, s.pipeRelease p i k y set = t := ⟨_, rfl⟩
  rw [ht]
  unfold pipeRelease at ht
  extract_lets full q s1 x s2 w at ht
  have hpipe (j : Nat) (hj : j ≠ p) : s2.pipe j = s.pipe j := setPipe_other s p j _ hj
  have hfree : (s2.pipe p).busy = none := congrArg Pipe.busy (setPipe_same s p _)
  have hslot : ∃ bs, s2.slot i = { s.slot i with
      queue := (s.slot i).queue.filter (fun x => decide (x.b ≠ y.b)), behind := bs } :=
    ⟨_, setSlot_same s1 i _⟩
  have hslots (j : Nat) (hj : j ≠ i) : s2.slot j = s.slot j := setSlot_other s1 i j _ hj
  have h2 : ∃ P S, s2 = { s with pipes := P, slots := S } := ⟨_, _, rfl⟩
  have hend : onlyFinishes s2 t ∧ (∀ j, j ≠ i → t.slot j = s2.slot j) ∧
      (t.slot i = { s2.slot i with out := (s2.slot i).out ++ [y.b] } ∨
        t.slot i = { s2.slot i with waiting := (s2.slot i).waiting ++ [(y, set, full)] } ∧
          t.bonded = s2.bonded ∧ psBayer set = true) := by
    split at ht
    · next hwait =>
      subst ht
      exact ⟨rfl, fun j hj => setSlot_other s2 i j _ hj, .inr ⟨setSlot_same s2 i _, rfl, psBayer_of_awaitsLine hwait⟩⟩
    · obtain ⟨honly, hout, hother⟩ := blockDone_finished s2 i k y set full
      rw [ht] at honly hout hother
      exact ⟨honly, hother, .inl hout⟩
  clear_value w s2
  obtain ⟨bs, hslot⟩ := hslot
  obtain ⟨P, S, h2⟩ := h2
  obtain ⟨honly, hother, hout⟩ := hend
  rw [hslot] at hout
  rw [onlyFinishes] at honly
  have hpipes (j : Nat) : t.pipe j = s2.pipe j := by
    rw [honly]
    rfl
  have hfields : t.axes = s.axes ∧ t.time = s.time ∧ t.sluices = s.sluices ∧ t.cal = s.cal := by
    rw [honly, h2]
    exact ⟨rfl, rfl, rfl, rfl⟩
  obtain ⟨haxes, htime, hsluices, hcal⟩ := hfields
  have hbonded : s2.bonded = s.bonded := by rw [h2]
  refine { free := by rw [hpipes, hfree], queue := ?_, done := ?_, plain := fun hplain => ?_,
           pipes := fun j hj => (hpipes j).trans (hpipe j hj), slots := fun j hj => (hother j hj).trans (hslots j hj),
           axes := haxes, time := htime, sluices := hsluices, cal := hcal }
  · obtain hout | ⟨hwait, -, -⟩ := hout
    · rw [hout]
    · rw [hwait]
  · obtain hout | ⟨hwait, hmem, hbayer⟩ := hout
    · exact .inl (congrArg Slot.out hout)
    · exact .inr ⟨congrArg Slot.waiting hwait, hmem.trans hbonded, hbayer⟩
  · obtain hout | ⟨-, -, hbayer⟩ := hout
    · exact congrArg Slot.out hout
    · rw [hplain] at hbayer
      cases hbayer

theorem pipeBlockDoneEff_due {s : State} {p i k u : Nat} {b y : LineBlock} {m : Mem} (hidle : ∀ j, (s.slot j).waiting = [])
    (hbusy : (s.pipe p).busy = some (i, b, m, u)) (hdue : u ≤ s.now) (hctx : (s.slot i).ctx = some k)
    (hfind : (s.slot i).queue.find? (fun x => decide (x.b = b.b)) = some y) :
    s.pipeBlockDoneEff p = s.pipeRelease p i k y m := by
  unfold pipeBlockDoneEff
  rw [finishSlots_idle hidle]
  dsimp only
  rw [hbusy]
  dsimp only
  rw [if_neg (Nat.not_lt.mpr hdue), hctx]
  dsimp only
  rw [hfind]

end Sys2Proof.Machine.State

open Sys2Proof Sys2Proof.Machine in
/-- Settles O31: a hand-off takes the oldest open block to its slot's queue, a start leaves it there while the pipe works on
it, and the end moves it to the output ring or, under Bayer conversion, lets it wait. -/
theorem lineBlockHandedOnStartedFinished : Obligations.LineBlockHandedOnStartedFinished := by
  unfold Obligations.LineBlockHandedOnStartedFinished
  refine ⟨fun s k x rest hrun hblocks hres hserves => ?_,
    fun s p i k b rest hserves hidle hnext hctx hqueue hswap hchange => ?_,
    fun s p i k u b y m hbusy hdue hctx hidle hfind => ?_⟩
  · obtain ⟨hrest, hnext, ⟨r, hrec, hk, hb⟩, hqueue, hothers, honly⟩ := State.handOff_serving hblocks hserves
    refine ⟨s.handOff k, r, ?_, hrest, hnext, hrec, hk, hb, hqueue, hothers, honly⟩
    exact congrArg Host.Outcome.next (State.lineBlockHandoffEff_resolved hrun hblocks hres)
  · obtain ⟨hbusy, hdropped, hslot, hslots, hpipes, hsluices, honly⟩ :=
      State.startBlock_leaves (p := p) (b := b) hswap hchange
    refine ⟨s.startBlock p i k b, s.pipeTime k b, ?_, rfl, hbusy, hdropped, by rw [hslot], by rw [hslot], by rw [hslot],
      by rw [hslot], hslots, hpipes, hsluices, honly⟩
    refine congrArg Host.Outcome.next ?_
    rw [if_pos hserves, State.pipeBlockStartEff_idle hidle hnext hctx hqueue]
  · have hy : y.b = b.b := by simpa using List.find?_some hfind
    obtain ⟨hfree, hqueue, hdone, hplain, hpipes, hslots, haxes, htime, hsluices, hcal⟩ :=
      State.pipeRelease_released s p i k y m
    rw [hy] at hqueue hdone hplain
    rw [hidle i, List.nil_append] at hdone
    refine ⟨s.pipeRelease p i k y m, ?_, hfree, hqueue, hdone, hplain, hpipes, hslots, haxes, htime, hsluices, hcal⟩
    exact congrArg Host.Outcome.next (State.pipeBlockDoneEff_due hidle hbusy hdue hctx hfind)
end

