-- ==== Sys2Proof/Proofs/ShadowSwaps.lean ====
section
/-! SUPPORT and O32. Shadow swaps (R97, R98, R100 to R103): a write of `LPp_SLOTs_SWAP` with ARM or CANCEL, and SHADOW_LOADED. -/

namespace Sys2Proof.Machine.State

/-! ## Codes and reports -/

/-- The status register of a slot's pipe. -/
theorem lastCodeKeys_slot (c : Half) {i : Nat} (hi : i < 0x10) : lastCodeKeys c 0x04 i = [0x250000 + 0x400 * (i / 4)] := by
  simp only [lastCodeKeys, hi, if_true]

theorem mem_lastCodeKeys_slot (c : Half) {p q : Fin 4} {i : Nat} (hi : i = 4 * p.val + q.val) :
    0x250000 + 0x400 * p.val ∈ lastCodeKeys c 0x04 i := by
  rw [lastCodeKeys_slot c (by omega), List.mem_singleton]
  omega

/-- Of the failures of a commit, the last one's code is shown (R446). -/
theorem lastCode_refuseAll_append (s : State) {c : Half} {k i o : Nat} (off b fn subj : Nat) (l : List (Half × Nat))
    (ho : o ∈ lastCodeKeys c k i) : (s.refuseAll k i off b fn (l ++ [(c, subj)])).lastCode o = c := by
  induction l generalizing s with
  | nil => exact (lastCode_refuse s c k i off b subj fn o).trans (if_pos ho)
  | cons x r ih => exact ih (s.refuse x.1 k i off b x.2 fn)

/-- An outcome whose subject is no register, with its code shown. -/
theorem reportSubjectLast_leaves (s : State) (c : Half) (outcome : Byte) (subj k i : Nat) :
    ∃ t, (s.reportSubject c outcome subj).last c k i = t ∧ (∀ o, o ∈ lastCodeKeys c k i → t.lastCode o = c) ∧
      t = { s with log := t.log } := by
  obtain ⟨l, hl⟩ := last_frame (s.reportSubject c outcome subj) c k i
  refine ⟨_, hl, fun o ho => ?_, rfl⟩
  rw [← hl, lastCode_last, if_pos ho]

/-! ## The write of the register (R100, R445) -/

/-- `LPp_SLOTs_SWAP`. -/
theorem regSpec_swap (p q : Fin 4) : regSpec (slotOff (4 * p.val + q.val) + 0x0C) =
    some { delta := 0x0C, code := 0x1503#16, fields := [fldE .rw 27 26 [3], Machine.fld .wo 30 30, Machine.fld .wo 31 31] } := by
  revert p q; decide

/-- The registers of the slots lie in the block of the pipes. -/
theorem slotOff_lt (p q : Fin 4) :
    0x250000 ≤ slotOff (4 * p.val + q.val) ∧ slotOff (4 * p.val + q.val) + 0x80 ≤ 0x251000 := by
  unfold slotOff
  omega

/-- What a write of the register leaves: WHEN, where it is not reserved. -/
theorem writeSwap_leaves (s : State) (p q : Fin 4) (v : Word) {i : Nat} (hi : i = 4 * p.val + q.val) :
    ∃ u, s.writeFields (slotOff i + 0x0C) 0x04 i v = u ∧
      (bits v 27 26 ≠ 3 → u.fld (slotOff i + 0x0C) 27 26 = bits v 27 26) ∧
      (∀ o, o ≠ slotOff i + 0x0C → u.reg o = s.reg o) ∧ u = { s with regs := u.regs, log := u.log } := by
  subst hi
  have hoff : slotOff (4 * p.val + q.val) + 0x0C ≠ 0x200010 := by have := slotOff_lt p q; omega
  obtain ⟨u, hu, hfld, hother, hframe⟩ :=
    writeFields_leaves 0x04 (4 * p.val + q.val) v (regSpec_swap p q) hoff (by decide) (.inr (by decide) : s.sealed = false ∨ _)
  refine ⟨u, hu, fun hwhen => ?_, hother, hframe⟩
  exact hfld (fldE .rw 27 26 [3]) (by decide) ⟨.inl rfl, .inr ⟨[3], rfl, by simpa [fldE] using hwhen⟩⟩

/-- Slots put after such a write. -/
theorem slots_written {s u : State} (hframe : u = { s with regs := u.regs, log := u.log }) (x : Tab Slot) :
    ({ u with slots := x } : State) = { s with regs := u.regs, slots := x, log := u.log } := by
  conv_lhs => rw [hframe]

/-- The regions that are committed are set by registers after the pipes' own. -/
theorem region_congr {s u : State} (hframe : u = { s with regs := u.regs, log := u.log })
    (hreg : ∀ o, 0x260000 ≤ o → u.reg o = s.reg o) (j : Nat) : u.region j = s.region j := by
  have hsec : u.sec = s.sec := (congrArg State.sec hframe :)
  have hkv : u.kv = s.kv := (congrArg State.kv hframe :)
  have hline : u.line = s.line := (congrArg State.line hframe :)
  have hpolder (n : Nat) : u.polder n = s.polder n := (congrArg (polder · n) hframe :)
  simp (disch := decide) only [region, rewBase, rewBytes, idxBase, idxCount, archBase, archBytes, kvRegion, pfxRegion, lineWindow,
    reg64, fld, flag, hreg, hsec, hkv, hline, hpolder]
  rfl

theorem placedMeets_congr {s u : State} (hframe : u = { s with regs := u.regs, log := u.log })
    (hreg : ∀ o, 0x260000 ≤ o → u.reg o = s.reg o) (a n : Nat) : u.placedMeets a n = s.placedMeets a n := by
  simp only [placedMeets, region_congr hframe hreg]

/-! ## ARM (R100, R101) -/

/-- The failures of a write with ARM: an image that meets another region, and a swap pending or no context. -/
def armFails (u : State) (i : Nat) : List (Half × Nat) :=
  regionFails 0x1504#16 14 (u.placedMeets (u.reg64 (slotOff i + 4) / 256 * 256) imageBytes) ++
    if (u.slot i).pending ∨ (u.slot i).ctx = none then [(0x1503#16, 0)] else []

theorem armFails_busy {u : State} {i : Nat} (h : (u.slot i).ctx = none ∨ (u.slot i).pending = true) :
    ∃ l, u.armFails i = l ++ [(0x1503#16, 0)] := by
  unfold armFails
  rw [if_pos h.symm]
  exact ⟨_, rfl⟩

theorem armFails_free {u : State} {i : Nat} (hmeets : u.placedMeets (u.reg64 (slotOff i + 4) / 256 * 256) imageBytes = none)
    (hctx : (u.slot i).ctx ≠ none) (hidle : (u.slot i).pending = false) : u.armFails i = [] := by
  have hok : ¬ ((u.slot i).pending = true ∨ (u.slot i).ctx = none) := by simp [hidle, hctx]
  unfold armFails
  rw [hmeets, if_neg hok]
  rfl

/-- A slot with a swap armed: its image, as memory holds it now, its WHEN and its AT. -/
def armedSlot (x : Slot) (img : Nat) (shadow : Mem) (whenSwap at_ : Nat) : Slot :=
  { x with pending := true, loaded := false, img, shadow, whenSwap, at_, fired := none, missed := none }

/-- ARM, once WHEN stands in the register. -/
theorem armEff_armed {s u : State} {i : Nat} {v : Word} (hu : s.writeFields (slotOff i + 0x0C) 0x04 i v = u)
    (harm : bit v 31 = true) : s.armEff i v =
      if bits v 27 26 = 3 ∨ ¬ (u.armFails i).isEmpty then u.refuseAll 0x04 i (slotOff i + 0x0C) 31 0 (u.armFails i)
      else u.setSlot i (armedSlot (u.slot i) (u.reg64 (slotOff i + 4) / 256 * 256)
        (subMem u.bonded (u.reg64 (slotOff i + 4) / 256 * 256) imageBytes) (u.fld (slotOff i + 0x0C) 27 26)
        (u.reg64 (slotOff i + 0x10) % 2 ^ 48)) := by
  subst hu
  exact if_neg (not_not.mpr harm)

/-- With a swap pending, or no context, a write of the register changes no slot; where it asks for ARM it shows 0x1503. -/
theorem armEff_refuses {s : State} {p q : Fin 4} {i : Nat} (v : Word) (hi : i = 4 * p.val + q.val)
    (hbusy : (s.slot i).ctx = none ∨ (s.slot i).pending = true) :
    ∃ t, s.armEff i v = t ∧ (bit v 31 = true → t.lastCode (0x250000 + 0x400 * p.val) = 0x1503#16) ∧
      t = { s with regs := t.regs, log := t.log } := by
  obtain ⟨u, hu, -, -, hframe⟩ := writeSwap_leaves s p q v hi
  cases harm : bit v 31 with
  | false =>
    refine ⟨u, ?_, fun h => absurd h Bool.false_ne_true, hframe⟩
    rw [← hu]
    exact if_pos (by rw [harm]; exact Bool.false_ne_true)
  | true =>
    have hslot : u.slot i = s.slot i := (congrArg (slot · i) hframe :)
    rw [← hslot] at hbusy
    obtain ⟨fails, hfails⟩ := armFails_busy hbusy
    have he := armEff_armed hu harm
    rw [hfails, if_pos (.inr (by simp))] at he
    obtain ⟨l, hl⟩ := refuseAll_frame u 0x04 i (slotOff i + 0x0C) 31 0 (fails ++ [(0x1503#16, 0)])
    refine ⟨_, he, fun _ => lastCode_refuseAll_append u _ _ _ _ fails (mem_lastCodeKeys_slot _ hi), ?_⟩
    rw [hl, hframe]

/-- ARM of a bound slot with no swap pending, a WHEN that is not reserved and an image that meets no other region. -/
theorem armEff_arms {s : State} {p q : Fin 4} {i k : Nat} {v : Word} (hi : i = 4 * p.val + q.val) (harm : bit v 31 = true)
    (hwhen : bits v 27 26 ≠ 3) (hctx : (s.slot i).ctx = some k) (hidle : (s.slot i).pending = false)
    (hmeets : s.placedMeets (s.reg64 (slotOff i + 4) / 256 * 256) imageBytes = none) :
    ∃ t, s.armEff i v = t ∧ (∃ m, t.slot i = armedSlot (s.slot i) (s.reg64 (slotOff i + 4) / 256 * 256) m (bits v 27 26)
        (s.reg64 (slotOff i + 0x10) % 2 ^ 48)) ∧
      (∀ j, j ≠ i → t.slot j = s.slot j) ∧ t = { s with regs := t.regs, slots := t.slots, log := t.log } := by
  obtain ⟨u, hu, hfld, hreg, hframe⟩ := writeSwap_leaves s p q v hi
  have hslot (j : Nat) : u.slot j = s.slot j := (congrArg (slot · j) hframe :)
  have hpair (d : Nat) (hd : d = 4 ∨ d = 0x10) : u.reg64 (slotOff i + d) = s.reg64 (slotOff i + d) := by
    unfold reg64
    rw [hreg _ (by omega), hreg _ (by omega)]
  have hafter (o : Nat) (ho : 0x260000 ≤ o) : u.reg o = s.reg o := by
    have := slotOff_lt p q
    exact hreg o (by subst hi; omega)
  have hfails : u.armFails i = [] := by
    refine armFails_free ?_ (by rw [hslot, hctx]; exact Option.some_ne_none k) (by rw [hslot, hidle])
    rw [hpair 4 (.inl rfl), placedMeets_congr hframe hafter, hmeets]
  have he := armEff_armed hu harm
  rw [hfails, if_neg (by simp [hwhen])] at he
  refine ⟨_, he, ⟨subMem u.bonded (u.reg64 (slotOff i + 4) / 256 * 256) imageBytes, ?_⟩,
    fun j hj => (setSlot_other u i j _ hj).trans (hslot j), slots_written hframe _⟩
  rw [setSlot_same, hfld hwhen, hpair 4 (.inl rfl), hpair 0x10 (.inr rfl), hslot]

/-! ## CANCEL (R103) -/

theorem cancelSwap_clear {v : Word} (h : bit v 30 = false) (s : State) (i : Nat) : s.cancelSwap i v = s :=
  if_neg (by simp [h])

/-- A slot with its swap discarded. -/
def withoutSwap (x : Slot) : Slot := { x with pending := false, loaded := false, shadow := [], fired := none, missed := none }

theorem cancelSwap_pending {s : State} {i : Nat} {v : Word} (h : bit v 30 = true) (hpend : (s.slot i).pending = true) :
    s.cancelSwap i v = s.setSlot i (withoutSwap (s.slot i)) :=
  if_pos ⟨h, hpend⟩

theorem arm_exec {s : State} {p q : Fin 4} {i : Nat} (v : Word) (hi : i = 4 * p.val + q.val)
    (ha : s.answers 0 (slotOff i + 0x0C) = true) : exec (.arm p q v) s = .next ((s.armEff i v).cancelSwap i v) := by
  subst hi
  exact congrArg Host.Outcome.next (gate_answers s 0 _ v _ ha)

theorem cancel_exec {s : State} {p q : Fin 4} {i : Nat} (v : Word) (hi : i = 4 * p.val + q.val)
    (ha : s.answers 0 (slotOff i + 0x0C) = true) : exec (.cancel p q v) s = .next ((s.armEff i v).cancelSwap i v) := by
  subst hi
  exact congrArg Host.Outcome.next (gate_answers s 0 _ v _ ha)

/-! ## SHADOW_LOADED (R97, R98, R101) -/

/-- The image of a pending swap, as read. -/
def loadedImage (s : State) (i : Nat) : Mem := imageRead s.free (s.slot i).shadow (subMem s.bonded (s.slot i).img imageBytes)

/-- A slot whose swap is loaded with an image. -/
def loadedSlot (x : Slot) (m : Mem) : Slot := { x with shadow := m, loaded := true }

/-- What SHADOW_LOADED makes of a pending swap that is not loaded: its image breaks no rule, or rule `o`. -/
theorem shadowLoadedEff_cases {s : State} {i k : Nat} (hctx : (s.slot i).ctx = some k) (hpend : (s.slot i).pending = true)
    (hload : (s.slot i).loaded = false) :
    (psFault (s.loadedImage i) (s.shape k).chan (s.shape k).cols = none ∧
      s.shadowLoadedEff i = ({ s with free := s.free + 1 } : State).setSlot i (loadedSlot (s.slot i) (s.loadedImage i))) ∨
    ∃ o, psFault (s.loadedImage i) (s.shape k).chan (s.shape k).cols = some o ∧
      s.shadowLoadedEff i = ((({ s with free := s.free + 1 } : State).setSlot i (withoutSwap (s.slot i))).reportSubject
        0x1504#16 2 (o + i / 4 * 2 ^ 32 + i % 4 * 2 ^ 36)).last 0x1504#16 0x04 i := by
  have hdrop : { s.slot i with pending := false, shadow := [], fired := none, missed := none } = withoutSwap (s.slot i) := by
    simp [withoutSwap, hload]
  have hwaits : ¬ (¬ (s.slot i).pending = true ∨ (s.slot i).loaded = true) := by simp [hpend, hload]
  obtain ⟨t, ht⟩ : ∃ t, s.shadowLoadedEff i = t := ⟨_, rfl⟩
  rw [ht]
  unfold shadowLoadedEff at ht
  dsimp only at ht
  rw [hdrop] at ht
  split at ht
  · next hnone => exact (Option.some_ne_none k (hctx.symm.trans hnone)).elim
  · next k' hk =>
    obtain rfl : k' = k := Option.some.inj (hk.symm.trans hctx)
    rw [if_neg hwaits] at ht
    split at ht
    · next o hfault => exact .inr ⟨o, hfault, ht.symm⟩
    · next hfault => exact .inl ⟨hfault, ht.symm⟩

/-- An image that breaks no rule is loaded; one that breaks a rule discards the swap and shows 0x1504. -/
theorem shadowLoadedEff_leaves {s : State} {p q : Fin 4} {i k : Nat} (hi : i = 4 * p.val + q.val) (hctx : (s.slot i).ctx = some k)
    (hpend : (s.slot i).pending = true) (hload : (s.slot i).loaded = false) :
    ∃ t, s.shadowLoadedEff i = t ∧
      (psFault (s.loadedImage i) (s.shape k).chan (s.shape k).cols = none →
        t.slot i = loadedSlot (s.slot i) (s.loadedImage i)) ∧
      (∀ o, psFault (s.loadedImage i) (s.shape k).chan (s.shape k).cols = some o →
        t.slot i = withoutSwap (s.slot i) ∧ t.lastCode (0x250000 + 0x400 * p.val) = 0x1504#16) ∧
      (∀ j, j ≠ i → t.slot j = s.slot j) ∧ t = { s with slots := t.slots, free := t.free, log := t.log } := by
  let u : State := { s with free := s.free + 1 }
  obtain ⟨hfault, ht⟩ | ⟨o, hfault, ht⟩ := shadowLoadedEff_cases hctx hpend hload
  · rw [hfault]
    exact ⟨_, ht, fun _ => setSlot_same u i _, fun _ h => (Option.some_ne_none _ h.symm).elim,
      fun j hj => setSlot_other u i j _ hj, rfl⟩
  · rw [hfault]
    obtain ⟨t, hw, hcode, hframe⟩ := reportSubjectLast_leaves (u.setSlot i (withoutSwap (s.slot i))) 0x1504#16 2
      (o + i / 4 * 2 ^ 32 + i % 4 * 2 ^ 36) 0x04 i
    have hslot (j : Nat) : t.slot j = (u.setSlot i (withoutSwap (s.slot i))).slot j := (congrArg (slot · j) hframe :)
    refine ⟨t, ht.trans hw, fun h => (Option.some_ne_none _ h).elim,
      fun _ _ => ⟨(hslot i).trans (setSlot_same u i _), hcode _ (mem_lastCodeKeys_slot _ hi)⟩,
      fun j hj => (hslot j).trans (setSlot_other u i j _ hj), ?_⟩
    rw [hframe]
    rfl

end Sys2Proof.Machine.State

open Sys2Proof Sys2Proof.Machine Sys2Proof.Machine.State in
/-- Settles O32: ARM taken and refused, the image loaded, and CANCEL, each by the slot that it leaves. -/
theorem shadowSwapArmLoadCancel : Obligations.ShadowSwapArmLoadCancel := by
  unfold Obligations.ShadowSwapArmLoadCancel
  refine ⟨fun s p q v i k img hi ha harm hkeep hwhen hctx hidle himg hmeets => ?_, fun s p q v i hi ha harm hkeep hbusy => ?_,
    fun s p q i k m hi hctx hpend hload hm => ?_, fun s p q v i hi ha hcancel hpend => ?_⟩
  · subst himg
    obtain ⟨t, ht, ⟨m, hslot⟩, hslots, hframe⟩ := armEff_arms hi harm hwhen hctx hidle hmeets
    have he := arm_exec v hi ha
    rw [cancelSwap_clear hkeep, ht] at he
    exact ⟨t, he, congrArg Slot.pending hslot, congrArg Slot.loaded hslot, congrArg Slot.whenSwap hslot, congrArg Slot.at_ hslot,
      congrArg Slot.img hslot, (congrArg Slot.active hslot :), (congrArg Slot.gen hslot :), (congrArg Slot.queue hslot :), hslots,
      hframe⟩
  · obtain ⟨t, ht, hcode, hframe⟩ := armEff_refuses v hi hbusy
    have he := arm_exec v hi ha
    rw [cancelSwap_clear hkeep, ht] at he
    exact ⟨t, he, (congrArg State.slots hframe :), hcode harm, hframe⟩
  · subst hi hm
    obtain ⟨t, ht, hgood, hbad, hslots, hframe⟩ := shadowLoadedEff_leaves rfl hctx hpend hload
    have hkeeps : (t.slot (4 * p.val + q.val)).active = (s.slot (4 * p.val + q.val)).active ∧
        (t.slot (4 * p.val + q.val)).gen = (s.slot (4 * p.val + q.val)).gen ∧
        (t.slot (4 * p.val + q.val)).queue = (s.slot (4 * p.val + q.val)).queue := by
      cases hfault : psFault (s.loadedImage (4 * p.val + q.val)) (s.shape k).chan (s.shape k).cols with
      | none => rw [hgood hfault]; exact ⟨rfl, rfl, rfl⟩
      | some o => rw [(hbad o hfault).1]; exact ⟨rfl, rfl, rfl⟩
    obtain ⟨hactive, hgen, hqueue⟩ := hkeeps
    refine ⟨t, congrArg Host.Outcome.next ht, fun h => ?_, fun o h => ?_, hactive, hgen, hqueue, hslots, hframe⟩
    · rw [hgood h]
      exact ⟨rfl, hpend, rfl⟩
    · obtain ⟨hslot, hcode⟩ := hbad o h
      exact ⟨congrArg Slot.pending hslot, hcode⟩
  · obtain ⟨u, hu, -, hframe⟩ := armEff_refuses v hi (.inr hpend)
    have hslot (j : Nat) : u.slot j = s.slot j := (congrArg (slot · j) hframe :)
    have hpend' : (u.slot i).pending = true := by rw [hslot, hpend]
    have he := cancel_exec v hi ha
    rw [hu, cancelSwap_pending hcancel hpend', hslot] at he
    have hsame := setSlot_same u i (withoutSwap (s.slot i))
    exact ⟨_, he, congrArg Slot.pending hsame, congrArg Slot.loaded hsame, (congrArg Slot.active hsame :),
      (congrArg Slot.gen hsame :), (congrArg Slot.queue hsame :), fun j hj => (setSlot_other u i j _ hj).trans (hslot j),
      slots_written hframe _⟩
end

