-- ==== Sys2Proof/Proofs/CalendarFirings.lean ====
section
/-! SUPPORT and O43. The Calendar (R262 to R266): entries that software writes, entries that are due, and what each kind of entry
does when it fires (R102, R219, R264, R269). -/

namespace Sys2Proof.Machine.State

/-! ## Entries written (R263) -/

/-- The entry that software writes. -/
def writtenEntry (e : CalWord) : CalEntry :=
  { pos := e.pos, kind := calKindOf e.kind, axis := e.axis.val, dir := e.dir, tag := e.tag, operand := e.operand }

/-- An entry as the Calendar of an axis takes it: late, where it has been reached already. -/
def takenEntry (s : State) (n : Nat) (e : CalEntry) : CalEntry := { e with late := beyond e.dir (s.posKnown n) e.pos }

theorem calAdd_fits {s : State} {n : Nat} (h : (s.calOf n).length < 4096) (e : CalEntry) :
    s.calAdd n [e] = (s.setCal n (s.calOf n ++ [s.takenEntry n e]), true) :=
  if_neg (by rw [List.length_singleton]; omega)

theorem calAdd_full {s : State} {n : Nat} (h : 4096 ≤ (s.calOf n).length) (e : CalEntry) :
    s.calAdd n [e] = ((s.bump 0x280038 1).raise 0x3C01#16 0x07 (calInst n e), false) :=
  if_pos (by rw [List.length_singleton]; omega)

section
variable {s : State} {d : DescHdr} {e : CalWord}

theorem calWriteEff_taken (hfn : d.fn.val = 0) (hr : s.calRefusal e = none) : s.calWriteEff d e =
    (s.calAdd e.axis [writtenEntry e]).1.descDone d (if (s.calAdd e.axis [writtenEntry e]).2 then 0 else 0x3C01#16) := by
  unfold calWriteEff
  rw [if_neg (not_not.mpr hfn), hr]
  rfl

theorem calWriteEff_refused {c : Half} (hfn : d.fn.val = 0) (hr : s.calRefusal e = some c) :
    s.calWriteEff d e = (s.reportSubject c 2 0).descDone d c := by
  unfold calWriteEff
  rw [if_neg (not_not.mpr hfn), hr]

theorem calWrite_exec (hserves : s.serves = true) : exec (.calWrite d e) s = .next (s.calWriteEff d e) :=
  congrArg Host.Outcome.next (if_pos hserves)

/-- An entry that no check refuses, on an axis that has room, joins the axis's entries as the last. -/
theorem calWrite_appends (hserves : s.serves = true) (hfn : d.fn.val = 0) (hr : s.calRefusal e = none)
    (hroom : (s.calOf e.axis).length < 4096) :
    ∃ t, exec (.calWrite d e) s = .next t ∧ t.calOf e.axis = s.calOf e.axis ++ [s.takenEntry e.axis (writtenEntry e)] ∧
      (∀ m, m ≠ e.axis.val → t.calOf m = s.calOf m) ∧ t = { s with cal := t.cal, log := t.log } := by
  have he := calWriteEff_taken hfn hr
  rw [calAdd_fits hroom] at he
  exact ⟨_, (calWrite_exec hserves).trans (congrArg Host.Outcome.next he), setCal_same s e.axis _,
    fun m hm => setCal_other s e.axis m _ hm, rfl⟩

/-- An axis without room takes no entry: that is counted, and shown as 0x3C01. -/
theorem calWrite_overflows (hserves : s.serves = true) (hfn : d.fn.val = 0) (hr : s.calRefusal e = none)
    (hfull : 4096 ≤ (s.calOf e.axis).length) :
    ∃ t, exec (.calWrite d e) s = .next t ∧ t.counter 0x280038 = satAdd (s.counter 0x280038) 1 ∧
      t.lastCode 0x280004 = 0x3C01#16 ∧ t = { s with counters := t.counters, log := t.log } := by
  have he := calWriteEff_taken hfn hr
  rw [calAdd_full hfull] at he
  refine ⟨_, (calWrite_exec hserves).trans (congrArg Host.Outcome.next he), bump_same s 0x280038 1, ?_, rfl⟩
  rw [lastCode_descDone, lastCode_raise]
  exact if_pos (List.mem_singleton_self _)

end

/-! ## Entries due (R264) -/

section
variable {s : State} {n i : Nat} {k : CalKind}

theorem calDue_of_reached {e : CalEntry} (hon : s.vuOn = true) (hfault : s.axisFault n = false) (he : (s.calOf n)[i]? = some e)
    (hreached : beyond e.dir (s.posKnown n) e.pos = true) (hk : e.kind = k) : s.calDue n i k = some e := by
  unfold calDue
  rw [he]
  exact if_pos ⟨hk, hon, by simp [hfault], hreached⟩

theorem calDue_eq_none (h : ∀ e, (s.calOf n)[i]? = some e →
    e.kind ≠ k ∨ s.vuOn = false ∨ s.axisFault n = true ∨ beyond e.dir (s.posKnown n) e.pos = false) :
    s.calDue n i k = none := by
  unfold calDue
  split
  · rfl
  · next e he =>
    refine if_neg ?_
    rintro ⟨hk, hon, hfault, hreached⟩
    obtain h | h | h | h := h e he
    · exact h hk
    · simp [h] at hon
    · exact hfault h
    · simp [h] at hreached

end

/-! ## What every firing does (R264, R272) -/

/-- An entry that had been reached when it was written is counted, and shown as 0x4C02. -/
theorem lateCounted_leaves (s : State) (late : Bool) (inst : Nat) :
    ∃ t, (if late then (s.bump 0x280030 1).raise 0x4C02#16 0x07 inst else s) = t ∧
      (late = true → t.counter 0x280030 = satAdd (s.counter 0x280030) 1 ∧ t.codeWindow 0x4C02#16 0x07 inst = true) ∧
      (∀ o, o ≠ 0x280030 → t.counter o = s.counter o) ∧ t = { s with counters := t.counters, log := t.log } := by
  cases late with
  | false => exact ⟨s, rfl, fun h => absurd h Bool.false_ne_true, fun _ _ => rfl, rfl⟩
  | true =>
    obtain ⟨t, ht, hcount, hother, hwindow, hframe⟩ := bump_raise_leaves s 0x280030 0x4C02#16 0x07 inst
    exact ⟨t, ht, fun _ => ⟨hcount, hwindow⟩, hother, hframe⟩

/-- The state in which an entry of an axis has been freed and counted, before it acts by its kind. -/
structure Fired (s t : State) (n i : Nat) (e : CalEntry) : Prop where
  freed : t.calOf n = (s.calOf n).eraseIdx i
  others : ∀ m, m ≠ n → t.calOf m = s.calOf m
  counted : t.counter 0x28002C = satAdd (s.counter 0x28002C) 1
  late : e.late = true →
    t.counter 0x280030 = satAdd (s.counter 0x280030) 1 ∧ t.codeWindow 0x4C02#16 0x07 (calInst n e) = true
  counters : ∀ o, o ≠ 0x28002C → o ≠ 0x280030 → t.counter o = s.counter o
  only : t = { s with cal := t.cal, counters := t.counters, fs := t.fs, log := t.log }

theorem calTake_fired (s : State) (n i : Nat) (e : CalEntry) : Fired s (s.calTake n i e) n i e := by
  let u := (s.setCal n ((s.calOf n).eraseIdx i)).bump 0x28002C 1
  obtain ⟨v, hv, hlate, hother, hframe⟩ := lateCounted_leaves u e.late (calInst n e)
  obtain ⟨t, ht, -, -, -, hframe'⟩ := fullRelease_leaves v n
  obtain rfl : s.calTake n i e = t := by
    rw [← ht, ← hv]
    rfl
  have hcal (m : Nat) : (s.calTake n i e).calOf m = u.calOf m :=
    (congrArg (calOf · m) hframe' :).trans (congrArg (calOf · m) hframe :)
  have hcount (o : Nat) : (s.calTake n i e).counter o = v.counter o := (congrArg (counter · o) hframe' :)
  have hu (o : Nat) (ho : o ≠ 0x28002C) : u.counter o = s.counter o := bump_other _ _ _ _ ho
  refine ⟨(hcal n).trans (setCal_same s n _), fun m hm => (hcal m).trans (setCal_other s n m _ hm), ?_, fun h => ?_,
    fun o h h' => (hcount o).trans ((hother o h').trans (hu o h)), ?_⟩
  · rw [hcount, hother _ (by decide)]
    exact bump_same ..
  · obtain ⟨hc, hw⟩ := hlate h
    exact ⟨by rw [hcount, hc, hu _ (by decide)], (congrArg (codeWindow · 0x4C02#16 0x07 (calInst n e)) hframe' :).trans hw⟩
  · rw [hframe', hframe]
    rfl

/-- An entry that is not the one fired is still held. -/
theorem Fired.mem {s t : State} {n i a : Nat} {e x : CalEntry} (h : Fired s t n i e) (hx : x ∈ s.calOf a)
    (hrest : a = n → x ∈ (s.calOf n).eraseIdx i) : x ∈ t.calOf a := by
  by_cases ha : a = n
  · rw [ha, h.freed]
    exact hrest ha
  · rw [h.others a ha]
    exact hx

/-! ## Hold counts (R264) -/

/-- From `s` to `t` the hold counts of a list of outputs and channels have moved by `f`, with the counters and codes of those
that could not. -/
structure HoldsMoved (f : Nat → Nat) (l : List Nat) (s t : State) : Prop where
  hold : ∀ c, (t.chan c).hold = if c ∈ l then f (s.chan c).hold else (s.chan c).hold
  counters : ∀ o, o ≠ 0x280050 → o ≠ 0x28003C → t.counter o = s.counter o
  windows : ∀ c k j, s.codeWindow c k j = true → t.codeWindow c k j = true
  only : t = { s with chans := t.chans, counters := t.counters, log := t.log }

theorem HoldsMoved.nil (f : Nat → Nat) (s : State) : HoldsMoved f [] s s :=
  ⟨fun _ => rfl, fun _ _ _ => rfl, fun _ _ _ h => h, rfl⟩

theorem HoldsMoved.cons {f : Nat → Nat} {c : Nat} {l : List Nat} {s t u : State} (h : HoldsMoved f [c] s t)
    (h' : HoldsMoved f l t u) (hc : c ∉ l) : HoldsMoved f (c :: l) s u := by
  refine ⟨fun m => ?_, fun o h1 h2 => (h'.counters o h1 h2).trans (h.counters o h1 h2),
    fun a k j hw => h'.windows a k j (h.windows a k j hw), ?_⟩
  · rw [h'.hold, h.hold]
    by_cases hm : m = c
    · subst hm
      simp [hc]
    · simp [hm]
  · rw [h'.only, h.only]

/-- A hold count after an ON: one more, but never above 65,535. -/
def heldUp (x : Nat) : Nat := if x = 65535 then x else x + 1

theorem ite_heldUp (p : Prop) [Decidable p] (x : Nat) :
    (if p then heldUp x else x) = if p ∧ x ≠ 65535 then x + 1 else x := by
  by_cases hp : p
  · simp only [hp, if_true, true_and, heldUp, ite_not]
  · simp only [hp, if_false, false_and]

theorem setChan_moved {f : Nat → Nat} {s : State} {c : Nat} {x : Chan} (h : x.hold = f (s.chan c).hold) :
    HoldsMoved f [c] s (s.setChan c x) := by
  refine ⟨fun m => ?_, fun _ _ _ => rfl, fun _ _ _ h => h, rfl⟩
  by_cases hm : m = c
  · subst hm
    rw [setChan_same, if_pos (List.mem_singleton_self m), h]
  · rw [setChan_other s c m x hm, if_neg (by simpa using hm)]

theorem holdUp_moved (s : State) (c : Nat) : HoldsMoved heldUp [c] s (s.holdUp c) := by
  unfold holdUp
  dsimp only
  split
  · next hmax =>
    refine ⟨fun m => ?_, fun o h _ => bump_other s _ _ o h, fun a k j hw => codeWindow_raise_keeps hw .., rfl⟩
    have hm : m ∈ [c] → heldUp (s.chan m).hold = (s.chan m).hold := by
      intro h
      rw [List.mem_singleton.mp h, heldUp, if_pos hmax]
    exact (ite_eq_right_iff.mpr hm).symm
  · next hmax => exact setChan_moved (if_neg hmax).symm

theorem holdDown_moved (s : State) (c : Nat) : HoldsMoved (· - 1) [c] s (s.holdDown c) := by
  unfold holdDown
  dsimp only
  split
  · next hzero =>
    refine ⟨fun m => ?_, fun o _ h => bump_other s _ _ o h, fun _ _ _ h => h, rfl⟩
    have hm : m ∈ [c] → (s.chan m).hold - 1 = (s.chan m).hold := by
      intro h
      rw [List.mem_singleton.mp h, hzero]
    exact (ite_eq_right_iff.mpr hm).symm
  · exact setChan_moved rfl

theorem holdUpAll_moved {l : List Nat} (hl : l.Nodup) (s : State) : HoldsMoved heldUp l s (s.holdUpAll l) := by
  induction l generalizing s with
  | nil => exact .nil heldUp s
  | cons c r ih =>
    obtain ⟨hc, hr⟩ := List.nodup_cons.mp hl
    exact (holdUp_moved s c).cons (ih hr (s.holdUp c)) hc

theorem holdDownAll_moved {l : List Nat} (hl : l.Nodup) (s : State) : HoldsMoved (· - 1) l s (s.holdDownAll l) := by
  induction l generalizing s with
  | nil => exact .nil _ s
  | cons c r ih =>
    obtain ⟨hc, hr⟩ := List.nodup_cons.mp hl
    exact (holdDown_moved s c).cons (ih hr (s.holdDown c)) hc

/-- An operand names no output or channel twice. -/
theorem operandChans_nodup (w : Word) : (operandChans w).Nodup := by
  unfold operandChans
  split
  · have hrange : (channelRange (bits w 22 16) (bits w 14 8)).Nodup := List.nodup_range.map (add_left_injective _)
    exact hrange.map (add_right_injective _)
  · exact List.nodup_range.filter _

/-- What an ON or OFF leaves: the entry freed and counted, and the hold counts of the outputs and channels it names moved. -/
theorem ejection_leaves {f : Nat → Nat} {l : List Nat} {s u t : State} {n i : Nat} {e : CalEntry} (h : Fired s u n i e)
    (h' : HoldsMoved f l u t) : t.calOf n = (s.calOf n).eraseIdx i ∧ t.counter 0x28002C = satAdd (s.counter 0x28002C) 1 ∧
      (e.late = true → t.counter 0x280030 = satAdd (s.counter 0x280030) 1 ∧
        t.codeWindow 0x4C02#16 0x07 (calInst n e) = true) ∧
      (∀ c, (t.chan c).hold = if c ∈ l then f (s.chan c).hold else (s.chan c).hold) ∧
      (∀ m, m ≠ n → t.calOf m = s.calOf m) ∧
      t = { s with cal := t.cal, counters := t.counters, chans := t.chans, fs := t.fs, log := t.log } := by
  have hcal (m : Nat) : t.calOf m = u.calOf m := (congrArg (calOf · m) h'.only :)
  have hchan (c : Nat) : u.chan c = s.chan c := (congrArg (chan · c) h.only :)
  refine ⟨(hcal n).trans h.freed, (h'.counters _ (by decide) (by decide)).trans h.counted, fun hlate => ?_, fun c => ?_,
    fun m hm => (hcal m).trans (h.others m hm), ?_⟩
  · obtain ⟨hcount, hwindow⟩ := h.late hlate
    exact ⟨(h'.counters _ (by decide) (by decide)).trans hcount, h'.windows _ _ _ hwindow⟩
  · rw [h'.hold, hchan]
  · rw [h'.only, h.only]

/-! ## Each kind of entry (R102, R219, R262, R264, R269) -/

section
variable {s : State} {n : Fin 4} {i : Nat} {e : CalEntry}

theorem calOnFire_exec (h : s.calDue n i .on = some e) :
    exec (.calOnFire n i) s = .next ((s.calTake n i e).holdUpAll (operandChans e.operand)) :=
  congrArg Host.Outcome.next (show s.calOnEff n i = _ by rw [calOnEff, h])

theorem calOffFire_exec (h : s.calDue n i .off = some e) :
    exec (.calOffFire n i) s = .next ((s.calTake n i e).holdDownAll (operandChans e.operand)) :=
  congrArg Host.Outcome.next (show s.calOffEff n i = _ by rw [calOffEff, h])

theorem calSwapFire_exec (h : s.calDue n i .swap = some e) :
    exec (.calSwapFire n i) s = .next ((s.calTake n i e).swapFired e) :=
  congrArg Host.Outcome.next (show s.calSwapEff n i = _ by rw [calSwapEff, h])

theorem calMarkFire_exec (h : s.calDue n i .mark = some e) :
    exec (.calMarkFire n i) s = .next ((s.calTake n i e).raiseNow 0x0C01#16 0x07 (0x40 + n) (calBytes e)) :=
  congrArg Host.Outcome.next (show s.calMarkEff n i = _ by rw [calMarkEff, h])

/-- An entry that is not due changes nothing, whichever its kind. -/
theorem fire_idle {c : Fin 4 → Nat → Instr} {k : CalKind}
    (hc : (c, k) ∈ ([(.calOnFire, .on), (.calOffFire, .off), (.calSwapFire, .swap), (.calChangeoverFire, .changeover),
      (.calProveFire, .prove), (.calMarkFire, .mark)] : List ((Fin 4 → Nat → Instr) × CalKind)))
    (h : s.calDue n i k = none) : exec (c n i) s = .next s := by
  simp only [List.mem_cons, List.not_mem_nil, or_false, Prod.mk.injEq] at hc
  obtain ⟨rfl, rfl⟩ | ⟨rfl, rfl⟩ | ⟨rfl, rfl⟩ | ⟨rfl, rfl⟩ | ⟨rfl, rfl⟩ | ⟨rfl, rfl⟩ := hc
  · exact congrArg Host.Outcome.next (show s.calOnEff n i = s by rw [calOnEff, h])
  · exact congrArg Host.Outcome.next (show s.calOffEff n i = s by rw [calOffEff, h])
  · exact congrArg Host.Outcome.next (show s.calSwapEff n i = s by rw [calSwapEff, h])
  · exact congrArg Host.Outcome.next (show s.calChangeoverEff n i = s by rw [calChangeoverEff, h])
  · exact congrArg Host.Outcome.next (show s.calProveEff n i = s by rw [calProveEff, h])
  · exact congrArg Host.Outcome.next (show s.calMarkEff n i = s by rw [calMarkEff, h])

end

/-- A slot whose pending swap has its Calendar entry. -/
def swapReached (x : Slot) (e : CalEntry) : Slot := { x with fired := some (e.axis, e.pos, e.dir) }

/-- A swap entry reaches its slot: a pending swap of WHEN 2 is marked, and anything else shows 0x1505. -/
theorem swapFired_leaves (s : State) (e : CalEntry) {j : Nat} (hj : j = 4 * bits e.operand 1 0 + bits e.operand 3 2) :
    ∃ t, s.swapFired e = t ∧
      ((s.slot j).pending = true → (s.slot j).whenSwap = 2 → t.slot j = swapReached (s.slot j) e) ∧
      (((s.slot j).pending = false ∨ (s.slot j).whenSwap ≠ 2) →
        t.slots = s.slots ∧ t.lastCode (0x250000 + 0x400 * (j / 4)) = 0x1505#16) ∧
      (∀ m, m ≠ j → t.slot m = s.slot m) ∧ t = { s with slots := t.slots, log := t.log } := by
  subst hj
  unfold swapFired
  dsimp only
  split
  · next h =>
    obtain ⟨hpend, hwhen⟩ := h
    refine ⟨_, rfl, fun _ _ => setSlot_same .., fun h => ?_, fun m hm => setSlot_other _ _ m _ hm, rfl⟩
    obtain h | h := h
    · exact absurd (hpend.symm.trans h) (by decide)
    · exact absurd hwhen h
  · next h =>
    obtain ⟨t, ht, hcode, hframe⟩ := reportSubjectLast_leaves s 0x1505#16 2
      (bits e.operand 1 0 * 2 ^ 32 + bits e.operand 3 2 * 2 ^ 36) 0x04 (4 * bits e.operand 1 0 + bits e.operand 3 2)
    refine ⟨t, ht, fun h1 h2 => absurd ⟨h1, h2⟩ h, fun _ => ⟨(congrArg State.slots hframe :), hcode _ ?_⟩,
      fun m _ => (congrArg (slot · m) hframe :), ?_⟩
    · have hp := bits_lt e.operand 1 0
      have hq := bits_lt e.operand 3 2
      rw [lastCodeKeys_slot _ (by omega)]
      exact List.mem_singleton_self _
    · rw [hframe]

/-- A changeover that waits for its Calendar entry, with that entry. -/
def changeReached (x : Changeover) (e : CalEntry) : Changeover := { x with fired := some (e.axis, e.pos, e.dir) }

/-- A changeover entry marks the changeover of its context that waits for one; where none does, it only leaves the Calendar. -/
theorem calChangeoverEff_cases {s u : State} {n i : Nat} {e : CalEntry} (h : s.calDue n i .changeover = some e)
    (hu : s.calTake n i e = u) :
    (∃ x, tget none u.changes (bits e.operand 4 0) = some x ∧ s.calChangeoverEff n i =
      { u with changes := tset none u.changes (bits e.operand 4 0) (some (changeReached x e)) }) ∨
    ((∀ x, tget none u.changes (bits e.operand 4 0) = some x → ¬ (x.when_ = 2 ∧ x.fired = none)) ∧
      s.calChangeoverEff n i = u) := by
  obtain ⟨t, ht⟩ : ∃ t, s.calChangeoverEff n i = t := ⟨_, rfl⟩
  rw [ht]
  unfold calChangeoverEff at ht
  rw [h] at ht
  dsimp only at ht
  rw [hu] at ht
  split at ht
  · next hnone => exact .inr ⟨fun x hx => (Option.some_ne_none x (hx.symm.trans hnone)).elim, ht.symm⟩
  · next c hc =>
    split at ht
    · exact .inl ⟨c, hc, ht.symm⟩
    · next hwaits => exact .inr ⟨fun x hx => (Option.some.inj (hc.symm.trans hx)) ▸ hwaits, ht.symm⟩

theorem calChangeoverEff_leaves {s : State} {n i j : Nat} {e : CalEntry} (h : s.calDue n i .changeover = some e)
    (hj : j = bits e.operand 4 0) :
    ∃ t, s.calChangeoverEff n i = t ∧ t.calOf n = (s.calOf n).eraseIdx i ∧
      (∀ x, tget none s.changes j = some x → x.when_ = 2 → x.fired = none → tget none t.changes j = some (changeReached x e)) ∧
      (∀ m, m ≠ j → tget none t.changes m = tget none s.changes m) ∧
      t = { s with cal := t.cal, counters := t.counters, changes := t.changes, fs := t.fs, log := t.log } := by
  subst hj
  obtain ⟨u, hu⟩ : ∃ u, s.calTake n i e = u := ⟨_, rfl⟩
  have hfired := calTake_fired s n i e
  rw [hu] at hfired
  have hchanges : u.changes = s.changes := (congrArg State.changes hfired.only :)
  obtain ⟨c, hc, ht⟩ | ⟨hwaits, ht⟩ := calChangeoverEff_cases h hu
  · rw [hchanges] at hc ht
    have hsame := tget_tset_same none s.changes (bits e.operand 4 0) (some (changeReached c e))
    have hother {m : Nat} := tget_tset_other none s.changes (k := bits e.operand 4 0) (j := m) (some (changeReached c e))
    refine ⟨_, ht, hfired.freed, fun x hx _ _ => ?_, fun m hm => hother hm, ?_⟩
    · obtain rfl : c = x := Option.some.inj (hc.symm.trans hx)
      exact hsame
    · generalize tset none s.changes (bits e.operand 4 0) (some (changeReached c e)) = x
      conv_lhs => rw [hfired.only]
  · rw [hchanges] at hwaits
    refine ⟨u, ht, hfired.freed, fun x hx h1 h2 => absurd ⟨h1, h2⟩ (hwaits x hx), fun m _ => by rw [hchanges], ?_⟩
    rw [hfired.only]

/-! ## Injections (R268 to R270) -/

/-- A rule whose entry has fired: one more injection in its minute. -/
def injecting (g : Proving) (e : CalEntry) : Proving :=
  { g with inMinute := g.inMinute + 1, fired := g.fired ++ [(e.axis, e.pos, e.dir)] }

theorem proving_setProving_same (s : State) (r : Nat) (g : Proving) : (s.setProving r g).proving r = g := tget_tset_same ..

section
variable {s : State} {r : Nat}

/-- An injection starts, and waits for its block while its source has finished none. -/
theorem inject_starts (e : CalEntry) (hminute : s.now - (s.proving r).minute < 60000000000)
    (hadmit : (s.proving r).inMinute < (s.proving r).perMin ∨ s.shedAdmits = true)
    (hsource : s.lastPiped (s.proving r).source = none) :
    s.inject r e = (s.setProving r (injecting (s.proving r) e)).bump 0x280020 1 := by
  have hstarts : ¬ ((s.proving r).perMin ≤ (s.proving r).inMinute ∧ ¬ s.shedAdmits = true) := by
    rintro ⟨hle, hshed⟩
    exact hadmit.elim (Nat.not_lt.mpr hle) hshed
  obtain ⟨t, ht⟩ : ∃ t, s.inject r e = t := ⟨_, rfl⟩
  rw [ht]
  unfold inject at ht
  dsimp only at ht
  rw [if_neg (Nat.not_le.mpr hminute), if_neg hstarts] at ht
  split at ht
  · next hlast _ => exact (Option.some_ne_none _ (hlast.symm.trans hsource)).elim
  · exact ht.symm

/-- Above the rule's rate, an injection that may not run is shed. -/
theorem inject_sheds (e : CalEntry) (hminute : s.now - (s.proving r).minute < 60000000000)
    (hrate : (s.proving r).perMin ≤ (s.proving r).inMinute) (hshed : s.shedAdmits = false) :
    s.inject r e = (s.setProving r (s.proving r)).bump 0x280028 1 := by
  unfold inject
  dsimp only
  rw [if_neg (Nat.not_le.mpr hminute), if_pos ⟨hrate, by simp [hshed]⟩]

end

section
variable {s u : State} {n i : Nat} {e : CalEntry}

/-- An entry of a rule that is not in force, or on a module out of service, only leaves the Calendar. -/
theorem calProveEff_idle (h : s.calDue n i .prove = some e) (hu : s.calTake n i e = u)
    (hoff : (u.proving (bits e.operand 3 0)).on = false ∨ u.vig.outOfService = true) : s.calProveEff n i = u := by
  unfold calProveEff
  rw [h]
  dsimp only
  rw [hu]
  exact if_pos (by simpa using hoff)

/-- An entry of a rule in force, whose next entry the Calendar holds, injects. -/
theorem calProveEff_injects (h : s.calDue n i .prove = some e) (hu : s.calTake n i e = u)
    (hon : (u.proving (bits e.operand 3 0)).on = true) (hserves : u.vig.outOfService = false) {x : CalEntry}
    (hx : x ∈ u.calOf (u.proving (bits e.operand 3 0)).axis) (hkind : x.kind = .prove)
    (htag : x.tag = proveTag (bits e.operand 3 0)) : s.calProveEff n i = u.inject (bits e.operand 3 0) e := by
  have hnext : (u.calOf (u.proving (bits e.operand 3 0)).axis).any
      (fun x => decide (x.kind = .prove) && decide (x.tag = proveTag (bits e.operand 3 0))) = true :=
    List.any_eq_true.mpr ⟨x, hx, by simp [hkind, htag]⟩
  unfold calProveEff
  rw [h]
  dsimp only
  rw [hu, if_neg (by simp [hon, hserves]), if_pos hnext]

end

/-! ## The firings, from the Calendar's entry on -/

/-- Freeing and counting an entry leaves the rules, the blocks, the time and the Almanac's admission. -/
theorem Fired.keeps {s t : State} {n i : Nat} {e : CalEntry} (h : Fired s t n i e) :
    (∀ r, t.proving r = s.proving r) ∧ t.vig = s.vig ∧ t.now = s.now ∧ t.shedAdmits = s.shedAdmits ∧
      ∀ k, t.lastPiped k = s.lastPiped k := by
  rw [h.only]
  exact ⟨fun _ => rfl, rfl, rfl, rfl, fun _ => rfl⟩

/-- A rule and a counter put after that. -/
theorem Fired.proved {s t : State} {n i : Nat} {e : CalEntry} (h : Fired s t n i e) (p : Tab Proving) (c : Tab Word) :
    ({ t with provings := p, counters := c } : State) =
      { s with cal := t.cal, counters := c, provings := p, fs := t.fs, log := t.log } := by
  conv_lhs => rw [h.only]

section
variable {s : State} {n : Fin 4} {i : Nat} {e : CalEntry}

theorem calSwapFire_leaves {j : Nat} (h : s.calDue n i .swap = some e) (hj : j = 4 * bits e.operand 1 0 + bits e.operand 3 2) :
    ∃ t, exec (.calSwapFire n i) s = .next t ∧ t.calOf n = (s.calOf n).eraseIdx i ∧
      ((s.slot j).pending = true → (s.slot j).whenSwap = 2 → t.slot j = swapReached (s.slot j) e) ∧
      (((s.slot j).pending = false ∨ (s.slot j).whenSwap ≠ 2) → t.slots = s.slots ∧
        t.lastCode (0x250000 + 0x400 * (j / 4)) = 0x1505#16) ∧
      (∀ m, m ≠ j → t.slot m = s.slot m) ∧
      t = { s with cal := t.cal, counters := t.counters, slots := t.slots, fs := t.fs, log := t.log } := by
  obtain ⟨u, hu⟩ : ∃ u, s.calTake n i e = u := ⟨_, rfl⟩
  have hfired := calTake_fired s n i e
  have he := calSwapFire_exec h
  rw [hu] at hfired he
  obtain ⟨t, ht, hmarks, hrefuses, hothers, hframe⟩ := swapFired_leaves u e hj
  rw [ht] at he
  have hslots : u.slots = s.slots := (congrArg State.slots hfired.only :)
  have hslot (m : Nat) : u.slot m = s.slot m := (congrArg (slot · m) hfired.only :)
  simp only [hslot, hslots] at hmarks hrefuses hothers
  refine ⟨t, he, (congrArg (calOf · n.val) hframe :).trans hfired.freed, hmarks, hrefuses, hothers, ?_⟩
  rw [hframe, hfired.only]

theorem calMarkFire_leaves (h : s.calDue n i .mark = some e) :
    ∃ t, exec (.calMarkFire n i) s = .next t ∧ t.calOf n = (s.calOf n).eraseIdx i ∧
      t.counter 0x28002C = satAdd (s.counter 0x28002C) 1 ∧
      t = { s with cal := t.cal, counters := t.counters, fs := t.fs, log := t.log } := by
  obtain ⟨u, hu⟩ : ∃ u, s.calTake n i e = u := ⟨_, rfl⟩
  have hfired := calTake_fired s n i e
  have he := calMarkFire_exec h
  rw [hu] at hfired he
  obtain ⟨l, hl⟩ := raiseNow_frame u 0x0C01#16 0x07 (0x40 + n) (calBytes e)
  rw [hl] at he
  refine ⟨_, he, hfired.freed, hfired.counted, ?_⟩
  conv_lhs => rw [hfired.only]

theorem calProveFire_idle (h : s.calDue n i .prove = some e)
    (hoff : (s.proving (bits e.operand 3 0)).on = false ∨ s.vig.outOfService = true) :
    ∃ t, exec (.calProveFire n i) s = .next t ∧ t.calOf n = (s.calOf n).eraseIdx i ∧
      t = { s with cal := t.cal, counters := t.counters, fs := t.fs, log := t.log } := by
  have hfired := calTake_fired s n i e
  obtain ⟨hproving, hvig, -⟩ := hfired.keeps
  rw [← hproving, ← hvig] at hoff
  exact ⟨_, congrArg Host.Outcome.next (calProveEff_idle h rfl hoff), hfired.freed, hfired.only⟩

/-- An entry of a rule in force, its next one held: the entry freed and counted, then the injection. -/
theorem calProveFire_injects (h : s.calDue n i .prove = some e) (hon : (s.proving (bits e.operand 3 0)).on = true)
    (hserves : s.vig.outOfService = false)
    (hnext : ∃ x, x ∈ s.calOf (s.proving (bits e.operand 3 0)).axis ∧ x.kind = .prove ∧ x.tag = proveTag (bits e.operand 3 0) ∧
      ((s.proving (bits e.operand 3 0)).axis = n.val → x ∈ (s.calOf n).eraseIdx i)) :
    ∃ u, Fired s u n i e ∧ exec (.calProveFire n i) s = .next (u.inject (bits e.operand 3 0) e) := by
  obtain ⟨x, hx, hkind, htag, hrest⟩ := hnext
  have hfired := calTake_fired s n i e
  have hheld := hfired.mem hx hrest
  obtain ⟨hproving, hvig, -⟩ := hfired.keeps
  rw [← hproving] at hon hheld
  rw [← hvig] at hserves
  exact ⟨_, hfired, congrArg Host.Outcome.next (calProveEff_injects h rfl hon hserves hheld hkind htag)⟩

end

end Sys2Proof.Machine.State

open Sys2Proof Sys2Proof.Machine Sys2Proof.Machine.State in
/-- Settles O43: the entry that a write appends, the entries that do not fire, and each kind's firing, from the state in which
its entry has been freed and counted. -/
theorem calendarEntriesWrittenAndFired : Obligations.CalendarEntriesWrittenAndFired := by
  unfold Obligations.CalendarEntriesWrittenAndFired
  refine ⟨fun s d e n hserves hfn hn => ?_, fun s d e hserves hfn => ?_, fun c k hc s n i hidle => ?_,
    fun s n i e hon hfault he hreached => ?_⟩
  · subst hn
    refine ⟨calWrite_appends hserves hfn, calWrite_overflows hserves hfn, fun hr => ?_⟩
    obtain ⟨code, hcode⟩ := Option.ne_none_iff_exists'.mp hr
    exact ⟨_, (calWrite_exec hserves).trans (congrArg Host.Outcome.next (calWriteEff_refused hfn hcode)), rfl⟩
  · exact ⟨_, (calWrite_exec hserves).trans (congrArg Host.Outcome.next (if_pos hfn)), rfl⟩
  · exact fire_idle hc (calDue_eq_none hidle)
  · have hdue {k : CalKind} : e.kind = k → s.calDue n i k = some e := calDue_of_reached hon hfault he hreached
    have hfired := calTake_fired s n i e
    refine ⟨fun hk => ?_, fun hk => ?_, fun j hk hj => calSwapFire_leaves (hdue hk) hj, fun j hk hj => ?_,
      fun hk => calMarkFire_leaves (hdue hk), fun r hk hr hoff => ?_, fun r hk hr hrule hserves hnext hminute => ?_⟩
    · obtain ⟨hfreed, hcount, hlate, hhold, hothers, hframe⟩ :=
        ejection_leaves hfired (holdUpAll_moved (operandChans_nodup e.operand) _)
      exact ⟨_, calOnFire_exec (hdue hk), hfreed, hcount, hlate, fun c => (hhold c).trans (ite_heldUp ..), hothers, hframe⟩
    · obtain ⟨hfreed, hcount, -, hhold, hothers, hframe⟩ :=
        ejection_leaves hfired (holdDownAll_moved (operandChans_nodup e.operand) _)
      exact ⟨_, calOffFire_exec (hdue hk), hfreed, hcount, hhold, hothers, hframe⟩
    · obtain ⟨t, ht, h⟩ := calChangeoverEff_leaves (hdue hk) hj
      exact ⟨t, congrArg Host.Outcome.next ht, h⟩
    · subst hr
      exact calProveFire_idle (hdue hk) hoff
    · subst hr
      obtain ⟨u, hu, hexec⟩ := calProveFire_injects (hdue hk) hrule hserves hnext
      obtain ⟨hproving, -, hnow, hshed, hpiped⟩ := hu.keeps
      rw [← hnow, ← hproving] at hminute
      rw [← hshed, ← hproving, ← hpiped]
      refine ⟨fun hadmit hsource => ?_, fun hrate hout => ?_⟩
      · rw [inject_starts e hminute hadmit hsource] at hexec
        have hsame := proving_setProving_same u (bits e.operand 3 0) (injecting (u.proving (bits e.operand 3 0)) e)
        exact ⟨_, hexec, hu.freed, congrArg Proving.inMinute hsame, congrArg Proving.fired hsame,
          (bump_same ..).trans (congrArg (satAdd · 1) (hu.counters _ (by decide) (by decide))), hu.proved _ _⟩
      · rw [inject_sheds e hminute hrate hout] at hexec
        exact ⟨_, hexec, hu.freed,
          (bump_same ..).trans (congrArg (satAdd · 1) (hu.counters _ (by decide) (by decide))), hu.proved _ _⟩
end

