-- ==== Sys2Proof/Proofs/Sequencers.lean ====
section
/-! SUPPORT. The engines' sequencers: one rule for each operation on engines and their counters, how long tasks wait on others
(R132), stops of run-ahead (R119), and what an operation's issue leaves (R116, R118, R171). -/

namespace Sys2Proof.Machine.State

/-! ## Engines and counters -/

@[simp] theorem engine_setEngine_same (s : State) (e : Nat) (x : Engine) : (s.setEngine e x).engine e = x := by
  simp only [engine, setEngine, tget_tset_same]

theorem engine_setEngine_other (s : State) {e j : Nat} (x : Engine) (h : j ≠ e) : (s.setEngine e x).engine j = s.engine j := by
  simp only [engine, setEngine]
  exact tget_tset_other _ _ _ h

@[simp] theorem satAdd_zero (w : Word) : satAdd w 0 = w := by
  apply BitVec.eq_of_toNat_eq
  have := w.isLt
  simp only [satAdd, BitVec.toNat_ofNat]
  omega

theorem bumpIf_frame (s : State) (off n : Nat) : ∃ c, s.bumpIf off n = { s with counters := c } := by
  unfold bumpIf
  split
  · exact ⟨_, rfl⟩
  · exact ⟨_, rfl⟩

theorem bumpIf_same (s : State) (off n : Nat) : (s.bumpIf off n).counter off = satAdd (s.counter off) n := by
  unfold bumpIf
  split
  · next h => rw [h, satAdd_zero]
  · exact bump_same s off n

theorem bumpIf_other (s : State) {off p : Nat} (n : Nat) (h : p ≠ off) : (s.bumpIf off n).counter p = s.counter p := by
  unfold bumpIf
  split
  · rfl
  · exact bump_other s off n p h

/-! ## Tasks that wait on others (R132) -/

/-- From `s` to `t` no more changes than how long tasks have waited on others. -/
def Waits (s t : State) : Prop :=
  t = { s with engines := t.engines } ∧ ∀ e, unwaited (t.engine e) = unwaited (s.engine e)

theorem Waits.refl (s : State) : Waits s s := ⟨rfl, fun _ => rfl⟩

theorem Waits.trans {s t u : State} (h : Waits s t) (h' : Waits t u) : Waits s u :=
  ⟨h'.1.trans (by conv_lhs => rw [h.1]), fun e => (h'.2 e).trans (h.2 e)⟩

/-- A task put back on its engine with another count of its waits. -/
theorem setEngine_waits {s : State} {e : Nat} {a b : TaskRun} (ha : (s.engine e).task = some a) (hb : TaskRun.unwaited b = TaskRun.unwaited a) :
    Waits s (s.setEngine e { s.engine e with task := some b }) := by
  refine ⟨rfl, fun j => ?_⟩
  by_cases hj : j = e
  · subst hj
    simp only [engine_setEngine_same, unwaited, ha, Option.map_some, hb]
  · rw [engine_setEngine_other _ _ hj]

theorem syncWait_waits (s : State) (e : Nat) : Waits s (s.syncWait e) := by
  unfold syncWait
  dsimp only
  split
  · exact .refl s
  · next t ht =>
    split
    · split
      · exact .refl s
      · exact setEngine_waits ht rfl
    · split
      · exact .refl s
      · exact setEngine_waits ht rfl

theorem syncWaits_waits (s : State) : Waits s s.syncWaits := by
  have hall (l : List Nat) (u : State) : Waits u (l.foldl syncWait u) := by
    induction l generalizing u with
    | nil => exact .refl u
    | cons e r ih => exact (syncWait_waits u e).trans (ih _)
  exact hall _ s

/-- An engine that is as another but for its task's waits has that engine's task, but for its waits. -/
theorem eq_of_unwaited {x y : Engine} {a : TaskRun} (h : unwaited x = unwaited y) (ha : y.task = some a) :
    ∃ b, x = { y with task := some b } ∧ TaskRun.unwaited b = TaskRun.unwaited a := by
  have htask : x.task.map TaskRun.unwaited = some (TaskRun.unwaited a) := by
    have := congrArg Engine.task h
    rwa [unwaited, unwaited, ha] at this
  obtain ⟨b, hb, hwaits⟩ := Option.map_eq_some_iff.1 htask
  refine ⟨b, ?_, hwaits⟩
  calc x = { unwaited x with task := x.task } := rfl
    _ = { unwaited y with task := x.task } := by rw [h]
    _ = { y with task := some b } := by rw [hb]; rfl

/-! ## Stops of run-ahead (R119) -/

/-- From `s` to `t` no more changes than whether run-ahead stands on an engine, and the count of its stops. -/
def Stalls (s t : State) (e : Nat) : Prop :=
  (∃ st, t.engine e = { s.engine e with stallFrom := st }) ∧ (∀ j, j ≠ e → t.engine j = s.engine j) ∧
    (∀ off, off ≠ eOff e + 0x24 → t.counter off = s.counter off) ∧ t = { s with engines := t.engines, counters := t.counters }

theorem Stalls.refl (s : State) (e : Nat) : Stalls s s e := ⟨⟨_, rfl⟩, fun _ _ => rfl, fun _ _ => rfl, rfl⟩

theorem setEngine_stalls (s : State) (e : Nat) (st : Option Nat) :
    Stalls s (s.setEngine e { s.engine e with stallFrom := st }) e :=
  ⟨⟨st, engine_setEngine_same ..⟩, fun _ hj => engine_setEngine_other _ _ hj, fun _ _ => rfl, rfl⟩

theorem countStall_stalls (s : State) (e : Nat) : Stalls s (s.countStall e) e := by
  unfold countStall
  dsimp only
  split
  · exact .refl s e
  · next t _ =>
    obtain ⟨hst, hothers, hcounters, hframe⟩ := setEngine_stalls s e none
    generalize s.setEngine e { s.engine e with stallFrom := none } = u at *
    obtain ⟨c, hc⟩ := bumpIf_frame u (eOff e + 0x24) (s.engCycles e (s.now - t))
    refine ⟨?_, ?_, fun off h => (bumpIf_other u _ h).trans (hcounters off h), ?_⟩
    · rw [hc]; exact hst
    · rw [hc]; exact hothers
    · rw [hc]; conv_lhs => rw [hframe]

theorem countStall_running {s : State} {e : Nat} (h : (s.engine e).stallFrom = none) : s.countStall e = s := by
  unfold countStall
  dsimp only
  rw [h]

theorem noteStall_stalls (s : State) (e : Nat) (next : Option OpDecl) :
    Stalls s (s.noteStall e next) e ∧ (s.noteStall e next).counters = s.counters := by
  unfold noteStall
  dsimp only
  split
  · exact ⟨.refl s e, rfl⟩
  · split_ifs
    · exact ⟨setEngine_stalls s e _, rfl⟩
    · exact ⟨.refl s e, rfl⟩

/-! ## Marks of empty operands (R171) -/

/-- An operation's writes leave marks of its own, before those that stood. -/
theorem markEmpties_marks (s : State) (id e c : Nat) (empty : Bool) (l : List Region) :
    ∃ marks, s.markEmpties id e c empty l = { s with empties := marks ++ s.empties } ∧ ∀ m, m ∈ marks → m.op = id := by
  induction l generalizing s with
  | nil => exact ⟨[], rfl, fun _ h => (List.not_mem_nil h).elim⟩
  | cons r l ih =>
    have hfirst : ∃ marks, markEmpties s id e c empty (r :: l) =
        State.markEmpties { s with empties := marks ++ s.empties } id e c empty l ∧ ∀ m, m ∈ marks → m.op = id := by
      rw [markEmpties]
      split
      · exact ⟨[], rfl, fun _ h => (List.not_mem_nil h).elim⟩
      · split
        · exact ⟨[_], rfl, fun m h => by rw [List.mem_singleton.1 h]⟩
        · exact ⟨[], rfl, fun _ h => (List.not_mem_nil h).elim⟩
    obtain ⟨m₁, h₁, hop₁⟩ := hfirst
    obtain ⟨m₂, h₂, hop₂⟩ := ih { s with empties := m₁ ++ s.empties }
    refine ⟨m₂ ++ m₁, ?_, fun m h => (List.mem_append.1 h).elim (hop₂ m) (hop₁ m)⟩
    rw [h₁, h₂, List.append_assoc]

end Sys2Proof.Machine.State
end

