-- ==== Sys2Proof/Proofs/Issue.lean ====
section
/-! SUPPORT. What an operation's issue leaves (R116, R118, R171): its ordering entry, its task gone on, and the rest of the
machine. -/

namespace Sys2Proof.Machine.State

/-! ## The entry of an operation -/

/-- The ordering entry that an operation gets at its issue, from what it gives there. -/
def issueEntry (s : State) (h : OpHdr) (cls : OpClass) (opc : Nat) (spec : Bool) (t : TaskRun) (r : OpRes) : OpEntry :=
  { id := s.nextOp, eng := h.eng, ctx := h.ctx, gen := (s.engine h.eng).gen, cls, opc, job := t.job, task := t.idx, idx := t.next,
    layer := h.layer, dig := h.dig && !r.empty, prov := h.prov, vary := h.vary, reads := h.reads.map (s.entryRegion h.eng)
    writes := h.writes.map (s.entryRegion h.eng), spec, tally := r.tally
    out := r.writes, counts := r.counts, wide := inWidePass t h, fault := r.fault, detail := r.detail
    note := r.note, cycles := h.cycles, at_ := s.now, complete := blockCheck r.fault
    reader := if h.reads.any (fun x => x.space = .track) && !(decide (r.note = 0x2905#16) || decide (r.fault = 0x2905#16)) then
      some s.kv.epoch else none }

/-- A task whose operation has issued as `o`. -/
def runAfter (s : State) (h : OpHdr) (cls : OpClass) (t : TaskRun) (o : OpEntry) : TaskRun :=
  { t with
    next := t.next + 1, startAt := if cls = .wait then t.startAt else some (t.startAt.getD s.now)
    handles := t.handles ++ (s.handlesRead h).map (fun w => (o.id, w)), checked := checkedAfter t o }

/-- An operation's entry joins the ordering table, and its task goes on. -/
def pushEntry (s : State) (h : OpHdr) (cls : OpClass) (t : TaskRun) (o : OpEntry) : State :=
  State.setEngine { s with ops := s.ops ++ [o], nextOp := s.nextOp + 1 } h.eng { s.engine h.eng with task := some (s.runAfter h cls t o) }

/-- What an issuing operation's own fields fill in of its entry: nothing that tells which operation it is, or when it issued. -/
def FillsIn (upd : OpEntry → OpEntry) : Prop :=
  ∀ o, upd o = { o with
    out := (upd o).out, counts := (upd o).counts, tally := (upd o).tally, digest := (upd o).digest, block := (upd o).block
    met := (upd o).met, word := (upd o).word, until_ := (upd o).until_, gateTo := (upd o).gateTo, check := (upd o).check
    remote := (upd o).remote, sig := (upd o).sig }

theorem fillsIn_id : FillsIn (fun o => o) := fun _ => rfl

/-! ## What issuing gives (R118, R171) -/

section
variable {s : State} {h : OpHdr} {cls : OpClass} {opc : Nat} {f : State → OpRes × State}

/-- Where nothing stands against it, an operation gives what its own rules say. -/
theorem issueRes_plain {rec_ : Option Nat} (hreads : h.reads.any (s.readsEmpty h.eng h.ctx) = false)
    (hreach : s.regionsOk h rec_ = true) (hecc : (s.eccHits h).isEmpty = true) : s.issueRes h cls rec_ f = f s := by
  have hnil : s.eccHits h = [] := List.isEmpty_iff.1 hecc
  unfold issueRes
  simp only [hreads, hreach, hnil]
  simp

theorem issueRes_empty {rec_ : Option Nat} (hreads : h.reads.any (s.readsEmpty h.eng h.ctx) = true) :
    s.issueRes h cls rec_ f = (emptyRes cls, s) := if_pos hreads

theorem issueRes_outOfReach {rec_ : Option Nat} (hreads : h.reads.any (s.readsEmpty h.eng h.ctx) = false)
    (hreach : s.regionsOk h rec_ = false) (hempty : (f s).1.empty = false) :
    s.issueRes h cls rec_ f = ({ fault := 0x6601#16 }, s) := by
  unfold issueRes
  simp only [hreads, hreach, hempty]
  simp

/-- An uncorrectable word under an operation's reads is held as a fault, and the words' errors are counted (R118). -/
theorem issueRes_ecc {rec_ : Option Nat} (hreads : h.reads.any (s.readsEmpty h.eng h.ctx) = false)
    (hreach : s.regionsOk h rec_ = true) (hempty : (f s).1.empty = false) (hbad : ∃ w, w ∈ s.eccHits h ∧ w.bad = true) :
    ∃ c, s.issueRes h cls rec_ f = ({ fault := 0x2601#16 }, { s with counters := c }) := by
  have hcount (l : List EccWord) (u : State) : ∃ c, l.foldl (fun s w => s.bump (eccCounter w) 1) u = { u with counters := c } := by
    induction l generalizing u with
    | nil => exact ⟨_, rfl⟩
    | cons w l ih => exact ih _
  obtain ⟨c, hc⟩ := hcount (s.eccHits h) s
  have hany : (s.eccHits h).any (·.bad) = true := List.any_eq_true.2 hbad
  refine ⟨c, ?_⟩
  unfold issueRes
  simp only [hreads, hreach, hempty, hany, hc]
  simp

/-! ## The issue -/

theorem opRecipe_of_task {a : TaskRun} (htask : (s.engine h.eng).task = some a) : s.opRecipe h = s.taskRecipe h.ctx a.job := by
  rw [opRecipe, htask]

/-- An operation that may issue has a task. -/
theorem task_of_issueMode {spec : Bool} (hmode : s.issueMode h cls opc = some spec) : ∃ a, (s.engine h.eng).task = some a := by
  cases htask : (s.engine h.eng).task with
  | none => rw [issueMode, htask] at hmode; cases hmode
  | some a => exact ⟨a, rfl⟩

theorem issue_eq {upd : OpEntry → OpEntry} {spec : Bool} {a : TaskRun} {r : OpRes} {u : State} {o : OpEntry}
    (hmode : s.issueMode h cls opc = some spec) (htask : (s.engine h.eng).task = some a)
    (hres : s.issueRes h cls (s.opRecipe h) f = (r, u)) (ho : o = upd (u.issueEntry h cls opc spec a r)) :
    ∃ d, s.issue h cls opc f upd =
      ((((u.countStall h.eng).pushEntry h cls a o).markEmpties o.id h.eng h.ctx r.empty h.writes).noteStall h.eng d).syncWaits := by
  rw [opRecipe_of_task htask] at hres
  subst ho
  unfold issue
  simp only [hmode, htask, hres]
  exact ⟨_, rfl⟩

end

/-- An entry pushed: it is the newest, and its engine's task goes on. -/
theorem pushEntry_leaves (s : State) (h : OpHdr) (cls : OpClass) (t : TaskRun) (o : OpEntry) :
    (s.pushEntry h cls t o).ops = s.ops ++ [o] ∧ (s.pushEntry h cls t o).nextOp = s.nextOp + 1 ∧
    (s.pushEntry h cls t o).engine h.eng = { s.engine h.eng with task := some (s.runAfter h cls t o) } ∧
    (∀ j, j ≠ h.eng.val → (s.pushEntry h cls t o).engine j = s.engine j) ∧
    s.pushEntry h cls t o = { s with ops := (s.pushEntry h cls t o).ops, nextOp := (s.pushEntry h cls t o).nextOp, engines := (s.pushEntry h cls t o).engines } :=
  ⟨rfl, rfl, engine_setEngine_same .., fun _ hj => engine_setEngine_other _ _ hj, rfl⟩

/-- What an issue leaves, counted from the state `s` of its checks and the state `u` that what it gives has left: the entry `o`,
its engine's task gone on, and the rest as in `u`. -/
structure Issues (s u t : State) (h : OpHdr) (cls : OpClass) (opc : Nat) (o : OpEntry) : Prop where
  issued : s.issued t h cls opc o
  rest : t = { u with ops := t.ops, nextOp := t.nextOp, engines := t.engines, empties := t.empties, counters := t.counters }
  counters : ∀ off, off ≠ eOff h.eng + 0x24 → t.counter off = u.counter off
  marks : ∃ marks, t.empties = marks ++ u.empties ∧ ∀ m, m ∈ marks → m.op = s.nextOp

section
variable {s u : State} {h : OpHdr} {cls : OpClass} {opc : Nat} {f : State → OpRes × State}

/-- Between what an operation gives and how long tasks have waited, an issue leaves its entry, its task gone on, a stop of
run-ahead and its count, and marks. -/
theorem pushed_leaves (u : State) (h : OpHdr) (cls : OpClass) (a : TaskRun) (o : OpEntry) (empty : Bool) (d : Option OpDecl) :
    ∃ t, (((u.countStall h.eng).pushEntry h cls a o).markEmpties o.id h.eng h.ctx empty h.writes).noteStall h.eng d = t ∧
      t.ops = u.ops ++ [o] ∧ t.nextOp = u.nextOp + 1 ∧
      (∃ v st, t.engine h.eng = { u.engine h.eng with task := some (State.runAfter v h cls a o), stallFrom := st }) ∧
      (∀ j, j ≠ h.eng.val → t.engine j = u.engine j) ∧ (∀ off, off ≠ eOff h.eng + 0x24 → t.counter off = u.counter off) ∧
      (∃ marks, t.empties = marks ++ u.empties ∧ ∀ m, m ∈ marks → m.op = o.id) ∧
      t = { u with ops := t.ops, nextOp := t.nextOp, engines := t.engines, empties := t.empties, counters := t.counters } := by
  obtain ⟨⟨st, hst⟩, hothers, hcount, hframe⟩ := countStall_stalls u h.eng
  generalize u.countStall h.eng = v at *
  obtain ⟨hops, hnext, hrun, hothers', hframe'⟩ := pushEntry_leaves v h cls a o
  generalize v.pushEntry h cls a o = w at *
  obtain ⟨marks, hmarks, hop⟩ := markEmpties_marks w o.id h.eng h.ctx empty h.writes
  rw [hmarks]
  obtain ⟨⟨⟨st', hst'⟩, hothers'', -, hframe''⟩, hcounters⟩ := noteStall_stalls { w with empties := marks ++ w.empties } h.eng d
  generalize State.noteStall { w with empties := marks ++ w.empties } h.eng d = t at *
  rw [hframe'] at hframe''
  rw [hframe] at hframe''
  refine ⟨t, rfl, ?_, ?_, ⟨v, st', ?_⟩, fun j hj => ?_, fun off hoff => ?_, ⟨marks, ?_, hop⟩, ?_⟩
  · rw [hframe'']; exact hops.trans (by rw [hframe])
  · rw [hframe'']; exact hnext.trans (by rw [hframe])
  · change t.engine h.eng = { w.engine h.eng with stallFrom := st' } at hst'
    rw [hst', hrun, hst]
  · exact (hothers'' j hj).trans ((hothers' j hj).trans (hothers j hj))
  · have hpush : w.counters = v.counters := by rw [hframe']
    exact (congrArg (tget 0 · off) (hcounters.trans hpush)).trans (hcount off hoff)
  · rw [hframe'']
  · rw [hframe'']

theorem issue_issues {upd : OpEntry → OpEntry} {spec : Bool} {a : TaskRun} {r : OpRes}
    (hmode : s.issueMode h cls opc = some spec) (htask : (s.engine h.eng).task = some a)
    (hres : s.issueRes h cls (s.opRecipe h) f = (r, u)) (hupd : FillsIn upd)
    (hu : u = { u with ops := s.ops, nextOp := s.nextOp, engines := s.engines, now := s.now }) :
    Issues s u (s.issue h cls opc f upd) h cls opc (upd (u.issueEntry h cls opc spec a r)) := by
  have hfill := hupd (u.issueEntry h cls opc spec a r)
  obtain ⟨o, ho⟩ : ∃ o, o = upd (u.issueEntry h cls opc spec a r) := ⟨_, rfl⟩
  obtain ⟨d, hd⟩ := issue_eq hmode htask hres ho
  rw [← ho] at hfill ⊢
  obtain ⟨t, ht, hops, hnext, ⟨v, st, hrun⟩, hothers, hcounters, ⟨marks, hmarks, hop⟩, hframe⟩ := pushed_leaves u h cls a o r.empty d
  rw [hd, ht]
  obtain ⟨hwframe, hwaits⟩ := syncWaits_waits t
  generalize t.syncWaits = w at *
  have hunow : u.now = s.now := (congrArg State.now hu :)
  have hunext : u.nextOp = s.nextOp := (congrArg State.nextOp hu :)
  have huops : u.ops = s.ops := (congrArg State.ops hu :)
  have hengine (e : Nat) : u.engine e = s.engine e := (congrArg (State.engine · e) hu :)
  have hid : o.id = s.nextOp := (congrArg OpEntry.id hfill).trans hunext
  obtain ⟨b, hb, hbrun⟩ := eq_of_unwaited (hwaits h.eng) (congrArg Engine.task hrun)
  refine ⟨⟨?_, ?_, hid, congrArg OpEntry.eng hfill, congrArg OpEntry.ctx hfill, congrArg OpEntry.cls hfill, congrArg OpEntry.opc hfill,
    congrArg OpEntry.layer hfill, congrArg OpEntry.prov hfill, congrArg OpEntry.vary hfill, congrArg OpEntry.cycles hfill,
    (congrArg OpEntry.at_ hfill).trans hunow, ?_, ?_, ⟨a, b, st, htask, ?_, ?_⟩, fun e he => ?_⟩, ?_, ?_, ?_⟩
  · rw [hwframe, hops, huops]
  · rw [hwframe, hnext, hunext]
  · exact (congrArg OpEntry.complete hfill).trans (congrArg blockCheck (congrArg OpEntry.fault hfill).symm)
  · rw [(congrArg OpEntry.spec hfill : o.spec = spec), hmode]
    cases spec <;> rfl
  · rw [hb, hrun, hengine]
  · exact ⟨(congrArg TaskRun.next hbrun :), (congrArg TaskRun.ctx hbrun :), (congrArg TaskRun.job hbrun :),
      (congrArg TaskRun.idx hbrun :), (congrArg TaskRun.ops hbrun :), (congrArg TaskRun.fail hbrun :), congrArg OpEntry.job hfill, congrArg OpEntry.task hfill,
      congrArg OpEntry.idx hfill⟩
  · rw [hwaits, hothers e he, hengine]
  · rw [hwframe]
    conv_lhs => rw [hframe]
  · rw [hwframe]
    exact hcounters
  · rw [hwframe]
    exact ⟨marks, hmarks, fun m hm => (hop m hm).trans hid⟩

/-- An operation that issues, and whose result leaves the state of its checks. -/
theorem issue_of_issueRes {upd : OpEntry → OpEntry} {r : OpRes} (hmode : (s.issueMode h cls opc).isSome = true)
    (hres : s.issueRes h cls (s.opRecipe h) f = (r, s)) (hupd : FillsIn upd) :
    ∃ spec a, s.issued (s.issue h cls opc f upd) h cls opc (upd (s.issueEntry h cls opc spec a r)) ∧
      s.issueFrame (s.issue h cls opc f upd) h := by
  obtain ⟨spec, hspec⟩ := Option.isSome_iff_exists.1 hmode
  obtain ⟨a, ha⟩ := task_of_issueMode hspec
  obtain ⟨hissued, hrest, hcounters, hmarks⟩ := issue_issues hspec ha hres hupd rfl
  exact ⟨spec, a, hissued, hrest, hcounters, hmarks⟩

theorem mayIssue_iff : s.mayIssue h cls opc = true ↔ (s.issueMode h cls opc).isSome = true ∧ s.regionsOk h (s.opRecipe h) = true ∧
    h.reads.any (s.readsEmpty h.eng h.ctx) = false ∧ (s.eccHits h).isEmpty = true := by
  simp only [mayIssue, Bool.and_eq_true, Bool.not_eq_true', and_assoc]

/-- An operation that may issue (R116, R118, R171), and reads the state alone. -/
theorem issue_of_mayIssue {upd : OpEntry → OpEntry} {r : OpRes} (hmay : s.mayIssue h cls opc = true) (hf : f s = (r, s))
    (hupd : FillsIn upd) :
    ∃ spec a, s.issued (s.issue h cls opc f upd) h cls opc (upd (s.issueEntry h cls opc spec a r)) ∧
      s.issueFrame (s.issue h cls opc f upd) h := by
  obtain ⟨hmode, hreach, hreads, hecc⟩ := mayIssue_iff.1 hmay
  exact issue_of_issueRes hmode ((issueRes_plain hreads hreach hecc).trans hf) hupd

/-- An operation that may not issue: its engine's run-ahead may stop, and the tasks' waits are seen to. -/
theorem issue_held (hmode : s.issueMode h cls opc = none) (upd : OpEntry → OpEntry) :
    (∀ e, e ≠ h.eng.val → unwaited ((s.issue h cls opc f upd).engine e) = unwaited (s.engine e)) ∧
    (∃ st, unwaited ((s.issue h cls opc f upd).engine h.eng) = unwaited { s.engine h.eng with stallFrom := st }) ∧
    s.issue h cls opc f upd = { s with engines := (s.issue h cls opc f upd).engines } := by
  have he : s.issue h cls opc f upd = (s.noteStall h.eng (some (declOf h cls opc))).syncWaits := by
    unfold issue
    rw [hmode]
  obtain ⟨⟨⟨st, hst⟩, hothers, -, hframe⟩, hcounters⟩ := noteStall_stalls s h.eng (some (declOf h cls opc))
  rw [he]
  generalize s.noteStall h.eng (some (declOf h cls opc)) = u at *
  obtain ⟨hwframe, hwaits⟩ := syncWaits_waits u
  generalize u.syncWaits = w at *
  rw [hcounters] at hframe
  refine ⟨fun e h' => (hwaits e).trans (congrArg unwaited (hothers e h')), ⟨st, (hwaits _).trans (congrArg unwaited hst)⟩, ?_⟩
  rw [hframe] at hwframe
  exact hwframe

end

end Sys2Proof.Machine.State
end

