-- ==== Sys2Proof/Proofs/PlainOperations.lean ====
section
/-! SUPPORT and O36. Operations without arithmetic at their issue: COPY, WAIT_BLOCK, SQUEEZE, ABSORB, GATE, FENCE and WAIT (R111,
R112, R119, R128, R234, R237, R239). -/

namespace Sys2Proof.Machine.State

theorem opWrite_zero (h : OpHdr) (bs : List Byte) : opWrite h 0 bs = (h.writes.take 1).map (fun w => (w, bs)) := by
  cases hw : h.writes <;> simp [opWrite, hw]

theorem opWrite_of_writes {h : OpHdr} {w : Region} {l : List Region} (hw : h.writes = w :: l) (bs : List Byte) :
    opWrite h 0 bs = [(w, bs)] := by
  simp [opWrite, hw]

section
variable {s : State} {h : OpHdr}

/-! ## COPY -/

theorem copy_leaves (hmay : s.mayIssue h .move 0 = true) :
    ∃ t o, exec (.copy h) s = .next t ∧ s.issued t h .move 0 o ∧ o.fault = 0 ∧ o.note = 0 ∧ o.met = true ∧
      o.out = (h.writes.take 1).map (fun w => (w, s.opRead h 0)) ∧ s.issueFrame t h := by
  obtain ⟨spec, a, hissued, hframe⟩ := issue_of_mayIssue (f := fun s => (copyOp h s, s)) hmay rfl fillsIn_id
  exact ⟨_, _, rfl, hissued, rfl, rfl, rfl, opWrite_zero h _, hframe⟩

theorem copy_outOfReach (hmode : (s.issueMode h .move 0).isSome = true) (hreads : h.reads.any (s.readsEmpty h.eng h.ctx) = false)
    (hreach : s.regionsOk h (s.opRecipe h) = false) :
    ∃ t o, exec (.copy h) s = .next t ∧ s.issued t h .move 0 o ∧ o.fault = 0x6601#16 ∧ o.out = [] ∧ s.issueFrame t h := by
  obtain ⟨spec, a, hissued, hframe⟩ :=
    issue_of_issueRes hmode (issueRes_outOfReach (f := fun s => (copyOp h s, s)) hreads hreach rfl) fillsIn_id
  exact ⟨_, _, rfl, hissued, rfl, rfl, hframe⟩

theorem copy_ecc (hmode : (s.issueMode h .move 0).isSome = true) (hreads : h.reads.any (s.readsEmpty h.eng h.ctx) = false)
    (hreach : s.regionsOk h (s.opRecipe h) = true) (hbad : ∃ w, w ∈ s.eccHits h ∧ w.bad = true) :
    ∃ t o, exec (.copy h) s = .next t ∧ s.issued t h .move 0 o ∧ o.fault = 0x2601#16 ∧ o.out = [] ∧
      t = { s with ops := t.ops, nextOp := t.nextOp, engines := t.engines, empties := t.empties, counters := t.counters } := by
  obtain ⟨c, hres⟩ := issueRes_ecc (cls := .move) (f := fun s => (copyOp h s, s)) hreads hreach rfl hbad
  obtain ⟨spec, hspec⟩ := Option.isSome_iff_exists.1 hmode
  obtain ⟨a, ha⟩ := task_of_issueMode hspec
  obtain ⟨hissued, hrest, -, -⟩ := issue_issues hspec ha hres fillsIn_id rfl
  exact ⟨_, _, rfl, hissued, rfl, rfl, hrest⟩

theorem copy_empty (hmode : (s.issueMode h .move 0).isSome = true) (hreads : h.reads.any (s.readsEmpty h.eng h.ctx) = true) :
    ∃ t o, exec (.copy h) s = .next t ∧ s.issued t h .move 0 o ∧ o.fault = 0 ∧ o.out = [] ∧ o.dig = false ∧ s.issueFrame t h := by
  obtain ⟨spec, a, hissued, hframe⟩ := issue_of_issueRes hmode (issueRes_empty (f := fun s => (copyOp h s, s)) hreads) fillsIn_id
  exact ⟨_, _, rfl, hissued, rfl, rfl, Bool.and_false _, hframe⟩

/-! ## WAIT_BLOCK (R128) -/

/-- How a WAIT_BLOCK fills in its entry. -/
def waitBlockEntry (s : State) (h : OpHdr) (n : Nat) (o : OpEntry) : OpEntry :=
  { o with
    block := some n
    met := decide (o.fault ≠ 0) || !(waitBlockOp h n (s.redoing h.eng) s).writes.isEmpty || decide (headerIndex (s.opRead h 0) = n) }

theorem waitBlockOp_found {n : Nat} (hn : headerIndex (s.opRead h 0) = n) (redo : Bool) :
    waitBlockOp h n redo s = { writes := opWrite h 0 (s.opRead h 0) } := if_pos hn

theorem waitBlockOp_waits {n : Nat} {redo : Bool} (hn : headerIndex (s.opRead h 0) ≠ n)
    (hw : headerIndex (s.opRead h 0) < n ∨ redo = false) : waitBlockOp h n redo s = {} := by
  refine (if_neg hn).trans (if_neg fun ⟨hredo, hlt⟩ => ?_)
  rcases hw with hw | hw
  · exact absurd hlt hw.asymm
  · exact Bool.false_ne_true (hw.symm.trans hredo)

theorem waitBlockOp_overwritten {n : Nat} {redo : Bool} (hn : n < headerIndex (s.opRead h 0)) (hredo : redo = true) :
    waitBlockOp h n redo s = { fault := 0x4061#16 } := (if_neg hn.ne').trans (if_pos ⟨hredo, hn⟩)

theorem waitBlock_leaves (n : Nat) (hmay : s.mayIssue h .move 1 = true) :
    ∃ t o, exec (.waitBlock h n) s = .next t ∧ s.issued t h .move 1 o ∧ o.block = some n ∧
      (leNat (((s.opRead h 0).drop 4).take 6) = n →
        o.fault = 0 ∧ o.met = true ∧ o.out = (h.writes.take 1).map (fun w => (w, s.opRead h 0))) ∧
      (leNat (((s.opRead h 0).drop 4).take 6) ≠ n → o.out = []) ∧
      (leNat (((s.opRead h 0).drop 4).take 6) < n → o.fault = 0 ∧ o.met = false) ∧
      (n < leNat (((s.opRead h 0).drop 4).take 6) → s.redoing h.eng = false → o.fault = 0 ∧ o.met = false) ∧
      (n < leNat (((s.opRead h 0).drop 4).take 6) → s.redoing h.eng = true → o.fault = 0x4061#16) ∧ s.issueFrame t h := by
  obtain ⟨r, hr⟩ : ∃ r, r = waitBlockOp h n (s.redoing h.eng) s := ⟨_, rfl⟩
  obtain ⟨spec, a, hissued, hframe⟩ := issue_of_mayIssue (f := fun s => (r, s)) (upd := s.waitBlockEntry h n) hmay rfl fun _ => rfl
  have he : exec (.waitBlock h n) s = .next (s.issue h .move 1 (fun s => (r, s)) (s.waitBlockEntry h n)) := by rw [hr]; rfl
  have hentry : ∃ o, o = s.waitBlockEntry h n (s.issueEntry h .move 1 spec a r) ∧ o.fault = r.fault ∧ o.out = r.writes ∧
      o.met = (decide (r.fault ≠ 0) || !r.writes.isEmpty || decide (headerIndex (s.opRead h 0) = n)) :=
    ⟨_, rfl, rfl, rfl, by rw [hr]; rfl⟩
  have hblock : (s.waitBlockEntry h n (s.issueEntry h .move 1 spec a r)).block = some n := rfl
  obtain ⟨o, ho, hfault, hout, hmet⟩ := hentry
  rw [← ho] at hissued hblock
  change ∃ t o, _ ∧ _ ∧ _ ∧ (headerIndex (s.opRead h 0) = n → _) ∧ (headerIndex (s.opRead h 0) ≠ n → _) ∧
    (headerIndex (s.opRead h 0) < n → _) ∧ (n < headerIndex (s.opRead h 0) → _) ∧ (n < headerIndex (s.opRead h 0) → _) ∧ _
  refine ⟨_, o, he, hissued, hblock, fun hn => ?_, fun hn => ?_, fun hn => ?_, fun hn hredo => ?_, fun hn hredo => ?_, hframe⟩
  · rw [hfault, hmet, hout, hr, waitBlockOp_found hn, opWrite_zero]
    exact ⟨rfl, by rw [decide_eq_true hn, Bool.or_true], rfl⟩
  · rcases Nat.lt_or_gt_of_ne hn with hlt | hlt
    · rw [hout, hr, waitBlockOp_waits hn (.inl hlt)]
    · cases hredo : s.redoing h.eng with
      | false => rw [hout, hr, waitBlockOp_waits hn (.inr hredo)]
      | true => rw [hout, hr, waitBlockOp_overwritten hlt hredo]
  · rw [hfault, hmet, hr, waitBlockOp_waits hn.ne (.inl hn)]
    exact ⟨rfl, by rw [decide_eq_false hn.ne]; rfl⟩
  · rw [hfault, hmet, hr, waitBlockOp_waits hn.ne' (.inr hredo)]
    exact ⟨rfl, by rw [decide_eq_false hn.ne']; rfl⟩
  · rw [hfault, hr, waitBlockOp_overwritten hn hredo]

/-! ## SQUEEZE and ABSORB (R237, R239) -/

theorem squeeze_leaves {w : Region} {x : Ctx} (hmay : s.mayIssue h .digest 0 = true) (hw : h.writes = [w]) (hx : s.ctx h.ctx = some x) :
    ∃ t o, exec (.squeeze h) s = .next t ∧ s.issued t h .digest 0 o ∧ o.fault = 0 ∧ o.out = [(w, layerRecord h.layer x.dig)] ∧
      s.issueFrame t h := by
  obtain ⟨spec, a, hissued, hframe⟩ := issue_of_mayIssue (f := fun s => (squeezeOp h s, s)) hmay rfl fillsIn_id
  refine ⟨_, _, rfl, hissued, rfl, ?_, hframe⟩
  change (squeezeOp h s).writes = _
  rw [squeezeOp, hx, opWrite_of_writes hw]

theorem digestAbsorb_leaves (hmay : s.mayIssue h .digest 1 = true) :
    ∃ t o, exec (.digestAbsorb h) s = .next t ∧ s.issued t h .digest 1 o ∧ o.fault = 0 ∧ o.out = [] ∧
      o.digest = some (leBytes 4 (s.opRead h 0).length ++ s.opRead h 0) ∧ s.issueFrame t h := by
  obtain ⟨spec, a, hissued, hframe⟩ := issue_of_mayIssue (f := fun s => ({}, s))
    (upd := fun o => { o with digest := some (s.absorbed h) }) hmay rfl fun _ => rfl
  exact ⟨_, _, rfl, hissued, rfl, rfl, rfl, hframe⟩

/-! ## GATE and FENCE (R112, R119) -/

theorem gateOk_iff {k : TaskRun} (hk : (s.engine h.eng).task = some k) (target : Nat) :
    s.gateOk h target = true ↔ k.next < target ∧ target ≤ k.ops := by
  simp only [gateOk, hk, Bool.and_eq_true, decide_eq_true_eq]

theorem gate_leaves {target : Fin 65} (hok : s.gateOk h target = true) (hmay : s.mayIssue h .gate 0 = true) :
    ∃ t o, exec (.gate h target) s = .next t ∧ s.issued t h .gate 0 o ∧ o.fault = 0 ∧ o.out = [] ∧
      o.gateTo = some target.val ∧ s.issueFrame t h := by
  obtain ⟨spec, a, hissued, hframe⟩ := issue_of_mayIssue (f := fun s => ({}, s))
    (upd := fun o => { o with gateTo := some target.val }) hmay rfl fun _ => rfl
  exact ⟨_, _, congrArg Host.Outcome.next (if_pos hok), hissued, rfl, rfl, rfl, hframe⟩

theorem fence_leaves {scope : Fin 4} (hmay : s.mayIssue h .fence scope = true) :
    ∃ t o, exec (.fence h scope) s = .next t ∧ s.issued t h .fence scope.val o ∧ o.fault = 0 ∧ o.out = [] ∧ s.issueFrame t h := by
  obtain ⟨spec, a, hissued, hframe⟩ := issue_of_mayIssue (f := fun s => ({}, s)) hmay rfl fillsIn_id
  exact ⟨_, _, rfl, hissued, rfl, rfl, hframe⟩

/-! ## WAIT (R234, R235) -/

/-- What a WAIT gives at its issue: a fault where the polder's memory does not hold its word. -/
def waitRes (here : Bool) : OpRes := if here then {} else { fault := 0x6601#16 }

/-- How a WAIT fills in its entry. -/
def waitEntry (s : State) (word : Region) (th : DWord) (us : Nat) (here : Bool) (o : OpEntry) : OpEntry :=
  { o with
    word := if here then some (word, th) else none
    until_ := if us = 0 ∨ ¬ here then none else some (s.now + us * 1000) }

theorem wait_exec {word : Region} {us : Nat} (halign : word.addr % 8 = 0) (hus : us ≤ 65535) (th : DWord) :
    exec (.wait h word th us) s = .next (s.issue h .wait 0 (fun s' => (waitRes (s.waitWordAt h word), s'))
      (s.waitEntry word th us (s.waitWordAt h word))) :=
  congrArg Host.Outcome.next (if_neg (by omega))

theorem wait_leaves {word : Region} {us : Nat} (th : DWord) (hmay : s.mayIssue h .wait 0 = true) (halign : word.addr % 8 = 0)
    (hus : us ≤ 65535) (hhere : (s.localAt (s.polderOf h.ctx) { word with len := 8 }).isSome = true) :
    ∃ t o, exec (.wait h word th us) s = .next t ∧ s.issued t h .wait 0 o ∧ o.fault = 0 ∧ o.out = [] ∧
      o.word = some (word, th) ∧ o.until_ = (if us = 0 then none else some (s.now + us * 1000)) ∧ s.issueFrame t h := by
  have he := wait_exec (s := s) (h := h) halign hus th
  rw [show s.waitWordAt h word = true from hhere] at he
  obtain ⟨spec, a, hissued, hframe⟩ := issue_of_mayIssue (f := fun s => (waitRes true, s)) (upd := s.waitEntry word th us true) hmay rfl
    fun _ => rfl
  refine ⟨_, _, he, hissued, rfl, rfl, rfl, ?_, hframe⟩
  simp [waitEntry]

theorem wait_outOfReach {word : Region} {us : Nat} (th : DWord) (hmode : (s.issueMode h .wait 0).isSome = true)
    (hreads : h.reads.any (s.readsEmpty h.eng h.ctx) = false) (hreach : s.regionsOk h (s.opRecipe h) = true)
    (hecc : (s.eccHits h).isEmpty = true) (halign : word.addr % 8 = 0) (hus : us ≤ 65535)
    (haway : s.localAt (s.polderOf h.ctx) { word with len := 8 } = none) :
    ∃ t o, exec (.wait h word th us) s = .next t ∧ s.issued t h .wait 0 o ∧ o.fault = 0x6601#16 ∧ o.word = none ∧
      s.issueFrame t h := by
  have he := wait_exec (s := s) (h := h) halign hus th
  rw [show s.waitWordAt h word = false by rw [waitWordAt, haway]; rfl] at he
  obtain ⟨spec, a, hissued, hframe⟩ := issue_of_issueRes (f := fun s => (waitRes false, s)) (upd := s.waitEntry word th us false) hmode
    (issueRes_plain hreads hreach hecc) fun _ => rfl
  exact ⟨_, _, he, hissued, rfl, rfl, hframe⟩

end

end Sys2Proof.Machine.State

open Sys2Proof Sys2Proof.Machine Sys2Proof.Machine.State in
/-- Settles O36: each operation from its own lemma, and COPY held back from the issue that does not happen. -/
theorem plainOperationsIssue : Obligations.PlainOperationsIssue := by
  unfold Obligations.PlainOperationsIssue
  refine ⟨fun s h => copy_leaves, fun s h hmode => ?_,
    fun s h hmode hreads => ⟨copy_outOfReach hmode hreads, copy_ecc hmode hreads⟩, fun s h => copy_empty,
    fun s h n => waitBlock_leaves n, fun s h w x => squeeze_leaves, fun s h => digestAbsorb_leaves,
    fun s h target k hk => ⟨fun hlt hle => gate_leaves ((gateOk_iff hk _).2 ⟨hlt, hle⟩), fun hbad => ?_⟩,
    fun s h scope => fence_leaves, fun s h word th us => wait_leaves th, fun s h word th us => wait_outOfReach th⟩
  · obtain ⟨hothers, ⟨st, htile⟩, hframe⟩ := issue_held (f := fun s => (copyOp h s, s)) hmode (fun o => o)
    exact ⟨_, rfl, (congrArg State.ops hframe :), hothers, (congrArg Engine.tile htile :), hframe⟩
  · have hok : ¬ s.gateOk h target.val = true := fun hok => by
      obtain ⟨hlt, hle⟩ := (gateOk_iff hk _).1 hok
      omega
    exact congrArg Host.Outcome.next (if_neg hok)
end

