-- ==== Sys2Proof/Proofs/VectorElements.lean ====
section
/-! SUPPORT and O37. Element operations of the vector unit (R147): one result for each element of the first operand. -/

namespace Sys2Proof.Machine

/-- The element operations on FP32 and what they compute (R147). -/
def floatOps : List ((OpHdr → Instr) × Nat × (Word → Word → Word → Word)) :=
  [(.vecAdd, 0, fun a b _ => fadd a b), (.vecSub, 1, fun a b _ => fsub a b), (.vecMul, 2, fun a b _ => fmul a b),
   (.vecFma, 3, ffma), (.vecDiv, 4, fun a b _ => fdiv a b), (.vecSqrt, 5, fun a _ _ => fsqrt a), (.vecExp2, 6, fun a _ _ => fexp2 a),
   (.vecLog2, 7, fun a _ _ => flog2 a), (.vecRcp, 8, fun a _ _ => frcp a), (.vecRsqrt, 9, fun a _ _ => frsqrt a),
   (.vecMax, 10, fun a b _ => fmax a b), (.vecMin, 11, fun a b _ => fmin a b)]

/-- The element operations with an INT32 form (R147). -/
def intOps : List ((OpHdr → Instr) × Nat × (Int → Int → Int → Int)) :=
  [(.vecAdd, 0, fun a b _ => a + b), (.vecSub, 1, fun a b _ => a - b), (.vecMul, 2, fun a b _ => a * b),
   (.vecFma, 3, fun a b c => a * b + c), (.vecMax, 10, fun a b _ => max a b), (.vecMin, 11, fun a b _ => min a b)]

/-- The saturating operations, on INT32 alone (R147). -/
def satOps : List ((OpHdr → Instr) × Nat × (Int → Int → Int)) :=
  [(.satadd, 0x0E, fun a b => min (2 ^ 31 - 1) (max (-(2 ^ 31)) (a + b))),
   (.satsub, 0x0F, fun a b => min (2 ^ 31 - 1) (max (-(2 ^ 31)) (a - b)))]

/-! ## Elements -/

theorem length_packRaws_int32 (l : List Nat) : (packRaws .int32 l).length = 4 * l.length := by
  simp only [packRaws, List.length_flatMap, length_leBytes, List.map_const', List.sum_replicate, smul_eq_mul, Nat.mul_comm]

/-- An element operation gives one result for each element of the first operand; a shorter operand goes on with zeros. -/
theorem vecList_eq (f : Nat → Nat → Nat → Nat) (x y z : List Nat) :
    vecList f x y z = (List.range x.length).map (fun i => f (x.getD i 0) (y.getD i 0) (z.getD i 0)) := by
  induction x generalizing y z with
  | nil => rfl
  | cons a x ih =>
    have htail (l : List Nat) (i : Nat) : l.tail.getD i 0 = l.getD (i + 1) 0 := by cases l <;> rfl
    have hhead (l : List Nat) : l.headD 0 = l.getD 0 0 := by cases l <;> rfl
    simp only [vecList, ih, List.length_cons, List.range_succ_eq_map, List.map_cons, List.map_map, hhead]
    refine congrArg₂ _ rfl (List.map_congr_left fun i _ => ?_)
    simp only [Function.comp_apply, htail, List.getD_cons_succ]

theorem vecElem_float {afmt : Fmt} (ha : afmt ≠ .int32) (ofmt : Fmt) (opc : Nat) (f : Word → Word → Word → Word)
    (g : Option (Int → Int → Int → Int)) (x y z : Nat) :
    vecElem afmt ofmt opc f g x y z =
      let r := f (word32 afmt x) (word32 afmt y) (word32 afmt z)
      if ofmt = .fp32 then r.toNat else cvt .fp32 ofmt r.toNat := if_neg ha

theorem sat32_fst (x : Int) : (sat32 x).1 = min (2 ^ 31 - 1) (max (-(2 ^ 31)) x) := by
  simp only [sat32, clampCount, clampInt]
  split_ifs <;> omega

/-! ## The operations -/

theorem exec_floatOp {c : OpHdr → Instr} {opc : Nat} {f : Word → Word → Word → Word} (hc : (c, opc, f) ∈ floatOps) :
    ∃ g, ∀ h s, exec (c h) s = .next (s.vec h opc (vecOp h opc f g)) := by
  simp only [floatOps, List.mem_cons, List.not_mem_nil, or_false, Prod.mk.injEq] at hc
  obtain ⟨rfl, rfl, rfl⟩ | ⟨rfl, rfl, rfl⟩ | ⟨rfl, rfl, rfl⟩ | ⟨rfl, rfl, rfl⟩ | ⟨rfl, rfl, rfl⟩ | ⟨rfl, rfl, rfl⟩ |
    ⟨rfl, rfl, rfl⟩ | ⟨rfl, rfl, rfl⟩ | ⟨rfl, rfl, rfl⟩ | ⟨rfl, rfl, rfl⟩ | ⟨rfl, rfl, rfl⟩ | ⟨rfl, rfl, rfl⟩ := hc
  all_goals exact ⟨_, fun _ _ => rfl⟩

theorem exec_intOp {c : OpHdr → Instr} {opc : Nat} {g : Int → Int → Int → Int} (hc : (c, opc, g) ∈ intOps) :
    ∃ f, ∀ h s, exec (c h) s = .next (s.vec h opc (vecOp h opc f (some g))) := by
  simp only [intOps, List.mem_cons, List.not_mem_nil, or_false, Prod.mk.injEq] at hc
  obtain ⟨rfl, rfl, rfl⟩ | ⟨rfl, rfl, rfl⟩ | ⟨rfl, rfl, rfl⟩ | ⟨rfl, rfl, rfl⟩ | ⟨rfl, rfl, rfl⟩ | ⟨rfl, rfl, rfl⟩ := hc
  all_goals exact ⟨_, fun _ _ => rfl⟩

theorem exec_satOp {c : OpHdr → Instr} {opc : Nat} {g : Int → Int → Int} (hc : (c, opc, g) ∈ satOps) :
    ∃ f, ∀ h s, exec (c h) s = .next (s.vec h opc (vecOp { h with afmt := .int32 } opc f (some fun a b _ => g a b))) := by
  have hadd : satAdd3 = fun a b _ => min (2 ^ 31 - 1) (max (-(2 ^ 31)) (a + b)) := by
    funext a b c; exact sat32_fst _
  have hsub : satSub3 = fun a b _ => min (2 ^ 31 - 1) (max (-(2 ^ 31)) (a - b)) := by
    funext a b c; exact sat32_fst _
  simp only [satOps, List.mem_cons, List.not_mem_nil, or_false, Prod.mk.injEq] at hc
  obtain ⟨rfl, rfl, rfl⟩ | ⟨rfl, rfl, rfl⟩ := hc
  · exact ⟨_, fun h s => by rw [← hadd]; rfl⟩
  · exact ⟨_, fun h s => by rw [← hsub]; rfl⟩

namespace State

section
variable {s : State} {h : OpHdr} {opc : Nat}

/-- A VECTOR operation that may issue holds what its own rules give on the state of its issue. -/
theorem vec_leaves (hmay : s.mayIssue h .vector opc = true) (F : State → OpRes) :
    ∃ o, s.issued (s.vec h opc F) h .vector opc o ∧ o.fault = (F s).fault ∧ o.out = (F s).writes ∧ o.counts = (F s).counts ∧
      s.issueFrame (s.vec h opc F) h := by
  obtain ⟨spec, a, hissued, hframe⟩ := issue_of_mayIssue (f := fun s => (F s, s)) hmay rfl fillsIn_id
  exact ⟨_, hissued, rfl, rfl, rfl, hframe⟩

/-- What an element operation writes, from its operands' elements. -/
theorem vecOp_writes {w : Region} (hw : h.writes = [w]) (f : Word → Word → Word → Word) (g : Option (Int → Int → Int → Int)) :
    (vecOp h opc f g s).writes = [(w, packRaws h.ofmt ((List.range (rawsOf h.afmt (s.opRead h 0)).length).map (fun i =>
      vecElem h.afmt h.ofmt opc f g ((rawsOf h.afmt (s.opRead h 0)).getD i 0) ((rawsOf h.afmt (s.opRead h 1)).getD i 0)
        ((rawsOf h.afmt (s.opRead h 2)).getD i 0))))] := by
  rw [vecOp, opWrite_of_writes hw, vecList_eq]

end

end State
end Sys2Proof.Machine

open Sys2Proof Sys2Proof.Machine Sys2Proof.Machine.State in
/-- Settles O37: one lemma for each list of operations says which element function it runs; its results are then read off element
by element. -/
theorem vectorElementOperations : Obligations.VectorElementOperations := by
  unfold Obligations.VectorElementOperations
  refine ⟨fun c opc f hc s h w x y z hmay hw hx hy hz => ?_, fun c opc g hc s h w x y z hmay ha hw hx hy hz => ?_,
    fun c opc g hc s h w x y hmay hw hx hy => ?_⟩
  · obtain ⟨g, hexec⟩ := exec_floatOp hc
    obtain ⟨o, hissued, hfault, hout, hcounts, hframe⟩ := vec_leaves hmay (vecOp h opc f g)
    subst hx hy hz
    rw [vecOp_writes hw] at hout
    refine ⟨fun ha => ?_, fun ha => ⟨_, o, _, hexec h s, hissued, hfault, hcounts, hout, fun ho => ?_, hframe⟩⟩
    · simp only [vecElem_float ha] at hout
      exact ⟨_, o, hexec h s, hissued, hfault, hcounts, hout, hframe⟩
    · rw [ho, length_packRaws_int32, List.length_map, List.length_range]
  · obtain ⟨f, hexec⟩ := exec_intOp hc
    obtain ⟨o, hissued, hfault, hout, -, hframe⟩ := vec_leaves hmay (vecOp h opc f (some g))
    subst hx hy hz
    rw [vecOp_writes hw, ha] at hout
    exact ⟨_, o, hexec h s, hissued, hfault, hout, hframe⟩
  · obtain ⟨f, hexec⟩ := exec_satOp hc
    obtain ⟨o, hissued, hfault, hout, -, hframe⟩ := vec_leaves hmay (vecOp { h with afmt := .int32 } opc f (some fun a b _ => g a b))
    subst hx hy
    rw [vecOp_writes (h := { h with afmt := .int32 }) hw] at hout
    exact ⟨_, o, hexec h s, hissued, hfault, hout, hframe⟩
end

