-- ==== Sys2Proof/Proofs/Reductions.lean ====
section
/-! SUPPORT. The order of reduction of R148 does not matter where the operation is associative and commutative: a reduction is then
a fold; and what the INT32 reductions give. -/

namespace Sys2Proof.Machine

/-! ## A reduction is a fold -/

section
variable {α : Type} {op : α → α → α} {e : α} [Std.Associative op] [Std.Commutative op] [Std.LawfulIdentity op e]

omit [Std.Commutative op] in
theorem foldl_cons_eq (a : α) (l : List α) : (a :: l).foldl op e = op a (l.foldl op e) := by
  rw [List.foldl_cons, Std.LawfulLeftIdentity.left_id (op := op) (o := e) a, ← Std.LawfulRightIdentity.right_id (op := op) (o := e) a,
    List.foldl_assoc, Std.LawfulRightIdentity.right_id (op := op) (o := e) a]

theorem foldl_modifyAt {l : List α} {i : Nat} (hi : i < l.length) (x : α) :
    (modifyAt (fun y => op y x) l i).foldl op e = op (l.foldl op e) x := by
  induction l generalizing i with
  | nil => exact absurd hi (Nat.not_lt_zero i)
  | cons y r ih =>
    cases i with
    | zero =>
      simp only [modifyAt, foldl_cons_eq]
      ac_rfl
    | succ i =>
      simp only [modifyAt, foldl_cons_eq, ih (Nat.lt_of_succ_lt_succ hi)]
      ac_rfl

theorem foldl_laneFold (v : List α) {lanes : List α} {i : Nat} (hlen : lanes.length = 64) (hi : i < 64) :
    (laneFold op v lanes i).length = 64 ∧ (laneFold op v lanes i).foldl op e = v.foldl op (lanes.foldl op e) := by
  induction v generalizing lanes i with
  | nil => exact ⟨hlen, rfl⟩
  | cons x r ih =>
    have hnext : (if i = 63 then 0 else i + 1) < 64 := by split_ifs <;> omega
    obtain ⟨hl, hf⟩ := ih (lanes := modifyAt (fun y => op y x) lanes i) ((length_modifyAt ..).trans hlen) hnext
    refine ⟨hl, hf.trans ?_⟩
    rw [foldl_modifyAt (hlen ▸ hi), List.foldl_cons]

theorem foldl_pairLanes (l : List α) : (pairLanes op l).foldl op e = l.foldl op e := by
  induction l using pairLanes.induct with
  | case1 a b r ih =>
    simp only [pairLanes, foldl_cons_eq, ih]
    ac_rfl
  | case2 l h =>
    rw [pairLanes]
    exact h

theorem length_pairLanes {α : Type} (op : α → α → α) (l : List α) : (pairLanes op l).length = (l.length + 1) / 2 := by
  induction l using pairLanes.induct with
  | case1 a b r ih =>
    simp only [pairLanes, List.length_cons, ih]
    omega
  | case2 l h =>
    rw [pairLanes]
    · match l, h with
      | [], _ => simp
      | [a], _ => simp
      | a :: b :: r, h => exact (h a b r rfl).elim
    · exact h

/-- Sixty-four lanes and six levels of the tree leave one value: what a fold in any order gives. -/
theorem reduce_eq_foldl (v : List α) : reduce op e v = v.foldl op e := by
  obtain ⟨hlen, hfold⟩ := foldl_laneFold (op := op) (e := e) v (lanes := List.replicate 64 e) (List.length_replicate ..) (by decide : 0 < 64)
  have hone (n : Nat) : (List.replicate n e).foldl op e = e := by
    induction n with
    | zero => rfl
    | succ n ih => rw [List.replicate_succ, foldl_cons_eq, ih, Std.LawfulLeftIdentity.left_id (op := op) (o := e)]
  obtain ⟨l, hl⟩ : ∃ l, l = pairLanes op (pairLanes op (pairLanes op (pairLanes op (pairLanes op (pairLanes op
    (laneFold op v (List.replicate 64 e) 0)))))) := ⟨_, rfl⟩
  have hsingle : l.length = 1 := by simp only [hl, length_pairLanes, hlen]
  have htotal : l.foldl op e = v.foldl op e := by simp only [hl, foldl_pairLanes, hfold, hone]
  obtain ⟨y, hy⟩ := List.length_eq_one_iff.1 hsingle
  calc reduce op e v = (l.head?).getD e := by rw [hl]; rfl
    _ = op e y := by rw [hy, Std.LawfulLeftIdentity.left_id (op := op) (o := e)]; rfl
    _ = l.foldl op e := by rw [hy]; rfl
    _ = v.foldl op e := htotal

end

/-! ## Two reductions side by side -/

section
variable {α β : Type} {R : α → β → Prop} {op : α → α → α} {op' : β → β → β} {e : α} {e' : β}

theorem modifyAt_related {l : List α} {l' : List β} (h : List.Forall₂ R l l') {f : α → α} {f' : β → β}
    (hf : ∀ a b, R a b → R (f a) (f' b)) (i : Nat) : List.Forall₂ R (modifyAt f l i) (modifyAt f' l' i) := by
  induction h generalizing i with
  | nil => exact .nil
  | cons hab hr ih =>
    cases i with
    | zero => exact .cons (hf _ _ hab) hr
    | succ i => exact .cons hab (ih i)

theorem laneFold_related (hop : ∀ a b x y, R a x → R b y → R (op a b) (op' x y)) {v : List α} {w : List β}
    (hv : List.Forall₂ R v w) {l : List α} {l' : List β} (hl : List.Forall₂ R l l') (i : Nat) :
    List.Forall₂ R (laneFold op v l i) (laneFold op' w l' i) := by
  induction hv generalizing l l' i with
  | nil => exact hl
  | cons hxy _ ih => exact ih (modifyAt_related hl (fun a b hab => hop _ _ _ _ hab hxy) i) _

theorem pairLanes_related (hop : ∀ a b x y, R a x → R b y → R (op a b) (op' x y)) {l : List α} {l' : List β}
    (hl : List.Forall₂ R l l') : List.Forall₂ R (pairLanes op l) (pairLanes op' l') := by
  induction l using pairLanes.induct generalizing l' with
  | case1 a b r ih =>
    obtain _ | ⟨ha, _ | ⟨hb, hr⟩⟩ := hl
    exact .cons (hop _ _ _ _ ha hb) (ih hr)
  | case2 l h =>
    match l, h, hl with
    | [], _, .nil => exact .nil
    | [a], _, .cons ha .nil => exact .cons ha .nil
    | a :: b :: r, h, _ => exact (h a b r rfl).elim

/-- Operations that keep a relation of their values have reductions in that relation. -/
theorem reduce_related (hop : ∀ a b x y, R a x → R b y → R (op a b) (op' x y)) (he : R e e') {v : List α} {w : List β}
    (hv : List.Forall₂ R v w) : R (reduce op e v) (reduce op' e' w) := by
  have hlanes : List.Forall₂ R (List.replicate 64 e) (List.replicate 64 e') := by
    generalize 64 = n
    induction n with
    | zero => exact .nil
    | succ n ih => exact .cons he ih
  have hhead {l : List α} {l' : List β} (h : List.Forall₂ R l l') : R (l.head?.getD e) (l'.head?.getD e') := by
    cases h with
    | nil => exact he
    | cons hab _ => exact hab
  have hstep {l : List α} {l' : List β} (h : List.Forall₂ R l l') := pairLanes_related hop h
  exact hhead (hstep (hstep (hstep (hstep (hstep (hstep (laneFold_related hop hv hlanes 0)))))))

theorem foldl_related (hop : ∀ a b x y, R a x → R b y → R (op a b) (op' x y)) {v : List α} {w : List β}
    (hv : List.Forall₂ R v w) (he : R e e') : R (v.foldl op e) (w.foldl op' e') := by
  induction hv generalizing e e' with
  | nil => exact he
  | cons hxy _ ih => exact ih (hop _ _ _ _ he hxy)

end

/-! ## The INT32 reductions (R148) -/

theorem signed_unsigned (x : Int) : signed 32 (unsigned 32 x) % 2 ^ 32 = x % 2 ^ 32 := by
  simp only [unsigned, signed]
  split_ifs <;> omega

theorem signed_unsigned_of_mem {x : Int} (h1 : -(2 ^ 31) ≤ x) (h2 : x < 2 ^ 31) : signed 32 (unsigned 32 x) = x := by
  simp only [unsigned, signed]
  split_ifs <;> omega

theorem signed_mem (x : Nat) : -(2 ^ 31) ≤ signed 32 x ∧ signed 32 x < 2 ^ 31 := by
  simp only [signed]
  split_ifs <;> omega

/-- SUM on INT32: the sum modulo 2^32. -/
theorem reduceRow_sum (f : Word → Word → Word) (w : Word) (l : List Nat) :
    reduceRow .int32 .int32 f w (· + ·) 0 l = l.sum % 2 ^ 32 := by
  have hrel : List.Forall₂ (fun (a : Int) (x : Nat) => a % 2 ^ 32 = x % 2 ^ 32) (l.map (signed 32)) l := by
    induction l with
    | nil => exact .nil
    | cons x r ih => exact .cons (by simp only [signed]; split_ifs <;> omega) ih
  have hsum := reduce_related (op := fun a b => signed 32 (unsigned 32 (a + b))) (op' := (· + ·)) (e := 0) (e' := 0)
    (fun a b x y ha hb => by rw [signed_unsigned]; omega) (by rfl) hrel
  rw [reduce_eq_foldl (op := fun x y : Nat => x + y), ← List.sum_eq_foldl] at hsum
  have hrow : reduceRow .int32 .int32 f w (· + ·) 0 l =
      unsigned 32 (reduce (fun a b => signed 32 (unsigned 32 (a + b))) 0 (l.map (signed 32))) := rfl
  rw [hrow, unsigned]
  omega

/-- The signed value of 32 bits, counted from the least one. -/
def raised (x : Nat) : Nat := (signed 32 x + 2 ^ 31).toNat

/-- RMAX on INT32: the greatest. -/
theorem reduceRow_max (f : Word → Word → Word) (w : Word) (l : List Nat) :
    reduceRow .int32 .int32 f w max (-(2 ^ 31)) l = unsigned 32 ((l.map (signed 32)).foldl max (-(2 ^ 31))) := by
  have hrel : List.Forall₂ (fun (a : Int) (x : Nat) => a = x - 2 ^ 31 ∧ x < 2 ^ 32) (l.map (signed 32)) (l.map raised) := by
    rw [List.forall₂_map_left_iff, List.forall₂_map_right_iff, List.forall₂_same]
    intro x _
    have := signed_mem x
    simp only [raised]
    omega
  have hwrapped := reduce_related (op := fun a b => signed 32 (unsigned 32 (max a b))) (op' := fun x y : Nat => max x y) (e := -(2 ^ 31))
    (e' := 0) (fun a b x y ha hb => by rw [signed_unsigned_of_mem] <;> omega) (by decide) hrel
  have hplain := foldl_related (op := max) (op' := fun x y : Nat => max x y) (e := -(2 ^ 31)) (e' := 0)
    (fun a b x y ha hb => by omega) hrel (by decide)
  rw [reduce_eq_foldl (op := fun x y : Nat => max x y)] at hwrapped
  exact congrArg (unsigned 32) (hwrapped.1.trans hplain.1.symm)

end Sys2Proof.Machine
end

