-- ==== Sys2Proof/Proofs/VectorQuantisers.lean ====
section
/-! SUPPORT and O38. Conversions, reductions, quantisers, CHECK, COUNT and RAND (R147 to R153, R160, R162, R241, R243). -/

namespace Sys2Proof.Machine

/-! ## Codes of the quantisers (R149 to R153) -/

theorem quantise_bounds {lo hi : Int} (h : lo ≤ hi) (zp : Int) (s : Word) (y : FVal) :
    lo ≤ (quantise lo hi zp s y).1 ∧ (quantise lo hi zp s y).1 ≤ hi := by
  have hclamp (x : Int) : lo ≤ (clampCount lo hi x).1 ∧ (clampCount lo hi x).1 ≤ hi := by
    have := clampInt_bounds h x
    simp only [clampCount]
    split_ifs with hx
    · rwa [hx] at this
    · exact this
  simp only [quantise]
  split_ifs
  · exact hclamp _
  · exact hclamp _
  · exact hclamp _

theorem nonFinite_bounds {zp lo hi : Int} (h1 : lo ≤ zp) (h2 : zp ≤ hi) (x : FVal) :
    lo ≤ nonFinite x zp lo hi ∧ nonFinite x zp lo hi ≤ hi := by
  simp only [nonFinite]
  split_ifs <;> omega

theorem qmaxOf_pos (f : Fmt) : 1 ≤ qmaxOf f := by cases f <;> decide

/-- QROW's codes lie within -qmax..qmax (R150). -/
theorem qRow_codes_bounds {qmax : Nat} (hq : 1 ≤ qmax) (excl : List Nat) (row : List Word) {q : Int}
    (h : q ∈ (qRow qmax excl row).2.1) : -(qmax : Int) ≤ q ∧ q ≤ qmax := by
  obtain ⟨x, -, rfl⟩ := List.mem_map.1 h
  have hlo : -(qmax : Int) ≤ 0 := by omega
  have hhi : (0 : Int) ≤ qmax := by omega
  dsimp only
  split
  · exact ⟨hlo, hhi⟩
  · split
    · exact nonFinite_bounds hlo hhi _
    · split
      · exact ⟨hlo, hhi⟩
      · split
        · split <;> omega
        · exact quantise_bounds (hlo.trans hhi) ..

/-- QROW_U8's zero point and codes lie within 0..255 (R151). -/
theorem qRowU8_zp_bounds (excl : List Nat) (row : List Word) : 0 ≤ (qRowU8 excl row).2.1 ∧ (qRowU8 excl row).2.1 ≤ 255 := by
  simp only [qRowU8]
  split_ifs
  · exact ⟨le_refl _, (by decide : (0 : Int) ≤ 255)⟩
  · exact ⟨le_refl _, (by decide : (0 : Int) ≤ 255)⟩
  · exact ⟨(by decide : (0 : Int) ≤ 1), (by decide : (1 : Int) ≤ 255)⟩
  · exact quantise_bounds (by decide) ..

theorem qRowU8_codes_bounds (excl : List Nat) (row : List Word) {q : Int} (h : q ∈ (qRowU8 excl row).2.2.1) : 0 ≤ q ∧ q ≤ 255 := by
  have hzp := qRowU8_zp_bounds excl row
  obtain ⟨x, -, rfl⟩ := List.mem_map.1 h
  dsimp only
  split
  · exact hzp
  · split
    · exact nonFinite_bounds hzp.1 hzp.2 _
    · split
      · decide
      · split
        · split <;> decide
        · exact quantise_bounds (by decide) ..

/-! ## What the operations give -/

theorem map_zipIdx {α β : Type} (d : α) (f : α × Nat → β) (x : List α) :
    x.zipIdx.map f = (List.range x.length).map (fun i => f (x.getD i d, i)) := by
  refine List.ext_getElem (by simp) fun i h _ => ?_
  have hi : i < x.length := by simpa using h
  simp [hi]

theorem ofNat_unsigned (n : Nat) (x : Int) : BitVec.ofNat n (unsigned n x) = BitVec.ofInt n x := by
  apply BitVec.eq_of_toNat_eq
  have hpos : (0 : Int) < (2 ^ n : Nat) := by exact_mod_cast Nat.two_pow_pos n
  have hlt : (x % (2 ^ n : Nat)).toNat < 2 ^ n := by
    have := Int.emod_lt_of_pos x hpos
    have := Int.emod_nonneg x hpos.ne'
    omega
  rw [BitVec.toNat_ofNat, BitVec.toNat_ofInt, unsigned, Nat.mod_eq_of_lt hlt]

/-- A reduction into one element of 4 bytes takes the whole operand as its row. -/
theorem reduceOp_one {h : OpHdr} {w : Region} (hw : h.writes = [w]) (hlen : w.len = 4) (hbits : fmtBits h.ofmt = 32) (f : List Nat → Nat)
    (s : State) : (reduceOp h f s).writes = [(w, packRaws h.ofmt [f (rawsOf h.afmt (s.opRead h 0))])] := by
  have hrows (a : List Nat) : rowsOf (a.length / 1) 1 a = [a] := by
    simp only [rowsOf, Nat.div_one, List.take_length]
  simp only [reduceOp, State.opWrite_of_writes hw, hw, List.getElem?_cons_zero, hlen, hbits]
  rw [show 4 * 8 / 32 = 1 from rfl, hrows]
  rfl

namespace State

section
variable {s : State} {h : OpHdr} {w : Region}

theorem opWrite_one {w1 w2 : Region} {l : List Region} (hw : h.writes = w1 :: w2 :: l) (bs : List Byte) :
    opWrite h 1 bs = [(w2, bs)] := by
  simp [opWrite, hw]

theorem cvt_leaves (hw : h.writes = [w]) (hmay : s.mayIssue h .vector 0x0C = true) :
    ∃ t o, exec (.cvt h) s = .next t ∧ s.issued t h .vector 0x0C o ∧ o.fault = 0 ∧
      o.out = [(w, packRaws h.ofmt ((rawsOf h.afmt (s.opRead h 0)).map (cvt h.afmt h.ofmt)))] ∧ s.issueFrame t h := by
  obtain ⟨o, hissued, hfault, hout, -, hframe⟩ := vec_leaves hmay (cvtOp h)
  exact ⟨_, o, rfl, hissued, hfault, hout.trans (opWrite_of_writes hw _), hframe⟩

theorem trunc_leaves (hw : h.writes = [w]) (hmay : s.mayIssue h .vector 0x0D = true) :
    ∃ t o, exec (.trunc h) s = .next t ∧ s.issued t h .vector 0x0D o ∧ o.fault = 0 ∧
      o.out = [(w, (rawsOf h.afmt (s.opRead h 0)).flatMap (fun y => leBytes 4 (unsigned 32 (ftrunc (word32 h.afmt y)))))] ∧
      s.issueFrame t h := by
  obtain ⟨o, hissued, hfault, hout, -, hframe⟩ := vec_leaves hmay (truncOp h)
  rw [truncOp, opWrite_of_writes hw, packRaws, List.flatMap_map] at hout
  exact ⟨_, o, rfl, hissued, hfault, hout, hframe⟩

theorem count_leaves (op : CmpOp) (v : Word) (hw : h.writes = [w]) (hmay : s.mayIssue h .vector 0x16 = true) :
    ∃ t o, exec (.count h op v) s = .next t ∧ s.issued t h .vector 0x16 o ∧ o.fault = 0 ∧
      o.out = [(w, leBytes 4 ((rawsOf h.afmt (s.opRead h 0)).filter
        (fun y => cmpMeets h.afmt op y (v.toNat % 2 ^ fmtBits h.afmt))).length)] ∧ s.issueFrame t h := by
  obtain ⟨o, hissued, hfault, hout, -, hframe⟩ := vec_leaves hmay (countOp h op v)
  exact ⟨_, o, rfl, hissued, hfault, hout.trans (opWrite_of_writes hw _), hframe⟩

/-- QSTATIC (R149, R160): an outlier channel takes the zero point, uncounted. -/
theorem qstatic_leaves {x : List Nat} {sc : Word} {zp : Int} {input : Bool} {k : Nat} {excl : List Nat} (hw : h.writes = [w])
    (hx : x = rawsOf h.afmt (s.opRead h 0)) (hmay : s.mayIssue h .vector 0x12 = true) (hzp : zpOk h.ofmt zp = true)
    (hexcl : outliersOk k excl = true) :
    ∃ t o, exec (.qstatic h sc zp ⟨input, k, excl⟩) s = .next t ∧ s.issued t h .vector 0x12 o ∧ o.fault = 0 ∧
      o.out = [(w, packRaws h.ofmt ((List.range x.length).map (fun i =>
        ofIntFmt h.ofmt (if excl.contains (i % k) then zp else (qStatic h.ofmt sc zp input (valueOf h.afmt (x.getD i 0))).1))))] ∧
      o.counts = sumCounts ((List.range x.length).map (fun i =>
        if excl.contains (i % k) then {} else (qStatic h.ofmt sc zp input (valueOf h.afmt (x.getD i 0))).2)) ∧ s.issueFrame t h := by
  obtain ⟨o, hissued, hfault, hout, hcounts, hframe⟩ := vec_leaves hmay (qstaticOp h sc zp input k excl)
  rw [qstaticOp, ← hx] at hout hcounts
  simp only [opWrite_of_writes hw, map_zipIdx 0, List.map_map, Function.comp_def, apply_ite Prod.fst, apply_ite Prod.snd] at hout hcounts
  exact ⟨_, o, congrArg Host.Outcome.next (if_pos ⟨hzp, hexcl⟩), hissued, hfault, hout, hcounts, hframe⟩

/-- RAND's words, in the format it writes (R243). -/
theorem rand_leaves {n r : Nat} {y : Recipe} (hfmt : h.ofmt = .fp32 ∨ h.ofmt = .int32) (hw : h.writes = [w])
    (hmay : s.mayIssue h .vector 0x17 = true) (hr : s.opRecipe h = some r) (hy : s.recipe r = some y) :
    ∃ t o, exec (.rand h n) s = .next t ∧ s.issued t h .vector 0x17 o ∧ o.fault = 0 ∧
      o.out = [(w, (List.range n).flatMap (fun i =>
        leBytes 4 (if h.ofmt = .fp32 then fp32F.round .even false (randWord (raw32 (s.opRead h 0)) y.seed.toNat i / 256) (2 ^ 24)
          else randWord (raw32 (s.opRead h 0)) y.seed.toNat i)))] ∧ s.issueFrame t h := by
  obtain ⟨o, hissued, hfault, hout, -, hframe⟩ := vec_leaves hmay (randOp h n)
  refine ⟨_, o, congrArg Host.Outcome.next (if_pos hfmt), hissued, hfault, hout.trans ?_, hframe⟩
  simp only [randOp, hr, Option.bind_some, hy, opWrite_of_writes hw, packRaws]
  split_ifs
  · simp only [List.map_map, List.flatMap_map, Function.comp_def]
  · simp only [List.flatMap_map]

/-- A reduction; into one element it takes the whole operand (R148). -/
theorem reduction_leaves {opc : Nat} (f : Word → Word → Word) (e : Word) (g : Int → Int → Int) (z : Int)
    (hmay : s.mayIssue h .vector opc = true) (hw : h.writes = [w]) :
    ∃ o bs, s.issued (s.vec h opc (reduceOp h (reduceRow h.afmt h.ofmt f e g z))) h .vector opc o ∧ o.fault = 0 ∧ o.counts = {} ∧
      o.out = [(w, bs)] ∧
      (w.len = 4 → h.ofmt = .fp32 → h.afmt = .fp32 → bs = leBytes 4 (reduce f e ((raw32 (s.opRead h 0)).map (BitVec.ofNat 32))).toNat) ∧
      (w.len = 4 → h.ofmt = .int32 → h.afmt = .int32 → bs = leBytes 4 (reduceRow .int32 .int32 f e g z (raw32 (s.opRead h 0)))) ∧
      s.issueFrame (s.vec h opc (reduceOp h (reduceRow h.afmt h.ofmt f e g z))) h := by
  obtain ⟨o, hissued, hfault, hout, hcounts, hframe⟩ := vec_leaves hmay (reduceOp h (reduceRow h.afmt h.ofmt f e g z))
  obtain ⟨bs, hbs⟩ : ∃ bs, (reduceOp h (reduceRow h.afmt h.ofmt f e g z) s).writes = [(w, bs)] := ⟨_, opWrite_of_writes hw _⟩
  have hone (hlen : w.len = 4) (hbits : fmtBits h.ofmt = 32) :
      bs = packRaws h.ofmt [reduceRow h.afmt h.ofmt f e g z (rawsOf h.afmt (s.opRead h 0))] := by
    simpa using hbs.symm.trans (reduceOp_one hw hlen hbits _ s)
  refine ⟨o, bs, hissued, hfault, hcounts, hout.trans hbs, fun hlen ho ha => ?_, fun hlen ho ha => ?_, hframe⟩
  · rw [hone hlen (by rw [ho]; rfl), ho, ha]
    exact List.append_nil _
  · rw [hone hlen (by rw [ho]; rfl), ho, ha]
    exact List.append_nil _

/-- QROW (R150). -/
theorem qrow_leaves {w1 w2 : Region} {excl : List Nat} {m : Nat} {x : List Word} (hmay : s.mayIssue h .vector 0x13 = true)
    (hw : h.writes = [w1, w2]) (hexcl : outliersOk (rowLenOf h 4) excl = true)
    (hx : x = (rawsOf h.afmt (s.opRead h 0)).map (word32 h.afmt)) (hm : m = max 1 (w2.len / 4)) :
    ∃ t o, exec (.qrow h excl) s = .next t ∧ s.issued t h .vector 0x13 o ∧ o.fault = 0 ∧
      o.out = [(w1, packRaws h.ofmt ((rowsOf (x.length / m) m x).flatMap (fun r => (qRow (qmaxOf h.ofmt) excl r).2.1.map (ofIntFmt h.ofmt)))),
        (w2, (rowsOf (x.length / m) m x).flatMap (fun r => leBytes 4 (qRow (qmaxOf h.ofmt) excl r).1.toNat))] ∧
      o.counts = sumCounts ((rowsOf (x.length / m) m x).map (fun r => (qRow (qmaxOf h.ofmt) excl r).2.2)) ∧ s.issueFrame t h := by
  obtain ⟨o, hissued, hfault, hout, hcounts, hframe⟩ := vec_leaves hmay (qrowOp h excl)
  simp only [qrowOp, ← hx, hw, List.getElem?_cons_succ, List.getElem?_cons_zero, ← hm, opWrite_of_writes hw, opWrite_one hw,
    packRaws, List.flatMap_map, List.map_map, Function.comp_def, List.cons_append, List.nil_append] at hout hcounts
  exact ⟨_, o, congrArg Host.Outcome.next (if_pos hexcl), hissued, hfault, hout, hcounts, hframe⟩

/-- QROW_U8 (R151). -/
theorem qrowU8_leaves {w1 w2 : Region} {excl : List Nat} {m : Nat} {x : List Word} (hmay : s.mayIssue h .vector 0x14 = true)
    (hw : h.writes = [w1, w2]) (hexcl : outliersOk (rowLenOf h 5) excl = true)
    (hx : x = (rawsOf h.afmt (s.opRead h 0)).map (word32 h.afmt)) (hm : m = max 1 (w2.len / 5)) :
    ∃ t o, exec (.qrowU8 h excl) s = .next t ∧ s.issued t h .vector 0x14 o ∧ o.fault = 0 ∧
      o.out = [(w1, (rowsOf (x.length / m) m x).flatMap (fun r => (qRowU8 excl r).2.2.1.map (BitVec.ofInt 8))),
        (w2, (rowsOf (x.length / m) m x).flatMap (fun r => leBytes 4 (qRowU8 excl r).1.toNat) ++
          (rowsOf (x.length / m) m x).map (fun r => BitVec.ofInt 8 (qRowU8 excl r).2.1))] ∧
      o.counts = sumCounts ((rowsOf (x.length / m) m x).map (fun r => (qRowU8 excl r).2.2.2)) ∧ s.issueFrame t h := by
  have hcode (q : Int) : BitVec.ofNat 8 (ofIntFmt .uint8 q) = BitVec.ofInt 8 q := ofNat_unsigned 8 q
  obtain ⟨o, hissued, hfault, hout, hcounts, hframe⟩ := vec_leaves hmay (qrowU8Op h excl)
  simp only [qrowU8Op, ← hx, hw, List.getElem?_cons_succ, List.getElem?_cons_zero, ← hm, opWrite_of_writes hw, opWrite_one hw,
    packRaws, List.flatMap_map, List.map_flatMap, List.map_map, Function.comp_def, List.cons_append, List.nil_append, hcode] at hout hcounts
  exact ⟨_, o, congrArg Host.Outcome.next (if_pos hexcl), hissued, hfault, hout, hcounts, hframe⟩

/-! ## CHECK (R162) -/

theorem checkWidens_eq (s : State) (h : OpHdr) (limit : Nat) (m : CheckMask) :
    checkWidens s h limit m = decide (limit ≠ 0 ∧ limit ≤ checkSum s h m) := (Bool.decide_and ..).symm

/-- A CHECK writes the word 0 where its layer widens, and else a word that the model leaves free, but for 0. -/
theorem checkOp_leaves (s : State) (h : OpHdr) (limit : Nat) (m : CheckMask) :
    ∃ n c, checkOp h limit m s = ({ writes := opWrite h 0 (leBytes 4 n) }, { s with free := c }) ∧ n < 2 ^ 32 ∧
      (n = 0 ↔ limit ≠ 0 ∧ limit ≤ checkSum s h m) := by
  unfold checkOp
  split
  · next hwiden =>
    rw [checkWidens_eq, decide_eq_true_eq] at hwiden
    exact ⟨0, s.free, rfl, by decide, iff_of_true rfl hwiden⟩
  · next hwiden =>
    rw [checkWidens_eq, decide_eq_true_eq] at hwiden
    exact ⟨_, _, rfl, by omega, iff_of_false (Nat.succ_ne_zero _) hwiden⟩

theorem check_leaves {limit : Fin 65536} {m : CheckMask} (hw : h.writes = [w]) (hmay : s.mayIssue h .vector 0x15 = true) :
    ∃ t o, exec (.check h limit m) s = .next t ∧ s.issued t h .vector 0x15 o ∧ o.fault = 0 ∧
      o.check = some (decide (limit.val ≠ 0 ∧ limit.val ≤ checkSum s h m)) ∧
      (∃ n, o.out = [(w, leBytes 4 n)] ∧ n < 2 ^ 32 ∧ (n = 0 ↔ limit.val ≠ 0 ∧ limit.val ≤ checkSum s h m)) ∧
      s.issueFrame { t with free := s.free } h := by
  obtain ⟨n, c, hgives, hlt, hzero⟩ := checkOp_leaves s h limit m
  obtain ⟨hmode, hreach, hreads, hecc⟩ := mayIssue_iff.1 hmay
  obtain ⟨spec, hspec⟩ := Option.isSome_iff_exists.1 hmode
  obtain ⟨a, ha⟩ := task_of_issueMode hspec
  obtain ⟨hissued, hrest, hcounters, hmarks⟩ := issue_issues (upd := fun o => { o with check := some (checkWidens s h limit m) })
    hspec ha ((issueRes_plain (f := checkOp h limit m) hreads hreach hecc).trans hgives) (fun _ => rfl) rfl
  refine ⟨_, _, rfl, hissued, rfl, congrArg some (checkWidens_eq ..), ⟨n, opWrite_of_writes hw _, hlt, hzero⟩, ?_, hcounters, hmarks⟩
  rw [hrest]

end

end State
end Sys2Proof.Machine

open Sys2Proof Sys2Proof.Machine Sys2Proof.Machine.State in
/-- Settles O38: each operation from its own lemma, SUM and RMAX from the one on reductions. -/
theorem vectorConversionsReductionsAndQuantisers : Obligations.VectorConversionsReductionsAndQuantisers := by
  unfold Obligations.VectorConversionsReductionsAndQuantisers
  refine ⟨fun s h w x hw hx => ⟨?_, ?_, fun op v hmay => ?_, fun sc zp input k excl => qstatic_leaves hw hx, fun limit m => check_leaves hw,
    fun n r y hmay hr hy => ⟨fun ho => ?_, fun ho => ?_⟩⟩, fun s h w hmay hw => ?_, fun s h w hmay hw => ?_,
    fun s h w1 w2 excl m x hmay hw _ hexcl hx hm => ?_, fun s h w1 w2 excl m x hmay hw hexcl hx hm => ?_,
    fun s h sc zp input k excl => ⟨fun hbad => ?_, fun hbad => ?_, fun hbad => ?_⟩, fun s h n hfp hint => ?_⟩
  · subst hx; exact cvt_leaves hw
  · subst hx; exact trunc_leaves hw
  · subst hx; exact count_leaves op v hw hmay
  · obtain ⟨t, o, hexec, hissued, hfault, hout, hframe⟩ := rand_leaves (n := n) (.inr ho) hw hmay hr hy
    simp only [ho, reduceCtorEq, if_false] at hout
    exact ⟨t, o, hexec, hissued, hfault, hout, hframe⟩
  · obtain ⟨t, o, hexec, hissued, hfault, hout, hframe⟩ := rand_leaves (n := n) (.inl ho) hw hmay hr hy
    simp only [ho, if_true] at hout
    exact ⟨t, o, hexec, hissued, hfault, hout, hframe⟩
  · obtain ⟨o, bs, hissued, hfault, hcounts, hout, hfp, hint, hframe⟩ := reduction_leaves fadd 0#32 (· + ·) 0 hmay hw
    exact ⟨_, o, bs, rfl, hissued, hfault, hcounts, hout, hfp,
      fun hlen ho ha => (hint hlen ho ha).trans (congrArg _ (reduceRow_sum ..)), hframe⟩
  · obtain ⟨o, bs, hissued, hfault, hcounts, hout, hfp, hint, hframe⟩ := reduction_leaves fmax 0xFF800000#32 max (-(2 ^ 31)) hmay hw
    exact ⟨_, o, bs, rfl, hissued, hfault, hcounts, hout, hfp,
      fun hlen ho ha => (hint hlen ho ha).trans (congrArg _ (reduceRow_max ..)), hframe⟩
  · obtain ⟨t, o, hexec, hissued, hfault, hout, hcounts, hframe⟩ := qrow_leaves hmay hw hexcl hx hm
    exact ⟨t, o, hexec, hissued, hfault, hout, fun r _ q hq => qRow_codes_bounds (qmaxOf_pos _) excl r hq, hcounts, hframe⟩
  · obtain ⟨t, o, hexec, hissued, hfault, hout, hcounts, hframe⟩ := qrowU8_leaves hmay hw hexcl hx hm
    refine ⟨t, o, hexec, hissued, hfault, hout, fun r _ q hq => ?_, hcounts, hframe⟩
    rcases List.mem_cons.1 hq with rfl | hq
    · exact qRowU8_zp_bounds excl r
    · exact qRowU8_codes_bounds excl r hq
  · refine congrArg Host.Outcome.next (if_neg fun ⟨hzp, hexcl⟩ => ?_)
    rcases hbad with hbad | hbad
    · exact Bool.false_ne_true (hbad.symm.trans hzp)
    · exact Bool.false_ne_true (hbad.symm.trans hexcl)
  · exact congrArg Host.Outcome.next (if_neg (by rw [hbad]; decide))
  · exact congrArg Host.Outcome.next (if_neg (by rw [hbad]; decide))
  · exact congrArg Host.Outcome.next (if_neg fun hfmt => hfmt.elim hfp hint)
end

