-- ==== Sys2Proof/Proofs/SequencerSettings.lean ====
section
/-! SUPPORT and O33. The sequencers' settings, written by the host: `ENG_CFG` of an engine (R124, R136) and the shares of the
ordering table (R123). -/

namespace Sys2Proof.Machine

/-! ## Registers whose fields take what is written (R445) -/

/-- A register of RW fields without checks. -/
def plain (l : List FieldSpec) : Prop := ∀ f ∈ l, f.acc = .rw ∧ f.chk = .any

theorem applyFields_plain {l : List FieldSpec} (hl : plain l) (z : Bool) (c : Half) (v old : Word) :
    (applyFields z c l v old).2 = [] := by
  induction l generalizing old with
  | nil => rfl
  | cons f r ih =>
    obtain ⟨hacc, hchk⟩ := hl f (List.mem_cons_self ..)
    simp only [applyFields, applyField_takes (z := z) (v := v) ⟨.inl hacc, .inl hchk⟩, Option.toList_none, List.nil_append]
    exact ih (fun g hg => hl g (List.mem_cons_of_mem _ hg)) _

namespace State

/-- A write of plain fields changes its register alone, and reports nothing. -/
theorem writeFields_plain {off : Nat} {r : RegSpec} (s : State) (k i : Nat) (v : Word) (hr : regSpec off = some r)
    (hoff : off ≠ 0x200010) (ha : fieldsApart r.fields = true) (hl : plain r.fields) :
    (∀ f ∈ r.fields, bits ((s.writeFields off k i v).reg off) f.hi f.lo = bits v f.hi f.lo) ∧
    (∀ o, o ≠ off → (s.writeFields off k i v).reg o = s.reg o) ∧
    s.writeFields off k i v = { s with regs := (s.writeFields off k i v).regs } := by
  obtain ⟨u, hu, hfields, hothers, -⟩ := writeFields_leaves (s := s) k i v hr hoff ha (.inr fun f hf => by rw [(hl f hf).1]; decide)
  refine ⟨fun f hf => ?_, fun o ho => ?_, ?_⟩
  · rw [hu]
    exact hfields f hf ⟨.inl (hl f hf).1, .inl (hl f hf).2⟩
  · rw [hu]
    exact hothers o ho
  · simp only [writeFields, hr, applyFields_plain hl, reportFields, setReg,
      sealedField_of_rw _ _ _ (fun f hf => by rw [(hl f hf).1]; decide : ∀ f ∈ r.fields, f.acc ≠ .rwl), ite_self]

/-! ## Writes ignored (R446) -/

theorem ignoreWrite_leaves (s : State) (c : Half) (k i off : Nat) (v : Word) :
    (∀ o, o ∈ lastCodeKeys c k i → (s.ignoreWrite c k i off v).lastCode o = c) ∧
    s.ignoreWrite c k i off v = { s with log := (s.ignoreWrite c k i off v).log } := by
  obtain ⟨l, hl⟩ := report_frame s c 3 off 31 0 v.toNat (s.reg off).toNat 0 0
  obtain ⟨l', hl'⟩ := last_frame { s with log := l } c k i
  have he : s.ignoreWrite c k i off v = { s with log := l' } := by rw [ignoreWrite, hl, hl']
  refine ⟨fun o ho => ?_, by rw [he]⟩
  rw [ignoreWrite, lastCode_last, if_pos ho]

/-- LAST_CODE of an engine stands in its status register. -/
theorem engStat_mem {e : Nat} (h : e < 6) (c : Half) : eOff e + 4 ∈ lastCodeKeys c 0x05 e := by
  simp only [lastCodeKeys, if_pos h, List.mem_singleton, eOff]
  omega

/-! ## `ENG_CFG` (R124, R136) -/

/-- `ENG_CFG`: CLK and RUNAHEAD. -/
def engSpec : RegSpec := { delta := 0, code := 0x1601#16, fields := [Machine.fld .rw 4 4, Machine.fld .rw 8 8] }

theorem regSpec_eng (e : Fin 6) : regSpec (eOff e) = some engSpec := by revert e; decide

theorem engSpec_plain : plain engSpec.fields := by
  intro f hf
  simp only [engSpec, List.mem_cons, List.not_mem_nil, or_false] at hf
  rcases hf with rfl | rfl <;> exact ⟨rfl, rfl⟩

theorem eOff_ne_sealLast (e : Fin 6) : eOff e ≠ 0x200010 := by unfold eOff; omega

theorem bit_congr {v w : Word} {n : Nat} (h : bits v n n = bits w n n) : bit v n = bit w n := by
  rw [bit_bits, bit_bits] at h
  cases hv : bit v n <;> cases hw : bit w n <;> simp_all

/-- A write of an engine's `ENG_CFG`. -/
theorem writeEng_leaves (s : State) (e : Fin 6) (v : Word) :
    (s.writeFields (eOff e) 0x05 e v).flag (eOff e) 4 = bit v 4 ∧ (s.writeFields (eOff e) 0x05 e v).flag (eOff e) 8 = bit v 8 ∧
    (∀ o, o ≠ eOff e → (s.writeFields (eOff e) 0x05 e v).reg o = s.reg o) ∧
    s.writeFields (eOff e) 0x05 e v = { s with regs := (s.writeFields (eOff e) 0x05 e v).regs } := by
  obtain ⟨hfields, hothers, hframe⟩ := writeFields_plain s 0x05 e v (regSpec_eng e) (eOff_ne_sealLast e) (by decide) engSpec_plain
  exact ⟨bit_congr (hfields (Machine.fld .rw 4 4) (by decide)), bit_congr (hfields (Machine.fld .rw 8 8) (by decide)), hothers, hframe⟩

theorem engCfgWrite_exec {s : State} {e : Fin 6} (ha : s.answers 0 (eOff e) = true) (v : Word) :
    exec (.engCfgWrite e v) s = .next (s.engCfgWriteEff e v) :=
  congrArg Host.Outcome.next (gate_answers s 0 (eOff e) v _ ha)

/-- RUNAHEAD in a polder of more than two engines is refused (R124). -/
def tooBig (s : State) (e : Nat) : Bool :=
  match (s.engine e).polder with | none => false | some p => decide (2 < (s.polderEngines p).length)

theorem engCfgWriteEff_cases (s : State) (e : Nat) (v : Word) : s.engCfgWriteEff e v =
    if ¬ (s.engine e).resident.isEmpty then s.ignoreWrite 0x1601#16 0x05 e (eOff e) v
    else if s.tooBig e ∧ bit v 8 then
      (s.writeFields (eOff e) 0x05 e (putBits v 8 8 (s.fld (eOff e) 8 8))).ignoreWrite 0x1601#16 0x05 e (eOff e) v
    else s.writeFields (eOff e) 0x05 e v := rfl

section
variable {s : State} {e : Fin 6} {v : Word}

theorem engCfgWrite_applies (ha : s.answers 0 (eOff e) = true) (hfree : (s.engine e).resident = [])
    (hfits : bit v 8 = false ∨ (s.engine e).polder = none ∨ ∃ p, (s.engine e).polder = some p ∧ (s.polderEngines p).length ≤ 2) :
    ∃ t, exec (.engCfgWrite e v) s = .next t ∧ t.flag (eOff e) 4 = bit v 4 ∧ t.flag (eOff e) 8 = bit v 8 ∧
      (∀ o, o ≠ eOff e → t.reg o = s.reg o) ∧ t = { s with regs := t.regs } := by
  have hsmall : ¬ (s.tooBig e = true ∧ bit v 8 = true) := by
    rintro ⟨hbig, hset⟩
    rcases hfits with h | h | ⟨p, hp, hle⟩
    · exact Bool.false_ne_true (h.symm.trans hset)
    · rw [tooBig, h] at hbig
      exact Bool.false_ne_true hbig
    · rw [tooBig, hp] at hbig
      exact absurd (of_decide_eq_true hbig) (Nat.not_lt.2 hle)
  have he := engCfgWrite_exec ha v
  rw [engCfgWriteEff_cases, if_neg (by simp [hfree]), if_neg hsmall] at he
  exact ⟨_, he, writeEng_leaves s e v⟩

theorem engCfgWrite_bigPolder {p : Nat} (ha : s.answers 0 (eOff e) = true) (hfree : (s.engine e).resident = [])
    (hset : bit v 8 = true) (hp : (s.engine e).polder = some p) (hbig : 2 < (s.polderEngines p).length) :
    ∃ t, exec (.engCfgWrite e v) s = .next t ∧ t.flag (eOff e) 4 = bit v 4 ∧ t.flag (eOff e) 8 = s.flag (eOff e) 8 ∧
      t.lastCode (eOff e + 4) = 0x1601#16 ∧ (∀ o, o ≠ eOff e → t.reg o = s.reg o) ∧ t = { s with regs := t.regs, log := t.log } := by
  have he := engCfgWrite_exec ha v
  rw [engCfgWriteEff_cases, if_neg (by simp [hfree]), if_pos ⟨by rw [tooBig, hp]; exact decide_eq_true hbig, hset⟩] at he
  obtain ⟨hclk, hrun, hothers, hframe⟩ := writeEng_leaves s e (putBits v 8 8 (s.fld (eOff e) 8 8))
  generalize s.writeFields (eOff e) 0x05 e (putBits v 8 8 (s.fld (eOff e) 8 8)) = u at *
  obtain ⟨hcode, hlog⟩ := ignoreWrite_leaves u 0x1601#16 0x05 e (eOff e) v
  have hkept : bit (putBits v 8 8 (s.fld (eOff e) 8 8)) 8 = s.flag (eOff e) 8 := bit_congr (bits_putBits_bits v _ (by decide) (by decide))
  generalize u.ignoreWrite 0x1601#16 0x05 e (eOff e) v = t at *
  have hreg (o : Nat) : t.reg o = u.reg o := (congrArg (State.reg · o) hlog :)
  refine ⟨t, he, ?_, ?_, hcode _ (engStat_mem e.isLt _), fun o ho => (hreg o).trans (hothers o ho), ?_⟩
  · rw [flag, hreg]
    exact hclk.trans (bit_putBits_other v 8 8 _ 4 (by decide) (by decide) (by decide))
  · rw [flag, hreg]
    exact hrun.trans hkept
  · rw [hlog]
    conv_lhs => rw [hframe]

theorem engCfgWrite_resident (ha : s.answers 0 (eOff e) = true) (hres : (s.engine e).resident ≠ []) :
    ∃ t, exec (.engCfgWrite e v) s = .next t ∧ t.lastCode (eOff e + 4) = 0x1601#16 ∧ t = { s with log := t.log } := by
  have he := engCfgWrite_exec ha v
  rw [engCfgWriteEff_cases, if_pos (by simpa using hres)] at he
  obtain ⟨hcode, hlog⟩ := ignoreWrite_leaves s 0x1601#16 0x05 e (eOff e) v
  exact ⟨_, he, hcode _ (engStat_mem e.isLt _), hlog⟩

end

/-! ## Shares of the ordering table (R123) -/

theorem regSpec_share (i : Fin 2) : regSpec (0x268000 + 4 * i.val) = some (reg1 0 0x1605#16 (Machine.fld .rw 31 0)) := by
  revert i; decide

/-- What a write of a share leaves in its register: EN, the polder and the entries. -/
def shareWord (v : Word) : Word := BitVec.ofNat 32 (bits v 31 31 * 2 ^ 31 + bits v 18 16 * 2 ^ 16 + bits v 11 0)

theorem shareWord_fields (v : Word) :
    bits (shareWord v) 31 31 = bits v 31 31 ∧ bits (shareWord v) 18 16 = bits v 18 16 ∧ bits (shareWord v) 11 0 = bits v 11 0 := by
  have h1 := bits_lt v 31 31
  have h2 := bits_lt v 18 16
  have h3 := bits_lt v 11 0
  generalize hx : bits v 31 31 = x at *
  generalize hy : bits v 18 16 = y at *
  generalize hz : bits v 11 0 = z at *
  simp only [shareWord, hx, hy, hz]
  simp only [bits, BitVec.toNat_ofNat]
  omega

/-- A share whose polder holds a resident context does not change. -/
def shareBusy (s : State) (o : Nat) : Bool := s.flag o 31 && s.allCtxs.any (fun x => decide (x.2.polder = s.fld o 18 16) && x.2.resident)

theorem ordShareWriteEff_cases (s : State) (i : Nat) (v : Word) : s.ordShareWriteEff i v =
    if s.shareBusy (0x268000 + 4 * i) ∨ (bit v 31 ∧ ¬ s.shareOk i v) then s.ignoreWrite 0x1605#16 0x05 0 (0x268000 + 4 * i) v
    else s.writeFields (0x268000 + 4 * i) 0x05 0 (shareWord v) := rfl

/-- In a table of contexts in its canonical form, each entry is the context of its number. -/
theorem ctx_of_mem_allCtxs {s : State} (hcanon : ∀ q, q ∈ s.ctxs → tget none s.ctxs q.1 = q.2) {x : Nat × Ctx} (hx : x ∈ s.allCtxs) :
    s.ctx x.1 = some x.2 := by
  obtain ⟨q, hq, hqx⟩ := List.mem_filterMap.1 hx
  obtain ⟨y, hy, rfl⟩ := Option.map_eq_some_iff.1 hqx
  exact (hcanon q hq).trans hy

section
variable {s : State} {i : Fin 2} {v : Word} {o : Nat}

theorem ordShareWrite_exec (ho : o = 0x268000 + 4 * i.val) (ha : s.answers 0 o = true) (v : Word) :
    exec (.ordShareWrite i v) s = .next (s.ordShareWriteEff i v) := by
  subst ho
  exact congrArg Host.Outcome.next (gate_answers s 0 _ v _ ha)

theorem ordShareWrite_applies (ho : o = 0x268000 + 4 * i.val) (ha : s.answers 0 o = true)
    (hidle : s.flag o 31 = true → ∀ c x, s.ctx c = some x → x.polder = s.fld o 18 16 → x.resident = false)
    (hcanon : ∀ q, q ∈ s.ctxs → tget none s.ctxs q.1 = q.2) (hok : bit v 31 = true → s.shareOk i v = true) :
    ∃ t, exec (.ordShareWrite i v) s = .next t ∧ t.flag o 31 = bit v 31 ∧ t.fld o 18 16 = bits v 18 16 ∧
      t.fld o 11 0 = bits v 11 0 ∧ (∀ a, a ≠ o → t.reg a = s.reg a) ∧ t = { s with regs := t.regs } := by
  have hfree : ¬ (s.shareBusy o = true) := by
    intro hbusy
    obtain ⟨hon, hany⟩ := Bool.and_eq_true_iff.1 hbusy
    obtain ⟨x, hx, hres⟩ := List.any_eq_true.1 hany
    obtain ⟨hpolder, hres⟩ := Bool.and_eq_true_iff.1 hres
    exact Bool.false_ne_true ((hidle hon x.1 x.2 (ctx_of_mem_allCtxs hcanon hx) (of_decide_eq_true hpolder)).symm.trans hres)
  have he := ordShareWrite_exec ho ha v
  rw [ordShareWriteEff_cases, ← ho, if_neg (by rintro (h | ⟨hset, hbad⟩); exacts [hfree h, hbad (hok hset)])] at he
  have hoff : o ≠ 0x200010 := by omega
  rw [writeFields_rw s 0x05 0 (shareWord v) (ho ▸ regSpec_share i) rfl] at he
  obtain ⟨hen, hpolder, hn⟩ := shareWord_fields v
  have hword : (s.setReg o (putBits (s.reg o) 31 0 (bits (shareWord v) 31 0))).reg o = shareWord v := by
    rw [reg_setReg_same, putBits_word, bits_word, BitVec.ofNat_toNat, BitVec.setWidth_eq]
  exact ⟨_, he, (congrArg (bit · 31) hword).trans (bit_congr hen), (congrArg (bits · 18 16) hword).trans hpolder,
    (congrArg (bits · 11 0) hword).trans hn, fun a h => reg_setReg_other s o a _ h, rfl⟩

/-- What a share that R123 allows keeps: its polder is one of six, its entries are whole lines of 64 within the polder's
engines, which are three or more. -/
theorem shareOk_bounds (h : s.shareOk i v = true) :
    bits v 18 16 < 6 ∧ bits v 11 0 % 64 = 0 ∧ 64 ≤ bits v 11 0 ∧ bits v 11 0 ≤ 2048 ∧
    bits v 11 0 ≤ 512 * (s.ownEngines (bits v 18 16)).length ∧ 3 ≤ (s.ownEngines (bits v 18 16)).length := by
  simp only [shareOk, Bool.and_eq_true, decide_eq_true_eq] at h
  obtain ⟨⟨⟨⟨⟨⟨⟨hpolder, hlines⟩, hsome⟩, hmost⟩, hengines⟩, -⟩, -⟩, -⟩ := h
  exact ⟨hpolder, hlines, hsome, (Nat.le_min.1 hmost).1, (Nat.le_min.1 hmost).2, hengines⟩

theorem ordShareWrite_refused (ho : o = 0x268000 + 4 * i.val) (ha : s.answers 0 o = true) (hset : bit v 31 = true)
    (hbad : s.shareOk i v = false) : ∃ t, exec (.ordShareWrite i v) s = .next t ∧ t = { s with log := t.log } := by
  have he := ordShareWrite_exec ho ha v
  rw [ordShareWriteEff_cases, if_pos (.inr ⟨hset, by rw [hbad]; exact Bool.false_ne_true⟩)] at he
  exact ⟨_, he, (ignoreWrite_leaves s 0x1605#16 0x05 0 _ v).2⟩

end

end State
end Sys2Proof.Machine

open Sys2Proof Sys2Proof.Machine Sys2Proof.Machine.State in
/-- Settles O33: a write of an engine's ENG_CFG goes through where no context is resident, less RUNAHEAD in a polder of more
than two engines; a share that breaks one of R123's rules is refused. -/
theorem sequencerSettings : Obligations.SequencerSettings := by
  unfold Obligations.SequencerSettings
  refine ⟨fun s e v ha hfree hfits => engCfgWrite_applies ha hfree hfits,
    fun s e v p ha hfree hset hp hbig => engCfgWrite_bigPolder ha hfree hset hp hbig,
    fun s e v ha hres => engCfgWrite_resident ha hres,
    fun s i v o ho ha hidle hcanon hok => ordShareWrite_applies ho ha hidle hcanon hok,
    fun s i v o ho ha hset hbad => ordShareWrite_refused ho ha hset (Bool.eq_false_iff.2 fun hok => ?_)⟩
  obtain ⟨hpolder, hlines, hsome, hmost, hfits, hengines⟩ := shareOk_bounds hok
  omega

end

