-- ==== Sys2Proof/Proofs/Commits.lean ====
section
/-! SUPPORT. What a completing operation puts in place (R116, R161): its writes to the memories, its counts and its tallies; and
what the operations of a gate put in place when it lets them through (R120). -/

namespace Sys2Proof.Machine.State

/-! ## Counts and notes -/

/-- From `s` to `t` no more changes than contexts, counters and the log. -/
def Notes (s t : State) : Prop := t = { s with ctxs := t.ctxs, counters := t.counters, log := t.log }

theorem Notes.refl (s : State) : Notes s s := rfl

theorem Notes.trans {s t u : State} (h : Notes s t) (h' : Notes t u) : Notes s u := Eq.trans h' (by conv_lhs => rw [h])

theorem Notes.ops {s t : State} (h : Notes s t) : t.ops = s.ops := (congrArg State.ops h :)

theorem Notes.engine {s t : State} (h : Notes s t) (j : Nat) : t.engine j = s.engine j := (congrArg (State.engine · j) h :)

theorem bumpIf_notes (s : State) (off n : Nat) : Notes s (s.bumpIf off n) := by
  obtain ⟨c, hc⟩ := bumpIf_frame s off n
  rw [hc]
  exact rfl

theorem raise_notes (s : State) (c : Half) (k i n : Nat) : Notes s (s.raise c k i n) := by
  obtain ⟨l, hl⟩ := raise_frame s c k i n []
  rw [hl]
  exact rfl

theorem modCtx_frame (s : State) (c : Nat) (f : Ctx → Ctx) : s.modCtx c f = { s with ctxs := (s.modCtx c f).ctxs } := by
  unfold modCtx
  split
  · rfl
  · rfl

theorem noteJob_notes (s : State) (c job : Nat) (code : Half) : Notes s (s.noteJob c job code) := by
  rw [noteJob, modJob, modCtx_frame]
  exact rfl

theorem bumpAll_notes (s : State) (base : Nat) (l : List (Nat × Nat)) : Notes s (s.bumpAll base l) := by
  induction l generalizing s with
  | nil => exact .refl s
  | cons x r ih => exact (bumpIf_notes s _ _).trans (ih _)

theorem commitCounts_notes (s : State) (e c job : Nat) (n : Counts) : Notes s (s.commitCounts e c job n) := by
  have hcounts := (((bumpIf_notes s (eOff e + 0x40) n.inn).trans (bumpIf_notes _ (eOff e + 0x44) n.acc)).trans
    (bumpIf_notes _ (eOff e + 0x48) n.out)).trans (bumpIf_notes _ (eOff e + 0x4C) n.nonf)
  unfold commitCounts
  dsimp only
  split
  · exact hcounts
  · exact (hcounts.trans (raise_notes _ _ _ _ _)).trans (noteJob_notes _ c job _)

/-! ## Writes to the memories -/

/-- From `s` to `t` no more changes than the memories, their words in error, contexts, counters and the log; the tasks stay. -/
def Commits (s t : State) : Prop :=
  (∀ j, (t.engine j).task = (s.engine j).task) ∧
  t = { s with engines := t.engines, bonded := t.bonded, pool := t.pool, ecc := t.ecc, ctxs := t.ctxs, counters := t.counters,
               log := t.log }

theorem Commits.refl (s : State) : Commits s s := ⟨fun _ => rfl, rfl⟩

theorem Commits.trans {s t u : State} (h : Commits s t) (h' : Commits t u) : Commits s u :=
  ⟨fun j => (h'.1 j).trans (h.1 j), h'.2.trans (by conv_lhs => rw [h.2])⟩

theorem Commits.ops {s t : State} (h : Commits s t) : t.ops = s.ops := (congrArg State.ops h.2 :)

theorem Notes.commits {s t : State} (h : Notes s t) : Commits s t :=
  ⟨fun j => congrArg Engine.task (h.engine j), by rw [show t = _ from h]⟩

theorem writeTile (s : State) (e c : Nat) {w : Region} (b : List Byte) (hw : w.space = .tile) :
    s.writeRegion e c w b = (s.setEngine e { s.engine e with tile := writeBytes (s.engine e).tile w.addr (b.take w.len) }).clearEcc
      e w.addr (b.take w.len).length := by
  unfold writeRegion
  dsimp only
  rw [hw]

theorem writeRegion_commits (s : State) (e c : Nat) (w : Region) (b : List Byte) : Commits s (s.writeRegion e c w b) := by
  have htile (x : List Byte) (n : Nat) :
      Commits s ((s.setEngine e { s.engine e with tile := writeBytes (s.engine e).tile w.addr x }).clearEcc e w.addr n) := by
    refine ⟨fun j => ?_, rfl⟩
    by_cases hj : j = e
    · subst hj
      exact (congrArg Engine.task (engine_setEngine_same s j _)).trans rfl
    · exact congrArg Engine.task (engine_setEngine_other s _ hj)
  unfold writeRegion
  dsimp only
  split
  · exact htile _ _
  · split <;> exact ⟨fun _ => rfl, rfl⟩
  · split <;> exact ⟨fun _ => rfl, rfl⟩
  · exact ⟨fun _ => rfl, rfl⟩
  · exact ⟨fun _ => rfl, rfl⟩
  · exact .refl s

theorem writeAll_commits (s : State) (e c : Nat) (l : List (Region × List Byte)) : Commits s (s.writeAll e c l) := by
  induction l generalizing s with
  | nil => exact .refl s
  | cons w r ih => exact (writeRegion_commits s e c w.1 w.2).trans (ih _)

/-- After its writes, an operation counts. -/
theorem putInPlace_notes (s : State) (o : OpEntry) : Notes (s.writeAll o.eng o.ctx o.out) (s.putInPlace o) :=
  (commitCounts_notes _ o.eng o.ctx o.job o.counts).trans (bumpAll_notes _ _ _)

theorem putInPlace_commits (s : State) (o : OpEntry) : Commits s (s.putInPlace o) :=
  (writeAll_commits s o.eng o.ctx o.out).trans (putInPlace_notes s o).commits

/-! ## Speculative operations let through (R120) -/

/-- An operation of the list is speculative no more. -/
def unspec (l : List OpEntry) (o : OpEntry) : OpEntry := if l.any (fun x => decide (x.id = o.id)) then { o with spec := false } else o

theorem unspec_id (l : List OpEntry) (o : OpEntry) : (unspec l o).id = o.id := by unfold unspec; split <;> rfl

theorem unspec_complete (l : List OpEntry) (o : OpEntry) : (unspec l o).complete = o.complete := by unfold unspec; split <;> rfl

theorem unspec_eng (l : List OpEntry) (o : OpEntry) : (unspec l o).eng = o.eng := by unfold unspec; split <;> rfl

/-- An operation that was speculative on an engine is so no more. -/
theorem unspec_spec {l : List OpEntry} {e : Nat} {y z : OpEntry} (hz : z ∈ l) (heng : z.eng = e) (hid : z.id = y.id)
    (hspec : z.spec = y.spec) : (unspec (l.filter (fun o => decide (o.eng = e) && o.spec)) y).spec = false := by
  unfold unspec
  split
  · rfl
  · next hnone =>
    by_contra hset
    refine hnone (List.any_eq_true.2 ⟨z, List.mem_filter.2 ⟨hz, ?_⟩, decide_eq_true hid⟩)
    rw [decide_eq_true heng, Bool.true_and, hspec]
    exact Bool.eq_true_of_not_eq_false hset

theorem unspec_cons (a : OpEntry) (r : List OpEntry) (o : OpEntry) :
    unspec r (if o.id = a.id then { o with spec := false } else o) = unspec (a :: r) o := by
  by_cases h : o.id = a.id
  · rw [if_pos h]
    simp only [unspec, List.any_cons, h, decide_true, Bool.true_or, if_true, ite_self]
  · rw [if_neg h]
    simp only [unspec, List.any_cons, decide_eq_false (Ne.symm h), Bool.false_or]

theorem commitSpec_leaves (s : State) (l : List OpEntry) :
    (s.commitSpec l).ops = s.ops.map (unspec l) ∧ Commits { s with ops := (s.commitSpec l).ops } (s.commitSpec l) := by
  induction l generalizing s with
  | nil => exact ⟨(List.map_id' s.ops).symm, .refl s⟩
  | cons o r ih =>
    have hplace : Commits s (if o.complete then s.putInPlace o else s) := by
      split
      · exact putInPlace_commits s o
      · exact .refl s
    have hstep : s.commitSpec (o :: r) =
        ((if o.complete then s.putInPlace o else s).modOp o.id (fun x => { x with spec := false })).commitSpec r := rfl
    rw [hstep]
    generalize (if o.complete then s.putInPlace o else s) = u at *
    obtain ⟨hops, hrest⟩ := ih (u.modOp o.id (fun x => { x with spec := false }))
    generalize (u.modOp o.id (fun x => { x with spec := false })).commitSpec r = t at *
    refine ⟨?_, fun j => (hrest.1 j).trans (hplace.1 j), hrest.2.trans ?_⟩
    · rw [hops, modOp, List.map_map, hplace.ops]
      exact List.map_congr_left fun x _ => unspec_cons o r x
    · conv_lhs => rw [modOp, hplace.2]

end Sys2Proof.Machine.State
end

