-- ==== Sys2Proof/Proofs/GatesTimingAndWaits.lean ====
section
/-! SUPPORT and O35. Gates (R119 to R121), the bounds on a task's time (R132 to R134), faults of the sequencers (R128) and waits
that end (R234, R235). -/

namespace Sys2Proof.Machine.State

/-! ## Gates (R119 to R121) -/

/-- A gate marked complete. -/
def closeGate (s : State) (g : OpEntry) : State := s.modOp g.id (fun x => { x with complete := true })

/-- An operation that an exit drops. -/
def isDropped (s : State) (e id : Nat) : Bool := (s.specOps e).any (fun o => decide (o.id = id))

/-- The task at its gate's target, without what its dropped operations held. -/
def jumped (s : State) (e : Nat) (g : OpEntry) (k : TaskRun) : TaskRun :=
  { k with next := g.gateTo.getD k.next, handles := k.handles.filter (fun x => !s.isDropped e x.1),
           checked := k.checked.filter (fun x => !s.isDropped e x.1) }

/-- A gate's exit, counted. -/
def exitCounted (s : State) (e : Nat) (g : OpEntry) : State :=
  ((s.closeGate g).bump (eOff e + 0x1C) 1).bumpIf (eOff e + 0x18) (s.specOps e).length

/-- A gate's exit taken: the speculative operations of the engine dropped, and the task at the target. -/
def exitTaken (s : State) (e : Nat) (g : OpEntry) (k : TaskRun) : State :=
  State.setEngine { s.exitCounted e g with
    ops := (s.exitCounted e g).ops.filter (fun o => !(decide (o.eng = e) && o.spec))
    empties := (s.exitCounted e g).empties.filter (fun m => !s.isDropped e m.op) } e
    { (s.exitCounted e g).engine e with task := some (s.jumped e g k) }

/-- Before `g` in its context, no operation that has yet to complete writes to `r`. -/
def predicateStable (s : State) (g : OpEntry) (r : Region) : Prop :=
  ∀ o, o ∈ s.ops → o.id ≠ g.id → o.ctx = g.ctx → before o g = true → o.complete = false → anyMeet true o.writes [r] = false

section
variable {s : State} {e : Nat} {g : OpEntry} {k : TaskRun} {r : Region} {rest : List Region}
variable (hgate : s.openGate e = some g) (htask : (s.engine e).task = some k) (hreads : g.reads = r :: rest)
variable (hrun : (s.engine e).stallFrom = none) (hstable : s.predicateStable g r)
include hgate htask hreads hrun hstable

/-- A gate whose predicate stands: its exit where the predicate is not zero, else the operations after it. -/
theorem gateResolveEff_stable : s.gateResolveEff e =
    if leNat (readBytes (s.engine e).tile r.addr 4) ≠ 0 then (s.exitTaken e g k).syncWaits
    else (((s.closeGate g).bump (eOff e + 0x20) 1).commitSpec (s.specOps e)).syncWaits := by
  have hnone : ¬ (s.ops.any (fun o =>
      decide (o.id ≠ g.id) && decide (o.ctx = g.ctx) && before o g && !o.complete && anyMeet true o.writes [r]) = true) := by
    intro h
    obtain ⟨o, ho, h⟩ := List.any_eq_true.1 h
    simp only [Bool.and_eq_true, decide_eq_true_eq, Bool.not_eq_true'] at h
    obtain ⟨⟨⟨⟨hid, hctx⟩, hbefore⟩, hopen⟩, hmeet⟩ := h
    exact Bool.false_ne_true ((hstable o ho hid hctx hbefore hopen).symm.trans hmeet)
  unfold gateResolveEff
  rw [hgate, htask]
  dsimp only
  rw [hreads]
  dsimp only
  rw [if_neg hnone, countStall_running hrun]
  rfl

end

/-- What a closed gate leaves of the table. -/
theorem mem_closeGate {s : State} {g x : OpEntry} (h : x ∈ (s.closeGate g).ops) : x.id = g.id → x.complete = true := by
  intro hid
  obtain ⟨y, -, rfl⟩ := List.mem_map.1 h
  by_cases hy : y.id = g.id
  · rw [if_pos hy]
  · rw [if_neg hy] at hid
    exact absurd hid hy

theorem closeGate_origin {s : State} {g x : OpEntry} (h : x ∈ (s.closeGate g).ops) :
    ∃ y, y ∈ s.ops ∧ y.eng = x.eng ∧ y.id = x.id ∧ y.spec = x.spec := by
  obtain ⟨y, hy, rfl⟩ := List.mem_map.1 h
  refine ⟨y, hy, ?_⟩
  split <;> exact ⟨rfl, rfl, rfl⟩

theorem mem_closeGate_of_ne {s : State} {g x : OpEntry} (hx : x ∈ s.ops) (hne : x.id ≠ g.id) : x ∈ (s.closeGate g).ops :=
  List.mem_map.2 ⟨x, hx, if_neg hne⟩

section
variable {s : State} (e : Nat) (g : OpEntry) (k : TaskRun)

theorem exitCounted_frame : ∃ c, s.exitCounted e g = { s.closeGate g with counters := c } := by
  obtain ⟨c, hc⟩ := bumpIf_frame ((s.closeGate g).bump (eOff e + 0x1C) 1) (eOff e + 0x18) (s.specOps e).length
  exact ⟨c, hc⟩

theorem exitTaken_ops : (s.exitTaken e g k).ops = (s.closeGate g).ops.filter (fun o => !(decide (o.eng = e) && o.spec)) := by
  obtain ⟨c, hc⟩ := exitCounted_frame (s := s) e g
  rw [exitTaken, hc]
  rfl

theorem exitTaken_engine : (s.exitTaken e g k).engine e = { s.engine e with task := some (s.jumped e g k) } := by
  obtain ⟨c, hc⟩ := exitCounted_frame (s := s) e g
  rw [exitTaken, engine_setEngine_same, hc]
  rfl

theorem exitTaken_engine_other {j : Nat} (h : j ≠ e) : (s.exitTaken e g k).engine j = s.engine j := by
  obtain ⟨c, hc⟩ := exitCounted_frame (s := s) e g
  rw [exitTaken, engine_setEngine_other _ _ h, hc]
  rfl

theorem exitTaken_exits : (s.exitTaken e g k).counter (eOff e + 0x1C) = satAdd (s.counter (eOff e + 0x1C)) 1 := by
  have hkept := bumpIf_other ((s.closeGate g).bump (eOff e + 0x1C) 1) (s.specOps e).length
    (by omega : eOff e + 0x1C ≠ eOff e + 0x18)
  exact hkept.trans (bump_same (s.closeGate g) (eOff e + 0x1C) 1)

theorem exitTaken_drops : (s.exitTaken e g k).counter (eOff e + 0x18) =
    satAdd (s.counter (eOff e + 0x18)) (s.specOps e).length := by
  have hadded := bumpIf_same ((s.closeGate g).bump (eOff e + 0x1C) 1) (eOff e + 0x18) (s.specOps e).length
  rw [bump_other (s.closeGate g) (eOff e + 0x1C) 1 (eOff e + 0x18) (by omega)] at hadded
  exact hadded

theorem exitTaken_frame : s.exitTaken e g k = { s with
    ops := (s.exitTaken e g k).ops, engines := (s.exitTaken e g k).engines, empties := (s.exitTaken e g k).empties,
    counters := (s.exitTaken e g k).counters } := by
  obtain ⟨c, hc⟩ := exitCounted_frame (s := s) e g
  rw [exitTaken, hc]
  rfl

end

section
variable {s : State} {e : Fin 6} {g : OpEntry} {k : TaskRun} {r : Region} {rest : List Region}
variable (hgate : s.openGate e = some g) (htask : (s.engine e).task = some k) (hreads : g.reads = r :: rest)
variable (hrun : (s.engine e).stallFrom = none) (hstable : s.predicateStable g r)
include hgate htask hreads hrun hstable

theorem gateResolve_exit (hset : leNat (readBytes (s.engine e).tile r.addr 4) ≠ 0) :
    ∃ t, exec (.gateResolve e) s = .next t ∧
      (∃ hs ch, unwaited (t.engine e) =
          unwaited { s.engine e with task := some { k with next := g.gateTo.getD k.next, handles := hs, checked := ch } } ∧
        (∀ x, x ∈ hs → x ∈ k.handles) ∧ (∀ x, x ∈ ch → x ∈ k.checked)) ∧
      (∀ x, x ∈ t.ops → x.eng = e.val → x.spec = false) ∧
      (∀ x, x ∈ t.ops → x.id = g.id → x.complete = true) ∧
      (∀ x, x ∈ s.ops → x.id ≠ g.id → (x.eng ≠ e.val ∨ x.spec = false) → x ∈ t.ops) ∧
      t.counter (eOff e + 0x1C) = satAdd (s.counter (eOff e + 0x1C)) 1 ∧
      t.counter (eOff e + 0x18) =
        satAdd (s.counter (eOff e + 0x18)) (s.ops.filter (fun o => decide (o.eng = e.val) && o.spec)).length ∧
      (∀ j, j ≠ e.val → unwaited (t.engine j) = unwaited (s.engine j)) ∧
      t = { s with ops := t.ops, engines := t.engines, empties := t.empties, counters := t.counters } := by
  have heff := gateResolveEff_stable hgate htask hreads hrun hstable
  rw [if_pos hset] at heff
  have hops := exitTaken_ops (s := s) e g k
  have hexits := exitTaken_exits (s := s) e g k
  have hdrops := exitTaken_drops (s := s) e g k
  have hengine := exitTaken_engine (s := s) e g k
  have hothers {j : Nat} (h : j ≠ e.val) := exitTaken_engine_other (s := s) e g k h
  have hframe := exitTaken_frame (s := s) e g k
  generalize s.exitTaken e g k = u at *
  obtain ⟨hsync, hwaits⟩ := syncWaits_waits u
  generalize u.syncWaits = t at *
  have hsame : t.ops = u.ops := (congrArg State.ops hsync :)
  have hcounters (a : Nat) : t.counter a = u.counter a := (congrArg (State.counter · a) hsync :)
  refine ⟨t, congrArg Host.Outcome.next heff,
    ⟨k.handles.filter (fun x => !s.isDropped e x.1), k.checked.filter (fun x => !s.isDropped e x.1), ?_,
      fun x hx => (List.mem_filter.1 hx).1, fun x hx => (List.mem_filter.1 hx).1⟩,
    fun x hx heng => ?_, fun x hx => ?_, fun x hx hne hkeep => ?_, (hcounters _).trans hexits, (hcounters _).trans hdrops,
    fun j hj => (hwaits j).trans (congrArg unwaited (hothers hj)), ?_⟩
  · rw [hwaits, hengine]
    rfl
  · rw [hsame, hops] at hx
    have hkept := (List.mem_filter.1 hx).2
    simpa [heng] using hkept
  · rw [hsame, hops] at hx
    exact mem_closeGate (List.mem_filter.1 hx).1
  · rw [hsame, hops]
    refine List.mem_filter.2 ⟨mem_closeGate_of_ne hx hne, ?_⟩
    rcases hkeep with h | h
    · rw [decide_eq_false h, Bool.false_and, Bool.not_false]
    · rw [h, Bool.and_false, Bool.not_false]
  · rw [hsync]
    conv_lhs => rw [hframe]

/-- Where the predicate is zero and no operation of the engine is speculative. -/
theorem gateResolve_alone (hzero : leNat (readBytes (s.engine e).tile r.addr 4) = 0)
    (hplain : ∀ o, o ∈ s.ops → o.eng = e.val → o.spec = false) :
    ∃ t, exec (.gateResolve e) s = .next t ∧ (∀ x, x ∈ t.ops → x.id = g.id → x.complete = true) ∧
      t.counter (eOff e + 0x20) = satAdd (s.counter (eOff e + 0x20)) 1 ∧
      (∀ j, unwaited (t.engine j) = unwaited (s.engine j)) ∧
      t = { s with ops := t.ops, engines := t.engines, counters := t.counters } := by
  have hnone : s.specOps e = [] := List.filter_eq_nil_iff.2 fun o ho hspec => by
    obtain ⟨heng, hspec⟩ := Bool.and_eq_true_iff.1 hspec
    exact Bool.false_ne_true ((hplain o ho (of_decide_eq_true heng)).symm.trans hspec)
  have heff := gateResolveEff_stable hgate htask hreads hrun hstable
  rw [if_neg (not_not.2 hzero), hnone, commitSpec] at heff
  obtain ⟨hsync, hwaits⟩ := syncWaits_waits ((s.closeGate g).bump (eOff e + 0x20) 1)
  generalize ((s.closeGate g).bump (eOff e + 0x20) 1).syncWaits = t at *
  refine ⟨t, congrArg Host.Outcome.next heff, fun x hx => ?_, ?_, hwaits, ?_⟩
  · rw [hsync] at hx
    exact mem_closeGate hx
  · rw [hsync]
    exact bump_same (s.closeGate g) (eOff e + 0x20) 1
  · rw [hsync]
    rfl

/-- Where the predicate is zero, the speculative operations are let through. -/
theorem gateResolve_onwards (hzero : leNat (readBytes (s.engine e).tile r.addr 4) = 0) :
    ∃ t, exec (.gateResolve e) s = .next t ∧ (∀ x, x ∈ t.ops → x.id = g.id → x.complete = true) ∧
      (∀ x, x ∈ t.ops → x.eng = e.val → x.spec = false) ∧ t.ops.map (·.id) = s.ops.map (·.id) ∧
      (∀ j, (t.engine j).task.map TaskRun.unwaited = (s.engine j).task.map TaskRun.unwaited) ∧
      t = { s with ops := t.ops, engines := t.engines, bonded := t.bonded, pool := t.pool, ecc := t.ecc, ctxs := t.ctxs,
                   counters := t.counters, log := t.log } := by
  have heff := gateResolveEff_stable hgate htask hreads hrun hstable
  rw [if_neg (not_not.2 hzero)] at heff
  obtain ⟨hops, hcommits⟩ := commitSpec_leaves ((s.closeGate g).bump (eOff e + 0x20) 1) (s.specOps e)
  generalize ((s.closeGate g).bump (eOff e + 0x20) 1).commitSpec (s.specOps e) = u at *
  obtain ⟨hsync, hwaits⟩ := syncWaits_waits u
  generalize u.syncWaits = t at *
  have hsame : t.ops = (s.closeGate g).ops.map (unspec (s.specOps e)) := (congrArg State.ops hsync :).trans hops
  have hids (x : OpEntry) : (if x.id = g.id then { x with complete := true } else x).id = x.id := by split <;> rfl
  refine ⟨_, congrArg Host.Outcome.next heff, fun x hx hid => ?_, fun x hx heng => ?_, ?_, fun j => ?_, ?_⟩
  · rw [hsame] at hx
    obtain ⟨y, hy, rfl⟩ := List.mem_map.1 hx
    rw [unspec_complete]
    exact mem_closeGate hy ((unspec_id _ y).symm.trans hid)
  · rw [hsame] at hx
    obtain ⟨y, hy, rfl⟩ := List.mem_map.1 hx
    rw [unspec_eng] at heng
    obtain ⟨z, hz, hzeng, hzid, hzspec⟩ := closeGate_origin hy
    exact unspec_spec hz (hzeng.trans heng) hzid hzspec
  · rw [hsame, List.map_map, closeGate, modOp, List.map_map]
    exact List.map_congr_left fun x _ => (unspec_id _ _).trans (hids x)
  · exact (congrArg Engine.task (hwaits j)).trans (congrArg (Option.map TaskRun.unwaited) (hcommits.1 j))
  · rw [hsync]
    conv_lhs => rw [hcommits.2]
    rfl

end

/-! ## States whose engines are those of a state with one engine set -/

theorem engine_same_of_engines {s t : State} {e : Nat} {x : Engine} (h : t.engines = (s.setEngine e x).engines) : t.engine e = x := by
  rw [engine, h]
  exact engine_setEngine_same s e x

theorem engine_other_of_engines {s t : State} {e j : Nat} {x : Engine} (h : t.engines = (s.setEngine e x).engines) (hj : j ≠ e) :
    t.engine j = s.engine j := by
  rw [engine, h]
  exact engine_setEngine_other s x hj

/-! ## The bounds on a task's time (R132 to R134) -/

section
variable {s : State} {e : Fin 6} {k : TaskRun}

theorem deliveryExcursion_counts (stall : Nat) (htask : (s.engine e).task = some k) (hfixed : s.flag (eOff e) 4 = true) :
    ∃ t, exec (.deliveryExcursion e stall) s = .next t ∧ t.engine e = { s.engine e with task := some { k with excursion := true } } ∧
      t.counter (eOff e + 0x28) = satAdd (s.counter (eOff e + 0x28)) 1 ∧ t.lastCode (eOff e + 4) = 0x4601#16 ∧
      (∀ j, j ≠ e.val → t.engine j = s.engine j) ∧ t = { s with engines := t.engines, counters := t.counters, log := t.log } := by
  have heff : s.deliveryExcursionEff e stall =
      ((s.setEngine e { s.engine e with task := some { k with excursion := true } }).bump (eOff e + 0x28) 1).raise 0x4601#16 0x05 e := by
    unfold deliveryExcursionEff
    dsimp only
    rw [htask]
    exact if_pos hfixed
  refine ⟨_, congrArg Host.Outcome.next heff, engine_same_of_engines rfl, bump_same (s.setEngine e _) _ _, ?_,
    fun j hj => engine_other_of_engines rfl hj, rfl⟩
  rw [lastCode_raise, if_pos (engStat_mem e.isLt _)]

theorem deliveryExcursion_variableClock (stall : Nat) (hvariable : s.flag (eOff e) 4 = false) :
    exec (.deliveryExcursion e stall) s = .next s := by
  refine congrArg Host.Outcome.next ?_
  unfold deliveryExcursionEff
  dsimp only
  split
  · rfl
  · exact if_neg (by rw [hvariable]; exact Bool.false_ne_true)

theorem taskCycles_of_start {a : Nat} (hstart : k.startAt = some a) : s.taskCycles e k = s.engCycles e (s.now - a) := by
  unfold taskCycles
  rw [hstart]

theorem taskOverBound_noted (htask : (s.engine e).task = some k) (hnoted : k.overBound = true) :
    exec (.taskOverBound e) s = .next s := by
  refine congrArg Host.Outcome.next ?_
  unfold taskOverBoundEff
  dsimp only
  rw [htask]
  exact if_pos (.inl hnoted)

/-- A task is counted over its bound once. -/
theorem taskOverBound_counts {a : Nat} (htask : (s.engine e).task = some k) (hnew : k.overBound = false)
    (hstart : k.startAt = some a) (hover : 240000 ≤ s.engCycles e (s.now - a)) :
    ∃ t, exec (.taskOverBound e) s = .next t ∧ t.engine e = { s.engine e with task := some { k with overBound := true } } ∧
      t.counter (eOff e + 0x34) = satAdd (s.counter (eOff e + 0x34)) 1 ∧
      (∀ j, j ≠ e.val → t.engine j = s.engine j) ∧ t = { s with engines := t.engines, counters := t.counters } ∧
      exec (.taskOverBound e) t = .next t := by
  have heff : s.taskOverBoundEff e =
      (s.setEngine e { s.engine e with task := some { k with overBound := true } }).bump (eOff e + 0x34) 1 := by
    unfold taskOverBoundEff
    dsimp only
    rw [htask]
    refine if_neg ?_
    rw [taskCycles_of_start hstart, hnew]
    rintro (h | h)
    · exact Bool.false_ne_true h
    · exact absurd hover (Nat.not_le.2 h)
  have hengine : ((s.setEngine e { s.engine e with task := some { k with overBound := true } }).bump (eOff e + 0x34) 1).engine e =
      { s.engine e with task := some { k with overBound := true } } := engine_same_of_engines rfl
  exact ⟨_, congrArg Host.Outcome.next heff, hengine, bump_same (s.setEngine e _) _ _,
    fun j hj => engine_other_of_engines rfl hj, rfl, taskOverBound_noted (congrArg Engine.task hengine) rfl⟩

/-! ## Resets of an engine, ordered (R128, R134) -/

/-- A reset that nothing in progress takes in, ordered where no other is. -/
theorem order_first {x : Scope} (hfree : s.absorbed_ x = false) (hnone : s.vig.orders = []) (counted : Bool) :
    s.order x counted = { s with vig := { s.vig with orders := [(x, counted)] } } := by
  unfold order
  rw [hfree, hnone]
  exact if_neg (by simp)

theorem sequencerFault_orders (hrun : s.freeze = false) (hfree : s.absorbed_ (.engine e) = false) (hnone : s.vig.orders = []) :
    ∃ t, exec (.sequencerFault e) s = .next t ∧ t.lastCode (eOff e + 4) = 0x5601#16 ∧
      t.vig = { s.vig with orders := [(.engine e, true)] } ∧ t = { s with log := t.log, vig := t.vig } := by
  have heff : s.sequencerFaultEff e =
      { s.raise 0x5601#16 0x05 e with vig := { s.vig with orders := [(.engine e, true)] } } :=
    (detect_unfrozen (s := s.raise 0x5601#16 0x05 e) hrun _).trans (order_first (s := s.raise 0x5601#16 0x05 e) hfree hnone true)
  refine ⟨_, congrArg Host.Outcome.next heff, ?_, rfl, rfl⟩
  exact (lastCode_raise s _ _ _ _ _ _).trans (if_pos (engStat_mem e.isLt _))

/-- A hung task, noted and told. -/
def hangTold (s : State) (e : Fin 6) (k : TaskRun) : State :=
  (s.setEngine e { s.engine e with task := some { k with hungPosted := true } }).raise 0x4602#16 0x05 e

theorem hangTold_leaves (s : State) (e : Fin 6) (k : TaskRun) :
    (s.hangTold e k).engine e = { s.engine e with task := some { k with hungPosted := true } } ∧
    (∀ j, j ≠ e.val → (s.hangTold e k).engine j = s.engine j) ∧ (s.hangTold e k).lastCode (eOff e + 4) = 0x4602#16 ∧
    s.hangTold e k = { s with engines := (s.hangTold e k).engines, log := (s.hangTold e k).log } :=
  ⟨engine_same_of_engines rfl, fun _ hj => engine_other_of_engines rfl hj,
    (lastCode_raise _ _ _ _ _ _ _).trans (if_pos (engStat_mem e.isLt _)), rfl⟩

/-- A note on its task leaves what takes in an engine's reset. -/
theorem hangTold_absorbed : (s.hangTold e k).absorbed_ (.engine e) = s.absorbed_ (.engine e) := by
  simp only [absorbed_, (hangTold_leaves s e k).1]
  rfl

theorem taskHung_orders {a : Nat} (htask : (s.engine e).task = some k) (hnew : k.hungPosted = false) (hstart : k.startAt = some a)
    (hover : 480000 + s.engCycles e (s.waitedNs e k) ≤ s.engCycles e (s.now - a)) (hrun : s.freeze = false)
    (hfree : s.absorbed_ (.engine e) = false) (hnone : s.vig.orders = []) :
    ∃ t, exec (.taskHung e) s = .next t ∧ t.engine e = { s.engine e with task := some { k with hungPosted := true } } ∧
      t.lastCode (eOff e + 4) = 0x4602#16 ∧ t.vig = { s.vig with orders := [(.engine e, true)] } ∧
      (∀ j, j ≠ e.val → t.engine j = s.engine j) ∧ t = { s with engines := t.engines, log := t.log, vig := t.vig } := by
  have htold : s.taskHungEff e = ((s.hangTold e k).detect (.engine e)).fence e := by
    unfold taskHungEff hangTold
    dsimp only
    rw [htask]
    refine if_neg ?_
    rw [taskCycles_of_start hstart, hnew]
    rintro (h | h)
    · exact Bool.false_ne_true h
    · exact absurd hover (Nat.not_le.2 h)
  obtain ⟨hengine, hothers, hcode, hframe⟩ := hangTold_leaves s e k
  have hfreeze : (s.hangTold e k).freeze = false := by rw [hframe]; exact hrun
  have horders : (s.hangTold e k).vig = s.vig := by rw [hframe]
  have habsorbed := (hangTold_absorbed (k := k)).trans hfree
  generalize s.hangTold e k = u at *
  have heff : s.taskHungEff e = { u with vig := { s.vig with orders := [(.engine e, true)] } } := by
    rw [htold, detect_unfrozen hfreeze, fence_unfrozen (by rw [order_first habsorbed (horders ▸ hnone)]; exact hfreeze),
      order_first habsorbed (horders ▸ hnone), horders]
  refine ⟨_, congrArg Host.Outcome.next heff, hengine, hcode, rfl, hothers, ?_⟩
  conv_lhs => rw [hframe]

/-! ## Waits that end (R234, R235) -/

/-- A tensor block wait that has met its block, with what it read. -/
def meetsBlock (d : List Byte) (x : OpEntry) : OpEntry :=
  { x with met := true, out := match x.writes with | [] => [] | w :: _ => [(w, d)] }

theorem waitBlockPoll_meets {o : OpEntry} {b : Nat} {r : Region} {rest : List Region} {d : List Byte}
    (hopen : s.openWaitBlock e = some o) (hblock : o.block = some b) (hreads : o.reads = r :: rest)
    (hread : s.readRegion e o.ctx (s.taskRecipe o.ctx o.job) r = some d) (hindex : headerIndex d = b) :
    ∃ t, exec (.waitBlockPoll e) s = .next t ∧ t.ops = s.ops.map (fun x => if x.id = o.id then meetsBlock d x else x) ∧
      (∀ j, unwaited (t.engine j) = unwaited (s.engine j)) ∧ t = { s with ops := t.ops, engines := t.engines } := by
  have heff : ∃ u, Waits s u ∧ s.waitBlockPollEff e = u.modOp o.id (meetsBlock d) := by
    unfold waitBlockPollEff
    rw [hopen]
    dsimp only
    rw [hblock, hreads]
    dsimp only
    rw [hread, Option.getD_some, if_pos hindex]
    split
    · exact ⟨s, .refl s, rfl⟩
    · next t ht =>
      exact ⟨s.setEngine e { s.engine e with task := some { t with waited := t.waited + (s.now - o.at_) } }, setEngine_waits ht rfl, rfl⟩
  obtain ⟨u, ⟨hframe, hwaits⟩, heff⟩ := heff
  have hmod : u.modOp o.id (meetsBlock d) =
      { s with ops := s.ops.map (fun x => if x.id = o.id then meetsBlock d x else x), engines := u.engines } := by
    rw [modOp]
    conv_lhs => rw [hframe]
  exact ⟨_, congrArg Host.Outcome.next (heff.trans hmod), rfl, hwaits, rfl⟩

end

/-- A task fails with its first code, and loses its operations. -/
theorem failTask_first {s : State} {e : Nat} {k : TaskRun} (htask : (s.engine e).task = some k) (hfirst : k.fail = 0)
    (code : Half) (idx : Nat) : s.failTask e code idx =
      State.setEngine { s with ops := s.ops.filter (fun o => !ofTask o e k) } e
        { s.engine e with task := some { k with fail := code, failOp := idx } } := by
  unfold failTask
  dsimp only
  rw [htask]
  exact if_neg (not_not.2 hfirst)

/-- The oldest open WAIT of a context. -/
def openWait (s : State) (c : Nat) : Option OpEntry :=
  s.ops.find? (fun o => decide (o.ctx = c) && decide (o.cls = .wait) && !o.complete)

/-- A WAIT past its time, counted and told. -/
def timeoutTold (s : State) (o : OpEntry) (c : Nat) : State :=
  (s.bump (eOff o.eng + 0x64) 1).raise 0x4B01#16 0x05 o.eng 1 (leBytes 2 c)

theorem waitTimeout_fails {s : State} {c : Fin 64} {o : OpEntry} {lim : Nat} {k : TaskRun} (hopen : s.openWait c = some o)
    (hlim : o.until_ = some lim) (hpast : lim ≤ s.now) (hunmet : s.waitMet o = false) (heng : o.eng < 6)
    (htask : (s.engine o.eng).task = some k) (hfirst : k.fail = 0) :
    ∃ u : State, exec (.waitTimeout c) s = .next (u.taskCheck o.eng).syncWaits ∧ u.lastCode (eOff o.eng + 4) = 0x4B01#16 ∧
      u.counter (eOff o.eng + 0x64) = satAdd (s.counter (eOff o.eng + 0x64)) 1 ∧
      u.engine o.eng = { s.engine o.eng with task := some { k with fail := 0x4B01#16, failOp := o.idx } } ∧
      (∀ x, x ∈ u.ops ↔ x ∈ s.ops ∧ ofTask x o.eng k = false) ∧
      (∀ j, j ≠ o.eng → u.engine j = s.engine j) ∧
      u = { s with ops := u.ops, engines := u.engines, counters := u.counters, log := u.log } := by
  have heff : s.waitTimeoutEff c = (((s.timeoutTold o c).failTask o.eng 0x4B01#16 o.idx).taskCheck o.eng).syncWaits := by
    unfold waitTimeoutEff
    rw [show s.ops.find? _ = some o from hopen]
    dsimp only
    rw [hlim]
    refine if_neg ?_
    rintro (h | h)
    · exact absurd hpast (Nat.not_le.2 h)
    · exact Bool.false_ne_true (hunmet.symm.trans h)
  rw [failTask_first (s := s.timeoutTold o c) htask hfirst] at heff
  refine ⟨_, congrArg Host.Outcome.next heff, ?_, bump_same s _ _, engine_same_of_engines rfl, fun x => ?_,
    fun j hj => engine_other_of_engines rfl hj, rfl⟩
  · exact (lastCode_raise _ _ _ _ _ _ _).trans (if_pos (engStat_mem heng _))
  · exact List.mem_filter.trans (and_congr Iff.rfl (iff_of_eq (Bool.not_eq_true' _)))

end Sys2Proof.Machine.State

open Sys2Proof Sys2Proof.Machine Sys2Proof.Machine.State in
/-- Settles O35: a gate resolves by the state of its predicate's bytes, once nothing before it writes them; the bounds on a
task's time count or order the engine's reset; a wait ends with its block, or fails its task past its time. -/
theorem gatesTimingAndWaits : Obligations.GatesTimingAndWaits := by
  unfold Obligations.GatesTimingAndWaits
  refine ⟨fun s e g k r rest hgate htask hreads hrun hstable =>
      ⟨gateResolve_exit hgate htask hreads hrun hstable, gateResolve_alone hgate htask hreads hrun hstable,
        gateResolve_onwards hgate htask hreads hrun hstable⟩,
    fun s e stall k htask hfixed => deliveryExcursion_counts stall htask hfixed,
    fun s e stall hvariable => deliveryExcursion_variableClock stall hvariable,
    fun s e k a htask hnew hstart hover => taskOverBound_counts htask hnew hstart hover,
    fun s e k a htask hnew hstart hover hrun hfree hnone => taskHung_orders htask hnew hstart hover hrun hfree hnone,
    fun s e hrun hfree hnone => sequencerFault_orders hrun hfree hnone,
    fun s e o b r rest d hopen hblock hreads hread hindex => waitBlockPoll_meets hopen hblock hreads hread hindex,
    fun s c o lim k hopen hlim hpast hunmet heng htask hfirst => waitTimeout_fails hopen hlim hpast hunmet heng htask hfirst⟩

end

