-- ==== Sys2Proof/Proofs/TaskPlacement.lean ====
section
/-! SUPPORT. The placement of a task on an engine (R115, R325): its job's count, the running digest and the parameters of the
first task (R238), and the recipe's resident regions in the tile store (R114). -/

namespace Sys2Proof.Machine.State

/-- From `s` to `t` no more changes than a context, an engine's tile store and the pool. -/
def Prepares (s t : State) (e c : Nat) : Prop :=
  (∃ m, t.engine e = { s.engine e with tile := m }) ∧ (∀ j, j ≠ e → t.engine j = s.engine j) ∧
    (∀ d, d ≠ c → t.ctx d = s.ctx d) ∧ t = { s with engines := t.engines, ctxs := t.ctxs, pool := t.pool }

variable {s t u : State} {e c : Nat}

theorem Prepares.refl (s : State) (e c : Nat) : Prepares s s e c := ⟨⟨_, rfl⟩, fun _ _ => rfl, fun _ _ => rfl, rfl⟩

theorem Prepares.trans (h : Prepares s t e c) (h' : Prepares t u e c) : Prepares s u e c := by
  obtain ⟨⟨m, hm⟩, hothers, hctxs, hframe⟩ := h
  obtain ⟨⟨m', hm'⟩, hothers', hctxs', hframe'⟩ := h'
  refine ⟨⟨m', hm'.trans ?_⟩, fun j hj => (hothers' j hj).trans (hothers j hj), fun d hd => (hctxs' d hd).trans (hctxs d hd),
    hframe'.trans ?_⟩
  · rw [hm]
  · conv_lhs => rw [hframe]

theorem modCtx_other (s : State) (f : Ctx → Ctx) {d : Nat} (h : d ≠ c) : (s.modCtx c f).ctx d = s.ctx d := by
  unfold modCtx
  split
  · rfl
  · exact ctx_setCtx_other s _ h

theorem modCtx_prepares (s : State) (e c : Nat) (f : Ctx → Ctx) : Prepares s (s.modCtx c f) e c := by
  have hframe := modCtx_frame s c f
  have hothers {d : Nat} (h : d ≠ c) := modCtx_other s f h
  generalize s.modCtx c f = t at *
  have hengines (j : Nat) : t.engine j = s.engine j := (congrArg (State.engine · j) hframe :)
  refine ⟨⟨(s.engine e).tile, hengines e⟩, fun j _ => hengines j, fun d hd => hothers hd, ?_⟩
  rw [hframe]

theorem writeParams_prepares (s : State) (e c job : Nat) : Prepares s (s.writeParams c job) e c := by
  unfold writeParams
  split
  · exact .refl s e c
  · split
    · exact .refl s e c
    · split
      · exact .refl s e c
      · exact ⟨⟨_, rfl⟩, fun _ _ => rfl, fun _ _ => rfl, rfl⟩

theorem loadResident_prepares (s : State) (e c key code : Nat) : Prepares s (s.loadResident e key code) e c := by
  unfold loadResident
  split
  · exact .refl s e c
  · exact ⟨⟨_, engine_setEngine_same ..⟩, fun _ hj => engine_setEngine_other s _ hj, fun _ _ => rfl, rfl⟩

/-- The first task of a job clears the running digest, and its parameters reach the pool (R238, R348). -/
theorem clearDigest_prepares (s : State) (e c job : Nat) (first : Bool) :
    Prepares s (if first then (s.modCtx c (fun x => { x with dig := {} })).writeParams c job else s) e c := by
  split
  · exact (modCtx_prepares s e c _).trans (writeParams_prepares _ e c job)
  · exact .refl s e c

theorem displace_free (h : (s.engine e).task = none) : s.displace e = s := by
  unfold displace
  dsimp only
  rw [h]

/-- A task placed on an engine that holds none: what prepares it, then the task. -/
theorem place_prepares {r : TaskRun} (htask : (s.engine e).task = none) (hnext : s.nextTask c = some r) :
    ∃ u, Prepares s u e c ∧
      s.place e c = (u.setEngine e { u.engine e with task := some r, clkMHz := u.variableMHz }).syncCtx c := by
  unfold place
  rw [hnext]
  dsimp only
  rw [displace_free htask]
  refine ⟨_, ?_, rfl⟩
  split
  · exact (modCtx_prepares s e c _).trans (clearDigest_prepares _ e c r.job _)
  · exact ((modCtx_prepares s e c _).trans (clearDigest_prepares _ e c r.job _)).trans (loadResident_prepares _ e c _ _)

theorem place_free {r : TaskRun} (htask : (s.engine e).task = none) (hnext : s.nextTask c = some r) :
    ∃ u m, Prepares s u e c ∧
      s.place e c = (u.setEngine e { s.engine e with task := some r, clkMHz := s.variableMHz, tile := m }).syncCtx c := by
  obtain ⟨u, ⟨⟨m, hm⟩, hothers, hctxs, hframe⟩, hplace⟩ := place_prepares htask hnext
  have hclk : u.variableMHz = s.variableMHz := by rw [hframe]; rfl
  refine ⟨u, m, ⟨⟨m, hm⟩, hothers, hctxs, hframe⟩, ?_⟩
  rw [hplace, hclk, hm]

theorem taskPlaceEff_first {p : Nat} {rest : List Nat} {x : Ctx} (hserves : s.vig.outOfService = false)
    (htries : (s.polderEngines p).filter s.engineFree = e :: rest)
    (hfirst : firstCtx (s.allCtxs.filter (fun y => s.offers p e y.1 y.2)) = some (c, x)) : s.taskPlaceEff p = s.place e c := by
  unfold taskPlaceEff
  rw [if_neg (by rw [hserves]; exact Bool.false_ne_true)]
  dsimp only
  rw [htries, taskPlaceEff.go, hfirst]

theorem taskPlace_places {p : Fin 6} {rest : List Nat} {x : Ctx} {r : TaskRun} (hserves : s.serves = true)
    (hservice : s.vig.outOfService = false) (htries : (s.polderEngines p).filter s.engineFree = e :: rest)
    (htask : (s.engine e).task = none) (hfirst : firstCtx (s.allCtxs.filter (fun y => s.offers p e y.1 y.2)) = some (c, x))
    (hnext : s.nextTask c = some r) :
    ∃ t, exec (.taskPlace p) s = .next t ∧
      t.engine e = { s.engine e with task := some r, clkMHz := s.variableMHz, tile := (t.engine e).tile } ∧
      (∀ j, j ≠ e → t.engine j = s.engine j) ∧ (∀ d, d ≠ c → t.ctx d = s.ctx d) ∧
      t = { s with engines := t.engines, ctxs := t.ctxs, pool := t.pool } := by
  have heff : (if s.serves then s.taskPlaceEff p else s) = s.place e c :=
    (if_pos hserves).trans (taskPlaceEff_first hservice htries hfirst)
  obtain ⟨u, m, ⟨-, hothers, hctxs, hframe⟩, hplace⟩ := place_free htask hnext
  generalize hx : { s.engine e with task := some r, clkMHz := s.variableMHz, tile := m } = x at hplace
  obtain ⟨t, ht, -, hctxs', hframe'⟩ := syncCtx_leaves (u.setEngine e x) c
  have hengines (j : Nat) : t.engine j = (u.setEngine e x).engine j := (congrArg (State.engine · j) hframe' :)
  refine ⟨t, congrArg Host.Outcome.next (heff.trans (hplace.trans ht)), ?_, fun j hj => ?_, fun d hd => ?_, ?_⟩
  · rw [hengines, engine_setEngine_same, ← hx]
  · rw [hengines, engine_setEngine_other u _ hj, hothers j hj]
  · exact (hctxs' d hd).trans (hctxs d hd)
  · rw [hframe']
    conv_lhs => rw [hframe]
    rfl

end Sys2Proof.Machine.State
end

