-- ==== Sys2Proof/Proofs/OperationsRetire.lean ====
section
/-! SUPPORT and O34. The completion of an operation (R116, R118) and its retirement, with a fault or without (R116, R118,
R238). -/

namespace Sys2Proof.Machine.State

/-! ## The entry of an operation -/

theorem id_of_op {s : State} {id : Nat} {x : OpEntry} (h : s.op id = some x) : x.id = id := by
  simpa using List.find?_some h

section
variable (s : State) {id : Nat} {f : OpEntry → OpEntry}

theorem op_modOp_same (hf : ∀ x, (f x).id = x.id) : (s.modOp id f).op id = (s.op id).map f := by
  have hcond : ((fun o : OpEntry => decide (o.id = id)) ∘ fun o => if o.id = id then f o else o) = fun o => decide (o.id = id) := by
    funext x
    by_cases h : x.id = id <;> simp [h, hf]
  rw [op, op, modOp, List.find?_map, hcond]
  exact Option.map_congr fun x hx => if_pos (id_of_op hx)

theorem op_modOp_other (hf : ∀ x, (f x).id = x.id) {j : Nat} (hj : j ≠ id) : (s.modOp id f).op j = s.op j := by
  have hcond : ((fun o : OpEntry => decide (o.id = j)) ∘ fun o => if o.id = id then f o else o) = fun o => decide (o.id = j) := by
    funext x
    by_cases h : x.id = id <;> simp [h, hf]
  rw [op, op, modOp, List.find?_map, hcond]
  exact (Option.map_congr fun x hx => if_neg (by rw [id_of_op hx]; exact hj)).trans Option.map_id'

end

/-! ## Completing (R116, R118) -/

theorem Commits.withOps {s t : State} (h : Commits s t) (l : List OpEntry) : { t with ops := l } =
    { s with ops := l, engines := t.engines, bonded := t.bonded, pool := t.pool, ecc := t.ecc, ctxs := t.ctxs,
             counters := t.counters, log := t.log } := by
  conv_lhs => rw [h.2]

/-- The entry of an operation whose unit has finished. -/
def finished (x : OpEntry) : OpEntry := { x with complete := true, reader := none }

/-- The writes of an operation reach their places, unless it is speculative. -/
def placed (s : State) (o : OpEntry) : State := if o.spec then s else s.putInPlace o

theorem placed_commits (s : State) (o : OpEntry) : Commits s (s.placed o) := by
  unfold placed
  split
  · exact .refl s
  · exact putInPlace_commits s o

section
variable {s : State} {id : Nat} {o : OpEntry}

theorem opCompleteEff_plain (hop : s.op id = some o) (hopen : o.complete = false) (hmet : o.met = true) (hremote : o.remote = false)
    (hword : o.word = none) (hdig : o.dig = false) (hgate : o.cls ≠ .gate) :
    s.opCompleteEff id = ((s.placed o).modOp id finished).syncWaits := by
  have hwait : s.waitMet o = true := by unfold waitMet; rw [hword]
  unfold opCompleteEff
  rw [hop]
  dsimp only
  rw [if_neg (by simp [hopen, hmet, hremote, hgate, hwait]), if_neg (by rw [hdig]; exact Bool.false_ne_true)]
  rfl

theorem opComplete_exec (hop : s.op id = some o) (hsig : o.sig = none) (hcls : o.cls ≠ .culvert) :
    exec (.opComplete id) s = .next (s.opCompleteEff id) := by
  refine congrArg Host.Outcome.next ?_
  unfold completeAny
  rw [hop]
  dsimp only
  rw [hsig]
  exact if_neg hcls

/-- One write to the tile store, in place. -/
theorem placed_tile {w : Region} {b : List Byte} (hspec : o.spec = false) (hout : o.out = [(w, b)]) (hw : w.space = .tile) :
    (s.placed o).engine o.eng =
      { s.engine o.eng with tile := writeBytes (s.engine o.eng).tile w.addr (b.take w.len) } ∧
    (∀ j, j ≠ o.eng → (s.placed o).engine j = s.engine j) ∧ (s.placed o).bonded = s.bonded ∧ (s.placed o).pool = s.pool := by
  have hplaced : s.placed o = s.putInPlace o := if_neg (by rw [hspec]; exact Bool.false_ne_true)
  have hnotes := putInPlace_notes s o
  rw [hout, writeAll, writeAll, writeTile _ _ _ _ hw] at hnotes
  rw [hplaced]
  generalize s.putInPlace o = t at *
  refine ⟨(hnotes.engine _).trans (engine_same_of_engines rfl), fun j hj => (hnotes.engine j).trans (engine_other_of_engines rfl hj),
    (congrArg State.bonded hnotes :), (congrArg State.pool hnotes :)⟩

theorem opComplete_completes (hop : s.op id = some o) (hopen : o.complete = false) (hmet : o.met = true) (hremote : o.remote = false)
    (hsig : o.sig = none) (hword : o.word = none) (hdig : o.dig = false) (hgate : o.cls ≠ .gate) (hcls : o.cls ≠ .culvert) :
    ∃ t, exec (.opComplete id) s = .next t ∧ t.op id = some { o with complete := true, reader := none } ∧
      (∀ j, j ≠ id → t.op j = s.op j) ∧
      (o.spec = true → (∀ j, unwaited (t.engine j) = unwaited (s.engine j)) ∧ t = { s with ops := t.ops, engines := t.engines }) ∧
      (o.spec = false → ∀ w b, o.out = [(w, b)] → w.space = .tile →
        unwaited (t.engine o.eng) =
          unwaited { s.engine o.eng with tile := writeBytes (s.engine o.eng).tile w.addr (b.take w.len) } ∧
        (∀ j, j ≠ o.eng → unwaited (t.engine j) = unwaited (s.engine j)) ∧
        t.bonded = s.bonded ∧ t.pool = s.pool) ∧
      t = { s with ops := t.ops, engines := t.engines, bonded := t.bonded, pool := t.pool, ecc := t.ecc, ctxs := t.ctxs,
                   counters := t.counters, log := t.log } := by
  have heff := (opComplete_exec hop hsig hcls).trans
    (congrArg Host.Outcome.next (opCompleteEff_plain hop hopen hmet hremote hword hdig hgate))
  have hcommits := placed_commits s o
  have hspeculative (h : o.spec = true) : s.placed o = s := if_pos h
  have htile (hspec : o.spec = false) (w : Region) (b : List Byte) (hout : o.out = [(w, b)]) (hw : w.space = .tile) :=
    placed_tile (s := s) hspec hout hw
  generalize s.placed o = u at *
  obtain ⟨hsync, hwaits⟩ := syncWaits_waits (u.modOp id finished)
  generalize (u.modOp id finished).syncWaits = t at *
  have hops (j : Nat) : t.op j = (u.modOp id finished).op j := (congrArg (State.op · j) hsync :)
  have hkept (j : Nat) : u.op j = s.op j := congrArg (List.find? _) hcommits.ops
  refine ⟨t, heff, ?_, fun j hj => ?_, fun h => ⟨fun j => ?_, ?_⟩, fun hspec w b hout hw => ?_, ?_⟩
  · rw [hops, op_modOp_same u (f := finished) fun _ => rfl, hkept, hop]
    rfl
  · rw [hops, op_modOp_other u (f := finished) (fun _ => rfl) hj, hkept]
  · rw [← hspeculative h]
    exact hwaits j
  · rw [← hspeculative h]
    exact hsync.trans (by rw [hsync]; rfl)
  · obtain ⟨hengine, hothers, hbonded, hpool⟩ := htile hspec w b hout hw
    exact ⟨(hwaits _).trans (congrArg unwaited hengine), fun j hj => (hwaits j).trans (congrArg unwaited (hothers j hj)),
      (congrArg State.bonded hsync :).trans hbonded, (congrArg State.pool hsync :).trans hpool⟩
  · rw [hsync, modOp, hcommits.withOps]

/-- A completion of an operation that is neither in the table nor awaited late. -/
theorem opComplete_unknown (hop : s.op id = none) (hlate : ∀ e, e < 6 → (s.engine e).late.contains id = false) :
    exec (.opComplete id) s = .next s := by
  refine congrArg Host.Outcome.next ?_
  have hnone : (List.range 6).find? (fun e => (s.engine e).late.contains id) = none :=
    List.find?_eq_none.2 fun e he h => Bool.false_ne_true ((hlate e (List.mem_range.1 he)).symm.trans h)
  unfold completeAny
  rw [hop]
  dsimp only
  rw [dropReply, hnone]

end

/-! ## Retiring (R116, R118, R238) -/

/-- An operation taken out of the table and counted, its context's digest kept as it stood before its task. -/
def takenOut (s : State) (id : Nat) (o : OpEntry) : State :=
  (((s.dropOp id).snapDigest o).bump (eOff o.eng + 0x10) 1).modJob o.ctx o.job (fun j => { j with opsRetired := j.opsRetired + 1 })

section
variable {s : State} {id : Nat} {o : OpEntry} {r : TaskRun}

theorem snapDigest_snaps (htask : (s.engine o.eng).task = some r) :
    (∃ b, (s.snapDigest o).engine o.eng = { s.engine o.eng with task := some { r with snap := b } }) ∧
    (∀ j, j ≠ o.eng → (s.snapDigest o).engine j = s.engine j) ∧ s.snapDigest o = { s with engines := (s.snapDigest o).engines } := by
  have hkept : s.engine o.eng = { s.engine o.eng with task := some { r with snap := r.snap } } := by rw [← htask]
  cases hctx : s.ctx o.ctx with
  | none =>
    have hsame : s.snapDigest o = s := by simp only [snapDigest, htask, hctx]
    rw [hsame]
    exact ⟨⟨_, hkept⟩, fun _ _ => rfl, rfl⟩
  | some c =>
    have heff : s.snapDigest o = if r.snap.isSome then s else
        s.setEngine o.eng { s.engine o.eng with task := some { r with snap := some c.dig } } := by
      simp only [snapDigest, htask, hctx]
    rw [heff]
    split
    · exact ⟨⟨_, hkept⟩, fun _ _ => rfl, rfl⟩
    · exact ⟨⟨_, engine_setEngine_same ..⟩, fun _ hj => engine_setEngine_other s _ hj, rfl⟩

theorem takenOut_leaves (htask : (s.engine o.eng).task = some r) :
    (∃ b, (s.takenOut id o).engine o.eng = { s.engine o.eng with task := some { r with snap := b } }) ∧
    (∀ j, j ≠ o.eng → (s.takenOut id o).engine j = s.engine j) ∧
    (s.takenOut id o).ops = s.ops.filter (fun x => x.id ≠ id) ∧
    (s.takenOut id o).counter (eOff o.eng + 0x10) = satAdd (s.counter (eOff o.eng + 0x10)) 1 ∧
    (∀ a, a ≠ eOff o.eng + 0x10 → (s.takenOut id o).counter a = s.counter a) ∧
    s.takenOut id o = { s with ops := (s.takenOut id o).ops, engines := (s.takenOut id o).engines,
                               counters := (s.takenOut id o).counters, ctxs := (s.takenOut id o).ctxs } := by
  obtain ⟨hsnap, hothers, hframe⟩ := snapDigest_snaps (s := s.dropOp id) htask
  rw [takenOut]
  generalize (s.dropOp id).snapDigest o = u at *
  have hcounters (a : Nat) : u.counter a = s.counter a := (congrArg (State.counter · a) hframe :)
  have hops : u.ops = s.ops.filter (fun x => x.id ≠ id) := (congrArg State.ops hframe :)
  rw [modJob, modCtx_frame]
  refine ⟨hsnap, hothers, hops, (bump_same u _ 1).trans (by rw [hcounters]), fun a ha => (bump_other u _ 1 a ha).trans (hcounters a), ?_⟩
  rw [hframe]
  rfl

/-- A code raised at a retire as an engine's own shows in the engine's status. -/
theorem raiseOp_raises {code : Half} {e : Nat} (detail : List Byte) (he : e < 6) (hclass : codeClass code ≠ 1)
    (hkv : codeChapter code ≠ 0x90) (hprefix : codeChapter code ≠ 0xA0) :
    (s.raiseOp code e detail).lastCode (eOff e + 4) = code ∧
    (∀ a, a ≠ 0x270030 → (s.raiseOp code e detail).counter a = s.counter a) ∧
    s.raiseOp code e detail = { s with counters := (s.raiseOp code e detail).counters, log := (s.raiseOp code e detail).log } := by
  have hcheck : ∃ c, (if code = 0x2901#16 ∨ code = 0x2902#16 ∨ code = 0x2903#16 ∨ code = 0x2904#16 then s.bump 0x270030 1 else s) =
      { s with counters := c } ∧ ∀ a, a ≠ 0x270030 → tget 0 c a = s.counter a := by
    split
    · exact ⟨_, rfl, fun a ha => bump_other s _ 1 a ha⟩
    · exact ⟨s.counters, rfl, fun _ _ => rfl⟩
  obtain ⟨c, hc, hcounters⟩ := hcheck
  have heff : s.raiseOp code e detail = State.raise { s with counters := c } code 0x05 e 1 detail := by
    unfold raiseOp
    dsimp only
    rw [hc, if_neg hclass, if_neg (not_or.2 ⟨hkv, hprefix⟩)]
  obtain ⟨l, hl⟩ := raise_frame { s with counters := c } code 0x05 e 1 detail
  refine ⟨?_, fun a ha => ?_, ?_⟩
  · rw [heff, lastCode_raise, if_pos (engStat_mem he _)]
  · rw [heff, hl]
    exact hcounters a ha
  · rw [heff, hl]

theorem opRetireEff_fault (hop : s.op id = some o) (hmay : s.mayRetire o = true) (hcls : o.cls ≠ .culvert) (hfault : o.fault ≠ 0) :
    s.opRetireEff id =
      ((((s.takenOut id o).raiseOp o.fault o.eng o.detail).failTask o.eng o.fault o.idx).taskCheck o.eng).syncWaits := by
  unfold opRetireEff
  rw [hop]
  dsimp only
  rw [if_neg (not_not.2 hmay), if_neg hcls, if_pos hfault]
  rfl

theorem opRetire_faults (hop : s.op id = some o) (hmay : s.mayRetire o = true) (hfault : o.fault ≠ 0) (heng : o.eng < 6)
    (hclass : codeClass o.fault ≠ 1) (hkv : codeChapter o.fault ≠ 0x90) (hprefix : codeChapter o.fault ≠ 0xA0)
    (hcls : o.cls ≠ .culvert) (htask : (s.engine o.eng).task = some r) (hfirst : r.fail = 0) :
    ∃ u : State, exec (.opRetire id) s = .next (u.taskCheck o.eng).syncWaits ∧ u.op id = none ∧
      (∃ b, (u.engine o.eng).task = some { r with fail := o.fault, failOp := o.idx, snap := b }) ∧
      (∀ x, x ∈ u.ops ↔ x ∈ s.ops ∧ x.id ≠ id ∧ ofTask x o.eng r = false) ∧
      u.lastCode (eOff o.eng + 4) = o.fault ∧
      u.counter (eOff o.eng + 0x10) = satAdd (s.counter (eOff o.eng + 0x10)) 1 ∧
      (∀ j, j ≠ o.eng → u.engine j = s.engine j) ∧
      u = { s with ops := u.ops, engines := u.engines, counters := u.counters, ctxs := u.ctxs, log := u.log } := by
  have heff := opRetireEff_fault hop hmay hcls hfault
  obtain ⟨⟨b, hsnap⟩, hothers, hops, hcount, -, hframe⟩ := takenOut_leaves (s := s) (id := id) htask
  generalize s.takenOut id o = u at *
  obtain ⟨hcode, hcounters, hframe'⟩ := raiseOp_raises (s := u) o.detail heng hclass hkv hprefix
  generalize u.raiseOp o.fault o.eng o.detail = v at *
  have hengines (j : Nat) : v.engine j = u.engine j := (congrArg (State.engine · j) hframe' :)
  have hvops : v.ops = s.ops.filter (fun x => x.id ≠ id) := (congrArg State.ops hframe' :).trans hops
  have hengine := (hengines o.eng).trans hsnap
  rw [failTask_first (s := v) (by rw [hengine]) (by exact hfirst), hengine, hvops] at heff
  have hmem (x : OpEntry) : x ∈ (s.ops.filter (fun x => x.id ≠ id)).filter (fun x => !ofTask x o.eng { r with snap := b }) ↔
      x ∈ s.ops ∧ x.id ≠ id ∧ ofTask x o.eng r = false := by
    rw [List.mem_filter, List.mem_filter, decide_eq_true_iff, Bool.not_eq_true', and_assoc]
    exact Iff.rfl
  have hslot : eOff o.eng + 0x10 ≠ 0x270030 := by unfold eOff; omega
  refine ⟨_, congrArg Host.Outcome.next heff, ?_, ⟨b, congrArg Engine.task (engine_same_of_engines rfl)⟩, hmem, hcode,
    (hcounters _ hslot).trans hcount, fun j hj => (engine_other_of_engines rfl hj).trans ((hengines j).trans (hothers j hj)), ?_⟩
  · refine List.find?_eq_none.2 fun x hx h => ?_
    exact ((hmem x).1 hx).2.1 (of_decide_eq_true h)
  · rw [hframe', hframe]
    rfl

/-! ### Without a fault -/

theorem retireVary_of_not_vary (h : o.vary = false) : s.retireVary o = s := if_neg (by rw [h]; exact Bool.false_ne_true)

theorem applyHeld_of_no_check (h : o.check = none) : s.applyHeld o = s := by
  unfold applyHeld
  rw [h]

theorem releaseOut_of_no_block (h : o.block = none) : s.releaseOut o = s := by
  unfold releaseOut
  rw [h]

/-- An operation that is not provisional adds to its context's digest alone. -/
theorem retireDigest_frame (h : o.prov = false) : s.retireDigest o = { s with ctxs := (s.retireDigest o).ctxs } := by
  unfold retireDigest
  rw [if_neg (by rw [h]; exact Bool.false_ne_true)]
  split
  · rw [modCtx_frame]
  · rw [modCtx_frame]

/-- A task with operations yet to issue, and no fault, goes on. -/
theorem taskCheck_running {e : Nat} (htask : (s.engine e).task = some r) (hnext : r.next < r.ops) (hfail : r.fail = 0) :
    s.taskCheck e = s := by
  unfold taskCheck
  rw [htask]
  refine if_neg fun h => ?_
  rcases h.1 with hdone | hfailed
  · exact absurd hnext (Nat.not_lt.2 hdone)
  · exact hfailed hfail

theorem opRetireEff_clean (hop : s.op id = some o) (hmay : s.mayRetire o = true) (hfault : o.fault = 0) (hnote : o.note = 0)
    (hvary : o.vary = false) (hcheck : o.check = none) (hblock : o.block = none) (hcls : o.cls ≠ .culvert) :
    s.opRetireEff id = (((s.takenOut id o).retireDigest o).taskCheck o.eng).syncWaits := by
  unfold opRetireEff
  rw [hop]
  dsimp only
  rw [if_neg (not_not.2 hmay), if_neg hcls, if_neg (not_not.2 hfault), if_pos hnote, retireVary_of_not_vary hvary,
    applyHeld_of_no_check hcheck, releaseOut_of_no_block hblock]
  rfl

theorem opRetire_retires (hop : s.op id = some o) (hmay : s.mayRetire o = true) (hfault : o.fault = 0) (hnote : o.note = 0)
    (hvary : o.vary = false) (hprov : o.prov = false) (hcheck : o.check = none) (hblock : o.block = none) (hcls : o.cls ≠ .culvert)
    (htask : (s.engine o.eng).task = some r) (hfail : r.fail = 0) (hnext : r.next < r.ops) :
    ∃ t, exec (.opRetire id) s = .next t ∧ (∀ x, x ∈ t.ops ↔ x ∈ s.ops ∧ x.id ≠ id) ∧
      (∃ b, unwaited (t.engine o.eng) = unwaited { s.engine o.eng with task := some { r with snap := b } }) ∧
      t.counter (eOff o.eng + 0x10) = satAdd (s.counter (eOff o.eng + 0x10)) 1 ∧
      (∀ j, j ≠ o.eng → unwaited (t.engine j) = unwaited (s.engine j)) ∧
      (∀ a, a ≠ eOff o.eng + 0x10 → t.counter a = s.counter a) ∧
      t = { s with ops := t.ops, engines := t.engines, counters := t.counters, ctxs := t.ctxs } := by
  have heff := opRetireEff_clean hop hmay hfault hnote hvary hcheck hblock hcls
  obtain ⟨⟨b, hsnap⟩, hothers, hops, hcount, hcounters, hframe⟩ := takenOut_leaves (s := s) (id := id) htask
  have hdigest := retireDigest_frame (s := s.takenOut id o) hprov
  generalize (s.takenOut id o).retireDigest o = v at *
  generalize s.takenOut id o = u at *
  have hengines (j : Nat) : v.engine j = u.engine j := (congrArg (State.engine · j) hdigest :)
  rw [taskCheck_running (by rw [hengines, hsnap]) (by exact hnext) (by exact hfail)] at heff
  obtain ⟨hsync, hwaits⟩ := syncWaits_waits v
  generalize v.syncWaits = t at *
  have hcounter (a : Nat) : t.counter a = u.counter a := (congrArg (State.counter · a) (hsync.trans (by rw [hdigest])) :)
  have htops : t.ops = s.ops.filter (fun x => x.id ≠ id) :=
    (congrArg State.ops hsync :).trans ((congrArg State.ops hdigest :).trans hops)
  refine ⟨t, congrArg Host.Outcome.next heff, fun x => ?_, ⟨b, ?_⟩, (hcounter _).trans hcount, fun j hj => ?_,
    fun a ha => (hcounter a).trans (hcounters a ha), ?_⟩
  · rw [htops, List.mem_filter, decide_eq_true_iff]
  · rw [hwaits, hengines, hsnap]
  · rw [hwaits, hengines, hothers j hj]
  · rw [hsync, hdigest, hframe]

end

end Sys2Proof.Machine.State

open Sys2Proof Sys2Proof.Machine Sys2Proof.Machine.State in
/-- Settles O34: the first engine that can take a task takes the first context's; a completion puts the operation's writes in
place, or keeps them staged; a retirement takes the entry out, and fails its task where it holds a fault. -/
theorem tasksPlacedOperationsCompleteAndRetire : Obligations.TasksPlacedOperationsCompleteAndRetire := by
  unfold Obligations.TasksPlacedOperationsCompleteAndRetire
  refine ⟨fun s p e c rest x r hserves hservice htries htask hfirst hnext =>
      taskPlace_places hserves hservice htries htask hfirst hnext,
    fun s id o hop hopen hmet hremote hsig hword _ hdig hcls =>
      opComplete_completes hop hopen hmet hremote hsig hword hdig (fun h => ?_) (fun h => ?_),
    fun s id hop hlate => opComplete_unknown hop hlate,
    fun s id o r hop hmay hfault heng hclass hkv hprefix hcls htask hfirst =>
      opRetire_faults hop hmay hfault heng hclass hkv hprefix hcls htask hfirst,
    fun s id o r hop hmay hfault hnote hvary hprov hcheck hblock hcls _ htask hfail hnext =>
      opRetire_retires hop hmay hfault hnote hvary hprov hcheck hblock hcls htask hfail hnext⟩
  · rw [h] at hcls
    exact absurd hcls (by decide)
  · rw [h] at hcls
    exact absurd hcls (by decide)

end
